-- ==== Sys2Proof/Word.lean ====
section
/-! DEFINITION. The word types of the part and their plainest arithmetic: bytes, 32-bit words, and the conversions between
integers and two's-complement bit patterns. -/

namespace Sys2Proof

/-- A byte of memory (R42). -/
abbrev Byte := BitVec 8

/-- A 32-bit register or memory word (R17, R42). -/
abbrev Word := BitVec 32

/-- A 64-bit memory word, the unit of the ECC (R394). -/
abbrev DWord := BitVec 64

/-- 2 to the power `n`. -/
def pow2 (n : Nat) : Nat := 1 <<< n

/-- The two's-complement pattern of `x` in `w` bits, as a natural number below `2 ^ w`. -/
def ofInt (w : Nat) (x : Int) : Nat := (x % (pow2 w : Int)).toNat

/-- The value of the low `w` bits of `n` read as a two's-complement integer. -/
def toSigned (w n : Nat) : Int :=
  let m := n % pow2 w
  if m < pow2 (w - 1) then (m : Int) else (m : Int) - (pow2 w : Int)

/-- Bits `lo` to `lo + len - 1` of `n`. -/
def bits (n lo len : Nat) : Nat := (n >>> lo) % pow2 len

/-- Bit `i` of `n`. -/
def bit (n i : Nat) : Bool := n.testBit i

/-- `n` limited to `top` from above: a counter that saturates. -/
def satTo (top n : Nat) : Nat := if n ≤ top then n else top

/-- A Boolean as a one-bit field. -/
def b2n (b : Bool) : Nat := if b then 1 else 0

/-- `x` limited to the range from `lo` to `hi`. -/
def clampInt (lo hi x : Int) : Int := if x < lo then lo else if hi < x then hi else x

/-- Quotient rounded up. -/
def ceilDiv (a b : Nat) : Nat := (a + b - 1) / b

end Sys2Proof
end

