-- ==== Sys2Proof/Syntax.lean ====
section
/-! DEFINITION. The commands of the part: one constructor for every row of the table of operations and events. What an operand stands
for is said at its constructor; outcomes that only the world outside can settle (an edge count, a received byte, the verdict of a
signature check) are operands. -/

namespace Sys2Proof

namespace Machine

/-- A bus master (Table 1.7, Table 17.1). -/
inductive Master where
  | nav
  | whipping
  | dma (c : Fin 8)
  | loop (c : Fin 8)
  | fabric
  | port (n : Fin 4)
  | host
  | jtag
  deriving DecidableEq, Repr

/-- Outcomes of a snapshot cycle (R342, R343, R347). -/
inductive SnapOutcome where
  | notHot | fix | noFixSats | captureAbort | abandoned | streamTimeout
  deriving DecidableEq, Repr

/-- The saved settings of one sample port (Table 7.1). -/
structure SavedPort where
  port : Nat
  rate : Nat              -- RATE_KHZ, DEC and FMT at the save (Table 7.2)
  dec  : Nat
  fmt  : Nat
  thr  : Nat              -- THR
  gain : Nat              -- gain code
  deriving DecidableEq, Repr

/-- What a record of kept data says of one satellite (Tables 7.1 and 7.2); times are RTC seconds. -/
structure SavedSat where
  high   : Bool             -- above 10° elevation at the start
  eph    : Option (Nat × Nat)  -- validity interval of its broadcast ephemeris: first and last second
  extRef : Option Nat       -- reference time of the broadcast set from which its orbit extension was made
  deriving DecidableEq, Repr

/-- What a record of kept data says, in the terms of Table 7.2. The encoding of its sections belongs to Fofiys firmware, so an operand brings
what they say. -/
structure HotFacts where
  at_     : Nat             -- RTC time of the record, seconds
  timeUnc : Nat             -- time uncertainty at the save, µs
  drift   : Nat             -- drift bound of the RTC model, ns per second
  posUnc  : Nat             -- position uncertainty at the save, m
  moved   : Bool            -- ignition ON, wheel speed or a movement wake since the save
  almanac : Bool            -- an almanac is held
  sats    : List SavedSat
  ports   : List SavedPort
  deriving DecidableEq, Repr

/-- One step of a sleep-and-fix cycle (R342): it begins; Strands are committed for satellites, each with the body that predicts it (the model sets
MODE, CP_SPAN, DOP_SPAN and DWELL as the stage has them); or its work is done and the cycle goes to its end. -/
inductive SnapStep where
  | begin_
  | commit (bodies : List (Fin 512 × List (BitVec 32)))
  | finish
  deriving DecidableEq, Repr

/-- What the tests of a cold boot find, and what the started image brings (R212, R411, R413, 8.10). -/
structure BootFacts where
  engines : List Nat                 -- engines that fail a part of their built-in test
  cores   : List Nat                 -- loop cores whose local memory fails
  rows    : List (Nat × Nat × Nat)   -- failing rows: unit, bank, row
  spares  : List (Nat × Nat × Nat)   -- unused spares that fail their own test: unit, bank, spare
  again   : List (Nat × Nat)         -- banks whose second test fails: unit, bank
  march   : List Nat                 -- those of the failing engines that fail the march part (R212)
  hot     : HotFacts                 -- what the record that the start loads from the hot-start store says (R325)
  wipeBad : Nat                      -- read-backs of an interrupted wipe that find a word that is not 0 (R433, R783)
  shapes  : List (List (BitVec 16))  -- the reference shapes 0 to 31 of the started image, 257 values each (R248)
  ports   : List Nat                 -- sample ports that the started image enables (R91)
  vendor  : List (List Nat)          -- code words of the vendor kernels K0 to K5
  deriving DecidableEq, Repr

/-- What a time solution gives Fofiys firmware of the time pulse (R317). -/
structure PulseFix where
  err   : Int             -- pulse error without the delays of Table 6.4, 2^−16 ns, positive where the pulse is late
  unc   : Nat             -- uncertainty for TP_DISC, ps
  edge  : Nat             -- next edge for a step, 2^−32 timing clock
  label : Nat             -- its label
  deriving DecidableEq, Repr

/-- The latest navigation solution, as far as other services use it (R605, R689, R698, Table 16.4). It comes from outside the specification's
rules, so an operand of TELEMETRY_SECOND brings it. -/
structure NavFix where
  valid  : Bool
  speed  : Nat            -- horizontal speed, mm/s
  unc    : Nat            -- horizontal uncertainty, mm
  lat    : Int            -- latitude and longitude, 10^−7 degree
  lon    : Int
  at_    : Nat            -- timing count of the solution
  time   : Nat            -- GNSS time of the solution, seconds since 2000-01-01 00:00:00 UTC
  pulse  : Option PulseFix  -- of a solution that holds time (R317)
  deriving DecidableEq, Repr

end Machine

/-- The commands: one constructor for every row of the table of operations and events. -/
inductive Instr where
  /-- The backup domain powers up from no supply and every domain is reset with cause POR (R642). -/
  | powerOnReset
  /-- VIN returns after falling below 2.0 V; the always-on and core domains are reset (R642). -/
  | vinLoss
  /-- VIN falls below 2.0 V and the device enters Backup, powered from VBKP (R615). -/
  | backupEntry
  /-- VIN stays below 2.85 V for the brownout filter time; the always-on and core domains are reset (R642). -/
  | brownout
  /-- RESET_N is held low for at least 1 µs and the core is reset (R642). -/
  | resetPin
  /-- TCXO_IN is absent for 8 low-power oscillator periods and the core is reset with cause REF_LOST (R31). -/
  | refLost
  /-- The main PLL loses lock and the core is reset with cause PLL_UNLOCK (R32). -/
  | pllUnlock
  /-- The watchdog count reaches TIMEOUT and the core is reset with cause WATCHDOG (R645). -/
  | watchdogTimeout
  /-- A write to SYS_WDKICK restarts the watchdog count, or resets the core if the value is wrong (R645). -/
  | watchdogKick (v : BitVec 32)
  /-- A write to SYS_RST with the key and CORE set causes a SOFTWARE reset (R646). -/
  | softwareReset (v : BitVec 32)
  /-- At the end of any reset the boot ROM runs the cold-boot sequence and starts Fofiys firmware (R647). -/
  | coldBoot (f : Machine.BootFacts)
  /-- With firmware not started, the boot ROM sends a HEARTBEAT with DSTATE 0 on CAN0 every 1 s (R648). -/
  | bootRomHeartbeat
  /-- In BLANK the tester releases TESTEN after programming fuses and the core is reset with LIFECYCLE (R426). -/
  | testenRelease
  /-- Every 1 ms the six temperature sensors are sampled and the thermal flags evaluated (R36). TS0 to TS5 in 0.1 °C; VIN, VBKP, the core voltage and VIN_SENSE in mV. -/
  | tempSample (ts : List Int) (rails : List Nat)
  /-- A bus read of memory returns data, corrects single-bit errors or fails with an error response (R396). The master, the byte address, and the access size: 2 to the power `size` bytes. -/
  | memoryRead (m : Machine.Master) (a : BitVec 32) (size : Fin 4)
  /-- A bus write to memory stores data, by read-modify-write for partial widths (R398). The master, the byte address, the access size as 2 to the power `size` bytes, the data; `hit` says that the write meets a port B write of the same word (R152). -/
  | memoryWrite (m : Machine.Master) (a : BitVec 32) (size : Fin 4) (v : BitVec 64) (hit : Bool)
  /-- A write to the set alias ORs the value atomically into the base word (R45). The master, the base address of the word, the access size as 2 to the power `size` bytes, the written value. -/
  | setAliasWrite (m : Machine.Master) (a : BitVec 32) (size : Fin 4) (v : BitVec 64)
  /-- A write to the clear alias clears the written bits atomically in the base word (R45). The master, the base address of the word, the access size as 2 to the power `size` bytes, the written value. -/
  | clearAliasWrite (m : Machine.Master) (a : BitVec 32) (size : Fin 4) (v : BitVec 64)
  /-- A write to a register without a row of its own updates its fields by their access codes (R18). The master, the register address, the value. -/
  | registerWrite (m : Machine.Master) (a : BitVec 32) (v : BitVec 32)
  /-- A read of an RCLR counter returns its value and clears it (R20). The master, the register address. -/
  | rclrCounterRead (m : Machine.Master) (a : BitVec 32)
  /-- A write of PWR_PL.TARGET starts a performance-level change or is refused (R619). -/
  | plTargetWrite (v : BitVec 32)
  /-- The voltage slew and fabric divisor switch complete and the new level is in force (R618). -/
  | plChangeComplete
  /-- A START bit arms a sample port with a valid configuration, or refuses it with CFG_ERR (R67). The operand is the whole value written to SPORT_CTRL. -/
  | portStart (v : BitVec 32)
  /-- A STOP bit sets a port OFF, with synthetic counting while its Strands are not IDLE (R73). The operand is the whole value written to SPORT_CTRL. -/
  | portStop (v : BitVec 32)
  /-- The first sampling edge after the start edge moves the port to RUN and latches SPn_REF0 (R69). Port n; the input fields I and Q of its first sample. -/
  | portRun (n : Fin 4) (iq : Nat × Nat)
  /-- The port writes the last sample of a ring block and writes its tag (R89). Port n; the input fields I and Q of the sampling edges since the last sample taken. -/
  | ringBlockWritten (n : Fin 4) (xs : List (Nat × Nat))
  /-- The count does not advance for STOP_WIN system clocks; the port enters GAP and counts synthetically (R92). Port n; the input fields of the sampling edges before the stop that are not yet taken. -/
  | stopDeclared (n : Fin 4) (xs : List (Nat × Nat))
  /-- A decoded count step other than 0 or +1 sets DISCONT and marks the block SUSPECT (R94). -/
  | discontinuity (n : Fin 4)
  /-- At each 1 ms window end the monitor evaluates the edge count for rate change, glitch or gap recovery (R96). For each port in order, the input fields of the sampling edges since the last one taken. -/
  | monitorWindowEnd (xs : List (List (Nat × Nat)))
  /-- After four good windows the port resumes at the next ring-block boundary and sets RESUMED (R101). -/
  | portResume (n : Fin 4)
  /-- A notch enable, K or FREQ change takes effect at the next ring-block boundary (R80). -/
  | notchConfigApply (n : Fin 4) (m : Fin 2)
  /-- Every 16 ring samples an adaptive notch steps FREQ by 2^MU (R81). Port n, notch m; the input fields of the sampling edges up to the sixteenth ring sample. -/
  | notchAdapt (n : Fin 4) (m : Fin 2) (xs : List (Nat × Nat))
  /-- Every 4096 ring samples the notch depth is reported (R82). -/
  | notchDepthUpdate (n : Fin 4) (m : Fin 2)
  /-- Every 4096 ring samples the re-quantiser threshold adapts to MAG_TGT (R84). -/
  | thresholdUpdate (n : Fin 4)
  /-- Every 64 ms the averaged spectrum is published and peaks are found (R105). Port n. -/
  | spectrumPublish (n : Fin 4)
  /-- Whipping disables a notch whose depth has stayed below 3 dB for 1 s (R109). -/
  | notchRelease (n : Fin 4) (m : Fin 2)
  /-- A write of TSPI_CMD queues a tuner SPI transaction, or is discarded when the queue is full (R111). -/
  | tspiCmd (v : BitVec 32)
  /-- A tuner SPI transaction completes and a READ stores its data in the receive FIFO (R112). -/
  | tspiTransactionDone (rx : BitVec 24)
  /-- A read of TSPI_RX returns and removes the oldest received data (R112). -/
  | tspiRxRead
  /-- Every 100 ms Whipping compares the mean THR with its limits and queues a gain step (R114). -/
  | gainControlTick
  /-- A read of SPn_CNT_LO returns counter bits [31:0] and latches [63:32] into CNT_HI (R69). -/
  | spCntLoRead (n : Fin 4)
  /-- A scan reads every commit word and performs the pick-up on each entry (R139). -/
  | strandScan
  /-- A write to FAB_FLUSH queues a doorbell, or is discarded when the queue is full (R141). -/
  | fabFlush (v : BitVec 32)
  /-- The cache serves a waiting doorbell with a pick-up of one Strand or a full scan (R142). -/
  | doorbellServed
  /-- A staged body of an IDLE or SEARCH Strand is applied at the next ring-block boundary (R135). -/
  | stagedBodyApply (k : Fin 512)
  /-- A write to subindex 0x41 makes firmware compute CHK, write the commit word and optionally ring a doorbell (R156). -/
  | strandCommitObject (link : Fin 10) (k : Fin 512) (bell : Bool)
  /-- The dispatcher moves the head of the issue queue into its home engine's deque (R178). -/
  | dispatchToDeque
  /-- An engine without an item takes from its deque or steals from a victim, starving late items (R189). -/
  | engineTake (e : Fin 32)
  /-- An engine finishes an item and writes its sums to a free accumulator slot (R167). -/
  | itemComplete (e : Fin 32)
  /-- The gatherer drains one accumulator slot into the Strand's sums every 16 fabric clocks (R197). -/
  | gather (c : Fin 4)
  /-- Every 256 fabric clocks the reaper starves items past their deadline (R183). -/
  | reaperSweep
  /-- Once the port has passed a boundary and its task has returned, transitions, staged bodies and rates apply (R173). -/
  | integrationClose (k : Fin 512)
  /-- PULL_TMO expires in PULL_IN and the Strand returns to SEARCH or goes IDLE with NO_LOCK (R145). -/
  | pullTmoExpiry (k : Fin 512)
  /-- COAST_MAX is reached and the Strand moves to PULL_IN or IDLE (R145). -/
  | coastMaxExpiry (k : Fin 512)
  /-- The fabric allocates free tranche entries to SEARCH Strands in turn (R207). -/
  | trancheAllocate
  /-- An allocated tranche starts at the first ring-block boundary and its search items are created (R204). -/
  | trancheStart (t : Fin 64)
  /-- After DETECT the Strand enters PULL_IN at the next ring-block boundary as a replica start (R264). -/
  | searchDetectEntry (k : Fin 512)
  /-- A START in FAB_TEST puts the named engine to rest, or is refused (R214). -/
  | engineTestStart (v : BitVec 32)
  /-- When the resting engine is idle with an empty deque it runs March C- over its accumulators (R214). -/
  | engineRestMarch
  /-- The engine test ends; the engine returns to service or is retired (R215). -/
  | engineTestComplete (pass : Bool)
  /-- A free core takes the task with the lowest due key, restoring a saved one if chosen (R222). -/
  | loopTaskDispatch (c : Fin 8)
  /-- At the first permitted point the core saves the task context into its slot (R378). -/
  | preemptSave (c : Fin 8)
  /-- A write of SSPI_CMD runs one sensor SPI transaction (R277). -/
  | sspiCmd (v : BitVec 32)
  /-- A sensor SPI transaction completes and received bytes enter the receive FIFO (R277). -/
  | sspiTransactionDone (rx : List (BitVec 8))
  /-- An active SSPI_DRDY edge stores SP0's count and repeats an AUTO transaction (R278). -/
  | sspiDrdyEdge
  /-- A read of SSPI_RX returns and removes the oldest received byte (R277). -/
  | sspiRxRead
  /-- A read of SSPI_DRDY returns and removes the oldest stamp (R278). -/
  | sspiDrdyRead
  /-- The receiver sample counter passes an epoch instant; an epoch occurs or NOEPOCH is set (R281). -/
  | hitchInstantDue
  /-- Once the release condition holds the Hitch unit writes all 512 records and signals the epoch (R293). -/
  | hitchRelease
  /-- An anchor still open after WAIT makes the record be written LATE (R290). -/
  | anchorWaitExpiry
  /-- DMA channel 0 finishes copying a released buffer and writes HITCH_CPIDX (R303). -/
  | hitchCopyComplete
  /-- A write of HITCH_CTRL sets or cancels a pending rate change and updates the other fields (R284). -/
  | hitchCtrlWrite (v : BitVec 32)
  /-- A write of HITCH_BASE_HI makes the BASE pair pending (R284). -/
  | hitchBaseHiWrite (v : BitVec 32)
  /-- A write of HITCH_ADJ moves the next epoch instant, or is ignored with CFG_ERR (R285). -/
  | hitchAdj (v : BitVec 32)
  /-- A read of TCNT_LO returns bits [31:0] and latches [63:32] into TCNT_HI (R306). -/
  | tcntLoRead
  /-- TCNT reaches the next edge; the schedule advances, the label increases and the pulse fires (R307). -/
  | tpEdgeUpdate
  /-- WIDTH after the active edge the pulse returns to its inactive level (R309). -/
  | tpInactiveEdge
  /-- Once per second Whipping calibrates the fine delay line (R308). -/
  | tpDelayCal
  /-- A write of TP_DISC sets TSTATE LOCKED with the written uncertainty (R313). -/
  | tpDisc (v : BitVec 32)
  /-- A write of TP_CMD.HOLD moves TSTATE from LOCKED to HOLDOVER (R313). -/
  | tpHold
  /-- A write of TP_CMD.STEP_GO makes a step pending for the next edge update (R318). -/
  | tpStepGo
  /-- HOLD_TMO seconds after the last TP_DISC, TSTATE moves to HOLDOVER (R781). -/
  | holdTimeout
  /-- Every second in HOLDOVER or FREE the uncertainty grows, and above LIMIT_NS TSTATE becomes FREE (R314). -/
  | holdoverTick
  /-- A qualifying TMARK edge is time-stamped into the FIFO or discarded (R320). Whether the edge rises, and for how many timing clocks the new level has stayed. -/
  | tmarkCapture (rise : Bool) (held : BitVec 32)
  /-- A read of TM_T_LO removes the oldest capture and latches its high word and info (R322). -/
  | tmTLoRead
  /-- At a save point firmware writes the live record into the next hot-start slot, header last (R326). The live record: bytes 0x40 onwards of the slot it makes (Table 7.1). -/
  | hsSave (live : List Nat)
  /-- A write of HS_SAVE_NOW requests a hot-start save (R326). The live record at the write. -/
  | hsSaveNow (live : List Nat)
  /-- A write of COIL_CTRL.ARM arms a capture, or is refused (R331). The operand is the whole value written to COIL_CTRL. -/
  | coilArm (v : BitVec 32)
  /-- A selected port starts its capture at its first permitted ring-block boundary (R332). -/
  | coilCaptureStart (n : Fin 4)
  /-- A write of RELEASE takes the capture to EMPTY (R336). The operand is the whole value written to COIL_CTRL. -/
  | coilRelease (v : BitVec 32)
  /-- A write of ABORT empties an ARMED or FILLING capture and sets ABORTED (R336). The operand is the whole value written to COIL_CTRL. -/
  | coilAbort (v : BitVec 32)
  /-- A port whose ring writing was held resumes at its next ring-block boundary (R336). -/
  | ringWriteResume (n : Fin 4)
  /-- At a due countdown wake firmware runs one capture-and-fix cycle and returns to Slack (R342). The step of the cycle, and the live record that the end of a cycle leaves. -/
  | snapshotCycle (what : Machine.SnapStep) (live : List Nat)
  /-- A write of COIL_RELEASE releases a streamed capture (R347). The link of the write. -/
  | coilReleaseObject (l : Fin 10)
  /-- 30 s after HELD without release, firmware releases the capture and reports STREAM_TIMEOUT (R347). -/
  | coilStreamTimeout
  /-- Load a word into A (R367). -/
  | ld (c : Fin 8)
  /-- Load a Q15 half into A at bits [31:16] (R367). -/
  | ldh (c : Fin 8)
  /-- Load a register selected by AUX (R367). -/
  | ldg (c : Fin 8)
  /-- Store A saturated to Q31 (R367). Core c; `hit` says that the store meets a port B write of the same word (R152, R353). -/
  | st (c : Fin 8) (hit : Bool)
  /-- Store A rounded and saturated into a Q15 half (R367). Core c; `hit` says that the store meets a port B write of the same word (R152, R353). -/
  | sth (c : Fin 8) (hit : Bool)
  /-- Store A[31:0] (R367). Core c; `hit` says that the store meets a port B write of the same word (R152, R353). -/
  | sta (c : Fin 8) (hit : Bool)
  /-- Store a register into a half word (R367). Core c; `hit` says that the store meets a port B write of the same word (R152, R353). -/
  | stg (c : Fin 8) (hit : Bool)
  /-- Add a word to A (R367). -/
  | add (c : Fin 8)
  /-- Add a Q15 half to A (R367). -/
  | addh (c : Fin 8)
  /-- Subtract a word from A (R367). -/
  | sub (c : Fin 8)
  /-- Subtract a Q15 half from A (R367). -/
  | subh (c : Fin 8)
  /-- Multiply M by a Q15 operand into A (R367). -/
  | mpy (c : Fin 8)
  /-- Multiply-accumulate M by a Q15 operand into A (R367). -/
  | mac (c : Fin 8)
  /-- Multiply-subtract M by a Q15 operand from A (R367). -/
  | msu (c : Fin 8)
  /-- Complex multiply-accumulate of local words at X and Y into A (R368). -/
  | cmac (c : Fin 8)
  /-- Set flags from A minus a word (R367). -/
  | cmp (c : Fin 8)
  /-- Set flags from A minus a Q15 half (R367). -/
  | cmph (c : Fin 8)
  /-- Bitwise AND into A (R367). -/
  | and (c : Fin 8)
  /-- Bitwise OR into A (R367). -/
  | or (c : Fin 8)
  /-- Bitwise XOR into A (R367). -/
  | xor (c : Fin 8)
  /-- Absolute value of A (R367). -/
  | abs (c : Fin 8)
  /-- Negate A (R367). -/
  | neg (c : Fin 8)
  /-- Clamp A to the Q31 range (R367). -/
  | sat (c : Fin 8)
  /-- Arithmetic shift of A by an immediate count (R367). -/
  | ash (c : Fin 8)
  /-- Arithmetic shift of A by M (R367). -/
  | ashm (c : Fin 8)
  /-- Normalise A and write the shift into M (R369). -/
  | norm (c : Fin 8)
  /-- Add an immediate to a register modulo 2^16 (R367). -/
  | addg (c : Fin 8)
  /-- CORDIC phase of a complex Q15 word into A (R370). -/
  | atn (c : Fin 8)
  /-- CORDIC magnitude of a complex Q15 word into A (R370). -/
  | mag (c : Fin 8)
  /-- Conditional relative branch (R367). -/
  | b (c : Fin 8)
  /-- Conditional call pushing the return address (R367). -/
  | call (c : Fin 8)
  /-- Conditional return, ending the task when the return stack is empty (R355). -/
  | ret (c : Fin 8)
  /-- Repeat the next instruction a count of times, without pre-emption (R372). -/
  | rpt (c : Fin 8)
  /-- Repeat the next instruction RC times, pre-emptible between iterations (R372). -/
  | rpti (c : Fin 8)
  /-- No operation (R367). -/
  | nop (c : Fin 8)
  /-- A loop-core store that received COLLIDE is retried in the next cycle (R353). Core c; `hit` says that the store meets a port B write of the same word (R152, R353). -/
  | storeRetry (c : Fin 8) (hit : Bool)
  /-- A write to a kernel slot register sets VALID, range or limit, or is ignored with REF (R385). Slot n; a write of its RANGE register when `range` is true, else of its CFG register. -/
  | kslotCfgWrite (n : Fin 16) (range : Bool) (v : BitVec 32)
  /-- The last segment of a kernel image starts its checks and loads it into a slot (R391). The bytes of the image. -/
  | kloadImage (img : List Nat)
  /-- A write of KUNLOAD clears a FLEET kernel slot, or is refused (R392). -/
  | kunload (v : BitVec 8)
  /-- A write of RUN_OFF = 1 switches a unit Off, or is refused (R402). -/
  | unitRunOff (u : Fin 18)
  /-- A write of RUN_OFF = 0 powers a unit up and fills it (R400). -/
  | unitRunOn (u : Fin 18)
  /-- A fill completes and the unit becomes available (R401). -/
  | unitFillComplete (u : Fin 18)
  /-- A write of MEM_MTEST.START runs a destructive or preserving test, or is refused (R414). The word written to MEM_MTEST. -/
  | marchTestStart (v : BitVec 32)
  /-- A test on request ends, mapping spares or retiring or marking banks (R416). The failing rows the march found, and the unused spares that fail their own test: bank and number of each. -/
  | marchTestComplete (rows : List (Nat × Nat)) (bad : List (Nat × Nat))
  /-- The row copy ends, the map switches and stalled accesses proceed (R418). The stage of the repair that is in progress ends. While the spare is tested: whether it passed. While the row is copied the operand says nothing. -/
  | liveRepairComplete (spareOk : Bool)
  /-- A write of LC_REQUEST runs a permitted life-cycle transition, or is refused (R425). The link whose session makes the request, and the word. -/
  | lcRequest (link : Fin 10) (v : BitVec 32)
  /-- A write of MEM_THCMD.WIPE requests a wipe of the Thimble bank (R429). The link whose session makes the write; the word written to MEM_THCMD. -/
  | thimbleWipeCmd (link : Fin 10) (v : BitVec 32)
  /-- A write of MEM_THCMD.LOAD loads keys from the store, or is refused (R441). The link whose session makes the write; the word written to MEM_THCMD. -/
  | keyLoadCmd (link : Fin 10) (v : BitVec 32)
  /-- A FLEET write of MEM_THCMD.UNLOCK clears TAMPER_LOCKED (R435). The link whose session makes the write; the word written to MEM_THCMD. -/
  | tamperUnlock (link : Fin 10) (v : BitVec 32)
  /-- A wipe request reaches the wipe engine, blocks the bank and writes zeros (R430). -/
  | wipeStart
  /-- The read-back of a wipe completes; it is verified, repeated or marked failed (R433). Whether every word was read as 0 without an error. -/
  | wipeVerified (ok : Bool)
  /-- An MRAM word write completes and the next queued write starts (R436). -/
  | mramWordWriteDone
  /-- A request reaches a link and is queued, or answered at once with BUSY (R467). The link; on a Wowell link the payload of the REQUEST frame (a CAN link takes the request at the head of its receive FIFO). -/
  | requestReceived (l : Fin 10) (payload : List Nat)
  /-- A READ operation returns an object's value (R459). -/
  | objectRead
  /-- A WRITE operation sets an object, journalling RWP values (R459). -/
  | objectWrite
  /-- A READ_SEG operation returns a segment of a long value (R460). -/
  | readSeg
  /-- A WRITE_SEG operation appends a segment and applies the value at the LAST segment (R461). -/
  | writeSeg
  /-- A SUBSCRIBE operation sets, replaces or cancels a subscription (R470). -/
  | subscribe
  /-- AUTH step 1 returns a fresh nonce (R455). -/
  | authStep1
  /-- AUTH step 2 carries the r value of the signature (R455). -/
  | authStep2
  /-- AUTH step 3 verifies the signature and grants the requested role (R457). -/
  | authStep3
  /-- An ABORT operation abandons a segmented transfer on the same link (R465). -/
  | abortTransfer
  /-- A gap of more than 2 s abandons a segmented write (R462). The link and the object. -/
  | segTransferTimeout (l : Fin 10) (idx : BitVec 16) (sub : BitVec 8)
  /-- An AUTH nonce expires 10 s after step 1 (R457). The link. -/
  | nonceExpiry (l : Fin 10)
  /-- A link barred after 8 failed proofs accepts step 1 again after 60 s (R457). The link. -/
  | authBarExpiry (l : Fin 10)
  /-- After 300 s without a request a Wowell session falls back to PUBLIC (R452). The link. -/
  | sessionTimeout (l : Fin 10)
  /-- Every 10 ms subscribed register objects are sampled for change (R472). -/
  | registerSampling
  /-- A change or period notification is sent, or coalesced when it cannot be queued (R472). The SLOT of the subscription. -/
  | notifySend (slot : Fin 32)
  /-- A Wowell frame is received whole, or discarded as BADFRAME and hunting resumes (R477). The link; if the frame is a WWRITE, how often the write of each word meets a port B write of the same word (R152). -/
  | wowellFrameReceived (l : Fin 10) (hits : List Nat)
  /-- A gap of more than 20 character times discards a partial frame (R478). The link. -/
  | wowellGapTimeout (l : Fin 10)
  /-- HSPI_CS_N rising discards partial frames in both directions (R478). -/
  | hspiCsDeassert
  /-- The host window reads N words and answers with WRESP (R484). -/
  | wread (a : BitVec 32) (n : BitVec 8)
  /-- The host window writes N words and answers with WRESP (R484). ADDR, the words, and how often the write of each meets a port B write of the same word (R152). -/
  | wwrite (a : BitVec 32) (words : List Nat) (hits : List Nat)
  /-- A CAN frame addressed to the node is received into the FIFO, or dropped when full (R488). -/
  | canFrameReceived (n : Fin 2) (id : BitVec 29) (ext : Bool) (fd : Bool) (data : List Nat)
  /-- A queued CAN frame is sent, lowest identifier first (R493). Whether the frame is sent without an error on the bus. -/
  | canFrameSent (n : Fin 2) (ok : Bool)
  /-- After 128 × 11 recessive bits a bus-off controller rejoins the bus (R495). -/
  | canBusoffRecovery (n : Fin 2)
  /-- After a pulse's active edge a TIME frame is queued on the selected CAN links (R491). GPS time of the pulse; GPS minus UTC, when it is valid. -/
  | timeFrameQueue (gtime : BitVec 64) (leap : Option (BitVec 8))
  /-- Every HB_PERIOD a HEARTBEAT frame is sent (R488). The link. -/
  | heartbeat (l : Fin 10)
  /-- At 75 % fill, when permitted, firmware copies the live records into the other area (R506). -/
  | journalCompaction
  /-- A UART character is decided at its stop bit and stored with its error tags (R516). Serial port n (6 is the Lanyard port); the samples of its line at the ticks since those it has taken, true for high, up to sample 9 of the stop bit. -/
  | uartCharReceived (n : Fin 7) (ticks : List Bool)
  /-- A UART character finishes transmission and the transmitter takes the shadow (R522). Serial port n; in half duplex the bits that its receiver decided; whether Un_CTS_N is high. -/
  | uartCharSent (n : Fin 7) (d : BitVec 9) (par : Bool) (stop : Bool) (noise : Bool) (cts : Bool)
  /-- A read of DATA returns and removes the oldest receive entry (R520). -/
  | uartDataRead (n : Fin 7)
  /-- A write of DATA queues a character for transmission (R522). Serial port n and the word written. -/
  | uartDataWrite (n : Fin 7) (v : BitVec 32)
  /-- A write of DATA with BRK queues a break (R522). Serial port n and the word written. -/
  | uartBreakWrite (n : Fin 7) (v : BitVec 32)
  /-- A write of RATE or FMT goes to the shadow, or is ignored with CFG_ERR (R526). Serial port n; whether FMT is written and not RATE; the word; whether a character is being received. -/
  | uartRateWrite (n : Fin 7) (fmt : Bool) (v : BitVec 32) (busy : Bool)
  /-- Four character times without a start bit set IDLE (R523). -/
  | uartIdleDetect (n : Fin 7)
  /-- A write of RXFLUSH empties the receive FIFO (R520). Serial port n and the word written. -/
  | uartRxFlush (n : Fin 7) (v : BitVec 32)
  /-- A write of TXFLUSH empties the transmit FIFO (R520). Serial port n and the word written. -/
  | uartTxFlush (n : Fin 7) (v : BitVec 32)
  /-- A character is received in slow reception and tested for a wake match (R533). The levels at the slow-clock edges since the last. -/
  | uartSlowChar (n : Fin 2) (edges : List Bool)
  /-- A write of SLOW_EXIT returns U0 or U1 from slow reception to RATE (R535). U0 or U1 and the word written to SLOW. -/
  | slowExit (n : Fin 2) (v : BitVec 32)
  /-- A valid ATTACH opens a Lanyard session and the device sends ATTACH_ACK (R539). The tool ID. -/
  | attach (tool : BitVec 32)
  /-- A KEEP frame keeps the Lanyard session alive (R540). -/
  | keep (sid : BitVec 8)
  /-- A DETACH ends the Lanyard session (R540). -/
  | detach (sid : BitVec 8)
  /-- A RATE frame sets a new Lanyard rate after RATE_ACK, or is refused (R542). -/
  | lydRate (sid : BitVec 8) (inc : BitVec 16) (mod : BitVec 16)
  /-- 2 s without a valid frame ends the Lanyard session (R540). -/
  | lydSessionTimeout
  /-- LYD_IO held low for more than 10 ms ends the session (R540). -/
  | lydLineLow
  /-- No valid frame within 1 s at the new rate ends the session (R542). -/
  | lydRateTimeout
  /-- The SERVICE role ends 3600 s after the grant (R543). -/
  | serviceRoleExpiry
  /-- A write of RADIO_CMDGO queues a copy of the staged command, or discards it (R553). -/
  | radioCmdgo (v : BitVec 32)
  /-- A TX command settles, checks limits and coexistence and sends the packet of its buffer (R556). The µs by which lock came after START (R563). -/
  | radioTx (delay : Nat)
  /-- An RX command opens a receive window on channel f (R556). The µs by which lock came after START (R563). -/
  | radioRx (delay : Nat)
  /-- A CS command runs a channel-sounding subevent over the step list (R580). For each step in order, whether CS_SYNC was received and the words measured; the RSSI. -/
  | radioCs (meas : List (Bool × List Nat)) (rssi : BitVec 8)
  /-- An IDLE command moves the radio to IDLE (R556). -/
  | radioIdle
  /-- An OFF command moves the radio to OFF (R556). -/
  | radioOff
  /-- A packet is received into the buffer and the command ends OK or CRC_ERROR (R556). -/
  | radioPacketReceived (pdu : List Nat) (crcOk : Bool) (rssi : BitVec 8)
  /-- The receive window closes without an access-address match (R556). -/
  | radioRxTimeout
  /-- No synthesiser lock within 80 µs ends the command with SYNTH_TIMEOUT (R562). -/
  | synthTimeout
  /-- A read of RADIO_DONE returns and removes the oldest done entry (R558). -/
  | radioDoneRead
  /-- A write of FLUSH ends every queued command not started with FLUSHED (R559). The word written to RADIO_CTRL. -/
  | radioFlush (v : BitVec 32)
  /-- Whipping runs a PA calibration while the radio is idle with an empty queue (R564). The temperature of TS4, 0.1 °C. -/
  | radioPaCal (ts4 : Int)
  /-- Every 1024 low-power oscillator periods the duty window advances one bucket (R573). -/
  | dutyWindowAdvance
  /-- A write of RADIO_FBLOW blows a limit fuse field, or is refused (R574). The link whose session writes, and the word written to RADIO_FBLOW. -/
  | radioFuseBlow (link : Fin 10) (v : BitVec 32)
  /-- A fuse blow completes and the field is read back and verified (R574). The bits that took. -/
  | radioFuseBlowDone (took : Nat)
  /-- At START − LEAD the radio asserts COEX_REQ and COEX_PRI (R575). -/
  | coexRequest
  /-- At START − SAMP the grant is sampled and an absent grant denies the command (R576). -/
  | coexGrantSample (active : Bool)
  /-- COEX_GRANT falls during a transmission and the packet is aborted or completed (R577). For each step in order, whether CS_SYNC was received and the words measured; the RSSI. -/
  | coexGrantLost (meas : List (Bool × List Nat)) (rssi : BitVec 8)
  /-- At each held anchor the radio exchanges empty PDUs and updates the descriptor (R586). The hold descriptor; SN, NESN and the presence of data of the reply, if one came. -/
  | radioHoldEvent (k : Fin 4) (reply : Option (Bool × Bool × Bool))
  /-- A write of HOLD_REL ends the radio hold (R588). The word written to RADIO_CTRL. -/
  | holdRel (v : BitVec 32)
  /-- One second after the hold began the held connections are dropped (R588). -/
  | radioHoldTimeout
  /-- Firmware sends one advertising event on the three primary channels (R594). -/
  | advertisingEvent
  /-- A TOKEN message is checked and, if valid, a CHALLENGE is sent (R597). The connection and its identity address; whether the link is encrypted with the long-term key of a bond; the bytes after the type byte. -/
  | pkeyToken (k : Fin 4) (addr : BitVec 56) (enc : Bool) (msg : List Nat)
  /-- A PROOF that verifies within 5 s makes the connection proved (R597). The connection; r and s. -/
  | pkeyProof (k : Fin 4) (sig : List Nat)
  /-- No verified PROOF within 5 s of CHALLENGE (R597). -/
  | pkeyProofTimeout (k : Fin 4)
  /-- A pairing request is accepted on a proved PAIR connection, or refused with BOND_FULL (R590). The connection; the key-store entry that the key engine makes of the new long-term key. -/
  | pkeyPairingRequest (k : Fin 4) (entry : List Nat)
  /-- A CMD UNLOCK triggers an unlock decision when the count allows (R606). -/
  | pkeyCmdUnlock (k : Fin 4)
  /-- A CMD LOCK is granted with the LOCK right and an open window (R607). -/
  | pkeyCmdLock (k : Fin 4)
  /-- Every CS_PERIOD firmware starts a channel-sounding procedure for an authenticated phone (R600). -/
  | csProcedureStart (k : Fin 4)
  /-- A procedure's distance is judged valid or not and the consecutive count updated (R601). The connection; whether the procedure ended with one of the radio failures of R602; the tone channels with good quality and the unwrapped phase of the product of their tone vectors, in 2^-16 cycle; initiator minus reflector RTT of each mode-1 step with SYNC_OK. -/
  | csProcedureResult (k : Fin 4) (radio : Bool) (tones : List (Nat × Int)) (rtts : List Int)
  /-- A phone connection ends and its consecutive count is reset (R603). -/
  | pkeyConnectionEnd (k : Fin 4)
  /-- A barred identity address may connect again after 60 s (R613). -/
  | pkeyBarExpiry (addr : BitVec 56)
  /-- A received ACCESS frame is carried out as a remote command, or ignored (R610). The CAN controller whose receive FIFO has the frame at its head. -/
  | accessFrameReceived (n : Fin 2)
  /-- A write of REMOTE_CMD carries out an unlock or lock (R610). The link of the write, and the value. -/
  | remoteCmd (link : Fin 10) (v : BitVec 8)
  /-- A write of BOND_DELETE ends the bond's connection and deletes its key entry (R589). The link of the write, and the value. -/
  | bondDelete (link : Fin 10) (v : BitVec 8)
  /-- A write of PKEY_OUTCMD.UNLOCK starts an UNLOCK_OUT pulse (R611). -/
  | pkeyOutUnlock
  /-- A write of PKEY_OUTCMD.LOCK starts a LOCK_OUT pulse (R611). -/
  | pkeyOutLock
  /-- PULSE_MS after its start the output returns to its inactive level (R611). 0 UNLOCK_OUT, 1 LOCK_OUT. -/
  | pkeyPulseEnd (out : Fin 2)
  /-- 10 ms after the other output was ended, the commanded pulse starts (R611). -/
  | pkeyPulseDelayedStart
  /-- A write of PWR_STOP.GO enters Stop, or is refused (R621). -/
  | stopRequest (v : BitVec 32)
  /-- An interrupt request or enabled wake source ends Stop (R623). -/
  | stopExit
  /-- A write of PWR_SLKREQ.GO runs the Slack entry through its abort points (R625). The word written to PWR_SLKREQ; the later abort point (2 to 5) at which conditions come to hold, and their IDs; 0 and none otherwise. -/
  | slackRequest (v : BitVec 32) (ap : Nat) (held : List Nat)
  /-- A wake source qualifies and sets its WAKE_FLAG bit (R634). The source; whether the save area passes its check; the banks whose cells lost their content in Slack (unit, bank); what the live record says; the read-backs of a wipe in Slack that find a word that is not 0. -/
  | wakeSourceQualified (src : Fin 17) (saveOk : Bool) (lost : List (Nat × Nat)) (facts : Machine.HotFacts) (wipeBad : Nat)
  /-- The first access to a domain woken on demand starts its wake and stalls (R638). -/
  | domainWake (d : Fin 4)
  /-- A domain woken on demand becomes ready and stalled accesses complete (R638). -/
  | domainReady (d : Fin 4)
  /-- At a slow-clock edge the oldest queued backup-domain write is applied (R651). PRE at the slow-clock edge at which the write is applied. -/
  | rtcQueuedWriteApply (pre : Fin 32768)
  /-- PRE wraps and the calendar advances one second, with alarm and stamps evaluated (R656). -/
  | rtcSecond
  /-- COMMIT applies the shadow time, or is rejected with DATE_INVALID (R658). PRE at the slow-clock edge at which the write is applied. -/
  | rtcCommit (pre : Fin 32768)
  /-- CAPTURE copies the counting time into the shadow (R658). PRE at the slow-clock edge at which the write is applied. -/
  | rtcCapture (pre : Fin 32768)
  /-- A write of RTC_ADJ moves the counting time by a slow-clock periods (R661). PRE at the slow-clock edge at which the write is applied. -/
  | rtcAdj (pre : Fin 32768)
  /-- The next matching alarm second is recomputed within 64 slow-clock periods (R671). -/
  | anextRecompute
  /-- A write of RTC_ACTL sets the alarm control and clears FIRED (R668). PRE at the slow-clock edge at which the write is applied. -/
  | rtcActlWrite (pre : Fin 32768)
  /-- A read of RTC_TIME0 latches RTC_TIME1 and RTC_SUBSEC (R652). -/
  | rtcTime0Read
  /-- The countdown reaches 0, sets CDF and reloads or stops (R672). -/
  | rtcCountdownExpiry
  /-- A write of RTC_CDCTL.START loads and starts the countdown, or is ignored with CD_ERR (R673). PRE at the slow-clock edge at which the write is applied. -/
  | rtcCdStart (pre : Fin 32768)
  /-- A write of RTC_CDCTL.STOP halts the countdown (R673). PRE at the slow-clock edge at which the write is applied. -/
  | rtcCdStop (pre : Fin 32768)
  /-- No slow-clock edge for 4 periods sets OSF and resets the counting time (R663). -/
  | oscStopDetected
  /-- VBKP falls below the retention threshold with VIN absent and OSF is set (R663). -/
  | vbkpLow
  /-- Every 10 s firmware measures the RTC offset against GNSS and commits, adjusts or trims (R666). The offset measured, µs; the UTC second of the next boundary since 2000-01-01; the rate error measured, ppb. -/
  | rtcDiscipline (ofs : Int) (utc : Nat) (drift : Int)
  /-- An event input qualifies an event, stamps and queues it (R674). The event input, the level it has taken after POL, and PRE at that slow-clock edge. -/
  | eventInputQualified (n : Fin 4) (active : Bool) (pre : Fin 32768)
  /-- A write of EVn_STAT.POP removes the head event entry (R678). The event input; PRE at the slow-clock edge at which the write is applied. -/
  | evPop (n : Fin 4) (pre : Fin 32768)
  /-- A write of UPD_BEGIN starts an image transfer into the idle slot, or is refused (R684). The link of the write; image bytes; IMAGE_VERSION. -/
  | updBegin (link : Fin 10) (b : BitVec 32) (ver : BitVec 32)
  /-- A write of UPD_BLOCK writes an accepted block into the idle slot (R685). The link of the write; block number, CRC-32 and data bytes. -/
  | updBlock (link : Fin 10) (n : BitVec 16) (crc : BitVec 32) (data : List Nat)
  /-- A write of UPD_ACTIVATE sets TRIAL, prepares the handover and writes GO (R690). The link of the write. -/
  | updActivate (link : Fin 10)
  /-- A write of UPD_CANCEL abandons the transfer (R687). The link of the write. -/
  | updCancel (link : Fin 10)
  /-- 600 s without an accepted block abandons the transfer (R687). -/
  | updTransferTimeout
  /-- A write of UPD_CONFIRM confirms the trial image and raises the OTP counter (R698). The link of the write. -/
  | updConfirm (link : Fin 10)
  /-- A write of UPD_CTRL.CONFIRM stops the confirm timer and sets PHASE IDLE (R698). The word that the navigation controller writes to UPD_CTRL. -/
  | updCtrlConfirm (v : BitVec 32)
  /-- A write of UPD_CTRL.GO restarts the navigation controller alone into the target slot (R692). The word that the navigation controller writes to UPD_CTRL. -/
  | longSpliceStart (v : BitVec 32)
  /-- The new image accepts the handover block or warm-starts, then releases the radio hold (R694). The µs from GO to the first instruction; the code words of the vendor kernels K0 to K5 in the target image. -/
  | handoverAccept (us : Nat) (vendor : List (List Nat))
  /-- The confirm timer expires and UPD splices back to the previous image (R699). -/
  | trialTimeout
  /-- A write of UPD_OTP.SET blows anti-rollback bits, or is refused (R701). The word that the navigation controller writes to UPD_OTP. -/
  | updOtpSet (v : BitVec 32)
  /-- A write of MPU_CTRL.LOCK freezes the MPU configuration (R710). The word that the navigation controller writes to MPU_CTRL. -/
  | mpuLock (v : BitVec 32)
  /-- A write of DMA GO starts a channel, or is ignored with CFG_ERR (R712). Channel c; the whole value written to DMAc_CTRL. -/
  | dmaGo (c : Fin 8) (v : BitVec 32)
  /-- A running channel wins arbitration and moves one beat (R712). Whether the beat's write meets a port B write of the same word (R152, R714). -/
  | dmaBeat (hit : Bool)
  /-- A write of RESUME restarts a halted channel at the faulting beat (R715). Channel c; the whole value written to DMAc_CTRL. -/
  | dmaResume (c : Fin 8) (v : BitVec 32)
  /-- A write of ABORT sets the channel IDLE with its residual count (R715). Channel c; the whole value written to DMAc_CTRL. -/
  | dmaAbort (c : Fin 8) (v : BitVec 32)
  /-- A report is accepted into the error-log input queue, or lost when full (R719). -/
  | elogReport (cls : Fin 16) (code : BitVec 8) (source : BitVec 8) (addr : BitVec 32) (detail : BitVec 32)
  /-- The log engine takes the queue head and writes it into the first entries or the ring (R721). -/
  | elogEntryWrite
  /-- A write of ELOG_CTRL.CLEAR invalidates all entries when the engine is idle (R722). The word written to ELOG_CTRL. -/
  | elogClear (v : BitVec 32)
  /-- A write of ELOG_SWHDR submits a software report (R723). The word that the navigation controller writes. -/
  | elogSwhdr (v : BitVec 32)
  /-- Every SCRUB_DIV × 1024 clocks the scrubber reads one word of each available memory (R725). -/
  | scrubRead
  /-- Each second the MRAM scrub reads 64 words and rewrites double-bit corrections (R727). -/
  | mramScrub
  /-- At each telemetry second Whipping reads the counters and publishes telemetry (R729). The latest navigation solution; the busy fractions of the second in 0.5 %: 4 clusters, 32 engines, 8 loop cores; the bytes of the GGA, RMC and ZDA sentences of that solution. -/
  | telemetrySecond (fix : Machine.NavFix) (util : List Nat) (nmea : List Nat)
  /-- Fofiys firmware runs a background task at its period, counting overruns (R728). Whether the next period began before the task had completed. -/
  | whippingFwTask (late : Bool)
  /-- A write of I2C_CMD starts a command, or is ignored with CFG_ERR (R750). -/
  | i2cCmd (v : BitVec 32)
  /-- A waiting START is sent once the bus is free (R751). -/
  | i2cBusFreeStart
  /-- One I2C byte is transferred and acknowledged, ending the command on a NACK (R753). The byte read, if one is read; whether the slave acknowledges a byte sent; whether arbitration is lost. -/
  | i2cByte (data : BitVec 8) (ack : Bool) (lost : Bool)
  /-- An I2C command ends with or without STOP and sets DONE (R757). -/
  | i2cCommandEnd
  /-- SCL low for 25 ms sets TIMEOUT and ends the command (R756). Whether the bus lets the controller send a STOP. -/
  | i2cTimeout (stop : Bool)
  /-- A write of I2C_DATA adds a byte to the transmit FIFO, or is discarded (R753). -/
  | i2cDataWrite (v : BitVec 8)
  /-- A read of I2C_DATA returns and removes the oldest received byte (R753). -/
  | i2cDataRead
  /-- While HSPI_CS_N is low the host clocks one byte: the byte in goes to the Wowell receiver and the next byte of the output queue goes out, updating HOST_IRQ (R481). The byte in. -/
  | hspiByteExchange (b : BitVec 8)
  /-- Un_CTS_N goes low while RTSCTS is 1 and the transmit FIFO holds a character, so the transmitter starts that character (R525). -/
  | uartCtsAsserted (n : Fin 2)
  /-- In half duplex the line has stayed high for GUARD bit times with the receiver hunting, so a waiting character starts (R530). -/
  | uartGuardElapsed (n : Fin 7)
  deriving DecidableEq, Repr

end Sys2Proof
end

