-- ==== Sys2Proof/Config.lean ====
section
/-! DEFINITION. The values the specification leaves open: free values. Nothing in Lean can evaluate them, so whatever is proved
holds for every value of them. -/

namespace Sys2Proof.Config

/-- The n-th free 32-bit value. The state's counter `free` says how many have been used (assumption log 4). -/
opaque freeValue : Nat → BitVec 32

/-- A chip of a primary code: signal code, satellite, frequency channel, chip index; true for a code bit of 1. The codes themselves are in the
interface documents of the constellations, not in the specification (R117, assumption log 5). -/
opaque primaryChip : Nat → Nat → Nat → Nat → Bool

/-- A chip of a secondary code: signal code, satellite, chip index; true for a code bit of 1 (R164, assumption log 5). -/
opaque secondaryChip : Nat → Nat → Nat → Bool

/-- The carrier phase at the first sample of a coherent period of a search, which the specification does not state (assumption log 5). -/
opaque searchPhase : Nat → BitVec 32

/-- The 256 bin powers of 256 consecutive ring-rate samples, oldest first. The window and the scale are not stated (R105, assumption log 5). -/
opaque powerSpectrum : List (Int × Int) → List Nat

/-- The published entry, in 0.01 dB, of a bin whose 64 powers have this sum; its rounding and limits are not stated (R106, assumption log 5). -/
opaque spectrumLevel : Nat → BitVec 16

/-- The transmit time in µs of the steps of a channel-sounding subevent, from RADIO_CSCFG and the steps that transmit (their words, with the
tone extensions from bit 32 on): it follows from the Bluetooth Core
Specification, not from this one (R571, R580, assumption log 5). -/
opaque csAirtime : Nat → List Nat → Nat

/-- The channel number f of an event of a held connection: channel identifier, event counter, channel map. Channel Selection Algorithm #2 is that of
the Bluetooth Core Specification (R586, assumption log 5). -/
opaque holdChannel : Nat → Nat → Nat → Nat

/-- A position lies inside a zone: its latitude and longitude, and those of the zone's centre, in 10^−7 degree, and the radius in metres. How the
distance on the ellipsoid is computed is not stated (R605, assumption log 5). -/
opaque insideCircle : Int → Int → Int → Int → Nat → Bool

/-- The PA setting of the compensated table for an applied power code, TS4 in 0.1 °C, VIN as measured, and TS4 at the calibration that made the
table; the table's content is not given (R567, assumption log 5). -/
opaque paSetting : Nat → Int → Nat → Int → BitVec 32

/-- An ECDSA P-256 signature over the SHA-256 digest of a message verifies: public key, message, r and s. The algorithm is not in the
specification (R455, R595, R682, assumption log 5). -/
opaque signatureOk : List Nat → List Nat → List Nat → List Nat → Bool

/-- The SHA-256 digest of a byte string (R596, R682, assumption log 5). -/
opaque sha256 : List Nat → List Nat

/-- The Keloon image key held in the boot ROM, whose value is not given (Table 16.2, assumption log 5). -/
opaque keloonImageKey : List Nat

/-- The plain value of a wrapped key of the wrapped key store, or none where it does not unwrap: entry bytes (R439 to R441, assumption
log 5). -/
opaque unwrap : List Nat → Option (List Nat)

/-- The code in SNAP_RESULT of an outcome by its number in the order NOT_HOT, FIX, NO_FIX_SATS, CAPTURE_ABORT, ABANDONED, STREAM_TIMEOUT; Table 7.6
gives none (assumption log 115). -/
opaque snapCode : Nat → BitVec 8

/-- The flow grade fuse: true for the "-A" flow (0x1000:03, assumption log 5). -/
opaque gradeA : Bool

/-- The silicon revision fuse (0x1000:05, assumption log 5). -/
opaque siliconRevision : BitVec 8

end Sys2Proof.Config
end

