-- ==== Sys2Proof/Machine/Regs.lean ====
section
/-! DEFINITION. The part's registers, as the register tables of the specification give them: for every register its address
(Table 1.8 and the header line of its description), how many copies it has and how far apart they lie, its object address,
its value in the Reset column (R18; 0 where the column shows a dash, a boot value, a fuse value or a computed value) and the
masks of its fields by access code (Table 0.6); and one name for every field. -/

namespace Sys2Proof.Machine

/-- A field of a register: the register's address, the number of the field's lowest bit and the field's width in bits. -/
structure Fld where
  addr : Nat
  lo : Nat
  len : Nat
  deriving DecidableEq, Repr

/-- One row of the register map (R17, R18): copy `i` lies at `base + stride * i`, as object `(obj + objStride * i) : (sub + subStride * i)`;
`reset` is the value of the Reset column, and the five masks hold the bits of the fields of each access code other than RO (Table 0.6). -/
structure RegDef where
  name : String
  base : Nat
  count : Nat
  stride : Nat
  obj : Nat
  sub : Nat
  objStride : Nat
  subStride : Nat
  reset : Nat
  rw : Nat
  w1c : Nat
  w1s : Nat
  wo : Nat
  rclr : Nat
  deriving DecidableEq, Repr

/-! ### Block SYS -/

/-- SYS_RST, 14_power_reset_boot. -/
def SYS_RST : Nat := 0x40000000
def SYS_RST_CORE : Fld := ⟨SYS_RST, 0, 1⟩
def SYS_RST_KEY : Fld := ⟨SYS_RST, 16, 16⟩
/-- SYS_WDOG, 14_power_reset_boot. -/
def SYS_WDOG : Nat := 0x40000004
def SYS_WDOG_EN : Fld := ⟨SYS_WDOG, 0, 1⟩
def SYS_WDOG_TIMEOUT : Fld := ⟨SYS_WDOG, 1, 16⟩
/-- SYS_WDKICK, 14_power_reset_boot. -/
def SYS_WDKICK : Nat := 0x40000008
def SYS_WDKICK_KICK : Fld := ⟨SYS_WDKICK, 0, 32⟩
/-- SYS_BOOT, 14_power_reset_boot. -/
def SYS_BOOT : Nat := 0x4000000C
def SYS_BOOT_WAKE : Fld := ⟨SYS_BOOT, 0, 1⟩
def SYS_BOOT_SLOT : Fld := ⟨SYS_BOOT, 1, 1⟩
def SYS_BOOT_ERR : Fld := ⟨SYS_BOOT, 8, 8⟩
def SYS_BOOT_NAVSTRIPES : Fld := ⟨SYS_BOOT, 16, 4⟩
/-- DMA_SRC (copy n of 8), 17_protection_faults_background. -/
def DMA_SRC (n : Nat) : Nat := 0x40000400 + 0x20 * n
def DMA_SRC_ADDR (n : Nat) : Fld := ⟨DMA_SRC n, 0, 32⟩
/-- DMA_DST (copy n of 8), 17_protection_faults_background. -/
def DMA_DST (n : Nat) : Nat := 0x40000404 + 0x20 * n
def DMA_DST_ADDR (n : Nat) : Fld := ⟨DMA_DST n, 0, 32⟩
/-- DMA_CNT (copy n of 8), 17_protection_faults_background. -/
def DMA_CNT (n : Nat) : Nat := 0x40000408 + 0x20 * n
def DMA_CNT_COUNT (n : Nat) : Fld := ⟨DMA_CNT n, 0, 24⟩
/-- DMA_CTRL (copy n of 8), 17_protection_faults_background. -/
def DMA_CTRL (n : Nat) : Nat := 0x4000040C + 0x20 * n
def DMA_CTRL_GO (n : Nat) : Fld := ⟨DMA_CTRL n, 0, 1⟩
def DMA_CTRL_RESUME (n : Nat) : Fld := ⟨DMA_CTRL n, 1, 1⟩
def DMA_CTRL_ABORT (n : Nat) : Fld := ⟨DMA_CTRL n, 2, 1⟩
def DMA_CTRL_W64 (n : Nat) : Fld := ⟨DMA_CTRL n, 3, 1⟩
def DMA_CTRL_SINC (n : Nat) : Fld := ⟨DMA_CTRL n, 4, 1⟩
def DMA_CTRL_DINC (n : Nat) : Fld := ⟨DMA_CTRL n, 5, 1⟩
def DMA_CTRL_DONE_IE (n : Nat) : Fld := ⟨DMA_CTRL n, 6, 1⟩
/-- DMA_STAT (copy n of 8), 17_protection_faults_background. -/
def DMA_STAT (n : Nat) : Nat := 0x40000410 + 0x20 * n
def DMA_STAT_STATE (n : Nat) : Fld := ⟨DMA_STAT n, 0, 2⟩
def DMA_STAT_DONE (n : Nat) : Fld := ⟨DMA_STAT n, 2, 1⟩
def DMA_STAT_CFG_ERR (n : Nat) : Fld := ⟨DMA_STAT n, 3, 1⟩
def DMA_STAT_CAUSE (n : Nat) : Fld := ⟨DMA_STAT n, 4, 4⟩

/-- The register map of block SYS. -/
def regsSYS : List RegDef := [
  ⟨"SYS_RST", 0x40000000, 1, 0, 0x7030, 1, 0, 0, 0, 0, 0, 0, 0xFFFF0001, 0⟩,
  ⟨"SYS_WDOG", 0x40000004, 1, 0, 0x7030, 2, 0, 0, 0x7D0, 0x1FFFF, 0, 0, 0, 0⟩,
  ⟨"SYS_WDKICK", 0x40000008, 1, 0, 0x7030, 3, 0, 0, 0, 0, 0, 0, 0xFFFFFFFF, 0⟩,
  ⟨"SYS_BOOT", 0x4000000C, 1, 0, 0x7030, 4, 0, 0, 0, 0, 0, 0, 0, 0⟩,
  ⟨"DMA_SRC", 0x40000400, 8, 0x20, 0x9400, 1, 1, 0, 0, 0xFFFFFFFF, 0, 0, 0, 0⟩,
  ⟨"DMA_DST", 0x40000404, 8, 0x20, 0x9400, 2, 1, 0, 0, 0xFFFFFFFF, 0, 0, 0, 0⟩,
  ⟨"DMA_CNT", 0x40000408, 8, 0x20, 0x9400, 3, 1, 0, 0, 0xFFFFFF, 0, 0, 0, 0⟩,
  ⟨"DMA_CTRL", 0x4000040C, 8, 0x20, 0x9400, 4, 1, 0, 0x38, 0x78, 0, 7, 0, 0⟩,
  ⟨"DMA_STAT", 0x40000410, 8, 0x20, 0x9400, 5, 1, 0, 0, 0, 0xC, 0, 0, 0⟩]

/-! ### Block PWR -/

/-- PWR_SLKREQ, 14_power_reset_boot. -/
def PWR_SLKREQ : Nat := 0x40010000
def PWR_SLKREQ_GO : Fld := ⟨PWR_SLKREQ, 0, 1⟩
/-- PWR_SLKLAST, 14_power_reset_boot. -/
def PWR_SLKLAST : Nat := 0x40010004
def PWR_SLKLAST_OUTCOME : Fld := ⟨PWR_SLKLAST, 0, 2⟩
def PWR_SLKLAST_AP : Fld := ⟨PWR_SLKLAST, 2, 3⟩
def PWR_SLKLAST_ID : Fld := ⟨PWR_SLKLAST, 8, 8⟩
def PWR_SLKLAST_MASK : Fld := ⟨PWR_SLKLAST, 16, 10⟩
/-- PWR_SLKTALLY (copy n of 5), 14_power_reset_boot. -/
def PWR_SLKTALLY (n : Nat) : Nat := 0x40010008 + 4 * n
def PWR_SLKTALLY_CNT_LO (n : Nat) : Fld := ⟨PWR_SLKTALLY n, 0, 16⟩
def PWR_SLKTALLY_CNT_HI (n : Nat) : Fld := ⟨PWR_SLKTALLY n, 16, 16⟩
/-- PWR_SLKSUM, 14_power_reset_boot. -/
def PWR_SLKSUM : Nat := 0x4001001C
def PWR_SLKSUM_REFUSED : Fld := ⟨PWR_SLKSUM, 0, 16⟩
def PWR_SLKSUM_ABANDONED : Fld := ⟨PWR_SLKSUM, 16, 16⟩
/-- PWR_SLKDONE, 14_power_reset_boot. -/
def PWR_SLKDONE : Nat := 0x40010020
def PWR_SLKDONE_COMPLETED : Fld := ⟨PWR_SLKDONE, 0, 32⟩
/-- PWR_STOP, 14_power_reset_boot. -/
def PWR_STOP : Nat := 0x40010024
def PWR_STOP_GO : Fld := ⟨PWR_STOP, 0, 1⟩
def PWR_STOP_REFUSED : Fld := ⟨PWR_STOP, 1, 1⟩
def PWR_STOP_ID : Fld := ⟨PWR_STOP, 2, 8⟩
/-- PWR_PL, 14_power_reset_boot. -/
def PWR_PL : Nat := 0x40010028
def PWR_PL_TARGET : Fld := ⟨PWR_PL, 0, 2⟩
def PWR_PL_CURRENT : Fld := ⟨PWR_PL, 2, 2⟩
def PWR_PL_BUSY : Fld := ⟨PWR_PL, 4, 1⟩
def PWR_PL_REFUSED : Fld := ⟨PWR_PL, 5, 1⟩
/-- PWR_DOM, 14_power_reset_boot. -/
def PWR_DOM : Nat := 0x4001002C
def PWR_DOM_STATE : Fld := ⟨PWR_DOM, 0, 8⟩
def PWR_DOM_STALLS : Fld := ⟨PWR_DOM, 16, 16⟩
/-- PWR_WAKEVEC, 14_power_reset_boot. -/
def PWR_WAKEVEC : Nat := 0x40010030
def PWR_WAKEVEC_VEC : Fld := ⟨PWR_WAKEVEC, 0, 32⟩
/-- PWR_WAKEINFO, 14_power_reset_boot. -/
def PWR_WAKEINFO : Nat := 0x40010034
def PWR_WAKEINFO_RETLOST : Fld := ⟨PWR_WAKEINFO, 0, 18⟩

/-- The register map of block PWR. -/
def regsPWR : List RegDef := [
  ⟨"PWR_SLKREQ", 0x40010000, 1, 0, 0x7000, 1, 0, 0, 0, 0, 0, 1, 0, 0⟩,
  ⟨"PWR_SLKLAST", 0x40010004, 1, 0, 0x7000, 2, 0, 0, 0, 0, 0, 0, 0, 0⟩,
  ⟨"PWR_SLKTALLY", 0x40010008, 5, 4, 0x7000, 3, 0, 1, 0, 0, 0, 0, 0, 0xFFFFFFFF⟩,
  ⟨"PWR_SLKSUM", 0x4001001C, 1, 0, 0x7000, 8, 0, 0, 0, 0, 0, 0, 0, 0xFFFFFFFF⟩,
  ⟨"PWR_SLKDONE", 0x40010020, 1, 0, 0x7000, 9, 0, 0, 0, 0, 0, 0, 0, 0xFFFFFFFF⟩,
  ⟨"PWR_STOP", 0x40010024, 1, 0, 0x7000, 0xA, 0, 0, 0, 0, 2, 1, 0, 0⟩,
  ⟨"PWR_PL", 0x40010028, 1, 0, 0x7000, 0xB, 0, 0, 0xF, 3, 0x20, 0, 0, 0⟩,
  ⟨"PWR_DOM", 0x4001002C, 1, 0, 0x7000, 0xC, 0, 0, 0xAA, 0, 0, 0, 0, 0xFFFF0000⟩,
  ⟨"PWR_WAKEVEC", 0x40010030, 1, 0, 0x7000, 0xD, 0, 0, 0, 0xFFFFFFFF, 0, 0, 0, 0⟩,
  ⟨"PWR_WAKEINFO", 0x40010034, 1, 0, 0x7000, 0xE, 0, 0, 0, 0, 0x3FFFF, 0, 0, 0⟩]

/-! ### Block CLK -/

/-- CLK_STAT, 14_power_reset_boot. -/
def CLK_STAT : Nat := 0x40020000
def CLK_STAT_PLL_LOCK : Fld := ⟨CLK_STAT, 0, 1⟩
def CLK_STAT_REF_OK : Fld := ⟨CLK_STAT, 1, 1⟩
def CLK_STAT_STOPPED : Fld := ⟨CLK_STAT, 2, 1⟩

/-- The register map of block CLK. -/
def regsCLK : List RegDef := [
  ⟨"CLK_STAT", 0x40020000, 1, 0, 0x7040, 1, 0, 0, 3, 0, 0, 0, 0, 0⟩]

/-! ### Block SPORT -/

/-- SPORT_CTRL, 02_sample_ports. -/
def SPORT_CTRL : Nat := 0x40030000
def SPORT_CTRL_START : Fld := ⟨SPORT_CTRL, 0, 4⟩
def SPORT_CTRL_STOP : Fld := ⟨SPORT_CTRL, 4, 4⟩
def SPORT_CTRL_REFOUT_EN : Fld := ⟨SPORT_CTRL, 8, 1⟩
def SPORT_CTRL_REFOUT_DRV : Fld := ⟨SPORT_CTRL, 9, 1⟩
def SPORT_CTRL_SPEC_SRC : Fld := ⟨SPORT_CTRL, 10, 1⟩
def SPORT_CTRL_SPEC_THR : Fld := ⟨SPORT_CTRL, 16, 8⟩
/-- SPORT_STAT, 02_sample_ports. -/
def SPORT_STAT : Nat := 0x40030004
def SPORT_STAT_STATE : Fld := ⟨SPORT_STAT, 0, 12⟩
def SPORT_STAT_WIN_SEQ : Fld := ⟨SPORT_STAT, 16, 16⟩
/-- SP_CFG (copy n of 4), 02_sample_ports. -/
def SP_CFG (n : Nat) : Nat := 0x40030100 + 0x40 * n
def SP_CFG_FMT (n : Nat) : Fld := ⟨SP_CFG n, 0, 3⟩
def SP_CFG_EDGE (n : Nat) : Fld := ⟨SP_CFG n, 3, 1⟩
def SP_CFG_SWAPIQ (n : Nat) : Fld := ⟨SP_CFG n, 4, 1⟩
def SP_CFG_INVQ (n : Nat) : Fld := ⟨SP_CFG n, 5, 1⟩
def SP_CFG_DEC (n : Nat) : Fld := ⟨SP_CFG n, 6, 2⟩
def SP_CFG_AUTO_RES (n : Nat) : Fld := ⟨SP_CFG n, 8, 1⟩
def SP_CFG_RATE_KHZ (n : Nat) : Fld := ⟨SP_CFG n, 9, 17⟩
/-- SP_RING (copy n of 4), 02_sample_ports. -/
def SP_RING (n : Nat) : Nat := 0x40030104 + 0x40 * n
def SP_RING_BASE (n : Nat) : Fld := ⟨SP_RING n, 0, 4⟩
def SP_RING_SIZE (n : Nat) : Fld := ⟨SP_RING n, 8, 5⟩
/-- SP_QNT (copy n of 4), 02_sample_ports. -/
def SP_QNT (n : Nat) : Nat := 0x40030108 + 0x40 * n
def SP_QNT_THR (n : Nat) : Fld := ⟨SP_QNT n, 0, 11⟩
def SP_QNT_MAG_TGT (n : Nat) : Fld := ⟨SP_QNT n, 16, 14⟩
def SP_QNT_FREEZE (n : Nat) : Fld := ⟨SP_QNT n, 31, 1⟩
/-- SP_NOTCH0 (copy n of 4), 02_sample_ports. -/
def SP_NOTCH0 (n : Nat) : Nat := 0x4003010C + 0x40 * n
def SP_NOTCH0_EN (n : Nat) : Fld := ⟨SP_NOTCH0 n, 0, 1⟩
def SP_NOTCH0_ADAPT (n : Nat) : Fld := ⟨SP_NOTCH0 n, 1, 1⟩
def SP_NOTCH0_K (n : Nat) : Fld := ⟨SP_NOTCH0 n, 2, 4⟩
def SP_NOTCH0_MU (n : Nat) : Fld := ⟨SP_NOTCH0 n, 6, 4⟩
def SP_NOTCH0_FREQ (n : Nat) : Fld := ⟨SP_NOTCH0 n, 10, 22⟩
/-- SP_NOTCH1 (copy n of 4), 02_sample_ports. -/
def SP_NOTCH1 (n : Nat) : Nat := 0x40030110 + 0x40 * n
def SP_NOTCH1_EN (n : Nat) : Fld := ⟨SP_NOTCH1 n, 0, 1⟩
def SP_NOTCH1_ADAPT (n : Nat) : Fld := ⟨SP_NOTCH1 n, 1, 1⟩
def SP_NOTCH1_K (n : Nat) : Fld := ⟨SP_NOTCH1 n, 2, 4⟩
def SP_NOTCH1_MU (n : Nat) : Fld := ⟨SP_NOTCH1 n, 6, 4⟩
def SP_NOTCH1_FREQ (n : Nat) : Fld := ⟨SP_NOTCH1 n, 10, 22⟩
/-- SP_NSTAT (copy n of 4), 02_sample_ports. -/
def SP_NSTAT (n : Nat) : Nat := 0x40030114 + 0x40 * n
def SP_NSTAT_DEPTH0 (n : Nat) : Fld := ⟨SP_NSTAT n, 0, 8⟩
def SP_NSTAT_DEPTH1 (n : Nat) : Fld := ⟨SP_NSTAT n, 8, 8⟩
def SP_NSTAT_MAGCNT (n : Nat) : Fld := ⟨SP_NSTAT n, 16, 14⟩
/-- SP_MON (copy n of 4), 02_sample_ports. -/
def SP_MON (n : Nat) : Nat := 0x40030118 + 0x40 * n
def SP_MON_RATE_TOL (n : Nat) : Fld := ⟨SP_MON n, 0, 8⟩
def SP_MON_SUM (n : Nat) : Fld := ⟨SP_MON n, 8, 8⟩
def SP_MON_ERR (n : Nat) : Fld := ⟨SP_MON n, 16, 16⟩
/-- SP_EVT (copy n of 4), 02_sample_ports. -/
def SP_EVT (n : Nat) : Nat := 0x4003011C + 0x40 * n
def SP_EVT_STOP_EV (n : Nat) : Fld := ⟨SP_EVT n, 0, 1⟩
def SP_EVT_GLITCH (n : Nat) : Fld := ⟨SP_EVT n, 1, 1⟩
def SP_EVT_DISCONT (n : Nat) : Fld := ⟨SP_EVT n, 2, 1⟩
def SP_EVT_RATE_CHG (n : Nat) : Fld := ⟨SP_EVT n, 3, 1⟩
def SP_EVT_RESUMED (n : Nat) : Fld := ⟨SP_EVT n, 4, 1⟩
def SP_EVT_CFG_ERR (n : Nat) : Fld := ⟨SP_EVT n, 5, 1⟩
def SP_EVT_CFG_LOCK (n : Nat) : Fld := ⟨SP_EVT n, 6, 1⟩
def SP_EVT_PEAK (n : Nat) : Fld := ⟨SP_EVT n, 7, 1⟩
/-- SP_CNT_LO (copy n of 4), 02_sample_ports. -/
def SP_CNT_LO (n : Nat) : Nat := 0x40030120 + 0x40 * n
def SP_CNT_LO_CNT (n : Nat) : Fld := ⟨SP_CNT_LO n, 0, 32⟩
/-- SP_CNT_HI (copy n of 4), 02_sample_ports. -/
def SP_CNT_HI (n : Nat) : Nat := 0x40030124 + 0x40 * n
def SP_CNT_HI_CNT (n : Nat) : Fld := ⟨SP_CNT_HI n, 0, 32⟩
/-- SP_OFS (copy n of 4), 02_sample_ports. -/
def SP_OFS (n : Nat) : Nat := 0x40030128 + 0x40 * n
def SP_OFS_OFS (n : Nat) : Fld := ⟨SP_OFS n, 0, 32⟩
/-- SP_TALLY (copy n of 4), 02_sample_ports. -/
def SP_TALLY (n : Nat) : Nat := 0x4003012C + 0x40 * n
def SP_TALLY_GAPS (n : Nat) : Fld := ⟨SP_TALLY n, 0, 16⟩
def SP_TALLY_GLITCHES (n : Nat) : Fld := ⟨SP_TALLY n, 16, 16⟩
/-- SP_REF0 (copy n of 4), 02_sample_ports. -/
def SP_REF0 (n : Nat) : Nat := 0x40030130 + 0x40 * n
def SP_REF0_REF0 (n : Nat) : Fld := ⟨SP_REF0 n, 0, 32⟩
/-- TSPI_CFG, 02_sample_ports. -/
def TSPI_CFG : Nat := 0x40030800
def TSPI_CFG_DIV : Fld := ⟨TSPI_CFG, 0, 8⟩
def TSPI_CFG_CPOL : Fld := ⟨TSPI_CFG, 8, 1⟩
def TSPI_CFG_CPHA : Fld := ⟨TSPI_CFG, 9, 1⟩
/-- TSPI_CMD, 02_sample_ports. -/
def TSPI_CMD : Nat := 0x40030804
def TSPI_CMD_DATA : Fld := ⟨TSPI_CMD, 0, 24⟩
def TSPI_CMD_LEN : Fld := ⟨TSPI_CMD, 24, 1⟩
def TSPI_CMD_READ : Fld := ⟨TSPI_CMD, 25, 1⟩
def TSPI_CMD_CS : Fld := ⟨TSPI_CMD, 26, 1⟩
/-- TSPI_STAT, 02_sample_ports. -/
def TSPI_STAT : Nat := 0x40030808
def TSPI_STAT_QCNT : Fld := ⟨TSPI_STAT, 0, 5⟩
def TSPI_STAT_RXCNT : Fld := ⟨TSPI_STAT, 5, 4⟩
def TSPI_STAT_BUSY : Fld := ⟨TSPI_STAT, 9, 1⟩
def TSPI_STAT_OVF : Fld := ⟨TSPI_STAT, 10, 1⟩
def TSPI_STAT_RXOVF : Fld := ⟨TSPI_STAT, 11, 1⟩
/-- TSPI_RX, 02_sample_ports. -/
def TSPI_RX : Nat := 0x4003080C
def TSPI_RX_DATA : Fld := ⟨TSPI_RX, 0, 24⟩
def TSPI_RX_VALID : Fld := ⟨TSPI_RX, 31, 1⟩
/-- TSPI_GAIN, 02_sample_ports. -/
def TSPI_GAIN : Nat := 0x40030810
def TSPI_GAIN_EN : Fld := ⟨TSPI_GAIN, 0, 1⟩
def TSPI_GAIN_CS : Fld := ⟨TSPI_GAIN, 1, 1⟩
def TSPI_GAIN_ADDR : Fld := ⟨TSPI_GAIN, 2, 8⟩
def TSPI_GAIN_GMAX : Fld := ⟨TSPI_GAIN, 10, 6⟩
def TSPI_GAIN_GCODE : Fld := ⟨TSPI_GAIN, 16, 6⟩
def TSPI_GAIN_PORT : Fld := ⟨TSPI_GAIN, 22, 2⟩
/-- TSPI_GWIN, 02_sample_ports. -/
def TSPI_GWIN : Nat := 0x40030814
def TSPI_GWIN_T_LO : Fld := ⟨TSPI_GWIN, 0, 11⟩
def TSPI_GWIN_T_HI : Fld := ⟨TSPI_GWIN, 16, 11⟩
/-- COIL_CTRL, 07_snapshot_and_hot_start. -/
def COIL_CTRL : Nat := 0x40030900
def COIL_CTRL_PORTS : Fld := ⟨COIL_CTRL, 0, 4⟩
def COIL_CTRL_LEN_MS : Fld := ⟨COIL_CTRL, 4, 6⟩
def COIL_CTRL_SKIP : Fld := ⟨COIL_CTRL, 10, 6⟩
def COIL_CTRL_ARM : Fld := ⟨COIL_CTRL, 16, 1⟩
def COIL_CTRL_RELEASE : Fld := ⟨COIL_CTRL, 17, 1⟩
def COIL_CTRL_ABORT : Fld := ⟨COIL_CTRL, 18, 1⟩
/-- COIL_STAT, 07_snapshot_and_hot_start. -/
def COIL_STAT : Nat := 0x40030904
def COIL_STAT_STATE : Fld := ⟨COIL_STAT, 0, 3⟩
def COIL_STAT_DONE : Fld := ⟨COIL_STAT, 3, 1⟩
def COIL_STAT_REFUSED : Fld := ⟨COIL_STAT, 4, 1⟩
def COIL_STAT_ABORTED : Fld := ⟨COIL_STAT, 5, 1⟩
def COIL_STAT_SUSP : Fld := ⟨COIL_STAT, 6, 1⟩
def COIL_STAT_CAPSEQ : Fld := ⟨COIL_STAT, 16, 16⟩
/-- COIL_TS_LO, 07_snapshot_and_hot_start. -/
def COIL_TS_LO : Nat := 0x40030908
def COIL_TS_LO_T : Fld := ⟨COIL_TS_LO, 0, 32⟩
/-- COIL_TS_HI, 07_snapshot_and_hot_start. -/
def COIL_TS_HI : Nat := 0x4003090C
def COIL_TS_HI_T : Fld := ⟨COIL_TS_HI, 0, 32⟩
/-- COIL_P_START (copy n of 4), 07_snapshot_and_hot_start. -/
def COIL_P_START (n : Nat) : Nat := 0x40030910 + 8 * n
def COIL_P_START_J (n : Nat) : Fld := ⟨COIL_P_START n, 0, 32⟩
/-- COIL_P_BLK (copy n of 4), 07_snapshot_and_hot_start. -/
def COIL_P_BLK (n : Nat) : Nat := 0x40030914 + 8 * n
def COIL_P_BLK_BLOCKS (n : Nat) : Fld := ⟨COIL_P_BLK n, 0, 11⟩
def COIL_P_BLK_SUSPBLK (n : Nat) : Fld := ⟨COIL_P_BLK n, 11, 11⟩

/-- The register map of block SPORT. -/
def regsSPORT : List RegDef := [
  ⟨"SPORT_CTRL", 0x40030000, 1, 0, 0x2000, 1, 0, 0, 0x300100, 0xFF0700, 0, 0xFF, 0, 0⟩,
  ⟨"SPORT_STAT", 0x40030004, 1, 0, 0x2000, 2, 0, 0, 0, 0, 0, 0, 0, 0⟩,
  ⟨"SP_CFG", 0x40030100, 4, 0x40, 0x2010, 1, 1, 0, 0x13FB100, 0x3FFFFFF, 0, 0, 0, 0⟩,
  ⟨"SP_RING", 0x40030104, 4, 0x40, 0x2010, 2, 1, 0, 0x400, 0x1F0F, 0, 0, 0, 0⟩,
  ⟨"SP_QNT", 0x40030108, 4, 0x40, 0x2010, 3, 1, 0, 0xA250030, 0xBFFF07FF, 0, 0, 0, 0⟩,
  ⟨"SP_NOTCH0", 0x4003010C, 4, 0x40, 0x2010, 4, 1, 0, 0x118, 0xFFFFFFFF, 0, 0, 0, 0⟩,
  ⟨"SP_NOTCH1", 0x40030110, 4, 0x40, 0x2010, 5, 1, 0, 0x118, 0xFFFFFFFF, 0, 0, 0, 0⟩,
  ⟨"SP_NSTAT", 0x40030114, 4, 0x40, 0x2010, 6, 1, 0, 0, 0, 0, 0, 0, 0⟩,
  ⟨"SP_MON", 0x40030118, 4, 0x40, 0x2010, 7, 1, 0, 8, 0xFF, 0, 0, 0, 0⟩,
  ⟨"SP_EVT", 0x4003011C, 4, 0x40, 0x2010, 8, 1, 0, 0, 0, 0xFF, 0, 0, 0⟩,
  ⟨"SP_CNT_LO", 0x40030120, 4, 0x40, 0x2010, 9, 1, 0, 0, 0, 0, 0, 0, 0⟩,
  ⟨"SP_CNT_HI", 0x40030124, 4, 0x40, 0x2010, 0xA, 1, 0, 0, 0, 0, 0, 0, 0⟩,
  ⟨"SP_OFS", 0x40030128, 4, 0x40, 0x2010, 0xB, 1, 0, 0, 0xFFFFFFFF, 0, 0, 0, 0⟩,
  ⟨"SP_TALLY", 0x4003012C, 4, 0x40, 0x2010, 0xC, 1, 0, 0, 0, 0, 0, 0, 0xFFFFFFFF⟩,
  ⟨"SP_REF0", 0x40030130, 4, 0x40, 0x2010, 0xD, 1, 0, 0xFFFFFFFF, 0, 0, 0, 0, 0⟩,
  ⟨"TSPI_CFG", 0x40030800, 1, 0, 0x2020, 1, 0, 0, 7, 0x3FF, 0, 0, 0, 0⟩,
  ⟨"TSPI_CMD", 0x40030804, 1, 0, 0x2020, 2, 0, 0, 0, 0, 0, 0, 0x7FFFFFF, 0⟩,
  ⟨"TSPI_STAT", 0x40030808, 1, 0, 0x2020, 3, 0, 0, 0, 0, 0xC00, 0, 0, 0⟩,
  ⟨"TSPI_RX", 0x4003080C, 1, 0, 0x2020, 4, 0, 0, 0, 0, 0, 0, 0, 0⟩,
  ⟨"TSPI_GAIN", 0x40030810, 1, 0, 0x2020, 5, 0, 0, 0x20FC00, 0xFFFFFF, 0, 0, 0, 0⟩,
  ⟨"TSPI_GWIN", 0x40030814, 1, 0, 0x2020, 6, 0, 0, 0x500020, 0x7FF07FF, 0, 0, 0, 0⟩,
  ⟨"COIL_CTRL", 0x40030900, 1, 0, 0x2040, 1, 0, 0, 0x1140, 0xFFFF, 0, 0x70000, 0, 0⟩,
  ⟨"COIL_STAT", 0x40030904, 1, 0, 0x2040, 2, 0, 0, 0, 0, 0x38, 0, 0, 0⟩,
  ⟨"COIL_TS_LO", 0x40030908, 1, 0, 0x2040, 3, 0, 0, 0, 0, 0, 0, 0, 0⟩,
  ⟨"COIL_TS_HI", 0x4003090C, 1, 0, 0x2040, 4, 0, 0, 0, 0, 0, 0, 0, 0⟩,
  ⟨"COIL_P_START", 0x40030910, 4, 8, 0x2040, 5, 0, 2, 0, 0, 0, 0, 0, 0⟩,
  ⟨"COIL_P_BLK", 0x40030914, 4, 8, 0x2040, 6, 0, 2, 0, 0, 0, 0, 0, 0⟩]

/-! ### Block FAB -/

/-- FAB_CTRL, 04_splice_fabric. -/
def FAB_CTRL : Nat := 0x40040000
def FAB_CTRL_STEAL_EN : Fld := ⟨FAB_CTRL, 0, 1⟩
def FAB_CTRL_XCL_EN : Fld := ⟨FAB_CTRL, 1, 1⟩
def FAB_CTRL_TRK_MARGIN : Fld := ⟨FAB_CTRL, 2, 4⟩
def FAB_CTRL_STEAL_MIN : Fld := ⟨FAB_CTRL, 6, 4⟩
def FAB_CTRL_XSTEAL_MIN : Fld := ⟨FAB_CTRL, 10, 4⟩
def FAB_CTRL_PSHIFT : Fld := ⟨FAB_CTRL, 14, 4⟩
def FAB_CTRL_LONG_MAX : Fld := ⟨FAB_CTRL, 18, 6⟩
def FAB_CTRL_TRMAX : Fld := ⟨FAB_CTRL, 24, 4⟩
/-- FAB_ENGEN, 04_splice_fabric. -/
def FAB_ENGEN : Nat := 0x40040004
def FAB_ENGEN_ENABLED : Fld := ⟨FAB_ENGEN, 0, 32⟩
/-- FAB_ENGRET, 04_splice_fabric. -/
def FAB_ENGRET : Nat := 0x40040008
def FAB_ENGRET_RETIRED : Fld := ⟨FAB_ENGRET, 0, 32⟩
/-- FAB_RETCAUSE, 04_splice_fabric. -/
def FAB_RETCAUSE : Nat := 0x4004000C
def FAB_RETCAUSE_MARCH : Fld := ⟨FAB_RETCAUSE, 0, 32⟩
/-- FAB_TEST, 04_splice_fabric. -/
def FAB_TEST : Nat := 0x40040010
def FAB_TEST_ENGINE : Fld := ⟨FAB_TEST, 0, 5⟩
def FAB_TEST_START : Fld := ⟨FAB_TEST, 8, 1⟩
def FAB_TEST_BUSY : Fld := ⟨FAB_TEST, 9, 1⟩
def FAB_TEST_PASS : Fld := ⟨FAB_TEST, 10, 1⟩
def FAB_TEST_DONE : Fld := ⟨FAB_TEST, 11, 1⟩
def FAB_TEST_REFUSED : Fld := ⟨FAB_TEST, 12, 1⟩
/-- FAB_QSTAT, 04_splice_fabric. -/
def FAB_QSTAT : Nat := 0x40040040
def FAB_QSTAT_IQCNT : Fld := ⟨FAB_QSTAT, 0, 9⟩
def FAB_QSTAT_TRANCHES : Fld := ⟨FAB_QSTAT, 9, 7⟩
def FAB_QSTAT_CELLU : Fld := ⟨FAB_QSTAT, 16, 3⟩
def FAB_QSTAT_LONGRUN : Fld := ⟨FAB_QSTAT, 19, 6⟩
def FAB_QSTAT_BUSY : Fld := ⟨FAB_QSTAT, 25, 6⟩
/-- FAB_LOAD, 04_splice_fabric. -/
def FAB_LOAD : Nat := 0x40040044
def FAB_LOAD_LOAD : Fld := ⟨FAB_LOAD, 0, 16⟩
def FAB_LOAD_FCAP : Fld := ⟨FAB_LOAD, 16, 16⟩
/-- FAB_TALLY0, 04_splice_fabric. -/
def FAB_TALLY0 : Nat := 0x40040048
def FAB_TALLY0_STARVED : Fld := ⟨FAB_TALLY0, 0, 16⟩
def FAB_TALLY0_WITHDRAWN : Fld := ⟨FAB_TALLY0, 16, 16⟩
/-- FAB_TALLY1, 04_splice_fabric. -/
def FAB_TALLY1 : Nat := 0x4004004C
def FAB_TALLY1_GAPITEMS : Fld := ⟨FAB_TALLY1, 0, 16⟩
def FAB_TALLY1_ECCFAIL : Fld := ⟨FAB_TALLY1, 16, 16⟩
/-- FAB_STEALS, 04_splice_fabric. -/
def FAB_STEALS : Nat := 0x40040050
def FAB_STEALS_LOCAL : Fld := ⟨FAB_STEALS, 0, 16⟩
def FAB_STEALS_CROSS : Fld := ⟨FAB_STEALS, 16, 16⟩
/-- FAB_UTIL, 04_splice_fabric. -/
def FAB_UTIL : Nat := 0x40040054
def FAB_UTIL_UTIL : Fld := ⟨FAB_UTIL, 0, 32⟩
/-- FAB_FLUSH, 03_strands. -/
def FAB_FLUSH : Nat := 0x40040100
def FAB_FLUSH_INDEX : Fld := ⟨FAB_FLUSH, 0, 9⟩
def FAB_FLUSH_ALL : Fld := ⟨FAB_FLUSH, 31, 1⟩
/-- FAB_CMTSTAT, 03_strands. -/
def FAB_CMTSTAT : Nat := 0x40040104
def FAB_CMTSTAT_DBCNT : Fld := ⟨FAB_CMTSTAT, 0, 4⟩
def FAB_CMTSTAT_DBOVF : Fld := ⟨FAB_CMTSTAT, 4, 1⟩
def FAB_CMTSTAT_TORN_ANY : Fld := ⟨FAB_CMTSTAT, 5, 1⟩
def FAB_CMTSTAT_REFUSED_ANY : Fld := ⟨FAB_CMTSTAT, 6, 1⟩
def FAB_CMTSTAT_COLLIDE_ANY : Fld := ⟨FAB_CMTSTAT, 7, 1⟩
def FAB_CMTSTAT_SCAN_SEQ : Fld := ⟨FAB_CMTSTAT, 16, 16⟩
/-- FAB_CAP, 03_strands. -/
def FAB_CAP : Nat := 0x40040108
def FAB_CAP_CAPACITY : Fld := ⟨FAB_CAP, 0, 10⟩
def FAB_CAP_ACTIVE : Fld := ⟨FAB_CAP, 10, 10⟩
/-- FAB_ENGSTAT (copy n of 32), 04_splice_fabric. -/
def FAB_ENGSTAT (n : Nat) : Nat := 0x40040200 + 4 * n
def FAB_ENGSTAT_DEPTH (n : Nat) : Fld := ⟨FAB_ENGSTAT n, 0, 5⟩
def FAB_ENGSTAT_BUSY (n : Nat) : Fld := ⟨FAB_ENGSTAT n, 5, 1⟩
def FAB_ENGSTAT_LIVE (n : Nat) : Fld := ⟨FAB_ENGSTAT n, 6, 1⟩
def FAB_ENGSTAT_REST (n : Nat) : Fld := ⟨FAB_ENGSTAT n, 7, 1⟩
def FAB_ENGSTAT_UTIL (n : Nat) : Fld := ⟨FAB_ENGSTAT n, 8, 8⟩
def FAB_ENGSTAT_THEFTS (n : Nat) : Fld := ⟨FAB_ENGSTAT n, 16, 16⟩

/-- The register map of block FAB. -/
def regsFAB : List RegDef := [
  ⟨"FAB_CTRL", 0x40040000, 1, 0, 0x3200, 1, 0, 0, 0x8620853, 0xFFFFFFF, 0, 0, 0, 0⟩,
  ⟨"FAB_ENGEN", 0x40040004, 1, 0, 0x3200, 2, 0, 0, 0, 0, 0, 0, 0, 0⟩,
  ⟨"FAB_ENGRET", 0x40040008, 1, 0, 0x3200, 3, 0, 0, 0, 0, 0, 0, 0, 0⟩,
  ⟨"FAB_RETCAUSE", 0x4004000C, 1, 0, 0x3200, 4, 0, 0, 0, 0, 0, 0, 0, 0⟩,
  ⟨"FAB_TEST", 0x40040010, 1, 0, 0x3200, 5, 0, 0, 0, 0x1F, 0x1800, 0x100, 0, 0⟩,
  ⟨"FAB_QSTAT", 0x40040040, 1, 0, 0x3210, 1, 0, 0, 0, 0, 0, 0, 0, 0⟩,
  ⟨"FAB_LOAD", 0x40040044, 1, 0, 0x3210, 2, 0, 0, 0, 0, 0, 0, 0, 0⟩,
  ⟨"FAB_TALLY0", 0x40040048, 1, 0, 0x3210, 3, 0, 0, 0, 0, 0, 0, 0, 0xFFFFFFFF⟩,
  ⟨"FAB_TALLY1", 0x4004004C, 1, 0, 0x3210, 4, 0, 0, 0, 0, 0, 0, 0, 0xFFFFFFFF⟩,
  ⟨"FAB_STEALS", 0x40040050, 1, 0, 0x3210, 5, 0, 0, 0, 0, 0, 0, 0, 0xFFFFFFFF⟩,
  ⟨"FAB_UTIL", 0x40040054, 1, 0, 0x3210, 6, 0, 0, 0, 0, 0, 0, 0, 0⟩,
  ⟨"FAB_FLUSH", 0x40040100, 1, 0, 0x3220, 1, 0, 0, 0, 0, 0, 0, 0x800001FF, 0⟩,
  ⟨"FAB_CMTSTAT", 0x40040104, 1, 0, 0x3220, 2, 0, 0, 0, 0, 0xF0, 0, 0, 0⟩,
  ⟨"FAB_CAP", 0x40040108, 1, 0, 0x3220, 3, 0, 0, 0, 0, 0, 0, 0, 0⟩,
  ⟨"FAB_ENGSTAT", 0x40040200, 32, 4, 0x3230, 1, 0, 1, 0, 0, 0, 0, 0, 0xFFFF0000⟩]

/-! ### Block LOOP -/

/-- LOOP_CTRL, 05_tracking_loops. -/
def LOOP_CTRL : Nat := 0x40050000
def LOOP_CTRL_PREEMPT_EN : Fld := ⟨LOOP_CTRL, 0, 1⟩
def LOOP_CTRL_HYST : Fld := ⟨LOOP_CTRL, 4, 8⟩
/-- LOOP_CORES, 05_tracking_loops. -/
def LOOP_CORES : Nat := 0x40050004
def LOOP_CORES_ENABLED : Fld := ⟨LOOP_CORES, 0, 8⟩
def LOOP_CORES_RETIRED : Fld := ⟨LOOP_CORES, 8, 8⟩
def LOOP_CORES_BUSY : Fld := ⟨LOOP_CORES, 16, 8⟩
/-- LOOP_QSTAT, 05_tracking_loops. -/
def LOOP_QSTAT : Nat := 0x40050008
def LOOP_QSTAT_READY : Fld := ⟨LOOP_QSTAT, 0, 10⟩
def LOOP_QSTAT_SAVED : Fld := ⟨LOOP_QSTAT, 10, 6⟩
/-- LOOP_TALLY0, 05_tracking_loops. -/
def LOOP_TALLY0 : Nat := 0x4005000C
def LOOP_TALLY0_LATE : Fld := ⟨LOOP_TALLY0, 0, 16⟩
def LOOP_TALLY0_PREEMPT : Fld := ⟨LOOP_TALLY0, 16, 16⟩
/-- LOOP_TALLY1, 05_tracking_loops. -/
def LOOP_TALLY1 : Nat := 0x40050010
def LOOP_TALLY1_FAULTS : Fld := ⟨LOOP_TALLY1, 0, 16⟩
def LOOP_TALLY1_DISCARD : Fld := ⟨LOOP_TALLY1, 16, 16⟩
/-- LOOP_FAULT, 05_tracking_loops. -/
def LOOP_FAULT : Nat := 0x40050014
def LOOP_FAULT_STRAND : Fld := ⟨LOOP_FAULT, 0, 9⟩
def LOOP_FAULT_KSLOT : Fld := ⟨LOOP_FAULT, 9, 4⟩
def LOOP_FAULT_CORE : Fld := ⟨LOOP_FAULT, 13, 3⟩
def LOOP_FAULT_CAUSE : Fld := ⟨LOOP_FAULT, 16, 4⟩
def LOOP_FAULT_VALID : Fld := ⟨LOOP_FAULT, 31, 1⟩
/-- LOOP_FAULTPC, 05_tracking_loops. -/
def LOOP_FAULTPC : Nat := 0x40050018
def LOOP_FAULTPC_PC : Fld := ⟨LOOP_FAULTPC, 0, 14⟩
/-- LOOP_FAULTCTX, 08_loop_core_isa. -/
def LOOP_FAULTCTX : Nat := 0x4005001C
def LOOP_FAULTCTX_ADDR : Fld := ⟨LOOP_FAULTCTX, 0, 16⟩
def LOOP_FAULTCTX_REMAIN : Fld := ⟨LOOP_FAULTCTX, 16, 16⟩
/-- LOOP_LO (copy n of 4), 05_tracking_loops. -/
def LOOP_LO (n : Nat) : Nat := 0x40050020 + 4 * n
def LOOP_LO_LO (n : Nat) : Fld := ⟨LOOP_LO n, 0, 32⟩
/-- LOOP_MPCFG, 05_tracking_loops. -/
def LOOP_MPCFG : Nat := 0x40050030
def LOOP_MPCFG_MPI_MIN : Fld := ⟨LOOP_MPCFG, 0, 8⟩
def LOOP_MPCFG_SPAN : Fld := ⟨LOOP_MPCFG, 8, 8⟩
/-- LOOP_BSYNC, 05_tracking_loops. -/
def LOOP_BSYNC : Nat := 0x40050034
def LOOP_BSYNC_BS_WIN : Fld := ⟨LOOP_BSYNC, 0, 8⟩
def LOOP_BSYNC_BS_MIN : Fld := ⟨LOOP_BSYNC, 8, 8⟩
def LOOP_BSYNC_BS_RATIO : Fld := ⟨LOOP_BSYNC, 16, 4⟩
/-- LOOP_FAULTINFO, 08_loop_core_isa. -/
def LOOP_FAULTINFO : Nat := 0x40050040
def LOOP_FAULTINFO_SP : Fld := ⟨LOOP_FAULTINFO, 0, 2⟩
def LOOP_FAULTINFO_WRITE : Fld := ⟨LOOP_FAULTINFO, 2, 1⟩
def LOOP_FAULTINFO_REP : Fld := ⟨LOOP_FAULTINFO, 3, 1⟩
def LOOP_FAULTINFO_RPTI : Fld := ⟨LOOP_FAULTINFO, 4, 1⟩
def LOOP_FAULTINFO_AREA : Fld := ⟨LOOP_FAULTINFO, 5, 3⟩
def LOOP_FAULTINFO_CYC : Fld := ⟨LOOP_FAULTINFO, 8, 24⟩
/-- LOOP_CORESTAT (copy n of 8), 05_tracking_loops. -/
def LOOP_CORESTAT (n : Nat) : Nat := 0x40050100 + 4 * n
def LOOP_CORESTAT_BUSY (n : Nat) : Fld := ⟨LOOP_CORESTAT n, 0, 1⟩
def LOOP_CORESTAT_LIVE (n : Nat) : Fld := ⟨LOOP_CORESTAT n, 1, 1⟩
def LOOP_CORESTAT_SAVED (n : Nat) : Fld := ⟨LOOP_CORESTAT n, 2, 3⟩
def LOOP_CORESTAT_UTIL (n : Nat) : Fld := ⟨LOOP_CORESTAT n, 8, 8⟩
def LOOP_CORESTAT_TASKS (n : Nat) : Fld := ⟨LOOP_CORESTAT n, 16, 16⟩
/-- LOOP_KSLOT_RANGE (copy n of 16), 08_loop_core_isa. -/
def LOOP_KSLOT_RANGE (n : Nat) : Nat := 0x40050200 + 8 * n
def LOOP_KSLOT_RANGE_BASE (n : Nat) : Fld := ⟨LOOP_KSLOT_RANGE n, 0, 14⟩
def LOOP_KSLOT_RANGE_LEN (n : Nat) : Fld := ⟨LOOP_KSLOT_RANGE n, 16, 15⟩
/-- LOOP_KSLOT_CFG (copy n of 16), 08_loop_core_isa. -/
def LOOP_KSLOT_CFG (n : Nat) : Nat := 0x40050204 + 8 * n
def LOOP_KSLOT_CFG_VALID (n : Nat) : Fld := ⟨LOOP_KSLOT_CFG n, 0, 1⟩
def LOOP_KSLOT_CFG_VENDOR (n : Nat) : Fld := ⟨LOOP_KSLOT_CFG n, 1, 1⟩
def LOOP_KSLOT_CFG_REF (n : Nat) : Fld := ⟨LOOP_KSLOT_CFG n, 2, 1⟩
def LOOP_KSLOT_CFG_LIMIT (n : Nat) : Fld := ⟨LOOP_KSLOT_CFG n, 4, 12⟩
def LOOP_KSLOT_CFG_USERS (n : Nat) : Fld := ⟨LOOP_KSLOT_CFG n, 16, 10⟩

/-- The register map of block LOOP. -/
def regsLOOP : List RegDef := [
  ⟨"LOOP_CTRL", 0x40050000, 1, 0, 0x3300, 1, 0, 0, 0x201, 0xFF1, 0, 0, 0, 0⟩,
  ⟨"LOOP_CORES", 0x40050004, 1, 0, 0x3300, 2, 0, 0, 0, 0, 0, 0, 0, 0⟩,
  ⟨"LOOP_QSTAT", 0x40050008, 1, 0, 0x3300, 3, 0, 0, 0, 0, 0, 0, 0, 0⟩,
  ⟨"LOOP_TALLY0", 0x4005000C, 1, 0, 0x3300, 4, 0, 0, 0, 0, 0, 0, 0, 0xFFFFFFFF⟩,
  ⟨"LOOP_TALLY1", 0x40050010, 1, 0, 0x3300, 5, 0, 0, 0, 0, 0, 0, 0, 0xFFFFFFFF⟩,
  ⟨"LOOP_FAULT", 0x40050014, 1, 0, 0x3300, 6, 0, 0, 0, 0, 0x80000000, 0, 0, 0⟩,
  ⟨"LOOP_FAULTPC", 0x40050018, 1, 0, 0x3300, 7, 0, 0, 0, 0, 0, 0, 0, 0⟩,
  ⟨"LOOP_FAULTCTX", 0x4005001C, 1, 0, 0x3300, 8, 0, 0, 0, 0, 0, 0, 0, 0⟩,
  ⟨"LOOP_LO", 0x40050020, 4, 4, 0x3301, 1, 0, 1, 0, 0xFFFFFFFF, 0, 0, 0, 0⟩,
  ⟨"LOOP_MPCFG", 0x40050030, 1, 0, 0x3302, 1, 0, 0, 0x1408, 0xFFFF, 0, 0, 0, 0⟩,
  ⟨"LOOP_BSYNC", 0x40050034, 1, 0, 0x3302, 2, 0, 0, 0x20832, 0xFFFFF, 0, 0, 0, 0⟩,
  ⟨"LOOP_FAULTINFO", 0x40050040, 1, 0, 0x3300, 9, 0, 0, 0, 0, 0, 0, 0, 0⟩,
  ⟨"LOOP_CORESTAT", 0x40050100, 8, 4, 0x3310, 1, 0, 1, 0, 0, 0, 0, 0, 0xFFFF0000⟩,
  ⟨"LOOP_KSLOT_RANGE", 0x40050200, 16, 8, 0x3320, 1, 1, 0, 0, 0x7FFF3FFF, 0, 0, 0, 0⟩,
  ⟨"LOOP_KSLOT_CFG", 0x40050204, 16, 8, 0x3320, 2, 1, 0, 0, 0xFFF1, 4, 0, 0, 0⟩]

/-! ### Block HITCH -/

/-- HITCH_CTRL, 06_hitch_and_time_pulse. -/
def HITCH_CTRL : Nat := 0x40060000
def HITCH_CTRL_EN : Fld := ⟨HITCH_CTRL, 0, 1⟩
def HITCH_CTRL_RATE : Fld := ⟨HITCH_CTRL, 1, 3⟩
def HITCH_CTRL_COPY_EN : Fld := ⟨HITCH_CTRL, 4, 1⟩
def HITCH_CTRL_WAIT : Fld := ⟨HITCH_CTRL, 8, 8⟩
/-- HITCH_STAT, 06_hitch_and_time_pulse. -/
def HITCH_STAT : Nat := 0x40060004
def HITCH_STAT_RUN : Fld := ⟨HITCH_STAT, 0, 1⟩
def HITCH_STAT_BUF : Fld := ⟨HITCH_STAT, 1, 1⟩
def HITCH_STAT_PEND : Fld := ⟨HITCH_STAT, 2, 1⟩
/-- HITCH_SEQ, 06_hitch_and_time_pulse. -/
def HITCH_SEQ : Nat := 0x40060008
def HITCH_SEQ_SEQ : Fld := ⟨HITCH_SEQ, 0, 32⟩
/-- HITCH_BASE_LO, 06_hitch_and_time_pulse. -/
def HITCH_BASE_LO : Nat := 0x4006000C
def HITCH_BASE_LO_BASE : Fld := ⟨HITCH_BASE_LO, 0, 32⟩
/-- HITCH_BASE_HI, 06_hitch_and_time_pulse. -/
def HITCH_BASE_HI : Nat := 0x40060010
def HITCH_BASE_HI_BASE : Fld := ⟨HITCH_BASE_HI, 0, 32⟩
/-- HITCH_ADJ, 06_hitch_and_time_pulse. -/
def HITCH_ADJ : Nat := 0x40060014
def HITCH_ADJ_ADJ : Fld := ⟨HITCH_ADJ, 0, 16⟩
/-- HITCH_EPOCH_LO, 06_hitch_and_time_pulse. -/
def HITCH_EPOCH_LO : Nat := 0x40060018
def HITCH_EPOCH_LO_N : Fld := ⟨HITCH_EPOCH_LO, 0, 32⟩
/-- HITCH_EPOCH_HI, 06_hitch_and_time_pulse. -/
def HITCH_EPOCH_HI : Nat := 0x4006001C
def HITCH_EPOCH_HI_N : Fld := ⟨HITCH_EPOCH_HI, 0, 32⟩
/-- HITCH_TCNT_LO, 06_hitch_and_time_pulse. -/
def HITCH_TCNT_LO : Nat := 0x40060020
def HITCH_TCNT_LO_T : Fld := ⟨HITCH_TCNT_LO, 0, 32⟩
/-- HITCH_TCNT_HI, 06_hitch_and_time_pulse. -/
def HITCH_TCNT_HI : Nat := 0x40060024
def HITCH_TCNT_HI_T : Fld := ⟨HITCH_TCNT_HI, 0, 32⟩
/-- HITCH_EVT, 06_hitch_and_time_pulse. -/
def HITCH_EVT : Nat := 0x40060028
def HITCH_EVT_EPOCH : Fld := ⟨HITCH_EVT, 0, 1⟩
def HITCH_EVT_LATE : Fld := ⟨HITCH_EVT, 1, 1⟩
def HITCH_EVT_NOEPOCH : Fld := ⟨HITCH_EVT, 2, 1⟩
def HITCH_EVT_COPY_OVR : Fld := ⟨HITCH_EVT, 3, 1⟩
def HITCH_EVT_SCHED : Fld := ⟨HITCH_EVT, 4, 1⟩
def HITCH_EVT_CFG_ERR : Fld := ⟨HITCH_EVT, 5, 1⟩
/-- HITCH_TALLY, 06_hitch_and_time_pulse. -/
def HITCH_TALLY : Nat := 0x4006002C
def HITCH_TALLY_LATEREC : Fld := ⟨HITCH_TALLY, 0, 16⟩
def HITCH_TALLY_COPYOVR : Fld := ⟨HITCH_TALLY, 16, 16⟩
/-- HITCH_COPY, 06_hitch_and_time_pulse. -/
def HITCH_COPY : Nat := 0x40060030
def HITCH_COPY_SBASE : Fld := ⟨HITCH_COPY, 0, 6⟩
def HITCH_COPY_SLOTS : Fld := ⟨HITCH_COPY, 8, 6⟩
/-- HITCH_CPIDX, 06_hitch_and_time_pulse. -/
def HITCH_CPIDX : Nat := 0x40060034
def HITCH_CPIDX_CPSEQ : Fld := ⟨HITCH_CPIDX, 0, 32⟩
/-- TCNT_LO, 06_hitch_and_time_pulse. -/
def TCNT_LO : Nat := 0x40060100
def TCNT_LO_T : Fld := ⟨TCNT_LO, 0, 32⟩
/-- TCNT_HI, 06_hitch_and_time_pulse. -/
def TCNT_HI : Nat := 0x40060104
def TCNT_HI_T : Fld := ⟨TCNT_HI, 0, 32⟩
/-- TP_CFG, 06_hitch_and_time_pulse. -/
def TP_CFG : Nat := 0x40060108
def TP_CFG_EN : Fld := ⟨TP_CFG, 0, 1⟩
def TP_CFG_POL : Fld := ⟨TP_CFG, 1, 1⟩
def TP_CFG_WIDTH : Fld := ⟨TP_CFG, 2, 20⟩
def TP_CFG_FREE_ACT : Fld := ⟨TP_CFG, 22, 1⟩
/-- TP_PER_I, 06_hitch_and_time_pulse. -/
def TP_PER_I : Nat := 0x4006010C
def TP_PER_I_PER : Fld := ⟨TP_PER_I, 0, 32⟩
/-- TP_PER_F, 06_hitch_and_time_pulse. -/
def TP_PER_F : Nat := 0x40060110
def TP_PER_F_PER : Fld := ⟨TP_PER_F, 0, 32⟩
/-- TP_NEXT_LO, 06_hitch_and_time_pulse. -/
def TP_NEXT_LO : Nat := 0x40060114
def TP_NEXT_LO_E : Fld := ⟨TP_NEXT_LO, 0, 32⟩
/-- TP_NEXT_HI, 06_hitch_and_time_pulse. -/
def TP_NEXT_HI : Nat := 0x40060118
def TP_NEXT_HI_E : Fld := ⟨TP_NEXT_HI, 0, 32⟩
/-- TP_NEXT_F, 06_hitch_and_time_pulse. -/
def TP_NEXT_F : Nat := 0x4006011C
def TP_NEXT_F_E : Fld := ⟨TP_NEXT_F, 0, 32⟩
/-- TP_STEP_LO, 06_hitch_and_time_pulse. -/
def TP_STEP_LO : Nat := 0x40060120
def TP_STEP_LO_E : Fld := ⟨TP_STEP_LO, 0, 32⟩
/-- TP_STEP_HI, 06_hitch_and_time_pulse. -/
def TP_STEP_HI : Nat := 0x40060124
def TP_STEP_HI_E : Fld := ⟨TP_STEP_HI, 0, 32⟩
/-- TP_STEP_F, 06_hitch_and_time_pulse. -/
def TP_STEP_F : Nat := 0x40060128
def TP_STEP_F_E : Fld := ⟨TP_STEP_F, 0, 32⟩
/-- TP_STEPLBL, 06_hitch_and_time_pulse. -/
def TP_STEPLBL : Nat := 0x4006012C
def TP_STEPLBL_LABEL : Fld := ⟨TP_STEPLBL, 0, 32⟩
/-- TP_CMD, 06_hitch_and_time_pulse. -/
def TP_CMD : Nat := 0x40060130
def TP_CMD_STEP_GO : Fld := ⟨TP_CMD, 0, 1⟩
def TP_CMD_HOLD : Fld := ⟨TP_CMD, 1, 1⟩
/-- TP_SLEW, 06_hitch_and_time_pulse. -/
def TP_SLEW : Nat := 0x40060134
def TP_SLEW_Q : Fld := ⟨TP_SLEW, 0, 32⟩
/-- TP_LIM, 06_hitch_and_time_pulse. -/
def TP_LIM : Nat := 0x40060138
def TP_LIM_SLEW_MAX : Fld := ⟨TP_LIM, 0, 10⟩
def TP_LIM_HOLD_TMO : Fld := ⟨TP_LIM, 10, 6⟩
def TP_LIM_LIMIT_NS : Fld := ⟨TP_LIM, 16, 16⟩
/-- TP_DISC, 06_hitch_and_time_pulse. -/
def TP_DISC : Nat := 0x4006013C
def TP_DISC_UNC : Fld := ⟨TP_DISC, 0, 32⟩
/-- TP_STAT, 06_hitch_and_time_pulse. -/
def TP_STAT : Nat := 0x40060140
def TP_STAT_TSTATE : Fld := ⟨TP_STAT, 0, 2⟩
def TP_STAT_STEP : Fld := ⟨TP_STAT, 2, 1⟩
def TP_STAT_STEP_REF : Fld := ⟨TP_STAT, 3, 1⟩
def TP_STAT_SLEWING : Fld := ⟨TP_STAT, 4, 1⟩
def TP_STAT_CFG_ERR : Fld := ⟨TP_STAT, 5, 1⟩
/-- TP_UNC, 06_hitch_and_time_pulse. -/
def TP_UNC : Nat := 0x40060144
def TP_UNC_UNC : Fld := ⟨TP_UNC, 0, 32⟩
/-- TP_UNCRATE, 06_hitch_and_time_pulse. -/
def TP_UNCRATE : Nat := 0x40060148
def TP_UNCRATE_F : Fld := ⟨TP_UNCRATE, 0, 32⟩
/-- TP_UNCACC, 06_hitch_and_time_pulse. -/
def TP_UNCACC : Nat := 0x4006014C
def TP_UNCACC_A : Fld := ⟨TP_UNCACC, 0, 16⟩
/-- TP_LABEL, 06_hitch_and_time_pulse. -/
def TP_LABEL : Nat := 0x40060150
def TP_LABEL_LABEL : Fld := ⟨TP_LABEL, 0, 32⟩
/-- TP_TALLY, 06_hitch_and_time_pulse. -/
def TP_TALLY : Nat := 0x40060154
def TP_TALLY_STEPS : Fld := ⟨TP_TALLY, 0, 16⟩
def TP_TALLY_OMITTED : Fld := ⟨TP_TALLY, 16, 16⟩
/-- TM_CFG, 06_hitch_and_time_pulse. -/
def TM_CFG : Nat := 0x40060200
def TM_CFG_EN : Fld := ⟨TM_CFG, 0, 1⟩
def TM_CFG_EDGE : Fld := ⟨TM_CFG, 1, 2⟩
def TM_CFG_MINW : Fld := ⟨TM_CFG, 3, 5⟩
/-- TM_STAT, 06_hitch_and_time_pulse. -/
def TM_STAT : Nat := 0x40060204
def TM_STAT_CNT : Fld := ⟨TM_STAT, 0, 4⟩
def TM_STAT_OVF : Fld := ⟨TM_STAT, 4, 1⟩
def TM_STAT_CLOSE : Fld := ⟨TM_STAT, 5, 1⟩
def TM_STAT_DROPS : Fld := ⟨TM_STAT, 16, 16⟩
/-- TM_T_LO, 06_hitch_and_time_pulse. -/
def TM_T_LO : Nat := 0x40060208
def TM_T_LO_T : Fld := ⟨TM_T_LO, 0, 32⟩
/-- TM_T_HI, 06_hitch_and_time_pulse. -/
def TM_T_HI : Nat := 0x4006020C
def TM_T_HI_T : Fld := ⟨TM_T_HI, 0, 32⟩
/-- TM_INFO, 06_hitch_and_time_pulse. -/
def TM_INFO : Nat := 0x40060210
def TM_INFO_RISE : Fld := ⟨TM_INFO, 0, 1⟩
def TM_INFO_VALID : Fld := ⟨TM_INFO, 1, 1⟩
def TM_INFO_TSTATE : Fld := ⟨TM_INFO, 2, 2⟩

/-- The register map of block HITCH. -/
def regsHITCH : List RegDef := [
  ⟨"HITCH_CTRL", 0x40060000, 1, 0, 0x5000, 1, 0, 0, 0x1406, 0xFF1F, 0, 0, 0, 0⟩,
  ⟨"HITCH_STAT", 0x40060004, 1, 0, 0x5000, 2, 0, 0, 0, 0, 0, 0, 0, 0⟩,
  ⟨"HITCH_SEQ", 0x40060008, 1, 0, 0x5000, 3, 0, 0, 0, 0, 0, 0, 0, 0⟩,
  ⟨"HITCH_BASE_LO", 0x4006000C, 1, 0, 0x5000, 4, 0, 0, 0, 0xFFFFFFFF, 0, 0, 0, 0⟩,
  ⟨"HITCH_BASE_HI", 0x40060010, 1, 0, 0x5000, 5, 0, 0, 0, 0xFFFFFFFF, 0, 0, 0, 0⟩,
  ⟨"HITCH_ADJ", 0x40060014, 1, 0, 0x5000, 6, 0, 0, 0, 0, 0, 0, 0xFFFF, 0⟩,
  ⟨"HITCH_EPOCH_LO", 0x40060018, 1, 0, 0x5000, 7, 0, 0, 0, 0, 0, 0, 0, 0⟩,
  ⟨"HITCH_EPOCH_HI", 0x4006001C, 1, 0, 0x5000, 8, 0, 0, 0, 0, 0, 0, 0, 0⟩,
  ⟨"HITCH_TCNT_LO", 0x40060020, 1, 0, 0x5000, 9, 0, 0, 0, 0, 0, 0, 0, 0⟩,
  ⟨"HITCH_TCNT_HI", 0x40060024, 1, 0, 0x5000, 0xA, 0, 0, 0, 0, 0, 0, 0, 0⟩,
  ⟨"HITCH_EVT", 0x40060028, 1, 0, 0x5000, 0xB, 0, 0, 0, 0, 0x3F, 0, 0, 0⟩,
  ⟨"HITCH_TALLY", 0x4006002C, 1, 0, 0x5000, 0xC, 0, 0, 0, 0, 0, 0, 0, 0xFFFFFFFF⟩,
  ⟨"HITCH_COPY", 0x40060030, 1, 0, 0x5000, 0xD, 0, 0, 0x800, 0x3F3F, 0, 0, 0, 0⟩,
  ⟨"HITCH_CPIDX", 0x40060034, 1, 0, 0x5000, 0xE, 0, 0, 0, 0, 0, 0, 0, 0⟩,
  ⟨"TCNT_LO", 0x40060100, 1, 0, 0x5100, 1, 0, 0, 0, 0, 0, 0, 0, 0⟩,
  ⟨"TCNT_HI", 0x40060104, 1, 0, 0x5100, 2, 0, 0, 0, 0, 0, 0, 0, 0⟩,
  ⟨"TP_CFG", 0x40060108, 1, 0, 0x5100, 3, 0, 0, 0x61A80, 0x7FFFFF, 0, 0, 0, 0⟩,
  ⟨"TP_PER_I", 0x4006010C, 1, 0, 0x5100, 4, 0, 0, 0x1D4C0000, 0xFFFFFFFF, 0, 0, 0, 0⟩,
  ⟨"TP_PER_F", 0x40060110, 1, 0, 0x5100, 5, 0, 0, 0, 0xFFFFFFFF, 0, 0, 0, 0⟩,
  ⟨"TP_NEXT_LO", 0x40060114, 1, 0, 0x5100, 6, 0, 0, 0, 0, 0, 0, 0, 0⟩,
  ⟨"TP_NEXT_HI", 0x40060118, 1, 0, 0x5100, 7, 0, 0, 0, 0, 0, 0, 0, 0⟩,
  ⟨"TP_NEXT_F", 0x4006011C, 1, 0, 0x5100, 8, 0, 0, 0, 0, 0, 0, 0, 0⟩,
  ⟨"TP_STEP_LO", 0x40060120, 1, 0, 0x5100, 9, 0, 0, 0, 0xFFFFFFFF, 0, 0, 0, 0⟩,
  ⟨"TP_STEP_HI", 0x40060124, 1, 0, 0x5100, 0xA, 0, 0, 0, 0xFFFFFFFF, 0, 0, 0, 0⟩,
  ⟨"TP_STEP_F", 0x40060128, 1, 0, 0x5100, 0xB, 0, 0, 0, 0xFFFFFFFF, 0, 0, 0, 0⟩,
  ⟨"TP_STEPLBL", 0x4006012C, 1, 0, 0x5100, 0xC, 0, 0, 0, 0xFFFFFFFF, 0, 0, 0, 0⟩,
  ⟨"TP_CMD", 0x40060130, 1, 0, 0x5100, 0xD, 0, 0, 0, 0, 0, 3, 0, 0⟩,
  ⟨"TP_SLEW", 0x40060134, 1, 0, 0x5100, 0xE, 0, 0, 0, 0xFFFFFFFF, 0, 0, 0, 0⟩,
  ⟨"TP_LIM", 0x40060138, 1, 0, 0x5100, 0xF, 0, 0, 0x3E80E75, 0xFFFFFFFF, 0, 0, 0, 0⟩,
  ⟨"TP_DISC", 0x4006013C, 1, 0, 0x5100, 0x10, 0, 0, 0, 0, 0, 0, 0xFFFFFFFF, 0⟩,
  ⟨"TP_STAT", 0x40060140, 1, 0, 0x5100, 0x11, 0, 0, 0, 0, 0x2C, 0, 0, 0⟩,
  ⟨"TP_UNC", 0x40060144, 1, 0, 0x5100, 0x12, 0, 0, 0xFFFFFFFF, 0, 0, 0, 0, 0⟩,
  ⟨"TP_UNCRATE", 0x40060148, 1, 0, 0x5100, 0x13, 0, 0, 0x1388, 0xFFFFFFFF, 0, 0, 0, 0⟩,
  ⟨"TP_UNCACC", 0x4006014C, 1, 0, 0x5100, 0x14, 0, 0, 0x14, 0xFFFF, 0, 0, 0, 0⟩,
  ⟨"TP_LABEL", 0x40060150, 1, 0, 0x5100, 0x15, 0, 0, 0, 0xFFFFFFFF, 0, 0, 0, 0⟩,
  ⟨"TP_TALLY", 0x40060154, 1, 0, 0x5100, 0x16, 0, 0, 0, 0, 0, 0, 0, 0xFFFFFFFF⟩,
  ⟨"TM_CFG", 0x40060200, 1, 0, 0x5200, 1, 0, 0, 0x22, 0xFF, 0, 0, 0, 0⟩,
  ⟨"TM_STAT", 0x40060204, 1, 0, 0x5200, 2, 0, 0, 0, 0, 0x30, 0, 0, 0xFFFF0000⟩,
  ⟨"TM_T_LO", 0x40060208, 1, 0, 0x5200, 3, 0, 0, 0, 0, 0, 0, 0, 0⟩,
  ⟨"TM_T_HI", 0x4006020C, 1, 0, 0x5200, 4, 0, 0, 0, 0, 0, 0, 0, 0⟩,
  ⟨"TM_INFO", 0x40060210, 1, 0, 0x5200, 5, 0, 0, 0, 0, 0, 0, 0, 0⟩]

/-! ### Block MEM -/

/-- MEM_MTEST, 09_memory_banks. -/
def MEM_MTEST : Nat := 0x40070000
def MEM_MTEST_UNIT : Fld := ⟨MEM_MTEST, 0, 5⟩
def MEM_MTEST_MODE : Fld := ⟨MEM_MTEST, 5, 1⟩
def MEM_MTEST_START : Fld := ⟨MEM_MTEST, 8, 1⟩
def MEM_MTEST_BUSY : Fld := ⟨MEM_MTEST, 9, 1⟩
def MEM_MTEST_PASS : Fld := ⟨MEM_MTEST, 10, 1⟩
def MEM_MTEST_DONE : Fld := ⟨MEM_MTEST, 11, 1⟩
def MEM_MTEST_REFUSED : Fld := ⟨MEM_MTEST, 12, 1⟩
def MEM_MTEST_REPAIRED : Fld := ⟨MEM_MTEST, 13, 1⟩
def MEM_MTEST_RETIRED : Fld := ⟨MEM_MTEST, 14, 1⟩
/-- MEM_MTRES, 09_memory_banks. -/
def MEM_MTRES : Nat := 0x40070004
def MEM_MTRES_UNIT : Fld := ⟨MEM_MTRES, 0, 5⟩
def MEM_MTRES_BANK : Fld := ⟨MEM_MTRES, 5, 4⟩
def MEM_MTRES_ROW : Fld := ⟨MEM_MTRES, 9, 6⟩
def MEM_MTRES_FAILROWS : Fld := ⟨MEM_MTRES, 16, 8⟩
/-- MEM_ECC, 09_memory_banks. -/
def MEM_ECC : Nat := 0x40070008
def MEM_ECC_CE : Fld := ⟨MEM_ECC, 0, 16⟩
def MEM_ECC_UE : Fld := ⟨MEM_ECC, 16, 16⟩
/-- MEM_ECCADDR, 09_memory_banks. -/
def MEM_ECCADDR : Nat := 0x4007000C
def MEM_ECCADDR_ADDR : Fld := ⟨MEM_ECCADDR, 0, 32⟩
/-- MEM_BOOT, 09_memory_banks. -/
def MEM_BOOT : Nat := 0x40070010
def MEM_BOOT_MODE : Fld := ⟨MEM_BOOT, 0, 2⟩
def MEM_BOOT_REPAIRED : Fld := ⟨MEM_BOOT, 8, 18⟩
/-- MEM_CTRL, 09_memory_banks. -/
def MEM_CTRL : Nat := 0x40070014
def MEM_CTRL_REPAIR_EN : Fld := ⟨MEM_CTRL, 0, 1⟩
/-- MEM_LCS, 09_memory_banks. -/
def MEM_LCS : Nat := 0x40070040
def MEM_LCS_STATE : Fld := ⟨MEM_LCS, 0, 3⟩
def MEM_LCS_JTAG : Fld := ⟨MEM_LCS, 3, 1⟩
def MEM_LCS_CLASS : Fld := ⟨MEM_LCS, 4, 2⟩
/-- MEM_LCREQ, 09_memory_banks. -/
def MEM_LCREQ : Nat := 0x40070044
def MEM_LCREQ_TARGET : Fld := ⟨MEM_LCREQ, 0, 3⟩
def MEM_LCREQ_CONFIRM : Fld := ⟨MEM_LCREQ, 16, 16⟩
/-- MEM_THSTAT, 09_memory_banks. -/
def MEM_THSTAT : Nat := 0x40070050
def MEM_THSTAT_BLOCKED : Fld := ⟨MEM_THSTAT, 0, 1⟩
def MEM_THSTAT_VERIFIED : Fld := ⟨MEM_THSTAT, 1, 1⟩
def MEM_THSTAT_FAIL : Fld := ⟨MEM_THSTAT, 2, 1⟩
def MEM_THSTAT_TAMPER_LOCKED : Fld := ⟨MEM_THSTAT, 3, 1⟩
def MEM_THSTAT_CAUSE : Fld := ⟨MEM_THSTAT, 4, 3⟩
def MEM_THSTAT_TEV : Fld := ⟨MEM_THSTAT, 7, 2⟩
def MEM_THSTAT_WIPES : Fld := ⟨MEM_THSTAT, 16, 16⟩
/-- MEM_THCMD, 09_memory_banks. -/
def MEM_THCMD : Nat := 0x40070054
def MEM_THCMD_WIPE : Fld := ⟨MEM_THCMD, 0, 1⟩
def MEM_THCMD_LOAD : Fld := ⟨MEM_THCMD, 1, 1⟩
def MEM_THCMD_UNLOCK : Fld := ⟨MEM_THCMD, 2, 1⟩
def MEM_THCMD_TAMPER_LOCK : Fld := ⟨MEM_THCMD, 8, 1⟩
/-- MEM_KSTAT, 09_memory_banks. -/
def MEM_KSTAT : Nat := 0x40070058
def MEM_KSTAT_LOADED : Fld := ⟨MEM_KSTAT, 0, 9⟩
def MEM_KSTAT_SKIPPED : Fld := ⟨MEM_KSTAT, 9, 10⟩
def MEM_KSTAT_FULL : Fld := ⟨MEM_KSTAT, 19, 1⟩
/-- MEM_SCTL (copy n of 18), 09_memory_banks. -/
def MEM_SCTL (n : Nat) : Nat := 0x40070100 + 8 * n
def MEM_SCTL_RUN_OFF (n : Nat) : Fld := ⟨MEM_SCTL n, 0, 1⟩
def MEM_SCTL_SLACK_RET (n : Nat) : Fld := ⟨MEM_SCTL n, 1, 1⟩
def MEM_SCTL_STATE (n : Nat) : Fld := ⟨MEM_SCTL n, 2, 3⟩
def MEM_SCTL_AVAIL (n : Nat) : Fld := ⟨MEM_SCTL n, 5, 1⟩
def MEM_SCTL_REFUSED (n : Nat) : Fld := ⟨MEM_SCTL n, 6, 1⟩
def MEM_SCTL_FAILING (n : Nat) : Fld := ⟨MEM_SCTL n, 7, 1⟩
def MEM_SCTL_SPARES_USED (n : Nat) : Fld := ⟨MEM_SCTL n, 16, 6⟩
/-- MEM_SBANK (copy n of 18), 09_memory_banks. -/
def MEM_SBANK (n : Nat) : Nat := 0x40070104 + 8 * n
def MEM_SBANK_RETLOST (n : Nat) : Fld := ⟨MEM_SBANK n, 0, 16⟩
def MEM_SBANK_RETIRED (n : Nat) : Fld := ⟨MEM_SBANK n, 16, 16⟩

/-- The register map of block MEM. -/
def regsMEM : List RegDef := [
  ⟨"MEM_MTEST", 0x40070000, 1, 0, 0x9100, 1, 0, 0, 0, 0x3F, 0x1800, 0x100, 0, 0⟩,
  ⟨"MEM_MTRES", 0x40070004, 1, 0, 0x9100, 2, 0, 0, 0, 0, 0, 0, 0, 0⟩,
  ⟨"MEM_ECC", 0x40070008, 1, 0, 0x9100, 3, 0, 0, 0, 0, 0, 0, 0, 0xFFFFFFFF⟩,
  ⟨"MEM_ECCADDR", 0x4007000C, 1, 0, 0x9100, 4, 0, 0, 0, 0, 0, 0, 0, 0⟩,
  ⟨"MEM_BOOT", 0x40070010, 1, 0, 0x9100, 5, 0, 0, 0, 0, 0, 0, 0, 0⟩,
  ⟨"MEM_CTRL", 0x40070014, 1, 0, 0x9100, 6, 0, 0, 1, 1, 0, 0, 0, 0⟩,
  ⟨"MEM_LCS", 0x40070040, 1, 0, 0x1100, 1, 0, 0, 0, 0, 0, 0, 0, 0⟩,
  ⟨"MEM_LCREQ", 0x40070044, 1, 0, 0x1100, 2, 0, 0, 0, 0, 0, 0, 0xFFFF0007, 0⟩,
  ⟨"MEM_THSTAT", 0x40070050, 1, 0, 0x9101, 1, 0, 0, 0, 0, 0, 0, 0, 0⟩,
  ⟨"MEM_THCMD", 0x40070054, 1, 0, 0x9101, 2, 0, 0, 0, 0x100, 0, 7, 0, 0⟩,
  ⟨"MEM_KSTAT", 0x40070058, 1, 0, 0x9101, 3, 0, 0, 0, 0, 0, 0, 0, 0⟩,
  ⟨"MEM_SCTL", 0x40070100, 18, 8, 0x9120, 1, 1, 0, 0x34, 3, 0x40, 0, 0, 0⟩,
  ⟨"MEM_SBANK", 0x40070104, 18, 8, 0x9120, 2, 1, 0, 0, 0, 0xFFFF, 0, 0, 0⟩]

/-! ### Block MPU -/

/-- MPU_CTRL, 17_protection_faults_background. -/
def MPU_CTRL : Nat := 0x40080000
def MPU_CTRL_EN : Fld := ⟨MPU_CTRL, 0, 1⟩
def MPU_CTRL_LOCK : Fld := ⟨MPU_CTRL, 1, 1⟩
/-- MPU_VIOL, 17_protection_faults_background. -/
def MPU_VIOL : Nat := 0x40080004
def MPU_VIOL_SOURCE : Fld := ⟨MPU_VIOL, 0, 8⟩
def MPU_VIOL_WRITE : Fld := ⟨MPU_VIOL, 8, 1⟩
def MPU_VIOL_VALID : Fld := ⟨MPU_VIOL, 9, 1⟩
def MPU_VIOL_COUNT : Fld := ⟨MPU_VIOL, 16, 16⟩
/-- MPU_VADDR, 17_protection_faults_background. -/
def MPU_VADDR : Nat := 0x40080008
def MPU_VADDR_ADDR : Fld := ⟨MPU_VADDR, 0, 32⟩
/-- MPU_RBASE (copy n of 16), 17_protection_faults_background. -/
def MPU_RBASE (n : Nat) : Nat := 0x40080100 + 0x10 * n
def MPU_RBASE_BASE (n : Nat) : Fld := ⟨MPU_RBASE n, 6, 26⟩
/-- MPU_RLIM (copy n of 16), 17_protection_faults_background. -/
def MPU_RLIM (n : Nat) : Nat := 0x40080104 + 0x10 * n
def MPU_RLIM_LIMIT (n : Nat) : Fld := ⟨MPU_RLIM n, 6, 26⟩
/-- MPU_RATTR (copy n of 16), 17_protection_faults_background. -/
def MPU_RATTR (n : Nat) : Nat := 0x40080108 + 0x10 * n
def MPU_RATTR_EN (n : Nat) : Fld := ⟨MPU_RATTR n, 0, 1⟩
def MPU_RATTR_LOOP_R (n : Nat) : Fld := ⟨MPU_RATTR n, 1, 1⟩
def MPU_RATTR_LOOP_W (n : Nat) : Fld := ⟨MPU_RATTR n, 2, 1⟩
def MPU_RATTR_FAB_R (n : Nat) : Fld := ⟨MPU_RATTR n, 3, 1⟩
def MPU_RATTR_FAB_W (n : Nat) : Fld := ⟨MPU_RATTR n, 4, 1⟩
def MPU_RATTR_DMA_R (n : Nat) : Fld := ⟨MPU_RATTR n, 5, 1⟩
def MPU_RATTR_DMA_W (n : Nat) : Fld := ⟨MPU_RATTR n, 6, 1⟩
def MPU_RATTR_HOST_R (n : Nat) : Fld := ⟨MPU_RATTR n, 7, 1⟩
def MPU_RATTR_HOST_W (n : Nat) : Fld := ⟨MPU_RATTR n, 8, 1⟩

/-- The register map of block MPU. -/
def regsMPU : List RegDef := [
  ⟨"MPU_CTRL", 0x40080000, 1, 0, 0x9200, 1, 0, 0, 0, 1, 0, 2, 0, 0⟩,
  ⟨"MPU_VIOL", 0x40080004, 1, 0, 0x9200, 2, 0, 0, 0, 0, 0x200, 0, 0, 0xFFFF0000⟩,
  ⟨"MPU_VADDR", 0x40080008, 1, 0, 0x9200, 3, 0, 0, 0, 0, 0, 0, 0, 0⟩,
  ⟨"MPU_RBASE", 0x40080100, 16, 0x10, 0x9210, 1, 1, 0, 0, 0xFFFFFFC0, 0, 0, 0, 0⟩,
  ⟨"MPU_RLIM", 0x40080104, 16, 0x10, 0x9210, 2, 1, 0, 0, 0xFFFFFFC0, 0, 0, 0, 0⟩,
  ⟨"MPU_RATTR", 0x40080108, 16, 0x10, 0x9210, 3, 1, 0, 0, 0x1FF, 0, 0, 0, 0⟩]

/-! ### Block ELOG -/

/-- ELOG_CTRL, 17_protection_faults_background. -/
def ELOG_CTRL : Nat := 0x40090000
def ELOG_CTRL_IRQ_MASK : Fld := ⟨ELOG_CTRL, 0, 16⟩
def ELOG_CTRL_CLEAR : Fld := ⟨ELOG_CTRL, 16, 1⟩
/-- ELOG_STAT, 17_protection_faults_background. -/
def ELOG_STAT : Nat := 0x40090004
def ELOG_STAT_FIRSTCNT : Fld := ⟨ELOG_STAT, 0, 6⟩
def ELOG_STAT_RINGCNT : Fld := ⟨ELOG_STAT, 6, 5⟩
def ELOG_STAT_RINGNEXT : Fld := ⟨ELOG_STAT, 11, 6⟩
def ELOG_STAT_QCNT : Fld := ⟨ELOG_STAT, 17, 4⟩
def ELOG_STAT_NEW : Fld := ⟨ELOG_STAT, 21, 1⟩
def ELOG_STAT_LOSTF : Fld := ⟨ELOG_STAT, 22, 1⟩
/-- ELOG_TOTAL, 17_protection_faults_background. -/
def ELOG_TOTAL : Nat := 0x40090008
def ELOG_TOTAL_TOTAL : Fld := ⟨ELOG_TOTAL, 0, 32⟩
/-- ELOG_LOSTALL, 17_protection_faults_background. -/
def ELOG_LOSTALL : Nat := 0x4009000C
def ELOG_LOSTALL_LOST : Fld := ⟨ELOG_LOSTALL, 0, 32⟩
/-- ELOG_LOST (copy n of 8), 17_protection_faults_background. -/
def ELOG_LOST (n : Nat) : Nat := 0x40090010 + 4 * n
def ELOG_LOST_LOST_LO (n : Nat) : Fld := ⟨ELOG_LOST n, 0, 16⟩
def ELOG_LOST_LOST_HI (n : Nat) : Fld := ⟨ELOG_LOST n, 16, 16⟩
/-- ELOG_SWADDR, 17_protection_faults_background. -/
def ELOG_SWADDR : Nat := 0x40090030
def ELOG_SWADDR_VALUE : Fld := ⟨ELOG_SWADDR, 0, 32⟩
/-- ELOG_SWDET, 17_protection_faults_background. -/
def ELOG_SWDET : Nat := 0x40090034
def ELOG_SWDET_VALUE : Fld := ⟨ELOG_SWDET, 0, 32⟩
/-- ELOG_SWHDR, 17_protection_faults_background. -/
def ELOG_SWHDR : Nat := 0x40090038
def ELOG_SWHDR_CLASS : Fld := ⟨ELOG_SWHDR, 0, 4⟩
def ELOG_SWHDR_CODE : Fld := ⟨ELOG_SWHDR, 8, 8⟩

/-- The register map of block ELOG. -/
def regsELOG : List RegDef := [
  ⟨"ELOG_CTRL", 0x40090000, 1, 0, 0x9300, 1, 0, 0, 0xFFFF, 0xFFFF, 0, 0x10000, 0, 0⟩,
  ⟨"ELOG_STAT", 0x40090004, 1, 0, 0x9300, 2, 0, 0, 0x18000, 0, 0x600000, 0, 0, 0⟩,
  ⟨"ELOG_TOTAL", 0x40090008, 1, 0, 0x9300, 3, 0, 0, 0, 0, 0, 0, 0, 0⟩,
  ⟨"ELOG_LOSTALL", 0x4009000C, 1, 0, 0x9300, 4, 0, 0, 0, 0, 0, 0, 0, 0xFFFFFFFF⟩,
  ⟨"ELOG_LOST", 0x40090010, 8, 4, 0x9300, 5, 0, 1, 0, 0, 0, 0, 0, 0xFFFFFFFF⟩,
  ⟨"ELOG_SWADDR", 0x40090030, 1, 0, 0x9300, 0xD, 0, 0, 0, 0xFFFFFFFF, 0, 0, 0, 0⟩,
  ⟨"ELOG_SWDET", 0x40090034, 1, 0, 0x9300, 0xE, 0, 0, 0, 0xFFFFFFFF, 0, 0, 0, 0⟩,
  ⟨"ELOG_SWHDR", 0x40090038, 1, 0, 0x9300, 0xF, 0, 0, 0, 0, 0, 0, 0xFF0F, 0⟩]

/-! ### Block UART0 -/

/-- UART_CFG (copy n of 6), 11_serial_ports. -/
def UART_CFG (n : Nat) : Nat := 0x400A0000 + 0x10000 * n
def UART_CFG_EN (n : Nat) : Fld := ⟨UART_CFG n, 0, 1⟩
def UART_CFG_TXEN (n : Nat) : Fld := ⟨UART_CFG n, 1, 1⟩
def UART_CFG_RXEN (n : Nat) : Fld := ⟨UART_CFG n, 2, 1⟩
def UART_CFG_INV (n : Nat) : Fld := ⟨UART_CFG n, 3, 1⟩
def UART_CFG_HDX (n : Nat) : Fld := ⟨UART_CFG n, 4, 1⟩
def UART_CFG_ECHO (n : Nat) : Fld := ⟨UART_CFG n, 5, 1⟩
def UART_CFG_RTSCTS (n : Nat) : Fld := ⟨UART_CFG n, 6, 1⟩
def UART_CFG_GUARD (n : Nat) : Fld := ⟨UART_CFG n, 8, 8⟩
/-- UART_FMT (copy n of 6), 11_serial_ports. -/
def UART_FMT (n : Nat) : Nat := 0x400A0004 + 0x10000 * n
def UART_FMT_DBITS (n : Nat) : Fld := ⟨UART_FMT n, 0, 4⟩
def UART_FMT_PAR (n : Nat) : Fld := ⟨UART_FMT n, 4, 3⟩
def UART_FMT_STOP (n : Nat) : Fld := ⟨UART_FMT n, 7, 2⟩
/-- UART_RATE (copy n of 6), 11_serial_ports. -/
def UART_RATE (n : Nat) : Nat := 0x400A0008 + 0x10000 * n
def UART_RATE_INC (n : Nat) : Fld := ⟨UART_RATE n, 0, 16⟩
def UART_RATE_MOD (n : Nat) : Fld := ⟨UART_RATE n, 16, 16⟩
/-- UART_DATA (copy n of 6), 11_serial_ports. -/
def UART_DATA (n : Nat) : Nat := 0x400A000C + 0x10000 * n
def UART_DATA_ENTRY (n : Nat) : Fld := ⟨UART_DATA n, 0, 32⟩
def UART_DATA_TXD (n : Nat) : Fld := ⟨UART_DATA n, 0, 9⟩
def UART_DATA_BRK (n : Nat) : Fld := ⟨UART_DATA n, 9, 1⟩
/-- UART_STAT (copy n of 6), 11_serial_ports. -/
def UART_STAT (n : Nat) : Nat := 0x400A0010 + 0x10000 * n
def UART_STAT_RXCNT (n : Nat) : Fld := ⟨UART_STAT n, 0, 6⟩
def UART_STAT_TXCNT (n : Nat) : Fld := ⟨UART_STAT n, 6, 6⟩
def UART_STAT_TXBUSY (n : Nat) : Fld := ⟨UART_STAT n, 12, 1⟩
def UART_STAT_RXBUSY (n : Nat) : Fld := ⟨UART_STAT n, 13, 1⟩
def UART_STAT_COLL (n : Nat) : Fld := ⟨UART_STAT n, 14, 1⟩
def UART_STAT_CFG_ERR (n : Nat) : Fld := ⟨UART_STAT n, 15, 1⟩
def UART_STAT_OVR (n : Nat) : Fld := ⟨UART_STAT n, 16, 1⟩
def UART_STAT_SHTX (n : Nat) : Fld := ⟨UART_STAT n, 17, 1⟩
def UART_STAT_SHRX (n : Nat) : Fld := ⟨UART_STAT n, 18, 1⟩
def UART_STAT_IDLE (n : Nat) : Fld := ⟨UART_STAT n, 19, 1⟩
def UART_STAT_SLOWACT (n : Nat) : Fld := ⟨UART_STAT n, 20, 1⟩
def UART_STAT_WAKE (n : Nat) : Fld := ⟨UART_STAT n, 21, 1⟩
/-- UART_FIFO (copy n of 6), 11_serial_ports. -/
def UART_FIFO (n : Nat) : Nat := 0x400A0014 + 0x10000 * n
def UART_FIFO_RXTHR (n : Nat) : Fld := ⟨UART_FIFO n, 0, 6⟩
def UART_FIFO_TXTHR (n : Nat) : Fld := ⟨UART_FIFO n, 8, 6⟩
def UART_FIFO_RTS_THR (n : Nat) : Fld := ⟨UART_FIFO n, 16, 6⟩
def UART_FIFO_RXFLUSH (n : Nat) : Fld := ⟨UART_FIFO n, 22, 1⟩
def UART_FIFO_TXFLUSH (n : Nat) : Fld := ⟨UART_FIFO n, 23, 1⟩
/-- UART_SLOW (copy n of 2), 11_serial_ports. -/
def UART_SLOW (n : Nat) : Nat := 0x400A0018 + 0x10000 * n
def UART_SLOW_SLOW_EN (n : Nat) : Fld := ⟨UART_SLOW n, 0, 1⟩
def UART_SLOW_MATCH (n : Nat) : Fld := ⟨UART_SLOW n, 1, 2⟩
def UART_SLOW_SLOW_EXIT (n : Nat) : Fld := ⟨UART_SLOW n, 3, 1⟩
def UART_SLOW_ADDR (n : Nat) : Fld := ⟨UART_SLOW n, 4, 8⟩
def UART_SLOW_MASK (n : Nat) : Fld := ⟨UART_SLOW n, 12, 8⟩
/-- UART_SRATE (copy n of 2), 11_serial_ports. -/
def UART_SRATE (n : Nat) : Nat := 0x400A001C + 0x10000 * n
def UART_SRATE_SINC (n : Nat) : Fld := ⟨UART_SRATE n, 0, 16⟩
def UART_SRATE_SMOD (n : Nat) : Fld := ⟨UART_SRATE n, 16, 16⟩
/-- UART_TALLY (copy n of 6), 11_serial_ports. -/
def UART_TALLY (n : Nat) : Nat := 0x400A0020 + 0x10000 * n
def UART_TALLY_FRAMING (n : Nat) : Fld := ⟨UART_TALLY n, 0, 8⟩
def UART_TALLY_PARITY (n : Nat) : Fld := ⟨UART_TALLY n, 8, 8⟩
def UART_TALLY_OVERRUN (n : Nat) : Fld := ⟨UART_TALLY n, 16, 8⟩
def UART_TALLY_COLLISIONS (n : Nat) : Fld := ⟨UART_TALLY n, 24, 8⟩

/-- The register map of block UART0. -/
def regsUART0 : List RegDef := [
  ⟨"UART_CFG", 0x400A0000, 6, 0x10000, 0xB010, 1, 1, 0, 0x106, 0xFF7F, 0, 0, 0, 0⟩,
  ⟨"UART_FMT", 0x400A0004, 6, 0x10000, 0xB010, 2, 1, 0, 8, 0x1FF, 0, 0, 0, 0⟩,
  ⟨"UART_RATE", 0x400A0008, 6, 0x10000, 0xB010, 3, 1, 0, 0xA00003, 0xFFFFFFFF, 0, 0, 0, 0⟩,
  ⟨"UART_DATA", 0x400A000C, 6, 0x10000, 0xB010, 4, 1, 0, 0, 0, 0, 0, 0x3FF, 0⟩,
  ⟨"UART_STAT", 0x400A0010, 6, 0x10000, 0xB010, 5, 1, 0, 0, 0, 0x29C000, 0, 0, 0⟩,
  ⟨"UART_FIFO", 0x400A0014, 6, 0x10000, 0xB010, 6, 1, 0, 0x180001, 0x3F3F3F, 0, 0xC00000, 0, 0⟩,
  ⟨"UART_SLOW", 0x400A0018, 2, 0x10000, 0xB010, 7, 1, 0, 0xFF000, 0xFFFF7, 0, 8, 0, 0⟩,
  ⟨"UART_SRATE", 0x400A001C, 2, 0x10000, 0xB010, 8, 1, 0, 0x400004B, 0xFFFFFFFF, 0, 0, 0, 0⟩,
  ⟨"UART_TALLY", 0x400A0020, 6, 0x10000, 0xB010, 9, 1, 0, 0, 0, 0, 0, 0, 0xFFFFFFFF⟩]

/-! ### Block LYD -/

/-- LYD_CFG, 11_serial_ports. -/
def LYD_CFG : Nat := 0x40100000
def LYD_CFG_EN : Fld := ⟨LYD_CFG, 0, 1⟩
def LYD_CFG_PULLUP : Fld := ⟨LYD_CFG, 1, 1⟩
def LYD_CFG_ECHO : Fld := ⟨LYD_CFG, 5, 1⟩
def LYD_CFG_GUARD : Fld := ⟨LYD_CFG, 8, 8⟩
/-- LYD_RATE, 11_serial_ports. -/
def LYD_RATE : Nat := 0x40100008
def LYD_RATE_INC : Fld := ⟨LYD_RATE, 0, 16⟩
def LYD_RATE_MOD : Fld := ⟨LYD_RATE, 16, 16⟩
/-- LYD_DATA, 11_serial_ports. -/
def LYD_DATA : Nat := 0x4010000C
def LYD_DATA_ENTRY : Fld := ⟨LYD_DATA, 0, 32⟩
def LYD_DATA_TXD : Fld := ⟨LYD_DATA, 0, 9⟩
def LYD_DATA_BRK : Fld := ⟨LYD_DATA, 9, 1⟩
/-- LYD_STAT, 11_serial_ports. -/
def LYD_STAT : Nat := 0x40100010
def LYD_STAT_RXCNT : Fld := ⟨LYD_STAT, 0, 6⟩
def LYD_STAT_TXCNT : Fld := ⟨LYD_STAT, 6, 6⟩
def LYD_STAT_TXBUSY : Fld := ⟨LYD_STAT, 12, 1⟩
def LYD_STAT_RXBUSY : Fld := ⟨LYD_STAT, 13, 1⟩
def LYD_STAT_COLL : Fld := ⟨LYD_STAT, 14, 1⟩
def LYD_STAT_CFG_ERR : Fld := ⟨LYD_STAT, 15, 1⟩
def LYD_STAT_OVR : Fld := ⟨LYD_STAT, 16, 1⟩
def LYD_STAT_SHTX : Fld := ⟨LYD_STAT, 17, 1⟩
def LYD_STAT_SHRX : Fld := ⟨LYD_STAT, 18, 1⟩
def LYD_STAT_IDLE : Fld := ⟨LYD_STAT, 19, 1⟩
/-- LYD_FIFO, 11_serial_ports. -/
def LYD_FIFO : Nat := 0x40100014
def LYD_FIFO_RXTHR : Fld := ⟨LYD_FIFO, 0, 6⟩
def LYD_FIFO_TXTHR : Fld := ⟨LYD_FIFO, 8, 6⟩
def LYD_FIFO_RXFLUSH : Fld := ⟨LYD_FIFO, 22, 1⟩
def LYD_FIFO_TXFLUSH : Fld := ⟨LYD_FIFO, 23, 1⟩
/-- LYD_SESS, 11_serial_ports. -/
def LYD_SESS : Nat := 0x40100018
def LYD_SESS_STATE : Fld := ⟨LYD_SESS, 0, 2⟩
def LYD_SESS_ROLE : Fld := ⟨LYD_SESS, 2, 2⟩
def LYD_SESS_SID : Fld := ⟨LYD_SESS, 8, 8⟩
def LYD_SESS_AGE : Fld := ⟨LYD_SESS, 16, 16⟩
/-- LYD_TALLY, 11_serial_ports. -/
def LYD_TALLY : Nat := 0x40100020
def LYD_TALLY_FRAMING : Fld := ⟨LYD_TALLY, 0, 8⟩
def LYD_TALLY_NOSESS : Fld := ⟨LYD_TALLY, 8, 8⟩
def LYD_TALLY_OVERRUN : Fld := ⟨LYD_TALLY, 16, 8⟩
def LYD_TALLY_COLLISIONS : Fld := ⟨LYD_TALLY, 24, 8⟩

/-- The register map of block LYD. -/
def regsLYD : List RegDef := [
  ⟨"LYD_CFG", 0x40100000, 1, 0, 0xB020, 1, 0, 0, 0x103, 0xFF23, 0, 0, 0, 0⟩,
  ⟨"LYD_RATE", 0x40100008, 1, 0, 0xB020, 3, 0, 0, 0xA00003, 0xFFFFFFFF, 0, 0, 0, 0⟩,
  ⟨"LYD_DATA", 0x4010000C, 1, 0, 0xB020, 4, 0, 0, 0, 0, 0, 0, 0x3FF, 0⟩,
  ⟨"LYD_STAT", 0x40100010, 1, 0, 0xB020, 5, 0, 0, 0, 0, 0x9C000, 0, 0, 0⟩,
  ⟨"LYD_FIFO", 0x40100014, 1, 0, 0xB020, 6, 0, 0, 1, 0x3F3F, 0, 0xC00000, 0, 0⟩,
  ⟨"LYD_SESS", 0x40100018, 1, 0, 0xB020, 7, 0, 0, 0, 0, 0, 0, 0, 0⟩,
  ⟨"LYD_TALLY", 0x40100020, 1, 0, 0xB020, 9, 0, 0, 0, 0, 0, 0, 0, 0xFFFFFFFF⟩]

/-! ### Block CAN0 -/

/-- CAN_CFG (copy n of 2), 10_object_dictionary. -/
def CAN_CFG (n : Nat) : Nat := 0x40110000 + 0x10000 * n
def CAN_CFG_EN (n : Nat) : Fld := ⟨CAN_CFG n, 0, 1⟩
def CAN_CFG_FDOE (n : Nat) : Fld := ⟨CAN_CFG n, 1, 1⟩
def CAN_CFG_BRSE (n : Nat) : Fld := ⟨CAN_CFG n, 2, 1⟩
def CAN_CFG_XID (n : Nat) : Fld := ⟨CAN_CFG n, 3, 1⟩
def CAN_CFG_SILENT (n : Nat) : Fld := ⟨CAN_CFG n, 4, 1⟩
def CAN_CFG_LOOP (n : Nat) : Fld := ⟨CAN_CFG n, 5, 1⟩
def CAN_CFG_AUTO_BOR (n : Nat) : Fld := ⟨CAN_CFG n, 6, 1⟩
def CAN_CFG_TDC_EN (n : Nat) : Fld := ⟨CAN_CFG n, 7, 1⟩
def CAN_CFG_NODE (n : Nat) : Fld := ⟨CAN_CFG n, 8, 7⟩
def CAN_CFG_ROLE (n : Nat) : Fld := ⟨CAN_CFG n, 15, 1⟩
/-- CAN_NQ (copy n of 2), 10_object_dictionary. -/
def CAN_NQ (n : Nat) : Nat := 0x40110004 + 0x10000 * n
def CAN_NQ_INC (n : Nat) : Fld := ⟨CAN_NQ n, 0, 16⟩
def CAN_NQ_MOD (n : Nat) : Fld := ⟨CAN_NQ n, 16, 16⟩
/-- CAN_NSEG (copy n of 2), 10_object_dictionary. -/
def CAN_NSEG (n : Nat) : Nat := 0x40110008 + 0x10000 * n
def CAN_NSEG_TSEG1 (n : Nat) : Fld := ⟨CAN_NSEG n, 0, 8⟩
def CAN_NSEG_TSEG2 (n : Nat) : Fld := ⟨CAN_NSEG n, 8, 7⟩
def CAN_NSEG_SJW (n : Nat) : Fld := ⟨CAN_NSEG n, 15, 7⟩
/-- CAN_DQ (copy n of 2), 10_object_dictionary. -/
def CAN_DQ (n : Nat) : Nat := 0x4011000C + 0x10000 * n
def CAN_DQ_INC (n : Nat) : Fld := ⟨CAN_DQ n, 0, 16⟩
def CAN_DQ_MOD (n : Nat) : Fld := ⟨CAN_DQ n, 16, 16⟩
/-- CAN_DSEG (copy n of 2), 10_object_dictionary. -/
def CAN_DSEG (n : Nat) : Nat := 0x40110010 + 0x10000 * n
def CAN_DSEG_TSEG1 (n : Nat) : Fld := ⟨CAN_DSEG n, 0, 5⟩
def CAN_DSEG_TSEG2 (n : Nat) : Fld := ⟨CAN_DSEG n, 5, 4⟩
def CAN_DSEG_SJW (n : Nat) : Fld := ⟨CAN_DSEG n, 9, 4⟩
def CAN_DSEG_TDCO (n : Nat) : Fld := ⟨CAN_DSEG n, 13, 8⟩
/-- CAN_XPRE (copy n of 2), 10_object_dictionary. -/
def CAN_XPRE (n : Nat) : Nat := 0x40110014 + 0x10000 * n
def CAN_XPRE_PREFIX (n : Nat) : Fld := ⟨CAN_XPRE n, 0, 18⟩
/-- CAN_STAT (copy n of 2), 10_object_dictionary. -/
def CAN_STAT (n : Nat) : Nat := 0x40110018 + 0x10000 * n
def CAN_STAT_STATE (n : Nat) : Fld := ⟨CAN_STAT n, 0, 2⟩
def CAN_STAT_TXQ (n : Nat) : Fld := ⟨CAN_STAT n, 2, 6⟩
def CAN_STAT_TEC (n : Nat) : Fld := ⟨CAN_STAT n, 8, 8⟩
def CAN_STAT_REC (n : Nat) : Fld := ⟨CAN_STAT n, 16, 8⟩
def CAN_STAT_BOFF (n : Nat) : Fld := ⟨CAN_STAT n, 24, 1⟩
def CAN_STAT_RXOVF (n : Nat) : Fld := ⟨CAN_STAT n, 25, 1⟩
/-- CAN_TALLY (copy n of 2), 10_object_dictionary. -/
def CAN_TALLY (n : Nat) : Nat := 0x4011001C + 0x10000 * n
def CAN_TALLY_TXDROP (n : Nat) : Fld := ⟨CAN_TALLY n, 0, 16⟩
def CAN_TALLY_NOTIFY_COAL (n : Nat) : Fld := ⟨CAN_TALLY n, 16, 16⟩

/-- The register map of block CAN0. -/
def regsCAN0 : List RegDef := [
  ⟨"CAN_CFG", 0x40110000, 2, 0x10000, 0xB100, 1, 0x10, 0, 0x21C6, 0xFFFF, 0, 0, 0, 0⟩,
  ⟨"CAN_NQ", 0x40110004, 2, 0x10000, 0xB100, 2, 0x10, 0, 0xC000271, 0xFFFFFFFF, 0, 0, 0, 0⟩,
  ⟨"CAN_NSEG", 0x40110008, 2, 0x10000, 0xB100, 3, 0x10, 0, 0x4081F, 0x3FFFFF, 0, 0, 0, 0⟩,
  ⟨"CAN_DQ", 0x4011000C, 2, 0x10000, 0xB100, 4, 0x10, 0, 0x6000271, 0xFFFFFFFF, 0, 0, 0, 0⟩,
  ⟨"CAN_DSEG", 0x40110010, 2, 0x10000, 0xB100, 5, 0x10, 0, 0x1EAAE, 0x1FFFFF, 0, 0, 0, 0⟩,
  ⟨"CAN_XPRE", 0x40110014, 2, 0x10000, 0xB100, 6, 0x10, 0, 0, 0x3FFFF, 0, 0, 0, 0⟩,
  ⟨"CAN_STAT", 0x40110018, 2, 0x10000, 0xB100, 7, 0x10, 0, 0, 0, 0x3000000, 0, 0, 0⟩,
  ⟨"CAN_TALLY", 0x4011001C, 2, 0x10000, 0xB100, 8, 0x10, 0, 0, 0, 0, 0, 0, 0xFFFFFFFF⟩]

/-! ### Block HSPI -/

/-- HSPI_CFG, 10_object_dictionary. -/
def HSPI_CFG : Nat := 0x40130000
def HSPI_CFG_EN : Fld := ⟨HSPI_CFG, 0, 1⟩
def HSPI_CFG_MODE3 : Fld := ⟨HSPI_CFG, 1, 1⟩
def HSPI_CFG_IRQ_POL : Fld := ⟨HSPI_CFG, 2, 1⟩
def HSPI_CFG_WIN_EN : Fld := ⟨HSPI_CFG, 3, 1⟩
/-- HSPI_STAT, 10_object_dictionary. -/
def HSPI_STAT : Nat := 0x40130004
def HSPI_STAT_OUTQ : Fld := ⟨HSPI_STAT, 0, 10⟩
def HSPI_STAT_CS : Fld := ⟨HSPI_STAT, 10, 1⟩
def HSPI_STAT_BADFRAME : Fld := ⟨HSPI_STAT, 16, 16⟩

/-- The register map of block HSPI. -/
def regsHSPI : List RegDef := [
  ⟨"HSPI_CFG", 0x40130000, 1, 0, 0xB200, 1, 0, 0, 5, 0xF, 0, 0, 0, 0⟩,
  ⟨"HSPI_STAT", 0x40130004, 1, 0, 0xB200, 2, 0, 0, 0, 0, 0, 0, 0, 0xFFFF0000⟩]

/-! ### Block SSPI -/

/-- SSPI_CFG, 05_tracking_loops. -/
def SSPI_CFG : Nat := 0x40140000
def SSPI_CFG_DIV : Fld := ⟨SSPI_CFG, 0, 8⟩
def SSPI_CFG_CPOL : Fld := ⟨SSPI_CFG, 8, 1⟩
def SSPI_CFG_CPHA : Fld := ⟨SSPI_CFG, 9, 1⟩
def SSPI_CFG_DRDY_POL : Fld := ⟨SSPI_CFG, 10, 1⟩
def SSPI_CFG_DRDY_EN : Fld := ⟨SSPI_CFG, 11, 1⟩
/-- SSPI_CMD, 05_tracking_loops. -/
def SSPI_CMD : Nat := 0x40140004
def SSPI_CMD_CMDB : Fld := ⟨SSPI_CMD, 0, 8⟩
def SSPI_CMD_LEN : Fld := ⟨SSPI_CMD, 8, 6⟩
def SSPI_CMD_READ : Fld := ⟨SSPI_CMD, 14, 1⟩
def SSPI_CMD_AUTO : Fld := ⟨SSPI_CMD, 15, 1⟩
/-- SSPI_STAT, 05_tracking_loops. -/
def SSPI_STAT : Nat := 0x40140008
def SSPI_STAT_RXCNT : Fld := ⟨SSPI_STAT, 0, 7⟩
def SSPI_STAT_DCNT : Fld := ⟨SSPI_STAT, 7, 5⟩
def SSPI_STAT_BUSY : Fld := ⟨SSPI_STAT, 12, 1⟩
def SSPI_STAT_RXOVF : Fld := ⟨SSPI_STAT, 13, 1⟩
def SSPI_STAT_DOVF : Fld := ⟨SSPI_STAT, 14, 1⟩
/-- SSPI_RX, 05_tracking_loops. -/
def SSPI_RX : Nat := 0x4014000C
def SSPI_RX_DATA : Fld := ⟨SSPI_RX, 0, 8⟩
def SSPI_RX_VALID : Fld := ⟨SSPI_RX, 31, 1⟩
/-- SSPI_DRDY, 05_tracking_loops. -/
def SSPI_DRDY : Nat := 0x40140010
def SSPI_DRDY_STAMP : Fld := ⟨SSPI_DRDY, 0, 32⟩

/-- The register map of block SSPI. -/
def regsSSPI : List RegDef := [
  ⟨"SSPI_CFG", 0x40140000, 1, 0, 0x2030, 1, 0, 0, 3, 0xFFF, 0, 0, 0, 0⟩,
  ⟨"SSPI_CMD", 0x40140004, 1, 0, 0x2030, 2, 0, 0, 0, 0, 0, 0, 0xFFFF, 0⟩,
  ⟨"SSPI_STAT", 0x40140008, 1, 0, 0x2030, 3, 0, 0, 0, 0, 0x6000, 0, 0, 0⟩,
  ⟨"SSPI_RX", 0x4014000C, 1, 0, 0x2030, 4, 0, 0, 0, 0, 0, 0, 0, 0⟩,
  ⟨"SSPI_DRDY", 0x40140010, 1, 0, 0x2030, 5, 0, 0, 0xFFFFFFFF, 0, 0, 0, 0, 0⟩]

/-! ### Block I2C -/

/-- I2C_CFG, 18_balls_and_package. -/
def I2C_CFG : Nat := 0x40150000
def I2C_CFG_EN : Fld := ⟨I2C_CFG, 0, 1⟩
/-- I2C_TIM, 18_balls_and_package. -/
def I2C_TIM : Nat := 0x40150004
def I2C_TIM_LOW : Fld := ⟨I2C_TIM, 0, 10⟩
def I2C_TIM_HIGH : Fld := ⟨I2C_TIM, 10, 10⟩
def I2C_TIM_HOLD : Fld := ⟨I2C_TIM, 20, 8⟩
/-- I2C_CMD, 18_balls_and_package. -/
def I2C_CMD : Nat := 0x40150008
def I2C_CMD_ADDR : Fld := ⟨I2C_CMD, 0, 7⟩
def I2C_CMD_READ : Fld := ⟨I2C_CMD, 7, 1⟩
def I2C_CMD_LEN : Fld := ⟨I2C_CMD, 8, 8⟩
def I2C_CMD_NOSTOP : Fld := ⟨I2C_CMD, 16, 1⟩
/-- I2C_DATA, 18_balls_and_package. -/
def I2C_DATA : Nat := 0x4015000C
def I2C_DATA_DATA : Fld := ⟨I2C_DATA, 0, 8⟩
def I2C_DATA_VALID : Fld := ⟨I2C_DATA, 31, 1⟩
/-- I2C_STAT, 18_balls_and_package. -/
def I2C_STAT : Nat := 0x40150010
def I2C_STAT_BUSY : Fld := ⟨I2C_STAT, 0, 1⟩
def I2C_STAT_DONE : Fld := ⟨I2C_STAT, 1, 1⟩
def I2C_STAT_NACK : Fld := ⟨I2C_STAT, 2, 1⟩
def I2C_STAT_ARBLOST : Fld := ⟨I2C_STAT, 3, 1⟩
def I2C_STAT_TIMEOUT : Fld := ⟨I2C_STAT, 4, 1⟩
def I2C_STAT_CFG_ERR : Fld := ⟨I2C_STAT, 5, 1⟩
def I2C_STAT_HELD : Fld := ⟨I2C_STAT, 6, 1⟩
def I2C_STAT_TXCNT : Fld := ⟨I2C_STAT, 8, 4⟩
def I2C_STAT_RXCNT : Fld := ⟨I2C_STAT, 12, 4⟩
def I2C_STAT_DONECNT : Fld := ⟨I2C_STAT, 16, 8⟩

/-- The register map of block I2C. -/
def regsI2C : List RegDef := [
  ⟨"I2C_CFG", 0x40150000, 1, 0, 0xB300, 1, 0, 0, 0, 1, 0, 0, 0, 0⟩,
  ⟨"I2C_TIM", 0x40150004, 1, 0, 0xB300, 2, 0, 0, 0x1E781F4, 0xFFFFFFF, 0, 0, 0, 0⟩,
  ⟨"I2C_CMD", 0x40150008, 1, 0, 0xB300, 3, 0, 0, 0, 0, 0, 0, 0x1FFFF, 0⟩,
  ⟨"I2C_DATA", 0x4015000C, 1, 0, 0xB300, 4, 0, 0, 0, 0xFF, 0, 0, 0, 0⟩,
  ⟨"I2C_STAT", 0x40150010, 1, 0, 0xB300, 5, 0, 0, 0, 0, 0x3E, 0, 0, 0⟩]

/-! ### Block RADIO -/

/-- RADIO_CTRL, 12_radio. -/
def RADIO_CTRL : Nat := 0x40160000
def RADIO_CTRL_CONS : Fld := ⟨RADIO_CTRL, 0, 1⟩
def RADIO_CTRL_HOLD_AUTO : Fld := ⟨RADIO_CTRL, 1, 1⟩
def RADIO_CTRL_FLUSH : Fld := ⟨RADIO_CTRL, 2, 1⟩
def RADIO_CTRL_HOLD_REL : Fld := ⟨RADIO_CTRL, 3, 1⟩
/-- RADIO_STAT, 12_radio. -/
def RADIO_STAT : Nat := 0x40160004
def RADIO_STAT_STATE : Fld := ⟨RADIO_STAT, 0, 3⟩
def RADIO_STAT_QCNT : Fld := ⟨RADIO_STAT, 3, 3⟩
def RADIO_STAT_CONS_ACT : Fld := ⟨RADIO_STAT, 6, 1⟩
def RADIO_STAT_HOLD_ACT : Fld := ⟨RADIO_STAT, 7, 1⟩
def RADIO_STAT_CAL_PEND : Fld := ⟨RADIO_STAT, 8, 1⟩
/-- RADIO_CMD0, 12_radio. -/
def RADIO_CMD0 : Nat := 0x40160010
def RADIO_CMD0_OP : Fld := ⟨RADIO_CMD0, 0, 3⟩
def RADIO_CMD0_CHAN : Fld := ⟨RADIO_CMD0, 3, 7⟩
def RADIO_CMD0_PHY : Fld := ⟨RADIO_CMD0, 10, 2⟩
def RADIO_CMD0_RET : Fld := ⟨RADIO_CMD0, 12, 2⟩
def RADIO_CMD0_IMM : Fld := ⟨RADIO_CMD0, 14, 1⟩
def RADIO_CMD0_PRI : Fld := ⟨RADIO_CMD0, 15, 1⟩
def RADIO_CMD0_BUF : Fld := ⟨RADIO_CMD0, 16, 2⟩
/-- RADIO_CMD1, 12_radio. -/
def RADIO_CMD1 : Nat := 0x40160014
def RADIO_CMD1_PWR : Fld := ⟨RADIO_CMD1, 0, 7⟩
def RADIO_CMD1_WIN : Fld := ⟨RADIO_CMD1, 8, 16⟩
def RADIO_CMD1_TAG : Fld := ⟨RADIO_CMD1, 24, 8⟩
/-- RADIO_CMD2, 12_radio. -/
def RADIO_CMD2 : Nat := 0x40160018
def RADIO_CMD2_START : Fld := ⟨RADIO_CMD2, 0, 32⟩
/-- RADIO_CMDGO, 12_radio. -/
def RADIO_CMDGO : Nat := 0x4016001C
def RADIO_CMDGO_GO : Fld := ⟨RADIO_CMDGO, 0, 1⟩
/-- RADIO_DONE, 12_radio. -/
def RADIO_DONE : Nat := 0x40160020
def RADIO_DONE_TAG : Fld := ⟨RADIO_DONE, 0, 8⟩
def RADIO_DONE_STATUS : Fld := ⟨RADIO_DONE, 8, 4⟩
def RADIO_DONE_CLAMP : Fld := ⟨RADIO_DONE, 12, 1⟩
def RADIO_DONE_RSSI : Fld := ⟨RADIO_DONE, 16, 8⟩
def RADIO_DONE_DELAY : Fld := ⟨RADIO_DONE, 24, 7⟩
def RADIO_DONE_VALID : Fld := ⟨RADIO_DONE, 31, 1⟩
/-- RADIO_CMDST, 12_radio. -/
def RADIO_CMDST : Nat := 0x40160024
def RADIO_CMDST_QFULL : Fld := ⟨RADIO_CMDST, 0, 1⟩
def RADIO_CMDST_CMD_ERR : Fld := ⟨RADIO_CMDST, 1, 1⟩
def RADIO_CMDST_DOVF : Fld := ⟨RADIO_CMDST, 2, 1⟩
def RADIO_CMDST_DCNT : Fld := ⟨RADIO_CMDST, 4, 4⟩
/-- RADIO_TIMER, 12_radio. -/
def RADIO_TIMER : Nat := 0x40160028
def RADIO_TIMER_T : Fld := ⟨RADIO_TIMER, 0, 32⟩
/-- RADIO_LIM, 12_radio. -/
def RADIO_LIM : Nat := 0x40160030
def RADIO_LIM_PMAX : Fld := ⟨RADIO_LIM, 0, 7⟩
def RADIO_LIM_DUTY : Fld := ⟨RADIO_LIM, 8, 10⟩
/-- RADIO_CHMASK_LO, 12_radio. -/
def RADIO_CHMASK_LO : Nat := 0x40160034
def RADIO_CHMASK_LO_MASK : Fld := ⟨RADIO_CHMASK_LO, 0, 32⟩
/-- RADIO_CHMASK_HI, 12_radio. -/
def RADIO_CHMASK_HI : Nat := 0x40160038
def RADIO_CHMASK_HI_MASK : Fld := ⟨RADIO_CHMASK_HI, 0, 8⟩
/-- RADIO_FUSE, 12_radio. -/
def RADIO_FUSE : Nat := 0x40160040
def RADIO_FUSE_FUSED : Fld := ⟨RADIO_FUSE, 0, 32⟩
/-- RADIO_FMASK_LO, 12_radio. -/
def RADIO_FMASK_LO : Nat := 0x40160044
def RADIO_FMASK_LO_FUSED : Fld := ⟨RADIO_FMASK_LO, 0, 32⟩
/-- RADIO_FMASK_HI, 12_radio. -/
def RADIO_FMASK_HI : Nat := 0x40160048
def RADIO_FMASK_HI_FUSED : Fld := ⟨RADIO_FMASK_HI, 0, 32⟩
/-- RADIO_EFF, 12_radio. -/
def RADIO_EFF : Nat := 0x4016004C
def RADIO_EFF_PMAX_EFF : Fld := ⟨RADIO_EFF, 0, 7⟩
def RADIO_EFF_DUTY_EFF : Fld := ⟨RADIO_EFF, 7, 10⟩
def RADIO_EFF_DUTY_USED : Fld := ⟨RADIO_EFF, 17, 10⟩
/-- RADIO_FBLOW, 12_radio. -/
def RADIO_FBLOW : Nat := 0x40160050
def RADIO_FBLOW_FIELD : Fld := ⟨RADIO_FBLOW, 0, 3⟩
def RADIO_FBLOW_CONFIRM : Fld := ⟨RADIO_FBLOW, 16, 16⟩
/-- RADIO_FBVAL, 12_radio. -/
def RADIO_FBVAL : Nat := 0x40160054
def RADIO_FBVAL_VALUE : Fld := ⟨RADIO_FBVAL, 0, 32⟩
/-- RADIO_FBSTAT, 12_radio. -/
def RADIO_FBSTAT : Nat := 0x40160058
def RADIO_FBSTAT_BUSY : Fld := ⟨RADIO_FBSTAT, 0, 1⟩
def RADIO_FBSTAT_DONE : Fld := ⟨RADIO_FBSTAT, 1, 1⟩
def RADIO_FBSTAT_REFUSED : Fld := ⟨RADIO_FBSTAT, 2, 1⟩
def RADIO_FBSTAT_VERIFY_ERR : Fld := ⟨RADIO_FBSTAT, 3, 1⟩
/-- RADIO_COEX, 12_radio. -/
def RADIO_COEX : Nat := 0x40160060
def RADIO_COEX_EN : Fld := ⟨RADIO_COEX, 0, 1⟩
def RADIO_COEX_REQ_POL : Fld := ⟨RADIO_COEX, 1, 1⟩
def RADIO_COEX_GRANT_POL : Fld := ⟨RADIO_COEX, 2, 1⟩
def RADIO_COEX_PRI_POL : Fld := ⟨RADIO_COEX, 3, 1⟩
def RADIO_COEX_RXREQ : Fld := ⟨RADIO_COEX, 4, 1⟩
def RADIO_COEX_TXABORT : Fld := ⟨RADIO_COEX, 5, 1⟩
def RADIO_COEX_LEAD : Fld := ⟨RADIO_COEX, 8, 9⟩
def RADIO_COEX_SAMP : Fld := ⟨RADIO_COEX, 17, 8⟩
/-- RADIO_TALLY0, 12_radio. -/
def RADIO_TALLY0 : Nat := 0x40160068
def RADIO_TALLY0_DENIED : Fld := ⟨RADIO_TALLY0, 0, 16⟩
def RADIO_TALLY0_LOST : Fld := ⟨RADIO_TALLY0, 16, 16⟩
/-- RADIO_TALLY1, 12_radio. -/
def RADIO_TALLY1 : Nat := 0x4016006C
def RADIO_TALLY1_SYNTHTO : Fld := ⟨RADIO_TALLY1, 0, 16⟩
def RADIO_TALLY1_DUTYREF : Fld := ⟨RADIO_TALLY1, 16, 16⟩
/-- RADIO_TALLY2, 12_radio. -/
def RADIO_TALLY2 : Nat := 0x40160070
def RADIO_TALLY2_CLAMPED : Fld := ⟨RADIO_TALLY2, 0, 16⟩
def RADIO_TALLY2_HELD : Fld := ⟨RADIO_TALLY2, 16, 16⟩
/-- RADIO_CSKEY (copy n of 4), 12_radio. -/
def RADIO_CSKEY (n : Nat) : Nat := 0x40160080 + 4 * n
def RADIO_CSKEY_KEY (n : Nat) : Fld := ⟨RADIO_CSKEY n, 0, 32⟩
/-- RADIO_CSCFG, 12_radio. -/
def RADIO_CSCFG : Nat := 0x40160090
def RADIO_CSCFG_ROLE : Fld := ⟨RADIO_CSCFG, 0, 1⟩
def RADIO_CSCFG_SPHY : Fld := ⟨RADIO_CSCFG, 1, 1⟩
def RADIO_CSCFG_RTT : Fld := ⟨RADIO_CSCFG, 2, 3⟩
def RADIO_CSCFG_TIP1 : Fld := ⟨RADIO_CSCFG, 5, 3⟩
def RADIO_CSCFG_TIP2 : Fld := ⟨RADIO_CSCFG, 8, 3⟩
def RADIO_CSCFG_TFCS : Fld := ⟨RADIO_CSCFG, 11, 3⟩
def RADIO_CSCFG_TPM : Fld := ⟨RADIO_CSCFG, 14, 2⟩
def RADIO_CSCFG_NSTEP : Fld := ⟨RADIO_CSCFG, 16, 8⟩
def RADIO_CSCFG_CALPASS : Fld := ⟨RADIO_CSCFG, 24, 1⟩
def RADIO_CSCFG_PWR : Fld := ⟨RADIO_CSCFG, 25, 7⟩

/-- The register map of block RADIO. -/
def regsRADIO : List RegDef := [
  ⟨"RADIO_CTRL", 0x40160000, 1, 0, 0x6000, 1, 0, 0, 2, 3, 0, 0xC, 0, 0⟩,
  ⟨"RADIO_STAT", 0x40160004, 1, 0, 0x6000, 2, 0, 0, 0, 0, 0, 0, 0, 0⟩,
  ⟨"RADIO_CMD0", 0x40160010, 1, 0, 0x6000, 5, 0, 0, 0, 0x3FFFF, 0, 0, 0, 0⟩,
  ⟨"RADIO_CMD1", 0x40160014, 1, 0, 0x6000, 6, 0, 0, 0, 0xFFFFFF7F, 0, 0, 0, 0⟩,
  ⟨"RADIO_CMD2", 0x40160018, 1, 0, 0x6000, 7, 0, 0, 0, 0xFFFFFFFF, 0, 0, 0, 0⟩,
  ⟨"RADIO_CMDGO", 0x4016001C, 1, 0, 0x6000, 8, 0, 0, 0, 0, 0, 1, 0, 0⟩,
  ⟨"RADIO_DONE", 0x40160020, 1, 0, 0x6000, 9, 0, 0, 0, 0, 0, 0, 0, 0⟩,
  ⟨"RADIO_CMDST", 0x40160024, 1, 0, 0x6000, 0xA, 0, 0, 0, 0, 7, 0, 0, 0⟩,
  ⟨"RADIO_TIMER", 0x40160028, 1, 0, 0x6000, 0xB, 0, 0, 0, 0, 0, 0, 0, 0⟩,
  ⟨"RADIO_LIM", 0x40160030, 1, 0, 0x6000, 0xD, 0, 0, 0x3E83C, 0x3FF7F, 0, 0, 0, 0⟩,
  ⟨"RADIO_CHMASK_LO", 0x40160034, 1, 0, 0x6000, 0xE, 0, 0, 0, 0xFFFFFFFF, 0, 0, 0, 0⟩,
  ⟨"RADIO_CHMASK_HI", 0x40160038, 1, 0, 0x6000, 0xF, 0, 0, 0, 0xFF, 0, 0, 0, 0⟩,
  ⟨"RADIO_FUSE", 0x40160040, 1, 0, 0x6000, 0x11, 0, 0, 0, 0, 0, 0, 0, 0⟩,
  ⟨"RADIO_FMASK_LO", 0x40160044, 1, 0, 0x6000, 0x12, 0, 0, 0, 0, 0, 0, 0, 0⟩,
  ⟨"RADIO_FMASK_HI", 0x40160048, 1, 0, 0x6000, 0x13, 0, 0, 0, 0, 0, 0, 0, 0⟩,
  ⟨"RADIO_EFF", 0x4016004C, 1, 0, 0x6000, 0x14, 0, 0, 0, 0, 0, 0, 0, 0⟩,
  ⟨"RADIO_FBLOW", 0x40160050, 1, 0, 0x6000, 0x15, 0, 0, 0, 0, 0, 0, 0xFFFF0007, 0⟩,
  ⟨"RADIO_FBVAL", 0x40160054, 1, 0, 0x6000, 0x16, 0, 0, 0, 0xFFFFFFFF, 0, 0, 0, 0⟩,
  ⟨"RADIO_FBSTAT", 0x40160058, 1, 0, 0x6000, 0x17, 0, 0, 0, 0, 0xE, 0, 0, 0⟩,
  ⟨"RADIO_COEX", 0x40160060, 1, 0, 0x6000, 0x19, 0, 0, 0x14642E, 0x1FFFF3F, 0, 0, 0, 0⟩,
  ⟨"RADIO_TALLY0", 0x40160068, 1, 0, 0x6000, 0x1B, 0, 0, 0, 0, 0, 0, 0, 0xFFFFFFFF⟩,
  ⟨"RADIO_TALLY1", 0x4016006C, 1, 0, 0x6000, 0x1C, 0, 0, 0, 0, 0, 0, 0, 0xFFFFFFFF⟩,
  ⟨"RADIO_TALLY2", 0x40160070, 1, 0, 0x6000, 0x1D, 0, 0, 0, 0, 0, 0, 0, 0xFFFFFFFF⟩,
  ⟨"RADIO_CSKEY", 0x40160080, 4, 4, 0x6000, 0x21, 0, 1, 0, 0, 0, 0, 0xFFFFFFFF, 0⟩,
  ⟨"RADIO_CSCFG", 0x40160090, 1, 0, 0x6000, 0x25, 0, 0, 0x78020000, 0xFFFFFFFF, 0, 0, 0, 0⟩]

/-! ### Block PKEY -/

/-- PKEY_OUTCFG, 13_phone_key_access. -/
def PKEY_OUTCFG : Nat := 0x40170000
def PKEY_OUTCFG_UNL_POL : Fld := ⟨PKEY_OUTCFG, 0, 1⟩
def PKEY_OUTCFG_LCK_POL : Fld := ⟨PKEY_OUTCFG, 1, 1⟩
def PKEY_OUTCFG_PULSE_MS : Fld := ⟨PKEY_OUTCFG, 2, 12⟩
/-- PKEY_OUTCMD, 13_phone_key_access. -/
def PKEY_OUTCMD : Nat := 0x40170004
def PKEY_OUTCMD_UNLOCK : Fld := ⟨PKEY_OUTCMD, 0, 1⟩
def PKEY_OUTCMD_LOCK : Fld := ⟨PKEY_OUTCMD, 1, 1⟩
/-- PKEY_OUTSTAT, 13_phone_key_access. -/
def PKEY_OUTSTAT : Nat := 0x40170008
def PKEY_OUTSTAT_UNL_ACT : Fld := ⟨PKEY_OUTSTAT, 0, 1⟩
def PKEY_OUTSTAT_LCK_ACT : Fld := ⟨PKEY_OUTSTAT, 1, 1⟩
def PKEY_OUTSTAT_IGNORED : Fld := ⟨PKEY_OUTSTAT, 2, 1⟩
def PKEY_OUTSTAT_REMIGN : Fld := ⟨PKEY_OUTSTAT, 16, 8⟩
def PKEY_OUTSTAT_PULSES : Fld := ⟨PKEY_OUTSTAT, 24, 8⟩

/-- The register map of block PKEY. -/
def regsPKEY : List RegDef := [
  ⟨"PKEY_OUTCFG", 0x40170000, 1, 0, 0x6100, 1, 0, 0, 0x323, 0x3FFF, 0, 0, 0, 0⟩,
  ⟨"PKEY_OUTCMD", 0x40170004, 1, 0, 0x6100, 2, 0, 0, 0, 0, 0, 3, 0, 0⟩,
  ⟨"PKEY_OUTSTAT", 0x40170008, 1, 0, 0x6100, 3, 0, 0, 0, 0, 4, 0, 0, 0xFFFF0000⟩]

/-! ### Block UPD -/

/-- UPD_CTRL, 16_firmware_update. -/
def UPD_CTRL : Nat := 0x40180000
def UPD_CTRL_GO : Fld := ⟨UPD_CTRL, 0, 1⟩
def UPD_CTRL_TARGET : Fld := ⟨UPD_CTRL, 1, 1⟩
def UPD_CTRL_TRIAL_EN : Fld := ⟨UPD_CTRL, 2, 1⟩
def UPD_CTRL_CONFIRM : Fld := ⟨UPD_CTRL, 3, 1⟩
/-- UPD_STAT, 16_firmware_update. -/
def UPD_STAT : Nat := 0x40180004
def UPD_STAT_PHASE : Fld := ⟨UPD_STAT, 0, 2⟩
def UPD_STAT_SLOT : Fld := ⟨UPD_STAT, 2, 1⟩
def UPD_STAT_PREV : Fld := ⟨UPD_STAT, 3, 1⟩
def UPD_STAT_FALLBACK : Fld := ⟨UPD_STAT, 4, 1⟩
def UPD_STAT_VFAIL : Fld := ⟨UPD_STAT, 5, 1⟩
def UPD_STAT_VERR : Fld := ⟨UPD_STAT, 8, 4⟩
def UPD_STAT_SPLICES : Fld := ⟨UPD_STAT, 16, 16⟩
/-- UPD_CWIN, 16_firmware_update. -/
def UPD_CWIN : Nat := 0x40180008
def UPD_CWIN_WINDOW : Fld := ⟨UPD_CWIN, 0, 12⟩
def UPD_CWIN_REMAIN : Fld := ⟨UPD_CWIN, 16, 12⟩
/-- UPD_OTP, 16_firmware_update. -/
def UPD_OTP : Nat := 0x4018000C
def UPD_OTP_CNT : Fld := ⟨UPD_OTP, 0, 8⟩
def UPD_OTP_SET : Fld := ⟨UPD_OTP, 8, 8⟩
def UPD_OTP_REFUSED : Fld := ⟨UPD_OTP, 16, 1⟩
/-- UPD_SPLTIME, 16_firmware_update. -/
def UPD_SPLTIME : Nat := 0x40180010
def UPD_SPLTIME_SPLTIME : Fld := ⟨UPD_SPLTIME, 0, 24⟩

/-- The register map of block UPD. -/
def regsUPD : List RegDef := [
  ⟨"UPD_CTRL", 0x40180000, 1, 0, 0x8000, 1, 0, 0, 0, 6, 0, 9, 0, 0⟩,
  ⟨"UPD_STAT", 0x40180004, 1, 0, 0x8000, 2, 0, 0, 0, 0, 0x30, 0, 0, 0⟩,
  ⟨"UPD_CWIN", 0x40180008, 1, 0, 0x8000, 3, 0, 0, 0x78, 0xFFF, 0, 0, 0, 0⟩,
  ⟨"UPD_OTP", 0x4018000C, 1, 0, 0x8000, 4, 0, 0, 0, 0, 0x10000, 0, 0xFF00, 0⟩,
  ⟨"UPD_SPLTIME", 0x40180010, 1, 0, 0x8000, 5, 0, 0, 0, 0, 0, 0, 0, 0⟩]

/-! ### Block BGND -/

/-- BGND_CTRL, 17_protection_faults_background. -/
def BGND_CTRL : Nat := 0x40190000
def BGND_CTRL_SCRUB_EN : Fld := ⟨BGND_CTRL, 0, 1⟩
def BGND_CTRL_MSCRUB_EN : Fld := ⟨BGND_CTRL, 1, 1⟩
def BGND_CTRL_TELEM_EN : Fld := ⟨BGND_CTRL, 2, 1⟩
def BGND_CTRL_NOTCH_EN : Fld := ⟨BGND_CTRL, 3, 1⟩
def BGND_CTRL_RCAL_EN : Fld := ⟨BGND_CTRL, 4, 1⟩
def BGND_CTRL_SCRUB_DIV : Fld := ⟨BGND_CTRL, 8, 6⟩
/-- BGND_STAT, 17_protection_faults_background. -/
def BGND_STAT : Nat := 0x40190004
def BGND_STAT_SPASS : Fld := ⟨BGND_STAT, 0, 16⟩
def BGND_STAT_MPASS : Fld := ⟨BGND_STAT, 16, 8⟩
def BGND_STAT_OVERRUN : Fld := ⟨BGND_STAT, 24, 8⟩
/-- BGND_SPASST, 17_protection_faults_background. -/
def BGND_SPASST : Nat := 0x40190008
def BGND_SPASST_MS : Fld := ⟨BGND_SPASST, 0, 16⟩
/-- BGND_TEMP (copy n of 3), 17_protection_faults_background. -/
def BGND_TEMP (n : Nat) : Nat := 0x40190010 + 4 * n
def BGND_TEMP_TS_LO (n : Nat) : Fld := ⟨BGND_TEMP n, 0, 16⟩
def BGND_TEMP_TS_HI (n : Nat) : Fld := ⟨BGND_TEMP n, 16, 16⟩
/-- BGND_TSTAT, 17_protection_faults_background. -/
def BGND_TSTAT : Nat := 0x4019001C
def BGND_TSTAT_THERMAL_GRADIENT : Fld := ⟨BGND_TSTAT, 0, 1⟩
def BGND_TSTAT_OVERTEMP : Fld := ⟨BGND_TSTAT, 1, 1⟩
def BGND_TSTAT_GRAD : Fld := ⟨BGND_TSTAT, 8, 8⟩
/-- BGND_RAIL0, 17_protection_faults_background. -/
def BGND_RAIL0 : Nat := 0x40190020
def BGND_RAIL0_VIN : Fld := ⟨BGND_RAIL0, 0, 16⟩
def BGND_RAIL0_VBKP : Fld := ⟨BGND_RAIL0, 16, 16⟩
/-- BGND_RAIL1, 17_protection_faults_background. -/
def BGND_RAIL1 : Nat := 0x40190024
def BGND_RAIL1_VCORE : Fld := ⟨BGND_RAIL1, 0, 16⟩
def BGND_RAIL1_SENSE : Fld := ⟨BGND_RAIL1, 16, 16⟩

/-- The register map of block BGND. -/
def regsBGND : List RegDef := [
  ⟨"BGND_CTRL", 0x40190000, 1, 0, 0x9500, 1, 0, 0, 0x101F, 0x3F1F, 0, 0, 0, 0⟩,
  ⟨"BGND_STAT", 0x40190004, 1, 0, 0x9500, 2, 0, 0, 0, 0, 0, 0, 0, 0xFF000000⟩,
  ⟨"BGND_SPASST", 0x40190008, 1, 0, 0x9500, 3, 0, 0, 0, 0, 0, 0, 0, 0⟩,
  ⟨"BGND_TEMP", 0x40190010, 3, 4, 0x9500, 5, 0, 1, 0, 0, 0, 0, 0, 0⟩,
  ⟨"BGND_TSTAT", 0x4019001C, 1, 0, 0x9500, 8, 0, 0, 0, 0, 0, 0, 0, 0⟩,
  ⟨"BGND_RAIL0", 0x40190020, 1, 0, 0x9500, 9, 0, 0, 0, 0, 0, 0, 0, 0⟩,
  ⟨"BGND_RAIL1", 0x40190024, 1, 0, 0x9500, 0xA, 0, 0, 0, 0, 0, 0, 0, 0⟩]

/-! ### Block RTC -/

/-- RTC_TIME0, 15_rtc_backup_domain. -/
def RTC_TIME0 : Nat := 0x50000000
def RTC_TIME0_SEC : Fld := ⟨RTC_TIME0, 0, 7⟩
def RTC_TIME0_MIN : Fld := ⟨RTC_TIME0, 8, 7⟩
def RTC_TIME0_HOUR : Fld := ⟨RTC_TIME0, 16, 6⟩
def RTC_TIME0_WDAY : Fld := ⟨RTC_TIME0, 24, 3⟩
/-- RTC_TIME1, 15_rtc_backup_domain. -/
def RTC_TIME1 : Nat := 0x50000004
def RTC_TIME1_DAY : Fld := ⟨RTC_TIME1, 0, 6⟩
def RTC_TIME1_MON : Fld := ⟨RTC_TIME1, 8, 5⟩
def RTC_TIME1_YEAR : Fld := ⟨RTC_TIME1, 16, 16⟩
/-- RTC_SUBSEC, 15_rtc_backup_domain. -/
def RTC_SUBSEC : Nat := 0x50000008
def RTC_SUBSEC_PRE : Fld := ⟨RTC_SUBSEC, 0, 15⟩
/-- RTC_SHD0, 15_rtc_backup_domain. -/
def RTC_SHD0 : Nat := 0x5000000C
def RTC_SHD0_SEC : Fld := ⟨RTC_SHD0, 0, 7⟩
def RTC_SHD0_MIN : Fld := ⟨RTC_SHD0, 8, 7⟩
def RTC_SHD0_HOUR : Fld := ⟨RTC_SHD0, 16, 6⟩
def RTC_SHD0_WDAY : Fld := ⟨RTC_SHD0, 24, 3⟩
/-- RTC_SHD1, 15_rtc_backup_domain. -/
def RTC_SHD1 : Nat := 0x50000010
def RTC_SHD1_DAY : Fld := ⟨RTC_SHD1, 0, 6⟩
def RTC_SHD1_MON : Fld := ⟨RTC_SHD1, 8, 5⟩
def RTC_SHD1_YEAR : Fld := ⟨RTC_SHD1, 16, 16⟩
/-- RTC_CMD, 15_rtc_backup_domain. -/
def RTC_CMD : Nat := 0x50000014
def RTC_CMD_COMMIT : Fld := ⟨RTC_CMD, 0, 1⟩
def RTC_CMD_CAPTURE : Fld := ⟨RTC_CMD, 1, 1⟩
/-- RTC_STAT, 15_rtc_backup_domain. -/
def RTC_STAT : Nat := 0x50000018
def RTC_STAT_OSF : Fld := ⟨RTC_STAT, 0, 1⟩
def RTC_STAT_DATE_INVALID : Fld := ⟨RTC_STAT, 1, 1⟩
def RTC_STAT_STEP : Fld := ⟨RTC_STAT, 2, 1⟩
def RTC_STAT_WRAP : Fld := ⟨RTC_STAT, 3, 1⟩
def RTC_STAT_SYNCV : Fld := ⟨RTC_STAT, 4, 1⟩
def RTC_STAT_WQ : Fld := ⟨RTC_STAT, 5, 4⟩
/-- RTC_ADJ, 15_rtc_backup_domain. -/
def RTC_ADJ : Nat := 0x5000001C
def RTC_ADJ_ADJ : Fld := ⟨RTC_ADJ, 0, 16⟩
/-- RTC_TRIM, 15_rtc_backup_domain. -/
def RTC_TRIM : Nat := 0x50000020
def RTC_TRIM_CAL : Fld := ⟨RTC_TRIM, 0, 10⟩
/-- RTC_ALM0, 15_rtc_backup_domain. -/
def RTC_ALM0 : Nat := 0x50000024
def RTC_ALM0_SEC : Fld := ⟨RTC_ALM0, 0, 7⟩
def RTC_ALM0_MIN : Fld := ⟨RTC_ALM0, 8, 7⟩
def RTC_ALM0_HOUR : Fld := ⟨RTC_ALM0, 16, 6⟩
def RTC_ALM0_WDAY : Fld := ⟨RTC_ALM0, 24, 3⟩
/-- RTC_ALM1, 15_rtc_backup_domain. -/
def RTC_ALM1 : Nat := 0x50000028
def RTC_ALM1_DAY : Fld := ⟨RTC_ALM1, 0, 6⟩
def RTC_ALM1_MON : Fld := ⟨RTC_ALM1, 8, 5⟩
def RTC_ALM1_YEAR : Fld := ⟨RTC_ALM1, 16, 16⟩
/-- RTC_ACTL, 15_rtc_backup_domain. -/
def RTC_ACTL : Nat := 0x5000002C
def RTC_ACTL_EN : Fld := ⟨RTC_ACTL, 0, 1⟩
def RTC_ACTL_ONCE : Fld := ⟨RTC_ACTL, 1, 1⟩
def RTC_ACTL_MASK : Fld := ⟨RTC_ACTL, 2, 7⟩
def RTC_ACTL_ALRF : Fld := ⟨RTC_ACTL, 9, 1⟩
def RTC_ACTL_SKIPPED : Fld := ⟨RTC_ACTL, 10, 1⟩
def RTC_ACTL_FIRED : Fld := ⟨RTC_ACTL, 11, 1⟩
def RTC_ACTL_NOMATCH : Fld := ⟨RTC_ACTL, 12, 1⟩
/-- RTC_ANEXT0, 15_rtc_backup_domain. -/
def RTC_ANEXT0 : Nat := 0x50000030
def RTC_ANEXT0_NEXT : Fld := ⟨RTC_ANEXT0, 0, 32⟩
/-- RTC_ANEXT1, 15_rtc_backup_domain. -/
def RTC_ANEXT1 : Nat := 0x50000034
def RTC_ANEXT1_NEXT : Fld := ⟨RTC_ANEXT1, 0, 32⟩
/-- RTC_CDLOAD, 15_rtc_backup_domain. -/
def RTC_CDLOAD : Nat := 0x50000038
def RTC_CDLOAD_LOAD : Fld := ⟨RTC_CDLOAD, 0, 24⟩
def RTC_CDLOAD_TICK : Fld := ⟨RTC_CDLOAD, 24, 2⟩
def RTC_CDLOAD_RELOAD : Fld := ⟨RTC_CDLOAD, 26, 1⟩
/-- RTC_CDCTL, 15_rtc_backup_domain. -/
def RTC_CDCTL : Nat := 0x5000003C
def RTC_CDCTL_START : Fld := ⟨RTC_CDCTL, 0, 1⟩
def RTC_CDCTL_STOP : Fld := ⟨RTC_CDCTL, 1, 1⟩
def RTC_CDCTL_RUN : Fld := ⟨RTC_CDCTL, 2, 1⟩
def RTC_CDCTL_CDF : Fld := ⟨RTC_CDCTL, 3, 1⟩
def RTC_CDCTL_CD_ERR : Fld := ⟨RTC_CDCTL, 4, 1⟩
/-- RTC_CDCNT, 15_rtc_backup_domain. -/
def RTC_CDCNT : Nat := 0x50000040
def RTC_CDCNT_COUNT : Fld := ⟨RTC_CDCNT, 0, 24⟩
/-- RTC_SYNC, 15_rtc_backup_domain. -/
def RTC_SYNC : Nat := 0x50000044
def RTC_SYNC_T : Fld := ⟨RTC_SYNC, 0, 32⟩

/-- The register map of block RTC. -/
def regsRTC : List RegDef := [
  ⟨"RTC_TIME0", 0x50000000, 1, 0, 0xA000, 1, 0, 0, 0x6000000, 0, 0, 0, 0, 0⟩,
  ⟨"RTC_TIME1", 0x50000004, 1, 0, 0xA000, 2, 0, 0, 0x20000101, 0, 0, 0, 0, 0⟩,
  ⟨"RTC_SUBSEC", 0x50000008, 1, 0, 0xA000, 3, 0, 0, 0, 0, 0, 0, 0, 0⟩,
  ⟨"RTC_SHD0", 0x5000000C, 1, 0, 0xA000, 4, 0, 0, 0, 0x73F7F7F, 0, 0, 0, 0⟩,
  ⟨"RTC_SHD1", 0x50000010, 1, 0, 0xA000, 5, 0, 0, 0, 0xFFFF1F3F, 0, 0, 0, 0⟩,
  ⟨"RTC_CMD", 0x50000014, 1, 0, 0xA000, 6, 0, 0, 0, 0, 0, 3, 0, 0⟩,
  ⟨"RTC_STAT", 0x50000018, 1, 0, 0xA000, 7, 0, 0, 1, 0, 0xE, 0, 0, 0⟩,
  ⟨"RTC_ADJ", 0x5000001C, 1, 0, 0xA000, 8, 0, 0, 0, 0, 0, 0, 0xFFFF, 0⟩,
  ⟨"RTC_TRIM", 0x50000020, 1, 0, 0xA000, 9, 0, 0, 0, 0x3FF, 0, 0, 0, 0⟩,
  ⟨"RTC_ALM0", 0x50000024, 1, 0, 0xA000, 0xA, 0, 0, 0, 0x73F7F7F, 0, 0, 0, 0⟩,
  ⟨"RTC_ALM1", 0x50000028, 1, 0, 0xA000, 0xB, 0, 0, 0, 0xFFFF1F3F, 0, 0, 0, 0⟩,
  ⟨"RTC_ACTL", 0x5000002C, 1, 0, 0xA000, 0xC, 0, 0, 0x1FC, 0x1FF, 0x600, 0, 0, 0⟩,
  ⟨"RTC_ANEXT0", 0x50000030, 1, 0, 0xA000, 0xD, 0, 0, 0xFFFFFFFF, 0, 0, 0, 0, 0⟩,
  ⟨"RTC_ANEXT1", 0x50000034, 1, 0, 0xA000, 0xE, 0, 0, 0xFFFFFFFF, 0, 0, 0, 0, 0⟩,
  ⟨"RTC_CDLOAD", 0x50000038, 1, 0, 0xA000, 0xF, 0, 0, 0x2000000, 0x7FFFFFF, 0, 0, 0, 0⟩,
  ⟨"RTC_CDCTL", 0x5000003C, 1, 0, 0xA000, 0x10, 0, 0, 0, 0, 0x18, 3, 0, 0⟩,
  ⟨"RTC_CDCNT", 0x50000040, 1, 0, 0xA000, 0x11, 0, 0, 0, 0, 0, 0, 0, 0⟩,
  ⟨"RTC_SYNC", 0x50000044, 1, 0, 0xA000, 0x12, 0, 0, 0, 0, 0, 0, 0, 0⟩]

/-! ### Block BKPEV -/

/-- EV_CFG (copy n of 4), 15_rtc_backup_domain. -/
def EV_CFG (n : Nat) : Nat := 0x50010000 + 0x20 * n
def EV_CFG_EN (n : Nat) : Fld := ⟨EV_CFG n, 0, 1⟩
def EV_CFG_POL (n : Nat) : Fld := ⟨EV_CFG n, 1, 1⟩
def EV_CFG_BOTH (n : Nat) : Fld := ⟨EV_CFG n, 2, 1⟩
def EV_CFG_TAMPER (n : Nat) : Fld := ⟨EV_CFG n, 3, 1⟩
def EV_CFG_BKCLR (n : Nat) : Fld := ⟨EV_CFG n, 4, 1⟩
def EV_CFG_FILT (n : Nat) : Fld := ⟨EV_CFG n, 8, 8⟩
/-- EV_STAT (copy n of 4), 15_rtc_backup_domain. -/
def EV_STAT (n : Nat) : Nat := 0x50010004 + 0x20 * n
def EV_STAT_CNT (n : Nat) : Fld := ⟨EV_STAT n, 0, 3⟩
def EV_STAT_POP (n : Nat) : Fld := ⟨EV_STAT n, 3, 1⟩
def EV_STAT_LEVEL (n : Nat) : Fld := ⟨EV_STAT n, 4, 1⟩
def EV_STAT_OVF (n : Nat) : Fld := ⟨EV_STAT n, 16, 16⟩
/-- EV_TS0 (copy n of 4), 15_rtc_backup_domain. -/
def EV_TS0 (n : Nat) : Nat := 0x50010008 + 0x20 * n
def EV_TS0_STAMP (n : Nat) : Fld := ⟨EV_TS0 n, 0, 32⟩
/-- EV_TS1 (copy n of 4), 15_rtc_backup_domain. -/
def EV_TS1 (n : Nat) : Nat := 0x5001000C + 0x20 * n
def EV_TS1_STAMP (n : Nat) : Fld := ⟨EV_TS1 n, 0, 32⟩
/-- EV_TS2 (copy n of 4), 15_rtc_backup_domain. -/
def EV_TS2 (n : Nat) : Nat := 0x50010010 + 0x20 * n
def EV_TS2_SUBSEC (n : Nat) : Fld := ⟨EV_TS2 n, 0, 10⟩
def EV_TS2_ACTIVE (n : Nat) : Fld := ⟨EV_TS2 n, 10, 1⟩
def EV_TS2_OSF (n : Nat) : Fld := ⟨EV_TS2 n, 11, 1⟩
def EV_TS2_VALID (n : Nat) : Fld := ⟨EV_TS2 n, 31, 1⟩
/-- BKPEV_TSTAT, 15_rtc_backup_domain. -/
def BKPEV_TSTAT : Nat := 0x50010080
def BKPEV_TSTAT_TPEND : Fld := ⟨BKPEV_TSTAT, 0, 1⟩
def BKPEV_TSTAT_TEV : Fld := ⟨BKPEV_TSTAT, 1, 2⟩
def BKPEV_TSTAT_TCOUNT : Fld := ⟨BKPEV_TSTAT, 16, 16⟩

/-- The register map of block BKPEV. -/
def regsBKPEV : List RegDef := [
  ⟨"EV_CFG", 0x50010000, 4, 0x20, 0xA020, 1, 1, 0, 0x400, 0xFF1F, 0, 0, 0, 0⟩,
  ⟨"EV_STAT", 0x50010004, 4, 0x20, 0xA020, 2, 1, 0, 0, 0, 0, 8, 0, 0xFFFF0000⟩,
  ⟨"EV_TS0", 0x50010008, 4, 0x20, 0xA020, 3, 1, 0, 0, 0, 0, 0, 0, 0⟩,
  ⟨"EV_TS1", 0x5001000C, 4, 0x20, 0xA020, 4, 1, 0, 0, 0, 0, 0, 0, 0⟩,
  ⟨"EV_TS2", 0x50010010, 4, 0x20, 0xA020, 5, 1, 0, 0, 0, 0, 0, 0, 0⟩,
  ⟨"BKPEV_TSTAT", 0x50010080, 1, 0, 0xA030, 1, 0, 0, 0, 0, 0, 0, 0, 0⟩]

/-! ### Block WAKE -/

/-- WAKE_EN, 14_power_reset_boot. -/
def WAKE_EN : Nat := 0x50020000
def WAKE_EN_SRC : Fld := ⟨WAKE_EN, 0, 17⟩
/-- WAKE_CFG, 14_power_reset_boot. -/
def WAKE_CFG : Nat := 0x50020004
def WAKE_CFG_POL : Fld := ⟨WAKE_CFG, 0, 8⟩
def WAKE_CFG_FILT : Fld := ⟨WAKE_CFG, 8, 8⟩
def WAKE_CFG_CAN_FILT : Fld := ⟨WAKE_CFG, 16, 8⟩
/-- WAKE_FLAG, 14_power_reset_boot. -/
def WAKE_FLAG : Nat := 0x50020008
def WAKE_FLAG_SRC : Fld := ⟨WAKE_FLAG, 0, 17⟩
/-- WAKE_FIRST, 14_power_reset_boot. -/
def WAKE_FIRST : Nat := 0x5002000C
def WAKE_FIRST_SRC : Fld := ⟨WAKE_FIRST, 0, 5⟩
def WAKE_FIRST_VALID : Fld := ⟨WAKE_FIRST, 31, 1⟩
/-- WAKE_RSTCAUSE, 14_power_reset_boot. -/
def WAKE_RSTCAUSE : Nat := 0x50020010
def WAKE_RSTCAUSE_CAUSES : Fld := ⟨WAKE_RSTCAUSE, 0, 10⟩
def WAKE_RSTCAUSE_LAST : Fld := ⟨WAKE_RSTCAUSE, 16, 4⟩

/-- The register map of block WAKE. -/
def regsWAKE : List RegDef := [
  ⟨"WAKE_EN", 0x50020000, 1, 0, 0x7010, 1, 0, 0, 0, 0x1FFFF, 0, 0, 0, 0⟩,
  ⟨"WAKE_CFG", 0x50020004, 1, 0, 0x7010, 2, 0, 0, 0x50AFF, 0xFFFFFF, 0, 0, 0, 0⟩,
  ⟨"WAKE_FLAG", 0x50020008, 1, 0, 0x7010, 3, 0, 0, 0, 0, 0x1FFFF, 0, 0, 0⟩,
  ⟨"WAKE_FIRST", 0x5002000C, 1, 0, 0x7010, 4, 0, 0, 0, 0, 0x80000000, 0, 0, 0⟩,
  ⟨"WAKE_RSTCAUSE", 0x50020010, 1, 0, 0x7010, 5, 0, 0, 1, 0, 0x3FF, 0, 0, 0⟩]

/-- The whole register map (Table 1.8). -/
def regTable : List RegDef :=
  regsSYS ++ regsPWR ++ regsCLK ++ regsSPORT ++ regsFAB ++ regsLOOP ++ regsHITCH ++ regsMEM ++ regsMPU ++ regsELOG ++ regsUART0 ++ regsLYD ++ regsCAN0 ++ regsHSPI ++ regsSSPI ++ regsI2C ++ regsRADIO ++ regsPKEY ++ regsUPD ++ regsBGND ++ regsRTC ++ regsBKPEV ++ regsWAKE

/-- The copy of row `r` that lies at `a`, if one does. -/
def RegDef.index? (r : RegDef) (a : Nat) : Option Nat :=
  if a < r.base then none
  else if r.count ≤ 1 then (if a = r.base then some 0 else none)
  else if (a - r.base) % r.stride = 0 ∧ (a - r.base) / r.stride < r.count then some ((a - r.base) / r.stride) else none

/-- The row and copy that a search of `rs` finds at address `a`. -/
def findReg : List RegDef → Nat → Option (RegDef × Nat)
  | [], _ => none
  | r :: rs, a =>
    match r.index? a with
    | some i => some (r, i)
    | none => findReg rs a

/-- The register at address `a` (R50): its row and which copy. -/
def regAt (a : Nat) : Option (RegDef × Nat) := findReg regTable a

/-- The object address `index : subindex` of the register, if it is in the map. -/
def RegDef.atObject? (r : RegDef) (idx sub : Nat) : Option Nat :=
  (List.range r.count).find? fun i => r.obj + r.objStride * i == idx && r.sub + r.subStride * i == sub

/-- The address of the register that is object `idx : sub`, searching `rs`. -/
def findObject : List RegDef → Nat → Nat → Option Nat
  | [], _, _ => none
  | r :: rs, idx, sub =>
    match r.atObject? idx sub with
    | some i => some (r.base + r.stride * i)
    | none => findObject rs idx sub

/-- The address of the register that is also object `idx : sub` (R443). -/
def regOfObject (idx sub : Nat) : Option Nat := findObject regTable idx sub

/-- The registers whose Reset column differs from 0, with that value: the sparse form of the Reset column. Copies of one register with
one value are written as (base, count, stride, value). -/
def resetTable : List (Nat × Nat × Nat × Nat) := [
  (0x40000004, 1, 0, 0x7D0),
  (0x4000040C, 8, 0x20, 0x38),
  (0x40010028, 1, 0, 0xF),
  (0x4001002C, 1, 0, 0xAA),
  (0x40020000, 1, 0, 3),
  (0x40030000, 1, 0, 0x300100),
  (0x40030100, 4, 0x40, 0x13FB100),
  (0x40030108, 4, 0x40, 0xA250030),
  (0x4003010C, 4, 0x40, 0x118),
  (0x40030110, 4, 0x40, 0x118),
  (0x40030118, 4, 0x40, 8),
  (0x40030130, 4, 0x40, 0xFFFFFFFF),
  (0x40030800, 1, 0, 7),
  (0x40030810, 1, 0, 0x20FC00),
  (0x40030814, 1, 0, 0x500020),
  (0x40030900, 1, 0, 0x1140),
  (0x40040000, 1, 0, 0x8620853),
  (0x40050000, 1, 0, 0x201),
  (0x40050030, 1, 0, 0x1408),
  (0x40050034, 1, 0, 0x20832),
  (0x40060000, 1, 0, 0x1406),
  (0x40060030, 1, 0, 0x800),
  (0x40060108, 1, 0, 0x61A80),
  (0x4006010C, 1, 0, 0x1D4C0000),
  (0x40060138, 1, 0, 0x3E80E75),
  (0x40060144, 1, 0, 0xFFFFFFFF),
  (0x40060148, 1, 0, 0x1388),
  (0x4006014C, 1, 0, 0x14),
  (0x40060200, 1, 0, 0x22),
  (0x40070014, 1, 0, 1),
  (0x40070100, 18, 8, 0x34),
  (0x40090000, 1, 0, 0xFFFF),
  (0x40090004, 1, 0, 0x18000),
  (0x400A0000, 6, 0x10000, 0x106),
  (0x400A0004, 6, 0x10000, 8),
  (0x400A0008, 6, 0x10000, 0xA00003),
  (0x400A0014, 6, 0x10000, 0x180001),
  (0x400A0018, 2, 0x10000, 0xFF000),
  (0x400A001C, 2, 0x10000, 0x400004B),
  (0x40100000, 1, 0, 0x103),
  (0x40100008, 1, 0, 0xA00003),
  (0x40100014, 1, 0, 1),
  (0x40110000, 2, 0x10000, 0x21C6),
  (0x40110004, 2, 0x10000, 0xC000271),
  (0x40110008, 2, 0x10000, 0x4081F),
  (0x4011000C, 2, 0x10000, 0x6000271),
  (0x40110010, 2, 0x10000, 0x1EAAE),
  (0x40130000, 1, 0, 5),
  (0x40140000, 1, 0, 3),
  (0x40140010, 1, 0, 0xFFFFFFFF),
  (0x40150004, 1, 0, 0x1E781F4),
  (0x40160000, 1, 0, 2),
  (0x40160030, 1, 0, 0x3E83C),
  (0x40160060, 1, 0, 0x14642E),
  (0x40160090, 1, 0, 0x78020000),
  (0x40170000, 1, 0, 0x323),
  (0x40180008, 1, 0, 0x78),
  (0x40190000, 1, 0, 0x101F),
  (0x50000000, 1, 0, 0x6000000),
  (0x50000004, 1, 0, 0x20000101),
  (0x50000018, 1, 0, 1),
  (0x5000002C, 1, 0, 0x1FC),
  (0x50000030, 1, 0, 0xFFFFFFFF),
  (0x50000034, 1, 0, 0xFFFFFFFF),
  (0x50000038, 1, 0, 0x2000000),
  (0x50010000, 4, 0x20, 0x400),
  (0x50020004, 1, 0, 0x50AFF),
  (0x50020010, 1, 0, 1)]

/-- Search of the sparse Reset column. -/
def findReset : List (Nat × Nat × Nat × Nat) → Nat → Nat
  | [], _ => 0
  | (b, c, st, v) :: t, a =>
    if a == b then v
    else if decide (b < a) && decide (1 < c) && (a - b) % st == 0 && decide ((a - b) / st < c) then v
    else findReset t a

/-- The Reset column (R18): the value of the register at `a` after a cold boot. The ring base of port n is 4 × n (SPn_RING), and the
kernel slots 0 to 5 have VENDOR = 1 (LOOP_KSLOTn_CFG). -/
def resetOf (a : Nat) : BitVec 32 :=
  if SP_RING 0 ≤ a ∧ a ≤ SP_RING 3 ∧ (a - SP_RING 0) % 0x40 = 0 then BitVec.ofNat 32 (0x400 + 4 * ((a - SP_RING 0) / 0x40))
  else if LOOP_KSLOT_CFG 0 ≤ a ∧ a ≤ LOOP_KSLOT_CFG 5 ∧ (a - LOOP_KSLOT_CFG 0) % 8 = 0 then 2
  else BitVec.ofNat 32 (findReset resetTable a)

end Sys2Proof.Machine
end

