-- ==== Sys2Proof/Machine/State.lean ====
section
/-! DEFINITION. The state of the part as plain data: every register (in one table, by address), every byte of memory, and for
every block what it holds beside its registers. `Hw` is the part; `State` is the part with the queue of commands that wait. -/

namespace Sys2Proof.Machine

/-! ### Power, reset and boot (chapters 1 and 14) -/

/-- The power states of Table 14.1. -/
inductive PowerState where
  | run | stop | slack | backup
  deriving DecidableEq, Repr

/-- The configurations of Table 0.1. -/
inductive Part where
  | ak512 | ak256 | ak128
  deriving DecidableEq, Repr

/-- A mapped row: the row of a bank that a spare row replaces (R393, R410). -/
structure RowMap where
  unit  : Nat
  bank  : Nat
  row   : Nat
  spare : Nat
  deriving DecidableEq, Repr

/-- What the part holds in fuses and one-time-programmable bits (R1, R2, R424, R574, R701). -/
structure Fuses where
  part      : Part
  engines   : Nat      -- bit e: Splice engine e is enabled (R2)
  cores     : Nat      -- bit c: loop core c is enabled (R2)
  lifecycle : Nat      -- code of Table 9.5
  pcut      : Nat      -- radio power reduction (RADIO_FUSE)
  dcut      : Nat      -- radio duty reduction (RADIO_FUSE)
  region    : Nat      -- region fuse (RADIO_FUSE)
  fmask     : Nat      -- RF channels barred by fuse, bit n for channel n (RADIO_FMASK)
  otp       : Nat      -- anti-rollback count (UPD_OTP)
  unique    : Nat      -- 64-bit serial number
  rowMaps   : List RowMap  -- fused row maps (R411)
  deriving DecidableEq, Repr

/-- The power sequencer, in the always-on domain (R616). -/
structure Pwr where
  state      : PowerState
  resetting  : Bool                    -- a reset has begun and the cold boot has not yet run (R642, R647)
  saved      : List (Nat × Nat)        -- registers of the save area (Table 14.5): address, value
  retained   : List Nat                -- units of 0 to 16 in Retention (R400, R404)
  engRet     : Nat                     -- retirement record of the engines (R213, R616)
  engCause   : Nat                     -- retirement cause of the engines (R212)
  coreRet    : Nat                     -- retired loop cores (R213)
  wipeCause  : Nat                     -- cause of a wipe in progress, held through a core reset (R783)
  wipeTev    : Nat                     -- event input of that wipe (R783)
  wipeTamper : Bool                    -- a tamper request is among those that the wipe serves (R435, R782)
  deriving DecidableEq, Repr

/-- SYS: watchdog and boot (R645, R647, R648). -/
structure Sys where
  wdLimit   : Nat        -- the TIMEOUT in force, 0 while the watchdog is not running
  fwRunning : Bool       -- Fofiys firmware runs
  noFabric  : Bool       -- GNSS status NO_FABRIC (Table 1.9)
  gradOk    : Nat        -- consecutive samples with a gradient of at most 20 K (R39)
  tempOk    : Nat        -- consecutive samples with every sensor at most 120 °C (R731)
  calTemp   : Int        -- TS4 at the last radio calibration, 0.1 °C (R564)
  deriving DecidableEq, Repr

/-! ### Error log (chapter 17) -/

/-- A report on its way into the error log (Table 17.2). -/
structure ElogReport where
  cls    : Nat
  code   : Nat
  source : Nat
  addr   : Nat
  detail : Nat
  seq    : Nat
  stamp  : Nat
  deriving DecidableEq, Repr

/-- The response to the last bus access (R702): data of a read, acceptance of a write, or one of the two error responses. -/
inductive Resp where
  | none
  | data (v : Nat)
  | okay
  | error
  | collide
  | stalled        -- the access waits (R403, R415, R418, R638)
  deriving DecidableEq, Repr

/-- The four ways in which a bus access reads or writes (R43 to R47). -/
inductive BusKind where
  | read | write | setAlias | clearAlias
  deriving DecidableEq, Repr

/-- A bus access of a master: its kind, address, bytes and value, and whether a write meets a port B write of the same word (R152). -/
structure BusOp where
  master : Master
  kind   : BusKind
  addr   : Nat
  bytes  : Nat
  value  : Nat
  hit    : Bool
  deriving DecidableEq, Repr

/-! ### Memory units and the Thimble bank (chapter 9) -/

/-- A wipe of the Thimble bank in progress (R430 to R433). -/
structure Wipe where
  started  : Bool        -- the wipe engine has begun to write zeros
  attempt  : Nat         -- 1 to 3 (R433)
  deriving DecidableEq, Repr

/-- A live repair (R418): the spare being tested, or, once the row is locked, being copied to. -/
structure Repair where
  map    : RowMap
  bad    : List (Nat × Nat)        -- spares that have failed their test in this repair: bank, spare
  locked : Bool                    -- the row is locked and being copied
  deriving DecidableEq, Repr

/-- The memory controllers. -/
structure MemUnits where
  rowMaps   : List RowMap            -- maps in force, fused and soft (R411, R413)
  test      : Option (Nat × Bool)    -- unit under test on request, true = preserving (R414)
  repair    : Option Repair          -- live repair in progress (R418)
  scrubPtr  : List (Nat × Nat)       -- next word of each unit's scrub (R725); units 0 to 17, then 32 + c local memories, 64 + e accumulators
  scrubHit  : List Nat               -- word addresses corrected at the pass before (R418)
  scrubNow  : List Nat               -- word addresses corrected in the present pass
  wipe      : Option Wipe            -- wipe in progress (R429)
  mramCur   : Option (Nat × Nat)     -- MRAM word write in progress: address, 64-bit value (R436)
  mramQueue : List (Nat × Nat)       -- MRAM word writes waiting, at most 16 (R436)
  mscrubPtr : Nat                    -- next word of the MRAM scrub (R727)
  lcTarget  : Option Nat             -- life-cycle transition waiting for its wipe (R427)
  canary    : List (Nat × Nat)       -- canary word of each bank, by 16 × unit + bank; 0 where none is listed (R420)
  deriving DecidableEq, Repr

/-- What lasts without power beside the MRAM bytes: life-cycle marks in the journal that the boot ROM reads (R411, R417, R435). -/
structure Kept where
  softMaps     : List RowMap         -- soft row maps (R411, R413)
  failing      : List (Nat × Nat)    -- banks marked for retirement: unit, bank (R417)
  tamperLocked : Bool                -- TAMPER_LOCKED (R435)
  confirmed    : Nat                 -- the confirmed image slot, 0 = A, 1 = B (chapter 16)
  deriving DecidableEq, Repr

/-! ### Sample ports (chapter 2) -/

/-- One adaptive notch (R77 to R82): the configuration in force and the filter's registers. Values are on the scales of R63 and R78. -/
structure Notch where
  en     : Bool
  k      : Nat
  freq   : Int
  xi     : Int        -- x[n-1], in-phase, 12-bit scale
  xq     : Int
  yi     : Int        -- y[n-1], in-phase, 4 fractional bits below the 12-bit scale
  yq     : Int
  theta  : Int        -- sum of R81
  thetaN : Nat        -- ring samples in that sum
  pin    : Nat        -- sum of input powers (R82)
  pout   : Nat        -- sum of output powers
  pn     : Nat        -- ring samples in those sums
  pend   : Bool       -- a FREQ that software or Whipping wrote waits for the next ring-block boundary (R80)
  lowAt  : Option Nat -- timing count since which the reported depth has been below 3 dB (R109)
  deriving DecidableEq, Repr

/-- A notch as reset leaves it. -/
def Notch.reset : Notch := ⟨false, 6, 0, 0, 0, 0, 0, 0, 0, 0, 0, 0, false, none⟩

/-- What port n holds beside its registers. -/
structure Port where
  cnt      : Nat                 -- 64-bit sample counter (R69)
  syn      : Bool                -- counting synthetically (R73, R97)
  acc      : Nat                 -- fractional accumulator of the synthetic count (R97)
  hist     : List (Int × Int)    -- latest mapped input samples, newest first (R62, R75)
  n0       : Notch
  n1       : Notch
  magN     : Nat                 -- ring samples counted for the threshold (R84)
  magC     : Nat                 -- magnitude bits that were 1 (R84)
  thrSum   : Nat                 -- thresholds summed since the last gain decision (R114)
  thrN     : Nat
  fresh    : Bool                -- the next window is the first after START or resume (R95)
  prevBig  : Bool                -- the previous window was out of tolerance (R96)
  sum      : Int                 -- running sum S (R95)
  good     : Nat                 -- consecutive good windows in GAP (R100)
  bad      : Nat                 -- consecutive bad windows in GAP (R100)
  winCnt   : Nat                 -- counter at the end of the last window (R95, R102)
  resumeAt : Option Nat          -- ring block at which the port resumes (R100)
  gaps     : List (Nat × Nat)    -- closed runs of GAP blocks, first and last block number (R97)
  gapFrom  : Option Nat          -- first GAP block of the gap in progress (R97)
  suspects : List (Nat × Nat)    -- runs of SUSPECT blocks (R94, R96)
  notched  : Bool                -- a notch was enabled during the block being written (R89)
  nextTag  : Nat                 -- next block whose tag is due (R89)
  peaks    : List Nat            -- peak bins of the last spectrum (R107, R108)
  hold     : Option Nat          -- first block from which ring writing is held for a capture (R333)
  holdEnd  : Bool                -- ring writing resumes at the next ring-block boundary (R334, R336)
  noTags   : List (Nat × Nat)    -- runs of blocks that passed while ring writing was held
  coilFrom : Nat                 -- first ring count at which an armed capture may start (R332)
  cap      : Option Nat          -- j_s: ring count of the first captured sample (R332)
  lostAt   : Nat                 -- input count of the first missing sample of the last gap (R97)
  edges    : Nat                 -- real sampling edges of the present monitor window (R95, R100)
  specIn   : List (Int × Int)    -- ring-rate samples taken for the spectrum in the present window, newest first, at most 256 (R105)
  specSum  : List Nat            -- sums of the power spectra since the last publication (R105)
  specN    : Nat                 -- power spectra in those sums, at most 64
  era      : Nat                 -- STARTs so far: the count that ring counts belong to (R281)
  gapMet   : List Nat            -- GAP blocks of the present count for which no item was created, as counted (R177)
  deriving DecidableEq, Repr

/-- A port as reset leaves it. -/
def Port.reset : Port :=
  ⟨0, false, 0, [], Notch.reset, Notch.reset, 0, 0, 0, 0, true, false, 0, 0, 0, 0, none, [], none, [], false, 0, [], none, false, [], 0, none, 0, 0, [], [], 0, 0, []⟩

/-- The tuner-control SPI (R110 to R113): commands waiting, the transaction in progress, received data. -/
structure Tspi where
  queue : List Nat
  cur   : Option Nat
  rx    : List Nat
  deriving DecidableEq, Repr

/-- The sensor SPI (R276 to R280). -/
structure Sspi where
  cur    : Option Nat     -- command in progress
  wait   : List Nat       -- transactions asked for while one was in progress, oldest first
  auto   : Option Nat     -- command repeated at each DRDY edge
  rx     : List Nat
  stamps : List Nat
  deriving DecidableEq, Repr

/-! ### Strands (chapter 3) -/

/-- The states of Table 3.5. -/
inductive StrandState where
  | idle | search | pullIn | track | vector | coast | snapshot
  deriving DecidableEq, Repr

/-- The return words of a loop task (Table 5.2), as the fabric reads them. -/
structure RetWords where
  flags : Nat
  code  : Nat
  carr  : Nat
  lock  : Nat     -- word 0x63: CN0, PLI
  sym   : Nat
  mp    : Nat     -- word 0x65: MP_EST, MPI
  sec   : Nat
  hyp   : Nat     -- word 0x67: HYP, BIN
  deriving DecidableEq, Repr

/-- An integration that has ended and whose boundary has not been closed (R173). -/
structure Ended where
  nb      : Nat               -- N_b: ring count of the first sample of the following integration
  starved : Bool
  susp    : Bool
  gap     : Bool
  ret     : Option RetWords   -- return words, once the task has returned
  fault   : Bool              -- the task ended in a kernel fault (R229)
  unlock  : Bool              -- the task made a lock decision with LOCK_P = 0 (R300)
  posted  : Bool              -- the loop task has been posted
  deriving DecidableEq, Repr

/-- The search manager's place in the window (R201 to R211). -/
structure Search where
  binPos   : Nat                    -- position in the order 0, +1, −1, +2 …
  tranche  : Nat                    -- next tranche of that bin
  done     : Bool                   -- every tranche of the pass has been allocated
  inFlight : Nat
  passes   : Nat                    -- passes completed
  tasks    : Nat                    -- tasks posted to K4 and not returned (R211)
  verify   : Option (Nat × Int × Nat)  -- verify tranche requested: hypothesis, bin, T_c (R262)
  verOut   : Option (Nat × Int)     -- verify tranche allocated and not yet reported
  mean     : Nat × Nat              -- SUM and n of the tranche that raised it (R261)
  dwell    : Nat                    -- its DWELL (R261)
  verFirst : Nat                    -- ring count of the first sample of the last verify tranche (R264)
  detect   : Option (Nat × Nat × Nat × Nat)  -- detection returned: hypothesis, CODE, CARR, ring count at the return (R264)
  deriving DecidableEq, Repr

/-- Search progress at the start of a window. -/
def Search.start : Search := ⟨0, 0, false, 0, 0, 0, none, none, (0, 0), 0, 0, none⟩

/-- The bit synchroniser of a Strand beside its buffer (R265 to R274). -/
structure BitSync where
  bins    : List (Nat × Nat)   -- HIST bins
  values  : Nat                -- SYM values counted in the window
  prev    : Option Bool        -- sign of the previous SYM, none after an erasure
  signs   : List Bool          -- latest signs, newest first (SEC)
  acc     : Int                -- symbol sum S so far
  half    : Nat                -- milliseconds in the symbol so far
  erased  : Bool
  open_   : Bool               -- a symbol has started
  means   : List Nat           -- |S| of the previous symbols, newest first, at most 32
  bits    : List Bool          -- latest raw hard bits, newest first (parity)
  word    : Option Nat         -- bits since the last checked word, once a preamble has been taken
  lastHard : Bool              -- previous hard bit, for the relative decoding of L1OF
  tag     : Nat                -- ring count of the first sample of the symbol so far
  chip    : Int                -- SYM summed over the present 10 ms of an L1OF symbol (R274)
  rate    : Nat                -- code rate of the integration before; 0 before the first of a replica (R270)
  deriving DecidableEq, Repr

/-- The bit synchroniser with nothing seen. -/
def BitSync.start : BitSync := ⟨[], 0, none, [], 0, 0, false, false, [], [], none, false, 0, 0, 0⟩

/-- What K5 keeps of a Strand's snapshot work from tranche to tranche (R341). -/
structure SnapBest where
  hyp    : Nat
  bin    : Int
  p1     : Nat
  second : Nat            -- largest power more than 2 hypotheses from it in its tranche
  sum    : Nat
  cells  : Nat
  below  : Option Nat     -- power at HYP − 1, if among the tranche's three largest
  above  : Option Nat     -- power at HYP + 1, likewise
  periods : Nat           -- P_u
  susp   : Bool
  deriving DecidableEq, Repr

/-- K5 before the first tranche. -/
def SnapBest.start : SnapBest := ⟨0, 0, 0, 0, 0, 0, none, none, 0, false⟩

/-- What kernels K0 to K3 keep of a Strand from task to task, in the private words of its state block (R232 to R259). The encoding in those words
is not given, so the values are held here: w1 and w2 in 2^−48 cycle, v in 2^−48 chip. -/
structure KernState where
  w1      : Int
  w2      : Int
  v       : Int
  base    : Int          -- working carrier rate at the last rate load (R237)
  prev    : Option (Int × Int × Nat)  -- previous prompt and its INT code, if it was neither starved nor in a gap (R235)
  n       : Nat          -- usable integrations in the lock window (R241)
  sDiff   : Int          -- Σ(I² − Q²)
  sPow    : Nat          -- Σ(I² + Q²)
  sDot    : Int
  sPP     : Nat          -- Σ|P||P'|
  m4      : Nat          -- Σ|P|⁴
  lockC   : Bool
  lockP   : Bool
  lost    : Nat          -- consecutive decisions with LOCK_C 0 (R246)
  cn0     : Nat
  pli     : Int
  stale   : Bool
  ys      : List Int     -- y_t accumulated (R247)
  yMs     : Nat          -- ms of signal accumulated
  mpv     : Bool
  mpEst   : Int
  mpi     : Nat
  deriving DecidableEq, Repr

/-- A state block of zeros (R232). -/
def KernState.start : KernState :=
  ⟨0, 0, 0, 0, none, 0, 0, 0, 0, 0, 0, false, false, 0, 0, 0, false, [], 0, false, 0, 0⟩

/-- What a Strand held at a boundary, or when it entered a state: what the Hitch unit extrapolates from (R289, Table 6.2). -/
structure Anchor where
  at_      : Nat             -- ring count
  state    : StrandState
  body     : List Nat
  phi      : Nat
  carrPh   : Nat
  prim     : Nat
  codeRate : Nat
  carrRate : Nat
  lockC    : Bool
  lockP    : Bool
  cn0      : Nat
  pli      : Nat
  mpv      : Bool
  mp       : Nat
  coastMs  : Nat
  replicaAt : Nat
  carr0    : Nat
  eventAt  : Nat
  port     : Nat             -- the port of the ring count
  era      : Nat             -- STARTs of that port before it (R281)
  deriving DecidableEq, Repr

/-- The strand cache's record of one Strand (R138) and what the fabric holds of its replica and integration. -/
structure Strand where
  body      : List Nat                 -- applied control body: 23 words of Table 3.2
  staged    : Option (List Nat × Nat)  -- staged body and its GEN (R134)
  stagedAt  : Nat                      -- ring count of its port when it was staged (R135)
  appliedGen : Nat
  refusedGen : Option Nat
  state     : StrandState
  status    : Nat                      -- Table 3.7
  lockC     : Bool
  lockP     : Bool
  torn      : Bool
  faulted   : Bool
  intSeq    : Nat
  cn0       : Nat
  pli       : Nat
  codeRate  : Nat                      -- working code rate
  carrRate  : Nat                      -- working carrier rate, 32-bit pattern
  intEnd    : Nat                      -- N_b of the last integration, low 32 bits
  starvedN  : Nat                      -- STARVED of RCNT0
  collidedN : Nat                      -- COLLIDED of RCNT1
  tornN     : Nat                      -- TORN of RCNT0
  refusedN  : Nat                      -- REFUSED of RCNT1
  coastMs   : Nat
  coastAcc  : Nat                      -- input samples of the present COAST
  pullAcc   : Nat                      -- input samples of the present PULL_IN
  taps      : List Nat                 -- RTAP words as last written, 32
  start     : Nat                      -- ring count of the first sample of the integration in progress
  phi       : Nat                      -- code phase Φ at that sample, 32 fraction bits (R161)
  carrPh    : Nat                      -- carrier phase at that sample, 64-bit pattern (R162)
  jph       : Nat                      -- integration phase J at that sample, 32 fraction bits (R171)
  prim      : Nat                      -- primary period count m at that sample (Table 5.1)
  iseq      : Nat                      -- sequence of the integration in progress
  open_     : Bool                     -- the integration in progress has been created (R174)
  nextItem  : Nat                      -- ring count of its first sample not yet in an item
  items     : Nat                      -- its items not yet gathered, starved or withdrawn
  starved   : Bool
  susp      : Bool
  gap       : Bool
  sums      : List Nat                 -- its integration sums (R197), 32
  ended     : Option Ended
  reload    : Bool                     -- the next task is the first after a rate load
  zeroBlock : Bool                     -- the next task receives a state block of zeros (R232)
  sec       : Option (Nat × Nat)       -- secondary alignment: chip index and the m it applies to (R164)
  mpv       : Bool
  mp        : Nat                      -- MP_EST and MPI as last returned
  replicaAt : Nat                      -- ring count of the last replica start (R125)
  carr0     : Nat                      -- carrier phase there
  slips     : List Nat                 -- ring counts of the events of R300 that no record has shown
  eventAt   : Nat                      -- ring count of the latest event of R300, or of the replica start
  slipCnt   : Nat                      -- SLIP of the last record (R300)
  starvedRuns : List (Nat × Nat)       -- starved integrations since the last record: first sample, N_b (R186)
  anchors   : List Anchor              -- latest boundaries, newest first, at most 64 (R289)
  search    : Search
  bsync     : BitSync
  coilWork  : Bool                     -- snapshot work in progress (R338)
  snap      : SnapBest
  kern      : KernState
  deriving DecidableEq, Repr

/-- A Strand as the initialising scan leaves it, but for APPLIED_GEN (R144). -/
def Strand.reset : Strand :=
  { body := [], staged := none, stagedAt := 0, appliedGen := 0, refusedGen := none, state := .idle, status := 0,
    lockC := false, lockP := false, torn := false, faulted := false, intSeq := 0, cn0 := 0, pli := 0, codeRate := 0,
    carrRate := 0, intEnd := 0, starvedN := 0, collidedN := 0, tornN := 0, refusedN := 0, coastMs := 0, coastAcc := 0, pullAcc := 0,
    taps := [], start := 0, phi := 0, carrPh := 0, jph := 0, prim := 0, iseq := 0, open_ := false, nextItem := 0,
    items := 0, starved := false, susp := false, gap := false, sums := [], ended := none, reload := false,
    zeroBlock := true, sec := none, mpv := false, mp := 0, replicaAt := 0, carr0 := 0, slips := [], eventAt := 0,
    slipCnt := 0, starvedRuns := [], anchors := [], search := Search.start, bsync := BitSync.start, coilWork := false, snap := SnapBest.start, kern := KernState.start }

/-! ### Splice fabric (chapter 4) -/

/-- The kinds of work item (Table 4.3). -/
inductive ItemKind where
  | track | search | snap
  deriving DecidableEq, Repr

/-- A work-item descriptor (Table 4.3). Ring counts are held whole, not only their low 32 bits. -/
structure Item where
  strand   : Nat
  kind     : ItemKind
  port     : Nat
  last     : Bool
  susp     : Bool
  iseq     : Nat          -- integration sequence (TRACK) or tranche entry (SEARCH)
  period   : Nat          -- dwell period (SEARCH)
  first    : Nat
  len      : Nat
  group    : Nat
  tag      : Nat          -- identity of the tranche it belongs to; 0 for TRACK
  deadline : Option Nat   -- none for SNAP
  due      : Option Nat   -- none sorts last
  deriving DecidableEq, Repr

/-- A finished item in an accumulator slot: its 16 complex sums, or its 16 powers (R167, R206). -/
structure Slot where
  item  : Item
  order : Nat
  place : Nat             -- which of the 32 slots of the accumulator memory (R24)
  sums  : List Nat
  deriving DecidableEq, Repr

/-- One Splice engine. -/
structure Engine where
  cur   : Option Item
  deque : List Item        -- at most 16, in order of due key (R166)
  slots : List Slot        -- finished items in completion order, at most 32 (R24, R167)
  rest  : Bool             -- resting for a test (R214)
  deriving DecidableEq, Repr

/-- An engine with nothing to do. -/
def Engine.reset : Engine := ⟨none, [], [], false⟩

/-- An entry of the tranche table (R204 to R210). -/
structure Tranche where
  strand   : Nat
  bin      : Int
  hyp0     : Nat               -- first hypothesis; a verify tranche counts from CP_START + (h − 15)/2
  hyps     : Nat               -- hypotheses, at most 2048
  dwell    : Nat
  verify   : Bool
  opens    : Nat               -- first ring-block boundary after its allocation (R204)
  start    : Option Nat        -- ring count of its first sample, once started
  samples  : Nat               -- S_c
  tc       : Nat               -- T_c, ms
  created  : Nat               -- items created so far, in order of period and group
  items    : Nat               -- items not yet gathered, starved or withdrawn
  starved  : Bool
  gap      : Bool
  cellUnit : Bool              -- holds one of the 4 cell units (R208)
  cells    : List (Nat × Nat)  -- summed powers by hypothesis
  susp     : Bool              -- an item read a SUSPECT block
  snap     : Bool              -- walks a capture, not the ring (R340)
  id       : Nat               -- identity: its place in the sequence of allocations
  deriving DecidableEq, Repr

/-- The fabric beside its registers. -/
structure Fab where
  issue    : List Item                     -- issue queue, at most 256 (R176)
  engines  : List (Nat × Engine)
  tranches : List (Nat × Option Tranche)   -- 64 entries
  lastTr   : Option Nat                    -- Strand last served by the allocator (R207); none before the first
  given    : Nat                           -- tranches allocated so far
  bells    : List (Option Nat)             -- doorbells: a Strand, or none for ALL (R141)
  order    : Nat                           -- completion order of the next finished item (R167)
  testing  : Option (Nat × Bool)           -- engine under test on request; true once its march runs (R214)
  deriving DecidableEq, Repr

/-! ### Loop cores (chapters 5 and 8) -/

/-- A loop task (R218): what the dispatcher writes into the task area (Table 5.1). -/
structure LoopTask where
  strand  : Nat
  kind    : Nat           -- 0 tracking, 1 tranche, 2 snapshot
  slot    : Nat           -- kernel slot
  due     : Option Nat    -- due key; none for tranche and snapshot tasks (R221)
  limit   : Option Nat    -- deadline as a ring count (R221)
  order   : Nat           -- posting order
  word0   : Nat           -- flags of word 0x00
  iseq    : Nat
  nb      : Nat
  samples : Nat
  rates   : Nat × Nat     -- working code and carrier rate of the ended integration
  phi     : Nat
  carrPh  : Nat
  prim    : Nat
  body    : List Nat      -- applied body
  aid     : List Nat      -- aiding words (R226)
  data    : List Nat      -- words 0x20 to 0x3F
  dead    : Bool          -- discarded while running: its return words are ignored (R220)
  deriving DecidableEq, Repr

/-- The programming model of a task (Table 8.2): the registers a pre-emption saves (R357, R377). -/
structure CoreRegs where
  a    : BitVec 40
  x    : BitVec 16
  y    : BitVec 16
  m    : BitVec 16
  sr   : Nat             -- flags
  mr   : Nat             -- mode register
  rc   : BitVec 16
  pc   : Nat             -- 14-bit program word address
  rep  : Option (Nat × Bool)   -- hidden repeat counter: iterations left, and whether the repeat is an RPTI (R356)
  stack : List Nat       -- return stack, newest first
  cyc  : Nat             -- cycles used by the task
  deriving DecidableEq, Repr

/-- The registers at the start of a task. -/
def CoreRegs.start : CoreRegs := ⟨0, 0, 0, 0, 0, 0, 0, 0, none, [], 0⟩

/-- A task on a core: the task, its task area and its registers. -/
structure Running where
  task : LoopTask
  area : Nat
  regs : CoreRegs
  deriving DecidableEq, Repr

/-- One loop core: its running task, the tasks saved on it, its local data memory (2048 words), and a store that waits (R353). -/
structure Core where
  run     : Option Running
  saved   : List Running
  preempt : Bool                         -- a pre-emption has been requested (R223)
  local_  : List (Nat × BitVec 32)
  retry   : Option (Nat × Nat × Nat × Nat)  -- store in retry: address, bytes, value, attempts (R353)
  deriving DecidableEq, Repr

/-- A core with no task. -/
def Core.reset : Core := ⟨none, [], false, [], none⟩

/-- The loop-task dispatcher. -/
structure Loop where
  ready : List LoopTask
  cores : List (Nat × Core)
  order : Nat
  deriving DecidableEq, Repr

/-! ### Hitch epochs, time pulse, time marks (chapter 6) -/

/-- An epoch that has occurred and whose records are not written yet (R292, R293). Ring positions are in 2^−32 sample, by port. -/
structure Epoch where
  seq     : Nat
  n       : Nat             -- N_k
  tcnt    : Nat             -- timing count of the instant
  us      : List Int        -- u_n
  prev    : List Int        -- u_n of the previous instant (R103)
  adj     : Bool
  expired : Bool            -- WAIT has expired (R290)
  eras    : List Nat        -- the counts of the ports that the positions belong to (R281)
  susp    : List (Option Bool)  -- by port whose count has begun anew since: a marked block lay before the instant (R103)
  deriving DecidableEq, Repr

/-- The Hitch unit beside its registers. -/
structure Hitch where
  rate     : Nat            -- RATE in force
  base     : Int            -- BASE in force; a HITCH_ADJ can take it below 0, which the registers show modulo 2^64 (R285)
  pendRate : Option Nat
  pendBase : Option Nat
  loWritten : Option Nat    -- HITCH_BASE_LO written and not yet part of a pair (R284)
  cursor   : Nat            -- no instant below this count can fall due any more
  lastN    : Option Nat     -- last instant latched on the present count
  lastUs   : Option (List Int)  -- its ring positions
  adj      : Option Int     -- HITCH_ADJ write that waits (R285)
  seq      : Nat            -- EPOCH_SEQ of the last epoch
  due      : List Epoch
  copies   : List Nat       -- EPOCH_SEQ of the copies in progress and waiting (R303)
  refs     : List Nat       -- R_n of the ports (R287)
  deriving DecidableEq, Repr

/-- The Hitch unit as a core reset leaves it. -/
def Hitch.reset : Hitch := ⟨3, 0, none, none, none, 0, none, none, none, 0, [], [], [0, 0, 0, 0]⟩

/-- The time-pulse generator and the time-mark input beside their registers. -/
structure TimePulse where
  edge     : Nat            -- E in 2^−32 timing clock (R307)
  active   : Bool           -- TP is at its active level
  offAt    : Option Nat     -- timing count of the inactive edge (R309)
  fine     : Nat            -- fine code of the last active edge (R307)
  lastDisc : Nat            -- timing count of the last TP_DISC write (R781)
  holdFrom : Nat            -- timing count of the entry into HOLDOVER (R314)
  ticks    : Nat            -- holdover ticks since
  rate     : Nat            -- present growth rate, ps/s
  marks    : List (Nat × Bool × Nat)   -- TMARK FIFO: time, rising, TSTATE; at most 8
  lastMark : Option Nat     -- timing count of the previous capture (R321)
  pulse    : Nat × Nat × Nat × Bool  -- the last pulse output: its label, TSTATE, UNC, and whether a step brought it (Table 10.8)
  stepNext : Bool           -- the next pulse comes of a step
  lastOut  : Option (Nat × Nat)  -- label and edge of the last pulse output (R318)
  deriving DecidableEq, Repr

/-- The generator as a core reset leaves it. -/
def TimePulse.reset : TimePulse := ⟨0, false, none, 0, 0, 0, 0, 0, [], none, (0, 0, 0, false), false, none⟩

/-! ### Coil capture and hot start (chapter 7) -/

/-- The capture beside its registers: what ARM selected (R330 to R332). -/
structure Coil where
  ports  : Nat           -- selected ports
  blocks : List Nat      -- B_n
  deriving DecidableEq, Repr

/-- The firmware's hot-start and snapshot service (7.1, 7.4, 7.5). -/
structure HotStart where
  live     : List Nat          -- live record: bytes 0x40 onwards of the slot it would make
  hot      : Bool              -- the live record was retained through Slack, none of its banks RETENTION_LOST (Table 7.3)
  class_   : Nat               -- HS_START_CLASS
  seq      : Nat               -- HS_SEQ
  slot     : Nat               -- slot that the last save used
  savedAt  : Option Nat        -- RTC time of the last save, seconds (R326)
  wanted   : Bool              -- a save waits for the limit of R326
  cycle    : Bool              -- a snapshot cycle is in progress (R342)
  stream   : Bool              -- a HELD capture is published for the host (R344)
  result   : Option SnapOutcome  -- outcome in SNAP_RESULT
  retried  : Bool              -- the cycle has been retried (R342)
  heldAt   : Nat               -- timing count at which the capture last became HELD (R347)
  facts    : Option HotFacts   -- what the loaded record's sections say; none where no record was loaded (R327)
  strands  : List Nat          -- SNAPSHOT Strands that the cycle in progress has committed (R342)
  record   : List Nat          -- SNAP_RESULT after its outcome byte
  coilTime : List Nat          -- GNSS time of COIL_TS and its uncertainty, as COIL_DESC gives them (R345)
  deriving DecidableEq, Repr

/-- The service as a cold boot leaves it. -/
def HotStart.reset : HotStart := ⟨[], false, 0, 0, 3, none, false, false, false, none, false, 0, none, [], [], []⟩

/-- The firmware's two wake schedules (R594), in units of 1/5000 of a slow-clock period: what remains of each interval at a reference moment. The
timing count restarts at a wake, so the reference moment may lie before its zero. -/
structure WakeSched where
  ref     : Int               -- the reference moment, as a timing count divided by 3
  adv     : Option Int        -- to the next advertising event; none before the first Slack entry
  snap    : Option Int        -- to the next sleep-and-fix cycle
  loaded  : Nat               -- the interval for which the countdown was loaded last; 0 when none is loaded
  forAdv  : Bool              -- it was loaded for an advertising event
  forSnap : Bool              -- it was loaded for a sleep-and-fix cycle
  advDue  : Bool              -- the advertising event is due
  snapDue : Bool              -- the sleep-and-fix cycle is due
  edge0   : Nat               -- slow-clock edges passed when the countdown was loaded last
  deriving DecidableEq, Repr

/-- No schedule running. -/
def WakeSched.reset : WakeSched := ⟨0, none, none, 0, false, false, false, false, 0⟩

/-! ### The object dictionary and its transports (chapter 10) -/

/-- A segmented write in progress on a link (R461 to R464). -/
structure SegWrite where
  tids  : List Nat      -- TIDs of its segments
  idx   : Nat
  sub   : Nat
  total : Nat
  data  : List Nat      -- value bytes received, first first
  prev  : Nat           -- OFFSET of the segment before
  last  : Nat           -- timing count of that segment
  deriving DecidableEq, Repr

/-- The LAST segment of a finished segmented write, to answer its repeat again (R461, R479). -/
structure SegDone where
  tid    : Nat
  idx    : Nat
  sub    : Nat
  off    : Nat
  answer : List Nat     -- RESULT, DLEN and data
  deriving DecidableEq, Repr

/-- The session of a link and what the firmware keeps of it (R452 to R457, R461). Links 0 to 5 are U0 to U5, 6 the host SPI port, 7 the
Lanyard port, 8 CAN0 and 9 CAN1. -/
structure Link where
  role    : Nat                 -- 0 PUBLIC to 3 VENDOR
  lastReq : Nat                 -- timing count of the last request
  nonce   : List Nat            -- the nonce of step 1, empty while none is valid
  nonceAt : Nat
  sigR    : List Nat            -- r of step 2, empty before it
  fails   : Nat                 -- failed proofs (R457)
  barred  : Bool                -- step 1 is refused (R457)
  barAt   : Nat                 -- timing count at which the bar began
  segs    : List SegWrite
  dead    : List (Nat × Nat × Nat)   -- abandoned transfers whose next segment is refused: abort code, index, subindex (R462, R465)
  answered : List SegDone       -- finished transfers
  rx      : List Nat            -- bytes of the Wowell receiver not yet decided (R477)
  out     : List Nat            -- bytes of frames that wait for the port's transmit FIFO or output queue
  bad     : Nat                 -- frames discarded, for a link whose registers have no BADFRAME (R477)
  deriving DecidableEq, Repr

/-- A link as a core reset leaves it. -/
def Link.reset : Link := ⟨0, 0, [], 0, [], 0, false, 0, [], [], [], [], [], 0⟩

/-- A subscription (R470 to R474). -/
structure Sub where
  slot    : Nat
  link    : Nat
  idx     : Nat
  sub     : Nat
  mode    : Nat
  period  : Nat         -- ms
  minInt  : Nat         -- ms
  nseq    : Nat
  sentAt  : Option Nat  -- timing count of the last notification
  since   : Nat         -- timing count at which the subscription, or its last period, began
  seen    : List Nat    -- value last noticed
  changed : Bool        -- a change waits to be notified
  waiting : Bool        -- a notification waits that its link could not take (R474)
  deriving DecidableEq, Repr

/-- A frame in a CAN transmit queue. `meas` marks a MEASUREMENT frame with its epoch (R492). -/
structure CanFrame where
  id   : Nat
  data : List Nat
  tag  : Option Nat              -- EPOCH_SEQ of a MEASUREMENT frame
  sub  : Option (Nat × Nat × Nat)  -- link, index and subindex of a notification (R474)
  deriving DecidableEq, Repr

/-- A CAN controller beside its registers. -/
structure Can where
  tx      : List CanFrame         -- at most 32, in queuing order
  rx      : List (Nat × List Nat) -- received frames: function code and data, at most 16
  deriving DecidableEq, Repr

/-- A controller as a core reset leaves it. -/
def Can.reset : Can := ⟨[], []⟩

/-- The journal as the firmware works with it (R499 to R509). -/
structure Journal where
  area    : Nat          -- active area, 0 or 1
  gen     : Nat          -- its generation G
  free    : Nat          -- free pointer, bytes from the area's start
  seq     : Nat          -- SEQ of the last record
  lastCompact : Option Nat  -- timing count of the last compaction (R508)
  deriving DecidableEq, Repr

/-- What Fofiys firmware keeps: object values, sessions, requests, subscriptions and the journal. -/
structure Fw where
  objs     : List (Nat × Nat)              -- values of firmware objects, by 256 × index + subindex, sparse over their defaults
  links    : List (Nat × Link)
  requests : List (Nat × List Nat)         -- requests not answered: link, payload, oldest first (R466)
  subs     : List Sub                      -- at most 32
  journal  : Journal
  vendor   : List (List Nat)               -- code words of the vendor kernels K0 to K5 in the running image (8.10)
  kImages  : List (Nat × List Nat)         -- FLEET kernel images kept in the journal, by slot (Table 8.14)
  hspiOut  : List Nat                      -- output queue of the host SPI port, at most 1023 bytes
  hspiCs   : Bool                          -- HSPI_CS_N is low
  hspiPart : Nat                           -- bytes still to come of the output frame whose sending has begun
  hbSeq    : Nat                           -- HEARTBEAT sequence
  started  : Nat                           -- timing count at the start of the firmware
  wsAt     : Option Nat                    -- timing count of the last WHEEL_SPEED write
  version  : Nat                           -- IMAGE_VERSION of the running image
  lastGen  : List (Nat × Nat)              -- GEN that firmware last wrote, by Strand (R129, R156)
  deriving DecidableEq, Repr

/-- The firmware's data before it starts. -/
def Fw.reset : Fw := ⟨[], [], [], [], ⟨0, 0, 64, 0, none⟩, [], [], [], false, 0, 0, 0, none, 0, []⟩


/-- A window access of the host that has begun and waits for its next word (R484). -/
structure HostWin where
  write : Bool
  addr  : Nat
  count : Nat           -- words completed
  words : List Nat      -- words still to write; of a read, one entry for each word still to read
  got   : List Nat      -- words read
  hits  : List Nat      -- of each word still to write, how often its write meets a port B write of the same word (R152)
  deriving DecidableEq, Repr
/-! ### UARTs and the Lanyard port (chapter 11) -/

/-- A serial port beside its registers: U0 to U5, and 6 for the Lanyard port. -/
structure Serial where
  rx      : List Nat      -- receive entries (Table 11.3), oldest first, at most 32
  tx      : List Nat      -- transmit entries: bits 8 to 0, bit 9 a break; at most 32
  cur     : Option Nat    -- the entry on the wire
  lost    : Bool          -- characters have been discarded since the last stored one (R521)
  txRate  : Nat           -- RATE and FMT in force, as the register holds them (R526)
  txFmt   : Nat
  rxRate  : Nat
  rxFmt   : Nat
  quiet   : Bool          -- the line has been high for GUARD bit times (R530)
  cts     : Bool          -- Un_CTS_N is high
  slow    : Bool          -- slow reception (R531)
  wakeBuf : List Nat      -- wake buffer, at most 4 (R534)
  wakeLost : Nat          -- characters discarded in Slack (R534)
  ticks   : List Bool     -- samples from sample 0 of the start bit being received, oldest first (R515)
  awaitHigh : Bool        -- after FE or BRK no sample at 1 has been seen yet (R518)
  leaving : Bool          -- SLOW_EXIT has been written while a character was being received (R535)
  deriving DecidableEq, Repr

/-- A port as a core reset leaves it: 8N1 at 115 200 baud in force, the line idle. -/
def Serial.reset : Serial := ⟨[], [], none, false, 10485763, 8, 10485763, 8, true, false, false, [], 0, [], false, false⟩

/-- The Lanyard session beside LYD_SESS (R538 to R543). -/
structure Lanyard where
  sid     : Nat           -- last session ID used
  since   : Nat           -- timing count of ATTACH
  last    : Nat           -- timing count of the last valid frame
  service : Nat           -- timing count of the SERVICE grant
  rateAt  : Option Nat    -- timing count at which a new rate took effect and no valid frame has come since (R542)
  ratePend : Option (Nat × Nat)  -- RATE register value, and the characters still to be sent up to the end of RATE_ACK
  deriving DecidableEq, Repr

/-- No session. -/
def Lanyard.reset : Lanyard := ⟨0, 0, 0, 0, none, none⟩

/-! ### Short-range radio (chapter 12) -/

/-- A queued command: a copy of RADIO_CMD0 to RADIO_CMD2 (R553). -/
structure RadioCmd where
  c0 : Nat
  c1 : Nat
  c2 : Nat
  deriving DecidableEq, Repr

/-- The radio beside its registers. Commands stay in the queue until they end. -/
structure Radio where
  queue   : List RadioCmd   -- at most 4, the head first
  asked   : Bool            -- the head has asserted COEX_REQ (R575)
  granted : Bool            -- the head's grant has been sampled and was active (R576)
  window  : Option Nat      -- a receive window is open into this packet buffer (R556, R557)
  opened  : Bool            -- the open window is the head's own: it is an RX command that has started
  delay   : Nat             -- µs by which its lock came after START (R563)
  done    : List Nat        -- done FIFO, at most 8 entries of RADIO_DONE
  valid   : List Nat        -- channels whose calibration entry is valid (R561)
  buckets : List Nat        -- duty window: µs sent in each bucket, newest first, at most 1000 (R571)
  held    : Nat             -- timing count at which the hold began (R588)
  blow    : Option (Nat × Nat × Nat)  -- fuse blow in progress: field, value, old value (R574)
  req     : Bool            -- COEX_REQ asserted
  pri     : Bool            -- COEX_PRI active
  grant   : Bool            -- COEX_GRANT active
  rssi    : Nat             -- RSSI of the last packet received, 8-bit pattern
  pa      : Nat             -- PA setting of the last transmission (R567)
  deriving DecidableEq, Repr

/-- The radio as a core reset leaves it, with the duty window given. -/
def Radio.reset (buckets : List Nat) : Radio :=
  ⟨[], false, false, none, false, 0, [], [], buckets, 0, none, false, false, false, 0, 0⟩

/-! ### Phone key (chapter 13) -/

/-- A bond (R589): identity address as a 56-bit number, creation time. -/
structure Bond where
  addr    : Nat
  created : Nat
  deriving DecidableEq, Repr

/-- An open phone connection (R592, R597 to R603). -/
structure PhoneConn where
  addr      : Nat              -- identity address
  bond      : Option Nat       -- the bond whose key encrypts it
  token     : List Nat         -- the 128 token bytes, empty before a valid TOKEN
  phoneKey  : List Nat         -- the 64 bytes of the phone public key
  nonce     : List Nat         -- the nonce of the open CHALLENGE
  challengeAt : Nat            -- timing count of the CHALLENGE
  proved    : Bool
  count     : Nat              -- consecutive valid procedures within UNLOCK_DIST (R603)
  taken     : Bool             -- an unlock has been taken and the count has not fallen to 0 since (R606)
  dist      : Nat              -- distance of the last valid procedure, cm
  strikes   : Nat              -- outcomes 0x11 to 0x15 on this connection (R613)
  procRun   : Bool             -- a channel-sounding procedure is running (R600)
  deriving DecidableEq, Repr

/-- A geofence zone (Table 13.5). -/
structure Zone where
  en     : Nat
  lat    : Int
  lon    : Int
  radius : Nat
  deriving DecidableEq, Repr

/-- The phone-key service of Fofiys firmware and the output pulses. -/
structure PKey where
  bonds   : List (Nat × Bond)
  conns   : List (Nat × PhoneConn)     -- connections 0 to 3
  bars    : List (Nat × Nat)           -- barred identity addresses and the timing count of the bar (R613)
  revoked : List Nat                   -- at most 64 TOKEN_ID values
  zones   : List (Nat × Zone)
  last    : List Nat                   -- LAST_DECISION: outcome, action, bond, distance, TOKEN_ID, RTC time
  sent    : List (Nat × List Nat)      -- messages sent on the key channel: connection, bytes; newest first
  start   : Option Nat                 -- output whose pulse starts 10 ms after the other ended: 0 UNLOCK_OUT, 1 LOCK_OUT (R611)
  adverts : Nat                        -- advertising events sent
  deriving DecidableEq, Repr

/-- The service before the firmware starts. -/
def PKey.reset : PKey := ⟨[], [], [], [], [], [], [], none, 0⟩

/-! ### Real-time clock and event inputs (chapter 15) -/

/-- A stored event (R675): the words of EVn_TS0 to EVn_TS2. -/
structure EvStamp where
  ts0 : Nat
  ts1 : Nat
  ts2 : Nat
  deriving DecidableEq, Repr

/-- The backup domain beside its registers. The counting time is held as seconds since 2000-01-01 00:00:00, modulo 400 years. -/
structure Rtc where
  sec     : Nat
  pre     : Nat                        -- PRE, 0 to 32767
  latch   : Option (Nat × Nat)         -- RTC_TIME1 and RTC_SUBSEC as latched (R652)
  wq      : List (Nat × Nat × Nat)     -- write queue, at most 8: address, bytes, value (R651)
  recompute : Bool                     -- ANEXT is being recomputed (R671)
  events  : List (Nat × List EvStamp)  -- queue of each input, oldest first, at most 4
  unlogged : Nat                       -- tamper events that no hardware entry has recorded (R676)
  lastDisc : Nat                       -- seconds since CAL was last written by the discipline (R666)
  edge    : Nat                        -- slow-clock edges passed since POR: where the trim window stands (R664), and what the countdown counts (R672)
  cal     : Int                        -- CAL in force in the present trim window (R664)
  used    : Bool                       -- the present edge has applied a queued write (R651)
  cdEnd   : Nat                        -- the edge at which the running countdown reaches 0 (R672)
  cdTick  : Nat                        -- slow-clock periods in a tick of the running countdown (R672)
  deriving DecidableEq, Repr

/-- The backup domain after a POR (R657). -/
def Rtc.reset : Rtc := ⟨0, 0, none, [], false, [], 0, 0, 0, 0, false, 0, 0⟩

/-! ### Firmware update (chapter 16) -/

/-- The boot selection record and the image transfer. -/
structure Update where
  trial    : Bool                 -- TRIAL of the boot selection record (R680)
  versions : Nat × Nat            -- IMAGE_VERSION of each slot
  state    : Nat                  -- 0 IDLE, 1 RECEIVING, 2 COMPLETE
  next     : Nat                  -- next block
  blocks   : Nat
  bytes    : Nat
  version  : Nat                  -- IMAGE_VERSION of UPD_BEGIN
  refusal  : Nat                  -- last refusal code
  blockAt  : Nat                  -- timing count of the last accepted block
  splicing : Option (Nat × Nat × Bool)  -- Long splice in progress: target, timing count of GO, whether it starts a trial
  trialAt  : Nat                  -- timing count of the first instruction of the trial image (R697)
  expired  : Bool                 -- the confirm timer stands at 0 (R700)
  fixSince : Bool                 -- a valid fix from an epoch after the splice (R698)
  aging    : List (Nat × Nat)     -- VECTOR Strands whose aiding age limit was raised for a splice, and the limit before (R691)
  deriving DecidableEq, Repr

/-- Nothing in progress. -/
def Update.reset : Update := ⟨false, (0, 0), 0, 0, 0, 0, 0, 0, 0, none, 0, false, false, []⟩

/-! ### Background work (chapter 17) -/

/-- Whipping's telemetry beside the BGND registers (R729). -/
structure Bgnd where
  sums  : List Int             -- sums of the six sensors over the second, 0.1 °C
  n     : Nat                  -- samples in those sums
  tele  : List (Nat × List Nat)  -- published values of 0x9510, by subindex, as bytes
  total : Nat                  -- ELOG_TOTAL at the last telemetry second
  passFrom : Nat               -- timing count at which the present SRAM pass began (R725)
  deriving DecidableEq, Repr

/-- Whipping as a core reset leaves it. -/
def Bgnd.reset : Bgnd := ⟨[0, 0, 0, 0, 0, 0], 0, [], 0, 0⟩

/-! ### I2C controller (chapter 18) -/

/-- The I2C controller beside its registers. -/
structure I2c where
  tx    : List Nat        -- transmit FIFO, at most 8
  rx    : List Nat        -- receive FIFO, at most 8
  cmd   : Nat             -- the command in progress, as written
  sent  : Bool            -- its START has been sent
  addrd : Bool            -- its address byte has been acknowledged
  free  : Bool            -- the bus is free (R751)
  deriving DecidableEq, Repr

/-- The controller as a core reset leaves it. -/
def I2c.reset : I2c := ⟨[], [], 0, false, false, false⟩

/-! ### Navigation results that the firmware uses -/

/-- No solution yet. -/
def NavFix.reset : NavFix := ⟨false, 0, 0, 0, 0, 0, 0, none⟩


/-! ### The part -/

/-- The part: every register, every byte of memory and what each block holds beside them. -/
structure Hw where
  regs    : List (Nat × BitVec 32)    -- every register by address (Table 1.8), sparse over the Reset column
  mem     : List Host.Cell            -- every byte of memory by address (Table 1.6), sparse over 0
  ecc     : List (Nat × Nat)          -- words with an error, by word address: 1 single-bit, 2 uncorrectable, 3 poison, 4 double-bit (MRAM)
  free    : Nat                       -- the model's own: how many free values have been used
  resp    : Resp                      -- the response to the last bus access
  stalls  : List BusOp                -- accesses that stall, oldest first (R403, R436, R638, R651)
  late    : List (BusOp × Resp)       -- stalled accesses that the last command let complete, and their responses
  fuses   : Fuses
  kept    : Kept
  pwr     : Pwr
  sys     : Sys
  elogQ   : List ElogReport           -- input queue of the error log, at most 8 (R719)
  memu    : MemUnits
  dmaTry  : List (Nat × Nat × Nat)    -- beats whose write has been answered with COLLIDE: channel, times, data read (R714)
  ports   : List (Nat × Port)
  tspi    : Tspi
  sspi    : Sspi
  strands : List (Nat × Strand)
  fab     : Fab
  loop    : Loop
  tcnt    : Nat                       -- TCNT, 64 bits (R306)
  coil    : Coil
  hot     : HotStart
  sched   : WakeSched
  hitch   : Hitch
  tp      : TimePulse
  fw      : Fw
  win     : Option HostWin             -- window access of the host in progress (R484)
  serials : List (Nat × Serial)       -- U0 to U5, 6 the Lanyard port
  lyd     : Lanyard
  cans    : List (Nat × Can)
  radio   : Radio
  pkey    : PKey
  rtc     : Rtc
  upd     : Update
  i2c     : I2c
  bgnd    : Bgnd
  fix     : NavFix
  deriving DecidableEq, Repr

/-- The state: the part, and the commands that wait, first in, first out. -/
structure State where
  hw      : Hw
  pending : List Instr
  deriving DecidableEq, Repr

/-- Why the model stops with a fault. -/
inductive Fault where
  /-- Raised by no command: no meaning of this model ends in a fault. It stands here because a machine names its faults. Safe. -/
  | unraised
  deriving DecidableEq, Repr

/-- Why the model refuses a command. -/
inductive Refusal where
  /-- The command has no meaning in the model yet. Safe: nothing is claimed about it. -/
  | notModelled (mnemonic : String)
  deriving DecidableEq, Repr

/-! ### Reset -/

/-- No memory unit under test or repair, no wipe, no MRAM write. -/
def MemUnits.reset : MemUnits := ⟨[], none, none, [], [], [], none, none, [], 0, none, []⟩

/-- The fuses of the part as Keloon ships it: an AK512 in MANUFACTURE with every engine and core enabled and no limit fuse blown
(R1, R2, R424; DESIGN CHOICE, assumption log 2). -/
def Fuses.shipped : Fuses := ⟨.ak512, pow2 32 - 1, 255, 1, 0, 0, 0, 0, 0, 0, []⟩

/-- The part right after a power-on reset, before the cold boot has run (R642, R647): every register at its Reset column, the life-cycle register
showing the fuses, no memory written, every Strand IDLE, no Fofiys firmware yet. -/
def Hw.reset : Hw :=
  { regs := [(0x40070040, 0x19)], mem := [], ecc := [], free := 0, resp := .none, stalls := [], late := [],
    fuses := Fuses.shipped, kept := ⟨[], [], false, 0⟩,
    pwr := ⟨.run, true, [], [], 0, 0, 0, 0, 0, false⟩, sys := ⟨0, false, false, 0, 0, 0⟩,
    elogQ := [], memu := MemUnits.reset, dmaTry := [],
    ports := [], tspi := ⟨[], none, []⟩, sspi := ⟨none, [], none, [], []⟩,
    strands := [], fab := ⟨[], [], [], none, 0, [], 0, none⟩, loop := ⟨[], [], 0⟩,
    tcnt := 0, coil := ⟨0, []⟩, hot := HotStart.reset, sched := WakeSched.reset, hitch := Hitch.reset, tp := TimePulse.reset,
    fw := Fw.reset, win := none, serials := [], lyd := Lanyard.reset, cans := [], radio := Radio.reset [], pkey := PKey.reset,
    rtc := Rtc.reset, upd := Update.reset, i2c := I2c.reset, bgnd := Bgnd.reset, fix := NavFix.reset }

/-- The state after reset: the part, and no command waiting. -/
def State.reset : State := ⟨Hw.reset, []⟩

end Sys2Proof.Machine
end

