-- ==== Sys2Proof/Machine/Store.lean ====
section
/-! DEFINITION. Sparse tables as plain data: a list of (key, value) pairs, keys strictly rising, no entry equal to what an unlisted key
reads as (`d`). Memory, the registers and every numbered family of records (ports, Strands, engines, units …) are held in this one form. -/

namespace Sys2Proof.Store

variable {α : Type}

/-- What the table holds at key `k`: the listed value, else the default `d k`. -/
def get (d : Nat → α) : List (Nat × α) → Nat → α
  | [], k => d k
  | (i, v) :: t, k => if i = k then v else get d t k

/-- The table without any entry at key `k`. -/
def erase (k : Nat) : List (Nat × α) → List (Nat × α)
  | [] => []
  | (i, v) :: t => if i = k then erase k t else (i, v) :: erase k t

/-- The table with `v` listed at key `k`, in its place in the rising order. -/
def insert (k : Nat) (v : α) : List (Nat × α) → List (Nat × α)
  | [] => [(k, v)]
  | (i, w) :: t =>
    if k < i then (k, v) :: (i, w) :: t
    else if k = i then (k, v) :: t
    else (i, w) :: insert k v t

/-- The table after key `k` is given the value `v`: the entry is removed when `v` is what an unlisted key reads as. -/
def set [DecidableEq α] (d : Nat → α) (t : List (Nat × α)) (k : Nat) (v : α) : List (Nat × α) :=
  if v = d k then erase k t else insert k v t

/-- Every key of the table lies above `k`. -/
def above (k : Nat) : List (Nat × α) → Bool
  | [] => true
  | (i, _) :: t => decide (k < i) && above k t

/-- The canonical form: keys strictly rising and no entry equal to the default. -/
def wf [DecidableEq α] (d : Nat → α) : List (Nat × α) → Bool
  | [] => true
  | (i, v) :: t => above i t && decide (v ≠ d i) && wf d t

/-- The entries whose key satisfies `p`: the rest read as the default again. -/
def keep (p : Nat → Bool) : List (Nat × α) → List (Nat × α)
  | [] => []
  | (i, v) :: t => if p i then (i, v) :: keep p t else keep p t

end Sys2Proof.Store
end

