-- ==== Sys2Proof/Machine/Ops.lean ====
section
/-! DEFINITION. The named operations every block is written with: registers and their fields, bytes and words of memory, the records
of the numbered blocks, reports to the error log, and free values. -/

namespace Sys2Proof.Machine

/-! ### Registers (R17, R18) -/

/-- The stored value of the register at `a`; a register nothing has written holds its Reset column (R18). -/
def Hw.reg (h : Hw) (a : Nat) : BitVec 32 := Store.get resetOf h.regs a

/-- The part with the register at `a` holding `v`. -/
def Hw.setReg (h : Hw) (a : Nat) (v : BitVec 32) : Hw := { h with regs := Store.set resetOf h.regs a v }

/-- The field `f` of the register value `n`. -/
def Fld.ofNat (f : Fld) (n : Nat) : Nat := n / 2 ^ f.lo % 2 ^ f.len

/-- The register value `n` with the field `f` set to `v`, `v` taken modulo the field's width. -/
def Fld.insert (f : Fld) (n v : Nat) : Nat :=
  n / 2 ^ (f.lo + f.len) * 2 ^ (f.lo + f.len) + v % 2 ^ f.len * 2 ^ f.lo + n % 2 ^ f.lo

/-- The value of field `f`. -/
def Hw.rf (h : Hw) (f : Fld) : Nat := f.ofNat (h.reg f.addr).toNat

/-- The part with field `f` set to `v`. -/
def Hw.sf (h : Hw) (f : Fld) (v : Nat) : Hw := h.setReg f.addr (BitVec.ofNat 32 (f.insert (h.reg f.addr).toNat v))

/-- A one-bit field read as a Boolean. -/
def Hw.on (h : Hw) (f : Fld) : Bool := h.rf f != 0

/-- A counter field increased by `k`, saturating at its largest value. -/
def Hw.bumpBy (h : Hw) (f : Fld) (k : Nat) : Hw := h.sf f (satTo (2 ^ f.len - 1) (h.rf f + k))

/-- A counter field increased by 1, saturating. -/
def Hw.bump (h : Hw) (f : Fld) : Hw := h.bumpBy f 1

/-- A counter field increased by 1, modulo its width. -/
def Hw.count (h : Hw) (f : Fld) : Hw := h.sf f (h.rf f + 1)

/-- A signed field's value. -/
def Hw.rfInt (h : Hw) (f : Fld) : Int := toSigned f.len (h.rf f)

/-- A signed field set to `v`, saturating. -/
def Hw.sfInt (h : Hw) (f : Fld) (v : Int) : Hw :=
  h.sf f (ofInt f.len (clampInt (-(pow2 (f.len - 1) : Int)) ((pow2 (f.len - 1) : Int) - 1) v))

/-- The old register value `old` after a write of `v` to its plain fields: RW fields take the written bits, W1C fields are cleared by a 1,
every other bit stays (Table 0.6). W1S and WO fields act through the operation that owns them. -/
def RegDef.written (d : RegDef) (old v : Nat) : Nat :=
  (old &&& (0xFFFFFFFF ^^^ (d.rw ||| (d.w1c &&& v)))) ||| (v &&& d.rw)

/-- A write of `v` to the register at `a`, as far as its RW and W1C fields go (R18). -/
def Hw.writeFields (h : Hw) (a v : Nat) : Hw :=
  match regAt a with
  | none => h
  | some (d, _) => h.setReg a (BitVec.ofNat 32 (d.written (h.reg a).toNat v))

/-! ### Memory (R42, R44) -/

/-- What a byte of memory that nothing has written reads as: 0 (DESIGN CHOICE, assumption log 3). -/
def blankByte (_ : Nat) : BitVec 8 := 0

/-- One byte of memory. -/
def Hw.byte (h : Hw) (a : Nat) : BitVec 8 := Store.get blankByte h.mem a

/-- The part with one byte of memory written. -/
def Hw.setByte (h : Hw) (a : Nat) (v : BitVec 8) : Hw := { h with mem := Store.set blankByte h.mem a v }

/-- The `n` bytes from `a` as one little-endian number (R42). -/
def Hw.load (h : Hw) (a : Nat) : Nat → Nat
  | 0 => 0
  | n + 1 => (h.byte a).toNat + 256 * h.load (a + 1) n

/-- The part with the low `n` bytes of `v` stored from `a`, little-endian (R42). -/
def Hw.store (h : Hw) (a : Nat) : Nat → Nat → Hw
  | 0, _ => h
  | n + 1, v => (h.setByte a (BitVec.ofNat 8 v)).store (a + 1) n (v / 256)

/-- The 32-bit word at `a`. -/
def Hw.load32 (h : Hw) (a : Nat) : Nat := h.load a 4

/-- The part with a 32-bit word stored at `a`. -/
def Hw.store32 (h : Hw) (a v : Nat) : Hw := h.store a 4 v

/-- The part with a list of 32-bit words stored from `a`. -/
def Hw.storeWords (h : Hw) (a : Nat) : List Nat → Hw
  | [] => h
  | v :: vs => (h.store32 a v).storeWords (a + 4) vs

/-- The `n` 32-bit words from `a`. -/
def Hw.loadWords (h : Hw) (a : Nat) : Nat → List Nat
  | 0 => []
  | n + 1 => h.load32 a :: h.loadWords (a + 4) n

/-- The `n` bytes from `a`. -/
def Hw.loadBytes (h : Hw) (a : Nat) : Nat → List Nat
  | 0 => []
  | n + 1 => (h.byte a).toNat :: h.loadBytes (a + 1) n

/-- The part with a list of bytes stored from `a`. -/
def Hw.storeBytes (h : Hw) (a : Nat) : List Nat → Hw
  | [] => h
  | v :: vs => (h.setByte a (BitVec.ofNat 8 v)).storeBytes (a + 1) vs

/-- The part with `n` bytes from `a` reading 0 again (R401). -/
def Hw.zero (h : Hw) (a n : Nat) : Hw := { h with mem := Store.keep (fun k => !(decide (a ≤ k) && decide (k < a + n))) h.mem }

/-- The error that the 64-bit word at `a` holds: 0 none, 1 single-bit, 2 uncorrectable, 3 poison, 4 double-bit in MRAM. -/
def Hw.eccAt (h : Hw) (a : Nat) : Nat := Store.get (fun _ => 0) h.ecc (a / 8)

/-- The part with the error of the word at `a` set. -/
def Hw.setEcc (h : Hw) (a e : Nat) : Hw := { h with ecc := Store.set (fun _ => 0) h.ecc (a / 8) e }

/-- 32-bit words written whole from `a`, an even number from a multiple of 8: the error of each 64-bit word is replaced with it. -/
def Hw.putWords (h : Hw) (a : Nat) : List Nat → Hw
  | [] => h
  | v :: vs => ((h.store32 a v).setEcc a 0).putWords (a + 4) vs

/-! ### Records of the numbered blocks -/

/-- Port n. -/
def Hw.port (h : Hw) (n : Nat) : Port := Store.get (fun _ => Port.reset) h.ports n

/-- The part with port n changed. -/
def Hw.setPort (h : Hw) (n : Nat) (p : Port) : Hw := { h with ports := Store.set (fun _ => Port.reset) h.ports n p }

/-- Strand s of the strand cache. -/
def Hw.strand (h : Hw) (s : Nat) : Strand := Store.get (fun _ => Strand.reset) h.strands s

/-- The part with Strand s changed. -/
def Hw.setStrand (h : Hw) (s : Nat) (t : Strand) : Hw := { h with strands := Store.set (fun _ => Strand.reset) h.strands s t }

/-- Splice engine e. -/
def Hw.engine (h : Hw) (e : Nat) : Engine := Store.get (fun _ => Engine.reset) h.fab.engines e

/-- The part with engine e changed. -/
def Hw.setEngine (h : Hw) (e : Nat) (g : Engine) : Hw :=
  { h with fab := { h.fab with engines := Store.set (fun _ => Engine.reset) h.fab.engines e g } }

/-- Entry i of the tranche table. -/
def Hw.tranche (h : Hw) (i : Nat) : Option Tranche := Store.get (fun _ => none) h.fab.tranches i

/-- The part with entry i of the tranche table changed. -/
def Hw.setTranche (h : Hw) (i : Nat) (t : Option Tranche) : Hw :=
  { h with fab := { h.fab with tranches := Store.set (fun _ => none) h.fab.tranches i t } }

/-- Loop core c. -/
def Hw.core (h : Hw) (c : Nat) : Core := Store.get (fun _ => Core.reset) h.loop.cores c

/-- The part with loop core c changed. -/
def Hw.setCore (h : Hw) (c : Nat) (k : Core) : Hw :=
  { h with loop := { h.loop with cores := Store.set (fun _ => Core.reset) h.loop.cores c k } }

/-! ### Free values and reports -/

/-- The next free value, and the part with the counter of free values advanced (assumption log 4). -/
def Hw.fresh (h : Hw) : Nat × Hw := ((Config.freeValue h.free).toNat, { h with free := h.free + 1 })

/-- The next n free values. -/
def Hw.freshWords (h : Hw) : Nat → List Nat × Hw
  | 0 => ([], h)
  | n + 1 =>
    let (v, h) := h.fresh
    let (vs, h) := h.freshWords n
    (v :: vs, h)

/-- n bytes of free values. -/
def Hw.freshBytes (h : Hw) : Nat → List Nat × Hw
  | 0 => ([], h)
  | n + 1 =>
    let (v, h) := h.fresh
    let (bs, h) := h.freshBytes n
    (v % 256 :: bs, h)

/-- The lost counter of an error class (ELOG_LOST0 to ELOG_LOST7). -/
def elogLostField (cls : Nat) : Fld := if cls % 2 = 0 then ELOG_LOST_LOST_LO (cls / 2) else ELOG_LOST_LOST_HI (cls / 2)

/-- Submit a report to the error log (R719, R720): accepted with its stamp and sequence number while the input queue has room, otherwise
lost and counted. -/
def Hw.report (h : Hw) (cls code source addr detail : Nat) : Hw :=
  if h.elogQ.length < 8 then
    let h := h.count ELOG_TOTAL_TOTAL
    let r : ElogReport := ⟨cls, code, source, addr, detail % pow2 32, h.rf ELOG_TOTAL_TOTAL % 256, bits h.tcnt 12 32⟩
    { h with elogQ := h.elogQ ++ [r] }
  else
    ((h.bump (elogLostField cls)).bump ELOG_LOSTALL_LOST).sf ELOG_STAT_LOSTF 1

/-! ### Time -/

/-- One second of the timing clock. -/
def secondTicks : Nat := 491520000

/-- The time of an event that the timing clock brings about: TCNT has reached `t` when its command comes (assumption log 24). -/
def Hw.reach (h : Hw) (t : Nat) : Hw := { h with tcnt := max h.tcnt (t % pow2 64) }

/-! ### Commands as effects on the part -/

/-- A command whose effect on the part is `f`: it always answers a next state, and it leaves the queue as it found it. -/
def State.does (s : State) (f : Hw → Hw) : Host.Outcome State Fault Refusal := .next { s with hw := f s.hw }

/-- The numbers from 0 to n − 1, lowest first. -/
def upTo (n : Nat) : List Nat := List.range n

/-- Apply `f` to every element of a list in order. -/
def forEach {α : Type} (f : α → Hw → Hw) : List α → Hw → Hw
  | [], h => h
  | x :: xs, h => forEach f xs (f x h)

end Sys2Proof.Machine
end

