-- ==== Sys2Proof/Machine/Protect.lean ====
section
/-! DEFINITION. The address map and who may reach what: regions (Table 1.6), aliases (R45 to R47), memory units (Table 9.1), the paths of
the interconnect (Table 1.7), the memory protection unit (R705 to R708) and the fabric's checked accesses (R711). -/

namespace Sys2Proof.Machine

/-- The regions of Table 1.6 that an access can reach. -/
inductive Region where
  | bootRom | sample | strandTable | loopShared | loopProgram | navSram | thimble | save | backupRegs
  | peripheral | backupBlocks | mram
  deriving DecidableEq, Repr

/-- `a` lies from `lo` to `hi`, inclusive. -/
def within (lo hi a : Nat) : Bool := decide (lo ≤ a) && decide (a ≤ hi)

/-- The region of an address; none for an address outside Table 1.6 or in a region marked "not accessible" (R42, R43). -/
def regionOf (a : Nat) : Option Region :=
  if within 0x00000000 0x0000FFFF a then some .bootRom
  else if within 0x10000000 0x100FFFFF a then some .sample
  else if within 0x11000000 0x11037FFF a then some .strandTable
  else if within 0x12000000 0x1203FFFF a then some .loopShared
  else if within 0x12800000 0x1280FFFF a then some .loopProgram
  else if within 0x20000000 0x201FFFFF a then some .navSram
  else if within 0x30000000 0x30007FFF a then some .thimble
  else if within 0x31000000 0x31003FFF a then some .save
  else if within 0x32000000 0x3200007F a then some .backupRegs
  else if within 0x40000000 0x4019FFFF a then some .peripheral
  else if within 0x50000000 0x5002FFFF a then some .backupBlocks
  else if within 0x60000000 0x60C5FFFF a then some .mram
  else none

/-- Set alias, clear alias or neither (Table 1.6). -/
inductive Alias where
  | plain | setBits | clearBits
  deriving DecidableEq, Repr

/-- The alias kind of an address and its base address (R45). -/
def aliasOf (a : Nat) : Alias × Nat :=
  if within 0x18000000 0x1BFFFFFF a then (.setBits, a - 0x08000000)
  else if within 0x1C000000 0x1FFFFFFF a then (.clearBits, a - 0x0C000000)
  else (.plain, a)

/-- The address that an access at `a` reaches: the base address of an alias address (R45 to R47), else `a`. -/
def baseOf (a : Nat) : Nat := (aliasOf a).2

/-- The memory unit of an address (Table 9.1). -/
def unitOf (a : Nat) : Option Nat :=
  if within 0x10000000 0x100FFFFF a then some ((a - 0x10000000) / 0x40000)
  else if within 0x11000000 0x1103FFFF a then some 4
  else if within 0x12000000 0x1203FFFF a then some 5
  else if within 0x12800000 0x1280FFFF a then some 6
  else if within 0x20000000 0x201FFFFF a then some (7 + (a - 0x20000000) / 0x40000)
  else if within 0x30000000 0x30003FFF a then some 15
  else if within 0x30004000 0x30007FFF a then some 16
  else if within 0x31000000 0x31003FFF a then some 17
  else none

/-- First byte address of unit u (Table 9.1). -/
def unitBase (u : Nat) : Nat :=
  if u < 4 then 0x10000000 + 0x40000 * u
  else if u = 4 then 0x11000000
  else if u = 5 then 0x12000000
  else if u = 6 then 0x12800000
  else if u < 15 then 0x20000000 + 0x40000 * (u - 7)
  else if u = 15 then 0x30000000
  else if u = 16 then 0x30004000
  else 0x31000000

/-- Banks of unit u (Table 9.1). -/
def unitBanks (u : Nat) : Nat := if u = 6 then 4 else if 15 ≤ u then 1 else 16

/-- Bytes of unit u: banks of 16 KiB (R393). -/
def unitBytes (u : Nat) : Nat := unitBanks u * 16384

/-- Bank and row of the 64-bit word at an address of unit u (R393, R394). -/
def wordPlace (u a : Nat) : Nat × Nat :=
  let w := (a - unitBase u) / 8
  (w % unitBanks u, w / unitBanks u / 32)

/-- The SOURCE of a bus master (Table 17.1). -/
def Master.source : Master → Nat
  | .nav => 0x00
  | .whipping => 0x01
  | .dma c => 0x08 + c.val
  | .loop c => 0x10 + c.val
  | .fabric => 0x20
  | .port n => 0x24 + n.val
  | .host => 0x30
  | .jtag => 0x31

/-- The paths of Table 1.7: may this master read (or write) this region? JTAG is open only in MANUFACTURE and RETURNED. -/
def Hw.pathOk (h : Hw) (m : Master) (r : Region) (write : Bool) : Bool :=
  match m with
  | .nav =>
    match r with
    | .bootRom => !write
    | _ => true
  | .whipping =>
    match r with
    | .bootRom => !write
    | _ => true
  | .loop _ =>
    match r with
    | .sample => !write
    | .strandTable | .loopShared => true
    | _ => false
  | .fabric =>
    match r with
    | .sample => !write
    | .strandTable => true
    | _ => false
  | .dma _ =>
    match r with
    | .sample | .strandTable | .loopShared | .loopProgram | .navSram | .peripheral => true
    | .mram => !write
    | _ => false
  | .host =>
    match r with
    | .sample => !write
    | .strandTable | .loopShared | .peripheral => true
    | _ => false
  | .port _ =>
    match r with
    | .sample => write
    | _ => false
  | .jtag =>
    (h.fuses.lifecycle == 1 || h.fuses.lifecycle == 4) &&
      match r with
      | .bootRom | .save => !write
      | .thimble => false
      | _ => true

/-- A port front only writes into its own part of sample memory, the region of its ring (R48, R86); every other master passes. -/
def Hw.portPart (h : Hw) (m : Master) (a : Nat) : Bool :=
  match m with
  | .port n =>
    let b := 0x10000000 + h.rf (SP_RING_BASE n.val) * 65536
    decide (b ≤ a) && decide (a < b + h.rf (SP_RING_SIZE n.val) * 65536)
  | _ => true

/-- The MPU group of a master: the fields that grant it read and write (R705, MPU_RATTRn). -/
def Master.mpuFields (m : Master) (n : Nat) : Option (Fld × Fld) :=
  match m with
  | .loop _ => some (MPU_RATTR_LOOP_R n, MPU_RATTR_LOOP_W n)
  | .fabric => some (MPU_RATTR_FAB_R n, MPU_RATTR_FAB_W n)
  | .dma _ => some (MPU_RATTR_DMA_R n, MPU_RATTR_DMA_W n)
  | .host => some (MPU_RATTR_HOST_R n, MPU_RATTR_HOST_W n)
  | _ => none

/-- Region n covers byte address `a` (R706). -/
def Hw.mpuCovers (h : Hw) (n a : Nat) : Bool :=
  h.on (MPU_RATTR_EN n) && decide (h.rf (MPU_RBASE_BASE n) ≤ a / 64) && decide (a / 64 ≤ h.rf (MPU_RLIM_LIMIT n))

/-- The MPU permits the access (R705, R706). -/
def Hw.mpuOk (h : Hw) (m : Master) (a : Nat) (write : Bool) : Bool :=
  if !h.on MPU_CTRL_EN then true
  else match m.mpuFields 0 with
    | none => true
    | some _ => (upTo 16).any fun n =>
        h.mpuCovers n a &&
          (match m.mpuFields n with
           | some (r, w) => h.on (if write then w else r)
           | none => true)

/-- MPU_VIOL and MPU_VADDR record a refusal (R708). -/
def Hw.mpuRecord (h : Hw) (src a : Nat) (write : Bool) : Hw :=
  let h := ((h.sf MPU_VIOL_SOURCE src).sf MPU_VIOL_WRITE (b2n write)).sf MPU_VIOL_VALID 1
  (h.bump MPU_VIOL_COUNT).sf MPU_VADDR_ADDR a

/-- A port B write of one 64-bit word as two 32-bit words: dropped and recorded when the MPU refuses it (R711). -/
def Hw.fabWrite (h : Hw) (a lo hi who : Nat) : Hw :=
  if h.mpuOk .fabric a true then ((h.store32 a lo).store32 (a + 4) hi).setEcc a 0
  else (h.mpuRecord 0x20 a true).report 4 2 0x20 a who

/-- Port B writes of a list of 32-bit words, two at a time. -/
def Hw.fabWrites (h : Hw) (a who : Nat) : List Nat → Hw
  | lo :: hi :: rest => (h.fabWrite a lo hi who).fabWrites (a + 8) who rest
  | [lo] => h.fabWrite a lo 0 who
  | [] => h

end Sys2Proof.Machine
end

