-- ==== Sys2Proof/Machine/Memory.lean ====
section
/-! DEFINITION. Accesses to memory over the system bus: what refuses an access and how (R43, R44, R402, R403, R702 to R704), ECC on reads and
writes (R396 to R399), the MRAM write queue (R436), and a read or a write of memory by a master. -/

namespace Sys2Proof.Machine

/-- What an access meets before it takes effect: nothing, an ERROR with its log class and code (R703), or a stall. -/
inductive Access where
  | ok
  | error (cls code : Nat)
  | stall
  deriving DecidableEq, Repr

/-! ### Domains woken on demand (Table 14.8) -/

/-- The domain of an address: 0 fabric, 1 loop cores, 2 sample memory, 3 radio. -/
def domainOf (a : Nat) : Option Nat :=
  if within 0x11000000 0x1103FFFF a ∨ within 0x40040000 0x4004FFFF a ∨ within 0x40060000 0x400600FF a then some 0
  else if within 0x12000000 0x1203FFFF a ∨ within 0x12800000 0x1280FFFF a ∨ within 0x40050000 0x4005FFFF a then some 1
  else if within 0x10000000 0x100FFFFF a ∨ within 0x40030000 0x4003FFFF a then some 2
  else if within 0x40160000 0x4016FFFF a then some 3
  else none

/-- PWR_DOM.STATE of domain d: 0 OFF, 1 WAKING, 2 ON. -/
def Hw.domState (h : Hw) (d : Nat) : Nat := h.rf PWR_DOM_STATE / 4 ^ d % 4

/-- The part with PWR_DOM.STATE of domain d set. -/
def Hw.setDom (h : Hw) (d v : Nat) : Hw :=
  let n := h.rf PWR_DOM_STATE
  h.sf PWR_DOM_STATE (n / 4 ^ (d + 1) * 4 ^ (d + 1) + v * 4 ^ d + n % 4 ^ d)

/-- The domain of the address is On, or the address belongs to none. -/
def Hw.domainOn (h : Hw) (a : Nat) : Bool := match domainOf a with | none => true | some d => h.domState d == 2

/-- The first access to a domain that is OFF starts its wake; a first access to the fabric also wakes the loop cores (R638, R639). Every access
that stalls is counted in PWR_DOM.STALLS. -/
def Hw.wakeDomain (h : Hw) (d : Nat) : Hw :=
  let h := if h.domState d = 0 then h.setDom d 1 else h
  let h := if d = 0 ∧ h.domState 1 = 0 then h.setDom 1 1 else h
  h.bump PWR_DOM_STALLS

/-! ### Availability (R400 to R403) -/

/-- Unit u is On (MEM_SCTLu.STATE = 5). -/
def Hw.unitOn (h : Hw) (u : Nat) : Bool := h.rf (MEM_SCTL_STATE u) == 5

/-- A preserving test of unit u is in progress (R415). -/
def Hw.unitTesting (h : Hw) (u : Nat) : Bool := h.memu.test == some (u, true)

/-- The word at `a` of unit u lies in the row that a live repair has locked (R418): not yet while the spare is tested. -/
def Hw.rowLocked (h : Hw) (u a : Nat) : Bool :=
  match h.memu.repair with
  | none => false
  | some r => r.locked && r.map.unit == u && decide (wordPlace u a = (r.map.bank, r.map.row))

/-- A wipe blocks the Thimble bank (R430). -/
def Hw.thimbleBlocked (h : Hw) : Bool := h.on MEM_THSTAT_BLOCKED

/-- What the state of the unit does to an access at `a` (R403, R430). -/
def Hw.unitAccess (h : Hw) (a : Nat) : Access :=
  match unitOf a with
  | none => .ok
  | some u =>
    if (u = 15 ∨ u = 16) ∧ h.thimbleBlocked then .error 0 3
    else if h.unitTesting u ∨ h.rowLocked u a then .stall
    else if h.unitOn u then .ok
    else .error 0 3

/-! ### Protected words (R389, R630, R681) -/

/-- The program word at `a` lies in the range of a valid kernel slot (R389). -/
def Hw.programProtected (h : Hw) (a : Nat) : Bool :=
  let w := (a - 0x12800000) / 4
  (upTo 16).any fun n => h.on (LOOP_KSLOT_CFG_VALID n) && decide (h.rf (LOOP_KSLOT_RANGE_BASE n) ≤ w) &&
    decide (w < h.rf (LOOP_KSLOT_RANGE_BASE n) + h.rf (LOOP_KSLOT_RANGE_LEN n))

/-- The image slot of an MRAM address: 0 slot A, 1 slot B. -/
def imageSlot (a : Nat) : Option Nat :=
  if within 0x60000000 0x605FFFFF a then some 0 else if within 0x60600000 0x60BFFFFF a then some 1 else none

/-- The word at `a` lies in the confirmed slot, or in the slot whose image runs (R681). -/
def Hw.imageProtected (h : Hw) (a : Nat) : Bool :=
  match imageSlot a with
  | none => false
  | some s => s == h.kept.confirmed || (h.sys.fwRunning && h.rf SYS_BOOT_SLOT == s)

/-- A write to `a` meets a protected word (R389, R630, R681). -/
def Hw.writeProtected (h : Hw) (a n : Nat) : Bool :=
  if within 0x12800000 0x1280FFFF a then h.programProtected a || h.programProtected (a + n - 1)
  else if within 0x31000000 0x31000FFF a then true
  else h.imageProtected a

/-! ### The checks in order -/

/-- What an access of n bytes at base address `a` meets (R43, R44, R403, R703, R707): the address, the alignment, the path, the MPU, the
domain and the unit, and for a write the protected words. -/
def Hw.access (h : Hw) (m : Master) (a n : Nat) (write : Bool) : Access :=
  match regionOf a with
  | none => .error 0 1
  | some r =>
    if a % n ≠ 0 then .error 0 2
    else if !h.pathOk m r write || !h.portPart m a then .error 0 5
    else if !h.mpuOk m a write then .error 1 (if write then 2 else 1)
    else if !h.domainOn a then .stall
    else match h.unitAccess a with
      | .ok => if write ∧ h.writeProtected a n then .error 0 4 else .ok
      | x => x

/-! ### Responses (R702 to R704) -/

/-- The master's ERROR responses write no entry of their own (R704). -/
def Master.silent : Master → Bool
  | .loop _ => true
  | .dma _ => true
  | .fabric => true
  | _ => false

/-- DETAIL of a BUS or MPU entry. -/
def accessDetail (write : Bool) (n : Nat) : Nat := n % 256 + (if write then pow2 31 else 0)

/-- DETAIL of a MEM entry: unit, bank and row. -/
def memDetail (a : Nat) : Nat :=
  match unitOf a with
  | none => 0
  | some u => u + 32 * (wordPlace u a).1 + 512 * (wordPlace u a).2

/-- An ERROR response (R703): recorded by the MPU when it refused, counted and addressed when ECC caused it (R397), and logged unless the
master's own entry records it (R704). -/
def Hw.errorResp (h : Hw) (m : Master) (a n : Nat) (write : Bool) (cls code : Nat) : Hw :=
  let h := if cls = 1 then h.mpuRecord m.source a write else h
  let h := if cls = 3 then (h.bump MEM_ECC_UE).sf MEM_ECCADDR_ADDR a else h
  let h := if m.silent then h else h.report cls code m.source a (if cls = 3 then memDetail (baseOf a) else accessDetail write n)
  { h with resp := .error }

/-- The access stalls (R403, R638): nothing else happens, and a domain that is OFF begins to wake. -/
def Hw.stallResp (h : Hw) (a : Nat) : Hw :=
  let h := match domainOf (baseOf a) with
    | none => h
    | some d => if h.domState d = 2 then h else h.wakeDomain d
  { h with resp := .stalled }

/-! ### ECC and words -/

/-- The key of the 64-bit word at local data memory word w of core c, in the table of words with an error; beyond the address space. -/
def localKey (c w : Nat) : Nat := 0x100000000 + 0x2000 * c + 4 * w

/-- The key of accumulator memory byte b of engine e in the same table. -/
def accKey (e b : Nat) : Nat := 0x200000000 + 0x1000 * e + b

/-- A read meets the error of its word: 1 is corrected, counted and written back (R396); the MRAM corrects up to 2 bits and leaves the word
(R438). -/
def Hw.correct (h : Hw) (a : Nat) : Hw :=
  match h.eccAt a with
  | 1 => let h := h.bump MEM_ECC_CE; if within 0x60000000 0x60FFFFFF a then h else h.setEcc a 0
  | 4 => h.bump MEM_ECC_CE
  | _ => h

/-- The word at `a` cannot be read: an uncorrectable error or poison (R397, R399). -/
def Hw.unreadable (h : Hw) (a : Nat) : Bool := h.eccAt a == 2 || h.eccAt a == 3

/-- The code of a MEM entry for the word at `a`. -/
def Hw.eccCode (h : Hw) (a : Nat) : Nat := if h.eccAt a = 3 then 2 else 1

/-- Writes to the MRAM that are in progress or wait, newest last (R436). -/
def Hw.mramWrites (h : Hw) : List (Nat × Nat) :=
  (match h.memu.mramCur with | some w => [w] | none => []) ++ h.memu.mramQueue

/-- The 64-bit MRAM word at `a`, as a read after the writes before it sees it. -/
def Hw.mramWord (h : Hw) (a : Nat) : Nat :=
  match (h.mramWrites.filter fun w => w.1 == a / 8 * 8).getLast? with
  | some w => w.2
  | none => h.load (a / 8 * 8) 8

/-- The MRAM can take another word write (R436). -/
def Hw.mramRoom (h : Hw) : Bool := h.memu.mramCur.isNone || decide (h.memu.mramQueue.length < 16)

/-- An MRAM word write starts, or waits behind the one in progress (R436). -/
def Hw.mramPut (h : Hw) (a v : Nat) : Hw :=
  match h.memu.mramCur with
  | none => { h with memu := { h.memu with mramCur := some (a / 8 * 8, v) } }
  | some _ => { h with memu := { h.memu with mramQueue := h.memu.mramQueue ++ [(a / 8 * 8, v)] } }

/-- Bytes `o` to `o + n - 1` of a 64-bit value replaced by `v`. -/
def mergeBytes (old o n v : Nat) : Nat :=
  old % pow2 (8 * o) + v % pow2 (8 * n) * pow2 (8 * o) + old / pow2 (8 * (o + n)) * pow2 (8 * (o + n))

/-- An address of the MRAM. -/
def isMram (a : Nat) : Bool := within 0x60000000 0x60FFFFFF a

/-- The save area, whose content the specification does not lay out. -/
def isSaveArea (a : Nat) : Bool := within 0x31000000 0x31000FFF a

/-! ### A read and a write of memory -/

/-- The value of n bytes at `a`: from the MRAM through its queue, from the save area a free value (its layout is not given), otherwise from
memory. -/
def Hw.memValue (h : Hw) (a n : Nat) : Nat × Hw :=
  if isMram a then (h.mramWord a / pow2 (8 * (a % 8)) % pow2 (8 * n), h)
  else if isSaveArea a then
    let (v, h) := h.fresh
    (v % pow2 (8 * n), h)
  else (h.load a n, h)

/-- A bus read of n bytes of memory at `a`, or at the base address of an alias address (R43, R44, R46, R47, R396, R397). -/
def Hw.memRead (h : Hw) (m : Master) (a n : Nat) : Hw :=
  match h.access m (baseOf a) n false with
  | .stall => h.stallResp a
  | .error c k => h.errorResp m a n false c k
  | .ok =>
    if h.unreadable (baseOf a) then h.errorResp m a n false 3 (h.eccCode (baseOf a))
    else
      let h := h.correct (baseOf a)
      let (v, h) := h.memValue (baseOf a) n
      { h with resp := .data v }

/-- Store n bytes at `a` in the addressed memory. -/
def Hw.memStore (h : Hw) (a n v : Nat) : Hw :=
  if isMram a then h.mramPut a (mergeBytes (h.mramWord a) (a % 8) n v)
  else (h.store a n (v % pow2 (8 * n))).setEcc a 0

/-- A bus write of n bytes of memory at `a` (R398): a partial write merges into the corrected word and fails on an uncorrectable one. -/
def Hw.memWrite (h : Hw) (m : Master) (a n v : Nat) : Hw :=
  match h.access m a n true with
  | .stall => h.stallResp a
  | .error c k => h.errorResp m a n true c k
  | .ok =>
    if n < 8 ∧ h.unreadable a then h.errorResp m a n true 3 (h.eccCode a)
    else if isMram a ∧ !h.mramRoom then { h with resp := .stalled }
    else
      let h := if n < 8 then h.correct a else h
      { h.memStore a n v with resp := .okay }

/-! ### Port B (R152, R397, R711) -/

/-- The fabric can read the 64-bit word at `a` through port B (R397, R711). -/
def Hw.fabReads (h : Hw) (a : Nat) : Bool := h.mpuOk .fabric a false && !h.unreadable a

/-- A fabric read of the word at `a` fails: the refusal or the uncorrectable error, with its FABRIC entry (R397, R704, R711). -/
def Hw.fabFails (h : Hw) (a who : Nat) : Hw :=
  if h.mpuOk .fabric a false then ((h.bump MEM_ECC_UE).sf MEM_ECCADDR_ADDR a).report 4 1 0x20 a who
  else (h.mpuRecord 0x20 a false).report 4 2 0x20 a who

/-- The fabric reads k 64-bit words from `a` through port B, each corrected as it is read (R396); false at the first that it cannot read, where
no data are delivered (R397). -/
def Hw.fabRead (h : Hw) (a who : Nat) : Nat → Bool × Hw
  | 0 => (true, h)
  | k + 1 => if h.fabReads a then (h.correct a).fabRead (a + 8) who k else (false, h.fabFails a who)

/-- The strand table memory is under a preserving test or a live repair: accesses wait (R415, R418). -/
def Hw.tableBusy (h : Hw) : Bool := h.unitTesting 4 || (match h.memu.repair with | some r => r.locked && r.map.unit == 4 | none => false)

/-! ### Collisions (R152, R153) -/

/-- The Strand whose entry, measurement record or navigation-bit buffer holds the word at `a` (R153). -/
def strandOfWord (a : Nat) : Option Nat :=
  if within 0x11000000 0x1101FFFF a then some ((a - 0x11000000) / 256)
  else if within 0x11020000 0x1102FFFF a then some ((a - 0x11020000) % 0x8000 / 64)
  else if within 0x11030000 0x11037FFF a then some ((a - 0x11030000) / 64)
  else none

/-- A port A write collides with a port B write of the same word: discarded, COLLIDE, logged and counted (R152, R153). -/
def Hw.collide (h : Hw) (m : Master) (a attempt : Nat) : Hw :=
  let h := h.sf FAB_CMTSTAT_COLLIDE_ANY 1
  let h := match strandOfWord a with
    | none => h
    | some s => let t := h.strand s; h.setStrand s { t with collidedN := satTo 65535 (t.collidedN + 1) }
  let h := h.report 2 (min attempt 4) m.source a ((strandOfWord a).getD 0xFFFFFFFF)
  { h with resp := .collide }

/-- MEMORY_WRITE: a write, or the collision it meets. The fabric writes through port B, so its writes meet none (R49, R152). -/
def Hw.busWrite (h : Hw) (m : Master) (a n v : Nat) (hit : Bool) : Hw :=
  if hit ∧ m ≠ .fabric ∧ within 0x11000000 0x1103FFFF a ∧ h.access m a n true = .ok then h.collide m a 1 else h.memWrite m a n v

/-! ### Alias writes (R45 to R47, R405 to R407) -/

/-- A clear-alias write of n bytes at `b` reaches the counters of RCNT0 and RCNT1 of a Strand: the bits of `v` are cleared in them (R127). -/
def Hw.countsCleared (h : Hw) (b n v : Nat) : Hw :=
  if within 0x11000000 0x1101FFFF b ∧ 0x70 ≤ b % 256 ∧ b % 256 < 0x7C then
    let s := (b - 0x11000000) / 256
    let keep := fun o : Nat => 65535 ^^^ (if b % 256 ≤ o ∧ o < b % 256 + n then bits v (8 * (o - b % 256)) 16 else 0)
    let t := h.strand s
    h.setStrand s { t with
      starvedN := t.starvedN &&& keep 0x74, tornN := t.tornN &&& keep 0x76,
      collidedN := t.collidedN &&& keep 0x78, refusedN := t.refusedN &&& keep 0x7A }
  else h

/-- A write of n bytes to the set or clear alias at `a`: one atomic read-modify-write of the base word. It is checked at its base address
and needs write permission (R706), and it never collides (R155). -/
def Hw.aliasWrite (h : Hw) (m : Master) (a n v : Nat) : Hw :=
  let (k, b) := aliasOf a
  if n < 4 then h.errorResp m a n true 0 6
  else match h.access m b n true with
    | .stall => h.stallResp b
    | .error c e => h.errorResp m a n true c e
    | .ok =>
      if h.unreadable b then h.errorResp m a n true 3 (h.eccCode b)
      else
        let h := h.correct b
        let old := h.load b n
        let v := v % pow2 (8 * n)
        let new := match k with
          | .setBits => old ||| v
          | .clearBits => old &&& (v ^^^ (pow2 (8 * n) - 1))
          | .plain => v
        let h := { h.memStore b n new with resp := .okay }
        match k with
        | .clearBits => h.countsCleared b n v
        | _ => h

end Sys2Proof.Machine
end

