-- ==== Sys2Proof/Machine/Trig.lean ====
section
/-! DEFINITION. Cosine and sine rounded to Q15, as the notches need them (R77), by a Taylor series on integers of 80 fraction bits. -/

namespace Sys2Proof.Machine

/-- One on the scale of the series. -/
def trigOne : Int := (pow2 80 : Nat)

/-- π on the scale of the series, rounded down. -/
def trigPi : Int := 3797952473636338580787993

/-- The sum of the series that starts at `term` (the term of order `n`) and takes every second order, for `fuel` terms. -/
def trigSum (x2 : Int) : Nat → Nat → Int → Int
  | 0, _, _ => 0
  | fuel + 1, n, term =>
    term + trigSum x2 fuel (n + 2) (-(term * x2 / trigOne) / (((n + 1) * (n + 2) : Nat) : Int))

/-- Round half up to Q15, limited to the 16-bit range of Q15 (assumption log 12). -/
def toQ15 (v : Int) : Int := clampInt (-32768) 32767 ((v * 32768 * 2 + trigOne) / (2 * trigOne))

/-- cos and sin of 2πF/2^22, each rounded to Q15 (R77). -/
def phasor (f : Int) : Int × Int :=
  let x := trigPi * f / 2097152
  let x2 := x * x / trigOne
  (toQ15 (trigSum x2 24 0 trigOne), toQ15 (trigSum x2 24 1 x))

end Sys2Proof.Machine
end

