-- ==== Sys2Proof/Machine/SamplePorts.lean ====
section
/-! DEFINITION. Sample ports, port fronts and tuner control (chapter 2): the states of a port, the counted samples and their path through
the half-band stages, the notches and the re-quantiser into the ring, the block tags, and the tuner-control SPI. -/

namespace Sys2Proof.Machine

/-! ### Port states and configuration -/

/-- SPORT_STAT.STATE of port n. -/
def portStateField (n : Nat) : Fld := ⟨SPORT_STAT, 3 * n, 3⟩

/-- The states of Table 2.3, as SPORT_STAT codes them. -/
def portOff : Nat := 0
def portArmed : Nat := 1
def portRun : Nat := 2
def portGap : Nat := 3
def portHalted : Nat := 4

/-- The state of port n (Table 2.3). -/
def Hw.portState (h : Hw) (n : Nat) : Nat := h.rf (portStateField n)

/-- The ports of the configuration (R4, Table 0.1). -/
def Hw.portCount (h : Hw) : Nat := if h.fuses.part = .ak128 then 2 else 4

/-- The decimation factor D (R74); the reserved code acts as 1 and never starts. -/
def Hw.dec (h : Hw) (n : Nat) : Nat :=
  match h.rf (SP_CFG_DEC n) with
  | 1 => 2
  | 2 => 4
  | _ => 1

/-- RATE_KHZ of port n. -/
def Hw.rate (h : Hw) (n : Nat) : Nat := h.rf (SP_CFG_RATE_KHZ n)

/-- The ring size of port n in bytes (R86, R87). -/
def Hw.ringBytes (h : Hw) (n : Nat) : Nat := h.rf (SP_RING_SIZE n) * 65536

/-- N_ring: the ring length of port n in samples (R87). -/
def Hw.ringLen (h : Hw) (n : Nat) : Nat := 2 * h.ringBytes n

/-- The ring count of port n: its sample count divided by D (R87). -/
def Hw.ringCount (h : Hw) (n : Nat) : Nat := (h.port n).cnt / h.dec n

/-- The ring rate of port n in Hz. -/
def Hw.ringHz (h : Hw) (n : Nat) : Nat := h.rate n * 1000 / h.dec n

/-- Port n counts, either really or synthetically (R69, R73, R97). -/
def Hw.counting (h : Hw) (n : Nat) : Bool :=
  let s := h.portState n
  s == portRun || s == portGap || s == portHalted || (h.port n).syn

/-! ### Block marks and tags (R88, R89, R94 to R97) -/

/-- Is block `b` in one of the runs of `l`? -/
def inRuns (l : List (Nat × Nat)) (b : Nat) : Bool := l.any fun r => decide (r.1 ≤ b) && decide (b ≤ r.2)

/-- Block b is marked GAP (R97). -/
def Port.isGap (p : Port) (b : Nat) : Bool :=
  inRuns p.gaps b || (match p.gapFrom with | some g => decide (g ≤ b) | none => false)

/-- Block b is marked SUSPECT (R94, R96). -/
def Port.isSuspect (p : Port) (b : Nat) : Bool := inRuns p.suspects b

/-- The address of the tag of block b of port n (R88). -/
def Hw.tagAddr (h : Hw) (n b : Nat) : Nat := 0x40034000 + 0x1000 * n + 4 * (b % (h.ringBytes n / 1024))

/-- Block b passes, or passed, while ring writing is held for a capture: it has no tag (R333). -/
def Port.untagged (p : Port) (b : Nat) : Bool :=
  inRuns p.noTags b || (match p.hold with | some g => decide (g ≤ b) | none => false)

/-- The tag of block b of port n (R89); `notch` says whether a notch was enabled during it. A held ring writer writes none (R333). -/
def Hw.writeTag (h : Hw) (n b : Nat) (notch : Bool) : Hw :=
  let p := h.port n
  if p.untagged b then h
  else h.setReg (h.tagAddr n b)
    (BitVec.ofNat 32 (1 + 2 * b2n (p.isGap b) + 4 * b2n (p.isSuspect b) + 8 * b2n notch + (b % 65536) * 65536))

/-- The tag of a block as it stands. -/
def Hw.tag (h : Hw) (n b : Nat) : Nat := (h.reg (h.tagAddr n b)).toNat

/-- NOTCH of block b: from its tag, or for a block whose tag is not due yet, whether a notch has been enabled during it (R89). -/
def Hw.blockNotched (h : Hw) (n b : Nat) : Bool := if (h.port n).nextTag ≤ b then (h.port n).notched else bit (h.tag n b) 3

/-- Mark the blocks from `b0` to `b1` SUSPECT and write their tags again (R89, R94, R96). -/
def Hw.markSuspect (h : Hw) (n b0 b1 : Nat) : Hw :=
  let p := h.port n
  let h := h.setPort n { p with suspects := p.suspects ++ [(b0, b1)] }
  forEach (fun i h => h.writeTag n (b0 + i) (h.blockNotched n (b0 + i))) (upTo (b1 + 1 - b0)) h

/-- The number of the block that holds input count `c` of port n. -/
def Hw.blockOf (h : Hw) (n c : Nat) : Nat := c / h.dec n / 2048

/-- The log entry of class SPORT for port n (R104, Table 17.3). -/
def Hw.logPort (h : Hw) (n code cnt : Nat) : Hw := h.report 6 code 0x41 0 (n + (cnt % 65536) * 65536)

/-! ### The port-front pipeline (R62 to R83) -/

/-- The level of a 3-bit input field (Table 2.1). -/
def inputLevel (fmt v : Nat) : Int :=
  match fmt with
  | 0 => 2 * toSigned 3 v + 1
  | 1 => if bit v 2 then -(2 * ((v % 4 : Nat) : Int) + 1) else 2 * ((v % 4 : Nat) : Int) + 1
  | 2 => 2 * ((v % 8 : Nat) : Int) - 7
  | 3 => if bit v 1 then -(2 * ((v % 2 : Nat) : Int) + 1) else 2 * ((v % 2 : Nat) : Int) + 1
  | _ => 0

/-- Stage 1: level, scaling, SWAPIQ and then INVQ (R62, R63). -/
def Hw.inputMap (h : Hw) (n : Nat) (iq : Nat × Nat) : Int × Int :=
  let fmt := h.rf (SP_CFG_FMT n)
  let i := 16 * inputLevel fmt iq.1
  let q := 16 * inputLevel fmt iq.2
  let (i, q) := if h.on (SP_CFG_SWAPIQ n) then (q, i) else (i, q)
  (i, if h.on (SP_CFG_INVQ n) then -q else q)

/-- Entry `i` of a history, 0 where it does not reach so far back. -/
def tapOf (l : List Int) (i : Nat) : Int := l.getD i 0

/-- One half-band output; entry 0 of the list is x[m + 3] (R75). -/
def halfBand (l : List Int) : Int :=
  (-tapOf l 6 + 9 * tapOf l 4 + 16 * tapOf l 3 + 9 * tapOf l 2 - tapOf l 0 + 16) / 32

/-- The ring sample component that the latest inputs give after decimation by D (R74 to R76), newest first. -/
def decimate (d : Nat) (l : List Int) : Int :=
  match d with
  | 1 => tapOf l 0
  | 2 => halfBand l
  | _ => halfBand [halfBand l, halfBand (l.drop 2), halfBand (l.drop 4), halfBand (l.drop 6), halfBand (l.drop 8),
      halfBand (l.drop 10), halfBand (l.drop 12)]

/-- How many input samples after its centre a ring sample is complete (R75, R76). -/
def filterLag (d : Nat) : Nat := match d with | 1 => 0 | 2 => 3 | _ => 9

/-- How many ring samples are complete after `c` input samples. -/
def ringDone (d c : Nat) : Nat := if c ≤ filterLag d then 0 else (c - 1 - filterLag d) / d + 1

/-- K as it acts (R79). -/
def notchK (k : Nat) : Nat := if k < 3 then 3 else if 10 < k then 10 else k

/-- A product of a value and a Q15 factor rounded half up, with `s` further bits shifted out (R78). -/
def roundShift (v : Int) (s : Nat) : Int := (v + (pow2 (s - 1) : Nat)) / (pow2 s : Nat)

/-- One sample through a notch (R77, R78), with the sums of R82 and, with `adapt`, of R81. -/
def Notch.step (t : Notch) (adapt : Bool) (x : Int × Int) : (Int × Int) × Notch :=
  if t.en then
    let (pr, pi) := phasor t.freq
    let ur := 16 * x.1 - roundShift (16 * (pr * t.xi - pi * t.xq)) 15
    let ui := 16 * x.2 - roundShift (16 * (pr * t.xq + pi * t.xi)) 15
    let qr := pr * t.yi - pi * t.yq
    let qi := pr * t.yq + pi * t.yi
    let k := notchK t.k
    let yr := clampInt (-32768) 32767 (ur + roundShift qr 15 - roundShift qr (15 + k))
    let yi := clampInt (-32768) 32767 (ui + roundShift qi 15 - roundShift qi (15 + k))
    let o := (clampInt (-2048) 2047 ((yr + 8) / 16), clampInt (-2048) 2047 ((yi + 8) / 16))
    -- y[n]·conj(y[n-1])·conj(p), imaginary part
    let ar := yr * t.yi + yi * t.yq
    let ai := yi * t.yi - yr * t.yq
    let th := ai * pr - ar * pi
    (o, { t with
      xi := x.1, xq := x.2, yi := yr, yq := yi,
      theta := if adapt then t.theta + th else 0,
      thetaN := if adapt then t.thetaN + 1 else 0,
      pin := t.pin + (x.1 * x.1 + x.2 * x.2).toNat,
      pout := t.pout + (o.1 * o.1 + o.2 * o.2).toNat,
      pn := t.pn + 1 })
  else (x, t)

/-- Sign and magnitude bits of a component (R83, Table 2.5). -/
def quantise (thr : Nat) (v : Int) : Nat := 2 * b2n (decide (v < 0)) + b2n (decide (thr ≤ v.natAbs))

/-- The byte address of ring sample j of port n (R87). -/
def Hw.ringAddr (h : Hw) (n j : Nat) : Nat := 0x10000000 + h.rf (SP_RING_BASE n) * 65536 + j % h.ringLen n / 2

/-- The 4-bit ring sample j of port n. -/
def Hw.ringSample (h : Hw) (n j : Nat) : Nat :=
  let b := (h.byte (h.ringAddr n j)).toNat
  if j % 2 = 0 then b % 16 else b / 16

/-- Write the 4-bit ring sample j of port n (R87). -/
def Hw.setRingSample (h : Hw) (n j v : Nat) : Hw :=
  let a := h.ringAddr n j
  let b := (h.byte a).toNat
  h.setByte a (BitVec.ofNat 8 (if j % 2 = 0 then b / 16 * 16 + v % 16 else v % 16 * 16 + b % 16))

/-! ### Notch configuration, adaptation and depth; the threshold (R80 to R85) -/

/-- The registers of notch m of port n. -/
def notchEn (n m : Nat) : Fld := if m = 0 then SP_NOTCH0_EN n else SP_NOTCH1_EN n
def notchAdapt (n m : Nat) : Fld := if m = 0 then SP_NOTCH0_ADAPT n else SP_NOTCH1_ADAPT n
def notchKf (n m : Nat) : Fld := if m = 0 then SP_NOTCH0_K n else SP_NOTCH1_K n
def notchMu (n m : Nat) : Fld := if m = 0 then SP_NOTCH0_MU n else SP_NOTCH1_MU n
def notchFreq (n m : Nat) : Fld := if m = 0 then SP_NOTCH0_FREQ n else SP_NOTCH1_FREQ n
def notchDepth (n m : Nat) : Fld := if m = 0 then SP_NSTAT_DEPTH0 n else SP_NSTAT_DEPTH1 n

/-- Notch m of a port. -/
def Port.notch (p : Port) (m : Nat) : Notch := if m = 0 then p.n0 else p.n1

/-- A port with notch m replaced. -/
def Port.setNotch (p : Port) (m : Nat) (t : Notch) : Port := if m = 0 then { p with n0 := t } else { p with n1 := t }

/-- A ring block begins: the EN, K and FREQ of the registers take effect; enabling clears the notch state (R80). -/
def Hw.notchApply (h : Hw) (n m : Nat) : Hw :=
  let p := h.port n
  let t := p.notch m
  let en := h.on (notchEn n m)
  let t := if en && !t.en then { Notch.reset with lowAt := some h.tcnt } else t
  let t := { t with en := en, k := h.rf (notchKf n m), freq := h.rfInt (notchFreq n m), pend := false }
  let h := h.setPort n (p.setNotch m t)
  if en then h else h.sf (notchDepth n m) 0

/-- A write of SPn_NOTCHm: a changed FREQ waits for the next ring-block boundary, and adaptation does not replace it meanwhile (R80, R81). -/
def Hw.notchWrite (h : Hw) (n m v : Nat) : Hw :=
  let old := h.rf (notchFreq n m)
  let h := h.writeFields (if m = 0 then SP_NOTCH0 n else SP_NOTCH1 n) v
  if h.rf (notchFreq n m) = old then h
  else
    let p := h.port n
    h.setPort n (p.setNotch m { p.notch m with pend := true })

/-- NOTCH_ADAPT: after 16 ring samples FREQ steps by 2^MU by the sign of the sum, saturating (R81). -/
def Hw.notchAdaptStep (h : Hw) (n m : Nat) : Hw :=
  let p := h.port n
  let t := p.notch m
  if t.en ∧ h.on (notchAdapt n m) ∧ t.thetaN = 16 then
    let d : Int := (pow2 (h.rf (notchMu n m)) : Nat)
    let f := clampInt (-2097152) 2097151 (if 0 < t.theta then t.freq + d else if t.theta < 0 then t.freq - d else t.freq)
    let h := h.setPort n (p.setNotch m { t with freq := f, theta := 0, thetaN := 0 })
    if t.pend then h else h.sf (notchFreq n m) (ofInt 22 f)
  else h

/-- The largest number of quarter-dB steps d, at most `n`, with pin / pout at least 10^(d / 40). -/
def depthSteps (pin pout : Nat) : Nat → Nat
  | 0 => 0
  | n + 1 => if 10 ^ (n + 1) * pout ^ 40 ≤ pin ^ 40 then n + 1 else depthSteps pin pout n

/-- The depth that the power sums of a notch report (R82): 10·log10 of their ratio in quarter dB, saturating. A ratio below 1 and the ratio of
two zero powers have no stated report: that value is free (assumption log 13). -/
def Hw.depthOf (h : Hw) (t : Notch) : Nat × Hw :=
  if t.pin < t.pout ∨ t.pin = 0 then
    let (v, h) := h.fresh
    (v % 256, h)
  else (depthSteps t.pin t.pout 255, h)

/-- NOTCH_DEPTH_UPDATE: after 4096 ring samples the depth is reported, and the time counts since which it has been below 3 dB (R82, R109). -/
def Hw.notchDepthUpdate (h : Hw) (n m : Nat) : Hw :=
  let p := h.port n
  let t := p.notch m
  if t.en ∧ t.pn = 4096 then
    let (d, h) := h.depthOf t
    let low := if d < 12 then some (t.lowAt.getD h.tcnt) else none
    (h.setPort n (p.setNotch m { t with pin := 0, pout := 0, pn := 0, lowAt := low })).sf (notchDepth n m) d
  else h

/-- THRESHOLD_UPDATE: over 4096 ring samples the threshold moves by the count's distance from MAG_TGT (R84). -/
def Hw.thresholdUpdate (h : Hw) (n : Nat) : Hw :=
  let p := h.port n
  if !h.on (SP_QNT_FREEZE n) ∧ p.magN = 4096 then
    let tgt := satTo 8192 (h.rf (SP_QNT_MAG_TGT n))
    let thr := (clampInt 1 2047 ((h.rf (SP_QNT_THR n) : Int) + ((p.magC : Int) - (tgt : Int)) / 32)).toNat
    let h := (h.sf (SP_QNT_THR n) thr).sf (SP_NSTAT_MAGCNT n) p.magC
    h.setPort n { p with magN := 0, magC := 0, thrSum := p.thrSum + thr, thrN := p.thrN + 1 }
  else h

/-! ### The spectrum monitor (R105 to R109) -/

/-- Insertion of a value into an ascending list. -/
def insertAsc (v : Nat) : List Nat → List Nat
  | [] => [v]
  | x :: xs => if v ≤ x then v :: x :: xs else x :: insertAsc v xs

/-- The values of a list in ascending order. -/
def sortAsc : List Nat → List Nat
  | [] => []
  | x :: xs => insertAsc x (sortAsc xs)

/-- The bins that exceed the median by more than the threshold (R107), a bin exceeding it when twice its value is above the sum of the two
middle values by more than twice the threshold (assumption log 14). -/
def peakBins (bins : List Nat) (thr : Nat) : List Nat :=
  let srt := sortAsc bins
  let mid2 := srt.getD 127 0 + srt.getD 128 0
  (upTo 256).filter fun b => decide (mid2 + 2 * 25 * thr < 2 * bins.getD b 0)

/-- Publish the spectrum of port n: two 16-bit entries per word, lower bin low (R106). -/
def Hw.writeSpectrum (h : Hw) (n : Nat) (bins : List Nat) : Hw :=
  forEach (fun w h => h.setReg (0x40032000 + 0x200 * n + 4 * w)
    (BitVec.ofNat 32 (bins.getD (2 * w) 0 % 65536 + bins.getD (2 * w + 1) 0 % 65536 * 65536))) (upTo 128) h

/-- Whipping enables notch m of port n, adapting, at the centre of bin b (R106, R108). -/
def Hw.notchPut (h : Hw) (n b m : Nat) : Hw :=
  let h := ((h.sf (notchFreq n m) (ofInt 22 (((b : Int) - 128) * 16384))).sf (notchAdapt n m) 1).sf (notchEn n m) 1
  let p := h.port n
  h.setPort n (p.setNotch m { p.notch m with pend := true })

/-- Enable a free notch of port n at bin b, or log the peak when none is free (R108). Notch 0 is taken before notch 1, and peaks in the order of
their bins (DESIGN CHOICE, assumption log 97). -/
def Hw.assignNotch (h : Hw) (n b : Nat) : Hw :=
  if !h.on (notchEn n 0) then h.notchPut n b 0
  else if !h.on (notchEn n 1) then h.notchPut n b 1
  else h.logPort n 6 (h.port n).cnt

/-- The published entries of the sums of 64 power spectra (R105, R106). -/
def spectrumBins (sums : List Nat) : List Nat := (upTo 256).map fun b => (Config.spectrumLevel (sums.getD b 0)).toNat

/-- SPECTRUM_PUBLISH for port n, once 64 power spectra have been taken (R105 to R108). -/
def Hw.publishSpectrum (h : Hw) (n : Nat) : Hw :=
  if (h.port n).specN < 64 then h
  else
  let bins := spectrumBins (h.port n).specSum
  let h := h.setPort n { h.port n with specSum := [], specN := 0 }
  let h := h.writeSpectrum n bins
  let peaks := peakBins bins (h.rf SPORT_CTRL_SPEC_THR)
  let old := (h.port n).peaks
  let h := if peaks.isEmpty then h else h.sf (SP_EVT_PEAK n) 1
  let h := h.setPort n { h.port n with peaks := peaks }
  if h.on BGND_CTRL_NOTCH_EN then forEach (fun b h => h.assignNotch n b) (peaks.filter (old.contains ·)) h else h

/-- A ring-rate sample for the spectrum monitor: the first 256 of each monitor window make one power spectrum (R105). -/
def Hw.specSample (h : Hw) (n : Nat) (x : Int × Int) : Hw :=
  let p := h.port n
  if 256 ≤ p.specIn.length then h
  else
    let xs := x :: p.specIn
    let h := h.setPort n { p with specIn := xs }
    if xs.length < 256 then h
    else
      let h := h.publishSpectrum n
      let p := h.port n
      let ps := Config.powerSpectrum xs.reverse
      h.setPort n { p with specSum := (upTo 256).map (fun b => p.specSum.getD b 0 + ps.getD b 0), specN := p.specN + 1 }

/-- NOTCH_RELEASE: a notch whose reported depth has stayed below 3 dB for 1 s is disabled (R109). -/
def Hw.notchRelease (h : Hw) (n m : Nat) : Hw :=
  match ((h.port n).notch m).lowAt with
  | none => h
  | some t =>
    if h.on BGND_CTRL_NOTCH_EN ∧ h.on (notchEn n m) ∧ ((h.port n).notch m).en ∧ h.rf (notchDepth n m) < 12 then
      (h.reach (t + 491520000)).sf (notchEn n m) 0
    else h

/-! ### The samples (R59, R69, R76) -/

/-- Whatever is due after the ring samples counted so far: a step of each notch's frequency, its depth, the threshold (R81, R82, R84). -/
def Hw.ringDue (h : Hw) (n : Nat) : Hw :=
  ((((h.notchAdaptStep n 0).notchAdaptStep n 1).notchDepthUpdate n 0).notchDepthUpdate n 1).thresholdUpdate n

/-- NOTCH_CONFIG_APPLY: port n stands at a ring-block boundary (R80). -/
def Hw.notchBoundary (h : Hw) (n m : Nat) : Hw :=
  if h.portState n = portRun ∧ ringDone (h.dec n) (h.port n).cnt % 2048 = 0 then (h.ringDue n).notchApply n m else h

/-- Stages 4 to 7 for ring sample j: both notches, the re-quantiser, the magnitude count, the spectrum monitor and the ring (R77 to R84, R87,
R105). A new ring block begins with the notch configuration that the registers hold (R80). -/
def Hw.ringStage (h : Hw) (n j : Nat) (x : Int × Int) : Hw :=
  let h := h.ringDue n
  let h := if j % 2048 = 0 then (h.notchApply n 0).notchApply n 1 else h
  let p := h.port n
  let (y, n0) := p.n0.step (h.on (notchAdapt n 0)) x
  let (y, n1) := p.n1.step (h.on (notchAdapt n 1)) y
  let thr := h.rf (SP_QNT_THR n)
  let i := quantise thr y.1
  let q := quantise thr y.2
  let frozen := h.on (SP_QNT_FREEZE n)
  let p := { p with
    n0 := n0, n1 := n1,
    magN := if frozen then p.magN else p.magN + 1,
    magC := if frozen then p.magC else p.magC + i % 2 + q % 2,
    notched := n0.en || n1.en }
  let h := (h.setPort n p).specSample n (if h.on SPORT_CTRL_SPEC_SRC then y else x)
  if p.hold.isSome then h else h.setRingSample n j (i + 4 * q)

/-- One sampling edge of a port. In RUN the sample is counted and goes through the pipeline (R59, R69, Table 2.4); in GAP and HALTED the monitor
alone counts the edge (R97, R100). -/
def Hw.sample (h : Hw) (n : Nat) (iq : Nat × Nat) : Hw :=
  let p := h.port n
  if h.portState n = portRun then
    let p := { p with cnt := (p.cnt + 1) % pow2 64, edges := p.edges + 1, hist := (h.inputMap n iq :: p.hist).take 19 }
    let d := h.dec n
    let h := h.setPort n p
    if filterLag d < p.cnt ∧ (p.cnt - 1 - filterLag d) % d = 0 then
      h.ringStage n ((p.cnt - 1 - filterLag d) / d) (decimate d (p.hist.map (·.1)), decimate d (p.hist.map (·.2)))
    else h
  else if h.portState n = portGap ∨ h.portState n = portHalted then h.setPort n { p with edges := p.edges + 1 }
  else h

/-- The input count at which the last ring sample of block b is complete. -/
def Hw.blockNeeds (h : Hw) (n b : Nat) : Nat := h.dec n * (2048 * (b + 1) - 1) + filterLag (h.dec n) + 1

/-- The next tag of port n is written: its block is complete (R89). -/
def Hw.tagBlock (h : Hw) (n : Nat) : Hw :=
  let p := h.port n
  let b := p.nextTag
  (h.setPort n { p with nextTag := b + 1 }).writeTag n b p.notched

/-- A synthetic count reaches the end of the block in progress: in GAP and HALTED its tag is written with GAP (R97), in OFF none is (R73). -/
def Hw.endSynBlock (h : Hw) (n : Nat) : Hw :=
  let p := h.port n
  let e := 2048 * (p.nextTag + 1) * h.dec n
  let h := h.setPort n { p with cnt := max p.cnt e, nextTag := p.nextTag + 1 }
  let h := if h.portState n = portOff then h else h.writeTag n p.nextTag p.notched
  h.setPort n { h.port n with notched := p.n0.en || p.n1.en }

/-! ### Tuner-control SPI and gain control (R110 to R114) -/

/-- TSPI_CMD: a transaction starts when none runs, waits in the 16-entry queue, or is discarded with OVF (R111, R112). -/
def Hw.tspiCmd (h : Hw) (v : Nat) : Hw :=
  let v := v % pow2 27
  if h.tspi.cur.isNone ∧ h.tspi.queue.isEmpty then { h with tspi := { h.tspi with cur := some v } }
  else if h.tspi.queue.length < 16 then { h with tspi := { h.tspi with queue := h.tspi.queue ++ [v] } }
  else h.sf TSPI_STAT_OVF 1

/-- A tuner transaction completes; a READ places the bits shifted in into the receive FIFO, or sets RXOVF; the next one starts (R111, R112). -/
def Hw.tspiDone (h : Hw) (miso : Nat) : Hw :=
  match h.tspi.cur with
  | none => h
  | some v =>
    let t := { h.tspi with cur := h.tspi.queue.head?, queue := h.tspi.queue.drop 1 }
    if bit v 25 then
      let d := miso % pow2 (if bit v 24 then 24 else 16)
      if t.rx.length < 8 then { h with tspi := { t with rx := t.rx ++ [d] } }
      else ({ h with tspi := t } : Hw).sf TSPI_STAT_RXOVF 1
    else { h with tspi := t }

/-- TSPI_RX: the oldest received data with VALID, removed, or 0 (R112). -/
def Hw.tspiRead (h : Hw) : Hw :=
  match h.tspi.rx with
  | [] => { h with resp := .data 0 }
  | d :: rest => { h with tspi := { h.tspi with rx := rest }, resp := .data (d + pow2 31) }

/-- GAIN_CONTROL_TICK: Whipping compares the mean THR of the watched port with its limits and queues one gain step (R114). The mean is that of
the values after each update since the last tick that watched the port, or the present THR (DESIGN CHOICE, assumption log 97). -/
def Hw.gainTick (h : Hw) : Hw :=
  if h.on TSPI_GAIN_EN then
    let n := h.rf TSPI_GAIN_PORT
    let p := h.port n
    let (s, k) := if p.thrN = 0 then (h.rf (SP_QNT_THR n), 1) else (p.thrSum, p.thrN)
    let h := h.setPort n { p with thrSum := 0, thrN := 0 }
    let g := h.rf TSPI_GAIN_GCODE
    let step (g : Nat) (h : Hw) : Hw :=
      (h.sf TSPI_GAIN_GCODE g).tspiCmd (g + 256 * h.rf TSPI_GAIN_ADDR + h.rf TSPI_GAIN_CS * pow2 26)
    if h.rf TSPI_GWIN_T_HI * k < s ∧ 0 < g then step (g - 1) h
    else if s < h.rf TSPI_GWIN_T_LO * k ∧ g < h.rf TSPI_GAIN_GMAX then step (g + 1) h
    else h
  else h

/-! ### Counters as software reads them (R69) -/

/-- SPn_CNT_LO: the low half, and the high half latched into CNT_HI. -/
def Hw.readCount (h : Hw) (n : Nat) : Hw :=
  let c := (h.port n).cnt
  { h.sf (SP_CNT_HI_CNT n) (c / pow2 32) with resp := .data (c % pow2 32) }

/-! ### Sensor SPI (R276 to R280) -/

/-- SSPI_CMD runs one transaction, and sets or clears the repetition at DRDY (R277). A write while a transaction runs is taken up when it
ends (assumption log 15). -/
def Hw.sspiCmd (h : Hw) (v : Nat) : Hw :=
  let v := v % 65536
  let auto := if bit v 15 then some v else none
  match h.sspi.cur with
  | none => { h with sspi := { h.sspi with cur := some v, auto := auto } }
  | some _ => { h with sspi := { h.sspi with wait := h.sspi.wait ++ [v], auto := auto } }

/-- Bytes into the sensor receive FIFO, discarded with RXOVF when full (R277, R279). -/
def Hw.sspiPush (h : Hw) : List Nat → Hw
  | [] => h
  | b :: bs =>
    if h.sspi.rx.length < 64 then ({ h with sspi := { h.sspi with rx := h.sspi.rx ++ [b % 256] } } : Hw).sspiPush bs
    else (h.sf SSPI_STAT_RXOVF 1).sspiPush bs

/-- The LEN of a command, 0 acting as 1 and at most 32 (SSPI_CMD). -/
def sspiLen (v : Nat) : Nat := max 1 (min 32 (bits v 8 6))

/-- A sensor transaction ends; the bytes received on a read enter the FIFO (R277). -/
def Hw.sspiDone (h : Hw) (miso : List Nat) : Hw :=
  match h.sspi.cur with
  | none => h
  | some v =>
    let h := { h with sspi := { h.sspi with cur := h.sspi.wait.head?, wait := h.sspi.wait.drop 1 } }
    if bit v 14 then h.sspiPush ((miso ++ List.replicate (sspiLen v) 0).take (sspiLen v)) else h

/-- An active edge of SSPI_DRDY stores SP0's count, real or synthetic, as it is seen 3 to 4 system clocks later: at most two samples have come
meanwhile, how many is not stated. It repeats an AUTO transaction, after the one in progress if one runs
(R98, R277 to R279, assumption log 15). -/
def Hw.sspiDrdy (h : Hw) : Hw :=
  let h :=
    if h.on SSPI_CFG_DRDY_EN then
      if h.sspi.stamps.length < 16 then
        let (d, h) := h.fresh
        { h with sspi := { h.sspi with stamps := h.sspi.stamps ++ [((h.port 0).cnt + d % 3) % pow2 32] } }
      else h.sf SSPI_STAT_DOVF 1
    else h
  match h.sspi.auto, h.sspi.cur with
  | some v, none => { h with sspi := { h.sspi with cur := some v } }
  | some v, some _ => { h with sspi := { h.sspi with wait := h.sspi.wait ++ [v] } }
  | none, _ => h

/-- SSPI_RX: the oldest received byte with VALID, removed, or 0. -/
def Hw.sspiRead (h : Hw) : Hw :=
  match h.sspi.rx with
  | [] => { h with resp := .data 0 }
  | d :: rest => { h with sspi := { h.sspi with rx := rest }, resp := .data (d + pow2 31) }

/-- SSPI_DRDY: the oldest stamp, removed; all ones when none is held. -/
def Hw.sspiStamp (h : Hw) : Hw :=
  match h.sspi.stamps with
  | [] => { h with resp := .data 0xFFFFFFFF }
  | d :: rest => { h with sspi := { h.sspi with stamps := rest }, resp := .data d }

end Sys2Proof.Machine
end

