-- ==== Sys2Proof/Machine/Strands.lean ====
section
/-! DEFINITION. Strands and the strand table (chapter 3): signal codes, the control body and its fields, the CRC of a commit, the checks of
Table 3.7, the strand cache and the rewriting of the result region. -/

namespace Sys2Proof.Machine

/-! ### Signal codes (Table 3.1, Table 5.9) -/

/-- The replica column of Table 3.1. -/
inductive Replica where
  | bpsk | boc | cm | cl
  deriving DecidableEq, Repr

/-- How the bit synchroniser finds symbols (Table 5.9). -/
inductive SyncKind where
  | hist | sec | code | time
  deriving DecidableEq, Repr

/-- One row of Tables 3.1 and 5.9: carrier in Hz, chip rate in Hz, primary code in chips, replica, pilot, range of SAT_ID, code period in ms,
length of the secondary code (0 none), symbol period in ms (0 none), synchronisation. -/
structure Signal where
  carrier : Nat
  chipHz  : Nat
  chips   : Nat
  replica : Replica
  pilot   : Bool
  satLo   : Nat
  satHi   : Nat
  codeMs  : Nat
  secLen  : Nat
  symMs   : Nat
  sync    : SyncKind
  deriving DecidableEq, Repr

/-- The signal of a code (Table 3.1); none for a reserved code (R116). -/
def signalOf (sig : Nat) : Option Signal :=
  match sig with
  | 0x01 => some ⟨1575420000, 1023000, 1023, .bpsk, false, 1, 63, 1, 0, 20, .hist⟩
  | 0x02 => some ⟨1575420000, 1023000, 10230, .boc, false, 1, 63, 10, 0, 10, .code⟩
  | 0x03 => some ⟨1575420000, 1023000, 10230, .boc, true, 1, 63, 10, 1800, 0, .time⟩
  | 0x04 => some ⟨1227600000, 511500, 10230, .cm, false, 1, 63, 20, 0, 20, .code⟩
  | 0x05 => some ⟨1227600000, 511500, 767250, .cl, true, 1, 63, 1500, 0, 0, .code⟩
  | 0x06 => some ⟨1176450000, 10230000, 10230, .bpsk, false, 1, 63, 1, 10, 10, .sec⟩
  | 0x07 => some ⟨1176450000, 10230000, 10230, .bpsk, true, 1, 63, 1, 20, 0, .sec⟩
  | 0x11 => some ⟨1575420000, 1023000, 4092, .boc, false, 1, 63, 4, 0, 4, .code⟩
  | 0x12 => some ⟨1575420000, 1023000, 4092, .boc, true, 1, 63, 4, 25, 0, .sec⟩
  | 0x13 => some ⟨1176450000, 10230000, 10230, .bpsk, false, 1, 63, 1, 20, 20, .sec⟩
  | 0x14 => some ⟨1176450000, 10230000, 10230, .bpsk, true, 1, 63, 1, 100, 0, .sec⟩
  | 0x15 => some ⟨1207140000, 10230000, 10230, .bpsk, false, 1, 63, 1, 4, 4, .sec⟩
  | 0x16 => some ⟨1207140000, 10230000, 10230, .bpsk, true, 1, 63, 1, 100, 0, .sec⟩
  | 0x21 => some ⟨1561098000, 2046000, 2046, .bpsk, false, 1, 63, 1, 20, 20, .sec⟩
  | 0x22 => some ⟨1575420000, 1023000, 10230, .boc, false, 1, 63, 10, 0, 10, .code⟩
  | 0x23 => some ⟨1575420000, 1023000, 10230, .boc, true, 1, 63, 10, 1800, 0, .time⟩
  | 0x24 => some ⟨1176450000, 10230000, 10230, .bpsk, false, 1, 63, 1, 5, 5, .sec⟩
  | 0x25 => some ⟨1176450000, 10230000, 10230, .bpsk, true, 1, 63, 1, 100, 0, .sec⟩
  | 0x31 => some ⟨1602000000, 511000, 511, .bpsk, false, 1, 27, 1, 0, 20, .hist⟩
  | 0x41 => some ⟨1575420000, 1023000, 1023, .bpsk, false, 193, 202, 1, 0, 20, .hist⟩
  | 0x42 => some ⟨1575420000, 1023000, 10230, .boc, false, 193, 202, 10, 0, 10, .code⟩
  | 0x43 => some ⟨1575420000, 1023000, 10230, .boc, true, 193, 202, 10, 1800, 0, .time⟩
  | 0x44 => some ⟨1176450000, 10230000, 10230, .bpsk, false, 193, 202, 1, 10, 10, .sec⟩
  | 0x45 => some ⟨1176450000, 10230000, 10230, .bpsk, true, 193, 202, 1, 20, 0, .sec⟩
  | 0x51 => some ⟨1176450000, 1023000, 1023, .bpsk, false, 1, 14, 1, 0, 20, .hist⟩
  | 0x61 => some ⟨1575420000, 1023000, 1023, .bpsk, false, 120, 158, 1, 0, 2, .hist⟩
  | 0x62 => some ⟨1176450000, 10230000, 10230, .bpsk, false, 120, 158, 1, 10, 10, .sec⟩
  | _ => none

/-- A row that stands for a reserved code where one is asked for; no Strand with such a code leaves IDLE. -/
def Signal.blank : Signal := ⟨0, 0, 1, .bpsk, false, 0, 0, 1, 0, 0, .code⟩

/-- The row of a signal code for one satellite: B1I satellites 1 to 5 and 59 to 63 have no secondary code (Table 5.9). -/
def signalFor (sig sat : Nat) : Signal :=
  match signalOf sig with
  | none => Signal.blank
  | some r => if sig = 0x21 ∧ (sat ≤ 5 ∨ 59 ≤ sat) then { r with secLen := 0, symMs := 2, sync := .hist } else r

/-! ### The control body (Table 3.2, Tables 3.3 and 3.4) -/

/-- The address of the entry of Strand s (R118). -/
def entryAddr (s : Nat) : Nat := 0x11000000 + 256 * s

/-- Word i of a control body. -/
def bodyWord (b : List Nat) (i : Nat) : Nat := b.getD i 0

/-- The 16-bit field at byte offset o of a control body (R122). -/
def bodyHalf (b : List Nat) (o : Nat) : Nat := bits (bodyWord b (o / 4)) (8 * (o % 4)) 16

def bodyEn (b : List Nat) : Bool := bit (bodyWord b 0) 0
def bodyMode (b : List Nat) : Nat := bits (bodyWord b 0) 1 3
def bodyPort (b : List Nat) : Nat := bits (bodyWord b 0) 4 2
def bodySat (b : List Nat) : Nat := bits (bodyWord b 0) 8 8
def bodySig (b : List Nat) : Nat := bits (bodyWord b 0) 16 8
def bodyFch (b : List Nat) : Nat := bits (bodyWord b 0) 24 4
def bodyInt (b : List Nat) : Nat := bits (bodyWord b 1) 0 4
def bodyComb (b : List Nat) : Nat := bits (bodyWord b 1) 4 4
def bodyDllIn (b : List Nat) : Nat := bits (bodyWord b 1) 8 5
def bodyDllOut (b : List Nat) : Nat := bits (bodyWord b 1) 13 5
def bodyKernel (b : List Nat) : Nat := bits (bodyWord b 1) 18 4
def bodyMpc (b : List Nat) : Bool := bit (bodyWord b 1) 22
def bodyCode (b : List Nat) : Nat := bodyWord b 2
def bodyCarr (b : List Nat) : Nat := bodyWord b 3
def bodyCpStart (b : List Nat) : Nat := bits (bodyWord b 4) 0 16
def bodyCpSpan (b : List Nat) : Nat := bits (bodyWord b 4) 16 16
def bodyDopSpan (b : List Nat) : Nat := bits (bodyWord b 5) 0 16
def bodyDwell (b : List Nat) : Nat := bits (bodyWord b 5) 16 8
def bodyPasses (b : List Nat) : Nat := bits (bodyWord b 5) 24 8
def bodyAidCnt (b : List Nat) : Nat := bodyWord b 16
def bodyAidCph (b : List Nat) : Nat := bodyWord b 17
def bodyAidCtl (b : List Nat) : Nat := bodyWord b 21

/-- PULL_TMO as it acts (R123). -/
def bodyPullTmo (b : List Nat) : Nat := max 10 (min 60000 (bodyHalf b 0x30))

/-- COAST_MAX as it acts (R123). -/
def bodyCoastMax (b : List Nat) : Nat := max 100 (min 10000 (bodyHalf b 0x32))

/-- The signal row of a body. -/
def bodySignal (b : List Nat) : Signal := signalFor (bodySig b) (bodySat b)

/-- The integration period of an INT code in ms (CFG1). -/
def intMs (code : Nat) : Nat := [1, 2, 4, 5, 10, 20, 40, 100, 200, 400].getD code 1

/-- The INT code that acts in a state: above 20 ms it acts as 20 ms outside VECTOR and COAST (R148). -/
def effInt (st : StrandState) (code : Nat) : Nat :=
  if 20 < intMs code ∧ st ≠ .vector ∧ st ≠ .coast then 5 else code

/-- STATE as coded in RSTATE (Table 3.5). -/
def StrandState.toNat : StrandState → Nat
  | .idle => 0
  | .search => 1
  | .pullIn => 2
  | .track => 3
  | .vector => 4
  | .coast => 5
  | .snapshot => 6

/-- A Strand with tracking taps: it has integrations and boundaries (R171). -/
def StrandState.tracking : StrandState → Bool
  | .pullIn | .track | .vector | .coast => true
  | _ => false

/-! ### The CRC of a commit (R126) -/

/-- One bit of CRC-16/CCITT-FALSE. -/
def crc16Bit (crc : Nat) : Nat := if 32768 ≤ crc then (crc * 2 % 65536) ^^^ 0x1021 else crc * 2

/-- One byte of CRC-16/CCITT-FALSE. -/
def crc16Byte (crc b : Nat) : Nat :=
  let c := crc ^^^ (b % 256 * 256)
  crc16Bit (crc16Bit (crc16Bit (crc16Bit (crc16Bit (crc16Bit (crc16Bit (crc16Bit c)))))))

/-- CRC-16/CCITT-FALSE of a list of bytes (R126). -/
def crc16 (bs : List Nat) : Nat := bs.foldl crc16Byte 0xFFFF

/-- The CRC of bytes 0x00 to 0x5B of an entry as they stand. -/
def Hw.entryCrc (h : Hw) (s : Nat) : Nat := crc16 (h.loadBytes (entryAddr s) 92)

/-! ### Capacity and load (R8, R53, R150) -/

/-- The bits of `n` below 32 that are 1, as numbers. -/
def setBits (n : Nat) : List Nat := (upTo 32).filter (bit n ·)

/-- The engines of a cluster, and the loop cores, that a configuration has (Table 0.1). -/
def Part.perCluster : Part → Nat
  | .ak512 => 8
  | .ak256 => 4
  | .ak128 => 2

/-- The enabled ones of 8 units of which a configuration has k: those of the fuses, which hold k of them (R1, R2). -/
def enabledOf (k mask : Nat) : Nat := if ((upTo 8).filter (bit mask ·)).length = k then mask % 256 else pow2 k - 1

/-- The enabled engines (R2, Table 0.1): the configuration's number in each cluster. -/
def Fuses.engineSet (f : Fuses) : Nat :=
  let c := fun k => enabledOf f.part.perCluster (bits f.engines (8 * k) 8) * pow2 (8 * k)
  c 0 + c 1 + c 2 + c 3

/-- The enabled loop cores (R2, Table 0.1). -/
def Fuses.coreSet (f : Fuses) : Nat := enabledOf f.part.perCluster f.cores

/-- Engine e is live: enabled and not retired (FAB_ENGSTAT.LIVE). -/
def Hw.engLive (h : Hw) (e : Nat) : Bool := bit h.fuses.engineSet e && !bit h.pwr.engRet e

/-- The live engines, lowest first. -/
def Hw.liveEngines (h : Hw) : List Nat := (upTo 32).filter h.engLive

/-- The strand capacity (R8). -/
def Hw.capacity (h : Hw) : Nat := 16 * h.liveEngines.length

/-- The fabric clock in Hz at a performance level (Table 1.2, Table 14.2). -/
def fabricHz (pl : Nat) : Nat := 122880000 * (pl + 1)

/-- The fabric capacity in tap-samples per second at a level (Table 4.6). -/
def Hw.fabCapacity (h : Hw) (pl : Nat) : Nat := h.liveEngines.length * 128 * fabricHz pl

/-- 16 × the ring rate of a port, in thousandths of a tap-sample per second over D = 4: tap-samples per second × 4. -/
def Hw.portLoad (h : Hw) (n : Nat) : Nat := 16 * h.rate n * 1000 * 4 / h.dec n

/-- The Strands the cache lists, with their records. -/
def Hw.strandList (h : Hw) : List (Nat × Strand) := h.strands

/-- The tracking load of R53, × 4. -/
def Hw.trackLoad (h : Hw) : Nat :=
  ((h.strandList.filter fun p => p.2.state != .idle).map fun p => h.portLoad (bodyPort p.2.body)).sum

/-- The Strands that are not IDLE (R150). -/
def Hw.activeCount (h : Hw) : Nat := (h.strandList.filter fun p => p.2.state != .idle).length

/-- Strand holds a staged enable while IDLE (R150). -/
def Strand.stagedEnable (t : Strand) : Bool :=
  t.state == .idle && (match t.staged with | some (b, _) => bodyEn b | none => false)

/-- The committed count of R150; the Strand `but`, if any, is left out of the staged enables. -/
def Hw.committedCount (h : Hw) (but : Option Nat) : Nat :=
  h.activeCount + (h.strandList.filter fun p => p.2.stagedEnable && but != some p.1).length

/-- The port of a staged body. -/
def Strand.stagedPort (t : Strand) : Nat := match t.staged with | some (b, _) => bodyPort b | none => 0

/-- The committed load of R150, × 4. -/
def Hw.committedLoad (h : Hw) (but : Option Nat) : Nat :=
  h.trackLoad +
    ((h.strandList.filter fun p => p.2.stagedEnable && but != some p.1).map fun p => h.portLoad p.2.stagedPort).sum

/-- The performance level in force. -/
def Hw.level (h : Hw) : Nat := h.rf PWR_PL_CURRENT

/-! ### Checks (R149, Table 3.7) -/

/-- MODE permitted from a state with EN = 1 (Table 3.6). -/
def modeOk (st : StrandState) (mode : Nat) : Bool :=
  match st with
  | .idle => mode == 1 || mode == 2 || mode == 3 || mode == 4 || mode == 6
  | .search | .pullIn => mode == 1 || mode == 2 || mode == 3 || mode == 4
  | .track | .vector | .coast => mode == 1 || mode == 2 || mode == 3 || mode == 4 || mode == 5
  | .snapshot => false

/-- The identity fields PORT, SAT_ID, SIG and FCH of a body. -/
def bodyIdent (b : List Nat) : Nat × Nat × Nat × Nat := (bodyPort b, bodySat b, bodySig b, bodyFch b)

/-- KERNEL may be named by a body: not 4 or 5, and the slot is valid (BAD_KERNEL, R384). -/
def Hw.kernelOk (h : Hw) (k : Nat) : Bool := k != 4 && k != 5 && h.on (LOOP_KSLOT_CFG_VALID k)

/-- The window checks of BAD_WINDOW (Table 3.7). -/
def windowBad (b : List Nat) : Bool :=
  let p := (bodySignal b).chips
  bodyMode b == 1 && (bodyDwell b == 0 || decide (p ≤ bodyCpStart b) || decide (p < bodyCpSpan b) || decide (65535 < p))

/-- The checks of Table 3.7 in order; 0 when all pass. `but` is the Strand whose own staged enable is being checked again (R136); at a pick-up it is
none, and a staged enable that the body would replace counts as well (R150). -/
def Hw.checkBody (h : Hw) (s : Nat) (b : List Nat) (but : Option Nat) : Nat :=
  let t := h.strand s
  let idle := t.state == .idle
  let sg := signalOf (bodySig b)
  let row := bodySignal b
  let n := bodyPort b
  if !bodyEn b then 0
  else if !idle ∧ bodyIdent b ≠ bodyIdent t.body then 0x0C
  else if !modeOk t.state (bodyMode b) then 0x0B
  else if idle ∧ h.capacity ≤ h.committedCount but then 0x01
  else if idle ∧ (h.portCount ≤ n ∨ h.portState n ≠ portRun) then 0x03
  else if sg.isNone then 0x04
  else if bodySat b < row.satLo ∨ row.satHi < bodySat b ∨
      (if bodySig b = 0x31 then (bodyFch b = 0 ∨ 14 < bodyFch b) else bodyFch b ≠ 0) then 0x05
  else if 10 ≤ bodyInt b ∨ (20 < intMs (bodyInt b) ∧ (!row.pilot ∨ bodyMode b ≠ 4)) then 0x06
  else if bodyComb b = 0 ∨ 8 < bodyComb b ∨ bodyDllIn b = 0 ∨ 16 < bodyDllIn b ∨ bodyDllOut b ≤ bodyDllIn b then 0x07
  else if !h.kernelOk (bodyKernel b) then 0x08
  else if bodyCode b = 0 ∨ pow2 31 ≤ bodyCode b then 0x09
  else if windowBad b then 0x0A
  else if idle ∧ 4 * h.fabCapacity h.level < h.committedLoad but + h.portLoad n then 0x02
  else 0

/-! ### The result region (R128) -/

/-- RSTATE as the cache gives it. -/
def Strand.rstate (t : Strand) : Nat :=
  t.state.toNat + 16 * b2n t.lockC + 32 * b2n t.lockP + 64 * b2n t.torn + 128 * b2n t.faulted + 256 * t.status + 65536 * t.intSeq

/-- The words of the result region (0x60 to 0xFF) as the cache gives them. -/
def Strand.resultWords (t : Strand) : List Nat :=
  [t.rstate, t.cn0 + 65536 * t.pli, t.codeRate, t.carrRate, t.intEnd, t.starvedN + 65536 * t.tornN,
   t.collidedN + 65536 * t.refusedN, t.appliedGen + 65536 * satTo 65535 t.coastMs] ++
  (upTo 32).map (t.taps.getD · 0)

/-- Rewrite the result region of Strand s (R128): INT_SEQ increases by 1 and every word is written through port B. -/
def Hw.rewrite (h : Hw) (s : Nat) : Hw :=
  let t := h.strand s
  let t := { t with intSeq := (t.intSeq + 1) % 65536 }
  let h := h.setStrand s t
  h.fabWrites (entryAddr s + 0x60) s t.resultWords

/-! ### Anchors and slips (R289, R300) -/

/-- An event of R300 at ring count n: the first record at or after it shows a slip, and LOCK_MS counts from here. -/
def Strand.slipEvent (t : Strand) (n : Nat) : Strand := { t with slips := t.slips ++ [n], eventAt := n }

/-- What the Strand holds at ring count n of the count `era` of its port, as an anchor. -/
def Strand.anchorAt (t : Strand) (n era : Nat) : Anchor :=
  { at_ := n, state := t.state, body := t.body, phi := t.phi, carrPh := t.carrPh, prim := t.prim, codeRate := t.codeRate,
    carrRate := t.carrRate, lockC := t.lockC, lockP := t.lockP, cn0 := t.cn0, pli := t.pli, mpv := t.mpv, mp := t.mp,
    coastMs := t.coastMs, replicaAt := t.replicaAt, carr0 := t.carr0, eventAt := t.eventAt,
    port := bodyPort t.body, era := era }

/-- The Strand's state at ring count n joins its anchors. -/
def Hw.anchor (h : Hw) (s n : Nat) : Hw :=
  let t := h.strand s
  h.setStrand s { t with anchors := (t.anchorAt n (h.port (bodyPort t.body)).era :: t.anchors).take 64 }

/-! ### Leaving and entering states -/

/-- The navigation-bit buffer of Strand s. -/
def nbAddr (s : Nat) : Nat := 0x11030000 + 64 * s

/-- SYNC and HCR become 0, the counts are kept, and the search for symbols begins again (R275). -/
def Hw.syncReset (h : Hw) (s : Nat) : Hw :=
  let w := h.load32 (nbAddr s)
  let h := h.fabWrite (nbAddr s) (w - w % 8) (h.load32 (nbAddr s + 4)) s
  let t := h.strand s
  h.setStrand s { t with bsync := { BitSync.start with rate := t.bsync.rate } }

/-- A Strand leaves IDLE: the fabric zeroes its navigation-bit buffer (R275) and its first task receives a state block of zeros (R232). -/
def Hw.leaveIdle (h : Hw) (s : Nat) : Hw :=
  let h := h.fabWrites (nbAddr s) s (List.replicate 16 0)
  let t := h.strand s
  h.setStrand s { t with zeroBlock := true, bsync := BitSync.start, sec := none, mpv := false, mp := 0, slips := [] }

/-- Is this item work of Strand s? -/
def Item.of (it : Item) (s : Nat) : Bool := it.strand == s

/-- Withdraw the untaken items of Strand s that satisfy `p` from the issue queue and every deque; answers how many. -/
def Hw.withdraw (h : Hw) (s : Nat) (p : Item → Bool) : Nat × Hw :=
  let bad := fun it : Item => it.of s && p it
  let inIssue := (h.fab.issue.filter bad).length
  let inDeques := ((h.fab.engines.map fun e => (e.2.deque.filter bad).length)).sum
  let h := { h with fab := { h.fab with issue := h.fab.issue.filter (!bad ·) } }
  let h := forEach (fun e h =>
    let g := h.engine e
    h.setEngine e { g with deque := g.deque.filter (!bad ·) }) (h.fab.engines.map (·.1)) h
  (inIssue + inDeques, h)

/-- Discard the queued tasks of Strand s, and mark a running or saved one so that its return words are ignored (R220). -/
def Hw.discardTasks (h : Hw) (s : Nat) : Hw :=
  let n := (h.loop.ready.filter fun k => k.strand == s).length
  let h := h.bumpBy LOOP_TALLY1_DISCARD n
  let h := { h with loop := { h.loop with ready := h.loop.ready.filter fun k => k.strand != s } }
  let kill := fun r : Running => if r.task.strand = s then { r with task := { r.task with dead := true } } else r
  forEach (fun c h =>
    let k := h.core c
    h.setCore c { k with run := k.run.map kill, saved := k.saved.map kill }) (h.loop.cores.map (·.1)) h

/-- The tranche entries of Strand s are freed. -/
def Hw.dropTranches (h : Hw) (s : Nat) : Hw :=
  forEach (fun i h => match h.tranche i with
    | some t => if t.strand = s then h.setTranche i none else h
    | none => h) (upTo 64) h

/-- A Strand leaves SEARCH or becomes IDLE through CAPACITY_LOST: untaken items are withdrawn without counting as starved, queued tasks are
discarded, and running results will be dropped (R188, R220). -/
def Hw.dropWork (h : Hw) (s : Nat) : Hw :=
  let (_, h) := h.withdraw s (fun _ => true)
  (h.discardTasks s).dropTranches s

/-! ### Staging and refusal (R131 to R134) -/

/-- A refused commit: STATUS, REFUSED and REFUSED_ANY; the configuration and the state are unchanged (R133). -/
def Hw.refuse (h : Hw) (s gen status : Nat) : Hw :=
  let t := h.strand s
  let h := h.setStrand s { t with refusedGen := some gen, status := status, refusedN := satTo 65535 (t.refusedN + 1) }
  (h.sf FAB_CMTSTAT_REFUSED_ANY 1).rewrite s

/-- A staged enable refused after it was staged: the body is dropped as well (R55, R135). -/
def Hw.refuseStaged (h : Hw) (s status : Nat) : Hw :=
  let t := h.strand s
  match t.staged with
  | none => h
  | some (_, gen) => (h.setStrand s { t with staged := none }).refuse s gen status

/-- Port n stops counting: a staged enable of an IDLE Strand of that port is refused with PORT_NOT_RUN, and a staged body with EN = 0 stays
for the next pick-up point (R135). -/
def Hw.refuseWaiting (h : Hw) (n : Nat) : Hw :=
  forEach (fun s h => h.refuseStaged s 0x03)
    ((h.strandList.filter fun p => p.2.stagedEnable && p.2.stagedPort == n).map (·.1)) h

/-- The synthetic count of a port in OFF ends when none of its Strands is left that is not IDLE (R73). -/
def Hw.endSynthetic (h : Hw) (n : Nat) : Hw :=
  if h.portState n = portOff ∧ (h.port n).syn ∧ !(h.strandList.any fun p => p.2.state != .idle && bodyPort p.2.body == n) then
    (h.setPort n { h.port n with syn := false }).refuseWaiting n
  else h

/-- The Strand becomes IDLE with a STATUS, and its result region is rewritten (R128, R275). -/
def Hw.toIdle (h : Hw) (s status : Nat) : Hw :=
  let t := h.strand s
  let h := if t.state = .idle then h else h.dropWork s
  let h := h.setStrand s { h.strand s with state := .idle, status := status, open_ := false, ended := none, items := 0, coilWork := false }
  let h := h.anchor s (match t.ended with | some e => e.nb | none => h.ringCount (bodyPort t.body))
  ((h.syncReset s).rewrite s).endSynthetic (bodyPort t.body)

/-- A torn read: the previous configuration stays, TORN is set and counted (R132). -/
def Hw.tornRead (h : Hw) (s : Nat) : Hw :=
  let t := h.strand s
  let h := h.setStrand s { t with torn := true, tornN := satTo 65535 (t.tornN + 1) }
  (h.sf FAB_CMTSTAT_TORN_ANY 1).rewrite s

end Sys2Proof.Machine
end

