-- ==== Sys2Proof/Machine/Fabric.lean ====
section
/-! DEFINITION. Splice engines and work stealing (chapter 4): integrations and their boundaries, work items and their deadlines, taking and
stealing, correlation, gathering, and the posting of loop tasks (R218 to R223). -/

namespace Sys2Proof.Machine

/-! ### Replica phases and boundaries (R161 to R172) -/

/-- One chip on the scale of a code phase. -/
def chipUnit : Nat := pow2 32

/-- The primary code length of a Strand, on the scale of its code phase. -/
def Strand.codeMod (t : Strand) : Nat := (bodySignal t.body).chips * chipUnit

/-- The INT code that acts. -/
def Strand.intCode (t : Strand) : Nat := effInt t.state (bodyInt t.body)

/-- The integration period that acts, in ms. -/
def Strand.ms (t : Strand) : Nat := intMs t.intCode

/-- The integration length L with 32 fraction bits (R170). -/
def Strand.intLen (t : Strand) : Nat := (bodySignal t.body).chipHz * t.ms * chipUnit / 1000

/-- N_b: the first ring sample at which J has wrapped (R171); none while the code rate is 0. -/
def Strand.boundary? (t : Strand) : Option Nat :=
  if t.codeRate = 0 then none else some (t.start + max 1 (ceilDiv (t.intLen - t.jph) t.codeRate))

/-- The phases of the integration in progress carried to ring count n at the working rates (R161, R162, R171). J is not yet reduced. -/
def Strand.phaseAt (t : Strand) (n : Nat) : Strand :=
  let k := n - t.start
  let x := t.phi + t.codeRate * k
  { t with
    start := n,
    phi := x % t.codeMod,
    prim := (t.prim + x / t.codeMod) % pow2 32,
    carrPh := ofInt 64 ((t.carrPh : Int) + toSigned 32 t.carrRate * (k : Int)),
    jph := t.jph + t.codeRate * k }

/-- The integration that starts at `t.start` is created (R174). -/
def Strand.openInt (t : Strand) : Strand :=
  { t with iseq := (t.iseq + 1) % 65536, open_ := true, nextItem := t.start, items := 0, starved := false, susp := false, gap := false,
           sums := List.replicate 32 0, ended := none }

/-- Code phase at a replica start (R125): from AID_CPH at AID_CNT when VALID and PHASE are 1, otherwise CP_START. -/
def replicaPhase (b : List Nat) (n : Nat) : Nat :=
  let m := (bodySignal b).chips * chipUnit
  if bit (bodyAidCtl b) 0 ∧ bit (bodyAidCtl b) 1 then
    let d := toSigned 32 (n + pow2 32 - bodyAidCnt b % pow2 32)
    (((bodyAidCph b * (bodySignal b).chips : Nat) : Int) + (bodyCode b : Int) * d).emod (m : Int) |>.toNat
  else bodyCpStart b * chipUnit % m

/-- A replica start at ring count n with code phase `phi` (R125): m is 0, J is Φ mod L, and the origins move to n. A secondary-code alignment
refers to the m of the replica before, so none is set any more (DESIGN CHOICE, assumption log 104). -/
def Strand.replicaStart (t : Strand) (n phi : Nat) : Strand :=
  let t := { t with start := n, phi := phi, prim := 0, jph := phi % t.intLen, replicaAt := n, carr0 := t.carrPh, eventAt := n, pullAcc := 0,
                    sec := none, bsync := { t.bsync with rate := 0 } }
  t.openInt

/-! ### Due keys (R182) -/

/-- The fabric's due clock: one count every 16 timing clocks. -/
def Hw.dueClock (h : Hw) : Nat := h.tcnt / 16

/-- The due key of a deadline on port n (R182), kept as an unbounded count; a key before the clock's zero is 0 (DESIGN CHOICE, assumption
log 105). -/
def Hw.dueKey (h : Hw) (n deadline : Nat) : Nat :=
  ((h.dueClock : Int) + ((deadline : Int) - (h.ringCount n : Int)) * ((30720 * h.dec n : Nat) : Int) / (h.rate n : Int)).toNat

/-- One due key sorts before another; no key sorts last. -/
def dueLt (a b : Option Nat) : Bool :=
  match a, b with
  | some x, some y => decide (x < y)
  | some _, none => true
  | none, _ => false

/-! ### Loop tasks posted (R218, R221, R223) -/

/-- Core c is live: enabled and not retired. -/
def Hw.coreLive (h : Hw) (c : Nat) : Bool := bit h.fuses.coreSet c && !bit h.pwr.coreRet c

/-- The live cores, lowest first. -/
def Hw.liveCores (h : Hw) : List Nat := (upTo 8).filter h.coreLive

/-- A live core without a task exists. -/
def Hw.coreFree (h : Hw) : Bool := h.liveCores.any fun c => (h.core c).run.isNone

/-- `a` is later than `b` by more than `hyst`. -/
def laterBy (a b : Option Nat) (hyst : Nat) : Bool :=
  match a, b with
  | some x, some y => decide (y + hyst < x)
  | none, some _ => true
  | _, none => false

/-- The due key of the task that core c runs. -/
def Hw.coreDue (h : Hw) (c : Nat) : Option Nat := match (h.core c).run with | some r => r.task.due | none => none

/-- Of two cores, the victim: the later due key, the lower number on a tie (R223). -/
def Hw.pickVictim (h : Hw) : List Nat → Option Nat
  | [] => none
  | c :: cs =>
    match h.pickVictim cs with
    | none => some c
    | some d => if dueLt (h.coreDue c) (h.coreDue d) then some d else some c

/-- A task that becomes ready while no core is free asks for a pre-emption (R223). -/
def Hw.preemptRequest (h : Hw) (due : Option Nat) : Hw :=
  if h.on LOOP_CTRL_PREEMPT_EN ∧ !h.coreFree then
    match h.pickVictim (h.liveCores.filter fun c => (h.core c).run.isSome && decide ((h.core c).saved.length < 7) && !(h.core c).preempt) with
    | none => h
    | some c => if laterBy (h.coreDue c) due (h.rf LOOP_CTRL_HYST) then h.setCore c { h.core c with preempt := true } else h
  else h

/-- Post a loop task (R218). -/
def Hw.postTask (h : Hw) (k : LoopTask) : Hw :=
  let k := { k with order := h.loop.order }
  let h := { h with loop := { h.loop with ready := h.loop.ready ++ [k], order := h.loop.order + 1 } }
  h.preemptRequest k.due

/-- The aiding words of a tracking task: the staged body's if it was staged before the port passed N_b, else the applied body's (R226). -/
def Strand.aidWords (t : Strand) (nb : Nat) : List Nat :=
  let b := match t.staged with
    | some (b, _) => if t.stagedAt ≤ nb then b else t.body
    | none => t.body
  (upTo 6).map fun i => bodyWord b (16 + i)

/-- The loop task of a completed tracking integration (R218, R221, Table 5.1); its INT_SEQ is the one of the result region written with it
(R128). -/
def Hw.trackTask (h : Hw) (s nb : Nat) (old : Strand) : LoopTask :=
  let t := old.phaseAt nb
  let limit := nb + ceilDiv old.intLen old.codeRate
  { strand := s, kind := 0, slot := bodyKernel old.body, due := some (h.dueKey (bodyPort old.body) limit), limit := some limit,
    order := 0,
    word0 := s + 2048 * b2n old.starved + 4096 * b2n old.susp + 8192 * b2n old.gap + 16384 * b2n old.reload +
      32768 * old.state.toNat + pow2 18 * old.intCode + pow2 24 * bodySig old.body,
    iseq := (old.intSeq + 1) % 65536, nb := nb, samples := nb - old.start, rates := (old.codeRate, old.carrRate),
    phi := t.phi, carrPh := t.carrPh, prim := t.prim, body := old.body, aid := old.aidWords nb,
    data := if old.starved then List.replicate 32 0 else old.sums, dead := false }

/-- An integration is complete (R186, R198): the result region is written and the loop task posted, unless the Strand is in COAST with
FAULTED, which gets no further task (Table 3.6). -/
def Hw.integrationComplete (h : Hw) (s nb : Nat) : Hw :=
  let t := h.strand s
  let posts := !(t.state == .coast && t.faulted)
  let k := h.trackTask s nb t
  let h := h.setStrand s { t with
    taps := if t.starved then List.replicate 32 0 else t.sums, intEnd := nb % pow2 32, open_ := false,
    ended := some ⟨nb, t.starved, t.susp, t.gap, none, false, false, posts⟩,
    starvedRuns := if t.starved then t.starvedRuns ++ [(t.start, nb)] else t.starvedRuns, reload := false }
  let h := h.rewrite s
  if posts then h.postTask k else h

/-- Complete the integration of Strand s if every one of its items is done and none is left to create (R186, R198). -/
def Hw.finishIntegration (h : Hw) (s : Nat) : Hw :=
  let t := h.strand s
  match t.boundary? with
  | some nb => if t.open_ ∧ t.items = 0 ∧ (t.starved ∨ nb ≤ t.nextItem) then h.integrationComplete s nb else h
  | none => h

/-! ### Work items (R175 to R182) -/

/-- The deadline of a TRACK item (Table 4.5). -/
def Hw.trackDeadline (h : Hw) (n first nb : Nat) : Nat :=
  let margin := max 1 (h.rf FAB_CTRL_TRK_MARGIN)
  min (nb + 2048 * margin) (first + h.ringLen n - 2048)

/-- Block b of port n has GAP set, so no item is created for it: each such block counts once in GAPITEMS (R177). -/
def Hw.gapBlock (h : Hw) (n b : Nat) : Hw :=
  let p := h.port n
  if h.portState n = portOff ∨ p.gapMet.contains b then h
  else (h.setPort n { p with gapMet := b :: p.gapMet }).bump FAB_TALLY1_GAPITEMS

/-- Create the items of Strand s for the ring blocks whose tags are written, up to the end of its integration (R175 to R177); creation waits
while the issue queue is full. `fuel` bounds the number of blocks. -/
def Hw.makeItems (h : Hw) (s : Nat) : Nat → Hw
  | 0 => h
  | fuel + 1 =>
    let t := h.strand s
    let n := bodyPort t.body
    let p := h.port n
    match t.boundary? with
    | none => h
    | some nb =>
      let b := t.nextItem / 2048
      if !t.open_ ∨ t.starved ∨ nb ≤ t.nextItem ∨ p.nextTag ≤ b ∨ (!p.isGap b ∧ p.untagged b) then h
      else
        let e := min ((b + 1) * 2048) nb
        if p.isGap b then
          let h := h.gapBlock n b
          (h.setStrand s { t with gap := true, nextItem := e }).makeItems s fuel
        else if h.fab.issue.length < 256 then
          let dl := h.trackDeadline n t.nextItem nb
          let it : Item :=
            { strand := s, kind := .track, port := n, last := e == nb, susp := p.isSuspect b, iseq := t.iseq, period := 0,
              first := t.nextItem, len := e - t.nextItem, group := 0, tag := 0, deadline := some dl, due := some (h.dueKey n dl) }
          let h := { h with fab := { h.fab with issue := h.fab.issue ++ [it] } }
          (h.setStrand s { t with items := t.items + 1, susp := t.susp || it.susp, nextItem := e }).makeItems s fuel
        else h

/-- Create what can be created for Strand s, and complete its integration if nothing is left of it (R176, R198). -/
def Hw.trackWork (h : Hw) (s : Nat) : Hw := (h.makeItems s 1024).finishIntegration s

/-- The samples of one coherent period, T_c and S_c (R202). -/
def Hw.coherent (h : Hw) (t : Strand) : Nat × Nat :=
  let n := bodyPort t.body
  let fits := fun tc : Nat => decide (tc * h.rate n ≤ (h.ringLen n - 4096) * h.dec n)
  let tc := if fits t.ms then t.ms else (([20, 10, 5, 4, 2, 1].find? fits).getD 1)
  (tc, tc * h.rate n / h.dec n)

/-- Code groups of a tranche (R205, R262). -/
def Tranche.groups (r : Tranche) : Nat := ceilDiv r.hyps 16

/-- Create the ready SEARCH items of tranche entry i (R205, R210). -/
def Hw.makeSearchItems (h : Hw) (i : Nat) : Nat → Hw
  | 0 => h
  | fuel + 1 =>
    match h.tranche i with
    | none => h
    | some r =>
      match r.start with
      | none => h
      | some st =>
        if r.snap then h
        else
          let g := r.groups
          if r.dwell * g ≤ r.created then h
          else
            let d := r.created / g
            let first := st + d * r.samples
            let b0 := first / 2048
            let b1 := (first + r.samples - 1) / 2048
            let n := bodyPort (h.strand r.strand).body
            let p := h.port n
            if p.nextTag ≤ b1 ∨ p.untagged b1 then h
            else if (upTo (b1 + 1 - b0)).any (fun k => p.isGap (b0 + k)) then
              let h := forEach (fun k h => if (h.port n).isGap (b0 + k) then h.gapBlock n (b0 + k) else h) (upTo (b1 + 1 - b0)) h
              (h.setTranche i (some { r with gap := true, created := (d + 1) * g })).makeSearchItems i fuel
            else if h.fab.issue.length < 256 then
              let dl := first + h.ringLen n - 2048
              let it : Item :=
                { strand := r.strand, kind := .search, port := n, last := false,
                  susp := (upTo (b1 + 1 - b0)).any (fun k => p.isSuspect (b0 + k)), iseq := i, period := d, first := first,
                  len := r.samples, group := r.created % g, tag := r.id, deadline := some dl, due := some (h.dueKey n dl) }
              let h := { h with fab := { h.fab with issue := h.fab.issue ++ [it] } }
              (h.setTranche i (some { r with created := r.created + 1, items := r.items + 1, susp := r.susp || it.susp })).makeSearchItems i fuel
            else h

/-- Create the SNAP items of tranche entry i, all ready at once; FIRST is a Coil sample index (R340). The issue queue has room for 256, so 257 turns
are enough. -/
def Hw.makeSnapItems (h : Hw) (i : Nat) : Nat → Hw
  | 0 => h
  | fuel + 1 =>
    match h.tranche i with
    | none => h
    | some r =>
      let g := r.groups
      if !r.snap ∨ r.start.isNone ∨ r.dwell * g ≤ r.created ∨ 256 ≤ h.fab.issue.length then h
      else
        let n := bodyPort (h.strand r.strand).body
        let js := ((h.port n).cap).getD 0
        let d := r.created / g
        let b0 := (js + d * r.samples) / 2048
        let b1 := (js + d * r.samples + r.samples - 1) / 2048
        let it : Item :=
          { strand := r.strand, kind := .snap, port := n, last := false,
            susp := (upTo (b1 + 1 - b0)).any (fun k => (h.port n).isSuspect (b0 + k)), iseq := i, period := d,
            first := 2 * h.rf (SP_RING_BASE n) * 65536 + (js + d * r.samples) % h.ringLen n, len := r.samples, group := r.created % g,
            tag := r.id, deadline := none, due := none }
        let h := { h with fab := { h.fab with issue := h.fab.issue ++ [it] } }
        (h.setTranche i (some { r with created := r.created + 1, items := r.items + 1, susp := r.susp || it.susp })).makeSnapItems i fuel

/-! ### Search results (R206 to R211) -/

/-- The peaks of a tranche, largest power first, ties to the lower hypothesis; at most three (R209). -/
def topInsert (p : Nat × Nat) : List (Nat × Nat) → List (Nat × Nat)
  | [] => [p]
  | q :: qs => if q.1 < p.1 ∨ (q.1 = p.1 ∧ p.2 < q.2) then p :: q :: qs else q :: topInsert p qs

/-- The three largest cells of a list of (hypothesis, power). -/
def topThree (cells : List (Nat × Nat)) : List (Nat × Nat) :=
  (cells.foldl (fun acc c => topInsert (c.2, c.1) acc) []).take 3

/-- The words 0x20 onwards of a tranche task: bin, T_c, the three peaks with their hypotheses (numbered over the whole window, R201; those of a
verify tranche from 0 to 31, R262), the sum (two words), the cell count, whether
it is the verify tranche, the largest power more than 2 hypotheses from the first peak (R340), the periods, and SUSP. The specification names what the task carries (R210) but gives no layout for it (assumption log 16). -/
def Tranche.taskWords (r : Tranche) : List Nat :=
  let from_ := if r.verify then 0 else r.hyp0
  let cells := (upTo r.hyps).map fun k => (from_ + k, Store.get (fun _ => 0) r.cells k)
  let top := topThree cells
  let pk := fun i => top.getD i (0, 0)
  let sum := (cells.map (·.2)).sum
  [ofInt 32 r.bin, r.tc, (pk 0).1, (pk 0).2, (pk 1).1, (pk 1).2, (pk 2).1, (pk 2).2, sum % pow2 32, sum / pow2 32, r.hyps, b2n r.verify,
    ((cells.filter fun c => decide (2 < ((c.1 : Int) - ((pk 0).2 : Int)).natAbs)).map (·.2)).foldl max 0, r.dwell, b2n r.susp]

/-- TRANCHE_COMPLETE (R210): when every item is done, a task goes to K4 and the entry and its cell unit are freed. -/
def Hw.finishTranche (h : Hw) (i : Nat) : Hw :=
  match h.tranche i with
  | none => h
  | some r =>
    if r.start.isSome ∧ r.dwell * r.groups ≤ r.created ∧ r.items = 0 then
      let h := h.setTranche i none
      let t := h.strand r.strand
      let first := if r.verify then r.start.getD 0 else t.search.verFirst
      let se := { t.search with inFlight := t.search.inFlight - 1, tasks := t.search.tasks + 1, verFirst := first }
      let h := h.setStrand r.strand { t with search := se }
      h.postTask
        { strand := r.strand, kind := if r.snap then 2 else 1, slot := if r.snap then 5 else 4, due := none, limit := none, order := 0,
          word0 := r.strand + 512 * (if r.snap then 2 else 1) + 2048 * b2n r.starved + 4096 * b2n r.susp + 8192 * b2n r.gap + 32768 * t.state.toNat +
            pow2 18 * t.intCode + pow2 24 * bodySig t.body,
          iseq := t.intSeq, nb := 0, samples := r.samples, rates := (t.codeRate, t.carrRate), phi := 0, carrPh := 0, prim := 0,
          body := t.body, aid := t.aidWords 0, data := r.taskWords, dead := false }
    else h

/-- Create what can be created of tranche entry i, and report it if nothing is left. -/
def Hw.searchWork (h : Hw) (i : Nat) : Hw := (h.makeSearchItems i 40000).finishTranche i

/-- The tranche entries in use. -/
def Hw.trancheList (h : Hw) : List Nat := (upTo 64).filter fun i => (h.tranche i).isSome

/-- After room or a tag: every Strand of port n, and every tranche, creates what it can (R176, R205). -/
def Hw.portWork (h : Hw) (n : Nat) : Hw :=
  let ss := (h.strandList.filter fun p => p.2.state.tracking && bodyPort p.2.body == n).map (·.1)
  let h := forEach (fun s h => h.trackWork s) ss h
  forEach (fun i h => match h.tranche i with
    | some r => if bodyPort (h.strand r.strand).body = n then h.searchWork i else h
    | none => h) h.trancheList h

/-! ### Starvation (R183 to R187) -/

/-- A TRACK integration becomes starved: its untaken items are withdrawn and counted (R185); it completes when no item of it runs (R186). -/
def Hw.starveIntegration (h : Hw) (s : Nat) : Hw :=
  let t := h.strand s
  let (k, h) := h.withdraw s (fun it => it.kind == .track && it.iseq == t.iseq)
  let h := h.bumpBy FAB_TALLY0_WITHDRAWN k
  let h := h.setStrand s { h.strand s with starved := true, items := t.items - k }
  h.finishIntegration s

/-- The tranche that a long item belongs to; none once that tranche has been withdrawn, even if its entry is in use again (R188, R200). -/
def Hw.trancheOf (h : Hw) (it : Item) : Option Tranche :=
  match h.tranche it.iseq with
  | some r => if r.id = it.tag then some r else none
  | none => none

/-- What starving does to the work the item belongs to (R185, R210). -/
def Hw.starveWork (h : Hw) (it : Item) : Hw :=
  match it.kind with
  | .track =>
    let t := h.strand it.strand
    if t.open_ ∧ t.iseq = it.iseq then (h.setStrand it.strand { t with items := t.items - 1 }).starveIntegration it.strand else h
  | _ =>
    match h.trancheOf it with
    | none => h
    | some r => (h.setTranche it.iseq (some { r with items := r.items - 1, starved := true })).finishTranche it.iseq

/-- An item starves (R184): STARVED of its Strand and of the fabric increase, and its integration or tranche is told. -/
def Hw.starveItem (h : Hw) (it : Item) : Hw :=
  let t := h.strand it.strand
  let h := h.setStrand it.strand { t with starvedN := satTo 65535 (t.starvedN + 1) }
  (h.bump FAB_TALLY0_STARVED).starveWork it

/-- The port of the item has reached its deadline: the difference is a signed 32-bit value (R181). -/
def Hw.pastDeadline (h : Hw) (it : Item) : Bool :=
  match it.deadline with
  | some d => decide (0 ≤ toSigned 32 (h.ringCount it.port + pow2 32 - d % pow2 32))
  | none => false

/-! ### Homes, deques, taking and stealing (R169, R178, R189 to R196) -/

/-- Engines in the home order: index by index across the clusters, live and not resting (R169). -/
def Hw.homeOrder (h : Hw) : List Nat :=
  ((upTo 32).map fun k => 8 * (k % 4) + k / 4).filter fun e => h.engLive e && !(h.engine e).rest

/-- The home engine of Strand s (R169). -/
def Hw.home (h : Hw) (s : Nat) : Option Nat :=
  let l := h.homeOrder
  if l.isEmpty then none else l[s % l.length]?

/-- The order of a deque: due key, then Strand, then FIRST (R166). -/
def Item.before (a b : Item) : Bool :=
  dueLt a.due b.due || (!dueLt b.due a.due &&
    (decide (a.strand < b.strand) || (a.strand == b.strand && decide (a.first % pow2 32 < b.first % pow2 32))))

/-- An item in its place in a deque. -/
def dequeInsert (it : Item) : List Item → List Item
  | [] => [it]
  | x :: xs => if it.before x then it :: x :: xs else x :: dequeInsert it xs

/-- A SEARCH or SNAP item. -/
def Item.long (it : Item) : Bool := it.kind != .track

/-- Engines running long items (R190). -/
def Hw.longRunning (h : Hw) : Nat :=
  (h.fab.engines.filter fun e => match e.2.cur with | some it => it.long | none => false).length

/-- The long-item gate admits the item (R190). -/
def Hw.gate (h : Hw) (it : Item) : Bool :=
  !it.long || decide (h.longRunning < min (h.rf FAB_CTRL_LONG_MAX) h.liveEngines.length)

/-- The items that waited for room in the issue queue are created (R176). -/
def Hw.refill (h : Hw) : Hw :=
  let h := forEach (fun n h => h.portWork n) (upTo 4) h
  forEach (fun i h => h.makeSnapItems i 257) h.trancheList h

/-- The part with the issue queue changed. -/
def Hw.setIssue (h : Hw) (q : List Item) : Hw := { h with fab := { h.fab with issue := q } }

/-- The item at the head of the issue queue, whose rest is `rest`, moves into the deque of its home engine if that has room (R178); past its deadline
it starves (R183). -/
def Hw.headToDeque (h : Hw) (it : Item) (rest : List Item) (e : Nat) : Hw :=
  let g := h.engine e
  if g.deque.length < 16 then
    let h := h.setIssue rest
    if h.pastDeadline it then (h.starveItem it).refill
    else (h.setEngine e { g with deque := dequeInsert it g.deque }).refill
  else h

/-- The same where the item's Strand has a home engine. -/
def Hw.headHome (h : Hw) (it : Item) (rest : List Item) : Hw :=
  if (h.home it.strand).isNone then h else h.headToDeque it rest ((h.home it.strand).getD 0)

/-- The head of the issue queue moves on. -/
def Hw.dispatchHead (h : Hw) : Hw :=
  match h.fab.issue with
  | [] => h
  | it :: rest => h.headHome it rest

/-- DISPATCH_TO_DEQUE: items that found no room are created as soon as there is room (R176), and the head of the queue moves on. -/
def Hw.dispatchItem (h : Hw) : Hw := h.refill.dispatchHead

/-- Waiting items of engine e. -/
def Hw.waiting (h : Hw) (e : Nat) : Nat := (h.engine e).deque.length

/-- The engine with the most waiting items, the first in the list on a tie. -/
def Hw.mostWaiting (h : Hw) : List Nat → Option Nat
  | [] => none
  | e :: es =>
    match h.mostWaiting es with
    | none => some e
    | some f => if h.waiting e < h.waiting f then some f else some e

/-- Engine v may be stolen from with threshold `k`: live with at least `k` waiting, or resting with any (R192, R214). -/
def Hw.victimOk (h : Hw) (k v : Nat) : Bool :=
  h.engLive v && (decide (max 1 k ≤ h.waiting v) || ((h.engine v).rest && decide (0 < h.waiting v)))

/-- The victim that engine e chooses (R192, R214). -/
def Hw.chooseVictim (h : Hw) (e : Nat) : Option Nat :=
  let c := e / 8
  let i := e % 8
  let own := ((upTo 7).map fun k => 8 * c + (i + 1 + k) % 8).filter (h.victimOk (h.rf FAB_CTRL_STEAL_MIN))
  match h.mostWaiting own with
  | some v => some v
  | none =>
    let xk := h.rf FAB_CTRL_XSTEAL_MIN
    let open_ := h.on FAB_CTRL_XCL_EN
    let cluster := fun k => (((upTo 8).map fun j => 8 * ((c + k) % 4) + (i + j) % 8).filter fun v =>
      if open_ then h.victimOk xk v else (h.engine v).rest && h.victimOk xk v)
    [1, 2, 3].findSome? fun k => h.mostWaiting (cluster k)

/-- A list without one element. -/
def removeItem (it : Item) : List Item → List Item
  | [] => []
  | x :: xs => if x = it then xs else x :: removeItem it xs

/-- An engine that has taken an item runs it, or starves it when its deadline is past (R183). -/
def Hw.begin (h : Hw) (e : Nat) (it : Item) : Hw :=
  if h.pastDeadline it then h.starveItem it else h.setEngine e { h.engine e with cur := some it }

/-- ENGINE_TAKE: an engine without a current item takes from its own deque, or steals (R189 to R196). -/
def Hw.engineTake (h : Hw) (e : Nat) : Hw :=
  let g := h.engine e
  if !h.engLive e ∨ g.cur.isSome ∨ g.rest then h
  else match g.deque.find? h.gate with
    | some it => (h.setEngine e { g with deque := removeItem it g.deque }).begin e it
    | none =>
      if !h.on FAB_CTRL_STEAL_EN then h
      else match h.chooseVictim e with
        | none => h
        | some v =>
          let w := h.engine v
          match w.deque.reverse.find? h.gate with
          | none => h
          | some it =>
            let h := h.setEngine v { w with deque := removeItem it w.deque }
            let h := h.bump (FAB_ENGSTAT_THEFTS e)
            let h := h.bump (if v / 8 = e / 8 then FAB_STEALS_LOCAL else FAB_STEALS_CROSS)
            h.begin e it

/-- REAPER_SWEEP: every waiting item past its deadline starves (R183). -/
def Hw.reaperSweep (h : Hw) : Hw :=
  let late := (h.fab.issue ++ (h.fab.engines.flatMap fun e => e.2.deque)).filter h.pastDeadline
  let h := forEach (fun it h =>
    let present := h.fab.issue.contains it || h.fab.engines.any fun e => e.2.deque.contains it
    if present then
      let h := { h with fab := { h.fab with issue := removeItem it h.fab.issue } }
      let h := forEach (fun e h => let g := h.engine e; h.setEngine e { g with deque := removeItem it g.deque })
        (h.fab.engines.map (·.1)) h
      h.starveItem it
    else h) late h
  h.refill

/-! ### Correlation (R157 to R164, R206) -/

/-- The carrier replica (Table 4.1). -/
def carrierReplica (k : Nat) : Int × Int :=
  [((2 : Int), (1 : Int)), (1, 2), (-1, 2), (-2, 1), (-2, -1), (-1, -2), (1, -2), (2, -1)].getD k (2, 1)

/-- The value of two bits of a ring sample (Table 2.5). -/
def sampleValue (b : Nat) : Int := match b % 4 with | 0 => 1 | 1 => 3 | 2 => -1 | _ => -3

/-- The offset of tap t from prompt in 1/32 chip (R120). -/
def tapOffset (b : List Nat) (t : Nat) : Int :=
  let din : Int := bodyDllIn b
  let dout : Int := bodyDllOut b
  let c : Int := bodyComb b
  [0, -din, din, -dout, dout, -4 * c, -3 * c, -2 * c, -c, c, 2 * c, 3 * c, 4 * c, 5 * c, 6 * c, 7 * c].getD t 0

/-- The code value of a tap at code phase φ (R159, Table 4.2); `s` is the secondary chip. -/
def codeValue (b : List Nat) (s : Int) (phase : Nat) : Int :=
  let chip : Int := if Config.primaryChip (bodySig b) (bodySat b) (bodyFch b) (phase / chipUnit) then -1 else 1
  let late := bit phase 31
  let v := match (bodySignal b).replica with
    | .bpsk => chip
    | .boc => if late then -chip else chip
    | .cm => if late then 0 else chip
    | .cl => if late then chip else 0
  s * v

/-- The secondary chip of primary period m, +1 until the alignment is set (R164). -/
def Strand.secondary (t : Strand) (m : Nat) : Int :=
  match t.sec with
  | none => 1
  | some (idx, m0) =>
    let len := (bodySignal t.body).secLen
    if len = 0 then 1
    else if Config.secondaryChip (bodySig t.body) (bodySat t.body) ((((idx : Int) + (m : Int) - (m0 : Int)).emod (len : Int)).toNat)
      then -1 else 1

/-- The carrier-wiped sample (R157, R158): a 4-bit ring sample and the fraction of the carrier phase. -/
def wiped (v phase : Nat) : Int × Int :=
  let (cr, ci) := carrierReplica (bits phase 29 3)
  let si := sampleValue v
  let sq := sampleValue (v / 4)
  (si * cr + sq * ci, sq * cr - si * ci)

/-- The sums of one tap over `len` samples from `first` of a tracking integration (R160 to R163). -/
def Hw.tapSum (h : Hw) (t : Strand) (n : Nat) (off : Int) (first : Nat) : Nat → Int × Int
  | 0 => (0, 0)
  | len + 1 =>
    let j := first + len
    let q := t.phaseAt j
    let w := wiped (h.ringSample n j) q.carrPh
    let ph := (((q.phi : Int) + off * 134217728).emod (t.codeMod : Int)).toNat
    let x := codeValue t.body (t.secondary q.prim) ph
    let (i, r) := h.tapSum t n off first len
    (i + w.1 * x, r + w.2 * x)

/-- The 32 words of a TRACK item: for every tap I then Q, modulo 2^32 (R160). -/
def Hw.trackSums (h : Hw) (it : Item) : List Nat :=
  let t := h.strand it.strand
  (upTo 16).flatMap fun k =>
    let (i, q) := h.tapSum t it.port (tapOffset t.body k) it.first it.len
    [ofInt 32 i, ofInt 32 q]

/-- The bin step W of R203 in CARR_RATE units: the bin width × 2^32 / ring rate, rounded to nearest. -/
def Hw.binStep (h : Hw) (n tc : Nat) : Nat :=
  let num := 500 * pow2 32 * h.dec n
  let den := tc * h.rate n * 1000
  (2 * num + den) / (2 * den)

/-- The code phase of hypothesis k of a tranche at its first sample, modulo P (R201, R262). -/
def Tranche.hypPhase (r : Tranche) (b : List Nat) (k : Nat) : Nat :=
  let m : Int := (((bodySignal b).chips * chipUnit : Nat) : Int)
  let half : Int := (pow2 31 : Nat)
  let base : Int := (bodyCpStart b : Int) * (chipUnit : Nat)
  let idx : Int := (r.hyp0 : Int) + (k : Int) - (if r.verify then 15 else 0)
  ((base + idx * half).emod m).toNat

/-- The sums of one hypothesis over a coherent period (R160 to R162). -/
def searchSum (get : Nat → Nat) (b : List Nat) (carr : Int) (rate ph0 cph : Nat) (off : Nat) : Nat → Int × Int
  | 0 => (0, 0)
  | len + 1 =>
    let m := (bodySignal b).chips * chipUnit
    let w := wiped (get len) (ofInt 32 ((cph : Int) + carr * (len : Int)))
    let x := codeValue b 1 ((ph0 + rate * (off + len)) % m)
    let (i, q) := searchSum get b carr rate ph0 cph off len
    (i + w.1 * x, q + w.2 * x)

/-- The 16 powers of a SEARCH or SNAP item (R205, R206). -/
def Hw.searchPowers (h : Hw) (it : Item) (r : Tranche) (get : Nat → Nat) : List Nat :=
  let t := h.strand it.strand
  let carr := toSigned 32 (bodyCarr t.body) + r.bin * ((h.binStep it.port r.tc : Nat) : Int)
  (upTo 16).map fun k =>
    let ph := r.hypPhase t.body (16 * it.group + k)
    let (i, q) := searchSum get t.body carr t.codeRate ph (Config.searchPhase it.strand).toNat (it.period * it.len) it.len
    satTo (pow2 32 - 1) ((i * i + q * q).toNat / pow2 (h.rf FAB_CTRL_PSHIFT))

/-- An item that met an uncorrectable error or a refused read is handled as starved (R187, R711). -/
def Hw.failItem (h : Hw) (e : Nat) (it : Item) : Hw := (h.setEngine e { h.engine e with cur := none }).starveItem it

/-- The 64-bit words of accumulator slot p of engine e, as keys of the table of words with an error (R24). -/
def slotWords (e p : Nat) : List Nat := (upTo 16).map fun k => accKey e (128 * p + 8 * k)

/-- The lowest free slot of an engine's accumulator memory; which free slot is taken is not stated (DESIGN CHOICE, assumption log 106). -/
def Engine.freeSlot (g : Engine) : Nat := ((upTo 32).find? fun p => g.slots.all fun s => s.place != p).getD 0

/-- A finished item enters an accumulator slot, whose words are written whole (R167). -/
def Hw.putSlot (h : Hw) (e : Nat) (it : Item) (sums : List Nat) : Hw :=
  let g := h.engine e
  let h := forEach (fun a h => h.setEcc a 0) (slotWords e g.freeSlot) h
  let h := h.setEngine e { g with cur := none, slots := g.slots ++ [⟨it, h.fab.order, g.freeSlot, sums⟩] }
  { h with fab := { h.fab with order := h.fab.order + 1 } }

/-- A ring position of the first sample of an item: its ring count, or its Coil index within the port's region (R340). -/
def Hw.itemFrom (h : Hw) (it : Item) : Nat := if it.kind = .snap then it.first - 2 * h.rf (SP_RING_BASE it.port) * 65536 else it.first

/-- The addresses of the 64-bit words of sample memory that an item reads. -/
def Hw.itemWords (h : Hw) (it : Item) : List Nat :=
  (upTo (it.len / 16 + 2)).map fun k => h.ringAddr it.port (h.itemFrom it + min (16 * k) (it.len - 1)) / 8 * 8

/-- ITEM_COMPLETE (R160, R167, R187, R206, R711): the current item of engine e is done; with all 32 slots taken the engine waits (R168). -/
def Hw.itemComplete (h : Hw) (e : Nat) : Hw :=
  let g := h.engine e
  match g.cur with
  | none => h
  | some it =>
    if 32 ≤ g.slots.length then h
    else
      let ws := h.itemWords it
      match ws.find? fun a => !h.mpuOk .fabric a false with
      | some a => ((h.mpuRecord 0x20 a false).report 4 2 0x20 a it.strand).failItem e it
      | none =>
        match ws.find? fun a => decide (2 ≤ h.eccAt a) with
        | some a =>
          ((((h.bump MEM_ECC_UE).sf MEM_ECCADDR_ADDR a).bump FAB_TALLY1_ECCFAIL).report 4 1 0x20 a it.strand).failItem e it
        | none =>
          let h := forEach (fun a h => if h.eccAt a = 1 then (h.bump MEM_ECC_CE).setEcc a 0 else h) ws h
          match it.kind with
          | .track => h.putSlot e it (h.trackSums it)
          | _ =>
            match h.trancheOf it with
            | some r => h.putSlot e it (h.searchPowers it r fun k => h.ringSample it.port (h.itemFrom it + k))
            | none => h.putSlot e it (List.replicate 16 0)

/-! ### Gathering (R197, R198, R209) -/

/-- Sums modulo 2^32, element by element (R197). -/
def addSums : List Nat → List Nat → List Nat
  | a :: as, b :: bs => ((a + b) % pow2 32) :: addSums as bs
  | _, _ => []

/-- The powers of an item added into the cells of its tranche: hypotheses at or above the tranche's count are discarded (R205, R209). -/
def addCells (base hyps : Nat) (cells : List (Nat × Nat)) : List Nat → List (Nat × Nat)
  | [] => cells
  | p :: ps =>
    let cells := if base < hyps then
        Store.set (fun _ => 0) cells base (satTo (pow2 32 - 1) (Store.get (fun _ => 0) cells base + p)) else cells
    addCells (base + 1) hyps cells ps

/-- The oldest finished item of cluster c: engine and slot. -/
def Hw.oldestSlot (h : Hw) (c : Nat) : Option (Nat × Slot) :=
  ((upTo 8).map (8 * c + ·)).foldl (fun acc e =>
    match (h.engine e).slots with
    | [] => acc
    | s :: _ => match acc with
      | none => some (e, s)
      | some (f, u) => if s.order < u.order then some (e, s) else some (f, u)) none

/-- The sums of a finished item enter the integration or the tranche it belongs to (R197, R209, R210); those of dropped work go nowhere. -/
def Hw.gatherSums (h : Hw) (it : Item) (sums : List Nat) : Hw :=
  match it.kind with
  | .track =>
    let t := h.strand it.strand
    if t.open_ ∧ t.iseq = it.iseq then
      let h := h.setStrand it.strand { t with items := t.items - 1, sums := if t.starved then t.sums else addSums t.sums sums }
      h.finishIntegration it.strand
    else h
  | _ =>
    match h.trancheOf it with
    | none => h
    | some r =>
      let h := h.setTranche it.iseq (some { r with items := r.items - 1, cells := addCells (16 * it.group) r.hyps r.cells sums })
      h.finishTranche it.iseq

/-- GATHER: the gatherer of cluster c drains one slot (R197 to R199). An uncorrectable error of the slot makes the item starved (R187); a
single-bit error is corrected and counted (R396). -/
def Hw.gather (h : Hw) (c : Nat) : Hw :=
  match h.oldestSlot c with
  | none => h
  | some (e, sl) =>
    let g := h.engine e
    let ws := slotWords e sl.place
    let bad := ws.any h.unreadable
    let h := h.setEngine e { g with slots := g.slots.drop 1 }
    if bad then
      (((h.bump MEM_ECC_UE).bump FAB_TALLY1_ECCFAIL).report 4 1 0x20 0 sl.item.strand).starveItem sl.item
    else (forEach (fun a h => h.correct a) ws h).gatherSums sl.item sl.sums

end Sys2Proof.Machine
end

