-- ==== Sys2Proof/Machine/Commit.lean ====
section
/-! DEFINITION. The commit protocol and the strand state machine (chapter 3): pick-up, scans and doorbells, the application of a staged body
with its transition of Table 3.6, and the snapshot work that an applied SNAPSHOT body starts (R338, R339). -/

namespace Sys2Proof.Machine

/-! ### Snapshot work (R338 to R341) -/

/-- The states of a capture (COIL_STAT.STATE). -/
def coilEmpty : Nat := 0
def coilArmed : Nat := 1
def coilFilling : Nat := 2
def coilHeld : Nat := 3
def coilAborted : Nat := 4

/-- The state of the capture. -/
def Hw.coilState (h : Hw) : Nat := h.rf COIL_STAT_STATE

/-- Port n is selected for a capture. -/
def Hw.coilPort (h : Hw) (n : Nat) : Bool := bit h.coil.ports n

/-- B_n of port n for the length in COIL_CTRL (R330). -/
def Hw.coilLength (h : Hw) (n : Nat) : Nat := ceilDiv (h.rf COIL_CTRL_LEN_MS * h.rate n / h.dec n) 2048

/-- B_n of the capture. -/
def Hw.coilBlocks (h : Hw) (n : Nat) : Nat := h.coil.blocks.getD n 0

/-- The address of the state block of Strand s (Table 5.3). -/
def stateBlock (s : Nat) : Nat := 0x12000000 + 128 * s

/-- The snapshot work of Strand s completes with NOCOIL: the result stands in its state block and the Strand becomes IDLE with OK (R339, R341,
Table 3.6). The other words of such a result are not stated: free values. -/
def Hw.snapDone (h : Hw) (s word12 : Nat) : Hw :=
  let (v, h) := h.freshWords 8
  (h.putWords (stateBlock s + 32) (v.take 4 ++ [word12] ++ v.drop 5)).toIdle s 0

/-- The snapshot work of Strand s starts, waits for HELD, or completes with NOCOIL (R338, R339). -/
def Hw.snapCheck (h : Hw) (s : Nat) : Hw :=
  let t := h.strand s
  if t.state ≠ .snapshot ∨ t.coilWork then h
  else if h.coilState = coilEmpty ∨ h.coilState = coilAborted ∨ !h.coilPort (bodyPort t.body) then h.snapDone s (pow2 27)
  else if h.coilState = coilHeld then
    h.setStrand s { t with coilWork := true, search := Search.start, snap := SnapBest.start }
  else h

/-- Every SNAPSHOT Strand looks at the capture again. -/
def Hw.snapCheckAll (h : Hw) : Hw :=
  forEach (fun s h => h.snapCheck s) ((h.strandList.filter fun p => p.2.state == .snapshot).map (·.1)) h

/-- The capture is lost to snapshot work in progress: it completes with NOCOIL (R339). -/
def Hw.snapLost (h : Hw) : Hw :=
  forEach (fun s h => h.snapDone s (pow2 27)) ((h.strandList.filter fun p => p.2.state == .snapshot).map (·.1)) h

/-! ### Transitions (Table 3.6) -/

/-- Load the rates of the body (R121); the multipath estimate is invalid until the next fit (R251). -/
def Strand.loadRates (t : Strand) (b : List Nat) : Strand :=
  { t with codeRate := bodyCode b, carrRate := bodyCarr b, reload := true, mpv := false }

/-- The state that an applied body with EN = 1 leads to, and whether it loads rates; none where Table 3.6 refuses it. -/
def commitTarget (st : StrandState) (faulted : Bool) (mode : Nat) : Option (StrandState × Bool) :=
  match st with
  | .idle =>
    match mode with
    | 1 => some (.search, true)
    | 2 | 3 | 4 => some (.pullIn, true)
    | 6 => some (.snapshot, true)
    | _ => none
  | .search =>
    match mode with
    | 1 => some (.search, true)
    | 2 | 3 | 4 => some (.search, false)
    | _ => none
  | .pullIn =>
    match mode with
    | 1 => some (.search, true)
    | 2 | 3 | 4 => some (.pullIn, false)
    | _ => none
  | .track =>
    match mode with
    | 1 => some (.search, true)
    | 2 => some (.pullIn, true)
    | 3 => some (.track, false)
    | 4 => some (.vector, false)
    | 5 => some (.coast, false)
    | _ => none
  | .vector =>
    match mode with
    | 1 => some (.search, true)
    | 2 => some (.pullIn, true)
    | 3 => some (.track, false)
    | 4 => some (.vector, false)
    | 5 => some (.coast, false)
    | _ => none
  | .coast =>
    match mode with
    | 1 => some (.search, true)
    | 2 => some (.pullIn, true)
    | 3 | 4 | 5 => some (if faulted then (.pullIn, true) else (.coast, false))
    | _ => none
  | .snapshot => none

/-- What entering a state changes beside STATE: the times of PULL_IN and COAST, and the bit synchroniser (R145, R275). -/
def Hw.enterState (h : Hw) (s : Nat) (st : StrandState) : Hw :=
  let t := h.strand s
  if t.state = st then h
  else
    let h := h.setStrand s { t with
      state := st,
      coastMs := if st = .coast then 0 else t.coastMs, coastAcc := if st = .coast then 0 else t.coastAcc,
      pullAcc := if st = .pullIn then 0 else t.pullAcc, search := if st = .search then Search.start else t.search }
    if st = .pullIn ∨ st = .search then h.syncReset s else h

/-- Integration phase when the period that acts has changed from the INT code `old` (R172). -/
def Strand.rephase (t : Strand) (old : Nat) : Strand := if t.intCode = old then t else { t with jph := t.phi % t.intLen }

/-- A body with EN = 0 is applied: the Strand, `t` with the old body, becomes IDLE with OK (Table 3.6), and its records name the new body (R296). -/
def Hw.applyOff (h : Hw) (s : Nat) (t : Strand) (b : List Nat) : Hw :=
  let h := (h.setStrand s t).toIdle s 0
  let n := bodyPort b
  let at_ := if bodyPort t.body = n then ((h.strand s).anchors.head?.map (·.at_)).getD 0 else h.ringCount n
  (h.setStrand s { h.strand s with body := b }).anchor s at_

/-- Apply the staged body of Strand s at ring count n (R135, R137, R145, Table 3.6). -/
def Hw.applyStaged (h : Hw) (s n : Nat) : Hw :=
  let t := h.strand s
  match t.staged with
  | none => h
  | some (b, gen) =>
    let was := t.state
    let code := t.intCode
    let ok := { t with body := b, staged := none, appliedGen := gen, status := 0, torn := false, faulted := false }
    if !bodyEn b then
      h.applyOff s { ok with body := t.body } b
    else match commitTarget was t.faulted (bodyMode b) with
      | none => h.refuseStaged s 0x0B
      | some (st, load) =>
        let h := if was = .search ∧ st = .search ∧ load then h.dropWork s else h
        let t := { ok with search := if st = .search ∧ load then Search.start else (h.strand s).search }
        let h := h.setStrand s (if load then t.loadRates b else t)
        let h := if was = .idle then h.leaveIdle s else h
        let h := h.enterState s st
        let t := h.strand s
        let h := if was = .idle ∧ st = .pullIn then h.setStrand s (t.replicaStart n (replicaPhase b n))
          else if st.tracking then h.setStrand s (t.rephase code)
          else h
        let h := if load then h.setStrand s ((h.strand s).slipEvent n) else h
        ((h.anchor s n).rewrite s).snapCheck s

/-- The ring-block boundary at which a body staged at ring count c is applied while the Strand has no integration boundaries (R135). -/
def nextBlock (c : Nat) : Nat := (c / 2048 + 1) * 2048

/-! ### Pick-up, scans, doorbells (R126 to R143) -/

/-- Aiding staged before the port passed N_b reaches the tracking task of Strand s that waits in the ready queue (R226). -/
def Hw.aidReady (h : Hw) (s at_ : Nat) (b : List Nat) : Hw :=
  let aid := (upTo 6).map fun i => bodyWord b (16 + i)
  { h with loop := { h.loop with
      ready := h.loop.ready.map fun k => if k.strand = s ∧ k.kind = 0 ∧ at_ ≤ k.nb then { k with aid := aid } else k } }

/-- A body of Strand s whose CHK matches is checked, and refused or staged (R133, R134); a body that needs no boundary is applied at once (R135,
R146). -/
def Hw.stage (h : Hw) (s gen : Nat) (b : List Nat) : Hw :=
  let t := h.strand s
  let st := h.checkBody s b none
  if st ≠ 0 then h.refuse s gen st
  else
    let n := bodyPort b
    let at_ := h.ringCount (if t.state = .idle then n else bodyPort t.body)
    let h := (h.setStrand s { t with staged := some (b, gen), stagedAt := at_ }).aidReady s at_ b
    if t.state = .snapshot ∧ !bodyEn b then h.applyStaged s 0
    else if t.state = .idle ∧ !bodyEn b ∧ !h.counting n then h.applyStaged s 0
    else h

/-- Pick up the body of Strand s (R131 to R134), read through port B: a word that cannot be read ends the pick-up (R397). A body that is staged
already, with its GEN, stays as it is (assumption log 100). -/
def Hw.pickUp (h : Hw) (s : Nat) : Hw :=
  let e := entryAddr s
  let (ok, h) := h.fabRead (e + 0x58) s 1
  let cw := h.load32 (e + 0x5C)
  let t := h.strand s
  if !ok ∨ cw % 65536 = t.appliedGen ∨ t.refusedGen = some (cw % 65536) then h
  else
    let (ok, h) := h.fabRead e s 12
    let b := h.loadWords e 23
    if !ok then h
    else if h.entryCrc s ≠ cw / 65536 then h.tornRead s
    else if t.staged = some (b, cw % 65536) then h
    else h.stage s (cw % 65536) b

/-- The strand cache reads the table: the fabric is started (Table 1.9), and the table memory does not keep its accesses waiting (R415, R418). -/
def Hw.cacheUp (h : Hw) : Bool := !h.sys.noFabric && !h.tableBusy

/-- Every entry from Strand 0 to Strand 511 (R139); one more scan completed. -/
def Hw.scanAll (h : Hw) : Hw := (forEach (fun s h => h.pickUp s) (upTo 512) h).count FAB_CMTSTAT_SCAN_SEQ

/-- A scan (R139, R141): the waiting doorbells come before its entries; those with ALL mark one further scan, which follows at once (assumption
log 101). -/
def Hw.scan (h : Hw) : Hw :=
  if !h.cacheUp then h
  else
    let bells := h.fab.bells
    let h := { h with fab := { h.fab with bells := [] } }
    let h := (forEach (fun b h => match b with | some s => h.pickUp s | none => h) bells h).scanAll
    if bells.contains none then h.scanAll else h

/-- FAB_FLUSH: a doorbell is queued, or discarded with DBOVF (R141, R143). -/
def Hw.ringBell (h : Hw) (bell : Option Nat) : Hw :=
  if h.fab.bells.length < 8 then { h with fab := { h.fab with bells := h.fab.bells ++ [bell] } } else h.sf FAB_CMTSTAT_DBOVF 1

/-- The cache serves the oldest doorbell (R141, R142). -/
def Hw.serveBell (h : Hw) : Hw :=
  match h.fab.bells with
  | [] => h
  | bell :: rest =>
    if !h.cacheUp then h
    else
      let h := { h with fab := { h.fab with bells := rest } }
      match bell with
      | none => h.scan
      | some s => h.pickUp s

/-- The initialising scan (R144): every GEN becomes APPLIED_GEN, the result regions are written and every Strand is IDLE; none where the fabric
is not started (Table 1.9). -/
def Hw.initScan (h : Hw) : Hw :=
  if h.sys.noFabric then h
  else forEach (fun s h =>
    let gen := h.load32 (entryAddr s + 0x5C) % 65536
    let t := { Strand.reset with appliedGen := gen }
    (h.setStrand s t).fabWrites (entryAddr s + 0x60) s t.resultWords) (upTo 512) h

/-! ### Firmware's commit (R156) -/

/-- The navigation controller reads k 64-bit words from `a`; false at the first that delivers no data. -/
def Hw.navWords (h : Hw) (a : Nat) : Nat → Bool × Hw
  | 0 => (true, h)
  | k + 1 =>
    let h := h.memRead .nav a 8
    match h.resp with
    | .data _ => h.navWords (a + 8) k
    | _ => (false, h)

/-- last_gen of Strand s: the GEN that firmware last wrote, or the one found in the entry (R129). -/
def Hw.genBefore (h : Hw) (s : Nat) : Nat :=
  match h.fw.lastGen.find? (·.1 == s) with
  | some (_, g) => g
  | none => h.load32 (entryAddr s + 0x5C) % 65536

/-- Firmware's service of subindex 0x41 (R156): CHK over the entry as it stands, the commit word with the next GEN (R129), and a doorbell
if asked for. Its accesses meet what every access of the navigation controller meets; the response says how the last one went. -/
def Hw.commitObject (h : Hw) (s : Nat) (bell : Bool) : Hw :=
  let e := entryAddr s
  match h.navWords e 16 with
  | (false, h) => h
  | (true, h) =>
    let g := (h.genBefore s + 1) % 65536
    let g := if g = h.load32 (e + 0x7C) % 65536 then (g + 1) % 65536 else g
    let h := h.memWrite .nav (e + 0x5C) 4 (h.entryCrc s * 65536 + g)
    if h.resp = .okay then
      let h := { h with fw := { h.fw with lastGen := (s, g) :: h.fw.lastGen.filter (·.1 != s) } }
      if bell then h.ringBell (some s) else h
    else h

/-- A transition made Strand s IDLE: its staged enable is checked again, to be applied at the next ring-block boundary (R136). -/
def Hw.recheckStaged (h : Hw) (s : Nat) : Hw :=
  let t := h.strand s
  match t.staged with
  | none => h
  | some (b, _) =>
    let st := h.checkBody s b (some s)
    if st ≠ 0 then h.refuseStaged s st
    else
      let h := h.setStrand s { t with stagedAt := h.ringCount (bodyPort b) }
      if !bodyEn b ∧ !h.counting (bodyPort b) then h.applyStaged s 0 else h

end Sys2Proof.Machine
end

