-- ==== Sys2Proof/Machine/BitSync.lean ====
section
/-! DEFINITION. The hardware bit synchroniser (5.7): the search for symbol edges, symbols and hard bits, the navigation-bit buffer, and the
parity of LNAV words and GLONASS strings, whose equations are those of the constellations' interface documents (assumption log 22). -/

namespace Sys2Proof.Machine

/-- n / d rounded to nearest, halves up. -/
def roundDiv (n d : Int) : Int := if d = 0 then 0 else (2 * n + d) / (2 * d)

/-! ### Flags of a tracking task (Table 5.1) -/

def LoopTask.starved (k : LoopTask) : Bool := bit k.word0 11
def LoopTask.susp (k : LoopTask) : Bool := bit k.word0 12
def LoopTask.gap (k : LoopTask) : Bool := bit k.word0 13
def LoopTask.int (k : LoopTask) : Nat := bits k.word0 18 4

/-! ### The navigation-bit buffer -/

/-- Word `w` of the navigation-bit buffer of Strand s. -/
def Hw.nbWord (h : Hw) (s w : Nat) : Nat := h.load32 (nbAddr s + 4 * w)

/-- Write word `w` of the buffer through port B, with the other half of its 64-bit word as it stands (R711). -/
def Hw.setNb (h : Hw) (s w v : Nat) : Hw :=
  let e := w / 2 * 2
  if w % 2 = 0 then h.fabWrite (nbAddr s + 4 * e) (v % pow2 32) (h.nbWord s (e + 1)) s
  else h.fabWrite (nbAddr s + 4 * e) (h.nbWord s e) (v % pow2 32) s

/-- Bits `lo` to `lo + len - 1` of `n` replaced by `v`. -/
def putBits (n lo len v : Nat) : Nat := n / pow2 (lo + len) * pow2 (lo + len) + v % pow2 len * pow2 lo + n % pow2 lo

/-- A field of NBSTAT written. -/
def Hw.setNbStat (h : Hw) (s lo len v : Nat) : Hw := h.setNb s 0 (putBits (h.nbWord s 0) lo len v)

/-- SYNC of Strand s. -/
def Hw.sync (h : Hw) (s : Nat) : Nat := h.nbWord s 0 % 4

/-- Symbol i written: the soft nibble and the hard bit, then NBTAG, then NBCNT (R272). -/
def Hw.writeSymbol (h : Hw) (s soft : Nat) (hard : Bool) (tag : Nat) : Hw :=
  let i := h.nbWord s 1
  let k := i % 64
  let sw := 8 + k / 8
  let h := h.setNb s sw (putBits (h.nbWord s sw) (4 * (k % 8)) 4 soft)
  let hw := 6 + k / 32
  let h := h.setNb s hw (putBits (h.nbWord s hw) (k % 32) 1 (b2n hard))
  let h := h.setNb s 2 tag
  h.setNb s 1 (i + 1)

/-! ### Parity -/

/-- Exclusive or of the listed positions of a list. -/
def xorAt (l : List Bool) (ps : List Nat) : Bool := ps.foldl (fun acc p => acc != l.getD p false) false

/-- The sets of source bits of the six parity bits of an LNAV word, 1 to 24 (IS-GPS-200; PRESUMED, assumption log 22); the Boolean says that
the equation starts from D29* of the word before, otherwise from D30*. -/
def lnavEquations : List (Bool × List Nat) :=
  [(true, [1, 2, 3, 5, 6, 10, 11, 12, 13, 14, 17, 18, 20, 23]), (false, [2, 3, 4, 6, 7, 11, 12, 13, 14, 15, 18, 19, 21, 24]),
   (true, [1, 3, 4, 5, 7, 8, 12, 13, 14, 15, 16, 19, 20, 22]), (false, [2, 4, 5, 6, 8, 9, 13, 14, 15, 16, 17, 20, 21, 23]),
   (false, [1, 3, 5, 6, 7, 9, 10, 14, 15, 16, 17, 18, 21, 22, 24]), (true, [3, 5, 6, 8, 9, 10, 11, 13, 15, 19, 22, 23, 24])]

/-- The parity of a 30-bit LNAV word passes; `w` is the word in order of transmission with D29* and D30* before it. -/
def lnavOk (w : List Bool) : Bool :=
  let d29 := w.getD 0 false
  let d30 := w.getD 1 false
  let d := (false :: ((w.drop 2).take 24).map fun b => b != d30)
  (upTo 6).all fun i =>
    let e := lnavEquations.getD i (true, [])
    ((if e.1 then d29 else d30) != xorAt d e.2) == w.getD (26 + i) false

/-- The LNAV preamble. -/
def lnavPreamble : List Bool := [true, false, false, false, true, false, true, true]

/-- The GLONASS time mark: 30 chips of 10 ms (GLONASS ICD; PRESUMED, assumption log 22). -/
def timeMark : List Bool :=
  [true, true, true, true, true, false, false, false, true, true, false, true, true, true, false, true, false, true, false, false, false,
   false, true, false, false, true, false, true, true, false]

/-- Bit positions from `a` to `b`. -/
def span (a b : Nat) : List Nat := (upTo (b + 1 - a)).map (a + ·)

/-- The check sets of a GLONASS string, bits 1 to 85 (GLONASS ICD; PRESUMED, assumption log 22). -/
def hammingSets : List (List Nat) :=
  [[1, 9, 10, 12, 13, 15, 17, 19, 20, 22, 24, 26, 28, 30, 32, 34, 35, 37, 39, 41, 43, 45, 47, 49, 51, 53, 55, 57, 59, 61, 63, 65, 66, 68, 70,
    72, 74, 76, 78, 80, 82, 84],
   [2, 9, 11, 12, 14, 15, 18, 19, 21, 22, 25, 26, 29, 30, 33, 34, 36, 37, 40, 41, 44, 45, 48, 49, 52, 53, 56, 57, 60, 61, 64, 65, 67, 68, 71,
    72, 75, 76, 79, 80, 83, 84],
   3 :: (span 10 12 ++ span 16 19 ++ span 23 26 ++ span 31 34 ++ span 38 41 ++ span 46 49 ++ span 54 57 ++ span 62 65 ++ span 69 72 ++
    span 77 80 ++ [85]),
   4 :: (span 13 19 ++ span 27 34 ++ span 42 49 ++ span 58 65 ++ span 73 80),
   5 :: (span 20 34 ++ span 50 65 ++ span 81 85), 6 :: span 35 65, 7 :: span 66 85, span 1 85]

/-- A GLONASS string, newest bit (bit 1) first, passes its Hamming code. -/
def stringOk (newest : List Bool) : Bool := hammingSets.all fun l => !xorAt (false :: newest) l

/-- A unit has been checked: PASS or FAIL, and PCHK (R273, R274). -/
def Hw.checked (h : Hw) (s : Nat) (ok : Bool) (kind : Nat) : Hw :=
  let w := h.nbWord s 3
  let h := h.setNb s 3 (if ok then putBits w 0 16 (satTo 65535 (w % 65536 + 1)) else putBits w 16 16 (satTo 65535 (w / 65536 + 1)))
  h.setNb s 4 (h.nbWord s 1 % 65536 + 65536 * b2n ok + 131072 * kind + 262144)

/-- PARITY_CHECK after an LNAV bit (R273): a preamble at any position whose TLM and HOW pass is taken; once one has been taken every later
30-bit word is checked. -/
def Hw.lnavStep (h : Hw) (s nb : Nat) : Hw :=
  let t := h.strand s
  let u := t.bsync
  let last := u.bits.take 62
  let w := last.reverse
  let body := w.drop 2
  let up := body.take 8 == lnavPreamble
  let down := (body.take 8).map (!·) == lnavPreamble
  let taken := decide (last.length = 62) && (up || down) && lnavOk (w.take 32) && lnavOk (w.drop 30)
  let st := h.nbWord s 0
  let due := match u.word with | some 29 => true | _ => false
  let h := h.setStrand s { t with bsync := { u with word := u.word.map fun k => if k = 29 then 0 else k + 1 } }
  let h := if due then h.checked s (lnavOk (w.drop 30)) 0 else h
  if taken then
    let flip := bit st 2 && bit st 3 != down
    let h := h.setNbStat s 2 2 (1 + 2 * b2n down)
    let t := h.strand s
    let h := h.setStrand s { (if flip then t.slipEvent nb else t) with bsync := { t.bsync with word := some 0 } }
    if due then h else h.setNb s 4 (h.nbWord s 1 % 65536 + 65536 + 262144)
  else h

/-- PARITY_CHECK after a GLONASS symbol (R274): the time mark sets HCR, and the string of 85 bits before it is checked. -/
def Hw.glonassStep (h : Hw) (s : Nat) : Hw :=
  let u := (h.strand s).bsync
  let chips := (u.signs.take 30).reverse
  if chips = timeMark ∨ chips.map (!·) = timeMark then
    let h := h.setNbStat s 2 1 1
    let str := (u.bits.drop 15).take 85
    if str.length = 85 then h.checked s (stringOk str) 1 else h
  else h

/-! ### Symbols (R270, R271) -/

/-- The soft symbol: round(4 × S / Ā), saturated; for Ā = 0 the specification gives no value. -/
def softOf (s : Int) (means : List Nat) : Option Int :=
  let l := if means.isEmpty then [s.natAbs] else means
  if l.sum = 0 then none else some (clampInt (-7) 7 (roundDiv (4 * s * (l.length : Int)) (l.sum : Int)))

/-- A symbol is complete (R271, R272). -/
def Hw.symbolDone (h : Hw) (s nb : Nat) : Hw :=
  let t := h.strand s
  let u := t.bsync
  let st := h.nbWord s 0
  let glo := bodySig t.body == 0x31
  let lnav := bodySig t.body == 0x01 || bodySig t.body == 0x41
  let next := { u with open_ := false, half := 0, acc := 0, chip := 0, erased := false }
  if u.erased then
    let h := h.setNbStat s 16 16 (satTo 65535 (st / 65536 + 1))
    -- its hard bit is 0, which is the raw sign INV
    let kept := (if glo then false else bit st 3) :: u.bits
    let h := h.setStrand s { t with bsync := { next with bits := kept.take 100, signs := [] } }
    let h := h.writeSymbol s 0 false u.tag
    if lnav then h.lnavStep s nb else if glo then h.glonassStep s else h
  else
    let raw := decide (u.acc < 0)
    let inv := bit st 3
    let hard := (if glo then raw != u.lastHard else raw) != inv
    let (soft, h) := match softOf u.acc u.means with
      | some v => (ofInt 4 v, h)
      | none => h.fresh
    let kept := (if glo then hard else raw) :: u.bits
    let h := h.setStrand s { t with bsync := { next with
      means := (u.acc.natAbs :: u.means).take 32, bits := kept.take 100, lastHard := raw } }
    let h := h.writeSymbol s soft hard u.tag
    if lnav then h.lnavStep s nb else if glo then h.glonassStep s else h

/-- An integration of `ms` milliseconds adds its SYM, none for an erasure, to the symbol in progress; `start` says that a symbol starts at its
first sample, ring count `first`, and that it ends at `nb` (R270, R271). On L1OF an integration belongs to the half in which it starts; one of
20 ms gives no chip of the time mark (DEDUCED, assumption log 108). -/
def Hw.symbolAdd (h : Hw) (s : Nat) (sym : Option Int) (ms symMs first nb : Nat) (start : Bool) : Hw :=
  let t := h.strand s
  let u := t.bsync
  let u := if start then { u with open_ := true, half := 0, acc := 0, chip := 0, erased := false, tag := first % pow2 32 } else u
  if !u.open_ then h.setStrand s { t with bsync := u }
  else
    let glo := bodySig t.body == 0x31
    let v := sym.getD 0
    let u := { u with
      acc := if glo ∧ 10 ≤ u.half then u.acc - v else u.acc + v, erased := u.erased || sym.isNone, half := u.half + ms,
      chip := u.chip + v }
    -- on L1OF the signs of the two halves are the chips of the time mark
    let u := if glo ∧ ms ≤ 10 ∧ (u.half - ms) / 10 ≠ u.half / 10 then
        { u with signs := (decide (u.chip < 0) :: u.signs).take 30, chip := 0 } else u
    let h := h.setStrand s { t with bsync := u }
    if symMs ≤ u.half then h.symbolDone s nb else h

/-! ### The search (R267 to R269) -/

/-- The synchroniser has locked with an edge. -/
def Hw.syncLock (h : Hw) (s edge : Nat) : Hw :=
  let h := h.setNbStat s 0 2 2
  let h := h.setNbStat s 8 8 edge
  let t := h.strand s
  h.setStrand s { t with bsync := { t.bsync with bins := [], values := 0, signs := [] } }

/-- The two largest bins: position and count of the top one, count of the second. -/
def topBins (bins : List (Nat × Nat)) (m : Nat) : Nat × Nat × Nat :=
  (upTo m).foldl (fun acc i =>
    let c := Store.get (fun _ => 0) bins i
    if acc.2.1 < c then (i, c, acc.2.1) else (acc.1, acc.2.1, max acc.2.2 c)) (0, 0, 0)

/-- HIST (R267): one SYM value, or none for an erasure; `mm` is the period count at its first sample and M its modulus. -/
def Hw.histStep (h : Hw) (s : Nat) (sym : Option Int) (mm m : Nat) : Hw :=
  let t := h.strand s
  let u := t.bsync
  match sym with
  | none => h.setStrand s { t with bsync := { u with prev := none } }
  | some v =>
    let sg := decide (v < 0)
    let flip := match u.prev with | some p => p != sg | none => false
    let bins := if flip then Store.set (fun _ => 0) u.bins (mm % m) (Store.get (fun _ => 0) u.bins (mm % m) + 1) else u.bins
    let n := u.values + 1
    let h := h.setStrand s { t with bsync := { u with prev := some sg, bins := bins, values := n } }
    if max 1 (h.rf LOOP_BSYNC_BS_WIN) * m ≤ n then
      let (e, a, b) := topBins bins m
      if h.rf LOOP_BSYNC_BS_MIN ≤ a ∧ max 1 (h.rf LOOP_BSYNC_BS_RATIO) * b ≤ a then h.syncLock s e
      else h.setStrand s { h.strand s with bsync := { u with prev := some sg, bins := [], values := 0 } }
    else h

/-- A window of signs, oldest first, matches rotation r of the secondary code, upright or inverted (R268). -/
def matchesCode (sig sat len r : Nat) (w : List Bool) : Bool :=
  let chips := (upTo len).map fun i => Config.secondaryChip sig sat ((r + i) % len)
  w == chips || w.map (!·) == chips

/-- SEC (R268): one rotation matches the last M signs and the M before them. -/
def Hw.secStep (h : Hw) (s : Nat) (sym : Option Int) (mm : Nat) : Hw :=
  let t := h.strand s
  let u := t.bsync
  let len := (bodySignal t.body).secLen
  match sym with
  | none => h.setStrand s { t with bsync := { u with signs := [] } }
  | some v =>
    let signs := (decide (v < 0) :: u.signs).take (2 * len)
    let h := h.setStrand s { t with bsync := { u with signs := signs } }
    let found := decide (signs.length = 2 * len) && (upTo len).any fun r =>
      matchesCode (bodySig t.body) (bodySat t.body) len r (signs.take len).reverse &&
        matchesCode (bodySig t.body) (bodySat t.body) len r (signs.drop len).reverse
    if found then h.syncLock s (((mm : Int) - ((len - 1 : Nat) : Int)).emod (len : Int)).toNat else h

/-! ### BIT_SYNC_UPDATE -/

/-- Code phase and period count of an integration at its first sample, from the values at N_b of its task. -/
def LoopTask.startPhase (k : LoopTask) : Nat × Nat :=
  let m := (bodySignal k.body).chips * chipUnit
  let run := k.rates.1 * k.samples
  let phi := (((k.phi : Int) - (run : Int)).emod (m : Int)).toNat
  let wraps := (phi + run - k.phi) / m
  (phi, (k.prim + pow2 32 - wraps % pow2 32) % pow2 32)

/-- The integration boundary at which the task's integration starts holds the start of a primary period: the code phase has wrapped since the
sample before, at the rate of the integration before (R171, R270). -/
def BitSync.atEpoch (u : BitSync) (phi : Nat) : Bool := phi == 0 || decide (phi < u.rate)

/-- The synchroniser takes SYM of a tracking task, or an erasure (R266 to R271). -/
def Hw.syncTake (h : Hw) (k : LoopTask) (r : RetWords) : Hw :=
  let s := k.strand
  let row := bodySignal k.body
  let ms := intMs k.int
  let (phi, mm) := k.startPhase
  let sym := if bit r.flags 5 && !k.starved && !k.susp && !k.gap then some (toSigned 32 r.sym) else none
  let m := if row.symMs = 0 then 1 else row.symMs / row.codeMs
  let searching := decide (h.sync s < 2)
  let h := if searching ∧ row.sync = .code then h.syncLock s 0
    else if searching ∧ ms = row.codeMs ∧ (row.sync = .hist ∨ row.sync = .sec) then
      let h := if h.sync s = 0 then h.setNbStat s 0 2 1 else h
      if row.sync = .hist then h.histStep s sym mm m else h.secStep s sym mm
    else if searching then
      let t := h.strand s
      h.setStrand s { t with bsync := { t.bsync with prev := none, signs := [] } }
    else h
  if row.symMs = 0 then h
  else
    let bad := row.symMs % ms ≠ 0
    let h := if bit (h.nbWord s 0) 4 = decide bad then h else h.setNbStat s 4 1 (b2n (decide bad))
    if bad then
      let t := h.strand s
      h.setStrand s { t with bsync := { t.bsync with open_ := false } }
    else if h.sync s < 2 then h
    else
      let edge := bits (h.nbWord s 0) 8 8
      let start := decide (((mm : Int) - (edge : Int)).emod (m : Int) = 0) && (h.strand s).bsync.atEpoch phi
      h.symbolAdd s sym ms row.symMs (k.nb - k.samples) k.nb start

/-- BIT_SYNC_UPDATE (R266 to R274): one tracking integration, in order. -/
def Hw.bitSync (h : Hw) (k : LoopTask) (r : RetWords) : Hw :=
  let h := h.syncTake k r
  let t := h.strand k.strand
  h.setStrand k.strand { t with bsync := { t.bsync with rate := k.rates.1 } }

/-- The return words of a task that returned nothing. -/
def RetWords.zero : RetWords := ⟨0, 0, 0, 0, 0, 0, 0, 0⟩

/-- The synchroniser takes an erasure for an integration whose task ended in a fault or was never posted (R266). -/
def Hw.erasedInt (h : Hw) (s : Nat) (e : Ended) : Hw :=
  if e.fault ∨ !e.posted then h.bitSync (h.trackTask s e.nb (h.strand s)) RetWords.zero else h

end Sys2Proof.Machine
end

