-- ==== Sys2Proof/Machine/Close.lean ====
section
/-! DEFINITION. Closing an integration boundary (R173, R174, R228, Table 3.6), the search manager's allocation of tranches and the entry into
PULL_IN on a detection (R201 to R208, R262, R264), and engine tests and retirement on request (R55, R214 to R216). -/

namespace Sys2Proof.Machine

/-! ### Closing (R173) -/

/-- The boundary at ring count nb lies inside a gap of port n, or after its stop (Table 3.6, R147). -/
def Hw.insideGap (h : Hw) (n nb : Nat) : Bool :=
  let p := h.port n
  inRuns p.gaps (nb / 2048) || (match p.gapFrom with
    | some g => decide (g ≤ nb / 2048) && decide (p.lostAt ≤ nb * h.dec n)
    | none => false)

/-- The integration of Strand s that has ended may be closed: its task has returned and its port has passed the boundary (R173). -/
def Hw.closable (h : Hw) (s : Nat) : Option Ended :=
  let t := h.strand s
  match t.ended with
  | none => none
  | some e =>
    if t.state.tracking ∧ (!e.posted ∨ e.fault ∨ e.ret.isSome) ∧ e.nb < h.ringCount (bodyPort t.body) then some e else none

/-- The times of PULL_IN and COAST with the ended integration added (R123, R147): input samples, and COAST_MS in milliseconds. -/
def Hw.addTime (h : Hw) (t : Strand) (nb : Nat) : Strand :=
  let n := bodyPort t.body
  let k := (nb - t.start) * h.dec n
  match t.state with
  | .pullIn => { t with pullAcc := t.pullAcc + k }
  | .coast => { t with coastAcc := t.coastAcc + k, coastMs := satTo 65535 ((t.coastAcc + k) / h.rate n) }
  | _ => t

/-- The time since the entry into PULL_IN has reached PULL_TMO. -/
def Hw.pullDone (h : Hw) (t : Strand) : Bool := decide (bodyPullTmo t.body * h.rate (bodyPort t.body) ≤ t.pullAcc)

/-- The time since the entry into COAST has reached COAST_MAX. -/
def Hw.coastDone (h : Hw) (t : Strand) : Bool := decide (bodyCoastMax t.body * h.rate (bodyPort t.body) ≤ t.coastAcc)

/-- The state and STATUS to which the ended integration leads (Table 3.6, all rows that are not commits). A fault comes first, then the loss
of the port, then lock or loss, then the time limits. -/
def Hw.endTransition (h : Hw) (t : Strand) (e : Ended) : StrandState × Option Nat × Bool :=
  let n := bodyPort t.body
  let run := h.portState n == portRun
  let f := match e.ret with | some r => r.flags | none => 0
  let lock := bit f 1
  let loss := bit f 2
  let up : StrandState := if bodyMode t.body = 4 then .vector else .track
  if e.fault then (.coast, none, true)
  else match t.state with
    | .pullIn =>
      if h.insideGap n e.nb then (.coast, none, false)
      else if lock then (up, none, false)
      else if h.pullDone t then
        (if bodyDwell t.body = 0 then (.idle, some 0x21, false) else (.search, none, false))
      else (.pullIn, none, false)
    | .track => (if h.insideGap n e.nb then .coast else if loss then .pullIn else .track, none, false)
    | .vector => (if h.insideGap n e.nb ∨ loss then .coast else .vector, none, false)
    | .coast =>
      if run ∧ lock ∧ !t.faulted ∧ 2 ≤ bodyMode t.body ∧ bodyMode t.body ≤ 4 then (up, none, false)
      else if h.coastDone t then
        (if t.faulted then (.idle, some 0x24, t.faulted)
         else if run then (.pullIn, none, false)
         else (.idle, some 0x22, false))
      else (.coast, none, t.faulted)
    | st => (st, none, t.faulted)

/-- What the return words change at closing, apart from the rates (R228): the lock values, the multipath values, J and the secondary code. -/
def Strand.takeReturn (t : Strand) (e : Ended) : Strand :=
  match e.ret with
  | none => t
  | some r =>
    let p := (bodySignal t.body).chips * chipUnit
    { t with
      cn0 := r.lock % 65536, pli := r.lock / 65536, lockC := bit r.flags 13, lockP := bit r.flags 14,
      mpv := bit r.flags 6, mp := r.mp,
      jph := (t.jph + bits r.flags 8 5 * p) % t.intLen,
      sec := if bit r.flags 7 then some (r.sec, t.prim) else t.sec }

/-- INTEGRATION_CLOSE (R173, R174): the boundary of Strand s is closed. The transitions of the ended integration come first, then a body staged
before the port passed the boundary, then the returned rates unless the body loaded rates; then the next integration begins. -/
def Hw.close (h : Hw) (s : Nat) : Hw :=
  match h.closable s with
  | none => h
  | some e =>
    let h := h.erasedInt s e
    let old := h.addTime (h.strand s) e.nb
    let code := old.intCode
    let len := old.intLen
    let t := old.phaseAt e.nb
    let t := Strand.takeReturn { t with jph := t.jph % len, ended := none, reload := false } e
    let (st, status, fault) := h.endTransition old e
    let t := { t with faulted := fault }
    let t := if e.fault ∨ e.unlock then t.slipEvent e.nb else t
    let h := h.setStrand s t
    match st with
    | .idle => ((h.toIdle s (status.getD 0)).anchor s e.nb).recheckStaged s
    | _ =>
      let moved := st != old.state
      let h := h.enterState s st
      let h := h.setStrand s ((h.strand s).rephase code)
      let h := if moved ∨ (e.fault ∧ !old.faulted) then h.rewrite s else h
      let h := if (h.strand s).staged.isSome ∧ (h.strand s).stagedAt ≤ e.nb then h.applyStaged s e.nb else h
      let t := h.strand s
      let t := match e.ret with
        | some r => if bit r.flags 0 ∧ !t.reload ∧ t.state.tracking then { t with codeRate := r.code, carrRate := r.carr } else t
        | none => t
      let h := (h.setStrand s t).anchor s e.nb
      if t.state.tracking then (h.setStrand s (h.strand s).openInt).trackWork s else h

/-- PULL_TMO_EXPIRY: the boundary of a PULL_IN Strand whose time is up is closed (R123, Table 3.6). -/
def Hw.pullExpiry (h : Hw) (s : Nat) : Hw :=
  match h.closable s with
  | some e => if (h.strand s).state = .pullIn ∧ h.pullDone (h.addTime (h.strand s) e.nb) then h.close s else h
  | none => h

/-- COAST_MAX_EXPIRY: the boundary of a COAST Strand whose time is up is closed (R123, Table 3.6). -/
def Hw.coastExpiry (h : Hw) (s : Nat) : Hw :=
  match h.closable s with
  | some e => if (h.strand s).state = .coast ∧ h.coastDone (h.addTime (h.strand s) e.nb) then h.close s else h
  | none => h

/-! ### Search (R201 to R211, R262) -/

/-- The bin at position `p` of the order 0, +1, −1, +2, −2 … (R203). -/
def binAt (p : Nat) : Int := if p % 2 = 1 then ((p / 2 + 1 : Nat) : Int) else -((p / 2 : Nat) : Int)

/-- H, the hypotheses of a window (R201). -/
def windowHyps (b : List Nat) : Nat := if bodyCpSpan b = 0 then 2 * (bodySignal b).chips else 2 * bodyCpSpan b

/-- B, the number of bins to either side (R203). -/
def windowBins (b : List Nat) (tc : Nat) : Nat := ceilDiv (bodyDopSpan b * tc) 500

/-- Cell units in use (R208). -/
def Hw.cellUnits (h : Hw) : Nat :=
  (h.fab.tranches.filter fun e => match e.2 with | some r => r.cellUnit | none => false).length

/-- A free entry of the tranche table. -/
def Hw.freeTranche (h : Hw) : Option Nat := (upTo 64).find? fun i => (h.tranche i).isNone

/-- Dwell periods of a snapshot tranche (R340). -/
def Hw.snapPeriods (h : Hw) (t : Strand) : Nat :=
  let (_, sc) := h.coherent t
  min (max (bodyDwell t.body) 1) (h.coilBlocks (bodyPort t.body) * 2048 / max 1 sc)

/-- Strand t has search or snapshot work for the allocator, and the unit it would need is free (R207, R208, R340). -/
def Hw.wantsTranche (h : Hw) (t : Strand) : Bool :=
  let snap := t.state == .snapshot && t.coilWork
  let needs := snap || t.search.verify.isSome || decide (1 < bodyDwell t.body)
  (t.state == .search || snap) && (t.search.verify.isSome || !t.search.done) &&
    decide (t.search.inFlight < max 1 (h.rf FAB_CTRL_TRMAX)) && (!needs || decide (h.cellUnits < 4))

/-- The window position after one more tranche (R203). -/
def Search.advance (u : Search) (perBin bins : Nat) : Search :=
  if u.tranche + 1 < perBin then { u with tranche := u.tranche + 1 }
  else { u with tranche := 0, binPos := u.binPos + 1, done := decide (2 * bins < u.binPos + 1) }

/-- Entry i is given to Strand s: the verify tranche if one was requested, otherwise the next of its window (R203, R207, R262, R340). -/
def Hw.giveTranche (h : Hw) (i s : Nat) : Hw :=
  let t := h.strand s
  let b := t.body
  let u := t.search
  let n := bodyPort b
  let (tc, sc) := h.coherent t
  let snap := t.state == .snapshot
  let base : Tranche :=
    { strand := s, bin := 0, hyp0 := 0, hyps := 0, dwell := bodyDwell b, verify := false, opens := nextBlock (h.ringCount n), start := none,
      samples := sc, tc := tc, created := 0, items := 0, starved := false, gap := false, cellUnit := decide (1 < bodyDwell b), cells := [],
      susp := false, snap := snap, id := h.fab.given }
  let h := { h with fab := { h.fab with given := h.fab.given + 1 } }
  match u.verify with
  | some (hyp, bin, vtc) =>
    let h := h.setTranche i (some { base with
      bin := bin, hyp0 := hyp, hyps := 32, dwell := min (2 * u.dwell) 255, verify := true, cellUnit := true,
      tc := vtc, samples := vtc * h.rate n / h.dec n })
    h.setStrand s { t with search := { u with verify := none, verOut := some (hyp, bin), inFlight := u.inFlight + 1 } }
  | none =>
    let hyps := windowHyps b
    let h0 := 2048 * u.tranche
    let h := h.setTranche i (some { base with
      bin := binAt u.binPos, hyp0 := h0, hyps := min 2048 (hyps - h0),
      dwell := if snap then h.snapPeriods t else bodyDwell b, cellUnit := base.cellUnit || snap })
    let u := u.advance (ceilDiv hyps 2048) (windowBins b tc)
    h.setStrand s { t with search := { u with inFlight := u.inFlight + 1 } }

/-- One turn of the allocator: the next Strand in index order after the last one served gets one entry (R207); before any has been served the
lowest index comes first (DESIGN CHOICE, assumption log 107). -/
def Hw.allocateOne (h : Hw) : Option Hw :=
  match h.freeTranche with
  | none => none
  | some i =>
    let l := (h.strandList.filter fun p => h.wantsTranche p.2).map (·.1)
    let first := match (match h.fab.lastTr with | some k => l.find? fun s => decide (k < s) | none => none) with
      | some s => some s
      | none => l.head?
    match first with
    | none => none
    | some s =>
      let h := h.giveTranche i s
      some { h with fab := { h.fab with lastTr := some s } }

/-- TRANCHE_ALLOCATE: turns until no entry is free or no Strand can be served (R207). -/
def Hw.allocate (h : Hw) : Nat → Hw
  | 0 => h
  | fuel + 1 => match h.allocateOne with | none => h | some h => h.allocate fuel

/-- TRANCHE_START: an allocated tranche starts once its port has come to the first ring-block boundary after the allocation; a snapshot tranche
starts at the first captured sample (R204, R205, R340). -/
def Hw.startTranche (h : Hw) (i : Nat) : Hw :=
  match h.tranche i with
  | none => h
  | some r =>
    if r.start.isSome then h
    else
      let n := bodyPort (h.strand r.strand).body
      if r.snap then
        ((h.setTranche i (some { r with start := some (((h.port n).cap).getD 0) })).makeSnapItems i 257).finishTranche i
      else if r.opens ≤ h.ringCount n then (h.setTranche i (some { r with start := some r.opens })).searchWork i
      else h

/-- SEARCH_DETECT_ENTRY (R264): the Strand enters PULL_IN as a replica start at the first ring-block boundary after the task returned; a body
staged for that boundary is applied after the transition (R135). -/
def Hw.detectEntry (h : Hw) (s : Nat) : Hw :=
  let t := h.strand s
  match t.search.detect with
  | none => h
  | some (hyp, code, carr, at_) =>
    let n := bodyPort t.body
    let nb := nextBlock at_
    if t.state = .search ∧ nb ≤ h.ringCount n then
      let h := h.dropWork s
      let m := (bodySignal t.body).chips * chipUnit
      let phi := (bodyCpStart t.body * chipUnit + hyp * (chipUnit / 2) + code * (nb - t.search.verFirst)) % m
      let h := h.setStrand s { h.strand s with codeRate := code, carrRate := carr, search := Search.start, mpv := false, reload := true }
      let h := h.enterState s .pullIn
      let h := (h.setStrand s ((h.strand s).replicaStart nb phi)).rewrite s
      let t := h.strand s
      let h := if t.staged.isSome ∧ t.stagedAt < nb then h.applyStaged s nb else h
      let h := h.anchor s nb
      if (h.strand s).state.tracking then h.trackWork s else h
    else h

/-- A detection of a SEARCH Strand takes effect at the ring-block boundary `nb` or before it (R264). -/
def Strand.detectBy (t : Strand) (nb : Nat) : Bool :=
  t.state == .search && (match t.search.detect with | some (_, _, _, at_) => decide (nextBlock at_ ≤ nb) | none => false)

/-- A staged body of an IDLE or SEARCH Strand reaches its ring-block boundary (R135): a detection due by then makes its transition first; a staged
enable of an IDLE Strand is checked again against PORT_NOT_RUN. -/
def Hw.applyAtBlock (h : Hw) (s : Nat) : Hw :=
  let t := h.strand s
  match t.staged with
  | none => h
  | some (b, _) =>
    let n := if t.state = .idle then bodyPort b else bodyPort t.body
    if (t.state = .idle ∨ t.state = .search) ∧ h.counting n ∧ nextBlock t.stagedAt ≤ h.ringCount n then
      if t.state = .idle ∧ bodyEn b ∧ h.portState n ≠ portRun then h.refuseStaged s 0x03
      else if t.detectBy (nextBlock t.stagedAt) then h.detectEntry s
      else (h.applyStaged s (nextBlock t.stagedAt)).trackWork s
    else h

/-- The end of a pass (R211): when every tranche has reported, the pass counts against PASSES. -/
def Hw.passEnd (h : Hw) (s : Nat) : Hw :=
  let t := h.strand s
  let u := t.search
  if t.state = .search ∧ u.done ∧ u.inFlight = 0 ∧ u.tasks = 0 ∧ u.verify.isNone ∧ u.detect.isNone then
    if bodyPasses t.body ≠ 0 ∧ bodyPasses t.body ≤ u.passes + 1 then (h.toIdle s 0x20).recheckStaged s
    else h.setStrand s { t with search := { Search.start with passes := u.passes + 1 } }
  else h

/-! ### Engine tests and retirement (R55, R214 to R216) -/

/-- Refuse staged enables, highest index first, until the committed count fits the capacity (R55). -/
def Hw.refuseExcess (h : Hw) : Nat → Hw
  | 0 => h
  | fuel + 1 =>
    if h.capacity < h.committedCount none then
      match ((h.strandList.filter fun p => p.2.stagedEnable).map (·.1)).getLast? with
      | none => h
      | some s => (h.refuseStaged s 0x01).refuseExcess fuel
    else h

/-- Set excess Strands IDLE with CAPACITY_LOST, highest index first, each with its log entry (R55). A body staged for such a Strand is checked
again as an enable from IDLE, as R136 has it at a boundary (DEDUCED, assumption log 102). -/
def Hw.dropExcess (h : Hw) : Nat → Hw
  | 0 => h
  | fuel + 1 =>
    if h.capacity < h.activeCount then
      match ((h.strandList.filter fun p => p.2.state != .idle).map (·.1)).getLast? with
      | none => h
      | some s => (((h.toIdle s 0x23).report 4 4 0x20 0 s).recheckStaged s).dropExcess fuel
    else h

/-- CAPACITY_LOST (R55): what a retirement on request does to staged enables and active Strands. -/
def Hw.capacityLost (h : Hw) : Hw := (h.refuseExcess 512).dropExcess 512

/-- A write of FAB_TEST: START puts the named engine to rest, or is refused (R214, R216). -/
def Hw.testStart (h : Hw) (v : Nat) : Hw :=
  let h := h.writeFields FAB_TEST v
  if bit v 8 then
    let e := v % 32
    if h.engLive e ∧ h.fab.testing.isNone then
      let h := h.setEngine e { h.engine e with rest := true }
      ({ h with fab := { h.fab with testing := some (e, false) } } : Hw).sf FAB_TEST_BUSY 1
    else h.sf FAB_TEST_REFUSED 1
  else h

/-- ENGINE_REST_MARCH: the resting engine is idle with an empty deque and runs March C- (R214). -/
def Hw.testMarch (h : Hw) : Hw :=
  match h.fab.testing with
  | some (e, false) =>
    let g := h.engine e
    if g.cur.isNone ∧ g.deque.isEmpty then { h with fab := { h.fab with testing := some (e, true) } } else h
  | _ => h

/-- ENGINE_TEST_COMPLETE: the engine returns to service, or is retired (R215). -/
def Hw.testDone (h : Hw) (pass : Bool) : Hw :=
  match h.fab.testing with
  | some (e, true) =>
    let h := h.setEngine e { h.engine e with rest := false }
    let h := { h with fab := { h.fab with testing := none } }
    let h := ((h.sf FAB_TEST_BUSY 0).sf FAB_TEST_DONE 1).sf FAB_TEST_PASS (b2n pass)
    if pass then h
    else
      let h := { h with pwr := { h.pwr with engRet := h.pwr.engRet ||| pow2 e, engCause := h.pwr.engCause ||| pow2 e } }
      h.capacityLost
  | _ => h

end Sys2Proof.Machine
end

