-- ==== Sys2Proof/Machine/Flags.lean ====
section
/-! DEFINITION. Arithmetic and flags of the loop cores (8.3, Tables 8.3 to 8.5): the accumulator as a signed 40-bit value, rounding,
saturation, the A-result of R360, the carries of 8.6, the branch conditions of Table 8.8 and the CORDIC of R370. -/

namespace Sys2Proof.Machine

/-- The value of A. -/
def CoreRegs.acc (r : CoreRegs) : Int := r.a.toInt

/-- Largest and smallest value of the Q31 range. -/
def q31Max : Int := 2147483647
def q31Min : Int := -2147483648

/-- SR with bit i set to b. -/
def setFlag (sr i : Nat) (b : Bool) : Nat := sr / 2 ^ (i + 1) * 2 ^ (i + 1) + b2n b * 2 ^ i + sr % 2 ^ i

/-- The flag bits of SR (Table 8.3). -/
def flagZ : Nat := 0
def flagN : Nat := 1
def flagC : Nat := 2
def flagOV : Nat := 3
def flagSF : Nat := 4

/-- Flag i of SR. -/
def CoreRegs.flag (r : CoreRegs) (i : Nat) : Bool := bit r.sr i

/-- Flag i of SR set to b. -/
def CoreRegs.setFlag (r : CoreRegs) (i : Nat) (b : Bool) : CoreRegs := { r with sr := Machine.setFlag r.sr i b }

/-- Z and N from a value. -/
def CoreRegs.setZN (r : CoreRegs) (v : Int) : CoreRegs := (r.setFlag flagZ (decide (v = 0))).setFlag flagN (decide (v < 0))

/-- A takes a value modulo 2^40, with Z and N from it. -/
def CoreRegs.load (r : CoreRegs) (v : Int) : CoreRegs :=
  let a := BitVec.ofInt 40 v
  { r with a := a }.setZN a.toInt

/-- A-result (R360): saturation to the Q31 range when MR.SAT is 1, otherwise modulo 2^40 with OV. -/
def CoreRegs.result (r : CoreRegs) (v : Int) : CoreRegs :=
  if bit r.mr 0 ∧ (v < q31Min ∨ q31Max < v) then (r.setFlag flagSF true).load (clampInt q31Min q31Max v)
  else if v < -549755813888 ∨ 549755813887 < v then (r.setFlag flagOV true).load v
  else r.load v

/-- Rounding of v at bit k (R361, Table 8.5). -/
def roundAt (rnd : Nat) (v : Int) (k : Nat) : Int :=
  let d : Int := (2 ^ k : Nat)
  match rnd % 4 with
  | 0 => v / d
  | 1 => (2 * v + d) / (2 * d)
  | 2 =>
    let q := v / d
    let f := 2 * (v % d)
    if f < d then q else if d < f then q + 1 else if q % 2 = 0 then q else q + 1
  | _ => if v < 0 then -((2 * -v + d) / (2 * d)) else (2 * v + d) / (2 * d)

/-- MR.RND. -/
def CoreRegs.rnd (r : CoreRegs) : Nat := bits r.mr 1 2

/-- MR.MOD. -/
def CoreRegs.mod (r : CoreRegs) : Nat := bits r.mr 4 12

/-- Carry out of bit 39 of A + v. -/
def CoreRegs.carryAdd (r : CoreRegs) (v : Int) : Bool := decide (2 ^ 40 ≤ r.a.toNat + ofInt 40 v)

/-- Carry out of bit 39 of A + NOT(v) + 1. -/
def CoreRegs.carrySub (r : CoreRegs) (v : Int) : Bool := decide (2 ^ 40 ≤ r.a.toNat + (2 ^ 40 - 1 - ofInt 40 v) + 1)

/-- A × 2^s for a shift count s; a right shift rounds (Table 8.9, ASH). -/
def CoreRegs.shifted (r : CoreRegs) (s : Int) : Int :=
  if 0 ≤ s then r.acc * (2 ^ s.toNat : Nat) else roundAt r.rnd r.acc (-s).toNat

/-- The shift k of NORM for a non-zero value (R369), found from above. -/
def normShift (v : Int) : Nat → Int
  | 0 => -8
  | n + 1 =>
    let k : Int := (n : Int) - 8
    let w := if 0 ≤ k then v * (2 ^ k.toNat : Nat) else v / (2 ^ (-k).toNat : Nat)
    let fits := if 0 < v then decide (1073741824 ≤ w ∧ w < 2147483648)
      else decide (-2147483648 ≤ w ∧ w < -1073741824)
    if fits then k else normShift v n

/-- The branch conditions of Table 8.8. -/
def CoreRegs.cond (r : CoreRegs) (c : Nat) : Bool :=
  match c with
  | 0 => true
  | 1 => r.flag flagZ
  | 2 => !r.flag flagZ
  | 3 => r.flag flagN
  | 4 => !r.flag flagN
  | 5 => !r.flag flagN && !r.flag flagZ
  | 6 => r.flag flagN || r.flag flagZ
  | 7 => r.flag flagC
  | 8 => !r.flag flagC
  | 9 => r.flag flagOV
  | 10 => !r.flag flagOV
  | 11 => r.flag flagSF
  | 12 => !r.flag flagSF
  | 13 => r.rc == 0
  | 14 => r.rc != 0
  | _ => false

/-- T[i] of R370: atan(2^−i) in units of 2^−32 cycle. -/
def cordicTable : List Int := [536870912, 316933406, 167458907, 85004756, 42667331, 21354465, 10679838, 5340245, 2670163, 1335087, 667544, 333772, 166886, 83443, 41722, 20861]

/-- The iterations of R370 from `i`. -/
def cordicLoop (x y z : Int) (i : Nat) : List Int → Int × Int × Int
  | [] => (x, y, z)
  | t :: ts =>
    let d : Int := (2 ^ i : Nat)
    if 0 ≤ y then cordicLoop (x + y / d) (y - x / d) (z + t) (i + 1) ts
    else cordicLoop (x - y / d) (y + x / d) (z - t) (i + 1) ts

/-- The CORDIC of R370 on a complex Q15 value: x and z at its end. -/
def cordic (vi vq : Int) : Int × Int :=
  let x := vi * 65536
  let y := vq * 65536
  let (x, _, z) := if x < 0 then cordicLoop (-x) (-y) 2147483648 0 cordicTable else cordicLoop x y 0 0 cordicTable
  (x, z)

/-- ATN of a complex Q15 word (R370). -/
def atn (vi vq : Int) : Int := if vi = 0 ∧ vq = 0 then 0 else toSigned 32 (ofInt 32 (cordic vi vq).2)

/-- MAG of a complex Q15 word (R370). -/
def mag (vi vq : Int) : Int := ((cordic vi vq).1 * 19898 + 16384) / 32768

end Sys2Proof.Machine
end

