-- ==== Sys2Proof/Machine/Operands.lean ====
section
/-! DEFINITION. Instruction words and operands of the loop cores (8.1, 8.4, 8.5): the fields of Table 8.7, the legality of a word (R366),
effective addresses and index updates (R363, R364), and reads and writes in the four operand spaces (R349 to R351). -/

namespace Sys2Proof.Machine

/-- The fields of an instruction word (Table 8.7, operand format); a branch or repeat word reads its own fields from the whole word. -/
structure Insn where
  word : Nat
  op   : Nat
  am   : Nat
  sp   : Nat
  h    : Bool
  aux  : Nat
  addr : Nat
  deriving DecidableEq, Repr

/-- The fields of a word. -/
def insnOf (w : Nat) : Insn := ⟨w, bits w 26 6, bits w 23 3, bits w 21 2, bit w 20, bits w 16 4, bits w 0 16⟩

/-- ADDR as a signed displacement. -/
def Insn.disp (i : Insn) : Int := toSigned 16 i.addr

/-- Branch fields: COND and DISP. -/
def Insn.cond (i : Insn) : Nat := bits i.word 22 4
def Insn.target (i : Insn) : Int := toSigned 14 (bits i.word 0 14)

/-- The groups of Table 8.9 by the modes they take. -/
def opWordMem (op : Nat) : Bool := op == 0x01 || op == 0x10 || op == 0x12 || op == 0x18 || op == 0x1A || op == 0x1B || op == 0x1C
def opHalfMem (op : Nat) : Bool :=
  op == 0x02 || op == 0x11 || op == 0x13 || op == 0x14 || op == 0x15 || op == 0x16 || op == 0x19
def opNone (op : Nat) : Bool := op == 0x1D || op == 0x1E || op == 0x1F || op == 0x21 || op == 0x22 || op == 0x35

/-- OP is in Table 8.9. -/
def opKnown (op : Nat) : Bool :=
  opWordMem op || opHalfMem op || opNone op || op == 0x03 || op == 0x08 || op == 0x09 || op == 0x0A || op == 0x0B || op == 0x17 ||
    op == 0x20 || op == 0x23 || op == 0x24 || op == 0x25 || op == 0x30 || op == 0x31 || op == 0x32 || op == 0x33 || op == 0x34

/-- A memory mode whose AM, SP and AUX are permitted; `reg` when AUX is a register code, `store` for a store (R363, R366). -/
def Insn.memOk (i : Insn) (reg store : Bool) : Bool :=
  decide (i.am ≤ 5) && (i.am != 0 || (i.sp == 0 && decide (i.addr < 2048))) && !(store && i.sp == 3) &&
    (if reg then decide (i.aux ≤ 5) else if i.sp == 3 then decide (i.aux ≤ 3) else i.aux == 0)

/-- Immediate mode with SP 0. -/
def Insn.immOk (i : Insn) : Bool := i.am == 6 && i.sp == 0

/-- Legality of a word at decode (R366), apart from the rules of a repeat prefix and its successor. -/
def Insn.legal (i : Insn) : Bool :=
  if opWordMem i.op then (i.memOk false false && !i.h) || (i.immOk && i.aux == 0)
  else if opHalfMem i.op then i.memOk false false || (i.immOk && i.aux == 0)
  else if i.op == 0x03 then i.memOk true false || (i.immOk && decide (i.aux ≤ 5) && !i.h)
  else if i.op == 0x08 || i.op == 0x0A then i.memOk false true && !i.h
  else if i.op == 0x09 then i.memOk false true
  else if i.op == 0x0B then i.memOk true true
  else if i.op == 0x17 then (i.am == 3 || i.am == 5) && i.sp == 0 && !i.h && decide (i.aux < 8)
  else if opNone i.op then i.am == 7 && i.sp == 0 && !i.h && i.aux == 0 && i.addr == 0
  else if i.op == 0x20 then i.immOk && i.aux == 0 && !i.h && decide (-40 ≤ i.disp ∧ i.disp ≤ 40)
  else if i.op == 0x23 then i.immOk && decide (i.aux ≤ 3) && !i.h
  else if i.op == 0x24 || i.op == 0x25 then i.memOk false false && !i.h
  else if i.op == 0x30 || i.op == 0x31 then bits i.word 14 8 == 0 && i.cond != 15
  else if i.op == 0x32 then bits i.word 0 22 == 0 && i.cond != 15
  else if i.op == 0x33 || i.op == 0x34 then
    bits i.word 17 9 == 0 && bits i.word 8 8 == 0 && (!bit i.word 16 || bits i.word 0 8 == 0)
  else false

/-- Cycles of Table 8.9 for an instruction that is not a taken branch. -/
def Insn.cycles (i : Insn) : Nat := if i.op == 0x24 || i.op == 0x25 then 17 else 1

/-- The instruction writes RC (R376). -/
def Insn.writesRC (i : Insn) : Bool := (i.op == 0x03 || i.op == 0x23) && i.aux == 3

/-- The instruction may not follow a repeat prefix (R374). -/
def Insn.notRepeatable (i : Insn) : Bool :=
  i.op == 0x30 || i.op == 0x31 || i.op == 0x32 || i.op == 0x33 || i.op == 0x34

/-! ### Addressing (R363, R364) -/

/-- The smallest k with 2^k ≥ L. -/
def ceilLog (l : Nat) : Nat := ((upTo 13).find? fun k => decide (l ≤ 2 ^ k)).getD 12

/-- circ(Y, d) (R364). -/
def circ (l : Nat) (y : BitVec 16) (d : Int) : BitVec 16 :=
  if l = 0 then y + BitVec.ofInt 16 d
  else
    let k := ceilLog l
    let b : Int := ((y.toNat / 2 ^ k * 2 ^ k : Nat) : Int)
    let v : Int := (y.toNat : Int) + d
    BitVec.ofInt 16 (if b + (l : Int) ≤ v then v - (l : Int) else if v < b then v + (l : Int) else v)

/-- The effective address (Table 8.6); q is the task's area. -/
def Insn.ea (i : Insn) (q : Nat) (r : CoreRegs) : Nat :=
  match i.am with
  | 0 => (256 * q + i.addr % 2048) % 2048
  | 1 => (r.x + BitVec.ofInt 16 i.disp).toNat
  | 2 => (r.y + BitVec.ofInt 16 i.disp).toNat
  | 3 => r.x.toNat
  | _ => r.y.toNat

/-- The index update of the mode (Table 8.6). -/
def Insn.update (i : Insn) (r : CoreRegs) : CoreRegs :=
  match i.am with
  | 3 => { r with x := r.x + BitVec.ofInt 16 i.disp }
  | 4 => { r with y := r.y + BitVec.ofInt 16 i.disp }
  | 5 => { r with y := circ r.mod r.y i.disp }
  | _ => r

/-! ### Operand values (R359, R362) -/

/-- Half H of a word. -/
def Insn.half (i : Insn) (w : Nat) : Nat := if i.h then bits w 16 16 else bits w 0 16

/-- The immediate as R362 places it. -/
def Insn.placed (i : Insn) : Int := if i.h then i.disp * 65536 else i.disp

/-- Operand of a word instruction. -/
def Insn.wordVal (i : Insn) (w : Nat) : Int := if i.am = 6 then i.placed else toSigned 32 w

/-- Operand of LDH, ADDH, SUBH and CMPH. -/
def Insn.halfVal (i : Insn) (w : Nat) : Int := if i.am = 6 then i.placed else toSigned 16 (i.half w) * 65536

/-- Operand h of MPY, MAC and MSU. -/
def Insn.q15Val (i : Insn) (w : Nat) : Int := if i.am = 6 then i.disp else toSigned 16 (i.half w)

/-- Operand of AND, OR and XOR. -/
def Insn.logicVal (i : Insn) (w : Nat) : Nat := if i.am = 6 then (if i.h then i.addr * 65536 else i.addr) else w

/-- Operand of LDG. -/
def Insn.regVal (i : Insn) (w : Nat) : Nat := if i.am = 6 then i.addr else i.half w

/-- Read the register with a code (8.5). -/
def CoreRegs.get (r : CoreRegs) (code : Nat) : Nat :=
  match code with
  | 0 => r.m.toNat
  | 1 => r.x.toNat
  | 2 => r.y.toNat
  | 3 => r.rc.toNat
  | 4 => r.sr
  | _ => r.mr

/-- Write the register with a code; reserved bits of SR and MR read 0 (Tables 8.3, 8.4, R358). -/
def CoreRegs.put (r : CoreRegs) (code v : Nat) : CoreRegs :=
  match code with
  | 0 => { r with m := BitVec.ofNat 16 v }
  | 1 => { r with x := BitVec.ofNat 16 v }
  | 2 => { r with y := BitVec.ofNat 16 v }
  | 3 => { r with rc := BitVec.ofNat 16 v }
  | 4 => { r with sr := v % 32 }
  | _ => { r with mr := v % 65536 - v % 65536 % 16 + v % 8 }

/-! ### Operand spaces (R349 to R351) -/

/-- What an operand access meets. -/
inductive Operand (α : Type) where
  | ok (v : α)
  | fault (cause cls addr : Nat)
  | stall
  deriving Repr

/-- A word of the local data memory of core c. -/
def Hw.localWord (h : Hw) (c a : Nat) : Nat := (Store.get (fun _ => (0 : BitVec 32)) (h.core c).local_ a).toNat

/-- The part with a word of the local data memory of core c written. -/
def Hw.setLocal (h : Hw) (c a v : Nat) : Hw :=
  let k := h.core c
  (h.setCore c { k with local_ := Store.set (fun _ => (0 : BitVec 32)) k.local_ a (BitVec.ofNat 32 v) }).setEcc (localKey c a) 0

/-- A list of words written to the local data memory from word a. -/
def Hw.setLocals (h : Hw) (c a : Nat) : List Nat → Hw
  | [] => h
  | v :: vs => (h.setLocal c a v).setLocals c (a + 1) vs

/-- The byte address of word a of space sp; the AUX bits extend a sample-memory address (Table 8.1). -/
def spaceAddr (sp aux a : Nat) : Nat :=
  match sp with
  | 1 => 0x12000000 + 4 * a
  | 2 => 0x11000000 + 4 * a
  | _ => 0x10000000 + 4 * (aux % 4 * 65536 + a)

/-- Read the operand word (R349 to R351, R396, R397). -/
def Hw.operandRead (h : Hw) (c : Fin 8) (q sp aux a : Nat) : Operand (Nat × Hw) × Hw :=
  if sp = 0 then
    if a / 256 ≠ q then (.fault 3 0 0, h)
    else if h.unreadable (localKey c a) then (.fault 5 3 0, h.bump MEM_ECC_UE)
    else
      let h := h.correct (localKey c a)
      (.ok (h.localWord c a, h), h)
  else
    let b := spaceAddr sp aux a
    match h.access (.loop c) b 4 false with
    | .stall => (.stall, h.stallResp b)
    | .error k e => (.fault 4 k b, h.errorResp (.loop c) b 4 false k e)
    | .ok =>
      if h.unreadable b then (.fault 5 3 b, h.errorResp (.loop c) b 4 false 3 (h.eccCode b))
      else
        let h := h.correct b
        (.ok (h.load32 b, h), h)

/-- Store n bytes (4, or 2 into half `hi`) at word a of a space. A store to the strand table that collides waits in the core (R353). -/
def Hw.operandWrite (h : Hw) (c : Fin 8) (q sp a n v : Nat) (hi hit : Bool) : Operand Hw × Hw :=
  if sp = 0 then
    if a / 256 ≠ q then (.fault 3 0 0, h)
    else if h.unreadable (localKey c a) then (.fault 5 3 0, h.bump MEM_ECC_UE)
    else
      let h := h.correct (localKey c a)
      let h := h.setLocal c a (if n = 4 then v else mergeBytes (h.localWord c a) (if hi then 2 else 0) 2 v)
      (.ok h, h)
  else
    let b := spaceAddr sp 0 a + (if n = 2 ∧ hi then 2 else 0)
    match h.access (.loop c) b n true with
    | .stall => (.stall, h.stallResp b)
    | .error k e => (.fault 4 k b, h.errorResp (.loop c) b n true k e)
    | .ok =>
      if hit ∧ sp = 2 then
        let h := h.collide (.loop c) b 1
        let h := h.setCore c { h.core c with retry := some (b, n, v, 1) }
        (.ok h, h)
      else if h.unreadable b then (.fault 4 3 b, h.errorResp (.loop c) b n true 3 (h.eccCode b))
      else
        let h := (h.correct b).memStore b n v
        (.ok h, h)

end Sys2Proof.Machine
end

