-- ==== Sys2Proof/Machine/Kernels.lean ====
section
/-! DEFINITION. What the vendor kernels K0 to K5 return for a task (5.2 to 5.6, 7.3). Their programs are not given; their results are. Where
the rules give a real-valued formula without a number format, it is computed in integers of enough fraction bits (assumption log 21). -/

namespace Sys2Proof.Machine

/-- A loop task's return words (Table 5.2) and the words it writes to its state block. -/
structure KernelOut where
  ret   : RetWords
  obs   : List Nat        -- observation words 0 to 7 (Table 5.4)
  kern  : KernState
  decided : Bool          -- the task made a lock decision (R241)
  deriving DecidableEq, Repr

/-! ### Integer functions -/

/-- Bit by bit square root, largest integer whose square is at most n. -/
def isqrtFrom (n acc : Nat) : Nat → Nat
  | 0 => acc
  | k + 1 =>
    let c := acc + 2 ^ k
    isqrtFrom n (if c * c ≤ n then c else acc) k

/-- Square root of n < 2^320. -/
def isqrt (n : Nat) : Nat := isqrtFrom n 0 160

/-- atan(2^−i) in units of 2^−40 cycle. -/
def turnTable : List Int :=
  [137438953472, 81134951838, 42869480287, 21761217566, 10922836750, 5466743129, 2734038620, 1367102738, 683561799, 341782203,
   170891265, 85445653, 42722829, 21361415, 10680707, 5340354, 2670177, 1335088, 667544, 333772, 166886, 83443, 41722, 20861, 10430,
   5215, 2608, 1304, 652, 326, 163, 81, 41, 20, 10, 5]

/-- atan2(y, x) in units of 2^−32 cycle, from −2^31 to 2^31; 0 for (0, 0). -/
def turns (y x : Int) : Int :=
  if x = 0 ∧ y = 0 then 0
  else
    let s : Int := (2 ^ 40 : Nat)
    let (_, _, z) := if x < 0 then cordicLoop (-x * s) (-y * s) 0 0 turnTable else cordicLoop (x * s) (y * s) 0 0 turnTable
    let z := if x < 0 then (if y < 0 then z - 549755813888 else z + 549755813888) else z
    roundDiv z 256

/-- atan(y / x) in units of 2^−32 cycle, from −2^30 to 2^30; for x = 0, ±1/4 cycle with the sign of y (R235). -/
def halfTurns (y x : Int) : Int := if x < 0 then turns (-y) (-x) else turns y x

/-- Squared magnitude of (I, Q). -/
def mag2 (p : Int × Int) : Nat := (p.1 * p.1 + p.2 * p.2).toNat

/-- Magnitude × 2^16. -/
def magScaled (p : Int × Int) : Nat := isqrt (mag2 p * 2 ^ 32)

/-- log2(n / d) × 2^24 for n ≥ d > 0, from the fraction bits of repeated squaring; `x` is n / d on 2^62, below 2. -/
def log2Frac (x : Nat) (acc : Nat) : Nat → Nat
  | 0 => acc
  | k + 1 =>
    let y := x * x / 2 ^ 62
    if 2 ^ 63 ≤ y then log2Frac (y / 2) (2 * acc + 1) k else log2Frac y (2 * acc) k

/-- 100 × 10·log10(n / d) for n ≥ d > 0, rounded down (0.01 dB). -/
def centiDb (n d : Nat) : Nat :=
  let e := Nat.log2 (n / max 1 d)
  let x := n * 2 ^ 62 / (max 1 d * 2 ^ e)
  let l2 := e * 2 ^ 24 + log2Frac x 0 24
  -- 1000·log10(2) = 301.029995663981
  l2 * 301029995664 / (10 ^ 9 * 2 ^ 24)

/-! ### The inputs of a tracking task -/

/-- Tap t of the task: I and Q. -/
def LoopTask.tap (k : LoopTask) (t : Nat) : Int × Int :=
  (toSigned 32 (k.data.getD (2 * t) 0), toSigned 32 (k.data.getD (2 * t + 1) 0))

def LoopTask.reloaded (k : LoopTask) : Bool := bit k.word0 14
def LoopTask.state (k : LoopTask) : Nat := bits k.word0 15 3

/-- A Q15 or U16 field of the body (Table 3.3), and a signed one. -/
def LoopTask.field (k : LoopTask) (o : Nat) : Nat := bodyHalf k.body o
def LoopTask.q15 (k : LoopTask) (o : Nat) : Int := toSigned 16 (bodyHalf k.body o)

/-- f_L on the frequency channel of the body: 1602 MHz + k × 0.5625 MHz, k = FCH − 8 (R240). -/
def fdmaHz (b : List Nat) : Nat := 1602000000 + bodyFch b * 562500 - 8 * 562500

/-- f_L of the signal (Table 3.1): for L1OF it depends on the frequency channel. -/
def carrierHz (b : List Nat) : Nat := if bodySig b = 0x31 then fdmaHz b else (bodySignal b).carrier

/-- f_L as the kernel takes it: K3 takes the FDMA carrier whatever the signal (R240). -/
def LoopTask.carrier (k : LoopTask) : Nat := if k.slot = 3 then fdmaHz k.body else carrierHz k.body

/-- f_chip as the kernel takes it: 0.511 Mchip/s for K3 (R240). -/
def LoopTask.chipHz (k : LoopTask) : Nat := if k.slot = 3 then 511000 else (bodySignal k.body).chipHz

/-- The signal is BOC(1,1). -/
def isBoc (b : List Nat) : Bool := (bodySignal b).replica == .boc

/-- The aiding words (Table 3.4). -/
def LoopTask.aidW (k : LoopTask) (i : Nat) : Nat := k.aid.getD i 0

/-- Δn of R253. -/
def LoopTask.dn (k : LoopTask) : Int := toSigned 32 (k.nb + pow2 32 - k.aidW 0 % pow2 32)

/-- Aiding is stale (R255). -/
def Hw.aidStale (h : Hw) (k : LoopTask) : Bool :=
  let lim := if k.field 0x38 = 0 then 200 else k.field 0x38
  !bit (k.aidW 5) 0 || decide (lim * h.ringHz (bodyPort k.body) < k.dn.natAbs * 1000)

/-- The hard bit predicted for the symbol that holds the integration, if the symbol lies in the 64 predicted (R256). -/
def Hw.predictedBit (h : Hw) (k : LoopTask) : Option Bool :=
  if bit (k.aidW 5) 2 then
    let a := 0x12010000 + 32 * k.strand + 16 * (bits (k.aidW 5) 8 8 % 2)
    let d := (h.load32 (nbAddr k.strand + 4) + pow2 32 - h.load32 a) % pow2 32
    if d < 64 then some (bit (h.load32 (a + 8 + 4 * (d / 32))) (d % 32)) else none
  else none

/-! ### Discriminators (Table 5.6) -/

/-- θ, φ in 2^−32 cycle and ε in 2^−24 chip. -/
structure Disc where
  theta : Int
  phi   : Int
  eps   : Int
  deriving DecidableEq, Repr

/-- The discriminators of R235; `four` asks for the four-quadrant θ and φ, `noPhi` for φ = 0 (R259). -/
def discriminators (k : LoopTask) (s : KernState) (p : Int × Int) (four noPhi : Bool) : Disc :=
  let b := k.body
  if k.starved ∨ k.gap then ⟨0, 0, 0⟩
  else
    let wide := k.state == 2 && !isBoc b
    let e := magScaled (k.tap (if wide then 3 else 1))
    let l := magScaled (k.tap (if wide then 4 else 2))
    let d : Int := if wide then bodyDllOut b else bodyDllIn b
    let g : Int := if isBoc b ∧ k.slot ≠ 3 then 32 - 3 * d else 3 * (32 - d)   -- in 1/96; K3 takes the BPSK gain (R240)
    let eps := if e + l = 0 then 0 else roundDiv (g * ((l : Int) - (e : Int)) * 16777216) (96 * ((e + l : Nat) : Int))
    let theta := if four then turns p.2 p.1 else halfTurns p.2 p.1
    let phi := match s.prev with
      | none => 0
      | some (pi, pq, c) =>
        if noPhi ∨ c ≠ k.int then 0
        else
          let cross := pi * p.2 - p.1 * pq
          let dot := pi * p.1 + pq * p.2
          if four then turns cross dot else halfTurns cross dot
    ⟨theta, phi, eps⟩

/-! ### The scalar loop (R236 to R240) -/

/-- T × ring rate × 1000: the integration period of the task in thousandths of a ring sample (R236, R254). -/
def Hw.periodMilli (h : Hw) (k : LoopTask) : Int := max 1 (intMs k.int * h.ringHz (bodyPort k.body) : Nat)

/-- The code rate for a carrier rate of `carrQ` / 2^16 units and a code-loop term `vk` in 2^−48 chip (R236, R237). -/
def Hw.codeRateFor (h : Hw) (k : LoopTask) (carrQ vk : Int) : Int :=
  let n := bodyPort k.body
  let hz : Int := h.ringHz n
  let fL : Int := k.carrier
  let fNom := fL - (h.rf (match n with | 0 => LOOP_LO_LO 0 | 1 => LOOP_LO_LO 1 | 2 => LOOP_LO_LO 2 | _ => LOOP_LO_LO 3) : Int)
  let dop16 := carrQ * hz / (pow2 32 : Nat) - fNom * 65536
  let gq : Int := if k.field 0x26 = 0x7FFF then 32768 else k.q15 0x26
  let a16 := (k.chipHz : Int) * (pow2 48 : Nat) * (fL * (pow2 31 : Nat) + gq * dop16) / (hz * fL * (pow2 31 : Nat))
  (a16 + vk * 1000 / h.periodMilli k + 32768) / 65536

/-- One update of the scalar loop: the filters and CODE and CARR (R236 to R239). -/
def Hw.scalarLoop (h : Hw) (k : LoopTask) (s : KernState) (d : Disc) : KernState × Int × Int :=
  let fll := k.state == 2 || (k.state == 3 && !s.lockP)
  let noCode := isBoc k.body && decide (10 < bodyDllIn k.body)
  -- θ and φ are in 2^−32 cycle, ε in 2^−24 chip; the filters in 2^−48
  let k1 := k.q15 0x18 * d.theta * 2                       -- C1·2^−15·θ
  let k2 := k.q15 0x1A * d.theta / 128                     -- C2·2^−23·θ
  let k3 := k.q15 0x1C * d.theta / 8192                    -- C3·2^−29·θ
  let a1 := if fll then k.q15 0x1E * d.phi / 8 else 0      -- C1·2^−19·φ
  let a2 := if fll then k.q15 0x20 * d.phi / 2048 else 0   -- C2·2^−27·φ
  let c1 := if noCode then 0 else k.q15 0x22 * d.eps * 32  -- C1·2^−19·ε
  let c2 := if noCode then 0 else k.q15 0x24 * d.eps / 8   -- C2·2^−27·ε
  let w2 := s.w2 + k3 + a2
  let w1 := s.w1 + w2 + k2 + a1
  let v := s.v + c2
  let carrQ := s.base * 65536 + (w1 + k1) * 1000 / h.periodMilli k
  ({ s with w1 := w1, w2 := w2, v := v }, h.codeRateFor k carrQ (v + c1), roundDiv carrQ 65536)

/-! ### Lock detectors (R241 to R246) -/

/-- The prompt added to the lock window. -/
def KernState.lockAdd (s : KernState) (p : Int × Int) (pilot : Bool) : KernState :=
  let pw := mag2 p
  let (dot, pp) := match s.prev with
    | none => ((0 : Int), 0)
    | some (pi, pq, _) =>
      let d := pi * p.1 + pq * p.2
      (if pilot then d else (d.natAbs : Int), isqrt (pw * mag2 (pi, pq)))
  { s with n := s.n + 1, sDiff := s.sDiff + p.1 * p.1 - p.2 * p.2, sPow := s.sPow + pw, sDot := s.sDot + dot, sPP := s.sPP + pp,
           m4 := s.m4 + pw * pw }

/-- C/N0 of the window in 0.01 dB-Hz (R242). -/
def KernState.cnWindow (s : KernState) (ms : Nat) : Nat :=
  let pd := isqrt (2 * s.sPow * s.sPow - s.n * s.m4)
  let pn := s.sPow - pd
  if pd = 0 ∨ pn = 0 then 0
  else if pd * 1000 < pn * ms then 0 else satTo 65535 (centiDb (pd * 1000) (pn * ms))

/-- The lock decision at the end of a window: the state after it, lock declared, loss declared (R243 to R246, R259). -/
def lockDecision (k : LoopTask) (s : KernState) (k2NoSec : Bool) : KernState × Bool × Bool :=
  let cn := s.cnWindow (intMs k.int)
  let pli := if s.sPow = 0 then 0 else clampInt (-32768) 32767 (s.sDiff * 32768 / (s.sPow : Int))
  let fli := if s.sPP = 0 then 0 else clampInt (-32768) 32767 (s.sDot * 32768 / (s.sPP : Int))
  let thr := k.field 0x2C
  let lockC := if thr ≤ cn then true else if cn + 300 < thr then false else s.lockC
  let lockP := lockC && decide (k.q15 0x28 ≤ pli)
  let lost := if lockC then 0 else s.lost + 1
  let lock := (k.state == 2 || k.state == 5) && lockC && lockP && decide (k.q15 0x2A ≤ fli)
  let loss := (k.state == 3 || k.state == 4) && (decide (2 ≤ lost) || k2NoSec)
  ({ s with n := 0, sDiff := 0, sPow := 0, sDot := 0, sPP := 0, m4 := 0, lockC := lockC, lockP := lockP, lost := lost, cn0 := cn,
            pli := pli }, lock, loss)

/-! ### Multipath shape fit (R247 to R251) -/

/-- R at j/64 chip − 2 chips, Q15; 0 beyond ±2 chips (R248). -/
def Hw.shapeAt (h : Hw) (shape : Nat) (j : Int) : Int :=
  if j < 0 ∨ 256 < j then 0 else toSigned 16 (h.load (0x12014000 + 1024 * shape + 2 * j.toNat) 2)

/-- A 3 × 3 determinant. -/
def det3 (a b c d e f g h i : Int) : Int := a * (e * i - f * h) - b * (d * i - f * g) + c * (d * h - e * g)

/-- Sum of the products of two lists. -/
def dotL : List Int → List Int → Int
  | x :: xs, y :: ys => x * y + dotL xs ys
  | _, _ => 0

/-- The least-squares solution for one candidate δ = n/16 chip: determinants of A0, B and A1, their common denominator, and the explained
sum of squares × denominator (R249). -/
def Hw.fitOne (h : Hw) (b : List Nat) (shape : Nat) (ys : List Int) (n : Nat) : Option (Int × Int × Int × Int × Int) :=
  let js := (upTo 16).map fun t => 128 + 2 * tapOffset b t
  let r0 := js.map (h.shapeAt shape ·)
  let rp := js.map fun j => (h.shapeAt shape (j + 1) - h.shapeAt shape (j - 1)) * 32
  let r1 := js.map fun j => h.shapeAt shape (j - 4 * n)
  let a := dotL r0 r0
  let bb := dotL r0 rp
  let c := dotL r0 r1
  let d := dotL rp rp
  let e := dotL rp r1
  let f := dotL r1 r1
  let y0 := dotL r0 ys
  let yp := dotL rp ys
  let y1 := dotL r1 ys
  let den := det3 a bb c bb d e c e f
  if den ≤ 0 then none
  else
    let n0 := det3 y0 bb c yp d e y1 e f
    let np := det3 a y0 c bb yp e c y1 f
    let n1 := det3 a bb y0 bb d yp c e y1
    some (n0, np, n1, den, n0 * y0 + np * yp + n1 * y1)

/-- The candidate with the smallest residual, ties to the smaller δ (R249). -/
def Hw.fitBest (h : Hw) (b : List Nat) (shape : Nat) (ys : List Int) : Option (Int × Int × Int × Int × Int) :=
  (upTo 16).foldl (fun acc n =>
    match h.fitOne b shape ys (n + 1), acc with
    | none, _ => acc
    | some x, none => some x
    | some x, some y => if y.2.2.2.2 * x.2.2.2.1 < x.2.2.2.2 * y.2.2.2.1 then some x else some y) none

/-- MPV, MP_EST and MPI of a fit (R248, R250). -/
def Hw.fitOut (h : Hw) (b : List Nat) (ys : List Int) : Bool × Int × Nat :=
  let shape := bodyHalf b 0x34
  if 31 < shape then (false, 0, 255)
  else match h.fitBest b shape ys with
    | none => (false, 0, 255)
    | some (n0, np, n1, _, _) =>
      if n0 ≤ 0 ∨ n0 ≤ (n1.natAbs : Int) then (false, 0, 255)
      else (true, clampInt (-32768) 32767 (np * 32768 / n0), 254 * n1.natAbs / n0.toNat)

/-- The accumulation of y_t, and the fit when SPAN ms are reached (R247, R251). `p` is the prompt as it was summed, so that predicted bits turn
no sign of y_t (DEDUCED, assumption log 21). -/
def Hw.fitStep (h : Hw) (k : LoopTask) (s : KernState) (p : Int × Int) : KernState :=
  let pm : Int := isqrt (mag2 p)
  if pm = 0 then s
  else
    let y := (upTo 16).map fun t => ((k.tap t).1 * p.1 + (k.tap t).2 * p.2) / pm
    let ys := if s.ys.isEmpty then y else (s.ys.zip y).map fun z => z.1 + z.2
    let ms := s.yMs + intMs k.int
    if max 1 (h.rf LOOP_MPCFG_SPAN) ≤ ms then
      let (v, e, i) := h.fitOut k.body ys
      { s with ys := [], yMs := 0, mpv := v, mpEst := e, mpi := i }
    else { s with ys := ys, yMs := ms }

/-! ### Vector tracking and COAST (R253 to R259) -/

/-- CODE of R253. -/
def vectorCode (k : LoopTask) : Int :=
  let p : Int := ((bodySignal k.body).chips : Nat)
  let m := p * (chipUnit : Nat)
  let phiA := (k.aidW 1 : Int) * p + toSigned 32 (k.aidW 2) * k.dn
  let e := (phiA - (k.phi : Int)).emod m
  let e := if m < 2 * e then e - m else e
  toSigned 32 (k.aidW 2) + roundDiv (k.q15 0x36 * e) (32768 * ((max 1 k.samples : Nat) : Int))

/-- f_a of R254, in units of CARR_RATE × 2^16. -/
def Hw.vectorCarr (h : Hw) (k : LoopTask) : Int :=
  -- t_m in ms = (Δn + S/2) × 1000 / ring rate; AID_CACC × 2^−8 × t_m, on 2^16
  let hz : Int := max 1 (h.ringHz (bodyPort k.body))
  toSigned 32 (k.aidW 3) * 65536 + toSigned 32 (k.aidW 4) * (2 * k.dn + (k.samples : Int)) * 500 * 256 / hz

/-! ### A tracking task of K0 to K3 -/

/-- SEC_IDX of a signal whose synchroniser is locked (R268). -/
def Hw.secReturn (h : Hw) (k : LoopTask) : Option Nat :=
  let st := h.load32 (nbAddr k.strand)
  let row := bodySignal k.body
  if row.sync = .sec ∧ st % 4 = 2 ∧ row.secLen ≠ 0 then
    some ((((k.prim : Int) - (bits st 8 8 : Int)).emod (row.secLen : Int)).toNat)
  else none

/-- What K0, K1, K2 or K3 (slot 0 to 3) returns for a tracking task (R235 to R259). SYM is the prompt's in-phase sum (assumption log 21). -/
def Hw.trackKernel (h : Hw) (k : LoopTask) (s : KernState) : KernelOut :=
  let aided := k.slot == 1 || k.slot == 2
  let vec := aided && (k.state == 4 || k.state == 5)
  let stale := aided && h.aidStale k
  let s := if k.reloaded then { s with w1 := 0, w2 := 0, v := 0, base := toSigned 32 k.rates.2, mpv := false } else s
  let s := if aided && stale != s.stale then { s with stale := stale, w1 := 0, w2 := 0, v := 0, base := toSigned 32 k.rates.2 } else s
  let pilot := (bodySignal k.body).pilot
  let pred := if aided then h.predictedBit k else none
  let raw := k.tap 0
  let p := if pred = some true then (-raw.1, -raw.2) else raw
  let four := pilot || pred.isSome || k.slot == 2
  let usable := !k.starved && !k.gap && !k.susp
  let d := discriminators k s p four (k.slot == 2)
  -- lock and fit
  let s1 := if usable ∧ !(k.state == 5 && k.gap) then s.lockAdd p pilot else s
  let win := max 1 (min 1000 (k.field 0x2E))
  let (s2, lock, loss) :=
    if win ≤ s1.n then lockDecision k s1 (k.slot == 2 && decide (20 < intMs k.int) && (h.strand k.strand).sec.isNone)
    else (s1, false, false)
  let s3 := if usable ∧ s2.lockP then h.fitStep k s2 raw else s2
  -- rates
  let (s4, rates) : KernState × Option (Int × Int) :=
    if vec && !stale then
      if k.state == 4 then
        let w1 := s3.w1 + k.q15 0x1A * d.theta / 128
        let carrQ := h.vectorCarr k + (w1 + k.q15 0x18 * d.theta * 2) * 1000 / h.periodMilli k
        ({ s3 with w1 := w1 }, some (vectorCode k, roundDiv carrQ 65536))
      else (s3, some (vectorCode k, roundDiv (h.vectorCarr k) 65536))
    else if vec && k.state == 5 then (s3, none)
    else
      let (q, code, carr) := h.scalarLoop k s3 d
      (q, some (code, carr))
  let s5 := { s4 with prev := if k.starved ∨ k.gap then none else some (p.1, p.2, k.int) }
  let sec := h.secReturn k
  let symv := !k.starved && !k.gap
  let code := match rates with | some (c, _) => ofInt 32 c | none => 0
  let carr := match rates with | some (_, c) => ofInt 32 c | none => 0
  let flags := b2n rates.isSome + 2 * b2n lock + 4 * b2n loss + 32 * b2n symv + 64 * b2n s5.mpv + 128 * b2n sec.isSome +
    8192 * b2n s5.lockC + 16384 * b2n s5.lockP
  let mp := ofInt 16 s5.mpEst + 65536 * (s5.mpi % 256)
  let lockw := s5.cn0 + 65536 * ofInt 16 s5.pli
  let sym := if symv then ofInt 32 raw.1 else 0
  let fe := roundDiv (d.phi * 1000) (65536 * (intMs k.int : Nat))
  { ret := ⟨flags, code, carr, lockw, sym, mp, sec.getD 0, 0⟩,
    obs := [k.iseq + 65536 * k.state + pow2 19 * b2n k.starved + pow2 20 * b2n s5.lockC + pow2 21 * b2n s5.lockP +
      pow2 22 * b2n stale + pow2 23 * b2n k.gap, k.nb % pow2 32, ofInt 32 d.eps, ofInt 32 d.theta, ofInt 32 fe, lockw, mp, sym],
    kern := s5, decided := decide (win ≤ s1.n) }

/-! ### K4, the search manager (R260 to R263) -/

/-- A word of a tranche task from word 0x20. -/
def LoopTask.tw (k : LoopTask) (i : Nat) : Nat := k.data.getD i 0

/-- The rates of a detection (R263). -/
def Hw.detectRates (h : Hw) (k : LoopTask) (bin : Int) : Nat × Nat :=
  let n := bodyPort k.body
  let carr := toSigned 32 (bodyCarr k.body) + bin * ((h.binStep n (k.tw 1) : Nat) : Int)
  (ofInt 32 (h.codeRateFor k (carr * 65536) 0), ofInt 32 carr)

/-- K4 on a tranche task: what it returns, and what it keeps of the Strand's search (R260 to R263). -/
def Hw.searchKernel (h : Hw) (k : LoopTask) (u : Search) : RetWords × Search :=
  let bin := toSigned 32 (k.tw 0)
  let p1 := k.tw 2
  let hyp := k.tw 3
  let sum := k.tw 8 + k.tw 9 * pow2 32
  let n := k.tw 10
  if k.tw 11 = 0 then
    let cross := if sum = 0 then k.field 0x36 = 0 else k.field 0x36 * sum ≤ p1 * n * 256
    if cross ∧ u.verify.isNone ∧ u.verOut.isNone then
      (⟨16, 0, 0, 0, 0, 0, 0, hyp + 65536 * ofInt 16 bin⟩,
       { u with verify := some (hyp, bin, k.tw 1), mean := (sum, n), dwell := k.tw 13 })
    else (⟨0, 0, 0, 0, 0, 0, 0, 0⟩, u)
  else
    let h0 : Int := match u.verOut with | some (x, _) => (x : Int) | none => 0
    -- hypotheses of the verify tranche are h − 15 to h + 16
    let off : Int := (hyp : Int) - 15
    let dv := min (2 * u.dwell) 255
    let good := off.natAbs ≤ 2 ∧ u.mean.1 ≠ 0 ∧ k.field 0x38 * u.mean.1 * dv ≤ p1 * u.dwell * u.mean.2 * 256
    let u := { u with verOut := none }
    if good then
      let (code, carr) := h.detectRates k bin
      let hv := (h0 + off).emod ((2 * (bodySignal k.body).chips : Nat) : Int)
      (⟨8, code, carr, 0, 0, 0, 0, hv.toNat % 65536 + 65536 * ofInt 16 bin⟩,
       { u with detect := some (hv.toNat, code, carr, h.ringCount (bodyPort k.body)) })
    else (⟨0, 0, 0, 0, 0, 0, 0, 0⟩, u)

/-! ### K5, snapshot (R341, Table 7.5) -/

/-- K5 on a tranche task: the best tranche so far. Words 12 to 14 of the task are the largest power more than 2 hypotheses away, P_u, and
whether a SUSPECT block was read. -/
def snapKernel (k : LoopTask) (u : SnapBest) : SnapBest :=
  let p1 := k.tw 2
  let hyp := k.tw 3
  let near := fun x : Nat => if k.tw 5 = x ∧ k.tw 4 ≠ 0 then some (k.tw 4) else if k.tw 7 = x ∧ k.tw 6 ≠ 0 then some (k.tw 6) else none
  let susp := u.susp || k.tw 14 != 0
  if u.cells = 0 ∨ u.p1 < p1 then
    ⟨hyp, toSigned 32 (k.tw 0), p1, k.tw 12, k.tw 8 + k.tw 9 * pow2 32, k.tw 10, if hyp = 0 then none else near (hyp - 1), near (hyp + 1),
      k.tw 13, susp⟩
  else { u with susp := susp }

/-- HYP refined by a parabola through its neighbours, in half chips × 2^32 (R341). -/
def SnapBest.phase (u : SnapBest) : Int :=
  let base : Int := (u.hyp : Int) * (chipUnit / 2 : Nat)
  match u.below, u.above with
  | some b, some a =>
    let den : Int := 2 * (2 * (u.p1 : Int) - (a : Int) - (b : Int))
    if den = 0 then base else base + roundDiv (((a : Int) - (b : Int)) * (chipUnit / 2 : Nat)) den
  | _, _ => base

/-- The snapshot result, words 8 to 15 of the state block (Table 7.5); `cn0` is K5's estimate, for which no formula is given. -/
def Hw.snapResult (h : Hw) (t : Strand) (cn0 : Nat) : List Nat :=
  let u := t.snap
  let b := t.body
  let chips := (bodySignal b).chips
  let det := u.sum != 0 && decide (bodyHalf b 0x36 * u.sum ≤ u.p1 * u.cells * 256)
  let ph := ((bodyCpStart b : Int) * (chipUnit : Nat) + u.phase).emod ((chips * chipUnit : Nat) : Int)
  let (tc, _) := h.coherent t
  [u.hyp % 65536 + 65536 * ofInt 16 u.bin, u.p1, u.second, u.sum % pow2 32,
   u.cells % 65536 + 65536 * (u.periods % 256) + pow2 24 * b2n det + pow2 25 * b2n u.susp + pow2 26 * b2n (decide (u.periods < bodyDwell b)),
   (roundDiv ph (chips : Int)).toNat % pow2 32,
   ofInt 32 (toSigned 32 (bodyCarr b) + u.bin * ((h.binStep (bodyPort b) tc : Nat) : Int)), cn0 % 65536]

/-- After the last tranche K5 writes the result, with its C/N0 in observation word 5 as well, and the Strand becomes IDLE with OK (R232, R341,
Table 3.6). -/
def Hw.snapFinish (h : Hw) (s : Nat) : Hw :=
  let t := h.strand s
  let u := t.search
  if t.state = .snapshot ∧ t.coilWork ∧ u.done ∧ u.inFlight = 0 ∧ u.tasks = 0 then
    let (cn0, h) := h.fresh
    let w5 := stateBlock s + 20
    let h := h.putWords w5 [h.load32 w5 / 65536 * 65536 + cn0 % 65536]
    (h.putWords (stateBlock s + 32) (h.snapResult t cn0)).toIdle s 0
  else h

end Sys2Proof.Machine
end

