-- ==== Sys2Proof/Machine/LoopCore.lean ====
section
/-! DEFINITION. How a loop core runs one instruction (chapter 8): fetch, legality, the repeat prefixes, the cycle limit and the fetch range, precise
faults and their capture (R229, R356, R366, R372 to R388), and the four shapes of an instruction. -/

namespace Sys2Proof.Machine

/-- The range of a kernel slot holds program word `w` (R388). -/
def Hw.inSlot (h : Hw) (slot w : Nat) : Bool :=
  decide (h.rf (LOOP_KSLOT_RANGE_BASE slot) ≤ w) &&
    decide (w < h.rf (LOOP_KSLOT_RANGE_BASE slot) + h.rf (LOOP_KSLOT_RANGE_LEN slot))

/-- The program word at word address `w`. -/
def Hw.programWord (h : Hw) (w : Nat) : Nat := h.load32 (0x12800000 + 4 * w)

/-- What a fault reports beside its cause: the class of a bus error and the byte address for the log, the operand's word address and space,
and whether it was a write. -/
structure FaultInfo where
  cause : Nat
  cls   : Nat
  byte  : Nat
  ea    : Nat
  sp    : Nat
  write : Bool
  deriving DecidableEq, Repr

/-- A fault without an operand. -/
def plainFault (cause : Nat) : FaultInfo := ⟨cause, 0, 0, 0, 0, false⟩

/-- The task of a Strand has ended in a fault: the boundary will be closed with the kernel-fault transition, or the tranche counts as
reported (R229). -/
def Hw.taskFaulted (h : Hw) (k : LoopTask) : Hw :=
  if k.dead then h
  else
    let t := h.strand k.strand
    match k.kind with
    | 0 =>
      match t.ended with
      | some e => h.setStrand k.strand { t with ended := some { e with fault := true } }
      | none => h
    | _ =>
      let u := t.search
      let h := h.setStrand k.strand { t with search := { u with tasks := u.tasks - 1, verOut := if k.tw 11 = 1 then none else u.verOut } }
      (h.passEnd k.strand).snapFinish k.strand

/-- A kernel fault of core c (R229, R380, R383): captured when nothing is captured yet, counted, logged with class LOOP, and the task ends. -/
def Hw.loopFault (h : Hw) (c : Fin 8) (t : Running) (pc : Nat) (f : FaultInfo) : Hw :=
  let remain := match t.regs.rep with | some (n, _) => n | none => 0
  let h := h.bump LOOP_TALLY1_FAULTS
  let h :=
    if h.on LOOP_FAULT_VALID then h
    else
      let h := (((h.sf LOOP_FAULT_STRAND t.task.strand).sf LOOP_FAULT_KSLOT t.task.slot).sf LOOP_FAULT_CORE c.val).sf
        LOOP_FAULT_CAUSE f.cause
      let h := (h.sf LOOP_FAULT_VALID 1).sf LOOP_FAULTPC_PC pc
      let h := (h.sf LOOP_FAULTCTX_ADDR f.ea).sf LOOP_FAULTCTX_REMAIN remain
      let h := ((h.sf LOOP_FAULTINFO_SP f.sp).sf LOOP_FAULTINFO_WRITE (b2n f.write)).sf LOOP_FAULTINFO_REP (b2n t.regs.rep.isSome)
      ((h.sf LOOP_FAULTINFO_RPTI (match t.regs.rep with | some (_, k) => b2n k | none => 0)).sf LOOP_FAULTINFO_AREA t.area).sf
        LOOP_FAULTINFO_CYC (satTo (2 ^ 24 - 1) t.regs.cyc)
  let h := h.report 5 f.cause (0x10 + c.val) f.byte (t.task.strand + 512 * t.task.slot + 8192 * c.val + f.cls * pow2 28)
  let h := h.setCore c { h.core c with run := none, preempt := false }
  h.taskFaulted t.task

/-- The checks of a repeat prefix on the word that follows it (R374, R376). -/
def Hw.prefixFault (h : Hw) (i : Insn) (pc : Nat) : Option Nat :=
  let j := insnOf (h.programWord (pc + 1))
  if j.notRepeatable then some 1
  else if i.op == 0x34 && j.writesRC then some 2
  else none

/-- The task's cycle count would rise above the limit of its slot (R387). -/
def Hw.overLimit (h : Hw) (t : Running) (cost : Nat) : Bool :=
  let l := h.rf (LOOP_KSLOT_CFG_LIMIT t.task.slot)
  l != 0 && decide (16 * l < t.regs.cyc + cost)

/-- The count of a repeat prefix (R372). -/
def repeatCount (r : CoreRegs) (i : Insn) : Nat := if bit i.word 16 then r.rc.toNat else bits i.word 0 8 + 1

/-- Core c stands at a permitted point (R377): not inside an RPT, and not between a prefix and its first iteration. -/
def Hw.permittedPoint (h : Hw) (r : CoreRegs) : Bool :=
  match r.rep with
  | none => true
  | some (_, false) => false
  | some (n, true) => decide (n < repeatCount r (insnOf (h.programWord (r.pc - 1))))

/-- A requested pre-emption takes effect now: the task stands at a permitted point, and a save slot is free (R377, R378). -/
def Hw.mustSave (h : Hw) (k : Core) (t : Running) : Bool := k.preempt && decide (k.saved.length < 7) && h.permittedPoint t.regs

/-- Core c issues the instruction at its PC, if that is an instruction of operation code `op`: the checks of R382 up to the cycle limit, then
`go`. Nothing issues while a pre-emption is to take effect (R377). A word whose operation code is in no row of Table 8.9 faults whichever command meets it (assumption log 20). `cost` gives the cycles. -/
def Hw.loopIssue (h : Hw) (c : Fin 8) (op : Nat) (cost : CoreRegs → Insn → Nat) (go : Hw → Running → Insn → Hw) : Hw :=
  let k := h.core c
  match k.run with
  | none => h
  | some t =>
    let pc := t.regs.pc
    let a := 0x12800000 + 4 * pc
    if k.retry.isSome ∨ h.mustSave k t ∨ h.unitTesting 6 ∨ h.rowLocked 6 a then h
    else if h.unreadable a then (h.bump MEM_ECC_UE).sf MEM_ECCADDR_ADDR a |>.loopFault c t pc { plainFault 7 with byte := a, cls := 3 }
    else
      let i := insnOf (h.programWord pc)
      if opKnown i.op ∧ i.op ≠ op then h
      else if !i.legal then h.loopFault c t pc (plainFault 1)
      else
        let h := h.correct a
        match (if i.op == 0x33 || i.op == 0x34 then h.prefixFault i pc else none) with
        | some cause => h.loopFault c t pc (plainFault cause)
        | none => if h.overLimit t (cost t.regs i) then h.loopFault c t pc (plainFault 9) else go h t i

/-- Where the PC goes after an instruction that is no branch, and the repeat counter then (R373). -/
def CoreRegs.after (r : CoreRegs) : Nat × Option (Nat × Bool) :=
  match r.rep with
  | some (n, k) => if 1 < n then (r.pc, some (n - 1, k)) else (r.pc + 1, none)
  | none => (r.pc + 1, none)

/-- The instruction completes with registers r. -/
def Hw.loopRetire (h : Hw) (c : Fin 8) (t : Running) (r : CoreRegs) (cost : Nat) : Hw :=
  let (pc, rep) := t.regs.after
  h.setCore c { h.core c with run := some { t with regs := { r with pc := pc, rep := rep, cyc := t.regs.cyc + cost } } }

/-- The fetch check before an instruction that is no branch takes effect (R388). -/
def Hw.fetchOk (h : Hw) (t : Running) : Bool := h.inSlot t.task.slot t.regs.after.1

/-- An instruction that changes only registers. -/
def Hw.runPlain (h : Hw) (c : Fin 8) (op : Nat) (f : CoreRegs → Insn → CoreRegs) : Hw :=
  h.loopIssue c op (fun _ i => i.cycles) fun h t i =>
    if !h.fetchOk t then h.loopFault c t t.regs.pc (plainFault 6) else h.loopRetire c t (f t.regs i) i.cycles

/-- An instruction that takes an operand word, or an immediate: `f` gets the registers, the instruction and the word. -/
def Hw.runValue (h : Hw) (c : Fin 8) (op : Nat) (f : CoreRegs → Insn → Nat → CoreRegs) : Hw :=
  h.loopIssue c op (fun _ i => i.cycles) fun h t i =>
    if !h.fetchOk t then h.loopFault c t t.regs.pc (plainFault 6)
    else if i.am = 6 then h.loopRetire c t (f t.regs i 0) i.cycles
    else
      let a := i.ea t.area t.regs
      match h.operandRead c t.area i.sp i.aux a with
      | (.stall, h) => h
      | (.fault cause cls b, h) => h.loopFault c t t.regs.pc ⟨cause, cls, b, a, i.sp, false⟩
      | (.ok (w, _), h) => h.loopRetire c t (f (i.update t.regs) i w) i.cycles

/-- A store: `f` gets the registers and the instruction and answers the value and the registers after; `n` bytes are stored. -/
def Hw.runStore (h : Hw) (c : Fin 8) (op n : Nat) (hit : Bool) (f : CoreRegs → Insn → Nat × CoreRegs) : Hw :=
  h.loopIssue c op (fun _ i => i.cycles) fun h t i =>
    if !h.fetchOk t then h.loopFault c t t.regs.pc (plainFault 6)
    else
      let a := i.ea t.area t.regs
      let (v, r) := f t.regs i
      match h.operandWrite c t.area i.sp a n v i.h hit with
      | (.stall, h) => h
      | (.fault cause cls b, h) => h.loopFault c t t.regs.pc ⟨cause, cls, b, a, i.sp, true⟩
      | (.ok _, h) => h.loopRetire c t (i.update r) i.cycles

/-! ### The instructions (Table 8.9) -/

/-- ST: A saturated to the Q31 range. -/
def CoreRegs.storeSat (r : CoreRegs) : Nat × CoreRegs :=
  let v := clampInt q31Min q31Max r.acc
  (ofInt 32 v, if v = r.acc then r else r.setFlag flagSF true)

/-- STH: A rounded at bit 16, then saturated to a Q15 value. -/
def CoreRegs.storeHalf (r : CoreRegs) : Nat × CoreRegs :=
  let w := roundAt r.rnd r.acc 16
  let v := clampInt (-32768) 32767 w
  (ofInt 16 v, if v = w then r else r.setFlag flagSF true)

/-- ADD and ADDH. -/
def CoreRegs.add (r : CoreRegs) (v : Int) : CoreRegs := (r.setFlag flagC (r.carryAdd v)).result (r.acc + v)

/-- SUB and SUBH. -/
def CoreRegs.sub (r : CoreRegs) (v : Int) : CoreRegs := (r.setFlag flagC (r.carrySub v)).result (r.acc - v)

/-- CMP and CMPH. -/
def CoreRegs.cmp (r : CoreRegs) (v : Int) : CoreRegs := (r.setFlag flagC (r.carrySub v)).setZN (r.acc - v)

/-- 2 × M × h. -/
def CoreRegs.product (r : CoreRegs) (v : Int) : Int := 2 * r.m.toInt * v

/-- AND, OR and XOR: bits 31 to 0 take the result, bits 39 to 32 copies of bit 31. -/
def CoreRegs.logic (r : CoreRegs) (n : Nat) : CoreRegs := r.load (toSigned 32 n)

/-- Bits 31 to 0 of A. -/
def CoreRegs.low (r : CoreRegs) : Nat := r.a.toNat % pow2 32

/-- SAT. -/
def CoreRegs.clamp (r : CoreRegs) : CoreRegs :=
  let v := clampInt q31Min q31Max r.acc
  (if v = r.acc then r else r.setFlag flagSF true).load v

/-- NORM (R369). -/
def CoreRegs.norm (r : CoreRegs) : CoreRegs :=
  if r.acc = 0 then { r with m := 0 }.setZN 0
  else
    let k := normShift r.acc 40
    { r with m := BitVec.ofInt 16 k }.load (if 0 ≤ k then r.acc * (2 ^ k.toNat : Nat) else r.acc / (2 ^ (-k).toNat : Nat))

/-- ADDG: register + imm modulo 2^16. -/
def CoreRegs.addReg (r : CoreRegs) (i : Insn) : CoreRegs := r.put i.aux ((r.get i.aux + i.addr) % 65536)

/-- The two halves of a complex Q15 word. -/
def cplx (w : Nat) : Int × Int := (toSigned 16 w, toSigned 16 (w / 65536))

/-- The term of CMAC (R368): IM, CJ and NEG are AUX bits 0, 1 and 2. -/
def cmacTerm (aux : Nat) (u v : Int × Int) : Int :=
  let vq := if bit aux 1 then -v.2 else v.2
  let r := if bit aux 0 then u.1 * vq + u.2 * v.1 else u.1 * v.1 - u.2 * vq
  if bit aux 2 then -(2 * r) else 2 * r

/-- CMAC (R368): the local words at X and Y, then both index updates. -/
def Hw.runCmac (h : Hw) (c : Fin 8) : Hw :=
  h.loopIssue c 0x17 (fun _ i => i.cycles) fun h t i =>
    let r := t.regs
    if !h.fetchOk t then h.loopFault c t r.pc (plainFault 6)
    else match h.operandRead c t.area 0 0 r.x.toNat with
      | (.stall, h) => h
      | (.fault cause cls b, h) => h.loopFault c t r.pc ⟨cause, cls, b, r.x.toNat, 0, false⟩
      | (.ok (u, _), h) =>
        match h.operandRead c t.area 0 0 r.y.toNat with
        | (.stall, h) => h
        | (.fault cause cls b, h) => h.loopFault c t r.pc ⟨cause, cls, b, r.y.toNat, 0, false⟩
        | (.ok (v, _), h) =>
          let n := r.result (r.acc + cmacTerm i.aux (cplx u) (cplx v))
          let dy := toSigned 8 (i.addr / 256)
          let n := { n with
            x := r.x + BitVec.ofInt 16 (toSigned 8 i.addr),
            y := if i.am = 5 then circ r.mod r.y dy else r.y + BitVec.ofInt 16 dy }
          h.loopRetire c t n i.cycles

/-- Cycles of a branch: 2 when taken. -/
def branchCost (r : CoreRegs) (i : Insn) : Nat := if r.cond i.cond then 2 else 1

/-- PC + DISP, as a word address; 16384 stands for an address outside the program memory. -/
def branchTarget (pc : Nat) (i : Insn) : Nat :=
  let v := (pc : Int) + i.target
  if 0 ≤ v ∧ v < 16384 then v.toNat else 16384

/-- B and CALL (Table 8.9). -/
def Hw.runBranch (h : Hw) (c : Fin 8) (op : Nat) : Hw :=
  h.loopIssue c op branchCost fun h t i =>
    let r := t.regs
    let taken := r.cond i.cond
    let next := if taken then branchTarget r.pc i else r.pc + 1
    if !h.inSlot t.task.slot next then h.loopFault c t r.pc (plainFault 6)
    else if op = 0x31 ∧ taken ∧ 8 ≤ r.stack.length then h.loopFault c t r.pc (plainFault 8)
    else
      let stack := if op = 0x31 ∧ taken then (r.pc + 1) :: r.stack else r.stack
      h.setCore c { h.core c with run := some { t with regs := { r with pc := next, stack := stack, cyc := r.cyc + branchCost r i } } }

/-- RPT and RPTI: the hidden counter is loaded, or the repeated instruction is skipped (R372, R373). -/
def Hw.runRepeat (h : Hw) (c : Fin 8) (op : Nat) : Hw :=
  h.loopIssue c op (fun r i => if repeatCount r i = 0 then 2 else 1) fun h t i =>
    let r := t.regs
    let n := repeatCount r i
    let next := r.pc + (if n = 0 then 2 else 1)
    if !h.inSlot t.task.slot next then h.loopFault c t r.pc (plainFault 6)
    else
      let r := { r with pc := next, rep := if n = 0 then none else some (n, op == 0x34), cyc := r.cyc + (if n = 0 then 2 else 1) }
      h.setCore c { h.core c with run := some { t with regs := r } }

/-- STORE_RETRY (R353): the waiting store of core c takes effect, or collides again. -/
def Hw.storeRetry (h : Hw) (c : Fin 8) (hit : Bool) : Hw :=
  let k := h.core c
  match k.retry with
  | none => h
  | some (b, n, v, tries) =>
    if hit then
      let h := h.collide (.loop c) b (tries + 1)
      h.setCore c { h.core c with retry := some (b, n, v, tries + 1) }
    else (h.setCore c { k with retry := none }).memStore b n v

end Sys2Proof.Machine
end

