-- ==== Sys2Proof/Machine/Serial.lean ====
section
/-! DEFINITION. The UARTs and the character side of the Lanyard port (11.1 to 11.8): FIFOs, rates, flow control, half duplex and slow reception.
Port 6 is the Lanyard port, whose registers have the layouts of UART0's at the same offsets. -/

namespace Sys2Proof.Machine

/-- Serial port n. -/
def Hw.serial (h : Hw) (n : Nat) : Serial := Store.get (fun _ => Serial.reset) h.serials n

/-- The part with serial port n changed. -/
def Hw.setSerial (h : Hw) (n : Nat) (s : Serial) : Hw := { h with serials := Store.set (fun _ => Serial.reset) h.serials n s }

/-- Link l of the dictionary. -/
def Hw.link (h : Hw) (l : Nat) : Link := Store.get (fun _ => Link.reset) h.fw.links l

/-- The part with link l changed. -/
def Hw.setLink (h : Hw) (l : Nat) (k : Link) : Hw :=
  { h with fw := { h.fw with links := Store.set (fun _ => Link.reset) h.fw.links l k } }

/-- The Wowell link of serial port n: 0 to 5 for the UARTs, 7 for the Lanyard port. -/
def serialLink (n : Nat) : Nat := if n = 6 then 7 else n

/-! ### Formats and rates (R511 to R513, R532) -/

/-- The transmitter of port n is enabled. -/
def Hw.txOn (h : Hw) (n : Nat) : Bool := h.on (UART_CFG_EN n) && (n == 6 || h.on (UART_CFG_TXEN n))

/-- The receiver of port n is enabled. -/
def Hw.rxOn (h : Hw) (n : Nat) : Bool := h.on (UART_CFG_EN n) && (n == 6 || h.on (UART_CFG_RXEN n))

/-- Port n works half duplex on one ball (R527). -/
def Hw.halfDuplex (h : Hw) (n : Nat) : Bool := n == 6 || (decide (2 ≤ n) && h.on (UART_CFG_HDX n))

/-- Port n uses flow control. -/
def Hw.flowControl (h : Hw) (n : Nat) : Bool := decide (n < 2) && h.on (UART_CFG_RTSCTS n)

/-- The value of FMT: 8N1 on the Lanyard port. -/
def Hw.fmtReg (h : Hw) (n : Nat) : Nat := if n = 6 then 8 else (h.reg (UART_FMT n)).toNat

/-- Data bits and parity code of a format. -/
def fmtBits (f : Nat) : Nat := f % 16
def fmtPar (f : Nat) : Nat := f / 16 % 8

/-- The parity of a number's low 9 bits. -/
def oddBits (d : Nat) : Bool :=
  (upTo 9).foldl (fun p i => if bit d i then !p else p) false

/-- The parity bit of data d in format f (UART0_FMT.PAR). -/
def parityBit (f d : Nat) : Bool :=
  match fmtPar f with
  | 1 => oddBits d
  | 2 => !oddBits d
  | 3 => true
  | _ => false

/-- A RATE that R513 accepts on port n. -/
def rateOk (n v : Nat) : Bool :=
  let inc := v % 65536
  let mod := v / 65536 % 65536
  inc != 0 && decide (inc ≤ mod) && (if n = 6 then decide (6144 * inc ≤ 1000 * mod) else decide (2 * inc ≤ mod))

/-- An SRATE that R532 accepts. -/
def srateOk (v : Nat) : Bool :=
  let inc := v % 65536
  let mod := v / 65536 % 65536
  inc != 0 && decide (300 * mod ≤ 32768 * inc) && decide (32768 * inc ≤ 2400 * mod)

/-- An FMT whose fields are all listed. -/
def fmtOk (v : Nat) : Bool :=
  decide (5 ≤ fmtBits v) && decide (fmtBits v ≤ 9) && decide (fmtPar v ≤ 4) && decide (v / 128 % 4 ≤ 2)

/-! ### Transmission (R522, R525, R530) -/

/-- Bytes of frames move from the link's queue into the transmit FIFO as it has room. -/
def Hw.serialPump (h : Hw) (n : Nat) : Hw :=
  let k := h.link (serialLink n)
  let s := h.serial n
  let room := 32 - s.tx.length
  if k.out = [] ∨ room = 0 then h
  else (h.setLink (serialLink n) { k with out := k.out.drop room }).setSerial n { s with tx := s.tx ++ k.out.take room }

/-- The line of a half-duplex port is free: high for GUARD bit times, and the receiver hunts (R530). -/
def Serial.free (s : Serial) : Bool := s.quiet && s.ticks == []

/-- The transmitter of port n starts the next character if it may. -/
def Hw.txStart (h : Hw) (n : Nat) : Hw :=
  let h := h.serialPump n
  let s := h.serial n
  match s.cur, s.tx with
  | none, c :: rest =>
    if h.txOn n ∧ !h.on (UART_STAT_COLL n) ∧ !(h.flowControl n && s.cts) ∧ (!h.halfDuplex n || s.free) then
      h.setSerial n { s with cur := some c, tx := rest }
    else h
  | _, _ => h

/-- A write of DATA: a character, or with bit 9 a break (R522). -/
def Hw.uartWrite (h : Hw) (n v : Nat) : Hw :=
  let s := h.serial n
  if 32 ≤ s.tx.length then h.sf (UART_STAT_OVR n) 1
  else (h.setSerial n { s with tx := s.tx ++ [v % 1024] }).txStart n

/-! ### Reception (R518, R520, R521) -/

/-- An entry is stored, or discarded while the receive FIFO is full. -/
def Hw.rxStore (h : Hw) (n e : Nat) : Hw :=
  let s := h.serial n
  if 32 ≤ s.rx.length then (h.setSerial n { s with lost := true }).bump (UART_TALLY_OVERRUN n)
  else h.setSerial n { s with rx := s.rx ++ [e + (if s.lost then 8192 else 0)], lost := false }

/-- The entry of a character decided in format f: data, parity, first stop bit, noise (Table 11.3). -/
def rxEntry (f d : Nat) (par stop noise : Bool) : Nat :=
  let d := d % 2 ^ fmtBits f
  let hasPar := fmtPar f != 0
  let pe := hasPar && (par != parityBit f d)
  let brk := !stop && d == 0 && !(hasPar && par)
  d + 512 * b2n pe + 1024 * b2n (!stop && !brk) + 2048 * b2n brk + 4096 * b2n noise

/-- The tallies of an entry: framing and parity errors. -/
def Hw.rxTally (h : Hw) (n e : Nat) : Hw :=
  let h := if bit e 10 || bit e 11 then h.bump (UART_TALLY_FRAMING n) else h
  if n ≠ 6 ∧ bit e 9 then h.bump (UART_TALLY_PARITY n) else h

/-- The receiver takes the shadow (R526). -/
def Hw.rxTake (h : Hw) (n : Nat) : Hw :=
  let s := h.serial n
  (h.setSerial n { s with rxRate := (h.reg (UART_RATE n)).toNat, rxFmt := h.fmtReg n }).sf (UART_STAT_SHRX n) 0

/-- The transmitter takes the shadow (R526). -/
def Hw.txTake (h : Hw) (n : Nat) : Hw :=
  let s := h.serial n
  (h.setSerial n { s with txRate := (h.reg (UART_RATE n)).toNat, txFmt := h.fmtReg n }).sf (UART_STAT_SHTX n) 0

/-- The line has just carried a stop bit: GUARD bit times begin (R530). -/
def Hw.lineUsed (h : Hw) (n : Nat) : Hw := let s := h.serial n; h.setSerial n { s with quiet := h.rf (UART_CFG_GUARD n) == 0 }

/-- Sample k of a character's samples; the line is high beyond them. -/
def tickAt (xs : List Bool) (k : Nat) : Bool := xs.getD k true

/-- Bit b of a character, counted from the start bit: the majority of its samples 7, 8 and 9 (R515, R516). -/
def tickBit (xs : List Bool) (b : Nat) : Bool :=
  let s := fun k => tickAt xs (16 * b + 7 + k)
  (s 0 && s 1) || (s 0 && s 2) || (s 1 && s 2)

/-- The three samples of bit b disagree (R516). -/
def tickNoise (xs : List Bool) (b : Nat) : Bool :=
  let s := fun k => tickAt xs (16 * b + 7 + k)
  s 0 != s 1 || s 1 != s 2

/-- The start bit that the samples begin with is decided 1 and so discarded (R515). -/
def falseStart (xs : List Bool) : Bool := decide (10 ≤ xs.length) && tickBit xs 0

/-- The receiver hunts through samples (R515, R517, R518), at most `fuel` of them: whether it still awaits a sample at 1, and the samples from
sample 0 of the start bit that it has found, none where there is none yet. A start bit decided 1 is discarded, and the hunt goes on from sample 10. -/
def rxHunt (await : Bool) (xs : List Bool) : Nat → Bool × List Bool
  | 0 => (await, [])
  | fuel + 1 =>
    match xs with
    | [] => (await, [])
    | x :: rest =>
      if await then rxHunt (!x) rest fuel
      else if x then rxHunt false rest fuel
      else if falseStart xs then rxHunt false (xs.drop 10) fuel
      else (false, xs)

/-- The bits before the stop bit in format f, the start bit among them (R511). -/
def bitsBeforeStop (f : Nat) : Nat := 1 + fmtBits f + b2n (fmtPar f != 0)

/-- The samples hold a character up to sample 9 of its stop bit, where it is decided (R517). -/
def rxWhole (f : Nat) (xs : List Bool) : Bool := decide (16 * bitsBeforeStop f + 10 ≤ xs.length)

/-- The data bits of a character, least significant first (R511, R516). -/
def rxData (f : Nat) (xs : List Bool) : Nat := (upTo (fmtBits f)).foldl (fun d i => d + (if tickBit xs (i + 1) then pow2 i else 0)) 0

/-- The entry of a whole character: its data, parity and stop bits as the receiver decides them, and NOISE (R516, R518). -/
def rxDecide (f : Nat) (xs : List Bool) : Nat :=
  let n := bitsBeforeStop f
  rxEntry f (rxData f xs) (tickBit xs (n - 1)) (tickBit xs n) ((upTo n).any fun i => tickNoise xs (i + 1))

/-- The receiver of port n takes samples at its ticks (R515 to R518): it hunts, and holds the samples of the character being received. A start that it
discards leaves it hunting, and so it takes the shadow (R526). -/
def Hw.rxTicks (h : Hw) (n : Nat) (xs : List Bool) : Hw :=
  let s := h.serial n
  let h := if s.ticks ≠ [] ∧ falseStart (s.ticks ++ xs) ∧ h.on (UART_STAT_SHRX n) then h.rxTake n else h
  let (w, xs) := if s.ticks = [] then rxHunt s.awaitHigh xs xs.length else rxHunt false (s.ticks ++ xs) (s.ticks ++ xs).length
  (h.setSerial n { h.serial n with ticks := xs, awaitHigh := w }).sf (UART_STAT_RXBUSY n) (b2n (xs != []))

/-- The character whose samples the receiver holds is decided at its stop bit (R517, R518, R520, R521); what follows belongs to the hunt. -/
def Hw.rxChar (h : Hw) (n : Nat) : Hw :=
  let s := h.serial n
  let f := s.rxFmt
  let e := rxDecide f s.ticks
  let rest := s.ticks.drop (16 * bitsBeforeStop f + 10)
  let h := h.setSerial n { s with ticks := [], awaitHigh := bit e 10 || bit e 11 }
  let h := (h.rxTally n e).rxStore n e
  let h := (h.rxTake n).sf (UART_STAT_RXBUSY n) 0
  ((h.rxTicks n rest).lineUsed n).txStart n

/-- Levels sampled at the ball as the receiver takes them: inverted with INV (R511). -/
def Hw.ballLevels (h : Hw) (n : Nat) (xs : List Bool) : List Bool := xs.map (· != h.on (UART_CFG_INV n))

/-- UART_CHAR_RECEIVED (R515 to R521): the levels at the ticks since the last, up to the stop bit of a character. -/
def Hw.uartReceived (h : Hw) (n : Nat) (xs : List Bool) : Hw :=
  if !h.rxOn n ∨ (h.serial n).slow ∨ (h.halfDuplex n && (h.serial n).cur.isSome) then h
  else
    let h := h.rxTicks n (h.ballLevels n xs)
    if rxWhole (h.serial n).rxFmt (h.serial n).ticks then h.rxChar n else h.txStart n

/-- UART_CHAR_SENT (R522, R526 to R529): the character on the wire is complete. In half duplex the bits that the receiver decided are compared
with those sent; a difference is a collision. -/
def Hw.uartSent (h : Hw) (n d : Nat) (par stop noise cts : Bool) : Hw :=
  let s := h.serial n
  match s.cur with
  | none => h
  | some c =>
    let f := s.txFmt
    let brk := bit c 9
    let sentD := if brk then 0 else c % 2 ^ fmtBits f
    let sentP := !brk && parityBit f sentD
    let differs := d % 2 ^ fmtBits f != sentD || (fmtPar f != 0 && par != sentP) || stop != !brk
    let h := h.setSerial n { s with cur := none, cts := cts }
    let h := h.txTake n
    let h :=
      if !h.halfDuplex n then h
      else
        let h := h.lineUsed n
        let e := rxEntry s.rxFmt d par stop noise
        if differs then
          let h := (h.sf (UART_STAT_COLL n) 1).bump (UART_TALLY_COLLISIONS n)
          let h := h.setSerial n { h.serial n with awaitHigh := bit e 10 || bit e 11 }
          ((h.rxTally n e).rxStore n (e + 16384)).rxTake n
        else if h.on (UART_CFG_ECHO n) then ((h.rxTally n e).rxStore n e).rxTake n
        else h
    h.txStart n

/-- UART_DATA_READ (R520). -/
def Hw.uartRead (h : Hw) (n : Nat) : Hw :=
  let s := h.serial n
  match s.rx with
  | [] => { h with resp := .data 0 }
  | e :: rest => { h.setSerial n { s with rx := rest } with resp := .data (e + pow2 31) }

/-- UART_IDLE_DETECT (R523). -/
def Hw.uartIdle (h : Hw) (n : Nat) : Hw := if (h.serial n).rx = [] ∨ (h.serial n).ticks ≠ [] then h else h.sf (UART_STAT_IDLE n) 1

/-! ### Registers of the port -/

/-- A write of RATE or FMT (R513, R526): ignored with CFG_ERR, or taken into the shadow, which each side takes at its own point. -/
def Hw.uartShadow (h : Hw) (n a v : Nat) : Hw :=
  let ok := if a = UART_RATE n then rateOk n v else fmtOk v
  if !ok then h.sf (UART_STAT_CFG_ERR n) 1
  else
    let h := h.writeFields a v
    let h := if (h.serial n).cur.isSome then h.sf (UART_STAT_SHTX n) 1 else h.txTake n
    if h.on (UART_STAT_RXBUSY n) then h.sf (UART_STAT_SHRX n) 1 else h.rxTake n

/-- UART_RX_FLUSH and UART_TX_FLUSH: a write of FIFO. -/
def Hw.uartFifo (h : Hw) (n v : Nat) : Hw :=
  let h := h.writeFields (UART_FIFO n) v
  let h := if bit v 22 then h.setSerial n { h.serial n with rx := [] } else h
  if bit v 23 then h.setSerial n { h.serial n with tx := [] } else h

/-- SLOW_EXIT (R535): the port leaves slow reception and takes RATE as R526 gives: at once, or at the stop bit of the character being received. -/
def Hw.slowExit (h : Hw) (n : Nat) : Hw :=
  let s := h.serial n
  if !s.slow then h
  else if h.on (UART_STAT_RXBUSY n) then (h.setSerial n { s with leaving := true }).sf (UART_STAT_SHRX n) 1
  else (h.setSerial n { s with slow := false }).rxTake n

/-- A write of SLOW. -/
def Hw.uartSlow (h : Hw) (n v : Nat) : Hw :=
  let h := h.writeFields (UART_SLOW n) v
  if bit v 3 then h.slowExit n else h

/-- A write of SRATE (R532). -/
def Hw.uartSrate (h : Hw) (n v : Nat) : Hw :=
  if srateOk v then h.writeFields (UART_SRATE n) v else h.sf (UART_STAT_CFG_ERR n) 1

/-- A write of CFG: bits reserved on a port read 0, and a receiver that is off drops the character in progress. -/
def Hw.uartCfg (h : Hw) (n v : Nat) : Hw :=
  let v := if n < 2 then v &&& 0xFFFFFFEF else if n < 6 then v &&& 0xFFFFFFBF else v
  let h := h.writeFields (UART_CFG n) v
  let h := if h.rxOn n ∨ (h.serial n).ticks = [] then h
    else (h.setSerial n { h.serial n with ticks := [], awaitHigh := false }).sf (UART_STAT_RXBUSY n) 0
  h.txStart n

/-- A write of STAT: clearing COLL lets the transmit FIFO send again (R528). -/
def Hw.uartStat (h : Hw) (n v : Nat) : Hw := (h.writeFields (UART_STAT n) v).txStart n

/-- UART_STAT as it reads. -/
def Hw.uartStatus (h : Hw) (n : Nat) : Nat :=
  let s := h.serial n
  let v := (UART_STAT_RXCNT n).insert (h.reg (UART_STAT n)).toNat s.rx.length
  let v := (UART_STAT_TXCNT n).insert v s.tx.length
  let v := (UART_STAT_TXBUSY n).insert v (b2n s.cur.isSome)
  (UART_STAT_SLOWACT n).insert v (b2n s.slow)

/-- Un_RTS_N is high (R524, R536). -/
def Hw.rtsHigh (h : Hw) (n : Nat) : Bool :=
  let s := h.serial n
  h.flowControl n &&
    (if h.pwr.state = .slack then decide (4 ≤ s.wakeBuf.length) else decide (max 1 (h.rf (UART_FIFO_RTS_THR n)) ≤ s.rx.length))

/-- UART_CTS_ASSERTED (R525). -/
def Hw.ctsLow (h : Hw) (n : Nat) : Hw := (h.setSerial n { h.serial n with cts := false }).txStart n

/-- UART_GUARD_ELAPSED (R530). -/
def Hw.guardElapsed (h : Hw) (n : Nat) : Hw :=
  if h.halfDuplex n then (h.setSerial n { h.serial n with quiet := true }).txStart n else h

/-! ### Slow reception (R531 to R536) -/

/-- The switch to slow reception at Slack entry: a character in progress is abandoned, and a shadow that waits for its end is taken (R526, R531). -/
def Hw.slowEnter (h : Hw) (n : Nat) : Hw :=
  if n < 2 ∧ h.on (UART_SLOW_SLOW_EN n) then
    let h := if h.on (UART_STAT_RXBUSY n) then (h.bump (UART_TALLY_FRAMING n)).sf (UART_STAT_RXBUSY n) 0 else h
    let h := if h.on (UART_STAT_SHRX n) then h.rxTake n else h
    h.setSerial n { h.serial n with slow := true, wakeBuf := [], wakeLost := 0, ticks := [], awaitHigh := false,
                                     leaving := false }
  else h

/-- The wake test of R533. -/
def Hw.slowMatch (h : Hw) (n e : Nat) : Bool :=
  let mask := h.rf (UART_SLOW_MASK n)
  let same := (e % 256) &&& mask == h.rf (UART_SLOW_ADDR n) &&& mask
  match h.rf (UART_SLOW_MATCH n) with
  | 1 => same
  | 2 => same && fmtBits (h.serial n).rxFmt == 9 && bit e 8
  | _ => false

/-- WAKE_FLAG of a wake source (R634): set in every state except Backup. -/
def Hw.flagSource (h : Hw) (src : Nat) : Hw :=
  if h.pwr.state = .backup then h else h.sf WAKE_FLAG_SRC (h.rf WAKE_FLAG_SRC ||| 2 ^ src)

/-- The slow-clock edge of the sample that decides bit i, counted from the edge that detects the start: the first at or after the centre of the bit,
with SRATE `v` (R531). -/
def slowIndex (v i : Nat) : Nat := ceilDiv ((2 * i + 1) * (v / 65536 % 65536)) (2 * (v % 65536))

/-- Bit i of a character in slow reception: its one sample. -/
def slowBit (v : Nat) (xs : List Bool) (i : Nat) : Bool := tickAt xs (slowIndex v i)

/-- The start that the samples begin with is not confirmed: the sample at its centre is high. -/
def slowFalse (v : Nat) (xs : List Bool) : Bool := decide (slowIndex v 0 < xs.length) && slowBit v xs 0

/-- The slow receiver hunts through samples, at most `fuel` of them, as `rxHunt` does. -/
def slowHunt (v : Nat) (await : Bool) (xs : List Bool) : Nat → Bool × List Bool
  | 0 => (await, [])
  | fuel + 1 =>
    match xs with
    | [] => (await, [])
    | x :: rest =>
      if await then slowHunt v (!x) rest fuel
      else if x then slowHunt v false rest fuel
      else if slowFalse v xs then slowHunt v false (xs.drop (slowIndex v 0 + 1)) fuel
      else (false, xs)

/-- The samples hold a character up to the sample of its stop bit. -/
def slowWhole (v f : Nat) (xs : List Bool) : Bool := decide (slowIndex v (bitsBeforeStop f) < xs.length)

/-- The entry of a whole character in slow reception. -/
def slowDecide (v f : Nat) (xs : List Bool) : Nat :=
  let n := bitsBeforeStop f
  let d := (upTo (fmtBits f)).foldl (fun d i => d + (if slowBit v xs (i + 1) then pow2 i else 0)) 0
  rxEntry f d (slowBit v xs (n - 1)) (slowBit v xs n) false

/-- The receiver leaves slow reception, or stays in it: after the wake it takes the shadow at the end of a character, and leaves after a SLOW_EXIT
(R526, R535). What has been sampled beyond the character is then dropped. -/
def Hw.slowDecided (h : Hw) (n : Nat) : Hw :=
  let s := h.serial n
  let h := h.setSerial n { s with slow := s.slow && !s.leaving, leaving := false, ticks := if s.leaving then [] else s.ticks }
  (if h.on (UART_STAT_SHRX n) then h.rxTake n else h).sf (UART_STAT_RXBUSY n) (b2n ((h.serial n).ticks != []))

/-- A whole character of slow reception with entry e: in Slack the wake test and the wake buffer (R533, R534); after the wake the receive FIFO. -/
def Hw.slowTake (h : Hw) (n e : Nat) : Hw :=
  let s := h.serial n
  if h.pwr.state ≠ .slack then ((h.rxTally n e).rxStore n e).slowDecided n
  else if s.wakeBuf = [] then
    if h.slowMatch n e then (h.setSerial n { s with wakeBuf := [e + 32768] }).flagSource (14 + n) else h
  else if s.wakeBuf.length < 4 then h.setSerial n { s with wakeBuf := s.wakeBuf ++ [e] }
  else h.setSerial n { s with wakeLost := s.wakeLost + 1, lost := true }

/-- The slow receiver of port n goes on with the samples that it holds. -/
def Hw.slowHold (h : Hw) (n : Nat) (await : Bool) (xs : List Bool) : Hw :=
  let (w, xs) := slowHunt (h.reg (UART_SRATE n)).toNat await xs xs.length
  (h.setSerial n { h.serial n with ticks := xs, awaitHigh := w }).sf (UART_STAT_RXBUSY n) (b2n (xs != []))

/-- UART_SLOW_CHAR (R531, R533, R534): the levels at the slow-clock edges since the last, up to the stop bit of a character. A start that is discarded
leaves the receiver hunting, and so a SLOW_EXIT that waits takes effect (R535). -/
def Hw.slowChar (h : Hw) (n : Nat) (xs : List Bool) : Hw :=
  let s := h.serial n
  let v := (h.reg (UART_SRATE n)).toNat
  let xs := s.ticks ++ h.ballLevels n xs
  if !s.slow ∨ !h.rxOn n then h
  else if s.leaving ∧ slowFalse v xs then (h.setSerial n { s with ticks := [] }).slowDecided n
  else
    let h := h.slowHold n (s.ticks.isEmpty && s.awaitHigh) xs
    let s := h.serial n
    if !slowWhole v s.rxFmt s.ticks then h
    else
      let e := slowDecide v s.rxFmt s.ticks
      (h.slowHold n (bit e 10 || bit e 11) (s.ticks.drop (slowIndex v (bitsBeforeStop s.rxFmt) + 1))).slowTake n e

/-- At wake step 7 the wake buffer enters the receive FIFO (R534). -/
def Hw.wakeBuffer (h : Hw) (n : Nat) : Hw :=
  let s := h.serial n
  if s.wakeBuf = [] then h
  else
    let h := (h.setSerial n { s with rx := s.wakeBuf, wakeBuf := [], wakeLost := 0 }).sf (UART_STAT_WAKE n) 1
    let h := forEach (fun e h => h.rxTally n e) s.wakeBuf h
    h.bumpBy (UART_TALLY_OVERRUN n) s.wakeLost

end Sys2Proof.Machine
end

