-- ==== Sys2Proof/Machine/Can.lean ====
section
/-! DEFINITION. The CAN FD controllers (10.7): identifiers, the transmit queue, reception, error counters and bus off. -/

namespace Sys2Proof.Machine

/-- CAN controller n. -/
def Hw.can (h : Hw) (n : Nat) : Can := Store.get (fun _ => Can.reset) h.cans n

/-- The part with CAN controller n changed. -/
def Hw.setCan (h : Hw) (n : Nat) (c : Can) : Hw := { h with cans := Store.set (fun _ => Can.reset) h.cans n c }

/-- The function codes of Table 10.7. -/
def fnNotify : Nat := 1
def fnRequest : Nat := 2
def fnResponse : Nat := 3
def fnMeasurement : Nat := 4
def fnTime : Nat := 5
def fnAccess : Nat := 6
def fnHeartbeat : Nat := 7

/-- NODE as it acts. -/
def Hw.canNode (h : Hw) (n : Nat) : Nat := max 1 (h.rf (CAN_CFG_NODE n))

/-- The identifier of a function of this node (R487). -/
def Hw.canId (h : Hw) (n fn : Nat) : Nat :=
  let id := fn * 128 + h.canNode n
  if h.on (CAN_CFG_XID n) then h.rf (CAN_XPRE_PREFIX n) * 2048 + id else id

/-- The permitted data length at or above n (R489). -/
def canLength (n : Nat) : Nat :=
  if n ≤ 8 then n else if n ≤ 12 then 12 else if n ≤ 16 then 16 else if n ≤ 20 then 20 else if n ≤ 24 then 24
  else if n ≤ 32 then 32 else if n ≤ 48 then 48 else 64

/-- A payload padded with 0x00 (R489). -/
def canPad (d : List Nat) : List Nat := d ++ List.replicate (canLength d.length - d.length) 0

/-- Queue a frame (R490, R493): with FDOE = 0 a payload above 8 bytes is not sent, and a full queue drops the frame. Firmware sends nothing
over a controller that is not enabled (assumption log 30). -/
def Hw.canSend (h : Hw) (n fn : Nat) (data : List Nat) (tag : Option Nat) (sub : Option (Nat × Nat × Nat)) : Hw :=
  let c := h.can n
  if !h.on (CAN_CFG_EN n) then h
  else if (!h.on (CAN_CFG_FDOE n) ∧ 8 < data.length) ∨ 32 ≤ c.tx.length then h.bump (CAN_TALLY_TXDROP n)
  else h.setCan n { c with tx := c.tx ++ [⟨h.canId n fn, if h.on (CAN_CFG_FDOE n) then canPad data else data, tag, sub⟩] }

/-- The frame that is sent next: the lowest identifier, and of equals the first queued (R493). -/
def nextFrame : List CanFrame → Option CanFrame
  | [] => none
  | f :: fs =>
    match nextFrame fs with
    | none => some f
    | some g => if g.id < f.id then some g else some f

/-- The list without the first element equal to `x`. -/
def dropFirst (x : CanFrame) : List CanFrame → List CanFrame
  | [] => []
  | y :: ys => if y = x then ys else y :: dropFirst x ys

/-- TEC and REC give the error state (ISO 11898-1, R486): above 127 passive, TEC above 255 bus off. -/
def Hw.canErrors (h : Hw) (n tec : Nat) : Hw :=
  if 255 < tec then
    ((h.sf (CAN_STAT_TEC n) 255).sf (CAN_STAT_STATE n) 2).sf (CAN_STAT_BOFF n) 1
  else
    let h := h.sf (CAN_STAT_TEC n) tec
    h.sf (CAN_STAT_STATE n) (b2n (decide (127 < tec) || decide (127 < h.rf (CAN_STAT_REC n))))

/-- A frame that reaches the receiver (R486 to R488, R490, R493): REQUEST and ACCESS frames of this node are taken; every other frame is ignored. -/
def Hw.canTake (h : Hw) (n id : Nat) (ext fd : Bool) (data : List Nat) : Hw :=
  let c := h.can n
  let fn := id % 2048 / 128
  let mine := id == h.canId n fn && ext == h.on (CAN_CFG_XID n) && (fn == fnRequest || fn == fnAccess)
  if !h.on (CAN_CFG_EN n) ∨ h.rf (CAN_STAT_STATE n) = 2 ∨ (fd && !h.on (CAN_CFG_FDOE n)) ∨ !mine then h
  else
    let rec_ := h.rf (CAN_STAT_REC n)
    let h := h.sf (CAN_STAT_REC n) (if 127 < rec_ then 127 else rec_ - 1)
    let h := h.canErrors n (h.rf (CAN_STAT_TEC n))
    if 16 ≤ c.rx.length then h.sf (CAN_STAT_RXOVF n) 1
    else h.setCan n { h.can n with rx := c.rx ++ [(fn, data)] }

/-- CAN_FRAME_SENT (R493): the next frame leaves the queue, or ends in an error on the bus and stays. In internal loopback (LOOP) it goes to
the controller's own receiver (DEDUCED, assumption log 126). -/
def Hw.canSent (h : Hw) (n : Nat) (ok : Bool) : Hw :=
  let c := h.can n
  match nextFrame c.tx with
  | none => h
  | some f =>
    if !h.on (CAN_CFG_EN n) ∨ h.on (CAN_CFG_SILENT n) ∨ h.rf (CAN_STAT_STATE n) = 2 then h
    else if ok then
      let h := (h.setCan n { c with tx := dropFirst f c.tx }).canErrors n (h.rf (CAN_STAT_TEC n) - 1)
      if h.on (CAN_CFG_LOOP n) then h.canTake n f.id (h.on (CAN_CFG_XID n)) (h.on (CAN_CFG_FDOE n)) f.data else h
    else h.canErrors n (h.rf (CAN_STAT_TEC n) + 8)

/-- CAN_FRAME_RECEIVED: a frame of the bus, which internal loopback keeps from the receiver. -/
def Hw.canReceived (h : Hw) (n id : Nat) (ext fd : Bool) (data : List Nat) : Hw :=
  if h.on (CAN_CFG_LOOP n) then h else h.canTake n id ext fd data

/-- CAN_BUSOFF_RECOVERY (R495). -/
def Hw.canRecover (h : Hw) (n : Nat) : Hw :=
  if h.rf (CAN_STAT_STATE n) = 2 ∧ h.on (CAN_CFG_AUTO_BOR n) then
    ((h.sf (CAN_STAT_STATE n) 0).sf (CAN_STAT_TEC n) 0).sf (CAN_STAT_REC n) 0
  else h

/-- A write of CANn_CFG: EN decides whether the controller takes part; EN written 0 and then 1 lets it rejoin the bus (R495). -/
def Hw.canCfg (h : Hw) (n v : Nat) : Hw :=
  let was := h.on (CAN_CFG_EN n)
  let h := h.writeFields (CAN_CFG n) v
  let en := h.on (CAN_CFG_EN n)
  if !en then h.sf (CAN_STAT_STATE n) 3
  else if was then h
  else ((h.sf (CAN_STAT_STATE n) 0).sf (CAN_STAT_TEC n) 0).sf (CAN_STAT_REC n) 0

/-- CANn_STAT as it reads. -/
def Hw.canStatus (h : Hw) (n : Nat) : Nat := (CAN_STAT_TXQ n).insert (h.reg (CAN_STAT n)).toNat (h.can n).tx.length

/-! ### Frames of every link (R475, R476) -/

/-- CRC bytes of a Wowell frame, high byte first. -/
def wowellFrame (type : Nat) (payload : List Nat) : List Nat :=
  let body := payload.length :: type :: payload
  let c := crc16 body
  0xA5 :: body ++ [c / 256, c % 256]

/-- The bytes of a host SPI link move into its output queue as it has room (R481). -/
def Hw.hspiPump (h : Hw) : Hw :=
  let k := h.link 6
  let room := 1023 - h.fw.hspiOut.length
  if k.out = [] ∨ room = 0 then h
  else
    let h := h.setLink 6 { k with out := k.out.drop room }
    { h with fw := { h.fw with hspiOut := h.fw.hspiOut ++ k.out.take room } }

/-- The firmware use of UART n (R546): 1 is a Wowell link. -/
def uartUse (n : Nat) : Nat := 0xB030 * 256 + n + 1

/-- Object defaults that these chapters' services read before the object table is at hand; the table repeats them (chapter 10). -/
def objDefault (k : Nat) : Nat :=
  if k = 0x101001 then 1000
  else if k = 0x210001 then 600
  else if k = 0x210102 then 600
  else if k = 0x210103 then 1
  else if k = 0x210104 then 20
  else if k = 0x210105 then 110
  else if k = 0x210107 then 5
  else if k = 0x511001 then 1000
  else if k = 0x611001 then 150
  else if k = 0x611002 then 2
  else if k = 0x611004 then 2
  else if k = 0x611005 then 3
  else if k = 0x611008 then 100
  else if k = 0x611009 then 200
  else if k = 0x61100A then 1000
  else if k = 0xA01002 then 1
  else if k = 0x800202 then 7
  else if k = 0x800203 then 11800
  else if k = 0x800204 then 6000
  else if k = 0x800206 then 1
  else if k = uartUse 0 then 1
  else 0

/-- The value of a firmware object held as a number. -/
def Hw.obj (h : Hw) (idx sub : Nat) : Nat := Store.get objDefault h.fw.objs (256 * idx + sub)

/-- The part with a firmware object set. -/
def Hw.setObj (h : Hw) (idx sub v : Nat) : Hw :=
  { h with fw := { h.fw with objs := Store.set objDefault h.fw.objs (256 * idx + sub) v } }

/-- Link l runs the Wowell link layer or CAN now. -/
def Hw.linkUp (h : Hw) (l : Nat) : Bool :=
  if l < 6 then h.obj 0xB030 (l + 1) == 1
  else if l = 6 then h.on HSPI_CFG_EN
  else if l = 7 then h.rf LYD_SESS_STATE != 0
  else h.on (CAN_CFG_EN (l - 8))

/-- Queue the bytes of a Wowell frame on link l. -/
def Hw.wowellSend (h : Hw) (l type : Nat) (payload : List Nat) : Hw :=
  let k := h.link l
  let h := h.setLink l { k with out := k.out ++ wowellFrame type payload }
  if l = 6 then h.hspiPump else h.txStart (if l = 7 then 6 else l)

/-- Queue a frame of a function on any link: the function codes are also the Wowell types (R476). -/
def Hw.linkSend (h : Hw) (l fn : Nat) (payload : List Nat) : Hw :=
  if 8 ≤ l then h.canSend (l - 8) fn payload none none else h.wowellSend l fn payload

/-- Link l can take another frame now (R474): a CAN queue with room; a Wowell link with nothing left over from the frame before. -/
def Hw.linkFree (h : Hw) (l : Nat) : Bool :=
  if 8 ≤ l then decide ((h.can (l - 8)).tx.length < 32) else decide ((h.link l).out = [])

/-- Little-endian bytes of a number. -/
def leBytes : Nat → Nat → List Nat
  | 0, _ => []
  | n + 1, v => v % 256 :: leBytes n (v / 256)

/-- The number of a list of little-endian bytes. -/
def leNat : List Nat → Nat
  | [] => 0
  | b :: bs => b + 256 * leNat bs

/-! ### TIME and MEASUREMENT frames (R491, R492) -/

/-- TIME_FRAME_QUEUE (R491): the frame of the last pulse output, on the CAN links of TIME_TX. GNSS time and leap seconds come from the
navigation solution. -/
def Hw.timeFrame (h : Hw) (gtime : Nat) (leap : Option Nat) : Hw :=
  let (label, ts, unc, step) := h.tp.pulse
  let flags := b2n step + 2 * b2n leap.isSome
  let d := leBytes 4 label ++ leBytes 8 gtime ++ [ts, flags] ++ leBytes 4 unc ++ [leap.getD 0, 0]
  forEach (fun n h => if bit (h.obj 0x5120 1) n then h.canSend n fnTime d none none else h) (upTo 2) h

/-- The MEASUREMENT frames that controller c has not sent are withdrawn and counted (R492). -/
def Hw.measDrop (h : Hw) (c : Nat) : Hw :=
  let q := h.can c
  let gone := q.tx.filter fun f => f.tag.isSome
  (h.setCan c { q with tx := q.tx.filter fun f => f.tag.isNone }).bumpBy (CAN_TALLY_TXDROP c) gone.length

/-- The MEASUREMENT frames of a released epoch (R492): those of the epoch before are withdrawn, then one per selected record. -/
def Hw.measFrames (h : Hw) (seq : Nat) : Hw :=
  let mode := h.obj 0x4100 1
  let n := mode / 16 % 16
  let h := (h.measDrop 0).measDrop 1
  if 1 < n ∨ (mode % 16 ≠ 1 ∧ mode % 16 ≠ 2) then h
  else forEach (fun s h =>
    let a := 0x11020000 + 0x8000 * (seq % 2) + 64 * s
    let w1 := h.load32 (a + 4)
    let send := if mode % 16 = 1 then bits w1 8 3 != 0 else bit w1 0
    if send then h.canSend n fnMeasurement (h.loadBytes a 64) (some seq) none else h) (upTo 512) h

end Sys2Proof.Machine
end

