-- ==== Sys2Proof/Machine/LoopTasks.lean ====
section
/-! DEFINITION. Loop tasks (5.1, 8.8): the dispatcher, the task area, the end of a task with its return words, and pre-emption. -/

namespace Sys2Proof.Machine

/-! ### Choosing a task (R219, R222) -/

/-- A task of Strand s runs or is saved on some core. -/
def Hw.strandBusy (h : Hw) (s : Nat) : Bool :=
  h.loop.cores.any fun c =>
    (match c.2.run with | some r => r.task.strand == s | none => false) || c.2.saved.any fun r => r.task.strand == s

/-- The ready tasks that may start: the first of each Strand, in posting order, where none of that Strand has started. -/
def Hw.startable (h : Hw) : List LoopTask :=
  h.loop.ready.filter fun k => !h.strandBusy k.strand &&
    (h.loop.ready.find? fun j => j.strand == k.strand) == some k

/-- Task a goes before task b; the Boolean says that a task is saved on the core (R221, R222). -/
def taskBefore (a b : LoopTask × Bool) : Bool :=
  match a.1.due, b.1.due with
  | some x, some y =>
    decide (x < y) || (x == y && ((a.2 && !b.2) || (a.2 == b.2 && decide (a.1.strand < b.1.strand))))
  | some _, none => true
  | none, some _ => false
  | none, none => decide (a.1.order < b.1.order)

/-- The first of a list of tasks in that order. -/
def firstTask : List (LoopTask × Bool) → Option (LoopTask × Bool)
  | [] => none
  | a :: as =>
    match firstTask as with
    | none => some a
    | some b => if taskBefore b a then some b else some a

/-- The lowest task area of a core that no saved task holds (R225; which free area is taken is a DESIGN CHOICE, assumption log 23). -/
def Core.freeArea (k : Core) : Option Nat := (upTo 8).find? fun q => k.saved.all fun r => r.area != q

/-! ### The task area (Table 5.1) -/

/-- The dispatcher reads k 64-bit words of the state block of Strand s from `a`: each is corrected as it is read (R396), and one that cannot be read
is reported and delivers no data, so that its two words in the task area are free values (R397, assumption log 112). -/
def Hw.blockWords (h : Hw) (s a : Nat) : Nat → List Nat × Hw
  | 0 => ([], h)
  | k + 1 =>
    if h.fabReads a then
      let v := h.loadWords a 2
      let (vs, h) := (h.correct a).blockWords s (a + 8) k
      (v ++ vs, h)
    else
      let (v, h) := (h.fabFails a s).freshWords 2
      let (vs, h) := h.blockWords s (a + 8) k
      (v ++ vs, h)

/-- The words 0x00 to 0x6F of a task area as the dispatcher writes them, with the Strand's state block. -/
def Hw.areaWords (h : Hw) (k : LoopTask) (block : List Nat) : List Nat :=
  let n := bodyPort k.body
  [k.word0, k.iseq, k.nb % pow2 32, k.samples, k.rates.1, k.rates.2, k.phi % pow2 32, k.phi / pow2 32, k.carrPh % pow2 32,
    k.carrPh / pow2 32, k.prim, (h.reg (LOOP_LO n)).toNat, h.ringHz n, bodyWord k.body 0, bodyWord k.body 1] ++
  (upTo 10).map (fun i => bodyWord k.body (6 + i)) ++ (upTo 6).map (k.aid.getD · 0) ++ [0] ++
  (upTo 32).map (k.data.getD · 0) ++ block ++ List.replicate 16 0

/-- A task starts on core c in area q (R225, R354). -/
def Hw.startTask (h : Hw) (c q : Nat) (k : LoopTask) : Hw :=
  let t := h.strand k.strand
  let zero := t.zeroBlock && !k.dead
  let (block, h) := if zero then (List.replicate 32 0, h) else h.blockWords k.strand (stateBlock k.strand) 16
  let ws := h.areaWords k block
  let h := h.setLocals c (256 * q) ws
  let h := if zero then h.setStrand k.strand { t with zeroBlock := false, kern := KernState.start } else h
  let r := { CoreRegs.start with x := BitVec.ofNat 16 (256 * q), mr := 2, pc := h.rf (LOOP_KSLOT_RANGE_BASE k.slot) }
  h.setCore c { h.core c with run := some ⟨k, q, r⟩, preempt := false }

/-- LOOP_TASK_DISPATCH: a live core without a task takes the first of the ready tasks and those saved on it (R222, R224, R225). -/
def Hw.taskDispatch (h : Hw) (c : Nat) : Hw :=
  let k := h.core c
  if k.run.isSome ∨ !h.coreLive c then h
  else
    let cands := (k.saved.map fun r => (r.task, true)) ++ (h.startable.map fun j => (j, false))
    match firstTask cands with
    | none => h
    | some (j, true) =>
      match k.saved.find? fun r => r.task.order == j.order with
      | some r => h.setCore c { k with run := some r, saved := k.saved.filter fun x => x.task.order != j.order, preempt := false }
      | none => h
    | some (j, false) =>
      match k.freeArea with
      | none => h
      | some q =>
        let h := { h with loop := { h.loop with ready := h.loop.ready.filter fun x => x.order != j.order } }
        h.startTask c q j

/-! ### Pre-emption (R377, R378) -/

/-- PREEMPT_SAVE: the requested pre-emption takes effect at a permitted point; the task is saved on its core (R377, R378). -/
def Hw.preemptSave (h : Hw) (c : Nat) : Hw :=
  let k := h.core c
  match k.run with
  | none => h
  | some r =>
    if h.mustSave k r ∧ k.retry.isNone then
      (h.setCore c { k with run := none, saved := k.saved ++ [r], preempt := false }).bump LOOP_TALLY0_PREEMPT
    else h

/-! ### The end of a task (R227 to R230) -/

/-- The return words as the area of core c holds them. -/
def Hw.areaReturn (h : Hw) (c : Fin 8) (q : Nat) : RetWords :=
  let w := fun i => h.localWord c (256 * q + 0x60 + i)
  ⟨w 0, w 1, w 2, w 3, w 4, w 5, w 6, w 7⟩

/-- The state block of a Strand as it leaves the task area: word 0 last (R227). -/
def Hw.writeBlock (h : Hw) (s : Nat) (ws : List Nat) : Hw := h.putWords (stateBlock s) ws

/-- The state block of a vendor kernel: its observation words, and private words, whose encoding is not given (R232, assumption log 21). -/
def Hw.vendorBlock (h : Hw) (s : Nat) (obs : List Nat) : Hw :=
  let (v, h) := h.freshWords 24
  h.writeBlock s (obs ++ v)

/-- A tracking task has returned (R228, R230, R266); `decided` says that it made a lock decision (R300). -/
def Hw.trackEnd (h : Hw) (k : LoopTask) (r : RetWords) (decided : Bool) : Hw :=
  let n := bodyPort k.body
  let late := match k.limit with | some d => decide (d ≤ h.ringCount n) | none => false
  let h := if late then h.bump LOOP_TALLY0_LATE else h
  if k.dead then h
  else
    let t := h.strand k.strand
    let h := match t.ended with
      | some e => h.setStrand k.strand { t with ended := some { e with ret := some r, unlock := decided && !bit r.flags 14 } }
      | none => h
    h.bitSync k r

/-- Observation words of K4 and K5: what their task carries; the rest is not stated. -/
def Hw.searchBlock (h : Hw) (k : LoopTask) : Hw :=
  let (v, h) := h.freshWords 31
  h.writeBlock k.strand ((k.iseq % 65536 + 65536 * k.state + pow2 19 * b2n k.starved + pow2 23 * b2n k.gap) :: v)

/-- A tranche task of K4 has returned (R211, R260 to R264). -/
def Hw.searchEnd (h : Hw) (k : LoopTask) : Hw :=
  let h := h.searchBlock k
  if k.dead then h
  else
    let t := h.strand k.strand
    let (_, u) := h.searchKernel k t.search
    (h.setStrand k.strand { t with search := { u with tasks := u.tasks - 1 } }).passEnd k.strand

/-- A task of K5 has returned (R341). -/
def Hw.snapEnd (h : Hw) (k : LoopTask) : Hw :=
  let h := h.searchBlock k
  if k.dead then h
  else
    let t := h.strand k.strand
    let h := h.setStrand k.strand { t with snap := snapKernel k t.snap, search := { t.search with tasks := t.search.tasks - 1 } }
    h.snapFinish k.strand

/-- LOOP_TASK_END (R227): the fabric reads the return words, the state block is written back and the area is freed. A vendor kernel's
program is not given: its task ends with the results of chapter 5 (assumption log 21). -/
def Hw.taskEnd (h : Hw) (c : Fin 8) (t : Running) : Hw :=
  let k := t.task
  let r := h.areaReturn c t.area
  let block := (upTo 32).map fun i => h.localWord c (256 * t.area + 0x40 + i)
  let h := h.setCore c { h.core c with run := none, preempt := false }
  let h := h.bump (LOOP_CORESTAT_TASKS c)
  if k.kind = 1 then h.searchEnd k
  else if k.kind = 2 then h.snapEnd k
  else if k.slot < 4 then
    let st := h.strand k.strand
    let out := h.trackKernel k st.kern
    let h := if k.dead then h else h.setStrand k.strand { st with kern := out.kern }
    (h.vendorBlock k.strand out.obs).trackEnd k out.ret out.decided
  else (h.writeBlock k.strand block).trackEnd k r true

/-- RET (Table 8.9, R355). -/
def Hw.runRet (h : Hw) (c : Fin 8) : Hw :=
  h.loopIssue c 0x32 branchCost fun h t i =>
    let r := t.regs
    if r.cond i.cond then
      match r.stack with
      | [] => h.taskEnd c t
      | p :: rest =>
        if !h.inSlot t.task.slot p then h.loopFault c t r.pc (plainFault 6)
        else h.setCore c { h.core c with run := some { t with regs := { r with pc := p, stack := rest, cyc := r.cyc + 2 } } }
    else if !h.inSlot t.task.slot (r.pc + 1) then h.loopFault c t r.pc (plainFault 6)
    else h.setCore c { h.core c with run := some { t with regs := { r with pc := r.pc + 1, cyc := r.cyc + 1 } } }

end Sys2Proof.Machine
end

