-- ==== Sys2Proof/Machine/Hitch.lean ====
section
/-! DEFINITION. Hitch epochs and measurement records (6.1 to 6.3): the epoch schedule, ring positions, anchors, records and their release. -/

namespace Sys2Proof.Machine

/-! ### Small times -/

/-- A value known to within ±1: what is added to it (R70, R332, HITCH_TCNT). -/
def Hw.jitter (h : Hw) : Int × Hw :=
  let (v, h) := h.fresh
  (((v % 3 : Nat) : Int) - 1, h)

/-! ### The schedule (R281 to R286) -/

/-- f_e of a RATE code (Table 6.1). -/
def epochRate (r : Nat) : Nat := [1, 2, 5, 10, 20, 25, 50].getD r 1

/-- Δ in input samples (R283). -/
def Hw.epochStep (h : Hw) : Nat := max 1 (h.rate 0 * 1000 / epochRate h.hitch.rate)

/-- SP0 is in RUN, GAP or HALTED. -/
def Hw.spZeroUp (h : Hw) : Bool :=
  let s := h.portState 0
  s == portRun || s == portGap || s == portHalted

/-- Epochs occur (R282). -/
def Hw.epochsOccur (h : Hw) : Bool := h.on HITCH_CTRL_EN && h.spZeroUp

/-- The first instant of the schedule at or after count c. -/
def Hw.instantFrom (h : Hw) (c : Nat) : Nat :=
  let b := h.hitch.base
  if (c : Int) ≤ b then b.toNat else (b + ((ceilDiv ((c : Int) - b).toNat h.epochStep * h.epochStep : Nat) : Int)).toNat

/-- The next instant, before any HITCH_ADJ. -/
def Hw.nextInstant (h : Hw) : Nat :=
  h.instantFrom (max h.hitch.cursor (match h.hitch.lastN with | some n => n + 1 | none => 0))

/-- The BASE registers follow the BASE in force while no written pair is pending; a LO that waits for its HI stays as written (R284). -/
def Hw.showBase (h : Hw) : Hw :=
  match h.hitch.pendBase with
  | some _ => h
  | none =>
    let b := ofInt 64 h.hitch.base
    let h := if h.hitch.loWritten.isSome then h else h.sf HITCH_BASE_LO_BASE b
    h.sf HITCH_BASE_HI_BASE (b / pow2 32)

/-- HITCH_BASE_LO is written: it waits for HI (R284). -/
def Hw.hitchBaseLo (h : Hw) (v : Nat) : Hw :=
  { h.sf HITCH_BASE_LO_BASE v with hitch := { h.hitch with loWritten := some (v % pow2 32) } }

/-- HITCH_STAT.PEND. -/
def Hw.showPend (h : Hw) : Hw := h.sf HITCH_STAT_PEND (b2n (h.hitch.pendRate.isSome || h.hitch.pendBase.isSome))

/-- A pending change takes effect (R284): after the changeover instant `nc`, or at once. -/
def Hw.changeover (h : Hw) (nc : Option Nat) : Hw :=
  let u := h.hitch
  if u.pendRate.isNone ∧ u.pendBase.isNone then h
  else
    let base : Int := match u.pendBase, nc with
      | some b, _ => (b : Int)
      | none, some n => (n : Int)
      | none, none => u.base
    let cursor := match nc with | some n => n + 1 | none => max u.cursor (h.port 0).cnt
    let h := { h with hitch := { u with
      rate := u.pendRate.getD u.rate, base := base, pendRate := none, pendBase := none, cursor := cursor } }
    (h.showBase.showPend).sf HITCH_EVT_SCHED 1

/-- A pending change takes effect at once while epochs do not occur (R284). -/
def Hw.settleSchedule (h : Hw) : Hw := if h.epochsOccur then h else h.changeover none

/-- HITCH_CTRL_WRITE (R284): RATE = 7 is refused; another RATE than that in force is pending; the other fields act at once. -/
def Hw.hitchCtrl (h : Hw) (v : Nat) : Hw :=
  let r := bits v 1 3
  if r = 7 then h.sf HITCH_EVT_CFG_ERR 1
  else
    let was := h.on HITCH_CTRL_EN
    let h := h.writeFields HITCH_CTRL v
    let cursor := if was then h.hitch.cursor else max h.hitch.cursor (h.port 0).cnt
    let h := { h with hitch := { h.hitch with
      pendRate := if r = h.hitch.rate then none else some r, cursor := cursor,
      lastUs := if h.on HITCH_CTRL_EN then h.hitch.lastUs else none } }
    h.showPend.settleSchedule

/-- HITCH_BASE_HI_WRITE: the pair of BASE registers becomes pending (R284). -/
def Hw.hitchBase (h : Hw) (v : Nat) : Hw :=
  let h := h.writeFields HITCH_BASE_HI v
  let h := { h with hitch := { h.hitch with
    pendBase := some (h.rf HITCH_BASE_LO_BASE + pow2 32 * h.rf HITCH_BASE_HI_BASE), loWritten := none } }
  h.showPend.settleSchedule

/-- HITCH_ADJ (R285, R286): the next instant moves by a samples, or the write is ignored. -/
def Hw.hitchAdj (h : Hw) (v : Nat) : Hw :=
  let a := toSigned 16 v
  let c : Int := (h.port 0).cnt
  let low := match h.hitch.lastN with | some n => max (n : Int) c | none => c
  if (h.nextInstant : Int) + a ≤ low then h.sf HITCH_EVT_CFG_ERR 1
  else { h with hitch := { h.hitch with adj := some a } }

/-! ### Ring positions (R287, R288) -/

/-- u_n in 2^−32 ring sample for the instant N (R288). -/
def Hw.ringPosition (h : Hw) (n : Nat) (inst : Int) : Int :=
  let r0 : Int := h.rate 0
  let rn : Int := h.rate n
  let scale : Int := 65536 * 1000000000
  let ofs := toSigned 32 (h.rf (SP_OFS_OFS n)) - toSigned 32 (h.rf (SP_OFS_OFS 0))
  let num := (inst - (h.hitch.refs.getD n 0 : Int)) * rn * scale - ofs * rn * 1000 * r0
  roundDiv (num * (pow2 32 : Nat)) (r0 * scale * (h.dec n : Int))

/-- The ring positions of every port. -/
def Hw.ringPositions (h : Hw) (inst : Int) : List Int := (upTo 4).map fun n => h.ringPosition n inst

/-- HITCH_INSTANT_DUE (R281, R282, R292): the next instant has been passed by the receiver sample counter. -/
def Hw.instantDue (h : Hw) : Hw :=
  let plain := h.nextInstant
  let inst := ((plain : Int) + h.hitch.adj.getD 0).toNat
  if !h.counting 0 ∨ (h.port 0).cnt ≤ inst then h
  else if !h.on HITCH_CTRL_EN then { h with hitch := { h.hitch with cursor := plain + 1 } }
  else if !h.spZeroUp then ({ h with hitch := { h.hitch with cursor := plain + 1 } } : Hw).sf HITCH_EVT_NOEPOCH 1
  else
    let moved := h.hitch.adj.isSome
    let base := h.hitch.base + h.hitch.adj.getD 0
    let step := h.epochStep
    let h := ({ h with hitch := { h.hitch with base := base, adj := none } } : Hw).showBase
    let (d, h) := h.jitter
    let us := h.ringPositions inst
    let prev := match h.hitch.lastUs with
      | some p => p
      | none => h.ringPositions ((inst - step : Nat) : Int)
    let seq := (h.hitch.seq + 1) % pow2 32
    let e : Epoch := ⟨seq, inst, ((h.tcnt : Int) + d).toNat, us, prev, moved, false, (upTo 4).map fun n => (h.port n).era, [none, none, none, none]⟩
    let h := { h with hitch := { h.hitch with
      seq := seq, due := h.hitch.due ++ [e], lastN := some inst, lastUs := some us, cursor := inst + 1 } }
    if ((inst : Int) - base) % ((h.rate 0 * 1000 : Nat) : Int) = 0 then h.changeover (some inst) else h

/-! ### Release (R103, R289 to R293) -/

/-- The ring position of port n at epoch e lies on the count that the port is on now. -/
def Hw.sameCount (h : Hw) (e : Epoch) (n : Nat) : Bool := e.eras.getD n 0 == (h.port n).era

/-- The boundary that would be the anchor of Strand t at ring position u is not closed yet (R289, R290). -/
def Strand.anchorOpen (t : Strand) (u : Int) : Bool :=
  t.state.tracking && (match t.ended, t.boundary? with
    | some e, _ => decide (((e.nb * pow2 32 : Nat) : Int) ≤ u)
    | none, some nb => t.open_ && decide (((nb * pow2 32 : Nat) : Int) ≤ u)
    | none, none => false)

/-- The anchor of Strand s at epoch e is not closed yet (R290). -/
def Hw.anchorLate (h : Hw) (e : Epoch) (s : Nat) : Bool :=
  let n := bodyPort (h.strand s).body
  h.sameCount e n && (h.strand s).anchorOpen (e.us.getD n 0)

/-- The anchor was taken at or before the instant of epoch e, on the count of the instant. -/
def Anchor.before (a : Anchor) (e : Epoch) : Bool :=
  a.era == e.eras.getD a.port 0 && decide (((a.at_ * pow2 32 : Nat) : Int) ≤ e.us.getD a.port 0)

/-- The settled count of every port in RUN or GAP has passed the instant (R102, R103); a count that has begun anew has. -/
def Hw.settledPast (h : Hw) (e : Epoch) : Bool :=
  (upTo h.portCount).all fun n =>
    let s := h.portState n
    !(s == portRun || s == portGap) || !h.sameCount e n ||
      decide (e.us.getD n 0 * (h.dec n : Int) < (((h.port n).winCnt * pow2 32 : Nat) : Int))

/-- Every anchor is closed. -/
def Hw.anchorsClosed (h : Hw) (e : Epoch) : Bool := h.strandList.all fun p => !h.anchorLate e p.1

/-- ANCHOR_WAIT_EXPIRY: WAIT has run out after the condition of R103 was met (R290). -/
def Hw.anchorExpiry (h : Hw) : Hw :=
  match h.hitch.due with
  | [] => h
  | e :: rest => if h.settledPast e then { h with hitch := { h.hitch with due := { e with expired := true } :: rest } } else h

/-! ### Records (Table 6.2, R297 to R301) -/

/-- A GAP or SUSPECT block of port n lies between the two positions (R103). -/
def Hw.markedBetween (h : Hw) (n : Nat) (a b : Int) : Bool :=
  let p := h.port n
  let lo := (a / (pow2 32 : Nat) + 1).toNat / 2048
  let hi := (b / (pow2 32 : Nat)).toNat / 2048
  (upTo (hi + 1 - lo)).any fun k => p.isGap (lo + k) || p.isSuspect (lo + k)

/-- SUSPECT of port n at epoch e: as it stood when the port's count began anew, or as the blocks are marked (R103). -/
def Hw.suspectAt (h : Hw) (e : Epoch) (n : Nat) : Bool := (e.susp.getD n none).getD (h.markedBetween n (e.prev.getD n 0) (e.us.getD n 0))

/-- The code phase words CP_FRAC and CP_CHIPS with CP_MS (R298). -/
def codeWords (row : Signal) (tot : Int) (corr : Int) : Nat × Nat :=
  let m : Int := ((row.chips * chipUnit : Nat) : Int)
  let v := tot - corr
  let per := v / m
  let phi := v % m
  let c : Int := ((row.chipHz * chipUnit / 1000 : Nat) : Int)
  let p : Int := ((row.chips * 1000 / row.chipHz : Nat) : Int)
  let q := phi / c
  let rem := (phi - q * c).toNat
  (rem % pow2 32, rem / pow2 32 % 65536 + ((per * p + q).emod 65536).toNat * 65536)

/-- The 15 words of a record before RCHK, from an anchor (Table 6.2). -/
def Hw.recordWords (h : Hw) (s : Nat) (a : Anchor) (e : Epoch) (late starved : Bool) (slip since : Nat) : List Nat :=
  let b := a.body
  let n := bodyPort b
  let row := bodySignal b
  let head := s + 65536 * bodySig b + pow2 24 * bodySat b
  let base := 256 * a.state.toNat + 2048 * n
  if !a.state.tracking then [head, base, 0, 0, 0, 0, 0, 0, 0, 0, e.seq, 0, 0, 0, 0]
  else
    let u := e.us.getD n 0
    let d := u - ((a.at_ * pow2 32 : Nat) : Int)
    let one : Int := (pow2 32 : Nat)
    let tot := (a.phi : Int) + ((a.prim * row.chips * chipUnit : Nat) : Int) + roundDiv ((a.codeRate : Int) * d) one
    let psi := (a.carrPh : Int) + roundDiv (toSigned 32 a.carrRate * d) one
    let nb0 := h.nbWord s 0
    let hcr := if row.pilot then a.lockP else bit nb0 2
    let half : Int := if !row.pilot ∧ hcr ∧ bit nb0 3 then (pow2 31 : Nat) else 0
    let mpi := if a.mpv then bits a.mp 16 8 else 255
    let mpc := bodyMpc b && a.mpv && decide (h.rf LOOP_MPCFG_MPI_MIN ≤ mpi)
    let corr : Int := if mpc then toSigned 16 a.mp * 131072 else 0
    let (w2, w3) := codeWords row tot corr
    let fNom := (carrierHz b : Int) - (h.rf (LOOP_LO_LO n) : Int)
    let dd : Int := h.dec n
    let rr : Int := ((h.rate n * 1000 : Nat) : Int)
    let run := u - ((a.replicaAt * pow2 32 : Nat) : Int)
    let ph := toSigned 64 (ofInt 64 (psi - (a.carr0 : Int))) - roundDiv (fNom * run * dd) rr + half
    let carr := ofInt 64 ph
    let dop := clampInt (-2147483648) 2147483647 (roundDiv ((toSigned 32 a.carrRate * rr - fNom * dd * one) * 1024) (dd * one))
    let susp := h.suspectAt e n
    let valid := (a.state == .track || a.state == .vector) && a.lockC && !susp && !late
    let lockMs := satTo (pow2 32 - 1) ((u - ((since * pow2 32 : Nat) : Int)).toNat * h.dec n / (max 1 (h.rate n) * pow2 32))
    let flags := b2n valid + 2 * b2n hcr + 4 * b2n starved + 8 * b2n (a.state == .coast) + 16 * b2n mpc + 32 * b2n susp +
      64 * b2n late + 128 * b2n e.adj + 8192 * b2n a.lockC + 16384 * b2n a.lockP + 65536 * (slip % 256) + pow2 24 * bodyFch b
    [head, base + flags, w2, w3, carr % pow2 32, carr / pow2 32, ofInt 32 dop, a.cn0 + 65536 * mpi, a.mp % 65536 + 65536 * a.pli,
      lockMs, e.seq, ofInt 32 (u % one), ofInt 32 (u / one), satTo 65535 a.coastMs + 65536 * bits (bodyAidCtl b) 8 8, 0]

/-- The bytes of a list of words. -/
def wordBytes (ws : List Nat) : List Nat := ws.flatMap fun w => [w % 256, w / 256 % 256, w / 65536 % 256, w / 16777216 % 256]

/-- The anchor of a Strand that has none: it is IDLE at the instant (R291). -/
def Strand.idleAnchor (t : Strand) : Anchor := { t.anchorAt 0 0 with state := .idle }

/-- The anchor of Strand t at epoch e (R289): the latest boundary at or before the instant. A Strand whose replica starts later, and which has no
boundary of an earlier replica there, is IDLE at the epoch (R291; DEDUCED, assumption log 103). -/
def Strand.anchorFor (t : Strand) (e : Epoch) : Anchor :=
  match t.anchors.find? (·.before e) with
  | none => t.idleAnchor
  | some a =>
    let starts := t.state.tracking && decide (e.us.getD (bodyPort t.body) 0 < ((t.replicaAt * pow2 32 : Nat) : Int))
    if !a.state.tracking && starts then { a with state := .idle } else a

/-- The ring count from which LOCK_MS counts at ring position u: the latest event of R300 by then, or the replica start. -/
def Strand.lockFrom (t : Strand) (a : Anchor) (u : Int) : Nat :=
  (((t.eventAt :: t.slips).filter fun x => decide (((x * pow2 32 : Nat) : Int) ≤ u))).foldl max a.eventAt

/-- Write the record of Strand s for epoch e; answers whether it was LATE (R290, R292, R300). -/
def Hw.writeRecord (h : Hw) (e : Epoch) (s : Nat) : Bool × Hw :=
  let t := h.strand s
  let late := h.anchorLate e s
  let a := if late then t.anchors.head?.getD t.idleAnchor else t.anchorFor e
  let u := e.us.getD a.port 0
  let full := a.state.tracking
  let past := fun x : Nat => decide (((x * pow2 32 : Nat) : Int) ≤ u)
  let slip := if full && t.slips.any past then (t.slipCnt + 1) % 256 else t.slipCnt
  let pu := e.prev.getD a.port 0
  let starved := t.starvedRuns.any fun r => past r.1 && decide (pu < ((r.2 * pow2 32 : Nat) : Int))
  let ws := h.recordWords s a e (late && full) starved slip (t.lockFrom a u)
  let rchk := crc16 (wordBytes ws)
  let h := h.fabWrites (0x11020000 + 0x8000 * (e.seq % 2) + 64 * s) s (ws ++ [rchk])
  let h :=
    if t = Strand.reset then h
    else h.setStrand s { t with
      slips := if full then t.slips.filter (!past ·) else t.slips, slipCnt := slip,
      starvedRuns := t.starvedRuns.filter fun r => decide (u < ((r.2 * pow2 32 : Nat) : Int)) }
  (late && full, h)

/-- The 512 records of an epoch; answers how many were LATE. -/
def Hw.writeRecords (h : Hw) (e : Epoch) : List Nat → Nat × Hw
  | [] => (0, h)
  | s :: ss =>
    let (l, h) := h.writeRecord e s
    let (k, h) := h.writeRecords e ss
    (k + b2n l, h)

/-! ### Copying (R303, R304) -/

/-- CAUSE of DMA_STAT for an access that receives ERROR: 1 READ_ERR, 2 WRITE_ERR, 3 READ_ECC, 5 MPU_READ, 6 MPU_WRITE. -/
def dmaCause (write : Bool) (cls : Nat) : Nat :=
  if cls = 1 then (if write then 6 else 5) else if cls = 3 ∧ !write then 3 else if write then 2 else 1

/-- A DMA beat receives ERROR (R703, R704): the MPU and the ECC counters record it, and it has one entry, of class DMA (R713). -/
def Hw.dmaError (h : Hw) (c : Fin 8) (a : Nat) (write : Bool) (cls left : Nat) : Hw :=
  let h := if cls = 1 then h.mpuRecord (Master.dma c).source a write else h
  let h := if cls = 3 then (h.bump MEM_ECC_UE).sf MEM_ECCADDR_ADDR a else h
  h.report 7 (dmaCause write cls) (Master.dma c).source a (c.val + 256 * left)

/-- What a beat of memory of n bytes meets at `a`: the class of an ERROR, if any. -/
def Hw.memFault (h : Hw) (m : Master) (a n : Nat) (write : Bool) : Option Nat :=
  match h.access m a n write with
  | .error cls _ => some cls
  | .stall => none
  | .ok => if (!write || decide (n < 8)) && h.unreadable a then some 3 else none

/-- Beats of 64 bits from `src` to `dst`: the part when all are done, or the address, the direction, the class and the beats left at the first
that receives ERROR. -/
def Hw.copyBeats (h : Hw) (src dst : Nat) : Nat → Option (Nat × Bool × Nat × Nat) × Hw
  | 0 => (none, h)
  | k + 1 =>
    match h.memFault (.dma 0) src 8 false with
    | some cls => (some (src, false, cls, k + 1), h)
    | none =>
      match h.memFault (.dma 0) dst 8 true with
      | some cls => (some (dst, true, cls, k + 1), h)
      | none =>
        let h := h.correct src
        (h.memStore dst 8 (h.load src 8)).copyBeats (src + 8) (dst + 8) k

/-- An access of one of k beats would wait (R403). -/
def Hw.copyStalls (h : Hw) (src dst k : Nat) : Bool :=
  (upTo k).any fun i => h.access (.dma 0) (src + 8 * i) 8 false == .stall || h.access (.dma 0) (dst + 8 * i) 8 true == .stall

/-- The slots of the copy ring; values below 2 act as 2. -/
def Hw.copySlots (h : Hw) : Nat := max 2 (h.rf HITCH_COPY_SLOTS)

/-- The copy ring lies beyond the navigation SRAM: copying stops (HITCH_COPY). -/
def Hw.copyBad (h : Hw) : Bool := decide (64 < h.rf HITCH_COPY_SBASE + h.copySlots)

/-- The slot of the copy ring that takes the epoch with this EPOCH_SEQ (R303). -/
def Hw.copySlot (h : Hw) (seq : Nat) : Nat := 0x20000000 + 0x8000 * (h.rf HITCH_COPY_SBASE + seq % h.copySlots)

/-- The copy of epoch seq − 2, if it is still in progress at the release of epoch seq, is abandoned (R304): a part of its buffer has been copied.
How large a part is not stated, so a free value says. -/
def Hw.copyAbandon (h : Hw) (seq : Nat) : Hw :=
  let old := (seq + pow2 32 - 2) % pow2 32
  if old ∈ h.hitch.copies then
    let (v, h) := h.fresh
    let h := (h.copyBeats (0x11020000 + 0x8000 * (seq % 2)) (h.copySlot old) (v % 4096)).2
    let h := { h with hitch := { h.hitch with copies := h.hitch.copies.filter (· != old) } }
    let h := (h.sf HITCH_EVT_COPY_OVR 1).bump HITCH_TALLY_COPYOVR
    if h.sys.fwRunning then h.report 8 2 0 0 old else h
  else h

/-- The copy of epoch seq starts at its release (R303). -/
def Hw.copyStart (h : Hw) (seq : Nat) : Hw :=
  if !h.on HITCH_CTRL_COPY_EN then h
  else if h.copyBad then h.sf HITCH_EVT_CFG_ERR 1
  else { h with hitch := { h.hitch with copies := h.hitch.copies ++ [seq] } }

/-- The records of epoch e are written, and the registers show it (R292 to R295). -/
def Hw.releaseEpoch (h : Hw) (e : Epoch) : Hw :=
  let h := h.copyAbandon e.seq
  let (late, h) := h.writeRecords e (upTo 512)
  let h := if late = 0 then h else
    let h := (h.bumpBy HITCH_TALLY_LATEREC late).sf HITCH_EVT_LATE 1
    if h.sys.fwRunning then h.report 8 1 0 0 e.seq else h
  let h := (h.sf HITCH_EPOCH_LO_N (e.n % pow2 32)).sf HITCH_EPOCH_HI_N (e.n / pow2 32)
  let h := (h.sf HITCH_TCNT_LO_T (e.tcnt % pow2 32)).sf HITCH_TCNT_HI_T (e.tcnt / pow2 32)
  let h := ((h.sf HITCH_SEQ_SEQ e.seq).sf HITCH_STAT_BUF (e.seq % 2)).sf HITCH_EVT_EPOCH 1
  h.copyStart e.seq

/-- HITCH_RELEASE (R293): the records, then HITCH_EPOCH, HITCH_TCNT and HITCH_SEQ, then EVT.EPOCH. Answers the epoch released. The records wait for
the strand table memory (R415, R418). -/
def Hw.hitchRelease (h : Hw) : Option Epoch × Hw :=
  match h.hitch.due with
  | [] => (none, h)
  | e :: rest =>
    if h.settledPast e ∧ (h.anchorsClosed e ∨ e.expired) ∧ !h.tableBusy then
      (some e, { h with hitch := { h.hitch with due := rest } }.releaseEpoch e)
    else (none, h)

/-- Port n restarts its count: the epochs that wait keep what its blocks were, and no earlier instant lies on the new count (R103, R281). -/
def Hw.hitchForget (h : Hw) (n : Nat) : Hw :=
  let keep := fun e : Epoch => if h.sameCount e n then { e with susp := e.susp.set n (some (h.suspectAt e n)) } else e
  { h with hitch := { h.hitch with
    due := h.hitch.due.map keep, lastUs := h.hitch.lastUs.map fun us => us.set n (-((pow2 32 : Nat) : Int)) } }

/-- SP0 restarts its count: instants latched on the earlier count no longer bind (R281). -/
def Hw.hitchRestart (h : Hw) : Hw :=
  { h with hitch := { h.hitch with cursor := 0, lastN := none, lastUs := none } }

/-- Port n counts its sample 0: REF0 and R_n (R70, R287). SP0 latches its own count of sample 0, which is 0 without the residual of one sample,
since both counts are the same one (DEDUCED, assumption log 116). -/
def Hw.latchRef (h : Hw) (n : Nat) : Hw :=
  let s := h.portState 0
  let full := (h.port 0).cnt
  let (low, h) :=
    if n = 0 then (0, h)
    else if s = portRun ∨ s = portGap then
      let (d, h) := h.jitter
      (ofInt 32 ((full : Int) + d), h)
    else (pow2 32 - 1, h)
  let r := if n = 0 then 0 else full / pow2 32 * pow2 32 + low
  let h := h.sf (SP_REF0_REF0 n) low
  { h with hitch := { h.hitch with refs := h.hitch.refs.set n r } }

end Sys2Proof.Machine
end

