-- ==== Sys2Proof/Machine/TimePulse.lean ====
section
/-! DEFINITION. The time pulse and the time-mark input (6.4, 6.5). -/

namespace Sys2Proof.Machine

/-! ### The generator (R306 to R312, R315, R318) -/

/-- The TSTATE codes. -/
def tFree : Nat := 0
def tLocked : Nat := 1
def tHoldover : Nat := 2

/-- TSTATE. -/
def Hw.tstate (h : Hw) : Nat := h.rf TP_STAT_TSTATE

/-- PER in 2^−32 timing clock. -/
def Hw.tpPeriod (h : Hw) : Nat := h.rf TP_PER_I_PER * pow2 32 + h.rf TP_PER_F_PER

/-- The width of a pulse in timing clocks (R309). -/
def Hw.tpWidth (h : Hw) : Nat :=
  let w := h.rf TP_CFG_WIDTH
  let per := h.tpPeriod
  if per * 100 ≤ w * 49152 * pow2 32 then (per + pow2 32) / pow2 33 else (w * 49152 + 50) / 100

/-- TP_NEXT shows E (R307). -/
def Hw.setEdge (h : Hw) (e : Nat) : Hw :=
  let e := e % pow2 96
  let h := { h with tp := { h.tp with edge := e } }
  ((h.sf TP_NEXT_LO_E (e / pow2 32)).sf TP_NEXT_HI_E (e / pow2 64)).sf TP_NEXT_F_E e

/-- TP_SLEW takes Q, and SLEWING follows it. -/
def Hw.setSlew (h : Hw) (q : Int) : Hw := (h.sf TP_SLEW_Q (ofInt 32 q)).sf TP_STAT_SLEWING (b2n (decide (q ≠ 0)))

/-- The ordinary edge update: E moves by PER and the slew step, the label increases (R307, R311, R312). -/
def Hw.edgeAdvance (h : Hw) : Hw :=
  let q := h.rfInt TP_SLEW_Q
  let m : Int := min 629 (h.rf TP_LIM_SLEW_MAX)
  let c := clampInt (-m) m q
  let h := h.setSlew (q - c)
  let h := h.setEdge (((h.tp.edge + h.tpPeriod : Nat) : Int) + c * 67108864).toNat
  h.count TP_LABEL_LABEL

/-- TP_STEP_APPLY (R318): the step takes the place of the update, or is refused and the update takes place. It is measured against the last pulse
output, which the pulse of this edge is where it is output; before any pulse nothing refuses it, and it omits no label (assumption log 25). -/
def Hw.stepApply (h : Hw) : Hw :=
  let h := h.sf TP_CMD_STEP_GO 0
  let e := h.rf TP_STEP_HI_E * pow2 64 + h.rf TP_STEP_LO_E * pow2 32 + h.rf TP_STEP_F_E
  let lbl := h.rf TP_STEPLBL_LABEL
  let ok := match h.tp.lastOut with | some (last, edge) => decide (last < lbl) && decide (edge < e) | none => true
  if ok then
    let omitted := match h.tp.lastOut with | some (last, _) => lbl - last - 1 | none => 0
    let h := (h.bumpBy TP_TALLY_OMITTED omitted).bump TP_TALLY_STEPS
    let h := { h with tp := { h.tp with stepNext := true } }
    (((h.sf TP_STAT_STEP 1).setSlew 0).setEdge e).sf TP_LABEL_LABEL lbl
  else (h.sf TP_STAT_STEP_REF 1).edgeAdvance

/-- TP is output: EN is 1, and FREE does not hold it (R307, R315). -/
def Hw.tpOut (h : Hw) : Bool := h.on TP_CFG_EN && !(h.tstate == tFree && h.on TP_CFG_FREE_ACT)

/-- TP_EDGE_UPDATE (R307): TCNT reaches floor(E); the pulse is output while EN is 1 and FREE does not hold it. -/
def Hw.edgeUpdate (h : Hw) : Hw :=
  let h := h.reach (h.tp.edge / pow2 32)
  let h :=
    if h.tpOut then
      { h with tp := { h.tp with
        active := true, fine := h.tp.edge % pow2 32 / 67108864, offAt := some (h.tp.edge / pow2 32 + h.tpWidth),
        pulse := (h.rf TP_LABEL_LABEL, h.tstate, h.rf TP_UNC_UNC, h.tp.stepNext), stepNext := false,
        lastOut := some (h.rf TP_LABEL_LABEL, h.tp.edge) } }
    else h
  if h.on TP_CMD_STEP_GO then h.stepApply else h.edgeAdvance

/-- TP_INACTIVE_EDGE (R309). -/
def Hw.inactiveEdge (h : Hw) : Hw :=
  match h.tp.offAt with
  | none => h
  | some t =>
    let h := h.reach t
    { h with tp := { h.tp with active := false, offAt := none } }

/-- A write of TP_PER_I: ignored outside its range (R310). -/
def Hw.writePeriod (h : Hw) (v : Nat) : Hw :=
  if 491520 ≤ v ∧ v ≤ 983040000 then h.writeFields TP_PER_I v else h.sf TP_STAT_CFG_ERR 1

/-- A write of TP_SLEW. -/
def Hw.writeSlew (h : Hw) (v : Nat) : Hw := h.setSlew (toSigned 32 v)

/-! ### Time states (R313, R314, R781) -/

/-- Entry into HOLDOVER: the growth rate starts at TP_UNCRATE. -/
def Hw.enterHoldover (h : Hw) : Hw :=
  let h := { h with tp := { h.tp with holdFrom := h.tcnt, ticks := 0, rate := h.rf TP_UNCRATE_F } }
  h.sf TP_STAT_TSTATE tHoldover

/-- TP_DISC: LOCKED with the uncertainty written. -/
def Hw.tpDisc (h : Hw) (v : Nat) : Hw :=
  let h := { h with tp := { h.tp with lastDisc := h.tcnt } }
  (h.sf TP_UNC_UNC v).sf TP_STAT_TSTATE tLocked

/-- TP_HOLD: LOCKED becomes HOLDOVER. -/
def Hw.tpHold (h : Hw) : Hw := if h.tstate = tLocked then h.enterHoldover else h

/-- HOLD_TMO as it acts. -/
def Hw.holdTmo (h : Hw) : Nat := max 1 (h.rf TP_LIM_HOLD_TMO)

/-- HOLD_TIMEOUT (R781). -/
def Hw.holdTimeout (h : Hw) : Hw :=
  if h.tstate = tLocked then (h.reach (h.tp.lastDisc + h.holdTmo * secondTicks)).enterHoldover else h

/-- A write of TP_LIM: a HOLD_TMO no greater than the time already elapsed enters HOLDOVER at once (R781). -/
def Hw.writeLim (h : Hw) (v : Nat) : Hw :=
  let h := h.writeFields TP_LIM v
  if h.tstate = tLocked ∧ h.tp.lastDisc + h.holdTmo * secondTicks ≤ h.tcnt then h.enterHoldover else h

/-- HOLDOVER_TICK (R314): UNC_ACC joins the rate, and the rate joins UNC; above the limit HOLDOVER becomes FREE. -/
def Hw.holdoverTick (h : Hw) : Hw :=
  if h.tstate = tLocked then h
  else
    let h := h.reach (h.tp.holdFrom + (h.tp.ticks + 1) * secondTicks)
    let r := h.tp.rate + h.rf TP_UNCACC_A
    let h := { h with tp := { h.tp with ticks := h.tp.ticks + 1, rate := r } }
    let h := h.bumpBy TP_UNC_UNC r
    if h.tstate = tHoldover ∧ max 1 (h.rf TP_LIM_LIMIT_NS) * 1000 < h.rf TP_UNC_UNC then h.sf TP_STAT_TSTATE tFree else h

/-! ### The firmware's correction (R317, R319) -/

/-- What a time solution gives of the pulse. The error is formed without the delays of Table 6.4, in 2^−16 ns, positive where the pulse is late. -/
def Hw.pulseError (f : PulseFix) (antDly outDly : Int) : Int := f.err + antDly + outDly

/-- An error in 2^−16 ns as fine steps, rounded to nearest: 31 457 280 000 of them to a second (R308, Table 6.5). -/
def fineSteps (e : Int) : Int := roundDiv (e * 3145728) (65536 * 100000)

/-- Fofiys firmware corrects the pulse from a time solution (R317): by a slew where the error is at most STEP_THR ns, otherwise by a step. -/
def Hw.pulseFix (h : Hw) (f : PulseFix) (thr : Nat) (antDly outDly : Int) : Hw :=
  let e := Hw.pulseError f antDly outDly
  if e.natAbs ≤ thr * 65536 then (h.tpDisc f.unc).setSlew (-(fineSteps e))
  else
    let h := ((h.sf TP_STEP_LO_E (f.edge / pow2 32)).sf TP_STEP_HI_E (f.edge / pow2 64)).sf TP_STEP_F_E f.edge
    ((h.sf TP_STEPLBL_LABEL f.label).sf TP_CMD_STEP_GO 1).tpDisc f.unc

/-! ### TCNT (R306) -/

/-- TCNT_LO: bits 31 to 0, with bits 63 to 32 latched into TCNT_HI. -/
def Hw.readTcnt (h : Hw) : Hw :=
  { (h.sf TCNT_LO_T (h.tcnt % pow2 32)).sf TCNT_HI_T (h.tcnt / pow2 32) with resp := .data (h.tcnt % pow2 32) }

/-! ### Time marks (R320 to R322) -/

/-- An edge is discarded. -/
def Hw.dropMark (h : Hw) (f : Fld) : Hw := (h.sf f 1).bump TM_STAT_DROPS

/-- TMARK_CAPTURE: an edge that has kept its new level for `held` timing clocks, at least MINW of them (R320, R321). The count captured is that of
the edge itself, without the latency of the filter. -/
def Hw.markEdge (h : Hw) (rise : Bool) (held : Nat) : Hw :=
  if h.on TM_CFG_EN ∧ bit (h.rf TM_CFG_EDGE) (if rise then 0 else 1) ∧ max 1 (h.rf TM_CFG_MINW) ≤ held then
    let at_ := h.tcnt - held
    let close := match h.tp.lastMark with | some t => decide (at_ - t ≤ 16) | none => false
    if close then h.dropMark TM_STAT_CLOSE
    else if 8 ≤ h.tp.marks.length then h.dropMark TM_STAT_OVF
    else { h with tp := { h.tp with marks := h.tp.marks ++ [(at_, rise, h.tstate)], lastMark := some at_ } }
  else h

/-- TM_T_LO: the oldest capture, removed; its high word and its edge and state are latched (R322). -/
def Hw.readMark (h : Hw) : Hw :=
  match h.tp.marks with
  | [] => { h.sf TM_INFO_VALID 0 with resp := .data (h.rf TM_T_LO_T) }
  | (t, rise, st) :: rest =>
    let h := { h with tp := { h.tp with marks := rest } }
    let h := (h.sf TM_T_LO_T t).sf TM_T_HI_T (t / pow2 32)
    let h := ((h.sf TM_INFO_RISE (b2n rise)).sf TM_INFO_VALID 1).sf TM_INFO_TSTATE st
    { h with resp := .data (t % pow2 32) }

end Sys2Proof.Machine
end

