-- ==== Sys2Proof/Machine/Copy.lean ====
section
/-! DEFINITION. The copy of released records by DMA channel 0 (R303, R304, R717). -/

namespace Sys2Proof.Machine

/-- How the copy of record `seq` ends: HITCH_CPIDX takes its EPOCH_SEQ, or, after a fault, the copy is abandoned (R303, R717). -/
def Hw.copyEnd (seq : Nat) : Option (Nat × Bool × Nat × Nat) × Hw → Hw
  | (none, h) => h.sf HITCH_CPIDX_CPSEQ seq
  | (some (a, write, cls, left), h) => ((h.sf HITCH_EVT_COPY_OVR 1).bump HITCH_TALLY_COPYOVR).dmaError 0 a write cls left

/-- HITCH_COPY_COMPLETE: the 32 KiB of the released buffer go to their slot, and EPOCH_SEQ to HITCH_CPIDX (R303). A fault abandons the copy
(R717); a unit or row that makes accesses wait delays it (R415, R418). -/
def Hw.copyDone (h : Hw) : Hw :=
  match h.hitch.copies with
  | [] => h
  | seq :: rest =>
    let src := 0x11020000 + 0x8000 * (seq % 2)
    let dst := h.copySlot seq
    if h.copyStalls src dst 4096 then h
    else Hw.copyEnd seq ({ h with hitch := { h.hitch with copies := rest } }.copyBeats src dst 4096)

end Sys2Proof.Machine
end

