-- ==== Sys2Proof/Machine/HitchCmds.lean ====
section
/-! DEFINITION. The commands of the Hitch unit, the time pulse and the time mark (chapter 6). -/

namespace Sys2Proof.Machine

/-- HITCH_INSTANT_DUE: the next epoch instant has been passed (R281, R282). -/
def execHitchInstantDue (s : State) : Host.Outcome State Fault Refusal := s.does (·.instantDue)

/-- HITCH_RELEASE: the records of the oldest epoch are written and released (R293), and the MEASUREMENT frames follow (R492). -/
def execHitchRelease (s : State) : Host.Outcome State Fault Refusal := s.does fun h =>
  match h.hitchRelease with
  | (none, h) => h
  | (some e, h) => if h.sys.fwRunning && h.upd.splicing.isNone then h.measFrames e.seq else h

/-- ANCHOR_WAIT_EXPIRY: WAIT expires for the oldest epoch (R290). -/
def execAnchorWaitExpiry (s : State) : Host.Outcome State Fault Refusal := s.does (·.anchorExpiry)

/-- HITCH_COPY_COMPLETE: a copy completes (R303). -/
def execHitchCopyComplete (s : State) : Host.Outcome State Fault Refusal := s.does (·.copyDone)

/-- HITCH_CTRL_WRITE: a write of HITCH_CTRL (R284). -/
def execHitchCtrlWrite (v : BitVec 32) (s : State) : Host.Outcome State Fault Refusal := s.does (·.hitchCtrl v.toNat)

/-- HITCH_BASE_HI_WRITE: a write of HITCH_BASE_HI (R284). -/
def execHitchBaseHiWrite (v : BitVec 32) (s : State) : Host.Outcome State Fault Refusal := s.does (·.hitchBase v.toNat)

/-- HITCH_ADJ: a write of HITCH_ADJ (R285, R286). -/
def execHitchAdj (v : BitVec 32) (s : State) : Host.Outcome State Fault Refusal := s.does (·.hitchAdj v.toNat)

/-- TCNT_LO_READ: a read of TCNT_LO (R306). -/
def execTcntLoRead (s : State) : Host.Outcome State Fault Refusal := s.does (·.readTcnt)

/-- TP_EDGE_UPDATE: the active edge of TP and the computation of the next (R307 to R312). -/
def execTpEdgeUpdate (s : State) : Host.Outcome State Fault Refusal := s.does (·.edgeUpdate)

/-- TP_INACTIVE_EDGE: TP returns to its inactive level (R309). -/
def execTpInactiveEdge (s : State) : Host.Outcome State Fault Refusal := s.does (·.inactiveEdge)

/-- TP_DELAY_CAL: the delay line is calibrated (R308). The line's setting is no register and changes no value that a command reads, so nothing in the state changes. -/
def execTpDelayCal (s : State) : Host.Outcome State Fault Refusal := s.does fun h => h

/-- TP_DISC: a write of TP_DISC (R313). -/
def execTpDisc (v : BitVec 32) (s : State) : Host.Outcome State Fault Refusal := s.does (·.tpDisc v.toNat)

/-- TP_HOLD: a write of TP_CMD.HOLD (R313). -/
def execTpHold (s : State) : Host.Outcome State Fault Refusal := s.does (·.tpHold)

/-- TP_STEP_GO: a write of TP_CMD.STEP_GO: the step is applied at the next edge update (R310). -/
def execTpStepGo (s : State) : Host.Outcome State Fault Refusal := s.does (·.sf TP_CMD_STEP_GO 1)

/-- HOLD_TIMEOUT: HOLD_TMO seconds have passed since the last TP_DISC (R781). -/
def execHoldTimeout (s : State) : Host.Outcome State Fault Refusal := s.does (·.holdTimeout)

/-- HOLDOVER_TICK: a holdover tick (R314). -/
def execHoldoverTick (s : State) : Host.Outcome State Fault Refusal := s.does (·.holdoverTick)

/-- TMARK_CAPTURE: an edge at TMARK has kept its level (R320, R321). -/
def execTmarkCapture (rise : Bool) (held : BitVec 32) (s : State) : Host.Outcome State Fault Refusal := s.does (·.markEdge rise held.toNat)

/-- TM_T_LO_READ: a read of TM_T_LO (R322). -/
def execTmTLoRead (s : State) : Host.Outcome State Fault Refusal := s.does (·.readMark)

end Sys2Proof.Machine
end

