-- ==== Sys2Proof/Machine/Units.lean ====
section
/-! DEFINITION. Memory units and the Thimble bank (chapter 9): power and fill, march tests, repair and retirement, the retention check, the
wipe, the wrapped key store, and MRAM word writes. -/

namespace Sys2Proof.Machine

/-! ### CRC-32 (R324) -/

/-- One bit of the reflected CRC-32. -/
def crc32Bit (c : Nat) : Nat := if c % 2 = 1 then (c / 2) ^^^ 0xEDB88320 else c / 2

/-- One byte. -/
def crc32Byte (c b : Nat) : Nat :=
  crc32Bit (crc32Bit (crc32Bit (crc32Bit (crc32Bit (crc32Bit (crc32Bit (crc32Bit (c ^^^ (b % 256)))))))))

/-- CRC-32 of a byte string (R324). -/
def crc32 (bs : List Nat) : Nat := bs.foldl crc32Byte 0xFFFFFFFF ^^^ 0xFFFFFFFF

/-! ### MRAM (R436, R437) -/

/-- The `n` bytes of MRAM from `a`, as reads after the queued writes see them. -/
def Hw.mramBytes (h : Hw) (a : Nat) : Nat → List Nat
  | 0 => []
  | n + 1 => h.mramWord a / pow2 (8 * (a % 8)) % 256 :: h.mramBytes (a + 1) n

/-- A little-endian number in the MRAM. -/
def Hw.mramNum (h : Hw) (a n : Nat) : Nat := leNat (h.mramBytes a n)

/-- The firmware or the boot ROM has written bytes into the MRAM: the word writes are taken as complete (assumption log 32). -/
def Hw.mramSet (h : Hw) (a : Nat) (bs : List Nat) : Hw :=
  let h := h.storeBytes a bs
  forEach (fun k h => h.setEcc (a / 8 * 8 + 8 * k) 0) (upTo ((a % 8 + bs.length + 7) / 8)) h

/-- MRAM_WORD_WRITE_DONE: the word is written and the next write starts. -/
def Hw.mramDone (h : Hw) : Hw :=
  match h.memu.mramCur with
  | none => h
  | some (a, v) =>
    let h := (h.store a 8 v).setEcc a 0
    match h.memu.mramQueue with
    | [] => { h with memu := { h.memu with mramCur := none } }
    | w :: ws => { h with memu := { h.memu with mramCur := some w, mramQueue := ws } }

/-! ### Unit states (R400 to R403) -/

def unitOff : Nat := 0
def unitRetention : Nat := 1
def unitPowering : Nat := 2
def unitChecking : Nat := 3
def unitFilling : Nat := 4
def unitIsOn : Nat := 5
def unitTest : Nat := 6
def unitRetired : Nat := 7

/-- The state of unit u. -/
def Hw.unitState (h : Hw) (u : Nat) : Nat := h.rf (MEM_SCTL_STATE u)

/-- The unit enters a state; AVAIL follows (R403). -/
def Hw.setUnit (h : Hw) (u st : Nat) : Hw := (h.sf (MEM_SCTL_STATE u) st).sf (MEM_SCTL_AVAIL u) (b2n (st == unitIsOn))

/-- Every error of the words from `a` for n bytes is gone. -/
def Hw.eccClear (h : Hw) (a n : Nat) : Hw :=
  { h with ecc := Store.keep (fun k => !(decide (a / 8 ≤ k) && decide (k < (a + n) / 8))) h.ecc }

/-- Every word of the unit is written with 0 and valid check bits (R401). -/
def Hw.fillUnit (h : Hw) (u : Nat) : Hw := (h.zero (unitBase u) (unitBytes u)).eccClear (unitBase u) (unitBytes u)

/-- A sample-memory unit is in use: part of a ring of a port that is not OFF, or of a capture that is not EMPTY (R402). Unit u holds the
64-KiB ring units 4u to 4u + 3. -/
def Hw.unitInUse (h : Hw) (u : Nat) : Bool :=
  u < 4 && (upTo 4).any fun n =>
    let b := h.rf (SP_RING_BASE n)
    let s := h.rf (SP_RING_SIZE n)
    let overlaps := decide (b < 4 * u + 4) && decide (4 * u < b + s)
    overlaps && (h.portState n != 0 || (h.coilState != coilEmpty && h.coilPort n))

/-- RUN_OFF = 1 is refused (R402). -/
def Hw.runOffRefused (h : Hw) (u : Nat) : Bool :=
  u == 4 || u == 5 || u == 6 || decide (15 ≤ u) || h.unitInUse u || (match h.memu.test with | some (t, _) => t == u | none => false)

/-- UNIT_RUN_OFF: RUN_OFF is written as 1, or the write is refused (R402). A unit that is being filled goes Off when the fill ends (DEDUCED,
assumption log 113). -/
def Hw.unitRunOff (h : Hw) (u : Nat) : Hw :=
  if h.runOffRefused u then h.sf (MEM_SCTL_REFUSED u) 1
  else
    let h := h.sf (MEM_SCTL_RUN_OFF u) 1
    if h.unitOn u then (h.fillUnit u).setUnit u unitOff else h

/-- UNIT_RUN_ON: RUN_OFF is written as 0. -/
def Hw.unitRunOn (h : Hw) (u : Nat) : Hw :=
  let h := h.sf (MEM_SCTL_RUN_OFF u) 0
  if h.unitState u = unitOff then h.setUnit u unitFilling else h

/-- UNIT_FILL_COMPLETE: the fill ends and the unit is available (R400, R401), or goes Off where RUN_OFF has been written meanwhile. -/
def Hw.unitFilled (h : Hw) (u : Nat) : Hw :=
  if h.unitState u = unitPowering ∨ h.unitState u = unitFilling then
    (h.fillUnit u).setUnit u (if h.on (MEM_SCTL_RUN_OFF u) then unitOff else unitIsOn)
  else h

/-- A write of MEM_SCTLu: SLACK_RET, REFUSED, then RUN_OFF. -/
def Hw.unitCtl (h : Hw) (u v : Nat) : Hw :=
  let h := h.sf (MEM_SCTL_SLACK_RET u) (bits v 1 1)
  let h := if bit v 6 then h.sf (MEM_SCTL_REFUSED u) 0 else h
  if bit v 0 then h.unitRunOff u else if h.on (MEM_SCTL_RUN_OFF u) ∨ h.unitState u = unitOff then h.unitRunOn u else h

/-! ### Retirement and repair (R408 to R418, Table 1.9) -/

/-- The loss of a unit of the strand table, the shared data or the program memory (Table 1.9). -/
def Hw.offlineEffect (h : Hw) (u : Nat) : Hw := if u = 4 ∨ u = 5 ∨ u = 6 then { h with sys := { h.sys with noFabric := true } } else h

/-- A bank is retired and its unit goes offline (R13, R413, R417). -/
def Hw.retireBank (h : Hw) (u b : Nat) : Hw :=
  let r := h.rf (MEM_SBANK_RETIRED u)
  ((h.sf (MEM_SBANK_RETIRED u) (if bit r b then r else r + pow2 b)).setUnit u unitRetired).offlineEffect u

/-- A bank is marked for retirement at the next cold boot (R417). -/
def Hw.markFailing (h : Hw) (u b : Nat) : Hw :=
  let h := { h with kept := { h.kept with failing := if (u, b) ∈ h.kept.failing then h.kept.failing else h.kept.failing ++ [(u, b)] } }
  (h.sf (MEM_SCTL_FAILING u) 1).report 3 5 0x40 0 (u + 32 * b)

/-- The first free spare row of a bank that is not in `bad` (R393, R410). -/
def Hw.freeSpare (h : Hw) (u b : Nat) (bad : List (Nat × Nat)) : Option Nat :=
  (upTo 2).find? fun s => !(h.memu.rowMaps.any fun m => m.unit == u && m.bank == b && m.spare == s) && !bad.contains (b, s)

/-- Row maps with `m` in the place of an earlier map of its row. -/
def withMap (m : RowMap) (ms : List RowMap) : List RowMap :=
  ms.filter (fun (x : RowMap) => !(x.unit == m.unit && x.bank == m.bank && x.row == m.row)) ++ [m]

/-- The map switches to the spare (R416, R418), and Fofiys firmware has a soft-map record to write. -/
def Hw.mapRow (h : Hw) (m : RowMap) : Hw :=
  let h := { h with memu := { h.memu with rowMaps := withMap m h.memu.rowMaps } }
  let h := if h.sys.fwRunning then { h with kept := { h.kept with softMaps := withMap m h.kept.softMaps } } else h
  h.sf (MEM_SCTL_SPARES_USED m.unit) (h.memu.rowMaps.filter (fun (x : RowMap) => x.unit == m.unit)).length

/-- The address of word c of a row (R393, R394). -/
def rowWord (u b r c : Nat) : Nat := unitBase u + 8 * ((32 * r + c) * unitBanks u + b)

/-- The row is copied into a spare: each word corrected, a word that is uncorrectable poisoned (R418). -/
def Hw.copyRow (h : Hw) (u b r : Nat) : Hw :=
  forEach (fun c h =>
    let a := rowWord u b r c
    if h.unreadable a then h.setEcc a 3 else h.setEcc a 0) (upTo 32) h

/-- A failing row without a free spare (R417); `live` for a live repair, which retires no bank at once (R418). -/
def Hw.noSpare (h : Hw) (u b : Nat) (live : Bool) : Hw := if u < 4 ∧ !live then h.retireBank u b else h.markFailing u b

/-- One failing row of a test on request: repaired, or its bank retired or marked (R416, R417). -/
def Hw.handleRow (h : Hw) (u : Nat) (keep : Bool) (bad : List (Nat × Nat)) (br : Nat × Nat) : Hw :=
  match h.freeSpare u br.1 bad with
  | some s =>
    let h := if keep then h.copyRow u br.1 br.2 else h
    (h.mapRow ⟨u, br.1, br.2, s⟩).sf MEM_MTEST_REPAIRED 1
  | none => (h.noSpare u br.1 false).sf MEM_MTEST_RETIRED 1

/-- The rows of unit u with a word that cannot be read: they fail a preserving test (R409). -/
def Hw.rowsUnreadable (h : Hw) (u : Nat) : List (Nat × Nat) :=
  ((h.ecc.filter fun e => (e.2 == 2 || e.2 == 3) && unitOf (8 * e.1) == some u).map fun e => wordPlace u (8 * e.1)).eraseDups

/-- START is refused (R414). -/
def Hw.marchRefused (h : Hw) (u : Nat) (keep : Bool) : Bool :=
  h.memu.test.isSome || decide (15 ≤ u) || h.unitState u == unitRetired ||
    (!keep && !(h.unitState u == unitOff && h.on (MEM_SCTL_RUN_OFF u))) ||
    (keep && !h.unitOn u) ||
    (keep && decide (u < 4) && h.runOffRefused u) ||
    (keep && (u == 4 || u == 5 || u == 6) &&
      ((h.strandList.any fun p => p.2.state != .idle) || !h.loop.ready.isEmpty ||
        (upTo 8).any fun c => (h.core c).run.isSome || !(h.core c).saved.isEmpty))

/-- MARCH_TEST_START: a write of MEM_MTEST (R414). -/
def Hw.marchWrite (h : Hw) (v : Nat) : Hw :=
  let h := h.writeFields MEM_MTEST v
  if !bit v 8 then h
  else
    let u := bits v 0 5
    let keep := bit v 5
    if h.marchRefused u keep then h.sf MEM_MTEST_REFUSED 1
    else
      let h := { h with memu := { h.memu with test := some (u, keep) } }
      (h.sf (MEM_SCTL_STATE u) unitTest).sf MEM_MTEST_BUSY 1

/-- MARCH_TEST_COMPLETE (R409, R415 to R417): `rows` are the failing rows the march found and `bad` the unused spares that fail their own
test, each as bank and number. -/
def Hw.marchDone (h : Hw) (rows bad : List (Nat × Nat)) : Hw :=
  match h.memu.test with
  | none => h
  | some (u, keep) =>
    let fails := (rows.filter (fun r => decide (r.1 < unitBanks u) && decide (r.2 < 64)) ++ (if keep then h.rowsUnreadable u else [])).eraseDups
    let h := { h with memu := { h.memu with test := none } }
    let h := ((h.sf MEM_MTEST_REPAIRED 0).sf MEM_MTEST_RETIRED 0).sf MEM_MTEST_BUSY 0
    let h := h.setUnit u (if keep then unitIsOn else unitOff)
    let h :=
      if keep then forEach (fun k h => if h.eccAt (8 * k) = 1 ∧ unitOf (8 * k) = some u then h.setEcc (8 * k) 0 else h) (h.ecc.map (·.1)) h
      else h.fillUnit u
    let h := forEach (fun r h => h.handleRow u keep bad r) fails h
    let h := match fails.head? with
      | none => h
      | some r => ((h.sf MEM_MTRES_UNIT u).sf MEM_MTRES_BANK r.1).sf MEM_MTRES_ROW r.2
    ((h.sf MEM_MTRES_FAILROWS (satTo 255 fails.length)).sf MEM_MTEST_PASS (b2n fails.isEmpty)).sf MEM_MTEST_DONE 1

/-- A live repair of the row of the word at `a` begins with the test of a free spare (R410, R418), or its bank is marked. -/
def Hw.repairStart (h : Hw) (a : Nat) : Hw :=
  match unitOf a with
  | none => h
  | some u =>
    if !h.on MEM_CTRL_REPAIR_EN ∨ h.memu.repair.isSome then h
    else
      let (b, r) := wordPlace u a
      match h.freeSpare u b [] with
      | some s => { h with memu := { h.memu with repair := some ⟨⟨u, b, r, s⟩, [], false⟩ } }
      | none => if (u, b) ∈ h.kept.failing then h else h.noSpare u b true

/-- The end of the test of a live repair's spare (R410, R418): the row is locked for the copy; after a failed test the other spare is tested, or
R417 applies. -/
def Hw.spareTested (h : Hw) (r : Repair) (spareOk : Bool) : Hw :=
  let m := r.map
  let bad := (m.bank, m.spare) :: r.bad
  if spareOk then { h with memu := { h.memu with repair := some { r with locked := true } } }
  else match h.freeSpare m.unit m.bank bad with
    | some s => { h with memu := { h.memu with repair := some ⟨{ m with spare := s }, bad, false⟩ } }
    | none => { h with memu := { h.memu with repair := none } }.noSpare m.unit m.bank true

/-- LIVE_REPAIR_COMPLETE: the present stage of the live repair is complete (R418): the test of the spare, with its result, or the copy, after which
the map switches. -/
def Hw.repairDone (h : Hw) (spareOk : Bool) : Hw :=
  match h.memu.repair with
  | none => h
  | some r =>
    let m := r.map
    if r.locked then
      let h := { h with memu := { h.memu with repair := none } }
      ((h.copyRow m.unit m.bank m.row).mapRow m).report 3 4 0x40 0 (m.unit + 32 * m.bank + 512 * m.row)
    else h.spareTested r spareOk

/-! ### The wipe of the Thimble bank (R429 to R435, R782 to R784) -/

/-- Causes of a wipe (MEM_THSTAT.CAUSE). -/
def wipeLifecycle : Nat := 1
def wipeTamper : Nat := 2
def wipeCommand : Nat := 3
def wipeRetention : Nat := 4
def wipeScrapped : Nat := 5

/-- A request: it begins a wipe, or joins the one in progress (R429, R782). -/
def Hw.wipeRequest (h : Hw) (cause tev : Nat) : Hw :=
  let h := { h with pwr := { h.pwr with
    wipeCause := cause, wipeTev := if cause = wipeTamper then tev else h.pwr.wipeTev,
    wipeTamper := h.pwr.wipeTamper || cause == wipeTamper } }
  match h.memu.wipe with
  | some w =>
    if w.started then
      let h := h.sf MEM_THSTAT_CAUSE cause
      if cause = wipeTamper then h.sf MEM_THSTAT_TEV tev else h
    else h
  | none => { h with memu := { h.memu with wipe := some ⟨false, 1⟩ } }

/-- Both banks take the value 0. -/
def Hw.zeroThimble (h : Hw) : Hw := (h.fillUnit 15).fillUnit 16

/-- A request in Slack: units 15 and 16 are switched Off with their content, and the wake completes the wipe (R432). -/
def Hw.slackWipe (h : Hw) (cause tev : Nat) : Hw :=
  let h := h.wipeRequest cause tev
  let h := { h with pwr := { h.pwr with retained := h.pwr.retained.filter fun u => decide (u < 15) } }
  (h.zeroThimble.setUnit 15 unitOff).setUnit 16 unitOff

/-- WIPE_START: the request reaches the engine, which blocks the bank and writes zeros (R430). In Slack the wake does it (R432). -/
def Hw.wipeStart (h : Hw) : Hw :=
  match h.memu.wipe with
  | none => h
  | some w =>
    if w.started ∨ h.pwr.state = .slack then h
    else
      let h := { h with memu := { h.memu with wipe := some { w with started := true } } }
      let h := (h.sf MEM_THSTAT_BLOCKED 1).sf MEM_THSTAT_VERIFIED 0
      let h := h.sf MEM_THSTAT_CAUSE h.pwr.wipeCause
      let h := if h.pwr.wipeCause = wipeTamper then h.sf MEM_THSTAT_TEV h.pwr.wipeTev else h
      h.zeroThimble

/-- The wipe is verified (R430, R435, R677); Fofiys firmware ends every phone connection (R591). A tamper request that began it or joined it is
satisfied, whatever joined later (R782). -/
def Hw.wipeFinish (h : Hw) : Hw :=
  let tamper := h.pwr.wipeTamper
  let h := { h with memu := { h.memu with wipe := none }, pwr := { h.pwr with wipeCause := 0, wipeTev := 0, wipeTamper := false } }
  let h := ((h.sf MEM_THSTAT_VERIFIED 1).sf MEM_THSTAT_BLOCKED 0).bump MEM_THSTAT_WIPES
  let h := { h.sf MEM_KSTAT_LOADED 0 with pkey := { h.pkey with conns := [] } }
  let h := if tamper then h.sf BKPEV_TSTAT_TPEND 0 else h
  if tamper && h.on MEM_THCMD_TAMPER_LOCK then { h.sf MEM_THSTAT_TAMPER_LOCKED 1 with kept := { h.kept with tamperLocked := true } }
  else h

/-- The third read-back has failed (R433): units 15 and 16 are retired, and no keys are loaded (Table 1.9). -/
def Hw.wipeFail (h : Hw) : Hw :=
  let tev := h.pwr.wipeTev
  let h := { h with
    memu := { h.memu with wipe := none, lcTarget := none }, pwr := { h.pwr with wipeCause := 0, wipeTev := 0, wipeTamper := false } }
  let h := ((h.sf MEM_THSTAT_FAIL 1).setUnit 15 unitRetired).setUnit 16 unitRetired
  (h.sf MEM_KSTAT_LOADED 0).report 0xD 2 0x43 0 tev

/-- A wipe that a boot or a wake makes before it goes on: `bad` read-backs find a word that is not 0, of 3 at most (R432, R433, R783). -/
def Hw.wipeWhole (h : Hw) (bad : Nat) : Hw :=
  let w : Wipe := ⟨false, 1⟩
  let h := { h with memu := { h.memu with wipe := some w } }.wipeStart
  if 3 ≤ bad then h.wipeFail else h.wipeFinish

/-- WIPE_VERIFIED (R433): the read-back ends; `ok` when every word is 0 without an error. Answers the life-cycle target that the verified wipe
lets go on (R427). -/
def Hw.wipeVerified (h : Hw) (ok : Bool) : Option Nat × Hw :=
  match h.memu.wipe with
  | none => (none, h)
  | some w =>
    if !w.started then (none, h)
    else if ok then
      let t := h.memu.lcTarget
      let h := h.wipeFinish
      (t, { h with memu := { h.memu with lcTarget := none } })
    else if w.attempt < 3 then (none, { h with memu := { h.memu with wipe := some { w with attempt := w.attempt + 1 } } }.zeroThimble)
    else (none, h.wipeFail)

/-! ### The wrapped key store (R434, R439 to R442) -/

/-- Address of entry i. -/
def keyEntry (i : Nat) : Nat := 0x60C50000 + 128 * i

/-- The key class of a life-cycle state (Table 9.5): 0 none, 1 M, 2 S, 3 R. -/
def keyClass (lc : Nat) : Nat := [0, 1, 2, 2, 3, 0].getD lc 0

/-- JTAG is open (Table 9.5). -/
def jtagOpen (lc : Nat) : Bool := lc == 1 || lc == 4

/-- MEM_LCS shows the fuses. -/
def Hw.showLifecycle (h : Hw) : Hw :=
  ((h.sf MEM_LCS_STATE h.fuses.lifecycle).sf MEM_LCS_JTAG (b2n (jtagOpen h.fuses.lifecycle))).sf MEM_LCS_CLASS (keyClass h.fuses.lifecycle)

/-- The entry has the MAGIC and the CRC of Table 9.8. -/
def Hw.keyWhole (h : Hw) (i : Nat) : Bool :=
  h.mramNum (keyEntry i) 4 == 0x4B530001 && crc32 (h.mramBytes (keyEntry i) 124) == h.mramNum (keyEntry i + 0x7C) 4

/-- KEY_ID and SEQ of an entry. -/
def Hw.keyId (h : Hw) (i : Nat) : Nat := h.mramNum (keyEntry i + 4) 2
def Hw.keySeq (h : Hw) (i : Nat) : Nat := h.mramNum (keyEntry i + 8) 4

/-- The key that an entry loads, if the conditions of R441 hold. -/
def Hw.keyOf (h : Hw) (whole : List Nat) (i : Nat) : Option (List Nat) :=
  if whole.contains i ∧ h.mramNum (keyEntry i + 6) 1 = keyClass h.fuses.lifecycle ∧ keyClass h.fuses.lifecycle ≠ 0 ∧
      h.mramNum (keyEntry i + 0x0C) 2 ≠ 0 ∧ !(whole.any fun j => h.keyId j == h.keyId i && decide (h.keySeq i < h.keySeq j)) then
    Config.unwrap (h.mramBytes (keyEntry i) 128)
  else none

/-- Store n keys from slot `k` of bank 0, 64 bytes each (R434). -/
def Hw.storeKeys (h : Hw) (k : Nat) : List (List Nat) → Hw
  | [] => h
  | v :: vs => ((h.storeBytes (0x30000000 + 64 * k) ((v ++ List.replicate 64 0).take 64)).eccClear (0x30000000 + 64 * k) 64).storeKeys (k + 1) vs

/-- The key engine loads the keys of the store into bank 0 (R434, R441). -/
def Hw.loadKeys (h : Hw) : Hw :=
  let whole := (upTo 512).filter h.keyWhole
  let keys := ((upTo 512).filterMap (h.keyOf whole)).take 256
  ((h.storeKeys 0 keys).sf MEM_KSTAT_LOADED keys.length).sf MEM_KSTAT_SKIPPED (512 - keys.length)

/-- Keys may be loaded (R430, R435, Table 1.9). -/
def Hw.loadOk (h : Hw) : Bool :=
  h.memu.wipe.isNone && !h.thimbleBlocked && !h.on MEM_THSTAT_TAMPER_LOCKED && h.unitOn 15 && h.unitOn 16

/-- KEY_LOAD_CMD: MEM_THCMD.LOAD, or its refusal. -/
def Hw.keyLoad (h : Hw) : Hw := if h.loadOk then h.loadKeys else h

/-- TAMPER_UNLOCK: MEM_THCMD.UNLOCK (R435). -/
def Hw.tamperUnlock (h : Hw) : Hw := { h.sf MEM_THSTAT_TAMPER_LOCKED 0 with kept := { h.kept with tamperLocked := false } }

/-- A write of MEM_THCMD: UNLOCK, WIPE, LOAD in that order (R784). `fleet` says that the write has the FLEET rights that UNLOCK needs. -/
def Hw.thimbleCmd (h : Hw) (v : Nat) (fleet : Bool) : Hw :=
  let h := h.sf MEM_THCMD_TAMPER_LOCK (bits v 8 1)
  let h := if bit v 2 && fleet then h.tamperUnlock else h
  let h := if bit v 0 then h.wipeRequest wipeCommand 0 else h
  if bit v 1 then h.keyLoad else h

/-- The Thimble bank can be read: neither unit is offline (Table 1.9), and no wipe blocks it (R430). -/
def Hw.thimbleOpen (h : Hw) : Bool := h.unitState 15 != unitRetired && h.unitState 16 != unitRetired && !h.thimbleBlocked

/-- The key with a KEY_ID in the Thimble bank: the entry it was loaded from says which (R434, R441). -/
def Hw.keyWithId (h : Hw) (id : Nat) : Option (List Nat) :=
  if h.rf MEM_KSTAT_LOADED = 0 ∨ !h.thimbleOpen then none
  else
    let whole := (upTo 512).filter h.keyWhole
    (whole.find? fun i => h.keyId i == id && (h.keyOf whole i).isSome).bind (h.keyOf whole)

/-! ### Life cycle (R425 to R427) -/

/-- A transition is permitted with this role; `lyd` for a request on the Lanyard port (Table 9.6). -/
def lcAllowed (cur target role : Nat) (lyd : Bool) : Bool :=
  (cur == 1 && target == 2 && decide (2 ≤ role)) ||
  (cur == 2 && target == 3 && decide (1 ≤ role)) ||
  ((cur == 2 || cur == 3) && target == 4 && decide (3 ≤ role) && lyd) ||
  (cur != 5 && target == 5 && decide (2 ≤ role))

/-- LC_REQUEST: the word written to MEM_LCREQ, with the role of the session. Answers whether the request is accepted (R425, R427). -/
def Hw.lcRequest (h : Hw) (v role : Nat) (lyd : Bool) : Bool × Hw :=
  let target := bits v 0 3
  if bits v 16 16 = 0x4C43 ∧ lcAllowed h.fuses.lifecycle target role lyd ∧ h.memu.lcTarget.isNone then
    let h := { h with memu := { h.memu with lcTarget := some target } }
    (true, (h.report 0xD 3 0 0 target).wipeRequest wipeLifecycle 0)
  else (false, h)

/-! ### The retention check (R420 to R423) -/

/-- The canary word of bank b of unit u (R420). -/
def canaryWord (u b : Nat) : Nat := 0xC3A55A3C00000000 + 256 * u + b

/-- The canary word that the bank holds. -/
def Hw.canary (h : Hw) (u b : Nat) : Nat := Store.get (fun _ => 0) h.memu.canary (16 * u + b)

/-- The canary word of a bank set. -/
def Hw.setCanary (h : Hw) (u b v : Nat) : Hw :=
  { h with memu := { h.memu with canary := Store.set (fun _ => 0) h.memu.canary (16 * u + b) v } }

/-- Unit u enters Retention: the controller writes the canary of each bank (R420). -/
def Hw.canaries (h : Hw) (u : Nat) : Hw := forEach (fun b h => h.setCanary u b (canaryWord u b)) (upTo (unitBanks u)) h

/-- A bank has lost retention (R421): its canary differs, or the first or the last word of a row cannot be read. -/
def Hw.bankLost (h : Hw) (u b : Nat) : Bool :=
  h.canary u b != canaryWord u b ||
    (upTo 64).any fun r => h.unreadable (rowWord u b r 0) || h.unreadable (rowWord u b r 31)

/-- The banks of unit u that have lost retention. -/
def Hw.lostBanks (h : Hw) (u : Nat) : List Nat := (upTo (unitBanks u)).filter (h.bankLost u)

/-- A unit that was in Retention becomes available after its check (R421, R422). A Thimble bank that lost retention is wiped before its fill is
complete (R423). -/
def Hw.retentionCheck (h : Hw) (u : Nat) : Hw :=
  match h.lostBanks u with
  | [] => h.setUnit u unitIsOn
  | bs =>
    let mask := (upTo 16).foldl (fun m b => m + (if bs.contains b then pow2 b else 0)) 0
    let h := h.sf (MEM_SBANK_RETLOST u) (h.rf (MEM_SBANK_RETLOST u) ||| mask)
    let h := forEach (fun b h => h.report 3 3 0x40 0 (u + 32 * b)) bs h
    let h := if u = 15 ∨ u = 16 then (h.wipeRequest wipeRetention 0).wipeStart else h
    (h.fillUnit u).setUnit u unitIsOn

end Sys2Proof.Machine
end

