-- ==== Sys2Proof/Machine/KernelSlots.lean ====
section
/-! DEFINITION. Kernel slots and the loading of FLEET kernels (8.10, R384 to R392). -/

namespace Sys2Proof.Machine

/-- USERS of a slot: Strands whose applied or staged body names it, and its tasks queued, running or saved (LOOP_KSLOTn_CFG). -/
def Hw.slotUsers (h : Hw) (n : Nat) : Nat :=
  let names := fun (b : List Nat) => !b.isEmpty && bodyKernel b == n
  let strands := h.strandList.filter fun p => names p.2.body || (match p.2.staged with | some (b, _) => names b | none => false)
  let onCore := fun (c : Nat) =>
    let k := h.core c
    ((match k.run with | some t => [t] | none => []) ++ k.saved).filter fun (t : Running) => t.task.slot == n
  satTo 1023 (strands.length + (h.loop.ready.filter fun (t : LoopTask) => t.slot == n).length + ((upTo 8).flatMap onCore).length)

/-- Slot n is valid. -/
def Hw.slotValid (h : Hw) (n : Nat) : Bool := h.on (LOOP_KSLOT_CFG_VALID n)

/-- First word and length of a slot's range. -/
def Hw.slotRange (h : Hw) (n : Nat) : Nat × Nat := (h.rf (LOOP_KSLOT_RANGE_BASE n), h.rf (LOOP_KSLOT_RANGE_LEN n))

/-- The range from `b` of `len` words meets that of a valid slot other than n. -/
def Hw.rangeTaken (h : Hw) (n b len : Nat) : Bool :=
  (upTo 16).any fun m => m != n && h.slotValid m && decide (b < (h.slotRange m).1 + (h.slotRange m).2) && decide ((h.slotRange m).1 < b + len)

/-- A write of LOOP_KSLOTn_RANGE (R386). -/
def Hw.slotRangeWrite (h : Hw) (n v : Nat) : Hw :=
  if h.slotValid n then h.sf (LOOP_KSLOT_CFG_REF n) 1 else h.writeFields (LOOP_KSLOT_RANGE n) v

/-- A write of LOOP_KSLOTn_CFG (R385, R386). -/
def Hw.slotCfgWrite (h : Hw) (n v : Nat) : Hw :=
  let limit := bits v 4 12
  let clearRef := fun (h : Hw) => if bit v 2 then h.sf (LOOP_KSLOT_CFG_REF n) 0 else h
  let (b, len) := h.slotRange n
  if h.slotValid n then
    let h := clearRef h
    let h := if limit ≠ h.rf (LOOP_KSLOT_CFG_LIMIT n) then h.sf (LOOP_KSLOT_CFG_REF n) 1 else h
    if bit v 0 then h
    else if 0 < h.slotUsers n then h.sf (LOOP_KSLOT_CFG_REF n) 1
    else h.sf (LOOP_KSLOT_CFG_VALID n) 0
  else if bit v 0 then
    if len = 0 ∨ 16384 < b + len ∨ h.rangeTaken n b len ∨ (6 ≤ n ∧ limit = 0) then h.sf (LOOP_KSLOT_CFG_REF n) 1
    else ((clearRef h).sf (LOOP_KSLOT_CFG_LIMIT n) limit).sf (LOOP_KSLOT_CFG_VALID n) 1
  else (clearRef h).sf (LOOP_KSLOT_CFG_LIMIT n) limit

/-! ### Loading (R390, R391) -/

/-- The words of a little-endian byte string. -/
def wordsOf : List Nat → List Nat
  | a :: b :: c :: d :: rest => (a + 256 * b + 65536 * c + 16777216 * d) :: wordsOf rest
  | _ => []

/-- Word k of a code is structurally sound (BAD_CODE of Table 8.14). -/
def codeWordOk (code : List Nat) (k w : Nat) : Bool :=
  let i := insnOf w
  let nextIn := decide (k + 1 < code.length)
  let target := branchTarget k i
  i.legal &&
    (if i.op == 0x33 || i.op == 0x34 then
      nextIn && (let j := insnOf (code.getD (k + 1) 0)
        !j.notRepeatable && !(i.op == 0x34 && j.writesRC) && decide (k + 2 < code.length))
    else if i.op == 0x30 then decide (target < code.length) && (nextIn || i.cond == 0)
    else if i.op == 0x31 then decide (target < code.length) && nextIn
    else if i.op == 0x32 then nextIn || i.cond == 0
    else nextIn)

/-- Every word of the code is sound. -/
def codeOk (code : List Nat) : Bool := (code.zipIdx).all fun p => codeWordOk code p.2 p.1

/-- Words of the valid FLEET kernels but for slot n. -/
def Hw.fleetWords (h : Hw) (n : Nat) : Nat :=
  ((upTo 10).map fun k => if k + 6 != n && h.slotValid (k + 6) then (h.slotRange (k + 6)).2 else 0).sum

/-- The lowest free range of `len` words, the range of slot n counting as free: it begins at word 0 or where a valid range ends. -/
def Hw.firstFit (h : Hw) (n len : Nat) : Option Nat :=
  let ends := 0 :: ((upTo 16).filter fun m => m != n && h.slotValid m).map fun m => (h.slotRange m).1 + (h.slotRange m).2
  let good := ends.filter fun b => decide (b + len ≤ 16384) && !h.rangeTaken n b len
  good.foldl (fun m b => match m with | none => some b | some x => some (min x b)) none

/-- KLOAD_STAT of an image: the first check of Table 8.14 that fails, or 0. Loads do not overlap, so BUSY does not arise. -/
def Hw.kloadCheck (h : Hw) (img : List Nat) : Nat :=
  let num := fun (o : Nat) => leNat ((img.drop o).take 4)
  let len := num 8
  let slot := num 4
  let code := img.drop 0x20
  if num 0 ≠ 0x4B4C4E01 ∨ len < 1 ∨ 6144 < len ∨ num 12 < 1 ∨ 4095 < num 12 ∨ num 0x18 ≠ 0 ∨ num 0x1C ≠ 0 ∨ img.length ≠ 0x20 + 4 * len then 2
  else if crc32 code ≠ num 0x14 then 3
  else if slot < 6 ∨ 15 < slot then 4
  else if 0 < h.slotUsers slot then 5
  else if !codeOk (wordsOf code) then 6
  else if 6144 < h.fleetWords slot + len ∨ (h.firstFit slot len).isNone then 7
  else 0

/-- The kernel image of a slot, as firmware has read it from the journal or kept it there. -/
def Hw.setImage (h : Hw) (n : Nat) (img : List Nat) : Hw :=
  { h with fw := { h.fw with kImages := Store.set (fun _ => []) h.fw.kImages n img } }

/-- An image that has passed is written into program memory and its slot (R391). -/
def Hw.kloadPut (h : Hw) (img : List Nat) : Hw :=
  let num := fun (o : Nat) => leNat ((img.drop o).take 4)
  let slot := num 4
  let len := num 8
  let b := (h.firstFit slot len).getD 0
  let h := h.sf (LOOP_KSLOT_CFG_VALID slot) 0
  let h := (h.storeBytes (0x12800000 + 4 * b) (img.drop 0x20)).eccClear (0x12800000 + 4 * b) (4 * len)
  let h := (h.sf (LOOP_KSLOT_RANGE_BASE slot) b).sf (LOOP_KSLOT_RANGE_LEN slot) len
  (h.sf (LOOP_KSLOT_CFG_LIMIT slot) (num 12)).sf (LOOP_KSLOT_CFG_VALID slot) 1

/-- KLOAD_FREE (0x3340:04). -/
def Hw.kloadFree (h : Hw) : Nat := 6144 - h.fleetWords 16

end Sys2Proof.Machine
end

