-- ==== Sys2Proof/Machine/ObjTable.lean ====
section
/-! DEFINITION. The object dictionary's tables: the objects that Fofiys firmware serves (Tables 6.4, 7.6, 8.13, 10.3, 13.5, 15.1, 16.3, 17.6) and the kind
and role of the objects that are registers (R446, R447, R451). -/

namespace Sys2Proof.Machine

/-- The access kinds of R446. -/
inductive ObjKind where
  | ro | rw | wo | const | rwp
  deriving DecidableEq, Repr

/-- What values a write accepts (R445, R449). -/
inductive ObjCheck where
  | any
  | range (lo hi : Nat)       -- outside: RANGE
  | zeroOr (lo hi : Nat)      -- 0 or a value in the range; outside: RANGE
  | upTo (hi : Nat)           -- a set of codes; above: INVALID_VALUE
  deriving DecidableEq, Repr

/-- One firmware object: address, kind, size of its type in bytes (0: a RECORD, ARRAY or OCTETS), write role, permitted values. -/
structure ObjDef where
  idx   : Nat
  sub   : Nat
  kind  : ObjKind
  size  : Nat
  role  : Nat
  check : ObjCheck
  deriving DecidableEq, Repr

/-- The firmware objects with one row each (but those of 10.1's families, which `fwObject` adds). -/
def fwTable : List ObjDef :=
  [⟨0x1000, 1, .const, 4, 0, .any⟩, ⟨0x1000, 2, .const, 1, 0, .any⟩, ⟨0x1000, 3, .const, 1, 0, .any⟩, ⟨0x1000, 4, .const, 8, 0, .any⟩,
   ⟨0x1000, 5, .const, 1, 0, .any⟩, ⟨0x1001, 1, .ro, 4, 0, .any⟩, ⟨0x1001, 2, .ro, 1, 0, .any⟩,
   ⟨0x1010, 1, .rwp, 2, 1, .zeroOr 100 10000⟩, ⟨0x1020, 1, .ro, 1, 0, .any⟩, ⟨0x1020, 2, .ro, 2, 0, .any⟩] ++
  [⟨0x2100, 1, .rwp, 4, 1, .any⟩, ⟨0x2100, 2, .wo, 1, 1, .any⟩, ⟨0x2100, 3, .ro, 1, 0, .any⟩, ⟨0x2100, 4, .ro, 4, 0, .any⟩,
   ⟨0x2101, 1, .rwp, 1, 1, .upTo 1⟩, ⟨0x2101, 2, .rwp, 4, 1, .any⟩, ⟨0x2101, 3, .rwp, 1, 1, .any⟩, ⟨0x2101, 4, .rwp, 1, 1, .any⟩,
   ⟨0x2101, 5, .rwp, 2, 1, .any⟩, ⟨0x2101, 6, .rwp, 1, 1, .upTo 1⟩, ⟨0x2101, 7, .rwp, 1, 1, .any⟩, ⟨0x2101, 8, .ro, 0, 0, .any⟩,
   ⟨0x2102, 1, .ro, 0, 0, .any⟩, ⟨0x2102, 2, .ro, 0, 0, .any⟩, ⟨0x2102, 3, .wo, 1, 1, .any⟩] ++
  [⟨0x3340, 1, .wo, 0, 1, .any⟩, ⟨0x3340, 2, .ro, 1, 0, .any⟩, ⟨0x3340, 3, .wo, 1, 1, .any⟩, ⟨0x3340, 4, .ro, 2, 0, .any⟩,
   ⟨0x4010, 1, .rw, 4, 1, .any⟩, ⟨0x4010, 2, .rw, 1, 1, .upTo 2⟩, ⟨0x4010, 3, .ro, 4, 0, .any⟩, ⟨0x4100, 1, .rwp, 1, 1, .any⟩,
   ⟨0x5110, 1, .rwp, 4, 1, .any⟩, ⟨0x5110, 2, .rwp, 4, 1, .any⟩, ⟨0x5110, 3, .rwp, 4, 1, .any⟩, ⟨0x5120, 1, .rwp, 1, 1, .any⟩] ++
  [⟨0x6110, 1, .rwp, 2, 1, .range 50 500⟩, ⟨0x6110, 2, .rwp, 1, 1, .range 2 8⟩, ⟨0x6110, 3, .rwp, 1, 1, .upTo 1⟩,
   ⟨0x6110, 4, .rwp, 2, 1, .range 1 60⟩, ⟨0x6110, 5, .rwp, 1, 1, .upTo 3⟩, ⟨0x6110, 6, .rwp, 1, 1, .upTo 1⟩, ⟨0x6110, 7, .rwp, 1, 1, .upTo 1⟩,
   ⟨0x6110, 8, .rwp, 2, 1, .range 20 300⟩, ⟨0x6110, 9, .rwp, 2, 1, .range 100 2000⟩, ⟨0x6110, 10, .rwp, 2, 1, .range 100 10000⟩,
   ⟨0x6111, 1, .wo, 1, 1, .range 0 7⟩, ⟨0x6112, 1, .rwp, 0, 1, .any⟩, ⟨0x6113, 1, .ro, 0, 0, .any⟩, ⟨0x6113, 2, .wo, 1, 1, .any⟩] ++
  [⟨0x8001, 1, .wo, 0, 1, .any⟩, ⟨0x8001, 2, .wo, 0, 1, .any⟩, ⟨0x8001, 3, .wo, 1, 1, .any⟩, ⟨0x8001, 4, .wo, 1, 1, .any⟩, ⟨0x8001, 5, .wo, 1, 1, .any⟩,
   ⟨0x8001, 6, .ro, 0, 0, .any⟩, ⟨0x8002, 1, .rwp, 1, 1, .upTo 1⟩, ⟨0x8002, 2, .rwp, 1, 1, .any⟩, ⟨0x8002, 3, .rwp, 2, 2, .any⟩,
   ⟨0x8002, 4, .rwp, 2, 2, .any⟩, ⟨0x8002, 5, .rwp, 1, 2, .upTo 1⟩, ⟨0x8002, 6, .rwp, 1, 1, .upTo 1⟩, ⟨0x9110, 1, .rwp, 1, 2, .upTo 2⟩] ++
  [⟨0x9510, 1, .ro, 0, 0, .any⟩, ⟨0x9510, 2, .ro, 0, 0, .any⟩, ⟨0x9510, 3, .ro, 4, 0, .any⟩, ⟨0x9510, 4, .ro, 0, 0, .any⟩, ⟨0x9510, 5, .ro, 0, 0, .any⟩,
   ⟨0x9510, 6, .ro, 0, 0, .any⟩, ⟨0x9510, 7, .ro, 0, 0, .any⟩, ⟨0x9510, 8, .ro, 0, 0, .any⟩, ⟨0x9510, 9, .ro, 0, 0, .any⟩, ⟨0x9510, 10, .ro, 2, 0, .any⟩,
   ⟨0x9510, 11, .ro, 4, 0, .any⟩, ⟨0xA010, 1, .ro, 8, 0, .any⟩, ⟨0xA010, 2, .rwp, 1, 1, .upTo 1⟩, ⟨0xA010, 3, .ro, 4, 0, .any⟩, ⟨0xA010, 4, .ro, 4, 0, .any⟩]

/-- The object at an address among those that Fofiys firmware serves by itself: Table rows, bonds, zones, UART uses, Strand entries and their commit
object, navigation-bit buffers, records, log entries, and backup registers (R119, R156, R305, R546, R718, R650). -/
def fwObject (idx sub : Nat) : Option ObjDef :=
  match fwTable.find? fun o => o.idx == idx && o.sub == sub with
  | some o => some o
  | none =>
    if idx = 0x6111 ∧ 2 ≤ sub ∧ sub ≤ 9 then some ⟨idx, sub, .ro, 0, 0, .any⟩
    else if idx = 0x6114 ∧ 1 ≤ sub ∧ sub ≤ 16 then some ⟨idx, sub, .rwp, 0, 1, .any⟩
    else if idx = 0xB030 ∧ 1 ≤ sub ∧ sub ≤ 6 then some ⟨idx, sub, .rwp, 1, 1, .upTo 2⟩
    else if 0x3000 ≤ idx ∧ idx < 0x3200 ∧ 1 ≤ sub ∧ sub ≤ 0x18 then some ⟨idx, sub, .rw, 4, 1, .any⟩
    else if 0x3000 ≤ idx ∧ idx < 0x3200 ∧ 0x19 ≤ sub ∧ sub ≤ 0x40 then some ⟨idx, sub, .ro, 4, 0, .any⟩
    else if 0x3000 ≤ idx ∧ idx < 0x3200 ∧ sub = 0x41 then some ⟨idx, sub, .wo, 1, 1, .any⟩
    else if ((0x4200 ≤ idx ∧ idx < 0x4400) ∨ (0x4400 ≤ idx ∧ idx < 0x4600)) ∧ 1 ≤ sub ∧ sub ≤ 16 then some ⟨idx, sub, .ro, 4, 0, .any⟩
    else if idx = 0x9301 ∧ 1 ≤ sub ∧ sub ≤ 64 then some ⟨idx, sub, .ro, 0, 0, .any⟩
    else if idx = 0xA040 ∧ 1 ≤ sub ∧ sub ≤ 32 then some ⟨idx, sub, .rw, 4, 1, .any⟩
    else none

/-! ### Register objects -/

/-- The bits of a register that the journal restores at a start, 0 for a register that is not of kind RWP (R451). -/
def regRwpMask (a : Nat) : Nat :=
  if a = BGND_CTRL ∨ a = WAKE_CFG then 0xFFFFFFFF
  else if a = CAN_NQ 0 ∨ a = CAN_NQ 1 ∨ a = CAN_NSEG 0 ∨ a = CAN_NSEG 1 ∨ a = CAN_DQ 0 ∨ a = CAN_DQ 1 ∨ a = CAN_DSEG 0 ∨ a = CAN_DSEG 1 then 0xFFFFFFFF
  else if a = CAN_XPRE 0 ∨ a = CAN_XPRE 1 then 0x3FFFF
  else if a = CAN_CFG 0 ∨ a = CAN_CFG 1 then 0x7F00
  else if a = SP_OFS 0 ∨ a = SP_OFS 1 ∨ a = SP_OFS 2 ∨ a = SP_OFS 3 then 0xFFFFFFFF
  else if a = LOOP_LO 0 ∨ a = LOOP_LO 1 ∨ a = LOOP_LO 2 ∨ a = LOOP_LO 3 then 0xFFFFFFFF
  else if a = MEM_CTRL then 1
  else if a = MEM_THCMD then 0x100
  else if a = UART_SLOW 0 ∨ a = UART_SLOW 1 then 1
  else if a = RADIO_LIM then 0x3FF7F
  else if a = RADIO_CHMASK_LO then 0xFFFFFFFF
  else if a = RADIO_CHMASK_HI then 0xFF
  else if a = RADIO_COEX then 1
  else if a = PKEY_OUTCFG then 0x3FFC
  else if a = WAKE_EN then 0x1FFFF
  else if a = UPD_CWIN then 0xFFF
  else 0

/-- The registers of kind RWP. -/
def rwpRegs : List Nat :=
  [BGND_CTRL, WAKE_CFG, MEM_CTRL, MEM_THCMD, UART_SLOW 0, UART_SLOW 1, RADIO_LIM, RADIO_CHMASK_LO, RADIO_CHMASK_HI, RADIO_COEX, PKEY_OUTCFG,
   WAKE_EN, UPD_CWIN] ++
  (upTo 2).flatMap (fun n => [CAN_NQ n, CAN_NSEG n, CAN_DQ n, CAN_DSEG n, CAN_XPRE n, CAN_CFG n]) ++ (upTo 4).flatMap fun n => [SP_OFS n, LOOP_LO n]

/-- The register objects that are of kind RO whatever their fields (R706, R712, R723, 8.10, 12.9, 14.9, 16.8). -/
def regReadOnly (a : Nat) : Bool :=
  within 0x40080000 0x400801FF a || within 0x40000400 0x400004FF a || a == ELOG_SWADDR || a == ELOG_SWDET || a == ELOG_SWHDR ||
    (upTo 16).any (fun n => a == LOOP_KSLOT_RANGE n || a == LOOP_KSLOT_CFG n) || (upTo 4).any (fun n => a == RADIO_CSKEY n) || a == PWR_WAKEVEC ||
    a == UPD_CTRL || a == UPD_STAT || a == UPD_OTP || a == UPD_SPLTIME

/-- Kind of a register object (R446): from its header where it says so, else from the access of its fields. -/
def regKind (a : Nat) : ObjKind :=
  match regAt a with
  | none => .ro
  | some (d, _) =>
    if regReadOnly a then .ro
    else if regRwpMask a ≠ 0 then .rwp
    else if d.wo ≠ 0 ∧ d.rw = 0 ∧ d.w1c = 0 ∧ d.w1s = 0 ∧ d.rclr = 0 then .wo
    else if d.rw = 0 ∧ d.w1c = 0 ∧ d.w1s = 0 ∧ d.wo = 0 then .ro
    else .rw

/-- Write role of a register object; where no chapter gives one, FLEET (assumption log 33). -/
def regRole (a : Nat) : Nat :=
  if a = PWR_SLKREQ ∨ a = PWR_STOP then 3 else if a = SYS_RST then 2 else 1

/-- The default of an object's value, as bytes: of a register its Reset column, of a firmware object the table's value (R450). -/
def defaultBytes (idx sub : Nat) : List Nat :=
  match regOfObject idx sub with
  | some a => leBytes 4 (resetOf a).toNat
  | none =>
    match fwObject idx sub with
    | some o => if o.size = 0 then (if idx = 0x6114 then List.replicate 13 0 else []) else leBytes o.size (objDefault (256 * idx + sub))
    | none => []

end Sys2Proof.Machine
end

