-- ==== Sys2Proof/Machine/Journal.lean ====
section
/-! DEFINITION. The journal in MRAM, byte for byte (R499 to R509): areas, records, the scan at a start, appending, and compaction; and the
kernel images that it keeps (R391, R392). -/

namespace Sys2Proof.Machine

/-- First byte of a journal area (Table 1.6). -/
def areaBase (a : Nat) : Nat := 0x60C00000 + 0x20000 * (a % 2)

/-- The valid marker of a generation (R499). -/
def marker (g : Nat) : Nat := 0xA55AC33C00000000 + g % pow2 32

/-- `a` is later than `b`, modulo 2^32. -/
def newer (a b : Nat) : Bool := let d := (a + pow2 32 - b % pow2 32) % pow2 32; d != 0 && decide (d < pow2 31)

/-- A record that counts: its place and its content. -/
structure JRec where
  ptr   : Nat
  idx   : Nat
  sub   : Nat
  kind  : Nat
  seq   : Nat
  value : List Nat
  deriving DecidableEq, Repr

/-- Bytes of a record with a value of `len` bytes (R500). -/
def recordSize (len : Nat) : Nat := 8 * (3 + ceilDiv len 8)

/-- The commit marker (R500). -/
def commitMarker : Nat := 0x4A434D545A5AA5A5

/-- A value zero-padded to a whole word. -/
def padWord (v : List Nat) : List Nat := v ++ List.replicate (8 * ceilDiv v.length 8 - v.length) 0

/-- Word 0 of a record. -/
def recordHead (idx sub kind len : Nat) : Nat := idx % 65536 + 65536 * (sub % 256) + pow2 24 * (kind % 256) + pow2 32 * (len % pow2 32)

/-- The record CRC (R501). -/
def recordCrc (g w0 seq : Nat) (value : List Nat) : Nat := crc32 (leBytes 4 g ++ leBytes 8 w0 ++ leBytes 4 seq ++ padWord value)

/-- The record at offset `ptr` of an area of generation `g`, if it counts (R502). -/
def Hw.recordAt (h : Hw) (area g ptr : Nat) : Option JRec :=
  let a := areaBase area + ptr
  let w0 := h.mramNum a 8
  let len := w0 / pow2 32
  let seq := h.mramNum (a + 8) 4
  if w0 % 65536 = 0 ∨ 131072 < ptr + recordSize len then none
  else
    let value := h.mramBytes (a + 16) len
    if h.mramNum (a + recordSize len - 8) 8 = commitMarker ∧ h.mramNum (a + 12) 4 = recordCrc g w0 seq value then
      some ⟨ptr, w0 % 65536, bits w0 16 8, bits w0 24 8, seq, value⟩
    else none

/-- The records of an area upwards from `ptr`, and the free pointer (R504). -/
def Hw.scanRecords (h : Hw) (area g : Nat) : Nat → Nat → List JRec × Nat
  | 0, ptr => ([], ptr)
  | k + 1, ptr =>
    match h.recordAt area g ptr with
    | none => ([], ptr)
    | some r =>
      let (rs, p) := h.scanRecords area g k (ptr + recordSize r.value.length)
      (r :: rs, p)

/-- Generation of an area with a valid ACTIVE marker. -/
def Hw.areaGen (h : Hw) (a : Nat) : Option Nat :=
  let w := h.mramNum (areaBase a) 8
  if w % pow2 32 = 0x4A524E4C ∧ h.mramNum (areaBase a + 16) 8 = marker (w / pow2 32) then some (w / pow2 32) else none

/-- The active area and its generation (R504). -/
def Hw.activeArea (h : Hw) : Option (Nat × Nat) :=
  match h.areaGen 0, h.areaGen 1 with
  | some g, some k => if newer k g then some (1, k) else some (0, g)
  | some g, none => some (0, g)
  | none, some k => some (1, k)
  | none, none => none

/-- The latest record of an object (R503). -/
def latest (rs : List JRec) (idx sub : Nat) : Option JRec :=
  rs.foldl (fun m r =>
    if r.idx = idx ∧ r.sub = sub then
      match m with
      | none => some r
      | some x => if newer x.seq r.seq then some x else some r
    else m) none

/-- The records of the active area. -/
def Hw.journalRecords (h : Hw) : List JRec := (h.scanRecords h.fw.journal.area h.fw.journal.gen 5461 64).1

/-- JOURNAL_SCAN (R504): the active area is chosen and read. A part with no area that has a valid ACTIVE marker begins area 0 with generation 1
(assumption log 34). -/
def Hw.journalScan (h : Hw) : Hw :=
  match h.activeArea with
  | some (a, g) =>
    let (rs, p) := h.scanRecords a g 5461 64
    let seq := match rs with
      | [] => 0
      | r :: rest => rest.foldl (fun m x => if newer x.seq m then x.seq else m) r.seq
    { h with fw := { h.fw with journal := ⟨a, g, p, seq, some h.tcnt⟩ } }
  | none =>
    let h := h.mramSet (areaBase 0) (leBytes 8 (0x4A524E4C + pow2 32) ++ leBytes 8 0 ++ leBytes 8 (marker 1) ++ List.replicate 40 0)
    { h with fw := { h.fw with journal := ⟨0, 1, 64, 0, some h.tcnt⟩ } }

/-- The journal's value of an object: none where it has none or a record returned it to its default (R503). -/
def journalValue (rs : List JRec) (idx sub : Nat) : Option (List Nat) :=
  match latest rs idx sub with
  | some r => if r.kind = 1 then some r.value else none
  | none => none

/-- The latest record of every object that is not at its default (R506). -/
def liveRecords (rs : List JRec) : List JRec :=
  rs.filter fun r => latest rs r.idx r.sub == some r && r.kind == 1 && r.value != defaultBytes r.idx r.sub

/-- The bytes of a record with its commit marker. -/
def recordBytes (g seq idx sub kind : Nat) (value : List Nat) : List Nat :=
  let w0 := recordHead idx sub kind value.length
  leBytes 8 w0 ++ leBytes 4 seq ++ leBytes 4 (recordCrc g w0 seq value) ++ padWord value ++ leBytes 8 commitMarker

/-- Write records upwards from an address, SEQ unchanged. -/
def Hw.copyRecords (h : Hw) (g a : Nat) : List JRec → Nat × Hw
  | [] => (a, h)
  | r :: rs =>
    let bs := recordBytes g r.seq r.idx r.sub r.kind r.value
    (h.mramSet a bs).copyRecords g (a + bs.length) rs

/-- A compaction is permitted now (R508). -/
def Hw.compactable (h : Hw) : Bool :=
  match h.fw.journal.lastCompact with
  | none => true
  | some t => decide (t + 320 * secondTicks ≤ h.tcnt)

/-- The compaction itself (R506). -/
def Hw.compact (h : Hw) : Hw :=
  let j := h.fw.journal
  let live := liveRecords h.journalRecords
  let b := (j.area + 1) % 2
  let g := (j.gen + 1) % pow2 32
  let h := h.mramSet (areaBase b) (leBytes 8 (0x4A524E4C + pow2 32 * g) ++ leBytes 8 (marker g))
  let (p, h) := h.copyRecords g (areaBase b + 64) live
  let h := h.mramSet (areaBase b + 16) (leBytes 8 (marker g))
  { h with fw := { h.fw with journal := ⟨b, g, p - areaBase b, j.seq, some h.tcnt⟩ } }

/-- JOURNAL_COMPACTION: at 75 % of the area, when permitted (R506, R508). -/
def Hw.compactDue (h : Hw) : Hw :=
  if h.sys.fwRunning ∧ 98304 ≤ h.fw.journal.free ∧ h.compactable then h.compact else h

/-- The live data with a new value of an object: header and latest records (R509). -/
def Hw.liveBytes (h : Hw) (idx sub : Nat) (value : List Nat) : Nat :=
  let live := (liveRecords h.journalRecords).filter fun r => !(r.idx == idx && r.sub == sub)
  64 + (live.map fun r => recordSize r.value.length).sum + (if value = defaultBytes idx sub then 0 else recordSize value.length)

/-- Append a record of a kind: 1 a value, 2 the return to the default (R500 to R505). -/
def Hw.appendKind (h : Hw) (idx sub kind : Nat) (value : List Nat) : Hw :=
  let j := h.fw.journal
  let seq := (j.seq + 1) % pow2 32
  let bs := recordBytes j.gen seq idx sub kind value
  let h := h.mramSet (areaBase j.area + j.free) bs
  { h with fw := { h.fw with journal := { j with free := j.free + bs.length, seq := seq } } }

/-- Append the record of a value. -/
def Hw.append (h : Hw) (idx sub : Nat) (value : List Nat) : Hw := h.appendKind idx sub 1 value

/-- JOURNAL_RECORD_WRITE: the record of an RWP write, or the abort code that refuses it (R505 to R509). -/
def Hw.journalWrite (h : Hw) (idx sub : Nat) (value : List Nat) : Option Nat × Hw :=
  if 65536 < h.liveBytes idx sub value then (some 0x05000001, h)
  else if h.fw.journal.free + recordSize value.length ≤ 131072 then (none, h.append idx sub value)
  else if h.compactable then (none, h.compact.append idx sub value)
  else (some 0x05000002, h)

/-- The record that returns an object to its default, or the abort code that refuses it (R503, R508). -/
def Hw.journalDelete (h : Hw) (idx sub : Nat) : Option Nat × Hw :=
  if h.fw.journal.free + recordSize 0 ≤ 131072 then (none, h.appendKind idx sub 2 [])
  else if h.compactable then (none, h.compact.appendKind idx sub 2 [])
  else (some 0x05000002, h)

/-! ### FLEET kernels in the journal (R391, R392) -/

/-- The kernel images that the journal keeps, by slot (0xF110:06 to 0xF110:0F). -/
def Hw.journalImages (h : Hw) : List (Nat × List Nat) :=
  let rs := h.journalRecords
  ((upTo 10).map (· + 6)).filterMap fun n => (journalValue rs 0xF110 n).map fun v => (n, v)

/-- What a load or an unload comes to: done, refused with an abort code, or waiting for the loop-core domain (R638). -/
inductive KernelStep where
  | done
  | refused (code : Nat)
  | later
  deriving DecidableEq, Repr

/-- A load or an unload while the program memory cannot be reached: its domain begins to wake, and the step waits (R638). -/
def Hw.programWait (h : Hw) : KernelStep × Hw := (.later, h.stallResp 0x12800000)

/-- KLOAD_STAT (0x3340:02) takes a code of Table 8.14, and the write is refused with it. -/
def Hw.kernelRefused (h : Hw) (code : Nat) : KernelStep × Hw := (.refused (0x08000000 + code), h.setObj 0x3340 2 code)

/-- KLOAD_IMAGE: the image is checked, kept in the journal and loaded, and KLOAD_STAT holds the outcome (R391). A journal that refuses the record
refuses the load, and nothing is loaded (DEDUCED, assumption log 114). -/
def Hw.kload (h : Hw) (img : List Nat) : KernelStep × Hw :=
  let code := h.kloadCheck img
  let slot := leNat ((img.drop 4).take 4)
  if h.domState 1 ≠ 2 then h.programWait
  else if code ≠ 0 then h.kernelRefused code
  else match h.journalWrite 0xF110 slot img with
    | (some c, h) => (.refused c, h)
    | (none, h) => (.done, ((h.kloadPut img).setImage slot img).setObj 0x3340 2 0)

/-- KUNLOAD (R392). -/
def Hw.kunload (h : Hw) (n : Nat) : KernelStep × Hw :=
  if h.domState 1 ≠ 2 then h.programWait
  else if n < 6 ∨ 15 < n then h.kernelRefused 4
  else if 0 < h.slotUsers n then h.kernelRefused 5
  else match h.journalDelete 0xF110 n with
    | (some c, h) => (.refused c, h)
    | (none, h) => (.done, ((h.sf (LOOP_KSLOT_CFG_VALID n) 0).setImage n []).setObj 0x3340 2 0)

end Sys2Proof.Machine
end

