-- ==== Sys2Proof/Machine/Rtc.lean ====
section
/-! DEFINITION. The real-time clock, its alarm and countdown, the event inputs and the write queue of the backup domain (chapter 15). -/

namespace Sys2Proof.Machine

/-! ### The calendar (R654, R655) -/

/-- Seconds of the 400 years 2000 to 2399. -/
def calendarSpan : Nat := 146097 * 86400

/-- Year, month and day of a day number counted from 2000-01-01. -/
def dateOfDay (d : Nat) : Nat × Nat × Nat :=
  let e := (d + 146037) % 146097
  let y := (e - e / 1460 + e / 36524 - e / 146096) / 365
  let doy := e - (365 * y + y / 4 - y / 100)
  let mp := (5 * doy + 2) / 153
  let day := doy - (153 * mp + 2) / 5 + 1
  let mon := if mp < 10 then mp + 3 else mp - 9
  (2000 + (y + (if mon ≤ 2 then 1 else 0)) % 400, mon, day)

/-- The day number of a date from 2000 to 2399. -/
def dayOfDate (year mon day : Nat) : Nat :=
  let y := (year - 2000 + 400 - (if mon ≤ 2 then 1 else 0)) % 400
  let mp := (mon + 9) % 12
  let e := y * 365 + y / 4 - y / 100 + (153 * mp + 2) / 5 + (day - 1)
  (e + 60) % 146097

/-- Weekday of a day number: 1 Monday to 7 Sunday; day 0 is a Saturday. -/
def weekday (d : Nat) : Nat := (d + 5) % 7 + 1

/-- Days of a month. -/
def monthDays (year mon : Nat) : Nat :=
  if mon = 2 then (if year % 4 = 0 ∧ (year % 100 ≠ 0 ∨ year % 400 = 0) then 29 else 28)
  else if mon = 4 ∨ mon = 6 ∨ mon = 9 ∨ mon = 11 then 30 else 31

/-- BCD of a number below 100, and the number of two BCD digits; none when a digit is above 9. -/
def toBcd (n : Nat) : Nat := n / 10 * 16 + n % 10
def ofBcd (b : Nat) : Option Nat := if 9 < b % 16 ∨ 9 < b / 16 % 16 then none else some (b / 16 % 16 * 10 + b % 16)

/-- RTC_TIME0 and RTC_TIME1 of a number of seconds. -/
def time0Of (s : Nat) : Nat :=
  let t := s % 86400
  toBcd (t % 60) + 256 * toBcd (t / 60 % 60) + 65536 * toBcd (t / 3600) + pow2 24 * weekday (s / 86400)
def time1Of (s : Nat) : Nat :=
  let (y, m, d) := dateOfDay (s / 86400)
  toBcd d + 256 * toBcd m + 65536 * (toBcd (y % 100) + 256 * toBcd (y / 100))

/-- The seconds that two shadow words name, none when R660 rejects them. -/
def shadowTime (w0 w1 : Nat) : Option Nat :=
  match ofBcd (bits w0 0 7), ofBcd (bits w0 8 7), ofBcd (bits w0 16 6), ofBcd (bits w1 0 6), ofBcd (bits w1 8 5),
      ofBcd (bits w1 16 8), ofBcd (bits w1 24 8) with
  | some s, some mi, some hr, some d, some mo, some yl, some yh =>
    let y := 100 * yh + yl
    if 59 < s ∨ 59 < mi ∨ 23 < hr ∨ mo = 0 ∨ 12 < mo ∨ y < 2000 ∨ 2399 < y ∨ d = 0 ∨ monthDays y mo < d then none
    else some (dayOfDate y mo d * 86400 + hr * 3600 + mi * 60 + s)
  | _, _, _, _, _, _, _ => none

/-! ### The alarm (R667 to R671) -/

/-- The unmasked field at mask bit i equals the BCD value v. -/
def Hw.almField (h : Hw) (i : Nat) (f : Fld) (v : Nat) : Bool := bit (h.rf RTC_ACTL_MASK) i || h.rf f == v

/-- The date of day d matches. -/
def Hw.almDay (h : Hw) (d : Nat) : Bool :=
  let (y, m, day) := dateOfDay d
  h.almField 3 RTC_ALM0_WDAY (weekday d) && h.almField 4 RTC_ALM1_DAY (toBcd day) && h.almField 5 RTC_ALM1_MON (toBcd m) &&
    h.almField 6 RTC_ALM1_YEAR (toBcd (y % 100) + 256 * toBcd (y / 100))

/-- The alarm matches second s. -/
def Hw.almMatches (h : Hw) (s : Nat) : Bool :=
  let t := s % 86400
  h.almField 0 RTC_ALM0_SEC (toBcd (t % 60)) && h.almField 1 RTC_ALM0_MIN (toBcd (t / 60 % 60)) &&
    h.almField 2 RTC_ALM0_HOUR (toBcd (t / 3600)) && h.almDay (s / 86400)

/-- The first value from `from_`, of `n` tried, that a field accepts and for which `k` finds an answer. -/
def firstField (ok : Nat → Bool) (k : Nat → Option Nat) (from_ : Nat) : Nat → Option Nat
  | 0 => none
  | n + 1 => match (if ok from_ then k from_ else none) with | some v => some v | none => firstField ok k (from_ + 1) n

/-- The first matching time of day at or after t seconds. -/
def Hw.almTime (h : Hw) (t : Nat) : Option Nat :=
  let secOk := fun s => h.almField 0 RTC_ALM0_SEC (toBcd s)
  let minOk := fun m => h.almField 1 RTC_ALM0_MIN (toBcd m)
  let hourOk := fun x => h.almField 2 RTC_ALM0_HOUR (toBcd x)
  firstField hourOk (fun x =>
    let m0 := if x = t / 3600 then t / 60 % 60 else 0
    firstField minOk (fun m =>
      let s0 := if x = t / 3600 ∧ m = t / 60 % 60 then t % 60 else 0
      firstField secOk (fun s => some (x * 3600 + m * 60 + s)) s0 (60 - s0)) m0 (60 - m0)) (t / 3600) (24 - t / 3600)

/-- The first matching second at or after s, none when none follows up to the end of 2399. -/
def Hw.almFrom (h : Hw) (s : Nat) : Option Nat :=
  if calendarSpan ≤ s then none
  else
    let d := s / 86400
    match (if h.almDay d then h.almTime (s % 86400) else none) with
    | some t => some (d * 86400 + t)
    | none =>
      match h.almTime 0 with
      | none => none
      | some t => (firstField h.almDay some (d + 1) (146096 - d)).map fun e => e * 86400 + t

/-- The alarm fires, if it is enabled and not spent (R668). -/
def Hw.almFire (h : Hw) : Hw :=
  if !h.on RTC_ACTL_EN ∨ (h.on RTC_ACTL_ONCE ∧ h.on RTC_ACTL_FIRED) then h
  else ((h.sf RTC_ACTL_ALRF 1).sf RTC_ACTL_FIRED 1).flagSource 12

/-- The counting time has changed to second s from another second. -/
def Hw.almEnter (h : Hw) (s : Nat) : Hw := if h.almMatches s then h.almFire else h

/-- The counting time changes to a value; PRE with it. -/
def Hw.setTime (h : Hw) (s p : Nat) : Hw := { h with rtc := { h.rtc with sec := s % calendarSpan, pre := p } }

/-- A matching second lies strictly between a and b (a < b). -/
def Hw.almBetween (h : Hw) (a b : Nat) : Bool := match h.almFrom (a + 1) with | some m => decide (m < b) | none => false

/-- A step to second `s`, prescaler `p` (R662, R668 to R671): `fwd` says that it goes forward; a forward step may cross the end of 2399. -/
def Hw.rtcStep (h : Hw) (s p : Nat) (fwd : Bool) : Hw :=
  let old := h.rtc.sec
  let passed := fwd && h.on RTC_ACTL_EN &&
    (if old ≤ s then h.almBetween old s
     else h.almBetween old calendarSpan || (match h.almFrom 0 with | some m => decide (m < s) | none => false))
  let h := (h.setTime s p).sf RTC_STAT_STEP 1
  let h := if passed then (h.almFire).sf RTC_ACTL_SKIPPED 1 else h
  let h := if s ≠ old then h.almEnter s else h
  { h with rtc := { h.rtc with recompute := true } }

/-- RTC_COMMIT (R658 to R663). -/
def Hw.rtcCommit (h : Hw) : Hw :=
  match shadowTime (h.reg RTC_SHD0).toNat (h.reg RTC_SHD1).toNat with
  | none => h.sf RTC_STAT_DATE_INVALID 1
  | some s =>
    let h := h.sf RTC_STAT_OSF 0
    if s = h.rtc.sec ∧ h.rtc.pre = 0 then h
    else h.rtcStep s 0 (decide (h.rtc.sec < s))

/-- RTC_CAPTURE: the counting time into the shadow. -/
def Hw.rtcCapture (h : Hw) : Hw :=
  (h.setReg RTC_SHD0 (BitVec.ofNat 32 (time0Of h.rtc.sec))).setReg RTC_SHD1 (BitVec.ofNat 32 (time1Of h.rtc.sec))

/-- RTC_ADJ (R655, R661): the counting time moves by a slow-clock periods. -/
def Hw.rtcAdj (h : Hw) (v : Nat) : Hw :=
  let a := toSigned 16 v
  if a = 0 then h
  else
    let t : Int := ((h.rtc.sec * 32768 + h.rtc.pre : Nat) : Int) + a
    let span : Int := ((calendarSpan * 32768 : Nat) : Int)
    let h := if t < 0 ∨ span ≤ t then h.sf RTC_STAT_WRAP 1 else h
    let u := (t.emod span).toNat
    h.rtcStep (u / 32768) (u % 32768) (decide (0 < a))

/-- A write of RTC_CMD: CAPTURE acts before COMMIT. -/
def Hw.rtcCmd (h : Hw) (v : Nat) : Hw :=
  let h := if bit v 1 then h.rtcCapture else h
  if bit v 0 then h.rtcCommit else h

/-- ANEXT_RECOMPUTE (R671). -/
def Hw.anextRecompute (h : Hw) : Hw :=
  let h := { h with rtc := { h.rtc with recompute := false } }
  match h.almFrom (h.rtc.sec + 1) with
  | some s => ((h.sf RTC_ANEXT0_NEXT (time0Of s)).sf RTC_ANEXT1_NEXT (time1Of s)).sf RTC_ACTL_NOMATCH 0
  | none => ((h.sf RTC_ANEXT0_NEXT 0xFFFFFFFF).sf RTC_ANEXT1_NEXT 0xFFFFFFFF).sf RTC_ACTL_NOMATCH 1

/-! ### The slow clock (R656, R664) -/

/-- Edges in a trim window. -/
def trimWindow : Nat := pow2 20

/-- CAL as it acts: −512 acts as −511 (RTC_TRIM). -/
def Hw.calReg (h : Hw) : Int := max (-511) (toSigned 10 (h.rf RTC_TRIM_CAL))

/-- CAL in force at the next edge: a window takes the register's at its start (R664). -/
def Hw.calNow (h : Hw) : Int := if h.rtc.edge % trimWindow = 0 then h.calReg else h.rtc.cal

/-- The advance of PRE over n edges after the first e, with the trim edges of CAL = c among them (R664). -/
def trimmedBy (c : Int) (e n : Nat) : Nat :=
  let edges := (e + n) * c.natAbs / trimWindow - e * c.natAbs / trimWindow
  if 0 < c then n + edges else n - edges

/-- Edges up to the end of the present trim window. -/
def Hw.windowLeft (h : Hw) : Nat := trimWindow - h.rtc.edge % trimWindow

/-- The advance of PRE over the next n edges. -/
def Hw.preAdv (h : Hw) (n : Nat) : Nat :=
  let m := min n h.windowLeft
  trimmedBy h.calNow h.rtc.edge m + trimmedBy h.calReg (h.rtc.edge + m) (n - m)

/-- The most edges over which PRE advances by d at most. -/
def Hw.edgesWithin (h : Hw) (d : Nat) : Nat := (firstField (fun n => decide (d < h.preAdv (n + 1))) some (d - 20) 42).getD d

/-- A matching second lies among the m seconds after `old`, which may cross the end of 2399. -/
def Hw.almAmong (h : Hw) (old m : Nat) : Bool :=
  (match h.almFrom (old + 1) with | some x => decide (x ≤ old + m) | none => false) ||
    (decide (calendarSpan ≤ old + m) && match h.almFrom 0 with | some x => decide (x + calendarSpan ≤ old + m) | none => false)

/-- The second that ANEXT shows lies among the m seconds after `old` (R671). -/
def Hw.anextAmong (h : Hw) (old m : Nat) : Bool :=
  match shadowTime (h.reg RTC_ANEXT0).toNat (h.reg RTC_ANEXT1).toNat with
  | some x => decide (old < x ∧ x ≤ old + m) || decide (x + calendarSpan ≤ old + m)
  | none => false

/-- The counting time goes on by m seconds; ANEXT is to be computed again where it has been passed (R655, R671). -/
def Hw.secAdvance (h : Hw) (m : Nat) : Hw :=
  { h with rtc := { h.rtc with sec := (h.rtc.sec + m) % calendarSpan, recompute := h.rtc.recompute || h.anextAmong h.rtc.sec m } }

/-- WRAP is set where the counting time has gone past the end of 2399 (R655). -/
def Hw.wrapWhen (h : Hw) (c : Bool) : Hw := if c then h.sf RTC_STAT_WRAP 1 else h

/-- The alarm fires where a matching second has been entered (R668). -/
def Hw.fireWhen (h : Hw) (c : Bool) : Hw := if c then h.almFire else h

/-- RTC_SYNC takes TCNT, within ±2 timing clocks, in Run and Stop (R665). -/
def Hw.syncCapture (h : Hw) : Hw :=
  if h.pwr.state = .run ∨ h.pwr.state = .stop then
    let (d, h) := h.fresh
    (h.sf RTC_SYNC_T ((h.tcnt + d % 5 + pow2 32 - 2) % pow2 32)).sf RTC_STAT_SYNCV 1
  else h

/-- The calendar advances by m seconds, with the WRAP, the alarm and the capture of TCNT. -/
def Hw.passSeconds (h : Hw) (m : Nat) : Hw :=
  if m = 0 then h
  else
    (((h.secAdvance m).wrapWhen (decide (calendarSpan ≤ h.rtc.sec + m))).fireWhen (h.almAmong h.rtc.sec m)).syncCapture

/-- A write of an alarm register. -/
def Hw.rtcAlarm (h : Hw) (a v : Nat) : Hw :=
  let h := h.writeFields a v
  { h with rtc := { h.rtc with recompute := true } }

/-- RTC_ACTL_WRITE: the control, and FIRED cleared (R668). -/
def Hw.rtcActl (h : Hw) (v : Nat) : Hw := (h.rtcAlarm RTC_ACTL v).sf RTC_ACTL_FIRED 0

/-! ### Countdown (R672, R673) -/

/-- Slow-clock periods in a tick of each TICK (R672). -/
def tickPeriods : List Nat := [8, 128, 32768, 1966080]

/-- The tick that RTC_CDLOAD sets. -/
def Hw.cdPeriod (h : Hw) : Nat := tickPeriods.getD (h.rf RTC_CDLOAD_TICK) 8

/-- COUNT as it stands: the whole ticks and the part of one that are left to the end. -/
def Hw.rtcCount (h : Hw) : Nat := if h.on RTC_CDCTL_RUN then ceilDiv (h.rtc.cdEnd - h.rtc.edge) h.rtc.cdTick else h.rf RTC_CDCNT_COUNT

/-- STOP: the timer halts with the count that it has reached (R673). -/
def Hw.rtcHalt (h : Hw) : Hw := if h.on RTC_CDCTL_RUN then (h.sf RTC_CDCNT_COUNT h.rtcCount).sf RTC_CDCTL_RUN 0 else h

/-- COUNT is loaded from LOAD, and the timer runs from edge `e` (R672): its ticks count from there (DEDUCED, assumption log 46). -/
def Hw.rtcLoad (h : Hw) (e : Nat) : Hw :=
  let h := (h.sf RTC_CDCNT_COUNT (h.rf RTC_CDLOAD_LOAD)).sf RTC_CDCTL_RUN 1
  { h with rtc := { h.rtc with cdEnd := e + h.rf RTC_CDLOAD_LOAD * h.cdPeriod, cdTick := h.cdPeriod } }

/-- A write of RTC_CDCTL: STOP acts before START. -/
def Hw.rtcCdctl (h : Hw) (v : Nat) : Hw :=
  let h := h.writeFields RTC_CDCTL v
  let h := if bit v 1 then h.rtcHalt else h
  if !bit v 0 then h
  else if h.rf RTC_CDLOAD_LOAD = 0 then h.sf RTC_CDCTL_CD_ERR 1
  else h.rtcLoad h.rtc.edge

/-- The edge from which a reload counts: the last expiry that has passed. -/
def Hw.lastExpiry (h : Hw) : Nat :=
  let p := h.rf RTC_CDLOAD_LOAD * h.cdPeriod
  h.rtc.cdEnd + (h.rtc.edge - h.rtc.cdEnd) / p * p

/-- COUNT reaches 0 (R672). -/
def Hw.rtcExpiry (h : Hw) : Hw :=
  let h := (h.sf RTC_CDCTL_CDF 1).flagSource 13
  if !h.on RTC_CDLOAD_RELOAD then (h.sf RTC_CDCNT_COUNT 0).sf RTC_CDCTL_RUN 0
  else if h.rf RTC_CDLOAD_LOAD = 0 then ((h.sf RTC_CDCNT_COUNT 0).sf RTC_CDCTL_RUN 0).sf RTC_CDCTL_CD_ERR 1
  else h.rtcLoad h.lastExpiry

/-! ### What the countdown means to the firmware's plan (R594) -/

/-- The part with the schedules changed. -/
def Hw.setSched (h : Hw) (w : WakeSched) : Hw := { h with sched := w }

/-- The loaded countdown has reached 0: what it was loaded for is due. -/
def Hw.planExpiry (h : Hw) : Hw :=
  let w := h.sched
  if w.loaded = 0 then h
  else h.setSched { w with loaded := 0, advDue := w.advDue || w.forAdv, snapDue := w.snapDue || w.forSnap }

/-! ### Edges pass (R656) -/

/-- The countdown at the present edge. -/
def Hw.countdownStep (h : Hw) : Hw := if h.on RTC_CDCTL_RUN ∧ h.rtc.cdEnd ≤ h.rtc.edge then h.rtcExpiry.planExpiry else h

/-- The next n edges of the slow clock pass, none of which applies a queued write (R656). A recompute of ANEXT takes 64 at most (R671). -/
def Hw.slowRun (h : Hw) (n : Nat) : Hw :=
  let h := if h.rtc.recompute ∧ 64 ≤ n then h.anextRecompute else h
  let t := h.rtc.pre + h.preAdv n
  let h := { h with rtc := { h.rtc with
    pre := t % 32768, edge := h.rtc.edge + n, cal := if n < h.windowLeft then h.calNow else h.calReg, used := h.rtc.used && n == 0 } }
  (h.passSeconds (t / 32768)).countdownStep

/-- RTC_SECOND: the edges pass up to the one at which PRE wraps (R656). -/
def Hw.rtcSecond (h : Hw) : Hw := h.slowRun (h.edgesWithin (32767 - h.rtc.pre) + 1)

/-- RTC_COUNTDOWN_EXPIRY: the edges pass up to the one at which the running countdown reaches 0 (R672). -/
def Hw.countdownExpiry (h : Hw) : Hw := if h.on RTC_CDCTL_RUN then h.slowRun (h.rtc.cdEnd - h.rtc.edge) else h

/-- Edges up to the last at which PRE is `pre` at most. -/
def Hw.edgesTo (h : Hw) (pre : Nat) : Nat := if pre ≤ h.rtc.pre then 0 else h.edgesWithin (pre - h.rtc.pre)

/-! ### Oscillator stop (R657, R663) -/

/-- OSF is set, and with it the counting time is 2000-01-01 00:00:00. -/
def Hw.oscStopped (h : Hw) : Hw := (h.setTime 0 0).sf RTC_STAT_OSF 1

/-! ### Event inputs (R674 to R678) -/

/-- The queue of event input n. -/
def Hw.evQueue (h : Hw) (n : Nat) : List EvStamp := Store.get (fun _ => []) h.rtc.events n

/-- The part with the queue of event input n changed. -/
def Hw.setEvQueue (h : Hw) (n : Nat) (q : List EvStamp) : Hw :=
  { h with rtc := { h.rtc with events := Store.set (fun _ => []) h.rtc.events n q } }

/-- The actions of a tamper event (R676): the request, the log, and the backup registers. -/
def Hw.tamperEvent (h : Hw) (n : Nat) : Hw :=
  let h := ((h.sf BKPEV_TSTAT_TPEND 1).sf BKPEV_TSTAT_TEV n).bump BKPEV_TSTAT_TCOUNT
  let h :=
    if h.pwr.state = .run ∨ h.pwr.state = .stop then h.report 0xD 1 0x43 0 n
    else { h with rtc := { h.rtc with unlogged := h.rtc.unlogged + 1 } }
  if h.on (EV_CFG_BKCLR n) then h.zero 0x32000000 128 else h

/-- The event that input n is about to qualify is one of a tamper source (R674, R676). -/
def Hw.tamperDue (h : Hw) (n : Nat) (active : Bool) : Bool :=
  h.on (EV_CFG_EN n) && h.on (EV_STAT_LEVEL n) != active && (active || h.on (EV_CFG_BOTH n)) && h.on (EV_CFG_TAMPER n)

/-- Input n has held a new level for FILT samples at the present edge. -/
def Hw.eventAt (h : Hw) (n : Nat) (active : Bool) : Hw :=
  if !h.on (EV_CFG_EN n) ∨ h.on (EV_STAT_LEVEL n) = active then h
  else
    let h := h.sf (EV_STAT_LEVEL n) (b2n active)
    if !active ∧ !h.on (EV_CFG_BOTH n) then h
    else
      let q := h.evQueue n
      let ts2 := h.rtc.pre / 32 + 1024 * b2n active + 2048 * h.rf RTC_STAT_OSF
      let h :=
        if q.length < 4 then h.setEvQueue n (q ++ [⟨time0Of h.rtc.sec, time1Of h.rtc.sec, ts2⟩]) else h.bump (EV_STAT_OVF n)
      let h := h.flagSource (8 + n)
      if h.on (EV_CFG_TAMPER n) then h.tamperEvent n else h

/-- EVENT_INPUT_QUALIFIED: input n has held a new level for FILT samples at the edge at which PRE is `pre`. -/
def Hw.eventQualified (h : Hw) (n : Nat) (active : Bool) (pre : Nat) : Hw :=
  if !h.on (EV_CFG_EN n) ∨ h.on (EV_STAT_LEVEL n) = active then h else (h.slowRun (h.edgesTo pre)).eventAt n active

/-- Fofiys firmware records the tamper events that no hardware entry has recorded (R676). -/
def Hw.logTampers (h : Hw) : Hw :=
  let n := h.rtc.unlogged
  let h := forEach (fun k h => Hw.report h 0xD 1 0 0 (if k + 1 = n then h.rf BKPEV_TSTAT_TEV else 0xFFFFFFFF)) (upTo n) h
  { h with rtc := { h.rtc with unlogged := 0 } }

/-- A write of EVn_STAT: POP removes the head entry (R678). -/
def Hw.evPop (h : Hw) (n v : Nat) : Hw := if bit v 3 then h.setEvQueue n ((h.evQueue n).drop 1) else h

/-- A write of EVn_CFG: while EN is 0 the filtered level is inactive (R674). -/
def Hw.evCfg (h : Hw) (n v : Nat) : Hw :=
  let h := h.writeFields (EV_CFG n) v
  if h.on (EV_CFG_EN n) then h else h.sf (EV_STAT_LEVEL n) 0

/-! ### The write queue (R651, R653) -/

/-- A backup-domain register or backup register takes a queued write. -/
def Hw.backupApply (h : Hw) (a n v : Nat) : Hw :=
  if within 0x32000000 0x3200007F a then h.store a n v
  else if a = RTC_CMD then h.rtcCmd v
  else if a = RTC_ADJ then h.rtcAdj v
  else if a = RTC_ACTL then h.rtcActl v
  else if a = RTC_ALM0 ∨ a = RTC_ALM1 then h.rtcAlarm a v
  else if a = RTC_CDCTL then h.rtcCdctl v
  else if a = EV_CFG 0 ∨ a = EV_CFG 1 ∨ a = EV_CFG 2 ∨ a = EV_CFG 3 then h.evCfg ((a - EV_CFG 0) / 0x20) v
  else if a = EV_STAT 0 ∨ a = EV_STAT 1 ∨ a = EV_STAT 2 ∨ a = EV_STAT 3 then h.evPop ((a - EV_STAT 0) / 0x20) v
  else h.writeFields a v

/-- The write that is applied next; a COMMIT or ADJ waits while ANEXT is being recomputed (R671). -/
def Hw.backupHead (h : Hw) : Option (Nat × Nat × Nat) :=
  match h.rtc.wq with
  | [] => none
  | w :: _ => if h.rtc.recompute ∧ ((w.1 = RTC_CMD ∧ bit w.2.2 0) ∨ w.1 = RTC_ADJ) then none else some w

/-- The oldest queued write is applied at the present edge (R651). -/
def Hw.backupTake (h : Hw) : Hw :=
  match h.backupHead with
  | none => h
  | some w =>
    let h := { h with rtc := { h.rtc with used := true, wq := h.rtc.wq.drop 1 } }
    h.backupApply w.1 w.2.1 w.2.2

/-- Edges up to the one at which PRE is `pre` and no write has been applied yet: each edge applies one (R651). -/
def Hw.edgesToWrite (h : Hw) (pre : Nat) : Nat := if h.rtc.used then max 1 (h.edgesTo pre) else h.edgesTo pre

/-- RTC_QUEUED_WRITE_APPLY at the slow-clock edge at which PRE is `pre`, for the writes that `p` selects. -/
def Hw.backupEdge (h : Hw) (pre : Nat) (p : Nat × Nat × Nat → Bool) : Hw :=
  match h.backupHead with
  | none => h
  | some w => if p w then (h.slowRun (h.edgesToWrite pre)).backupTake else h

/-- A write to the backup domain joins the queue, or stalls while the queue is full. -/
def Hw.backupPost (h : Hw) (a n v : Nat) : Hw :=
  if 8 ≤ h.rtc.wq.length then { h with resp := .stalled }
  else { h with rtc := { h.rtc with wq := h.rtc.wq ++ [(a, n, v)] }, resp := .okay }

/-- A write of address `a` is still queued. -/
def Hw.backupBusy (h : Hw) (a : Nat) : Bool := h.rtc.wq.any fun w => decide (w.1 / 4 = a / 4)

/-- RTC_TIME0: the time, with RTC_TIME1 and RTC_SUBSEC latched (R652). -/
def Hw.readTime0 (h : Hw) : Hw :=
  { h with rtc := { h.rtc with latch := some (time1Of h.rtc.sec, h.rtc.pre) }, resp := .data (time0Of h.rtc.sec) }

/-- RTC_TIME1 and RTC_SUBSEC as they read. -/
def Hw.time1View (h : Hw) : Nat := match h.rtc.latch with | some (t, _) => t | none => time1Of h.rtc.sec
def Hw.subsecView (h : Hw) : Nat := match h.rtc.latch with | some (_, p) => p | none => h.rtc.pre

/-! ### Disciplining (R666) -/

/-- RTC_DISCIPLINE: the offset in µs, the UTC second of the next boundary, and the measured rate error in ppb. -/
def Hw.rtcDiscipline (h : Hw) (ofs : Int) (utc : Nat) (drift : Int) : Hw :=
  if h.obj 0xA010 2 = 0 ∨ h.rf TP_STAT_TSTATE ≠ 1 ∨ !h.sys.fwRunning ∨ 4 < h.rtc.wq.length then h
  else
    let h := (h.setObj 0xA010 3 (ofInt 32 (clampInt (-2147483648) 2147483647 ofs))).setObj 0xA010 4 (ofInt 32 drift)
    let age := h.rtc.lastDisc + 10
    let h := { h with rtc := { h.rtc with lastDisc := age } }
    let h :=
      if 1000000 ≤ ofs.natAbs then
        ((h.backupPost RTC_SHD0 4 (time0Of utc)).backupPost RTC_SHD1 4 (time1Of utc)).backupPost RTC_CMD 4 1
      else if 100 ≤ ofs.natAbs then h.backupPost RTC_ADJ 4 (ofInt 16 (clampInt (-32768) 32767 (-(roundDiv (ofs * 32768) 1000000))))
      else h
    if 3600 ≤ age then
      let cal := clampInt (-511) 511 (toSigned 10 (h.rf RTC_TRIM_CAL) - roundDiv (drift * 100) 95367)
      let h := { h with rtc := { h.rtc with lastDisc := 0 } }
      h.backupPost RTC_TRIM 4 (ofInt 10 cal)
    else h

end Sys2Proof.Machine
end

