-- ==== Sys2Proof/Machine/HotStore.lean ====
section
/-! DEFINITION. The hot-start store (7.1): the slots, what kept data allow at a start (R323 to R325, R327 to R329), and the saves (R326). What a
record's sections say is an operand, since their encoding belongs to Fofiys firmware. -/

namespace Sys2Proof.Machine

/-- Fofiys firmware runs: it has started, no Long splice holds it, and the navigation controller is clocked (R622). -/
def Hw.fwUp (h : Hw) : Bool := h.sys.fwRunning && h.upd.splicing.isNone && h.pwr.state == .run

/-- The part with the hot-start service changed. -/
def Hw.setHot (h : Hw) (t : HotStart) : Hw := { h with hot := t }

/-! ### Slots -/

/-- First byte of hot-start slot i (R323). -/
def hotBase (i : Nat) : Nat := 0x60C40000 + 0x4000 * (i % 4)

/-- The hot-start slot i is whole (R325). -/
def Hw.hotWhole (h : Hw) (i : Nat) : Bool :=
  let b := hotBase i
  let len := h.mramNum (b + 0x0C) 4
  h.mramNum b 4 == 0x4B485301 && h.mramNum (b + 4) 4 == 1 && decide (0x40 ≤ len) && decide (len ≤ 0x4000) &&
    crc32 (h.mramBytes b 0x3C ++ h.mramBytes (b + 0x40) (len - 0x40)) == h.mramNum (b + 0x3C) 4

/-- SEQ of the hot-start slot i. -/
def Hw.hotSeq (h : Hw) (i : Nat) : Nat := h.mramNum (hotBase i + 8) 4

/-- The slot that a start loads (R325). -/
def Hw.hotSlot (h : Hw) : Option Nat :=
  ((upTo 4).filter h.hotWhole).foldl (fun m i => match m with
    | none => some i
    | some j => if newer (h.hotSeq i) (h.hotSeq j) then some i else some j) none

/-! ### What kept data allow (Tables 7.2 and 7.3) -/

/-- Items that depend on time are usable at all: the oscillator-stopped flag is clear (R327). -/
def Hw.timeKept (h : Hw) : Bool := !h.on RTC_STAT_OSF

/-- Age of a record, seconds. -/
def Hw.factAge (h : Hw) (f : HotFacts) : Nat := h.rtc.sec - f.at_

/-- Time is known to within `lim` seconds. -/
def Hw.timeUsable (h : Hw) (f : HotFacts) (lim : Nat) : Bool :=
  h.timeKept && decide (f.timeUnc * 1000 + h.factAge f * f.drift ≤ lim * 1000000000)

/-- The position counts: its uncertainty at the save while parked since, otherwise grown by 50 m for each second, is at most `lim` metres. -/
def Hw.positionWithin (h : Hw) (f : HotFacts) (lim : Nat) : Bool :=
  if f.moved then h.timeKept && decide (f.posUnc + 50 * h.factAge f ≤ lim) else decide (f.posUnc ≤ lim)

/-- The position is usable: while parked whatever its uncertainty, otherwise within 3 km. -/
def Hw.positionUsable (h : Hw) (f : HotFacts) : Bool := !f.moved || h.positionWithin f 3000

/-- A record of at most 30 days, as the TCXO model and the almanac need it. -/
def Hw.monthOld (h : Hw) (f : HotFacts) : Bool := h.timeKept && decide (h.factAge f ≤ 30 * 86400)

/-- The orbit of a satellite is usable: its broadcast ephemeris, or its extension of at most 3 days. -/
def Hw.orbitUsable (h : Hw) (s : SavedSat) : Bool :=
  h.timeKept &&
    ((match s.eph with | some (a, b) => decide (a ≤ h.rtc.sec) && decide (h.rtc.sec ≤ b) | none => false) ||
      (match s.extRef with | some t => decide (h.rtc.sec - t ≤ 3 * 86400) | none => false))

/-- The saved settings of port n are usable: RATE_KHZ, DEC and FMT are unchanged. -/
def Hw.portKept (h : Hw) (f : HotFacts) (n : Nat) : Option SavedPort :=
  f.ports.find? fun p => p.port == n && p.rate == h.rate n && p.dec == h.rf (SP_CFG_DEC n) && p.fmt == h.rf (SP_CFG_FMT n)

/-- START_CLASSIFY (R328, R329): 2 HOT, 1 WARM, 0 COLD; `retained` says that the live record came through Slack whole. -/
def Hw.startClass (h : Hw) (retained : Bool) (f : HotFacts) : Nat :=
  let sats := (f.sats.filter fun s => s.high && h.orbitUsable s).length
  if retained && h.timeUsable f 2 && h.positionUsable f && h.monthOld f && decide (h.obj 0x2101 7 ≤ sats) then 2
  else if h.timeUsable f 60 && h.positionWithin f 100000 && f.almanac && h.monthOld f then 1
  else 0

/-- HOT_START_LOAD and START_CLASSIFY from the store alone: at most WARM (R325, R328, R329). `f` is what the slot's sections say; its RTC time is
the slot's. -/
def Hw.hotLoad (h : Hw) (f : HotFacts) : Hw :=
  match h.hotSlot with
  | none => h.setHot { h.hot with live := [], hot := false, class_ := 0, seq := 0, slot := 3, savedAt := none, facts := none }
  | some i =>
    let b := hotBase i
    let t := h.mramNum (b + 0x14) 4
    let f := { f with at_ := t }
    h.setHot { h.hot with
      live := h.mramBytes (b + 0x40) (h.mramNum (b + 0x0C) 4 - 0x40), hot := false, class_ := h.startClass false f, seq := h.hotSeq i,
      slot := i, savedAt := some t, facts := some f }

/-! ### Saves (R323, R324, R326) -/

/-- Seconds since the last save, none before the first (R326). -/
def Hw.saveAge (h : Hw) : Option Nat := h.hot.savedAt.map fun t => h.rtc.sec - t

/-- The limit of R326: no save within 160 s of another. -/
def Hw.saveFree (h : Hw) : Bool := match h.saveAge with | none => true | some a => decide (160 ≤ a)

/-- HS_SAVE_INT as it acts (Table 7.6). -/
def Hw.saveInt (h : Hw) : Nat := max 160 (min 86400 (h.obj 0x2100 1))

/-- A save point or a deferred request is to be taken (R326). -/
def Hw.saveDue (h : Hw) : Bool :=
  h.fwUp && h.saveFree && (h.hot.wanted || (match h.saveAge with | none => true | some a => decide (h.saveInt ≤ a)))

/-- The header of a slot before its CRC: bytes 0x00 to 0x3B (Table 7.1). -/
def Hw.hotHeader (h : Hw) (seq len : Nat) : List Nat :=
  leBytes 4 0x4B485301 ++ leBytes 4 1 ++ leBytes 4 seq ++ leBytes 4 len ++ leBytes 4 h.fw.version ++ leBytes 4 h.rtc.sec ++ List.replicate 36 0

/-- The save itself (R323, R324): sections first, header last. -/
def Hw.saveNow (h : Hw) (live : List Nat) : Hw :=
  let live := live.take 0x3FC0
  let seq := (h.hot.seq + 1) % pow2 32
  let b := hotBase seq
  let head := h.hotHeader seq (0x40 + live.length)
  let h := (h.mramSet (b + 0x40) (padWord live)).mramSet b (head ++ leBytes 4 (crc32 (head ++ live)))
  h.setHot { h.hot with live := live, seq := seq, slot := seq % 4, savedAt := some h.rtc.sec, wanted := false }

/-- HS_SAVE (R326). -/
def Hw.hsSave (h : Hw) (live : List Nat) : Hw := if h.saveDue then h.saveNow live else h

/-- A write of HS_SAVE_NOW (R326): the save is taken as soon as the limit allows, with the live record as it is then. -/
def Hw.hsWant (h : Hw) : Hw := h.setHot { h.hot with wanted := true }

/-- HS_SAVE_NOW: the request, and the save at once where the limit allows. -/
def Hw.hsSaveNow (h : Hw) (live : List Nat) : Hw := if h.fwUp then h.hsWant.hsSave live else h

end Sys2Proof.Machine
end

