-- ==== Sys2Proof/Machine/Keep.lean ====
section
/-! DEFINITION. The journal records of the vendor objects that the boot reads: the soft row maps, TAMPER_LOCKED and the boot selection record (10.8,
R413, R416, R417, R435, R680). How their values are laid out is not stated (DESIGN CHOICE, assumption log 48). -/

namespace Sys2Proof.Machine

/-- A soft row map in its record: bank, row, spare. -/
def RowMap.bytes (m : RowMap) : List Nat := m.bank :: leBytes 2 m.row ++ [m.spare]

/-- The value of the soft-map record of unit u: the number of maps, the maps, and the banks marked for retirement; empty without any. -/
def Kept.unitBytes (k : Kept) (u : Nat) : List Nat :=
  let ms := k.softMaps.filter fun (m : RowMap) => m.unit == u
  let fs := k.failing.filter fun p => p.1 == u
  if ms = [] ∧ fs = [] then [] else ms.length :: ms.flatMap RowMap.bytes ++ fs.map (·.2)

/-- The soft maps of unit u that a value of its record holds, and the banks marked for retirement. -/
def mapsOf (u : Nat) (v : List Nat) : List RowMap :=
  (upTo (v.headD 0)).map fun i => ⟨u, v.getD (4 * i + 1) 0, leNat ((v.drop (4 * i + 2)).take 2), v.getD (4 * i + 4) 0⟩
def failingOf (u : Nat) (v : List Nat) : List (Nat × Nat) := (v.drop (4 * v.headD 0 + 1)).map fun b => (u, b)

/-- The value of the boot selection record: ACTIVE, TRIAL and the IMAGE_VERSION of each slot; empty where it says what a part without one has. -/
def Hw.selectionBytes (h : Hw) : List Nat :=
  let u := h.upd
  if h.kept.confirmed = 0 ∧ u.trial = false ∧ u.versions = (0, 0) then []
  else [h.kept.confirmed, b2n u.trial] ++ leBytes 4 u.versions.1 ++ leBytes 4 u.versions.2

/-- The records as they should be: index, subindex and value. -/
def Hw.keptRecords (h : Hw) : List (Nat × Nat × List Nat) :=
  (upTo 15).map (fun u => (0xF100, u + 1, h.kept.unitBytes u)) ++
    [(0xF120, 1, if h.kept.tamperLocked then [1] else []), (0xF130, 1, h.selectionBytes)]

/-- The journal's value of a vendor object, empty without a record. -/
def Hw.vendorValue (h : Hw) (idx sub : Nat) : List Nat := (journalValue h.journalRecords idx sub).getD []

/-- The record of a vendor object is written where the journal holds another value; a journal that refuses it leaves it for later. -/
def Hw.keepRecord (h : Hw) (r : Nat × Nat × List Nat) : Hw :=
  if h.vendorValue r.1 r.2.1 = r.2.2 then h
  else if r.2.2 = [] then (h.journalDelete r.1 r.2.1).2
  else (h.journalWrite r.1 r.2.1 r.2.2).2

/-- The records are brought up to date: by the boot ROM (R413, R683), or by Fofiys firmware. -/
def Hw.keepRecords (h : Hw) : Hw := forEach (fun r h => h.keepRecord r) h.keptRecords h

/-- Fofiys firmware brings the records up to date while it runs (R416, R417, R435, R690, R698). -/
def Hw.fwKeep (h : Hw) : Hw := if h.fwUp then h.keepRecords else h

/-- The boot ROM reads the records (R411, R417, R435, R680). A bank of units 15 to 17, which have no such record, stays marked beside the journal. -/
def Hw.readKept (h : Hw) : Hw :=
  let maps := fun (u : Nat) => h.vendorValue 0xF100 (u + 1)
  let sel := h.vendorValue 0xF130 1
  { h with
    kept := {
      softMaps := (upTo 15).flatMap fun u => mapsOf u (maps u)
      failing := ((upTo 15).flatMap fun u => failingOf u (maps u)) ++ h.kept.failing.filter fun p => decide (15 ≤ p.1)
      tamperLocked := h.vendorValue 0xF120 1 == [1]
      confirmed := sel.headD 0 % 2 }
    upd := { h.upd with trial := sel.getD 1 0 == 1, versions := (leNat ((sel.drop 2).take 4), leNat ((sel.drop 6).take 4)) } }

end Sys2Proof.Machine
end

