-- ==== Sys2Proof/Machine/Radio.lean ====
section
/-! DEFINITION. The short-range radio (chapter 12): the command queue, limits, transmit time, coexistence, channel sounding, fuses and the hold. -/

namespace Sys2Proof.Machine

/-- The part with the radio changed. -/
def Hw.setRadio (h : Hw) (r : Radio) : Hw := { h with radio := r }

/-! ### Commands (R553, R556) -/

def RadioCmd.op (c : RadioCmd) : Nat := bits c.c0 0 3
def RadioCmd.chan (c : RadioCmd) : Nat := bits c.c0 3 7
def RadioCmd.phy (c : RadioCmd) : Nat := bits c.c0 10 2
/-- RET as it acts: 3 acts as 0. -/
def RadioCmd.ret (c : RadioCmd) : Nat := let r := bits c.c0 12 2; if r = 3 then 0 else r
def RadioCmd.imm (c : RadioCmd) : Bool := bit c.c0 14
def RadioCmd.pri (c : RadioCmd) : Bool := bit c.c0 15
def RadioCmd.buf (c : RadioCmd) : Nat := bits c.c0 16 2
/-- PWR as it acts: codes above 60 act as 60 (R565). -/
def RadioCmd.pwr (c : RadioCmd) : Nat := min 60 (bits c.c1 0 7)
def RadioCmd.tag (c : RadioCmd) : Nat := bits c.c1 24 8

/-- The states of RADIO_STAT.STATE. -/
def rOff : Nat := 0
def rIdle : Nat := 1
def rRx : Nat := 3

/-- RADIO_STAT.STATE. -/
def Hw.radioState (h : Hw) : Nat := h.rf RADIO_STAT_STATE

/-- The radio timer: 61.44 MHz, an eighth of the timing clock (R555; that both start together is DEDUCED, assumption log 31). -/
def Hw.radioTimer (h : Hw) : Nat := h.tcnt / 8 % pow2 32

/-! ### Packet buffers (R560) -/

/-- Byte a of the radio's window, held in the words of the register table. -/
def Hw.radioByte (h : Hw) (a : Nat) : Nat := (h.reg (0x40160000 + a / 4 * 4)).toNat / 256 ^ (a % 4) % 256

/-- The part with byte a of the radio's window written. -/
def Hw.setRadioByte (h : Hw) (a v : Nat) : Hw :=
  h.setReg (0x40160000 + a / 4 * 4) (BitVec.ofNat 32 (mergeBytes (h.reg (0x40160000 + a / 4 * 4)).toNat (a % 4) 1 v))

/-- A list of bytes written from byte a of the window. -/
def Hw.setRadioBytes (h : Hw) (a : Nat) : List Nat → Hw
  | [] => h
  | v :: vs => (h.setRadioByte a v).setRadioBytes (a + 1) vs

/-- Offset of packet buffer b. -/
def bufAt (b : Nat) : Nat := 0x1000 + 0x200 * b

/-- The PDU length L of packet buffer b. -/
def Hw.bufLen (h : Hw) (b : Nat) : Nat := h.radioByte (bufAt b + 8) + 256 * h.radioByte (bufAt b + 9)

/-- RX writes the PDU and its L; bytes 0 to 7 stay. -/
def Hw.bufStore (h : Hw) (b : Nat) (pdu : List Nat) : Hw :=
  h.setRadioBytes (bufAt b + 8) ([pdu.length % 256, pdu.length / 256] ++ pdu.take 502)

/-! ### Limits (R551, R570 to R572) -/

/-- Airtime of a packet in µs (Table 12.1). -/
def airtime (phy l : Nat) : Nat :=
  match phy with
  | 0 => (8 + l) * 8
  | 1 => (9 + l) * 4
  | 2 => 430 + 16 * l
  | _ => 592 + 64 * l

/-- The effective power limit. -/
def Hw.pmaxEff (h : Hw) : Nat := min (60 - h.fuses.pcut) (min 60 (h.rf RADIO_LIM_PMAX))

/-- The effective duty limit in permille. -/
def Hw.dutyEff (h : Hw) : Nat := min (1000 - h.fuses.dcut) (min 1000 (h.rf RADIO_LIM_DUTY))

/-- Transmit time in the window, µs. -/
def Hw.dutySum (h : Hw) : Nat := h.radio.buckets.foldl (· + ·) 0

/-- RF channel k is barred. -/
def Hw.rfBarred (h : Hw) (k : Nat) : Bool :=
  bit h.fuses.fmask k || (if k < 32 then bit (h.rf RADIO_CHMASK_LO_MASK) k else bit (h.rf RADIO_CHMASK_HI_MASK % 256) (k - 32))

/-- A transmission on channel f is barred (R572). -/
def Hw.txBarred (h : Hw) (f : Nat) : Bool :=
  if f % 2 = 0 then h.rfBarred (f / 2) else h.rfBarred ((f - 1) / 2) || h.rfBarred ((f + 1) / 2)

/-- A transmission of t µs would exceed the duty limit (R571). -/
def Hw.overDuty (h : Hw) (t : Nat) : Bool := decide (h.dutyEff * 1000 < h.dutySum + t)

/-- t µs are counted in the present bucket. -/
def Hw.addAirtime (h : Hw) (t : Nat) : Hw :=
  h.setRadio { h.radio with buckets := match h.radio.buckets with | [] => [t] | b :: bs => (b + t) :: bs }

/-- DUTY_WINDOW_ADVANCE (R573). -/
def Hw.dutyAdvance (h : Hw) : Hw :=
  let bs := (0 :: h.radio.buckets).take 1000
  h.setRadio { h.radio with buckets := if bs.all (· == 0) then [] else bs }

/-- RADIO_EFF as it reads. -/
def Hw.radioEff (h : Hw) : Nat := h.pmaxEff + 128 * h.dutyEff + 131072 * min 1000 (ceilDiv h.dutySum 1000)

/-- RADIO_FUSE as it reads. -/
def Hw.radioFuse (h : Hw) : Nat := h.fuses.pcut + 128 * h.fuses.dcut + 131072 * h.fuses.region

/-- The conservative table is in use (R569). -/
def Hw.consAct (h : Hw) : Bool := h.on RADIO_CTRL_CONS || h.on BGND_TSTAT_THERMAL_GRADIENT

/-- RADIO_STAT as it reads. -/
def Hw.radioStatus (h : Hw) : Nat :=
  RADIO_STAT_QCNT.insert (RADIO_STAT_CONS_ACT.insert (h.reg RADIO_STAT).toNat (b2n h.consAct)) h.radio.queue.length

/-- RADIO_CMDST as it reads. -/
def Hw.radioCmdStatus (h : Hw) : Nat := RADIO_CMDST_DCNT.insert (h.reg RADIO_CMDST).toNat h.radio.done.length

/-! ### The end of a command (R555, R557, R558, R578) -/

/-- Post a done entry. -/
def Hw.radioPost (h : Hw) (tag status : Nat) (clamp : Bool) (delay : Nat) : Hw :=
  if 8 ≤ h.radio.done.length then h.sf RADIO_CMDST_DOVF 1
  else h.setRadio { h.radio with
    done := h.radio.done ++ [tag + 256 * status + 4096 * b2n clamp + 65536 * h.radio.rssi + pow2 24 * satTo 127 delay] }

/-- Timer clocks until START, as a signed value. -/
def Hw.untilStart (h : Hw) (c : RadioCmd) : Int := toSigned 32 (c.c2 + pow2 32 - h.radioTimer)

/-- The µs before START at which the sequence of a command begins (R554). -/
def Hw.radioLead (h : Hw) (c : RadioCmd) : Nat :=
  if c.op = 4 ∨ c.op = 5 then 0
  else (if h.radio.valid.contains c.chan then 8 else 40) + (if h.radioState = rOff then 50 else 0)

/-- The timed command has reached the head too late (R555). -/
def Hw.radioLate (h : Hw) (c : RadioCmd) : Bool :=
  !c.imm && decide (h.untilStart c * 100 < ((h.radioLead c * 6144 : Nat) : Int))

/-- The radio goes to a return state, with RX acting as IDLE. -/
def Hw.radioReturn (h : Hw) (c : RadioCmd) : Hw := h.sf RADIO_STAT_STATE (if c.ret = 2 then rOff else rIdle)

/-- A LATE command ends (R555), and one with a return state moves the radio there unless it still receives after the command before (R557). -/
def Hw.radioEndLate (h : Hw) (c : RadioCmd) : Hw :=
  let h := h.radioPost c.tag 8 false 0
  if c.op ≤ 3 ∧ h.radio.window.isNone then h.radioReturn c else h

/-- Commands that are LATE at the head end at once, one after another. -/
def Hw.radioHead (h : Hw) : Nat → Hw
  | 0 => h
  | n + 1 =>
    match h.radio.queue with
    | [] => h
    | c :: rest =>
      if h.radioLate c then
        ((h.setRadio { h.radio with queue := rest }).radioEndLate c).radioHead n
      else h

/-- The head leaves the queue, its request is released unless a return window stays open, and the next command becomes the head. -/
def Hw.radioPop (h : Hw) : Hw :=
  let r := h.radio
  let keep := r.window.isSome
  let h := h.setRadio { r with
    queue := r.queue.drop 1, asked := false, granted := false, opened := false, delay := 0,
    req := r.req && keep, pri := r.pri && keep }
  h.radioHead 4

/-- A command ends with a status and moves to its return state, RX acting as IDLE (R562, R578). -/
def Hw.radioEnd (h : Hw) (c : RadioCmd) (status : Nat) (clamp : Bool) (delay : Nat) : Hw :=
  let h := h.setRadio { h.radio with window := none }
  ((h.radioPost c.tag status clamp delay).radioReturn c).radioPop

/-- Channel f has a valid calibration entry from now on (R561). -/
def Hw.radioCal (h : Hw) (f : Nat) : Hw :=
  if h.radio.valid.contains f then h else h.setRadio { h.radio with valid := f :: h.radio.valid }

/-- A timed command has come to START (R554). -/
def Hw.radioReach (h : Hw) (c : RadioCmd) (delay : Nat) : Hw :=
  let d := (h.untilStart c).toNat
  let t := if c.imm then 0 else 8 * d
  h.reach (h.tcnt + t + delay * 49152 / 100)

/-- Coexistence lets the head go on: it is off, the command asks for no grant, or the grant has been sampled active (R575, R576). -/
def Hw.coexOk (h : Hw) (c : RadioCmd) : Bool :=
  !h.on RADIO_COEX_EN || h.radio.granted || (c.op == 2 && !h.on RADIO_COEX_RXREQ) || c.op == 4 || c.op == 5

/-- The head of the queue, if it is a command with this OP that can start: no window of an earlier command is open, no hold runs. -/
def Hw.radioStart (h : Hw) (op : Nat) : Option RadioCmd :=
  match h.radio.queue with
  | [] => none
  | c :: _ => if c.op = op ∧ h.radio.window.isNone ∧ !h.on RADIO_STAT_HOLD_ACT ∧ h.coexOk c then some c else none

/-! ### Queueing (R553, R559, R587) -/

/-- RADIO_CMDGO: a copy of the staged command joins the queue, or is discarded. -/
def Hw.radioGo (h : Hw) (v : Nat) : Hw :=
  if !bit v 0 then h
  else
    let c : RadioCmd := ⟨(h.reg RADIO_CMD0).toNat, (h.reg RADIO_CMD1).toNat, (h.reg RADIO_CMD2).toNat⟩
    if h.on RADIO_STAT_HOLD_ACT ∨ c.op = 0 ∨ 6 ≤ c.op ∨ 78 < c.chan then h.sf RADIO_CMDST_CMD_ERR 1
    else if 4 ≤ h.radio.queue.length then h.sf RADIO_CMDST_QFULL 1
    else
      let first := h.radio.queue.isEmpty
      let h := h.setRadio { h.radio with queue := h.radio.queue ++ [c] }
      if first then h.radioHead 1 else h

/-- Every queued command that has not started ends with FLUSHED. -/
def Hw.radioFlush (h : Hw) : Hw :=
  let r := h.radio
  let started := if r.opened then r.queue.take 1 else []
  let rest := if r.opened then r.queue.drop 1 else r.queue
  let h := h.setRadio { r with
    queue := started, asked := r.asked && r.opened, granted := r.granted && r.opened,
    req := r.req && (r.opened || r.window.isSome), pri := r.pri && (r.opened || r.window.isSome) }
  forEach (fun c h => Hw.radioPost h c.tag 9 false 0) rest h

/-- RADIO_DONE: the oldest entry, removed (R558). -/
def Hw.radioDoneRead (h : Hw) : Hw :=
  match h.radio.done with
  | [] => { h with resp := .data 0 }
  | e :: rest => { h.setRadio { h.radio with done := rest } with resp := .data (e + pow2 31) }

/-! ### TX, RX, IDLE, OFF (R556, R563, R566, R570) -/

/-- The status that bars a transmission at its start, if any. -/
def Hw.txRefusal (h : Hw) (c : RadioCmd) : Option Nat :=
  let l := h.bufLen c.buf
  if 257 < l then some 0xA
  else if h.txBarred c.chan then some 5
  else if h.overDuty (airtime c.phy l) then some 4
  else none

/-- The power applied, and whether the command's was lowered (R566). -/
def Hw.powerClamp (h : Hw) (c : RadioCmd) : Bool := decide (h.pmaxEff < c.pwr)

/-- A command refused by a limit. -/
def Hw.radioRefuse (h : Hw) (c : RadioCmd) (status delay : Nat) : Hw :=
  let h := if status = 4 then h.bump RADIO_TALLY1_DUTYREF else h
  h.radioEnd c status false delay

/-- At the start of a transmission the compensated table gives the PA setting of the applied code at the latest TS4 and the VIN measured then, a
free value; it holds until the transmission ends (R567). -/
def Hw.paSelect (h : Hw) (code : Nat) : Hw :=
  let (vin, h) := h.fresh
  h.setRadio { h.radio with pa := (Config.paSetting code (toSigned 16 (h.rf (BGND_TEMP_TS_LO 2))) vin h.sys.calTemp).toNat }

/-- The packet is sent: transmit time, power and calibration; answers whether the power was lowered. -/
def Hw.radioSend (h : Hw) (c : RadioCmd) : Bool × Hw :=
  let clamp := h.powerClamp c
  let h := h.paSelect (min h.pmaxEff (min 60 c.pwr))
  let h := (h.radioCal c.chan).addAirtime (airtime c.phy (h.bufLen c.buf))
  (clamp, if clamp then h.bump RADIO_TALLY2_CLAMPED else h)

/-- RADIO_TX: `delay` is the µs by which lock came after START. -/
def Hw.radioTx (h : Hw) (delay : Nat) : Hw :=
  match h.radioStart 1 with
  | none => h
  | some c =>
    let h := h.radioReach c delay
    match h.txRefusal c with
    | some st => h.radioRefuse c st 0
    | none =>
      let (clamp, h) := h.radioSend c
      if c.ret = 1 then
        let h := (h.radioPost c.tag 0 clamp delay).sf RADIO_STAT_STATE rRx
        (h.setRadio { h.radio with window := some (c.buf ^^^ 1) }).radioPop
      else h.radioEnd c 0 clamp delay

/-- RADIO_RX: the window opens. -/
def Hw.radioRx (h : Hw) (delay : Nat) : Hw :=
  match h.radioStart 2 with
  | none => h
  | some c =>
    let h := (h.radioReach c delay).radioCal c.chan
    (h.setRadio { h.radio with window := some c.buf, opened := true, delay := delay }).sf RADIO_STAT_STATE rRx

/-- A return reception ends; the request stays only where the command at the head has asked for itself (R557, R575). -/
def Hw.returnClose (h : Hw) : Hw :=
  let r := h.radio
  (h.setRadio { r with window := none, req := r.req && r.asked, pri := r.pri && r.asked }).sf RADIO_STAT_STATE rIdle

/-- A window closes: the RX command that opened it ends with a status, or a return reception ends. -/
def Hw.windowClose (h : Hw) (status : Nat) : Hw :=
  match h.radio.queue with
  | c :: _ => if h.radio.opened then h.radioEnd c status false h.radio.delay else h.returnClose
  | [] => h.returnClose

/-- RADIO_PACKET_RECEIVED (R556, R557). -/
def Hw.radioPacket (h : Hw) (pdu : List Nat) (crcOk : Bool) (rssi : Nat) : Hw :=
  match h.radio.window with
  | none => h
  | some b =>
    let h := h.bufStore b pdu
    (h.setRadio { h.radio with rssi := rssi % 256 }).windowClose (if crcOk then 0 else 7)

/-- RADIO_RX_TIMEOUT. -/
def Hw.radioRxTimeout (h : Hw) : Hw := if h.radio.window.isNone then h else h.windowClose 6

/-- RADIO_IDLE and RADIO_OFF. -/
def Hw.radioMove (h : Hw) (op : Nat) : Hw :=
  match h.radioStart op with
  | none => h
  | some c =>
    let h := (h.radioReach c 0).radioPost c.tag 0 false 0
    (h.sf RADIO_STAT_STATE (if op = 4 then rIdle else rOff)).radioPop

/-- SYNTH_TIMEOUT (R562). -/
def Hw.synthTimeout (h : Hw) : Hw :=
  match h.radio.queue with
  | c :: _ =>
    if 1 ≤ c.op ∧ c.op ≤ 3 ∧ h.radioStart c.op = some c then (h.bump RADIO_TALLY1_SYNTHTO).radioEnd c 1 false 0 else h
  | [] => h

/-- RADIO_PA_CAL (R564). -/
def Hw.paCal (h : Hw) (ts4 : Int) : Hw :=
  if h.on RADIO_STAT_CAL_PEND ∧ h.radio.queue.isEmpty ∧ h.radio.window.isNone ∧ (h.radioState = rIdle ∨ h.radioState = rOff) then
    { h.sf RADIO_STAT_CAL_PEND 0 with sys := { h.sys with calTemp := ts4 } }
  else h

/-! ### Coexistence (R575 to R577) -/

/-- COEX_REQUEST: at START − LEAD. -/
def Hw.coexRequest (h : Hw) : Hw :=
  match h.radio.queue with
  | c :: _ =>
    if h.on RADIO_COEX_EN ∧ !h.radio.opened ∧ (c.op = 1 ∨ c.op = 3 ∨ (c.op = 2 ∧ h.on RADIO_COEX_RXREQ)) then
      h.setRadio { h.radio with asked := true, req := true, pri := c.pri }
    else h
  | [] => h

/-- COEX_GRANT_SAMPLE: at START − SAMP. -/
def Hw.coexSample (h : Hw) (active : Bool) : Hw :=
  let h := h.setRadio { h.radio with grant := active }
  match h.radio.queue with
  | c :: _ =>
    if h.radio.asked ∧ !h.radio.granted then
      if active then h.setRadio { h.radio with granted := true }
      else (h.bump RADIO_TALLY0_DENIED).radioEnd c 2 false 0
    else h
  | [] => h

/-! ### Channel sounding (R579 to R582) -/

/-- NSTEP as it acts. -/
def Hw.csSteps (h : Hw) : Nat := max 2 (min 160 (h.rf RADIO_CSCFG_NSTEP))

/-- Word i of the step list. -/
def Hw.csStep (h : Hw) (i : Nat) : Nat := (h.reg (0x40163000 + 4 * i)).toNat

/-- Word 6 of the per-step values of step i: the tone extensions (Table 12.6). -/
def Hw.csTones (h : Hw) (i : Nat) : Nat := bits (h.reg (0x40165000 + 32 * i + 24)).toNat 0 2

/-- What the steps of a subevent transmit: the step words that are not barred, with their tone extensions from bit 32 on (R571, R572). -/
def Hw.csPlan (h : Hw) : List Nat :=
  ((upTo h.csSteps).filter fun i => !h.txBarred (bits (h.csStep i) 2 7)).map fun i => h.csStep i + pow2 32 * h.csTones i

/-- The transmit time of the subevent that the registers describe. -/
def Hw.csTime (h : Hw) : Nat := Config.csAirtime (h.reg RADIO_CSCFG).toNat h.csPlan

/-- The words that follow the header of a step of this mode: their number and the bits that are not reserved (Table 12.7). -/
def csMasks (mode : Nat) : List Nat :=
  match mode with
  | 0 => [0xFFFFFFFF, 0x00FFFFFF]
  | 1 => [0x00FFFFFF]
  | 2 => [0x03FFFFFF, 0x03FFFFFF]
  | _ => [0x00FFFFFF, 0x03FFFFFF, 0x03FFFFFF]

/-- The result words of step i with what was measured; a barred step is skipped (R572, R582). -/
def Hw.csResult (h : Hw) (i : Nat) (sync : Bool) (ws : List Nat) : List Nat :=
  let w := h.csStep i
  let head := w % 512
  if h.txBarred (bits w 2 7) then [head + 512 + pow2 24 * (i % 256)]
  else
    let ms := csMasks (w % 4)
    let body := (List.zip ms (ws ++ List.replicate 3 0)).map fun p => p.2 &&& p.1
    (head + 1024 * b2n sync + 65536 * body.length + pow2 24 * (i % 256)) :: body

/-- The results of the steps from i on, until the subevent ends: `miss` counts reflector steps without CS_SYNC. Answers the words and whether
synchronism was lost. -/
def Hw.csRun (h : Hw) : Nat → Nat → List (Bool × List Nat) → List Nat × Bool
  | _, _, [] => ([], false)
  | i, miss, (sync, ws) :: rest =>
    let w := h.csStep i
    let ours := h.csResult i sync ws
    let hasSync := w % 4 != 2 && !h.txBarred (bits w 2 7)
    let miss := if !hasSync then miss else if sync then 0 else miss + 1
    if h.on RADIO_CSCFG_ROLE ∧ 2 ≤ miss then (ours, true)
    else
      let (more, lost) := h.csRun (i + 1) miss rest
      (ours ++ more, lost)

/-- Words written from a register address upwards. -/
def Hw.setWords (h : Hw) (a : Nat) : List Nat → Hw
  | [] => h
  | v :: vs => (h.setReg a (BitVec.ofNat 32 v)).setWords (a + 4) vs

/-- The channels of the first n steps. -/
def Hw.csChannels (h : Hw) (n : Nat) : List Nat := (upTo n).map fun i => bits (h.csStep i) 2 7

/-- Run the steps whose measurements are given, and end with the status they lead to. -/
def Hw.csSubevent (h : Hw) (c : RadioCmd) (meas : List (Bool × List Nat)) (rssi : Nat) (end_ : Option Nat) : Hw :=
  let n := h.csSteps
  let meas := meas.take n
  let (ws, lost) := h.csRun 0 0 meas
  let clamp := decide (min h.pmaxEff (min 60 (h.rf RADIO_CSCFG_PWR)) < c.pwr)
  let air := h.csTime
  let h := h.paSelect (min (min h.pmaxEff (min 60 (h.rf RADIO_CSCFG_PWR))) c.pwr)
  let h := forEach (fun f h => Hw.radioCal h f) (h.csChannels (if h.on RADIO_CSCFG_CALPASS then n else meas.length)) h
  let h := h.addAirtime air
  let h := if clamp then h.bump RADIO_TALLY2_CLAMPED else h
  let h := h.setWords 0x40164000 (ws.take 1024)
  let h := h.setRadio { h.radio with rssi := rssi % 256 }
  h.radioEnd c (end_.getD (if lost then 0xB else 0)) clamp 0

/-- RADIO_CS: a subevent with what its steps measured. -/
def Hw.radioCs (h : Hw) (meas : List (Bool × List Nat)) (rssi : Nat) : Hw :=
  match h.radioStart 3 with
  | none => h
  | some c =>
    let h := h.radioReach c 0
    if h.overDuty h.csTime then h.radioRefuse c 4 0
    else h.csSubevent c meas rssi none

/-- COEX_GRANT_LOST (R577): the head transmits and COEX_GRANT becomes inactive meanwhile. -/
def Hw.coexLost (h : Hw) (meas : List (Bool × List Nat)) (rssi : Nat) : Hw :=
  if !h.on RADIO_COEX_EN then h
  else
    match h.radioStart 1, h.radioStart 3 with
    | some c, _ =>
      let h := h.setRadio { h.radio with grant := false }
      match h.txRefusal c with
      | some _ => h
      | none =>
        let h := (h.radioReach c 0).bump RADIO_TALLY0_LOST
        if h.on RADIO_COEX_TXABORT then
          let (clamp, h) := h.radioSend c
          h.radioEnd c 3 clamp 0
        else h.radioTx 0
    | none, some c =>
      let h := h.setRadio { h.radio with grant := false }
      if h.overDuty h.csTime then h
      else
        let h := (h.radioReach c 0).bump RADIO_TALLY0_LOST
        h.csSubevent c meas rssi (some 3)
    | none, none => h

/-! ### Limit fuses (R574) -/

/-- The fuse field: its value and width. -/
def Hw.fuseField (h : Hw) (f : Nat) : Nat × Nat :=
  match f with
  | 0 => (h.fuses.pcut, 7)
  | 1 => (h.fuses.dcut, 10)
  | 2 => (h.fuses.region, 4)
  | 3 => (h.fuses.fmask % pow2 32, 32)
  | _ => (h.fuses.fmask / pow2 32, 8)

/-- The part with a fuse field set. -/
def Hw.setFuse (h : Hw) (f v : Nat) : Hw :=
  let u := h.fuses
  match f with
  | 0 => { h with fuses := { u with pcut := v } }
  | 1 => { h with fuses := { u with dcut := v } }
  | 2 => { h with fuses := { u with region := v } }
  | 3 => { h with fuses := { u with fmask := u.fmask / pow2 32 * pow2 32 + v } }
  | _ => { h with fuses := { u with fmask := u.fmask % pow2 32 + v * pow2 32 } }

/-- RADIO_FBLOW: `role` is the role of the session that writes it (0 where no session does). -/
def Hw.fuseBlow (h : Hw) (v role : Nat) : Hw :=
  let f := v % 8
  let lc := h.fuses.lifecycle
  let ok := decide (v / 65536 % 65536 = 0x4642) && decide (f ≤ 4) && (lc == 1 || lc == 2) && decide (2 ≤ role) &&
    !(f == 2 && h.fuses.region != 0) && !h.on RADIO_FBSTAT_BUSY
  if ok then
    let (old, w) := h.fuseField f
    (h.setRadio { h.radio with blow := some (f, h.rf RADIO_FBVAL_VALUE % 2 ^ w, old) }).sf RADIO_FBSTAT_BUSY 1
  else h.sf RADIO_FBSTAT_REFUSED 1

/-- RADIO_FUSE_BLOW_DONE: `took` are the bits that were blown. -/
def Hw.fuseBlown (h : Hw) (took : Nat) : Hw :=
  match h.radio.blow with
  | none => h
  | some (f, v, old) =>
    let now := old ||| (v &&& took)
    let h := (h.setFuse f now).setRadio { h.radio with blow := none }
    let h := (h.sf RADIO_FBSTAT_BUSY 0).sf RADIO_FBSTAT_DONE 1
    if now = old ||| v then h else h.sf RADIO_FBSTAT_VERIFY_ERR 1

/-! ### The hold (R585 to R588) -/

/-- Word i of hold descriptor k, and its address. -/
def holdAt (k i : Nat) : Nat := 0x40160800 + 0x40 * k + 4 * i
def Hw.holdWord (h : Hw) (k i : Nat) : Nat := (h.reg (holdAt k i)).toNat

/-- A Long splice starts the hold (R586, R587). -/
def Hw.holdStart (h : Hw) : Hw :=
  if h.on RADIO_CTRL_HOLD_AUTO then
    let h := h.radioFlush
    (h.setRadio { h.radio with held := h.tcnt }).sf RADIO_STAT_HOLD_ACT 1
  else h

/-- The channel of the event that descriptor k comes to (R586). -/
def Hw.holdChannel (h : Hw) (k : Nat) : Nat :=
  Config.holdChannel (h.holdWord k 5 % 65536) (h.holdWord k 4 / 65536) (h.holdWord k 6 + pow2 32 * (h.holdWord k 7 % 32))

/-- The transmit time of descriptor k's empty PDU, and whether the limits let it be sent (R570 to R572). -/
def Hw.holdTime (h : Hw) (k : Nat) : Nat := airtime (bits (h.holdWord k 0) 3 2) 2
def Hw.holdMay (h : Hw) (k : Nat) : Bool := !h.txBarred (h.holdChannel k) && !h.overDuty (h.holdTime k)

/-- The empty PDU of descriptor k is sent at its power code (R566, R567, R571). -/
def Hw.holdSend (h : Hw) (k : Nat) : Hw :=
  ((h.paSelect (min h.pmaxEff (min 60 (bits (h.holdWord k 0) 5 7)))).radioCal (h.holdChannel k)).addAirtime (h.holdTime k)

/-- RADIO_HOLD_EVENT: the empty PDU at an anchor of descriptor k and the reply, if one came: its SN, NESN and whether it carries data. Where a limit
bars the transmission, nothing is sent and no reply comes. -/
def Hw.holdEvent (h : Hw) (k : Nat) (reply : Option (Bool × Bool × Bool)) : Hw :=
  let w := h.holdWord k 0
  if !h.on RADIO_STAT_HOLD_ACT ∨ !bit w 0 then h
  else
    let sn := bit w 1
    let nesn := bit w 2
    let (sn, nesn) := match (if h.holdMay k then reply else none) with
      | none => (sn, nesn)
      | some (rsn, rnesn, data) => (if rnesn != sn then !sn else sn, if rsn == nesn && !data then !nesn else nesn)
    let h := if h.holdMay k then h.holdSend k else h
    let w4 := h.holdWord k 4
    let h := h.setReg (holdAt k 0) (BitVec.ofNat 32 (w / 8 * 8 + 1 + 2 * b2n sn + 4 * b2n nesn))
    let h := h.setReg (holdAt k 3) (BitVec.ofNat 32 (h.holdWord k 3 + 76800 * (w4 % 65536)))
    let h := h.setReg (holdAt k 4) (BitVec.ofNat 32 (w4 % 65536 + (w4 / 65536 + 1) % 65536 * 65536))
    h.bump RADIO_TALLY2_HELD

/-- HOLD_REL: the hold ends and the radio moves to IDLE. -/
def Hw.holdRelease (h : Hw) : Hw :=
  if h.on RADIO_STAT_HOLD_ACT then (h.sf RADIO_STAT_HOLD_ACT 0).sf RADIO_STAT_STATE rIdle else h

/-- The connections that a hold dropped: descriptor k is that of connection k (R585, R614, assumption log 44). -/
def Hw.holdDrop (h : Hw) : Hw :=
  { h with pkey := { h.pkey with conns := h.pkey.conns.filter fun c => !bit (h.holdWord c.1 0) 0 } }

/-- RADIO_HOLD_TIMEOUT: one second after the hold began the held connections are dropped. -/
def Hw.holdTimeoutRadio (h : Hw) : Hw :=
  if h.on RADIO_STAT_HOLD_ACT then
    let h := (h.reach (h.radio.held + 491520000)).holdDrop
    let h := forEach (fun k h => Hw.setReg h (holdAt k 0) (BitVec.ofNat 32 (h.holdWord k 0 / 2 * 2))) (upTo 4) h
    h.holdRelease
  else h

/-- A write of RADIO_CTRL. -/
def Hw.radioCtrl (h : Hw) (v : Nat) : Hw :=
  let h := h.writeFields RADIO_CTRL v
  let h := if bit v 2 then h.radioFlush else h
  if bit v 3 then h.holdRelease else h

end Sys2Proof.Machine
end

