-- ==== Sys2Proof/Machine/Boot.lean ====
section
/-! DEFINITION. Resets (R642 to R646), verification of an image slot (R682), the cold boot (R647, R648, R212, R411 to R413, R683) and the start of
Fofiys firmware (R325, R328, R450, R451). -/

namespace Sys2Proof.Machine

/-! ### Resets (Table 14.10) -/

/-- A register of the always-on domain: PWR and the output pulses of PKEY (R616). -/
def alwaysOnReg (a : Nat) : Bool := within 0x40010000 0x4001FFFF a || within 0x40170000 0x4017FFFF a

/-- A register of the backup domain: RTC, BKPEV and WAKE (R616). -/
def backupReg (a : Nat) : Bool := within 0x50000000 0x5002FFFF a

/-- The registers that satisfy `p` keep their values; the others take their Reset column. -/
def Hw.keepRegs (h : Hw) (p : Nat → Bool) : Hw := { h with regs := Store.keep p h.regs }

/-- The core domain as a core reset leaves it (R642): the always-on and backup domains, MRAM, fuses and what SRAM holds stay. -/
def Hw.coreClear (h : Hw) : Hw :=
  let h' := h.keepRegs fun a => alwaysOnReg a || backupReg a
  let c := Hw.reset
  { c with
    regs := h'.regs, mem := h.mem, ecc := h.ecc, free := h.free, resp := h.resp, fuses := h.fuses, kept := h.kept,
    pwr := { h.pwr with state := .run, resetting := true, saved := [], retained := [] },
    memu := { MemUnits.reset with rowMaps := h.memu.rowMaps },
    radio := Radio.reset h.radio.buckets,
    pkey := { PKey.reset with bonds := h.pkey.bonds, start := h.pkey.start },
    rtc := h.rtc,
    upd := { Update.reset with trial := h.upd.trial, versions := h.upd.versions } }

/-- Every byte of SRAM loses its content (R400, R642). -/
def Hw.sramLost (h : Hw) : Hw :=
  let keep := fun (a : Nat) => isMram a || within 0x32000000 0x3200007F a
  { h with mem := Store.keep keep h.mem, ecc := Store.keep (fun k => keep (8 * k)) h.ecc }

/-- The always-on domain is reset too: it loses its state, with it the writes still queued, and the SRAM its power (R616, R412, R651). -/
def Hw.alwaysOnClear (h : Hw) : Hw :=
  let h := (h.keepRegs fun a => !alwaysOnReg a).sramLost
  { h with
    pwr := { h.pwr with engRet := 0, engCause := 0, coreRet := 0, wipeCause := 0, wipeTev := 0, wipeTamper := false },
    radio := Radio.reset [], pkey := { h.pkey with start := none }, rtc := { h.rtc with wq := [] } }

/-- The backup domain is reset too (R657). -/
def Hw.backupClear (h : Hw) : Hw :=
  let h := h.keepRegs fun a => !backupReg a
  { h.zero 0x32000000 128 with rtc := Rtc.reset }

/-- A reset's cause is recorded (R642, R644), and no time stays latched (R652). -/
def Hw.causeSet (h : Hw) (c : Nat) : Hw :=
  let h := { h with rtc := { h.rtc with latch := none } }
  (h.sf WAKE_RSTCAUSE_CAUSES (h.rf WAKE_RSTCAUSE_CAUSES ||| pow2 c)).sf WAKE_RSTCAUSE_LAST c

/-- A core reset ends an output pulse in progress (R740). -/
def Hw.pulsesStop (h : Hw) : Hw :=
  { (h.sf PKEY_OUTSTAT_UNL_ACT 0).sf PKEY_OUTSTAT_LCK_ACT 0 with pkey := { h.pkey with start := none } }

/-- A reset of the core domain alone. -/
def Hw.coreReset (h : Hw) (cause : Nat) : Hw := (h.coreClear.pulsesStop).causeSet cause

/-- The life-cycle transition to t is made, then a reset of the core domain (R427). -/
def Hw.lifecycleReset (h : Hw) (t : Nat) : Hw := { h with fuses := { h.fuses with lifecycle := t } }.coreReset 7

/-- A reset of the core and always-on domains. -/
def Hw.vinReset (h : Hw) (cause : Nat) : Hw := h.coreClear.alwaysOnClear.causeSet cause

/-- POWER_ON_RESET. -/
def Hw.powerOn (h : Hw) : Hw := h.coreClear.alwaysOnClear.backupClear.causeSet 0

/-- BACKUP_ENTRY (R615): the core and always-on regions are off. -/
def Hw.backupEnter (h : Hw) : Hw :=
  let h := h.coreClear.alwaysOnClear
  { h with pwr := { h.pwr with state := .backup } }

/-- The core region and its clocks run: REF_LOST and PLL_UNLOCK can arise (R31, R32, Table 14.1). -/
def Hw.clocked (h : Hw) : Bool := h.pwr.state == .run || h.pwr.state == .stop

/-- TIMEOUT as it acts (SYS_WDOG). -/
def Hw.wdTimeout (h : Hw) : Nat := max 10 (min 60000 (h.rf SYS_WDOG_TIMEOUT))

/-- The watchdog count starts or restarts (R645). -/
def Hw.wdRestart (h : Hw) : Hw := if h.on SYS_WDOG_EN then { h with sys := { h.sys with wdLimit := h.wdTimeout } } else h

/-- A write of SYS_WDOG: EN cannot be cleared, and the count starts when it becomes 1 (R645). -/
def Hw.wdWrite (h : Hw) (v : Nat) : Hw :=
  let was := h.on SYS_WDOG_EN
  let h := h.writeFields SYS_WDOG v
  if was then h.sf SYS_WDOG_EN 1 else h.wdRestart

/-- WATCHDOG_KICK: a write of SYS_WDKICK (R645). -/
def Hw.wdKick (h : Hw) (v : Nat) : Hw := if v = 0x4B49434B then h.wdRestart else h.coreReset 6

/-- SOFTWARE_RESET: a write of SYS_RST (R646). -/
def Hw.sysRst (h : Hw) (v : Nat) : Hw := if bits v 16 16 = 0x5253 ∧ bit v 0 then h.coreReset 8 else h

/-! ### Verification of a slot (R682, Table 16.2) -/

/-- First byte of an image slot (R679). -/
def slotBase (s : Nat) : Nat := 0x60000000 + 0x600000 * (s % 2)

/-- The bytes from `a` are all 0. -/
def Hw.blankAt (h : Hw) (a n : Nat) : Bool := (h.mramBytes a n).all (· == 0)

/-- The header check. -/
def Hw.headerOk (h : Hw) (s : Nat) : Bool :=
  let b := slotBase s
  let len := h.mramNum (b + 0x10) 4
  let entry := h.mramNum (b + 0x14) 4
  h.mramNum b 4 == 0x4B494D01 && h.mramNum (b + 4) 4 == 1 && decide (h.mramNum (b + 0x0E) 2 < 2) && decide (h.mramNum (b + 0x1C) 4 < 8) &&
    h.blankAt (b + 0x20) 32 && h.blankAt (b + 0xE0) 288 && len % 8 == 0 && decide (4096 ≤ len) && decide (len ≤ 6290944) &&
    decide (0x200 ≤ entry) && decide (entry < 0x200 + len)

/-- Number of a configuration in PARTS and in object 0x1000:02. -/
def Part.number : Part → Nat
  | .ak512 => 1
  | .ak256 => 2
  | .ak128 => 3

/-- The code of the first check of Table 16.2 that the slot fails, or 0; `opReq` is UPD_OPSIG_REQ. -/
def Hw.verifySlot (h : Hw) (s : Nat) (opReq : Bool) : Nat :=
  let b := slotBase s
  let msg := h.mramBytes b 0x60
  let signed := fun (key : List Nat) (o : Nat) => Config.signatureOk key msg (h.mramBytes (b + o) 32) (h.mramBytes (b + o + 32) 32)
  let opKey := h.keyWithId 0x0500
  if !h.headerOk s then 1
  else if !bit (h.mramNum (b + 0x1C) 4) (h.fuses.part.number - 1) then 2
  else if Config.sha256 (h.mramBytes (b + 0x200) (h.mramNum (b + 0x10) 4)) ≠ h.mramBytes (b + 0x40) 32 then 3
  else if !signed Config.keloonImageKey 0x60 then 4
  else match opKey with
    | none => if opReq then 5 else if h.mramNum (b + 0x0C) 2 < h.fuses.otp then 7 else 0
    | some k =>
      if h.mramNum (b + 0x0E) 2 % 2 = 0 ∨ !signed k 0xA0 then 6
      else if h.mramNum (b + 0x0C) 2 < h.fuses.otp then 7 else 0

/-! ### Restoring objects (R450, R451) -/

/-- The register at `a` takes its journal value in the bits of its RWP fields; every other RW field keeps the value of its Reset column. -/
def Hw.restoreReg (h : Hw) (rs : List JRec) (a : Nat) : Hw :=
  match regAt a with
  | none => h
  | some (d, i) =>
    match journalValue rs (d.obj + d.objStride * i) (d.sub + d.subStride * i) with
    | none => h
    | some v => h.setReg a (BitVec.ofNat 32 (((resetOf a).toNat &&& (0xFFFFFFFF ^^^ regRwpMask a)) ||| (leNat v &&& regRwpMask a)))

/-- The firmware object takes its journal value. -/
def Hw.restoreObj (h : Hw) (r : JRec) : Hw :=
  match fwObject r.idx r.sub with
  | none => h
  | some o =>
    if o.kind ≠ .rwp then h
    else if r.idx = 0x6112 then { h with pkey := { h.pkey with revoked := wordsOf r.value } }
    else if r.idx = 0x6114 then
      let z : Zone := ⟨r.value.getD 0 0, toSigned 32 (leNat ((r.value.drop 1).take 4)), toSigned 32 (leNat ((r.value.drop 5).take 4)),
        leNat ((r.value.drop 9).take 4)⟩
      { h with pkey := { h.pkey with zones := Store.set (fun _ => ⟨0, 0, 0, 0⟩) h.pkey.zones (r.sub - 1) z } }
    else h.setObj r.idx r.sub (leNat r.value)

/-- Every journalled value comes back (R450, R451). -/
def Hw.restoreAll (h : Hw) : Hw :=
  let rs := h.journalRecords
  let h := forEach (fun a h => h.restoreReg rs a) rwpRegs h
  forEach (fun r h => h.restoreObj r) (liveRecords rs) h

/-! ### The start of Fofiys firmware -/

/-- Slots of the program memory become empty: its content is lost. -/
def Hw.slotsEmpty (h : Hw) : Hw := forEach (fun n h => h.sf (LOOP_KSLOT_CFG_VALID n) 0) (upTo 16) h

/-- Vendor kernels from word `b` upwards into slots from n (8.10). -/
def Hw.loadVendor (h : Hw) (n b : Nat) : List (List Nat) → Hw
  | [] => h
  | code :: rest =>
    let h := (h.storeWords (0x12800000 + 4 * b) code).eccClear (0x12800000 + 4 * b) (4 * code.length)
    let h := (h.sf (LOOP_KSLOT_RANGE_BASE n) b).sf (LOOP_KSLOT_RANGE_LEN n) code.length
    (h.sf (LOOP_KSLOT_CFG_VALID n) 1).loadVendor (n + 1) (b + code.length) rest

/-- Fofiys firmware loads K0 to K5 and the accepted FLEET kernels (8.10). -/
def Hw.loadKernels (h : Hw) : Hw :=
  let h := h.slotsEmpty.loadVendor 0 0 (h.fw.vendor.take 6)
  forEach (fun p h => if h.kloadCheck p.2 = 0 then h.kloadPut p.2 else h) h.fw.kImages h

/-- Fofiys firmware loads the reference shapes at boot (R248). -/
def Hw.loadShapes (h : Hw) (shapes : List (List (BitVec 16))) : Hw :=
  forEach (fun x h =>
    let a := 0x12014000 + 1024 * x.2
    (h.storeBytes a ((x.1.take 257).flatMap fun v => leBytes 2 v.toNat)).eccClear a 520) (shapes.take 32).zipIdx h

/-! ### Shares of the sample memory (R91) -/

/-- The 64 KiB unit k of sample memory lies in an online stripe. -/
def Hw.sampleUnit (h : Hw) (k : Nat) : Bool := decide (k < 16) && h.unitState (k / 4) != unitRetired

/-- Where shares of `size` units lie from the lowest address up, none over a stripe that is offline. -/
def Hw.shareBases (h : Hw) (size : Nat) : List Nat :=
  ((upTo 16).foldl (fun (m : Nat × List Nat) p =>
    if m.1 ≤ p ∧ (upTo size).all (fun k => h.sampleUnit (p + k)) then (p + size, m.2 ++ [p]) else m) (0, [])).2

/-- The equal share of n ports, in units: the largest of which n fit (assumption log 99). -/
def Hw.shareSize (h : Hw) (n : Nat) : Nat :=
  (upTo 17).foldl (fun m s => if 1 ≤ s ∧ n ≤ (h.shareBases s).length then s else m) 0

/-- The firmware gives each port that it enables its share (R91). -/
def Hw.shareRings (h : Hw) (ports : List Nat) : Hw :=
  let ps := (upTo h.portCount).filter (ports.contains ·)
  let size := h.shareSize ps.length
  if ps = [] ∨ size = 0 then h
  else forEach (fun x h => (h.sf (SP_RING_BASE x.1) x.2).sf (SP_RING_SIZE x.1) size) (ps.zip (h.shareBases size)) h

/-- Fofiys firmware starts from slot s (R450, 8.10, R248, R325, R91). -/
def Hw.startFirmware (h : Hw) (s : Nat) (f : BootFacts) : Hw :=
  let h := { h with
    sys := { h.sys with fwRunning := true },
    fw := { h.fw with started := h.tcnt, version := h.mramNum (slotBase s + 8) 4, vendor := f.vendor } }
  let h := h.restoreAll.shareRings f.ports
  let h := { h with fw := { h.fw with kImages := h.journalImages } }
  let h := if h.sys.noFabric then h else h.loadKernels.loadShapes f.shapes
  (h.hotLoad f.hot).logTampers

/-! ### The cold boot (Table 14.11) -/

/-- One failing row at boot (R413): mapped to a spare and copied, its soft map recorded, and the unit tested again; without a spare, or after a
second failure, the bank is retired. -/
def Hw.bootRow (h : Hw) (f : BootFacts) (r : Nat × Nat × Nat) : Hw :=
  let (u, b, row) := r
  if h.unitState u = unitRetired then h
  else match h.freeSpare u b ((f.spares.filter fun x => x.1 == u).map (·.2)) with
    | none => h.retireBank u b
    | some s =>
      let x : RowMap := ⟨u, b, row, s⟩
      let h := (h.copyRow u b row).mapRow x
      let h := { h with kept := { h.kept with softMaps := withMap x h.kept.softMaps } }
      let m := h.rf MEM_BOOT_REPAIRED
      let h := h.sf MEM_BOOT_REPAIRED (if bit m u then m else m + pow2 u)
      if (u, b) ∈ f.again then h.retireBank u b else h

/-- BOOT_MEMORY_TEST and BOOT_ROW_REPAIR (R411 to R413, R417). -/
def Hw.bootMemory (h : Hw) (f : BootFacts) (mode : Nat) : Hw :=
  let h := { h with memu := { h.memu with rowMaps := h.fuses.rowMaps ++ h.kept.softMaps } }
  let h := h.sf MEM_BOOT_MODE mode
  let h := forEach (fun u h => h.sf (MEM_SCTL_SPARES_USED u) (h.memu.rowMaps.filter fun (m : RowMap) => m.unit == u).length) (upTo 18) h
  let h := forEach (fun p h => (h.sf (MEM_SCTL_FAILING p.1) 1).retireBank p.1 p.2) h.kept.failing h
  let h :=
    if mode = 2 then
      forEach (fun k h => if h.eccAt (8 * k) = 1 ∧ (unitOf (8 * k)).any (· < 15) then h.setEcc (8 * k) 0 else h) (h.ecc.map (·.1)) h
    else forEach (fun u h => h.fillUnit u) (upTo 15) h
  let h := forEach (fun u h => h.fillUnit u) [15, 16, 17] h
  let lost := if mode = 2 then (upTo 15).flatMap fun u => (h.rowsUnreadable u).map fun r => (u, r.1, r.2) else []
  let rows := if mode = 0 then f.rows.filter fun r => decide (15 ≤ r.1) else f.rows
  forEach (fun r h => h.bootRow f r) ((rows ++ lost).filter fun r => decide (r.1 < 18)).eraseDups h

/-- ENGINE_BUILT_IN_TEST, and the tests of the local memories (R212, R411). March C- writes every word of the local data memories and of the
accumulator memories, so that no error of theirs is left. -/
def Hw.bootEngines (h : Hw) (f : BootFacts) : Hw :=
  let mask := fun (n : Nat) (xs : List Nat) => (upTo n).foldl (fun m k => m + (if xs.contains k then pow2 k else 0)) 0
  let march := f.march.filter (f.engines.contains ·)
  { h with
    ecc := Store.keep (fun k => decide (8 * k < pow2 32)) h.ecc,
    pwr := { h.pwr with engRet := mask 32 f.engines, engCause := mask 32 march, coreRet := mask 8 f.cores } }

/-- A wipe that a reset interrupted, one that a tamper event still requests, or that of a boot in SCRAPPED (R428, R677, R783); `bad` read-backs of
it fail (R433). -/
def Hw.bootWipe (h : Hw) (bad : Nat) : Hw :=
  let h := if h.on BKPEV_TSTAT_TPEND then
      { h with pwr := { h.pwr with wipeCause := wipeTamper, wipeTev := h.rf BKPEV_TSTAT_TEV, wipeTamper := true } } else h
  let h := if h.pwr.wipeCause = 0 ∧ h.fuses.lifecycle = 5 then { h with pwr := { h.pwr with wipeCause := wipeScrapped } } else h
  if h.pwr.wipeCause = 0 then h else h.wipeWhole bad

/-- Navigation-controller stripes available (R14). -/
def Hw.navStripes (h : Hw) : Nat := ((upTo 8).filter fun k => h.unitState (7 + k) != unitRetired).length

/-- BOOT_FAILURE (R648): the reason is recorded; CAN0 is set up from the journal for the HEARTBEAT frames. -/
def Hw.bootFailure (h : Hw) (err : Nat) : Hw :=
  let h := h.sf SYS_BOOT_ERR err
  if err = 3 then h
  else
    let rs := h.journalRecords
    let h := forEach (fun a h => h.restoreReg rs a) [CAN_NQ 0, CAN_NSEG 0, CAN_DQ 0, CAN_DSEG 0, CAN_CFG 0] h
    let h := ((h.sf (UART_CFG_EN 0) 1).sf (UART_CFG_TXEN 0) 1).sf (UART_CFG_RXEN 0) 1
    { h.sf (CAN_CFG_EN 0) 1 with fw := { h.fw with started := h.tcnt } }

/-- BOOT_IMAGE_SELECT (R683): the slot to start, if one passes. -/
def Hw.selectImage (h : Hw) (opReq : Bool) : Option Nat × Hw :=
  let c := h.kept.confirmed
  let e := h.verifySlot c opReq
  if e = 0 then (some c, h)
  else
    let h := h.sf UPD_STAT_VERR e
    let e2 := h.verifySlot (1 - c) opReq
    if e2 = 0 then (some (1 - c), h) else (none, h.sf UPD_STAT_VERR e2)

/-- Steps 1 to 4 of the boot: the level of the core buck, the domains, the fuses, the journal (R620, PWR_DOM, R424, R504, R680). -/
def Hw.bootBegin (h : Hw) : Hw :=
  let h := { h with pwr := { h.pwr with resetting := false } }
  let h := ((h.sf PWR_PL_TARGET 3).sf PWR_PL_CURRENT 3).sf PWR_PL_BUSY 0
  let h := (h.sf PWR_DOM_STATE 0xAA).sf WAKE_FIRST_VALID 0
  (h.showLifecycle.sf UPD_OTP_CNT h.fuses.otp).journalScan.readKept

/-- The life-cycle state has neither keys nor firmware: BLANK and SCRAPPED (Table 9.5). -/
def Hw.inert (h : Hw) : Bool := h.fuses.lifecycle == 0 || h.fuses.lifecycle == 5

/-- Steps 5 and 6: the tests, an interrupted wipe, the keys (R411, R212, R783, R441). -/
def Hw.bootTests (h : Hw) (f : BootFacts) : Hw :=
  let rs := h.journalRecords
  let mode := match journalValue rs 0x9110 1 with | some v => leNat v | none => 1
  let h := (h.bootMemory f mode).bootEngines f
  let h := h.sf MEM_THSTAT_TAMPER_LOCKED (b2n h.kept.tamperLocked)
  let h := (h.restoreReg rs MEM_THCMD).bootWipe f.wipeBad
  let h := if h.inert then h else h.keyLoad
  if h.sys.noFabric then h else h.initScan

/-- Steps 7 to 9: TRIAL is cleared, the image is chosen and started, or the reason is recorded (R648, R683). The journal records of what the boot
found are written with it (R413). -/
def Hw.bootImage (h : Hw) (f : BootFacts) : Hw :=
  let opReq := match journalValue h.journalRecords 0x8002 5 with | some v => leNat v == 1 | none => false
  let h := { h with upd := { h.upd with trial := false } }.keepRecords
  let h := (h.sf SYS_BOOT_WAKE 0).sf SYS_BOOT_NAVSTRIPES h.navStripes
  if h.inert then h.bootFailure 3
  else if h.navStripes < 6 then h.bootFailure 1
  else match h.selectImage opReq with
    | (none, h) => h.bootFailure 2
    | (some s, h) => (((h.sf SYS_BOOT_SLOT s).sf UPD_STAT_SLOT s).sf SYS_BOOT_ERR 0).startFirmware s f

/-- COLD_BOOT (R647). -/
def Hw.coldBoot (h : Hw) (f : BootFacts) : Hw :=
  if h.pwr.resetting && h.pwr.state != .backup then (h.bootBegin.bootTests f).bootImage f else h

/-- DSTATE of a HEARTBEAT (Table 10.7): DEGRADED while an engine or core is retired or a unit is offline. -/
def Hw.dstate (h : Hw) : Nat :=
  if !h.sys.fwRunning then 0
  else if h.upd.splicing.isSome then 2
  else if h.sys.noFabric then 3
  else if h.pwr.engRet ≠ 0 ∨ h.pwr.coreRet ≠ 0 ∨ (upTo 18).any (fun u => h.unitState u == unitRetired) then 4
  else 1

/-- The payload of a HEARTBEAT (Table 10.7). -/
def Hw.heartbeatData (h : Hw) : List Nat :=
  [h.dstate, h.fuses.lifecycle] ++ leBytes 2 h.fw.hbSeq ++ leBytes 4 ((h.tcnt - h.fw.started) / secondTicks)

/-- A HEARTBEAT frame on a link. -/
def Hw.heartbeat (h : Hw) (l : Nat) : Hw :=
  let h := h.linkSend l fnHeartbeat h.heartbeatData
  { h with fw := { h.fw with hbSeq := (h.fw.hbSeq + 1) % 65536 } }

/-- BOOT_ROM_HEARTBEAT (R648). -/
def Hw.bootHeartbeat (h : Hw) : Hw :=
  if h.sys.fwRunning ∨ h.pwr.resetting ∨ h.fuses.lifecycle = 0 ∨ h.fuses.lifecycle = 5 ∨ !h.clocked then h else h.heartbeat 8

/-- TESTEN_RELEASE (R426). -/
def Hw.testenRelease (h : Hw) : Hw :=
  if h.fuses.lifecycle = 0 then { h with fuses := { h.fuses with lifecycle := 1 } }.coreReset 7 else h

end Sys2Proof.Machine
end

