-- ==== Sys2Proof/Machine/WakePlan.lean ====
section
/-! DEFINITION. The firmware's plan of timed wakes (R594): the two schedules, the countdown loaded before Slack, and what a wake makes of them. -/

namespace Sys2Proof.Machine

/-- A slow-clock period in the unit of the schedules, and a millisecond. -/
def slowUnits : Nat := 5000
def msUnits : Nat := 163840

/-- Intervals of the two schedules: ADV_PERIOD, and SNAP_PERIOD at its nearest limit (Table 7.6). -/
def Hw.advUnits (h : Hw) : Int := ((h.obj 0x6110 0x0A * msUnits : Nat) : Int)
def Hw.snapUnits (h : Hw) : Int := ((max 10 (min 86400 (h.obj 0x2101 2)) * 1000 * msUnits : Nat) : Int)

/-- The present moment in the unit of the schedules: 3 timing clocks each. -/
def Hw.schedNow (h : Hw) : Int := ((h.tcnt / 3 : Nat) : Int)

/-- What remains of an interval now; an interval that has not begun yet begins now. -/
def Hw.remains (h : Hw) (x : Option Int) (period : Int) : Int :=
  match x with
  | some r => r - (h.schedNow - h.sched.ref)
  | none => period

/-- The ticks of R672 in the unit of the schedules, finest first. -/
def tickUnits : List Nat := tickPeriods.map (· * slowUnits)

/-- TICK, count and tick length of an interval: the finest tick whose 24-bit count holds it, rounded to a whole tick and at least one (R594). -/
def countdownFor (r : Int) : Nat × Nat × Nat :=
  let t := ((upTo 4).find? fun t => decide (roundDiv r (tickUnits.getD t 1) < (pow2 24 : Int))).getD 3
  let u := tickUnits.getD t 1
  (t, max 1 (min (pow2 24 - 1) (roundDiv r u).toNat), u)

/-- The write queue of the backup domain has room for two writes: firmware waits for the slow-clock edges that apply the oldest (R651). -/
def Hw.queueRoom (h : Hw) : Hw :=
  forEach (fun _ h =>
    if h.rtc.wq.length ≤ 6 then h
    else (if h.rtc.recompute then h.anextRecompute else h).backupEdge h.rtc.pre fun _ => true) (upTo 8) h

/-- Before each Slack entry the firmware loads the countdown for the earlier of the two events, with RELOAD = 0, and starts it (R594). -/
def Hw.loadCountdown (h : Hw) : Hw :=
  let a := h.remains h.sched.adv h.advUnits
  let s := if h.obj 0x2101 1 = 1 then some (h.remains h.sched.snap h.snapUnits) else none
  let r := match s with | some s => min a s | none => a
  let (t, n, u) := countdownFor r
  let w : WakeSched := { h.sched with
    ref := h.schedNow, adv := some a, snap := s, loaded := n * u,
    forAdv := decide (roundDiv a u ≤ (n : Int)),
    forSnap := match s with | some s => decide (roundDiv s u ≤ (n : Int)) | none => false }
  let h := (h.setSched w).queueRoom
  let h := h.setSched { h.sched with edge0 := h.rtc.edge }
  (h.backupPost RTC_CDLOAD 4 (n + pow2 24 * t)).backupPost RTC_CDCTL 4 1

/-- Both schedules go on by an interval spent in Slack. -/
def WakeSched.pass (w : WakeSched) (d : Nat) : WakeSched := { w with adv := w.adv.map (· - d), snap := w.snap.map (· - d) }

/-- A wake: the edges of the slow clock since the countdown was loaded are what has passed of each schedule, and the timing count starts again
600 µs after the source qualified (Table 14.7, R594). -/
def Hw.planWake (h : Hw) : Hw :=
  let w := h.sched.pass ((h.rtc.edge - h.sched.edge0) * slowUnits)
  h.setSched { w with ref := -98304, edge0 := h.rtc.edge }

/-- An advertising event has been sent: where it was due, the next interval of its schedule begins (R594). -/
def Hw.advSent (h : Hw) : Hw :=
  if h.sched.advDue then h.setSched { h.sched with advDue := false, adv := h.sched.adv.map (· + h.advUnits) } else h

/-- A sleep-and-fix cycle may begin: it is due, and no advertising event is due before it (R342, R594). -/
def Hw.snapTurn (h : Hw) : Bool := h.sched.snapDue && !h.sched.advDue

/-- The cycle begins: the next interval of its schedule begins with it. -/
def Hw.snapTaken (h : Hw) : Hw := h.setSched { h.sched with snapDue := false, snap := h.sched.snap.map (· + h.snapUnits) }

end Sys2Proof.Machine
end

