-- ==== Sys2Proof/Machine/Irq.lean ====
section
/-! DEFINITION. The interrupt requests that the blocks raise to the navigation controller (2.7, 6.8, 7.6, 11.11, 12.9, 17.3, 17.4, 18.5), which end Stop (R623). -/

namespace Sys2Proof.Machine

/-- The blocks that raise a request. -/
inductive IrqSource where
  | port (n : Fin 4)
  | hitch
  | coil
  | serial (n : Fin 7)
  | radio
  | dma (c : Fin 8)
  | elog
  | i2c
  deriving DecidableEq, Repr

/-- A serial port's request: a W1C flag, a receive count at or above RXTHR, a transmit count at or below TXTHR of an enabled transmitter. -/
def Hw.serialIrq (h : Hw) (n : Nat) : Bool :=
  let flags := match regAt (UART_STAT n) with
    | some (d, _) => (h.reg (UART_STAT n)).toNat &&& d.w1c
    | none => 0
  flags != 0 || decide (max 1 (h.rf (UART_FIFO_RXTHR n)) ≤ (h.serial n).rx.length) ||
    (h.txOn n && decide ((h.serial n).tx.length ≤ h.rf (UART_FIFO_TXTHR n)))

/-- A block raises its request now; a HALTED channel always does (17.3). -/
def Hw.irq (h : Hw) : IrqSource → Bool
  | .port n => h.reg (SP_EVT n.val) != 0
  | .hitch => h.reg HITCH_EVT != 0
  | .coil => h.on COIL_STAT_DONE || h.on COIL_STAT_REFUSED || h.on COIL_STAT_ABORTED
  | .serial n => h.serialIrq n.val
  | .radio => h.on RADIO_CMDST_QFULL || h.on RADIO_CMDST_CMD_ERR || h.on RADIO_CMDST_DOVF || !h.radio.done.isEmpty
  | .dma c => (h.on (DMA_CTRL_DONE_IE c.val) && h.on (DMA_STAT_DONE c.val)) || h.rf (DMA_STAT_STATE c.val) == 2
  | .elog => h.on ELOG_STAT_NEW || h.on ELOG_STAT_LOSTF
  | .i2c => h.on I2C_STAT_DONE || h.on I2C_STAT_NACK || h.on I2C_STAT_ARBLOST || h.on I2C_STAT_TIMEOUT

/-- The sources, in order. -/
def irqSources : List IrqSource :=
  (List.finRange 4).map .port ++ [.hitch, .coil] ++ (List.finRange 7).map .serial ++ [.radio] ++ (List.finRange 8).map .dma ++ [.elog, .i2c]

/-- Some block raises a request. -/
def Hw.irqRaised (h : Hw) : Bool := irqSources.any h.irq

end Sys2Proof.Machine
end

