-- ==== Sys2Proof/Machine/Power.lean ====
section
/-! DEFINITION. Performance levels, Stop, Slack entry, wake, and the domains woken on demand (14.2 to 14.6). -/

namespace Sys2Proof.Machine

/-! ### Performance levels (R617 to R620) -/

/-- PL_TARGET_WRITE: a write of PWR_PL. -/
def Hw.plTarget (h : Hw) (v : Nat) : Hw :=
  let t := bits v 0 2
  let cur := h.rf PWR_PL_CURRENT
  let h := if bit v 5 then h.sf PWR_PL_REFUSED 0 else h
  let tooSmall := decide (4 * h.fabCapacity t < h.trackLoad)
  if (h.fuses.part = .ak512 ∧ t ≠ 3) ∨ h.on PWR_PL_BUSY ∨ (t < cur ∧ tooSmall) then h.sf PWR_PL_REFUSED 1
  else if t = cur then h.sf PWR_PL_TARGET t
  else
    let h := (h.sf PWR_PL_TARGET t).sf PWR_PL_BUSY 1
    if t < cur then h.sf PWR_PL_CURRENT t else h

/-- PL_CHANGE_COMPLETE: the voltage has slewed, and the divisor has switched (R618). -/
def Hw.plDone (h : Hw) : Hw :=
  if h.on PWR_PL_BUSY then (h.sf PWR_PL_CURRENT (h.rf PWR_PL_TARGET)).sf PWR_PL_BUSY 0 else h

/-! ### The Slack conditions (R624, Table 14.3) -/

/-- FABRIC_BUSY. -/
def Hw.fabricBusy (h : Hw) : Bool :=
  (h.strandList.any fun p => p.2.state != .idle) || !h.loop.ready.isEmpty ||
    ((upTo 8).any fun c => (h.core c).run.isSome || !(h.core c).saved.isEmpty) ||
    ((upTo 4).any fun n => h.portState n != 0) || h.coilState != coilEmpty

/-- DMA_ACTIVE: a channel is running, or halted with a residual count. -/
def Hw.dmaActive (h : Hw) : Bool :=
  (upTo 8).any fun c => h.rf (DMA_STAT_STATE c) == 1 || (h.rf (DMA_STAT_STATE c) == 2 && h.rf (DMA_CNT_COUNT c) != 0)

/-- The condition with an ID of Table 14.3 holds. -/
def Hw.slackCond (h : Hw) (id : Nat) : Bool :=
  match id with
  | 1 => h.fabricBusy
  | 2 => h.dmaActive || !h.hitch.copies.isEmpty
  | 3 => h.rf RADIO_STAT_STATE != 0 || !h.radio.queue.isEmpty
  | 4 => h.upd.state != 0 || h.upd.splicing.isSome || h.rf UPD_STAT_PHASE == 2
  | 5 => !(h.can 0).tx.isEmpty || !(h.can 1).tx.isEmpty
  | 6 => h.rf LYD_SESS_STATE != 0
  | 7 => h.memu.test.isSome || h.memu.repair.isSome
  | 8 => (h.rf WAKE_FLAG_SRC &&& h.rf WAKE_EN_SRC) != 0
  | 9 => h.on HSPI_CFG_WIN_EN
  | 10 => h.memu.wipe.isSome
  | _ => false

/-- The conditions that hold, lowest first. -/
def Hw.slackConds (h : Hw) : List Nat := (List.range 11).filter h.slackCond

/-! ### Stop (R621 to R623) -/

/-- STOP_REQUEST: a write of PWR_STOP. -/
def Hw.stopRequest (h : Hw) (v : Nat) : Hw :=
  let h := if bit v 1 then h.sf PWR_STOP_REFUSED 0 else h
  if !bit v 0 ∨ h.pwr.state ≠ .run then h
  else if h.slackCond 1 then (h.sf PWR_STOP_REFUSED 1).sf PWR_STOP_ID 1
  else if h.slackCond 2 then (h.sf PWR_STOP_REFUSED 1).sf PWR_STOP_ID 2
  else if h.irqRaised then h      -- a request that is raised already ends Stop at once
  else { h with pwr := { h.pwr with state := .stop } }

/-- Stop ends. -/
def Hw.stopEnd (h : Hw) : Hw := if h.pwr.state = .stop then { h with pwr := { h.pwr with state := .run } } else h

/-- STOP_EXIT (R623): an interrupt request, or a wake flag that is enabled. -/
def Hw.stopExit (h : Hw) : Hw := if h.irqRaised ∨ h.rf WAKE_FLAG_SRC &&& h.rf WAKE_EN_SRC ≠ 0 then h.stopEnd else h

/-! ### What Slack keeps (Table 14.5) -/

/-- The registers of the save area: address and the bits saved. -/
def savedRegs : List (Nat × Nat) :=
  [(SPORT_CTRL, 0xFF0700), (TSPI_CFG, 0xFFFFFFFF), (TSPI_GAIN, 0xFFFFFFFF), (TSPI_GWIN, 0xFFFFFFFF), (COIL_CTRL, 0xFFFF), (FAB_CTRL, 0xFFFFFFFF),
   (HITCH_CTRL, 0xFFFFFFFF), (HITCH_COPY, 0xFFFFFFFF), (TP_CFG, 0xFFFFFFFE), (TP_PER_I, 0xFFFFFFFF), (TP_PER_F, 0xFFFFFFFF), (TP_LIM, 0xFFFFFFFF),
   (TP_UNCRATE, 0xFFFFFFFF), (TP_UNCACC, 0xFFFFFFFF), (TM_CFG, 0xFFFFFFFF), (LOOP_CTRL, 0xFFFFFFFF), (LOOP_MPCFG, 0xFFFFFFFF), (LOOP_BSYNC, 0xFFFFFFFF)] ++
  [(RADIO_CTRL, 3), (RADIO_LIM, 0xFFFFFFFF), (RADIO_CHMASK_LO, 0xFFFFFFFF), (RADIO_CHMASK_HI, 0xFFFFFFFF), (RADIO_COEX, 0xFFFFFFFF),
   (RADIO_CSCFG, 0xFFFFFFFF), (HSPI_CFG, 0xFFFFFFFF), (SSPI_CFG, 0xFFFFFFFF), (I2C_CFG, 0xFFFFFFFF), (I2C_TIM, 0xFFFFFFFF), (MEM_CTRL, 0xFFFFFFFF),
   (MEM_THCMD, 0x100), (MEM_THSTAT, 0xFFFFFFFF), (MPU_CTRL, 0xFFFFFFFF), (ELOG_CTRL, 0xFFFF), (ELOG_STAT, 0xFFFFFFFF), (ELOG_TOTAL, 0xFFFFFFFF),
   (ELOG_LOSTALL, 0xFFFFFFFF), (BGND_CTRL, 0xFFFFFFFF), (SYS_WDOG, 0xFFFFFFFF)] ++
  (upTo 4).flatMap (fun n => [(SP_CFG n, 0xFFFFFFFF), (SP_RING n, 0xFFFFFFFF), (SP_QNT n, 0xFFFFFFFF), (SP_NOTCH0 n, 0xFFFFFFFF),
    (SP_NOTCH1 n, 0xFFFFFFFF), (SP_MON n, 0xFF), (SP_OFS n, 0xFFFFFFFF), (LOOP_LO n, 0xFFFFFFFF)]) ++
  (upTo 16).flatMap (fun n => [(LOOP_KSLOT_RANGE n, 0xFFFFFFFF), (LOOP_KSLOT_CFG n, 0xFFFF), (MPU_RBASE n, 0xFFFFFFFF), (MPU_RLIM n, 0xFFFFFFFF),
    (MPU_RATTR n, 0xFFFFFFFF)]) ++
  (upTo 7).flatMap (fun n => [(UART_CFG n, 0xFFFFFFFF), (UART_RATE n, 0xFFFFFFFF), (UART_FIFO n, 0x3FFFFF)]) ++
  (upTo 6).map (fun n => (UART_FMT n, 0xFFFFFFFF)) ++
  (upTo 2).flatMap (fun n => [(UART_SLOW n, 0xFFFF7), (UART_SRATE n, 0xFFFFFFFF)]) ++
  (upTo 2).flatMap (fun n => [(CAN_CFG n, 0xFFFFFFFF), (CAN_NQ n, 0xFFFFFFFF), (CAN_NSEG n, 0xFFFFFFFF), (CAN_DQ n, 0xFFFFFFFF),
    (CAN_DSEG n, 0xFFFFFFFF), (CAN_XPRE n, 0xFFFFFFFF)]) ++
  (upTo 18).map (fun u => (MEM_SCTL u, 3)) ++ (upTo 8).map (fun i => (ELOG_LOST i, 0xFFFFFFFF)) ++
  (upTo 256).map fun i => (0x40090400 + 4 * i, 0xFFFFFFFF)

/-- The values of those registers that differ from the Reset column, as the save area holds them. -/
def Hw.saveRegs (h : Hw) : List (Nat × Nat) :=
  savedRegs.filterMap fun (a, m) =>
    let v := ((resetOf a).toNat &&& (0xFFFFFFFF ^^^ m)) ||| ((h.reg a).toNat &&& m)
    if v = (resetOf a).toNat then none else some (a, v)

/-- The saved bits of the register at `a` come back; its other bits stay as they are (Table 14.5). -/
def Hw.restoreBits (h : Hw) (a v : Nat) : Hw :=
  let m := ((savedRegs.find? (·.1 == a)).map (·.2)).getD 0
  h.setReg a (BitVec.ofNat 32 (((h.reg a).toNat &&& (0xFFFFFFFF ^^^ m)) ||| (v &&& m)))

/-- The saved registers whose address satisfies `p` come back. -/
def Hw.restoreSaved (h : Hw) (p : Nat → Bool) : Hw :=
  forEach (fun x h => h.restoreBits x.1 x.2) (h.pwr.saved.filter fun x => p x.1) h

/-! ### Slack entry (R624 to R629) -/

/-- The counter of a condition in PWR_SLKTALLY. -/
def slackTally (id : Nat) : Fld := if id % 2 = 1 then PWR_SLKTALLY_CNT_LO ((id - 1) / 2) else PWR_SLKTALLY_CNT_HI ((id - 1) / 2)

/-- A refusal at AP1 or an abandonment at a later abort point (R626, R627). -/
def Hw.slackTurn (h : Hw) (ap : Nat) (held : List Nat) : Hw :=
  let id := held.foldl min 10
  let h := h.bump (slackTally id)
  let h := h.bump (if ap = 1 then PWR_SLKSUM_REFUSED else PWR_SLKSUM_ABANDONED)
  let h := ((h.sf PWR_SLKLAST_OUTCOME (if ap = 1 then 1 else 2)).sf PWR_SLKLAST_AP ap).sf PWR_SLKLAST_ID id
  h.sf PWR_SLKLAST_MASK ((upTo 10).foldl (fun m k => m + (if held.contains (k + 1) then pow2 k else 0)) 0)

/-- What Slack entry leaves of the units: Retention, with the canaries written, or Off (R400, R404, R420). -/
def Hw.unitsToSlack (h : Hw) : Hw :=
  forEach (fun u h =>
    let st := h.unitState u
    if u = 17 ∨ st = unitRetired then h
    else if 15 ≤ u ∨ (st = unitIsOn ∧ h.on (MEM_SCTL_SLACK_RET u)) then
      { h with pwr := { h.pwr with retained := h.pwr.retained ++ [u] } }.canaries u
    else h.fillUnit u) (upTo 18) h

/-- The unit registers that show hardware facts (FAILING, SPARES_USED, RETIRED) and the state of each unit. -/
def Hw.showUnits (h : Hw) (old : Hw) (st : Nat → Nat) : Hw :=
  forEach (fun u h =>
    let h := (h.sf (MEM_SCTL_FAILING u) (old.rf (MEM_SCTL_FAILING u))).sf (MEM_SCTL_SPARES_USED u) (old.rf (MEM_SCTL_SPARES_USED u))
    let h := h.sf (MEM_SBANK_RETIRED u) (old.rf (MEM_SBANK_RETIRED u))
    h.setUnit u (if old.unitState u = unitRetired then unitRetired else st u)) (upTo 18) h

/-- The core domain as Slack leaves it: reset, but for what the save area, the retained units and the firmware area of unit 17 keep (R404, R630,
R631). -/
def Hw.slackClear (h : Hw) (saved : List (Nat × Nat)) : Hw :=
  let c := h.coreClear
  { c with
    pwr := { h.pwr with state := .slack, saved := saved }, memu := { c.memu with canary := h.memu.canary }, elogQ := h.elogQ,
    sys := { h.sys with wdLimit := 0 }, fw := h.fw, hot := { h.hot with hot := false }, sched := h.sched,
    pkey := { c.pkey with revoked := h.pkey.revoked, zones := h.pkey.zones, last := h.pkey.last },
    upd := h.upd, lyd := h.lyd, fix := h.fix }

/-- Port n stays in slow reception through Slack (R531, R534): `old` is the part before. -/
def Hw.slackSerial (h old : Hw) (n : Nat) : Hw :=
  let s := old.serial n
  let h := h.setSerial n { Serial.reset with slow := s.slow, rxFmt := s.rxFmt, txFmt := s.txFmt }
  let h := h.setReg (UART_SRATE n) (old.reg (UART_SRATE n))
  ((h.setReg (UART_SLOW n) (old.reg (UART_SLOW n))).setReg (UART_FMT n) (old.reg (UART_FMT n))).setReg (UART_CFG n) (old.reg (UART_CFG n))

/-- What Fofiys firmware has done before a Slack entry: the save that is due (R326), and the countdown loaded (R594). -/
def Hw.slackReady (h : Hw) : Hw := if h.fwUp then (h.hsSave h.hot.live).loadCountdown else h

/-- Slack is entered (Table 14.4, steps 3 to 7). -/
def Hw.slackEnter (h : Hw) : Hw :=
  let h := h.slackReady
  let h := (h.sf PWR_SLKLAST_OUTCOME 3).bump PWR_SLKDONE_COMPLETED
  let h := ((h.sf PWR_SLKLAST_AP 0).sf PWR_SLKLAST_ID 0).sf PWR_SLKLAST_MASK 0
  let saved := h.saveRegs
  let h := forEach (fun _ h => h.mramDone) (upTo 17) h
  let old := ((h.slowEnter 0).slowEnter 1).unitsToSlack
  let h := ((old.slackClear saved).slackSerial old 0).slackSerial old 1
  let h := h.setReg SYS_BOOT (old.reg SYS_BOOT)
  let h := (h.sf UPD_STAT_SLOT (old.rf UPD_STAT_SLOT)).sf UPD_STAT_PREV (old.rf UPD_STAT_PREV)
  let h := h.showUnits old fun u => if u = 17 then unitIsOn else if h.pwr.retained.contains u then unitRetention else unitOff
  (h.showLifecycle.sf PWR_DOM_STATE 0).sf PWR_DOM_STALLS (h.rf PWR_DOM_STALLS)

/-- SLACK_REQUEST: a write of PWR_SLKREQ. `ap` and `held` say at which later abort point conditions come to hold, and which (AP2 to AP5; 0 for
none). -/
def Hw.slackRequest (h : Hw) (v ap : Nat) (held : List Nat) : Hw :=
  if !bit v 0 ∨ h.pwr.state ≠ .run then h
  else
    let h := h.plDone
    let now := h.slackConds
    let held := held.filter fun i => decide (1 ≤ i) && decide (i ≤ 10)
    if now ≠ [] then h.slackTurn 1 now
    else if 2 ≤ ap ∧ ap ≤ 5 ∧ held ≠ [] then
      let h := if 4 ≤ ap then (((h.slowEnter 0).slowEnter 1).slowExit 0).slowExit 1 else h
      h.slackTurn ap held
    else h.slackEnter

/-! ### Wake (R632 to R637) -/

/-- The in-force rate and format of a port follow its restored registers (R526). -/
def Hw.serialRestore (h : Hw) (n : Nat) : Hw :=
  let r := (h.reg (UART_RATE n)).toNat
  let f := h.fmtReg n
  let s := h.serial n
  h.setSerial n { s with txRate := r, txFmt := f, rxRate := r, rxFmt := f }

/-- The sessions after a wake start anew at PUBLIC, with the subscriptions of the Wowell links gone (assumption log 35). -/
def Hw.wakeLinks (h : Hw) : Hw :=
  let subs := (h.fw.subs.filter fun s => decide (8 ≤ s.link)).map fun s => { s with sentAt := none, since := 0 }
  { h with fw := { h.fw with links := [], requests := [], subs := subs, hspiOut := [], hspiCs := false, hspiPart := 0, started := 0, wsAt := none,
                             journal := { h.fw.journal with lastCompact := some 0 } } }

/-- The cells of these banks have lost their content: their canaries differ (R421). -/
def Hw.cellsLost (h : Hw) (lost : List (Nat × Nat)) : Hw :=
  forEach (fun x h => if x.1 < 17 ∧ x.2 < unitBanks x.1 then h.setCanary x.1 x.2 0 else h) lost h

/-- The check or fill of unit u at wake step 6 (R421 to R423, R633): units 0 to 6 become available with their domain. -/
def Hw.wakeUnit (h : Hw) (u : Nat) : Hw :=
  if h.unitState u = unitRetired ∨ u = 17 then h
  else if h.pwr.retained.contains u then
    let bad := h.lostBanks u
    let h := h.retentionCheck u
    let h := if bad ≠ [] then
        let m := h.rf PWR_WAKEINFO_RETLOST
        h.sf PWR_WAKEINFO_RETLOST (if bit m u then m else m + pow2 u)
      else h
    if u < 7 then h.setUnit u (if bad = [] then unitRetention else unitOff) else h
  else if u < 7 ∨ h.on (MEM_SCTL_RUN_OFF u) then h
  else (h.fillUnit u).setUnit u unitIsOn

/-- The stripe that holds the live record: the lowest navigation-controller stripe that was in Retention (DESIGN CHOICE, assumption log 110). -/
def Hw.liveStripe (h : Hw) : Option Nat := ((upTo 8).map (7 + ·)).find? (h.pwr.retained.contains ·)

/-- HOT_START_LOAD and START_CLASSIFY at a wake (R325, R327 to R329): from the live record where its stripe kept it, otherwise from the store, with
an error-log entry of the firmware where a stripe lost it. -/
def Hw.wakeStart (h : Hw) (kept : Bool) (facts : HotFacts) : Hw :=
  if kept then h.setHot { h.hot with hot := true, facts := some facts, class_ := h.startClass true facts }
  else
    let h := match h.liveStripe with
      | some u => h.report 3 3 0 0 u
      | none => h
    h.hotLoad facts

/-- The wake of Table 14.7, from a qualified and enabled source, with the check of the save area (R632). -/
def Hw.wakeUp (h : Hw) (src : Nat) (saveOk : Bool) (lost : List (Nat × Nat)) (facts : HotFacts) (wipeBad : Nat) : Hw :=
  let h := (h.sf WAKE_FIRST_SRC src).sf WAKE_FIRST_VALID 1
  if !saveOk then h.coreReset 9
  else
    let wiped := h.memu.wipe.isSome
    let h := { h with pwr := { h.pwr with state := .run }, tcnt := 0 }
    let h := h.planWake
    let h := h.restoreSaved fun a => (domainOf a).isNone && !(a == MEM_SCTL 17)
    let h := h.wdRestart
    let h := forEach (fun n h => h.serialRestore n) (upTo 7) h
    let h := forEach (fun n h => if h.on (CAN_CFG_EN n) then h else h.sf (CAN_STAT_STATE n) 3) (upTo 2) h
    let h := h.cellsLost lost
    let kept := match h.liveStripe with | some u => (h.lostBanks u).isEmpty | none => false
    let h := forEach (fun u h => h.wakeUnit u) (upTo 18) h
    let h := (if wiped then h.wipeWhole wipeBad else h).sf RTC_STAT_SYNCV 0
    let h := (h.wakeBuffer 0).wakeBuffer 1
    let h := (h.sf SYS_BOOT_WAKE 1).wakeLinks.logTampers
    h.wakeStart kept facts

/-- WAKE_SOURCE_QUALIFIED (R634, R635, R623): the flag is set, and an enabled source ends Stop or Slack. -/
def Hw.wakeSource (h : Hw) (src : Nat) (saveOk : Bool) (lost : List (Nat × Nat)) (facts : HotFacts) (wipeBad : Nat) : Hw :=
  if h.pwr.state = .backup then h
  else
    let h := h.flagSource src
    if !bit (h.rf WAKE_EN_SRC) src then h
    else match h.pwr.state with
      | .stop => h.stopEnd
      | .slack => h.wakeUp src saveOk lost facts wipeBad
      | _ => h

/-- A tamper event asks for the wipe, in Backup only at the next boot (R429, R432, R677). -/
def Hw.tamperWipe (h : Hw) (tamper : Bool) (n : Nat) : Hw :=
  if !tamper ∨ h.pwr.state = .backup then h
  else if h.pwr.state = .slack then h.slackWipe wipeTamper n
  else h.wipeRequest wipeTamper n

/-! ### Domains woken on demand (R638 to R641) -/

/-- DOMAIN_WAKE: the first access to domain d. -/
def Hw.domainWake (h : Hw) (d : Nat) : Hw :=
  if h.domState d = 0 ∧ h.pwr.state = .run then { h.wakeDomain d with resp := .stalled } else h

/-- A unit of a domain becomes available: after its fill, or with its content (R400). -/
def Hw.domainUnit (h : Hw) (u : Nat) : Hw :=
  if h.unitState u = unitRetired ∨ h.on (MEM_SCTL_RUN_OFF u) then h
  else if h.unitState u = unitRetention then h.setUnit u unitIsOn
  else if h.unitState u = unitOff then (h.fillUnit u).setUnit u unitIsOn
  else h

/-- DOMAIN_READY: the work of Table 14.8 is done (R638, R640). -/
def Hw.domainReady (h : Hw) (d : Nat) : Hw :=
  if h.domState d ≠ 1 then h
  else
    let h := (h.setDom d 2).restoreSaved fun a => domainOf a == some d
    match d with
    | 0 => ({ h with hitch := { h.hitch with rate := h.rf HITCH_CTRL_RATE } }.domainUnit 4).initScan
    | 1 =>
      let kept := h.unitState 6 = unitRetention ∧ h.rf (MEM_SBANK_RETLOST 6) = 0
      let h := (h.domainUnit 5).domainUnit 6
      if kept then h else if h.sys.fwRunning && !h.sys.noFabric then h.slotsEmpty.loadKernels else h.slotsEmpty
    | 2 => forEach (fun u h => h.domainUnit u) (upTo 4) h
    | _ => h

end Sys2Proof.Machine
end

