-- ==== Sys2Proof/Machine/Session.lean ====
section
/-! DEFINITION. Sessions of the Wowell links (R452) and the Lanyard service port (11.9): opening, keeping, ending, rates. -/

namespace Sys2Proof.Machine

/-- The subscriptions of link l end (R471). -/
def Hw.dropSubs (h : Hw) (l : Nat) : Hw := { h with fw := { h.fw with subs := h.fw.subs.filter fun (x : Sub) => x.link != l } }

/-- The session of link l falls back to PUBLIC, and its subscriptions end (R452, R471). -/
def Hw.fallBack (h : Hw) (l : Nat) : Hw := (h.setLink l { h.link l with role := 0 }).dropSubs l

/-- The image transfer is abandoned (R687). -/
def Hw.transferAbandon (h : Hw) : Hw := { h with upd := { h.upd with state := 0, next := 0, blocks := 0, bytes := 0 } }

/-- The Lanyard session ends (R540): the role, the subscriptions and the segmented transfers end, a transfer begun in it is abandoned (R687), and
the port returns to 115 200 baud. -/
def Hw.lydEnd (h : Hw) : Hw :=
  if h.rf LYD_SESS_STATE = 0 then h
  else
    let h := (h.fallBack 7).transferAbandon
    let h := h.setLink 7 { h.link 7 with segs := [] }
    let h := h.setReg LYD_SESS 0
    let h := { h with lyd := { h.lyd with rateAt := none, ratePend := none } }
    h.uartShadow 6 (UART_RATE 6) 10485763

/-- A frame outside or across sessions is counted (R538, R541). -/
def Hw.noSession (h : Hw) : Hw := h.bump LYD_TALLY_NOSESS

/-- A frame that carries session ID `sid` belongs to the open session (R541). -/
def Hw.inSession (h : Hw) (sid : Nat) : Bool := h.rf LYD_SESS_STATE != 0 && h.rf LYD_SESS_SID == sid

/-- A valid frame has come in the open session (R540, R542). -/
def Hw.lydValid (h : Hw) : Hw :=
  let h := { h with lyd := { h.lyd with last := h.tcnt } }
  if h.lyd.rateAt.isSome then { h with lyd := { h.lyd with rateAt := none } }.sf LYD_SESS_STATE 1 else h

/-- ATTACH (R539): a session with a new ID opens; one that is open ends first. The ID counts up from the last one used. -/
def Hw.lydAttach (h : Hw) : Hw :=
  let h := h.lydEnd
  let sid := (h.lyd.sid + 1) % 256
  let h := { h with lyd := { h.lyd with sid := sid, since := h.tcnt, last := h.tcnt, service := 0 } }
  let h := (h.sf LYD_SESS_STATE 1).sf LYD_SESS_SID sid
  h.wowellSend 7 0x21 (sid :: leBytes 8 h.fuses.unique ++ [h.fuses.lifecycle])

/-- KEEP (R540, R541). -/
def Hw.lydKeep (h : Hw) (sid : Nat) : Hw := if h.inSession sid then h.lydValid else h.noSession

/-- DETACH (R540, R541). -/
def Hw.lydDetach (h : Hw) (sid : Nat) : Hw := if h.inSession sid then h.lydEnd else h.noSession

/-- Characters that wait on serial port 6 or are on its wire. -/
def Hw.lydBacklog (h : Hw) : Nat :=
  let s := h.serial 6
  s.tx.length + b2n s.cur.isSome + (h.link 7).out.length

/-- RATE (R542): answered with RATE_ACK; an accepted rate takes effect after the last character of the answer. -/
def Hw.lydRate (h : Hw) (sid inc mod : Nat) : Hw :=
  if !h.inSession sid then h.noSession
  else
    let h := h.lydValid
    let v := inc % 65536 + 65536 * (mod % 65536)
    let ok := rateOk 6 v
    let h := h.wowellSend 7 0x25 [sid, b2n (!ok)]
    if ok then { h with lyd := { h.lyd with ratePend := some (v, h.lydBacklog) } }.sf LYD_SESS_STATE 2 else h

/-- A character of port 6 is complete; after the last of RATE_ACK the new rate takes effect (R526, R542). -/
def Hw.lydSent (h : Hw) : Hw :=
  match h.lyd.ratePend with
  | none => h
  | some (v, k) =>
    if 1 < k then { h with lyd := { h.lyd with ratePend := some (v, k - 1) } }
    else
      let h := { h with lyd := { h.lyd with ratePend := none, rateAt := some h.tcnt } }
      h.uartShadow 6 (UART_RATE 6) v

/-- UART_CHAR_SENT on any port. -/
def Hw.charSent (h : Hw) (n d : Nat) (par stop noise cts : Bool) : Hw :=
  if n = 6 ∧ (h.serial 6).cur.isSome then h.lydSent.uartSent 6 d par stop noise cts else h.uartSent n d par stop noise cts

/-- LYD_SESSION_TIMEOUT (R540). -/
def Hw.lydTimeout (h : Hw) : Hw := if h.rf LYD_SESS_STATE = 0 then h else (h.reach (h.lyd.last + 2 * secondTicks)).lydEnd

/-- LYD_RATE_TIMEOUT (R542). -/
def Hw.lydRateTimeout (h : Hw) : Hw :=
  match h.lyd.rateAt with
  | none => h
  | some t => (h.reach (t + secondTicks)).lydEnd

/-- SERVICE_ROLE_EXPIRY (R543). -/
def Hw.serviceExpiry (h : Hw) : Hw :=
  if (h.link 7).role = 2 then
    let h := h.reach (h.lyd.service + 3600 * secondTicks)
    (h.setLink 7 { h.link 7 with role := 0 }).sf LYD_SESS_ROLE 0
  else h

/-- SESSION_TIMEOUT (R452): the session of a Wowell link falls back; that of the Lanyard port ends (R540). -/
def Hw.sessionTimeout (h : Hw) (l : Nat) : Hw :=
  if 8 ≤ l ∨ !h.fwUp then h
  else
    let h := h.reach ((h.link l).lastReq + 300 * secondTicks)
    if l = 7 then h.lydEnd else h.fallBack l

/-- LYD_SESS as it reads: AGE counts the seconds since ATTACH while a session is open. -/
def Hw.lydSess (h : Hw) : Nat :=
  let v := (h.reg LYD_SESS).toNat
  if h.rf LYD_SESS_STATE = 0 then v else LYD_SESS_AGE.insert v (satTo 65535 ((h.tcnt - h.lyd.since) / secondTicks))

end Sys2Proof.Machine
end

