-- ==== Sys2Proof/Machine/PhoneKey.lean ====
section
/-! DEFINITION. The phone key (chapter 13): tokens and proofs, bonds, ranging, the access decision, its actions, and the output pulses. -/

namespace Sys2Proof.Machine

/-- The part with the phone-key service changed. -/
def Hw.setPkey (h : Hw) (p : PKey) : Hw := { h with pkey := p }

/-! ### Output pulses (R611, R612) -/

/-- The flag of an output: 0 UNLOCK_OUT, 1 LOCK_OUT. -/
def outAct (i : Nat) : Fld := if i = 0 then PKEY_OUTSTAT_UNL_ACT else PKEY_OUTSTAT_LCK_ACT

/-- A pulse starts. -/
def Hw.pulseStart (h : Hw) (i : Nat) : Hw := (h.sf (outAct i) 1).bump PKEY_OUTSTAT_PULSES

/-- A command for output i (R611). -/
def Hw.outCommand (h : Hw) (i : Nat) : Hw :=
  if h.on (outAct i) then h.sf PKEY_OUTSTAT_IGNORED 1
  else if h.on (outAct (1 - i)) ∨ h.pkey.start.isSome then (h.sf (outAct (1 - i)) 0).setPkey { h.pkey with start := some i }
  else h.pulseStart i

/-- A write of PKEY_OUTCMD: UNLOCK, then LOCK. -/
def Hw.outWrite (h : Hw) (v : Nat) : Hw :=
  let h := if bit v 0 then h.outCommand 0 else h
  if bit v 1 then h.outCommand 1 else h

/-- PKEY_PULSE_END: PULSE_MS after its start. -/
def Hw.pulseEnd (h : Hw) (i : Nat) : Hw := h.sf (outAct i) 0

/-- PKEY_PULSE_DELAYED_START: 10 ms after the other output was ended. -/
def Hw.pulseDelayed (h : Hw) : Hw :=
  match h.pkey.start with
  | none => h
  | some i => (h.setPkey { h.pkey with start := none }).pulseStart i

/-- PULSE_MS as it acts. -/
def Hw.pulseMs (h : Hw) : Nat := max 10 (min 2000 (h.rf PKEY_OUTCFG_PULSE_MS))

/-! ### Connections, messages and outcomes (R592, R595, R603, R608, R613) -/

/-- Connection k. -/
def Hw.conn (h : Hw) (k : Nat) : Option PhoneConn := (h.pkey.conns.find? fun c => c.1 == k).map (·.2)

/-- The part with connection k changed. -/
def Hw.setConn (h : Hw) (k : Nat) (c : PhoneConn) : Hw := h.setPkey { h.pkey with conns := Store.insert k c h.pkey.conns }

/-- PKEY_CONNECTION_END. -/
def Hw.connEnd (h : Hw) (k : Nat) : Hw := h.setPkey { h.pkey with conns := Store.erase k h.pkey.conns }

/-- A message to the phone of connection k. -/
def Hw.phoneSend (h : Hw) (k : Nat) (msg : List Nat) : Hw := h.setPkey { h.pkey with sent := (k, msg) :: h.pkey.sent }

/-- TOKEN_ID of a connection's token, 0 without one. -/
def PhoneConn.tokenId (c : PhoneConn) : Nat := leNat ((c.token.drop 8).take 4)

/-- The RESULT message of an outcome (Table 13.1). -/
def resultMsg (outcome dist id : Nat) : List Nat := [5, outcome] ++ leBytes 2 dist ++ leBytes 4 id

/-- An outcome from 0x11 to 0x15 (R613): logged, reported to the phone, and at the third on a connection the connection ends and its address is
barred. -/
def Hw.strike (h : Hw) (k outcome id : Nat) : Hw :=
  match h.conn k with
  | none => h
  | some c =>
    let h := (h.report 0xB outcome 0 0 id).phoneSend k (resultMsg outcome 0 id)
    let h := h.setConn k { c with strikes := c.strikes + 1 }
    if c.strikes + 1 < 3 then h
    else
      let h := h.connEnd k
      h.setPkey { h.pkey with bars := Store.insert c.addr h.tcnt h.pkey.bars }

/-- The identity address is barred (R613). -/
def Hw.addrBarred (h : Hw) (a : Nat) : Bool := h.pkey.bars.any fun b => b.1 == a

/-- PKEY_BAR_EXPIRY. -/
def Hw.barExpiry (h : Hw) (a : Nat) : Hw :=
  match h.pkey.bars.find? fun b => b.1 == a with
  | none => h
  | some b =>
    let h := h.reach (b.2 + 60 * secondTicks)
    h.setPkey { h.pkey with bars := Store.erase a h.pkey.bars }

/-- The keys that the phone key needs are there (R593). -/
def Hw.pkeyKeys (h : Hw) : Bool :=
  (h.keyWithId 0x0300).isSome && h.unitState 15 != unitRetired && h.unitState 16 != unitRetired && !h.on MEM_THSTAT_TAMPER_LOCKED

/-- The phone of a connection is authenticated (R598). -/
def PhoneConn.auth (c : PhoneConn) : Bool := c.bond.isSome && c.proved

/-! ### Tokens and proofs (R596 to R599) -/

/-- Check 1 of R597. -/
def tokenFormat (t : List Nat) : Bool :=
  let num := fun (o n : Nat) => leNat ((t.drop o).take n)
  t.length == 128 && num 0 4 == 0x42544B01 && num 4 1 == 1 && num 6 2 == 0 && num 0x1E 2 == 0 && num 8 4 != 0 && decide (num 0x14 4 < num 0x18 4)

/-- The outcome of the first check of R597 that a TOKEN fails; none when it passes. -/
def Hw.tokenCheck (h : Hw) (t key : List Nat) : Option Nat :=
  let num := fun (o n : Nat) => leNat ((t.drop o).take n)
  if !tokenFormat t then some 0x11
  else if num 0x0C 8 ≠ h.fuses.unique then some 0x12
  else match h.keyWithId 0x0300 with
    | none => some 0x1B
    | some op =>
      if !Config.signatureOk op (t.take 64) ((t.drop 64).take 32) ((t.drop 96).take 32) then some 0x13
      else if h.pkey.revoked.contains (num 8 4) then some 0x14
      else if Config.sha256 key ≠ (t.drop 32).take 32 then some 0x15
      else none

/-- A connection that has just opened. -/
def PhoneConn.opened (addr : Nat) (bond : Option Nat) : PhoneConn := ⟨addr, bond, [], [], [], 0, false, 0, false, 0, 0, false⟩

/-- The bond of an identity address. -/
def Hw.bondOf (h : Hw) (addr : Nat) : Option Nat := (h.pkey.bonds.find? fun b => b.2.addr == addr).map (·.1)

/-- The connection that a message arrives on: open already, or opening now unless its address is barred. -/
def Hw.connOpen (h : Hw) (k addr : Nat) (enc : Bool) : Option PhoneConn :=
  match h.conn k with
  | some c => some c
  | none => if h.addrBarred addr then none else some (PhoneConn.opened addr (if enc then h.bondOf addr else none))

/-- A nonce: 16 bytes of free values. -/
def Hw.nonce (h : Hw) : List Nat × Hw :=
  let (ws, h) := h.freshWords 4
  (ws.flatMap (leBytes 4), h)

/-- PKEY_TOKEN (R597, R599): the phone with identity address `addr`, its link encrypted with the key of a bond when `enc`, sends a TOKEN. -/
def Hw.pkeyToken (h : Hw) (k addr : Nat) (enc : Bool) (msg : List Nat) : Hw :=
  if !h.fwUp then h
  else match h.connOpen k addr enc with
    | none => h.phoneSend k (resultMsg 0x1C 0 0)
    | some c =>
      let t := msg.take 128
      let key := msg.drop 128
      let c := { c with token := [], nonce := [], proved := false, count := 0, taken := false }
      match h.tokenCheck t key with
      | some code =>
        let id := leNat ((t.drop 8).take 4)
        let h := h.setConn k c
        if code = 0x1B then h.phoneSend k (resultMsg code 0 id) else h.strike k code id
      | none =>
        let (n, h) := h.nonce
        (h.setConn k { c with token := t, phoneKey := key, nonce := n, challengeAt := h.tcnt }).phoneSend k (2 :: n)

/-- PKEY_PROOF (R597). -/
def Hw.pkeyProof (h : Hw) (k : Nat) (sig : List Nat) : Hw :=
  match h.conn k with
  | none => h
  | some c =>
    if !h.fwUp ∨ c.nonce = [] then h
    else
      let msg := c.nonce ++ leBytes 8 h.fuses.unique ++ (c.token.drop 8).take 4
      let good := decide (h.tcnt ≤ c.challengeAt + 5 * secondTicks) && Config.signatureOk c.phoneKey msg (sig.take 32) (sig.drop 32)
      if good then h.setConn k { c with nonce := [], proved := true }
      else (h.setConn k { c with nonce := [] }).strike k 0x15 c.tokenId

/-- PKEY_PROOF_TIMEOUT (R597). -/
def Hw.proofTimeout (h : Hw) (k : Nat) : Hw :=
  match h.conn k with
  | none => h
  | some c =>
    if c.nonce = [] ∨ !h.fwUp then h
    else ((h.reach (c.challengeAt + 5 * secondTicks)).setConn k { c with nonce := [] }).strike k 0x15 c.tokenId

/-! ### Bonds (R589, R590, R442) -/

/-- A free entry of the key store. -/
def Hw.freeEntry (h : Hw) : Option Nat := (upTo 512).find? fun i => h.mramNum (keyEntry i) 4 != 0x4B530001

/-- The bytes of object 0x6111:(b + 2). -/
def Bond.bytes (b : Bond) : List Nat := leBytes 7 b.addr ++ leBytes 4 b.created

/-- PKEY_PAIRING_REQUEST: `entry` is the key-store entry that the key engine makes of the new key. -/
def Hw.pairing (h : Hw) (k : Nat) (entry : List Nat) : Hw :=
  match h.conn k with
  | none => h
  | some c =>
    if !h.fwUp ∨ !c.proved ∨ !bit (c.token.getD 5 0) 2 then h
    else match (upTo 8).find? fun b => !h.pkey.bonds.any fun (x : Nat × Bond) => x.1 == b with
      | none => h.phoneSend k (resultMsg 0x1A 0 c.tokenId)
      | some b =>
        match h.freeEntry with
        | none => h.sf MEM_KSTAT_FULL 1
        | some i =>
          let bond : Bond := ⟨c.addr, h.rtc.sec⟩
          match h.journalWrite 0x6111 (b + 2) bond.bytes with
          | (some _, h) => h
          | (none, h) =>
            let h := h.mramSet (keyEntry i) (entry.take 128)
            let h := h.setPkey { h.pkey with bonds := Store.insert b bond h.pkey.bonds }
            h.setConn k { c with bond := some b }

/-- BOND_DELETE: the bond's connection ends, its key entry is erased. -/
def Hw.bondDelete (h : Hw) (b : Nat) : Hw :=
  if !h.pkey.bonds.any fun (x : Nat × Bond) => x.1 == b then h
  else
    let h := forEach (fun k h => match h.conn k with
      | some c => if c.bond = some b then h.connEnd k else h
      | none => h) (upTo 4) h
    let h := h.setPkey { h.pkey with bonds := Store.erase b h.pkey.bonds }
    let h := forEach (fun i h => if h.keyWhole i && h.keyId i == 0x0400 + b then h.mramSet (keyEntry i) (List.replicate 128 0) else h) (upTo 512) h
    (h.journalDelete 0x6111 (b + 2)).2

/-! ### Actions (R609, R610) -/

/-- A granted action: 1 UNLOCK, 2 LOCK. -/
def Hw.act (h : Hw) (action source bond outcome id : Nat) : Hw :=
  let mode := h.obj 0x6110 5
  let can := h.obj 0x6110 6
  let h := if bit mode 0 && decide (can < 2) then h.canSend can fnAccess ([action, source, bond, outcome] ++ leBytes 4 id) none none else h
  if bit mode 1 then h.outCommand (action - 1) else h

/-- A remote command (R610): `source` 1 for an ACCESS frame, 2 for REMOTE_CMD; `fleet` says that its link has the rights. -/
def Hw.remote (h : Hw) (action source : Nat) (fleet : Bool) : Hw :=
  if action ≠ 1 ∧ action ≠ 2 then h
  else if h.obj 0x6110 7 = 1 ∧ fleet then h.act action source 0xFF (action - 1) 0
  else h.bump PKEY_OUTSTAT_REMIGN

/-- The role that a link carries (R452, R453): of a CAN link that of CANn_CFG. -/
def Hw.linkRole (h : Hw) (l : Nat) : Nat := if 8 ≤ l then h.rf (CAN_CFG_ROLE (l - 8)) else (h.link l).role

/-- ACCESS_FRAME_RECEIVED (R610): the frame at the head of a CAN receive FIFO. -/
def Hw.accessFrame (h : Hw) (n : Nat) : Hw :=
  let c := h.can n
  match c.rx with
  | (fn, d) :: rest =>
    if h.fwUp ∧ fn = fnAccess then (h.setCan n { c with rx := rest }).remote (d.getD 0 0) 1 (h.on (CAN_CFG_ROLE n)) else h
  | [] => h

/-! ### The decision (R593, R603 to R608) -/

/-- GNSS time, when it is available: TSTATE LOCKED or HOLDOVER. -/
def Hw.gnssTime (h : Hw) : Option Nat :=
  if h.rf TP_STAT_TSTATE = 0 then none else some (h.fix.time + (h.tcnt - h.fix.at_) / secondTicks)

/-- The outcome of the booking window (R604): 0 when it is open. -/
def Hw.window (h : Hw) (t : List Nat) : Nat :=
  let lo := leNat ((t.drop 0x14).take 4)
  let hi := leNat ((t.drop 0x18).take 4)
  let inside := fun (x : Nat) => decide (lo ≤ x) && decide (x ≤ hi)
  let r := h.rtc.sec
  match h.gnssTime with
  | some g =>
    if h.obj 0x6110 4 < (if r ≤ g then g - r else r - g) then 0x18
    else if inside r && inside g then 0 else 0x17
  | none => if h.on RTC_STAT_OSF then 0x18 else if inside r then 0 else 0x17

/-- The zone condition (R605). -/
def Hw.zoneOk (h : Hw) (t : List Nat) : Bool :=
  h.obj 0x6110 3 == 0 ||
    (!h.sys.noFabric && decide (h.fix.unc ≤ 50000) &&
      (h.pkey.zones.any fun z => decide (z.1 < 16) && z.2.en != 0 && bit (leNat ((t.drop 0x1C).take 2)) z.1 &&
        Config.insideCircle h.fix.lat h.fix.lon z.2.lat z.2.lon z.2.radius))

/-- The outcome of an unlock or lock: the first failing check (R593, R606, R607). -/
def Hw.outcome (h : Hw) (c : PhoneConn) (action : Nat) : Nat :=
  if !h.pkeyKeys then 0x1B
  else if !c.auth then 0x10
  else if !bit (c.token.getD 5 0) (action - 1) then 0x16
  else if h.window c.token ≠ 0 then h.window c.token
  else if action = 1 ∧ !h.zoneOk c.token then 0x19
  else action - 1

/-- The phone of connection k; one that has sent neither TOKEN nor PROOF is not authenticated. -/
def Hw.phone (h : Hw) (k : Nat) : PhoneConn := (h.conn k).getD (PhoneConn.opened 0 none)

/-- A decision (R608): the outcome to the phone and to LAST_DECISION, and the actions when it is granted. A TIME_UNSURE for a difference of the
two times writes an error-log entry (R604). -/
def Hw.decide_ (h : Hw) (k action : Nat) : Hw :=
  let c := h.phone k
  let o := h.outcome c action
  let id := c.tokenId
  let b := c.bond.getD 0xFF
  let h := if o = 0x18 ∧ h.gnssTime.isSome then h.report 0xB o 0 0 id else h
  let h := h.phoneSend k (resultMsg o c.dist id)
  let h := h.setPkey { h.pkey with last := [o, action, b, c.dist, id, h.rtc.sec] }
  if o = action - 1 then
    let h := if action = 1 then h.setConn k { c with taken := true } else h
    h.act action 0 b o id
  else h

/-- CONSEC (R606). -/
def Hw.consec (h : Hw) : Nat := h.obj 0x6110 2

/-- PKEY_CMD_UNLOCK (R606). -/
def Hw.cmdUnlock (h : Hw) (k : Nat) : Hw :=
  match h.conn k with
  | none => h
  | some c => if h.fwUp ∧ h.consec ≤ c.count then h.decide_ k 1 else h

/-- PKEY_CMD_LOCK (R607). -/
def Hw.cmdLock (h : Hw) (k : Nat) : Hw := if h.fwUp then h.decide_ k 2 else h

/-! ### Ranging (R600 to R603) -/

/-- A fraction: numerator and positive denominator. -/
abbrev Frac := Int × Int

/-- d_pbr in cm: tone channel and phase of the product of its tone vectors, in 2^−16 cycle, unwrapped. -/
def pbrCm (tones : List (Nat × Int)) : Frac :=
  let n : Int := tones.length
  let sf := tones.foldl (fun s t => s + (t.1 : Int)) 0
  let st := tones.foldl (fun s t => s + t.2) 0
  let sff := tones.foldl (fun s t => s + (t.1 : Int) * (t.1 : Int)) 0
  let sft := tones.foldl (fun s t => s + (t.1 : Int) * t.2) 0
  (-(299792458 * 100) * (n * sft - sf * st), 2 * 65536 * 1000000 * (n * sff - sf * sf))

/-- d_rtt in cm: the differences initiator RTT − reflector RTT of the mode-1 steps with SYNC_OK. -/
def rttCm (rtts : List Int) : Frac :=
  (rtts.foldl (· + ·) 0 * 299792458 * 254313 * 100, 2 * (rtts.length : Int) * 1000000000000000)

/-- The fraction rounded up, as a U16. -/
def ceilCm (f : Frac) : Nat := (clampInt 0 65535 (-((-f.1) / f.2))).toNat

/-- The distance of a procedure in cm; none when it is invalid (R601, R602). -/
def Hw.distance (h : Hw) (radio : Bool) (tones : List (Nat × Int)) (rtts : List Int) : Option Nat :=
  let p := pbrCm tones
  let r := rttCm rtts
  if radio ∨ ((tones.map (·.1)).eraseDups).length < 40 ∨ rtts.length < 4 then none
  else if (h.obj 0x6110 8 : Int) * (p.2 * r.2) < ((p.1 * r.2 - r.1 * p.2).natAbs : Int) then none
  else some (max (ceilCm p) (ceilCm r))

/-- CS_PROCEDURE_START (R600). -/
def Hw.csStart (h : Hw) (k : Nat) : Hw :=
  match h.conn k with
  | none => h
  | some c => if h.fwUp && c.auth then h.setConn k { c with procRun := true } else h

/-- CS_PROCEDURE_RESULT (R600 to R603, R606). -/
def Hw.csDone (h : Hw) (k : Nat) (radio : Bool) (tones : List (Nat × Int)) (rtts : List Int) : Hw :=
  match h.conn k with
  | none => h
  | some c =>
    if !h.fwUp ∨ !c.auth ∨ !c.procRun then h
    else
      let c := { c with procRun := false }
      match h.distance radio tones rtts with
      | none => h.setConn k { c with count := 0, taken := false }
      | some d =>
        if h.obj 0x6110 1 < d then h.setConn k { c with count := 0, taken := false, dist := d }
        else
          let h := h.setConn k { c with count := c.count + 1, dist := d }
          if c.count + 1 = h.consec ∧ !c.taken then h.decide_ k 1 else h

/-- ADVERTISING_EVENT (R592, R594): where the event was due under the wake schedule, its next interval begins. -/
def Hw.advertise (h : Hw) : Hw :=
  if h.fwUp ∧ h.pkey.conns.length < 4 then (h.setPkey { h.pkey with adverts := h.pkey.adverts + 1 }).advSent else h

/-- At a Long splice every count falls to 0 and no procedure runs (R603, R614). -/
def Hw.connsSplice (h : Hw) : Hw :=
  h.setPkey { h.pkey with conns := h.pkey.conns.map fun c => (c.1, { c.2 with count := 0, taken := false, procRun := false }) }

end Sys2Proof.Machine
end

