-- ==== Sys2Proof/Machine/Update.lean ====
section
/-! DEFINITION. Firmware update and the Long splice (chapter 16): the transfer and its refusals, the handover, the splice, the trial and the
anti-rollback counter. -/

namespace Sys2Proof.Machine

/-- The part with the update record changed. -/
def Hw.setUpd (h : Hw) (u : Update) : Hw := { h with upd := u }

/-- The idle slot (R680). -/
def Hw.idleSlot (h : Hw) : Nat := 1 - h.kept.confirmed % 2

/-! ### Refusals (R688, R689, Table 16.4) -/

/-- WS_AGE in ms, saturating (0x4010:03). -/
def Hw.wsAge (h : Hw) : Nat := match h.fw.wsAt with | none => 0xFFFFFFFF | some t => satTo 0xFFFFFFFF ((h.tcnt - t) / 491520)

/-- The vehicle supply in mV (R689). -/
def Hw.vehicleSupply (h : Hw) : Nat := h.rf BGND_RAIL1_SENSE * h.obj 0x8002 4 / 1000

/-- LOW_SUPPLY. -/
def Hw.lowSupply (h : Hw) : Bool := decide (h.vehicleSupply < h.obj 0x8002 3) || decide (h.rf BGND_RAIL0_VBKP < 2500)

/-- A moving test that UPD_MOVE_SEL selects holds (R689). -/
def Hw.moving (h : Hw) : Bool :=
  let sel := h.obj 0x8002 2
  (bit sel 0 && h.fix.valid && decide (h.tcnt ≤ h.fix.at_ + 2 * secondTicks) && decide (500 < h.fix.speed)) ||
    (bit sel 1 && h.obj 0x4010 1 != 0 && decide (h.wsAge ≤ 2000)) || (bit sel 2 && h.obj 0x4010 2 == 2)

/-- Checks 1 to 4, for a request on link l. -/
def Hw.updGate (h : Hw) (l : Nat) : Option Nat :=
  let role := h.linkRole l
  let lc := h.fuses.lifecycle
  if l ≠ 7 ∨ role < 1 ∨ (lc = 4 ∧ role < 3) then some 0x16
  else if lc = 1 then some 0x13
  else if h.obj 0x8002 1 = 1 then some 0x12
  else if h.rf UPD_STAT_PHASE = 2 then some 0x14
  else none

/-- Checks 9 and 10. -/
def Hw.updSafe (h : Hw) : Option Nat := if h.lowSupply then some 0x11 else if h.moving then some 0x10 else none

/-- A refusal: its code in UPD_XSTAT, and the abort code of the operation. -/
def Hw.updRefuse (h : Hw) (code : Nat) : Option Nat × Hw := (some (0x08000000 + code), h.setUpd { h.upd with refusal := code })

/-- The first of the checks that fails refuses the write; otherwise `f` acts. -/
def Hw.updTry (h : Hw) (checks : List (Option Nat)) (f : Hw → Option Nat × Hw) : Option Nat × Hw :=
  match checks.filterMap id with
  | code :: _ => h.updRefuse code
  | [] => f h

/-- A check as a list entry. -/
def failsWith (b : Bool) (code : Nat) : Option Nat := if b then some code else none

/-! ### Transfer (R684 to R687) -/

/-- UPD_BEGIN. -/
def Hw.updBegin (h : Hw) (l b ver : Nat) : Option Nat × Hw :=
  h.updTry [h.updGate l, failsWith (decide (0x600000 < b) || decide (b < 4608)) 0x15, h.updSafe] fun h =>
    (none, h.setUpd { h.upd with state := 1, next := 0, blocks := ceilDiv b 4096, bytes := b, version := ver, blockAt := h.tcnt })

/-- R685 permits the number and the length. -/
def Hw.blockOk (h : Hw) (n len : Nat) : Bool :=
  let u := h.upd
  (n == u.next || n + 1 == u.next) && decide (n < u.blocks) && len == min 4096 (u.bytes - 4096 * n)

/-- UPD_BLOCK. A running image in the idle slot makes the MRAM refuse the write (R681). -/
def Hw.updBlock (h : Hw) (l n crc : Nat) (data : List Nat) : Option Nat × Hw :=
  h.updTry [h.updGate l, failsWith (h.upd.state != 1) 0x17, failsWith (!h.blockOk n data.length) 0x18, failsWith (crc32 data != crc) 0x19,
    h.updSafe] fun h =>
    let a := slotBase h.idleSlot + 4096 * n
    if h.rf UPD_STAT_SLOT = h.idleSlot then (some 0x07000001, h.report 0 4 0 a (pow2 31 + 8))
    else
      let u := h.upd
      let next := if n = u.next then n + 1 else u.next
      (none, (h.mramSet a data).setUpd { u with next := next, state := if next = u.blocks then 2 else 1, blockAt := h.tcnt })

/-- UPD_CANCEL. -/
def Hw.updCancel (h : Hw) : Hw := h.transferAbandon

/-- UPD_TRANSFER_TIMEOUT (R687). -/
def Hw.updTimeout (h : Hw) : Hw :=
  if h.upd.state = 0 then h else (h.reach (h.upd.blockAt + 600 * secondTicks)).transferAbandon

/-! ### The Long splice (R690 to R696) -/

/-- Slots that the copy ring needs at f_e: ceil(0.4 × f_e) + 2. -/
def spliceSlots (fe : Nat) : Nat := ceilDiv (4 * fe) 10 + 2

/-- The copy ring is made large enough (R691). -/
def Hw.growRing (h : Hw) : Hw :=
  let h := h.sf HITCH_CTRL_COPY_EN 1
  let need := fun (h : Hw) => max h.copySlots (spliceSlots (epochRate (h.rf HITCH_CTRL_RATE)))
  let tooLong := fun (h : Hw) => decide (64 < h.rf HITCH_COPY_SBASE + need h)
  let h := if tooLong h && h.rf HITCH_CTRL_RATE == 6 then h.hitchCtrl (HITCH_CTRL_RATE.insert (h.reg HITCH_CTRL).toNat 5) else h
  let n := if tooLong h then min (need h) (spliceSlots (epochRate (h.rf HITCH_CTRL_RATE))) else need h
  let h := h.sf HITCH_COPY_SLOTS n
  if 64 < h.rf HITCH_COPY_SBASE + n then h.sf HITCH_COPY_SBASE (64 - n) else h

/-- The address of KPRIV[1] in a Strand's entry. -/
def ageAt (s : Nat) : Nat := entryAddr s + 0x38

/-- Give the Strands new aiding age limits and commit them. -/
def Hw.setAges (h : Hw) (xs : List (Nat × Nat)) : Hw :=
  match xs with
  | [] => h
  | _ => (forEach (fun x h => (Hw.memWrite h .nav (ageAt x.1) 2 x.2).commitObject x.1 false) xs h).ringBell none

/-- VECTOR Strands take an aiding age limit of at least 600 ms (R691). -/
def Hw.raiseAges (h : Hw) : Hw :=
  let low := (h.strandList.filter fun p => p.2.state == .vector && decide (h.load (ageAt p.1) 2 < 600)).map fun p => (p.1, h.load (ageAt p.1) 2)
  let h := h.setAges (low.map fun x => (x.1, 600))
  h.setUpd { h.upd with aging := low }

/-- First byte of the handover block (R693). -/
def handoverBase : Nat := 0x31001000

/-- The handover block (R693, Table 16.6). What the firmware puts into its navigation, plan, phone-key and private parts, its HB_VERSION and the
last epoch solved are free values. -/
def Hw.writeHandover (h : Hw) : Hw :=
  let (v, h) := h.fresh
  let (ep, h) := h.fresh
  let (ws, h) := h.freshWords 1015
  let bs := leBytes 4 0x4B484F01 ++ leBytes 2 v ++ [0, 0] ++ leBytes 4 (h.rf UPD_STAT_SPLICES + 1) ++ leBytes 4 h.fw.version ++ leBytes 8 h.tcnt ++
    leBytes 4 ep ++ leBytes 4 h.fw.journal.seq ++ ws.flatMap (leBytes 4)
  (h.storeBytes handoverBase (bs ++ leBytes 4 (crc32 bs))).eccClear handoverBase 4096

/-- The sessions and subscriptions end (R452, R471, R540); frames on their way out stay. -/
def Hw.sessionsEnd (h : Hw) : Hw :=
  let h := h.lydEnd
  let h := forEach (fun l h => let k := Hw.link h l; h.setLink l { k with role := 0, nonce := [], sigR := [], segs := [], dead := [], answered := [] }) (upTo 10) h
  { h with fw := { h.fw with subs := [] } }

/-- A Long splice begins (R692, Table 16.5). -/
def Hw.spliceStart (h : Hw) (target : Nat) (trial : Bool) : Hw :=
  let h := (h.sf UPD_STAT_PHASE 1).bump UPD_STAT_SPLICES
  let h := h.setUpd { h.upd with splicing := some (target, h.tcnt, trial) }
  ((h.holdStart.sessionsEnd.transferAbandon).wdRestart.sf MPU_CTRL_LOCK 0).connsSplice

/-- UPD_CTRL_CONFIRM: CONFIRM of UPD_CTRL (R698). -/
def Hw.updConfirmHw (h : Hw) : Hw := if h.rf UPD_STAT_PHASE = 2 then h.sf UPD_STAT_PHASE 0 else h

/-- A write of UPD_CTRL by the navigation controller: CONFIRM, then GO (R692, R698). -/
def Hw.updCtrl (h : Hw) (v : Nat) : Hw :=
  let h := h.writeFields UPD_CTRL v
  let h := if bit v 3 then h.updConfirmHw else h
  if bit v 0 && h.sys.fwRunning && h.upd.splicing.isNone then h.spliceStart (h.rf UPD_CTRL_TARGET) (h.on UPD_CTRL_TRIAL_EN) else h

/-- The boot selection record (R680). -/
def Hw.bootRecord (h : Hw) (active : Nat) (trial : Bool) : Hw :=
  { h with kept := { h.kept with confirmed := active }, upd := { h.upd with trial := trial } }

/-- The IMAGE_VERSION of the idle slot in the boot selection record. -/
def Hw.recordVersion (h : Hw) : Hw :=
  let (a, b) := h.upd.versions
  h.setUpd { h.upd with versions := if h.idleSlot = 0 then (h.upd.version, b) else (a, h.upd.version) }

/-- UPD_ACTIVATE up to the write of UPD_CTRL (R690, R691). A journal that refuses the boot selection record refuses the write (DEDUCED, assumption
log 48). -/
def Hw.updPrepare (h : Hw) (l : Nat) : Option Nat × Hw :=
  h.updTry [h.updGate l, failsWith (h.upd.state != 2) 0x17, h.updSafe] fun h =>
    let r := h.recordVersion.bootRecord h.kept.confirmed true
    match r.journalWrite 0xF130 1 r.selectionBytes with
    | (some code, _) => (some code, h)
    | (none, h) => (none, (h.growRing.raiseAges).writeHandover)

/-- The write of UPD_CTRL that UPD_ACTIVATE ends with (R690). -/
def Hw.updGo (h : Hw) : Hw := h.updCtrl (1 + 2 * h.idleSlot + 4)

/-- UPD_ACTIVATE. -/
def Hw.updActivate (h : Hw) (l : Nat) : Option Nat × Hw :=
  match h.updPrepare l with
  | (none, h) => (none, h.updGo)
  | r => r

/-- UPD_OPSIG_REQ from the journal. -/
def Hw.opSigReq (h : Hw) : Bool := match journalValue h.journalRecords 0x8002 5 with | some v => leNat v == 1 | none => false

/-- The running image accepts the handover block (R694). -/
def Hw.handoverOk (h : Hw) : Bool :=
  let bs := h.loadBytes handoverBase 4096
  let num := fun (o n : Nat) => leNat ((bs.drop o).take n)
  let b := slotBase (h.rf UPD_STAT_SLOT)
  num 0 4 == 0x4B484F01 && num 0xFFC 4 == crc32 (bs.take 0xFFC) && decide (h.mramNum (b + 0x18) 2 ≤ num 4 2) && decide (num 4 2 ≤ h.mramNum (b + 0x1A) 2)

/-- The boot ROM has chosen the image (R694): the target, or on a failed verification the image that was running. -/
def Hw.spliceImage (h : Hw) (target : Nat) (trial : Bool) (vendor : List (List Nat)) : Hw :=
  let h := h.journalScan
  let e := h.verifySlot target h.opSigReq
  if e = 0 then
    let h := (h.sf UPD_STAT_PREV (h.rf UPD_STAT_SLOT)).sf UPD_STAT_SLOT target
    let h := (h.sf SYS_BOOT_SLOT target).sf UPD_STAT_PHASE (if trial then 2 else 0)
    { h with fw := { h.fw with vendor := vendor } }
  else (((h.sf UPD_STAT_VFAIL 1).sf UPD_STAT_VERR e).sf UPD_STAT_PHASE 0).bootRecord h.kept.confirmed false |>.keepRecords

/-- Fofiys firmware starts again: its objects take their defaults and then their journal values (R450); registers are left as they are (R694). -/
def Hw.firmwareAgain (h : Hw) : Hw :=
  let h := { h with fw := { h.fw with objs := [], started := h.tcnt, hbSeq := 0, wsAt := none,
                                      version := h.mramNum (slotBase (h.rf UPD_STAT_SLOT) + 8) 4 } }
  forEach (fun r h => h.restoreObj r) (liveRecords h.journalRecords) h

/-- HANDOVER_ACCEPT (R694 to R696): the boot ROM and the new image's start, `us` after GO, then the handover. -/
def Hw.handover (h : Hw) (us : Nat) (vendor : List (List Nat)) : Hw :=
  match h.upd.splicing with
  | none => h
  | some (target, go, trial) =>
    let h := (h.reach (go + us * 49152 / 100)).spliceImage target trial vendor
    let h := h.sf UPD_SPLTIME_SPLTIME (satTo 0xFFFFFF us)
    let h := h.setUpd { h.upd with splicing := none, trialAt := h.tcnt, expired := false, fixSince := false }
    let h := h.firmwareAgain
    let h :=
      if h.handoverOk then h
      else { h.sf UPD_STAT_VERR 8 with pkey := { h.pkey with conns := [] }, fix := NavFix.reset, hot := { h.hot with class_ := 1 } }
    let (w, h) := h.fresh
    let h := h.setReg PWR_WAKEVEC (BitVec.ofNat 32 (slotBase (h.rf UPD_STAT_SLOT) + w % 0x600000))
    let h := (h.holdRelease).setAges h.upd.aging
    h.setUpd { h.upd with aging := [] }

/-! ### Trial, confirmation and fallback (R697 to R701) -/

/-- WINDOW as it acts, s. -/
def Hw.trialWindow (h : Hw) : Nat := max 30 (min 3600 (h.rf UPD_CWIN_WINDOW))

/-- TRIAL_TIMEOUT (R699, R700). -/
def Hw.trialTimeout (h : Hw) : Hw :=
  if h.rf UPD_STAT_PHASE ≠ 2 ∨ h.upd.expired then h
  else
    let h := (h.reach (h.upd.trialAt + h.trialWindow * secondTicks)).sf UPD_STAT_FALLBACK 1
    let h := h.setUpd { h.upd with expired := true }
    let prev := h.rf UPD_STAT_PREV
    let e := h.verifySlot prev h.opSigReq
    if e = 0 then h.spliceStart prev false
    else (h.sf UPD_STAT_VFAIL 1).sf UPD_STAT_VERR e

/-- UPD_CWIN as it reads: REMAIN in whole seconds, rounded up. -/
def Hw.updCwin (h : Hw) : Nat :=
  let left := if h.rf UPD_STAT_PHASE ≠ 2 ∨ h.upd.expired then 0 else ceilDiv (h.upd.trialAt + h.trialWindow * secondTicks - h.tcnt) secondTicks
  UPD_CWIN_REMAIN.insert (h.reg UPD_CWIN).toNat left

/-- UPD_OTP_SET: a write of UPD_OTP by the navigation controller (R701). -/
def Hw.otpSet (h : Hw) (v : Nat) : Hw :=
  let h := if bit v 16 then h.sf UPD_OTP_REFUSED 0 else h
  let set := bits v 8 8
  if set ≤ h.fuses.otp then h.sf UPD_OTP_REFUSED 1
  else
    let n := min 128 set
    { h with fuses := { h.fuses with otp := max n h.fuses.otp } }.sf UPD_OTP_CNT (max n h.fuses.otp)

/-- UPD_CONFIRM (R698). -/
def Hw.updConfirm (h : Hw) : Option Nat × Hw :=
  h.updTry [failsWith (h.rf UPD_STAT_PHASE != 2) 0x17, failsWith (h.obj 0x8002 6 == 1 && !h.upd.fixSince) 0x1A] fun h =>
    let slot := h.rf UPD_STAT_SLOT
    let h := (h.updConfirmHw.bootRecord slot false).fwKeep
    let r := h.mramNum (slotBase slot + 0x0C) 2
    (none, if h.fuses.otp < r then h.otpSet (256 * r) else h)

end Sys2Proof.Machine
end

