-- ==== Sys2Proof/Machine/Background.lean ====
section
/-! DEFINITION. The error log's engine (17.4), Whipping's scrubs and telemetry (17.5), the temperature monitor (R36 to R41) and the lock of the MPU
(R710). -/

namespace Sys2Proof.Machine

/-! ### The error log (R718 to R723) -/

/-- Address of entry i. -/
def elogEntry (i : Nat) : Nat := 0x40090400 + 16 * i

/-- ELOG_ENTRY_WRITE: the engine takes the head of the queue and writes it into the first entries or the ring (R719, R721). -/
def Hw.elogWrite (h : Hw) : Hw :=
  match h.elogQ with
  | [] => h
  | r :: rest =>
    let first := h.rf ELOG_STAT_FIRSTCNT
    let ring := h.rf ELOG_STAT_RINGNEXT
    let i := if first < 48 then first else ring
    let h := { h with elogQ := rest }
    let h := ((h.setReg (elogEntry i + 4) (BitVec.ofNat 32 r.addr)).setReg (elogEntry i + 8) (BitVec.ofNat 32 r.detail)).setReg (elogEntry i + 12)
      (BitVec.ofNat 32 r.stamp)
    let h := h.setReg (elogEntry i) (BitVec.ofNat 32 (r.cls % 16 + 128 + 256 * (r.code % 256) + 65536 * (r.source % 256) + pow2 24 * (r.seq % 256)))
    let h := if first < 48 then h.sf ELOG_STAT_FIRSTCNT (first + 1)
      else (h.sf ELOG_STAT_RINGCNT (min 16 (h.rf ELOG_STAT_RINGCNT + 1))).sf ELOG_STAT_RINGNEXT (if ring = 63 then 48 else ring + 1)
    if bit (h.rf ELOG_CTRL_IRQ_MASK) (r.cls % 16) then h.sf ELOG_STAT_NEW 1 else h

/-- A write of ELOG_CTRL: IRQ_MASK, and CLEAR (R722). -/
def Hw.elogCtrl (h : Hw) (v : Nat) : Hw :=
  let h := h.writeFields ELOG_CTRL v
  if !bit v 16 then h
  else
    let h := forEach (fun i h =>
      let w := (Hw.reg h (elogEntry i)).toNat
      if bit w 7 then h.setReg (elogEntry i) (BitVec.ofNat 32 (w - 128)) else h) (upTo 64) h
    ((h.sf ELOG_STAT_FIRSTCNT 0).sf ELOG_STAT_RINGCNT 0).sf ELOG_STAT_RINGNEXT 48

/-- ELOG_SWHDR: a write by the navigation controller (R723). -/
def Hw.elogSoft (h : Hw) (v : Nat) : Hw :=
  h.report (bits v 0 4) (bits v 8 8) 0 (h.rf ELOG_SWADDR_VALUE) (h.rf ELOG_SWDET_VALUE)

/-- ELOG_STAT as it reads. -/
def Hw.elogStat (h : Hw) : Nat := ELOG_STAT_QCNT.insert (h.reg ELOG_STAT).toNat h.elogQ.length

/-! ### The MPU's lock (R710) -/

/-- A write of MPU_CTRL by the navigation controller. -/
def Hw.mpuCtrl (h : Hw) (v : Nat) : Hw :=
  let h := if h.on MPU_CTRL_LOCK then h else h.writeFields MPU_CTRL v
  if bit v 1 then h.sf MPU_CTRL_LOCK 1 else h

/-! ### The SRAM scrub (R725, R730, R418) -/

/-- Next word of a scrubbed memory. -/
def Hw.scrubAt (h : Hw) (k : Nat) : Nat := Store.get (fun _ => 0) h.memu.scrubPtr k

/-- The part with that pointer set. -/
def Hw.setScrub (h : Hw) (k v : Nat) : Hw := { h with memu := { h.memu with scrubPtr := Store.set (fun _ => 0) h.memu.scrubPtr k v } }

/-- Key of the pass counter among the pointers: a pass is as many reads as the largest unit has words. -/
def scrubPass : Nat := 999

/-- The words remembered as corrected: without `a`. -/
def Hw.scrubForget (h : Hw) (a : Nat) : Hw :=
  { h with memu := { h.memu with scrubHit := h.memu.scrubHit.filter (· != a), scrubNow := h.memu.scrubNow.filter (· != a) } }

/-- The scrub reads the word at `a` of an SRAM unit. -/
def Hw.scrubWord (h : Hw) (a : Nat) : Hw :=
  match h.eccAt a with
  | 0 => h.scrubForget a
  | 1 =>
    let seen := h.memu.scrubHit.contains a || h.memu.scrubNow.contains a
    let h := (h.correct a).scrubForget a
    let h := { h with memu := { h.memu with scrubNow := a :: h.memu.scrubNow } }
    if seen then h.repairStart a else h
  | _ =>
    let h := ((h.bump MEM_ECC_UE).sf MEM_ECCADDR_ADDR a).report 3 (h.eccCode a) 0x01 a (memDetail a)
    h.repairStart a

/-- One word of unit u, unless it is not available. -/
def Hw.scrubUnit (h : Hw) (u : Nat) : Hw :=
  let p := h.scrubAt u
  let a := unitBase u + 8 * p
  if h.pwr.state = .stop ∧ u < 15 then h
  else match h.unitAccess a with
    | .ok => (h.scrubWord a).setScrub u ((p + 1) % (unitBytes u / 8))
    | _ => h

/-- One word of a local or accumulator memory of `n` words, at key `key` of the table of words with an error; `k` is its pointer. -/
def Hw.scrubLocal (h : Hw) (k key n : Nat) : Hw :=
  let a := key + 8 * h.scrubAt k
  let h := match h.eccAt a with
    | 0 => h
    | 1 => h.correct a
    | _ => (h.bump MEM_ECC_UE).report 3 (h.eccCode a) 0x01 0 0
  h.setScrub k ((h.scrubAt k + 1) % n)

/-- The pass count and its duration (BGND_STAT, BGND_SPASST). -/
def Hw.scrubCount (h : Hw) : Hw :=
  let p := h.scrubAt scrubPass + 1
  if p < 32768 then h.setScrub scrubPass p
  else
    let h := (h.setScrub scrubPass 0).count BGND_STAT_SPASS
    let h := h.sf BGND_SPASST_MS (satTo 65535 ((h.tcnt - h.bgnd.passFrom) / 491520))
    { h with bgnd := { h.bgnd with passFrom := h.tcnt }, memu := { h.memu with scrubHit := h.memu.scrubNow, scrubNow := [] } }

/-- SCRUB_READ. -/
def Hw.scrub (h : Hw) : Hw :=
  if !h.on BGND_CTRL_SCRUB_EN ∨ !h.clocked then h
  else
    let h := forEach (fun u h => Hw.scrubUnit h u) (upTo 18) h
    if h.pwr.state = .stop then h
    else
      let h := forEach (fun c h => if h.domState 1 == 2 && bit h.fuses.coreSet c && !bit h.pwr.coreRet c then h.scrubLocal (32 + c) (localKey c 0) 1024 else h) (upTo 8) h
      let h := forEach (fun e h => if h.domState 0 == 2 && bit h.fuses.engineSet e && !bit h.pwr.engRet e then h.scrubLocal (64 + e) (accKey e 0) 512 else h) (upTo 32) h
      h.scrubCount

/-! ### The MRAM scrub (R727, R438) -/

/-- Words of the MRAM (R727). -/
def mramWords : Nat := 2097152

/-- The scrub reads one word. -/
def Hw.mscrubWord (h : Hw) : Hw :=
  let p := h.memu.mscrubPtr
  let a := 0x60000000 + 8 * p
  let h := match h.eccAt a with
    | 0 => h
    | 1 => h.bump MEM_ECC_CE
    | 4 => (h.bump MEM_ECC_CE).setEcc a 0
    | _ => ((h.bump MEM_ECC_UE).sf MEM_ECCADDR_ADDR a).report 3 1 0x01 a 0
  let h := { h with memu := { h.memu with mscrubPtr := (p + 1) % mramWords } }
  if p + 1 = mramWords then h.count BGND_STAT_MPASS else h

/-- MRAM_SCRUB. -/
def Hw.mscrub (h : Hw) : Hw :=
  if !h.on BGND_CTRL_MSCRUB_EN ∨ !h.clocked then h else forEach (fun _ h => Hw.mscrubWord h) (upTo 64) h

/-! ### Temperature and rails (R36 to R41, R564, R731) -/

/-- Highest and lowest of a list. -/
def maxInt (xs : List Int) : Int := xs.foldl max (xs.headD 0)
def minInt (xs : List Int) : Int := xs.foldl min (xs.headD 0)

/-- The thermal gradient (R37 to R39). -/
def Hw.thermal (h : Hw) (ts : List Int) : Hw :=
  let g := (maxInt ts - minInt ts).toNat
  let h := h.sf BGND_TSTAT_GRAD (satTo 255 (g / 10))
  let h := { h with sys := { h.sys with gradOk := if g ≤ 200 then satTo 1000 (h.sys.gradOk + 1) else 0 } }
  if h.on BGND_TSTAT_THERMAL_GRADIENT then (if 1000 ≤ h.sys.gradOk then h.sf BGND_TSTAT_THERMAL_GRADIENT 0 else h)
  else if 250 < g then (h.sf BGND_TSTAT_THERMAL_GRADIENT 1).report 9 1 0x42 0 g
  else h

/-- OVERTEMP (R41, R731). -/
def Hw.overtemp (h : Hw) (ts : List Int) : Hw :=
  let m := maxInt ts
  let h := { h with sys := { h.sys with tempOk := if m ≤ 1200 then satTo 1000 (h.sys.tempOk + 1) else 0 } }
  if h.on BGND_TSTAT_OVERTEMP then (if 1000 ≤ h.sys.tempOk then h.sf BGND_TSTAT_OVERTEMP 0 else h)
  else if 1250 < m then (h.sf BGND_TSTAT_OVERTEMP 1).report 9 2 0x42 0 (ofInt 32 m)
  else h

/-- A change of TS4 by more than 5 K since the last calibration makes every calibration entry stale (R564). -/
def Hw.calStale (h : Hw) (ts4 : Int) : Hw :=
  if h.on BGND_CTRL_RCAL_EN ∧ !h.on RADIO_STAT_CAL_PEND ∧ 50 < (ts4 - h.sys.calTemp).natAbs then
    (h.setRadio { h.radio with valid := [] }).sf RADIO_STAT_CAL_PEND 1
  else h

/-- TEMP_SAMPLE: the six sensors in 0.1 °C; VIN, VBKP, the core voltage and VIN_SENSE in mV. -/
def Hw.tempSample (h : Hw) (ts : List Int) (rails : List Nat) : Hw :=
  if !h.clocked then h
  else
    let ts := (ts ++ List.replicate 6 0).take 6
    let at_ := fun (i : Nat) => ofInt 16 (ts.getD i 0)
    let h := forEach (fun i h => (Hw.sf h (BGND_TEMP_TS_LO i) (at_ (2 * i))).sf (BGND_TEMP_TS_HI i) (at_ (2 * i + 1))) (upTo 3) h
    let h := (h.sf BGND_RAIL0_VIN (rails.getD 0 0)).sf BGND_RAIL0_VBKP (rails.getD 1 0)
    let h := (h.sf BGND_RAIL1_VCORE (rails.getD 2 0)).sf BGND_RAIL1_SENSE (rails.getD 3 0)
    let h := { h with bgnd := { h.bgnd with sums := List.zipWith (· + ·) h.bgnd.sums ts, n := h.bgnd.n + 1 } }
    ((h.thermal ts).overtemp ts).calStale (ts.getD 4 0)

/-! ### Telemetry (R729, Table 17.6) -/

/-- A change of a firmware object is noticed (R472). -/
def Hw.notice (h : Hw) (idx sub : Nat) (value : List Nat) : Hw :=
  let mark := fun (x : Sub) => if x.idx = idx ∧ x.sub = sub ∧ x.seen ≠ value then { x with seen := value, changed := true } else x
  { h with fw := { h.fw with subs := h.fw.subs.map mark } }

/-- A telemetry object takes its new value. -/
def Hw.publish (h : Hw) (sub : Nat) (v : List Nat) : Hw :=
  { h with bgnd := { h.bgnd with tele := Store.insert sub v h.bgnd.tele } }.notice 0x9510 sub v

/-- U32 values packed. -/
def words32 (xs : List Nat) : List Nat := xs.flatMap (leBytes 4)

/-- Object 0x9510:0A. -/
def Hw.teleFlags (h : Hw) : Nat :=
  h.rf BGND_TSTAT_THERMAL_GRADIENT + 2 * h.rf BGND_TSTAT_OVERTEMP + 4 * b2n h.sys.noFabric +
    8 * b2n (h.pwr.engRet != 0 || h.pwr.coreRet != 0) + 16 * b2n ((upTo 18).any fun u => h.unitState u == unitRetired)

/-- The utilisation fields of the second: 4 clusters, 32 engines, 8 cores, in 0.5 %. -/
def Hw.setUtil (h : Hw) (util : List Nat) : Hw :=
  let u := fun (i : Nat) => min 200 (util.getD i 0)
  let h := h.setReg FAB_UTIL (BitVec.ofNat 32 (u 0 + 256 * u 1 + 65536 * u 2 + pow2 24 * u 3))
  let h := forEach (fun e h => Hw.sf h (FAB_ENGSTAT_UTIL e) (u (4 + e))) (upTo 32) h
  forEach (fun c h => Hw.sf h (LOOP_CORESTAT_UTIL c) (u (36 + c))) (upTo 8) h

/-- TEMPS and RAILS. -/
def Hw.teleAnalog (h : Hw) : Hw :=
  let mean := fun (s : Int) => if h.bgnd.n = 0 then 0 else roundDiv s h.bgnd.n
  let h := h.publish 1 (h.bgnd.sums.flatMap fun s => leBytes 2 (ofInt 16 (mean s)))
  let rails := [h.rf BGND_RAIL0_VIN, h.rf BGND_RAIL0_VBKP, h.rf BGND_RAIL1_VCORE, satTo 65535 h.vehicleSupply]
  let h := h.publish 2 (rails.flatMap (leBytes 2))
  { h with bgnd := { h.bgnd with sums := [0, 0, 0, 0, 0, 0], n := 0 } }

/-- The counts of the second, taken from the counters that a read clears. -/
def Hw.teleCounts (h : Hw) : Hw :=
  let h := h.publish 3 (leBytes 4 (h.reg FAB_UTIL).toNat)
  let h := h.publish 4 ((upTo 8).map fun c => h.rf (LOOP_CORESTAT_UTIL c))
  let h := (h.publish 5 (words32 [h.rf FAB_STEALS_LOCAL, h.rf FAB_STEALS_CROSS])).setReg FAB_STEALS 0
  let h := h.publish 6 (words32 [h.rf FAB_TALLY0_STARVED, h.rf FAB_TALLY0_WITHDRAWN, h.rf LOOP_TALLY0_LATE])
  let h := (h.setReg FAB_TALLY0 0).setReg LOOP_TALLY0 0
  let h := (h.publish 7 (words32 [h.rf MEM_ECC_CE, h.rf MEM_ECC_UE])).setReg MEM_ECC 0
  let t := h.rf ELOG_TOTAL_TOTAL
  let h := h.publish 8 (words32 [(t + pow2 32 - h.bgnd.total) % pow2 32, h.rf ELOG_LOSTALL_LOST])
  { h.setReg ELOG_LOSTALL 0 with bgnd := { h.bgnd with total := t } }

/-- SCRUB, FLAGS and TSEQ. -/
def Hw.teleRest (h : Hw) : Hw :=
  let h := h.publish 9 (words32 [h.rf BGND_SPASST_MS, h.rf BGND_STAT_SPASS, h.rf BGND_STAT_MPASS])
  let h := h.publish 10 (leBytes 2 h.teleFlags)
  let seq := leNat (Store.get (fun _ => []) h.bgnd.tele 11)
  h.publish 11 (leBytes 4 (seq + 1))

/-- The NMEA sentences of the second go to UART n (R546). -/
def Hw.nmeaSend (h : Hw) (n : Nat) (bs : List Nat) : Hw :=
  let k := h.link n
  (h.setLink n { k with out := k.out ++ bs }).txStart n

/-- Every UART whose use is NMEA output sends the sentences once per second (R546). -/
def Hw.nmeaOut (h : Hw) (bs : List Nat) : Hw :=
  if h.fwUp then forEach (fun n h => if h.obj 0xB030 (n + 1) = 2 then h.nmeaSend n bs else h) (upTo 6) h else h

/-- A solution that holds time corrects the pulse with the objects of Table 6.4 (R317, R319). -/
def Hw.pulseCorrect (h : Hw) (fix : NavFix) : Hw :=
  match h.fwUp, fix.pulse with
  | true, some f => h.pulseFix f (h.obj 0x5110 1) (toSigned 32 (h.obj 0x5110 2)) (toSigned 32 (h.obj 0x5110 3))
  | _, _ => h

/-- TELEMETRY_SECOND, at the end of a telemetry second, counted from TCNT = 0 (R729): `fix` is the latest navigation solution, `nmea` the sentences that state it. -/
def Hw.telemetry (h : Hw) (fix : NavFix) (util nmea : List Nat) : Hw :=
  if !h.clocked then h
  else
    let h := h.reach (max 1 (ceilDiv h.tcnt secondTicks) * secondTicks)
    let fresh := h.rf UPD_STAT_PHASE == 2 && fix.valid && decide (h.upd.trialAt < fix.at_)
    let h := { h with fix := fix, upd := { h.upd with fixSince := h.upd.fixSince || fresh } }
    let h := (h.setUtil util).pulseCorrect fix
    let h := if h.on BGND_CTRL_TELEM_EN then h.teleAnalog.teleCounts.teleRest else h
    h.nmeaOut nmea

/-- WHIPPING_FW_TASK (R728): a task of the firmware's Whipping runs; `late` when its next period began before it had completed. The records of the
journal that wait are written with it (R416, R417). -/
def Hw.fwTask (h : Hw) (late : Bool) : Hw := (if h.fwUp && late then h.bump BGND_STAT_OVERRUN else h).fwKeep

end Sys2Proof.Machine
end

