-- ==== Sys2Proof/Machine/BackgroundCmds.lean ====
section
/-! DEFINITION. The commands of the error log, Whipping, the temperature monitor and the lock of the MPU (chapters 1 and 17). -/

namespace Sys2Proof.Machine

/-- TEMP_SAMPLE: the sensors and rails are sampled (R36 to R41, R564, R731). -/
def execTempSample (ts : List Int) (rails : List Nat) (s : State) : Host.Outcome State Fault Refusal := s.does (·.tempSample ts rails)

/-- MPU_LOCK: a write of MPU_CTRL with LOCK by the navigation controller (R710). -/
def execMpuLock (v : BitVec 32) (s : State) : Host.Outcome State Fault Refusal := s.does fun h => h.mpuCtrl (v.toNat ||| 2)

/-- ELOG_REPORT: a report is accepted into the queue, or lost (R719, R720). -/
def execElogReport (cls : Fin 16) (code : BitVec 8) (source : BitVec 8) (addr : BitVec 32) (detail : BitVec 32) (s : State) : Host.Outcome State Fault Refusal := s.does (·.report cls.val code.toNat source.toNat addr.toNat detail.toNat)

/-- ELOG_ENTRY_WRITE: the log engine writes the head of the queue (R721). -/
def execElogEntryWrite (s : State) : Host.Outcome State Fault Refusal := s.does (·.elogWrite)

/-- ELOG_CLEAR: a write of ELOG_CTRL with CLEAR (R722). -/
def execElogClear (v : BitVec 32) (s : State) : Host.Outcome State Fault Refusal := s.does fun h => h.elogCtrl (v.toNat ||| 0x10000)

/-- ELOG_SWHDR: a write of ELOG_SWHDR by the navigation controller (R723). -/
def execElogSwhdr (v : BitVec 32) (s : State) : Host.Outcome State Fault Refusal := s.does (·.elogSoft v.toNat)

/-- SCRUB_READ: the scrubber reads one word of every available memory (R725, R730, R418). -/
def execScrubRead (s : State) : Host.Outcome State Fault Refusal := s.does (·.scrub)

/-- MRAM_SCRUB: the MRAM scrub reads its 64 words of the second (R727, R438). -/
def execMramScrub (s : State) : Host.Outcome State Fault Refusal := s.does (·.mscrub)

/-- TELEMETRY_SECOND: the counters are read and the telemetry is published (R729, Table 17.6); the NMEA outputs send (R546). -/
def execTelemetrySecond (fix : Machine.NavFix) (util nmea : List Nat) (s : State) : Host.Outcome State Fault Refusal := s.does (·.telemetry fix util nmea)

/-- WHIPPING_FW_TASK: a firmware task of Whipping runs (R728). -/
def execWhippingFwTask (late : Bool) (s : State) : Host.Outcome State Fault Refusal := s.does (·.fwTask late)

end Sys2Proof.Machine
end

