-- ==== Sys2Proof/Machine/PortEvents.lean ====
section
/-! DEFINITION. What happens to a sample port (2.2, 2.5) and to a Coil capture (7.2): start and stop, samples and blocks, gaps, the monitor, resume,
and the arming, filling, holding, release and abort of a capture. -/

namespace Sys2Proof.Machine

/-! ### The capture (R330 to R337) -/

/-- The part with the capture's STATE set. -/
def Hw.setCoil (h : Hw) (st : Nat) : Hw := h.sf COIL_STAT_STATE st

/-- The selected ports, lowest first. -/
def Hw.coilPorts (h : Hw) : List Nat := (upTo 4).filter h.coilPort

/-- Captured blocks of port n so far. -/
def Hw.coilCount (h : Hw) (n : Nat) : Nat :=
  let p := h.port n
  match p.cap with
  | none => 0
  | some j => min (h.coilBlocks n) (p.nextTag - j / 2048)

/-- COIL_Pn_BLK and SUSP follow the captured blocks (R334). -/
def Hw.coilShow (h : Hw) (n : Nat) : Hw :=
  let p := h.port n
  let k := h.coilCount n
  let j := (p.cap.getD 0) / 2048
  let susp := ((upTo k).filter fun i => p.isSuspect (j + i)).length
  let h := (h.sf (COIL_P_BLK_BLOCKS n) k).sf (COIL_P_BLK_SUSPBLK n) susp
  if susp = 0 then h else h.sf COIL_STAT_SUSP 1

/-- A port whose ring writing is held for a capture writes again from its next ring-block boundary, if it counts; an idle port simply loses
the hold (R334, R336). -/
def Hw.coilLetGo (h : Hw) (n : Nat) : Hw :=
  let p := h.port n
  let p := { p with cap := none }
  match p.hold with
  | none => h.setPort n p
  | some _ => h.setPort n (if h.counting n then { p with holdEnd := true } else { p with hold := none })

/-- Every port lets go of the capture. -/
def Hw.coilDrop (h : Hw) : Hw := forEach (fun n h => h.coilLetGo n) (upTo 4) h

/-- COIL_CAPTURE_ABORTED (R334): an event on port n aborts a capture in ARMED or FILLING. -/
def Hw.coilAbort (h : Hw) (n : Nat) : Hw :=
  if h.coilPort n ∧ (h.coilState = coilArmed ∨ h.coilState = coilFilling) then
    (((h.coilDrop).setCoil coilAborted).sf COIL_STAT_ABORTED 1).snapLost
  else h

/-- COIL_HELD (R333): the ring writer of a port stops after its last captured block; once all have stopped, the capture is HELD. What the kept data
then say of the GNSS time of COIL_TS is a free value (R345). -/
def Hw.coilProgress (h : Hw) (n : Nat) : Hw :=
  let p := h.port n
  match p.cap with
  | none => h
  | some j =>
    let h := h.coilShow n
    if h.coilState = coilFilling ∧ p.hold.isNone ∧ h.coilCount n = h.coilBlocks n then
      let h := h.setPort n { h.port n with hold := some (j / 2048 + h.coilBlocks n) }
      if h.coilPorts.all fun m => (h.port m).hold.isSome then
        let (t, h) := h.freshBytes 12
        let h := { h with hot := { h.hot with heldAt := h.tcnt, coilTime := t } }
        (((h.setCoil coilHeld).count COIL_STAT_CAPSEQ).sf COIL_STAT_DONE 1).snapCheckAll
      else h
    else h

/-- ARM is refused (R331). -/
def Hw.coilRefused (h : Hw) : Bool :=
  let sel := h.rf COIL_CTRL_PORTS
  let ports := (upTo 4).filter (bit sel)
  let len := h.rf COIL_CTRL_LEN_MS
  !(h.coilState == coilEmpty || h.coilState == coilAborted) || ports.isEmpty || ports.any (fun n => decide (h.portCount ≤ n)) ||
    ports.any (fun n => !(h.portState n == portArmed || h.portState n == portRun)) || decide (len < 2) || decide (50 < len) ||
    ports.any (fun n => decide (h.rf (SP_RING_SIZE n) * 64 < h.coilLength n)) ||
    h.strandList.any fun p => p.2.state != .idle && p.2.state != .snapshot && ports.contains (bodyPort p.2.body)

/-- The first ring count at which an armed port may start (R332). -/
def Hw.coilFirst (h : Hw) (n : Nat) : Nat :=
  let skip := h.rf COIL_CTRL_SKIP * 2048
  if h.portState n = portArmed then skip else max skip (nextBlock (h.ringCount n))

/-- COIL_ARM (R331, R332). -/
def Hw.coilArm (h : Hw) : Hw :=
  if h.coilRefused then h.sf COIL_STAT_REFUSED 1
  else
    let sel := h.rf COIL_CTRL_PORTS
    let h := { h with coil := { ports := sel, blocks := (upTo 4).map fun n => if bit sel n then h.coilLength n else 0 } }
    let h := forEach (fun n h => h.setPort n { h.port n with coilFrom := h.coilFirst n, cap := none }) h.coilPorts h
    let h := forEach (fun n h => h.setReg (COIL_P_BLK n) 0) (upTo 4) h
    (h.setCoil coilArmed).sf COIL_STAT_SUSP 0

/-- COIL_RELEASE (R336). -/
def Hw.coilRelease (h : Hw) : Hw :=
  if h.coilState = coilHeld ∨ h.coilState = coilArmed ∨ h.coilState = coilFilling then (h.coilDrop.setCoil coilEmpty).snapLost else h

/-- COIL_ABORT (R336): from ARMED or FILLING only. -/
def Hw.coilAbortCmd (h : Hw) : Hw :=
  if h.coilState = coilArmed ∨ h.coilState = coilFilling then h.coilRelease.sf COIL_STAT_ABORTED 1 else h

/-- A write of COIL_CTRL: its fields, then ABORT, RELEASE and ARM (assumption log 26). -/
def Hw.coilCtrl (h : Hw) (v : Nat) : Hw :=
  let h := h.writeFields COIL_CTRL v
  let h := if bit v 18 then h.coilAbortCmd else h
  let h := if bit v 17 then h.coilRelease else h
  if bit v 16 then h.coilArm else h

/-- COIL_CAPTURE_START (R332): the next sample of port n is the first of its first permitted block. -/
def Hw.coilStart (h : Hw) (n : Nat) : Hw :=
  let p := h.port n
  if h.coilPort n ∧ (h.coilState = coilArmed ∨ h.coilState = coilFilling) ∧ p.cap.isNone ∧ h.portState n = portRun ∧
      p.coilFrom * h.dec n = p.cnt then
    let h := h.setPort n { p with cap := some p.coilFrom }
    let h := (h.sf (COIL_P_START_J n) p.coilFrom).setCoil coilFilling
    let h :=
      if h.coilPorts.head? = some n then
        let (d, h) := h.jitter
        let t := ofInt 64 ((h.tcnt : Int) + d)
        (h.sf COIL_TS_LO_T t).sf COIL_TS_HI_T (t / pow2 32)
      else h
    h.coilProgress n
  else h

/-- RING_WRITE_RESUME (R334, R336): port n, let go by its capture, writes again from its next ring-block boundary. -/
def Hw.ringResume (h : Hw) (n : Nat) : Hw :=
  let p := h.port n
  match p.hold with
  | none => h
  | some g =>
    if p.holdEnd then
      let r := ceilDiv (h.ringCount n) 2048
      h.setPort n { p with
        hold := none, holdEnd := false, noTags := if g < r then p.noTags ++ [(g, r - 1)] else p.noTags }
    else h

/-! ### What leaving RUN does to Strands (Table 3.6, R72, R135) -/

/-- SEARCH Strands of a port that is HALTED or OFF become IDLE with PORT_LOST. -/
def Hw.searchLost (h : Hw) (n : Nat) : Hw :=
  forEach (fun s h => (h.toIdle s 0x22).recheckStaged s)
    ((h.strandList.filter fun p => p.2.state == .search && bodyPort p.2.body == n).map (·.1)) h

/-- Port n takes a state. -/
def Hw.setPortState (h : Hw) (n st : Nat) : Hw := h.sf (portStateField n) st

/-! ### Samples and blocks (R69, R89) -/

/-- The last ring sample of the block in progress is written: its tag, and what waited for it goes on (R89, R176, R333). -/
def Hw.blockEnds (h : Hw) (n : Nat) : Hw := ((h.tagBlock n).coilProgress n).portWork n

/-- One sampling edge with all that it brings about: a capture starts at its first sample, and a block ends at its last. -/
def Hw.takeSample (h : Hw) (n : Nat) (iq : Nat × Nat) : Hw :=
  let h := (h.coilStart n).sample n iq
  if h.portState n = portRun ∧ h.blockNeeds n (h.port n).nextTag ≤ (h.port n).cnt then h.blockEnds n else h

/-- The sampling edges of a list, in order. -/
def Hw.samples (h : Hw) (n : Nat) : List (Nat × Nat) → Hw
  | [] => h
  | x :: xs => (h.takeSample n x).samples n xs

/-- RING_BLOCK_WRITTEN: in RUN the port takes the samples up to the end of the block in progress; a synthetic count reaches that end (R89, R97). -/
def Hw.blockWritten (h : Hw) (n : Nat) (xs : List (Nat × Nat)) : Hw :=
  if h.portState n = portRun then h.samples n (xs.take (h.blockNeeds n (h.port n).nextTag - (h.port n).cnt))
  else if h.counting n then ((h.endSynBlock n).coilProgress n).portWork n
  else h

/-- A gap begins at the sample that carries the present count: the block that holds it and all that follow are GAP, and the fractional
accumulator of the synthetic count starts at 0 (R97; its start value is a DESIGN CHOICE, assumption log 97). -/
def Hw.gapBegins (h : Hw) (n : Nat) : Hw :=
  let p := h.port n
  match p.gapFrom with
  | some _ => h
  | none =>
    let b := h.blockOf n p.cnt
    h.setPort n { p with gapFrom := some b, lostAt := p.cnt, acc := 0, good := 0, bad := 0, resumeAt := none }

/-- The block in progress is tagged again with its new marks (R89). -/
def Hw.tagNow (h : Hw) (n : Nat) : Hw :=
  let p := h.port n
  h.writeTag n (h.blockOf n p.cnt) p.notched

/-! ### Stop and start (R61, R67, R73, R86, R780) -/

/-- PORT_STOP of port n (Table 2.3, R72, R73). -/
def Hw.portStop (h : Hw) (n : Nat) : Hw :=
  let st := h.portState n
  if st = portOff then h
  else
    let h := h.coilAbort n
    let h := if st = portRun then h.gapBegins n else h
    let busy := h.strandList.any fun p => p.2.state != .idle && bodyPort p.2.body == n
    let h := h.setPort n { h.port n with syn := st != portArmed && busy, resumeAt := none }
    let h := h.setPortState n portOff
    let h := h.searchLost n
    let h := h.endSynthetic n
    let h := if h.counting n then h else h.refuseWaiting n
    if n = 0 then h.settleSchedule else h

/-- The ring regions of two ports overlap. -/
def Hw.ringsOverlap (h : Hw) (n m : Nat) : Bool :=
  let b := h.rf (SP_RING_BASE n)
  let c := h.rf (SP_RING_BASE m)
  decide (b < c + h.rf (SP_RING_SIZE m)) && decide (c < b + h.rf (SP_RING_SIZE n))

/-- A start request of port n is valid (R61, R86, R335). Every port that is not OFF counts as armed or running, in GAP and HALTED too, since its
ring still holds samples (R86; DESIGN CHOICE, assumption log 97). -/
def Hw.startOk (h : Hw) (n : Nat) : Bool :=
  let b := h.rf (SP_RING_BASE n)
  let s := h.rf (SP_RING_SIZE n)
  decide (16368 ≤ h.rate n) && decide (h.rate n ≤ 81840) && decide (h.rf (SP_CFG_FMT n) < 4) && decide (h.rf (SP_CFG_DEC n) < 3) &&
    decide (1 ≤ s) && decide (s ≤ 16) && decide (b + s ≤ 16) &&
    (upTo 4).all (fun m => m == n || h.portState m == portOff || !h.ringsOverlap n m) &&
    (upTo 4).all (fun u => !(decide (b < 4 * (u + 1)) && decide (4 * u < b + s)) || h.unitOn u) &&
    !(h.coilState == coilHeld && h.coilPort n)

/-- PORT_START of port n: ARMED, or refused (Table 2.3, R61, R69, R73). A port that the configuration does not have takes no start (R4). The
running sum S and the spectrum in progress start at 0; SPn_MON shows their old values until the next judged window (DESIGN CHOICE, assumption
log 97). -/
def Hw.portStart (h : Hw) (n : Nat) : Hw :=
  if h.portState n ≠ portOff ∨ h.portCount ≤ n then h
  else if !h.startOk n then h.sf (SP_EVT_CFG_ERR n) 1
  else
    let h := forEach (fun s h => (h.toIdle s 0x22).recheckStaged s)
      ((h.strandList.filter fun p => p.2.state != .idle && bodyPort p.2.body == n).map (·.1)) h
    let p := h.port n
    let h := h.setPort n { p with
      cnt := 0, syn := false, acc := 0, fresh := true, prevBig := false, sum := 0, good := 0, bad := 0, winCnt := 0, resumeAt := none,
      gaps := [], gapFrom := none, suspects := [], nextTag := 0, hold := none, holdEnd := false, noTags := [], cap := none, lostAt := 0,
      edges := 0, specIn := [], specSum := [], specN := 0 }
    let h := h.hitchForget n
    let h := h.setPort n { h.port n with era := (h.port n).era + 1, gapMet := [] }
    let h := if n = 0 then h.hitchRestart else h
    h.setPortState n portArmed

/-- A write of SPORT_CTRL: its fields, every STOP, then every START, ports ascending (R86, R780). -/
def Hw.sportCtrl (h : Hw) (v : Nat) : Hw :=
  let h := h.writeFields SPORT_CTRL v
  let h := forEach (fun n h => if bit v (4 + n) then h.portStop n else h) (upTo 4) h
  forEach (fun n h => if bit v n then h.portStart n else h) (upTo 4) h

/-- PORT_RUN (R67, R69, R70): the first sampling edge after the start edge. -/
def Hw.portRuns (h : Hw) (n : Nat) (iq : Nat × Nat) : Hw :=
  if h.portState n = portArmed then
    let h := (h.latchRef n).setPortState n portRun
    h.takeSample n iq
  else h

/-- NOTCH_ADAPT: the samples that come meanwhile are taken, and a step of the notch's frequency that is due is taken (R81). -/
def Hw.notchSamples (h : Hw) (n m : Nat) (xs : List (Nat × Nat)) : Hw := (h.samples n xs).notchAdaptStep n m

/-! ### Stops, discontinuities, the monitor, resume (R92 to R104) -/

/-- STOP_DECLARED (R92, R97): the samples before the stop are taken; the port is in GAP and counts synthetically from the expected count, which
the specification bounds and does not fix: 2 to 4 sample periods have passed. The log entry carries the count after the last real edge, a
glitch's the count at the window's end (DESIGN CHOICE, assumption log 97). -/
def Hw.stopDeclared (h : Hw) (n : Nat) (xs : List (Nat × Nat)) : Hw :=
  if h.portState n ≠ portRun then h
  else
    let h := h.samples n xs
    let h := h.gapBegins n
    let h := h.tagNow n
    let c := (h.port n).cnt
    let (v, h) := h.fresh
    let p := h.port n
    let h := h.setPort n { p with cnt := p.cnt + 2 + v % 3 }
    let h := ((h.setPortState n portGap).sf (SP_EVT_STOP_EV n) 1).bump (SP_TALLY_GAPS n)
    (h.logPort n 1 c).coilAbort n

/-- DISCONTINUITY (R94): the block being written is SUSPECT. -/
def Hw.discontinuity (h : Hw) (n : Nat) : Hw :=
  if h.portState n ≠ portRun then h
  else
    let c := (h.port n).cnt
    let h := h.markSuspect n (h.blockOf n c) (h.blockOf n c)
    let h := ((h.coilShow n).sf (SP_EVT_DISCONT n) 1).bump (SP_TALLY_GLITCHES n)
    h.logPort n 3 c

/-- A rate change is declared: HALTED, and the count goes on synthetically (R96, R97, R100). -/
def Hw.rateChange (h : Hw) (n : Nat) : Hw :=
  let h := h.gapBegins n
  let h := h.tagNow n
  let h := (h.setPortState n portHalted).sf (SP_EVT_RATE_CHG n) 1
  let h := h.logPort n 4 (h.port n).cnt
  (h.searchLost n).coilAbort n

/-- SPn_MON.RATE_TOL as it acts. -/
def Hw.rateTol (h : Hw) (n : Nat) : Nat := max 1 (h.rf (SP_MON_RATE_TOL n))

/-- The window of port n in RUN (R95, R96): its samples carry the counts from the end of the window before. -/
def Hw.windowRun (h : Hw) (n : Nat) : Hw :=
  let p := h.port n
  let c := p.edges
  if p.fresh then h
  else
    let e : Int := (c : Int) - (h.rate n : Int)
    let big := decide (h.rateTol n < e.natAbs)
    let s := p.sum + e
    let h := h.sfInt (SP_MON_ERR n) e
    let mark := fun h : Hw => if c = 0 then h else (h.markSuspect n (h.blockOf n p.winCnt) (h.blockOf n (p.cnt - 1))).coilShow n
    if big ∧ p.prevBig then
      let h := h.setPort n { p with sum := s, prevBig := big }
      ((mark h).sfInt (SP_MON_SUM n) s).rateChange n
    else if 2 ≤ s.natAbs then
      let h := h.setPort n { p with sum := 0, prevBig := big }
      let h := (((mark h).sfInt (SP_MON_SUM n) 0).sf (SP_EVT_GLITCH n) 1).bump (SP_TALLY_GLITCHES n)
      h.logPort n 2 p.cnt
    else (h.setPort n { p with sum := s, prevBig := big }).sfInt (SP_MON_SUM n) s

/-- The synthetic count over one whole window: RATE_KHZ samples from the count at its start (R97). -/
def Hw.windowSynthetic (h : Hw) (n : Nat) : Hw :=
  let p := h.port n
  if p.winCnt = 0 then h else h.setPort n { p with cnt := max p.cnt (p.winCnt + h.rate n) }

/-- The window of port n in GAP, judged by its real edges (R100). -/
def Hw.windowGap (h : Hw) (n : Nat) : Hw :=
  let c := (h.port n).edges
  let h := h.windowSynthetic n
  let e : Int := (c : Int) - (h.rate n : Int)
  let h := h.sfInt (SP_MON_ERR n) e
  let p := h.port n
  if e.natAbs ≤ h.rateTol n then
    let g := p.good + 1
    let at_ := if 4 ≤ g ∧ p.resumeAt.isNone ∧ h.on (SP_CFG_AUTO_RES n) then some (h.ringCount n / 2048 + 1) else p.resumeAt
    h.setPort n { p with good := g, bad := 0, resumeAt := at_ }
  else if 0 < c then
    let h := h.setPort n { p with good := 0, bad := p.bad + 1 }
    if 1 ≤ p.bad then h.rateChange n else h
  else h.setPort n { p with good := 0, bad := 0 }

/-- The end of a window for port n: its samples are taken, the window is judged, and the next one begins at the present count, the settled count
(R95, R96, R100, R102, R105). -/
def Hw.portWindow (h : Hw) (n : Nat) (xs : List (Nat × Nat)) : Hw :=
  let h := h.samples n xs
  let st := h.portState n
  let h :=
    if st = portRun then h.windowRun n
    else if st = portGap then h.windowGap n
    else if h.counting n then h.windowSynthetic n
    else h
  let p := h.port n
  h.setPort n { p with winCnt := p.cnt, edges := 0, specIn := [], fresh := p.fresh && (st == portArmed || st == portOff) }

/-- MONITOR_WINDOW_END (R95): every port, with the samples since those it has taken. -/
def Hw.windowEnd (h : Hw) (xs : List (List (Nat × Nat))) : Hw :=
  forEach (fun n h => h.portWindow n (xs.getD n [])) (upTo 4) (h.count ⟨SPORT_STAT, 16, 16⟩)

/-- The blocks that the synthetic count has passed up to block b are ended (R89, R97). -/
def Hw.endBlocksTo (h : Hw) (n b : Nat) : Hw :=
  forEach (fun _ h => if (h.port n).nextTag < b then h.endSynBlock n else h) (upTo (b - (h.port n).nextTag)) h

/-- PORT_RESUME (R100, R101): the synthetic count reaches the block boundary, and real edges carry it on. -/
def Hw.portResume (h : Hw) (n : Nat) : Hw :=
  match h.portState n == portGap, (h.port n).resumeAt with
  | true, some b =>
    let h := h.endBlocksTo n b
    let p := h.port n
    let c := 2048 * b * h.dec n
    let gaps := match p.gapFrom with
      | some g => if g < b then p.gaps ++ [(g, b - 1)] else p.gaps
      | none => p.gaps
    let h := h.setPort n { p with cnt := c, gaps := gaps, gapFrom := none, resumeAt := none, fresh := true, prevBig := false }
    let h := (h.setPortState n portRun).sf (SP_EVT_RESUMED n) 1
    let h := h.logPort n 5 c
    let h := forEach (fun s h => h.setStrand s ((h.strand s).slipEvent (c / h.dec n)))
      ((h.strandList.filter fun p => p.2.state.tracking && bodyPort p.2.body == n).map (·.1)) h
    h.portWork n
  | _, _ => h

end Sys2Proof.Machine
end

