-- ==== Sys2Proof/Machine/HotSnap.lean ====
section
/-! DEFINITION. The sleep-and-fix cycle and the streaming of a capture (R342 to R347). What the live record and SNAP_RESULT hold inside belongs to
Fofiys firmware, so operands bring the one and free values make the other. -/

namespace Sys2Proof.Machine

/-! ### The sleep-and-fix cycle -/

/-- The ports and the length a capture uses: SNAP_PORTS and SNAP_LEN_MS at their nearest limits (Table 7.6, R330). -/
def Hw.snapPorts (h : Hw) : Nat := h.obj 0x2101 3 % 16
def Hw.snapLen (h : Hw) : Nat := max 2 (min 50 (h.obj 0x2101 4))

/-- A gain code goes to the tuner of port n where gain control knows its tuner (R114); the words that power up or set other tuners are the tuners'
own. -/
def Hw.snapGain (h : Hw) (n gain : Nat) : Hw :=
  if h.rf TSPI_GAIN_PORT = n then
    (h.sf TSPI_GAIN_GCODE gain).tspiCmd (gain % 64 + 256 * h.rf TSPI_GAIN_ADDR + h.rf TSPI_GAIN_CS * pow2 26)
  else h

/-- THR and gain of port n come from the kept data where these are usable (R327, R342). -/
def Hw.snapSettings (h : Hw) (n : Nat) : Hw :=
  match h.hot.facts.bind fun f => h.portKept f n with
  | some p => (h.sf (SP_QNT_THR n) p.thr).snapGain n p.gain
  | none => h

/-- The ports are started and the capture is armed with SKIP = 4 (R342). -/
def Hw.snapArm (h : Hw) (ports len : Nat) : Hw :=
  let h := forEach (fun n h => if bit ports n then h.snapSettings n else h) (upTo 4) h
  let h := h.reach (h.tcnt + h.obj 0x2101 5 * 491520)
  (h.sportCtrl ((h.reg SPORT_CTRL).toNat / 256 * 256 + ports)).coilCtrl (ports + 16 * len + 1024 * 4 + 65536)

/-- The ports of the capture are stopped (R342, 7.5). -/
def Hw.snapStop (h : Hw) : Hw := forEach (fun n h => h.portStop n) h.coilPorts h

/-- The byte of an outcome in SNAP_RESULT (assumption log 115). -/
def SnapOutcome.byte (o : SnapOutcome) : Nat :=
  (Config.snapCode (match o with
    | .notHot => 0
    | .fix => 1
    | .noFixSats => 2
    | .captureAbort => 3
    | .abandoned => 4
    | .streamTimeout => 5)).toNat

/-- SNAP_RESULT takes an outcome with the rest of its record, and the cycle ends: the record is published. -/
def Hw.snapOutcome (h : Hw) (o : SnapOutcome) : Hw :=
  let (n, h) := h.fresh
  let (bs, h) := h.freshBytes (n % 56)
  (h.setHot { h.hot with result := some o, record := bs, cycle := false, strands := [] }).notice 0x2101 8 (o.byte :: bs)

/-- SNAP_RESULT as it reads: nothing before the first cycle (assumption log 115). -/
def Hw.snapRecord (h : Hw) : List Nat :=
  match h.hot.result with
  | none => []
  | some o => o.byte :: h.hot.record

/-- SP0 can hold a capture of 50 ms (R330, R331). -/
def Hw.snapLong (h : Hw) : Bool := decide (ceilDiv (50 * h.rate 0 / h.dec 0) 2048 ≤ h.rf (SP_RING_SIZE 0) * 64)

/-- The firmware requests Slack (R342). -/
def Hw.snapSleep (h : Hw) : Hw := if h.stalls = [] then h.slackRequest 1 0 [] else h

/-- The fabric, the loop cores and the sample memory are woken by the first accesses, and are ready (R638, Table 7.7). -/
def Hw.snapDomains (h : Hw) : Hw :=
  forEach (fun d h => (if h.domState d = 0 then h.wakeDomain d else h).domainReady d) (upTo 3) h

/-- The cycle begins (R342): not from a start that is not HOT. -/
def Hw.snapBegin (h : Hw) : Hw :=
  let h := h.snapTaken
  if h.hot.class_ ≠ 2 then (h.snapOutcome .notHot).snapSleep
  else
    let h := h.snapDomains
    (h.setHot { h.hot with cycle := true, retried := false, strands := [] }).snapArm h.snapPorts h.snapLen

/-- The one retry, with SP0 alone and 50 ms (R342). -/
def Hw.snapRetry (h : Hw) : Hw :=
  let h := h.snapStop.coilRelease
  (h.setHot { h.hot with retried := true, strands := [] }).snapArm 1 50

/-- With SNAP_OUT = 1 the capture stays HELD and is published for the host (7.5, R344). -/
def Hw.snapStream (h : Hw) : Hw :=
  let h := h.snapStop
  let h := h.setHot { h.hot with cycle := false, stream := true }
  h.notice 0x2102 1 (leBytes 2 (h.rf COIL_STAT_CAPSEQ))

/-- The cycle ends with an outcome and the live record it leaves, and the firmware requests Slack (R342). -/
def Hw.snapFinishCycle (h : Hw) (o : SnapOutcome) (live : List Nat) : Hw :=
  let h := h.snapStop.coilRelease
  ((h.setHot { h.hot with live := live.take 0x3FC0 }).snapOutcome o).snapSleep

/-! ### The Strands of a cycle (R342) -/

/-- A body of the first stage, or of the second: MODE = SNAPSHOT, and the window and DWELL that the procedure gives. -/
def snapBody (first : Bool) (b : List Nat) : List Nat :=
  let w := fun (i : Nat) => b.getD i 0 % pow2 32
  (upTo 22).map fun i =>
    if i = 0 then w 0 / 16 * 16 + 2 * 6 + 1
    else if i = 4 then w 4 % 65536 + (if first then 0 else 32 * 65536)
    else if i = 5 then w 5 / pow2 24 * pow2 24 + (if first then 400 + 8 * 65536 else 20 * 65536)
    else w i

/-- The navigation controller writes the body of Strand s and commits it with its doorbell (R156). -/
def Hw.snapCommit (h : Hw) (first : Bool) (x : Fin 512 × List (BitVec 32)) : Hw :=
  let s := x.1.val
  let h := forEach (fun y h => h.memWrite .nav (entryAddr s + 4 * y.2) 4 y.1) (snapBody first (x.2.map (·.toNat))).zipIdx h
  let h := h.commitObject s true
  h.setHot { h.hot with strands := h.hot.strands ++ [s] }

/-- The Strands committed so far have done their work. -/
def Hw.snapIdle (h : Hw) : Bool := h.hot.strands.all fun s => (h.strand s).state != .snapshot

/-- Detections among the Strands of the cycle: DETECT of their results (Table 7.5). -/
def Hw.snapDetected (h : Hw) : Nat := (h.hot.strands.filter fun s => bit (h.load32 (stateBlock s + 48)) 24).length

/-- The first stage, of two Strands at most, is committed once the capture is armed; the second once it is HELD and the first has done its work. -/
def Hw.snapStage (h : Hw) (bodies : List (Fin 512 × List (BitVec 32))) : Hw :=
  if h.hot.strands = [] then
    if h.coilState = coilEmpty ∨ h.coilState = coilAborted then h else forEach (fun x h => h.snapCommit true x) (bodies.take 2) h
  else if h.coilState = coilHeld ∧ h.snapIdle then forEach (fun x h => h.snapCommit false x) bodies h
  else h

/-- The cycle goes to its end: an aborted capture, the stream, a fix, the retry, or too few satellites; none while work is in progress. -/
def Hw.snapEndCycle (h : Hw) (live : List Nat) : Hw :=
  if h.coilState = coilAborted ∨ h.coilState = coilEmpty then h.snapFinishCycle .captureAbort live
  else if h.coilState ≠ coilHeld then h
  else if h.obj 0x2101 6 = 1 then h.snapStream
  else if !h.snapIdle then h
  else if h.obj 0x2101 7 ≤ h.snapDetected then h.snapFinishCycle .fix live
  else if !h.hot.retried && h.snapLong then h.snapRetry
  else h.snapFinishCycle .noFixSats live

/-- SNAPSHOT_CYCLE (R342): a step of the procedure, where it is that step's turn. -/
def Hw.snapCycle (h : Hw) (what : SnapStep) (live : List Nat) : Hw :=
  if !h.fwUp then h
  else match what with
    | .begin_ => if h.obj 0x2101 1 = 1 ∧ !h.hot.cycle ∧ !h.hot.stream ∧ h.snapTurn then h.snapBegin else h
    | .commit bodies => if h.hot.cycle then h.snapStage bodies else h
    | .finish => if h.hot.cycle then h.snapEndCycle live else h

/-- SNAPSHOT_ABANDON (R343): ignition ON or wheel speed during a cycle. -/
def Hw.snapAbandon (h : Hw) : Hw := if h.hot.cycle then h.coilRelease.snapOutcome .abandoned else h

/-! ### Streaming (R344 to R347) -/

/-- COIL_RELEASE_OBJECT (R347). -/
def Hw.coilReleaseObj (h : Hw) : Hw := (h.setHot { h.hot with stream := false }).coilRelease

/-- COIL_STREAM_TIMEOUT (R347): 30 s after HELD. -/
def Hw.coilStreamTimeout (h : Hw) : Hw :=
  if h.hot.stream then ((h.reach (h.hot.heldAt + 30 * secondTicks)).coilReleaseObj).snapOutcome .streamTimeout else h

end Sys2Proof.Machine
end

