-- ==== Sys2Proof/Machine/I2cBus.lean ====
section
/-! DEFINITION. The I2C controller (18.4). -/

namespace Sys2Proof.Machine

/-- The part with the I2C controller changed. -/
def Hw.setI2c (h : Hw) (c : I2c) : Hw := { h with i2c := c }

/-- LEN, READ and NOSTOP of the command in progress. -/
def I2c.len (c : I2c) : Nat := bits c.cmd 8 8
def I2c.read (c : I2c) : Bool := bit c.cmd 7
def I2c.noStop (c : I2c) : Bool := bit c.cmd 16

/-- The START is sent: the bus is no longer free. -/
def Hw.i2cStart (h : Hw) : Hw := (h.sf I2C_STAT_HELD 0).setI2c { h.i2c with sent := true, free := false }

/-- I2C_CMD (R750, R751). -/
def Hw.i2cCmd (h : Hw) (v : Nat) : Hw :=
  if !h.on I2C_CFG_EN ∨ h.on I2C_STAT_BUSY then h.sf I2C_STAT_CFG_ERR 1
  else
    let h := (h.setI2c { h.i2c with cmd := v, sent := false, addrd := false }).sf I2C_STAT_BUSY 1
    let h := h.sf I2C_STAT_DONECNT 0
    if h.on I2C_STAT_HELD ∨ h.i2c.free then h.i2cStart else h

/-- I2C_BUS_FREE_START (R751): the bus has been high long enough: a START that waits is sent; without one, the bus is free for the next. -/
def Hw.i2cFree (h : Hw) : Hw :=
  if h.on I2C_STAT_BUSY then (if h.i2c.sent then h else h.i2cStart)
  else if h.on I2C_CFG_EN ∧ !h.on I2C_STAT_HELD then h.setI2c { h.i2c with free := true }
  else h

/-- The command ends (R757); `stop` when a STOP has been sent, after which the bus is free. -/
def Hw.i2cEnd (h : Hw) (stop : Bool) : Hw :=
  ((h.sf I2C_STAT_BUSY 0).sf I2C_STAT_DONE 1).setI2c { h.i2c with sent := false, addrd := false, free := stop }

/-- I2C_BYTE (R753 to R755): `data` is the byte read, `ack` the slave's acknowledgement of a byte sent, `lost` that arbitration is lost. A byte
that waits for a FIFO is not transferred yet. -/
def Hw.i2cByte (h : Hw) (data : Nat) (ack lost : Bool) : Hw :=
  let c := h.i2c
  let n := h.rf I2C_STAT_DONECNT
  let nack := fun (h : Hw) => (h.sf I2C_STAT_NACK 1).i2cEnd true
  if !h.on I2C_STAT_BUSY ∨ !c.sent ∨ (c.addrd && c.len == n) then h
  else if !c.addrd then
    if lost then (h.sf I2C_STAT_ARBLOST 1).i2cEnd false
    else if ack then h.setI2c { c with addrd := true }
    else nack h
  else if c.read then
    if 8 ≤ c.rx.length then h
    else if lost then (h.sf I2C_STAT_ARBLOST 1).i2cEnd false
    else (h.setI2c { c with rx := c.rx ++ [data % 256] }).sf I2C_STAT_DONECNT (n + 1)
  else match c.tx with
    | [] => h
    | _ :: rest =>
      let h := h.setI2c { c with tx := rest }
      if lost then (h.sf I2C_STAT_ARBLOST 1).i2cEnd false
      else if ack then h.sf I2C_STAT_DONECNT (n + 1)
      else nack h

/-- I2C_COMMAND_END (R750, R757): every byte has been transferred. -/
def Hw.i2cDone (h : Hw) : Hw :=
  let c := h.i2c
  if !h.on I2C_STAT_BUSY ∨ !c.addrd ∨ c.len ≠ h.rf I2C_STAT_DONECNT then h
  else if c.noStop then (h.sf I2C_STAT_HELD 1).i2cEnd false
  else h.i2cEnd true

/-- I2C_TIMEOUT (R756): `stop` when the bus lets the controller send a STOP. -/
def Hw.i2cTimeout (h : Hw) (stop : Bool) : Hw :=
  if h.on I2C_STAT_BUSY then (h.sf I2C_STAT_TIMEOUT 1).i2cEnd stop else h

/-- I2C_DATA_WRITE (R753). -/
def Hw.i2cWrite (h : Hw) (v : Nat) : Hw :=
  if 8 ≤ h.i2c.tx.length then h.sf I2C_STAT_CFG_ERR 1 else h.setI2c { h.i2c with tx := h.i2c.tx ++ [v % 256] }

/-- I2C_DATA_READ (R753). -/
def Hw.i2cRead (h : Hw) : Hw :=
  match h.i2c.rx with
  | [] => { h with resp := .data 0 }
  | b :: rest => { h.setI2c { h.i2c with rx := rest } with resp := .data (b + pow2 31) }

/-- A write of I2C_CFG: EN set anew waits for the bus (R751). -/
def Hw.i2cCfg (h : Hw) (v : Nat) : Hw :=
  let was := h.on I2C_CFG_EN
  let h := h.writeFields I2C_CFG v
  if h.on I2C_CFG_EN ∧ !was then h.setI2c { h.i2c with free := false } else h

/-- I2C_STAT as it reads. -/
def Hw.i2cStat (h : Hw) : Nat := I2C_STAT_RXCNT.insert (I2C_STAT_TXCNT.insert (h.reg I2C_STAT).toNat h.i2c.tx.length) h.i2c.rx.length

end Sys2Proof.Machine
end

