-- ==== Sys2Proof/Machine/StrandCmds.lean ====
section
/-! DEFINITION. The commands of the strand table, the fabric and the loop-task dispatcher (chapters 3 to 5). -/

namespace Sys2Proof.Machine

/-- STRAND_SCAN: a scan of every entry (R139). -/
def execStrandScan (s : State) : Host.Outcome State Fault Refusal := s.does (·.scan)

/-- FAB_FLUSH: a doorbell is queued (R141, R143). -/
def execFabFlush (v : BitVec 32) (s : State) : Host.Outcome State Fault Refusal := s.does (·.ringBell (if bit v.toNat 31 then none else some (v.toNat % 512)))

/-- DOORBELL_SERVED: the cache serves the oldest doorbell (R141). -/
def execDoorbellServed (s : State) : Host.Outcome State Fault Refusal := s.does (·.serveBell)

/-- STAGED_BODY_APPLY: a staged body reaches its ring-block boundary (R135). -/
def execStagedBodyApply (k : Fin 512) (s : State) : Host.Outcome State Fault Refusal := s.does fun h => (h.applyAtBlock k).refill

/-- DISPATCH_TO_DEQUE: the head of the issue queue moves to its home engine (R178). -/
def execDispatchToDeque (s : State) : Host.Outcome State Fault Refusal := s.does (·.dispatchItem)

/-- ENGINE_TAKE: an engine takes or steals an item (R189 to R196). -/
def execEngineTake (e : Fin 32) (s : State) : Host.Outcome State Fault Refusal := s.does fun h => (h.engineTake e).refill

/-- ITEM_COMPLETE: an engine finishes its item (R167, R187). -/
def execItemComplete (e : Fin 32) (s : State) : Host.Outcome State Fault Refusal := s.does fun h => (h.itemComplete e).refill

/-- GATHER: a gatherer drains one slot (R197). -/
def execGather (c : Fin 4) (s : State) : Host.Outcome State Fault Refusal := s.does fun h => (h.gather c).refill

/-- REAPER_SWEEP: late items starve (R183). -/
def execReaperSweep (s : State) : Host.Outcome State Fault Refusal := s.does (·.reaperSweep)

/-- INTEGRATION_CLOSE: the boundary of a Strand is closed (R173). -/
def execIntegrationClose (k : Fin 512) (s : State) : Host.Outcome State Fault Refusal := s.does fun h => (h.close k).refill

/-- PULL_TMO_EXPIRY: the boundary at which PULL_TMO has run out is closed (R123, Table 3.6). -/
def execPullTmoExpiry (k : Fin 512) (s : State) : Host.Outcome State Fault Refusal := s.does fun h => (h.pullExpiry k).refill

/-- COAST_MAX_EXPIRY: the boundary at which COAST_MAX is reached is closed (R123, Table 3.6). -/
def execCoastMaxExpiry (k : Fin 512) (s : State) : Host.Outcome State Fault Refusal := s.does fun h => (h.coastExpiry k).refill

/-- TRANCHE_ALLOCATE: free tranche entries go to Strands in turn (R207). -/
def execTrancheAllocate (s : State) : Host.Outcome State Fault Refusal := s.does fun h => h.allocate 64

/-- TRANCHE_START: an allocated tranche starts (R204, R205). -/
def execTrancheStart (i : Fin 64) (s : State) : Host.Outcome State Fault Refusal := s.does (·.startTranche i)

/-- SEARCH_DETECT_ENTRY: a detection enters PULL_IN (R264). -/
def execSearchDetectEntry (k : Fin 512) (s : State) : Host.Outcome State Fault Refusal := s.does fun h => (h.detectEntry k).refill

/-- ENGINE_TEST_START: a write of FAB_TEST (R214, R216). -/
def execEngineTestStart (v : BitVec 32) (s : State) : Host.Outcome State Fault Refusal := s.does (·.testStart v.toNat)

/-- ENGINE_REST_MARCH: the resting engine runs its march (R214). -/
def execEngineRestMarch (s : State) : Host.Outcome State Fault Refusal := s.does (·.testMarch)

/-- ENGINE_TEST_COMPLETE: the test ends (R215, R55). -/
def execEngineTestComplete (pass : Bool) (s : State) : Host.Outcome State Fault Refusal := s.does fun h => (h.testDone pass).refill

/-- LOOP_TASK_DISPATCH: a free core takes a task (R222). -/
def execLoopTaskDispatch (c : Fin 8) (s : State) : Host.Outcome State Fault Refusal := s.does (·.taskDispatch c)

/-- PREEMPT_SAVE: a pre-emption takes effect (R377, R378). -/
def execPreemptSave (c : Fin 8) (s : State) : Host.Outcome State Fault Refusal := s.does (·.preemptSave c)

end Sys2Proof.Machine
end

