-- ==== Sys2Proof/Machine/BusViews.lean ====
section
/-! DEFINITION. Registers as they read (R17, R18, R20, R50): the fields that another piece of the state holds, the counters that a read clears,
the FIFOs whose head a read removes, and the latched pairs. -/

namespace Sys2Proof.Machine

/-! ### Where registers lie -/

/-- Copy of a repeated register at `a`: copies `stride` apart from `base`, `count` of them. -/
def copyOf (base stride count a : Nat) : Option Nat :=
  if base ≤ a ∧ (a - base) % stride = 0 ∧ (a - base) / stride < count then some ((a - base) / stride) else none

/-- Words of a register block that are no registers of the map: spectra (R106), ring-block tags (R88), log entries (R718), and the radio's hold
descriptors, packet buffers, step list, step results and per-step values (R560, R580, R582, R585). -/
def windowWord (a : Nat) : Bool :=
  within 0x40032000 0x400327FF a || within 0x40034000 0x40037FFF a || within 0x40090400 0x400907FF a || within 0x40160800 0x401608FF a ||
    within 0x40161000 0x401617FF a || within 0x40163000 0x4016327F a || within 0x40164000 0x40164FFF a || within 0x40165000 0x401663FF a

/-- The bits of word i of a hold descriptor that are not reserved (Table 12.8). -/
def holdMask (i : Nat) : Nat :=
  match i with
  | 0 => 0xFFF
  | 2 => 0xFFFFFF
  | 5 => 0xFFFF
  | 7 => 0x1F
  | 8 | 9 | 10 | 11 | 12 | 13 | 14 | 15 => 0
  | _ => 0xFFFFFFFF

/-- The bits of word i of the per-step values that are not reserved (Table 12.6). -/
def stepMask (i : Nat) : Nat := if i = 6 then 3 else if i = 7 then 0 else 0xFFFFFFFF

/-- The bits of the window word at `a` that a write changes (R21): of the radio's hold descriptors, packet buffers, step list and per-step
values; none of the other windows. -/
def windowMask (a : Nat) : Nat :=
  if within 0x40160800 0x401608FF a then holdMask (a % 0x40 / 4)
  else if within 0x40161000 0x401617FF a then 0xFFFFFFFF
  else if within 0x40163000 0x4016327F a then 0x1FF
  else if within 0x40165000 0x401663FF a then stepMask (a % 0x20 / 4)
  else 0

/-- The address lies in a register block (Table 1.8). -/
def isBlock (a : Nat) : Bool := within 0x40000000 0x4019FFFF a || within 0x50000000 0x5002FFFF a

/-- A register or a window word lies at `a` (R50). -/
def regHere (a : Nat) : Bool := (regAt a).isSome || windowWord a

/-! ### Fields computed on read -/

/-- A mask of the numbers below n that satisfy p. -/
def maskOf (n : Nat) (p : Nat → Bool) : Nat := (upTo n).foldl (fun m k => m + (if p k then pow2 k else 0)) 0

/-- Values for several fields of one register, in a row. -/
def insertAll (v : Nat) (fs : List (Fld × Nat)) : Nat := fs.foldl (fun v x => x.1.insert v x.2) v

/-- FAB_QSTAT, FAB_LOAD, FAB_CAP, FAB_CMTSTAT and the engine masks. -/
def Hw.fabView (h : Hw) (a v : Nat) : Nat :=
  if a = FAB_ENGEN then h.fuses.engineSet
  else if a = FAB_ENGRET then h.pwr.engRet
  else if a = FAB_RETCAUSE then h.pwr.engCause
  else if a = FAB_QSTAT then
    insertAll v [(FAB_QSTAT_IQCNT, h.fab.issue.length), (FAB_QSTAT_TRANCHES, (h.fab.tranches.filter fun e => e.2.isSome).length),
      (FAB_QSTAT_CELLU, h.cellUnits), (FAB_QSTAT_LONGRUN, h.longRunning), (FAB_QSTAT_BUSY, (h.fab.engines.filter fun e => e.2.cur.isSome).length)]
  else if a = FAB_LOAD then
    insertAll v [(FAB_LOAD_LOAD, h.trackLoad / 400000000), (FAB_LOAD_FCAP, h.fabCapacity h.level / 100000000)]
  else if a = FAB_CMTSTAT then FAB_CMTSTAT_DBCNT.insert v h.fab.bells.length
  else if a = FAB_CAP then insertAll v [(FAB_CAP_CAPACITY, h.capacity), (FAB_CAP_ACTIVE, h.activeCount)]
  else match copyOf (FAB_ENGSTAT 0) 4 32 a with
    | none => v
    | some e =>
      let g := h.engine e
      insertAll v [(FAB_ENGSTAT_DEPTH e, g.deque.length), (FAB_ENGSTAT_BUSY e, b2n g.cur.isSome), (FAB_ENGSTAT_LIVE e, b2n (h.engLive e)),
        (FAB_ENGSTAT_REST e, b2n g.rest)]

/-- The loop-core and kernel-slot registers. -/
def Hw.loopView (h : Hw) (a v : Nat) : Nat :=
  if a = LOOP_CORES then
    insertAll v [(LOOP_CORES_ENABLED, h.fuses.coreSet), (LOOP_CORES_RETIRED, h.pwr.coreRet), (LOOP_CORES_BUSY, maskOf 8 fun c => (h.core c).run.isSome)]
  else if a = LOOP_QSTAT then
    insertAll v [(LOOP_QSTAT_READY, h.loop.ready.length), (LOOP_QSTAT_SAVED, ((upTo 8).map fun c => (h.core c).saved.length).sum)]
  else match copyOf (LOOP_CORESTAT 0) 4 8 a with
    | some c =>
      let k := h.core c
      insertAll v [(LOOP_CORESTAT_BUSY c, b2n k.run.isSome), (LOOP_CORESTAT_LIVE c, b2n (h.coreLive c)), (LOOP_CORESTAT_SAVED c, k.saved.length)]
    | none =>
      match copyOf (LOOP_KSLOT_CFG 0) 8 16 a with
      | some n => (LOOP_KSLOT_CFG_USERS n).insert v (min 1023 (h.slotUsers n))
      | none => v

/-- The armed ports, the serial, CAN, SPI and I2C status registers, and the Lanyard session. -/
def Hw.portView (h : Hw) (a v : Nat) : Nat :=
  if a = SPORT_CTRL then SPORT_CTRL_START.insert v (maskOf 4 fun n => h.portState n == portArmed)
  else if a = LYD_SESS then h.lydSess
  else if a = HSPI_STAT then insertAll v [(HSPI_STAT_OUTQ, h.fw.hspiOut.length), (HSPI_STAT_CS, b2n h.fw.hspiCs)]
  else if a = TSPI_STAT then
    insertAll v [(TSPI_STAT_QCNT, h.tspi.queue.length), (TSPI_STAT_RXCNT, h.tspi.rx.length), (TSPI_STAT_BUSY, b2n h.tspi.cur.isSome)]
  else if a = SSPI_STAT then
    insertAll v [(SSPI_STAT_RXCNT, h.sspi.rx.length), (SSPI_STAT_DCNT, h.sspi.stamps.length), (SSPI_STAT_BUSY, b2n h.sspi.cur.isSome)]
  else if a = I2C_STAT then h.i2cStat
  else match copyOf (UART_STAT 0) 0x10000 7 a with
    | some n => h.uartStatus n
    | none =>
      match copyOf (CAN_STAT 0) 0x10000 2 a with
      | some n => h.canStatus n
      | none => v

/-- The radio's registers. -/
def Hw.radioView (h : Hw) (a v : Nat) : Nat :=
  if a = RADIO_STAT then h.radioStatus
  else if a = RADIO_CMDST then h.radioCmdStatus
  else if a = RADIO_TIMER then h.radioTimer
  else if a = RADIO_FUSE then h.radioFuse
  else if a = RADIO_FMASK_LO then h.fuses.fmask % pow2 32
  else if a = RADIO_FMASK_HI then h.fuses.fmask / pow2 32
  else if a = RADIO_EFF then h.radioEff
  else if (copyOf (RADIO_CSKEY 0) 4 4 a).isSome then 0
  else v

/-- Word i of the stamp at the head of an event queue, 0 when it is empty (R675, R678). -/
def Hw.evWord (h : Hw) (n i : Nat) : Nat :=
  match h.evQueue n with
  | [] => 0
  | e :: _ => if i = 0 then e.ts0 else if i = 1 then e.ts1 else e.ts2

/-- The backup-domain registers. -/
def Hw.backupView (h : Hw) (a v : Nat) : Nat :=
  if a = RTC_TIME0 then time0Of h.rtc.sec
  else if a = RTC_TIME1 then h.time1View
  else if a = RTC_SUBSEC then h.subsecView
  else if a = RTC_STAT then RTC_STAT_WQ.insert v h.rtc.wq.length
  else if a = RTC_CDCNT then h.rtcCount
  else match copyOf (EV_STAT 0) 0x20 4 a with
    | some n => (EV_STAT_CNT n).insert v (h.evQueue n).length
    | none =>
      match copyOf (EV_TS0 0) 4 32 a with
      | some k => if k % 8 < 3 then h.evWord (k / 8) (k % 8) else v
      | none => v

/-- The register at `a` as it reads, before what the read itself does. -/
def Hw.regValue (h : Hw) (a : Nat) : Nat :=
  let v := (h.reg a).toNat
  if within 0x40040000 0x4004FFFF a then h.fabView a v
  else if within 0x40050000 0x4005FFFF a then h.loopView a v
  else if within 0x40160000 0x4016FFFF a then h.radioView a v
  else if within 0x50000000 0x5002FFFF a then h.backupView a v
  else if a = HITCH_STAT then HITCH_STAT_RUN.insert v (b2n h.epochsOccur)
  else if a = TM_STAT then TM_STAT_CNT.insert v h.tp.marks.length
  else if a = ELOG_STAT then h.elogStat
  else if a = UPD_CWIN then h.updCwin
  else if a = UPD_OTP then UPD_OTP_CNT.insert v h.fuses.otp
  else h.portView a v

/-! ### What a read does -/

/-- The read of the RCLR fields of `a` clears them (R20). -/
def Hw.clearRead (h : Hw) (a : Nat) : Hw :=
  match regAt a with
  | none => h
  | some (d, _) => if d.rclr = 0 then h else h.setReg a (BitVec.ofNat 32 ((h.reg a).toNat &&& (0xFFFFFFFF ^^^ d.rclr)))

/-- A read whose data are the register's value, its RCLR fields cleared. -/
def Hw.plainRead (h : Hw) (a : Nat) : Hw := { h.clearRead a with resp := .data (h.regValue a) }

/-- A read of the register or window word at `a`, which every check has let pass: FIFOs give their head, latching registers latch. -/
def Hw.regRead (h : Hw) (a : Nat) : Hw :=
  if a = TSPI_RX then h.tspiRead
  else if a = SSPI_RX then h.sspiRead
  else if a = SSPI_DRDY then h.sspiStamp
  else if a = I2C_DATA then h.i2cRead
  else if a = TM_T_LO then h.readMark
  else if a = TCNT_LO then h.readTcnt
  else if a = RADIO_DONE then h.radioDoneRead
  else if a = RTC_TIME0 then h.readTime0
  else match copyOf (SP_CNT_LO 0) 0x40 4 a with
    | some n => h.readCount n
    | none =>
      match copyOf (UART_DATA 0) 0x10000 7 a with
      | some n => h.uartRead n
      | none => h.plainRead a

/-- The value an object read of the register at `a` answers, with what the read does (R443). -/
def Hw.regObject (h : Hw) (a : Nat) : Nat × Hw :=
  let old := h.resp
  let h := h.regRead a
  let v := match h.resp with | .data v => v | _ => 0
  (v, { h with resp := old })

end Sys2Proof.Machine
end

