-- ==== Sys2Proof/Machine/Bus.lean ====
section
/-! DEFINITION. The system bus: a read and a write of any address by any master (R17, R42 to R50, R650 to R653, R702 to R704), with every register's own
effect of a write, and the control registers of the DMA channels (R712, R715, R716). -/

namespace Sys2Proof.Machine

/-! ### DMA control registers -/

def dmaIdle : Nat := 0
def dmaRun : Nat := 1
def dmaHalted : Nat := 2

/-- STATE of DMA channel c. -/
def Hw.dmaState (h : Hw) (c : Nat) : Nat := h.rf (DMA_STAT_STATE c)

/-- Beat width of channel c in bytes. -/
def Hw.dmaWidth (h : Hw) (c : Nat) : Nat := if h.on (DMA_CTRL_W64 c) then 8 else 4

/-- GO starts channel c (R712). -/
def Hw.dmaGoOk (h : Hw) (c : Nat) : Bool :=
  h.dmaState c == dmaIdle && h.rf (DMA_CNT_COUNT c) != 0 && h.rf (DMA_SRC_ADDR c) % h.dmaWidth c == 0 &&
    h.rf (DMA_DST_ADDR c) % h.dmaWidth c == 0 && !(c == 0 && h.on HITCH_CTRL_COPY_EN)

/-- GO (R712). -/
def Hw.dmaGo (h : Hw) (c : Nat) : Hw :=
  if h.dmaGoOk c then (h.sf (DMA_STAT_STATE c) dmaRun).sf (DMA_STAT_CAUSE c) 0 else h.sf (DMA_STAT_CFG_ERR c) 1

/-- The beat of channel c that waits after a COLLIDE is over. -/
def Hw.dmaForget (h : Hw) (c : Nat) : Hw := { h with dmaTry := Store.erase c h.dmaTry }

/-- RESUME (R715). -/
def Hw.dmaResume (h : Hw) (c : Nat) : Hw :=
  if h.dmaState c = dmaHalted then (h.sf (DMA_STAT_STATE c) dmaRun).sf (DMA_STAT_CAUSE c) 0 else h

/-- ABORT (R715): SRC, DST and COUNT stay as they are. -/
def Hw.dmaAbort (h : Hw) (c : Nat) : Hw := if h.dmaState c = dmaIdle then h else (h.dmaForget c).sf (DMA_STAT_STATE c) dmaIdle

/-- A write of a configuration register of channel c: ignored with CFG_ERR while the channel is not IDLE (R716). A write of the values that the
fields already hold is no write (assumption log 36). -/
def Hw.dmaConfig (h : Hw) (c a v : Nat) : Hw :=
  let mask := if a = DMA_CTRL c then 0x38 else 0xFFFFFFFF
  let old := (h.reg a).toNat
  let new := (match regAt a with | some (d, _) => d.written old v | none => v)
  if h.dmaState c = dmaIdle then h.writeFields a v
  else if old &&& mask = new &&& mask then h.writeFields a v
  else
    let kept := (old &&& mask) ||| (new &&& (0xFFFFFFFF ^^^ mask))
    (h.setReg a (BitVec.ofNat 32 kept)).sf (DMA_STAT_CFG_ERR c) 1

/-- A write of DMAc_CTRL: its fields, then ABORT, or RESUME, or GO (R712, R715, R716). -/
def Hw.dmaCtrl (h : Hw) (c v : Nat) : Hw :=
  let h := h.dmaConfig c (DMA_CTRL c) v
  if bit v 2 then h.dmaAbort c
  else if bit v 1 then h.dmaResume c
  else if bit v 0 then h.dmaGo c
  else h

/-- A write to a register of channel c, at offset o of its group. -/
def Hw.dmaWrite (h : Hw) (c o v : Nat) : Hw :=
  if o = 0x0C then h.dmaCtrl c v
  else if o = 0x10 then h.writeFields (DMA_STAT c) v
  else h.dmaConfig c (DMA_SRC c + o) v

/-! ### Writes with an effect of their own -/

/-- SYS, PWR and the DMA channels. -/
def Hw.sysWrite (h : Hw) (a v : Nat) : Hw :=
  if a = SYS_RST then h.sysRst v
  else if a = SYS_WDOG then h.wdWrite v
  else if a = SYS_WDKICK then h.wdKick v
  else if within 0x40000400 0x400004FF a then h.dmaWrite ((a - 0x40000400) / 0x20) (a % 0x20) v
  else if a = PWR_SLKREQ then h.slackRequest v 0 []
  else if a = PWR_STOP then h.stopRequest v
  else if a = PWR_PL then h.plTarget v
  else h.writeFields a v

/-- A write of SPn_CFG or SPn_RING (R71). -/
def Hw.portConfig (h : Hw) (n a v : Nat) : Hw :=
  if h.portState n = portOff then h.writeFields a v else h.sf (SP_EVT_CFG_LOCK n) 1

/-- The sample-port block: ports, tuner SPI, capture. -/
def Hw.sportWrite (h : Hw) (a v : Nat) : Hw :=
  if a = SPORT_CTRL then h.sportCtrl v
  else if a = TSPI_CMD then h.tspiCmd v
  else if a = COIL_CTRL then h.coilCtrl v
  else match copyOf (SP_CFG 0) 0x40 4 a, copyOf (SP_RING 0) 0x40 4 a with
    | some n, _ => h.portConfig n a v
    | none, some n => h.portConfig n a v
    | none, none =>
      match copyOf (SP_NOTCH0 0) 0x40 4 a, copyOf (SP_NOTCH1 0) 0x40 4 a with
      | some n, _ => h.notchWrite n 0 v
      | none, some n => h.notchWrite n 1 v
      | none, none => h.writeFields a v

/-- The fabric, the loop cores and the kernel slots. -/
def Hw.fabLoopWrite (h : Hw) (a v : Nat) : Hw :=
  if a = FAB_TEST then h.testStart v
  else if a = FAB_FLUSH then h.ringBell (if bit v 31 then none else some (v % 512))
  else match copyOf (LOOP_KSLOT_RANGE 0) 8 16 a, copyOf (LOOP_KSLOT_CFG 0) 8 16 a with
    | some n, _ => h.slotRangeWrite n v
    | none, some n => h.slotCfgWrite n v
    | none, none => h.writeFields a v

/-- A write of HITCH_COPY: a ring beyond the SRAM sets CFG_ERR. -/
def Hw.copyWrite (h : Hw) (v : Nat) : Hw :=
  let h := h.writeFields HITCH_COPY v
  if h.copyBad then h.sf HITCH_EVT_CFG_ERR 1 else h

/-- A write of TP_CMD: STEP_GO waits for the next edge update; HOLD acts at once (R313, R317). -/
def Hw.tpCmd (h : Hw) (v : Nat) : Hw :=
  let h := if bit v 0 then h.sf TP_CMD_STEP_GO 1 else h
  if bit v 1 then h.tpHold else h

/-- The Hitch unit and the time pulse. -/
def Hw.hitchWrite (h : Hw) (a v : Nat) : Hw :=
  if a = HITCH_CTRL then h.hitchCtrl v
  else if a = HITCH_BASE_LO then h.hitchBaseLo v
  else if a = HITCH_BASE_HI then h.hitchBase v
  else if a = HITCH_ADJ then h.hitchAdj v
  else if a = HITCH_COPY then h.copyWrite v
  else if a = TP_PER_I then h.writePeriod v
  else if a = TP_CMD then h.tpCmd v
  else if a = TP_SLEW then h.writeSlew v
  else if a = TP_LIM then h.writeLim v
  else if a = TP_DISC then h.tpDisc v
  else h.writeFields a v

/-- The memory controllers, the Thimble bank and the life cycle; no session stands behind a bus write, so a life-cycle request has no role. -/
def Hw.memBlockWrite (h : Hw) (a v : Nat) : Hw :=
  if a = MEM_MTEST then h.marchWrite v
  else if a = MEM_LCREQ then (h.lcRequest v 0 false).2
  else if a = MEM_THCMD then h.thimbleCmd v true
  else match copyOf (MEM_SCTL 0) 8 18 a with
    | some u => h.unitCtl u v
    | none => h.writeFields a v

/-- The MPU (R709, R710). -/
def Hw.mpuWrite (h : Hw) (a v : Nat) : Hw :=
  if a = MPU_CTRL then h.mpuCtrl v
  else if within 0x40080100 0x400801FF a ∧ h.on MPU_CTRL_LOCK then h
  else h.writeFields a v

/-- U0 to U5 and the Lanyard port, at offset o of the block of port n. -/
def Hw.uartBlockWrite (h : Hw) (n o v : Nat) : Hw :=
  if o = 0x00 then h.uartCfg n v
  else if o = 0x04 then h.uartShadow n (UART_FMT n) v
  else if o = 0x08 then h.uartShadow n (UART_RATE n) v
  else if o = 0x0C then h.uartWrite n v
  else if o = 0x10 then h.uartStat n v
  else if o = 0x14 then h.uartFifo n v
  else if o = 0x18 then h.uartSlow n v
  else if o = 0x1C then h.uartSrate n v
  else h.writeFields (UART_CFG n + o) v

/-- CAN, the two SPI ports and I2C. -/
def Hw.linkBlockWrite (h : Hw) (a v : Nat) : Hw :=
  if a = SSPI_CMD then h.sspiCmd v
  else if a = I2C_CFG then h.i2cCfg v
  else if a = I2C_CMD then h.i2cCmd v
  else if a = I2C_DATA then h.i2cWrite v
  else match copyOf (CAN_CFG 0) 0x10000 2 a with
    | some n => h.canCfg n v
    | none => h.writeFields a v

/-- The radio. -/
def Hw.radioWrite (h : Hw) (a v : Nat) : Hw :=
  if windowWord a then (if windowMask a = 0 then h else h.setReg a (BitVec.ofNat 32 (v &&& windowMask a)))
  else if a = RADIO_CTRL then h.radioCtrl v
  else if a = RADIO_CMDGO then h.radioGo v
  else if a = RADIO_FBLOW then h.fuseBlow v 0
  else match copyOf (RADIO_CSKEY 0) 4 4 a with
    | some _ => h.setReg a (BitVec.ofNat 32 v)
    | none => h.writeFields a v

/-- The update block. -/
def Hw.updBlockWrite (h : Hw) (a v : Nat) : Hw :=
  if a = UPD_CTRL then h.updCtrl v else if a = UPD_OTP then h.otpSet v else h.writeFields a v

/-- What a write to the register at `a` does in the part (R18): its own effect, or its RW and W1C fields. -/
def Hw.regWrite (h : Hw) (a v : Nat) : Hw :=
  if within 0x40000000 0x4001FFFF a then h.sysWrite a v
  else if within 0x40030000 0x4003FFFF a then (if windowWord a then h else h.sportWrite a v)
  else if within 0x40040000 0x4005FFFF a then h.fabLoopWrite a v
  else if within 0x40060000 0x4006FFFF a then h.hitchWrite a v
  else if within 0x40070000 0x4007FFFF a then h.memBlockWrite a v
  else if within 0x40080000 0x4008FFFF a then h.mpuWrite a v
  else if a = ELOG_CTRL then h.elogCtrl v
  else if a = ELOG_SWHDR then h.elogSoft v
  else if within 0x400A0000 0x4010FFFF a then h.uartBlockWrite ((a - 0x400A0000) / 0x10000) (a % 0x10000) v
  else if within 0x40110000 0x4015FFFF a then h.linkBlockWrite a v
  else if within 0x40160000 0x4016FFFF a then h.radioWrite a v
  else if a = PKEY_OUTCMD then h.outWrite v
  else if within 0x40180000 0x4018FFFF a then h.updBlockWrite a v
  else if windowWord a then h
  else h.writeFields a v

/-! ### Who may write -/

/-- Registers that only the navigation controller writes (R706, R712, R723, 8.10, 12.9, 14.9, 16.8): a write by another master is ignored. -/
def navOnly (a : Nat) : Bool :=
  within 0x40000400 0x400004FF a || within 0x40080000 0x400801FF a || within 0x40050200 0x4005027F a || a == ELOG_SWHDR ||
    a == PWR_WAKEVEC || a == UPD_OTP || (copyOf (RADIO_CSKEY 0) 4 4 a).isSome

/-- Registers whose GO, bit 0, acts for the navigation controller only (14.9, R692). -/
def navGo (a : Nat) : Bool := a == PWR_SLKREQ || a == PWR_STOP || a == UPD_CTRL

/-! ### Checks -/

/-- The backup registers (R653). -/
def isBackupReg (a : Nat) : Bool := within 0x32000000 0x3200007F a

/-- What an access to a register block meets beyond the checks of every access: an offset without a register, a width other than 32 bits
(R17, R50, R703). The specification orders neither against the wake of a domain that is OFF: the model stalls and wakes the domain first (DESIGN
CHOICE, assumption log 97). -/
def Hw.regAccess (h : Hw) (m : Master) (a n : Nat) (write : Bool) : Access :=
  match h.access m a n write with
  | .ok => if !regHere (a / 4 * 4) then .error 0 1 else if n ≠ 4 then .error 0 6 else .ok
  | x => x

/-- An access to the backup domain waits for the write queue (R651): a read behind a write of its address, a write while the queue is full. -/
def Hw.backupWaits (h : Hw) (a n : Nat) (write : Bool) : Bool :=
  if write then decide (8 < h.rtc.wq.length + (if n = 8 then 2 else 1)) else h.backupBusy a || (n == 8 && h.backupBusy (a + 4))

/-- What any access at `a` meets: the memory's checks at the base address, the registers' checks and the backup domain's queue. -/
def Hw.busAccess (h : Hw) (m : Master) (a n : Nat) (write : Bool) : Access :=
  let x := if isBlock a then h.regAccess m a n write else h.access m (baseOf a) n write
  match x with
  | .ok => if (isBackupReg a || backupReg a) && h.backupWaits a n write then .stall else .ok
  | x => x

/-! ### A bus read and a bus write -/

/-- A read of the backup registers (R653). -/
def Hw.backupRead (h : Hw) (a n : Nat) : Hw := { h with resp := .data (h.load a n) }

/-- A write to the backup domain is posted; 64 bits are two posts, lower address first (R651, R653). -/
def Hw.backupWrite (h : Hw) (a n v : Nat) : Hw :=
  if n = 8 then (h.backupPost a 4 (v % pow2 32)).backupPost (a + 4) 4 (v / pow2 32 % pow2 32) else h.backupPost a n (v % pow2 (8 * n))

/-- A register or backup-register access by its checks: refused, stalled or done. -/
def Hw.gated (h : Hw) (m : Master) (a n : Nat) (write : Bool) (f : Hw → Hw) : Hw :=
  match h.busAccess m a n write with
  | .error c k => h.errorResp m a n write c k
  | .stall => h.stallResp a
  | .ok => f h

/-- A bus read of n bytes at `a` (R43, R44, R50, R396, R650). -/
def Hw.read (h : Hw) (m : Master) (a n : Nat) : Hw :=
  if isBlock a then h.gated m a n false fun h => h.regRead a
  else if isBackupReg a then h.gated m a n false fun h => h.backupRead a n
  else h.memRead m a n

/-- The effect of a permitted register write by master m. UNLOCK of MEM_THCMD acts for the navigation controller, which carries out the write of a
session of role FLEET (R435); GO of PWR_SLKREQ waits while accesses are outstanding (Table 14.4, step 2). -/
def Hw.regWriteBy (h : Hw) (m : Master) (a v : Nat) : Hw :=
  if navOnly a ∧ m ≠ .nav then { h with resp := .okay }
  else if backupReg a then h.backupWrite a 4 v
  else if navGo a ∧ m ≠ .nav then { h.regWrite a (v / 2 * 2) with resp := .okay }
  else if a = MEM_THCMD ∧ m ≠ .nav then { h.regWrite a (v &&& 0xFFFFFFFB) with resp := .okay }
  else if a = PWR_SLKREQ ∧ bit v 0 ∧ h.stalls ≠ [] then { h with resp := .stalled }
  else { h.regWrite a v with resp := .okay }

/-- Firmware has written SYNC = 3 into NBSTAT of a Strand that tracks a TIME signal: it sets the alignment from GNSS time as well (R269). The chip
index is a free value, and that the write of SYNC is the moment is DEDUCED (assumption log 109). -/
def Hw.timeAligned (h : Hw) (s : Nat) : Hw :=
  let t := h.strand s
  let row := bodySignal t.body
  if row.sync = .time ∧ h.sync s = 3 ∧ t.state.tracking then
    let (v, h) := h.fresh
    let t := h.strand s
    h.setStrand s { t with sec := some (v % row.secLen, t.prim) }
  else h

/-- An alias write by master m (R45 to R47), with what the navigation controller's write of NBSTAT stands for (R269). -/
def Hw.aliasBy (h : Hw) (m : Master) (a n v : Nat) : Hw :=
  let h := h.aliasWrite m a n v
  let b := (aliasOf a).2
  if m = .nav ∧ h.resp = .okay ∧ within 0x11030000 0x11037FFF b ∧ b % 64 = 0 then h.timeAligned ((b - 0x11030000) / 64) else h

/-- A bus write of n bytes at `a`; `hit` says that it meets a port B write of the same word (R152). -/
def Hw.write (h : Hw) (m : Master) (a n v : Nat) (hit : Bool) : Hw :=
  if isBlock a then h.gated m a n true fun h => h.regWriteBy m a (v % pow2 32)
  else if isBackupReg a then h.gated m a n true fun h => h.backupWrite a n v
  else if (aliasOf a).1 ≠ .plain then h.aliasBy m a n v
  else h.busWrite m a n v hit

/-! ### Accesses that stall (R403, R415, R418, R436, R638, R651) -/

/-- A bus access takes place. -/
def Hw.busOp (h : Hw) (o : BusOp) : Hw :=
  match o.kind with
  | .read => h.read o.master o.addr o.bytes
  | .write => h.write o.master o.addr o.bytes o.value o.hit
  | .setAlias | .clearAlias => h.aliasBy o.master o.addr o.bytes o.value

/-- A master's access: one that stalls waits, and completes later. -/
def Hw.issue (h : Hw) (o : BusOp) : Hw :=
  let h := { h with late := [] }.busOp o
  if h.resp = .stalled then { h with stalls := h.stalls ++ [o] } else h

/-- A waiting access is tried again: it completes, with its response in `late`, or waits on, as if it had not been tried. A reset ends it. -/
def Hw.retry (h : Hw) (o : BusOp) : Hw :=
  if h.pwr.resetting then h
  else
    let g := h.busOp o
    if g.resp = .stalled then { h with stalls := h.stalls ++ [o] } else { g with late := g.late ++ [(o, g.resp)] }

/-- What made accesses stall may be over: those that wait are tried again, oldest first. -/
def Hw.resume (h : Hw) : Hw :=
  if h.stalls = [] then h else forEach (fun o h => h.retry o) h.stalls { h with stalls := [], late := [] }

/-- A slow-clock edge that applies the oldest queued write of the backup domain, where `p` selects it (R651). -/
def Hw.queueEdge (h : Hw) (pre : Nat) (p : Nat × Nat × Nat → Bool) : Hw := (h.backupEdge pre p).resume

end Sys2Proof.Machine
end

