-- ==== Sys2Proof/Machine/Dma.lean ====
section
/-! DEFINITION. The beats of the DMA channels (R712 to R714). -/

namespace Sys2Proof.Machine

/-- The class of the ERROR that a read or write of n bytes at `a` would receive, if any (R703). -/
def Hw.busFault (h : Hw) (m : Master) (a n : Nat) (write : Bool) : Option Nat :=
  match h.busAccess m a n write with
  | .error cls _ => some cls
  | .stall => none
  | .ok => if !isBlock a && (!write || decide (n < 8) || baseOf a != a) && h.unreadable (baseOf a) then some 3 else none

/-- The access would stall. -/
def Hw.busStall (h : Hw) (m : Master) (a n : Nat) (write : Bool) : Bool := h.busAccess m a n write == .stall

/-- The data of the last read. -/
def Hw.respData (h : Hw) : Nat := match h.resp with | .data v => v | _ => 0

/-- A beat of channel c receives ERROR at `a`: the channel halts there (R713). -/
def Hw.dmaHalt (h : Hw) (c : Fin 8) (a : Nat) (write : Bool) (cls : Nat) : Hw :=
  let h := (h.sf (DMA_STAT_STATE c.val) dmaHalted).sf (DMA_STAT_CAUSE c.val) (dmaCause write cls)
  { (h.dmaForget c.val).dmaError c a write cls (h.rf (DMA_CNT_COUNT c.val)) with resp := .error }

/-- The beat of channel c is complete: its addresses advance and COUNT decreases (R712). -/
def Hw.dmaNext (h : Hw) (c : Nat) : Hw :=
  let w := h.dmaWidth c
  let h := if h.on (DMA_CTRL_SINC c) then h.sf (DMA_SRC_ADDR c) (h.rf (DMA_SRC_ADDR c) + w) else h
  let h := if h.on (DMA_CTRL_DINC c) then h.sf (DMA_DST_ADDR c) (h.rf (DMA_DST_ADDR c) + w) else h
  let h := (h.dmaForget c).sf (DMA_CNT_COUNT c) (h.rf (DMA_CNT_COUNT c) - 1)
  if h.rf (DMA_CNT_COUNT c) = 0 then (h.sf (DMA_STAT_STATE c) dmaIdle).sf (DMA_STAT_DONE c) 1 else h

/-- The write of a beat is answered with COLLIDE: it is retried three times, and the next COLLIDE halts the channel with CAUSE 4 (R714). -/
def Hw.dmaCollide (h : Hw) (c : Fin 8) (a v times : Nat) : Hw :=
  let h := h.collide (.dma c) a (times + 1)
  if times < 3 then { h with dmaTry := Store.insert c.val (times + 1, v) h.dmaTry }
  else
    let h := ((h.dmaForget c.val).sf (DMA_STAT_STATE c.val) dmaHalted).sf (DMA_STAT_CAUSE c.val) 4
    h.report 7 4 (Master.dma c).source a (c.val + 256 * h.rf (DMA_CNT_COUNT c.val))

/-- The write of a beat of channel c, whose read gave `v`; `times` COLLIDE answers so far. -/
def Hw.dmaPut (h : Hw) (c : Fin 8) (v times : Nat) (hit : Bool) : Hw :=
  let a := h.rf (DMA_DST_ADDR c.val)
  let n := h.dmaWidth c.val
  match h.busFault (.dma c) a n true with
  | some cls => h.dmaHalt c a true cls
  | none =>
    if hit ∧ within 0x11000000 0x1103FFFF a then h.dmaCollide c a v times
    else (h.write (.dma c) a n v false).dmaNext c.val

/-- One beat of channel c: a read, then a write; a beat that would stall waits. -/
def Hw.dmaBeatOf (h : Hw) (c : Fin 8) (hit : Bool) : Hw :=
  let src := h.rf (DMA_SRC_ADDR c.val)
  let dst := h.rf (DMA_DST_ADDR c.val)
  let n := h.dmaWidth c.val
  match Store.get (fun _ => (0, 0)) h.dmaTry c.val with
  | (k + 1, v) => if h.busStall (.dma c) dst n true then h.stallResp dst else h.dmaPut c v (k + 1) hit
  | (0, _) =>
    match h.busFault (.dma c) src n false with
    | some cls => h.dmaHalt c src false cls
    | none =>
      if h.busStall (.dma c) src n false then h.stallResp src
      else if h.busStall (.dma c) dst n true then h.stallResp dst
      else
        let h := h.read (.dma c) src n
        h.dmaPut c h.respData 0 hit

/-- The channel that has the next beat: one whose write is being retried, else the lowest-numbered running channel (R712, R714). -/
def Hw.dmaTurn (h : Hw) : Option (Fin 8) :=
  let run := (List.finRange 8).filter fun c => h.dmaState c.val == dmaRun
  match run.find? fun c => h.dmaTry.any fun t => t.1 == c.val with
  | some c => some c
  | none => run.head?

/-- DMA_BEAT: `hit` says that the beat's write meets a port B write of the same word. -/
def Hw.dmaBeat (h : Hw) (hit : Bool) : Hw :=
  match h.dmaTurn with
  | none => h
  | some c => if h.clocked then h.dmaBeatOf c hit else h

end Sys2Proof.Machine
end

