-- ==== Sys2Proof/Machine/BusCmds.lean ====
section
/-! DEFINITION. Commands of the system bus (R18, R20, R45, R396, R398) and of the DMA channels (17.3). -/

namespace Sys2Proof.Machine

/-- The JTAG port is closed (R742): in every life-cycle state but MANUFACTURE and RETURNED, and from the start of a reset until the boot ROM has read
the fuses. While it is closed its signals are ignored, so that it makes no access. -/
def Hw.mute (h : Hw) (m : Master) : Bool :=
  m == .jtag && (h.pwr.resetting || !(h.fuses.lifecycle == 1 || h.fuses.lifecycle == 4))

/-- A bus access by master m, unless its port is closed. -/
def Hw.onBus (h : Hw) (m : Master) (f : Hw → Hw) : Hw := if h.mute m then h else f h

/-- MEMORY_READ: a bus read of any address (R43, R44, R396, R397, R703) -/
def execMemoryRead (m : Machine.Master) (a : BitVec 32) (size : Fin 4) (s : State) : Host.Outcome State Fault Refusal := s.does (·.onBus m (·.issue ⟨m, .read, a.toNat, 2 ^ size.val, 0, false⟩))

/-- MEMORY_WRITE: a bus write of any address (R43, R44, R152, R398, R703) -/
def execMemoryWrite (m : Machine.Master) (a : BitVec 32) (size : Fin 4) (v : BitVec 64) (hit : Bool) (s : State) : Host.Outcome State Fault Refusal := s.does (·.onBus m (·.issue ⟨m, .write, a.toNat, 2 ^ size.val, v.toNat, hit⟩))

/-- SET_ALIAS_WRITE: a write at the set alias of the word (R45 to R47) -/
def execSetAliasWrite (m : Machine.Master) (a : BitVec 32) (size : Fin 4) (v : BitVec 64) (s : State) : Host.Outcome State Fault Refusal := s.does fun h => if within 0x10000000 0x13FFFFFF a.toNat then h.onBus m (·.issue ⟨m, .setAlias, a.toNat + 0x08000000, 2 ^ size.val, v.toNat, false⟩) else h

/-- CLEAR_ALIAS_WRITE: a write at the clear alias of the word (R45 to R47) -/
def execClearAliasWrite (m : Machine.Master) (a : BitVec 32) (size : Fin 4) (v : BitVec 64) (s : State) : Host.Outcome State Fault Refusal := s.does fun h => if within 0x10000000 0x13FFFFFF a.toNat then h.onBus m (·.issue ⟨m, .clearAlias, a.toNat + 0x0C000000, 2 ^ size.val, v.toNat, false⟩) else h

/-- REGISTER_WRITE: a 32-bit write to a register block (R17, R18, R703) -/
def execRegisterWrite (m : Machine.Master) (a : BitVec 32) (v : BitVec 32) (s : State) : Host.Outcome State Fault Refusal := s.does (·.onBus m (·.issue ⟨m, .write, a.toNat, 4, v.toNat, false⟩))

/-- RCLR_COUNTER_READ: a 32-bit read of a register block (R20) -/
def execRclrCounterRead (m : Machine.Master) (a : BitVec 32) (s : State) : Host.Outcome State Fault Refusal := s.does (·.onBus m (·.issue ⟨m, .read, a.toNat, 4, 0, false⟩))

/-- DMA_GO: R712 -/
def execDmaGo (c : Fin 8) (v : BitVec 32) (s : State) : Host.Outcome State Fault Refusal := s.does fun h => if bit v.toNat 0 then h.dmaCtrl c.val v.toNat else h

/-- DMA_BEAT: R712 to R714 -/
def execDmaBeat (hit : Bool) (s : State) : Host.Outcome State Fault Refusal := s.does (·.dmaBeat hit)

/-- DMA_RESUME: R715 -/
def execDmaResume (c : Fin 8) (v : BitVec 32) (s : State) : Host.Outcome State Fault Refusal := s.does fun h => if bit v.toNat 1 then h.dmaCtrl c.val v.toNat else h

/-- DMA_ABORT: R715 -/
def execDmaAbort (c : Fin 8) (v : BitVec 32) (s : State) : Host.Outcome State Fault Refusal := s.does fun h => if bit v.toNat 2 then h.dmaCtrl c.val v.toNat else h

end Sys2Proof.Machine
end

