-- ==== Sys2Proof/Machine/Objects.lean ====
section
/-! DEFINITION. Objects as they are read and written through the dictionary (10.1 to 10.4): which exist, what a read answers, and what a write does. -/

namespace Sys2Proof.Machine

/-! ### Abort codes (Table 10.5) -/

def unknownOp : Nat := 0x01000001
def badFrame : Nat := 0x01000002
def useSeg : Nat := 0x01000003
def segOrder : Nat := 0x01000004
def segTotal : Nat := 0x01000005
def segTimeout : Nat := 0x01000006
def noTransfer : Nat := 0x01000007
def linkBusy : Nat := 0x01000008
def abandoned : Nat := 0x01000009
def noObject : Nat := 0x02000001
def noSubindex : Nat := 0x02000002
def readOnly : Nat := 0x02000003
def writeOnly : Nat := 0x02000004
def roleLow : Nat := 0x02000005
def objLocked : Nat := 0x02000007
def badLength : Nat := 0x03000001
def outOfRange : Nat := 0x03000002
def invalidValue : Nat := 0x03000003
def authFailed : Nat := 0x04000001
def authSequence : Nat := 0x04000002
def authLink : Nat := 0x04000003
def noKey : Nat := 0x04000004
def noSubSlot : Nat := 0x06000001
def badSub : Nat := 0x06000002
def hardwareError : Nat := 0x07000001

/-- What an operation comes to: a value, an abort, or an access that waits, so that the request stays at the head (R466). `thenGo` is the value of a
write that is answered before what it starts (R690). -/
inductive Answer where
  | value (bs : List Nat)
  | abort (code : Nat)
  | later
  | thenGo
  deriving DecidableEq, Repr

/-! ### Which objects exist (R443, R444, R447) -/

/-- The object, register or firmware's own, at an address other than subindex 0. -/
def plainObject (idx sub : Nat) : Option ObjDef :=
  match fwObject idx sub with
  | some o => some o
  | none => (regOfObject idx sub).map fun a => ⟨idx, sub, regKind a, 4, regRole a, .any⟩

/-- The highest subindex in use at an index, 0 when the index does not exist. -/
def topSub (idx : Nat) : Nat := ((upTo 256).filter fun s => s != 0 && (plainObject idx s).isSome).foldl max 0

/-- The object at an address (R443). -/
def objectAt (idx sub : Nat) : Option ObjDef :=
  if sub = 0 then (if topSub idx = 0 then none else some ⟨idx, 0, .const, 1, 0, .any⟩) else plainObject idx sub

/-- The abort of an address without an object. -/
def absent (idx : Nat) : Nat := if topSub idx = 0 then noObject else noSubindex

/-- The read role: PUBLIC, but FLEET for the backup registers, whose subindex 0 stays PUBLIC (R443, R447, R653). -/
def readRole (idx sub : Nat) : Nat := if idx = 0xA040 ∧ sub ≠ 0 then 1 else 0

/-- The memory address of an object that is a word of the machine: a register, a word of a Strand's entry, of its navigation-bit buffer, of its latest
released record, or a backup register (R119, R305, R448, R653). -/
def Hw.objectWord (h : Hw) (idx sub : Nat) : Option Nat :=
  if 0x3000 ≤ idx ∧ idx < 0x3200 ∧ sub ≤ 0x40 then some (entryAddr (idx - 0x3000) + 4 * (sub - 1))
  else if 0x4200 ≤ idx ∧ idx < 0x4400 then some (nbAddr (idx - 0x4200) + 4 * (sub - 1))
  else if 0x4400 ≤ idx ∧ idx < 0x4600 then some (0x11020000 + 0x8000 * h.rf HITCH_STAT_BUF + 64 * (idx - 0x4400) + 4 * (sub - 1))
  else if idx = 0xA040 then some (0x32000000 + 4 * (sub - 1))
  else match fwObject idx sub with
    | some _ => none
    | none => regOfObject idx sub

/-! ### Reads -/

/-- A 32-bit read by the navigation controller as an object's answer (R448): an error response is HARDWARE. -/
def Hw.readWord (h : Hw) (a : Nat) : Answer × Hw :=
  let h := h.read .nav a 4
  match h.resp with
  | .data v => (.value (leBytes 4 v), h)
  | .stalled => (.later, h)
  | _ => (.abort hardwareError, h)

/-- The captured blocks of port n, in capture order. -/
def Hw.capturedBlocks (h : Hw) (n : Nat) : List Nat :=
  match (h.port n).cap with
  | none => []
  | some j => (upTo (h.coilBlocks n)).map fun i => j / 2048 + i

/-- The part of COIL_DESC for one port (R345). -/
def Hw.coilDescPort (h : Hw) (n : Nat) : List Nat :=
  leBytes 2 (h.rf COIL_STAT_CAPSEQ) ++ leBytes 4 (h.rate n) ++ [h.dec n] ++ leBytes 2 (h.coilBlocks n) ++ leBytes 8 ((h.port n).cap.getD 0) ++
    leBytes 2 (h.rf (COIL_P_BLK_SUSPBLK n)) ++ ((h.capturedBlocks n).flatMap fun b => leBytes 4 (h.tag n b)) ++ leBytes 4 (h.reg (LOOP_LO n)).toNat

/-- COIL_DESC (R345): the ports' parts, COIL_TS, and the GNSS time of COIL_TS with its uncertainty, as the kept data gave them at HELD. -/
def Hw.coilDesc (h : Hw) : List Nat :=
  h.coilPorts.flatMap h.coilDescPort ++ leBytes 4 (h.reg COIL_TS_LO).toNat ++ leBytes 4 (h.reg COIL_TS_HI).toNat ++ h.hot.coilTime

/-- Where the captured blocks lie, in port order and, within a port, in capture order. -/
def Hw.coilBases (h : Hw) : List Nat := h.coilPorts.flatMap fun n => (h.capturedBlocks n).map fun b => h.ringAddr n (2048 * b)

/-- The bytes of the captured blocks. -/
def Hw.coilData (h : Hw) : List Nat := h.coilBases.flatMap fun a => h.loadBytes a 1024

/-- The firmware reads the captured blocks, each word corrected as it is read (R396); false at the first that delivers no data (R397). -/
def Hw.coilRead (h : Hw) : List Nat → Bool × Hw
  | [] => (true, h)
  | a :: rest =>
    match h.navWords a 128 with
    | (false, h) => (false, h)
    | (true, h) => h.coilRead rest

/-- COIL_DATA (R346): 1024 bytes a block, while a capture is published. -/
def Hw.coilAnswer (h : Hw) : Answer × Hw :=
  if !h.hot.stream then (.value [], h)
  else match h.coilRead h.coilBases with
    | (true, h) => (.value h.coilData, h)
    | (false, h) => if h.resp = .stalled then (.later, h) else (.abort hardwareError, h)

/-- The bytes of a zone (Table 13.5). -/
def Zone.bytes (z : Zone) : List Nat := [z.en] ++ leBytes 4 (ofInt 32 z.lat) ++ leBytes 4 (ofInt 32 z.lon) ++ leBytes 4 z.radius

/-- LAST_DECISION: outcome, action, bond, distance, TOKEN_ID, RTC time. -/
def Hw.lastDecision (h : Hw) : List Nat :=
  let f := fun (i : Nat) => h.pkey.last.getD i 0
  [f 0 % 256, f 1 % 256, f 2 % 256] ++ leBytes 2 (f 3) ++ leBytes 4 (f 4) ++ leBytes 4 (f 5)

/-- BCDTIME of RTC_TIME0 and RTC_TIME1, whose fields are BCD already (Table 10.2). -/
def Hw.bcdTime (h : Hw) : List Nat := leBytes 4 (time0Of h.rtc.sec) ++ leBytes 4 (time1Of h.rtc.sec)

/-- UPD_XSTAT: state, next block, blocks in all, last refusal code (Table 16.3). -/
def Hw.updXstat (h : Hw) : List Nat := [h.upd.state] ++ leBytes 2 h.upd.next ++ leBytes 2 h.upd.blocks ++ [h.upd.refusal]

/-- PART as 0x1000:02 gives it. -/
def Part.toNat : Part → Nat
  | .ak512 => 1
  | .ak256 => 2
  | .ak128 => 3

/-- The identity objects and those of the link (Table 10.3). -/
def Hw.identity (h : Hw) (l idx sub : Nat) : Option (List Nat) :=
  if idx = 0x1000 then
    some (match sub with
      | 1 => leBytes 4 0x4B454C4E
      | 2 => [h.fuses.part.toNat]
      | 3 => [b2n Config.gradeA]
      | 4 => leBytes 8 h.fuses.unique
      | _ => [Config.siliconRevision.toNat])
  else if idx = 0x1001 then some (if sub = 1 then leBytes 4 h.fw.version else [h.rf UPD_STAT_SLOT])
  else if idx = 0x1020 ∧ sub = 1 then some [h.linkRole l]
  else none

/-- The phone-key, update, telemetry and log records. -/
def Hw.recordObject (h : Hw) (idx sub : Nat) : Option (List Nat) :=
  if idx = 0x6111 then
    some (match h.pkey.bonds.find? fun (b : Nat × Bond) => b.1 + 2 == sub with
      | some b => b.2.bytes
      | none => List.replicate 11 0)
  else if idx = 0x6112 then some (h.pkey.revoked.flatMap (leBytes 4))
  else if idx = 0x6113 then some h.lastDecision
  else if idx = 0x6114 then some (Store.get (fun _ => (⟨0, 0, 0, 0⟩ : Zone)) h.pkey.zones (sub - 1)).bytes
  else if idx = 0x8001 then some h.updXstat
  else if idx = 0x9510 then some (Store.get (fun _ => []) h.bgnd.tele sub)
  else if idx = 0x9301 then some ((upTo 4).flatMap fun i => leBytes 4 (h.reg (0x40090400 + 16 * (sub - 1) + 4 * i)).toNat)
  else none

/-- The hot-start, capture, kernel and clock objects that are computed. -/
def Hw.computed (h : Hw) (idx sub : Nat) : Option (List Nat) :=
  if idx = 0x2100 ∧ sub = 3 then some [h.hot.class_]
  else if idx = 0x2100 ∧ sub = 4 then some (leBytes 4 h.hot.seq)
  else if idx = 0x2101 ∧ sub = 8 then some h.snapRecord
  else if idx = 0x2102 ∧ sub = 1 then some (if h.hot.stream then h.coilDesc else [])
  else if idx = 0x3340 ∧ sub = 4 then some (leBytes 2 h.kloadFree)
  else if idx = 0x4010 ∧ sub = 3 then some (leBytes 4 h.wsAge)
  else if idx = 0xA010 ∧ sub = 1 then some h.bcdTime
  else none

/-- The value of an object that Fofiys firmware serves by itself, as link l reads it. -/
def Hw.fwValue (h : Hw) (l : Nat) (o : ObjDef) : List Nat :=
  match h.identity l o.idx o.sub, h.computed o.idx o.sub, h.recordObject o.idx o.sub with
  | some v, _, _ => v
  | none, some v, _ => v
  | none, none, some v => v
  | none, none, none => leBytes o.size (h.obj o.idx o.sub)

/-- The value of an object that exists and may be read (R443, R448). -/
def Hw.objectValue (h : Hw) (l : Nat) (o : ObjDef) : Answer × Hw :=
  if o.sub = 0 then (.value [topSub o.idx], h)
  else match h.objectWord o.idx o.sub with
    | some a => h.readWord a
    | none => if o.idx = 0x2102 ∧ o.sub = 2 then h.coilAnswer else (.value (h.fwValue l o), h)

/-- A read of an object through link l (R446, R447). -/
def Hw.objectRead (h : Hw) (l idx sub : Nat) : Answer × Hw :=
  match objectAt idx sub with
  | none => (.abort (absent idx), h)
  | some o =>
    if o.kind = .wo then (.abort writeOnly, h)
    else if h.linkRole l < readRole idx sub then (.abort roleLow, h)
    else h.objectValue l o

/-! ### Writes -/

/-- What a length that is not the size of the type comes to (R459); 0 for a length that is right. -/
def lengthBad (o : ObjDef) (n : Nat) : Bool :=
  if o.size ≠ 0 then n != o.size
  else if o.idx = 0x8001 ∧ o.sub = 1 then n != 8
  else if o.idx = 0x8001 then decide (n < 8)
  else if o.idx = 0x6114 then n != 13
  else if o.idx = 0x6112 then n % 4 != 0 || decide (256 < n)
  else false

/-- What the object's permitted values say of `v` (R445, R449). -/
def checkValue (o : ObjDef) (v : Nat) : Option Nat :=
  match o.check with
  | .any => none
  | .range lo hi => if lo ≤ v ∧ v ≤ hi then none else some outOfRange
  | .zeroOr lo hi => if v = 0 ∨ (lo ≤ v ∧ v ≤ hi) then none else some outOfRange
  | .upTo hi => if v ≤ hi then none else some invalidValue

/-- An operation that may be refused as an answer. -/
def done (r : Option Nat × Hw) : Answer × Hw :=
  match r with
  | (none, h) => (.value [], h)
  | (some code, h) => (.abort code, h)

/-- A register access that needs the session's role, after the bus's own checks. -/
def Hw.roleAccess (h : Hw) (a : Nat) (f : Hw → Answer × Hw) : Answer × Hw :=
  match h.busAccess .nav a 4 true with
  | .error c k => (.abort hardwareError, h.errorResp .nav a 4 true c k)
  | .stall => (.later, h.stallResp a)
  | .ok => f h

/-- A 32-bit write by the navigation controller as an object's answer (R448, R449). -/
def Hw.writeWord (h : Hw) (a v : Nat) : Answer × Hw :=
  let h := h.write .nav a 4 v false
  match h.resp with
  | .stalled => (.later, h)
  | .okay => (.value [], h)
  | _ => (.abort hardwareError, h)

/-- A write of a machine word through link l: a life-cycle request and a fuse blow take the role of its session (R425, R574). -/
def Hw.wordWrite (h : Hw) (l a v : Nat) : Answer × Hw :=
  if a = MEM_LCREQ then
    h.roleAccess a fun h =>
      match h.lcRequest v (h.linkRole l) (l == 7) with
      | (true, h) => (.value [], h)
      | (false, h) => (.abort invalidValue, h)
  else if a = RADIO_FBLOW then h.roleAccess a fun h => (.value [], h.fuseBlow v (h.linkRole l))
  else h.writeWord a v

/-- What a kernel load or unload comes to, as an answer. -/
def kernelAnswer (r : KernelStep × Hw) : Answer × Hw :=
  match r with
  | (.done, h) => (.value [], h)
  | (.refused c, h) => (.abort c, h)
  | (.later, h) => (.later, h)

/-- REMOTE_CMD and BOND_DELETE. -/
def Hw.pkeyObject (h : Hw) (idx v : Nat) : Answer × Hw :=
  if idx = 0x6111 then (.value [], h.bondDelete v)
  else if v = 1 ∨ v = 2 then (.value [], h.remote v 2 true)
  else (.abort invalidValue, h)

/-- The objects of Table 16.3 that are operations. -/
def Hw.updObject (h : Hw) (l sub : Nat) (bs : List Nat) : Answer × Hw :=
  let num := fun (o n : Nat) => leNat ((bs.drop o).take n)
  match sub with
  | 1 => done (h.updBegin l (num 0 4) (num 4 4))
  | 2 => done (h.updBlock l (num 0 2) (num 4 4) (bs.drop 8))
  | 3 =>
    match h.updPrepare l with
    | (none, h) => (.thenGo, h)
    | (some c, h) => (.abort c, h)
  | 4 => (.value [], h.updCancel)
  | _ => done h.updConfirm

/-- WHEEL_SPEED and IGNITION (Table 10.3); either may end a snapshot cycle (R343). -/
def Hw.vehicleObject (h : Hw) (sub v : Nat) : Answer × Hw :=
  let h := h.setObj 0x4010 sub v
  let h := if sub = 1 then { h with fw := { h.fw with wsAt := some h.tcnt } } else h
  (.value [], if (sub = 1 ∧ v ≠ 0) ∨ (sub = 2 ∧ v = 2) then h.snapAbandon else h)

/-- The answer to a write of subindex 0x41 (R156). -/
def Hw.commitAnswer (h : Hw) (s : Nat) (bell : Bool) : Answer × Hw :=
  let h := h.commitObject s bell
  match h.resp with
  | .okay => (.value [], h)
  | .stalled => (.later, h)
  | _ => (.abort hardwareError, h)

/-- What a permitted write does to an object that Fofiys firmware serves by itself. -/
def Hw.fwEffect (h : Hw) (l : Nat) (o : ObjDef) (bs : List Nat) : Answer × Hw :=
  let v := leNat bs
  if o.idx = 0x2100 ∧ o.sub = 2 then (.value [], h.hsWant)
  else if o.idx = 0x2102 then (.value [], h.coilReleaseObj)
  else if o.idx = 0x3340 ∧ o.sub = 1 then kernelAnswer (h.kload bs)
  else if o.idx = 0x3340 then kernelAnswer (h.kunload v)
  else if 0x3000 ≤ o.idx ∧ o.idx < 0x3200 then h.commitAnswer (o.idx - 0x3000) (bit v 0)
  else if o.idx = 0x4010 then h.vehicleObject o.sub v
  else if o.idx = 0x6111 ∨ o.idx = 0x6113 then h.pkeyObject o.idx v
  else if o.idx = 0x8001 then h.updObject l o.sub bs
  else if o.idx = 0x6112 ∨ o.idx = 0x6114 then (.value [], h.restoreObj ⟨0, o.idx, o.sub, 1, 0, bs⟩)
  else (.value [], h.setObj o.idx o.sub v)

/-- The write itself: an RWP value is journalled first (R448, R505), then the object or register takes it; a firmware object is noticed (R472). -/
def Hw.objectPut (h : Hw) (l : Nat) (o : ObjDef) (bs : List Nat) : Answer × Hw :=
  let jr := if o.kind = .rwp then h.journalWrite o.idx o.sub bs else (none, h)
  match jr with
  | (some code, h) => (.abort code, h)
  | (none, h) =>
    match h.objectWord o.idx o.sub with
    | some a => h.wordWrite l a (leNat bs)
    | none =>
      match h.fwEffect l o bs with
      | (.abort c, h) => (.abort c, h)
      | (.later, h) => (.later, h)
      | (a, h) => (a, h.notice o.idx o.sub bs)

/-- A register write that would wait: its request stays at the head, and nothing is journalled yet. -/
def Hw.putWaits (h : Hw) (o : ObjDef) : Bool :=
  match h.objectWord o.idx o.sub with
  | some a => h.busAccess .nav a 4 true == .stall
  | none => false

/-- A write of a whole value: length, permitted values, then the write (R449, R459). -/
def Hw.putChecked (h : Hw) (l : Nat) (o : ObjDef) (bs : List Nat) : Answer × Hw :=
  if lengthBad o bs.length then (.abort badLength, h)
  else match checkValue o (leNat bs) with
    | some code => (.abort code, h)
    | none => if h.putWaits o then (.later, h) else h.objectPut l o bs

/-- Another link has a segmented write of the object in progress (R464). -/
def Hw.heldElsewhere (h : Hw) (l idx sub : Nat) : Bool :=
  (upTo 10).any fun k => k != l && (h.link k).segs.any fun (x : SegWrite) => x.idx == idx && x.sub == sub

/-- UPD_BEGIN, UPD_BLOCK and UPD_ACTIVATE, whose role is the first check of Table 16.4 (R688). -/
def updGated (idx sub : Nat) : Bool := idx == 0x8001 && decide (sub ≤ 3)

/-- The checks that a write on link l meets before its value is looked at: existence, kind, role, lock (R446, R447, R464). -/
def Hw.writable (h : Hw) (l idx sub : Nat) : Except Nat ObjDef :=
  match objectAt idx sub with
  | none => .error (absent idx)
  | some o =>
    if o.kind = .ro ∨ o.kind = .const then .error readOnly
    else if h.linkRole l < o.role ∧ !updGated idx sub then .error roleLow
    else if h.heldElsewhere l idx sub then .error objLocked
    else .ok o

end Sys2Proof.Machine
end

