-- ==== Sys2Proof/Machine/Dictionary.lean ====
section
/-! DEFINITION. Requests and responses (10.3): the queue, each operation, segmented transfers, authentication and subscriptions (10.2, 10.5). -/

namespace Sys2Proof.Machine

/-! ### Responses (R458, R490) -/

/-- RESULT, DLEN and data of an answer. -/
def resultBytes (r : Except Nat (List Nat)) : List Nat :=
  match r with
  | .ok bs => 0 :: bs.length :: bs
  | .error code => 1 :: 4 :: leBytes 4 code

/-- The header of a response: the first five bytes of the request, padded with zeros where it is shorter. -/
def responseHead (req : List Nat) : List Nat := (req ++ [0, 0, 0, 0, 0]).take 5

/-- The RESPONSE of a result, in the short form of R490 on a classic CAN link where it would be longer than 8 bytes. -/
def Hw.responseBytes (h : Hw) (l : Nat) (req : List Nat) (r : Except Nat (List Nat)) : List Nat :=
  let full := responseHead req ++ resultBytes r
  if 8 ≤ l ∧ !h.on (CAN_CFG_FDOE (l - 8)) ∧ 8 < full.length then
    match r with
    | .ok [a, b] => responseHead req ++ [2, a, b]
    | .ok _ => full
    | .error code => responseHead req ++ [3, code / pow2 24, code % 256]
  else full

/-- Send the RESPONSE to a request. -/
def Hw.respond (h : Hw) (l : Nat) (req : List Nat) (r : Except Nat (List Nat)) : Hw := h.linkSend l fnResponse (h.responseBytes l req r)

/-! ### The queue (R466, R467) -/

/-- OP of a request. -/
def opOf (req : List Nat) : Nat := req.getD 0 0

/-- TID, index, subindex and data of a request. -/
def tidOf (req : List Nat) : Nat := req.getD 1 0
def idxOf (req : List Nat) : Nat := req.getD 2 0 + 256 * req.getD 3 0
def subOf (req : List Nat) : Nat := req.getD 4 0
def dataOf (req : List Nat) : List Nat := (req.drop 6).take (req.getD 5 0)

/-- The abort of a request that no operation of Table 10.4 takes: a payload shorter than its header or its DLEN, an OP that is not in the table, a STEP
of AUTH that does not exist. -/
def frameFault (req : List Nat) : Option Nat :=
  if req.length < 6 ∨ req.length < 6 + req.getD 5 0 then some badFrame
  else if opOf req = 0 ∨ 7 < opOf req then some unknownOp
  else if opOf req = 6 then
    match dataOf req with
    | [] => some badFrame
    | s :: _ => if s = 0 ∨ 3 < s then some authSequence else none
  else none

/-- The part with the request queue changed. -/
def Hw.setRequests (h : Hw) (q : List (Nat × List Nat)) : Hw := { h with fw := { h.fw with requests := q } }

/-- A step of AUTH out of order discards the nonce (R457). -/
def Hw.dropNonce (h : Hw) (l : Nat) : Hw := h.setLink l { h.link l with nonce := [], sigR := [] }

/-- Requests at the head that no operation takes are answered with their abort. -/
def Hw.flushBad (h : Hw) : Nat → Hw
  | 0 => h
  | k + 1 =>
    match h.fw.requests with
    | [] => h
    | (l, req) :: rest =>
      match frameFault req with
      | none => h
      | some code =>
        let h := h.setRequests rest
        let h := if code = authSequence then h.dropNonce l else h
        (h.respond l req (.error (if opOf req = 6 ∧ 8 ≤ l then authLink else code))).flushBad k

/-- The requests of link l that have not been answered. -/
def Hw.queued (h : Hw) (l : Nat) : Nat := (h.fw.requests.filter fun (r : Nat × List Nat) => r.1 == l).length

/-- The boot ROM answers on U0 and on the Lanyard port: it has started no firmware, outside BLANK and SCRAPPED (R648). -/
def Hw.bootAnswers (h : Hw) (l : Nat) : Bool :=
  (l == 0 || l == 7) && !h.sys.fwRunning && !h.pwr.resetting && h.clocked && h.fuses.lifecycle != 0 && h.fuses.lifecycle != 5

/-- The register that the boot ROM answers a request from (R648). -/
def bootObject (req : List Nat) : Option Nat :=
  if frameFault req ≠ none ∨ opOf req ≠ 1 then none
  else if idxOf req = 0x7030 ∧ subOf req = 4 then some SYS_BOOT
  else if idxOf req = 0x7010 ∧ subOf req = 5 then some WAKE_RSTCAUSE
  else none

/-- The boot ROM's answer to a request (R648). -/
def Hw.bootAnswer (h : Hw) (l : Nat) (req : List Nat) : Hw :=
  match bootObject req with
  | some a => h.respond l req (.ok (leBytes 4 (h.regValue a)))
  | none => h.respond l req (.error hardwareError)

/-- REQUEST_RECEIVED (R452, R466, R467, R648, R696). -/
def Hw.request (h : Hw) (l : Nat) (req : List Nat) : Hw :=
  if h.bootAnswers l then h.bootAnswer l req
  else if !h.sys.fwRunning ∨ !h.clocked then h
  else
    let h := h.setLink l { h.link l with lastReq := h.tcnt }
    if 4 ≤ h.queued l then h.respond l req (.error linkBusy)
    else
      let h := h.setRequests (h.fw.requests ++ [(l, req)])
      if h.fwUp then h.flushBad h.fw.requests.length else h

/-- The request at the head has come to `r`: it leaves the queue, and its response is sent while the firmware still runs (R466). -/
def Hw.finishRequest (h : Hw) (l : Nat) (req : List Nat) (r : Except Nat (List Nat)) : Hw :=
  let h := h.setRequests (h.fw.requests.drop 1)
  if h.fwUp then h.respond l req r else h

/-- What an operation's answer does with the request at the head. -/
def served (l : Nat) (req : List Nat) : Answer × Hw → Hw
  | (.later, h) => h
  | (.value bs, h) => h.finishRequest l req (.ok bs)
  | (.abort code, h) => h.finishRequest l req (.error code)
  | (.thenGo, h) => (h.finishRequest l req (.ok [])).updGo

/-- Serve the request at the head if its OP is `op` and `p` holds of its data: `f` gives what the operation comes to (R466). The response is sent
while the firmware still runs. -/
def Hw.serveIf (h : Hw) (op : Nat) (p : List Nat → Bool) (f : Nat → List Nat → Hw → Answer × Hw) : Hw :=
  if !h.fwUp then h
  else
    let h := h.flushBad h.fw.requests.length
    match h.fw.requests with
    | [] => h
    | (l, req) :: _ =>
      if opOf req ≠ op ∨ !p (dataOf req) then h
      else
        let h := served l req (f l req h)
        if h.fwUp then h.flushBad h.fw.requests.length else h

/-- Serve the request at the head if its OP is `op`. -/
def Hw.serve (h : Hw) (op : Nat) (f : Nat → List Nat → Hw → Answer × Hw) : Hw := h.serveIf op (fun _ => true) f

/-! ### READ and WRITE (R459) -/

/-- OBJECT_READ. -/
def Hw.opRead (h : Hw) : Hw :=
  h.serve 1 fun l req h =>
    match h.objectRead l (idxOf req) (subOf req) with
    | (.value bs, h) => if 56 < bs.length then (.abort useSeg, h) else (.value bs, h)
    | r => r

/-- OBJECT_WRITE. -/
def Hw.opWrite (h : Hw) : Hw :=
  h.serve 2 fun l req h =>
    match h.writable l (idxOf req) (subOf req) with
    | .error code => (.abort code, h)
    | .ok o => if 56 < (dataOf req).length then (.abort useSeg, h) else h.putChecked l o (dataOf req)

/-! ### Segments (R460 to R465) -/

/-- The most value bytes of a segment on link l (R460). -/
def segLimit (l : Nat) : Nat := if 8 ≤ l then 48 else 224

/-- READ_SEG (R460). -/
def Hw.opReadSeg (h : Hw) : Hw :=
  h.serve 3 fun l req h =>
    let d := dataOf req
    if d.length < 5 then (.abort badFrame, h)
    else match h.objectRead l (idxOf req) (subOf req) with
      | (.value bs, h) =>
        let off := leNat (d.take 4)
        (.value (leBytes 4 off ++ leBytes 4 bs.length ++ (bs.drop off).take (min (d.getD 4 0) (segLimit l))), h)
      | r => r

/-- The transfer of an object on link l. -/
def Hw.segOf (h : Hw) (l idx sub : Nat) : Option SegWrite := (h.link l).segs.find? fun (x : SegWrite) => x.idx == idx && x.sub == sub

/-- The transfer of an object on link l is over. -/
def Hw.segDrop (h : Hw) (l idx sub : Nat) : Hw :=
  h.setLink l { h.link l with segs := (h.link l).segs.filter fun (x : SegWrite) => !(x.idx == idx && x.sub == sub) }

/-- The transfer of an object on link l stands so. -/
def Hw.segPut (h : Hw) (l : Nat) (x : SegWrite) : Hw :=
  let h := h.segDrop l x.idx x.sub
  h.setLink l { h.link l with segs := x :: (h.link l).segs }

/-- The transfer is abandoned: its next segment is refused with `code` (R462, R465). -/
def Hw.segKill (h : Hw) (l idx sub code : Nat) : Hw :=
  let h := h.segDrop l idx sub
  h.setLink l { h.link l with dead := (code, idx, sub) :: (h.link l).dead }

/-- SEG_TRANSFER_TIMEOUT (R462). -/
def Hw.segExpire (h : Hw) (l idx sub : Nat) : Hw :=
  match h.segOf l idx sub with
  | none => h
  | some x => if h.fwUp then (h.reach (x.last + 2 * secondTicks + 1)).segKill l idx sub segTimeout else h

/-- A segment as it came. -/
structure Segment where
  tid   : Nat
  off   : Nat
  total : Nat
  last  : Bool
  bytes : List Nat

/-- The segment of a WRITE_SEG request. -/
def segmentOf (req : List Nat) : Segment :=
  let d := dataOf req
  ⟨tidOf req, leNat (d.take 4), leNat ((d.drop 4).take 4), bit (d.getD 8 0) 0, d.drop 9⟩

/-- A segment joins its transfer; with LAST and every byte, the value takes effect as a whole (R461, R462). -/
def Hw.segTake (h : Hw) (l : Nat) (o : ObjDef) (x : SegWrite) (g : Segment) : Answer × Hw :=
  let data := x.data ++ g.bytes
  let tids := g.tid :: x.tids
  if g.total < data.length then (.abort segTotal, h.segDrop l o.idx o.sub)
  else if !g.last then (.value (leBytes 4 data.length), h.segPut l { x with tids := tids, data := data, prev := g.off, last := h.tcnt })
  else if data.length < g.total then (.abort segTotal, h.segDrop l o.idx o.sub)
  else match h.putChecked l o data with
    | (.later, h) => (.later, h)
    | (.value _, h) =>
      let d : SegDone := ⟨g.tid, o.idx, o.sub, g.off, leBytes 4 data.length⟩
      let h := h.segDrop l o.idx o.sub
      (.value (leBytes 4 data.length), h.setLink l { h.link l with answered := d :: (h.link l).answered.filter fun y => !(y.idx == o.idx && y.sub == o.sub) })
    | (r, h) => (r, h.segDrop l o.idx o.sub)

/-- A segment of an object that may be written: refused after an abandonment, answered again where it repeats, or taken (R461, R462). -/
def Hw.segStep (h : Hw) (l : Nat) (o : ObjDef) (g : Segment) : Answer × Hw :=
  let h := match h.segOf l o.idx o.sub with
    | some x => if x.last + 2 * secondTicks < h.tcnt then h.segKill l o.idx o.sub segTimeout else h
    | none => h
  let k := h.link l
  match k.dead.find? fun (d : Nat × Nat × Nat) => d.2 == (o.idx, o.sub) with
  | some d => (.abort d.1, h.setLink l { k with dead := k.dead.filter fun (e : Nat × Nat × Nat) => e.2 != (o.idx, o.sub) })
  | none =>
    match h.segOf l o.idx o.sub with
    | none =>
      match k.answered.find? fun (d : SegDone) => d.idx == o.idx && d.sub == o.sub && d.tid == g.tid && d.off == g.off with
      | some d => (.value d.answer, h)
      | none => if g.off ≠ 0 then (.abort segOrder, h) else h.segTake l o ⟨[], o.idx, o.sub, g.total, [], 0, h.tcnt⟩ g
    | some x =>
      if g.off = x.prev ∧ g.total = x.total then
        (.value (leBytes 4 x.data.length), h.segPut l { x with tids := g.tid :: x.tids, last := h.tcnt })
      else if g.off ≠ x.data.length ∨ g.total ≠ x.total then (.abort segOrder, h.segDrop l o.idx o.sub)
      else h.segTake l o x g

/-- WRITE_SEG. -/
def Hw.opWriteSeg (h : Hw) : Hw :=
  h.serve 4 fun l req h =>
    match h.writable l (idxOf req) (subOf req) with
    | .error code => (.abort code, h)
    | .ok o =>
      if (dataOf req).length < 9 then (.abort badFrame, h)
      else if segLimit l < (segmentOf req).bytes.length then (.abort badLength, h)
      else h.segStep l o (segmentOf req)

/-- ABORT (R465). -/
def Hw.opAbort (h : Hw) : Hw :=
  h.serve 7 fun l req h =>
    match dataOf req with
    | [] => (.abort badFrame, h)
    | t :: _ =>
      match (h.link l).segs.find? fun (x : SegWrite) => x.tids.contains t with
      | none => (.abort noTransfer, h)
      | some x => (.value [], h.segKill l x.idx x.sub abandoned)

/-! ### AUTH (R452 to R457, R543, R544) -/

/-- The bar of R457 is in force on link l. -/
def Hw.linkBarred (h : Hw) (l : Nat) : Bool := (h.link l).barred && decide (h.tcnt < (h.link l).barAt + 60 * secondTicks)

/-- The nonce of link l is no longer valid. -/
def Hw.nonceOver (h : Hw) (l : Nat) : Bool := (h.link l).nonce == [] || decide ((h.link l).nonceAt + 10 * secondTicks < h.tcnt)

/-- STEP of an AUTH request. -/
def stepIs (n : Nat) (d : List Nat) : Bool := d.getD 0 0 == n

/-- AUTH_STEP_1: a fresh nonce. -/
def Hw.authStep1 (h : Hw) : Hw :=
  h.serveIf 6 (stepIs 1) fun l _ h =>
    if 8 ≤ l then (.abort authLink, h)
    else if h.linkBarred l then (.abort authFailed, h)
    else
      let (n, h) := h.nonce
      (.value n, h.setLink l { h.link l with nonce := n, nonceAt := h.tcnt, sigR := [] })

/-- AUTH_STEP_2: r of the signature. -/
def Hw.authStep2 (h : Hw) : Hw :=
  h.serveIf 6 (stepIs 2) fun l req h =>
    if 8 ≤ l then (.abort authLink, h)
    else if (dataOf req).length < 33 then (.abort badFrame, h)
    else if h.nonceOver l ∨ (h.link l).sigR ≠ [] then (.abort authSequence, h.dropNonce l)
    else (.value [], h.setLink l { h.link l with sigR := ((dataOf req).drop 1).take 32 })

/-- AUTH grants `role` on link l in the present life-cycle state (R454, R543). -/
def Hw.roleOpen (h : Hw) (l role : Nat) : Bool :=
  let lc := h.fuses.lifecycle
  let open_ := l == 7 && h.rf LYD_SESS_STATE != 0
  match role with
  | 1 => true
  | 2 => open_
  | 3 => lc == 1 || lc == 4 || ((lc == 2 || lc == 3) && open_)
  | _ => false

/-- KEY_ID of the key that checks a proof of `role` (R456, R543). -/
def roleKey (role : Nat) : Nat := if role = 1 then 0x0100 else if role = 2 then 0x0200 else 0x0001

/-- A proof on link l has failed (R457, R544). -/
def Hw.proofFailed (h : Hw) (l role : Nat) : Hw :=
  let h := h.setObj 0x1020 2 (satTo 65535 (h.obj 0x1020 2 + 1))
  let k := h.link l
  let k := { k with fails := k.fails + 1 }
  let h := h.setLink l (if 8 ≤ k.fails then { k with barred := true, barAt := h.tcnt } else k)
  if role = 2 then h.report 0xC 1 0 0 7 else h

/-- The session of link l takes a role. -/
def Hw.grant (h : Hw) (l role : Nat) : Hw :=
  let h := h.setLink l { h.link l with role := role }
  if l = 7 then { h with lyd := { h.lyd with service := h.tcnt } }.sf LYD_SESS_ROLE role else h

/-- AUTH_STEP_3: the proof is checked and the role granted. -/
def Hw.authStep3 (h : Hw) : Hw :=
  h.serveIf 6 (stepIs 3) fun l req h =>
    let d := dataOf req
    let role := d.getD 33 0
    let k := h.link l
    if 8 ≤ l then (.abort authLink, h)
    else if d.length < 34 then (.abort badFrame, h)
    else if h.nonceOver l ∨ k.sigR = [] then (.abort authSequence, h.dropNonce l)
    else
      let h := h.dropNonce l
      if !h.roleOpen l role then (.abort authLink, h)
      else match h.keyWithId (roleKey role) with
        | none => (.abort noKey, h)
        | some key =>
          let msg := k.nonce ++ leBytes 8 h.fuses.unique ++ [role, l]
          if Config.signatureOk key msg k.sigR ((d.drop 1).take 32) then (.value [role], h.grant l role)
          else (.abort authFailed, h.proofFailed l role)

/-- NONCE_EXPIRY (R457). -/
def Hw.nonceExpiry (h : Hw) (l : Nat) : Hw :=
  if (h.link l).nonce = [] then h else (h.reach ((h.link l).nonceAt + 10 * secondTicks)).dropNonce l

/-- AUTH_BAR_EXPIRY (R457). -/
def Hw.authBarExpiry (h : Hw) (l : Nat) : Hw :=
  if !(h.link l).barred then h
  else
    let h := h.reach ((h.link l).barAt + 60 * secondTicks)
    h.setLink l { h.link l with barred := false, fails := 0 }

/-! ### Subscriptions (R470 to R474) -/

/-- The part with the subscriptions changed. -/
def Hw.setSubs (h : Hw) (xs : List Sub) : Hw := { h with fw := { h.fw with subs := xs } }

/-- The part with one subscription changed. -/
def Hw.setSub (h : Hw) (x : Sub) : Hw := h.setSubs (h.fw.subs.map fun (y : Sub) => if y.slot = x.slot then x else y)

/-- The lowest free subscription slot. -/
def Hw.freeSlot (h : Hw) : Option Nat := (upTo 32).find? fun i => !h.fw.subs.any fun (x : Sub) => x.slot == i

/-- PERIOD and MIN_INT are in their ranges for a MODE (R470). -/
def subOk (mode period minInt : Nat) : Bool :=
  decide (mode ≤ 3) && (mode == 0 || (decide (10 ≤ period) && decide (period ≤ 60000) && decide (minInt ≤ 60000)))

/-- A subscription of link l to an object that it may read, with the value that the object has (R470, R471). -/
def Hw.subscribeTo (h : Hw) (l idx sub mode period minInt : Nat) (seen : List Nat) : Answer × Hw :=
  let old := h.fw.subs.find? fun (x : Sub) => x.link == l && x.idx == idx && x.sub == sub
  if mode = 0 then
    match old with
    | some x => (.value [x.slot], h.setSubs (h.fw.subs.filter fun (y : Sub) => y.slot != x.slot))
    | none =>
      let (v, h) := h.fresh
      (.value [v % 256], h)
  else
    let fresh := fun (slot : Nat) => (⟨slot, l, idx, sub, mode, period, minInt, 0, none, h.tcnt, seen, false, false⟩ : Sub)
    match old, h.freeSlot with
    | some x, _ => (.value [x.slot], h.setSub { fresh x.slot with nseq := x.nseq, sentAt := x.sentAt })
    | none, some i => (.value [i], h.setSubs (h.fw.subs ++ [fresh i]))
    | none, none => (.abort noSubSlot, h)

/-- SUBSCRIBE. -/
def Hw.opSubscribe (h : Hw) : Hw :=
  h.serve 5 fun l req h =>
    let d := dataOf req
    let mode := d.getD 0 0
    let period := leNat ((d.drop 1).take 2)
    let minInt := leNat ((d.drop 3).take 2)
    if d.length < 5 then (.abort badFrame, h)
    else if !subOk mode period minInt then (.abort badSub, h)
    else match h.objectRead l (idxOf req) (subOf req) with
      | (.value v, h) => h.subscribeTo l (idxOf req) (subOf req) mode period minInt v
      | r => r

/-- The subscribed objects that are words of the machine are read, and a change is noticed (R472). -/
def Hw.sampleOne (h : Hw) (x : Sub) : Hw :=
  if (h.objectWord x.idx x.sub).isNone ∨ x.sub = 0 then h
  else match h.objectRead x.link x.idx x.sub with
    | (.value v, h) => if v = x.seen then h else h.setSub { x with seen := v, changed := true }
    | (_, h) => h

/-- REGISTER_SAMPLING. -/
def Hw.registerSampling (h : Hw) : Hw := if h.fwUp then forEach (fun x h => h.sampleOne x) h.fw.subs h else h

/-- The timing counts at which a subscription's change and period notifications fall due (R470, R472). -/
def Sub.changeDue (x : Sub) : Option Nat :=
  if x.waiting then some 0
  else if (x.mode == 1 || x.mode == 3) && x.changed then
    some (match x.sentAt with | none => 0 | some t => t + x.minInt * 491520)
  else none
def Sub.periodDue (x : Sub) : Option Nat := if x.mode = 2 ∨ x.mode = 3 then some (x.since + x.period * 491520) else none

/-- The earlier of two times. -/
def earlier (a b : Option Nat) : Option Nat :=
  match a, b with
  | some x, some y => some (min x y)
  | some x, none => some x
  | none, y => y

/-- The NOTIFY payload (R473). -/
def notifyBytes (x : Sub) (v : List Nat) : List Nat :=
  leBytes 2 x.idx ++ [x.sub, x.nseq] ++ (if 56 < v.length then [0xFF] else v.length :: v)

/-- A waiting notification of the same subscription in a CAN transmit queue is replaced (R474). -/
def Hw.replaceNotify (h : Hw) (x : Sub) (payload : List Nat) : Option Hw :=
  if x.link < 8 then none
  else
    let n := x.link - 8
    let c := h.can n
    let tag := some (x.link, x.idx, x.sub)
    if c.tx.any fun (f : CanFrame) => f.sub == tag then
      let put := fun (f : CanFrame) => if f.sub == tag then { f with data := if h.on (CAN_CFG_FDOE n) then canPad payload else payload } else f
      some ((h.setCan n { c with tx := c.tx.map put }).bump (CAN_TALLY_NOTIFY_COAL n))
    else none

/-- A notification of subscription x with value v has been sent (R472, R473). -/
def Hw.subSent (h : Hw) (x : Sub) (v : List Nat) : Hw :=
  h.setSub { x with seen := v, changed := false, waiting := false, nseq := (x.nseq + 1) % 256, sentAt := some h.tcnt, since := h.tcnt }

/-- A NOTIFY frame of subscription x goes to its link. -/
def Hw.notifyFrame (h : Hw) (x : Sub) (payload : List Nat) : Hw :=
  if 8 ≤ x.link then h.canSend (x.link - 8) fnNotify payload none (some (x.link, x.idx, x.sub)) else h.wowellSend x.link fnNotify payload

/-- The notification of subscription x with value v: queued, or replacing the one that waits, or waiting (R472 to R474). -/
def Hw.notifySend (h : Hw) (x : Sub) (v : List Nat) : Hw :=
  let payload := notifyBytes x v
  if h.linkFree x.link then (h.notifyFrame x payload).subSent x v
  else match h.replaceNotify x payload with
    | some h => h.subSent x v
    | none =>
      if x.waiting then
        let h := if 8 ≤ x.link then h.bump (CAN_TALLY_NOTIFY_COAL (x.link - 8)) else h
        h.setSub { x with seen := v, changed := false, nseq := (x.nseq + 1) % 256, since := h.tcnt }
      else h.setSub { x with seen := v, changed := false, waiting := true, since := h.tcnt }

/-- A value that Fofiys firmware has written by itself is noticed (R472): subscription x has changed where its object's value is not the one last seen.
WS_AGE counts by itself. -/
def Hw.fwNoticed (h : Hw) (x : Sub) : Sub :=
  match fwObject x.idx x.sub with
  | none => x
  | some o =>
    if (x.idx = 0x4010 ∧ x.sub = 3) ∨ (h.objectWord x.idx x.sub).isSome ∨ x.changed then x
    else { x with changed := h.fwValue x.link o != x.seen }

/-- NOTIFY_SEND: the notification of a subscription falls due; its value is that of the moment (R472). -/
def Hw.notifyDue (h : Hw) (slot : Nat) : Hw :=
  match h.fw.subs.find? fun (x : Sub) => x.slot == slot with
  | none => h
  | some x =>
    if !h.fwUp then h
    else match earlier (h.fwNoticed x).changeDue x.periodDue with
      | none => h
      | some t =>
        match (h.reach t).objectRead x.link x.idx x.sub with
        | (.value v, h) => h.notifySend x v
        | (_, h) => h

end Sys2Proof.Machine
end

