-- ==== Sys2Proof/Machine/Transport.lean ====
section
/-! DEFINITION. The Wowell link layer's receiver (R475 to R478), the Lanyard frames (R538, R541), the host SPI port (R480 to R483), the host window (R484)
and the frames that the firmware sends by itself (Table 10.7, R491). -/

namespace Sys2Proof.Machine

/-! ### The host window (R483 to R485) -/

/-- The part with the window access changed. -/
def Hw.setWin (h : Hw) (w : Option HostWin) : Hw := { h with win := w }

/-- The WRESP of a window access, which is over. -/
def Hw.winEnd (h : Hw) (w : HostWin) (status : Nat) : Hw :=
  (h.setWin none).wowellSend 6 0x0A (leBytes 4 w.addr ++ [w.count % 256, status] ++ (if w.write then [] else w.got.flatMap (leBytes 4)))

/-- The write of one window word: its COLLIDE answers where the access is permitted, at most three of which it repeats, then the write (R484). Answers false when it gives up. -/
def Hw.winPut (h : Hw) (a v hits : Nat) : Bool × Hw :=
  let k := if within 0x11000000 0x1103FFFF a ∧ h.busAccess .host a 4 true = .ok then min hits 4 else 0
  let h := forEach (fun i h => h.collide .host a (i + 1)) (upTo k) h
  if k = 4 then (false, h) else (true, h.write .host a 4 v false)

/-- The window access goes on as far as it can: until it is over or a word waits (R484). `k` bounds the words. -/
def Hw.winRun (h : Hw) (w : HostWin) : Nat → Hw
  | 0 => h.setWin (some w)
  | k + 1 =>
    match w.words with
    | [] => h.winEnd w 0
    | v :: rest =>
      let a := w.addr + 4 * w.count
      if h.busAccess .host a 4 w.write = .stall then h.setWin (some w)
      else if w.write then
        match h.winPut a v (w.hits.headD 0) with
        | (false, h) => h.winEnd w 2
        | (true, h) =>
          if h.resp = .error then h.winEnd w 1 else h.winRun { w with count := w.count + 1, words := rest, hits := w.hits.drop 1 } k
      else
        let h := h.read .host a 4
        match h.resp with
        | .data v => h.winRun { w with count := w.count + 1, words := rest, got := w.got ++ [v] } k
        | _ => h.winEnd w 1

/-- The window access in progress, if one waits, goes on. -/
def Hw.winResume (h : Hw) : Hw := match h.win with | none => h | some w => h.winRun w 64

/-- A window frame counts as BADFRAME (R483). -/
def Hw.hspiBad (h : Hw) : Hw := h.bump HSPI_STAT_BADFRAME

/-- WREAD: while an earlier access still waits, that one goes on. -/
def Hw.wread (h : Hw) (a n : Nat) : Hw :=
  if h.win.isSome then h.winResume
  else if !h.on HSPI_CFG_EN ∨ !h.clocked then h
  else if !h.on HSPI_CFG_WIN_EN ∨ n = 0 ∨ 60 < n then h.hspiBad
  else h.winRun ⟨false, a, 0, List.replicate n 0, [], []⟩ 64

/-- WWRITE. -/
def Hw.wwrite (h : Hw) (a : Nat) (words hits : List Nat) : Hw :=
  if h.win.isSome then h.winResume
  else if !h.on HSPI_CFG_EN ∨ !h.clocked then h
  else if !h.on HSPI_CFG_WIN_EN ∨ words.isEmpty ∨ 60 < words.length then h.hspiBad
  else h.winRun ⟨true, a, 0, words, [], hits⟩ 64

/-! ### Frames received (R476, R477, R538 to R542) -/

/-- TYPE is in Table 10.6 for link l (R476). -/
def typeOk (l t : Nat) : Bool :=
  (decide (1 ≤ t) && decide (t ≤ 7)) || (l == 6 && decide (8 ≤ t) && decide (t ≤ 10)) ||
    (l == 7 && decide (0x20 ≤ t) && decide (t ≤ 0x25))

/-- What the receiver makes of the bytes it has: a partial frame or none, a false start, or a frame with its TYPE and payload and the bytes behind it. -/
inductive Hunt where
  | wait (from_ : List Nat)
  | bad (rest : List Nat)
  | frame (type : Nat) (payload rest : List Nat)

/-- The decision at the first 0xA5 (R477). -/
def hunt (l : Nat) (rx : List Nat) : Hunt :=
  let s := rx.dropWhile (· != 0xA5)
  match s with
  | [] => .wait []
  | [_] => .wait s
  | _ :: len :: rest =>
    if 248 < len then .bad (s.drop 1)
    else match rest with
      | [] => .wait s
      | t :: _ =>
        if !typeOk l t then .bad (s.drop 1)
        else if s.length < len + 5 then .wait s
        else
          let body := (s.drop 1).take (len + 2)
          let crc := 256 * s.getD (len + 3) 0 + s.getD (len + 4) 0
          if crc16 body = crc then .frame t (body.drop 2) (s.drop (len + 5)) else .bad (s.drop 1)

/-- BADFRAME of link l: HSPI_STAT has the count of the host SPI port; the other Wowell links' tallies have no field for it. -/
def Hw.badFrameOn (h : Hw) (l : Nat) : Hw := if l = 6 then h.hspiBad else h.setLink l { h.link l with bad := (h.link l).bad + 1 }

/-- A session frame of the Lanyard port (Table 11.4). -/
def Hw.sessionFrame (h : Hw) (t : Nat) (p : List Nat) : Hw :=
  let sid := p.getD 0 0
  match t, p.length with
  | 0x20, 4 => h.lydAttach
  | 0x22, 1 => h.lydKeep sid
  | 0x23, 1 => h.lydDetach sid
  | 0x24, 5 => h.lydRate sid (p.getD 1 0 + 256 * p.getD 2 0) (p.getD 3 0 + 256 * p.getD 4 0)
  | _, _ => h

/-- A valid frame of Table 10.6 on link l: requests queue, ACCESS frames are remote commands from a link without ROLE, windows open, and the
window's frames count as BADFRAME while WIN_EN is 0 (R483); every other frame changes nothing. -/
def Hw.frameOn (h : Hw) (l t : Nat) (p hits : List Nat) : Hw :=
  if t = 2 then h.request l p
  else if t = 6 then (if h.fwUp then h.remote (p.getD 0 0) 1 false else h)
  else if 8 ≤ t ∧ t ≤ 10 ∧ !h.on HSPI_CFG_WIN_EN then h.hspiBad
  else if t = 8 then (if p.length = 5 then h.wread (leNat (p.take 4)) (p.getD 4 0) else h.hspiBad)
  else if t = 9 then
    (if p.length = 5 + 4 * p.getD 4 0 then h.wwrite (leNat (p.take 4)) (wordsOf (p.drop 5)) hits else h.hspiBad)
  else h

/-- A frame on the Lanyard port: outside an open session every frame but ATTACH is counted in NOSESS (R538); the boot ROM answers without one (R648). -/
def Hw.lanyardFrame (h : Hw) (t : Nat) (p : List Nat) : Hw :=
  if h.bootAnswers 7 then (if t = 2 then h.bootAnswer 7 p else h)
  else if !h.fwUp then h
  else if 0x20 ≤ t then
    (if h.rf LYD_SESS_STATE = 0 ∧ t ≠ 0x20 then h.noSession else h.sessionFrame t p)
  else if h.rf LYD_SESS_STATE = 0 then h.noSession
  else h.lydValid.frameOn 7 t p []

/-- A valid frame on any Wowell link. -/
def Hw.frameTaken (h : Hw) (l t : Nat) (p hits : List Nat) : Hw := if l = 7 then h.lanyardFrame t p else h.frameOn l t p hits

/-- The port of a UART or Lanyard link. -/
def linkPort (l : Nat) : Nat := if l = 7 then 6 else l

/-- Someone takes characters of link l off its port: the firmware of a link in use, or the boot ROM (R546, R648). -/
def Hw.drains (h : Hw) (l : Nat) : Bool :=
  h.bootAnswers l || (h.sys.fwRunning && h.clocked && (l == 7 || h.obj 0xB030 (l + 1) == 1))

/-- The characters of the receive FIFO join the receiver's bytes. -/
def Hw.drainPort (h : Hw) (l : Nat) : Hw :=
  if 6 ≤ l ∧ l ≠ 7 ∨ !h.drains l then h
  else
    let s := h.serial (linkPort l)
    let h := h.setSerial (linkPort l) { s with rx := [] }
    h.setLink l { h.link l with rx := (h.link l).rx ++ s.rx.map (· % 256) }

/-- One decision of the receiver of link l (R477). -/
def Hw.decideFrame (h : Hw) (l : Nat) (hits : List Nat) : Hw :=
  let keep := fun (h : Hw) (rx : List Nat) => h.setLink l { h.link l with rx := rx }
  match hunt l (h.link l).rx with
  | .wait s => keep h s
  | .bad s => (keep h s).badFrameOn l
  | .frame t p s => (keep h s).frameTaken l t p hits

/-- WOWELL_FRAME_RECEIVED: on the host SPI link a window access that waits goes on first, and holds the frames behind it. -/
def Hw.wowellReceived (h : Hw) (l : Nat) (hits : List Nat) : Hw :=
  if 8 ≤ l then h
  else
    let h := if l = 6 then h.winResume else h.drainPort l
    if l = 6 ∧ h.win.isSome then h else h.decideFrame l hits

/-- Every frame that is complete is decided, and a partial one remains. -/
def Hw.decideAll (h : Hw) (l : Nat) : Nat → Hw
  | 0 => h
  | k + 1 =>
    match hunt l (h.link l).rx with
    | .wait _ => h.decideFrame l []
    | _ => (h.decideFrame l []).decideAll l k

/-- WOWELL_GAP_TIMEOUT (R478). -/
def Hw.wowellGap (h : Hw) (l : Nat) : Hw :=
  if l = 6 ∨ 8 ≤ l then h
  else
    let h := h.drainPort l
    let h := h.decideAll l (h.link l).rx.length
    h.setLink l { h.link l with rx := [] }

/-! ### The host SPI port (R480 to R482) -/

/-- The part with the host SPI port's output changed. -/
def Hw.setOut (h : Hw) (q : List Nat) (part : Nat) : Hw := { h with fw := { h.fw with hspiOut := q, hspiPart := part } }

/-- HSPI_BYTE_EXCHANGE: a byte in, a byte out; the byte out is the response. -/
def Hw.hspiByte (h : Hw) (b : Nat) : Hw :=
  if !h.on HSPI_CFG_EN ∨ !h.clocked then h
  else
    let h := { h with fw := { h.fw with hspiCs := true } }
    let h := h.setLink 6 { h.link 6 with rx := (h.link 6).rx ++ [b] }
    match h.fw.hspiOut with
    | [] => { h with resp := .data 0 }
    | x :: rest =>
      let part := if h.fw.hspiPart = 0 then (rest ++ (h.link 6).out).headD 0 + 4 else h.fw.hspiPart - 1
      { (h.setOut rest part).hspiPump with resp := .data x }

/-- The rest of an output frame whose sending has begun is discarded (R478). -/
def Hw.hspiDropOut (h : Hw) : Hw :=
  let n := h.fw.hspiPart
  if n = 0 then h
  else
    let later := n - h.fw.hspiOut.length
    let h := h.setOut (h.fw.hspiOut.drop n) 0
    (h.setLink 6 { h.link 6 with out := (h.link 6).out.drop later }).hspiPump.hspiBad

/-- HSPI_CS_DEASSERT (R478): partial frames in both directions are discarded and counted. -/
def Hw.hspiDeassert (h : Hw) : Hw :=
  let h := { h with fw := { h.fw with hspiCs := false } }
  let h := h.decideAll 6 (h.link 6).rx.length
  let h := if (h.link 6).rx = [] then h else (h.setLink 6 { h.link 6 with rx := [] }).hspiBad
  h.hspiDropOut

/-- The level of HOST_IRQ (R482). -/
def Hw.hostIrq (h : Hw) : Bool := if h.fw.hspiOut = [] then !h.on HSPI_CFG_IRQ_POL else h.on HSPI_CFG_IRQ_POL

/-! ### Requests and frames of the other transports -/

/-- REQUEST_RECEIVED: on a CAN link the request at the head of the receive FIFO; on a Wowell link the payload of a REQUEST frame. -/
def Hw.requestOn (h : Hw) (l : Nat) (payload : List Nat) : Hw :=
  if 8 ≤ l then
    let c := h.can (l - 8)
    match c.rx with
    | (fn, d) :: rest => if fn = fnRequest ∧ h.sys.fwRunning ∧ h.clocked then (h.setCan (l - 8) { c with rx := rest }).request l d else h
    | [] => h
  else if h.bootAnswers l ∨ h.linkUp l then h.frameTaken l 2 payload []
  else if l = 7 then h.noSession
  else h

/-- HEARTBEAT: every HB_PERIOD on each link in use (Table 10.7). -/
def Hw.heartbeatDue (h : Hw) (l : Nat) : Hw := if h.fwUp ∧ h.obj 0x1010 1 ≠ 0 ∧ h.linkUp l then h.heartbeat l else h

/-- TIME_FRAME_QUEUE (R491). -/
def Hw.timeFrameDue (h : Hw) (gtime : Nat) (leap : Option Nat) : Hw := if h.fwUp then h.timeFrame gtime leap else h

end Sys2Proof.Machine
end

