-- ==== Sys2Proof/Machine/DictCmds.lean ====
section
/-! DEFINITION. The commands of the object dictionary and its operations (10.1 to 10.5, 10.8). -/

namespace Sys2Proof.Machine

/-- REQUEST_RECEIVED: a request reaches a link (R466, R467, R648, R696) -/
def execRequestReceived (l : Fin 10) (payload : List Nat) (s : State) : Host.Outcome State Fault Refusal := s.does (·.requestOn l.val payload)

/-- OBJECT_READ: the READ at the head of the queue is served (R446, R447, R459) -/
def execObjectRead (s : State) : Host.Outcome State Fault Refusal := s.does (·.opRead)

/-- OBJECT_WRITE: the WRITE at the head of the queue is served (R446 to R449, R459, R505) -/
def execObjectWrite (s : State) : Host.Outcome State Fault Refusal := s.does (·.opWrite)

/-- READ_SEG: the READ_SEG at the head of the queue is served (R460) -/
def execReadSeg (s : State) : Host.Outcome State Fault Refusal := s.does (·.opReadSeg)

/-- WRITE_SEG: the WRITE_SEG at the head of the queue is served (R461 to R464) -/
def execWriteSeg (s : State) : Host.Outcome State Fault Refusal := s.does (·.opWriteSeg)

/-- SUBSCRIBE: the SUBSCRIBE at the head of the queue is served (R470, R471) -/
def execSubscribe (s : State) : Host.Outcome State Fault Refusal := s.does (·.opSubscribe)

/-- AUTH_STEP_1: step 1 at the head of the queue is served (R453, R455, R457) -/
def execAuthStep1 (s : State) : Host.Outcome State Fault Refusal := s.does (·.authStep1)

/-- AUTH_STEP_2: step 2 at the head of the queue is served (R455, R457) -/
def execAuthStep2 (s : State) : Host.Outcome State Fault Refusal := s.does (·.authStep2)

/-- AUTH_STEP_3: step 3 at the head of the queue is served (R454 to R457, R543, R544) -/
def execAuthStep3 (s : State) : Host.Outcome State Fault Refusal := s.does (·.authStep3)

/-- ABORT_TRANSFER: the ABORT at the head of the queue is served (R465) -/
def execAbortTransfer (s : State) : Host.Outcome State Fault Refusal := s.does (·.opAbort)

/-- SEG_TRANSFER_TIMEOUT: more than 2 s have passed since the last segment (R462) -/
def execSegTransferTimeout (l : Fin 10) (idx : BitVec 16) (sub : BitVec 8) (s : State) : Host.Outcome State Fault Refusal := s.does (·.segExpire l.val idx.toNat sub.toNat)

/-- NONCE_EXPIRY: 10 s after step 1 (R457) -/
def execNonceExpiry (l : Fin 10) (s : State) : Host.Outcome State Fault Refusal := s.does (·.nonceExpiry l.val)

/-- AUTH_BAR_EXPIRY: 60 s after the bar began (R457) -/
def execAuthBarExpiry (l : Fin 10) (s : State) : Host.Outcome State Fault Refusal := s.does (·.authBarExpiry l.val)

/-- SESSION_TIMEOUT: 300 s without a request (R452) -/
def execSessionTimeout (l : Fin 10) (s : State) : Host.Outcome State Fault Refusal := s.does (·.sessionTimeout l.val)

/-- REGISTER_SAMPLING: R472 -/
def execRegisterSampling (s : State) : Host.Outcome State Fault Refusal := s.does (·.registerSampling)

/-- NOTIFY_SEND: R472 to R474 -/
def execNotifySend (slot : Fin 32) (s : State) : Host.Outcome State Fault Refusal := s.does (·.notifyDue slot.val)

/-- JOURNAL_COMPACTION: R506, R508 -/
def execJournalCompaction (s : State) : Host.Outcome State Fault Refusal := s.does (·.compactDue)

/-- STRAND_COMMIT_OBJECT: firmware commits an entry for a link of role FLEET or higher (R156). -/
def execStrandCommitObject (link : Fin 10) (k : Fin 512) (bell : Bool) (s : State) : Host.Outcome State Fault Refusal :=
  s.does fun h => if h.fwUp && decide (1 ≤ h.linkRole link.val) then h.commitObject k bell else h

end Sys2Proof.Machine
end

