-- ==== Sys2Proof/Machine/I2cCmds.lean ====
section
/-! DEFINITION. The commands of the I2C controller (18.4). -/

namespace Sys2Proof.Machine

/-- I2C_CMD: a write of I2C_CMD (R750). -/
def execI2cCmd (v : BitVec 32) (s : State) : Host.Outcome State Fault Refusal := s.does (·.i2cCmd v.toNat)

/-- I2C_BUS_FREE_START: the bus is free and a waiting START is sent (R751). -/
def execI2cBusFreeStart (s : State) : Host.Outcome State Fault Refusal := s.does (·.i2cFree)

/-- I2C_BYTE: a byte is transferred (R753 to R755). -/
def execI2cByte (data : BitVec 8) (ack : Bool) (lost : Bool) (s : State) : Host.Outcome State Fault Refusal := s.does (·.i2cByte data.toNat ack lost)

/-- I2C_COMMAND_END: the command has transferred every byte and ends (R750, R757). -/
def execI2cCommandEnd (s : State) : Host.Outcome State Fault Refusal := s.does (·.i2cDone)

/-- I2C_TIMEOUT: SCL has been low for 25 ms (R756). -/
def execI2cTimeout (stop : Bool) (s : State) : Host.Outcome State Fault Refusal := s.does (·.i2cTimeout stop)

/-- I2C_DATA_WRITE: a write of I2C_DATA (R753). -/
def execI2cDataWrite (v : BitVec 8) (s : State) : Host.Outcome State Fault Refusal := s.does (·.i2cWrite v.toNat)

/-- I2C_DATA_READ: a read of I2C_DATA (R753). -/
def execI2cDataRead (s : State) : Host.Outcome State Fault Refusal := s.does (·.i2cRead)

end Sys2Proof.Machine
end

