-- ==== Sys2Proof/Machine/LinkCmds.lean ====
section
/-! DEFINITION. The commands of the Wowell receiver, the host SPI port and the host window, and the CAN controllers (10.6, 10.7). -/

namespace Sys2Proof.Machine

/-- WOWELL_FRAME_RECEIVED: one decision of the receiver (R475 to R477, R483, R538, R541) -/
def execWowellFrameReceived (l : Fin 10) (hits : List Nat) (s : State) : Host.Outcome State Fault Refusal := s.does (·.wowellReceived l.val hits)

/-- WOWELL_GAP_TIMEOUT: a partial frame is discarded (R478) -/
def execWowellGapTimeout (l : Fin 10) (s : State) : Host.Outcome State Fault Refusal := s.does (·.wowellGap l.val)

/-- HSPI_BYTE_EXCHANGE: R481, R482 -/
def execHspiByteExchange (b : BitVec 8) (s : State) : Host.Outcome State Fault Refusal := s.does (·.hspiByte b.toNat)

/-- HSPI_CS_DEASSERT: R478 -/
def execHspiCsDeassert (s : State) : Host.Outcome State Fault Refusal := s.does (·.hspiDeassert)

/-- WREAD: the host window reads (R483, R484) -/
def execWread (a : BitVec 32) (n : BitVec 8) (s : State) : Host.Outcome State Fault Refusal := s.does (·.wread a.toNat n.toNat)

/-- WWRITE: the host window writes (R483, R484) -/
def execWwrite (a : BitVec 32) (words : List Nat) (hits : List Nat) (s : State) : Host.Outcome State Fault Refusal := s.does (·.wwrite a.toNat words hits)

/-- CAN_FRAME_RECEIVED: R486 to R488, R490, R493 -/
def execCanFrameReceived (n : Fin 2) (id : BitVec 29) (ext : Bool) (fd : Bool) (data : List Nat) (s : State) : Host.Outcome State Fault Refusal := s.does (·.canReceived n.val id.toNat ext fd data)

/-- CAN_FRAME_SENT: R493 -/
def execCanFrameSent (n : Fin 2) (ok : Bool) (s : State) : Host.Outcome State Fault Refusal := s.does (·.canSent n.val ok)

/-- CAN_BUSOFF_RECOVERY: R495 -/
def execCanBusoffRecovery (n : Fin 2) (s : State) : Host.Outcome State Fault Refusal := s.does (·.canRecover n.val)

/-- TIME_FRAME_QUEUE: R491, Table 10.8 -/
def execTimeFrameQueue (gtime : BitVec 64) (leap : Option (BitVec 8)) (s : State) : Host.Outcome State Fault Refusal := s.does fun h => h.timeFrameDue gtime.toNat (leap.map (·.toNat))

/-- HEARTBEAT: Table 10.7 -/
def execHeartbeat (l : Fin 10) (s : State) : Host.Outcome State Fault Refusal := s.does (·.heartbeatDue l.val)

end Sys2Proof.Machine
end

