-- ==== Sys2Proof/Machine/LoopInsns.lean ====
section
/-! DEFINITION. The loop-core instructions (Table 8.9): one meaning for each row, on core c, and the retry of a store (R353). -/

namespace Sys2Proof.Machine

/-- LD: A ← sext(W). -/
def execLd (c : Fin 8) (s : State) : Host.Outcome State Fault Refusal :=
  s.does (·.runValue c 0x01 fun r i w => r.load (i.wordVal w))

/-- LDH: A ← sext(h) × 2^16. -/
def execLdh (c : Fin 8) (s : State) : Host.Outcome State Fault Refusal :=
  s.does (·.runValue c 0x02 fun r i w => r.load (i.halfVal w))

/-- LDG: register AUX ← h, or imm. -/
def execLdg (c : Fin 8) (s : State) : Host.Outcome State Fault Refusal :=
  s.does (·.runValue c 0x03 fun r i w => r.put i.aux (i.regVal w))

/-- ST: W ← A saturated. -/
def execSt (c : Fin 8) (hit : Bool) (s : State) : Host.Outcome State Fault Refusal :=
  s.does (·.runStore c 0x08 4 hit fun r _ => r.storeSat)

/-- STH: half H ← A rounded and saturated. -/
def execSth (c : Fin 8) (hit : Bool) (s : State) : Host.Outcome State Fault Refusal :=
  s.does (·.runStore c 0x09 2 hit fun r _ => r.storeHalf)

/-- STA: W ← A[31:0]. -/
def execSta (c : Fin 8) (hit : Bool) (s : State) : Host.Outcome State Fault Refusal :=
  s.does (·.runStore c 0x0A 4 hit fun r _ => (r.low, r))

/-- STG: half H ← register AUX. -/
def execStg (c : Fin 8) (hit : Bool) (s : State) : Host.Outcome State Fault Refusal :=
  s.does (·.runStore c 0x0B 2 hit fun r i => (r.get i.aux, r))

/-- ADD: A ← A + W; A-result. -/
def execAdd (c : Fin 8) (s : State) : Host.Outcome State Fault Refusal :=
  s.does (·.runValue c 0x10 fun r i w => r.add (i.wordVal w))

/-- ADDH: A ← A + half; A-result. -/
def execAddh (c : Fin 8) (s : State) : Host.Outcome State Fault Refusal :=
  s.does (·.runValue c 0x11 fun r i w => r.add (i.halfVal w))

/-- SUB: A ← A − W; A-result. -/
def execSub (c : Fin 8) (s : State) : Host.Outcome State Fault Refusal :=
  s.does (·.runValue c 0x12 fun r i w => r.sub (i.wordVal w))

/-- SUBH: A ← A − half; A-result. -/
def execSubh (c : Fin 8) (s : State) : Host.Outcome State Fault Refusal :=
  s.does (·.runValue c 0x13 fun r i w => r.sub (i.halfVal w))

/-- MPY: A ← 2 × M × h; A-result. -/
def execMpy (c : Fin 8) (s : State) : Host.Outcome State Fault Refusal :=
  s.does (·.runValue c 0x14 fun r i w => r.result (r.product (i.q15Val w)))

/-- MAC: A ← A + 2 × M × h; A-result. -/
def execMac (c : Fin 8) (s : State) : Host.Outcome State Fault Refusal :=
  s.does (·.runValue c 0x15 fun r i w => r.result (r.acc + r.product (i.q15Val w)))

/-- MSU: A ← A − 2 × M × h; A-result. -/
def execMsu (c : Fin 8) (s : State) : Host.Outcome State Fault Refusal :=
  s.does (·.runValue c 0x16 fun r i w => r.result (r.acc - r.product (i.q15Val w)))

/-- CMAC: complex multiply-accumulate (R368). -/
def execCmac (c : Fin 8) (s : State) : Host.Outcome State Fault Refusal := s.does (·.runCmac c)

/-- CMP: flags from A − W. -/
def execCmp (c : Fin 8) (s : State) : Host.Outcome State Fault Refusal :=
  s.does (·.runValue c 0x18 fun r i w => r.cmp (i.wordVal w))

/-- CMPH: flags from A − half. -/
def execCmph (c : Fin 8) (s : State) : Host.Outcome State Fault Refusal :=
  s.does (·.runValue c 0x19 fun r i w => r.cmp (i.halfVal w))

/-- AND: A[31:0] ← A[31:0] AND W. -/
def execAnd (c : Fin 8) (s : State) : Host.Outcome State Fault Refusal :=
  s.does (·.runValue c 0x1A fun r i w => r.logic (r.low &&& i.logicVal w))

/-- OR: A[31:0] ← A[31:0] OR W. -/
def execOr (c : Fin 8) (s : State) : Host.Outcome State Fault Refusal :=
  s.does (·.runValue c 0x1B fun r i w => r.logic (r.low ||| i.logicVal w))

/-- XOR: A[31:0] ← A[31:0] XOR W. -/
def execXor (c : Fin 8) (s : State) : Host.Outcome State Fault Refusal :=
  s.does (·.runValue c 0x1C fun r i w => r.logic (r.low ^^^ i.logicVal w))

/-- ABS: A ← |A|; A-result. -/
def execAbs (c : Fin 8) (s : State) : Host.Outcome State Fault Refusal :=
  s.does (·.runPlain c 0x1D fun r _ => r.result (r.acc.natAbs : Int))

/-- NEG: A ← −A; A-result. -/
def execNeg (c : Fin 8) (s : State) : Host.Outcome State Fault Refusal :=
  s.does (·.runPlain c 0x1E fun r _ => r.result (-r.acc))

/-- SAT: A clamped to the Q31 range. -/
def execSat (c : Fin 8) (s : State) : Host.Outcome State Fault Refusal := s.does (·.runPlain c 0x1F fun r _ => r.clamp)

/-- ASH: A × 2^s, s immediate; A-result. -/
def execAsh (c : Fin 8) (s : State) : Host.Outcome State Fault Refusal :=
  s.does (·.runPlain c 0x20 fun r i => r.result (r.shifted i.disp))

/-- ASHM: A × 2^s, s = M limited to −40 to +40; A-result. -/
def execAshm (c : Fin 8) (s : State) : Host.Outcome State Fault Refusal :=
  s.does (·.runPlain c 0x21 fun r _ => r.result (r.shifted (clampInt (-40) 40 r.m.toInt)))

/-- NORM (R369). -/
def execNorm (c : Fin 8) (s : State) : Host.Outcome State Fault Refusal := s.does (·.runPlain c 0x22 fun r _ => r.norm)

/-- ADDG: register AUX ← register + imm. -/
def execAddg (c : Fin 8) (s : State) : Host.Outcome State Fault Refusal := s.does (·.runPlain c 0x23 fun r i => r.addReg i)

/-- ATN: A ← phase of a complex Q15 word (R370). -/
def execAtn (c : Fin 8) (s : State) : Host.Outcome State Fault Refusal :=
  s.does (·.runValue c 0x24 fun r _ w => r.load (atn (cplx w).1 (cplx w).2))

/-- MAG: A ← magnitude of a complex Q15 word (R370). -/
def execMag (c : Fin 8) (s : State) : Host.Outcome State Fault Refusal :=
  s.does (·.runValue c 0x25 fun r _ w => r.load (mag (cplx w).1 (cplx w).2))

/-- B: conditional relative branch. -/
def execB (c : Fin 8) (s : State) : Host.Outcome State Fault Refusal := s.does (·.runBranch c 0x30)

/-- CALL: conditional call. -/
def execCall (c : Fin 8) (s : State) : Host.Outcome State Fault Refusal := s.does (·.runBranch c 0x31)

/-- RET: conditional return, or the end of the task (R355). -/
def execRet (c : Fin 8) (s : State) : Host.Outcome State Fault Refusal := s.does (·.runRet c)

/-- RPT: repeat without pre-emption (R372). -/
def execRpt (c : Fin 8) (s : State) : Host.Outcome State Fault Refusal := s.does (·.runRepeat c 0x33)

/-- RPTI: repeat, pre-emptible between iterations (R372). -/
def execRpti (c : Fin 8) (s : State) : Host.Outcome State Fault Refusal := s.does (·.runRepeat c 0x34)

/-- NOP. -/
def execNop (c : Fin 8) (s : State) : Host.Outcome State Fault Refusal := s.does (·.runPlain c 0x35 fun r _ => r)

/-- STORE_RETRY: a store that received COLLIDE is tried again (R353). -/
def execStoreRetry (c : Fin 8) (hit : Bool) (s : State) : Host.Outcome State Fault Refusal := s.does (·.storeRetry c hit)

end Sys2Proof.Machine
end

