-- ==== Sys2Proof/Machine/PkeyCmds.lean ====
section
/-! DEFINITION. The commands of the phone key and its outputs (chapter 13). -/

namespace Sys2Proof.Machine

/-- PKEY_TOKEN: a TOKEN is checked, and answered with a CHALLENGE if it passes (R597, R599). -/
def execPkeyToken (k : Fin 4) (addr : BitVec 56) (enc : Bool) (msg : List Nat) (s : State) : Host.Outcome State Fault Refusal := s.does (·.pkeyToken k.val addr.toNat enc msg)

/-- PKEY_PROOF: a PROOF is verified (R597). -/
def execPkeyProof (k : Fin 4) (sig : List Nat) (s : State) : Host.Outcome State Fault Refusal := s.does (·.pkeyProof k.val sig)

/-- PKEY_PROOF_TIMEOUT: 5 s after the CHALLENGE without a verified PROOF (R597). -/
def execPkeyProofTimeout (k : Fin 4) (s : State) : Host.Outcome State Fault Refusal := s.does (·.proofTimeout k.val)

/-- PKEY_PAIRING_REQUEST: a pairing request (R589, R590). -/
def execPkeyPairingRequest (k : Fin 4) (entry : List Nat) (s : State) : Host.Outcome State Fault Refusal := s.does (·.pairing k.val entry)

/-- PKEY_CMD_UNLOCK: a CMD UNLOCK (R606). -/
def execPkeyCmdUnlock (k : Fin 4) (s : State) : Host.Outcome State Fault Refusal := s.does (·.cmdUnlock k.val)

/-- PKEY_CMD_LOCK: a CMD LOCK (R607). -/
def execPkeyCmdLock (k : Fin 4) (s : State) : Host.Outcome State Fault Refusal := s.does (·.cmdLock k.val)

/-- CS_PROCEDURE_START: a channel-sounding procedure starts (R600). -/
def execCsProcedureStart (k : Fin 4) (s : State) : Host.Outcome State Fault Refusal := s.does (·.csStart k.val)

/-- CS_PROCEDURE_RESULT: a procedure ends: its distance, the count, and the unlock decision when the count reaches CONSEC (R600 to R606). -/
def execCsProcedureResult (k : Fin 4) (radio : Bool) (tones : List (Nat × Int)) (rtts : List Int) (s : State) : Host.Outcome State Fault Refusal := s.does (·.csDone k.val radio tones rtts)

/-- PKEY_CONNECTION_END: a connection ends (R603). -/
def execPkeyConnectionEnd (k : Fin 4) (s : State) : Host.Outcome State Fault Refusal := s.does (·.connEnd k.val)

/-- PKEY_BAR_EXPIRY: 60 s after the bar of an identity address (R613). -/
def execPkeyBarExpiry (addr : BitVec 56) (s : State) : Host.Outcome State Fault Refusal := s.does (·.barExpiry addr.toNat)

/-- ACCESS_FRAME_RECEIVED: an ACCESS frame is carried out or ignored (R610). -/
def execAccessFrameReceived (n : Fin 2) (s : State) : Host.Outcome State Fault Refusal := s.does (·.accessFrame n.val)

/-- REMOTE_CMD: a write of REMOTE_CMD (R610), with the role that the dictionary asks for. -/
def execRemoteCmd (link : Fin 10) (v : BitVec 8) (s : State) : Host.Outcome State Fault Refusal := s.does fun h => if h.fwUp ∧ 1 ≤ h.linkRole link.val then h.remote v.toNat 2 true else h

/-- BOND_DELETE: a write of BOND_DELETE (R589, R442), with the role that the dictionary asks for. -/
def execBondDelete (link : Fin 10) (v : BitVec 8) (s : State) : Host.Outcome State Fault Refusal := s.does fun h => if h.fwUp ∧ 1 ≤ h.linkRole link.val ∧ v.toNat < 8 then h.bondDelete v.toNat else h

/-- PKEY_OUT_UNLOCK: a write of PKEY_OUTCMD.UNLOCK (R611). -/
def execPkeyOutUnlock (s : State) : Host.Outcome State Fault Refusal := s.does (·.outCommand 0)

/-- PKEY_OUT_LOCK: a write of PKEY_OUTCMD.LOCK (R611). -/
def execPkeyOutLock (s : State) : Host.Outcome State Fault Refusal := s.does (·.outCommand 1)

/-- PKEY_PULSE_END: the pulse of an output ends (R611). -/
def execPkeyPulseEnd (i : Fin 2) (s : State) : Host.Outcome State Fault Refusal := s.does (·.pulseEnd i.val)

/-- PKEY_PULSE_DELAYED_START: the pulse commanded while the other output was active starts (R611). -/
def execPkeyPulseDelayedStart (s : State) : Host.Outcome State Fault Refusal := s.does (·.pulseDelayed)

/-- ADVERTISING_EVENT: an advertising event is sent (R592, R594). -/
def execAdvertisingEvent (s : State) : Host.Outcome State Fault Refusal := s.does (·.advertise)

end Sys2Proof.Machine
end

