-- ==== Sys2Proof/Machine/PortCmds.lean ====
section
/-! DEFINITION. The commands of the sample ports, the tuner and sensor SPI (chapter 2, 5.8) and the Coil capture (7.2). -/

namespace Sys2Proof.Machine

/-- PORT_START: a write of SPORT_CTRL with START bits (R67, R68, R780). -/
def execPortStart (v : BitVec 32) (s : State) : Host.Outcome State Fault Refusal := s.does (·.sportCtrl v.toNat)

/-- PORT_STOP: a write of SPORT_CTRL with STOP bits (R67, R72, R73, R780). -/
def execPortStop (v : BitVec 32) (s : State) : Host.Outcome State Fault Refusal := s.does fun h => h.sportCtrl v.toNat

/-- PORT_RUN: the first sample after the start edge (R69, R70). -/
def execPortRun (n : Fin 4) (iq : Nat × Nat) (s : State) : Host.Outcome State Fault Refusal := s.does (·.portRuns n iq)

/-- RING_BLOCK_WRITTEN: a ring block ends and its tag is written (R89). -/
def execRingBlockWritten (n : Fin 4) (xs : List (Nat × Nat)) (s : State) : Host.Outcome State Fault Refusal := s.does (·.blockWritten n xs)

/-- STOP_DECLARED: the port enters GAP (R92, R97). -/
def execStopDeclared (n : Fin 4) (xs : List (Nat × Nat)) (s : State) : Host.Outcome State Fault Refusal := s.does (·.stopDeclared n xs)

/-- DISCONTINUITY: the block being written becomes SUSPECT (R94). -/
def execDiscontinuity (n : Fin 4) (s : State) : Host.Outcome State Fault Refusal := s.does (·.discontinuity n)

/-- MONITOR_WINDOW_END: the window is judged (R95, R96, R100). -/
def execMonitorWindowEnd (xs : List (List (Nat × Nat))) (s : State) : Host.Outcome State Fault Refusal := s.does (·.windowEnd xs)

/-- PORT_RESUME: the port resumes (R101). -/
def execPortResume (n : Fin 4) (s : State) : Host.Outcome State Fault Refusal := s.does (·.portResume n)

/-- NOTCH_CONFIG_APPLY: a notch configuration takes effect (R80). -/
def execNotchConfigApply (n : Fin 4) (m : Fin 2) (s : State) : Host.Outcome State Fault Refusal := s.does (·.notchBoundary n m)

/-- NOTCH_ADAPT: the samples are taken and the notch adapts (R81). -/
def execNotchAdapt (n : Fin 4) (m : Fin 2) (xs : List (Nat × Nat)) (s : State) : Host.Outcome State Fault Refusal := s.does (·.notchSamples n m xs)

/-- NOTCH_DEPTH_UPDATE: the notch depth is reported (R82). -/
def execNotchDepthUpdate (n : Fin 4) (m : Fin 2) (s : State) : Host.Outcome State Fault Refusal := s.does (·.notchDepthUpdate n m)

/-- THRESHOLD_UPDATE: the threshold adapts (R84). -/
def execThresholdUpdate (n : Fin 4) (s : State) : Host.Outcome State Fault Refusal := s.does (·.thresholdUpdate n)

/-- SPECTRUM_PUBLISH: the spectrum is published (R105 to R108). -/
def execSpectrumPublish (n : Fin 4) (s : State) : Host.Outcome State Fault Refusal := s.does (·.publishSpectrum n)

/-- NOTCH_RELEASE: Whipping releases a notch (R109). -/
def execNotchRelease (n : Fin 4) (m : Fin 2) (s : State) : Host.Outcome State Fault Refusal := s.does (·.notchRelease n m)

/-- TSPI_CMD: a tuner transaction is queued (R111). -/
def execTspiCmd (v : BitVec 32) (s : State) : Host.Outcome State Fault Refusal := s.does (·.tspiCmd v.toNat)

/-- TSPI_TRANSACTION_DONE: a tuner transaction completes (R112). -/
def execTspiTransactionDone (rx : BitVec 24) (s : State) : Host.Outcome State Fault Refusal := s.does (·.tspiDone rx.toNat)

/-- TSPI_RX_READ: the oldest received tuner data (R112). -/
def execTspiRxRead (s : State) : Host.Outcome State Fault Refusal := s.does (·.tspiRead)

/-- GAIN_CONTROL_TICK: one step of the gain control (R114). -/
def execGainControlTick (s : State) : Host.Outcome State Fault Refusal := s.does (·.gainTick)

/-- SP_CNT_LO_READ: the sample counter (R69). -/
def execSpCntLoRead (n : Fin 4) (s : State) : Host.Outcome State Fault Refusal := s.does (·.readCount n)

/-- SSPI_CMD: a sensor transaction (R277). -/
def execSspiCmd (v : BitVec 32) (s : State) : Host.Outcome State Fault Refusal := s.does (·.sspiCmd v.toNat)

/-- SSPI_TRANSACTION_DONE: a sensor transaction completes (R277, R279). -/
def execSspiTransactionDone (rx : List (BitVec 8)) (s : State) : Host.Outcome State Fault Refusal := s.does (·.sspiDone (rx.map (·.toNat)))

/-- SSPI_DRDY_EDGE: an active edge of SSPI_DRDY (R277, R278). -/
def execSspiDrdyEdge (s : State) : Host.Outcome State Fault Refusal := s.does (·.sspiDrdy)

/-- SSPI_RX_READ: the oldest received byte (R277). -/
def execSspiRxRead (s : State) : Host.Outcome State Fault Refusal := s.does (·.sspiRead)

/-- SSPI_DRDY_READ: the oldest stamp (R278). -/
def execSspiDrdyRead (s : State) : Host.Outcome State Fault Refusal := s.does (·.sspiStamp)

/-- COIL_ARM: a write of COIL_CTRL with ARM (R331, R332). -/
def execCoilArm (v : BitVec 32) (s : State) : Host.Outcome State Fault Refusal := s.does (·.coilCtrl v.toNat)

/-- COIL_CAPTURE_START: a selected port starts its capture (R332). -/
def execCoilCaptureStart (n : Fin 4) (s : State) : Host.Outcome State Fault Refusal := s.does (·.coilStart n)

/-- COIL_RELEASE: a write of COIL_CTRL with RELEASE (R336). -/
def execCoilRelease (v : BitVec 32) (s : State) : Host.Outcome State Fault Refusal := s.does fun h => h.coilCtrl v.toNat

/-- COIL_ABORT: a write of COIL_CTRL with ABORT (R336). -/
def execCoilAbort (v : BitVec 32) (s : State) : Host.Outcome State Fault Refusal := s.does fun h => Hw.coilCtrl h v.toNat

/-- RING_WRITE_RESUME: a held ring writer goes on (R334, R336). -/
def execRingWriteResume (n : Fin 4) (s : State) : Host.Outcome State Fault Refusal := s.does (·.ringResume n)

end Sys2Proof.Machine
end

