-- ==== Sys2Proof/Machine/PowerCmds.lean ====
section
/-! DEFINITION. The commands of power, reset and boot (chapters 1 and 14). -/

namespace Sys2Proof.Machine

/-- POWER_ON_RESET: every domain is reset (R642, Table 14.10). -/
def execPowerOnReset (s : State) : Host.Outcome State Fault Refusal := s.does (·.powerOn)

/-- VIN_LOSS: VIN returns after it fell below 2.0 V, and the core and always-on domains are reset (Table 14.10): so Backup ends (Table 14.1). -/
def execVinLoss (s : State) : Host.Outcome State Fault Refusal := s.does (·.vinReset 1)

/-- BACKUP_ENTRY: the part enters Backup (R615). -/
def execBackupEntry (s : State) : Host.Outcome State Fault Refusal := s.does (·.backupEnter)

/-- BROWNOUT: a brown-out resets the core and always-on domains (Table 14.10). -/
def execBrownout (s : State) : Host.Outcome State Fault Refusal := s.does fun h => if h.pwr.state = .backup then h else h.vinReset 2

/-- RESET_PIN: RESET_N resets the core domain (R643). -/
def execResetPin (s : State) : Host.Outcome State Fault Refusal := s.does fun h => if h.pwr.state = .backup then h else h.coreReset 3

/-- REF_LOST: the reference clock is lost (R31). -/
def execRefLost (s : State) : Host.Outcome State Fault Refusal := s.does fun h => if h.clocked then h.coreReset 4 else h

/-- PLL_UNLOCK: the PLL loses lock (R32). -/
def execPllUnlock (s : State) : Host.Outcome State Fault Refusal := s.does fun h => if h.clocked then h.coreReset 5 else h

/-- WATCHDOG_TIMEOUT: the watchdog count ends (R645). -/
def execWatchdogTimeout (s : State) : Host.Outcome State Fault Refusal := s.does fun h => if h.on SYS_WDOG_EN && h.pwr.state == .run then h.coreReset 6 else h

/-- WATCHDOG_KICK: a write of SYS_WDKICK (R645). -/
def execWatchdogKick (v : BitVec 32) (s : State) : Host.Outcome State Fault Refusal := s.does (·.wdKick v.toNat)

/-- SOFTWARE_RESET: a write of SYS_RST (R646). -/
def execSoftwareReset (v : BitVec 32) (s : State) : Host.Outcome State Fault Refusal := s.does (·.sysRst v.toNat)

/-- COLD_BOOT: the boot ROM runs the cold boot (R647, R648, Table 14.11). -/
def execColdBoot (f : Machine.BootFacts) (s : State) : Host.Outcome State Fault Refusal := s.does (·.coldBoot f)

/-- BOOT_ROM_HEARTBEAT: the boot ROM sends a HEARTBEAT on CAN0 (R648). -/
def execBootRomHeartbeat (s : State) : Host.Outcome State Fault Refusal := s.does (·.bootHeartbeat)

/-- TESTEN_RELEASE: TESTEN is released in BLANK (R426). -/
def execTestenRelease (s : State) : Host.Outcome State Fault Refusal := s.does (·.testenRelease)

/-- PL_TARGET_WRITE: a write of PWR_PL (R617 to R619). -/
def execPlTargetWrite (v : BitVec 32) (s : State) : Host.Outcome State Fault Refusal := s.does (·.plTarget v.toNat)

/-- PL_CHANGE_COMPLETE: the change of level is complete (R618). -/
def execPlChangeComplete (s : State) : Host.Outcome State Fault Refusal := s.does (·.plDone)

/-- STOP_REQUEST: a write of PWR_STOP (R621, R622). -/
def execStopRequest (v : BitVec 32) (s : State) : Host.Outcome State Fault Refusal := s.does (·.stopRequest v.toNat)

/-- STOP_EXIT: an interrupt or a wake source ends Stop (R623). -/
def execStopExit (s : State) : Host.Outcome State Fault Refusal := s.does (·.stopExit)

/-- SLACK_REQUEST: a write of PWR_SLKREQ (R624 to R629, Table 14.4); it waits while accesses of the bus are outstanding (Table 14.4, step 2). -/
def execSlackRequest (v : BitVec 32) (ap : Nat) (held : List Nat) (s : State) : Host.Outcome State Fault Refusal := s.does fun h => if h.stalls ≠ [] then { h with resp := .stalled } else h.slackRequest v.toNat ap held

/-- WAKE_SOURCE_QUALIFIED: a wake source has qualified (R634, R635, Table 14.7). -/
def execWakeSourceQualified (src : Fin 17) (saveOk : Bool) (lost : List (Nat × Nat)) (facts : HotFacts) (wipeBad : Nat) (s : State) : Host.Outcome State Fault Refusal := s.does (·.wakeSource src.val saveOk lost facts wipeBad)

/-- DOMAIN_WAKE: the first access to a domain that is off (R638). -/
def execDomainWake (d : Fin 4) (s : State) : Host.Outcome State Fault Refusal := s.does (·.domainWake d.val)

/-- DOMAIN_READY: a domain on its way up is ready (R638, R640). -/
def execDomainReady (d : Fin 4) (s : State) : Host.Outcome State Fault Refusal := s.does fun h => (h.domainReady d.val).resume

end Sys2Proof.Machine
end

