-- ==== Sys2Proof/Machine/RadioCmds.lean ====
section
/-! DEFINITION. The commands of the short-range radio (chapter 12). -/

namespace Sys2Proof.Machine

/-- RADIO_CMDGO: a write of RADIO_CMDGO (R553, R559, R587). -/
def execRadioCmdgo (v : BitVec 32) (s : State) : Host.Outcome State Fault Refusal := s.does (·.radioGo v.toNat)

/-- RADIO_TX: the head TX command runs (R554 to R556, R563, R566, R570). -/
def execRadioTx (delay : Nat) (s : State) : Host.Outcome State Fault Refusal := s.does (·.radioTx delay)

/-- RADIO_RX: the head RX command opens its window (R556). -/
def execRadioRx (delay : Nat) (s : State) : Host.Outcome State Fault Refusal := s.does (·.radioRx delay)

/-- RADIO_CS: the head CS command runs its subevent (R579 to R582). -/
def execRadioCs (meas : List (Bool × List Nat)) (rssi : BitVec 8) (s : State) : Host.Outcome State Fault Refusal := s.does (·.radioCs meas rssi.toNat)

/-- RADIO_IDLE: the head IDLE command moves the radio to IDLE (R556). -/
def execRadioIdle (s : State) : Host.Outcome State Fault Refusal := s.does (·.radioMove 4)

/-- RADIO_OFF: the head OFF command moves the radio to OFF (R556). -/
def execRadioOff (s : State) : Host.Outcome State Fault Refusal := s.does (·.radioMove 5)

/-- RADIO_PACKET_RECEIVED: a packet is received into the buffer of the open window (R556, R557). -/
def execRadioPacketReceived (pdu : List Nat) (crcOk : Bool) (rssi : BitVec 8) (s : State) : Host.Outcome State Fault Refusal := s.does (·.radioPacket pdu crcOk rssi.toNat)

/-- RADIO_RX_TIMEOUT: the open window closes without a match (R556). -/
def execRadioRxTimeout (s : State) : Host.Outcome State Fault Refusal := s.does (·.radioRxTimeout)

/-- SYNTH_TIMEOUT: the synthesiser has not locked within 80 µs (R562). -/
def execSynthTimeout (s : State) : Host.Outcome State Fault Refusal := s.does (·.synthTimeout)

/-- RADIO_DONE_READ: a read of RADIO_DONE (R558). -/
def execRadioDoneRead (s : State) : Host.Outcome State Fault Refusal := s.does (·.radioDoneRead)

/-- RADIO_FLUSH: a write of RADIO_CTRL with FLUSH (R559). -/
def execRadioFlush (v : BitVec 32) (s : State) : Host.Outcome State Fault Refusal := s.does fun h => h.radioCtrl (v.toNat ||| 4)

/-- RADIO_PA_CAL: a pending PA calibration runs while the radio is idle (R564). -/
def execRadioPaCal (ts4 : Int) (s : State) : Host.Outcome State Fault Refusal := s.does (·.paCal ts4)

/-- DUTY_WINDOW_ADVANCE: the duty window advances by one bucket (R573). -/
def execDutyWindowAdvance (s : State) : Host.Outcome State Fault Refusal := s.does (·.dutyAdvance)

/-- RADIO_FUSE_BLOW: a write of RADIO_FBLOW through a session (R574). -/
def execRadioFuseBlow (link : Fin 10) (v : BitVec 32) (s : State) : Host.Outcome State Fault Refusal := s.does fun h => h.fuseBlow v.toNat (h.link link.val).role

/-- RADIO_FUSE_BLOW_DONE: the blow ends and the field is read back (R574). -/
def execRadioFuseBlowDone (took : Nat) (s : State) : Host.Outcome State Fault Refusal := s.does (·.fuseBlown took)

/-- COEX_REQUEST: the head asks for the antenna (R575). -/
def execCoexRequest (s : State) : Host.Outcome State Fault Refusal := s.does (·.coexRequest)

/-- COEX_GRANT_SAMPLE: the grant is sampled (R576). -/
def execCoexGrantSample (active : Bool) (s : State) : Host.Outcome State Fault Refusal := s.does (·.coexSample active)

/-- COEX_GRANT_LOST: the grant falls while the head transmits (R577). -/
def execCoexGrantLost (meas : List (Bool × List Nat)) (rssi : BitVec 8) (s : State) : Host.Outcome State Fault Refusal := s.does (·.coexLost meas rssi.toNat)

/-- RADIO_HOLD_EVENT: an anchor of a held connection (R586). -/
def execRadioHoldEvent (k : Fin 4) (reply : Option (Bool × Bool × Bool)) (s : State) : Host.Outcome State Fault Refusal := s.does (·.holdEvent k.val reply)

/-- HOLD_REL: a write of RADIO_CTRL with HOLD_REL (R588). -/
def execHoldRel (v : BitVec 32) (s : State) : Host.Outcome State Fault Refusal := s.does fun h => h.radioCtrl (v.toNat ||| 8)

/-- RADIO_HOLD_TIMEOUT: one second has passed since the hold began (R588). -/
def execRadioHoldTimeout (s : State) : Host.Outcome State Fault Refusal := s.does (·.holdTimeoutRadio)

end Sys2Proof.Machine
end

