-- ==== Sys2Proof/Machine/RtcCmds.lean ====
section
/-! DEFINITION. The commands of the backup domain: clock, alarm, countdown, event inputs (chapter 15). -/

namespace Sys2Proof.Machine

/-- RTC_QUEUED_WRITE_APPLY: the oldest queued write of the backup domain is applied (R651). -/
def execRtcQueuedWriteApply (pre : Fin 32768) (s : State) : Host.Outcome State Fault Refusal := s.does (·.queueEdge pre.val fun _ => true)

/-- RTC_SECOND: PRE wraps and the calendar advances (R656, R664, R665, R668). -/
def execRtcSecond (s : State) : Host.Outcome State Fault Refusal := s.does (·.rtcSecond)

/-- RTC_COMMIT: the oldest queued write, a COMMIT, is applied (R658 to R663). -/
def execRtcCommit (pre : Fin 32768) (s : State) : Host.Outcome State Fault Refusal := s.does (·.queueEdge pre.val fun w => w.1 == RTC_CMD && bit w.2.2 0)

/-- RTC_CAPTURE: the oldest queued write, a CAPTURE, is applied (R658). -/
def execRtcCapture (pre : Fin 32768) (s : State) : Host.Outcome State Fault Refusal := s.does (·.queueEdge pre.val fun w => w.1 == RTC_CMD && bit w.2.2 1)

/-- RTC_ADJ: the oldest queued write, one of RTC_ADJ, is applied (R661, R662). -/
def execRtcAdj (pre : Fin 32768) (s : State) : Host.Outcome State Fault Refusal := s.does (·.queueEdge pre.val fun w => w.1 == RTC_ADJ)

/-- ANEXT_RECOMPUTE: the next matching second is computed (R671). -/
def execAnextRecompute (s : State) : Host.Outcome State Fault Refusal := s.does (·.anextRecompute)

/-- RTC_ACTL_WRITE: the oldest queued write, one of RTC_ACTL, is applied (R668). -/
def execRtcActlWrite (pre : Fin 32768) (s : State) : Host.Outcome State Fault Refusal := s.does (·.queueEdge pre.val fun w => w.1 == RTC_ACTL)

/-- RTC_TIME0_READ: a read of RTC_TIME0 (R652). -/
def execRtcTime0Read (s : State) : Host.Outcome State Fault Refusal := s.does (·.readTime0)

/-- RTC_COUNTDOWN_EXPIRY: the countdown reaches 0 (R672, R673). -/
def execRtcCountdownExpiry (s : State) : Host.Outcome State Fault Refusal := s.does (·.countdownExpiry)

/-- RTC_CD_START: the oldest queued write, one of RTC_CDCTL with START, is applied (R673). -/
def execRtcCdStart (pre : Fin 32768) (s : State) : Host.Outcome State Fault Refusal := s.does (·.queueEdge pre.val fun w => w.1 == RTC_CDCTL && bit w.2.2 0)

/-- RTC_CD_STOP: the oldest queued write, one of RTC_CDCTL with STOP, is applied (R673). -/
def execRtcCdStop (pre : Fin 32768) (s : State) : Host.Outcome State Fault Refusal := s.does (·.queueEdge pre.val fun w => w.1 == RTC_CDCTL && bit w.2.2 1)

/-- OSC_STOP_DETECTED: the slow clock has stopped (R657, R663). -/
def execOscStopDetected (s : State) : Host.Outcome State Fault Refusal := s.does (·.oscStopped)

/-- VBKP_LOW: VBKP falls below the retention threshold while VIN is absent, which is in Backup (R657, R663). -/
def execVbkpLow (s : State) : Host.Outcome State Fault Refusal := s.does fun h => if h.pwr.state = .backup then h.oscStopped else h

/-- RTC_DISCIPLINE: Fofiys firmware disciplines the clock (R666). -/
def execRtcDiscipline (ofs : Int) (utc : Nat) (drift : Int) (s : State) : Host.Outcome State Fault Refusal := s.does (·.rtcDiscipline ofs utc drift)

/-- EVENT_INPUT_QUALIFIED: an event input qualifies an event (R674 to R677); a tamper event asks for the wipe (R429, R432). -/
def execEventInputQualified (n : Fin 4) (active : Bool) (pre : Fin 32768) (s : State) : Host.Outcome State Fault Refusal := s.does fun h =>
  (h.eventQualified n.val active pre.val).tamperWipe (h.tamperDue n.val active) n.val

/-- EV_POP: the oldest queued write, one of EVn_STAT with POP, is applied (R678). -/
def execEvPop (n : Fin 4) (pre : Fin 32768) (s : State) : Host.Outcome State Fault Refusal := s.does (·.queueEdge pre.val fun w => w.1 == EV_STAT n.val && bit w.2.2 3)

end Sys2Proof.Machine
end

