-- ==== Sys2Proof/Machine/SerialCmds.lean ====
section
/-! DEFINITION. The commands of the serial ports and the Lanyard session (chapter 11). -/

namespace Sys2Proof.Machine

/-- UART_CHAR_RECEIVED: a character is decided at its stop bit (R515 to R521). -/
def execUartCharReceived (n : Fin 7) (ticks : List Bool) (s : State) : Host.Outcome State Fault Refusal := s.does (·.uartReceived n.val ticks)

/-- UART_CHAR_SENT: the character on the wire is complete (R522, R526 to R529). -/
def execUartCharSent (n : Fin 7) (d : BitVec 9) (par : Bool) (stop : Bool) (noise : Bool) (cts : Bool) (s : State) : Host.Outcome State Fault Refusal := s.does (·.charSent n.val d.toNat par stop noise cts)

/-- UART_DATA_READ: a read of DATA (R520). -/
def execUartDataRead (n : Fin 7) (s : State) : Host.Outcome State Fault Refusal := s.does (·.uartRead n.val)

/-- UART_DATA_WRITE: a write of DATA: a character, or with bit 9 a break (R522). -/
def execUartDataWrite (n : Fin 7) (v : BitVec 32) (s : State) : Host.Outcome State Fault Refusal := s.does (·.uartWrite n.val v.toNat)

/-- UART_BREAK_WRITE: a write of DATA with BRK (R522). -/
def execUartBreakWrite (n : Fin 7) (v : BitVec 32) (s : State) : Host.Outcome State Fault Refusal := s.does fun h => h.uartWrite n.val (v.toNat ||| 512)

/-- UART_RATE_WRITE: a write of RATE or FMT (R513, R526). The Lanyard port has no FMT register (11.11). -/
def execUartRateWrite (n : Fin 7) (fmt : Bool) (v : BitVec 32) (busy : Bool) (s : State) : Host.Outcome State Fault Refusal := s.does fun h =>
  if n.val = 6 ∧ fmt then h
  else (h.sf (UART_STAT_RXBUSY n.val) (b2n (busy || (h.serial n.val).ticks != []))).uartShadow n.val (if fmt then UART_FMT n.val else UART_RATE n.val) v.toNat

/-- UART_IDLE_DETECT: four character times have passed without a start bit (R523). -/
def execUartIdleDetect (n : Fin 7) (s : State) : Host.Outcome State Fault Refusal := s.does (·.uartIdle n.val)

/-- UART_RX_FLUSH: a write of FIFO with RXFLUSH. -/
def execUartRxFlush (n : Fin 7) (v : BitVec 32) (s : State) : Host.Outcome State Fault Refusal := s.does fun h => h.uartFifo n.val (v.toNat ||| 0x400000)

/-- UART_TX_FLUSH: a write of FIFO with TXFLUSH. -/
def execUartTxFlush (n : Fin 7) (v : BitVec 32) (s : State) : Host.Outcome State Fault Refusal := s.does fun h => h.uartFifo n.val (v.toNat ||| 0x800000)

/-- UART_SLOW_CHAR: a character is received in slow reception (R531, R533, R534). -/
def execUartSlowChar (n : Fin 2) (edges : List Bool) (s : State) : Host.Outcome State Fault Refusal := s.does (·.slowChar n.val edges)

/-- SLOW_EXIT: a write of SLOW with SLOW_EXIT (R535). -/
def execSlowExit (n : Fin 2) (v : BitVec 32) (s : State) : Host.Outcome State Fault Refusal := s.does fun h => h.uartSlow n.val (v.toNat ||| 8)

/-- UART_CTS_ASSERTED: Un_CTS_N goes low (R525). -/
def execUartCtsAsserted (n : Fin 2) (s : State) : Host.Outcome State Fault Refusal := s.does (·.ctsLow n.val)

/-- UART_GUARD_ELAPSED: in half duplex the line has been high for GUARD bit times (R530). -/
def execUartGuardElapsed (n : Fin 7) (s : State) : Host.Outcome State Fault Refusal := s.does (·.guardElapsed n.val)

/-- ATTACH: a valid ATTACH opens a session (R539). The tool ID changes nothing in the device. -/
def execAttach (tool : BitVec 32) (s : State) : Host.Outcome State Fault Refusal := s.does fun h => let _ := tool; if h.fwUp && h.on LYD_CFG_EN then h.lydAttach else h

/-- KEEP: a KEEP frame (R540, R541). -/
def execKeep (sid : BitVec 8) (s : State) : Host.Outcome State Fault Refusal := s.does fun h => if h.fwUp then h.lydKeep sid.toNat else h

/-- DETACH: a DETACH frame ends the session (R540, R541). -/
def execDetach (sid : BitVec 8) (s : State) : Host.Outcome State Fault Refusal := s.does fun h => if h.fwUp then h.lydDetach sid.toNat else h

/-- LYD_RATE: a RATE frame (R542). -/
def execLydRate (sid : BitVec 8) (inc : BitVec 16) (mod : BitVec 16) (s : State) : Host.Outcome State Fault Refusal := s.does fun h => if h.fwUp then h.lydRate sid.toNat inc.toNat mod.toNat else h

/-- LYD_SESSION_TIMEOUT: 2 s without a valid frame (R540). -/
def execLydSessionTimeout (s : State) : Host.Outcome State Fault Refusal := s.does (·.lydTimeout)

/-- LYD_LINE_LOW: LYD_IO has been low for more than 10 ms (R540). -/
def execLydLineLow (s : State) : Host.Outcome State Fault Refusal := s.does (·.lydEnd)

/-- LYD_RATE_TIMEOUT: no valid frame within 1 s at the new rate (R542). -/
def execLydRateTimeout (s : State) : Host.Outcome State Fault Refusal := s.does (·.lydRateTimeout)

/-- SERVICE_ROLE_EXPIRY: the SERVICE role ends 3600 s after its grant (R543). -/
def execServiceRoleExpiry (s : State) : Host.Outcome State Fault Refusal := s.does (·.serviceExpiry)

end Sys2Proof.Machine
end

