-- ==== Sys2Proof/Machine/SnapCmds.lean ====
section
/-! DEFINITION. Commands of the hot-start store and of the snapshot cycle (chapter 7). -/

namespace Sys2Proof.Machine

/-- HS_SAVE: R326 -/
def execHsSave (live : List Nat) (s : State) : Host.Outcome State Fault Refusal := s.does (·.hsSave live)

/-- HS_SAVE_NOW: R326 -/
def execHsSaveNow (live : List Nat) (s : State) : Host.Outcome State Fault Refusal := s.does (·.hsSaveNow live)

/-- SNAPSHOT_CYCLE: R342 -/
def execSnapshotCycle (what : Machine.SnapStep) (live : List Nat) (s : State) : Host.Outcome State Fault Refusal := s.does (·.snapCycle what live)

/-- COIL_RELEASE_OBJECT: R347; FLEET rights (Table 7.6) -/
def execCoilReleaseObject (l : Fin 10) (s : State) : Host.Outcome State Fault Refusal := s.does fun h => if h.fwUp && decide (1 ≤ h.linkRole l) then h.coilReleaseObj else h

/-- COIL_STREAM_TIMEOUT: R347 -/
def execCoilStreamTimeout (s : State) : Host.Outcome State Fault Refusal := s.does (·.coilStreamTimeout)

end Sys2Proof.Machine
end

