-- ==== Sys2Proof/Machine/UnitCmds.lean ====
section
/-! DEFINITION. The commands of the kernel slots (8.10), the memory units and the Thimble bank (chapter 9). -/

namespace Sys2Proof.Machine

/-- KSLOT_CFG_WRITE: a write of LOOP_KSLOTn_RANGE or LOOP_KSLOTn_CFG (R385, R386). -/
def execKslotCfgWrite (n : Fin 16) (range : Bool) (v : BitVec 32) (s : State) : Host.Outcome State Fault Refusal := s.does fun h => if range then h.slotRangeWrite n.val v.toNat else h.slotCfgWrite n.val v.toNat

/-- KLOAD_IMAGE: a kernel image is checked and loaded (R390, R391, Table 8.14). -/
def execKloadImage (img : List Nat) (s : State) : Host.Outcome State Fault Refusal := s.does fun h => if h.sys.fwRunning then (h.kload img).2 else h

/-- KUNLOAD: a slot is unloaded (R392). -/
def execKunload (v : BitVec 8) (s : State) : Host.Outcome State Fault Refusal := s.does fun h => if h.sys.fwRunning then (h.kunload v.toNat).2 else h

/-- UNIT_RUN_OFF: RUN_OFF of MEM_SCTLu is written as 1 (R402). -/
def execUnitRunOff (u : Fin 18) (s : State) : Host.Outcome State Fault Refusal := s.does (·.unitRunOff u.val)

/-- UNIT_RUN_ON: RUN_OFF of MEM_SCTLu is written as 0 (R402). -/
def execUnitRunOn (u : Fin 18) (s : State) : Host.Outcome State Fault Refusal := s.does (·.unitRunOn u.val)

/-- UNIT_FILL_COMPLETE: the fill of a unit ends (R400, R401). -/
def execUnitFillComplete (u : Fin 18) (s : State) : Host.Outcome State Fault Refusal := s.does (·.unitFilled u.val)

/-- MARCH_TEST_START: a write of MEM_MTEST (R414). -/
def execMarchTestStart (v : BitVec 32) (s : State) : Host.Outcome State Fault Refusal := s.does (·.marchWrite v.toNat)

/-- MARCH_TEST_COMPLETE: the test on request ends (R409, R415 to R417). -/
def execMarchTestComplete (rows : List (Nat × Nat)) (bad : List (Nat × Nat)) (s : State) : Host.Outcome State Fault Refusal := s.does fun h => (h.marchDone rows bad).fwKeep.resume

/-- LIVE_REPAIR_COMPLETE: the present stage of the live repair ends (R418). -/
def execLiveRepairComplete (spareOk : Bool) (s : State) : Host.Outcome State Fault Refusal := s.does fun h => (h.repairDone spareOk).fwKeep.resume

/-- LC_REQUEST: a life-cycle transition is requested (R425 to R427). -/
def execLcRequest (link : Fin 10) (v : BitVec 32) (s : State) : Host.Outcome State Fault Refusal := s.does fun h => (h.lcRequest v.toNat (h.linkRole link.val) (link.val == 7)).2

/-- THIMBLE_WIPE_CMD: a write of MEM_THCMD with WIPE, through a session; UNLOCK in the same word needs role FLEET (R429, R435, R784). -/
def execThimbleWipeCmd (link : Fin 10) (v : BitVec 32) (s : State) : Host.Outcome State Fault Refusal := s.does fun h => if bit v.toNat 0 then (h.thimbleCmd v.toNat (decide (1 ≤ h.linkRole link.val))).fwKeep else h

/-- KEY_LOAD_CMD: a write of MEM_THCMD with LOAD, through a session; UNLOCK in the same word needs role FLEET (R435, R441, R784). -/
def execKeyLoadCmd (link : Fin 10) (v : BitVec 32) (s : State) : Host.Outcome State Fault Refusal := s.does fun h => if bit v.toNat 1 then (h.thimbleCmd v.toNat (decide (1 ≤ h.linkRole link.val))).fwKeep else h

/-- TAMPER_UNLOCK: a write of MEM_THCMD with UNLOCK, through a session of role FLEET or higher (R435, R784). -/
def execTamperUnlock (link : Fin 10) (v : BitVec 32) (s : State) : Host.Outcome State Fault Refusal := s.does fun h => if bit v.toNat 2 && decide (1 ≤ h.linkRole link.val) then (h.thimbleCmd v.toNat true).fwKeep else h

/-- WIPE_START: the wipe engine receives the request (R430). -/
def execWipeStart (s : State) : Host.Outcome State Fault Refusal := s.does (·.wipeStart)

/-- WIPE_VERIFIED: the read-back of the wipe ends; a life-cycle transition that waits for it is then made (R427, R433). -/
def execWipeVerified (ok : Bool) (s : State) : Host.Outcome State Fault Refusal := s.does fun h =>
  match h.wipeVerified ok with
  | (none, h) => h.fwKeep
  | (some t, h) => h.fwKeep.lifecycleReset t

/-- MRAM_WORD_WRITE_DONE: the MRAM word write in progress ends (R436). -/
def execMramWordWriteDone (s : State) : Host.Outcome State Fault Refusal := s.does fun h => h.mramDone.resume

end Sys2Proof.Machine
end

