-- ==== Sys2Proof/Machine/UpdateCmds.lean ====
section
/-! DEFINITION. The commands of firmware update and the Long splice (chapter 16). -/

namespace Sys2Proof.Machine

/-- UPD_BEGIN: a write of UPD_BEGIN (R684, R688). -/
def execUpdBegin (link : Fin 10) (b : BitVec 32) (ver : BitVec 32) (s : State) : Host.Outcome State Fault Refusal := s.does fun h => if h.fwUp then (h.updBegin link.val b.toNat ver.toNat).2 else h

/-- UPD_BLOCK: a write of UPD_BLOCK (R685, R686, R688). -/
def execUpdBlock (link : Fin 10) (n : BitVec 16) (crc : BitVec 32) (data : List Nat) (s : State) : Host.Outcome State Fault Refusal := s.does fun h => if h.fwUp then (h.updBlock link.val n.toNat crc.toNat data).2 else h

/-- UPD_ACTIVATE: a write of UPD_ACTIVATE (R690, R691). -/
def execUpdActivate (link : Fin 10) (s : State) : Host.Outcome State Fault Refusal := s.does fun h => if h.fwUp then (h.updActivate link.val).2 else h

/-- UPD_CANCEL: a write of UPD_CANCEL (R687), with the role that the dictionary asks for. -/
def execUpdCancel (link : Fin 10) (s : State) : Host.Outcome State Fault Refusal := s.does fun h => if h.fwUp ∧ 1 ≤ h.linkRole link.val then h.updCancel else h

/-- UPD_TRANSFER_TIMEOUT: 600 s without an accepted block (R687). -/
def execUpdTransferTimeout (s : State) : Host.Outcome State Fault Refusal := s.does (·.updTimeout)

/-- UPD_CONFIRM: a write of UPD_CONFIRM (R698), with the role that the dictionary asks for. -/
def execUpdConfirm (link : Fin 10) (s : State) : Host.Outcome State Fault Refusal := s.does fun h => if h.fwUp ∧ 1 ≤ h.linkRole link.val then h.updConfirm.2 else h

/-- UPD_CTRL_CONFIRM: a write of UPD_CTRL with CONFIRM (R698). -/
def execUpdCtrlConfirm (v : BitVec 32) (s : State) : Host.Outcome State Fault Refusal := s.does fun h => h.updCtrl (v.toNat ||| 8)

/-- LONG_SPLICE_START: a write of UPD_CTRL with GO by the navigation controller (R692, Table 16.5). -/
def execLongSpliceStart (v : BitVec 32) (s : State) : Host.Outcome State Fault Refusal := s.does fun h => h.updCtrl (v.toNat ||| 1)

/-- HANDOVER_ACCEPT: the image starts and takes over (R694 to R696). -/
def execHandoverAccept (us : Nat) (vendor : List (List Nat)) (s : State) : Host.Outcome State Fault Refusal := s.does (·.handover us vendor)

/-- TRIAL_TIMEOUT: the confirm timer expires (R699, R700). -/
def execTrialTimeout (s : State) : Host.Outcome State Fault Refusal := s.does (·.trialTimeout)

/-- UPD_OTP_SET: a write of UPD_OTP.SET by the navigation controller (R701). -/
def execUpdOtpSet (v : BitVec 32) (s : State) : Host.Outcome State Fault Refusal := s.does (·.otpSet v.toNat)

end Sys2Proof.Machine
end

