-- ==== Sys2Proof/Machine/Dispatch.lean ====
section
/-! DEFINITION. The meaning of every command: one arm per constructor, each a direct call of the command's own definition. -/

namespace Sys2Proof.Machine

/-- What a command does to the state. -/
def exec (i : Instr) (s : State) : Host.Outcome State Fault Refusal :=
  match i with
  | .powerOnReset => Sys2Proof.Machine.execPowerOnReset s
  | .vinLoss => Sys2Proof.Machine.execVinLoss s
  | .backupEntry => Sys2Proof.Machine.execBackupEntry s
  | .brownout => Sys2Proof.Machine.execBrownout s
  | .resetPin => Sys2Proof.Machine.execResetPin s
  | .refLost => Sys2Proof.Machine.execRefLost s
  | .pllUnlock => Sys2Proof.Machine.execPllUnlock s
  | .watchdogTimeout => Sys2Proof.Machine.execWatchdogTimeout s
  | .watchdogKick v => Sys2Proof.Machine.execWatchdogKick v s
  | .softwareReset v => Sys2Proof.Machine.execSoftwareReset v s
  | .coldBoot f => Sys2Proof.Machine.execColdBoot f s
  | .bootRomHeartbeat => Sys2Proof.Machine.execBootRomHeartbeat s
  | .testenRelease => Sys2Proof.Machine.execTestenRelease s
  | .tempSample ts rails => Sys2Proof.Machine.execTempSample ts rails s
  | .memoryRead m a size => Sys2Proof.Machine.execMemoryRead m a size s
  | .memoryWrite m a size v hit => Sys2Proof.Machine.execMemoryWrite m a size v hit s
  | .setAliasWrite m a size v => Sys2Proof.Machine.execSetAliasWrite m a size v s
  | .clearAliasWrite m a size v => Sys2Proof.Machine.execClearAliasWrite m a size v s
  | .registerWrite m a v => Sys2Proof.Machine.execRegisterWrite m a v s
  | .rclrCounterRead m a => Sys2Proof.Machine.execRclrCounterRead m a s
  | .plTargetWrite v => Sys2Proof.Machine.execPlTargetWrite v s
  | .plChangeComplete => Sys2Proof.Machine.execPlChangeComplete s
  | .portStart v => Sys2Proof.Machine.execPortStart v s
  | .portStop v => Sys2Proof.Machine.execPortStop v s
  | .portRun n iq => Sys2Proof.Machine.execPortRun n iq s
  | .ringBlockWritten n xs => Sys2Proof.Machine.execRingBlockWritten n xs s
  | .stopDeclared n xs => Sys2Proof.Machine.execStopDeclared n xs s
  | .discontinuity n => Sys2Proof.Machine.execDiscontinuity n s
  | .monitorWindowEnd xs => Sys2Proof.Machine.execMonitorWindowEnd xs s
  | .portResume n => Sys2Proof.Machine.execPortResume n s
  | .notchConfigApply n m => Sys2Proof.Machine.execNotchConfigApply n m s
  | .notchAdapt n m xs => Sys2Proof.Machine.execNotchAdapt n m xs s
  | .notchDepthUpdate n m => Sys2Proof.Machine.execNotchDepthUpdate n m s
  | .thresholdUpdate n => Sys2Proof.Machine.execThresholdUpdate n s
  | .spectrumPublish n => Sys2Proof.Machine.execSpectrumPublish n s
  | .notchRelease n m => Sys2Proof.Machine.execNotchRelease n m s
  | .tspiCmd v => Sys2Proof.Machine.execTspiCmd v s
  | .tspiTransactionDone rx => Sys2Proof.Machine.execTspiTransactionDone rx s
  | .tspiRxRead => Sys2Proof.Machine.execTspiRxRead s
  | .gainControlTick => Sys2Proof.Machine.execGainControlTick s
  | .spCntLoRead n => Sys2Proof.Machine.execSpCntLoRead n s
  | .strandScan => Sys2Proof.Machine.execStrandScan s
  | .fabFlush v => Sys2Proof.Machine.execFabFlush v s
  | .doorbellServed => Sys2Proof.Machine.execDoorbellServed s
  | .stagedBodyApply k => Sys2Proof.Machine.execStagedBodyApply k s
  | .strandCommitObject link k bell => Sys2Proof.Machine.execStrandCommitObject link k bell s
  | .dispatchToDeque => Sys2Proof.Machine.execDispatchToDeque s
  | .engineTake e => Sys2Proof.Machine.execEngineTake e s
  | .itemComplete e => Sys2Proof.Machine.execItemComplete e s
  | .gather c => Sys2Proof.Machine.execGather c s
  | .reaperSweep => Sys2Proof.Machine.execReaperSweep s
  | .integrationClose k => Sys2Proof.Machine.execIntegrationClose k s
  | .pullTmoExpiry k => Sys2Proof.Machine.execPullTmoExpiry k s
  | .coastMaxExpiry k => Sys2Proof.Machine.execCoastMaxExpiry k s
  | .trancheAllocate => Sys2Proof.Machine.execTrancheAllocate s
  | .trancheStart t => Sys2Proof.Machine.execTrancheStart t s
  | .searchDetectEntry k => Sys2Proof.Machine.execSearchDetectEntry k s
  | .engineTestStart v => Sys2Proof.Machine.execEngineTestStart v s
  | .engineRestMarch => Sys2Proof.Machine.execEngineRestMarch s
  | .engineTestComplete pass => Sys2Proof.Machine.execEngineTestComplete pass s
  | .loopTaskDispatch c => Sys2Proof.Machine.execLoopTaskDispatch c s
  | .preemptSave c => Sys2Proof.Machine.execPreemptSave c s
  | .sspiCmd v => Sys2Proof.Machine.execSspiCmd v s
  | .sspiTransactionDone rx => Sys2Proof.Machine.execSspiTransactionDone rx s
  | .sspiDrdyEdge => Sys2Proof.Machine.execSspiDrdyEdge s
  | .sspiRxRead => Sys2Proof.Machine.execSspiRxRead s
  | .sspiDrdyRead => Sys2Proof.Machine.execSspiDrdyRead s
  | .hitchInstantDue => Sys2Proof.Machine.execHitchInstantDue s
  | .hitchRelease => Sys2Proof.Machine.execHitchRelease s
  | .anchorWaitExpiry => Sys2Proof.Machine.execAnchorWaitExpiry s
  | .hitchCopyComplete => Sys2Proof.Machine.execHitchCopyComplete s
  | .hitchCtrlWrite v => Sys2Proof.Machine.execHitchCtrlWrite v s
  | .hitchBaseHiWrite v => Sys2Proof.Machine.execHitchBaseHiWrite v s
  | .hitchAdj v => Sys2Proof.Machine.execHitchAdj v s
  | .tcntLoRead => Sys2Proof.Machine.execTcntLoRead s
  | .tpEdgeUpdate => Sys2Proof.Machine.execTpEdgeUpdate s
  | .tpInactiveEdge => Sys2Proof.Machine.execTpInactiveEdge s
  | .tpDelayCal => Sys2Proof.Machine.execTpDelayCal s
  | .tpDisc v => Sys2Proof.Machine.execTpDisc v s
  | .tpHold => Sys2Proof.Machine.execTpHold s
  | .tpStepGo => Sys2Proof.Machine.execTpStepGo s
  | .holdTimeout => Sys2Proof.Machine.execHoldTimeout s
  | .holdoverTick => Sys2Proof.Machine.execHoldoverTick s
  | .tmarkCapture rise held => Sys2Proof.Machine.execTmarkCapture rise held s
  | .tmTLoRead => Sys2Proof.Machine.execTmTLoRead s
  | .hsSave live => Sys2Proof.Machine.execHsSave live s
  | .hsSaveNow live => Sys2Proof.Machine.execHsSaveNow live s
  | .coilArm v => Sys2Proof.Machine.execCoilArm v s
  | .coilCaptureStart n => Sys2Proof.Machine.execCoilCaptureStart n s
  | .coilRelease v => Sys2Proof.Machine.execCoilRelease v s
  | .coilAbort v => Sys2Proof.Machine.execCoilAbort v s
  | .ringWriteResume n => Sys2Proof.Machine.execRingWriteResume n s
  | .snapshotCycle what live => Sys2Proof.Machine.execSnapshotCycle what live s
  | .coilReleaseObject l => Sys2Proof.Machine.execCoilReleaseObject l s
  | .coilStreamTimeout => Sys2Proof.Machine.execCoilStreamTimeout s
  | .ld c => Sys2Proof.Machine.execLd c s
  | .ldh c => Sys2Proof.Machine.execLdh c s
  | .ldg c => Sys2Proof.Machine.execLdg c s
  | .st c hit => Sys2Proof.Machine.execSt c hit s
  | .sth c hit => Sys2Proof.Machine.execSth c hit s
  | .sta c hit => Sys2Proof.Machine.execSta c hit s
  | .stg c hit => Sys2Proof.Machine.execStg c hit s
  | .add c => Sys2Proof.Machine.execAdd c s
  | .addh c => Sys2Proof.Machine.execAddh c s
  | .sub c => Sys2Proof.Machine.execSub c s
  | .subh c => Sys2Proof.Machine.execSubh c s
  | .mpy c => Sys2Proof.Machine.execMpy c s
  | .mac c => Sys2Proof.Machine.execMac c s
  | .msu c => Sys2Proof.Machine.execMsu c s
  | .cmac c => Sys2Proof.Machine.execCmac c s
  | .cmp c => Sys2Proof.Machine.execCmp c s
  | .cmph c => Sys2Proof.Machine.execCmph c s
  | .and c => Sys2Proof.Machine.execAnd c s
  | .or c => Sys2Proof.Machine.execOr c s
  | .xor c => Sys2Proof.Machine.execXor c s
  | .abs c => Sys2Proof.Machine.execAbs c s
  | .neg c => Sys2Proof.Machine.execNeg c s
  | .sat c => Sys2Proof.Machine.execSat c s
  | .ash c => Sys2Proof.Machine.execAsh c s
  | .ashm c => Sys2Proof.Machine.execAshm c s
  | .norm c => Sys2Proof.Machine.execNorm c s
  | .addg c => Sys2Proof.Machine.execAddg c s
  | .atn c => Sys2Proof.Machine.execAtn c s
  | .mag c => Sys2Proof.Machine.execMag c s
  | .b c => Sys2Proof.Machine.execB c s
  | .call c => Sys2Proof.Machine.execCall c s
  | .ret c => Sys2Proof.Machine.execRet c s
  | .rpt c => Sys2Proof.Machine.execRpt c s
  | .rpti c => Sys2Proof.Machine.execRpti c s
  | .nop c => Sys2Proof.Machine.execNop c s
  | .storeRetry c hit => Sys2Proof.Machine.execStoreRetry c hit s
  | .kslotCfgWrite n range v => Sys2Proof.Machine.execKslotCfgWrite n range v s
  | .kloadImage img => Sys2Proof.Machine.execKloadImage img s
  | .kunload v => Sys2Proof.Machine.execKunload v s
  | .unitRunOff u => Sys2Proof.Machine.execUnitRunOff u s
  | .unitRunOn u => Sys2Proof.Machine.execUnitRunOn u s
  | .unitFillComplete u => Sys2Proof.Machine.execUnitFillComplete u s
  | .marchTestStart v => Sys2Proof.Machine.execMarchTestStart v s
  | .marchTestComplete rows bad => Sys2Proof.Machine.execMarchTestComplete rows bad s
  | .liveRepairComplete spareOk => Sys2Proof.Machine.execLiveRepairComplete spareOk s
  | .lcRequest link v => Sys2Proof.Machine.execLcRequest link v s
  | .thimbleWipeCmd link v => Sys2Proof.Machine.execThimbleWipeCmd link v s
  | .keyLoadCmd link v => Sys2Proof.Machine.execKeyLoadCmd link v s
  | .tamperUnlock link v => Sys2Proof.Machine.execTamperUnlock link v s
  | .wipeStart => Sys2Proof.Machine.execWipeStart s
  | .wipeVerified ok => Sys2Proof.Machine.execWipeVerified ok s
  | .mramWordWriteDone => Sys2Proof.Machine.execMramWordWriteDone s
  | .requestReceived l payload => Sys2Proof.Machine.execRequestReceived l payload s
  | .objectRead => Sys2Proof.Machine.execObjectRead s
  | .objectWrite => Sys2Proof.Machine.execObjectWrite s
  | .readSeg => Sys2Proof.Machine.execReadSeg s
  | .writeSeg => Sys2Proof.Machine.execWriteSeg s
  | .subscribe => Sys2Proof.Machine.execSubscribe s
  | .authStep1 => Sys2Proof.Machine.execAuthStep1 s
  | .authStep2 => Sys2Proof.Machine.execAuthStep2 s
  | .authStep3 => Sys2Proof.Machine.execAuthStep3 s
  | .abortTransfer => Sys2Proof.Machine.execAbortTransfer s
  | .segTransferTimeout l idx sub => Sys2Proof.Machine.execSegTransferTimeout l idx sub s
  | .nonceExpiry l => Sys2Proof.Machine.execNonceExpiry l s
  | .authBarExpiry l => Sys2Proof.Machine.execAuthBarExpiry l s
  | .sessionTimeout l => Sys2Proof.Machine.execSessionTimeout l s
  | .registerSampling => Sys2Proof.Machine.execRegisterSampling s
  | .notifySend slot => Sys2Proof.Machine.execNotifySend slot s
  | .wowellFrameReceived l hits => Sys2Proof.Machine.execWowellFrameReceived l hits s
  | .wowellGapTimeout l => Sys2Proof.Machine.execWowellGapTimeout l s
  | .hspiCsDeassert => Sys2Proof.Machine.execHspiCsDeassert s
  | .wread a n => Sys2Proof.Machine.execWread a n s
  | .wwrite a words hits => Sys2Proof.Machine.execWwrite a words hits s
  | .canFrameReceived n id ext fd data => Sys2Proof.Machine.execCanFrameReceived n id ext fd data s
  | .canFrameSent n ok => Sys2Proof.Machine.execCanFrameSent n ok s
  | .canBusoffRecovery n => Sys2Proof.Machine.execCanBusoffRecovery n s
  | .timeFrameQueue gtime leap => Sys2Proof.Machine.execTimeFrameQueue gtime leap s
  | .heartbeat l => Sys2Proof.Machine.execHeartbeat l s
  | .journalCompaction => Sys2Proof.Machine.execJournalCompaction s
  | .uartCharReceived n ticks => Sys2Proof.Machine.execUartCharReceived n ticks s
  | .uartCharSent n d par stop noise cts => Sys2Proof.Machine.execUartCharSent n d par stop noise cts s
  | .uartDataRead n => Sys2Proof.Machine.execUartDataRead n s
  | .uartDataWrite n v => Sys2Proof.Machine.execUartDataWrite n v s
  | .uartBreakWrite n v => Sys2Proof.Machine.execUartBreakWrite n v s
  | .uartRateWrite n fmt v busy => Sys2Proof.Machine.execUartRateWrite n fmt v busy s
  | .uartIdleDetect n => Sys2Proof.Machine.execUartIdleDetect n s
  | .uartRxFlush n v => Sys2Proof.Machine.execUartRxFlush n v s
  | .uartTxFlush n v => Sys2Proof.Machine.execUartTxFlush n v s
  | .uartSlowChar n edges => Sys2Proof.Machine.execUartSlowChar n edges s
  | .slowExit n v => Sys2Proof.Machine.execSlowExit n v s
  | .attach tool => Sys2Proof.Machine.execAttach tool s
  | .keep sid => Sys2Proof.Machine.execKeep sid s
  | .detach sid => Sys2Proof.Machine.execDetach sid s
  | .lydRate sid inc mod => Sys2Proof.Machine.execLydRate sid inc mod s
  | .lydSessionTimeout => Sys2Proof.Machine.execLydSessionTimeout s
  | .lydLineLow => Sys2Proof.Machine.execLydLineLow s
  | .lydRateTimeout => Sys2Proof.Machine.execLydRateTimeout s
  | .serviceRoleExpiry => Sys2Proof.Machine.execServiceRoleExpiry s
  | .radioCmdgo v => Sys2Proof.Machine.execRadioCmdgo v s
  | .radioTx delay => Sys2Proof.Machine.execRadioTx delay s
  | .radioRx delay => Sys2Proof.Machine.execRadioRx delay s
  | .radioCs meas rssi => Sys2Proof.Machine.execRadioCs meas rssi s
  | .radioIdle => Sys2Proof.Machine.execRadioIdle s
  | .radioOff => Sys2Proof.Machine.execRadioOff s
  | .radioPacketReceived pdu crcOk rssi => Sys2Proof.Machine.execRadioPacketReceived pdu crcOk rssi s
  | .radioRxTimeout => Sys2Proof.Machine.execRadioRxTimeout s
  | .synthTimeout => Sys2Proof.Machine.execSynthTimeout s
  | .radioDoneRead => Sys2Proof.Machine.execRadioDoneRead s
  | .radioFlush v => Sys2Proof.Machine.execRadioFlush v s
  | .radioPaCal ts4 => Sys2Proof.Machine.execRadioPaCal ts4 s
  | .dutyWindowAdvance => Sys2Proof.Machine.execDutyWindowAdvance s
  | .radioFuseBlow link v => Sys2Proof.Machine.execRadioFuseBlow link v s
  | .radioFuseBlowDone took => Sys2Proof.Machine.execRadioFuseBlowDone took s
  | .coexRequest => Sys2Proof.Machine.execCoexRequest s
  | .coexGrantSample active => Sys2Proof.Machine.execCoexGrantSample active s
  | .coexGrantLost meas rssi => Sys2Proof.Machine.execCoexGrantLost meas rssi s
  | .radioHoldEvent k reply => Sys2Proof.Machine.execRadioHoldEvent k reply s
  | .holdRel v => Sys2Proof.Machine.execHoldRel v s
  | .radioHoldTimeout => Sys2Proof.Machine.execRadioHoldTimeout s
  | .advertisingEvent => Sys2Proof.Machine.execAdvertisingEvent s
  | .pkeyToken k addr enc msg => Sys2Proof.Machine.execPkeyToken k addr enc msg s
  | .pkeyProof k sig => Sys2Proof.Machine.execPkeyProof k sig s
  | .pkeyProofTimeout k => Sys2Proof.Machine.execPkeyProofTimeout k s
  | .pkeyPairingRequest k entry => Sys2Proof.Machine.execPkeyPairingRequest k entry s
  | .pkeyCmdUnlock k => Sys2Proof.Machine.execPkeyCmdUnlock k s
  | .pkeyCmdLock k => Sys2Proof.Machine.execPkeyCmdLock k s
  | .csProcedureStart k => Sys2Proof.Machine.execCsProcedureStart k s
  | .csProcedureResult k radio tones rtts => Sys2Proof.Machine.execCsProcedureResult k radio tones rtts s
  | .pkeyConnectionEnd k => Sys2Proof.Machine.execPkeyConnectionEnd k s
  | .pkeyBarExpiry addr => Sys2Proof.Machine.execPkeyBarExpiry addr s
  | .accessFrameReceived n => Sys2Proof.Machine.execAccessFrameReceived n s
  | .remoteCmd link v => Sys2Proof.Machine.execRemoteCmd link v s
  | .bondDelete link v => Sys2Proof.Machine.execBondDelete link v s
  | .pkeyOutUnlock => Sys2Proof.Machine.execPkeyOutUnlock s
  | .pkeyOutLock => Sys2Proof.Machine.execPkeyOutLock s
  | .pkeyPulseEnd out => Sys2Proof.Machine.execPkeyPulseEnd out s
  | .pkeyPulseDelayedStart => Sys2Proof.Machine.execPkeyPulseDelayedStart s
  | .stopRequest v => Sys2Proof.Machine.execStopRequest v s
  | .stopExit => Sys2Proof.Machine.execStopExit s
  | .slackRequest v ap held => Sys2Proof.Machine.execSlackRequest v ap held s
  | .wakeSourceQualified src saveOk lost facts wipeBad => Sys2Proof.Machine.execWakeSourceQualified src saveOk lost facts wipeBad s
  | .domainWake d => Sys2Proof.Machine.execDomainWake d s
  | .domainReady d => Sys2Proof.Machine.execDomainReady d s
  | .rtcQueuedWriteApply pre => Sys2Proof.Machine.execRtcQueuedWriteApply pre s
  | .rtcSecond => Sys2Proof.Machine.execRtcSecond s
  | .rtcCommit pre => Sys2Proof.Machine.execRtcCommit pre s
  | .rtcCapture pre => Sys2Proof.Machine.execRtcCapture pre s
  | .rtcAdj pre => Sys2Proof.Machine.execRtcAdj pre s
  | .anextRecompute => Sys2Proof.Machine.execAnextRecompute s
  | .rtcActlWrite pre => Sys2Proof.Machine.execRtcActlWrite pre s
  | .rtcTime0Read => Sys2Proof.Machine.execRtcTime0Read s
  | .rtcCountdownExpiry => Sys2Proof.Machine.execRtcCountdownExpiry s
  | .rtcCdStart pre => Sys2Proof.Machine.execRtcCdStart pre s
  | .rtcCdStop pre => Sys2Proof.Machine.execRtcCdStop pre s
  | .oscStopDetected => Sys2Proof.Machine.execOscStopDetected s
  | .vbkpLow => Sys2Proof.Machine.execVbkpLow s
  | .rtcDiscipline ofs utc drift => Sys2Proof.Machine.execRtcDiscipline ofs utc drift s
  | .eventInputQualified n active pre => Sys2Proof.Machine.execEventInputQualified n active pre s
  | .evPop n pre => Sys2Proof.Machine.execEvPop n pre s
  | .updBegin link b ver => Sys2Proof.Machine.execUpdBegin link b ver s
  | .updBlock link n crc data => Sys2Proof.Machine.execUpdBlock link n crc data s
  | .updActivate link => Sys2Proof.Machine.execUpdActivate link s
  | .updCancel link => Sys2Proof.Machine.execUpdCancel link s
  | .updTransferTimeout => Sys2Proof.Machine.execUpdTransferTimeout s
  | .updConfirm link => Sys2Proof.Machine.execUpdConfirm link s
  | .updCtrlConfirm v => Sys2Proof.Machine.execUpdCtrlConfirm v s
  | .longSpliceStart v => Sys2Proof.Machine.execLongSpliceStart v s
  | .handoverAccept us vendor => Sys2Proof.Machine.execHandoverAccept us vendor s
  | .trialTimeout => Sys2Proof.Machine.execTrialTimeout s
  | .updOtpSet v => Sys2Proof.Machine.execUpdOtpSet v s
  | .mpuLock v => Sys2Proof.Machine.execMpuLock v s
  | .dmaGo c v => Sys2Proof.Machine.execDmaGo c v s
  | .dmaBeat hit => Sys2Proof.Machine.execDmaBeat hit s
  | .dmaResume c v => Sys2Proof.Machine.execDmaResume c v s
  | .dmaAbort c v => Sys2Proof.Machine.execDmaAbort c v s
  | .elogReport cls code source addr detail => Sys2Proof.Machine.execElogReport cls code source addr detail s
  | .elogEntryWrite => Sys2Proof.Machine.execElogEntryWrite s
  | .elogClear v => Sys2Proof.Machine.execElogClear v s
  | .elogSwhdr v => Sys2Proof.Machine.execElogSwhdr v s
  | .scrubRead => Sys2Proof.Machine.execScrubRead s
  | .mramScrub => Sys2Proof.Machine.execMramScrub s
  | .telemetrySecond fix util nmea => Sys2Proof.Machine.execTelemetrySecond fix util nmea s
  | .whippingFwTask late => Sys2Proof.Machine.execWhippingFwTask late s
  | .i2cCmd v => Sys2Proof.Machine.execI2cCmd v s
  | .i2cBusFreeStart => Sys2Proof.Machine.execI2cBusFreeStart s
  | .i2cByte data ack lost => Sys2Proof.Machine.execI2cByte data ack lost s
  | .i2cCommandEnd => Sys2Proof.Machine.execI2cCommandEnd s
  | .i2cTimeout stop => Sys2Proof.Machine.execI2cTimeout stop s
  | .i2cDataWrite v => Sys2Proof.Machine.execI2cDataWrite v s
  | .i2cDataRead => Sys2Proof.Machine.execI2cDataRead s
  | .hspiByteExchange b => Sys2Proof.Machine.execHspiByteExchange b s
  | .uartCtsAsserted n => Sys2Proof.Machine.execUartCtsAsserted n s
  | .uartGuardElapsed n => Sys2Proof.Machine.execUartGuardElapsed n s

end Sys2Proof.Machine
end

