-- ==== Sys2Proof/Machine/Balls.lean ====
section
/-! DEFINITION. The signal balls (18.2): what each is driven to or how it is held, from the registers and the power state (R735 to R743, Table 18.3). -/

namespace Sys2Proof.Machine

/-- The state codes of Table 18.3, with the outputs whose level a transfer in progress decides. -/
inductive Drive where
  | low
  | high
  | z
  | zUp        -- Z with a weak pull-up, or an input with one
  | zDown
  | input      -- an input without a pull
  | clock      -- the 30.72 MHz reference
  | data       -- driven with the bits of the block's transfer
  | analogue
  | off
  deriving DecidableEq, Repr

/-- The signal balls, by group of equal states. -/
inductive Ball where
  | spIn (n : Fin 4) | tspiSck | tspiMosi | tspiMiso | tspiCs (i : Fin 2) | refout | tcxoIn | xt32 | ev (n : Fin 4) | wake (n : Fin 8) | vinSense
  | resetN | testen | tp | tmark | unlockOut | lockOut | coexReq | coexPri | coexGrant | rfio
  | canTxd (n : Fin 2) | canRxd (n : Fin 2) | uTxd (n : Fin 6) | uRxd (n : Fin 6) | uRts (n : Fin 2) | uCts (n : Fin 2) | lydIo
  | hspiIn | hspiCsN | hspiMiso | hostIrq | sspiSck | sspiMosi | sspiCs | sspiIn | i2c | tckTrst | tmsTdi | tdo
  deriving DecidableEq, Repr

/-- The level of an output that is active or not, with its polarity bit (1: active high). -/
def levelOf (active activeHigh : Bool) : Drive := if active == activeHigh then .high else .low

/-- The During reset column. -/
def Hw.ballReset (h : Hw) (b : Ball) : Drive :=
  match b with
  | .spIn _ | .tspiMiso | .testen | .tmark | .coexGrant | .hspiIn | .sspiIn | .uCts _ | .tckTrst => .zDown
  | .tspiSck | .tspiMosi | .coexReq | .coexPri | .hostIrq | .sspiSck | .sspiMosi => .zDown
  | .tspiCs _ | .canTxd _ | .canRxd _ | .uTxd _ | .uRxd _ | .uRts _ | .lydIo | .hspiCsN | .sspiCs | .resetN | .tmsTdi => .zUp
  | .refout | .tp => .low
  | .tcxoIn | .xt32 => .analogue
  | .ev _ | .wake _ => .input
  | .vinSense | .rfio => .off
  | .unlockOut => if 3 ≤ h.rf WAKE_RSTCAUSE_LAST then levelOf false (h.on PKEY_OUTCFG_UNL_POL) else .z
  | .lockOut => if 3 ≤ h.rf WAKE_RSTCAUSE_LAST then levelOf false (h.on PKEY_OUTCFG_LCK_POL) else .z
  | .hspiMiso | .i2c | .tdo => .z

/-- An UNLOCK_OUT or LOCK_OUT pulse (R611, R616). -/
def Hw.outBall (h : Hw) (i : Nat) : Drive := levelOf (h.on (outAct i)) (h.on (if i = 0 then PKEY_OUTCFG_UNL_POL else PKEY_OUTCFG_LCK_POL))

/-- The Slack column. -/
def Hw.ballSlack (h : Hw) (b : Ball) : Drive :=
  match b with
  | .unlockOut => h.outBall 0
  | .lockOut => h.outBall 1
  | .canTxd _ => .high
  | .uTxd n => if (h.serial n.val).slow then .high else .zUp
  | .uRts n => if (h.serial n.val).slow && h.flowControl n.val then levelOf (h.rtsHigh n.val) true else .zUp
  | .tp => levelOf false (!h.on TP_CFG_POL)
  | .hostIrq => levelOf false (h.on HSPI_CFG_IRQ_POL)
  | .coexReq => levelOf false (h.on RADIO_COEX_REQ_POL)
  | .coexPri => levelOf false (h.on RADIO_COEX_PRI_POL)
  | .tcxoIn => .off
  | b => h.ballReset b

/-- JTAG is open (R742). -/
def Hw.jtagIsOpen (h : Hw) : Bool := jtagOpen h.fuses.lifecycle && !h.pwr.resetting && h.pwr.state != .backup

/-- Run and Stop: each ball takes the state that its block's registers give (R738); an idle SCK rests at its CPOL level (R110, R276). -/
def Hw.ballRun (h : Hw) (b : Ball) : Drive :=
  match b with
  | .spIn n => if h.portState n.val = portOff ∨ h.portCount ≤ n.val then .zDown else .input
  | .refout => if h.on SPORT_CTRL_REFOUT_EN then .clock else .low
  | .tspiSck => if h.tspi.cur.isSome then .data else levelOf (h.on TSPI_CFG_CPOL) true
  | .tspiMosi => if h.tspi.cur.isSome then .data else .low
  | .tspiCs _ => if h.tspi.cur.isSome then .data else .high
  | .vinSense => .analogue
  | .tp => levelOf (h.tp.active && h.tpOut) (!h.on TP_CFG_POL)
  | .unlockOut => h.outBall 0
  | .lockOut => h.outBall 1
  | .coexReq => levelOf h.radio.req (h.on RADIO_COEX_REQ_POL)
  | .coexPri => levelOf h.radio.pri (h.on RADIO_COEX_PRI_POL)
  | .canTxd n => if h.on (CAN_CFG_EN n.val) && !h.on (CAN_CFG_SILENT n.val) && !h.on (CAN_CFG_LOOP n.val) then .data else .high
  | .uTxd n =>
    if !h.on (UART_CFG_EN n.val) then .zUp
    else if (h.serial n.val).cur.isSome then .data
    else if h.halfDuplex n.val then .zUp
    else levelOf true (!h.on (UART_CFG_INV n.val))
  | .uRts n => if h.flowControl n.val then levelOf (h.rtsHigh n.val) true else .zUp
  | .lydIo => if (h.serial 6).cur.isSome then .data else if h.on LYD_CFG_PULLUP then .zUp else .z
  | .hspiMiso => if h.fw.hspiCs then .data else .z
  | .hostIrq => levelOf (h.fw.hspiOut != []) (h.on HSPI_CFG_IRQ_POL)
  | .sspiSck => if h.sspi.cur.isSome then .data else levelOf (h.on SSPI_CFG_CPOL) true
  | .sspiMosi => if h.sspi.cur.isSome then .data else .low
  | .sspiCs => if h.sspi.cur.isSome then .data else .high
  | .i2c => if h.on I2C_STAT_BUSY || h.on I2C_STAT_HELD then .data else .z
  | .tdo => if h.jtagIsOpen then .data else .z
  | b => h.ballReset b

/-- Balls of the sample-memory and radio domains, with their domain (R738). -/
def ballDomain : Ball → Option Nat
  | .refout | .tspiSck | .tspiMosi | .tspiMiso | .tspiCs _ => some 2
  | .coexReq | .coexPri => some 3
  | _ => none

/-- In Backup every ball but those of VBKP is Z without a pull (R737), REFOUT among them (assumption log 98). -/
def ballBackup : Ball → Drive
  | .xt32 => .analogue
  | .ev _ | .wake _ => .input
  | _ => .z

/-- The state of a ball. -/
def Hw.ball (h : Hw) (b : Ball) : Drive :=
  if h.pwr.state = .backup then ballBackup b
  else if h.pwr.resetting ∨ h.fuses.lifecycle = 5 then h.ballReset b
  else if h.pwr.state = .slack then h.ballSlack b
  else match ballDomain b with
    | some d => if h.domState d = 2 then h.ballRun b else h.ballSlack b
    | none =>
      if (b = .canTxd 0 ∨ b = .uTxd 0 ∨ b = .lydIo) ∧ !h.sys.fwRunning then .data
      else h.ballRun b

end Sys2Proof.Machine
end

