-- ==== Sys2Proof/Machine/Tick.lean ====
section
/-! DEFINITION. What one timing clock does by itself, whatever is commanded: TCNT counts, and a port without real edges counts synthetically (R97, R306). -/

namespace Sys2Proof.Machine

/-- Port n counts without real sampling edges (R73, R97). -/
def Hw.synthetic (h : Hw) (n : Nat) : Bool := h.counting n && h.portState n != portRun

/-- One reference cycle of a synthetic count: RATE_KHZ counts per 30 720 cycles, through the fractional accumulator (R97). -/
def Hw.synStep (h : Hw) (n : Nat) : Hw :=
  if h.synthetic n then
    let p := h.port n
    let a := p.acc + h.rate n
    h.setPort n { p with acc := a % 30720, cnt := p.cnt + a / 30720 }
  else h

/-- One timing clock, in Run and Stop (R306); a reference cycle is 16 of them. -/
def Hw.tick (h : Hw) : Hw :=
  if !h.clocked then h
  else
    let h := { h with tcnt := (h.tcnt + 1) % pow2 64 }
    if h.tcnt % 16 = 0 then forEach (fun n h => h.synStep n) (upTo 4) h else h

end Sys2Proof.Machine
end

