-- ==== Sys2Proof/Safety.lean ====
section
/-! DEFINITION. What claims about runs are written with: the canonical form of the tables, the blocks of the part and what it means that a change
touches only some of them, the invariant that every step keeps, and the shapes of effect that several commands share. -/

namespace Sys2Proof.Machine

/-! ### Canonical form -/

/-- Memory is in its canonical form: addresses strictly rising, and no byte listed that equals what an unlisted address reads as. -/
def Memory.wf (m : List Host.Cell) : Bool := Store.wf blankByte m

/-- The registers are in the same form over the Reset column. -/
def Registers.wf (r : List (Nat × BitVec 32)) : Bool := Store.wf resetOf r

/-! ### Blocks, and the changes that touch only some of them -/

/-- The components of the part: one for each field of `Hw`. -/
inductive Block where
  | regs | mem | ecc | free | resp | stalls | late | fuses | kept | pwr | sys | elogQ
  | memu | dmaTry | ports | tspi | sspi | strands | fab | loop | tcnt | coil | hot | sched
  | hitch | tp | fw | win | serials | lyd | cans | radio | pkey | rtc | upd | i2c
  | bgnd | fix
  deriving DecidableEq, Repr

/-- The two parts agree on the component `b`. -/
def Hw.same (h h' : Hw) : Block → Prop
  | .regs => h'.regs = h.regs
  | .mem => h'.mem = h.mem
  | .ecc => h'.ecc = h.ecc
  | .free => h'.free = h.free
  | .resp => h'.resp = h.resp
  | .stalls => h'.stalls = h.stalls
  | .late => h'.late = h.late
  | .fuses => h'.fuses = h.fuses
  | .kept => h'.kept = h.kept
  | .pwr => h'.pwr = h.pwr
  | .sys => h'.sys = h.sys
  | .elogQ => h'.elogQ = h.elogQ
  | .memu => h'.memu = h.memu
  | .dmaTry => h'.dmaTry = h.dmaTry
  | .ports => h'.ports = h.ports
  | .tspi => h'.tspi = h.tspi
  | .sspi => h'.sspi = h.sspi
  | .strands => h'.strands = h.strands
  | .fab => h'.fab = h.fab
  | .loop => h'.loop = h.loop
  | .tcnt => h'.tcnt = h.tcnt
  | .coil => h'.coil = h.coil
  | .hot => h'.hot = h.hot
  | .sched => h'.sched = h.sched
  | .hitch => h'.hitch = h.hitch
  | .tp => h'.tp = h.tp
  | .fw => h'.fw = h.fw
  | .win => h'.win = h.win
  | .serials => h'.serials = h.serials
  | .lyd => h'.lyd = h.lyd
  | .cans => h'.cans = h.cans
  | .radio => h'.radio = h.radio
  | .pkey => h'.pkey = h.pkey
  | .rtc => h'.rtc = h.rtc
  | .upd => h'.upd = h.upd
  | .i2c => h'.i2c = h.i2c
  | .bgnd => h'.bgnd = h.bgnd
  | .fix => h'.fix = h.fix

/-- From `h` to `h'` nothing has changed outside the components listed in `l`. -/
def Touches (l : List Block) (h h' : Hw) : Prop := ∀ b, l.contains b = false → h.same h' b

/-- Every component. -/
def Block.all : List Block :=
  [.regs, .mem, .ecc, .free, .resp, .stalls, .late, .fuses, .kept, .pwr, .sys, .elogQ] ++
  [.memu, .dmaTry, .ports, .tspi, .sspi, .strands, .fab, .loop, .tcnt, .coil, .hot, .sched] ++
  [.hitch, .tp, .fw, .win, .serials, .lyd, .cans, .radio, .pkey, .rtc, .upd, .i2c] ++
  [.bgnd, .fix]

/-- Every component that is not listed in `k`. -/
def Block.except (k : List Block) : List Block := Block.all.filter fun b => !k.contains b

/-- Every component of `k` is listed in `l`. -/
def Block.within (k l : List Block) : Bool := k.all l.contains

/-! ### Results of commands -/

/-- Bit `k` of the register at `a` after the fields of `fs` have taken the values beside them; of two fields that overlap the first counts, and
a bit in no field is as in `old`. -/
def fieldBit (old : BitVec 32) (a k : Nat) : List (Fld × Nat) → Bool
  | [] => old.getLsbD k
  | (f, v) :: fs => if f.addr = a ∧ f.lo ≤ k ∧ k < f.lo + f.len then bit v (k - f.lo) else fieldBit old a k fs

/-- The register at `a` as one field. -/
def wholeReg (a : Nat) : Fld := ⟨a, 0, 32⟩

/-- From `h` to `h'` the fields of `fs` take the values beside them and no other bit of any register changes; of the other components only those
in `l` change, and where memory is not among them every byte reads as before. -/
structure Changes (fs : List (Fld × Nat)) (l : List Block) (h h' : Hw) : Prop where
  regs : ∀ a k, k < 32 → (h'.reg a).getLsbD k = fieldBit (h.reg a) a k fs
  rest : Touches (.regs :: l) h h'
  bytes : l.contains .mem = false → ∀ a, h'.byte a = h.byte a

/-- The `n` bytes from `a` are `v`, lowest first (little-endian, R42). -/
def Hw.holds (h : Hw) (a n v : Nat) : Prop := v < 256 ^ n ∧ ∀ i, i < n → v / 256 ^ i % 256 = (h.byte (a + i)).toNat

/-- `a` lies in one of the SRAM regions of Table 1.6, the save memory apart. -/
def inSram (a : Nat) : Bool :=
  within 0x10000000 0x100FFFFF a || within 0x11000000 0x11037FFF a || within 0x12000000 0x1203FFFF a || within 0x12800000 0x1280FFFF a ||
    within 0x20000000 0x201FFFFF a || within 0x30000000 0x30007FFF a

/-- The command completes: `exec` answers a next state, whose queue is the one it was given, and of whose part `P` holds. -/
def Completes (c : Instr) (s : State) (P : Hw → Prop) : Prop := ∃ h, exec c s = .next { s with hw := h } ∧ P h

/-! ### Resets (R642) -/

/-- The core domain has been reset with cause `c` (Table 14.10): the reset is in progress, `c` is recorded, every register outside the always-on
and backup domains holds its Reset column, and memory, fuses and the backup domain are as they were. -/
structure CoreResetBy (c : Nat) (h h' : Hw) : Prop where
  begun : h'.pwr.resetting = true ∧ h'.pwr.state = .run
  last : h'.rf WAKE_RSTCAUSE_LAST = c
  causes : ∀ k, k < 10 → bit (h'.rf WAKE_RSTCAUSE_CAUSES) k = (k == c || bit (h.rf WAKE_RSTCAUSE_CAUSES) k)
  core : ∀ a, alwaysOnReg a = false → backupReg a = false → h'.reg a = resetOf a
  alwaysOn : ∀ a, alwaysOnReg a = true → a ≠ PKEY_OUTSTAT → h'.reg a = h.reg a
  backup : ∀ a, backupReg a = true → a ≠ WAKE_RSTCAUSE → h'.reg a = h.reg a
  bytes : ∀ a, h'.byte a = h.byte a
  clock : h'.rtc = { h.rtc with latch := none }
  rest : Touches (Block.except [.mem, .ecc, .free, .resp, .fuses, .kept]) h h'

/-- The core and always-on domains have been reset with cause `c` (Table 14.10); MRAM, fuses and the backup domain are as they were. -/
structure SupplyResetBy (c : Nat) (h h' : Hw) : Prop where
  begun : h'.pwr.resetting = true ∧ h'.pwr.state = .run
  last : h'.rf WAKE_RSTCAUSE_LAST = c
  causes : ∀ k, k < 10 → bit (h'.rf WAKE_RSTCAUSE_CAUSES) k = (k == c || bit (h.rf WAKE_RSTCAUSE_CAUSES) k)
  core : ∀ a, backupReg a = false → h'.reg a = resetOf a
  backup : ∀ a, backupReg a = true → a ≠ WAKE_RSTCAUSE → h'.reg a = h.reg a
  records : h'.pwr.engRet = 0 ∧ h'.pwr.coreRet = 0
  mram : ∀ a, isMram a = true → h'.byte a = h.byte a
  clock : h'.rtc = { h.rtc with latch := none, wq := [] }
  rest : Touches (Block.except [.free, .resp, .fuses, .kept]) h h'

/-! ### The invariant -/

/-- What holds of the part after every step: the tables are in canonical form, TCNT is a 64-bit count (R306), and no queue or FIFO holds more than
the specification gives it: the error log's input queue 8 (R719), the tuner SPI's commands 16 and its receive FIFO 8 (R112), the sensor SPI's
receive FIFO 64 and its stamps 16 (R279), the radio's commands 4 (R553) and its done FIFO 8 (R558), the I2C FIFOs 8 (R753), the TMARK FIFO 8
(R321), and the receive and transmit FIFOs of every serial port 32 (R521). -/
structure Hw.Ok (h : Hw) : Prop where
  regs : Registers.wf h.regs = true
  mem : Memory.wf h.mem = true
  ecc : Store.wf (fun _ => 0) h.ecc = true
  tcnt : h.tcnt < 2 ^ 64
  elog : h.elogQ.length ≤ 8
  tspiQ : h.tspi.queue.length ≤ 16
  tspiRx : h.tspi.rx.length ≤ 8
  sspiRx : h.sspi.rx.length ≤ 64
  stamps : h.sspi.stamps.length ≤ 16
  radioQ : h.radio.queue.length ≤ 4
  radioDone : h.radio.done.length ≤ 8
  i2cTx : h.i2c.tx.length ≤ 8
  i2cRx : h.i2c.rx.length ≤ 8
  marks : h.tp.marks.length ≤ 8
  serialRx : ∀ n, (h.serial n).rx.length ≤ 32
  serialTx : ∀ n, (h.serial n).tx.length ≤ 32
  serialWake : ∀ n, (h.serial n).wakeBuf.length ≤ 4

end Sys2Proof.Machine
end

