-- ==== Sys2Proof/Certificates/Slice0/Obligations.lean ====
section
/-! DEFINITION. The statements about the model: each `Obligations.<Name>` is a proposition that the provers are asked for. -/

open Sys2Proof Sys2Proof.Machine

/-- A step takes the command at the front of the queue and runs it with the rest of the queue. -/
def Obligations.StepRunsTheFront : Prop :=
  ∀ (h : Hw) (c : Instr) (rest : List Instr), step ⟨h, c :: rest⟩ = exec c ⟨h, rest⟩

/-- On an empty queue one timing clock passes (R306; that a step on an empty queue is a timing clock is assumption log 1). -/
def Obligations.EmptyQueueTicks : Prop :=
  ∀ h : Hw, ∃ h', step ⟨h, []⟩ = .next ⟨h', []⟩ ∧ Touches [.ports, .tcnt] h h' ∧
    (h.pwr.state = .slack ∨ h.pwr.state = .backup → h' = h) ∧
    (h.pwr.state = .run ∨ h.pwr.state = .stop → h'.tcnt = (h.tcnt + 1) % 2 ^ 64)

/-- A queue of k commands is used up by k steps, and what waits behind it neither changes nor is changed. -/
def Obligations.QueueIsFifo : Prop :=
  ∀ (cs ds : List Instr) (h : Hw), ∃ h', core.run cs.length ⟨h, cs⟩ = .next ⟨h', []⟩ ∧
    core.run cs.length ⟨h, cs ++ ds⟩ = .next ⟨h', ds⟩

/-- Every step keeps the invariant of the part. -/
def Obligations.StepKeepsInvariant : Prop := ∀ s t : State, s.hw.Ok → step s = .next t → t.hw.Ok

/-- The state after reset meets the invariant. -/
def Obligations.ResetMeetsInvariant : Prop := State.reset.hw.Ok

/-- The causes that reset the core domain alone (Table 14.10, R31, R32, R426, R645). -/
def Obligations.CoreResetCauses : Prop :=
  (∀ s : State, s.hw.pwr.state ≠ .backup → Completes .resetPin s (CoreResetBy 3 s.hw)) ∧
  (∀ s : State, s.hw.pwr.state = .run ∨ s.hw.pwr.state = .stop →
    Completes .refLost s (CoreResetBy 4 s.hw) ∧ Completes .pllUnlock s (CoreResetBy 5 s.hw)) ∧
  (∀ s : State, s.hw.pwr.state = .run → s.hw.on SYS_WDOG_EN = true → Completes .watchdogTimeout s (CoreResetBy 6 s.hw)) ∧
  (∀ s : State, s.hw.fuses.lifecycle = 0 → Completes .testenRelease s fun h =>
    h.fuses = { s.hw.fuses with lifecycle := 1 } ∧ CoreResetBy 7 { s.hw with fuses := { s.hw.fuses with lifecycle := 1 } } h)

/-- A write of SYS_RST (R646). -/
def Obligations.SoftwareReset : Prop :=
  (∀ (s : State) (v : BitVec 32), bits v.toNat 16 16 = 0x5253 → bit v.toNat 0 = true → Completes (.softwareReset v) s (CoreResetBy 8 s.hw)) ∧
  (∀ (s : State) (v : BitVec 32), bits v.toNat 16 16 ≠ 0x5253 → Completes (.softwareReset v) s (· = s.hw))

/-- The watchdog's kick and its enable (R645). -/
def Obligations.Watchdog : Prop :=
  (∀ s : State, s.hw.on SYS_WDOG_EN = true → Completes (.watchdogKick 0x4B49434B) s fun h =>
    h.sys.wdLimit = max 10 (min 60000 (s.hw.rf SYS_WDOG_TIMEOUT)) ∧ Changes [] [.sys] s.hw h ∧ h.sys = { s.hw.sys with wdLimit := h.sys.wdLimit }) ∧
  (∀ s : State, s.hw.on SYS_WDOG_EN = false → Completes (.watchdogKick 0x4B49434B) s (· = s.hw)) ∧
  (∀ (s : State) (v : BitVec 32), v ≠ 0x4B49434B → Completes (.watchdogKick v) s (CoreResetBy 6 s.hw)) ∧
  (∀ (h : Hw) (v : Nat), h.on SYS_WDOG_EN = true → (h.wdWrite v).on SYS_WDOG_EN = true) ∧
  (∀ (h : Hw) (v : Nat), h.on SYS_WDOG_EN = false → (h.writeFields SYS_WDOG v).on SYS_WDOG_EN = true →
    (h.wdWrite v).sys.wdLimit = max 10 (min 60000 ((h.writeFields SYS_WDOG v).rf SYS_WDOG_TIMEOUT)))

/-- The losses of supply (Table 14.10, R615, R616). -/
def Obligations.SupplyLosses : Prop :=
  (∀ s : State, Completes .vinLoss s (SupplyResetBy 1 s.hw)) ∧
  (∀ s : State, s.hw.pwr.state ≠ .backup → Completes .brownout s (SupplyResetBy 2 s.hw)) ∧
  (∀ s : State, Completes .powerOnReset s fun h =>
    h.pwr.resetting = true ∧ h.pwr.state = .run ∧ h.rf WAKE_RSTCAUSE_LAST = 0 ∧ (∀ a, a ≠ WAKE_RSTCAUSE → h.reg a = resetOf a) ∧
    h.rtc = Rtc.reset ∧ (∀ a, within 0x32000000 0x3200007F a = true → h.byte a = blankByte a) ∧
    (∀ a, isMram a = true → h.byte a = s.hw.byte a) ∧ Touches (Block.except [.free, .resp, .fuses, .kept]) s.hw h) ∧
  (∀ s : State, Completes .backupEntry s fun h =>
    h.pwr.state = .backup ∧ (∀ a, h.reg a = if backupReg a then s.hw.reg a else resetOf a) ∧
    (∀ a, isMram a = true → h.byte a = s.hw.byte a) ∧ h.rtc = { s.hw.rtc with wq := [] } ∧ Touches (Block.except [.free, .resp, .fuses, .kept]) s.hw h)

/-- Performance levels (R617 to R619). -/
def Obligations.PerformanceLevels : Prop :=
  (∀ (s : State) (v : BitVec 32), bit v.toNat 5 = false → s.hw.fuses.part ≠ .ak512 → s.hw.on PWR_PL_BUSY = false →
    s.hw.rf PWR_PL_CURRENT < bits v.toNat 0 2 →
    Completes (.plTargetWrite v) s (Changes [(PWR_PL_BUSY, 1), (PWR_PL_TARGET, bits v.toNat 0 2)] [] s.hw)) ∧
  (∀ (s : State) (v : BitVec 32), bit v.toNat 5 = false → s.hw.fuses.part ≠ .ak512 → s.hw.on PWR_PL_BUSY = false →
    bits v.toNat 0 2 < s.hw.rf PWR_PL_CURRENT → s.hw.trackLoad ≤ 4 * s.hw.fabCapacity (bits v.toNat 0 2) →
    Completes (.plTargetWrite v) s
      (Changes [(PWR_PL_CURRENT, bits v.toNat 0 2), (PWR_PL_BUSY, 1), (PWR_PL_TARGET, bits v.toNat 0 2)] [] s.hw)) ∧
  (∀ (s : State) (v : BitVec 32), bit v.toNat 5 = false →
    (s.hw.fuses.part = .ak512 ∧ bits v.toNat 0 2 ≠ 3) ∨ s.hw.on PWR_PL_BUSY = true ∨
      (bits v.toNat 0 2 < s.hw.rf PWR_PL_CURRENT ∧ 4 * s.hw.fabCapacity (bits v.toNat 0 2) < s.hw.trackLoad) →
    Completes (.plTargetWrite v) s (Changes [(PWR_PL_REFUSED, 1)] [] s.hw)) ∧
  (∀ s : State, s.hw.on PWR_PL_BUSY = true →
    Completes .plChangeComplete s (Changes [(PWR_PL_BUSY, 0), (PWR_PL_CURRENT, s.hw.rf PWR_PL_TARGET)] [] s.hw))

/-- Stop (R621, R623). -/
def Obligations.StopEntryAndExit : Prop :=
  (∀ (s : State) (v : BitVec 32), s.hw.pwr.state = .run → bit v.toNat 0 = true → bit v.toNat 1 = false →
    s.hw.slackCond 1 = false → s.hw.slackCond 2 = false →
    (s.hw.irqRaised = false → Completes (.stopRequest v) s (· = { s.hw with pwr := { s.hw.pwr with state := .stop } })) ∧
    (s.hw.irqRaised = true → Completes (.stopRequest v) s (· = s.hw))) ∧
  (∀ (s : State) (v : BitVec 32), s.hw.pwr.state = .run → bit v.toNat 0 = true → bit v.toNat 1 = false →
    s.hw.slackCond 1 = true ∨ s.hw.slackCond 2 = true →
    Completes (.stopRequest v) s (Changes [(PWR_STOP_ID, if s.hw.slackCond 1 then 1 else 2), (PWR_STOP_REFUSED, 1)] [] s.hw)) ∧
  (∀ s : State, s.hw.pwr.state = .stop → s.hw.irqRaised = true ∨ s.hw.rf WAKE_FLAG_SRC &&& s.hw.rf WAKE_EN_SRC ≠ 0 →
    Completes .stopExit s (· = { s.hw with pwr := { s.hw.pwr with state := .run } }))

/-- Slack entry, refused or made (R624 to R631). -/
def Obligations.SlackRequests : Prop :=
  (∀ (s : State) (v : BitVec 32) (ap id : Nat) (held : List Nat), s.hw.pwr.state = .run → bit v.toNat 0 = true → s.hw.stalls = [] → 1 ≤ id → id ≤ 10 →
    s.hw.plDone.slackCond id = true → (∀ j, j < id → s.hw.plDone.slackCond j = false) →
    Completes (.slackRequest v ap held) s fun h => ∃ m, (∀ k, k < 10 → bit m k = s.hw.plDone.slackCond (k + 1)) ∧
      Changes [(PWR_SLKLAST_MASK, m), (PWR_SLKLAST_ID, id), (PWR_SLKLAST_AP, 1), (PWR_SLKLAST_OUTCOME, 1),
        (PWR_SLKSUM_REFUSED, satTo 65535 (s.hw.plDone.rf PWR_SLKSUM_REFUSED + 1)),
        (slackTally id, satTo 65535 (s.hw.plDone.rf (slackTally id) + 1))] [] s.hw.plDone h) ∧
  (∀ (s : State) (v : BitVec 32) (ap : Nat), s.hw.pwr.state = .run → bit v.toNat 0 = true → s.hw.stalls = [] → s.hw.plDone.slackConds = [] →
    Completes (.slackRequest v ap []) s fun h => h.pwr.state = .slack ∧ h.tcnt = 0 ∧ h.fw = s.hw.fw ∧ h.upd = s.hw.upd ∧ h.elogQ = s.hw.elogQ ∧
      h.fix = s.hw.fix ∧ h.loop = Hw.reset.loop ∧ h.strands = [] ∧ h.ports = [] ∧ h.coil = Hw.reset.coil ∧
      Touches (Block.except [.fuses, .kept, .elogQ, .fw, .lyd, .upd, .fix]) s.hw h) ∧
  (∀ (s : State) (v : BitVec 32) (ap : Nat) (held : List Nat), s.hw.stalls ≠ [] →
    Completes (.slackRequest v ap held) s (· = { s.hw with resp := .stalled }))

/-- Wake sources and the wake from Slack (R632, R634, R637, R329). -/
def Obligations.WakeSources : Prop :=
  (∀ (s : State) (src : Fin 17) (ok : Bool) (lost : List (Nat × Nat)) (facts : HotFacts) (bad : Nat), s.hw.pwr.state ≠ .backup →
    let flagged := (WAKE_FLAG_SRC, s.hw.rf WAKE_FLAG_SRC ||| 2 ^ src.val)
    let enabled := bit (s.hw.rf WAKE_EN_SRC) src.val
    (enabled = false ∨ s.hw.pwr.state = .run → Completes (.wakeSourceQualified src ok lost facts bad) s (Changes [flagged] [] s.hw)) ∧
    (enabled = true → s.hw.pwr.state = .stop → Completes (.wakeSourceQualified src ok lost facts bad) s fun h =>
      h.pwr = { s.hw.pwr with state := .run } ∧ Changes [flagged] [.pwr] s.hw h)) ∧
  (∀ (s : State) (src : Fin 17) (lost : List (Nat × Nat)) (facts : HotFacts) (bad : Nat), s.hw.pwr.state = .slack →
    bit (s.hw.rf WAKE_EN_SRC) src.val = true →
    Completes (.wakeSourceQualified src false lost facts bad) s fun h => ∃ g,
      Changes [(WAKE_FIRST_VALID, 1), (WAKE_FIRST_SRC, src.val), (WAKE_FLAG_SRC, s.hw.rf WAKE_FLAG_SRC ||| 2 ^ src.val)] [] s.hw g ∧ CoreResetBy 9 g h) ∧
  (∀ (s : State) (src : Fin 17) (lost : List (Nat × Nat)) (facts : HotFacts) (bad : Nat), s.hw.pwr.state = .slack →
    bit (s.hw.rf WAKE_EN_SRC) src.val = true →
    Completes (.wakeSourceQualified src true lost facts bad) s fun h => h.pwr.state = .run ∧ h.tcnt = 0 ∧ h.rf SYS_BOOT_WAKE = 1 ∧
      h.fw.links = [] ∧ h.fw.requests = [] ∧ (∀ x ∈ h.fw.subs, 8 ≤ x.link) ∧ h.hot.class_ ≤ 2 ∧ (h.hot.hot = false → h.hot.class_ ≤ 1) ∧
      Touches (Block.except [.free, .resp, .fuses]) s.hw h)

/-- The domains woken on demand (R638 to R641). -/
def Obligations.DomainWakes : Prop :=
  (∀ (s : State) (d : Fin 4), s.hw.pwr.state = .run → s.hw.domState d.val = 0 → Completes (.domainWake d) s fun h =>
    h.resp = .stalled ∧ h.domState d.val = 1 ∧
    (∀ k, k < 4 → k ≠ d.val → h.domState k = if d.val = 0 ∧ k = 1 ∧ s.hw.domState 1 = 0 then 1 else s.hw.domState k) ∧
    h.rf PWR_DOM_STALLS = satTo 65535 (s.hw.rf PWR_DOM_STALLS + 1) ∧ (∀ a, a ≠ PWR_DOM → h.reg a = s.hw.reg a) ∧
    (∀ a, h.byte a = s.hw.byte a) ∧ Touches [.regs, .resp] s.hw h) ∧
  (∀ s : State, s.hw.domState 3 = 1 → Completes (.domainReady 3) s fun h => ∃ g, h = g.resume ∧
    g.domState 3 = 2 ∧ (∀ k, k < 3 → g.domState k = s.hw.domState k) ∧ (∀ a, a ≠ PWR_DOM → domainOf a ≠ some 3 → g.reg a = s.hw.reg a) ∧
    Touches [.regs] s.hw g) ∧
  (∀ (s : State) (d : Fin 4), s.hw.domState d.val ≠ 1 → Completes (.domainReady d) s (· = s.hw.resume))

/-- The cold boot and the heartbeat of the boot ROM (R428, R647, R648, Table 10.7). -/
def Obligations.ColdBoot : Prop :=
  (∀ (s : State) (f : BootFacts), s.hw.pwr.resetting = true → s.hw.pwr.state ≠ .backup → Completes (.coldBoot f) s fun h =>
    (s.hw.inert = true → h.rf SYS_BOOT_ERR = 3) ∧
    (s.hw.inert = false → h.sys.fwRunning = true ∨ h.rf SYS_BOOT_ERR = 1 ∨ h.rf SYS_BOOT_ERR = 2) ∧
    h.pwr.resetting = false ∧
    Touches [.regs, .mem, .ecc, .kept, .pwr, .sys, .elogQ, .memu, .strands, .hot, .fw, .pkey, .rtc, .upd] s.hw h) ∧
  (∀ s : State, s.hw.sys.fwRunning = false → s.hw.pwr.resetting = false → s.hw.inert = false → s.hw.clocked = true →
    s.hw.on (CAN_CFG_EN 0) = true → (s.hw.can 0).tx.length < 32 → Completes .bootRomHeartbeat s fun h =>
    ∃ f : CanFrame, (h.can 0).tx = (s.hw.can 0).tx ++ [f] ∧ f.id = s.hw.canId 0 fnHeartbeat ∧
      f.data.take 4 = [0, s.hw.fuses.lifecycle, s.hw.fw.hbSeq % 256, s.hw.fw.hbSeq / 256 % 256] ∧
      h.fw.hbSeq = (s.hw.fw.hbSeq + 1) % 65536 ∧ Changes [] [.fw, .cans] s.hw h)

/-- Bus reads of SRAM (R42, R44, R396, R397, R403, R415, R702, R742). -/
def Obligations.MemoryReads : Prop :=
  (∀ (s : State) (m : Master) (a : BitVec 32) (size : Fin 4), s.hw.mute m = false → inSram a.toNat = true →
    (s.hw.access m a.toNat (2 ^ size.val) false = .ok → s.hw.eccAt a.toNat = 0 → Completes (.memoryRead m a size) s fun h => ∃ v, h = { s.hw with resp := .data v, late := [] } ∧ s.hw.holds a.toNat (2 ^ size.val) v) ∧
    (s.hw.access m a.toNat (2 ^ size.val) false = .ok → s.hw.eccAt a.toNat = 1 → Completes (.memoryRead m a size) s fun h => (∃ v, h.resp = .data v ∧ s.hw.holds a.toNat (2 ^ size.val) v) ∧ h.eccAt a.toNat = 0 ∧
      Changes [(MEM_ECC_CE, satTo 65535 (s.hw.rf MEM_ECC_CE + 1))] [.ecc, .resp, .late] s.hw h) ∧
    (s.hw.access m a.toNat (2 ^ size.val) false = .ok → s.hw.eccAt a.toNat = 2 ∨ s.hw.eccAt a.toNat = 3 → Completes (.memoryRead m a size) s fun h => h.resp = .error ∧
      h.rf MEM_ECC_UE = satTo 65535 (s.hw.rf MEM_ECC_UE + 1) ∧ h.rf MEM_ECCADDR_ADDR = a.toNat ∧ Touches [.regs, .resp, .late, .elogQ] s.hw h ∧
      (m.silent = true →
        Changes [(MEM_ECCADDR_ADDR, a.toNat), (MEM_ECC_UE, satTo 65535 (s.hw.rf MEM_ECC_UE + 1))] [.resp, .late] s.hw h)) ∧
    (s.hw.access m a.toNat (2 ^ size.val) false = .stall → s.hw.domainOn a.toNat = true → Completes (.memoryRead m a size) s (· = { s.hw with resp := .stalled, late := [], stalls := s.hw.stalls ++ [⟨m, .read, a.toNat, 2 ^ size.val, 0, false⟩] }))) ∧
  (∀ (s : State) (a : BitVec 32) (size : Fin 4), s.hw.mute .jtag = true → Completes (.memoryRead .jtag a size) s (· = s.hw))

/-- The bytes after a write of `n` bytes at `a`: those of the write are given by `f`, every other reads as before. -/
def bytesAre (h h' : Hw) (a n : Nat) (f : Nat → Nat) : Prop :=
  (∀ i, i < n → (h'.byte (a + i)).toNat = f i) ∧ ∀ b, b < a ∨ a + n ≤ b → h'.byte b = h.byte b

/-- Bus writes of SRAM (R42, R398, R152, R153) and alias writes (R45, R46, R405, R407). -/
def Obligations.MemoryWrites : Prop :=
  (∀ (s : State) (m : Master) (a : BitVec 32) (size : Fin 4) (v : BitVec 64) (hit : Bool), s.hw.mute m = false → inSram a.toNat = true →
    s.hw.access m a.toNat (2 ^ size.val) true = .ok →
    ((hit = false ∨ m = .fabric ∨ within 0x11000000 0x1103FFFF a.toNat = false) → (size = 3 ∨ s.hw.unreadable a.toNat = false) → s.hw.eccAt a.toNat ≤ 3 →
      Completes (.memoryWrite m a size v hit) s fun h => h.resp = .okay ∧ h.eccAt a.toNat = 0 ∧
        bytesAre s.hw h a.toNat (2 ^ size.val) (fun i => v.toNat / 256 ^ i % 256) ∧
        Changes (if size ≠ 3 ∧ s.hw.eccAt a.toNat = 1 then [(MEM_ECC_CE, satTo 65535 (s.hw.rf MEM_ECC_CE + 1))] else []) [.mem, .ecc, .resp, .late]
          s.hw { h with mem := s.hw.mem }) ∧
    ((hit = false ∨ m = .fabric ∨ within 0x11000000 0x1103FFFF a.toNat = false) → size ≠ 3 → s.hw.unreadable a.toNat = true →
      Completes (.memoryWrite m a size v hit) s fun h => h.resp = .error ∧ Touches [.regs, .resp, .late, .elogQ] s.hw h) ∧
    (hit = true → m ≠ .fabric → within 0x11000000 0x1103FFFF a.toNat = true → Completes (.memoryWrite m a size v hit) s fun h =>
      h.resp = .collide ∧ h.rf FAB_CMTSTAT_COLLIDE_ANY = 1 ∧
      (∀ k, strandOfWord a.toNat = some k → (h.strand k).collidedN = satTo 65535 ((s.hw.strand k).collidedN + 1)) ∧
      Touches [.regs, .resp, .late, .elogQ, .strands] s.hw h)) ∧
  (∀ (s : State) (m : Master) (a : BitVec 32) (size : Fin 4) (v : BitVec 64), s.hw.mute m = false → inSram a.toNat = true → a.toNat < 0x14000000 →
    s.hw.access m a.toNat (2 ^ size.val) true = .ok →
    (2 ≤ size.val → s.hw.unreadable a.toNat = false →
      (Completes (.setAliasWrite m a size v) s fun h => h.resp = .okay ∧
        bytesAre s.hw h a.toNat (2 ^ size.val) (fun i => (s.hw.byte (a.toNat + i)).toNat ||| v.toNat / 256 ^ i % 256)) ∧
      (Completes (.clearAliasWrite m a size v) s fun h => h.resp = .okay ∧
        bytesAre s.hw h a.toNat (2 ^ size.val) (fun i => (s.hw.byte (a.toNat + i)).toNat &&& ((v.toNat / 256 ^ i % 256) ^^^ 255)))) ∧
    (size.val < 2 ∨ s.hw.unreadable a.toNat = true →
      (Completes (.setAliasWrite m a size v) s fun h => h.resp = .error ∧ Touches [.regs, .resp, .late, .elogQ] s.hw h) ∧
      (Completes (.clearAliasWrite m a size v) s fun h => h.resp = .error ∧ Touches [.regs, .resp, .late, .elogQ] s.hw h)))

/-- An ERROR answer that touches no memory, and its entry of class `c` and code `k` (R702, R703). -/
structure Refused (c k : Nat) (m : Master) (a : Nat) (h h' : Hw) : Prop where
  answer : h'.resp = .error
  entry : h.elogQ.length < 8 → ∃ r, h'.elogQ = h.elogQ ++ [r] ∧ r.cls = c ∧ r.code = k ∧ r.source = m.source ∧ r.addr = a
  rest : Touches [.regs, .resp, .late, .elogQ] h h'

/-- Refused accesses (R43, R44, R48, R703, R705 to R708). -/
def Obligations.RefusedAccesses : Prop :=
  ∀ (s : State) (m : Master) (a : BitVec 32) (size : Fin 4), s.hw.mute m = false → m.silent = false → isBlock a.toNat = false → isBackupReg a.toNat = false →
    let b := baseOf a.toNat
    (regionOf b = none → Completes (.memoryRead m a size) s (Refused 0 1 m a.toNat s.hw) ∧
      (b = a.toNat → ∀ v hit, Completes (.memoryWrite m a size v hit) s (Refused 0 1 m a.toNat s.hw))) ∧
    (∀ r, regionOf b = some r →
      (b % 2 ^ size.val ≠ 0 → Completes (.memoryRead m a size) s (Refused 0 2 m a.toNat s.hw)) ∧
      (b % 2 ^ size.val = 0 → s.hw.pathOk m r false = false ∨ s.hw.portPart m b = false → Completes (.memoryRead m a size) s (Refused 0 5 m a.toNat s.hw)) ∧
      (b % 2 ^ size.val = 0 → s.hw.pathOk m r false = true → s.hw.portPart m b = true → s.hw.mpuOk m b false = false → Completes (.memoryRead m a size) s fun h =>
        Refused 1 1 m a.toNat s.hw h ∧ h.rf MPU_VIOL_VALID = 1 ∧ h.rf MPU_VIOL_WRITE = 0 ∧ h.rf MPU_VIOL_SOURCE = m.source ∧
          h.rf MPU_VIOL_COUNT = satTo 65535 (s.hw.rf MPU_VIOL_COUNT + 1) ∧ h.rf MPU_VADDR_ADDR = a.toNat))

/-- Counter registers all of whose bits a read clears, and that hold nothing but these counts (R20). -/
def clearedByRead : List Nat :=
  [FAB_TALLY0, FAB_TALLY1, FAB_STEALS, LOOP_TALLY0, LOOP_TALLY1, HITCH_TALLY, TP_TALLY, MEM_ECC, ELOG_LOSTALL, PWR_SLKSUM, PWR_SLKDONE,
    RADIO_TALLY0, RADIO_TALLY1, RADIO_TALLY2]

/-- Accesses to registers (R17, R18, R20, R50, R703, R709, R710). -/
def Obligations.RegisterAccesses : Prop :=
  (∀ (s : State) (n : Fin 16) (v : BitVec 32), Completes (.registerWrite .nav (BitVec.ofNat 32 (MPU_RBASE n.val)) v) s fun h =>
    h.resp = .okay ∧ Changes (if s.hw.on MPU_CTRL_LOCK then []
      else [(wholeReg (MPU_RBASE n.val), ((s.hw.reg (MPU_RBASE n.val)).toNat &&& 63) ||| (v.toNat &&& 0xFFFFFFC0))]) [.resp, .late] s.hw h) ∧
  (∀ (s : State) (v : BitVec 32), Completes (.mpuLock v) s fun h => h.rf MPU_CTRL_LOCK = 1 ∧
    h.rf MPU_CTRL_EN = (if s.hw.on MPU_CTRL_LOCK then s.hw.rf MPU_CTRL_EN else v.toNat % 2) ∧ (∀ a, a ≠ MPU_CTRL → h.reg a = s.hw.reg a) ∧
    Touches [.regs] s.hw h) ∧
  (∀ (s : State) (m : Master) (a : Nat), s.hw.mute m = false → a ∈ clearedByRead → s.hw.busAccess m a 4 false = .ok →
    Completes (.rclrCounterRead m (BitVec.ofNat 32 a)) s fun h =>
      h.resp = .data (s.hw.reg a).toNat ∧ Changes [(wholeReg a, 0)] [.resp, .late] s.hw h) ∧
  (∀ (s : State) (m : Master), s.hw.mute m = false → s.hw.busAccess m MPU_VIOL 4 false = .ok →
    Completes (.rclrCounterRead m (BitVec.ofNat 32 MPU_VIOL)) s fun h =>
      h.resp = .data (s.hw.reg MPU_VIOL).toNat ∧ h.reg MPU_VIOL = s.hw.reg MPU_VIOL &&& 0xFFFF ∧ (∀ a, a ≠ MPU_VIOL → h.reg a = s.hw.reg a) ∧
      Touches [.regs, .resp, .late] s.hw h) ∧
  (∀ (s : State) (m : Master) (a v : BitVec 32), s.hw.mute m = false → m.silent = false → isBlock a.toNat = true → regHere (a.toNat / 4 * 4) = false →
    s.hw.access m a.toNat 4 true = .ok → Completes (.registerWrite m a v) s fun h => h.resp = .error ∧
      (s.hw.elogQ.length < 8 → ∃ r, h.elogQ = s.hw.elogQ ++ [r] ∧ r.cls = 0 ∧ r.code = 1 ∧ r.source = m.source ∧ r.addr = a.toNat) ∧
      (∀ x, x < ELOG_STAT ∨ ELOG_LOST 0 < x → h.reg x = s.hw.reg x) ∧ Touches [.regs, .resp, .late, .elogQ] s.hw h)

/-- The value keeps the fields that DMAc_CTRL holds. -/
def keepsCtrl (h : Hw) (c : Nat) (v : Nat) : Prop := v &&& 0x78 = (h.reg (DMA_CTRL c)).toNat &&& 0x78

/-- DMA channels (R712, R713, R715). -/
def Obligations.DmaChannels : Prop :=
  (∀ (s : State) (c : Fin 8) (v : BitVec 32), keepsCtrl s.hw c.val v.toNat →
    (bit v.toNat 0 = true → bit v.toNat 1 = false → bit v.toNat 2 = false → Completes (.dmaGo c v) s fun h => Changes
      (if s.hw.dmaState c.val = 0 ∧ s.hw.rf (DMA_CNT_COUNT c.val) ≠ 0 ∧ s.hw.rf (DMA_SRC_ADDR c.val) % s.hw.dmaWidth c.val = 0 ∧
          s.hw.rf (DMA_DST_ADDR c.val) % s.hw.dmaWidth c.val = 0 ∧ ¬ (c = 0 ∧ s.hw.on HITCH_CTRL_COPY_EN = true)
        then [(DMA_STAT_CAUSE c.val, 0), (DMA_STAT_STATE c.val, 1)] else [(DMA_STAT_CFG_ERR c.val, 1)]) [] s.hw h) ∧
    (bit v.toNat 1 = true → bit v.toNat 2 = false → Completes (.dmaResume c v) s fun h => Changes
      (if s.hw.dmaState c.val = 2 then [(DMA_STAT_CAUSE c.val, 0), (DMA_STAT_STATE c.val, 1)] else []) [] s.hw h) ∧
    (bit v.toNat 2 = true → Completes (.dmaAbort c v) s fun h => Changes
      (if s.hw.dmaState c.val = 0 then [] else [(DMA_STAT_STATE c.val, 0)]) [.dmaTry] s.hw h)) ∧
  (∀ (s : State) (c : Fin 8), s.hw.dmaTurn = some c → s.hw.clocked = true → Store.get (fun _ => (0, 0)) s.hw.dmaTry c.val = (0, 0) →
    let src := s.hw.rf (DMA_SRC_ADDR c.val)
    let dst := s.hw.rf (DMA_DST_ADDR c.val)
    let n := s.hw.dmaWidth c.val
    (inSram src = true → inSram dst = true → s.hw.access (.dma c) src n false = .ok → s.hw.access (.dma c) dst n true = .ok →
      s.hw.eccAt src = 0 → s.hw.eccAt dst = 0 → s.hw.rf (DMA_CNT_COUNT c.val) ≠ 0 → Completes (.dmaBeat false) s fun h =>
        (∀ i, i < n → h.byte (dst + i) = s.hw.byte (src + i)) ∧ (∀ b, b < dst ∨ dst + n ≤ b → h.byte b = s.hw.byte b) ∧
        Changes ((if s.hw.rf (DMA_CNT_COUNT c.val) = 1 then [(DMA_STAT_DONE c.val, 1), (DMA_STAT_STATE c.val, 0)] else []) ++
          [(DMA_CNT_COUNT c.val, s.hw.rf (DMA_CNT_COUNT c.val) - 1)] ++
          (if s.hw.on (DMA_CTRL_DINC c.val) then [(DMA_DST_ADDR c.val, dst + n)] else []) ++
          (if s.hw.on (DMA_CTRL_SINC c.val) then [(DMA_SRC_ADDR c.val, src + n)] else [])) [.mem, .ecc, .resp, .dmaTry] s.hw h) ∧
    (∀ k, inSram src = true → s.hw.access (.dma c) src n false = .error 0 k → Completes (.dmaBeat false) s fun h =>
      h.rf (DMA_STAT_STATE c.val) = 2 ∧ h.rf (DMA_STAT_CAUSE c.val) = 1 ∧ h.rf (DMA_SRC_ADDR c.val) = src ∧ h.rf (DMA_DST_ADDR c.val) = dst ∧
      h.rf (DMA_CNT_COUNT c.val) = s.hw.rf (DMA_CNT_COUNT c.val) ∧ Touches [.regs, .resp, .elogQ, .dmaTry] s.hw h))

/-- A report of these fields from `h` to `h'` (R719, R720). -/
def reports (h h' : Hw) (cls code source addr detail : Nat) : Prop :=
  if h.elogQ.length < 8 then
    h'.elogQ = h.elogQ ++ [⟨cls, code, source, addr, detail % 2 ^ 32, (h.rf ELOG_TOTAL_TOTAL + 1) % 256, h.tcnt / 2 ^ 12 % 2 ^ 32⟩] ∧
      Changes [(ELOG_TOTAL_TOTAL, h.rf ELOG_TOTAL_TOTAL + 1)] [.elogQ] h h'
  else Changes [(ELOG_STAT_LOSTF, 1), (ELOG_LOSTALL_LOST, satTo (2 ^ 32 - 1) (h.rf ELOG_LOSTALL_LOST + 1)),
    (elogLostField cls, satTo 65535 (h.rf (elogLostField cls) + 1))] [] h h'

/-- The error log (R718 to R723). -/
def Obligations.ErrorLog : Prop :=
  (∀ (s : State) (cls : Fin 16) (code source : BitVec 8) (addr detail : BitVec 32),
    Completes (.elogReport cls code source addr detail) s fun h => reports s.hw h cls.val code.toNat source.toNat addr.toNat detail.toNat) ∧
  (∀ (s : State) (v : BitVec 32), Completes (.elogSwhdr v) s fun h =>
    reports s.hw h (v.toNat % 16) (v.toNat / 256 % 256) 0 (s.hw.rf ELOG_SWADDR_VALUE) (s.hw.rf ELOG_SWDET_VALUE)) ∧
  (∀ (s : State) (r : ElogReport) (rest : List ElogReport), s.hw.elogQ = r :: rest → Completes .elogEntryWrite s fun h =>
    let first := s.hw.rf ELOG_STAT_FIRSTCNT
    let ring := s.hw.rf ELOG_STAT_RINGNEXT
    let i := if first < 48 then first else ring
    h.elogQ = rest ∧ Changes ((if (s.hw.rf ELOG_CTRL_IRQ_MASK).testBit (r.cls % 16) then [(ELOG_STAT_NEW, 1)] else []) ++
      (if first < 48 then [(ELOG_STAT_FIRSTCNT, first + 1)]
        else [(ELOG_STAT_RINGNEXT, if ring = 63 then 48 else ring + 1), (ELOG_STAT_RINGCNT, min 16 (s.hw.rf ELOG_STAT_RINGCNT + 1))]) ++
      [(wholeReg (0x40090400 + 16 * i), r.cls % 16 + 2 ^ 7 + 2 ^ 8 * (r.code % 256) + 2 ^ 16 * (r.source % 256) + 2 ^ 24 * (r.seq % 256)),
        (wholeReg (0x40090400 + 16 * i + 12), r.stamp % 2 ^ 32), (wholeReg (0x40090400 + 16 * i + 8), r.detail % 2 ^ 32),
        (wholeReg (0x40090400 + 16 * i + 4), r.addr % 2 ^ 32)]) [.elogQ] s.hw h) ∧
  (∀ s : State, s.hw.elogQ = [] → Completes .elogEntryWrite s (· = s.hw)) ∧
  (∀ (s : State) (v : BitVec 32), Completes (.elogClear v) s fun h =>
    h.rf ELOG_STAT_FIRSTCNT = 0 ∧ h.rf ELOG_STAT_RINGCNT = 0 ∧ h.rf ELOG_STAT_RINGNEXT = 48 ∧
    (∀ i, i < 64 → ∀ k, k < 32 → (h.reg (0x40090400 + 16 * i)).getLsbD k = ((s.hw.reg (0x40090400 + 16 * i)).getLsbD k && k != 7)) ∧
    (∀ a, a ≠ ELOG_CTRL → a ≠ ELOG_STAT → (∀ i, i < 64 → a ≠ 0x40090400 + 16 * i) → h.reg a = s.hw.reg a) ∧ Touches [.regs] s.hw h)

/-- Whipping and the temperature monitor (R36 to R39, R41, R725, R727 to R729, Table 17.6). -/
def Obligations.Whipping : Prop :=
  (∀ (s : State) (t0 t1 t2 t3 t4 t5 : Int) (vin vbkp vcore sense : Nat), s.hw.clocked = true →
    let hi := max (max (max (max (max t0 t1) t2) t3) t4) t5
    let g := (hi - min (min (min (min (min t0 t1) t2) t3) t4) t5).toNat
    Completes (.tempSample [t0, t1, t2, t3, t4, t5] [vin, vbkp, vcore, sense]) s fun h =>
      h.rf (BGND_TEMP_TS_LO 0) = (t0 % 65536).toNat ∧ h.rf (BGND_TEMP_TS_HI 0) = (t1 % 65536).toNat ∧
      h.rf (BGND_TEMP_TS_LO 1) = (t2 % 65536).toNat ∧ h.rf (BGND_TEMP_TS_HI 1) = (t3 % 65536).toNat ∧
      h.rf (BGND_TEMP_TS_LO 2) = (t4 % 65536).toNat ∧ h.rf (BGND_TEMP_TS_HI 2) = (t5 % 65536).toNat ∧
      h.rf BGND_RAIL0_VIN = vin % 65536 ∧ h.rf BGND_RAIL0_VBKP = vbkp % 65536 ∧ h.rf BGND_RAIL1_VCORE = vcore % 65536 ∧
      h.rf BGND_RAIL1_SENSE = sense % 65536 ∧ h.rf BGND_TSTAT_GRAD = satTo 255 (g / 10) ∧
      (s.hw.on BGND_TSTAT_THERMAL_GRADIENT = false → h.on BGND_TSTAT_THERMAL_GRADIENT = decide (250 < g)) ∧
      (s.hw.on BGND_TSTAT_THERMAL_GRADIENT = true → s.hw.sys.gradOk < 999 ∨ 200 < g → h.on BGND_TSTAT_THERMAL_GRADIENT = true) ∧
      (200 < g → h.sys.gradOk = 0) ∧
      (s.hw.on BGND_TSTAT_OVERTEMP = false → h.on BGND_TSTAT_OVERTEMP = decide (1250 < hi)) ∧
      (s.hw.on BGND_TSTAT_OVERTEMP = true → s.hw.sys.tempOk < 999 ∨ 1200 < hi → h.on BGND_TSTAT_OVERTEMP = true) ∧
      h.bgnd.n = s.hw.bgnd.n + 1 ∧ Touches [.regs, .sys, .elogQ, .radio, .bgnd] s.hw h) ∧
  (∀ s : State, s.hw.on BGND_CTRL_SCRUB_EN = true → s.hw.pwr.state = .run → s.hw.ecc = [] → Completes .scrubRead s fun h =>
    (∀ u, u < 18 → h.scrubAt u = if s.hw.unitAccess (unitBase u + 8 * s.hw.scrubAt u) = .ok then (s.hw.scrubAt u + 1) % (unitBytes u / 8)
      else s.hw.scrubAt u) ∧ (∀ a, a ≠ BGND_STAT → a ≠ BGND_SPASST → h.reg a = s.hw.reg a) ∧ Touches [.regs, .memu, .bgnd] s.hw h) ∧
  (∀ s : State, s.hw.on BGND_CTRL_MSCRUB_EN = true → s.hw.clocked = true → s.hw.ecc = [] → s.hw.memu.mscrubPtr < 2097152 →
    Completes .mramScrub s fun h => h.memu = { s.hw.memu with mscrubPtr := (s.hw.memu.mscrubPtr + 64) % 2097152 } ∧
      Changes (if s.hw.memu.mscrubPtr + 64 < 2097152 then [] else [(BGND_STAT_MPASS, s.hw.rf BGND_STAT_MPASS + 1)]) [.memu] s.hw h) ∧
  (∀ (s : State) (fix : NavFix) (util nmea : List Nat), s.hw.clocked = true → s.hw.on BGND_CTRL_TELEM_EN = true →
    Completes (.telemetrySecond fix util nmea) s fun h => h.fix = fix ∧
      h.tcnt = max s.hw.tcnt (max 1 ((s.hw.tcnt + 491519999) / 491520000) * 491520000 % 2 ^ 64) ∧
      h.reg FAB_TALLY0 = 0 ∧ h.reg FAB_STEALS = 0 ∧ h.reg LOOP_TALLY0 = 0 ∧ h.reg MEM_ECC = 0 ∧ h.reg ELOG_LOSTALL = 0 ∧
      Store.get (fun _ => []) h.bgnd.tele 7 = leBytes 4 (s.hw.rf MEM_ECC_CE) ++ leBytes 4 (s.hw.rf MEM_ECC_UE) ∧
      Store.get (fun _ => []) h.bgnd.tele 11 = leBytes 4 (leNat (Store.get (fun _ => []) s.hw.bgnd.tele 11) + 1) ∧
      (∀ n, n < 6 → s.hw.obj 0xB030 (n + 1) ≠ 2 → h.serial n = s.hw.serial n ∧ h.link n = s.hw.link n) ∧
      (∀ n, n < 6 → s.hw.fwUp = true → s.hw.obj 0xB030 (n + 1) = 2 → 
        (h.serial n).cur.toList ++ (h.serial n).tx ++ (h.link n).out =
          (s.hw.serial n).cur.toList ++ (s.hw.serial n).tx ++ (s.hw.link n).out ++ nmea) ∧
      Touches [.regs, .tcnt, .tp, .fw, .serials, .upd, .bgnd, .fix] s.hw h) ∧
  (∀ (s : State) (late : Bool), Completes (.whippingFwTask late) s fun g => ∃ h, g = h.fwKeep ∧
    Changes (if s.hw.fwUp && late then [(BGND_STAT_OVERRUN, satTo 255 (s.hw.rf BGND_STAT_OVERRUN + 1))] else []) [] s.hw h)

/-- A write of SPORT_CTRL with the bits of `v` that are kept (REFOUT_EN, REFOUT_DRV, SPEC_SRC, SPEC_THR). -/
def sportCtrlTaken (h : Hw) (v : BitVec 32) : Fld × Nat := (wholeReg SPORT_CTRL, ((h.reg SPORT_CTRL).toNat &&& 0xFF00F8FF) ||| (v.toNat &&& 0xFF0700))

/-- The states of a sample port and what takes it from one to the next (Table 2.3, R61, R67 to R69, R72, R92, R94, R97, R101, R780). -/
def Obligations.PortStates : Prop :=
  (∀ (s : State) (v : BitVec 32) (n : Nat), n < s.hw.portCount → v.toNat % 256 = 2 ^ n → s.hw.portState n = portOff →
    (s.hw.rate n < 16368 ∨ 81840 < s.hw.rate n ∨ s.hw.rf (SP_CFG_DEC n) = 3) →
    Completes (.portStart v) s (Changes [(SP_EVT_CFG_ERR n, 1), sportCtrlTaken s.hw v] [] s.hw)) ∧
  (∀ (s : State) (v : BitVec 32) (n : Nat), n < s.hw.portCount → v.toNat % 256 = 2 ^ n → s.hw.portState n = portOff → s.hw.startOk n = true →
    (∀ t ∈ s.hw.strands, t.2.state = .idle ∧ t.2.staged = none) → Completes (.portStart v) s fun h =>
      h.portState n = portArmed ∧ (h.port n).cnt = 0 ∧ (h.port n).nextTag = 0 ∧ (h.port n).gaps = [] ∧
      (∀ m, m < 4 → m ≠ n → h.portState m = s.hw.portState m ∧ (h.port m).cnt = (s.hw.port m).cnt) ∧
      Touches [.regs, .mem, .ecc, .free, .elogQ, .ports, .strands, .fab, .loop, .hitch] s.hw h) ∧
  (∀ (s : State) (v : BitVec 32) (n : Nat), n < 4 → v.toNat % 256 = 16 * 2 ^ n → s.hw.portState n = portRun → s.hw.coilPort n = false →
    (∀ t ∈ s.hw.strands, t.2.state = .idle ∧ t.2.staged = none) → Completes (.portStop v) s fun h =>
      h.portState n = portOff ∧ (h.port n).syn = false ∧ (h.port n).cnt = (s.hw.port n).cnt ∧
      (∀ m, m < 4 → m ≠ n → h.portState m = s.hw.portState m ∧ h.port m = s.hw.port m) ∧
      Touches [.regs, .mem, .ecc, .free, .elogQ, .ports, .strands, .fab, .loop, .hitch] s.hw h) ∧
  (∀ (s : State) (n : Fin 4) (i q : Nat), s.hw.portState n = portArmed → (s.hw.port n).cnt = 0 → Completes (.portRun n (i, q)) s fun h =>
    h.portState n = portRun ∧ (h.port n).cnt = 1 ∧
    (s.hw.coilPort n = false → ∀ m, m < 4 → m ≠ n.val → h.portState m = s.hw.portState m ∧ h.port m = s.hw.port m) ∧
    Touches [.regs, .mem, .ecc, .free, .elogQ, .ports, .strands, .fab, .loop, .hot, .hitch] s.hw h) ∧
  (∀ (s : State) (n : Fin 4), s.hw.portState n = portRun → s.hw.coilPort n = false → 1 ≤ s.hw.rf (SP_RING_SIZE n) → Completes (.stopDeclared n []) s fun h =>
    h.portState n = portGap ∧ h.rf (SP_EVT_STOP_EV n) = 1 ∧ h.rf (SP_TALLY_GAPS n) = satTo 65535 (s.hw.rf (SP_TALLY_GAPS n) + 1) ∧
    (s.hw.port n).cnt + 2 ≤ (h.port n).cnt ∧ (h.port n).cnt ≤ (s.hw.port n).cnt + 4 ∧ ((s.hw.port n).gapFrom = none → (h.port n).isGap (s.hw.blockOf n (s.hw.port n).cnt) = true) ∧
    (∀ m, m < 4 → m ≠ n.val → h.portState m = s.hw.portState m ∧ h.port m = s.hw.port m) ∧
    Touches [.regs, .free, .elogQ, .ports] s.hw h) ∧
  (∀ (s : State) (n : Fin 4), s.hw.portState n = portRun → 1 ≤ s.hw.rf (SP_RING_SIZE n) → Completes (.discontinuity n) s fun h =>
    h.rf (SP_EVT_DISCONT n) = 1 ∧ h.rf (SP_TALLY_GLITCHES n) = satTo 65535 (s.hw.rf (SP_TALLY_GLITCHES n) + 1) ∧
    (h.port n).isSuspect (s.hw.blockOf n (s.hw.port n).cnt) = true ∧ (h.port n).cnt = (s.hw.port n).cnt ∧
    (∀ m, m < 4 → h.portState m = s.hw.portState m) ∧ Touches [.regs, .elogQ, .ports] s.hw h) ∧
  (∀ (s : State) (n : Fin 4) (b : Nat), s.hw.portState n = portGap → (s.hw.port n).resumeAt = some b → 1 ≤ s.hw.rf (SP_RING_SIZE n) → Completes (.portResume n) s fun h =>
    h.portState n = portRun ∧ h.rf (SP_EVT_RESUMED n) = 1 ∧ (h.port n).cnt = 2048 * b * s.hw.dec n ∧ (h.port n).resumeAt = none ∧
    (∀ m, m < 4 → m ≠ n.val → h.portState m = s.hw.portState m ∧ (h.port m).cnt = (s.hw.port m).cnt) ∧
    Touches [.regs, .mem, .ecc, .elogQ, .ports, .strands, .fab, .loop] s.hw h)

/-- No step of port n's notches and threshold is due (R81, R82, R84). -/
def NothingDue (h : Hw) (n : Nat) : Prop :=
  (∀ m, m < 2 → ((h.port n).notch m).en = true → ((h.port n).notch m).thetaN ≠ 16 ∧ ((h.port n).notch m).pn ≠ 4096) ∧ (h.port n).magN ≠ 4096

/-- The pipeline of a port as it reports (R69, R80 to R82, R84, R88, R89, R95, R96, R106, R109). -/
def Obligations.PortFronts : Prop :=
  (∀ (s : State) (n : Fin 4) (xs : List (Nat × Nat)), s.hw.portState n = portRun → (∀ t ∈ s.hw.strands, t.2.state = .idle) → s.hw.fab.tranches = [] →
    s.hw.coilState = coilEmpty → (s.hw.port n).cap = none → (s.hw.port n).untagged (s.hw.port n).nextTag = false → 1 ≤ s.hw.rf (SP_RING_SIZE n) →
    (s.hw.port n).cnt < s.hw.blockNeeds n (s.hw.port n).nextTag → s.hw.blockNeeds n (s.hw.port n).nextTag < 2 ^ 64 →
    s.hw.blockNeeds n (s.hw.port n).nextTag - (s.hw.port n).cnt ≤ xs.length → Completes (.ringBlockWritten n xs) s fun h =>
      (h.port n).cnt = s.hw.blockNeeds n (s.hw.port n).nextTag ∧ (h.port n).nextTag = (s.hw.port n).nextTag + 1 ∧
      (let tag := (h.reg (s.hw.tagAddr n (s.hw.port n).nextTag)).toNat
       tag % 2 = 1 ∧ bit tag 1 = (s.hw.port n).isGap (s.hw.port n).nextTag ∧ bit tag 2 = (s.hw.port n).isSuspect (s.hw.port n).nextTag ∧
       tag / 65536 = (s.hw.port n).nextTag % 65536) ∧
      (∀ m, m < 4 → h.portState m = s.hw.portState m) ∧ (∀ m, m < 4 → m ≠ n.val → h.port m = s.hw.port m) ∧
      (∀ a, a < 0x10000000 + s.hw.rf (SP_RING_BASE n) * 65536 ∨ 0x10000000 + (s.hw.rf (SP_RING_BASE n) + s.hw.rf (SP_RING_SIZE n)) * 65536 ≤ a →
        h.byte a = s.hw.byte a) ∧
      Touches [.regs, .mem, .free, .elogQ, .ports] s.hw h) ∧
  (∀ (s : State) (xs : List (List (Nat × Nat))),
    (∀ n, n < 4 → (s.hw.portState n = portOff ∨ s.hw.portState n = portArmed) ∧ (s.hw.port n).syn = false) →
    Completes (.monitorWindowEnd xs) s (Changes [(⟨SPORT_STAT, 16, 16⟩, s.hw.rf ⟨SPORT_STAT, 16, 16⟩ + 1)] [.ports] s.hw)) ∧
  (∀ (s : State) (n : Fin 4) (e : Int), s.hw.portState n = portRun →
    (∀ m, m < 4 → m ≠ n.val → (s.hw.portState m = portOff ∨ s.hw.portState m = portArmed) ∧ (s.hw.port m).syn = false) →
    (s.hw.port n).fresh = false → e = ((s.hw.port n).edges : Int) - (s.hw.rate n : Int) → e.natAbs ≤ s.hw.rateTol n →
    ((s.hw.port n).sum + e).natAbs < 2 → Completes (.monitorWindowEnd []) s fun h => (h.port n).sum = (s.hw.port n).sum + e ∧
      Changes [(SP_MON_SUM n, ofInt (SP_MON_SUM n).len ((s.hw.port n).sum + e)), (SP_MON_ERR n, ofInt (SP_MON_ERR n).len e),
        (⟨SPORT_STAT, 16, 16⟩, s.hw.rf ⟨SPORT_STAT, 16, 16⟩ + 1)] [.ports] s.hw h) ∧
  (∀ (s : State) (n : Fin 4) (e : Int), s.hw.portState n = portRun →
    (∀ m, m < 4 → m ≠ n.val → (s.hw.portState m = portOff ∨ s.hw.portState m = portArmed) ∧ (s.hw.port m).syn = false) →
    (s.hw.port n).fresh = false → e = ((s.hw.port n).edges : Int) - (s.hw.rate n : Int) → e.natAbs ≤ s.hw.rateTol n →
    1 ≤ s.hw.rf (SP_RING_SIZE n) → 2 ≤ ((s.hw.port n).sum + e).natAbs → Completes (.monitorWindowEnd []) s fun h =>
      h.rf (SP_EVT_GLITCH n) = 1 ∧ h.rf (SP_MON_SUM n) = 0 ∧ (h.port n).sum = 0 ∧ h.portState n = portRun ∧
      h.rf (SP_TALLY_GLITCHES n) = satTo 65535 (s.hw.rf (SP_TALLY_GLITCHES n) + 1) ∧ Touches [.regs, .elogQ, .ports] s.hw h) ∧
  (∀ (s : State) (n : Fin 4) (m : Fin 2), s.hw.portState n = portRun → ringDone (s.hw.dec n) (s.hw.port n).cnt % 2048 = 0 → NothingDue s.hw n →
    Completes (.notchConfigApply n m) s fun h =>
      let t := (s.hw.port n).notch m
      (h.port n).notch m = { (if s.hw.on (notchEn n m) && !t.en then { Notch.reset with lowAt := some s.hw.tcnt } else t) with
        en := s.hw.on (notchEn n m), k := s.hw.rf (notchKf n m), freq := s.hw.rfInt (notchFreq n m), pend := false } ∧
      Changes (if s.hw.on (notchEn n m) then [] else [(notchDepth n m, 0)]) [.ports] s.hw h) ∧
  (∀ (s : State) (n : Fin 4) (m : Fin 2), s.hw.portState n ≠ portRun ∨ ringDone (s.hw.dec n) (s.hw.port n).cnt % 2048 ≠ 0 →
    Completes (.notchConfigApply n m) s (· = s.hw)) ∧
  (∀ (s : State) (n : Fin 4) (m : Fin 2), ((s.hw.port n).notch m).en = true → s.hw.on (notchAdapt n m) = true →
    ((s.hw.port n).notch m).thetaN = 16 → Completes (.notchAdapt n m []) s fun h =>
      ((h.port n).notch m).freq = max (-2097152) (min 2097151 (((s.hw.port n).notch m).freq +
        Int.sign ((s.hw.port n).notch m).theta * 2 ^ s.hw.rf (notchMu n m))) ∧ ((h.port n).notch m).thetaN = 0 ∧
      Changes (if ((s.hw.port n).notch m).pend then [] else [(notchFreq n m, ofInt 22 ((h.port n).notch m).freq)]) [.ports] s.hw h) ∧
  (∀ (s : State) (n : Fin 4) (m : Fin 2), ((s.hw.port n).notch m).en = false → Completes (.notchDepthUpdate n m) s (· = s.hw)) ∧
  (∀ (s : State) (n : Fin 4) (m : Fin 2), ((s.hw.port n).notch m).en = true → ((s.hw.port n).notch m).pn = 4096 →
    ((s.hw.port n).notch m).pin ≠ 0 → ((s.hw.port n).notch m).pout ≤ ((s.hw.port n).notch m).pin → Completes (.notchDepthUpdate n m) s fun h =>
      (∀ d, d ≤ 255 → (d ≤ h.rf (notchDepth n m) ↔ 10 ^ d * ((s.hw.port n).notch m).pout ^ 40 ≤ ((s.hw.port n).notch m).pin ^ 40)) ∧
      Changes [(notchDepth n m, h.rf (notchDepth n m))] [.ports] s.hw h) ∧
  (∀ (s : State) (n : Fin 4), s.hw.on (SP_QNT_FREEZE n) = false → (s.hw.port n).magN = 4096 → Completes (.thresholdUpdate n) s
    (Changes [(SP_NSTAT_MAGCNT n, (s.hw.port n).magC), (SP_QNT_THR n, (max 1 (min 2047 ((s.hw.rf (SP_QNT_THR n) : Int) +
      ((s.hw.port n).magC - (min 8192 (s.hw.rf (SP_QNT_MAG_TGT n)) : Nat) : Int) / 32))).toNat)] [.ports] s.hw)) ∧
  (∀ (s : State) (n : Fin 4), 64 ≤ (s.hw.port n).specN → let bins := spectrumBins (s.hw.port n).specSum
    peakBins bins (s.hw.rf SPORT_CTRL_SPEC_THR) = [] → Completes (.spectrumPublish n) s fun h =>
    (∀ k, k < 128 → (h.reg (0x40032000 + 0x200 * n.val + 4 * k)).toNat = bins.getD (2 * k) 0 % 65536 + 65536 * (bins.getD (2 * k + 1) 0 % 65536)) ∧
    (∀ a, (∀ k, k < 128 → a ≠ 0x40032000 + 0x200 * n.val + 4 * k) → h.reg a = s.hw.reg a) ∧ Touches [.regs, .ports] s.hw h) ∧
  (∀ (s : State) (n : Fin 4), (s.hw.port n).specN < 64 → Completes (.spectrumPublish n) s (· = s.hw)) ∧
  (∀ (s : State) (n : Fin 4) (m : Fin 2) (t : Nat), ((s.hw.port n).notch m).lowAt = some t →
    s.hw.on BGND_CTRL_NOTCH_EN = true → s.hw.on (notchEn n m) = true → ((s.hw.port n).notch m).en = true → s.hw.rf (notchDepth n m) < 12 →
    Completes (.notchRelease n m) s fun h => h.tcnt = max s.hw.tcnt ((t + 491520000) % 2 ^ 64) ∧ Changes [(notchEn n m, 0)] [.tcnt] s.hw h) ∧
  (∀ (s : State) (n : Fin 4) (m : Fin 2), ((s.hw.port n).notch m).lowAt = none ∨ s.hw.on BGND_CTRL_NOTCH_EN = false ∨ s.hw.on (notchEn n m) = false ∨
    ((s.hw.port n).notch m).en = false ∨ 12 ≤ s.hw.rf (notchDepth n m) → Completes (.notchRelease n m) s (· = s.hw)) ∧
  (∀ (s : State) (n : Fin 4), Completes (.spCntLoRead n) s fun h => h.resp = .data ((s.hw.port n).cnt % 2 ^ 32) ∧
    Changes [(SP_CNT_HI_CNT n, (s.hw.port n).cnt / 2 ^ 32)] [.resp] s.hw h)

/-- The two serial interfaces of the tuner and of the sensor (R110 to R114, R276 to R279). -/
def Obligations.TunerAndSensorSpi : Prop :=
  (∀ (s : State) (v : BitVec 32), Completes (.tspiCmd v) s fun h =>
    if s.hw.tspi.cur = none ∧ s.hw.tspi.queue = [] then h = { s.hw with tspi := { s.hw.tspi with cur := some (v.toNat % 2 ^ 27) } }
    else if s.hw.tspi.queue.length < 16 then h = { s.hw with tspi := { s.hw.tspi with queue := s.hw.tspi.queue ++ [v.toNat % 2 ^ 27] } }
    else Changes [(TSPI_STAT_OVF, 1)] [] s.hw h) ∧
  (∀ (s : State) (v : Nat) (rx : BitVec 24), s.hw.tspi.cur = some v → Completes (.tspiTransactionDone rx) s fun h =>
    h.tspi.cur = s.hw.tspi.queue.head? ∧ h.tspi.queue = s.hw.tspi.queue.drop 1 ∧
    (if bit v 25 = false then h.tspi.rx = s.hw.tspi.rx ∧ Changes [] [.tspi] s.hw h
     else if s.hw.tspi.rx.length < 8 then
      h.tspi.rx = s.hw.tspi.rx ++ [if bit v 24 then rx.toNat else rx.toNat % 65536] ∧ Changes [] [.tspi] s.hw h
     else h.tspi.rx = s.hw.tspi.rx ∧ Changes [(TSPI_STAT_RXOVF, 1)] [.tspi] s.hw h)) ∧
  (∀ s : State, Completes .tspiRxRead s fun h => h = { s.hw with
    tspi := { s.hw.tspi with rx := s.hw.tspi.rx.drop 1 }, resp := .data (match s.hw.tspi.rx with | [] => 0 | d :: _ => d + 2 ^ 31) }) ∧
  (∀ s : State, Completes .sspiRxRead s fun h => h = { s.hw with
    sspi := { s.hw.sspi with rx := s.hw.sspi.rx.drop 1 }, resp := .data (match s.hw.sspi.rx with | [] => 0 | d :: _ => d + 2 ^ 31) }) ∧
  (∀ s : State, Completes .sspiDrdyRead s fun h => h = { s.hw with
    sspi := { s.hw.sspi with stamps := s.hw.sspi.stamps.drop 1 }, resp := .data (match s.hw.sspi.stamps with | [] => 0xFFFFFFFF | d :: _ => d) }) ∧
  (∀ (s : State) (sum k : Nat), s.hw.on TSPI_GAIN_EN = true → (s.hw.port (s.hw.rf TSPI_GAIN_PORT)).thrSum = sum →
    (s.hw.port (s.hw.rf TSPI_GAIN_PORT)).thrN = k → 0 < k → Completes .gainControlTick s fun h =>
      let g := s.hw.rf TSPI_GAIN_GCODE
      let word := fun g : Nat => g + 256 * s.hw.rf TSPI_GAIN_ADDR + 2 ^ 26 * s.hw.rf TSPI_GAIN_CS
      (s.hw.rf TSPI_GWIN_T_HI * k < sum ∧ 0 < g → h.rf TSPI_GAIN_GCODE = g - 1 ∧
        (s.hw.tspi.cur = none ∧ s.hw.tspi.queue = [] → h.tspi.cur = some (word (g - 1)))) ∧
      (sum < s.hw.rf TSPI_GWIN_T_LO * k ∧ ¬ s.hw.rf TSPI_GWIN_T_HI * k < sum ∧ g < s.hw.rf TSPI_GAIN_GMAX → h.rf TSPI_GAIN_GCODE = g + 1 ∧
        (s.hw.tspi.cur = none ∧ s.hw.tspi.queue = [] → h.tspi.cur = some (word (g + 1)))) ∧
      (s.hw.rf TSPI_GWIN_T_LO * k ≤ sum ∧ sum ≤ s.hw.rf TSPI_GWIN_T_HI * k → Changes [] [.ports] s.hw h) ∧
      (∀ a, a ≠ TSPI_GAIN → a ≠ TSPI_STAT → h.reg a = s.hw.reg a) ∧ Touches [.regs, .ports, .tspi] s.hw h) ∧
  (∀ s : State, s.hw.on TSPI_GAIN_EN = false → Completes .gainControlTick s fun h => h = s.hw) ∧
  (∀ (s : State) (v : BitVec 32), Completes (.sspiCmd v) s fun h => h = { s.hw with sspi := { s.hw.sspi with
    auto := if v.toNat.testBit 15 then some (v.toNat % 65536) else none,
    cur := if s.hw.sspi.cur = none then some (v.toNat % 65536) else s.hw.sspi.cur,
    wait := if s.hw.sspi.cur = none then s.hw.sspi.wait else s.hw.sspi.wait ++ [v.toNat % 65536] } }) ∧
  (∀ (s : State) (v : Nat) (rx : List (BitVec 8)), s.hw.sspi.cur = some v → bit v 14 = true → rx.length = sspiLen v →
    s.hw.sspi.rx.length + rx.length ≤ 64 → Completes (.sspiTransactionDone rx) s fun h => h = { s.hw with
      sspi := { s.hw.sspi with cur := s.hw.sspi.wait.head?, wait := s.hw.sspi.wait.drop 1, rx := s.hw.sspi.rx ++ rx.map (·.toNat) } }) ∧
  (∀ s : State, s.hw.on SSPI_CFG_DRDY_EN = true → Completes .sspiDrdyEdge s fun h =>
    h.sspi.cur = (if s.hw.sspi.cur = none then s.hw.sspi.auto else s.hw.sspi.cur) ∧ h.sspi.rx = s.hw.sspi.rx ∧
    h.sspi.auto = s.hw.sspi.auto ∧
    h.sspi.wait = (if s.hw.sspi.cur = none then s.hw.sspi.wait else s.hw.sspi.wait ++ s.hw.sspi.auto.toList) ∧
    (if s.hw.sspi.stamps.length < 16 then
      (∃ d, d ≤ 2 ∧ h.sspi.stamps = s.hw.sspi.stamps ++ [((s.hw.port 0).cnt + d) % 2 ^ 32]) ∧ Changes [] [.sspi, .free] s.hw h
     else h.sspi.stamps = s.hw.sspi.stamps ∧ Changes [(SSPI_STAT_DOVF, 1)] [.sspi] s.hw h))

/-- The commit word of Strand k as it stands in its entry. -/
def commitWord (h : Hw) (k : Nat) : Nat := h.load32 (entryAddr k + 0x5C)

/-- The strand cache is up, and it reads the entry of Strand k, which holds no memory error (R131, R397). -/
abbrev EntryReads (k : Nat) (h : Hw) : Prop :=
  h.cacheUp = true ∧ ∀ i, i < 12 → h.mpuOk .fabric (entryAddr k + 8 * i) false = true ∧ h.eccAt (entryAddr k + 8 * i) = 0

/-- The navigation controller reads and writes the entry of Strand k, which holds no memory error (R43, R396). -/
abbrev EntryOpen (k : Nat) (h : Hw) : Prop :=
  (∀ i, i < 16 → h.access .nav (entryAddr k + 8 * i) 8 false = .ok ∧ h.eccAt (entryAddr k + 8 * i) = 0) ∧
  h.access .nav (entryAddr k + 0x5C) 4 true = .ok

/-- No byte outside the result region of the entry of Strand k changes, and no other Strand. -/
def OnlyEntry (k : Nat) (h h' : Hw) : Prop :=
  (∀ a, a < entryAddr k + 0x60 ∨ entryAddr k + 0x100 ≤ a → h'.byte a = h.byte a) ∧ (∀ j, j ≠ k → h'.strand j = h.strand j)

/-- The commit protocol (R126, R129, R131 to R135, R137, R139, R141, R143, R156). -/
def Obligations.Commits : Prop :=
  (∀ (s : State) (v : BitVec 32), Completes (.fabFlush v) s fun h =>
    if s.hw.fab.bells.length < 8 then
      h = { s.hw with fab := { s.hw.fab with bells := s.hw.fab.bells ++ [if v.toNat.testBit 31 then none else some (v.toNat % 512)] } }
    else Changes [(FAB_CMTSTAT_DBOVF, 1)] [] s.hw h) ∧
  (∀ s : State, s.hw.fab.bells = [] → Completes .doorbellServed s fun h => h = s.hw) ∧
  (∀ (s : State) (k : Nat) (rest : List (Option Nat)), s.hw.fab.bells = some k :: rest →
    EntryReads k s.hw → (commitWord s.hw k % 65536 = (s.hw.strand k).appliedGen ∨ (s.hw.strand k).refusedGen = some (commitWord s.hw k % 65536)) →
    Completes .doorbellServed s fun h => h = { s.hw with fab := { s.hw.fab with bells := rest } }) ∧
  (∀ (s : State) (k : Nat) (rest : List (Option Nat)), s.hw.fab.bells = some k :: rest → EntryReads k s.hw →
    commitWord s.hw k % 65536 ≠ (s.hw.strand k).appliedGen → (s.hw.strand k).refusedGen ≠ some (commitWord s.hw k % 65536) →
    (let t := s.hw.strand k
     let b := s.hw.loadWords (entryAddr k) 23
     let code := s.hw.checkBody k b none
     let bad := crc16 (s.hw.loadBytes (entryAddr k) 92) ≠ commitWord s.hw k / 65536
     (bad → Completes .doorbellServed s fun h =>
       h.strand k = { t with torn := true, tornN := min 65535 (t.tornN + 1), intSeq := (t.intSeq + 1) % 65536 } ∧
       h.rf FAB_CMTSTAT_TORN_ANY = 1 ∧ h.fab.bells = rest ∧ OnlyEntry k s.hw h ∧ Touches [.regs, .mem, .ecc, .elogQ, .strands, .fab] s.hw h) ∧
     (¬ bad → code ≠ 0 → t.staged ≠ some (b, commitWord s.hw k % 65536) → Completes .doorbellServed s fun h =>
       h.strand k = { t with
         refusedGen := some (commitWord s.hw k % 65536), status := code, refusedN := min 65535 (t.refusedN + 1), intSeq := (t.intSeq + 1) % 65536 } ∧
       h.rf FAB_CMTSTAT_REFUSED_ANY = 1 ∧ h.fab.bells = rest ∧ OnlyEntry k s.hw h ∧ Touches [.regs, .mem, .ecc, .elogQ, .strands, .fab] s.hw h) ∧
     (¬ bad → code = 0 → bodyEn b = true → Completes .doorbellServed s fun h =>
       (h.strand k).staged = some (b, commitWord s.hw k % 65536) ∧ (h.strand k).state = t.state ∧ (h.strand k).body = t.body ∧
       (h.strand k).appliedGen = t.appliedGen ∧ h.fab.bells = rest ∧ (∀ j, j ≠ k → h.strand j = s.hw.strand j) ∧
       Touches [.strands, .fab, .loop] s.hw h))) ∧
  (∀ s : State, s.hw.fab.bells = [] → (∀ k, k < 512 → EntryReads k s.hw ∧ commitWord s.hw k % 65536 = (s.hw.strand k).appliedGen) →
    Completes .strandScan s (Changes [(FAB_CMTSTAT_SCAN_SEQ, s.hw.rf FAB_CMTSTAT_SCAN_SEQ + 1)] [] s.hw)) ∧
  (∀ (s : State) (link : Fin 10) (k : Fin 512) (bell : Bool), s.hw.fwUp = true → 1 ≤ s.hw.linkRole link.val → EntryOpen k s.hw →
    Completes (.strandCommitObject link k bell) s fun h =>
    commitWord h k / 65536 = crc16 (s.hw.loadBytes (entryAddr k) 92) ∧ commitWord h k % 65536 ≠ s.hw.genBefore k ∧ h.genBefore k = commitWord h k % 65536 ∧
    commitWord h k % 65536 ≠ s.hw.load32 (entryAddr k + 0x7C) % 65536 ∧
    (∀ a, a < entryAddr k + 0x5C ∨ entryAddr k + 0x60 ≤ a → h.byte a = s.hw.byte a) ∧
    (if bell = true ∧ s.hw.fab.bells.length < 8 then h.fab.bells = s.hw.fab.bells ++ [some k.val] ∧ h.regs = s.hw.regs
     else h.fab = s.hw.fab ∧ Changes (if bell then [(FAB_CMTSTAT_DBOVF, 1)] else []) [.mem, .ecc, .free, .resp, .fw] s.hw h) ∧
    h.resp = .okay ∧ Touches [.regs, .mem, .ecc, .free, .resp, .fab, .fw] s.hw h) ∧
  (∀ (s : State) (k : Fin 512), (s.hw.strand k).staged = none → Completes (.stagedBodyApply k) s fun h => h = s.hw) ∧
  (∀ (s : State) (k : Fin 512) (b : List Nat) (gen : Nat), (s.hw.strand k).staged = some (b, gen) → (s.hw.strand k).state = .idle →
    bodyEn b = true → 1 ≤ bodyMode b → bodyMode b ≤ 4 → s.hw.portState (bodyPort b) = portRun →
    nextBlock (s.hw.strand k).stagedAt ≤ s.hw.ringCount (bodyPort b) →
    s.hw.ringCount (bodyPort b) < nextBlock (s.hw.strand k).stagedAt + 2048 → Completes (.stagedBodyApply k) s fun h =>
      (h.strand k).state = (if bodyMode b = 1 then .search else .pullIn) ∧ (h.strand k).body = b ∧ (h.strand k).staged = none ∧
      (h.strand k).appliedGen = gen ∧ (h.strand k).status = 0 ∧ (h.strand k).torn = false ∧ (h.strand k).faulted = false ∧
      (h.strand k).codeRate = bodyCode b ∧ (h.strand k).carrRate = bodyCarr b ∧
      Touches [.regs, .mem, .ecc, .free, .elogQ, .ports, .strands, .fab, .loop] s.hw h)

/-- No tranche is in use, and every open integration waits for its next ring block: nothing can be created (R176, R177). -/
def Settled (h : Hw) : Prop :=
  h.fab.tranches = [] ∧ ∀ k, (h.strand k).open_ = true → (h.strand k).starved = false ∧ ∀ nb, (h.strand k).boundary? = some nb →
    (h.strand k).nextItem < nb ∧ (h.port (bodyPort (h.strand k).body)).nextTag ≤ (h.strand k).nextItem / 2048

/-- The item has starved (R184): it is counted against its Strand and in FAB_TALLY0, and its Strand has no open integration that it could fail. -/
def Starves (it : Item) (h h' : Hw) : Prop :=
  h'.strand it.strand = { h.strand it.strand with starvedN := min 65535 ((h.strand it.strand).starvedN + 1) } ∧
  (∀ k, k ≠ it.strand → h'.strand k = h.strand k) ∧
  Changes [(FAB_TALLY0_STARVED, min 65535 (h.rf FAB_TALLY0_STARVED + 1))] [.strands, .fab] h h'

/-- Work items on their way through the engines (R160, R166, R167, R178, R183, R184, R189 to R191, R196, R197). -/
def Obligations.WorkItems : Prop :=
  (∀ s : State, Settled s.hw → s.hw.fab.issue = [] → Completes .dispatchToDeque s fun h => h = s.hw) ∧
  (∀ (s : State) (it : Item) (rest : List Item) (e : Nat), Settled s.hw → s.hw.fab.issue = it :: rest → s.hw.home it.strand = some e →
    s.hw.pastDeadline it = false → Completes .dispatchToDeque s fun h =>
      if (s.hw.engine e).deque.length < 16 then
        h.fab.issue = rest ∧ h.engine e = { s.hw.engine e with deque := dequeInsert it (s.hw.engine e).deque } ∧
        (∀ f, f ≠ e → h.engine f = s.hw.engine f) ∧ Touches [.fab] s.hw h
      else h = s.hw) ∧
  (∀ (s : State) (e : Fin 32), Settled s.hw → (s.hw.engLive e = false ∨ (s.hw.engine e).cur ≠ none ∨ (s.hw.engine e).rest = true) →
    Completes (.engineTake e) s fun h => h = s.hw) ∧
  (∀ (s : State) (e : Fin 32) (it : Item), Settled s.hw → s.hw.engLive e = true → (s.hw.engine e).cur = none → (s.hw.engine e).rest = false →
    (s.hw.engine e).deque.find? s.hw.gate = some it → s.hw.pastDeadline it = false → Completes (.engineTake e) s fun h =>
      h.engine e = { s.hw.engine e with cur := some it, deque := removeItem it (s.hw.engine e).deque } ∧
      (∀ f, f ≠ e.val → h.engine f = s.hw.engine f) ∧ Touches [.fab] s.hw h) ∧
  (∀ (s : State) (e : Fin 32) (it : Item), Settled s.hw → s.hw.engLive e = true → (s.hw.engine e).cur = none → (s.hw.engine e).rest = false →
    (s.hw.engine e).deque.find? s.hw.gate = some it → s.hw.pastDeadline it = true → it.kind = .track → (s.hw.strand it.strand).open_ = false →
    Completes (.engineTake e) s fun h => Starves it s.hw h ∧ h.engine e = { s.hw.engine e with deque := removeItem it (s.hw.engine e).deque }) ∧
  (∀ (s : State) (e : Fin 32), Settled s.hw → s.hw.engLive e = true → (s.hw.engine e).cur = none → (s.hw.engine e).rest = false → (s.hw.engine e).deque = [] →
    s.hw.on FAB_CTRL_STEAL_EN = false → Completes (.engineTake e) s fun h => h = s.hw) ∧
  (∀ (s : State) (e : Fin 32) (v : Nat) (it : Item), Settled s.hw → s.hw.engLive e = true → (s.hw.engine e).cur = none → (s.hw.engine e).rest = false →
    (s.hw.engine e).deque = [] → s.hw.on FAB_CTRL_STEAL_EN = true → s.hw.chooseVictim e = some v → v ≠ e.val →
    (s.hw.engine v).deque.getLast? = some it → s.hw.gate it = true → s.hw.pastDeadline it = false → Completes (.engineTake e) s fun h =>
      h.engine e = { s.hw.engine e with cur := some it } ∧
      h.engine v = { s.hw.engine v with deque := removeItem it (s.hw.engine v).deque } ∧
      (∀ f, f ≠ e.val → f ≠ v → h.engine f = s.hw.engine f) ∧
      Changes [if v / 8 = e.val / 8 then (FAB_STEALS_LOCAL, min 65535 (s.hw.rf FAB_STEALS_LOCAL + 1))
          else (FAB_STEALS_CROSS, min 65535 (s.hw.rf FAB_STEALS_CROSS + 1)),
        (FAB_ENGSTAT_THEFTS e, min 65535 (s.hw.rf (FAB_ENGSTAT_THEFTS e) + 1))] [.fab] s.hw h) ∧
  (∀ (s : State) (e : Fin 32), Settled s.hw → ((s.hw.engine e).cur = none ∨ 32 ≤ (s.hw.engine e).slots.length) → Completes (.itemComplete e) s fun h => h = s.hw) ∧
  (∀ (s : State) (e : Fin 32) (it : Item), Settled s.hw → (s.hw.engine e).cur = some it → (s.hw.engine e).slots.length < 32 → it.kind = .track →
    (∀ a ∈ s.hw.itemWords it, s.hw.mpuOk .fabric a false = true ∧ s.hw.eccAt a = 0) → Completes (.itemComplete e) s fun h =>
      h.engine e = { s.hw.engine e with cur := none, slots := (s.hw.engine e).slots ++ [⟨it, s.hw.fab.order, (s.hw.engine e).freeSlot, s.hw.trackSums it⟩] } ∧
      h.fab.order = s.hw.fab.order + 1 ∧ (∀ f, f ≠ e.val → h.engine f = s.hw.engine f) ∧
      (∀ a, a / 8 * 8 ∉ slotWords e (s.hw.engine e).freeSlot → h.eccAt a = s.hw.eccAt a) ∧ Touches [.ecc, .fab] s.hw h) ∧
  (∀ (s : State) (c : Fin 4), Settled s.hw → (∀ i, i < 8 → (s.hw.engine (8 * c.val + i)).slots = []) → Completes (.gather c) s fun h => h = s.hw) ∧
  (∀ (s : State) (c : Fin 4) (e : Nat) (sl : Slot), Settled s.hw → s.hw.oldestSlot c = some (e, sl) → sl.item.kind = .track →
    (∀ a ∈ slotWords e sl.place, s.hw.eccAt a = 0) → (s.hw.strand sl.item.strand).open_ = true → (s.hw.strand sl.item.strand).iseq = sl.item.iseq → (s.hw.strand sl.item.strand).starved = false →
    2 ≤ (s.hw.strand sl.item.strand).items → Completes (.gather c) s fun h =>
      h.strand sl.item.strand = { s.hw.strand sl.item.strand with
        items := (s.hw.strand sl.item.strand).items - 1, sums := addSums (s.hw.strand sl.item.strand).sums sl.sums } ∧
      (∀ k, k ≠ sl.item.strand → h.strand k = s.hw.strand k) ∧ h.engine e = { s.hw.engine e with slots := (s.hw.engine e).slots.drop 1 } ∧
      (∀ f, f ≠ e → h.engine f = s.hw.engine f) ∧ Touches [.strands, .fab] s.hw h) ∧
  (∀ s : State, Settled s.hw → (∀ it ∈ s.hw.fab.issue, s.hw.pastDeadline it = false) →
    (∀ e ∈ s.hw.fab.engines, ∀ it ∈ e.2.deque, s.hw.pastDeadline it = false) → Completes .reaperSweep s fun h => h = s.hw) ∧
  (∀ (s : State) (it : Item), Settled s.hw → s.hw.fab.issue = [it] → s.hw.fab.engines = [] → s.hw.pastDeadline it = true → it.kind = .track →
    (s.hw.strand it.strand).open_ = false → Completes .reaperSweep s fun h => h.fab.issue = [] ∧ Starves it s.hw h)

/-- Tests of engines and the tranche table (R201, R203, R204, R207, R214 to R216). -/
def Obligations.EngineTestsAndTranches : Prop :=
  (∀ (s : State) (v : BitVec 32), v.toNat.testBit 8 = false → Completes (.engineTestStart v) s fun h => h.fab = s.hw.fab ∧
    h.rf FAB_TEST_ENGINE = v.toNat % 32 ∧ h.rf FAB_TEST_BUSY = s.hw.rf FAB_TEST_BUSY ∧ (∀ a, a ≠ FAB_TEST → h.reg a = s.hw.reg a) ∧ Touches [.regs] s.hw h) ∧
  (∀ (s : State) (v : BitVec 32), v.toNat.testBit 8 = true → Completes (.engineTestStart v) s fun h =>
    (if s.hw.engLive (v.toNat % 32) = true ∧ s.hw.fab.testing = none then
      (h.engine (v.toNat % 32)).rest = true ∧ h.fab.testing = some (v.toNat % 32, false) ∧ h.rf FAB_TEST_BUSY = 1
     else h.fab = s.hw.fab ∧ h.rf FAB_TEST_REFUSED = 1 ∧ h.rf FAB_TEST_BUSY = s.hw.rf FAB_TEST_BUSY) ∧
    h.rf FAB_TEST_ENGINE = v.toNat % 32 ∧ (∀ a, a ≠ FAB_TEST → h.reg a = s.hw.reg a) ∧
    (∀ e, e ≠ v.toNat % 32 → h.engine e = s.hw.engine e) ∧ Touches [.regs, .fab] s.hw h) ∧
  (∀ s : State, Completes .engineRestMarch s fun h => h = { s.hw with fab := { s.hw.fab with
    testing := match s.hw.fab.testing with
      | some (e, false) => some (e, decide ((s.hw.engine e).cur = none ∧ (s.hw.engine e).deque = []))
      | t => t } }) ∧
  (∀ (s : State) (pass : Bool), Settled s.hw → (∀ e, s.hw.fab.testing ≠ some (e, true)) → Completes (.engineTestComplete pass) s fun h => h = s.hw) ∧
  (∀ (s : State) (pass : Bool) (e : Nat), s.hw.fab.testing = some (e, true) → s.hw.strands = [] → s.hw.fab.tranches = [] → Completes (.engineTestComplete pass) s fun h =>
    h.engine e = { s.hw.engine e with rest := false } ∧ (∀ f, f ≠ e → h.engine f = s.hw.engine f) ∧ h.fab.testing = none ∧
    h.pwr = (if pass then s.hw.pwr else { s.hw.pwr with engRet := s.hw.pwr.engRet ||| 2 ^ e, engCause := s.hw.pwr.engCause ||| 2 ^ e }) ∧
    Changes [(FAB_TEST_PASS, if pass then 1 else 0), (FAB_TEST_DONE, 1), (FAB_TEST_BUSY, 0)] [.fab, .pwr] s.hw h) ∧
  (∀ s : State, (∀ t ∈ s.hw.strands, s.hw.wantsTranche t.2 = false) → Completes .trancheAllocate s fun h => h = s.hw) ∧
  (∀ (s : State) (k : Nat) (t : Strand), s.hw.strands = [(k, t)] → k < 512 → s.hw.fab.tranches = [] → t.state = .search → t.search.verify = none →
    t.search.done = false → t.search.inFlight = 0 → bodyDwell t.body = 1 → s.hw.rf FAB_CTRL_TRMAX ≤ 1 → Completes .trancheAllocate s fun h =>
      (∃ r, h.tranche 0 = some r ∧ r.strand = k ∧ r.bin = (let p := (t.search.binPos : Int); if p % 2 = 1 then (p + 1) / 2 else -(p / 2)) ∧
        r.opens = nextBlock (s.hw.ringCount (bodyPort t.body)) ∧ r.id = s.hw.fab.given ∧
        r.hyp0 = 2048 * t.search.tranche ∧ r.hyps = min 2048 (windowHyps t.body - 2048 * t.search.tranche) ∧ r.dwell = 1 ∧ r.start = none ∧
        r.verify = false ∧ r.snap = false) ∧
      (∀ i, i ≠ 0 → h.tranche i = none) ∧ (h.strand k).search.inFlight = 1 ∧ h.fab.lastTr = some k ∧ Touches [.strands, .fab] s.hw h) ∧
  (∀ (s : State) (i : Fin 64), (s.hw.tranche i = none ∨ ∃ r x, s.hw.tranche i = some r ∧ r.start = some x) →
    Completes (.trancheStart i) s fun h => h = s.hw) ∧
  (∀ (s : State) (i : Fin 64) (r : Tranche) (b : Nat), s.hw.tranche i = some r → r.start = none → r.snap = false → 0 < r.samples → 0 < r.dwell → 0 < r.hyps →
    r.created = 0 → b = bodyPort (s.hw.strand r.strand).body → (s.hw.port b).nextTag ≤ (r.opens + r.samples - 1) / 2048 →
    Completes (.trancheStart i) s fun h =>
      if r.opens ≤ s.hw.ringCount b then
        h.tranche i = some { r with start := some r.opens } ∧ (∀ j, j ≠ i.val → h.tranche j = s.hw.tranche j) ∧ Touches [.fab] s.hw h
      else h = s.hw)

/-- The integration of Strand k that has ended may be closed, its port runs without a gap at the boundary, and no body is staged. -/
def ClosesAt (h : Hw) (k : Nat) (e : Ended) : Prop :=
  h.closable k = some e ∧ (h.strand k).staged = none ∧ h.insideGap (bodyPort (h.strand k).body) e.nb = false ∧
    h.portState (bodyPort (h.strand k).body) = portRun

/-- The transitions at an integration boundary (R121, R125, R173, R174, R228, R229, R245, R246, R264, Table 3.6). -/
def Obligations.Boundaries : Prop :=
  (∀ (s : State) (k : Fin 512), Settled s.hw → ((s.hw.strand k).ended = none ∨ ∃ e, (s.hw.strand k).ended = some e ∧
      ((e.posted = true ∧ e.fault = false ∧ e.ret = none) ∨ s.hw.ringCount (bodyPort (s.hw.strand k).body) ≤ e.nb)) →
    Completes (.integrationClose k) s fun h => h = s.hw) ∧
  (∀ (s : State) (k : Fin 512) (e : Ended) (r : RetWords), ClosesAt s.hw k e → e.ret = some r → e.fault = false →
    (s.hw.strand k).state = .track → r.flags.testBit 2 = false → Completes (.integrationClose k) s fun h =>
      (h.strand k).state = .track ∧ (h.strand k).codeRate = (if r.flags.testBit 0 then r.code else (s.hw.strand k).codeRate) ∧
      (h.strand k).carrRate = (if r.flags.testBit 0 then r.carr else (s.hw.strand k).carrRate) ∧
      (h.strand k).cn0 = r.lock % 65536 ∧ (h.strand k).pli = r.lock / 65536 ∧ (h.strand k).lockC = r.flags.testBit 13 ∧
      (h.strand k).lockP = r.flags.testBit 14 ∧ (h.strand k).start = e.nb ∧ (h.strand k).iseq = ((s.hw.strand k).iseq + 1) % 65536 ∧
      (h.strand k).body = (s.hw.strand k).body ∧ Touches [.regs, .mem, .ecc, .free, .elogQ, .ports, .strands, .fab, .loop] s.hw h) ∧
  (∀ (s : State) (k : Fin 512) (e : Ended) (r : RetWords), ClosesAt s.hw k e → e.ret = some r → e.fault = false →
    (s.hw.strand k).state = .track → r.flags.testBit 2 = true → Completes (.integrationClose k) s fun h =>
      (h.strand k).state = .pullIn ∧ (h.strand k).status = (s.hw.strand k).status ∧
      Touches [.regs, .mem, .ecc, .free, .elogQ, .ports, .strands, .fab, .loop] s.hw h) ∧
  (∀ (s : State) (k : Fin 512) (e : Ended) (r : RetWords), ClosesAt s.hw k e → e.ret = some r → e.fault = false →
    (s.hw.strand k).state = .pullIn → r.flags.testBit 1 = true → Completes (.integrationClose k) s fun h =>
      (h.strand k).state = (if bodyMode (s.hw.strand k).body = 4 then .vector else .track) ∧ (h.strand k).status = (s.hw.strand k).status ∧
      Touches [.regs, .mem, .ecc, .free, .elogQ, .ports, .strands, .fab, .loop] s.hw h) ∧
  (∀ (s : State) (k : Fin 512) (e : Ended), s.hw.closable k = some e → (s.hw.strand k).staged = none → e.fault = true →
    Completes (.integrationClose k) s fun h => (h.strand k).state = .coast ∧ (h.strand k).faulted = true ∧
      (h.strand k).status = (s.hw.strand k).status ∧ Touches [.regs, .mem, .ecc, .free, .elogQ, .ports, .strands, .fab, .loop] s.hw h) ∧
  (∀ (s : State) (k : Fin 512), Settled s.hw → (s.hw.strand k).state ≠ .pullIn → Completes (.pullTmoExpiry k) s fun h => h = s.hw) ∧
  (∀ (s : State) (k : Fin 512) (e : Ended) (r : RetWords), ClosesAt s.hw k e → e.ret = some r → e.fault = false →
    (s.hw.strand k).state = .pullIn → r.flags.testBit 1 = false → s.hw.pullDone (s.hw.addTime (s.hw.strand k) e.nb) = true →
    Completes (.pullTmoExpiry k) s fun h =>
      (h.strand k).state = (if bodyDwell (s.hw.strand k).body = 0 then .idle else .search) ∧
      (h.strand k).status = (if bodyDwell (s.hw.strand k).body = 0 then 0x21 else (s.hw.strand k).status) ∧
      Touches [.regs, .mem, .ecc, .free, .elogQ, .ports, .strands, .fab, .loop] s.hw h) ∧
  (∀ (s : State) (k : Fin 512), Settled s.hw → (s.hw.strand k).state ≠ .coast → Completes (.coastMaxExpiry k) s fun h => h = s.hw) ∧
  (∀ (s : State) (k : Fin 512) (e : Ended) (r : RetWords), s.hw.closable k = some e → (s.hw.strand k).staged = none → e.ret = some r → e.fault = false →
    (s.hw.strand k).state = .coast → r.flags.testBit 1 = false → s.hw.coastDone (s.hw.addTime (s.hw.strand k) e.nb) = true →
    Completes (.coastMaxExpiry k) s fun h =>
      (let run := s.hw.portState (bodyPort (s.hw.strand k).body) = portRun
       ((s.hw.strand k).faulted = true → (h.strand k).state = .idle ∧ (h.strand k).status = 0x24) ∧
       ((s.hw.strand k).faulted = false → run → (h.strand k).state = .pullIn ∧ (h.strand k).status = (s.hw.strand k).status) ∧
       ((s.hw.strand k).faulted = false → ¬ run → (h.strand k).state = .idle ∧ (h.strand k).status = 0x22)) ∧
      Touches [.regs, .mem, .ecc, .free, .elogQ, .ports, .strands, .fab, .loop] s.hw h) ∧
  (∀ (s : State) (k : Fin 512), Settled s.hw → (s.hw.strand k).search.detect = none → Completes (.searchDetectEntry k) s fun h => h = s.hw) ∧
  (∀ (s : State) (k : Fin 512) (hyp code carr at_ : Nat), (s.hw.strand k).search.detect = some (hyp, code, carr, at_) →
    (s.hw.strand k).state = .search → (s.hw.strand k).staged = none → nextBlock at_ ≤ s.hw.ringCount (bodyPort (s.hw.strand k).body) →
    Completes (.searchDetectEntry k) s fun h =>
      (h.strand k).state = .pullIn ∧ (h.strand k).codeRate = code ∧ (h.strand k).carrRate = carr ∧ (h.strand k).start = nextBlock at_ ∧
      (h.strand k).replicaAt = nextBlock at_ ∧ (h.strand k).prim = 0 ∧ (h.strand k).status = (s.hw.strand k).status ∧
      Touches [.regs, .mem, .ecc, .free, .elogQ, .ports, .strands, .fab, .loop] s.hw h)

/-- Where the PC goes after an instruction that is no branch, and the repeat counter then (R373). -/
def successor (r : CoreRegs) : Nat × Option (Nat × Bool) :=
  match r.rep with
  | none => (r.pc + 1, none)
  | some (n, kind) => if n ≤ 1 then (r.pc + 1, none) else (r.pc, some (n - 1, kind))

/-- Core c is about to issue the legal instruction `i`, of operation code `op`, of the task `t` that it runs: no store of it waits, the program
word is accessible and free of errors, `i` and the word `next` lie in the slot, and `cost` stays within the cycle limit; no pre-emption is to take effect (R348, R353, R366,
R377, R387, R388). -/
structure Issues (h : Hw) (c : Fin 8) (op cost next : Nat) (t : Running) (i : Insn) : Prop where
  run : (h.core c).run = some t
  idle : (h.core c).retry = none
  stays : h.mustSave (h.core c) t = false
  free : h.unitTesting 6 = false ∧ h.rowLocked 6 (0x12800000 + 4 * t.regs.pc) = false
  intact : h.eccAt (0x12800000 + 4 * t.regs.pc) = 0
  word : i = insnOf (h.programWord t.regs.pc)
  code : i.op = op
  legal : i.legal = true
  limit : h.rf (LOOP_KSLOT_CFG_LIMIT t.task.slot) = 0 ∨ t.regs.cyc + cost ≤ 16 * h.rf (LOOP_KSLOT_CFG_LIMIT t.task.slot)
  slot : h.rf (LOOP_KSLOT_RANGE_BASE t.task.slot) ≤ next ∧
    next < h.rf (LOOP_KSLOT_RANGE_BASE t.task.slot) + h.rf (LOOP_KSLOT_RANGE_LEN t.task.slot)

/-- The operand word of `i` is `w`: an immediate, a local word of the area of the task, or a word of another space (R349 to R351, R363). -/
def OperandIs (h : Hw) (c : Fin 8) (t : Running) (i : Insn) (w : Nat) : Prop :=
  i.am = 6 ∨
  (i.am ≠ 6 ∧ i.sp = 0 ∧ i.ea t.area t.regs / 256 = t.area ∧ h.eccAt (localKey c (i.ea t.area t.regs)) = 0 ∧
    w = h.localWord c (i.ea t.area t.regs)) ∨
  (i.am ≠ 6 ∧ i.sp ≠ 0 ∧ h.access (.loop c) (spaceAddr i.sp i.aux (i.ea t.area t.regs)) 4 false = .ok ∧
    h.eccAt (spaceAddr i.sp i.aux (i.ea t.area t.regs)) = 0 ∧ w = h.load32 (spaceAddr i.sp i.aux (i.ea t.area t.regs)))

/-- The part with registers r of task t, which core c runs on from the successor of its instruction, and nothing else changed. -/
def retired (h : Hw) (c : Fin 8) (t : Running) (r : CoreRegs) (cost : Nat) : Hw :=
  h.setCore c { h.core c with run := some { t with regs :=
    { r with pc := (successor t.regs).1, rep := (successor t.regs).2, cyc := t.regs.cyc + cost } } }

/-- The command `ins`, which issues operation code `op` at a cost of `cost` cycles on core c, completes for every operand and leaves registers
of which `P` holds; `P` gets the registers with the index update, the instruction and the operand word. -/
def Computes (ins : Fin 8 → Instr) (op cost : Nat) (P : CoreRegs → Insn → Nat → CoreRegs → Prop) : Prop :=
  ∀ (s : State) (c : Fin 8) (t : Running) (i : Insn) (w : Nat), Issues s.hw c op cost (successor t.regs).1 t i → OperandIs s.hw c t i w →
    Completes (ins c) s fun h => ∃ r, P (i.update t.regs) i w r ∧ h = retired s.hw c t r cost

/-- The same for an instruction without an operand. -/
def Transforms (ins : Fin 8 → Instr) (op : Nat) (P : CoreRegs → Insn → CoreRegs → Prop) : Prop :=
  ∀ (s : State) (c : Fin 8) (t : Running) (i : Insn), Issues s.hw c op 1 (successor t.regs).1 t i →
    Completes (ins c) s fun h => ∃ r, P t.regs i r ∧ h = retired s.hw c t r 1

/-- SR from its five flags, its other bits as in `old` (Table 8.3). -/
def statusOf (old : Nat) (z n c ov sf : Bool) : Nat := b2n z + 2 * b2n n + 4 * b2n c + 8 * b2n ov + 16 * b2n sf + 32 * (old / 32)

/-- The A-result of an exact value v (R360); `cy` is the new C of an addition or subtraction. All registers but A and SR are kept. -/
def AResult (r : CoreRegs) (v : Int) (cy : Option Bool) (r' : CoreRegs) : Prop :=
  let outside := decide (v < -2 ^ 31 ∨ 2 ^ 31 - 1 < v)
  let sat := r.mr.testBit 0 && outside
  let wide := decide (v < -2 ^ 39 ∨ 2 ^ 39 - 1 < v)
  r' = { r with a := r'.a, sr := r'.sr } ∧ r'.a = BitVec.ofInt 40 (if sat then (if 0 < v then 2 ^ 31 - 1 else -2 ^ 31) else v) ∧
  r'.sr = statusOf r.sr (r'.a == 0) r'.a.msb (cy.getD (r.sr.testBit 2)) (r.sr.testBit 3 || (!sat && wide)) (r.sr.testBit 4 || sat)

/-- A 16-bit field, or the low 16 bits of a number, as a signed value. -/
def signed16 (n : Nat) : Int := (BitVec.ofNat 16 n).toInt

/-- Half H of the operand word. -/
def halfOf (i : Insn) (w : Nat) : Nat := (if i.h then w / 65536 else w) % 65536

/-- The immediate at its place (R362). -/
def immOf (i : Insn) : Int := if i.h then signed16 i.addr * 65536 else signed16 i.addr

/-- The operand of a word instruction, of one that takes a half at bits 31 to 16 (R359), and of a multiplication. -/
def wordOperand (i : Insn) (w : Nat) : Int := if i.am = 6 then immOf i else (BitVec.ofNat 32 w).toInt
def upperOperand (i : Insn) (w : Nat) : Int := if i.am = 6 then immOf i else signed16 (halfOf i w) * 65536
def factorOperand (i : Insn) (w : Nat) : Int := if i.am = 6 then signed16 i.addr else signed16 (halfOf i w)

/-- The carry out of bit 39 of A + v, and of A + NOT v + 1 (8.6). -/
def carryPlus (a : BitVec 40) (v : Int) : Bool := decide (2 ^ 40 ≤ a.toNat + (BitVec.ofInt 40 v).toNat)
def carryMinus (a : BitVec 40) (v : Int) : Bool := decide (2 ^ 40 ≤ a.toNat + (~~~ BitVec.ofInt 40 v).toNat + 1)

/-- Rounding of v / 2^(k+1) (Table 8.5). -/
def rounded (rnd : Nat) (v : Int) (k : Nat) : Int :=
  match rnd with
  | 0 => v / 2 ^ (k + 1)
  | 1 => (v + 2 ^ k) / 2 ^ (k + 1)
  | 2 => if v % 2 ^ (k + 1) = 2 ^ k then 2 * ((v / 2 ^ (k + 1) + 1) / 2) else (v + 2 ^ k) / 2 ^ (k + 1)
  | _ => if v < 0 then -((2 ^ k - v) / 2 ^ (k + 1)) else (v + 2 ^ k) / 2 ^ (k + 1)

/-- A × 2^count: exact to the left, rounded to the right. -/
def scaled (r : CoreRegs) (count : Int) : Int :=
  if 0 ≤ count then r.a.toInt * 2 ^ count.toNat else rounded (r.mr / 2 % 4) r.a.toInt (-count - 1).toNat

/-- The arithmetic instructions (Table 8.9, R359 to R362). -/
def Obligations.LoopArithmetic : Prop :=
  Computes .add 0x10 1 (fun r i w => AResult r (r.a.toInt + wordOperand i w) (some (carryPlus r.a (wordOperand i w)))) ∧
  Computes .addh 0x11 1 (fun r i w => AResult r (r.a.toInt + upperOperand i w) (some (carryPlus r.a (upperOperand i w)))) ∧
  Computes .sub 0x12 1 (fun r i w => AResult r (r.a.toInt - wordOperand i w) (some (carryMinus r.a (wordOperand i w)))) ∧
  Computes .subh 0x13 1 (fun r i w => AResult r (r.a.toInt - upperOperand i w) (some (carryMinus r.a (upperOperand i w)))) ∧
  Computes .mpy 0x14 1 (fun r i w => AResult r (2 * r.m.toInt * factorOperand i w) none) ∧
  Computes .mac 0x15 1 (fun r i w => AResult r (r.a.toInt + 2 * r.m.toInt * factorOperand i w) none) ∧
  Computes .msu 0x16 1 (fun r i w => AResult r (r.a.toInt - 2 * r.m.toInt * factorOperand i w) none) ∧
  Transforms .abs 0x1D (fun r _ => AResult r (if r.a.toInt < 0 then -r.a.toInt else r.a.toInt) none) ∧
  Transforms .neg 0x1E (fun r _ => AResult r (-r.a.toInt) none) ∧
  Transforms .ash 0x20 (fun r i => AResult r (scaled r (signed16 i.addr)) none) ∧
  Transforms .ashm 0x21 (fun r _ => AResult r (scaled r (if r.m.toInt < -40 then -40 else if 40 < r.m.toInt then 40 else r.m.toInt)) none)

/-- NORM (R369). -/
def Obligations.LoopNorm : Prop :=
  Transforms .norm 0x22 fun r _ r' =>
    (r.a = 0 → r' = { r with m := 0, sr := statusOf r.sr true false (r.sr.testBit 2) (r.sr.testBit 3) (r.sr.testBit 4) }) ∧
    (r.a ≠ 0 → ∃ k : Int, -8 ≤ k ∧ k ≤ 31 ∧
      (0 < r.a.toInt → 2 ^ 38 ≤ r.a.toInt * 2 ^ (k + 8).toNat ∧ r.a.toInt * 2 ^ (k + 8).toNat < 2 ^ 39) ∧
      (r.a.toInt < 0 → -2 ^ 39 ≤ r.a.toInt * 2 ^ (k + 8).toNat ∧ r.a.toInt * 2 ^ (k + 8).toNat < -2 ^ 38) ∧
      r'.a.toInt = r.a.toInt * 2 ^ (k + 8).toNat / 2 ^ 8 ∧ r'.m = BitVec.ofInt 16 k ∧
      r' = { r with a := r'.a, m := r'.m, sr := statusOf r.sr false (decide (r.a.toInt < 0)) (r.sr.testBit 2) (r.sr.testBit 3) (r.sr.testBit 4) })

/-- A takes the value v, with Z and N from it; no other flag changes. -/
def Loads (r : CoreRegs) (v : BitVec 40) (r' : CoreRegs) : Prop :=
  r' = { r with a := v, sr := statusOf r.sr (v == 0) v.msb (r.sr.testBit 2) (r.sr.testBit 3) (r.sr.testBit 4) }

/-- Bits 31 to 0 of A combined with the operand of a logic instruction (R362). -/
def Combines (op : BitVec 32 → BitVec 32 → BitVec 32) (r : CoreRegs) (i : Insn) (w : Nat) : CoreRegs → Prop :=
  Loads r ((op (r.a.setWidth 32) (BitVec.ofNat 32 (if i.am = 6 then (if i.h then 65536 * i.addr else i.addr) else w))).signExtend 40)

/-- Flags from the exact difference of A and v. -/
def Compares (r : CoreRegs) (v : Int) (r' : CoreRegs) : Prop :=
  r' = { r with sr := statusOf r.sr (r.a.toInt == v) (decide (r.a.toInt < v)) (carryMinus r.a v) (r.sr.testBit 3) (r.sr.testBit 4) }

/-- The register with code `code` (8.5) takes v. -/
def TakesRegister (r : CoreRegs) (code v : Nat) (r' : CoreRegs) : Prop :=
  (code = 0 → r' = { r with m := BitVec.ofNat 16 v }) ∧ (code = 1 → r' = { r with x := BitVec.ofNat 16 v }) ∧
  (code = 2 → r' = { r with y := BitVec.ofNat 16 v }) ∧ (code = 3 → r' = { r with rc := BitVec.ofNat 16 v }) ∧
  (code = 4 → r' = { r with sr := v % 32 }) ∧ (code = 5 → r' = { r with mr := v &&& 0xFFF7 })

/-- One iteration of the CORDIC of R370 with shift n and table entry `e`. -/
def cordicStep (v : Int × Int × Int) (n : Nat) (e : Int) : Int × Int × Int :=
  if v.2.1 ≥ 0 then (v.1 + v.2.1 >>> n, v.2.1 - v.1 >>> n, v.2.2 + e) else (v.1 - v.2.1 >>> n, v.2.1 + v.1 >>> n, v.2.2 - e)

/-- x and z after the 16 iterations of R370 on the complex word w. -/
def cordicOf (w : Nat) : Int × Int :=
  let p := signed16 w * 2 ^ 16
  let q := signed16 (w / 65536) * 2 ^ 16
  let v := (cordicTable.zip (List.range 16)).foldl (fun v e => cordicStep v e.2 e.1) (if p < 0 then (-p, -q, 2 ^ 31) else (p, q, 0))
  (v.1, v.2.2)

/-- The term that CMAC adds (R368). -/
def complexTerm (aux u v : Nat) : Int :=
  let p := signed16 u
  let q := signed16 (u / 65536)
  let x := signed16 v
  let y := if aux.testBit 1 then -signed16 (v / 65536) else signed16 (v / 65536)
  let part := if aux.testBit 0 then p * y + q * x else p * x - q * y
  if aux.testBit 2 then -2 * part else 2 * part

/-- The other instructions that change only registers (Table 8.9, R358, R362, R367, R368, R370). -/
def Obligations.LoopRegisters : Prop :=
  Computes .ld 0x01 1 (fun r i w => Loads r (BitVec.ofInt 40 (wordOperand i w))) ∧
  Computes .ldh 0x02 1 (fun r i w => Loads r (BitVec.ofInt 40 (upperOperand i w))) ∧
  Computes .ldg 0x03 1 (fun r i w => TakesRegister r i.aux (if i.am = 6 then i.addr else halfOf i w)) ∧
  Computes .cmp 0x18 1 (fun r i w => Compares r (wordOperand i w)) ∧
  Computes .cmph 0x19 1 (fun r i w => Compares r (upperOperand i w)) ∧
  Computes .and 0x1A 1 (Combines (· &&& ·)) ∧
  Computes .or 0x1B 1 (Combines (· ||| ·)) ∧
  Computes .xor 0x1C 1 (Combines (· ^^^ ·)) ∧
  Transforms .sat 0x1F (fun r _ r' =>
    let v := if r.a.toInt < -2 ^ 31 then -2 ^ 31 else if 2 ^ 31 - 1 < r.a.toInt then 2 ^ 31 - 1 else r.a.toInt
    r' = { r with
      a := BitVec.ofInt 40 v
      sr := statusOf r.sr (v == 0) (decide (v < 0)) (r.sr.testBit 2) (r.sr.testBit 3) (r.sr.testBit 4 || v != r.a.toInt) }) ∧
  Transforms .addg 0x23 (fun r i r' => TakesRegister r i.aux (r.get i.aux + i.addr) r') ∧
  Computes .atn 0x24 17 (fun r _ w => Loads r (if w % 2 ^ 32 = 0 then 0 else (BitVec.ofInt 32 (cordicOf w).2).signExtend 40)) ∧
  Computes .mag 0x25 17 (fun r _ w => Loads r (BitVec.ofInt 40 (((cordicOf w).1 * 19898 + 2 ^ 14) >>> 15))) ∧
  Transforms .nop 0x35 (fun r _ r' => r' = r) ∧
  (∀ (s : State) (c : Fin 8) (t : Running) (i : Insn), Issues s.hw c 0x17 1 (successor t.regs).1 t i →
    t.regs.x.toNat / 256 = t.area → s.hw.eccAt (localKey c t.regs.x.toNat) = 0 →
    t.regs.y.toNat / 256 = t.area → s.hw.eccAt (localKey c t.regs.y.toNat) = 0 →
    Completes (.cmac c) s fun h => ∃ r n, AResult t.regs (t.regs.a.toInt +
        complexTerm i.aux (s.hw.localWord c t.regs.x.toNat) (s.hw.localWord c t.regs.y.toNat)) none n ∧
      r = { n with
        x := t.regs.x + (BitVec.ofNat 8 i.addr).signExtend 16
        y := if i.am = 5 then circ t.regs.mod t.regs.y (BitVec.ofNat 8 (i.addr / 256)).toInt
          else t.regs.y + (BitVec.ofNat 8 (i.addr / 256)).signExtend 16 } ∧
      h = retired s.hw c t r 1)

/-- A store of n bytes (4, or 2 into half H) issued as operation code `op`; P gets the registers and the instruction and tells the value stored
and the registers after. -/
def Stores (ins : Fin 8 → Bool → Instr) (op n : Nat) (P : CoreRegs → Insn → Nat → CoreRegs → Prop) : Prop :=
  (∀ (s : State) (c : Fin 8) (hit : Bool) (t : Running) (i : Insn), Issues s.hw c op 1 (successor t.regs).1 t i → i.sp = 0 →
    i.ea t.area t.regs / 256 = t.area → s.hw.eccAt (localKey c (i.ea t.area t.regs)) = 0 →
    Completes (ins c hit) s fun h => ∃ v r, P t.regs i v r ∧
      (let old := s.hw.localWord c (i.ea t.area t.regs)
       h.localWord c (i.ea t.area t.regs) =
         if n = 4 then v else if i.h then old % 65536 + 65536 * (v % 65536) else old / 65536 * 65536 + v % 65536) ∧
      (∀ a, a ≠ i.ea t.area t.regs → h.localWord c a = s.hw.localWord c a) ∧
      h.core c = { (retired s.hw c t (i.update r) 1).core c with local_ := (h.core c).local_ } ∧
      (∀ k, k ≠ c.val → h.core k = s.hw.core k) ∧ Touches [.loop, .ecc] s.hw h) ∧
  (∀ (s : State) (c : Fin 8) (hit : Bool) (t : Running) (i : Insn) (b : Nat), Issues s.hw c op 1 (successor t.regs).1 t i → i.sp ≠ 0 →
    b = spaceAddr i.sp 0 (i.ea t.area t.regs) + (if n = 2 ∧ i.h = true then 2 else 0) → s.hw.access (.loop c) b n true = .ok →
    s.hw.eccAt b = 0 → (hit = true → i.sp ≠ 2) →
    Completes (ins c hit) s fun h => ∃ v r, P t.regs i v r ∧ h.holds b n (v % 2 ^ (8 * n)) ∧ (∀ a, (a < b ∨ b + n ≤ a) → h.byte a = s.hw.byte a) ∧
      h.loop = (retired s.hw c t (i.update r) 1).loop ∧ Touches [.mem, .ecc, .loop] s.hw h) ∧
  (∀ (s : State) (c : Fin 8) (t : Running) (i : Insn) (b : Nat), Issues s.hw c op 1 (successor t.regs).1 t i → i.sp = 2 →
    b = spaceAddr 2 0 (i.ea t.area t.regs) + (if n = 2 ∧ i.h = true then 2 else 0) → s.hw.access (.loop c) b n true = .ok →
    Completes (ins c true) s fun h => ∃ v r, P t.regs i v r ∧
      h.core c = { (retired s.hw c t (i.update r) 1).core c with retry := some (b, n, v, 1) } ∧ (∀ k, k ≠ c.val → h.core k = s.hw.core k) ∧
      h.rf FAB_CMTSTAT_COLLIDE_ANY = 1 ∧ h.resp = .collide ∧ Touches [.regs, .resp, .elogQ, .strands, .loop] s.hw h)

/-- The stores (Table 8.9, R350, R351, R353, R361). -/
def Obligations.LoopStores : Prop :=
  Stores .st 0x08 4 (fun r _ v r' =>
    let x := if r.a.toInt < -2 ^ 31 then -2 ^ 31 else if 2 ^ 31 - 1 < r.a.toInt then 2 ^ 31 - 1 else r.a.toInt
    v = (BitVec.ofInt 32 x).toNat ∧ r' = { r with sr := if x = r.a.toInt then r.sr else r.sr ||| 16 }) ∧
  Stores .sth 0x09 2 (fun r _ v r' =>
    let y := rounded (r.mr / 2 % 4) r.a.toInt 15
    let x := if y < -32768 then -32768 else if 32767 < y then 32767 else y
    v = (BitVec.ofInt 16 x).toNat ∧ r' = { r with sr := if x = y then r.sr else r.sr ||| 16 }) ∧
  Stores .sta 0x0A 4 (fun r _ v r' => v = (r.a.setWidth 32).toNat ∧ r' = r) ∧
  Stores .stg 0x0B 2 (fun r i v r' => v = r.get i.aux ∧ r' = r) ∧
  (∀ (s : State) (c : Fin 8) (hit : Bool), (s.hw.core c).retry = none → Completes (.storeRetry c hit) s fun h => h = s.hw) ∧
  (∀ (s : State) (c : Fin 8) (b n v k : Nat), (s.hw.core c).retry = some (b, n, v, k) → n = 2 ∨ n = 4 → isMram b = false →
    Completes (.storeRetry c false) s fun h => h.holds b n (v % 2 ^ (8 * n)) ∧ (∀ a, (a < b ∨ b + n ≤ a) → h.byte a = s.hw.byte a) ∧
      h.core c = { s.hw.core c with retry := none } ∧ (∀ k, k ≠ c.val → h.core k = s.hw.core k) ∧ Touches [.mem, .ecc, .loop] s.hw h) ∧
  (∀ (s : State) (c : Fin 8) (b n v k : Nat), (s.hw.core c).retry = some (b, n, v, k) → Completes (.storeRetry c true) s fun h =>
    h.core c = { s.hw.core c with retry := some (b, n, v, k + 1) } ∧ (∀ j, j ≠ c.val → h.core j = s.hw.core j) ∧ h.rf FAB_CMTSTAT_COLLIDE_ANY = 1 ∧
    h.resp = .collide ∧ Touches [.regs, .resp, .elogQ, .strands, .loop] s.hw h)

/-- The conditions of Table 8.8. -/
def taken (r : CoreRegs) (cond : Nat) : Bool :=
  let z := r.sr.testBit 0
  let n := r.sr.testBit 1
  let c := r.sr.testBit 2
  let v := r.sr.testBit 3
  let f := r.sr.testBit 4
  [true, z, !z, n, !n, !(n || z), n || z, c, !c, v, !v, f, !f, r.rc == 0, !(r.rc == 0)].getD cond false

/-- The part with core c going on from PC `pc` with return stack `stack`, after `cost` cycles. -/
def jumped (h : Hw) (c : Fin 8) (t : Running) (pc : Nat) (stack : List Nat) (cost : Nat) : Hw :=
  h.setCore c { h.core c with run := some { t with regs := { t.regs with pc := pc, stack := stack, cyc := t.regs.cyc + cost } } }

/-- COND and DISP of a branch word (Table 8.7), and the word it leads to. -/
def condOf (i : Insn) : Nat := i.word / 2 ^ 22 % 16
def leadsTo (i : Insn) (t : Running) (pc : Nat) : Prop :=
  pc < 16384 ∧ (pc : Int) = if taken t.regs (condOf i) then t.regs.pc + (BitVec.ofNat 14 i.word).toInt else t.regs.pc + 1

/-- The count of a repeat prefix (R372). -/
def countOf (r : CoreRegs) (i : Insn) : Nat := if i.word.testBit 16 then r.rc.toNat else i.word % 256 + 1

/-- A repeat prefix of kind `kind` (R372 to R376). -/
def Repeats (ins : Fin 8 → Instr) (op : Nat) (kind : Bool) : Prop :=
  ∀ (s : State) (c : Fin 8) (t : Running) (i : Insn) (cost : Nat), cost = (if countOf t.regs i = 0 then 2 else 1) →
    Issues s.hw c op cost (t.regs.pc + cost) t i → (insnOf (s.hw.programWord (t.regs.pc + 1))).op ∉ [0x30, 0x31, 0x32, 0x33, 0x34] →
    (kind = true → (insnOf (s.hw.programWord (t.regs.pc + 1))).op ∈ [0x03, 0x23] → (insnOf (s.hw.programWord (t.regs.pc + 1))).aux ≠ 3) →
    Completes (ins c) s fun h => h = s.hw.setCore c { s.hw.core c with run := some { t with regs := { t.regs with
      pc := t.regs.pc + cost
      rep := if countOf t.regs i = 0 then none else some (countOf t.regs i, kind)
      cyc := t.regs.cyc + cost } } }

/-- Branches, calls, returns and repeat prefixes (Table 8.9, R227, R355, R372, R373). -/
def Obligations.LoopControlFlow : Prop :=
  (∀ (s : State) (c : Fin 8) (t : Running) (i : Insn) (pc : Nat), leadsTo i t pc →
    Issues s.hw c 0x30 (if taken t.regs (condOf i) then 2 else 1) pc t i →
    Completes (.b c) s fun h => h = jumped s.hw c t pc t.regs.stack (if taken t.regs (condOf i) then 2 else 1)) ∧
  (∀ (s : State) (c : Fin 8) (t : Running) (i : Insn) (pc : Nat), leadsTo i t pc → t.regs.stack.length ≤ 7 →
    Issues s.hw c 0x31 (if taken t.regs (condOf i) then 2 else 1) pc t i →
    Completes (.call c) s fun h => h = jumped s.hw c t pc
      (if taken t.regs (condOf i) then (t.regs.pc + 1) :: t.regs.stack else t.regs.stack) (if taken t.regs (condOf i) then 2 else 1)) ∧
  (∀ (s : State) (c : Fin 8) (t : Running) (i : Insn) (pc : Nat) (rest : List Nat), taken t.regs (condOf i) = true → t.regs.stack = pc :: rest →
    Issues s.hw c 0x32 2 pc t i → Completes (.ret c) s fun h => h = jumped s.hw c t pc rest 2) ∧
  (∀ (s : State) (c : Fin 8) (t : Running) (i : Insn), taken t.regs (condOf i) = false →
    Issues s.hw c 0x32 1 (t.regs.pc + 1) t i → Completes (.ret c) s fun h => h = jumped s.hw c t (t.regs.pc + 1) t.regs.stack 1) ∧
  Repeats .rpt 0x33 false ∧ Repeats .rpti 0x34 true ∧
  (∀ (s : State) (c : Fin 8) (t : Running) (i : Insn) (e : Ended) (next : Nat), taken t.regs (condOf i) = true → t.regs.stack = [] →
    Issues s.hw c 0x32 2 next t i → t.task.kind = 0 → 4 ≤ t.task.slot → t.task.strand < 512 → t.task.dead = false →
    (s.hw.strand t.task.strand).ended = some e →
    Completes (.ret c) s fun h =>
      h.core c = { s.hw.core c with run := none, preempt := false } ∧ (∀ k, k ≠ c.val → h.core k = s.hw.core k) ∧
      (let w := fun k => s.hw.localWord c (256 * t.area + k)
       (h.strand t.task.strand).ended = some { e with
         ret := some ⟨w 0x60, w 0x61, w 0x62, w 0x63, w 0x64, w 0x65, w 0x66, w 0x67⟩
         unlock := !(w 0x60).testBit 14 } ∧
       ∀ k, k < 32 → h.load32 (0x12000000 + 128 * t.task.strand + 4 * k) = w (0x40 + k)) ∧
      h.rf (LOOP_CORESTAT_TASKS c) = satTo 65535 (s.hw.rf (LOOP_CORESTAT_TASKS c) + 1) ∧
      Touches [.regs, .mem, .ecc, .free, .elogQ, .strands, .loop] s.hw h)

/-- The instructions that are no branch and no repeat prefix, with a memory operand or not, and all loop-core instructions, with their
operation codes (Table 8.9). -/
def memoryForms : List ((Fin 8 → Instr) × Nat) :=
  [(.ld, 0x01), (.ldh, 0x02), (.ldg, 0x03), ((.st · false), 0x08), ((.sth · false), 0x09), ((.sta · false), 0x0A), ((.stg · false), 0x0B),
   (.add, 0x10), (.addh, 0x11), (.sub, 0x12), (.subh, 0x13), (.mpy, 0x14), (.mac, 0x15), (.msu, 0x16), (.cmp, 0x18), (.cmph, 0x19),
   (.and, 0x1A), (.or, 0x1B), (.xor, 0x1C), (.atn, 0x24), (.mag, 0x25)]
def straightForms : List ((Fin 8 → Instr) × Nat) :=
  memoryForms ++ [(.cmac, 0x17), (.abs, 0x1D), (.neg, 0x1E), (.sat, 0x1F), (.ash, 0x20), (.ashm, 0x21), (.norm, 0x22), (.addg, 0x23), (.nop, 0x35)]
def loopForms : List ((Fin 8 → Instr) × Nat) :=
  straightForms ++ [(.b, 0x30), (.call, 0x31), (.ret, 0x32), (.rpt, 0x33), (.rpti, 0x34)]

/-- Core c runs the tracking task `t`, no store of it waits, no pre-emption is to take effect, and its program word, which is
accessible, spells `i`. -/
def Fetches (h : Hw) (c : Fin 8) (t : Running) (i : Insn) : Prop :=
  (h.core c).run = some t ∧ (h.core c).retry = none ∧ h.mustSave (h.core c) t = false ∧ t.task.kind = 0 ∧ h.unitTesting 6 = false ∧
  h.rowLocked 6 (0x12800000 + 4 * t.regs.pc) = false ∧ i = insnOf (h.programWord t.regs.pc)

/-- Cycles of an instruction that is no branch. -/
def straightCost (op : Nat) : Nat := if op = 0x24 ∨ op = 0x25 then 17 else 1

/-- The task `t` of core c ends in a fault with this cause, address, space and direction (R229, R380, R383). -/
structure FaultEnds (c : Fin 8) (t : Running) (cause ea sp : Nat) (write : Bool) (h h' : Hw) : Prop where
  counted : h'.rf LOOP_TALLY1_FAULTS = satTo 65535 (h.rf LOOP_TALLY1_FAULTS + 1)
  captured : h.rf LOOP_FAULT_VALID = 0 →
    [LOOP_FAULT_STRAND, LOOP_FAULT_KSLOT, LOOP_FAULT_CORE, LOOP_FAULT_CAUSE, LOOP_FAULT_VALID, LOOP_FAULTPC_PC, LOOP_FAULTCTX_ADDR,
      LOOP_FAULTCTX_REMAIN, LOOP_FAULTINFO_SP, LOOP_FAULTINFO_WRITE, LOOP_FAULTINFO_REP, LOOP_FAULTINFO_RPTI, LOOP_FAULTINFO_AREA,
      LOOP_FAULTINFO_CYC].map h'.rf =
    [t.task.strand % 512, t.task.slot % 16, c.val, cause, 1, t.regs.pc % 16384, ea % 65536, (t.regs.rep.elim 0 (·.1)) % 65536, sp % 4, b2n write,
      b2n t.regs.rep.isSome, b2n (t.regs.rep.elim false (·.2)), t.area % 8, satTo 16777215 t.regs.cyc]
  kept : h.rf LOOP_FAULT_VALID = 1 → ∀ a ∈ [LOOP_FAULT, LOOP_FAULTPC, LOOP_FAULTCTX, LOOP_FAULTINFO], h'.reg a = h.reg a
  core : h'.core c = { h.core c with run := none, preempt := false } ∧ ∀ k, k ≠ c.val → h'.core k = h.core k
  strand : h'.strand t.task.strand = (if t.task.dead then h.strand t.task.strand else
    { h.strand t.task.strand with ended := (h.strand t.task.strand).ended.map ({ · with fault := true }) })
  others : ∀ k, k ≠ t.task.strand → h'.strand k = h.strand k
  bytes : ∀ a, h'.byte a = h.byte a
  rest : Touches [.regs, .elogQ, .strands, .loop] h h'

/-- Kernel faults (R229, R350, R366, R380 to R383, R387, R388). -/
def Obligations.LoopFaults : Prop :=
  (∀ p ∈ loopForms, ∀ (s : State) (c : Fin 8) (t : Running) (i : Insn), Fetches s.hw c t i →
    s.hw.eccAt (0x12800000 + 4 * t.regs.pc) = 2 → Completes (p.1 c) s (FaultEnds c t 7 0 0 false s.hw)) ∧
  (∀ p ∈ loopForms, ∀ (s : State) (c : Fin 8) (t : Running) (i : Insn), Fetches s.hw c t i →
    s.hw.eccAt (0x12800000 + 4 * t.regs.pc) = 0 → i.op = p.2 → i.legal = false → Completes (p.1 c) s (FaultEnds c t 1 0 0 false s.hw)) ∧
  (∀ p ∈ loopForms, ∀ (s : State) (c : Fin 8) (t : Running) (i : Insn), Fetches s.hw c t i →
    s.hw.eccAt (0x12800000 + 4 * t.regs.pc) = 0 → i.op ∉ loopForms.map (·.2) → Completes (p.1 c) s (FaultEnds c t 1 0 0 false s.hw)) ∧
  (∀ p ∈ straightForms, ∀ (s : State) (c : Fin 8) (t : Running) (i : Insn) (l : Nat), Fetches s.hw c t i →
    s.hw.eccAt (0x12800000 + 4 * t.regs.pc) = 0 → i.op = p.2 → i.legal = true → l = s.hw.rf (LOOP_KSLOT_CFG_LIMIT t.task.slot) → l ≠ 0 →
    16 * l < t.regs.cyc + straightCost p.2 → Completes (p.1 c) s (FaultEnds c t 9 0 0 false s.hw)) ∧
  (∀ p ∈ straightForms, ∀ (s : State) (c : Fin 8) (t : Running) (i : Insn) (l : Nat), Fetches s.hw c t i →
    s.hw.eccAt (0x12800000 + 4 * t.regs.pc) = 0 → i.op = p.2 → i.legal = true → l = s.hw.rf (LOOP_KSLOT_CFG_LIMIT t.task.slot) →
    (l = 0 ∨ t.regs.cyc + straightCost p.2 ≤ 16 * l) →
    ((successor t.regs).1 < s.hw.rf (LOOP_KSLOT_RANGE_BASE t.task.slot) ∨
      s.hw.rf (LOOP_KSLOT_RANGE_BASE t.task.slot) + s.hw.rf (LOOP_KSLOT_RANGE_LEN t.task.slot) ≤ (successor t.regs).1) →
    Completes (p.1 c) s (FaultEnds c t 6 0 0 false s.hw)) ∧
  (∀ p ∈ memoryForms, ∀ (s : State) (c : Fin 8) (t : Running) (i : Insn), Issues s.hw c p.2 (straightCost p.2) (successor t.regs).1 t i →
    t.task.kind = 0 → i.am ≠ 6 → i.sp = 0 → i.ea t.area t.regs / 256 ≠ t.area →
    Completes (p.1 c) s (FaultEnds c t 3 (i.ea t.area t.regs) 0 (decide (p.2 / 4 = 2)) s.hw))

/-- The dispatcher reads the state block of Strand k, which holds no memory error (R397). -/
abbrev BlockReads (k : Nat) (h : Hw) : Prop := ∀ i, i < 16 → h.mpuOk .fabric (stateBlock k + 8 * i) false = true ∧ h.eccAt (stateBlock k + 8 * i) = 0

/-- The dispatcher and pre-emption (R219, R222, R224, R225, R354, R377 to R379, Table 5.1). -/
def Obligations.LoopDispatch : Prop :=
  (∀ (s : State) (c : Fin 8), ((s.hw.core c).run ≠ none ∨ s.hw.coreLive c = false ∨ ((s.hw.core c).saved = [] ∧ s.hw.loop.ready = [])) →
    Completes (.loopTaskDispatch c) s fun h => h = s.hw) ∧
  (∀ (s : State) (c : Fin 8) (k : LoopTask), (s.hw.core c).run = none → s.hw.coreLive c = true → (s.hw.core c).saved = [] →
    s.hw.loop.ready = [k] → s.hw.strandBusy k.strand = false → BlockReads k.strand s.hw →
    Completes (.loopTaskDispatch c) s fun h =>
      h.core c = { s.hw.core c with
        run := some ⟨k, 0, ⟨0, 0, 0, 0, 0, 2, 0, s.hw.rf (LOOP_KSLOT_RANGE_BASE k.slot), none, [], 0⟩⟩
        preempt := false
        local_ := (h.core c).local_ } ∧
      [0, 1, 2, 3, 4, 5, 6, 7, 8, 9].map (h.localWord c ·) =
        [k.word0, k.iseq, k.nb, k.samples, k.rates.1, k.rates.2, k.phi, k.phi / 2 ^ 32, k.carrPh, k.carrPh / 2 ^ 32].map (· % 2 ^ 32) ∧
      (∀ a, 0x60 ≤ a → a < 0x70 → h.localWord c a = 0) ∧ (∀ a, 0x70 ≤ a → h.localWord c a = s.hw.localWord c a) ∧
      h.loop.ready = [] ∧ (∀ j, j ≠ c.val → h.core j = s.hw.core j) ∧ Touches [.ecc, .strands, .loop] s.hw h) ∧
  (∀ (s : State) (c : Fin 8) (r : Running), (s.hw.core c).run = none → s.hw.coreLive c = true → (s.hw.core c).saved = [r] →
    s.hw.loop.ready = [] → Completes (.loopTaskDispatch c) s fun h =>
      h = s.hw.setCore c { s.hw.core c with run := some r, saved := [], preempt := false }) ∧
  (∀ (s : State) (c : Fin 8) (r : Running), (s.hw.core c).run = some r → (s.hw.core c).preempt = true → (s.hw.core c).retry = none →
    (s.hw.core c).saved.length ≤ 6 →
    (r.regs.rep = none ∨ ∃ n, r.regs.rep = some (n, true) ∧ n < countOf r.regs (insnOf (s.hw.programWord (r.regs.pc - 1)))) →
    Completes (.preemptSave c) s fun h =>
      h.core c = { s.hw.core c with run := none, saved := (s.hw.core c).saved ++ [r], preempt := false } ∧
      (∀ j, j ≠ c.val → h.core j = s.hw.core j) ∧
      Changes [(LOOP_TALLY0_PREEMPT, satTo 65535 (s.hw.rf LOOP_TALLY0_PREEMPT + 1))] [.loop] s.hw h) ∧
  (∀ (s : State) (c : Fin 8), ((s.hw.core c).run = none ∨ (s.hw.core c).preempt = false ∨ (s.hw.core c).retry ≠ none ∨
      (∃ r n, (s.hw.core c).run = some r ∧ r.regs.rep = some (n, false)) ∨
      (∃ r n, (s.hw.core c).run = some r ∧ r.regs.rep = some (n, true) ∧ countOf r.regs (insnOf (s.hw.programWord (r.regs.pc - 1))) ≤ n)) →
    Completes (.preemptSave c) s fun h => h = s.hw)

/-- TCNT has reached t at least (assumption log 24), and nothing else of the part has changed. -/
def atLeast (h : Hw) (t : Nat) : Nat := max h.tcnt (t % 2 ^ 64)

/-- Label and edge of the last pulse output, this edge's included (R315, R318). -/
def lastPulse (h : Hw) : Option (Nat × Nat) :=
  if h.on TP_CFG_EN = true ∧ (h.rf TP_STAT_TSTATE = 0 → h.on TP_CFG_FREE_ACT = false) then some (h.rf TP_LABEL_LABEL, h.tp.edge) else h.tp.lastOut

/-- What an edge update puts on TP (R307, R309, R315), before E and the label move. -/
def PulseOut (h h' : Hw) : Prop :=
  if h.on TP_CFG_EN = true ∧ (h.rf TP_STAT_TSTATE = 0 → h.on TP_CFG_FREE_ACT = false) then
    h'.tp.active = true ∧ h'.tp.fine = h.tp.edge / 2 ^ 26 % 64 ∧ h'.tp.offAt = some (h.tp.edge / 2 ^ 32 + h.tpWidth) ∧
      h'.tp.pulse = (h.rf TP_LABEL_LABEL, h.rf TP_STAT_TSTATE, h.rf TP_UNC_UNC, h.tp.stepNext) ∧ h'.tp.lastOut = lastPulse h
  else h'.tp.active = h.tp.active ∧ h'.tp.fine = h.tp.fine ∧ h'.tp.offAt = h.tp.offAt ∧ h'.tp.pulse = h.tp.pulse ∧
    h'.tp.lastOut = h.tp.lastOut

/-- The registers and E after the ordinary update (R307, R310 to R312), with `fs` written before it. -/
def Advances (fs : List (Fld × Nat)) (h h' : Hw) : Prop :=
  let q := (BitVec.ofNat 32 (h.rf TP_SLEW_Q)).toInt
  let m : Int := if h.rf TP_LIM_SLEW_MAX < 629 then h.rf TP_LIM_SLEW_MAX else 629
  let c : Int := if q < -m then -m else if m < q then m else q
  let e := ((h.tp.edge : Int) + (h.rf TP_PER_I_PER * 2 ^ 32 + h.rf TP_PER_F_PER : Nat) + c * 2 ^ 26).toNat % 2 ^ 96
  h'.tp.edge = e ∧
  Changes ([(TP_LABEL_LABEL, h.rf TP_LABEL_LABEL + 1), (TP_NEXT_LO_E, e / 2 ^ 32), (TP_NEXT_HI_E, e / 2 ^ 64), (TP_NEXT_F_E, e),
    (TP_SLEW_Q, (BitVec.ofInt 32 (q - c)).toNat), (TP_STAT_SLEWING, b2n (decide (q ≠ c)))] ++ fs) [.tp, .tcnt] h h'

/-- The stepped edge and its label (R318). -/
def stepEdge (h : Hw) : Nat := h.rf TP_STEP_HI_E * 2 ^ 64 + h.rf TP_STEP_LO_E * 2 ^ 32 + h.rf TP_STEP_F_E

/-- HOLDOVER entered at TCNT `t` (R313, R314). -/
def Holds (t : Nat) (h h' : Hw) : Prop :=
  h'.tcnt = t ∧ h'.tp = { h.tp with holdFrom := t, ticks := 0, rate := h.rf TP_UNCRATE_F } ∧ Changes [(TP_STAT_TSTATE, 2)] [.tp, .tcnt] h h'

/-- The time pulse and the time mark (R306 to R315, R318, R320 to R322, R781, Table 6.3). -/
def Obligations.TimePulse : Prop :=
  (∀ s : State, Completes .tcntLoRead s fun h => h.resp = .data (s.hw.tcnt % 2 ^ 32) ∧
    Changes [(TCNT_LO_T, s.hw.tcnt % 2 ^ 32), (TCNT_HI_T, s.hw.tcnt / 2 ^ 32)] [.resp] s.hw h) ∧
  (∀ s : State, s.hw.on TP_CMD_STEP_GO = false → Completes .tpEdgeUpdate s fun h =>
    h.tcnt = atLeast s.hw (s.hw.tp.edge / 2 ^ 32) ∧ PulseOut s.hw h ∧ Advances [] s.hw h) ∧
  (∀ s : State, s.hw.on TP_CMD_STEP_GO = true →
    (∀ p, lastPulse s.hw = some p → p.1 < s.hw.rf TP_STEPLBL_LABEL ∧ p.2 < stepEdge s.hw) →
    Completes .tpEdgeUpdate s fun h => h.tcnt = atLeast s.hw (s.hw.tp.edge / 2 ^ 32) ∧ PulseOut s.hw h ∧ h.tp.edge = stepEdge s.hw ∧
      h.tp.stepNext = true ∧
      Changes [(TP_LABEL_LABEL, s.hw.rf TP_STEPLBL_LABEL), (TP_NEXT_LO_E, stepEdge s.hw / 2 ^ 32), (TP_NEXT_HI_E, stepEdge s.hw / 2 ^ 64),
        (TP_NEXT_F_E, stepEdge s.hw), (TP_SLEW_Q, 0), (TP_STAT_SLEWING, 0), (TP_STAT_STEP, 1),
        (TP_TALLY_STEPS, satTo 65535 (s.hw.rf TP_TALLY_STEPS + 1)),
        (TP_TALLY_OMITTED, satTo 65535 (s.hw.rf TP_TALLY_OMITTED +
          (match lastPulse s.hw with | some p => s.hw.rf TP_STEPLBL_LABEL - p.1 - 1 | none => 0))),
        (TP_CMD_STEP_GO, 0)] [.tp, .tcnt] s.hw h) ∧
  (∀ (s : State) (p : Nat × Nat), s.hw.on TP_CMD_STEP_GO = true → lastPulse s.hw = some p →
    (s.hw.rf TP_STEPLBL_LABEL ≤ p.1 ∨ stepEdge s.hw ≤ p.2) →
    Completes .tpEdgeUpdate s fun h => h.tcnt = atLeast s.hw (s.hw.tp.edge / 2 ^ 32) ∧ PulseOut s.hw h ∧
      Advances [(TP_STAT_STEP_REF, 1), (TP_CMD_STEP_GO, 0)] s.hw h) ∧
  (∀ s : State, Completes .tpStepGo s (Changes [(TP_CMD_STEP_GO, 1)] [] s.hw)) ∧
  (∀ (s : State) (t : Nat), s.hw.tp.offAt = some t → Completes .tpInactiveEdge s fun h =>
    h = { s.hw with tcnt := atLeast s.hw t, tp := { s.hw.tp with active := false, offAt := none } }) ∧
  (∀ s : State, s.hw.tp.offAt = none → Completes .tpInactiveEdge s fun h => h = s.hw) ∧
  (∀ s : State, Completes .tpDelayCal s fun h => h = s.hw) ∧
  (∀ (s : State) (v : BitVec 32), Completes (.tpDisc v) s fun h => h.tp = { s.hw.tp with lastDisc := s.hw.tcnt } ∧
    Changes [(TP_STAT_TSTATE, 1), (TP_UNC_UNC, v.toNat)] [.tp] s.hw h) ∧
  (∀ s : State, s.hw.rf TP_STAT_TSTATE = 1 → Completes .tpHold s (Holds s.hw.tcnt s.hw) ∧
    Completes .holdTimeout s (Holds (atLeast s.hw (s.hw.tp.lastDisc + max 1 (s.hw.rf TP_LIM_HOLD_TMO) * 491520000)) s.hw) ∧
    Completes .holdoverTick s fun h => h = s.hw) ∧
  (∀ s : State, s.hw.rf TP_STAT_TSTATE ≠ 1 → Completes .tpHold s (fun h => h = s.hw) ∧ Completes .holdTimeout s (fun h => h = s.hw) ∧
    Completes .holdoverTick s fun h =>
      h.tcnt = atLeast s.hw (s.hw.tp.holdFrom + (s.hw.tp.ticks + 1) * 491520000) ∧
      h.tp = { s.hw.tp with ticks := s.hw.tp.ticks + 1, rate := s.hw.tp.rate + s.hw.rf TP_UNCACC_A } ∧
      (let u := satTo (2 ^ 32 - 1) (s.hw.rf TP_UNC_UNC + (s.hw.tp.rate + s.hw.rf TP_UNCACC_A))
       Changes [(TP_STAT_TSTATE, if s.hw.rf TP_STAT_TSTATE = 2 ∧ max 1 (s.hw.rf TP_LIM_LIMIT_NS) * 1000 < u then 0 else s.hw.rf TP_STAT_TSTATE),
         (TP_UNC_UNC, u)] [.tp, .tcnt] s.hw h)) ∧
  (∀ (s : State) (rise : Bool) (v : BitVec 32), (s.hw.on TM_CFG_EN = false ∨ (s.hw.rf TM_CFG_EDGE).testBit (if rise then 0 else 1) = false ∨
      v.toNat < max 1 (s.hw.rf TM_CFG_MINW)) →
    Completes (.tmarkCapture rise v) s fun h => h = s.hw) ∧
  (∀ (s : State) (rise : Bool) (v : BitVec 32), s.hw.on TM_CFG_EN = true → (s.hw.rf TM_CFG_EDGE).testBit (if rise then 0 else 1) = true →
    max 1 (s.hw.rf TM_CFG_MINW) ≤ v.toNat →
    (∃ t, s.hw.tp.lastMark = some t ∧ s.hw.tcnt - v.toNat - t ≤ 16) →
    Completes (.tmarkCapture rise v) s (Changes [(TM_STAT_DROPS, satTo 65535 (s.hw.rf TM_STAT_DROPS + 1)), (TM_STAT_CLOSE, 1)] [] s.hw)) ∧
  (∀ (s : State) (rise : Bool) (v : BitVec 32), s.hw.on TM_CFG_EN = true → (s.hw.rf TM_CFG_EDGE).testBit (if rise then 0 else 1) = true →
    max 1 (s.hw.rf TM_CFG_MINW) ≤ v.toNat →
    (∀ t, s.hw.tp.lastMark = some t → 16 < s.hw.tcnt - v.toNat - t) → Completes (.tmarkCapture rise v) s fun h =>
      (8 ≤ s.hw.tp.marks.length → Changes [(TM_STAT_DROPS, satTo 65535 (s.hw.rf TM_STAT_DROPS + 1)), (TM_STAT_OVF, 1)] [] s.hw h) ∧
      (s.hw.tp.marks.length < 8 → h = { s.hw with tp := { s.hw.tp with
        marks := s.hw.tp.marks ++ [(s.hw.tcnt - v.toNat, rise, s.hw.rf TP_STAT_TSTATE)]
        lastMark := some (s.hw.tcnt - v.toNat) } })) ∧
  (∀ s : State, s.hw.tp.marks = [] → Completes .tmTLoRead s (Changes [(TM_INFO_VALID, 0)] [.resp] s.hw)) ∧
  (∀ (s : State) (t : Nat) (rise : Bool) (st : Nat) (rest : List (Nat × Bool × Nat)), s.hw.tp.marks = (t, rise, st) :: rest →
    Completes .tmTLoRead s fun h => h.resp = .data (t % 2 ^ 32) ∧ h.tp = { s.hw.tp with marks := rest } ∧
      Changes [(TM_INFO_TSTATE, st), (TM_INFO_VALID, 1), (TM_INFO_RISE, b2n rise), (TM_T_HI_T, t / 2 ^ 32), (TM_T_LO_T, t)] [.resp, .tp] s.hw h)

/-- The instant that falls due next: the next of the schedule, moved by a waiting HITCH_ADJ (R283, R285). -/
def dueInstant (h : Hw) : Nat := ((h.nextInstant : Int) + h.hitch.adj.getD 0).toNat

/-- The later of the last instant latched on the present count and the counter of SP0 (R286). -/
def adjBound (h : Hw) : Int := match h.hitch.lastN with | some n => max (n : Int) (h.port 0).cnt | none => (h.port 0).cnt

/-- The word at byte offset `o` of record s of epoch `seq` (R292). -/
def recordWord (h : Hw) (seq s o : Nat) : Nat := h.load32 (0x11020000 + 0x8000 * (seq % 2) + 64 * s + o)

/-- Hitch epochs and records (R281 to R286, R290, R292, R293, R296, R297, R303). -/
def Obligations.HitchEpochs : Prop :=
  (∀ s : State, (s.hw.counting 0 = false ∨ (s.hw.port 0).cnt ≤ dueInstant s.hw) → Completes .hitchInstantDue s fun h => h = s.hw) ∧
  (∀ s : State, s.hw.counting 0 = true → dueInstant s.hw < (s.hw.port 0).cnt → s.hw.on HITCH_CTRL_EN = false →
    Completes .hitchInstantDue s fun h => h = { s.hw with hitch := { s.hw.hitch with cursor := s.hw.nextInstant + 1 } }) ∧
  (∀ s : State, s.hw.counting 0 = true → dueInstant s.hw < (s.hw.port 0).cnt → s.hw.on HITCH_CTRL_EN = true → s.hw.portState 0 = portOff →
    Completes .hitchInstantDue s fun h => h.hitch = { s.hw.hitch with cursor := s.hw.nextInstant + 1 } ∧
      Changes [(HITCH_EVT_NOEPOCH, 1)] [.hitch] s.hw h) ∧
  (∀ s : State, s.hw.counting 0 = true → dueInstant s.hw < (s.hw.port 0).cnt → s.hw.on HITCH_CTRL_EN = true →
    s.hw.portState 0 ∈ [portRun, portGap, portHalted] →
    ((s.hw.hitch.pendRate = none ∧ s.hw.hitch.pendBase = none) ∨
      ((dueInstant s.hw : Int) - (s.hw.hitch.base + s.hw.hitch.adj.getD 0)) % ((s.hw.rate 0 * 1000 : Nat) : Int) ≠ 0) →
    Completes .hitchInstantDue s fun h => ∃ e : Epoch,
      h.hitch.due = s.hw.hitch.due ++ [e] ∧ e.seq = (s.hw.hitch.seq + 1) % 2 ^ 32 ∧ e.n = dueInstant s.hw ∧
      s.hw.tcnt ≤ e.tcnt + 1 ∧ e.tcnt ≤ s.hw.tcnt + 1 ∧ e.us = s.hw.ringPositions (dueInstant s.hw) ∧ e.adj = s.hw.hitch.adj.isSome ∧
      h.hitch = { s.hw.hitch with
        due := s.hw.hitch.due ++ [e]
        seq := e.seq
        lastN := some (dueInstant s.hw)
        lastUs := some e.us
        cursor := dueInstant s.hw + 1
        base := s.hw.hitch.base + s.hw.hitch.adj.getD 0
        adj := none } ∧ Touches [.regs, .free, .hitch] s.hw h) ∧
  (∀ s : State, (s.hw.hitch.due = [] ∨ ∃ e rest, s.hw.hitch.due = e :: rest ∧ s.hw.settledPast e = false) →
    Completes .anchorWaitExpiry s (fun h => h = s.hw) ∧ Completes .hitchRelease s fun h => h = s.hw) ∧
  (∀ s : State, s.hw.tableBusy = true → Completes .hitchRelease s fun h => h = s.hw) ∧
  (∀ (s : State) (e : Epoch) (rest : List Epoch), s.hw.hitch.due = e :: rest → s.hw.settledPast e = true →
    Completes .anchorWaitExpiry s fun h => h = { s.hw with hitch := { s.hw.hitch with due := { e with expired := true } :: rest } }) ∧
  (∀ (s : State) (e : Epoch) (rest : List Epoch), s.hw.hitch.due = e :: rest → s.hw.anchorsClosed e = false → e.expired = false →
    Completes .hitchRelease s fun h => h = s.hw) ∧
  (∀ (s : State) (e : Epoch) (rest : List Epoch), s.hw.hitch.due = e :: rest → s.hw.settledPast e = true →
    (s.hw.anchorsClosed e = true ∨ e.expired = true) → s.hw.tableBusy = false →
    Completes .hitchRelease s fun h =>
      h.hitch.due = rest ∧ h.rf HITCH_EVT_EPOCH = 1 ∧
      [HITCH_EPOCH_LO_N, HITCH_EPOCH_HI_N, HITCH_TCNT_LO_T, HITCH_TCNT_HI_T, HITCH_SEQ_SEQ, HITCH_STAT_BUF].map h.rf =
        [e.n % 2 ^ 32, e.n / 2 ^ 32 % 2 ^ 32, e.tcnt % 2 ^ 32, e.tcnt / 2 ^ 32 % 2 ^ 32, e.seq % 2 ^ 32, e.seq % 2] ∧
      ((∀ o, o < 0x8000 → s.hw.mpuOk .fabric (0x11020000 + 0x8000 * (e.seq % 2) + o) true = true) → ∀ k, k < 512 →
        recordWord h e.seq k 0 % 512 = k ∧ recordWord h e.seq k 0x28 = e.seq % 2 ^ 32 ∧
        recordWord h e.seq k 0x3C = crc16 ((List.range 60).map fun o => (h.byte (0x11020000 + 0x8000 * (e.seq % 2) + 64 * k + o)).toNat) ∧
        ((recordWord h e.seq k 4).testBit 0 = true → (recordWord h e.seq k 4).testBit 13 = true ∧ (recordWord h e.seq k 4).testBit 5 = false ∧
          (recordWord h e.seq k 4).testBit 6 = false ∧
          recordWord h e.seq k 4 / 256 % 8 ∈ [StrandState.track.toNat, StrandState.vector.toNat])) ∧
      Touches [.regs, .mem, .ecc, .free, .elogQ, .memu, .strands, .hitch, .cans] s.hw h) ∧
  (∀ s : State, s.hw.hitch.copies = [] → Completes .hitchCopyComplete s fun h => h = s.hw) ∧
  (∀ (s : State) (q src dst : Nat) (rest : List Nat), s.hw.hitch.copies = q :: rest →
    src = 0x11020000 + 0x8000 * (q % 2) → dst = 0x20000000 + 0x8000 * (s.hw.rf HITCH_COPY_SBASE + q % s.hw.copySlots) →
    (∀ k, k < 4096 → s.hw.access (.dma 0) (src + 8 * k) 8 false = .ok ∧ s.hw.access (.dma 0) (dst + 8 * k) 8 true = .ok ∧
      s.hw.eccAt (src + 8 * k) = 0) →
    Completes .hitchCopyComplete s fun h => h.hitch.copies = rest ∧ (∀ o, o < 0x8000 → h.byte (dst + o) = s.hw.byte (src + o)) ∧
      (∀ a, (a < dst ∨ dst + 0x8000 ≤ a) → h.byte a = s.hw.byte a) ∧ h.rf HITCH_CPIDX_CPSEQ = q % 2 ^ 32 ∧
      Touches [.regs, .mem, .ecc, .hitch] s.hw h) ∧
  (∀ (s : State) (v : BitVec 32), v.toNat / 2 % 8 = 7 → Completes (.hitchCtrlWrite v) s (Changes [(HITCH_EVT_CFG_ERR, 1)] [] s.hw)) ∧
  (∀ (s : State) (v : BitVec 32), v.toNat / 2 % 8 ≠ 7 → v.toNat.testBit 0 = true → s.hw.spZeroUp = true →
    Completes (.hitchCtrlWrite v) s fun h =>
      h.hitch.rate = s.hw.hitch.rate ∧ h.hitch.base = s.hw.hitch.base ∧ h.hitch.pendBase = s.hw.hitch.pendBase ∧
      h.hitch.pendRate = (if v.toNat / 2 % 8 = s.hw.hitch.rate then none else some (v.toNat / 2 % 8)) ∧
      Changes [(HITCH_STAT_PEND, b2n (h.hitch.pendRate.isSome || h.hitch.pendBase.isSome)), (wholeReg HITCH_CTRL, ((s.hw.reg HITCH_CTRL).toNat &&& 0xFFFF00E0) ||| (v.toNat &&& 0xFF1F))]
        [.hitch] s.hw h) ∧
  (∀ (s : State) (v : BitVec 32), v.toNat / 2 % 8 ≠ 7 → (v.toNat.testBit 0 = false ∨ s.hw.spZeroUp = false) →
    Completes (.hitchCtrlWrite v) s fun h =>
      h.hitch.rate = v.toNat / 2 % 8 ∧ h.hitch.base = (s.hw.hitch.pendBase.map Int.ofNat).getD s.hw.hitch.base ∧ h.hitch.pendRate = none ∧
      h.hitch.pendBase = none ∧ h.rf HITCH_STAT_PEND = 0 ∧ h.reg HITCH_CTRL = BitVec.ofNat 32 (((s.hw.reg HITCH_CTRL).toNat &&& 0xFFFF00E0) ||| (v.toNat &&& 0xFF1F)) ∧
      (v.toNat / 2 % 8 ≠ s.hw.hitch.rate → h.rf HITCH_EVT_SCHED = 1) ∧ Touches [.regs, .hitch] s.hw h) ∧
  (∀ (s : State) (v : BitVec 32), Completes (.hitchBaseHiWrite v) s fun h =>
    (s.hw.epochsOccur = true → h.hitch = { s.hw.hitch with pendBase := some (s.hw.rf HITCH_BASE_LO_BASE + 2 ^ 32 * v.toNat), loWritten := none } ∧
      Changes [(HITCH_STAT_PEND, 1), (HITCH_BASE_HI_BASE, v.toNat)] [.hitch] s.hw h) ∧
    (s.hw.epochsOccur = false → h.hitch.base = ((s.hw.rf HITCH_BASE_LO_BASE + 2 ^ 32 * v.toNat : Nat) : Int) ∧ h.hitch.pendBase = none ∧
      h.hitch.pendRate = none ∧ h.rf HITCH_STAT_PEND = 0 ∧ h.rf HITCH_EVT_SCHED = 1 ∧ Touches [.regs, .hitch] s.hw h)) ∧
  (∀ (s : State) (v : BitVec 32), (s.hw.nextInstant : Int) + signed16 v.toNat ≤ adjBound s.hw →
    Completes (.hitchAdj v) s (Changes [(HITCH_EVT_CFG_ERR, 1)] [] s.hw)) ∧
  (∀ (s : State) (v : BitVec 32), adjBound s.hw < (s.hw.nextInstant : Int) + signed16 v.toNat →
    Completes (.hitchAdj v) s fun h => h = { s.hw with hitch := { s.hw.hitch with adj := some (signed16 v.toNat) } })

/-- What a write of COIL_CTRL stores: its plain fields. -/
def coilCtrlTaken (h : Hw) (v : BitVec 32) : Fld × Nat := (wholeReg COIL_CTRL, ((h.reg COIL_CTRL).toNat &&& 0xFFFF0000) ||| (v.toNat &&& 0xFFFF))

/-- B_n of a capture of `len` ms (R330). -/
def captureBlocks (h : Hw) (n len : Nat) : Nat := (len * h.rate n / h.dec n + 2047) / 2048

/-- ARM is refused (R331). -/
def ArmRefused (h : Hw) (v : Nat) : Prop :=
  h.rf COIL_STAT_STATE ∉ [0, 4] ∨ v % 16 = 0 ∨ v / 16 % 64 < 2 ∨ 50 < v / 16 % 64 ∨
  ∃ n, n < 4 ∧ v.testBit n = true ∧ (h.portCount ≤ n ∨ h.portState n ∉ [portArmed, portRun] ∨
    h.rf (SP_RING_SIZE n) * 64 < captureBlocks h n (v / 16 % 64) ∨
    ∃ t ∈ h.strands, t.2.state ∉ [.idle, .snapshot] ∧ bodyPort t.2.body = n)

/-- A port lets go of the capture (R336). -/
def letGo (h : Hw) (n : Nat) : Port :=
  { h.port n with
    cap := none
    hold := if h.counting n then (h.port n).hold else none
    holdEnd := if (h.port n).hold.isSome && h.counting n then true else (h.port n).holdEnd }

/-- The Coil (R330 to R332, R334, R336). -/
def Obligations.CoilCaptures : Prop :=
  (∀ (s : State) (v : BitVec 32), v.toNat / 65536 % 8 = 1 → ArmRefused s.hw v.toNat →
    Completes (.coilArm v) s (Changes [(COIL_STAT_REFUSED, 1), coilCtrlTaken s.hw v] [] s.hw)) ∧
  (∀ (s : State) (v : BitVec 32), v.toNat / 65536 % 8 = 1 → ¬ ArmRefused s.hw v.toNat →
    Completes (.coilArm v) s fun h =>
      h.rf COIL_STAT_STATE = 1 ∧ h.rf COIL_STAT_SUSP = 0 ∧ h.coil.ports = v.toNat % 16 ∧
      (∀ n, n < 4 → h.reg (COIL_P_BLK n) = 0 ∧
        (v.toNat.testBit n = true → h.coilBlocks n = captureBlocks s.hw n (v.toNat / 16 % 64) ∧ h.port n = { s.hw.port n with
          cap := none
          coilFrom := if s.hw.portState n = portArmed then v.toNat / 1024 % 64 * 2048
            else max (v.toNat / 1024 % 64 * 2048) ((s.hw.ringCount n / 2048 + 1) * 2048) }) ∧
        (v.toNat.testBit n = false → h.coilBlocks n = 0 ∧ h.port n = s.hw.port n)) ∧ Touches [.regs, .ports, .coil] s.hw h) ∧
  (∀ (s : State) (n : Fin 4), (s.hw.coil.ports.testBit n = false ∨ s.hw.rf COIL_STAT_STATE ∉ [1, 2] ∨ (s.hw.port n).cap ≠ none ∨
      s.hw.portState n ≠ portRun ∨ (s.hw.port n).coilFrom * s.hw.dec n ≠ (s.hw.port n).cnt) → Completes (.coilCaptureStart n) s fun h => h = s.hw) ∧
  (∀ (s : State) (n : Fin 4), s.hw.coil.ports.testBit n = true → s.hw.rf COIL_STAT_STATE ∈ [1, 2] → (s.hw.port n).cap = none →
    s.hw.portState n = portRun → (s.hw.port n).coilFrom * s.hw.dec n = (s.hw.port n).cnt → 0 < s.hw.coilBlocks n →
    (s.hw.port n).nextTag ≤ (s.hw.port n).coilFrom / 2048 → Completes (.coilCaptureStart n) s fun h =>
      h.rf COIL_STAT_STATE = 2 ∧ h.rf (COIL_P_START_J n) = (s.hw.port n).coilFrom % 2 ^ 32 ∧
      h.port n = { s.hw.port n with cap := some (s.hw.port n).coilFrom } ∧ (∀ m, m ≠ n.val → h.port m = s.hw.port m) ∧
      ((∀ m, m < n.val → s.hw.coil.ports.testBit m = false) → ∃ d : Int, -1 ≤ d ∧ d ≤ 1 ∧
        ((h.rf COIL_TS_LO_T + 2 ^ 32 * h.rf COIL_TS_HI_T : Nat) : Int) = (s.hw.tcnt + d) % 2 ^ 64) ∧
      ((∃ m, m < n.val ∧ s.hw.coil.ports.testBit m = true) → h.reg COIL_TS_LO = s.hw.reg COIL_TS_LO ∧ h.reg COIL_TS_HI = s.hw.reg COIL_TS_HI) ∧
      Touches [.regs, .free, .ports] s.hw h) ∧
  (∀ (s : State) (v : BitVec 32), v.toNat / 65536 % 8 = 2 → (∀ t ∈ s.hw.strands, t.2.state ≠ .snapshot) →
    (s.hw.rf COIL_STAT_STATE ∈ [1, 2, 3] → Completes (.coilRelease v) s fun h => (∀ n, n < 4 → h.port n = letGo s.hw n) ∧
      Changes [(COIL_STAT_STATE, 0), coilCtrlTaken s.hw v] [.ports] s.hw h) ∧
    (s.hw.rf COIL_STAT_STATE ∉ [1, 2, 3] → Completes (.coilRelease v) s (Changes [coilCtrlTaken s.hw v] [] s.hw))) ∧
  (∀ (s : State) (v : BitVec 32), v.toNat / 65536 % 8 = 4 → (∀ t ∈ s.hw.strands, t.2.state ≠ .snapshot) →
    (s.hw.rf COIL_STAT_STATE ∈ [1, 2] → Completes (.coilAbort v) s fun h => (∀ n, n < 4 → h.port n = letGo s.hw n) ∧
      Changes [(COIL_STAT_ABORTED, 1), (COIL_STAT_STATE, 0), coilCtrlTaken s.hw v] [.ports] s.hw h) ∧
    (s.hw.rf COIL_STAT_STATE ∉ [1, 2] → Completes (.coilAbort v) s (Changes [coilCtrlTaken s.hw v] [] s.hw))) ∧
  (∀ (s : State) (n : Fin 4), ((s.hw.port n).hold = none ∨ (s.hw.port n).holdEnd = false) → Completes (.ringWriteResume n) s fun h => h = s.hw) ∧
  (∀ (s : State) (n : Fin 4) (g : Nat), (s.hw.port n).hold = some g → (s.hw.port n).holdEnd = true → Completes (.ringWriteResume n) s fun h =>
    (h.port n).hold = none ∧ (h.port n).holdEnd = false ∧
    h.port n = { s.hw.port n with hold := none, holdEnd := false, noTags := (h.port n).noTags } ∧
    (∀ m, m ≠ n.val → h.port m = s.hw.port m) ∧ Touches [.ports] s.hw h)

/-- A save is to be taken now (R326, Table 7.6). -/
def SaveDue (h : Hw) (now : Bool) : Prop :=
  h.fwUp = true ∧ (∀ t, h.hot.savedAt = some t → 160 ≤ h.rtc.sec - t) ∧
  (now = true ∨ h.hot.wanted = true ∨ ∀ t, h.hot.savedAt = some t → max 160 (min 86400 (h.obj 0x2100 1)) ≤ h.rtc.sec - t)

/-- The save of the live record `live` into its slot (R323, R324, Table 7.1). -/
def Saved (live : List Nat) (h h' : Hw) : Prop :=
  let seq := (h.hot.seq + 1) % 2 ^ 32
  let b := 0x60C40000 + 0x4000 * (seq % 4)
  h'.holds b 4 0x4B485301 ∧ h'.holds (b + 4) 4 1 ∧ h'.holds (b + 8) 4 seq ∧ h'.holds (b + 12) 4 (0x40 + live.length) ∧
  h'.holds (b + 16) 4 (h.fw.version % 2 ^ 32) ∧ h'.holds (b + 20) 4 (h.rtc.sec % 2 ^ 32) ∧
  (∀ k, 0x18 ≤ k → k < 0x3C → h'.byte (b + k) = 0) ∧
  (∀ k, k < live.length → (h'.byte (b + 0x40 + k)).toNat = live.getD k 0) ∧
  h'.holds (b + 0x3C) 4 (crc32 ((List.range 0x3C).map (fun k => (h'.byte (b + k)).toNat) ++ live)) ∧
  (∀ a, (a < b ∨ b + 0x4000 ≤ a) → h'.byte a = h.byte a) ∧
  h'.hot = { h.hot with live := live, seq := seq, slot := seq % 4, savedAt := some h.rtc.sec, wanted := false } ∧
  Touches [.mem, .ecc, .hot] h h'

/-- The snapshot cycle ends with an outcome, and the firmware requests Slack, which is entered or refused (R342). -/
def Ends (o : SnapOutcome) (h h' : Hw) : Prop :=
  h'.hot.result = some o ∧ h'.hot.cycle = false ∧ (h.stalls = [] → h'.pwr.state = .slack ∨ h'.rf PWR_SLKLAST_OUTCOME = 1)

/-- The hot-start store and the snapshot cycle (R323, R324, R326, R336, R342, R347). -/
def Obligations.HotStartAndSnapshot : Prop :=
  (∀ (s : State) (live : List Nat), ¬ SaveDue s.hw false → Completes (.hsSave live) s fun h => h = s.hw) ∧
  (∀ (s : State) (live : List Nat), SaveDue s.hw false → live.length ≤ 0x3FC0 → (∀ b ∈ live, b < 256) → Completes (.hsSave live) s (Saved live s.hw)) ∧
  (∀ (s : State) (live : List Nat), s.hw.fwUp = false → Completes (.hsSaveNow live) s fun h => h = s.hw) ∧
  (∀ (s : State) (live : List Nat), s.hw.fwUp = true → (∃ t, s.hw.hot.savedAt = some t ∧ s.hw.rtc.sec - t < 160) →
    Completes (.hsSaveNow live) s fun h => h = { s.hw with hot := { s.hw.hot with wanted := true } }) ∧
  (∀ (s : State) (live : List Nat), SaveDue s.hw true → live.length ≤ 0x3FC0 → (∀ b ∈ live, b < 256) → Completes (.hsSaveNow live) s (Saved live s.hw)) ∧
  (∀ (s : State) (what : SnapStep) (live : List Nat),
    (s.hw.fwUp = false ∨
      (what = .begin_ ∧ (s.hw.obj 0x2101 1 ≠ 1 ∨ s.hw.hot.cycle = true ∨ s.hw.hot.stream = true ∨ s.hw.sched.snapDue = false ∨ s.hw.sched.advDue = true)) ∨
      (what ≠ .begin_ ∧ s.hw.hot.cycle = false) ∨
      (what = .finish ∧ (s.hw.rf COIL_STAT_STATE ∈ [1, 2] ∨
        (s.hw.rf COIL_STAT_STATE = 3 ∧ s.hw.obj 0x2101 6 ≠ 1 ∧ s.hw.snapIdle = false)))) → Completes (.snapshotCycle what live) s fun h => h = s.hw) ∧
  (∀ (s : State) (live : List Nat), s.hw.fwUp = true → s.hw.obj 0x2101 1 = 1 → s.hw.hot.cycle = false → s.hw.hot.stream = false →
    s.hw.sched.snapDue = true → s.hw.sched.advDue = false → Completes (.snapshotCycle .begin_ live) s fun h => h.sched.snapDue = false ∧
      (s.hw.hot.class_ ≠ 2 → Ends .notHot s.hw h) ∧
      (s.hw.hot.class_ = 2 → h.hot = { s.hw.hot with cycle := true, retried := false, strands := [] } ∧ h.pwr.state = .run)) ∧
  (∀ (s : State) (live : List Nat), s.hw.fwUp = true → s.hw.hot.cycle = true →
    (s.hw.rf COIL_STAT_STATE ∈ [0, 4] → Completes (.snapshotCycle .finish live) s fun h => Ends .captureAbort s.hw h ∧ h.hot.live = live.take 0x3FC0) ∧
    (s.hw.rf COIL_STAT_STATE = 3 → s.hw.obj 0x2101 6 = 1 → Completes (.snapshotCycle .finish live) s fun h =>
      h.hot = { s.hw.hot with cycle := false, stream := true } ∧
      Touches [.regs, .mem, .ecc, .free, .elogQ, .ports, .strands, .fab, .loop, .hot, .hitch, .fw] s.hw h) ∧
    (s.hw.rf COIL_STAT_STATE = 3 → s.hw.obj 0x2101 6 ≠ 1 → s.hw.snapIdle = true →
      (s.hw.obj 0x2101 7 ≤ s.hw.snapDetected → Completes (.snapshotCycle .finish live) s fun h =>
        Ends .fix s.hw h ∧ h.hot.live = live.take 0x3FC0) ∧
      (s.hw.snapDetected < s.hw.obj 0x2101 7 → s.hw.hot.retried = false → s.hw.snapLong = true → Completes (.snapshotCycle .finish live) s fun h =>
        h.hot = { s.hw.hot with retried := true, strands := [] } ∧
        Touches [.regs, .mem, .ecc, .free, .elogQ, .ports, .tspi, .strands, .fab, .loop, .tcnt, .coil, .hot, .hitch] s.hw h) ∧
      (s.hw.snapDetected < s.hw.obj 0x2101 7 → (s.hw.hot.retried = true ∨ s.hw.snapLong = false) → Completes (.snapshotCycle .finish live) s fun h =>
        Ends .noFixSats s.hw h ∧ h.hot.live = live.take 0x3FC0))) ∧
  (∀ (s : State) (bodies : List (Fin 512 × List (BitVec 32))) (live : List Nat), s.hw.fwUp = true → s.hw.hot.cycle = true →
    Completes (.snapshotCycle (.commit bodies) live) s fun h =>
      h.hot = { s.hw.hot with strands := s.hw.hot.strands ++
        (if s.hw.hot.strands = [] then (if s.hw.rf COIL_STAT_STATE ∈ [0, 4] then [] else bodies.take 2)
         else if s.hw.rf COIL_STAT_STATE = 3 ∧ s.hw.snapIdle = true then bodies else []).map (·.1.val) } ∧
      Touches [.regs, .mem, .ecc, .free, .resp, .elogQ, .memu, .fab, .hot, .fw] s.hw h) ∧
  (∀ (s : State) (l : Fin 10), (s.hw.fwUp = false ∨ s.hw.linkRole l = 0) → Completes (.coilReleaseObject l) s fun h => h = s.hw) ∧
  (∀ (s : State) (l : Fin 10), s.hw.fwUp = true → 1 ≤ s.hw.linkRole l → Completes (.coilReleaseObject l) s fun h =>
    h.hot = { s.hw.hot with stream := false } ∧ h.rf COIL_STAT_STATE ∉ [1, 2, 3] ∧
    Touches [.regs, .mem, .ecc, .free, .elogQ, .ports, .strands, .fab, .loop, .hot] s.hw h) ∧
  (∀ s : State, s.hw.hot.stream = false → Completes .coilStreamTimeout s fun h => h = s.hw) ∧
  (∀ s : State, s.hw.hot.stream = true → Completes .coilStreamTimeout s fun h =>
    (∃ bs, h.hot = { s.hw.hot with stream := false, result := some .streamTimeout, record := bs, cycle := false, strands := [] }) ∧
    s.hw.hot.heldAt + 30 * 491520000 ≤ h.tcnt ∧ h.rf COIL_STAT_STATE ∉ [1, 2, 3] ∧
    Touches [.regs, .mem, .ecc, .free, .elogQ, .ports, .strands, .fab, .loop, .tcnt, .hot, .fw] s.hw h)

/-- REF of slot n after a write with W1C bit `b`. -/
def refAfter (h : Hw) (n : Nat) (b : Bool) : Fld × Nat := (LOOP_KSLOT_CFG_REF n, if b then 0 else h.rf (LOOP_KSLOT_CFG_REF n))

/-- The little-endian word at offset o of a byte string. -/
def wordAt (bs : List Nat) (o : Nat) : Nat := bs.getD o 0 + 256 * bs.getD (o + 1) 0 + 65536 * bs.getD (o + 2) 0 + 16777216 * bs.getD (o + 3) 0

/-- The header of a kernel image is good (Table 8.12). -/
def ImageHeader (img : List Nat) : Prop :=
  wordAt img 0 = 0x4B4C4E01 ∧ 1 ≤ wordAt img 8 ∧ wordAt img 8 ≤ 6144 ∧ 1 ≤ wordAt img 12 ∧ wordAt img 12 ≤ 4095 ∧ wordAt img 24 = 0 ∧
  wordAt img 28 = 0 ∧ img.length = 32 + 4 * wordAt img 8

/-- The outcome of a load that stops at a failing check (Table 8.14): KLOAD_STAT alone changes. -/
def LoadFails (s : State) (img : List Nat) (code : Nat) : Prop := Completes (.kloadImage img) s fun h => h = s.hw.setObj 0x3340 2 code

/-- Where the journal's next record goes, and a record appended there: `n` bytes of `bs`, the next SEQ (R500, R505). -/
def journalAt (h : Hw) : Nat := 0x60C00000 + 0x20000 * (h.fw.journal.area % 2) + h.fw.journal.free
def Appended (bs : List Nat) (h h' : Hw) : Prop :=
  (∀ k, k < bs.length → (h'.byte (journalAt h + k)).toNat = bs.getD k 0) ∧
  h'.fw.journal = { h.fw.journal with free := h.fw.journal.free + bs.length, seq := (h.fw.journal.seq + 1) % 2 ^ 32 }

/-- Kernel slots (R384 to R386, R390 to R392). -/
def Obligations.KernelSlots : Prop :=
  (∀ (s : State) (n : Fin 16) (v : BitVec 32), s.hw.rf (LOOP_KSLOT_CFG_VALID n) = 1 →
    Completes (.kslotCfgWrite n true v) s (Changes [(LOOP_KSLOT_CFG_REF n, 1)] [] s.hw)) ∧
  (∀ (s : State) (n : Fin 16) (v : BitVec 32), s.hw.rf (LOOP_KSLOT_CFG_VALID n) = 0 →
    Completes (.kslotCfgWrite n true v) s (Changes [(LOOP_KSLOT_RANGE_BASE n, v.toNat % 16384), (LOOP_KSLOT_RANGE_LEN n, v.toNat / 65536 % 32768)] [] s.hw)) ∧
  (∀ (s : State) (n : Fin 16) (v : BitVec 32), s.hw.rf (LOOP_KSLOT_CFG_VALID n) = 0 → v.toNat.testBit 0 = false →
    Completes (.kslotCfgWrite n false v) s (Changes [(LOOP_KSLOT_CFG_LIMIT n, v.toNat / 16 % 4096), refAfter s.hw n (v.toNat.testBit 2)] [] s.hw)) ∧
  (∀ (s : State) (n : Fin 16) (v : BitVec 32) (b l : Nat), s.hw.rf (LOOP_KSLOT_CFG_VALID n) = 0 → v.toNat.testBit 0 = true →
    b = s.hw.rf (LOOP_KSLOT_RANGE_BASE n) → l = s.hw.rf (LOOP_KSLOT_RANGE_LEN n) →
    ((l = 0 ∨ 16384 < b + l ∨ s.hw.rangeTaken n b l = true ∨ (6 ≤ n.val ∧ v.toNat / 16 % 4096 = 0)) →
      Completes (.kslotCfgWrite n false v) s (Changes [(LOOP_KSLOT_CFG_REF n, 1)] [] s.hw)) ∧
    ((0 < l ∧ b + l ≤ 16384 ∧ s.hw.rangeTaken n b l = false ∧ (n.val < 6 ∨ 0 < v.toNat / 16 % 4096)) →
      Completes (.kslotCfgWrite n false v) s (Changes [(LOOP_KSLOT_CFG_VALID n, 1), (LOOP_KSLOT_CFG_LIMIT n, v.toNat / 16 % 4096),
        refAfter s.hw n (v.toNat.testBit 2)] [] s.hw))) ∧
  (∀ (s : State) (n : Fin 16) (v : BitVec 32), s.hw.rf (LOOP_KSLOT_CFG_VALID n) = 1 → v.toNat / 16 % 4096 = s.hw.rf (LOOP_KSLOT_CFG_LIMIT n) →
    (v.toNat.testBit 0 = false → s.hw.slotUsers n = 0 →
      Completes (.kslotCfgWrite n false v) s (Changes [(LOOP_KSLOT_CFG_VALID n, 0), refAfter s.hw n (v.toNat.testBit 2)] [] s.hw)) ∧
    (v.toNat.testBit 0 = false → 0 < s.hw.slotUsers n →
      Completes (.kslotCfgWrite n false v) s (Changes [(LOOP_KSLOT_CFG_REF n, 1)] [] s.hw)) ∧
    (v.toNat.testBit 0 = true →
      Completes (.kslotCfgWrite n false v) s (Changes [refAfter s.hw n (v.toNat.testBit 2)] [] s.hw))) ∧
  (∀ (s : State) (n : Fin 16) (v : BitVec 32), s.hw.rf (LOOP_KSLOT_CFG_VALID n) = 1 → v.toNat / 16 % 4096 ≠ s.hw.rf (LOOP_KSLOT_CFG_LIMIT n) →
    v.toNat.testBit 0 = true → Completes (.kslotCfgWrite n false v) s (Changes [(LOOP_KSLOT_CFG_REF n, 1)] [] s.hw)) ∧
  (∀ (s : State) (img : List Nat) (v : BitVec 8), s.hw.sys.fwRunning = false →
    Completes (.kloadImage img) s (fun h => h = s.hw) ∧ Completes (.kunload v) s fun h => h = s.hw) ∧
  (∀ (s : State) (img : List Nat) (v : BitVec 8), s.hw.sys.fwRunning = true → s.hw.domState 1 ≠ 2 →
    Completes (.kloadImage img) s (fun h => h.resp = .stalled ∧ Touches [.regs, .resp] s.hw h) ∧
    Completes (.kunload v) s fun h => h.resp = .stalled ∧ Touches [.regs, .resp] s.hw h) ∧
  (∀ (s : State) (img : List Nat), s.hw.sys.fwRunning = true → s.hw.domState 1 = 2 → (∀ b ∈ img, b < 256) →
    (¬ ImageHeader img → LoadFails s img 2) ∧
    (ImageHeader img → crc32 (img.drop 32) ≠ wordAt img 20 → LoadFails s img 3) ∧
    (ImageHeader img → crc32 (img.drop 32) = wordAt img 20 →
      ((wordAt img 4 < 6 ∨ 15 < wordAt img 4) → LoadFails s img 4) ∧
      (6 ≤ wordAt img 4 → wordAt img 4 ≤ 15 →
        (0 < s.hw.slotUsers (wordAt img 4) → LoadFails s img 5) ∧
        (s.hw.slotUsers (wordAt img 4) = 0 →
          (codeOk (wordsOf (img.drop 32)) = false → LoadFails s img 6) ∧
          (codeOk (wordsOf (img.drop 32)) = true →
            ((6144 < s.hw.fleetWords (wordAt img 4) + wordAt img 8 ∨ s.hw.firstFit (wordAt img 4) (wordAt img 8) = none) → LoadFails s img 7) ∧
            (s.hw.fleetWords (wordAt img 4) + wordAt img 8 ≤ 6144 → s.hw.firstFit (wordAt img 4) (wordAt img 8) ≠ none →
              65536 < s.hw.liveBytes 0xF110 (wordAt img 4) img → Completes (.kloadImage img) s fun h => h = s.hw) ∧
            (∀ b, s.hw.fleetWords (wordAt img 4) + wordAt img 8 ≤ 6144 → s.hw.firstFit (wordAt img 4) (wordAt img 8) = some b →
              s.hw.liveBytes 0xF110 (wordAt img 4) img ≤ 65536 → s.hw.fw.journal.free + recordSize img.length ≤ 131072 →
              Completes (.kloadImage img) s fun h =>
                h.obj 0x3340 2 = 0 ∧ b + wordAt img 8 ≤ 16384 ∧ s.hw.rangeTaken (wordAt img 4) b (wordAt img 8) = false ∧
                (∀ c, c < b → c + wordAt img 8 ≤ 16384 → s.hw.rangeTaken (wordAt img 4) c (wordAt img 8) = true) ∧
                (∀ k, k < 4 * wordAt img 8 → (h.byte (0x12800000 + 4 * b + k)).toNat = img.getD (32 + k) 0) ∧
                Appended (recordBytes s.hw.fw.journal.gen ((s.hw.fw.journal.seq + 1) % 2 ^ 32) 0xF110 (wordAt img 4) 1 img) s.hw h ∧
                (∀ a, (a < 0x12800000 + 4 * b ∨ 0x12800000 + 4 * (b + wordAt img 8) ≤ a) →
                  (a < journalAt s.hw ∨ journalAt s.hw + recordSize img.length ≤ a) → h.byte a = s.hw.byte a) ∧
                Changes [(LOOP_KSLOT_CFG_VALID (wordAt img 4), 1), (LOOP_KSLOT_CFG_LIMIT (wordAt img 4), wordAt img 12),
                  (LOOP_KSLOT_RANGE_LEN (wordAt img 4), wordAt img 8), (LOOP_KSLOT_RANGE_BASE (wordAt img 4), b)] [.mem, .ecc, .fw] s.hw h)))))) ∧
  (∀ (s : State) (v : BitVec 8), s.hw.sys.fwRunning = true → s.hw.domState 1 = 2 →
    ((v.toNat < 6 ∨ 15 < v.toNat) → Completes (.kunload v) s fun h => h = s.hw.setObj 0x3340 2 4) ∧
    (6 ≤ v.toNat → v.toNat ≤ 15 → 0 < s.hw.slotUsers v.toNat → Completes (.kunload v) s fun h => h = s.hw.setObj 0x3340 2 5) ∧
    (6 ≤ v.toNat → v.toNat ≤ 15 → s.hw.slotUsers v.toNat = 0 → s.hw.fw.journal.free + 24 ≤ 131072 →
      Completes (.kunload v) s fun h => h.obj 0x3340 2 = 0 ∧
        Appended (recordBytes s.hw.fw.journal.gen ((s.hw.fw.journal.seq + 1) % 2 ^ 32) 0xF110 v.toNat 2 []) s.hw h ∧
        (∀ a, (a < journalAt s.hw ∨ journalAt s.hw + 24 ≤ a) → h.byte a = s.hw.byte a) ∧
        Changes [(LOOP_KSLOT_CFG_VALID v.toNat, 0)] [.mem, .ecc, .fw] s.hw h))

/-- RUN_OFF of unit u is refused (R402). -/
def RunOffRefused (h : Hw) (u : Nat) : Prop :=
  u ∈ [4, 5, 6, 15, 16, 17] ∨ (∃ keep, h.memu.test = some (u, keep)) ∨
  (u < 4 ∧ ∃ n, n < 4 ∧ h.rf (SP_RING_BASE n) < 4 * u + 4 ∧ 4 * u < h.rf (SP_RING_BASE n) + h.rf (SP_RING_SIZE n) ∧
    (h.portState n ≠ portOff ∨ (h.rf COIL_STAT_STATE ≠ 0 ∧ h.coil.ports.testBit n = true)))

/-- START is refused (R414). -/
def MarchRefused (h : Hw) (u : Nat) (keep : Bool) : Prop :=
  h.memu.test ≠ none ∨ 15 ≤ u ∨ h.rf (MEM_SCTL_STATE u) = 7 ∨
  (keep = false ∧ (h.rf (MEM_SCTL_STATE u) ≠ 0 ∨ h.rf (MEM_SCTL_RUN_OFF u) = 0)) ∨
  (keep = true ∧ (h.rf (MEM_SCTL_STATE u) ≠ 5 ∨ (u < 4 ∧ RunOffRefused h u) ∨
    (u ∈ [4, 5, 6] ∧ ((∃ t ∈ h.strands, t.2.state ≠ .idle) ∨ h.loop.ready ≠ [] ∨
      ∃ c, c < 8 ∧ ((h.core c).run ≠ none ∨ (h.core c).saved ≠ [])))))

/-- Byte address a lies in unit u. -/
def inUnit (u a : Nat) : Bool := decide (unitBase u ≤ a) && decide (a < unitBase u + unitBytes u)

/-- Every byte of unit u is 0, and every other byte as before. -/
def Zeroed (u : Nat) (h h' : Hw) : Prop := ∀ a, h'.byte a = if inUnit u a then 0 else h.byte a

/-- What a write of MEM_MTEST stores. -/
def mtestTaken (h : Hw) (v : BitVec 32) : Fld × Nat :=
  (wholeReg MEM_MTEST, ((h.reg MEM_MTEST).toNat &&& (0xFFFFFFFF ^^^ (0x3F ||| (0x1800 &&& v.toNat)))) ||| (v.toNat &&& 0x3F))

/-- Memory units, tests and repairs (R400 to R403, R409, R413 to R418, Table 9.2). -/
def Obligations.MemoryUnits : Prop :=
  (∀ (s : State) (u : Fin 18), RunOffRefused s.hw u →
    Completes (.unitRunOff u) s (Changes [(MEM_SCTL_REFUSED u, 1)] [] s.hw)) ∧
  (∀ (s : State) (u : Fin 18), ¬ RunOffRefused s.hw u → s.hw.rf (MEM_SCTL_STATE u) ≠ 5 →
    Completes (.unitRunOff u) s (Changes [(MEM_SCTL_RUN_OFF u, 1)] [] s.hw)) ∧
  (∀ (s : State) (u : Fin 18), ¬ RunOffRefused s.hw u → s.hw.rf (MEM_SCTL_STATE u) = 5 →
    Completes (.unitRunOff u) s fun h => Zeroed u s.hw h ∧
      Changes [(MEM_SCTL_AVAIL u, 0), (MEM_SCTL_STATE u, 0), (MEM_SCTL_RUN_OFF u, 1)] [.mem, .ecc] s.hw h) ∧
  (∀ (s : State) (u : Fin 18), s.hw.rf (MEM_SCTL_STATE u) = 0 → Completes (.unitRunOn u) s
    (Changes [(MEM_SCTL_AVAIL u, 0), (MEM_SCTL_STATE u, 4), (MEM_SCTL_RUN_OFF u, 0)] [] s.hw)) ∧
  (∀ (s : State) (u : Fin 18), s.hw.rf (MEM_SCTL_STATE u) ≠ 0 → Completes (.unitRunOn u) s (Changes [(MEM_SCTL_RUN_OFF u, 0)] [] s.hw)) ∧
  (∀ (s : State) (u : Fin 18), s.hw.rf (MEM_SCTL_STATE u) ∈ [2, 4] → Completes (.unitFillComplete u) s fun h =>
    Zeroed u s.hw h ∧ (∀ a, inUnit u a = true → h.eccAt a = 0) ∧
      Changes [(MEM_SCTL_AVAIL u, 1 - s.hw.rf (MEM_SCTL_RUN_OFF u)), (MEM_SCTL_STATE u, if s.hw.on (MEM_SCTL_RUN_OFF u) then 0 else 5)]
        [.mem, .ecc] s.hw h) ∧
  (∀ (s : State) (u : Fin 18), s.hw.rf (MEM_SCTL_STATE u) ∉ [2, 4] → Completes (.unitFillComplete u) s fun h => h = s.hw) ∧
  (∀ (s : State) (v : BitVec 32), v.toNat.testBit 8 = false → Completes (.marchTestStart v) s (Changes [mtestTaken s.hw v] [] s.hw)) ∧
  (∀ (s : State) (v : BitVec 32), v.toNat.testBit 8 = true → MarchRefused s.hw (v.toNat % 32) (v.toNat.testBit 5) →
    Completes (.marchTestStart v) s (Changes [(MEM_MTEST_REFUSED, 1), mtestTaken s.hw v] [] s.hw)) ∧
  (∀ (s : State) (v : BitVec 32), v.toNat.testBit 8 = true → ¬ MarchRefused s.hw (v.toNat % 32) (v.toNat.testBit 5) →
    Completes (.marchTestStart v) s fun h => h.memu = { s.hw.memu with test := some (v.toNat % 32, v.toNat.testBit 5) } ∧
      Changes [(MEM_MTEST_BUSY, 1), (MEM_SCTL_STATE (v.toNat % 32), 6), mtestTaken s.hw v] [.memu] s.hw h) ∧
  (∀ (s : State) (rows bad : List (Nat × Nat)), s.hw.memu.test = none → Completes (.marchTestComplete rows bad) s fun h => h = s.hw.fwKeep.resume) ∧
  (∀ (s : State) (u : Nat) (keep : Bool) (bad : List (Nat × Nat)), s.hw.memu.test = some (u, keep) → u < 15 →
    (keep = true → s.hw.rowsUnreadable u = []) → Completes (.marchTestComplete [] bad) s fun g => ∃ h, g = h.fwKeep.resume ∧
      h.memu = { s.hw.memu with test := none } ∧ (if keep then ∀ a, h.byte a = s.hw.byte a else Zeroed u s.hw h) ∧
      Changes [(MEM_MTEST_DONE, 1), (MEM_MTEST_PASS, 1), (MEM_MTRES_FAILROWS, 0), (MEM_SCTL_AVAIL u, b2n keep),
        (MEM_SCTL_STATE u, if keep then 5 else 0), (MEM_MTEST_BUSY, 0), (MEM_MTEST_RETIRED, 0), (MEM_MTEST_REPAIRED, 0)]
        [.mem, .ecc, .memu] s.hw h) ∧
  (∀ (s : State) (u b r k : Nat) (keep : Bool) (bad : List (Nat × Nat)), s.hw.memu.test = some (u, keep) → u < 15 → b < unitBanks u → r < 64 →
    (keep = true → s.hw.rowsUnreadable u = []) → s.hw.freeSpare u b bad = some k → Completes (.marchTestComplete [(b, r)] bad) s fun g => ∃ h, g = h.fwKeep.resume ∧
      h.memu.test = none ∧ (⟨u, b, r, k⟩ : RowMap) ∈ h.memu.rowMaps ∧ h.rf MEM_MTEST_REPAIRED = 1 ∧ h.rf MEM_MTEST_RETIRED = 0 ∧
      h.rf MEM_MTEST_PASS = 0 ∧ h.rf MEM_MTEST_DONE = 1 ∧ h.rf MEM_MTRES_UNIT = u ∧ h.rf MEM_MTRES_BANK = b ∧ h.rf MEM_MTRES_ROW = r ∧
      h.rf MEM_MTRES_FAILROWS = 1 ∧ h.rf (MEM_SCTL_STATE u) = (if keep then 5 else 0) ∧
      (if keep then ∀ a, h.byte a = s.hw.byte a else Zeroed u s.hw h) ∧ Touches [.regs, .mem, .ecc, .kept, .memu] s.hw h) ∧
  (∀ (s : State) (u b r : Nat) (keep : Bool) (bad : List (Nat × Nat)), s.hw.memu.test = some (u, keep) → u < 15 → b < unitBanks u → r < 64 →
    (keep = true → s.hw.rowsUnreadable u = []) → s.hw.freeSpare u b bad = none → Completes (.marchTestComplete [(b, r)] bad) s fun g => ∃ h, g = h.fwKeep.resume ∧
      h.memu = { s.hw.memu with test := none } ∧ h.rf MEM_MTEST_RETIRED = 1 ∧ h.rf MEM_MTEST_REPAIRED = 0 ∧ h.rf MEM_MTEST_PASS = 0 ∧
      (u < 4 → h.rf (MEM_SCTL_STATE u) = 7 ∧ h.rf (MEM_SCTL_AVAIL u) = 0 ∧ (h.rf (MEM_SBANK_RETIRED u)).testBit b = true ∧ h.kept = s.hw.kept) ∧
      (4 ≤ u → h.rf (MEM_SCTL_STATE u) = (if keep then 5 else 0) ∧ h.rf (MEM_SCTL_FAILING u) = 1 ∧ (u, b) ∈ h.kept.failing) ∧
      Touches [.regs, .mem, .ecc, .kept, .elogQ, .memu] s.hw h) ∧
  (∀ (s : State) (ok : Bool), s.hw.memu.repair = none → Completes (.liveRepairComplete ok) s fun h => h = s.hw.fwKeep.resume) ∧
  (∀ (s : State) (r : Repair) (ok : Bool), s.hw.memu.repair = some r → r.locked = true → Completes (.liveRepairComplete ok) s fun g => ∃ h, g = h.fwKeep.resume ∧
    h.memu.repair = none ∧ r.map ∈ h.memu.rowMaps ∧ (∀ a, h.byte a = s.hw.byte a) ∧
    (∀ c, c < 32 → h.eccAt (rowWord r.map.unit r.map.bank r.map.row c) =
      if s.hw.eccAt (rowWord r.map.unit r.map.bank r.map.row c) ∈ [2, 3] then 3 else 0) ∧
    Touches [.regs, .ecc, .kept, .elogQ, .memu] s.hw h) ∧
  (∀ (s : State) (r : Repair), s.hw.memu.repair = some r → r.locked = false → Completes (.liveRepairComplete true) s fun g =>
    g = (Hw.fwKeep { s.hw with memu := { s.hw.memu with repair := some { r with locked := true } } }).resume) ∧
  (∀ (s : State) (r : Repair) (bad : List (Nat × Nat)), s.hw.memu.repair = some r → r.locked = false → r.map.unit < 18 →
    bad = (r.map.bank, r.map.spare) :: r.bad → Completes (.liveRepairComplete false) s fun g =>
    (∀ k, s.hw.freeSpare r.map.unit r.map.bank bad = some k →
      g = (Hw.fwKeep { s.hw with memu := { s.hw.memu with repair := some ⟨{ r.map with spare := k }, bad, false⟩ } }).resume) ∧
    (s.hw.freeSpare r.map.unit r.map.bank bad = none → ∃ h, g = h.fwKeep.resume ∧ h.memu = { s.hw.memu with repair := none } ∧
      (r.map.unit, r.map.bank) ∈ h.kept.failing ∧ h.rf (MEM_SCTL_FAILING r.map.unit) = 1 ∧ Touches [.regs, .kept, .elogQ, .memu] s.hw h))

/-- A wipe of cause `cause` is requested: it waits for the engine, or joins the one in progress (R429, R782). -/
def WipeRequested (cause : Nat) (fs : List (Fld × Nat)) (h h' : Hw) : Prop :=
  h'.pwr = { h.pwr with wipeCause := cause } ∧
  (h.memu.wipe = none → h'.memu = { h.memu with wipe := some ⟨false, 1⟩ } ∧ Changes fs [.pwr, .memu, .kept] h h') ∧
  (∀ w, h.memu.wipe = some w → h'.memu = h.memu ∧ Changes ((if w.started then [(MEM_THSTAT_CAUSE, cause)] else []) ++ fs) [.pwr, .memu, .kept] h h')

/-- The fields that a write of MEM_THCMD changes before WIPE and LOAD: TAMPER_LOCK, and with UNLOCK the tamper lock (R435). -/
def thimbleTaken (v : BitVec 32) (unlock : Bool) : List (Fld × Nat) :=
  (if unlock then [(MEM_THSTAT_TAMPER_LOCKED, 0)] else []) ++ [(MEM_THCMD_TAMPER_LOCK, v.toNat / 256 % 2)]

/-- LOAD is carried out (R430, R435, Table 1.9). -/
def LoadPermitted (h : Hw) (unlock : Bool) : Prop :=
  h.memu.wipe = none ∧ h.rf MEM_THSTAT_BLOCKED = 0 ∧ (unlock = true ∨ h.rf MEM_THSTAT_TAMPER_LOCKED = 0) ∧ h.rf (MEM_SCTL_STATE 15) = 5 ∧
  h.rf (MEM_SCTL_STATE 16) = 5

/-- What a write of MEM_THCMD does: UNLOCK, then WIPE, then LOAD (R784). -/
def ThimbleWrite (v : BitVec 32) (unlock : Bool) (h h' : Hw) : Prop :=
  h'.kept = (if unlock then { h.kept with tamperLocked := false } else h.kept) ∧
  (v.toNat.testBit 0 = true → WipeRequested 3 (thimbleTaken v unlock) h h') ∧
  (v.toNat.testBit 0 = false → (v.toNat.testBit 1 = false ∨ ¬ LoadPermitted h unlock) → Changes (thimbleTaken v unlock) [.kept] h h') ∧
  (v.toNat.testBit 0 = false → v.toNat.testBit 1 = true → LoadPermitted h unlock → ∃ keys : List (List Nat),
    keys = ((List.range 512).filterMap (h.keyOf ((List.range 512).filter h.keyWhole))).take 256 ∧
    (∀ k j, k < keys.length → j < 64 → (h'.byte (0x30000000 + 64 * k + j)).toNat = (keys.getD k []).getD j 0 % 256) ∧
    (∀ a, (a < 0x30000000 ∨ 0x30000000 + 64 * keys.length ≤ a) → h'.byte a = h.byte a) ∧
    Changes ([(MEM_KSTAT_SKIPPED, 512 - keys.length), (MEM_KSTAT_LOADED, keys.length)] ++ thimbleTaken v unlock) [.mem, .ecc, .kept] h h')

/-- The part that P says, with the vendor records brought up to date. -/
def AfterKeep (P : Hw → Prop) (g : Hw) : Prop := ∃ h, P h ∧ g = h.fwKeep

/-- Both banks of the Thimble hold 0, and every other byte is as before. -/
def ThimbleZero (h h' : Hw) : Prop := ∀ a, h'.byte a = if inUnit 15 a || inUnit 16 a then 0 else h.byte a

/-- A transition of Table 9.6 for a role (1 FLEET, 2 SERVICE, 3 VENDOR). -/
def permitted (cur target role : Nat) (lanyard : Bool) : Prop :=
  (cur = 1 ∧ target = 2 ∧ 2 ≤ role) ∨ (cur = 2 ∧ target = 3 ∧ 1 ≤ role) ∨
  ((cur = 2 ∨ cur = 3) ∧ target = 4 ∧ 3 ≤ role ∧ lanyard = true) ∨ (cur ≠ 5 ∧ target = 5 ∧ 2 ≤ role)

/-- The Thimble bank, the life cycle and the MRAM (R425, R427, R429, R430, R433, R435 to R437, R441, R782, R784). -/
def Obligations.ThimbleAndLifeCycle : Prop :=
  (∀ (s : State) (l : Fin 10) (v : BitVec 32),
    (v.toNat.testBit 0 = false → Completes (.thimbleWipeCmd l v) s fun h => h = s.hw) ∧
    (v.toNat.testBit 0 = true → Completes (.thimbleWipeCmd l v) s (AfterKeep (ThimbleWrite v (v.toNat.testBit 2 && decide (1 ≤ s.hw.linkRole l)) s.hw))) ∧
    (v.toNat.testBit 1 = false → Completes (.keyLoadCmd l v) s fun h => h = s.hw) ∧
    (v.toNat.testBit 1 = true → Completes (.keyLoadCmd l v) s (AfterKeep (ThimbleWrite v (v.toNat.testBit 2 && decide (1 ≤ s.hw.linkRole l)) s.hw))) ∧
    ((v.toNat.testBit 2 = false ∨ s.hw.linkRole l = 0) → Completes (.tamperUnlock l v) s fun h => h = s.hw) ∧
    (v.toNat.testBit 2 = true → 1 ≤ s.hw.linkRole l → Completes (.tamperUnlock l v) s (AfterKeep (ThimbleWrite v true s.hw)))) ∧
  (∀ s : State, (s.hw.memu.wipe = none ∨ (∃ w, s.hw.memu.wipe = some w ∧ w.started = true) ∨ s.hw.pwr.state = .slack) →
    Completes .wipeStart s fun h => h = s.hw) ∧
  (∀ (s : State) (w : Wipe), s.hw.memu.wipe = some w → w.started = false → s.hw.pwr.state ≠ .slack → Completes .wipeStart s fun h =>
    h.memu = { s.hw.memu with wipe := some { w with started := true } } ∧ ThimbleZero s.hw h ∧
    Changes ((if s.hw.pwr.wipeCause = 2 then [(MEM_THSTAT_TEV, s.hw.pwr.wipeTev)] else []) ++
      [(MEM_THSTAT_CAUSE, s.hw.pwr.wipeCause), (MEM_THSTAT_VERIFIED, 0), (MEM_THSTAT_BLOCKED, 1)]) [.mem, .ecc, .memu] s.hw h) ∧
  (∀ (s : State) (ok : Bool), (s.hw.memu.wipe = none ∨ ∃ w, s.hw.memu.wipe = some w ∧ w.started = false) →
    Completes (.wipeVerified ok) s fun h => h = s.hw.fwKeep) ∧
  (∀ (s : State) (w : Wipe), s.hw.memu.wipe = some w → w.started = true → s.hw.memu.lcTarget = none → Completes (.wipeVerified true) s fun g => ∃ h, g = h.fwKeep ∧
    h.memu = { s.hw.memu with wipe := none } ∧ h.pkey = { s.hw.pkey with conns := [] } ∧
    h.pwr = { s.hw.pwr with wipeCause := 0, wipeTev := 0, wipeTamper := false } ∧
    (let tamper := s.hw.pwr.wipeTamper
     let lock := tamper && s.hw.on MEM_THCMD_TAMPER_LOCK
     h.kept = (if lock then { s.hw.kept with tamperLocked := true } else s.hw.kept) ∧
     Changes ((if lock then [(MEM_THSTAT_TAMPER_LOCKED, 1)] else []) ++ (if tamper then [(BKPEV_TSTAT_TPEND, 0)] else []) ++
       [(MEM_KSTAT_LOADED, 0), (MEM_THSTAT_WIPES, satTo 65535 (s.hw.rf MEM_THSTAT_WIPES + 1)), (MEM_THSTAT_BLOCKED, 0),
        (MEM_THSTAT_VERIFIED, 1)]) [.memu, .pkey, .pwr, .kept] s.hw h)) ∧
  (∀ (s : State) (w : Wipe) (t : Nat), s.hw.memu.wipe = some w → w.started = true → s.hw.memu.lcTarget = some t →
    Completes (.wipeVerified true) s fun h => h.fuses = { s.hw.fuses with lifecycle := t } ∧ h.pwr.resetting = true ∧ h.rf WAKE_RSTCAUSE_LAST = 7 ∧
      h.rtc = { s.hw.rtc with latch := none } ∧ Touches (Block.except [.free, .resp]) s.hw h) ∧
  (∀ (s : State) (w : Wipe), s.hw.memu.wipe = some w → w.started = true →
    (w.attempt < 3 → Completes (.wipeVerified false) s fun g => ∃ h, g = h.fwKeep ∧ h.memu = { s.hw.memu with wipe := some { w with attempt := w.attempt + 1 } } ∧
      ThimbleZero s.hw h ∧ Touches [.mem, .ecc, .memu] s.hw h) ∧
    (3 ≤ w.attempt → Completes (.wipeVerified false) s fun g => ∃ h, g = h.fwKeep ∧ h.memu = { s.hw.memu with wipe := none, lcTarget := none } ∧
      h.rf MEM_THSTAT_FAIL = 1 ∧ h.rf (MEM_SCTL_STATE 15) = 7 ∧ h.rf (MEM_SCTL_STATE 16) = 7 ∧ h.rf (MEM_SCTL_AVAIL 15) = 0 ∧
      h.rf (MEM_SCTL_AVAIL 16) = 0 ∧ h.rf MEM_KSTAT_LOADED = 0 ∧
      h.pwr = { s.hw.pwr with wipeCause := 0, wipeTev := 0, wipeTamper := false } ∧ (∀ a, h.byte a = s.hw.byte a) ∧
      Touches [.regs, .pwr, .elogQ, .memu] s.hw h)) ∧
  (∀ (s : State) (l : Fin 10) (v : BitVec 32), (v.toNat / 65536 ≠ 0x4C43 ∨ s.hw.memu.lcTarget ≠ none ∨
      ¬ permitted s.hw.fuses.lifecycle (v.toNat % 8) (s.hw.linkRole l) (l.val == 7)) → Completes (.lcRequest l v) s fun h => h = s.hw) ∧
  (∀ (s : State) (l : Fin 10) (v : BitVec 32), v.toNat / 65536 = 0x4C43 → s.hw.memu.lcTarget = none →
    permitted s.hw.fuses.lifecycle (v.toNat % 8) (s.hw.linkRole l) (l.val == 7) → Completes (.lcRequest l v) s fun h =>
      h.memu.lcTarget = some (v.toNat % 8) ∧ h.pwr.wipeCause = 1 ∧ h.memu.wipe ≠ none ∧ h.fuses = s.hw.fuses ∧
      Touches [.regs, .pwr, .elogQ, .memu] s.hw h) ∧
  (∀ s : State, s.hw.memu.mramCur = none → Completes .mramWordWriteDone s fun h => h = s.hw.resume) ∧
  (∀ (s : State) (a v : Nat), s.hw.memu.mramCur = some (a, v) → Completes .mramWordWriteDone s fun g => ∃ h, g = h.resume ∧
    h.holds a 8 (v % 2 ^ 64) ∧ (∀ b, (b < a ∨ a + 8 ≤ b) → h.byte b = s.hw.byte b) ∧
    h.memu = { s.hw.memu with mramCur := s.hw.memu.mramQueue.head?, mramQueue := s.hw.memu.mramQueue.tail } ∧ Touches [.mem, .ecc, .memu] s.hw h)

/-- The request payload of R458. -/
def reqOf (op tid idx sub : Nat) (d : List Nat) : List Nat := [op, tid, idx % 256, idx / 256, sub, d.length] ++ d

/-- Firmware serves, `req` of link l is at the head of the queue, and no bad request waits behind it. -/
def Asked (s : State) (l : Nat) (req : List Nat) (rest : List (Nat × List Nat)) : Prop :=
  s.hw.fwUp = true ∧ s.hw.fw.requests = (l, req) :: rest ∧ ∀ r ∈ rest, frameFault r.2 = none

/-- Link l has sent a request now (R452). -/
def heard (h : Hw) (l : Nat) : Hw := h.setLink l { h.link l with lastReq := h.tcnt }

/-- The command answers the request at the head with `r`: it leaves the queue and its RESPONSE is sent; of the part before that `P` holds. -/
def Answers (c : Instr) (s : State) (l : Nat) (req : List Nat) (rest : List (Nat × List Nat)) (r : Except Nat (List Nat)) (P : Hw → Prop) : Prop :=
  Completes c s fun h => ∃ g : Hw, h = (g.setRequests rest).respond l req r ∧ P g

/-- The command does nothing where no request with OP `op` can be served. -/
def ServesOnly (c : Instr) (op : Nat) : Prop :=
  (∀ s : State, (s.hw.fwUp = false ∨ s.hw.fw.requests = []) → Completes c s fun h => h = s.hw) ∧
  (∀ (s : State) (l : Nat) (req : List Nat) (rest : List (Nat × List Nat)), Asked s l req rest → frameFault req = none → opOf req ≠ op →
    Completes c s fun h => h = s.hw)

/-- Requests (R466, R467, R648), READ and READ_SEG (R443, R446, R447, R448, R459, R460). -/
def Obligations.RequestsAndReads : Prop :=
  (∀ (s : State) (l : Fin 10) (p : List Nat), l.val < 7 → s.hw.fwUp = true → s.hw.linkUp l = true → (∀ r ∈ s.hw.fw.requests, frameFault r.2 = none) →
    (frameFault p = none → s.hw.queued l < 4 → Completes (.requestReceived l p) s fun h =>
      h = (heard s.hw l).setRequests (s.hw.fw.requests ++ [(l.val, p)])) ∧
    (4 ≤ s.hw.queued l → Completes (.requestReceived l p) s fun h => h = (heard s.hw l).respond l p (.error 0x01000008)) ∧
    (s.hw.fw.requests = [] → (p.length < 6 ∨ p.length < 6 + p.getD 5 0) → Completes (.requestReceived l p) s fun h =>
      h = (heard s.hw l).respond l p (.error 0x01000002)) ∧
    (s.hw.fw.requests = [] → 6 ≤ p.length → 6 + p.getD 5 0 ≤ p.length → (p.getD 0 0 = 0 ∨ 7 < p.getD 0 0) → Completes (.requestReceived l p) s fun h =>
      h = (heard s.hw l).respond l p (.error 0x01000001))) ∧
  (∀ (s : State) (l : Fin 10) (p d : List Nat) (rest : List (Nat × List Nat)), 8 ≤ l.val → s.hw.fwUp = true →
    (∀ r ∈ s.hw.fw.requests, frameFault r.2 = none) → (s.hw.can (l - 8)).rx = (2, d) :: rest → frameFault d = none → s.hw.queued l < 4 →
    Completes (.requestReceived l p) s fun h =>
      h = (heard (s.hw.setCan (l - 8) { s.hw.can (l - 8) with rx := rest }) l).setRequests (s.hw.fw.requests ++ [(l.val, d)])) ∧
  (∀ (s : State) (p : List Nat), s.hw.bootAnswers 7 = false → s.hw.rf LYD_SESS_STATE = 0 →
    Completes (.requestReceived 7 p) s (Changes [(LYD_TALLY_NOSESS, satTo 255 (s.hw.rf LYD_TALLY_NOSESS + 1))] [] s.hw)) ∧
  (∀ (s : State) (l : Fin 10) (p : List Nat), l.val < 7 → s.hw.bootAnswers l = false → s.hw.linkUp l = false →
    Completes (.requestReceived l p) s fun h => h = s.hw) ∧
  (∀ (s : State) (tid : Nat), s.hw.sys.fwRunning = false → s.hw.pwr.resetting = false → s.hw.pwr.state = .run → s.hw.fuses.lifecycle ∉ [0, 5] →
    (Completes (.requestReceived 0 (reqOf 1 tid 0x7030 4 [])) s fun h =>
      h = s.hw.respond 0 (reqOf 1 tid 0x7030 4 []) (.ok (leBytes 4 (s.hw.regValue SYS_BOOT)))) ∧
    (Completes (.requestReceived 0 (reqOf 1 tid 0x7010 5 [])) s fun h =>
      h = s.hw.respond 0 (reqOf 1 tid 0x7010 5 []) (.ok (leBytes 4 (s.hw.regValue WAKE_RSTCAUSE)))) ∧
    (Completes (.requestReceived 0 (reqOf 1 tid 0x7010 1 [])) s fun h => h = s.hw.respond 0 (reqOf 1 tid 0x7010 1 []) (.error 0x07000001))) ∧
  ServesOnly .objectRead 1 ∧ ServesOnly .readSeg 3 ∧
  (∀ (s : State) (l tid idx sub : Nat) (rest : List (Nat × List Nat)), Asked s l (reqOf 1 tid idx sub []) rest →
    (plainObject idx sub = none → sub ≠ 0 → Answers .objectRead s l (reqOf 1 tid idx sub []) rest
      (.error (if topSub idx = 0 then 0x02000001 else 0x02000002)) fun g => g = s.hw) ∧
    (sub = 0 → Answers .objectRead s l (reqOf 1 tid idx sub []) rest
      (if topSub idx = 0 then .error 0x02000001 else .ok [topSub idx]) fun g => g = s.hw) ∧
    (∀ o, sub ≠ 0 → plainObject idx sub = some o → o.kind = .wo →
      Answers .objectRead s l (reqOf 1 tid idx sub []) rest (.error 0x02000004) fun g => g = s.hw) ∧
    (idx = 0xA040 → 1 ≤ sub → sub ≤ 32 → s.hw.linkRole l = 0 →
      Answers .objectRead s l (reqOf 1 tid idx sub []) rest (.error 0x02000005) fun g => g = s.hw) ∧
    (∀ o a, sub ≠ 0 → plainObject idx sub = some o → o.sub = sub → o.idx = idx → o.kind ≠ .wo → s.hw.objectWord idx sub = some a →
      (idx = 0xA040 → 1 ≤ s.hw.linkRole l) →
      (∀ v, (s.hw.read .nav a 4).resp = .data v →
        Answers .objectRead s l (reqOf 1 tid idx sub []) rest (.ok (leBytes 4 v)) fun g => g = s.hw.read .nav a 4) ∧
      ((s.hw.read .nav a 4).resp = .error →
        Answers .objectRead s l (reqOf 1 tid idx sub []) rest (.error 0x07000001) fun g => g = s.hw.read .nav a 4) ∧
      ((s.hw.read .nav a 4).resp = .stalled → Completes .objectRead s fun h => h = s.hw.read .nav a 4)) ∧
    (idx = 0x1000 → sub = 1 → Answers .objectRead s l (reqOf 1 tid idx sub []) rest (.ok [0x4E, 0x4C, 0x45, 0x4B]) fun g => g = s.hw) ∧
    (idx = 0x1020 → sub = 1 → Answers .objectRead s l (reqOf 1 tid idx sub []) rest (.ok [s.hw.linkRole l]) fun g => g = s.hw) ∧
    (∀ p ∈ [(0x1010, 1, 2), (0x1020, 2, 2), (0x4010, 1, 4), (0x4010, 2, 1), (0x4100, 1, 1), (0x5110, 1, 4), (0x5120, 1, 1), (0x6110, 1, 2), (0x8002, 3, 2),
        (0xA010, 2, 1), (0xB030, 3, 1)], idx = p.1 → sub = p.2.1 →
      Answers .objectRead s l (reqOf 1 tid idx sub []) rest (.ok (leBytes p.2.2 (s.hw.obj idx sub))) fun g => g = s.hw) ∧
    (idx = 0x9510 → 1 ≤ sub → sub ≤ 11 → Answers .objectRead s l (reqOf 1 tid idx sub []) rest
      (let v := Store.get (fun _ => []) s.hw.bgnd.tele sub
       if 56 < v.length then .error 0x01000003 else .ok v) fun g => g = s.hw)) ∧
  (∀ (s : State) (l tid idx sub : Nat) (d : List Nat) (rest : List (Nat × List Nat)), Asked s l (reqOf 3 tid idx sub d) rest →
    (d.length < 5 → Answers .readSeg s l (reqOf 3 tid idx sub d) rest (.error 0x01000002) fun g => g = s.hw) ∧
    (5 ≤ d.length → idx = 0x9510 → 1 ≤ sub → sub ≤ 11 → Answers .readSeg s l (reqOf 3 tid idx sub d) rest
      (let v := Store.get (fun _ => []) s.hw.bgnd.tele sub
       let off := leNat (d.take 4)
       .ok (leBytes 4 off ++ leBytes 4 v.length ++ (v.drop off).take (min (d.getD 4 0) (if 8 ≤ l then 48 else 224)))) fun g => g = s.hw) ∧
    (5 ≤ d.length → sub ≠ 0 → plainObject idx sub = none → Answers .readSeg s l (reqOf 3 tid idx sub d) rest
      (.error (if topSub idx = 0 then 0x02000001 else 0x02000002)) fun g => g = s.hw))

/-- From `h` to `h'` link l becomes `k` and nothing else changes. -/
def OnlyLink (l : Nat) (k : Link) (h h' : Hw) : Prop :=
  h'.link l = k ∧ (∀ j, j ≠ l → h'.link j = h.link j) ∧ ∃ links, h' = { h with fw := { h.fw with links := links } }

/-- Link l may write the object (R446, R447, R464). -/
def MayWrite (h : Hw) (l idx sub : Nat) (o : ObjDef) : Prop :=
  sub ≠ 0 ∧ plainObject idx sub = some o ∧ o.idx = idx ∧ o.sub = sub ∧ o.kind ≠ .ro ∧ o.kind ≠ .const ∧ o.role ≤ h.linkRole l ∧
  ∀ k, k < 10 → k ≠ l → ∀ x ∈ (h.link k).segs, ¬ (x.idx = idx ∧ x.sub = sub)

/-- A WRITE_SEG request (Table 10.4). -/
def segReq (tid idx sub off total flags : Nat) (bs : List Nat) : List Nat :=
  reqOf 4 tid idx sub (leBytes 4 off ++ leBytes 4 total ++ [flags] ++ bs)

/-- The other transfers of a link. -/
def otherSegs (k : Link) (idx sub : Nat) : List SegWrite := k.segs.filter fun (x : SegWrite) => !(x.idx == idx && x.sub == sub)

/-- The abandonments of a link that concern other objects. -/
def otherDead (k : Link) (idx sub : Nat) : List (Nat × Nat × Nat) := k.dead.filter fun (e : Nat × Nat × Nat) => e.2 != (idx, sub)

/-- WRITE, WRITE_SEG, ABORT and the 2 s limit (R445 to R449, R459, R461 to R465, R500 to R503, R505, R508, R509). -/
def Obligations.ObjectWrites : Prop :=
  ServesOnly .objectWrite 2 ∧ ServesOnly .writeSeg 4 ∧ ServesOnly .abortTransfer 7 ∧
  (∀ (s : State) (l tid idx sub : Nat) (d : List Nat) (rest : List (Nat × List Nat)), Asked s l (reqOf 2 tid idx sub d) rest →
    (plainObject idx sub = none → sub ≠ 0 → Answers .objectWrite s l (reqOf 2 tid idx sub d) rest
      (.error (if topSub idx = 0 then 0x02000001 else 0x02000002)) fun g => g = s.hw) ∧
    (sub = 0 → Answers .objectWrite s l (reqOf 2 tid idx sub d) rest (.error (if topSub idx = 0 then 0x02000001 else 0x02000003)) fun g => g = s.hw) ∧
    (∀ o, sub ≠ 0 → plainObject idx sub = some o → (o.kind = .ro ∨ o.kind = .const) →
      Answers .objectWrite s l (reqOf 2 tid idx sub d) rest (.error 0x02000003) fun g => g = s.hw) ∧
    (∀ o, sub ≠ 0 → plainObject idx sub = some o → o.kind ≠ .ro → o.kind ≠ .const → s.hw.linkRole l < o.role → (idx = 0x8001 → 3 < sub) →
      Answers .objectWrite s l (reqOf 2 tid idx sub d) rest (.error 0x02000005) fun g => g = s.hw) ∧
    (∀ o k x, sub ≠ 0 → plainObject idx sub = some o → o.kind ≠ .ro → o.kind ≠ .const → o.role ≤ s.hw.linkRole l → k < 10 → k ≠ l →
      x ∈ (s.hw.link k).segs → x.idx = idx → x.sub = sub → Answers .objectWrite s l (reqOf 2 tid idx sub d) rest (.error 0x02000007) fun g => g = s.hw) ∧
    (∀ o, MayWrite s.hw l idx sub o →
      (56 < d.length → Answers .objectWrite s l (reqOf 2 tid idx sub d) rest (.error 0x01000003) fun g => g = s.hw) ∧
      (d.length ≤ 56 → o.size ≠ 0 → d.length ≠ o.size →
        Answers .objectWrite s l (reqOf 2 tid idx sub d) rest (.error 0x03000001) fun g => g = s.hw) ∧
      (∀ lo hi, o.size ≠ 0 → o.size ≤ 8 → d.length = o.size → o.check = .range lo hi → (leNat d < lo ∨ hi < leNat d) →
        Answers .objectWrite s l (reqOf 2 tid idx sub d) rest (.error 0x03000002) fun g => g = s.hw) ∧
      (∀ a, o.size = 4 → d.length = 4 → o.check = .any → o.kind ≠ .rwp → s.hw.objectWord idx sub = some a → a ≠ MEM_LCREQ → a ≠ RADIO_FBLOW →
        (s.hw.busAccess .nav a 4 true = .stall → Completes .objectWrite s fun h => h = s.hw) ∧
        (∀ w, w = s.hw.write .nav a 4 (leNat d) false → s.hw.busAccess .nav a 4 true ≠ .stall → w.fwUp = true → w.fw.requests = s.hw.fw.requests →
          (w.resp = .okay → Answers .objectWrite s l (reqOf 2 tid idx sub d) rest (.ok []) fun g => g = w) ∧
          (w.resp = .error → Answers .objectWrite s l (reqOf 2 tid idx sub d) rest (.error 0x07000001) fun g => g = w))) ∧
      (idx = 0x4010 → sub = 2 → ∀ v, d = [v] → v < 2 →
        Answers .objectWrite s l (reqOf 2 tid idx sub d) rest (.ok []) fun g => g = (s.hw.setObj 0x4010 2 v).notice 0x4010 2 [v]) ∧
      (idx = 0x1010 → sub = 1 → ∀ v, d = leBytes 2 v → (v = 0 ∨ (100 ≤ v ∧ v ≤ 10000)) →
        (65536 < s.hw.liveBytes 0x1010 1 d → Answers .objectWrite s l (reqOf 2 tid idx sub d) rest (.error 0x05000001) fun g => g = s.hw) ∧
        (s.hw.liveBytes 0x1010 1 d ≤ 65536 → 131072 < s.hw.fw.journal.free + 32 → s.hw.compactable = false →
          Answers .objectWrite s l (reqOf 2 tid idx sub d) rest (.error 0x05000002) fun g => g = s.hw) ∧
        (s.hw.liveBytes 0x1010 1 d ≤ 65536 → s.hw.fw.journal.free + 32 ≤ 131072 →
          Answers .objectWrite s l (reqOf 2 tid idx sub d) rest (.ok []) fun g =>
            let j := s.hw.fw.journal
            let a := areaBase j.area + j.free
            g.obj 0x1010 1 = v ∧ g.fw.journal = { j with free := j.free + 32, seq := (j.seq + 1) % 2 ^ 32 } ∧
            g.holds a 8 (0x1010 + 0x10000 + 0x1000000 + 2 * 2 ^ 32) ∧ g.holds (a + 8) 4 ((j.seq + 1) % 2 ^ 32) ∧
            (∀ c, c = crc32 (leBytes 4 j.gen ++ leBytes 8 (0x1010 + 0x10000 + 0x1000000 + 2 * 2 ^ 32) ++ leBytes 4 ((j.seq + 1) % 2 ^ 32) ++ leBytes 8 v) →
              c < 2 ^ 32 → g.holds (a + 12) 4 c) ∧
            g.holds (a + 16) 8 v ∧ g.holds (a + 24) 8 0x4A434D545A5AA5A5 ∧ (∀ b, (b < a ∨ a + 32 ≤ b) → g.byte b = s.hw.byte b) ∧
            Touches [.mem, .ecc, .fw] s.hw g)))) ∧
  (∀ (s : State) (l tid idx sub off total flags : Nat) (bs d : List Nat) (rest : List (Nat × List Nat)) (o : ObjDef),
    Asked s l (reqOf 4 tid idx sub d) rest → MayWrite s.hw l idx sub o →
    (d.length < 9 → Answers .writeSeg s l (reqOf 4 tid idx sub d) rest (.error 0x01000002) fun g => g = s.hw) ∧
    (d = leBytes 4 off ++ leBytes 4 total ++ [flags] ++ bs → off < 2 ^ 32 → total < 2 ^ 32 → bs.length ≤ (if 8 ≤ l then 48 else 224) →
      (∀ c, (c, idx, sub) ∈ (s.hw.link l).dead → (∀ e ∈ (s.hw.link l).dead, e.2 = (idx, sub) → e.1 = c) → s.hw.segOf l idx sub = none →
        Answers .writeSeg s l (reqOf 4 tid idx sub d) rest (.error c)
          (OnlyLink l { s.hw.link l with dead := otherDead (s.hw.link l) idx sub } s.hw)) ∧
      (∀ x, s.hw.segOf l idx sub = some x → x.last + 2 * 491520000 < s.hw.tcnt →
        Answers .writeSeg s l (reqOf 4 tid idx sub d) rest (.error 0x01000006)
          (OnlyLink l { s.hw.link l with segs := otherSegs (s.hw.link l) idx sub, dead := otherDead (s.hw.link l) idx sub } s.hw)) ∧
      ((∀ e ∈ (s.hw.link l).dead, e.2 ≠ (idx, sub)) →
        (∀ e, s.hw.segOf l idx sub = none → (s.hw.link l).answered.find? (fun (e : SegDone) => e.idx == idx && e.sub == sub && e.tid == tid && e.off == off) = some e →
          Answers .writeSeg s l (reqOf 4 tid idx sub d) rest (.ok e.answer) fun g => g = s.hw) ∧
        (s.hw.segOf l idx sub = none → (∀ e ∈ (s.hw.link l).answered, ¬ (e.idx = idx ∧ e.sub = sub ∧ e.tid = tid ∧ e.off = off)) →
          (off ≠ 0 → Answers .writeSeg s l (reqOf 4 tid idx sub d) rest (.error 0x01000004) fun g => g = s.hw) ∧
          (off = 0 → flags % 2 = 0 → bs.length ≤ total → Answers .writeSeg s l (reqOf 4 tid idx sub d) rest (.ok (leBytes 4 bs.length))
            (OnlyLink l { s.hw.link l with segs := ⟨[tid], idx, sub, total, bs, 0, s.hw.tcnt⟩ :: otherSegs (s.hw.link l) idx sub } s.hw))) ∧
        (∀ x, s.hw.segOf l idx sub = some x → s.hw.tcnt ≤ x.last + 2 * 491520000 →
          (off = x.prev → total = x.total → Answers .writeSeg s l (reqOf 4 tid idx sub d) rest (.ok (leBytes 4 x.data.length))
            (OnlyLink l { s.hw.link l with segs := { x with tids := tid :: x.tids, last := s.hw.tcnt } :: otherSegs (s.hw.link l) idx sub } s.hw)) ∧
          (¬ (off = x.prev ∧ total = x.total) → (off ≠ x.data.length ∨ total ≠ x.total) →
            Answers .writeSeg s l (reqOf 4 tid idx sub d) rest (.error 0x01000004)
              (OnlyLink l { s.hw.link l with segs := otherSegs (s.hw.link l) idx sub } s.hw)) ∧
          (off ≠ x.prev → off = x.data.length → total = x.total → flags % 2 = 0 → off + bs.length ≤ total →
            Answers .writeSeg s l (reqOf 4 tid idx sub d) rest (.ok (leBytes 4 (off + bs.length)))
              (OnlyLink l { s.hw.link l with
                segs := { x with tids := tid :: x.tids, data := x.data ++ bs, prev := off, last := s.hw.tcnt } :: otherSegs (s.hw.link l) idx sub } s.hw)) ∧
          (off ≠ x.prev → off = x.data.length → total = x.total → flags % 2 = 1 → off + bs.length < total →
            Answers .writeSeg s l (reqOf 4 tid idx sub d) rest (.error 0x01000005)
              (OnlyLink l { s.hw.link l with segs := otherSegs (s.hw.link l) idx sub } s.hw)) ∧
          (∀ v w, off ≠ x.prev → off = x.data.length → total = x.total → flags % 2 = 1 → off + bs.length = total →
            s.hw.putChecked l o (x.data ++ bs) = (.value v, w) → w.fwUp = true → w.fw.requests = s.hw.fw.requests →
            Answers .writeSeg s l (reqOf 4 tid idx sub d) rest (.ok (leBytes 4 total))
              (OnlyLink l { w.link l with
                segs := otherSegs (w.link l) idx sub
                answered := ⟨tid, idx, sub, off, leBytes 4 total⟩ :: (w.link l).answered.filter fun (y : SegDone) => !(y.idx == idx && y.sub == sub) } w)))))) ∧
  (∀ (s : State) (l tid idx sub t : Nat) (rest : List (Nat × List Nat)), Asked s l (reqOf 7 tid idx sub [t]) rest →
    ((∀ x ∈ (s.hw.link l).segs, t ∉ x.tids) → Answers .abortTransfer s l (reqOf 7 tid idx sub [t]) rest (.error 0x01000007) fun g => g = s.hw) ∧
    (∀ x, (s.hw.link l).segs.find? (fun (y : SegWrite) => y.tids.contains t) = some x → Answers .abortTransfer s l (reqOf 7 tid idx sub [t]) rest (.ok [])
      (OnlyLink l { s.hw.link l with
        segs := otherSegs (s.hw.link l) x.idx x.sub
        dead := (0x01000009, x.idx, x.sub) :: (s.hw.link l).dead } s.hw))) ∧
  (∀ (s : State) (l : Fin 10) (idx : BitVec 16) (sub : BitVec 8), (s.hw.fwUp = false ∨ s.hw.segOf l idx.toNat sub.toNat = none) →
    Completes (.segTransferTimeout l idx sub) s fun h => h = s.hw) ∧
  (∀ (s : State) (l : Fin 10) (idx : BitVec 16) (sub : BitVec 8) (x : SegWrite), s.hw.fwUp = true → s.hw.segOf l idx.toNat sub.toNat = some x →
    Completes (.segTransferTimeout l idx sub) s (OnlyLink l { s.hw.link l with
      segs := otherSegs (s.hw.link l) idx.toNat sub.toNat
      dead := (0x01000006, idx.toNat, sub.toNat) :: (s.hw.link l).dead } { s.hw with tcnt := max s.hw.tcnt ((x.last + 2 * 491520000 + 1) % 2 ^ 64) }))

/-- The command does nothing where no AUTH request of STEP n can be served. -/
def AuthOnly (c : Instr) (n : Nat) : Prop :=
  (∀ s : State, (s.hw.fwUp = false ∨ s.hw.fw.requests = []) → Completes c s fun h => h = s.hw) ∧
  (∀ (s : State) (l : Nat) (req : List Nat) (rest : List (Nat × List Nat)), Asked s l req rest → frameFault req = none →
    (opOf req ≠ 6 ∨ (dataOf req).getD 0 0 ≠ n) → Completes c s fun h => h = s.hw)

/-- A nonce of the link is valid now (R457). -/
def NonceValid (h : Hw) (l : Nat) : Prop := (h.link l).nonce ≠ [] ∧ h.tcnt ≤ (h.link l).nonceAt + 10 * 491520000

/-- AUTH may give link l the role (R454, R543). -/
def RoleOpen (h : Hw) (l role : Nat) : Prop :=
  let open_ : Prop := l = 7 ∧ h.rf LYD_SESS_STATE ≠ 0
  role = 1 ∨ (role = 2 ∧ open_) ∨
  (role = 3 ∧ (h.fuses.lifecycle = 1 ∨ h.fuses.lifecycle = 4 ∨ ((h.fuses.lifecycle = 2 ∨ h.fuses.lifecycle = 3) ∧ open_)))

/-- The link without its nonce. -/
def spent (k : Link) : Link := { k with nonce := [], sigR := [] }

/-- The link after one more failed proof (R457). -/
def failed (k : Link) (t : Nat) : Link :=
  if 8 ≤ k.fails + 1 then { spent k with fails := k.fails + 1, barred := true, barAt := t } else { spent k with fails := k.fails + 1 }

/-- AUTH and the expiries of sessions (R452 to R457, R543, R544). -/
def Obligations.Sessions : Prop :=
  AuthOnly .authStep1 1 ∧ AuthOnly .authStep2 2 ∧ AuthOnly .authStep3 3 ∧
  (∀ (s : State) (l tid idx sub : Nat) (d : List Nat) (rest : List (Nat × List Nat)),
    (8 ≤ l →
      (d.getD 0 0 = 1 → Asked s l (reqOf 6 tid idx sub d) rest → Answers .authStep1 s l (reqOf 6 tid idx sub d) rest (.error 0x04000003) fun g => g = s.hw) ∧
      (d.getD 0 0 = 2 → Asked s l (reqOf 6 tid idx sub d) rest → Answers .authStep2 s l (reqOf 6 tid idx sub d) rest (.error 0x04000003) fun g => g = s.hw) ∧
      (d.getD 0 0 = 3 → Asked s l (reqOf 6 tid idx sub d) rest → Answers .authStep3 s l (reqOf 6 tid idx sub d) rest (.error 0x04000003) fun g => g = s.hw)) ∧
    (l < 8 → d.getD 0 0 = 1 → Asked s l (reqOf 6 tid idx sub d) rest →
      ((s.hw.link l).barred = true → s.hw.tcnt < (s.hw.link l).barAt + 60 * 491520000 →
        Answers .authStep1 s l (reqOf 6 tid idx sub d) rest (.error 0x04000001) fun g => g = s.hw) ∧
      (((s.hw.link l).barred = false ∨ (s.hw.link l).barAt + 60 * 491520000 ≤ s.hw.tcnt) → ∃ n : List Nat, n.length = 16 ∧
        Answers .authStep1 s l (reqOf 6 tid idx sub d) rest (.ok n)
          (OnlyLink l { s.hw.link l with nonce := n, nonceAt := s.hw.tcnt, sigR := [] } { s.hw with free := s.hw.free + 4 }))) ∧
    (l < 8 → d.getD 0 0 = 2 → d.length = 33 → Asked s l (reqOf 6 tid idx sub d) rest →
      (NonceValid s.hw l → (s.hw.link l).sigR = [] → Answers .authStep2 s l (reqOf 6 tid idx sub d) rest (.ok [])
        (OnlyLink l { s.hw.link l with sigR := d.drop 1 } s.hw)) ∧
      ((¬ NonceValid s.hw l ∨ (s.hw.link l).sigR ≠ []) → Answers .authStep2 s l (reqOf 6 tid idx sub d) rest (.error 0x04000002)
        (OnlyLink l (spent (s.hw.link l)) s.hw))) ∧
    (∀ role, l < 8 → d.getD 0 0 = 3 → d.length = 34 → role = d.getD 33 0 → Asked s l (reqOf 6 tid idx sub d) rest →
      ((¬ NonceValid s.hw l ∨ (s.hw.link l).sigR = []) → Answers .authStep3 s l (reqOf 6 tid idx sub d) rest (.error 0x04000002)
        (OnlyLink l (spent (s.hw.link l)) s.hw)) ∧
      (NonceValid s.hw l → (s.hw.link l).sigR ≠ [] →
        (¬ RoleOpen s.hw l role → Answers .authStep3 s l (reqOf 6 tid idx sub d) rest (.error 0x04000003) (OnlyLink l (spent (s.hw.link l)) s.hw)) ∧
        (RoleOpen s.hw l role →
          (s.hw.keyWithId (if role = 1 then 0x0100 else if role = 2 then 0x0200 else 1) = none →
            Answers .authStep3 s l (reqOf 6 tid idx sub d) rest (.error 0x04000004) (OnlyLink l (spent (s.hw.link l)) s.hw)) ∧
          (∀ key, s.hw.keyWithId (if role = 1 then 0x0100 else if role = 2 then 0x0200 else 1) = some key →
            (Config.signatureOk key ((s.hw.link l).nonce ++ leBytes 8 s.hw.fuses.unique ++ [role, l]) (s.hw.link l).sigR ((d.drop 1).take 32) = true →
              (l < 7 → Answers .authStep3 s l (reqOf 6 tid idx sub d) rest (.ok [role])
                (OnlyLink l { spent (s.hw.link l) with role := role } s.hw)) ∧
              (l = 7 → Answers .authStep3 s l (reqOf 6 tid idx sub d) rest (.ok [role]) fun g =>
                g.link 7 = { spent (s.hw.link 7) with role := role } ∧ g.lyd = { s.hw.lyd with service := s.hw.tcnt } ∧
                Changes [(LYD_SESS_ROLE, role)] [.fw, .lyd] s.hw g)) ∧
            (Config.signatureOk key ((s.hw.link l).nonce ++ leBytes 8 s.hw.fuses.unique ++ [role, l]) (s.hw.link l).sigR ((d.drop 1).take 32) = false →
              Answers .authStep3 s l (reqOf 6 tid idx sub d) rest (.error 0x04000001) fun g =>
                g.link l = failed (s.hw.link l) s.hw.tcnt ∧ g.obj 0x1020 2 = satTo 65535 (s.hw.obj 0x1020 2 + 1) ∧
                (role ≠ 2 → Touches [.fw] s.hw g) ∧ (role = 2 → Touches [.fw, .elogQ, .regs] s.hw g)))))) ) ∧
  (∀ (s : State) (l : Fin 10), (s.hw.link l).nonce = [] → Completes (.nonceExpiry l) s fun h => h = s.hw) ∧
  (∀ (s : State) (l : Fin 10), (s.hw.link l).nonce ≠ [] → Completes (.nonceExpiry l) s
    (OnlyLink l (spent (s.hw.link l)) { s.hw with tcnt := max s.hw.tcnt (((s.hw.link l).nonceAt + 10 * 491520000) % 2 ^ 64) })) ∧
  (∀ (s : State) (l : Fin 10), (s.hw.link l).barred = false → Completes (.authBarExpiry l) s fun h => h = s.hw) ∧
  (∀ (s : State) (l : Fin 10), (s.hw.link l).barred = true → Completes (.authBarExpiry l) s
    (OnlyLink l { s.hw.link l with barred := false, fails := 0 }
      { s.hw with tcnt := max s.hw.tcnt (((s.hw.link l).barAt + 60 * 491520000) % 2 ^ 64) })) ∧
  (∀ (s : State) (l : Fin 10), (8 ≤ l.val ∨ s.hw.fwUp = false) → Completes (.sessionTimeout l) s fun h => h = s.hw) ∧
  (∀ (s : State) (l : Fin 10), l.val < 7 → s.hw.fwUp = true → Completes (.sessionTimeout l) s
    (OnlyLink l { s.hw.link l with role := 0 }
      { s.hw with
        tcnt := max s.hw.tcnt (((s.hw.link l).lastReq + 300 * 491520000) % 2 ^ 64)
        fw := { s.hw.fw with subs := s.hw.fw.subs.filter fun (x : Sub) => x.link != l.val } }))

/-- The SUBSCRIBE data of Table 10.4. -/
def subReq (tid idx sub mode period minInt : Nat) : List Nat := reqOf 5 tid idx sub ([mode] ++ leBytes 2 period ++ leBytes 2 minInt)

/-- The NOTIFY payload (R473). -/
def noteOf (x : Sub) (v : List Nat) : List Nat := leBytes 2 x.idx ++ [x.sub, x.nseq] ++ (if 56 < v.length then [0xFF] else v.length :: v)

/-- The object of the subscription has changed: noticed at its register's sampling, or, for an object of the firmware other than WS_AGE, because its value
is not the one last seen (R472). -/
def Stirred (h : Hw) (x : Sub) : Prop :=
  x.changed = true ∨ ∃ o, fwObject x.idx x.sub = some o ∧ ¬ (x.idx = 0x4010 ∧ x.sub = 3) ∧ h.objectWord x.idx x.sub = none ∧ h.fwValue x.link o ≠ x.seen

/-- A notification of the subscription falls due at timing count t, `ch` saying that its object has changed (R470, R472). -/
def DueAt (x : Sub) (ch : Prop) (t : Nat) : Prop :=
  (x.waiting = false ∧ (x.mode = 1 ∨ x.mode = 3) ∧ ch ∧ x.sentAt = none ∧ t = 0) ∨
  (∃ p, x.waiting = false ∧ x.mode = 1 ∧ ch ∧ x.sentAt = some p ∧ t = p + x.minInt * 491520) ∨
  (x.waiting = false ∧ x.mode = 2 ∧ t = x.since + x.period * 491520) ∨
  (x.waiting = false ∧ x.mode = 3 ∧ ¬ ch ∧ t = x.since + x.period * 491520) ∨
  (∃ p, x.waiting = false ∧ x.mode = 3 ∧ ch ∧ x.sentAt = some p ∧ t = min (p + x.minInt * 491520) (x.since + x.period * 491520)) ∨
  (x.waiting = true ∧ t = 0)

/-- The list of subscriptions with the one in slot i replaced. -/
def subsWith (h : Hw) (y : Sub) : List Sub := h.fw.subs.map fun (x : Sub) => if x.slot = y.slot then y else x

/-- The subscription after a notification with value v at timing count t. -/
def notified (x : Sub) (v : List Nat) (t : Nat) : Sub :=
  { x with seen := v, changed := false, waiting := false, nseq := (x.nseq + 1) % 256, sentAt := some t, since := t }

/-- Subscriptions (R470 to R474). -/
def Obligations.Subscriptions : Prop :=
  ServesOnly .subscribe 5 ∧
  (∀ (s : State) (l tid idx sub : Nat) (d : List Nat) (rest : List (Nat × List Nat)), Asked s l (reqOf 5 tid idx sub d) rest → d.length < 5 →
    Answers .subscribe s l (reqOf 5 tid idx sub d) rest (.error 0x01000002) fun g => g = s.hw) ∧
  (∀ (s : State) (l tid idx sub mode period minInt : Nat) (rest : List (Nat × List Nat)), Asked s l (subReq tid idx sub mode period minInt) rest →
    period < 65536 → minInt < 65536 →
    ((3 < mode ∨ (mode ≠ 0 ∧ (period < 10 ∨ 60000 < period ∨ 60000 < minInt))) →
      Answers .subscribe s l (subReq tid idx sub mode period minInt) rest (.error 0x06000002) fun g => g = s.hw) ∧
    (mode ≤ 3 → (mode = 0 ∨ (10 ≤ period ∧ period ≤ 60000 ∧ minInt ≤ 60000)) →
      (∀ c g, s.hw.objectRead l idx sub = (.abort c, g) → Answers .subscribe s l (subReq tid idx sub mode period minInt) rest (.error c) fun g' => g' = g) ∧
      (∀ v g, s.hw.objectRead l idx sub = (.value v, g) →
        (mode = 0 → (∀ x ∈ s.hw.fw.subs, ¬ (x.link = l ∧ x.idx = idx ∧ x.sub = sub)) → ∃ b, b < 256 ∧
          Answers .subscribe s l (subReq tid idx sub mode period minInt) rest (.ok [b]) fun g' => g' = { g with free := g.free + 1 }) ∧
        (∀ x, mode = 0 → s.hw.fw.subs.find? (fun (x : Sub) => x.link == l && x.idx == idx && x.sub == sub) = some x →
          Answers .subscribe s l (subReq tid idx sub mode period minInt) rest (.ok [x.slot]) fun g' =>
            g' = { g with fw := { g.fw with subs := s.hw.fw.subs.filter fun (y : Sub) => y.slot != x.slot } }) ∧
        (∀ x, mode ≠ 0 → s.hw.fw.subs.find? (fun (x : Sub) => x.link == l && x.idx == idx && x.sub == sub) = some x →
          Answers .subscribe s l (subReq tid idx sub mode period minInt) rest (.ok [x.slot]) fun g' =>
            g' = { g with fw := { g.fw with subs := subsWith s.hw ⟨x.slot, l, idx, sub, mode, period, minInt, x.nseq, x.sentAt, s.hw.tcnt, v, false, false⟩ } }) ∧
        (mode ≠ 0 → (∀ x ∈ s.hw.fw.subs, ¬ (x.link = l ∧ x.idx = idx ∧ x.sub = sub)) →
          ((∀ i, i < 32 → ∃ x ∈ s.hw.fw.subs, x.slot = i) →
            Answers .subscribe s l (subReq tid idx sub mode period minInt) rest (.error 0x06000001) fun g' => g' = g) ∧
          (∀ i, i < 32 → (∀ x ∈ s.hw.fw.subs, x.slot ≠ i) → (∀ j, j < i → ∃ x ∈ s.hw.fw.subs, x.slot = j) →
            Answers .subscribe s l (subReq tid idx sub mode period minInt) rest (.ok [i]) fun g' =>
              g' = { g with fw := { g.fw with subs := s.hw.fw.subs ++ [⟨i, l, idx, sub, mode, period, minInt, 0, none, s.hw.tcnt, v, false, false⟩] } }))))) ∧
  (∀ s : State, (s.hw.fwUp = false ∨ s.hw.fw.subs = []) → Completes .registerSampling s fun h => h = s.hw) ∧
  (∀ (s : State) (x : Sub), s.hw.fwUp = true → s.hw.fw.subs = [x] →
    ((x.sub = 0 ∨ s.hw.objectWord x.idx x.sub = none) → Completes .registerSampling s fun h => h = s.hw) ∧
    (∀ v g, x.sub ≠ 0 → s.hw.objectWord x.idx x.sub ≠ none → s.hw.objectRead x.link x.idx x.sub = (.value v, g) →
      (v = x.seen → Completes .registerSampling s fun h => h = g) ∧
      (v ≠ x.seen → Completes .registerSampling s fun h => h = { g with fw := { g.fw with subs := [{ x with seen := v, changed := true }] } }))) ∧
  (∀ (s : State) (i : Fin 32), (s.hw.fwUp = false ∨ ∀ x ∈ s.hw.fw.subs, x.slot ≠ i) → Completes (.notifySend i) s fun h => h = s.hw) ∧
  (∀ (s : State) (i : Fin 32) (x : Sub), s.hw.fwUp = true → s.hw.fw.subs.find? (fun (x : Sub) => x.slot == i.val) = some x →
    (x.waiting = false → (x.mode = 1 → ¬ Stirred s.hw x) → x.mode ≠ 2 → x.mode ≠ 3 → Completes (.notifySend i) s fun h => h = s.hw) ∧
    (∀ t v g, DueAt x (Stirred s.hw x) t → ({ s.hw with tcnt := max s.hw.tcnt (t % 2 ^ 64) } : Hw).objectRead x.link x.idx x.sub = (.value v, g) →
      (x.link < 8 → (g.link x.link).out = [] → Completes (.notifySend i) s fun h =>
        ∃ g', g' = g.wowellSend x.link 1 (noteOf x v) ∧ h = { g' with fw := { g'.fw with subs := subsWith g (notified x v g.tcnt) } }) ∧
      (8 ≤ x.link → (g.can (x.link - 8)).tx.length < 32 → Completes (.notifySend i) s fun h =>
        h = { g.canSend (x.link - 8) 1 (noteOf x v) none (some (x.link, x.idx, x.sub)) with
          fw := { g.fw with subs := subsWith g (notified x v g.tcnt) } }) ∧
      (8 ≤ x.link → x.link < 10 → 32 ≤ (g.can (x.link - 8)).tx.length → (∃ f ∈ (g.can (x.link - 8)).tx, f.sub = some (x.link, x.idx, x.sub)) →
        g.on (CAN_CFG_FDOE (x.link - 8)) = true → Completes (.notifySend i) s fun h =>
          (h.can (x.link - 8)).tx = (g.can (x.link - 8)).tx.map (fun (f : CanFrame) =>
            if f.sub = some (x.link, x.idx, x.sub) then { f with data := canPad (noteOf x v) } else f) ∧
          h.fw = { g.fw with subs := subsWith g (notified x v g.tcnt) } ∧
          Changes [(CAN_TALLY_NOTIFY_COAL (x.link - 8), satTo 65535 (g.rf (CAN_TALLY_NOTIFY_COAL (x.link - 8)) + 1))] [.cans, .fw] g h) ∧
      (x.waiting = false → 8 ≤ x.link → 32 ≤ (g.can (x.link - 8)).tx.length → (∀ f ∈ (g.can (x.link - 8)).tx, f.sub ≠ some (x.link, x.idx, x.sub)) →
        Completes (.notifySend i) s fun h =>
          h = { g with fw := { g.fw with subs := subsWith g { x with seen := v, changed := false, waiting := true, since := g.tcnt } } })))

/-- The window reads n words from `a`, none of which waits or fails: `vs` are the data and `g` is the part after them (R484). -/
def HostReads (h : Hw) (a : Nat) : Nat → List Nat → Hw → Prop
  | 0, vs, g => vs = [] ∧ g = h
  | n + 1, vs, g => ∃ ws v f, HostReads h a n ws f ∧ f.busAccess .host (a + 4 * n) 4 false ≠ .stall ∧ (f.read .host (a + 4 * n) 4).resp = .data v ∧
      vs = ws ++ [v] ∧ g = f.read .host (a + 4 * n) 4

/-- The window writes the words of `vs` from `a` upwards without collision, wait or failure, and `g` is the part after them (R484). -/
def HostWrites (h : Hw) (a : Nat) : List Nat → Hw → Prop
  | [], g => g = h
  | v :: vs, g => h.busAccess .host a 4 true ≠ .stall ∧ (h.write .host a 4 v false).resp ≠ .error ∧ HostWrites (h.write .host a 4 v false) (a + 4) vs g

/-- The WRESP frame of a window access that is over. -/
def answeredWindow (g : Hw) (a k status : Nat) (vs : List Nat) : Hw :=
  ({ g with win := none } : Hw).wowellSend 6 0x0A (leBytes 4 a ++ [k, status] ++ vs.flatMap (leBytes 4))

/-- BADFRAME of the host SPI port counts one more. -/
def badCount (h : Hw) : Fld × Nat := (HSPI_STAT_BADFRAME, satTo 65535 (h.rf HSPI_STAT_BADFRAME + 1))

/-- The bytes of a Wowell frame that is not complete (R477). -/
def PartialFrame (l : Nat) (bs : List Nat) : Prop :=
  bs = [0xA5] ∨ (∃ n, n ≤ 248 ∧ bs = [0xA5, n]) ∨
  ∃ n t p, n ≤ 248 ∧ typeOk l t = true ∧ p.length < n + 2 ∧ bs = [0xA5, n, t] ++ p

/-- A false start: 0xA5 and what follows it is no frame of link l (R477). -/
def FalseStart (l : Nat) (rest : List Nat) : Prop :=
  ∃ n t more, rest = [n, t] ++ more ∧ (248 < n ∨ (n ≤ 248 ∧ typeOk l t = false) ∨
    (n ≤ 248 ∧ typeOk l t = true ∧ n + 2 ≤ more.length ∧ 256 * more.getD n 0 + more.getD (n + 1) 0 ≠ crc16 ([n, t] ++ more.take n)))

/-- The Wowell receivers, the host SPI port and the host window (R475 to R484). -/
def Obligations.WowellAndWindow : Prop :=
  (∀ (s : State) (l : Fin 10) (hits : List Nat), 8 ≤ l.val → Completes (.wowellFrameReceived l hits) s fun h => h = s.hw) ∧
  (∀ (s : State) (hits junk : List Nat), s.hw.win = none → 0xA5 ∉ junk →
    ((s.hw.link 6).rx = junk → Completes (.wowellFrameReceived 6 hits) s (OnlyLink 6 { s.hw.link 6 with rx := [] } s.hw)) ∧
    (∀ bs, PartialFrame 6 bs → (s.hw.link 6).rx = junk ++ bs →
      Completes (.wowellFrameReceived 6 hits) s (OnlyLink 6 { s.hw.link 6 with rx := bs } s.hw)) ∧
    (∀ p more, p.length ≤ 248 → (s.hw.link 6).rx = junk ++ wowellFrame 2 p ++ more → Completes (.wowellFrameReceived 6 hits) s fun h =>
      h = (s.hw.setLink 6 { s.hw.link 6 with rx := more }).request 6 p) ∧
    (∀ t p more, 8 ≤ t → t ≤ 10 → p.length ≤ 248 → s.hw.on HSPI_CFG_WIN_EN = false → (s.hw.link 6).rx = junk ++ wowellFrame t p ++ more →
      Completes (.wowellFrameReceived 6 hits) s fun h =>
        h.link 6 = { s.hw.link 6 with rx := more } ∧ Changes [badCount s.hw] [.fw] s.hw h) ∧
    (∀ rest, FalseStart 6 rest → (s.hw.link 6).rx = junk ++ [0xA5] ++ rest → Completes (.wowellFrameReceived 6 hits) s fun h =>
      h.link 6 = { s.hw.link 6 with rx := rest } ∧ Changes [badCount s.hw] [.fw] s.hw h)) ∧
  (∀ (s : State) (l : Fin 10) (hits junk p more : List Nat), l.val < 6 → s.hw.fwUp = true → s.hw.linkUp l = true → 0xA5 ∉ junk → p.length ≤ 248 →
    (s.hw.link l).rx ++ (s.hw.serial l).rx.map (· % 256) = junk ++ wowellFrame 2 p ++ more → Completes (.wowellFrameReceived l hits) s fun h =>
      ∃ g : Hw, h = g.request l p ∧ g.link l = { s.hw.link l with rx := more } ∧ g.serial l = { s.hw.serial l with rx := [] } ∧
        g.fw.requests = s.hw.fw.requests ∧ Touches [.fw, .serials] s.hw g) ∧
  (∀ (s : State) (l : Fin 10), (l.val = 6 ∨ 8 ≤ l.val) → Completes (.wowellGapTimeout l) s fun h => h = s.hw) ∧
  (∀ (s : State) (l : Fin 10) (bs : List Nat), l.val < 6 → s.hw.fwUp = true → s.hw.linkUp l = true → PartialFrame l bs →
    (s.hw.link l).rx ++ (s.hw.serial l).rx.map (· % 256) = bs → Completes (.wowellGapTimeout l) s fun h =>
      h.link l = { s.hw.link l with rx := [] } ∧ h.serial l = { s.hw.serial l with rx := [] } ∧ Touches [.fw, .serials] s.hw h) ∧
  (∀ (s : State) (b : BitVec 8), (s.hw.on HSPI_CFG_EN = false ∨ s.hw.clocked = false) → Completes (.hspiByteExchange b) s fun h => h = s.hw) ∧
  (∀ (s : State) (b : BitVec 8), s.hw.on HSPI_CFG_EN = true → s.hw.clocked = true →
    (s.hw.fw.hspiOut = [] → Completes (.hspiByteExchange b) s fun h => h.resp = .data 0 ∧ h.fw.hspiCs = true ∧ h.fw.hspiOut = [] ∧
      h.link 6 = { s.hw.link 6 with rx := (s.hw.link 6).rx ++ [b.toNat] } ∧ Touches [.fw, .resp] s.hw h) ∧
    (∀ x rest, s.hw.fw.hspiOut = x :: rest → Completes (.hspiByteExchange b) s fun h => h.resp = .data x ∧ h.fw.hspiCs = true ∧
      h.fw.hspiOut = rest ++ (s.hw.link 6).out.take (1023 - rest.length) ∧
      h.link 6 = { s.hw.link 6 with rx := (s.hw.link 6).rx ++ [b.toNat], out := (s.hw.link 6).out.drop (1023 - rest.length) } ∧
      (0 < s.hw.fw.hspiPart → h.fw.hspiPart = s.hw.fw.hspiPart - 1) ∧
      (∀ n more, s.hw.fw.hspiPart = 0 → rest = n :: more → h.fw.hspiPart = n + 4) ∧ Touches [.fw, .resp] s.hw h)) ∧
  (∀ s : State, s.hw.win = none →
    ((s.hw.link 6).rx = [] → s.hw.fw.hspiPart = 0 → Completes .hspiCsDeassert s fun h => h = { s.hw with fw := { s.hw.fw with hspiCs := false } }) ∧
    (PartialFrame 6 (s.hw.link 6).rx → s.hw.fw.hspiPart = 0 → Completes .hspiCsDeassert s fun h =>
      h.link 6 = { s.hw.link 6 with rx := [] } ∧ h.fw.hspiCs = false ∧ Changes [badCount s.hw] [.fw] s.hw h) ∧
    ((s.hw.link 6).rx = [] → 0 < s.hw.fw.hspiPart → s.hw.fw.hspiPart ≤ s.hw.fw.hspiOut.length → (s.hw.link 6).out = [] → Completes .hspiCsDeassert s fun h =>
      h.fw.hspiOut = s.hw.fw.hspiOut.drop s.hw.fw.hspiPart ∧ h.fw.hspiPart = 0 ∧ h.fw.hspiCs = false ∧ Changes [badCount s.hw] [.fw] s.hw h)) ∧
  (∀ (s : State) (a : BitVec 32) (n : BitVec 8) (vs hits : List Nat), s.hw.win = none → (s.hw.on HSPI_CFG_EN = false ∨ s.hw.clocked = false) →
    Completes (.wread a n) s (fun h => h = s.hw) ∧ Completes (.wwrite a vs hits) s fun h => h = s.hw) ∧
  (∀ (s : State) (a : BitVec 32) (n : BitVec 8) (vs hits : List Nat), s.hw.win = none → s.hw.on HSPI_CFG_EN = true → s.hw.clocked = true →
    ((s.hw.on HSPI_CFG_WIN_EN = false ∨ n.toNat = 0 ∨ 60 < n.toNat) → Completes (.wread a n) s (Changes [badCount s.hw] [] s.hw)) ∧
    ((s.hw.on HSPI_CFG_WIN_EN = false ∨ vs = [] ∨ 60 < vs.length) → Completes (.wwrite a vs hits) s (Changes [badCount s.hw] [] s.hw)) ∧
    (s.hw.on HSPI_CFG_WIN_EN = true → 1 ≤ n.toNat → n.toNat ≤ 60 → ∀ k ws g, HostReads s.hw a.toNat k ws g →
      (k = n.toNat → Completes (.wread a n) s fun h => h = answeredWindow g a.toNat k 0 ws) ∧
      (k < n.toNat → g.busAccess .host (a.toNat + 4 * k) 4 false ≠ .stall → (g.read .host (a.toNat + 4 * k) 4).resp = .error →
        Completes (.wread a n) s fun h => h = answeredWindow (g.read .host (a.toNat + 4 * k) 4) a.toNat k 1 ws) ∧
      (k < n.toNat → g.busAccess .host (a.toNat + 4 * k) 4 false = .stall → Completes (.wread a n) s fun h =>
        h = { g with win := some ⟨false, a.toNat, k, List.replicate (n.toNat - k) 0, ws, []⟩ })) ∧
    (s.hw.on HSPI_CFG_WIN_EN = true → 1 ≤ vs.length → vs.length ≤ 60 → ∀ ws v us g, (vs = ws ∨ vs = ws ++ v :: us) → HostWrites s.hw a.toNat ws g →
      (vs = ws → Completes (.wwrite a vs []) s fun h => h = answeredWindow g a.toNat ws.length 0 []) ∧
      (vs = ws ++ v :: us → g.busAccess .host (a.toNat + 4 * ws.length) 4 true ≠ .stall →
        (g.write .host (a.toNat + 4 * ws.length) 4 v false).resp = .error →
        Completes (.wwrite a vs []) s fun h => h = answeredWindow (g.write .host (a.toNat + 4 * ws.length) 4 v false) a.toNat ws.length 1 []) ∧
      (vs = ws ++ v :: us → g.busAccess .host (a.toNat + 4 * ws.length) 4 true = .stall → Completes (.wwrite a vs []) s fun h =>
        h = { g with win := some ⟨true, a.toNat, ws.length, v :: us, [], []⟩ })) ∧
    (∀ v m, s.hw.on HSPI_CFG_WIN_EN = true → within 0x11000000 0x1103FFFF a.toNat = true → s.hw.busAccess .host a.toNat 4 true = .ok → 4 ≤ m →
      Completes (.wwrite a [v] [m]) s fun h => ∃ g, h = answeredWindow g a.toNat 0 2 [] ∧ g.resp = .collide ∧ (∀ b, g.byte b = s.hw.byte b) ∧
        Touches [.regs, .resp, .elogQ, .strands] s.hw g)) ∧
  (∀ (s : State) (a : BitVec 32) (n : BitVec 8) (vs hits : List Nat) (b k m : Nat) (got ws : List Nat) (g : Hw),
    s.hw.win = some ⟨false, b, k, List.replicate m 0, got, []⟩ → k + m ≤ 60 → HostReads s.hw (b + 4 * k) m ws g →
    Completes (.wread a n) s (fun h => h = answeredWindow g b (k + m) 0 (got ++ ws)) ∧
    Completes (.wwrite a vs hits) s fun h => h = answeredWindow g b (k + m) 0 (got ++ ws))

/-- The error state of controller n with the counts given (R486). -/
def errorState (tec rec : Nat) : Nat := if 127 < tec ∨ 127 < rec then 1 else 0

/-- `f` is the frame that is sent next: between `xs`, whose identifiers are higher, and `ys`, whose are not lower (R493). -/
def SentNext (tx xs : List CanFrame) (f : CanFrame) (ys : List CanFrame) : Prop :=
  tx = xs ++ f :: ys ∧ (∀ g ∈ xs, f.id < g.id) ∧ ∀ g ∈ ys, f.id ≤ g.id

/-- From `h` to `h'` the queues of controller n become `c`, the fields take the values beside them, and nothing else changes. -/
def CanBecomes (n : Nat) (c : Can) (fs : List (Fld × Nat)) (h h' : Hw) : Prop :=
  h'.can n = c ∧ (∀ m, m ≠ n → h'.can m = h.can m) ∧ Changes fs [.cans] h h'

/-- CAN, TIME, HEARTBEAT and the journal's compaction (R486 to R493, R495, R499, R506, R508, Tables 10.7 and 10.8). -/
def Obligations.CanAndJournal : Prop :=
  (∀ (s : State) (n : Fin 2) (id : BitVec 29) (ext fd : Bool) (d : List Nat),
    (s.hw.on (CAN_CFG_LOOP n) = true ∨ s.hw.on (CAN_CFG_EN n) = false ∨ s.hw.rf (CAN_STAT_STATE n) = 2 ∨ (fd = true ∧ s.hw.on (CAN_CFG_FDOE n) = false) ∨
      ext ≠ s.hw.on (CAN_CFG_XID n) ∨ (id.toNat ≠ s.hw.canId n 2 ∧ id.toNat ≠ s.hw.canId n 6)) →
    Completes (.canFrameReceived n id ext fd d) s fun h => h = s.hw) ∧
  (∀ (s : State) (n : Fin 2) (id : BitVec 29) (ext fd : Bool) (d : List Nat) (fn r : Nat),
    s.hw.on (CAN_CFG_LOOP n) = false → s.hw.on (CAN_CFG_EN n) = true → s.hw.rf (CAN_STAT_STATE n) ≠ 2 → (fd = true → s.hw.on (CAN_CFG_FDOE n) = true) → ext = s.hw.on (CAN_CFG_XID n) →
    (fn = 2 ∨ fn = 6) → id.toNat = s.hw.canId n fn → r = (if 127 < s.hw.rf (CAN_STAT_REC n) then 127 else s.hw.rf (CAN_STAT_REC n) - 1) →
    ((s.hw.can n).rx.length < 16 → Completes (.canFrameReceived n id ext fd d) s
      (CanBecomes n { s.hw.can n with rx := (s.hw.can n).rx ++ [(fn, d)] }
        [(CAN_STAT_STATE n, errorState (s.hw.rf (CAN_STAT_TEC n)) r), (CAN_STAT_REC n, r)] s.hw)) ∧
    (16 ≤ (s.hw.can n).rx.length → Completes (.canFrameReceived n id ext fd d) s
      (Changes [(CAN_STAT_RXOVF n, 1), (CAN_STAT_STATE n, errorState (s.hw.rf (CAN_STAT_TEC n)) r), (CAN_STAT_REC n, r)] [] s.hw))) ∧
  (∀ (s : State) (n : Fin 2) (ok : Bool), ((s.hw.can n).tx = [] ∨ s.hw.on (CAN_CFG_EN n) = false ∨ s.hw.on (CAN_CFG_SILENT n) = true ∨
      s.hw.rf (CAN_STAT_STATE n) = 2) → Completes (.canFrameSent n ok) s fun h => h = s.hw) ∧
  (∀ (s : State) (n : Fin 2) (xs ys : List CanFrame) (f : CanFrame), SentNext (s.hw.can n).tx xs f ys → s.hw.on (CAN_CFG_EN n) = true →
    s.hw.on (CAN_CFG_SILENT n) = false → s.hw.rf (CAN_STAT_STATE n) ≠ 2 →
    (s.hw.on (CAN_CFG_LOOP n) = false ∨ (f.id ≠ s.hw.canId n 2 ∧ f.id ≠ s.hw.canId n 6) →
      Completes (.canFrameSent n true) s (CanBecomes n { s.hw.can n with tx := xs ++ ys }
      [(CAN_STAT_STATE n, errorState (s.hw.rf (CAN_STAT_TEC n) - 1) (s.hw.rf (CAN_STAT_REC n))), (CAN_STAT_TEC n, s.hw.rf (CAN_STAT_TEC n) - 1)] s.hw)) ∧
    (∀ fn r, s.hw.on (CAN_CFG_LOOP n) = true → (fn = 2 ∨ fn = 6) → f.id = s.hw.canId n fn →
      r = (if 127 < s.hw.rf (CAN_STAT_REC n) then 127 else s.hw.rf (CAN_STAT_REC n) - 1) → (s.hw.can n).rx.length < 16 →
      Completes (.canFrameSent n true) s (CanBecomes n { s.hw.can n with tx := xs ++ ys, rx := (s.hw.can n).rx ++ [(fn, f.data)] }
        [(CAN_STAT_STATE n, errorState (s.hw.rf (CAN_STAT_TEC n) - 1) r), (CAN_STAT_REC n, r),
          (CAN_STAT_TEC n, s.hw.rf (CAN_STAT_TEC n) - 1)] s.hw)) ∧
    (s.hw.rf (CAN_STAT_TEC n) + 8 ≤ 255 → Completes (.canFrameSent n false) s
      (Changes [(CAN_STAT_STATE n, errorState (s.hw.rf (CAN_STAT_TEC n) + 8) (s.hw.rf (CAN_STAT_REC n))),
        (CAN_STAT_TEC n, s.hw.rf (CAN_STAT_TEC n) + 8)] [] s.hw)) ∧
    (255 < s.hw.rf (CAN_STAT_TEC n) + 8 → Completes (.canFrameSent n false) s
      (Changes [(CAN_STAT_BOFF n, 1), (CAN_STAT_STATE n, 2), (CAN_STAT_TEC n, 255)] [] s.hw))) ∧
  (∀ (s : State) (n : Fin 2), (s.hw.rf (CAN_STAT_STATE n) ≠ 2 ∨ s.hw.on (CAN_CFG_AUTO_BOR n) = false) →
    Completes (.canBusoffRecovery n) s fun h => h = s.hw) ∧
  (∀ (s : State) (n : Fin 2), s.hw.rf (CAN_STAT_STATE n) = 2 → s.hw.on (CAN_CFG_AUTO_BOR n) = true → Completes (.canBusoffRecovery n) s
    (Changes [(CAN_STAT_REC n, 0), (CAN_STAT_TEC n, 0), (CAN_STAT_STATE n, 0)] [] s.hw)) ∧
  (∀ (s : State) (g : BitVec 64) (leap : Option (BitVec 8)), (s.hw.fwUp = false ∨ s.hw.obj 0x5120 1 = 0) →
    Completes (.timeFrameQueue g leap) s fun h => h = s.hw) ∧
  (∀ (s : State) (n : Fin 2) (g : BitVec 64) (leap : Option (BitVec 8)) (label ts unc : Nat) (step : Bool), s.hw.fwUp = true →
    s.hw.obj 0x5120 1 = 2 ^ n.val → s.hw.on (CAN_CFG_EN n) = true → s.hw.on (CAN_CFG_FDOE n) = true → s.hw.tp.pulse = (label, ts, unc, step) →
    ((s.hw.can n).tx.length < 32 → Completes (.timeFrameQueue g leap) s
      (CanBecomes n { s.hw.can n with tx := (s.hw.can n).tx ++ [⟨s.hw.canId n 5, leBytes 4 label ++ leBytes 8 g.toNat ++
        [ts, (if step then 1 else 0) + (if leap.isSome then 2 else 0)] ++ leBytes 4 unc ++ [(leap.getD 0).toNat, 0], none, none⟩] } [] s.hw)) ∧
    (32 ≤ (s.hw.can n).tx.length → Completes (.timeFrameQueue g leap) s
      (Changes [(CAN_TALLY_TXDROP n, satTo 65535 (s.hw.rf (CAN_TALLY_TXDROP n) + 1))] [] s.hw))) ∧
  (∀ (s : State) (l : Fin 10), (s.hw.fwUp = false ∨ s.hw.obj 0x1010 1 = 0 ∨ s.hw.linkUp l = false) → Completes (.heartbeat l) s fun h => h = s.hw) ∧
  (∀ (s : State) (l : Fin 10) (p : List Nat), s.hw.fwUp = true → s.hw.obj 0x1010 1 ≠ 0 → s.hw.linkUp l = true →
    p = [s.hw.dstate, s.hw.fuses.lifecycle] ++ leBytes 2 s.hw.fw.hbSeq ++ leBytes 4 ((s.hw.tcnt - s.hw.fw.started) / 491520000) →
    (l.val < 8 → Completes (.heartbeat l) s fun h => ∃ g, g = s.hw.wowellSend l 7 p ∧ h = { g with fw := { g.fw with hbSeq := (s.hw.fw.hbSeq + 1) % 65536 } }) ∧
    (8 ≤ l.val → Completes (.heartbeat l) s fun h =>
      h = { s.hw.canSend (l - 8) 7 p none none with fw := { s.hw.fw with hbSeq := (s.hw.fw.hbSeq + 1) % 65536 } })) ∧
  (∀ s : State, (s.hw.sys.fwRunning = false ∨ s.hw.fw.journal.free < 98304 ∨
      ∃ t, s.hw.fw.journal.lastCompact = some t ∧ s.hw.tcnt < t + 320 * 491520000) → Completes .journalCompaction s fun h => h = s.hw) ∧
  (∀ (s : State) (j : Journal) (base gen : Nat) (bs : List Nat), s.hw.sys.fwRunning = true → j = s.hw.fw.journal → 98304 ≤ j.free →
    (∀ t, j.lastCompact = some t → t + 320 * 491520000 ≤ s.hw.tcnt) → gen = (j.gen + 1) % 2 ^ 32 → base = 0x60C00000 + 0x20000 * ((j.area + 1) % 2) →
    bs = (liveRecords s.hw.journalRecords).flatMap (fun r => recordBytes gen r.seq r.idx r.sub r.kind r.value) →
    Completes .journalCompaction s fun h =>
      h.fw = { s.hw.fw with journal := ⟨(j.area + 1) % 2, gen, 64 + bs.length, j.seq, some s.hw.tcnt⟩ } ∧
      h.holds base 8 (0x4A524E4C + 2 ^ 32 * gen) ∧ h.holds (base + 8) 8 (0xA55AC33C00000000 + gen) ∧ h.holds (base + 16) 8 (0xA55AC33C00000000 + gen) ∧
      (∀ i, i < bs.length → (h.byte (base + 64 + i)).toNat = bs.getD i 0 % 256) ∧
      (∀ a, (a < base ∨ (base + 24 ≤ a ∧ a < base + 64) ∨ base + 64 + bs.length ≤ a) → h.byte a = s.hw.byte a) ∧ Touches [.mem, .ecc, .fw] s.hw h)

/-- From `h` to `h'` serial port n becomes `c`, the fields take the values beside them, and nothing else changes. -/
def PortBecomes (n : Nat) (c : Serial) (fs : List (Fld × Nat)) (h h' : Hw) : Prop :=
  h'.serial n = c ∧ (∀ m, m ≠ n → h'.serial m = h.serial m) ∧ Changes fs [.serials] h h'

/-- Port n as its transmitter leaves it when it has started the next character, if it may (R525, R528, R530). -/
def afterStart (h : Hw) (n : Nat) (c : Serial) : Serial :=
  match c.cur, c.tx with
  | none, x :: rest =>
    if h.txOn n && !h.on (UART_STAT_COLL n) && !(h.flowControl n && c.cts) && (!h.halfDuplex n || (c.quiet && c.ticks == [])) then { c with cur := some x, tx := rest } else c
  | _, _ => c

/-- The parity bit of data d under parity code p: even, odd, mark, space. -/
def parityOf (p d : Nat) : Bool :=
  let ones := ((List.range 9).filter fun i => d.testBit i).length
  (p == 1 && ones % 2 == 1) || (p == 2 && ones % 2 == 0) || p == 3

/-- The data, PE, FE, BRK and NOISE of a character decided in format f (Table 11.3). -/
def entryOf (f d : Nat) (par stop noise : Bool) : Nat × Bool × Bool × Bool × Bool :=
  let x := d % 2 ^ (f % 16)
  let p := f / 16 % 8
  let brk := !stop && x == 0 && (p == 0 || !par)
  (x, p != 0 && par != parityOf p x, !stop && !brk, brk, noise)

/-- The entry as DATA returns it, without VALID. -/
def packed (e : Nat × Bool × Bool × Bool × Bool) : Nat :=
  e.1 + (if e.2.1 then 512 else 0) + (if e.2.2.1 then 1024 else 0) + (if e.2.2.2.1 then 2048 else 0) + (if e.2.2.2.2 then 4096 else 0)

/-- The tallies after an entry: FRAMING for FE or BRK, PARITY for PE on a UART, OVERRUN where the FIFO was full. -/
def tallied (h : Hw) (n : Nat) (e : Nat × Bool × Bool × Bool × Bool) (full : Bool) : List (Fld × Nat) :=
  (if full then [(UART_TALLY_OVERRUN n, satTo 255 (h.rf (UART_TALLY_OVERRUN n) + 1))] else []) ++
  (if n ≠ 6 ∧ e.2.1 then [(UART_TALLY_PARITY n, satTo 255 (h.rf (UART_TALLY_PARITY n) + 1))] else []) ++
  (if e.2.2.1 || e.2.2.2.1 then [(UART_TALLY_FRAMING n, satTo 255 (h.rf (UART_TALLY_FRAMING n) + 1))] else [])

/-- The port with an entry stored, or lost (R521). -/
def stored (c : Serial) (x : Nat) : Serial :=
  if 32 ≤ c.rx.length then { c with lost := true } else { c with rx := c.rx ++ [x + (if c.lost then 8192 else 0)], lost := false }

/-- The receiver, or the transmitter, of port n has taken RATE and FMT (R526). -/
def rxTook (h : Hw) (n : Nat) (c : Serial) : Serial := { c with rxRate := (h.reg (UART_RATE n)).toNat, rxFmt := h.fmtReg n }
def txTook (h : Hw) (n : Nat) (c : Serial) : Serial := { c with txRate := (h.reg (UART_RATE n)).toNat, txFmt := h.fmtReg n }

/-- A RATE that R513 accepts on port n. -/
def RateOk (n v : Nat) : Prop :=
  v % 65536 ≠ 0 ∧ v % 65536 ≤ v / 65536 ∧ (if n = 6 then 6144 * (v % 65536) ≤ 1000 * (v / 65536) else 2 * (v % 65536) ≤ v / 65536)

/-- An FMT whose fields are all listed. -/
def FmtOk (v : Nat) : Prop := 5 ≤ v % 16 ∧ v % 16 ≤ 9 ∧ v / 16 % 8 ≤ 4 ∧ v / 128 % 4 ≤ 2

/-- The fields that a write of FIFO stores. -/
def fifoTaken (n : Nat) (v : Nat) : List (Fld × Nat) :=
  [(UART_FIFO_RXTHR n, v % 64), (UART_FIFO_TXTHR n, v / 256 % 64)] ++ (if n < 6 then [(UART_FIFO_RTS_THR n, v / 65536 % 64)] else [])

/-- Samples of a line that is high. -/
abbrev Idle (xs : List Bool) : Prop := ∀ b ∈ xs, b = true

/-- Sample k of the samples from sample 0 of a start bit; the line is high beyond them. -/
def sampleAt (ys : List Bool) (k : Nat) : Bool := ys.getD k true

/-- Bit b, counted from the start bit, by the majority of its samples 7, 8 and 9 (R515, R516). -/
def majority (ys : List Bool) (b : Nat) : Bool :=
  decide (2 ≤ ([sampleAt ys (16 * b + 7), sampleAt ys (16 * b + 8), sampleAt ys (16 * b + 9)].filter id).length)

/-- Samples 7, 8 and 9 of bit b are not all equal (R516). -/
abbrev unlike (ys : List Bool) (b : Nat) : Prop :=
  ¬ (sampleAt ys (16 * b + 7) = sampleAt ys (16 * b + 8) ∧ sampleAt ys (16 * b + 8) = sampleAt ys (16 * b + 9))

/-- The bits of a character before its stop bit: start, data, parity (R511). -/
def bitsAhead (f : Nat) : Nat := if f / 16 % 8 = 0 then 1 + f % 16 else 2 + f % 16

/-- The number of the k data bits, least significant first. -/
def dataOfBits : Nat → List Bool → Nat
  | 0, _ => 0
  | k + 1, ys => dataOfBits k ys + (if majority ys (k + 1) then 2 ^ k else 0)

/-- With the samples `xs` the receiver of port n has `ys` from sample 0 of its start bit: those of the character in progress and all of `xs`, or, while it
hunts, `xs` from the first sample at 0 after samples at 1 (R515, R518). -/
def FromStart (h : Hw) (n : Nat) (xs ys : List Bool) : Prop :=
  let c := h.serial n
  (c.ticks ≠ [] ∧ (10 ≤ c.ticks.length → majority c.ticks 0 = false) ∧ c.ticks.head? = some false ∧ ys = c.ticks ++ xs) ∨
  (c.ticks = [] ∧ ys.head? = some false ∧ ∃ hi, Idle hi ∧ xs = hi ++ ys ∧ (c.awaitHigh = true → hi ≠ []))

/-- The slow-clock edge, from the one that detects the start, whose sample decides bit i of a character with SRATE v: the first at or after the
centre of the bit (R531). -/
def slowAt (v i : Nat) : Nat := ((2 * i + 1) * (v / 65536) + 2 * (v % 65536) - 1) / (2 * (v % 65536))

/-- Bit i in slow reception: its one sample. -/
abbrev slowSample (v : Nat) (ys : List Bool) (i : Nat) : Bool := sampleAt ys (slowAt v i)

/-- The number of the k data bits in slow reception, least significant first. -/
def slowData (v : Nat) (ys : List Bool) : Nat → Nat
  | 0 => 0
  | k + 1 => slowData v ys k + (if slowSample v ys (k + 1) then 2 ^ k else 0)

/-- With the samples `xs` the slow receiver of port n has `ys` from the edge that detects the start: those of the character in progress and all of
`xs`, or, while it hunts, `xs` from the first sample at 0 after samples at 1. -/
def SlowFrom (h : Hw) (n : Nat) (xs ys : List Bool) : Prop :=
  let c := h.serial n
  (c.ticks ≠ [] ∧ c.ticks.head? = some false ∧ ys = c.ticks ++ xs) ∨
  (c.ticks = [] ∧ c.leaving = false ∧ ys.head? = some false ∧ ∃ hi, Idle hi ∧ xs = hi ++ ys ∧ (c.awaitHigh = true → hi ≠ []))

/-- The serial ports (R511 to R536). -/
def Obligations.SerialPorts : Prop :=
  (∀ (s : State) (n : Fin 7), ((s.hw.serial n).rx = [] → Completes (.uartDataRead n) s fun h => h = { s.hw with resp := .data 0 }) ∧
    (∀ e rest, (s.hw.serial n).rx = e :: rest → Completes (.uartDataRead n) s fun h => h.resp = .data (e + 2 ^ 31) ∧
      h = { s.hw.setSerial n { s.hw.serial n with rx := rest } with resp := .data (e + 2 ^ 31) })) ∧
  (∀ (s : State) (n : Fin 7) (v : BitVec 32), 32 ≤ (s.hw.serial n).tx.length →
    Completes (.uartDataWrite n v) s (Changes [(UART_STAT_OVR n, 1)] [] s.hw) ∧ Completes (.uartBreakWrite n v) s (Changes [(UART_STAT_OVR n, 1)] [] s.hw)) ∧
  (∀ (s : State) (n : Fin 7) (v : BitVec 32), (s.hw.serial n).tx.length < 32 → (s.hw.link (serialLink n)).out = [] →
    Completes (.uartDataWrite n v) s (PortBecomes n
      (afterStart s.hw n { s.hw.serial n with tx := (s.hw.serial n).tx ++ [v.toNat % 1024] }) [] s.hw) ∧
    Completes (.uartBreakWrite n v) s (PortBecomes n
      (afterStart s.hw n { s.hw.serial n with tx := (s.hw.serial n).tx ++ [v.toNat % 512 + 512] }) [] s.hw)) ∧
  (∀ (s : State) (n : Fin 7) (xs : List Bool), (s.hw.rxOn n = false ∨ (s.hw.serial n).slow = true ∨
      (s.hw.halfDuplex n = true ∧ (s.hw.serial n).cur ≠ none)) → Completes (.uartCharReceived n xs) s fun h => h = s.hw) ∧
  (∀ (s : State) (n : Fin 7) (xs zs : List Bool), zs = xs.map (fun b => b != s.hw.on (UART_CFG_INV n)) → s.hw.rxOn n = true → (s.hw.serial n).slow = false → (s.hw.halfDuplex n = true → (s.hw.serial n).cur = none) →
    (s.hw.link (serialLink n)).out = [] →
    (Idle zs → (s.hw.serial n).ticks = [] → zs ≠ [] → Completes (.uartCharReceived n xs) s
      (PortBecomes n (afterStart s.hw n { s.hw.serial n with awaitHigh := false }) [(UART_STAT_RXBUSY n, 0)] s.hw)) ∧
    ((∀ b ∈ zs, b = false) → (s.hw.serial n).ticks = [] → (s.hw.serial n).awaitHigh = true → Completes (.uartCharReceived n xs) s
      (PortBecomes n (afterStart s.hw n (s.hw.serial n)) [(UART_STAT_RXBUSY n, 0)] s.hw)) ∧
    (∀ ys, FromStart s.hw n zs ys → ys.length < 16 * bitsAhead (s.hw.serial n).rxFmt + 10 → (ys.length < 10 ∨ majority ys 0 = false) →
      Completes (.uartCharReceived n xs) s
        (PortBecomes n (afterStart s.hw n { s.hw.serial n with ticks := ys, awaitHigh := false }) [(UART_STAT_RXBUSY n, 1)] s.hw)) ∧
    (∀ ys, FromStart s.hw n zs ys → 10 ≤ ys.length → majority ys 0 = true → Idle (ys.drop 10) →
      ((s.hw.serial n).ticks = [] ∨ s.hw.on (UART_STAT_SHRX n) = false → Completes (.uartCharReceived n xs) s
        (PortBecomes n (afterStart s.hw n { s.hw.serial n with ticks := [], awaitHigh := false }) [(UART_STAT_RXBUSY n, 0)] s.hw)) ∧
      ((s.hw.serial n).ticks ≠ [] → s.hw.on (UART_STAT_SHRX n) = true → Completes (.uartCharReceived n xs) s
        (PortBecomes n (afterStart s.hw n (rxTook s.hw n { s.hw.serial n with ticks := [], awaitHigh := false }))
          [(UART_STAT_RXBUSY n, 0), (UART_STAT_SHRX n, 0)] s.hw))) ∧
    (∀ ys c e m, FromStart s.hw n zs ys → m = bitsAhead (s.hw.serial n).rxFmt → 16 * m + 10 ≤ ys.length → majority ys 0 = false →
      Idle (ys.drop (16 * m + 10)) → (s.hw.serial n).rxFmt % 16 ≤ 9 →
      e = entryOf (s.hw.serial n).rxFmt (dataOfBits ((s.hw.serial n).rxFmt % 16) ys) (majority ys (m - 1)) (majority ys m)
        (decide (∃ i, i < m ∧ unlike ys (i + 1))) →
      c = rxTook s.hw n (stored (s.hw.serial n) (packed e)) → Completes (.uartCharReceived n xs) s
      (PortBecomes n (afterStart s.hw n { c with
          ticks := []
          awaitHigh := (e.2.2.1 || e.2.2.2.1) && decide (ys.length = 16 * m + 10)
          quiet := s.hw.rf (UART_CFG_GUARD n) == 0 })
        ([(UART_STAT_RXBUSY n, 0), (UART_STAT_SHRX n, 0)] ++ tallied s.hw n e (decide (32 ≤ (s.hw.serial n).rx.length))) s.hw))) ∧
  (∀ (s : State) (n : Fin 7) (d : BitVec 9) (par stop noise cts : Bool), (s.hw.serial n).cur = none →
    Completes (.uartCharSent n d par stop noise cts) s fun h => h = s.hw) ∧
  (∀ (s : State) (n : Fin 7) (d : BitVec 9) (par stop noise cts : Bool) (x f sent : Nat) (differs : Bool) (c : Serial) (e : Nat × Bool × Bool × Bool × Bool),
    (s.hw.serial n).cur = some x → (n.val = 6 → s.hw.lyd.ratePend = none) → (s.hw.link (serialLink n)).out = [] → f = (s.hw.serial n).txFmt →
    sent = (if x.testBit 9 then 0 else x % 2 ^ (f % 16)) →
    differs = (d.toNat % 2 ^ (f % 16) != sent || (f / 16 % 8 != 0 && par != (!x.testBit 9 && parityOf (f / 16 % 8) sent)) || stop == x.testBit 9) →
    e = entryOf (s.hw.serial n).rxFmt d.toNat par stop noise → c = txTook s.hw n { s.hw.serial n with cur := none, cts := cts } → f % 16 ≤ 9 →
    (s.hw.halfDuplex n = false → Completes (.uartCharSent n d par stop noise cts) s (PortBecomes n (afterStart s.hw n c) [(UART_STAT_SHTX n, 0)] s.hw)) ∧
    (s.hw.halfDuplex n = true → differs = false → s.hw.on (UART_CFG_ECHO n) = false → Completes (.uartCharSent n d par stop noise cts) s
      (PortBecomes n (afterStart s.hw n { c with quiet := s.hw.rf (UART_CFG_GUARD n) == 0 }) [(UART_STAT_SHTX n, 0)] s.hw)) ∧
    (s.hw.halfDuplex n = true → differs = false → s.hw.on (UART_CFG_ECHO n) = true → Completes (.uartCharSent n d par stop noise cts) s
      (PortBecomes n (afterStart s.hw n (rxTook s.hw n (stored { c with quiet := s.hw.rf (UART_CFG_GUARD n) == 0 } (packed e))))
        ([(UART_STAT_SHRX n, 0), (UART_STAT_SHTX n, 0)] ++ tallied s.hw n e (decide (32 ≤ (s.hw.serial n).rx.length))) s.hw)) ∧
    (s.hw.halfDuplex n = true → differs = true → Completes (.uartCharSent n d par stop noise cts) s
      (PortBecomes n (rxTook s.hw n (stored { c with quiet := s.hw.rf (UART_CFG_GUARD n) == 0, awaitHigh := e.2.2.1 || e.2.2.2.1 } (packed e + 16384)))
        ([(UART_STAT_SHRX n, 0), (UART_STAT_COLL n, 1), (UART_STAT_SHTX n, 0), (UART_TALLY_COLLISIONS n, satTo 255 (s.hw.rf (UART_TALLY_COLLISIONS n) + 1))] ++
          tallied s.hw n e (decide (32 ≤ (s.hw.serial n).rx.length))) s.hw))) ∧
  (∀ (s : State) (v : BitVec 32) (busy : Bool), Completes (.uartRateWrite 6 true v busy) s fun h => h = s.hw) ∧
  (∀ (s : State) (n : Fin 7) (fmt : Bool) (v : BitVec 32) (busy : Bool), (fmt = true → n.val < 6) → (if fmt then ¬ FmtOk v.toNat else ¬ RateOk n v.toNat) →
    Completes (.uartRateWrite n fmt v busy) s
      (Changes [(UART_STAT_CFG_ERR n, 1), (UART_STAT_RXBUSY n, b2n (busy || (s.hw.serial n).ticks != []))] [] s.hw)) ∧
  (∀ (s : State) (n : Fin 7) (fmt : Bool) (v : BitVec 32) (busy tx rx : Bool) (r f : Nat), (fmt = true → n.val < 6) →
    (if fmt then FmtOk v.toNat else RateOk n v.toNat) → tx = (s.hw.serial n).cur.isSome → rx = (busy || (s.hw.serial n).ticks != []) →
    r = (if fmt then (s.hw.reg (UART_RATE n)).toNat else v.toNat) →
    f = (if fmt then (s.hw.reg (UART_FMT n)).toNat / 512 * 512 + v.toNat % 512 else s.hw.fmtReg n) →
    Completes (.uartRateWrite n fmt v busy) s (PortBecomes n
      { s.hw.serial n with
        txRate := if tx then (s.hw.serial n).txRate else r
        txFmt := if tx then (s.hw.serial n).txFmt else f
        rxRate := if rx then (s.hw.serial n).rxRate else r
        rxFmt := if rx then (s.hw.serial n).rxFmt else f }
      [(UART_STAT_SHRX n, b2n rx), (UART_STAT_SHTX n, b2n tx), (UART_STAT_RXBUSY n, b2n rx),
       if fmt then (⟨UART_FMT n, 0, 9⟩, v.toNat % 512) else (wholeReg (UART_RATE n), v.toNat)] s.hw)) ∧
  (∀ (s : State) (n : Fin 7), (((s.hw.serial n).rx = [] ∨ (s.hw.serial n).ticks ≠ []) → Completes (.uartIdleDetect n) s fun h => h = s.hw) ∧
    ((s.hw.serial n).rx ≠ [] → (s.hw.serial n).ticks = [] → Completes (.uartIdleDetect n) s (Changes [(UART_STAT_IDLE n, 1)] [] s.hw))) ∧
  (∀ (s : State) (n : Fin 7) (v : BitVec 32),
    Completes (.uartRxFlush n v) s (PortBecomes n { s.hw.serial n with rx := [], tx := if v.toNat.testBit 23 then [] else (s.hw.serial n).tx } (fifoTaken n v.toNat) s.hw) ∧
    Completes (.uartTxFlush n v) s (PortBecomes n { s.hw.serial n with tx := [], rx := if v.toNat.testBit 22 then [] else (s.hw.serial n).rx } (fifoTaken n v.toNat) s.hw)) ∧
  (∀ (s : State) (n : Fin 2), (s.hw.link (serialLink n)).out = [] →
    Completes (.uartCtsAsserted n) s (PortBecomes n (afterStart s.hw n { s.hw.serial n with cts := false }) [] s.hw)) ∧
  (∀ (s : State) (n : Fin 7), (s.hw.halfDuplex n = false → Completes (.uartGuardElapsed n) s fun h => h = s.hw) ∧
    (s.hw.halfDuplex n = true → (s.hw.link (serialLink n)).out = [] →
      Completes (.uartGuardElapsed n) s (PortBecomes n (afterStart s.hw n { s.hw.serial n with quiet := true }) [] s.hw))) ∧
  (∀ (s : State) (n : Fin 2) (xs : List Bool), ((s.hw.serial n).slow = false ∨ s.hw.rxOn n = false) → Completes (.uartSlowChar n xs) s fun h => h = s.hw) ∧
  (∀ (s : State) (n : Fin 2) (xs zs : List Bool) (c : Serial) (v : Nat), zs = xs.map (fun b => b != s.hw.on (UART_CFG_INV n)) → c = s.hw.serial n →
    v = (s.hw.reg (UART_SRATE n)).toNat → c.slow = true → s.hw.rxOn n = true →
    (Idle zs → zs ≠ [] → c.ticks = [] → c.leaving = false → Completes (.uartSlowChar n xs) s
      (PortBecomes n { c with awaitHigh := false } [(UART_STAT_RXBUSY n, 0)] s.hw)) ∧
    (∀ ys, SlowFrom s.hw n zs ys → ys.length ≤ slowAt v (bitsAhead c.rxFmt) → (ys.length ≤ slowAt v 0 ∨ slowSample v ys 0 = false) →
      Completes (.uartSlowChar n xs) s (PortBecomes n { c with ticks := ys, awaitHigh := false } [(UART_STAT_RXBUSY n, 1)] s.hw)) ∧
    (∀ ys, SlowFrom s.hw n zs ys → slowAt v 0 < ys.length → slowSample v ys 0 = true → Idle (ys.drop (slowAt v 0 + 1)) →
      (c.leaving = false → Completes (.uartSlowChar n xs) s
        (PortBecomes n { c with ticks := [], awaitHigh := false } [(UART_STAT_RXBUSY n, 0)] s.hw)) ∧
      (c.leaving = true → s.hw.on (UART_STAT_SHRX n) = true → Completes (.uartSlowChar n xs) s
        (PortBecomes n (rxTook s.hw n { c with ticks := [], slow := false, leaving := false }) [(UART_STAT_RXBUSY n, 0), (UART_STAT_SHRX n, 0)] s.hw))) ∧
    (∀ ys b e same hit, SlowFrom s.hw n zs ys → slowAt v (bitsAhead c.rxFmt) < ys.length → slowAt v 0 < ys.length → slowSample v ys 0 = false →
      Idle (ys.drop (slowAt v (bitsAhead c.rxFmt) + 1)) → c.rxFmt % 16 ≤ 9 →
      e = entryOf c.rxFmt (slowData v ys (c.rxFmt % 16)) (slowSample v ys (bitsAhead c.rxFmt - 1)) (slowSample v ys (bitsAhead c.rxFmt)) false →
      b = { c with ticks := [], awaitHigh := (e.2.2.1 || e.2.2.2.1) && decide (ys.length = slowAt v (bitsAhead c.rxFmt) + 1) } →
      same = ((e.1 % 256) &&& s.hw.rf (UART_SLOW_MASK n) == s.hw.rf (UART_SLOW_ADDR n) &&& s.hw.rf (UART_SLOW_MASK n)) →
      hit = ((s.hw.rf (UART_SLOW_MATCH n) == 1 && same) || (s.hw.rf (UART_SLOW_MATCH n) == 2 && same && c.rxFmt % 16 == 9 && e.1.testBit 8)) →
      (s.hw.pwr.state = .slack →
        (c.wakeBuf = [] → hit = true → Completes (.uartSlowChar n xs) s (PortBecomes n { b with wakeBuf := [packed e + 32768] }
          [(WAKE_FLAG_SRC, s.hw.rf WAKE_FLAG_SRC ||| 2 ^ (14 + n.val)), (UART_STAT_RXBUSY n, 0)] s.hw)) ∧
        (c.wakeBuf = [] → hit = false → Completes (.uartSlowChar n xs) s (PortBecomes n b [(UART_STAT_RXBUSY n, 0)] s.hw)) ∧
        (c.wakeBuf ≠ [] → c.wakeBuf.length < 4 → Completes (.uartSlowChar n xs) s
          (PortBecomes n { b with wakeBuf := c.wakeBuf ++ [packed e] } [(UART_STAT_RXBUSY n, 0)] s.hw)) ∧
        (4 ≤ c.wakeBuf.length → Completes (.uartSlowChar n xs) s
          (PortBecomes n { b with wakeLost := c.wakeLost + 1, lost := true } [(UART_STAT_RXBUSY n, 0)] s.hw))) ∧
      (s.hw.pwr.state ≠ .slack → s.hw.on (UART_STAT_SHRX n) = false → Completes (.uartSlowChar n xs) s
        (PortBecomes n { stored b (packed e) with slow := !c.leaving, leaving := false }
          ([(UART_STAT_RXBUSY n, 0)] ++ tallied s.hw n e (decide (32 ≤ c.rx.length))) s.hw)) ∧
      (s.hw.pwr.state ≠ .slack → s.hw.on (UART_STAT_SHRX n) = true → Completes (.uartSlowChar n xs) s
        (PortBecomes n (rxTook s.hw n { stored b (packed e) with slow := !c.leaving, leaving := false })
          ([(UART_STAT_RXBUSY n, 0), (UART_STAT_SHRX n, 0)] ++ tallied s.hw n e (decide (32 ≤ c.rx.length))) s.hw)))) ∧
  (∀ (s : State) (n : Fin 2) (v : BitVec 32) (fs : List (Fld × Nat)),
    fs = [(UART_SLOW_SLOW_EN n, v.toNat % 2), (UART_SLOW_MATCH n, v.toNat / 2 % 4), (UART_SLOW_ADDR n, v.toNat / 16 % 256),
      (UART_SLOW_MASK n, v.toNat / 4096 % 256)] →
    ((s.hw.serial n).slow = false → Completes (.slowExit n v) s (Changes fs [] s.hw)) ∧
    ((s.hw.serial n).slow = true → s.hw.on (UART_STAT_RXBUSY n) = true → Completes (.slowExit n v) s
      (PortBecomes n { s.hw.serial n with leaving := true } ((UART_STAT_SHRX n, 1) :: fs) s.hw)) ∧
    ((s.hw.serial n).slow = true → s.hw.on (UART_STAT_RXBUSY n) = false → Completes (.slowExit n v) s
      (PortBecomes n (rxTook s.hw n { s.hw.serial n with slow := false }) ((UART_STAT_SHRX n, 0) :: fs) s.hw)))

/-- The Lanyard session has ended (R540, R687). -/
structure SessionOver (h h' : Hw) : Prop where
  sess : h'.reg LYD_SESS = 0
  link : h'.link 7 = { h.link 7 with role := 0, segs := [] }
  links : ∀ j, j ≠ 7 → h'.link j = h.link j
  subs : h'.fw.subs = h.fw.subs.filter fun (x : Sub) => x.link != 7
  requests : h'.fw.requests = h.fw.requests ∧ h'.fw.objs = h.fw.objs
  lyd : h'.lyd = { h.lyd with rateAt := none, ratePend := none }
  upd : h'.upd = { h.upd with state := 0, next := 0, blocks := 0, bytes := 0 }
  rate : h'.reg (UART_RATE 6) = 0x00A00003
  sent : (h.serial 6).cur = none → (h'.serial 6).txRate = 0x00A00003
  ports : ∀ n, n ≠ 6 → h'.serial n = h.serial n
  regs : ∀ a, a ≠ LYD_SESS → a ≠ UART_RATE 6 → a ≠ UART_STAT 6 → h'.reg a = h.reg a
  rest : Touches [.regs, .fw, .serials, .lyd, .upd] h h'

/-- A frame of the session with ID `sid` (R541). -/
def OfSession (h : Hw) (sid : Nat) : Prop := h.rf LYD_SESS_STATE ≠ 0 ∧ h.rf LYD_SESS_SID = sid

/-- NOSESS counts one more. -/
def strayFrame (h : Hw) : Fld × Nat := (LYD_TALLY_NOSESS, satTo 255 (h.rf LYD_TALLY_NOSESS + 1))

/-- The part at timing count t, or later where that has passed. -/
def atTime (h : Hw) (t : Nat) : Hw := { h with tcnt := max h.tcnt (t % 2 ^ 64) }

/-- From `h` a session with ID `sid` opens, and its ATTACH_ACK is sent (R539). -/
def Opened (sid : Nat) (h h' : Hw) : Prop :=
  ∃ g : Hw, h' = g.wowellSend 7 0x21 (sid :: leBytes 8 h.fuses.unique ++ [h.fuses.lifecycle]) ∧
    g.lyd = { h.lyd with sid := sid, since := h.tcnt, last := h.tcnt, service := 0 } ∧
    Changes [(LYD_SESS_SID, sid), (LYD_SESS_STATE, 1)] [.lyd] h g

/-- The Lanyard port's sessions (R537 to R543). -/
def Obligations.LanyardSessions : Prop :=
  (∀ (s : State) (tool : BitVec 32), (s.hw.fwUp = false ∨ s.hw.on LYD_CFG_EN = false) → Completes (.attach tool) s fun h => h = s.hw) ∧
  (∀ (s : State) (tool : BitVec 32), s.hw.fwUp = true → s.hw.on LYD_CFG_EN = true →
    (s.hw.rf LYD_SESS_STATE = 0 → Completes (.attach tool) s (Opened ((s.hw.lyd.sid + 1) % 256) s.hw)) ∧
    (s.hw.rf LYD_SESS_STATE ≠ 0 → Completes (.attach tool) s fun h => ∃ e, SessionOver s.hw e ∧ Opened ((s.hw.lyd.sid + 1) % 256) e h)) ∧
  (∀ (s : State) (sid : BitVec 8) (inc mod : BitVec 16), s.hw.fwUp = false →
    Completes (.keep sid) s (fun h => h = s.hw) ∧ Completes (.detach sid) s (fun h => h = s.hw) ∧ Completes (.lydRate sid inc mod) s fun h => h = s.hw) ∧
  (∀ (s : State) (sid : BitVec 8) (inc mod : BitVec 16), s.hw.fwUp = true → ¬ OfSession s.hw sid.toNat →
    Completes (.keep sid) s (Changes [strayFrame s.hw] [] s.hw) ∧ Completes (.detach sid) s (Changes [strayFrame s.hw] [] s.hw) ∧
    Completes (.lydRate sid inc mod) s (Changes [strayFrame s.hw] [] s.hw)) ∧
  (∀ (s : State) (sid : BitVec 8), s.hw.fwUp = true → OfSession s.hw sid.toNat →
    (s.hw.lyd.rateAt = none → Completes (.keep sid) s fun h => h = { s.hw with lyd := { s.hw.lyd with last := s.hw.tcnt } }) ∧
    (s.hw.lyd.rateAt ≠ none → Completes (.keep sid) s fun h => h.lyd = { s.hw.lyd with last := s.hw.tcnt, rateAt := none } ∧
      Changes [(LYD_SESS_STATE, 1)] [.lyd] s.hw h) ∧
    Completes (.detach sid) s (SessionOver s.hw)) ∧
  (∀ (s : State) (sid : BitVec 8) (inc mod : BitVec 16), s.hw.fwUp = true → OfSession s.hw sid.toNat → s.hw.lyd.rateAt = none →
    (¬ (inc.toNat ≠ 0 ∧ inc.toNat ≤ mod.toNat ∧ 6144 * inc.toNat ≤ 1000 * mod.toNat) → Completes (.lydRate sid inc mod) s fun h =>
      h = ({ s.hw with lyd := { s.hw.lyd with last := s.hw.tcnt } } : Hw).wowellSend 7 0x25 [sid.toNat, 1]) ∧
    (inc.toNat ≠ 0 → inc.toNat ≤ mod.toNat → 6144 * inc.toNat ≤ 1000 * mod.toNat → Completes (.lydRate sid inc mod) s fun h =>
      ∃ g : Hw, g = ({ s.hw with lyd := { s.hw.lyd with last := s.hw.tcnt } } : Hw).wowellSend 7 0x25 [sid.toNat, 0] ∧
        h.lyd = { g.lyd with ratePend := some (inc.toNat + 65536 * mod.toNat,
          (g.serial 6).tx.length + (if (g.serial 6).cur = none then 0 else 1) + (g.link 7).out.length) } ∧
        Changes [(LYD_SESS_STATE, 2)] [.lyd] g h)) ∧
  (∀ (s : State) (d : BitVec 9) (par stop noise cts : Bool) (v k : Nat), (s.hw.serial 6).cur ≠ none → s.hw.lyd.ratePend = some (v, k) →
    (1 < k → Completes (.uartCharSent 6 d par stop noise cts) s fun h => h.lyd = { s.hw.lyd with ratePend := some (v, k - 1) } ∧
      h.reg (UART_RATE 6) = s.hw.reg (UART_RATE 6)) ∧
    (k ≤ 1 → v < 2 ^ 32 → RateOk 6 v → Completes (.uartCharSent 6 d par stop noise cts) s fun h =>
      h.lyd = { s.hw.lyd with ratePend := none, rateAt := some s.hw.tcnt } ∧ (h.reg (UART_RATE 6)).toNat = v ∧ (h.serial 6).txRate = v)) ∧
  (∀ s : State, s.hw.rf LYD_SESS_STATE = 0 → Completes .lydSessionTimeout s (fun h => h = s.hw) ∧ Completes .lydLineLow s fun h => h = s.hw) ∧
  (∀ s : State, s.hw.rf LYD_SESS_STATE ≠ 0 → Completes .lydSessionTimeout s (SessionOver (atTime s.hw (s.hw.lyd.last + 2 * 491520000))) ∧
    Completes .lydLineLow s (SessionOver s.hw)) ∧
  (∀ s : State, s.hw.lyd.rateAt = none → Completes .lydRateTimeout s fun h => h = s.hw) ∧
  (∀ (s : State) (t : Nat), s.hw.lyd.rateAt = some t → s.hw.rf LYD_SESS_STATE ≠ 0 →
    Completes .lydRateTimeout s (SessionOver (atTime s.hw (t + 491520000)))) ∧
  (∀ s : State, (s.hw.link 7).role ≠ 2 → Completes .serviceRoleExpiry s fun h => h = s.hw) ∧
  (∀ s : State, (s.hw.link 7).role = 2 → Completes .serviceRoleExpiry s fun h => h.link 7 = { s.hw.link 7 with role := 0 } ∧
    (∀ j, j ≠ 7 → h.link j = s.hw.link j) ∧ Changes [(LYD_SESS_ROLE, 0)] [.fw] (atTime s.hw (s.hw.lyd.service + 3600 * 491520000)) h)

/-- An entry of RADIO_DONE without VALID (R558). -/
def doneEntry (tag status : Nat) (clamp : Bool) (rssi delay : Nat) : Nat :=
  tag + 256 * status + (if clamp then 4096 else 0) + 65536 * rssi + 2 ^ 24 * min 127 delay

/-- The done FIFO after an entry, and the field that says that it was full (R558). -/
def donePost (r : Radio) (e : Nat) : List Nat := if 8 ≤ r.done.length then r.done else r.done ++ [e]
def doneFull (r : Radio) : List (Fld × Nat) := if 8 ≤ r.done.length then [(RADIO_CMDST_DOVF, 1)] else []

/-- The command behind the head, if there is one, is not timed. -/
abbrev NextReady (rest : List RadioCmd) : Prop := ∀ d, rest.head? = some d → d.imm = true

/-- Command `c` is at the head and may start: no window is open, no hold runs, and coexistence lets it go on (R557, R576, R587). -/
def MayStart (h : Hw) (c : RadioCmd) (rest : List RadioCmd) : Prop :=
  h.radio.queue = c :: rest ∧ h.radio.window = none ∧ h.on RADIO_STAT_HOLD_ACT = false ∧
  (h.on RADIO_COEX_EN = false ∨ h.radio.granted = true ∨ (c.op = 2 ∧ h.on RADIO_COEX_RXREQ = false) ∨ 4 ≤ c.op)

/-- No command with this OP may start. -/
def NoStart (h : Hw) (op : Nat) : Prop :=
  (∀ c, h.radio.queue.head? = some c → c.op ≠ op) ∨ h.radio.window ≠ none ∨ h.on RADIO_STAT_HOLD_ACT = true ∨
  (h.on RADIO_COEX_EN = true ∧ h.radio.granted = false ∧ op ≤ 3 ∧ (op = 2 → h.on RADIO_COEX_RXREQ = true))

/-- Timing counts until the START of a command (R555). -/
def clocksTo (h : Hw) (c : RadioCmd) : Nat := if c.imm then 0 else 8 * (toSigned 32 (c.c2 + 2 ^ 32 - h.tcnt / 8 % 2 ^ 32)).toNat

/-- The radio record when the head has ended and `rest` follows (R557, R558, R578). -/
def headGone (r : Radio) (rest : List RadioCmd) (e : Nat) : Radio :=
  { r with
    queue := rest
    done := donePost r e
    window := none
    asked := false
    granted := false
    opened := false
    delay := 0
    req := false
    pri := false }

/-- From `h` to `h'` the radio record becomes `r`, the fields take the values beside them, time comes to `t`, and nothing else changes. -/
def RadioBecomes (r : Radio) (fs : List (Fld × Nat)) (t : Nat) (h h' : Hw) : Prop := h'.radio = r ∧ h'.tcnt = t ∧ Changes fs [.radio, .tcnt, .free] h h'

/-- The state code that RET gives (R562, R578). -/
def retState (c : RadioCmd) : Nat := if c.ret = 2 then 0 else 1

/-- The channel's calibration entry is valid, and µs are counted in the present bucket (R561, R571). -/
def calibrated (r : Radio) (f : Nat) : List Nat := if f ∈ r.valid then r.valid else f :: r.valid
def counted (r : Radio) (t : Nat) : List Nat := match r.buckets with | [] => [t] | b :: bs => (b + t) :: bs

/-- The highest power code in force (R570). -/
def powerLimit (h : Hw) : Nat := min (60 - h.fuses.pcut) (min 60 (h.rf RADIO_LIM_PMAX))

/-- The status that the limits give a transmission of the head, if any (R563, R571, R572). -/
def Limited (h : Hw) (c : RadioCmd) (st : Nat) : Prop :=
  (st = 0xA ∧ 257 < h.bufLen c.buf) ∨
  (st = 5 ∧ h.bufLen c.buf ≤ 257 ∧ h.txBarred c.chan = true) ∨
  (st = 4 ∧ h.bufLen c.buf ≤ 257 ∧ h.txBarred c.chan = false ∧
    min (1000 - h.fuses.dcut) (min 1000 (h.rf RADIO_LIM_DUTY)) * 1000 < h.radio.buckets.sum + airtime c.phy (h.bufLen c.buf))

/-- The PDU stands in packet buffer b with its length (R560). -/
def Received (b : Nat) (pdu : List Nat) (h : Hw) : Prop :=
  h.radioByte (0x1000 + 0x200 * b + 8) = pdu.length % 256 ∧ h.radioByte (0x1000 + 0x200 * b + 9) = pdu.length / 256 ∧
  ∀ i, i < pdu.length → h.radioByte (0x1000 + 0x200 * b + 10 + i) = pdu.getD i 0

/-- Registers outside packet buffer b, but for the fields of `fs`, are unchanged. -/
def OutsideBuffer (b : Nat) (fs : List (Fld × Nat)) (h h' : Hw) : Prop :=
  ∀ a, (a < 0x40161000 + 0x200 * b ∨ 0x40161000 + 0x200 * b + 0x200 ≤ a) → ∀ k, k < 32 → (h'.reg a).getLsbD k = fieldBit (h.reg a) a k fs

/-- A window closes with a status: the RX command that opened it ends, or a return reception does (R556, R557, R575). -/
def windowShut (r : Radio) (rssi status : Nat) : Radio :=
  match r.queue with
  | c :: rest => if r.opened then headGone { r with rssi := rssi } rest (doneEntry c.tag status false rssi r.delay)
    else { r with window := none, rssi := rssi, req := r.req && r.asked, pri := r.pri && r.asked }
  | [] => { r with window := none, rssi := rssi, req := r.req && r.asked, pri := r.pri && r.asked }

/-- The fields that the close of a window writes. -/
def shutFields (r : Radio) : List (Fld × Nat) :=
  match r.queue with
  | c :: _ => if r.opened then (RADIO_STAT_STATE, retState c) :: doneFull r else [(RADIO_STAT_STATE, 1)]
  | [] => [(RADIO_STAT_STATE, 1)]

/-- The radio's command queue and packets (R551, R553 to R559, R560 to R567, R570 to R572, R578, R587). -/
def Obligations.RadioCommands : Prop :=
  (∀ (s : State) (v : BitVec 32), v.toNat % 2 = 0 → Completes (.radioCmdgo v) s fun h => h = s.hw) ∧
  (∀ (s : State) (v : BitVec 32) (c : RadioCmd), v.toNat % 2 = 1 →
    c = ⟨(s.hw.reg RADIO_CMD0).toNat, (s.hw.reg RADIO_CMD1).toNat, (s.hw.reg RADIO_CMD2).toNat⟩ →
    ((s.hw.on RADIO_STAT_HOLD_ACT = true ∨ c.op = 0 ∨ 6 ≤ c.op ∨ 78 < c.chan) → Completes (.radioCmdgo v) s (Changes [(RADIO_CMDST_CMD_ERR, 1)] [] s.hw)) ∧
    (s.hw.on RADIO_STAT_HOLD_ACT = false → 1 ≤ c.op → c.op ≤ 5 → c.chan ≤ 78 →
      (4 ≤ s.hw.radio.queue.length → Completes (.radioCmdgo v) s (Changes [(RADIO_CMDST_QFULL, 1)] [] s.hw)) ∧
      (s.hw.radio.queue.length < 4 → (s.hw.radio.queue ≠ [] ∨ c.imm = true) → Completes (.radioCmdgo v) s fun h =>
        h = { s.hw with radio := { s.hw.radio with queue := s.hw.radio.queue ++ [c] } }) ∧
      (∀ lead, s.hw.radio.queue = [] → c.imm = false →
        lead = (if 4 ≤ c.op then 0 else (if c.chan ∈ s.hw.radio.valid then 8 else 40) + (if s.hw.rf RADIO_STAT_STATE = 0 then 50 else 0)) →
        (toSigned 32 (c.c2 + 2 ^ 32 - s.hw.tcnt / 8 % 2 ^ 32) * 100 ≥ ((lead * 6144 : Nat) : Int) → Completes (.radioCmdgo v) s fun h =>
          h = { s.hw with radio := { s.hw.radio with queue := [c] } }) ∧
        (toSigned 32 (c.c2 + 2 ^ 32 - s.hw.tcnt / 8 % 2 ^ 32) * 100 < ((lead * 6144 : Nat) : Int) → Completes (.radioCmdgo v) s
          (RadioBecomes { s.hw.radio with done := donePost s.hw.radio (doneEntry c.tag 8 false s.hw.radio.rssi 0) }
            ((if c.op ≤ 3 ∧ s.hw.radio.window = none then [(RADIO_STAT_STATE, retState c)] else []) ++ doneFull s.hw.radio) s.hw.tcnt s.hw))))) ∧
  (∀ s : State, (∀ d, NoStart s.hw 1 → Completes (.radioTx d) s fun h => h = s.hw) ∧ (∀ d, NoStart s.hw 2 → Completes (.radioRx d) s fun h => h = s.hw) ∧
    (NoStart s.hw 4 → Completes .radioIdle s fun h => h = s.hw) ∧ (NoStart s.hw 5 → Completes .radioOff s fun h => h = s.hw) ∧
    ((∀ op, 1 ≤ op → op ≤ 3 → NoStart s.hw op) → Completes .synthTimeout s fun h => h = s.hw)) ∧
  (∀ (s : State) (c : RadioCmd) (rest : List RadioCmd) (delay t : Nat), MayStart s.hw c rest → NextReady rest → c.op = 1 →
    t = s.hw.tcnt + clocksTo s.hw c + delay * 49152 / 100 → t < 2 ^ 64 →
    (∀ st, Limited s.hw c st → Completes (.radioTx delay) s
      (RadioBecomes (headGone s.hw.radio rest (doneEntry c.tag st false s.hw.radio.rssi 0))
        ((RADIO_STAT_STATE, retState c) :: doneFull s.hw.radio ++ (if st = 4 then [(RADIO_TALLY1_DUTYREF, satTo 65535 (s.hw.rf RADIO_TALLY1_DUTYREF + 1))] else []))
        t s.hw)) ∧
    (∀ clamp, (∀ st, ¬ Limited s.hw c st) → clamp = decide (powerLimit s.hw < min 60 (c.c1 % 128)) →
      (c.ret ≠ 1 → Completes (.radioTx delay) s fun h =>
        (∃ vin, h.radio.pa = (Config.paSetting (min (powerLimit s.hw) (c.c1 % 128)) (toSigned 16 (s.hw.rf (BGND_TEMP_TS_LO 2))) vin s.hw.sys.calTemp).toNat) ∧
        RadioBecomes { headGone s.hw.radio rest (doneEntry c.tag 0 clamp s.hw.radio.rssi delay) with
            valid := calibrated s.hw.radio c.chan
            buckets := counted s.hw.radio (airtime c.phy (s.hw.bufLen c.buf))
            pa := h.radio.pa }
          ((RADIO_STAT_STATE, retState c) :: doneFull s.hw.radio ++ (if clamp then [(RADIO_TALLY2_CLAMPED, satTo 65535 (s.hw.rf RADIO_TALLY2_CLAMPED + 1))] else []))
          t s.hw h) ∧
      (c.ret = 1 → Completes (.radioTx delay) s fun h =>
        RadioBecomes { headGone s.hw.radio rest (doneEntry c.tag 0 clamp s.hw.radio.rssi delay) with
            valid := calibrated s.hw.radio c.chan
            buckets := counted s.hw.radio (airtime c.phy (s.hw.bufLen c.buf))
            pa := h.radio.pa
            window := some (c.buf ^^^ 1)
            req := s.hw.radio.req
            pri := s.hw.radio.pri }
          ((RADIO_STAT_STATE, 3) :: doneFull s.hw.radio ++ (if clamp then [(RADIO_TALLY2_CLAMPED, satTo 65535 (s.hw.rf RADIO_TALLY2_CLAMPED + 1))] else []))
          t s.hw h))) ∧
  (∀ (s : State) (c : RadioCmd) (rest : List RadioCmd) (delay t : Nat), MayStart s.hw c rest → c.op = 2 →
    t = s.hw.tcnt + clocksTo s.hw c + delay * 49152 / 100 → t < 2 ^ 64 → Completes (.radioRx delay) s
      (RadioBecomes { s.hw.radio with valid := calibrated s.hw.radio c.chan, window := some c.buf, opened := true, delay := delay }
        [(RADIO_STAT_STATE, 3)] t s.hw)) ∧
  (∀ (s : State) (pdu : List Nat) (ok : Bool) (rssi : BitVec 8), s.hw.radio.window = none →
    Completes (.radioPacketReceived pdu ok rssi) s (fun h => h = s.hw) ∧ Completes .radioRxTimeout s fun h => h = s.hw) ∧
  (∀ (s : State) (pdu : List Nat) (ok : Bool) (rssi : BitVec 8) (b : Nat), s.hw.radio.window = some b →
    (s.hw.radio.opened = true → NextReady (s.hw.radio.queue.drop 1)) →
    (b < 4 → pdu.length ≤ 257 → (∀ x ∈ pdu, x < 256) → Completes (.radioPacketReceived pdu ok rssi) s fun h =>
      h.radio = windowShut s.hw.radio rssi.toNat (if ok then 0 else 7) ∧ Received b pdu h ∧ OutsideBuffer b (shutFields s.hw.radio) s.hw h ∧
      Touches [.regs, .radio] s.hw h) ∧
    Completes .radioRxTimeout s (RadioBecomes (windowShut s.hw.radio s.hw.radio.rssi 6) (shutFields s.hw.radio) s.hw.tcnt s.hw)) ∧
  (∀ (s : State) (c : RadioCmd) (rest : List RadioCmd) (t : Nat), MayStart s.hw c rest → NextReady rest → t = s.hw.tcnt + clocksTo s.hw c → t < 2 ^ 64 →
    (c.op = 4 → Completes .radioIdle s (RadioBecomes (headGone s.hw.radio rest (doneEntry c.tag 0 false s.hw.radio.rssi 0))
      ((RADIO_STAT_STATE, 1) :: doneFull s.hw.radio) t s.hw)) ∧
    (c.op = 5 → Completes .radioOff s (RadioBecomes (headGone s.hw.radio rest (doneEntry c.tag 0 false s.hw.radio.rssi 0))
      ((RADIO_STAT_STATE, 0) :: doneFull s.hw.radio) t s.hw)) ∧
    (1 ≤ c.op → c.op ≤ 3 → Completes .synthTimeout s (RadioBecomes (headGone s.hw.radio rest (doneEntry c.tag 1 false s.hw.radio.rssi 0))
      ([(RADIO_STAT_STATE, retState c), (RADIO_TALLY1_SYNTHTO, satTo 65535 (s.hw.rf RADIO_TALLY1_SYNTHTO + 1))] ++ doneFull s.hw.radio) s.hw.tcnt s.hw))) ∧
  (∀ s : State, (s.hw.radio.done = [] → Completes .radioDoneRead s fun h => h = { s.hw with resp := .data 0 }) ∧
    (∀ e more, s.hw.radio.done = e :: more → Completes .radioDoneRead s fun h =>
      h = { s.hw with radio := { s.hw.radio with done := more }, resp := .data (e + 2 ^ 31) })) ∧
  (∀ (s : State) (v : BitVec 32) (k : Nat) (r : Radio), v.toNat.testBit 3 = false → r = s.hw.radio → k = (if r.opened then 1 else 0) →
    r.done.length + (r.queue.drop k).length ≤ 8 → Completes (.radioFlush v) s
      (RadioBecomes { r with
          queue := r.queue.take k
          done := r.done ++ (r.queue.drop k).map fun c => doneEntry c.tag 9 false r.rssi 0
          asked := r.asked && r.opened
          granted := r.granted && r.opened
          req := r.req && (r.opened || r.window.isSome)
          pri := r.pri && (r.opened || r.window.isSome) }
        [(RADIO_CTRL_CONS, v.toNat % 2), (RADIO_CTRL_HOLD_AUTO, v.toNat / 2 % 2)] s.hw.tcnt s.hw)) ∧
  (∀ (s : State) (ts4 : Int),
    (s.hw.on RADIO_STAT_CAL_PEND = true → s.hw.radio.queue = [] → s.hw.radio.window = none → s.hw.rf RADIO_STAT_STATE ≤ 1 → Completes (.radioPaCal ts4) s fun h =>
      h.sys = { s.hw.sys with calTemp := ts4 } ∧ Changes [(RADIO_STAT_CAL_PEND, 0)] [.sys] s.hw h) ∧
    ((s.hw.on RADIO_STAT_CAL_PEND = false ∨ s.hw.radio.queue ≠ [] ∨ s.hw.radio.window ≠ none ∨ 1 < s.hw.rf RADIO_STAT_STATE) →
      Completes (.radioPaCal ts4) s fun h => h = s.hw))

/-- Result words of the subevent's steps from i on, all of them in synchronism or not followed (R582). -/
def stepWords (h : Hw) : Nat → List (Bool × List Nat) → List Nat
  | _, [] => []
  | i, m :: ms => h.csResult i m.1 m.2 ++ stepWords h (i + 1) ms

/-- Step i of the list has a CS_SYNC that can be missed: its mode has one, and its channel is not barred (R572, R580). -/
def SyncStep (h : Hw) (i : Nat) : Prop := h.csStep i % 4 ≠ 2 ∧ h.txBarred (h.csStep i / 4 % 128) = false

/-- The subevent of the head `c` has ended with a status: its results are `ws`, `m` steps were run of `n`, and `fs` are the other fields that changed. -/
structure Sounded (c : RadioCmd) (rest : List RadioCmd) (gr : Bool) (status rssi m n t : Nat) (ws : List Nat) (fs : List (Fld × Nat)) (h h' : Hw) : Prop where
  words : ∀ j, j < ws.length → j < 1024 → h'.reg (0x40164000 + 4 * j) = BitVec.ofNat 32 (ws.getD j 0)
  others : ∀ a, (∀ j, j < ws.length → j < 1024 → a ≠ 0x40164000 + 4 * j) → ∀ k, k < 32 → (h'.reg a).getLsbD k = fieldBit (h.reg a) a k fs
  time : h'.tcnt = t
  valid : ∀ f, f ∈ h'.radio.valid ↔ f ∈ h.radio.valid ∨ ∃ i, i < (if h.on RADIO_CSCFG_CALPASS then n else m) ∧ h.csStep i / 4 % 128 = f
  power : ∃ vin, h'.radio.pa = (Config.paSetting (min (min (powerLimit h) (min 60 (h.rf RADIO_CSCFG_PWR))) (c.c1 % 128))
    (toSigned 16 (h.rf (BGND_TEMP_TS_LO 2))) vin h.sys.calTemp).toNat
  radio : h'.radio = { headGone { h.radio with rssi := rssi } rest
      (doneEntry c.tag status (decide (min (powerLimit h) (min 60 (h.rf RADIO_CSCFG_PWR)) < min 60 (c.c1 % 128))) rssi 0) with
    valid := h'.radio.valid
    buckets := counted h.radio h.csTime
    pa := h'.radio.pa
    grant := gr }
  rest : Touches [.regs, .radio, .tcnt, .free] h h'

/-- The fields beside the results that the end of a subevent writes. -/
def soundedFields (c : RadioCmd) (h : Hw) : List (Fld × Nat) :=
  (RADIO_STAT_STATE, retState c) :: doneFull h.radio ++
  (if min (powerLimit h) (min 60 (h.rf RADIO_CSCFG_PWR)) < min 60 (c.c1 % 128) then [(RADIO_TALLY2_CLAMPED, satTo 65535 (h.rf RADIO_TALLY2_CLAMPED + 1))] else [])

/-- The duty limit bars t µs more (R571). -/
def OverLimit (h : Hw) (t : Nat) : Prop := min (1000 - h.fuses.dcut) (min 1000 (h.rf RADIO_LIM_DUTY)) * 1000 < h.radio.buckets.sum + t

/-- A blow of the fuse field that `v` names is permitted to a session with this role (R574). -/
def BlowOk (h : Hw) (v role : Nat) : Prop :=
  v / 65536 = 0x4642 ∧ v % 8 ≤ 4 ∧ (h.fuses.lifecycle = 1 ∨ h.fuses.lifecycle = 2) ∧ 2 ≤ role ∧ ¬ (v % 8 = 2 ∧ h.fuses.region ≠ 0) ∧
  h.on RADIO_FBSTAT_BUSY = false

/-- The fuses with field f holding v. -/
def fuseSet (u : Fuses) (f v : Nat) : Fuses :=
  match f with
  | 0 => { u with pcut := v }
  | 1 => { u with dcut := v }
  | 2 => { u with region := v }
  | 3 => { u with fmask := u.fmask / 2 ^ 32 * 2 ^ 32 + v }
  | _ => { u with fmask := u.fmask % 2 ^ 32 + v * 2 ^ 32 }

/-- Fuse field f and its width. -/
def fuseGet (u : Fuses) (f : Nat) : Nat × Nat :=
  match f with
  | 0 => (u.pcut, 7)
  | 1 => (u.dcut, 10)
  | 2 => (u.region, 4)
  | 3 => (u.fmask % 2 ^ 32, 32)
  | _ => (u.fmask / 2 ^ 32, 8)

/-- Word i of hold descriptor k. -/
def holdReg (k i : Nat) : Nat := 0x40160800 + 0x40 * k + 4 * i

/-- The fields that the end of a hold writes. -/
def holdOver (h : Hw) : List (Fld × Nat) := if h.on RADIO_STAT_HOLD_ACT then [(RADIO_STAT_STATE, 1), (RADIO_STAT_HOLD_ACT, 0)] else []

/-- Channel sounding, limits, coexistence, the hold and advertising (R571 to R577, R579 to R588, R592, R594). -/
def Obligations.RadioSharing : Prop :=
  (∀ (s : State) (meas : List (Bool × List Nat)) (rssi : BitVec 8), NoStart s.hw 3 → Completes (.radioCs meas rssi) s fun h => h = s.hw) ∧
  (∀ (s : State) (c : RadioCmd) (rest : List RadioCmd) (meas : List (Bool × List Nat)) (rssi : BitVec 8) (t n : Nat), MayStart s.hw c rest → NextReady rest →
    c.op = 3 → t = s.hw.tcnt + clocksTo s.hw c → t < 2 ^ 64 → n = max 2 (min 160 (s.hw.rf RADIO_CSCFG_NSTEP)) →
    (OverLimit s.hw s.hw.csTime → Completes (.radioCs meas rssi) s
      (RadioBecomes (headGone s.hw.radio rest (doneEntry c.tag 4 false s.hw.radio.rssi 0))
        ((RADIO_STAT_STATE, retState c) :: doneFull s.hw.radio ++ [(RADIO_TALLY1_DUTYREF, satTo 65535 (s.hw.rf RADIO_TALLY1_DUTYREF + 1))]) t s.hw)) ∧
    (¬ OverLimit s.hw s.hw.csTime →
      ((s.hw.on RADIO_CSCFG_ROLE = false ∨ ∀ m ∈ meas, m.1 = true) → Completes (.radioCs meas rssi) s
        (Sounded c rest s.hw.radio.grant 0 rssi.toNat (meas.take n).length n t (stepWords s.hw 0 (meas.take n)) (soundedFields c s.hw) s.hw)) ∧
      (∀ a b more, s.hw.on RADIO_CSCFG_ROLE = true → meas = (false, a) :: (false, b) :: more → SyncStep s.hw 0 → SyncStep s.hw 1 →
        Completes (.radioCs meas rssi) s
          (Sounded c rest s.hw.radio.grant 0xB rssi.toNat (meas.take n).length n t (s.hw.csResult 0 false a ++ s.hw.csResult 1 false b) (soundedFields c s.hw) s.hw)))) ∧
  (∀ s : State, Completes .dutyWindowAdvance s fun h => h.radio.buckets.sum = (s.hw.radio.buckets.take 999).sum ∧
    h = { s.hw with radio := { s.hw.radio with
      buckets := if ((0 :: s.hw.radio.buckets).take 1000).all (· == 0) then [] else (0 :: s.hw.radio.buckets).take 1000 } }) ∧
  (∀ (s : State) (l : Fin 10) (v : BitVec 32),
    (BlowOk s.hw v.toNat (s.hw.link l).role → Completes (.radioFuseBlow l v) s fun h =>
      h.radio = { s.hw.radio with blow := some (v.toNat % 8, s.hw.rf RADIO_FBVAL_VALUE % 2 ^ (fuseGet s.hw.fuses (v.toNat % 8)).2, (fuseGet s.hw.fuses (v.toNat % 8)).1) } ∧
      Changes [(RADIO_FBSTAT_BUSY, 1)] [.radio] s.hw h) ∧
    (¬ BlowOk s.hw v.toNat (s.hw.link l).role → Completes (.radioFuseBlow l v) s (Changes [(RADIO_FBSTAT_REFUSED, 1)] [] s.hw))) ∧
  (∀ (s : State) (took : Nat), (s.hw.radio.blow = none → Completes (.radioFuseBlowDone took) s fun h => h = s.hw) ∧
    (∀ f v old, s.hw.radio.blow = some (f, v, old) → Completes (.radioFuseBlowDone took) s fun h =>
      h.fuses = fuseSet s.hw.fuses f (old ||| (v &&& took)) ∧ h.radio = { s.hw.radio with blow := none } ∧
      Changes ([(RADIO_FBSTAT_DONE, 1), (RADIO_FBSTAT_BUSY, 0)] ++ (if old ||| (v &&& took) = old ||| v then [] else [(RADIO_FBSTAT_VERIFY_ERR, 1)]))
        [.radio, .fuses] s.hw h)) ∧
  (∀ s : State, (∀ c rest, s.hw.radio.queue = c :: rest → s.hw.on RADIO_COEX_EN = true → s.hw.radio.opened = false →
      (c.op = 1 ∨ c.op = 3 ∨ (c.op = 2 ∧ s.hw.on RADIO_COEX_RXREQ = true)) → Completes .coexRequest s fun h =>
        h = { s.hw with radio := { s.hw.radio with asked := true, req := true, pri := c.pri } }) ∧
    ((s.hw.on RADIO_COEX_EN = false ∨ s.hw.radio.opened = true ∨
      ∀ c, s.hw.radio.queue.head? = some c → c.op ≠ 1 ∧ c.op ≠ 3 ∧ (c.op = 2 → s.hw.on RADIO_COEX_RXREQ = false)) →
      Completes .coexRequest s fun h => h = s.hw)) ∧
  (∀ (s : State) (active : Bool),
    ((s.hw.radio.queue = [] ∨ s.hw.radio.asked = false ∨ s.hw.radio.granted = true) → Completes (.coexGrantSample active) s fun h =>
      h = { s.hw with radio := { s.hw.radio with grant := active } }) ∧
    (s.hw.radio.queue ≠ [] → s.hw.radio.asked = true → s.hw.radio.granted = false → active = true → Completes (.coexGrantSample active) s fun h =>
      h = { s.hw with radio := { s.hw.radio with grant := true, granted := true } }) ∧
    (∀ c rest, s.hw.radio.queue = c :: rest → NextReady rest → s.hw.radio.asked = true → s.hw.radio.granted = false → active = false →
      Completes (.coexGrantSample active) s
        (RadioBecomes (headGone { s.hw.radio with grant := false } rest (doneEntry c.tag 2 false s.hw.radio.rssi 0))
          ([(RADIO_STAT_STATE, retState c), (RADIO_TALLY0_DENIED, satTo 65535 (s.hw.rf RADIO_TALLY0_DENIED + 1))] ++ doneFull s.hw.radio) s.hw.tcnt s.hw))) ∧
  (∀ (s : State) (meas : List (Bool × List Nat)) (rssi : BitVec 8), (s.hw.on RADIO_COEX_EN = false ∨ (NoStart s.hw 1 ∧ NoStart s.hw 3)) →
    Completes (.coexGrantLost meas rssi) s fun h => h = s.hw) ∧
  (∀ (s : State) (c : RadioCmd) (rest : List RadioCmd) (meas : List (Bool × List Nat)) (rssi : BitVec 8) (t n : Nat), MayStart s.hw c rest → NextReady rest →
    s.hw.on RADIO_COEX_EN = true → t = s.hw.tcnt + clocksTo s.hw c → t < 2 ^ 64 → n = max 2 (min 160 (s.hw.rf RADIO_CSCFG_NSTEP)) →
    (((c.op = 1 ∧ ∃ st, Limited s.hw c st) ∨ (c.op = 3 ∧ OverLimit s.hw s.hw.csTime)) → Completes (.coexGrantLost meas rssi) s fun h =>
      h = { s.hw with radio := { s.hw.radio with grant := false } }) ∧
    (∀ clamp, c.op = 1 → (∀ st, ¬ Limited s.hw c st) → clamp = decide (powerLimit s.hw < min 60 (c.c1 % 128)) →
      (s.hw.on RADIO_COEX_TXABORT = true → Completes (.coexGrantLost meas rssi) s fun h =>
        RadioBecomes { headGone { s.hw.radio with grant := false } rest (doneEntry c.tag 3 clamp s.hw.radio.rssi 0) with
            valid := calibrated s.hw.radio c.chan
            buckets := counted s.hw.radio (airtime c.phy (s.hw.bufLen c.buf))
            pa := h.radio.pa }
          ([(RADIO_STAT_STATE, retState c), (RADIO_TALLY0_LOST, satTo 65535 (s.hw.rf RADIO_TALLY0_LOST + 1))] ++ doneFull s.hw.radio ++
            (if clamp then [(RADIO_TALLY2_CLAMPED, satTo 65535 (s.hw.rf RADIO_TALLY2_CLAMPED + 1))] else [])) t s.hw h) ∧
      (s.hw.on RADIO_COEX_TXABORT = false → Completes (.coexGrantLost meas rssi) s fun h =>
        ∃ g : Hw, RadioBecomes { s.hw.radio with grant := false } [(RADIO_TALLY0_LOST, satTo 65535 (s.hw.rf RADIO_TALLY0_LOST + 1))] t s.hw g ∧
          Completes (.radioTx 0) ⟨g, s.pending⟩ fun h' => h' = h)) ∧
    (c.op = 3 → ¬ OverLimit s.hw s.hw.csTime → (s.hw.on RADIO_CSCFG_ROLE = false ∨ ∀ m ∈ meas, m.1 = true) → Completes (.coexGrantLost meas rssi) s fun h =>
      Sounded c rest false 3 rssi.toNat (meas.take n).length n t (stepWords s.hw 0 (meas.take n))
        ((RADIO_TALLY0_LOST, satTo 65535 (s.hw.rf RADIO_TALLY0_LOST + 1)) :: soundedFields c s.hw) s.hw h)) ∧
  (∀ (s : State) (k : Fin 4) (reply : Option (Bool × Bool × Bool)),
    ((s.hw.on RADIO_STAT_HOLD_ACT = false ∨ (s.hw.reg (holdReg k 0)).toNat % 2 = 0) → Completes (.radioHoldEvent k reply) s fun h => h = s.hw) ∧
    (∀ w w3 w4 ch may sn nesn, s.hw.on RADIO_STAT_HOLD_ACT = true → w = (s.hw.reg (holdReg k 0)).toNat → w % 2 = 1 → w3 = (s.hw.reg (holdReg k 3)).toNat →
      w4 = (s.hw.reg (holdReg k 4)).toNat →
      ch = Config.holdChannel ((s.hw.reg (holdReg k 5)).toNat % 65536) (w4 / 65536)
        ((s.hw.reg (holdReg k 6)).toNat + 2 ^ 32 * ((s.hw.reg (holdReg k 7)).toNat % 32)) →
      (may = true ↔ s.hw.txBarred ch = false ∧ ¬ OverLimit s.hw (airtime (w / 8 % 4) 2)) →
      (sn, nesn) = (match (if may then reply else none) with
        | none => (w.testBit 1, w.testBit 2)
        | some (rsn, rnesn, data) => (if rnesn = w.testBit 1 then w.testBit 1 else !w.testBit 1, if rsn = w.testBit 2 ∧ data = false then !w.testBit 2 else w.testBit 2)) →
      Completes (.radioHoldEvent k reply) s fun h =>
        (may = false → h.radio = s.hw.radio) ∧
        (may = true → h.radio = { s.hw.radio with
            valid := calibrated s.hw.radio ch
            buckets := counted s.hw.radio (airtime (w / 8 % 4) 2)
            pa := h.radio.pa } ∧
          ∃ vin, h.radio.pa = (Config.paSetting (min (powerLimit s.hw) (min 60 (w / 32 % 128))) (toSigned 16 (s.hw.rf (BGND_TEMP_TS_LO 2))) vin
            s.hw.sys.calTemp).toNat) ∧
        Changes [(RADIO_TALLY2_HELD, satTo 65535 (s.hw.rf RADIO_TALLY2_HELD + 1)),
          (wholeReg (holdReg k 4), w4 % 65536 + (w4 / 65536 + 1) % 65536 * 65536), (wholeReg (holdReg k 3), (w3 + 76800 * (w4 % 65536)) % 2 ^ 32),
          (wholeReg (holdReg k 0), w / 8 * 8 + 1 + (if sn then 2 else 0) + (if nesn then 4 else 0))] [.radio, .free] s.hw h)) ∧
  (∀ (s : State) (v : BitVec 32), v.toNat.testBit 2 = false → Completes (.holdRel v) s
    (Changes (holdOver s.hw ++ [(RADIO_CTRL_CONS, v.toNat % 2), (RADIO_CTRL_HOLD_AUTO, v.toNat / 2 % 2)]) [] s.hw)) ∧
  (∀ s : State, (s.hw.on RADIO_STAT_HOLD_ACT = false → Completes .radioHoldTimeout s fun h => h = s.hw) ∧
    (s.hw.on RADIO_STAT_HOLD_ACT = true → Completes .radioHoldTimeout s fun h =>
      h.tcnt = max s.hw.tcnt ((s.hw.radio.held + 491520000) % 2 ^ 64) ∧
      h.pkey = { s.hw.pkey with conns := s.hw.pkey.conns.filter fun c => (s.hw.reg (holdReg c.1 0)).toNat % 2 == 0 } ∧
      Changes ([(RADIO_STAT_STATE, 1), (RADIO_STAT_HOLD_ACT, 0)] ++ [0, 1, 2, 3].map fun k => (⟨holdReg k 0, 0, 1⟩, 0)) [.tcnt, .pkey] s.hw h)) ∧
  (∀ s : State, ((s.hw.fwUp = false ∨ 4 ≤ s.hw.pkey.conns.length) → Completes .advertisingEvent s fun h => h = s.hw) ∧
    (s.hw.fwUp = true → s.hw.pkey.conns.length < 4 → Completes .advertisingEvent s fun h =>
      h.pkey = { s.hw.pkey with adverts := s.hw.pkey.adverts + 1 } ∧
      h.sched = (if s.hw.sched.advDue then { s.hw.sched with
        advDue := false
        adv := s.hw.sched.adv.map fun x => x + ((s.hw.obj 0x6110 0x0A * 163840 : Nat) : Int) } else s.hw.sched) ∧
      Touches [.pkey, .sched] s.hw h))

/-- n bytes of a token from byte o, as a number. -/
def tok (t : List Nat) (o n : Nat) : Nat := leNat ((t.drop o).take n)

/-- Check 1 of R597. -/
abbrev TokenForm (t : List Nat) : Prop :=
  t.length = 128 ∧ tok t 0 4 = 0x42544B01 ∧ tok t 4 1 = 1 ∧ tok t 6 2 = 0 ∧ tok t 0x1E 2 = 0 ∧ tok t 8 4 ≠ 0 ∧ tok t 0x14 4 < tok t 0x18 4

/-- The token's signature verifies with the operator key (R597). -/
def Signed (t op : List Nat) : Prop := Config.signatureOk op (t.take 64) ((t.drop 64).take 32) ((t.drop 96).take 32) = true

/-- The first check of R597 that the TOKEN fails has this outcome. -/
def TokenFault (h : Hw) (t key : List Nat) (code : Nat) : Prop :=
  (code = 0x11 ∧ ¬ TokenForm t) ∨ (code = 0x12 ∧ TokenForm t ∧ tok t 0x0C 8 ≠ h.fuses.unique) ∨
  (code = 0x1B ∧ TokenForm t ∧ tok t 0x0C 8 = h.fuses.unique ∧ h.keyWithId 0x0300 = none) ∨
  (TokenForm t ∧ tok t 0x0C 8 = h.fuses.unique ∧ ∃ op, h.keyWithId 0x0300 = some op ∧
    ((code = 0x13 ∧ ¬ Signed t op) ∨ (code = 0x14 ∧ Signed t op ∧ tok t 8 4 ∈ h.pkey.revoked) ∨
     (code = 0x15 ∧ Signed t op ∧ tok t 8 4 ∉ h.pkey.revoked ∧ Config.sha256 key ≠ (t.drop 32).take 32)))

/-- A message of address `addr` on connection k meets connection `c`: one that is open, or one that opens now (R592, R613). -/
def MeetsConn (h : Hw) (k addr : Nat) (enc : Bool) (c : PhoneConn) : Prop :=
  h.conn k = some c ∨ (h.conn k = none ∧ (∀ b ∈ h.pkey.bars, b.1 ≠ addr) ∧
    c = ⟨addr, if enc then (h.pkey.bonds.find? fun b => b.2.addr == addr).map (·.1) else none, [], [], [], 0, false, 0, false, 0, 0, false⟩)

/-- A RESULT message (Table 13.1). -/
def resultOf (outcome dist id : Nat) : List Nat := [5, outcome, dist % 256, dist / 256 % 256] ++ leBytes 4 id

/-- The connection with a TOKEN taken and nothing proved yet (R599). -/
def unproved (c : PhoneConn) : PhoneConn := { c with token := [], nonce := [], proved := false, count := 0, taken := false }

/-- The service after a strike on connection k, which was `c` (R613). -/
def struck (h : Hw) (k outcome id : Nat) (c : PhoneConn) : PKey :=
  if c.strikes + 1 < 3 then
    { h.pkey with conns := Store.insert k { c with strikes := c.strikes + 1 } h.pkey.conns, sent := (k, resultOf outcome 0 id) :: h.pkey.sent }
  else
    { h.pkey with
      conns := Store.erase k h.pkey.conns
      sent := (k, resultOf outcome 0 id) :: h.pkey.sent
      bars := Store.insert c.addr h.tcnt h.pkey.bars }

/-- The part after a strike: the log entry of class PKEY, and the service. -/
def afterStrike (h : Hw) (k outcome id : Nat) (c : PhoneConn) : Hw := { h.report 0xB outcome 0 0 id with pkey := struck h k outcome id c }

/-- The service with connection k changed. -/
def withConn (h : Hw) (k : Nat) (c : PhoneConn) : Hw := { h with pkey := { h.pkey with conns := Store.insert k c h.pkey.conns } }

/-- The message that a proof signs (R597). -/
def proofText (h : Hw) (c : PhoneConn) : List Nat := c.nonce ++ leBytes 8 h.fuses.unique ++ (c.token.drop 8).take 4

/-- The connection's token is proved and carries the PAIR right (R590). -/
def MayPair (h : Hw) (c : PhoneConn) : Prop := h.fwUp = true ∧ c.proved = true ∧ (c.token.getD 5 0).testBit 2 = true

/-- Bond b is the lowest free one (R589). -/
def FreeBond (h : Hw) (b : Nat) : Prop := b < 8 ∧ (∀ x ∈ h.pkey.bonds, x.1 ≠ b) ∧ ∀ j, j < b → ∃ x ∈ h.pkey.bonds, x.1 = j

/-- Phones, tokens, proofs, bonds and ranging (R442, R589, R590, R592, R597, R599 to R603, R613). -/
def Obligations.PhoneAuthentication : Prop :=
  (∀ (s : State) (k : Fin 4) (addr : BitVec 56) (enc : Bool) (msg sig entry : List Nat), s.hw.fwUp = false →
    Completes (.pkeyToken k addr enc msg) s (fun h => h = s.hw) ∧ Completes (.pkeyProof k sig) s (fun h => h = s.hw) ∧
    Completes (.pkeyProofTimeout k) s (fun h => h = s.hw) ∧ Completes (.pkeyPairingRequest k entry) s fun h => h = s.hw) ∧
  (∀ (s : State) (k : Fin 4) (addr : BitVec 56) (enc : Bool) (msg : List Nat), s.hw.fwUp = true →
    (s.hw.conn k = none → (∃ b ∈ s.hw.pkey.bars, b.1 = addr.toNat) → Completes (.pkeyToken k addr enc msg) s fun h =>
      h = { s.hw with pkey := { s.hw.pkey with sent := (k.val, resultOf 0x1C 0 0) :: s.hw.pkey.sent } }) ∧
    (∀ c, MeetsConn s.hw k addr.toNat enc c →
      (∀ code, TokenFault s.hw (msg.take 128) (msg.drop 128) code →
        (code = 0x1B → Completes (.pkeyToken k addr enc msg) s fun h =>
          h = { s.hw with pkey := { s.hw.pkey with
            conns := Store.insert k.val (unproved c) s.hw.pkey.conns
            sent := (k.val, resultOf 0x1B 0 (tok (msg.take 128) 8 4)) :: s.hw.pkey.sent } }) ∧
        (code ≠ 0x1B → Completes (.pkeyToken k addr enc msg) s fun h => h = afterStrike s.hw k code (tok (msg.take 128) 8 4) (unproved c))) ∧
      ((∀ code, ¬ TokenFault s.hw (msg.take 128) (msg.drop 128) code) → ∃ n : List Nat, n.length = 16 ∧ (∀ b ∈ n, b < 256) ∧
        Completes (.pkeyToken k addr enc msg) s fun h => h = { s.hw with
          free := s.hw.free + 4
          pkey := { s.hw.pkey with
            conns := Store.insert k.val { unproved c with token := msg.take 128, phoneKey := msg.drop 128, nonce := n, challengeAt := s.hw.tcnt } s.hw.pkey.conns
            sent := (k.val, 2 :: n) :: s.hw.pkey.sent } }))) ∧
  (∀ (s : State) (k : Fin 4) (sig entry : List Nat), s.hw.conn k = none →
    Completes (.pkeyProof k sig) s (fun h => h = s.hw) ∧ Completes (.pkeyProofTimeout k) s (fun h => h = s.hw) ∧
    Completes (.pkeyPairingRequest k entry) s fun h => h = s.hw) ∧
  (∀ (s : State) (k : Fin 4) (c : PhoneConn) (sig : List Nat), s.hw.fwUp = true → s.hw.conn k = some c →
    (c.nonce = [] → Completes (.pkeyProof k sig) s (fun h => h = s.hw) ∧ Completes (.pkeyProofTimeout k) s fun h => h = s.hw) ∧
    (c.nonce ≠ [] →
      (s.hw.tcnt ≤ c.challengeAt + 5 * 491520000 → Config.signatureOk c.phoneKey (proofText s.hw c) (sig.take 32) (sig.drop 32) = true →
        Completes (.pkeyProof k sig) s fun h => h = withConn s.hw k { c with nonce := [], proved := true }) ∧
      ((c.challengeAt + 5 * 491520000 < s.hw.tcnt ∨ Config.signatureOk c.phoneKey (proofText s.hw c) (sig.take 32) (sig.drop 32) = false) →
        Completes (.pkeyProof k sig) s fun h => h = afterStrike s.hw k 0x15 (tok c.token 8 4) { c with nonce := [] }) ∧
      Completes (.pkeyProofTimeout k) s fun h =>
        h = afterStrike (atTime s.hw (c.challengeAt + 5 * 491520000)) k 0x15 (tok c.token 8 4) { c with nonce := [] })) ∧
  (∀ (s : State) (k : Fin 4) (c : PhoneConn) (entry : List Nat), s.hw.conn k = some c →
    (¬ MayPair s.hw c → Completes (.pkeyPairingRequest k entry) s fun h => h = s.hw) ∧
    (MayPair s.hw c →
      ((∀ b, b < 8 → ∃ x ∈ s.hw.pkey.bonds, x.1 = b) → Completes (.pkeyPairingRequest k entry) s fun h =>
        h = { s.hw with pkey := { s.hw.pkey with sent := (k.val, resultOf 0x1A 0 (tok c.token 8 4)) :: s.hw.pkey.sent } }) ∧
      (∀ b, FreeBond s.hw b →
        ((∀ i, i < 512 → s.hw.mramNum (0x60C50000 + 128 * i) 4 = 0x4B530001) → Completes (.pkeyPairingRequest k entry) s (Changes [(MEM_KSTAT_FULL, 1)] [] s.hw)) ∧
        (∀ i g, i < 512 → s.hw.mramNum (0x60C50000 + 128 * i) 4 ≠ 0x4B530001 → (∀ j, j < i → s.hw.mramNum (0x60C50000 + 128 * j) 4 = 0x4B530001) →
          s.hw.journalWrite 0x6111 (b + 2) (leBytes 7 c.addr ++ leBytes 4 s.hw.rtc.sec) = (none, g) → Completes (.pkeyPairingRequest k entry) s fun h =>
            h = { g.mramSet (0x60C50000 + 128 * i) (entry.take 128) with pkey := { s.hw.pkey with
              bonds := Store.insert b ⟨c.addr, s.hw.rtc.sec⟩ s.hw.pkey.bonds
              conns := Store.insert k.val { c with bond := some b } s.hw.pkey.conns } })))) ∧
  (∀ (s : State) (l : Fin 10) (v : BitVec 8), (s.hw.fwUp = false ∨ s.hw.linkRole l = 0 ∨ ∀ x ∈ s.hw.pkey.bonds, x.1 ≠ v.toNat) →
    Completes (.bondDelete l v) s fun h => h = s.hw) ∧
  (∀ (s : State) (l : Fin 10) (v : BitVec 8) (at_ : Nat), s.hw.fwUp = true → 1 ≤ s.hw.linkRole l → v.toNat < 8 → (∃ x ∈ s.hw.pkey.bonds, x.1 = v.toNat) →
    s.hw.fw.journal.area ≤ 1 → s.hw.fw.journal.free + 24 ≤ 131072 → at_ = 0x60C00000 + 0x20000 * s.hw.fw.journal.area + s.hw.fw.journal.free →
    Completes (.bondDelete l v) s fun h =>
      h.pkey.bonds = Store.erase v.toNat s.hw.pkey.bonds ∧
      (∀ j, j < 4 → h.conn j = (s.hw.conn j).filter fun c => c.bond != some v.toNat) ∧
      (∀ i, i < 512 → s.hw.keyWhole i = true → s.hw.keyId i = 0x0400 + v.toNat → ∀ j, j < 128 → h.byte (0x60C50000 + 128 * i + j) = 0) ∧
      (∀ a, (∀ i, i < 512 → s.hw.keyWhole i = true → s.hw.keyId i = 0x0400 + v.toNat → a < 0x60C50000 + 128 * i ∨ 0x60C50000 + 128 * i + 128 ≤ a) →
        (a < at_ ∨ at_ + 24 ≤ a) → h.byte a = s.hw.byte a) ∧ (h.byte (at_ + 3)).toNat = 2 ∧ Touches [.mem, .ecc, .fw, .pkey] s.hw h) ∧
  (∀ (s : State) (k : Fin 4) (radio : Bool) (tones : List (Nat × Int)) (rtts : List Int),
    ((∀ c, s.hw.conn k = some c → s.hw.fwUp = false ∨ c.auth = false) →
      Completes (.csProcedureStart k) s (fun h => h = s.hw) ∧ Completes (.csProcedureResult k radio tones rtts) s fun h => h = s.hw) ∧
    (∀ c, s.hw.conn k = some c → s.hw.fwUp = true → c.auth = true →
      Completes (.csProcedureStart k) s (fun h => h = withConn s.hw k { c with procRun := true }) ∧
      (c.procRun = false → Completes (.csProcedureResult k radio tones rtts) s fun h => h = s.hw) ∧
      (c.procRun = true →
        ((radio = true ∨ ((tones.map (·.1)).eraseDups).length < 40 ∨ rtts.length < 4 ∨ s.hw.distance radio tones rtts = none) → Completes (.csProcedureResult k radio tones rtts) s fun h =>
          h = withConn s.hw k { c with procRun := false, count := 0, taken := false }) ∧
        (∀ d, s.hw.distance radio tones rtts = some d →
          (s.hw.obj 0x6110 1 < d → Completes (.csProcedureResult k radio tones rtts) s fun h =>
            h = withConn s.hw k { c with procRun := false, count := 0, taken := false, dist := d }) ∧
          (d ≤ s.hw.obj 0x6110 1 → (c.count + 1 ≠ s.hw.obj 0x6110 2 ∨ c.taken = true) → Completes (.csProcedureResult k radio tones rtts) s fun h =>
            h = withConn s.hw k { c with procRun := false, count := c.count + 1, dist := d }))))) ∧
  (∀ (s : State) (k : Fin 4), Completes (.pkeyConnectionEnd k) s fun h =>
    h = { s.hw with pkey := { s.hw.pkey with conns := Store.erase k.val s.hw.pkey.conns } }) ∧
  (∀ (s : State) (addr : BitVec 56), ((∀ b ∈ s.hw.pkey.bars, b.1 ≠ addr.toNat) → Completes (.pkeyBarExpiry addr) s fun h => h = s.hw) ∧
    (∀ t, s.hw.pkey.bars.find? (fun b => b.1 == addr.toNat) = some (addr.toNat, t) → Completes (.pkeyBarExpiry addr) s fun h =>
      h = { atTime s.hw (t + 60 * 491520000) with pkey := { s.hw.pkey with bars := Store.erase addr.toNat s.hw.pkey.bars } }))

/-- From `h` to `h'` a command for output i (0 UNLOCK_OUT, 1 LOCK_OUT) takes effect (R611). -/
def Pulsed (i : Nat) (h h' : Hw) : Prop :=
  let own : Fld := ⟨PKEY_OUTSTAT, i, 1⟩
  let other : Fld := ⟨PKEY_OUTSTAT, 1 - i, 1⟩
  (h.on own = true → Changes [(PKEY_OUTSTAT_IGNORED, 1)] [] h h') ∧
  (h.on own = false → (h.on other = true ∨ h.pkey.start ≠ none) →
    h'.pkey = { h.pkey with start := some i } ∧ Changes [(other, 0)] [.pkey] h h') ∧
  (h.on own = false → h.on other = false → h.pkey.start = none →
    Changes [(own, 1), (PKEY_OUTSTAT_PULSES, satTo 255 (h.rf PKEY_OUTSTAT_PULSES + 1))] [] h h')

/-- From `h` to `h'` a granted action is carried out (R609): 1 UNLOCK, 2 LOCK. -/
def Acted (action source bond outcome id : Nat) (h h' : Hw) : Prop :=
  ∃ g, g = (if (h.obj 0x6110 5).testBit 0 ∧ h.obj 0x6110 6 < 2
      then h.canSend (h.obj 0x6110 6) 6 ([action, source, bond, outcome] ++ leBytes 4 id) none none else h) ∧
    if (h.obj 0x6110 5).testBit 1 then Pulsed (action - 1) g h' else h' = g

/-- The keys of the phone key are missing (R593). -/
def KeysMissing (h : Hw) : Prop :=
  h.keyWithId 0x0300 = none ∨ h.unitState 15 = unitRetired ∨ h.unitState 16 = unitRetired ∨ h.on MEM_THSTAT_TAMPER_LOCKED = true

/-- GNSS time is available and is `g` (R604). -/
def GnssIs (h : Hw) (g : Nat) : Prop := h.rf TP_STAT_TSTATE ≠ 0 ∧ g = h.fix.time + (h.tcnt - h.fix.at_) / 491520000

/-- The RTC and GNSS times are further apart than TIME_TOL. -/
def Apart (h : Hw) (g : Nat) : Prop := h.obj 0x6110 4 + g < h.rtc.sec ∨ h.obj 0x6110 4 + h.rtc.sec < g

/-- Time x lies in the booking window of a token. -/
def InWindow (t : List Nat) (x : Nat) : Prop := tok t 0x14 4 ≤ x ∧ x ≤ tok t 0x18 4

/-- The booking window has the outcome o; 0 is open (R604). -/
def WindowHas (h : Hw) (t : List Nat) (o : Nat) : Prop :=
  (∃ g, GnssIs h g ∧ ((o = 0x18 ∧ Apart h g) ∨ (o = 0x17 ∧ ¬ Apart h g ∧ ¬ (InWindow t h.rtc.sec ∧ InWindow t g)) ∨
    (o = 0 ∧ ¬ Apart h g ∧ InWindow t h.rtc.sec ∧ InWindow t g))) ∨
  (h.rf TP_STAT_TSTATE = 0 ∧ ((o = 0x18 ∧ h.on RTC_STAT_OSF = true) ∨ (o = 0x17 ∧ h.on RTC_STAT_OSF = false ∧ ¬ InWindow t h.rtc.sec) ∨
    (o = 0 ∧ h.on RTC_STAT_OSF = false ∧ InWindow t h.rtc.sec)))

/-- The zone condition of a token holds (R605). -/
def ZoneMet (h : Hw) (t : List Nat) : Prop :=
  h.obj 0x6110 3 = 0 ∨ (h.sys.noFabric = false ∧ h.fix.unc ≤ 50000 ∧
    ∃ z ∈ h.pkey.zones, z.1 < 16 ∧ z.2.en ≠ 0 ∧ (tok t 0x1C 2).testBit z.1 = true ∧ Config.insideCircle h.fix.lat h.fix.lon z.2.lat z.2.lon z.2.radius = true)

/-- The outcome of action 1 (unlock) or 2 (lock) on a connection is o: the first failing check (R606, R607). -/
def OutcomeIs (h : Hw) (c : PhoneConn) (action o : Nat) : Prop :=
  (o = 0x1B ∧ KeysMissing h) ∨ (o = 0x10 ∧ ¬ KeysMissing h ∧ ¬ (c.bond ≠ none ∧ c.proved = true)) ∨
  (¬ KeysMissing h ∧ c.bond ≠ none ∧ c.proved = true ∧
    ((o = 0x16 ∧ (c.token.getD 5 0).testBit (action - 1) = false) ∨
     ((c.token.getD 5 0).testBit (action - 1) = true ∧
       ((o ≠ 0 ∧ WindowHas h c.token o) ∨
        (WindowHas h c.token 0 ∧ ((o = 0x19 ∧ action = 1 ∧ ¬ ZoneMet h c.token) ∨ (o = action - 1 ∧ (action = 1 → ZoneMet h c.token))))))))

/-- From `h` to `h'` the action on connection k, which is `c`, is decided with outcome o (R608). -/
def Decided (k action o : Nat) (c : PhoneConn) (h h' : Hw) : Prop :=
  ∃ f g : Hw, f = (if o = 0x18 ∧ h.rf TP_STAT_TSTATE ≠ 0 then h.report 0xB 0x18 0 0 (tok c.token 8 4) else h) ∧
    g = { f with pkey := { h.pkey with
      conns := if o = 0 ∧ action = 1 then Store.insert k { c with taken := true } h.pkey.conns else h.pkey.conns
      sent := (k, resultOf o c.dist (tok c.token 8 4)) :: h.pkey.sent
      last := [o, action, c.bond.getD 0xFF, c.dist, tok c.token 8 4, h.rtc.sec] } } ∧
    if o = action - 1 then Acted action 0 (c.bond.getD 0xFF) o (tok c.token 8 4) g h' else h' = g

/-- Access decisions, remote commands and outputs (R593, R603 to R612). -/
def Obligations.AccessDecisions : Prop :=
  (∀ (s : State) (k : Fin 4), ((s.hw.conn k = none ∨ s.hw.fwUp = false) → Completes (.pkeyCmdUnlock k) s fun h => h = s.hw) ∧
    (s.hw.fwUp = false → Completes (.pkeyCmdLock k) s fun h => h = s.hw) ∧
    (∀ o, s.hw.conn k = none → s.hw.fwUp = true → OutcomeIs s.hw (PhoneConn.opened 0 none) 2 o →
      Completes (.pkeyCmdLock k) s (Decided k 2 o (PhoneConn.opened 0 none) s.hw))) ∧
  (∀ (s : State) (k : Fin 4) (c : PhoneConn), s.hw.fwUp = true → s.hw.conn k = some c →
    (c.count < s.hw.obj 0x6110 2 → Completes (.pkeyCmdUnlock k) s fun h => h = s.hw) ∧
    (∀ o, s.hw.obj 0x6110 2 ≤ c.count → OutcomeIs s.hw c 1 o → Completes (.pkeyCmdUnlock k) s (Decided k 1 o c s.hw)) ∧
    (∀ o, OutcomeIs s.hw c 2 o → Completes (.pkeyCmdLock k) s (Decided k 2 o c s.hw)) ∧
    (∀ d radio tones rtts o n, c.auth = true → c.procRun = true → s.hw.distance radio tones rtts = some d → d ≤ s.hw.obj 0x6110 1 →
      c.count + 1 = s.hw.obj 0x6110 2 → c.taken = false → n = { c with procRun := false, count := c.count + 1, dist := d } →
      OutcomeIs (withConn s.hw k n) n 1 o → Completes (.csProcedureResult k radio tones rtts) s (Decided k 1 o n (withConn s.hw k n)))) ∧
  (∀ (s : State) (n : Fin 2), (s.hw.fwUp = false ∨ ∀ d rest, (s.hw.can n).rx ≠ (6, d) :: rest) → Completes (.accessFrameReceived n) s fun h => h = s.hw) ∧
  (∀ (s : State) (n : Fin 2) (d : List Nat) (rest : List (Nat × List Nat)) (g : Hw), s.hw.fwUp = true → (s.hw.can n).rx = (6, d) :: rest →
    g = s.hw.setCan n { s.hw.can n with rx := rest } →
    (d.getD 0 0 ≠ 1 → d.getD 0 0 ≠ 2 → Completes (.accessFrameReceived n) s fun h => h = g) ∧
    ((d.getD 0 0 = 1 ∨ d.getD 0 0 = 2) →
      (s.hw.obj 0x6110 7 = 1 → s.hw.on (CAN_CFG_ROLE n) = true → Completes (.accessFrameReceived n) s (Acted (d.getD 0 0) 1 0xFF (d.getD 0 0 - 1) 0 g)) ∧
      ((s.hw.obj 0x6110 7 ≠ 1 ∨ s.hw.on (CAN_CFG_ROLE n) = false) → Completes (.accessFrameReceived n) s
        (Changes [(PKEY_OUTSTAT_REMIGN, satTo 255 (s.hw.rf PKEY_OUTSTAT_REMIGN + 1))] [] g)))) ∧
  (∀ (s : State) (l : Fin 10) (v : BitVec 8), (s.hw.fwUp = false ∨ s.hw.linkRole l = 0 ∨ (v.toNat ≠ 1 ∧ v.toNat ≠ 2)) →
    Completes (.remoteCmd l v) s fun h => h = s.hw) ∧
  (∀ (s : State) (l : Fin 10) (v : BitVec 8), s.hw.fwUp = true → 1 ≤ s.hw.linkRole l → (v.toNat = 1 ∨ v.toNat = 2) →
    (s.hw.obj 0x6110 7 = 1 → Completes (.remoteCmd l v) s (Acted v.toNat 2 0xFF (v.toNat - 1) 0 s.hw)) ∧
    (s.hw.obj 0x6110 7 ≠ 1 → Completes (.remoteCmd l v) s (Changes [(PKEY_OUTSTAT_REMIGN, satTo 255 (s.hw.rf PKEY_OUTSTAT_REMIGN + 1))] [] s.hw))) ∧
  (∀ s : State, Completes .pkeyOutUnlock s (Pulsed 0 s.hw) ∧ Completes .pkeyOutLock s (Pulsed 1 s.hw)) ∧
  (∀ (s : State) (i : Fin 2), Completes (.pkeyPulseEnd i) s (Changes [(⟨PKEY_OUTSTAT, i, 1⟩, 0)] [] s.hw)) ∧
  (∀ s : State, s.hw.pkey.start = none → Completes .pkeyPulseDelayedStart s fun h => h = s.hw) ∧
  (∀ (s : State) (i : Fin 2), s.hw.pkey.start = some i.val → Completes .pkeyPulseDelayedStart s fun h =>
    h.pkey = { s.hw.pkey with start := none } ∧
    Changes [(⟨PKEY_OUTSTAT, i, 1⟩, 1), (PKEY_OUTSTAT_PULSES, satTo 255 (s.hw.rf PKEY_OUTSTAT_PULSES + 1))] [.pkey] s.hw h)

/-- The part at the slow-clock edge at which PRE is `pre`, its oldest queued write taken out: the edges up to it have passed (R651, R656). -/
def atEdge (h : Hw) (pre : Nat) (rest : List (Nat × Nat × Nat)) : Hw :=
  let g := h.slowRun (h.edgesToWrite pre)
  { g with rtc := { g.rtc with used := true, wq := rest } }

/-- No queued write can be applied now: there is none, or it is a COMMIT or ADJ during a recompute (R671). -/
def EdgeIdle (h : Hw) : Prop :=
  h.rtc.wq = [] ∨ ∃ a n v rest, h.rtc.wq = (a, n, v) :: rest ∧ h.rtc.recompute = true ∧ ((a = RTC_CMD ∧ v.testBit 0 = true) ∨ a = RTC_ADJ)

/-- The oldest queued write, which can be applied now and still at the edge at which PRE is `pre`. -/
def EdgeHead (h : Hw) (pre a n v : Nat) (rest : List (Nat × Nat × Nat)) : Prop :=
  h.rtc.wq = (a, n, v) :: rest ∧ ¬ EdgeIdle h ∧ ¬ EdgeIdle (h.slowRun (h.edgesToWrite pre))

/-- The command applies the write at the head, of which `P` holds of the part at the edge and the part after it; then stalled accesses go on. -/
def AtEdge (c : Instr) (s : State) (pre : Nat) (rest : List (Nat × Nat × Nat)) (P : Hw → Hw → Prop) : Prop :=
  Completes c s fun h => ∃ g : Hw, h = g.resume ∧ P (atEdge s.hw pre rest) g

/-- The command applies no write where `q` holds of none that could be at the head. -/
def EdgeOnly (c : Instr) (q : Nat → Nat → Prop) : Prop :=
  ∀ s : State, (EdgeIdle s.hw ∨ ∃ a n v rest, s.hw.rtc.wq = (a, n, v) :: rest ∧ ¬ q a v) → Completes c s fun h => h = s.hw.resume

/-- Seconds of the 400 years of the calendar (R654). -/
def eraSeconds : Nat := 146097 * 86400

/-- The fields that a firing alarm writes (R668). -/
def firing (h : Hw) : List (Fld × Nat) :=
  [(RTC_ACTL_ALRF, 1), (RTC_ACTL_FIRED, 1)] ++ (if h.pwr.state = .backup then [] else [(WAKE_FLAG_SRC, h.rf WAKE_FLAG_SRC ||| 2 ^ 12)])

/-- The alarm may fire: it is enabled and not spent (R668). -/
def Armed (h : Hw) : Prop := h.on RTC_ACTL_EN = true ∧ ¬ (h.on RTC_ACTL_ONCE = true ∧ h.on RTC_ACTL_FIRED = true)

/-- A matching second lies strictly between the counting time and t, going forward (R669). -/
def MatchPassed (h : Hw) (t : Nat) : Prop :=
  ∃ m, m < eraSeconds ∧ h.almMatches m = true ∧ ((h.rtc.sec ≤ t ∧ h.rtc.sec < m ∧ m < t) ∨ (t < h.rtc.sec ∧ (h.rtc.sec < m ∨ m < t)))

/-- From `h` to `h'` the counting time steps to second t, PRE p (R662, R668 to R671); `fs` are the fields that the command writes beside. -/
def Stepped (t p : Nat) (fwd : Bool) (fs : List (Fld × Nat)) (h h' : Hw) : Prop :=
  ∃ passed fired : Bool, (passed = true ↔ fwd = true ∧ h.on RTC_ACTL_EN = true ∧ MatchPassed h t) ∧
    (fired = true ↔ Armed h ∧ (passed = true ∨ (t ≠ h.rtc.sec ∧ h.almMatches t = true))) ∧
    h'.rtc = { h.rtc with sec := t % eraSeconds, pre := p, recompute := true } ∧
    Changes ((if fired then firing h else []) ++ (if passed then [(RTC_ACTL_SKIPPED, 1)] else []) ++ [(RTC_STAT_STEP, 1)] ++ fs) [.rtc] h h'

/-- The counting time with PRE moved by `a` periods, in periods. -/
def movedBy (h : Hw) (a : Int) : Int := ((h.rtc.sec * 32768 + h.rtc.pre : Nat) : Int) + a

/-- PRE passes its end at the nth edge from now, and not before (R656). -/
def SecondAt (h : Hw) (n : Nat) : Prop := 1 ≤ n ∧ h.rtc.pre + h.preAdv (n - 1) < 32768 ∧ 32768 ≤ h.rtc.pre + h.preAdv n

/-- The clock's own state is one that it can have. -/
def ClockOk (h : Hw) : Prop := h.rtc.sec < eraSeconds ∧ h.rtc.pre < 32768 ∧ -511 ≤ h.rtc.cal ∧ h.rtc.cal ≤ 511

/-- The clock of the backup domain (R651 to R671). -/
def Obligations.RealTimeClock : Prop :=
  (∀ pre : Fin 32768, EdgeOnly (.rtcQueuedWriteApply pre) (fun _ _ => True) ∧ EdgeOnly (.rtcCommit pre) (fun a v => a = RTC_CMD ∧ v.testBit 0 = true) ∧
    EdgeOnly (.rtcCapture pre) (fun a v => a = RTC_CMD ∧ v.testBit 1 = true) ∧ EdgeOnly (.rtcAdj pre) (fun a _ => a = RTC_ADJ) ∧
    EdgeOnly (.rtcActlWrite pre) (fun a _ => a = RTC_ACTL) ∧
    ∀ s : State, ¬ EdgeIdle s.hw → EdgeIdle (s.hw.slowRun (s.hw.edgesToWrite pre)) → Completes (.rtcQueuedWriteApply pre) s fun h =>
      h = (s.hw.slowRun (s.hw.edgesToWrite pre)).resume) ∧
  (∀ (s : State) (pre : Fin 32768) (a n v : Nat) (rest : List (Nat × Nat × Nat)), EdgeHead s.hw pre a n v rest →
    (0x32000000 ≤ a → a ≤ 0x3200007A → v < 256 ^ n → AtEdge (.rtcQueuedWriteApply pre) s pre rest fun e g =>
      g.holds a n v ∧ (∀ b, (b < a ∨ a + n ≤ b) → g.byte b = e.byte b) ∧ Touches [.mem] e g) ∧
    (a = RTC_SHD0 → AtEdge (.rtcQueuedWriteApply pre) s pre rest
      (Changes [(RTC_SHD0_SEC, v), (RTC_SHD0_MIN, v / 2 ^ 8), (RTC_SHD0_HOUR, v / 2 ^ 16), (RTC_SHD0_WDAY, v / 2 ^ 24)] [])) ∧
    (a = RTC_SHD1 → AtEdge (.rtcQueuedWriteApply pre) s pre rest (Changes [(RTC_SHD1_DAY, v), (RTC_SHD1_MON, v / 2 ^ 8), (RTC_SHD1_YEAR, v / 2 ^ 16)] [])) ∧
    (a = RTC_TRIM → AtEdge (.rtcQueuedWriteApply pre) s pre rest (Changes [(RTC_TRIM_CAL, v)] [])) ∧
    (a = RTC_CDLOAD → AtEdge (.rtcQueuedWriteApply pre) s pre rest
      (Changes [(RTC_CDLOAD_LOAD, v), (RTC_CDLOAD_TICK, v / 2 ^ 24), (RTC_CDLOAD_RELOAD, v / 2 ^ 26)] [])) ∧
    (a = RTC_ACTL → ∀ h, exec (.rtcActlWrite pre) s = .next h → exec (.rtcQueuedWriteApply pre) s = .next h)) ∧
  (∀ (s : State) (pre : Fin 32768) (n v : Nat) (rest : List (Nat × Nat × Nat)), EdgeHead s.hw pre RTC_CMD n v rest →
    (v.testBit 0 = false → v.testBit 1 = true → AtEdge (.rtcCapture pre) s pre rest fun e g =>
      Changes [(wholeReg RTC_SHD1, time1Of e.rtc.sec), (wholeReg RTC_SHD0, time0Of e.rtc.sec)] [] e g) ∧
    (v.testBit 0 = true → v.testBit 1 = false →
      (shadowTime (s.hw.reg RTC_SHD0).toNat (s.hw.reg RTC_SHD1).toNat = none →
        AtEdge (.rtcCommit pre) s pre rest (Changes [(RTC_STAT_DATE_INVALID, 1)] [])) ∧
      (∀ t, shadowTime (s.hw.reg RTC_SHD0).toNat (s.hw.reg RTC_SHD1).toNat = some t →
        AtEdge (.rtcCommit pre) s pre rest fun e g =>
          (t = e.rtc.sec → e.rtc.pre = 0 → Changes [(RTC_STAT_OSF, 0)] [] e g) ∧
          (¬ (t = e.rtc.sec ∧ e.rtc.pre = 0) → Stepped t 0 (decide (e.rtc.sec < t)) [(RTC_STAT_OSF, 0)] e g)))) ∧
  (∀ (s : State) (pre : Fin 32768) (n v : Nat) (rest : List (Nat × Nat × Nat)) (d : Int), EdgeHead s.hw pre RTC_ADJ n v rest → d = toSigned 16 v →
    AtEdge (.rtcAdj pre) s pre rest fun e g => (d = 0 → g = e) ∧
      ∀ u : Nat, d ≠ 0 → (u : Int) = movedBy e d % ((eraSeconds * 32768 : Nat) : Int) →
        Stepped (u / 32768) (u % 32768) (decide (0 < d))
          (if movedBy e d < 0 ∨ ((eraSeconds * 32768 : Nat) : Int) ≤ movedBy e d then [(RTC_STAT_WRAP, 1)] else []) e g) ∧
  (∀ (s : State) (pre : Fin 32768) (n v : Nat) (rest : List (Nat × Nat × Nat)), EdgeHead s.hw pre RTC_ACTL n v rest →
    AtEdge (.rtcActlWrite pre) s pre rest fun e g => g.rtc = { e.rtc with recompute := true } ∧
      Changes ([(RTC_ACTL_FIRED, 0), (RTC_ACTL_EN, v), (RTC_ACTL_ONCE, v / 2), (RTC_ACTL_MASK, v / 4)] ++
        (if v.testBit 9 then [(RTC_ACTL_ALRF, 0)] else []) ++ (if v.testBit 10 then [(RTC_ACTL_SKIPPED, 0)] else [])) [.rtc] e g) ∧
  (∀ (h : Hw) (n : Nat), h.rtc.edge % 2 ^ 20 = 0 → n ≤ 2 ^ 20 →
    (h.preAdv n : Int) = n + (if 0 < h.calReg then 1 else -1) * (n * h.calReg.natAbs / 2 ^ 20 : Nat)) ∧
  (∀ s t : State, ClockOk s.hw → step s = .next t → ClockOk t.hw) ∧
  (∀ (s : State) (n t : Nat) (fired : Bool), ClockOk s.hw → SecondAt s.hw n → (s.hw.rtc.recompute = false ∨ n < 64) →
    (s.hw.on RTC_CDCTL_RUN = false ∨ s.hw.rtc.edge + n < s.hw.rtc.cdEnd) → t = (s.hw.rtc.sec + 1) % eraSeconds →
    (fired = true ↔ Armed s.hw ∧ s.hw.almMatches t = true) →
    Completes .rtcSecond s fun h => ∃ d, d ≤ 4 ∧
      h.rtc = { s.hw.rtc with
        sec := t
        pre := s.hw.rtc.pre + s.hw.preAdv n - 32768
        edge := s.hw.rtc.edge + n
        cal := h.rtc.cal
        used := false
        recompute := s.hw.rtc.recompute || shadowTime (s.hw.reg RTC_ANEXT0).toNat (s.hw.reg RTC_ANEXT1).toNat == some t } ∧
      h.rtc.pre ≤ 1 ∧ h.rtc.cal = (if s.hw.rtc.edge % 2 ^ 20 + n < 2 ^ 20 then s.hw.calNow else s.hw.calReg) ∧
      Changes ((if s.hw.pwr.state = .run ∨ s.hw.pwr.state = .stop then [(RTC_STAT_SYNCV, 1), (RTC_SYNC_T, (s.hw.tcnt + d + 2 ^ 32 - 2) % 2 ^ 32)] else []) ++
        (if fired then firing s.hw else []) ++ (if t = 0 then [(RTC_STAT_WRAP, 1)] else [])) [.rtc, .free] s.hw h) ∧
  (∀ s : State,
    (∀ m, s.hw.rtc.sec < m → m < eraSeconds → s.hw.almMatches m = true → (∀ j, s.hw.rtc.sec < j → j < m → s.hw.almMatches j = false) →
      Completes .anextRecompute s fun h => h.rtc = { s.hw.rtc with recompute := false } ∧
        Changes [(RTC_ACTL_NOMATCH, 0), (RTC_ANEXT1_NEXT, time1Of m), (RTC_ANEXT0_NEXT, time0Of m)] [.rtc] s.hw h) ∧
    ((∀ m, s.hw.rtc.sec < m → m < eraSeconds → s.hw.almMatches m = false) →
      Completes .anextRecompute s fun h => h.rtc = { s.hw.rtc with recompute := false } ∧
        Changes [(RTC_ACTL_NOMATCH, 1), (RTC_ANEXT1_NEXT, 0xFFFFFFFF), (RTC_ANEXT0_NEXT, 0xFFFFFFFF)] [.rtc] s.hw h)) ∧
  (∀ s : State, Completes .rtcTime0Read s fun h =>
    h = { s.hw with rtc := { s.hw.rtc with latch := some (time1Of s.hw.rtc.sec, s.hw.rtc.pre) }, resp := .data (time0Of s.hw.rtc.sec) }) ∧
  (∀ s : State, Completes .oscStopDetected s fun h => h.rtc = { s.hw.rtc with sec := 0, pre := 0 } ∧ Changes [(RTC_STAT_OSF, 1)] [.rtc] s.hw h) ∧
  (∀ s : State, (s.hw.pwr.state = .backup → Completes .vbkpLow s fun h =>
      h.rtc = { s.hw.rtc with sec := 0, pre := 0 } ∧ Changes [(RTC_STAT_OSF, 1)] [.rtc] s.hw h) ∧
    (s.hw.pwr.state ≠ .backup → Completes .vbkpLow s fun h => h = s.hw))

/-- The wake flag of source k, but in Backup (R634). -/
def wakeFlag (h : Hw) (k : Nat) : List (Fld × Nat) := if h.pwr.state = .backup then [] else [(WAKE_FLAG_SRC, h.rf WAKE_FLAG_SRC ||| 2 ^ k)]

/-- The flags of RTC_CDCTL that a write clears. -/
def cdCleared (v : Nat) : List (Fld × Nat) := (if v.testBit 3 then [(RTC_CDCTL_CDF, 0)] else []) ++ (if v.testBit 4 then [(RTC_CDCTL_CD_ERR, 0)] else [])

/-- The schedules when the countdown that the firmware loaded has run down: what it was loaded for is due (R594). -/
def schedDue (h : Hw) : WakeSched :=
  if h.sched.loaded = 0 then h.sched
  else { h.sched with
    loaded := 0
    advDue := h.sched.advDue || h.sched.forAdv
    snapDue := h.sched.snapDue || h.sched.forSnap }

/-- Slow-clock periods in a tick of the countdown (R672). -/
def tickOf (h : Hw) : Nat :=
  match h.rf RTC_CDLOAD_TICK with
  | 0 => 8
  | 1 => 128
  | 2 => 32768
  | _ => 1966080

/-- The part as the edges up to the one at which the countdown reaches 0 leave it, the countdown itself held back (R656). -/
def untilZero (h : Hw) : Hw := ((h.sf RTC_CDCTL_RUN 0).slowRun (h.rtc.cdEnd - h.rtc.edge)).sf RTC_CDCTL_RUN 1

/-- The level change of event input n to `active` is an event (R674). -/
def IsEvent (h : Hw) (n : Nat) (active : Bool) : Prop :=
  h.on (EV_CFG_EN n) = true ∧ h.on (EV_STAT_LEVEL n) ≠ active ∧ (active = true ∨ h.on (EV_CFG_BOTH n) = true)

/-- The event as it is queued (R675, EVn_TS0 to EVn_TS2). -/
def stampAt (h : Hw) (active : Bool) : EvStamp :=
  ⟨time0Of h.rtc.sec, time1Of h.rtc.sec, h.rtc.pre / 32 + (if active then 1024 else 0) + 2048 * h.rf RTC_STAT_OSF⟩

/-- The fields that the recording of an event writes (R675, R676). -/
def recorded (h : Hw) (n : Nat) (active : Bool) : List (Fld × Nat) :=
  (EV_STAT_LEVEL n, if active then 1 else 0) :: wakeFlag h (8 + n) ++
  (if (h.evQueue n).length < 4 then [] else [(EV_STAT_OVF n, satTo 65535 (h.rf (EV_STAT_OVF n) + 1))])

/-- The queues of the event inputs after the event. -/
def QueuesAfter (h : Hw) (n : Nat) (active : Bool) (h' : Hw) : Prop :=
  (∀ m, m ≠ n → h'.evQueue m = h.evQueue m) ∧
  h'.evQueue n = (if (h.evQueue n).length < 4 then h.evQueue n ++ [stampAt h active] else h.evQueue n)

/-- Clock discipline can act (R666). -/
def MayDiscipline (h : Hw) : Prop := h.obj 0xA010 2 ≠ 0 ∧ h.rf TP_STAT_TSTATE = 1 ∧ h.sys.fwRunning = true ∧ h.rtc.wq.length ≤ 4

/-- The writes that discipline queues for an offset in us, the UTC second of the boundary, and a drift in ppb; `cal` says that CAL is due (R666). -/
def discWrites (h : Hw) (ofs : Int) (utc : Nat) (drift : Int) (cal : Bool) : List (Nat × Nat × Nat) :=
  (if 1000000 ≤ ofs.natAbs then [(RTC_SHD0, 4, time0Of utc), (RTC_SHD1, 4, time1Of utc), (RTC_CMD, 4, 1)]
   else if 100 ≤ ofs.natAbs then [(RTC_ADJ, 4, ofInt 16 (clampInt (-32768) 32767 (-(roundDiv (ofs * 32768) 1000000))))] else []) ++
  (if cal then [(RTC_TRIM, 4, ofInt 10 (clampInt (-511) 511 (toSigned 10 (h.rf RTC_TRIM_CAL) - roundDiv (drift * 100) 95367)))] else [])

/-- The countdown, the event inputs and clock discipline (R594, R666, R672 to R678). -/
def Obligations.CountdownAndEvents : Prop :=
  (∀ pre : Fin 32768, EdgeOnly (.rtcCdStart pre) (fun a v => a = RTC_CDCTL ∧ v.testBit 0 = true) ∧
    EdgeOnly (.rtcCdStop pre) (fun a v => a = RTC_CDCTL ∧ v.testBit 1 = true) ∧
    ∀ k : Fin 4, EdgeOnly (.evPop k pre) (fun a v => a = EV_STAT k ∧ v.testBit 3 = true)) ∧
  (∀ (s : State) (pre : Fin 32768) (n v : Nat) (rest : List (Nat × Nat × Nat)), EdgeHead s.hw pre RTC_CDCTL n v rest →
    (v.testBit 0 = true → v.testBit 1 = false → AtEdge (.rtcCdStart pre) s pre rest fun e g =>
      (e.rf RTC_CDLOAD_LOAD = 0 → Changes ((RTC_CDCTL_CD_ERR, 1) :: cdCleared v) [] e g) ∧
      (e.rf RTC_CDLOAD_LOAD ≠ 0 → g.rtc = { e.rtc with cdEnd := e.rtc.edge + e.rf RTC_CDLOAD_LOAD * tickOf e, cdTick := tickOf e } ∧
        Changes ([(RTC_CDCTL_RUN, 1), (RTC_CDCNT_COUNT, e.rf RTC_CDLOAD_LOAD)] ++ cdCleared v) [.rtc] e g)) ∧
    (v.testBit 0 = false → v.testBit 1 = true → AtEdge (.rtcCdStop pre) s pre rest fun e g =>
      (e.on RTC_CDCTL_RUN = false → Changes (cdCleared v) [] e g) ∧
      (e.on RTC_CDCTL_RUN = true →
        Changes ([(RTC_CDCTL_RUN, 0), (RTC_CDCNT_COUNT, (e.rtc.cdEnd - e.rtc.edge + e.rtc.cdTick - 1) / e.rtc.cdTick)] ++ cdCleared v) [] e g))) ∧
  (∀ s : State, (s.hw.on RTC_CDCTL_RUN = false → Completes .rtcCountdownExpiry s fun h => h = s.hw) ∧
    (∀ e p fs, s.hw.on RTC_CDCTL_RUN = true → e = untilZero s.hw → p = e.rf RTC_CDLOAD_LOAD * tickOf e →
      fs = (if e.on RTC_CDLOAD_RELOAD = false then [(RTC_CDCTL_RUN, 0), (RTC_CDCNT_COUNT, 0)]
        else if e.rf RTC_CDLOAD_LOAD = 0 then [(RTC_CDCTL_CD_ERR, 1), (RTC_CDCTL_RUN, 0), (RTC_CDCNT_COUNT, 0)]
        else [(RTC_CDCNT_COUNT, e.rf RTC_CDLOAD_LOAD)]) →
      Completes .rtcCountdownExpiry s fun h => h.sched = schedDue e ∧
        h.rtc = (if e.on RTC_CDLOAD_RELOAD = true ∧ e.rf RTC_CDLOAD_LOAD ≠ 0
          then { e.rtc with cdEnd := e.rtc.cdEnd + (e.rtc.edge - e.rtc.cdEnd) / p * p + p, cdTick := tickOf e } else e.rtc) ∧
        Changes (fs ++ (RTC_CDCTL_CDF, 1) :: wakeFlag e 13) [.sched, .rtc] e h)) ∧
  (∀ (s : State) (n : Fin 4) (active : Bool) (pre : Fin 32768), (s.hw.on (EV_CFG_EN n) = false ∨ s.hw.on (EV_STAT_LEVEL n) = active) →
    Completes (.eventInputQualified n active pre) s fun h => h = s.hw) ∧
  (∀ (s : State) (n : Fin 4) (active : Bool) (pre : Fin 32768) (e : Hw), s.hw.on (EV_CFG_EN n) = true → s.hw.on (EV_STAT_LEVEL n) ≠ active →
    e = s.hw.slowRun (s.hw.edgesTo pre) →
    (¬ IsEvent s.hw n active → Completes (.eventInputQualified n active pre) s (Changes [(EV_STAT_LEVEL n, 0)] [] e)) ∧
    (IsEvent s.hw n active → s.hw.on (EV_CFG_TAMPER n) = false → Completes (.eventInputQualified n active pre) s fun h =>
      QueuesAfter e n active h ∧ h.rtc = { e.rtc with events := h.rtc.events } ∧ Changes (recorded e n active) [.rtc] e h) ∧
    (∀ fs, IsEvent s.hw n active → s.hw.on (EV_CFG_TAMPER n) = true →
      fs = [(BKPEV_TSTAT_TPEND, 1), (BKPEV_TSTAT_TEV, n.val), (BKPEV_TSTAT_TCOUNT, satTo 65535 (e.rf BKPEV_TSTAT_TCOUNT + 1))] ++ recorded e n active →
      Completes (.eventInputQualified n active pre) s fun h =>
        QueuesAfter e n active h ∧
        (s.hw.on (EV_CFG_BKCLR n) = true → ∀ a, 0x32000000 ≤ a → a < 0x32000080 → h.byte a = 0) ∧
        (s.hw.on (EV_CFG_BKCLR n) = false → s.hw.pwr.state ≠ .slack → ∀ a, h.byte a = s.hw.byte a) ∧
        (s.hw.pwr.state = .backup → h.pwr = s.hw.pwr ∧ h.memu = s.hw.memu) ∧
        (s.hw.pwr.state ≠ .backup → h.pwr.wipeCause = 2 ∧ h.pwr.wipeTev = n ∧ h.pwr.wipeTamper = true ∧
          (s.hw.memu.wipe = none → h.memu.wipe = some ⟨false, 1⟩) ∧ (∀ w, s.hw.memu.wipe = some w → h.memu.wipe = some w)) ∧
        ((s.hw.pwr.state = .slack ∨ s.hw.pwr.state = .backup) →
          h.rtc = { e.rtc with events := h.rtc.events, unlogged := e.rtc.unlogged + 1 } ∧ h.elogQ = s.hw.elogQ) ∧
        (s.hw.pwr.state = .slack → s.hw.memu.wipe = none → (∀ a, inUnit 15 a || inUnit 16 a → h.byte a = 0) ∧ h.pwr.state = .slack ∧
          h.pwr.retained = s.hw.pwr.retained.filter (fun u => decide (u < 15)) ∧ h.rf (MEM_SCTL_STATE 15) = 0 ∧ h.rf (MEM_SCTL_STATE 16) = 0) ∧
        ((s.hw.pwr.state = .run ∨ s.hw.pwr.state = .stop) → h.rtc = { e.rtc with events := h.rtc.events } ∧
          h.elogQ = (e.report 0xD 1 0x43 0 n).elogQ) ∧
        Touches [.regs, .mem, .ecc, .pwr, .elogQ, .memu, .rtc] e h ∧
        (∀ f v, (f, v) ∈ fs → h.rf f = v % 2 ^ f.len))) ∧
  (∀ (s : State) (k : Fin 4) (pre : Fin 32768) (n v : Nat) (rest : List (Nat × Nat × Nat)), EdgeHead s.hw pre (EV_STAT k) n v rest → v.testBit 3 = true →
    AtEdge (.evPop k pre) s pre rest fun e g => g.evQueue k = (e.evQueue k).drop 1 ∧ (∀ m, m ≠ k.val → g.evQueue m = e.evQueue m) ∧
      g.rtc = { e.rtc with events := g.rtc.events } ∧ Touches [.rtc] e g) ∧
  (∀ (s : State) (ofs : Int) (utc : Nat) (drift : Int), (¬ MayDiscipline s.hw → Completes (.rtcDiscipline ofs utc drift) s fun h => h = s.hw) ∧
    (MayDiscipline s.hw → ∀ cal : Bool, (cal = true ↔ 3590 ≤ s.hw.rtc.lastDisc) → Completes (.rtcDiscipline ofs utc drift) s fun h =>
      h.obj 0xA010 3 = ofInt 32 (clampInt (-2147483648) 2147483647 ofs) ∧ h.obj 0xA010 4 = ofInt 32 drift ∧
      (∀ i j, ¬ (256 * i + j = 256 * 0xA010 + 3 ∨ 256 * i + j = 256 * 0xA010 + 4) → h.obj i j = s.hw.obj i j) ∧
      h.rtc = { s.hw.rtc with wq := s.hw.rtc.wq ++ discWrites s.hw ofs utc drift cal, lastDisc := if cal then 0 else s.hw.rtc.lastDisc + 10 } ∧
      Touches [.fw, .rtc, .resp] s.hw h))

/-- `code` is that of the first check that holds. -/
def FirstOf : List (Prop × Nat) → Nat → Prop
  | [], _ => False
  | (p, c) :: rest, code => (p ∧ code = c) ∨ (¬ p ∧ FirstOf rest code)

/-- No check holds. -/
def NoneOf : List (Prop × Nat) → Prop
  | [] => True
  | (p, _) :: rest => ¬ p ∧ NoneOf rest

/-- Checks 1 to 4 of Table 16.4. -/
def updGates (h : Hw) (l : Nat) : List (Prop × Nat) :=
  [(l ≠ 7 ∨ h.linkRole l < 1 ∨ (h.fuses.lifecycle = 4 ∧ h.linkRole l < 3), 0x16), (h.fuses.lifecycle = 1, 0x13), (h.obj 0x8002 1 = 1, 0x12),
    (h.rf UPD_STAT_PHASE = 2, 0x14)]

/-- A moving test that UPD_MOVE_SEL selects holds (R689). -/
def IsMoving (h : Hw) : Prop :=
  ((h.obj 0x8002 2).testBit 0 = true ∧ h.fix.valid = true ∧ h.tcnt ≤ h.fix.at_ + 2 * 491520000 ∧ 500 < h.fix.speed) ∨
  ((h.obj 0x8002 2).testBit 1 = true ∧ h.obj 0x4010 1 ≠ 0 ∧ h.wsAge ≤ 2000) ∨
  ((h.obj 0x8002 2).testBit 2 = true ∧ h.obj 0x4010 2 = 2)

/-- Checks 9 and 10 of Table 16.4. -/
def updSafety (h : Hw) : List (Prop × Nat) :=
  [(h.rf BGND_RAIL1_SENSE * h.obj 0x8002 4 / 1000 < h.obj 0x8002 3 ∨ h.rf BGND_RAIL0_VBKP < 2500, 0x11), (IsMoving h, 0x10)]

/-- The write is refused with `code`: it is the last refusal, and nothing else changes. -/
def Refuses (c : Instr) (s : State) (code : Nat) : Prop :=
  Completes c s fun h => h = { s.hw with upd := { s.hw.upd with refusal := code } }

/-- No transfer (R687). -/
def idleTransfer (u : Update) : Update := { u with state := 0, next := 0, blocks := 0, bytes := 0 }

/-- First byte of a slot. -/
def slotAt (i : Nat) : Nat := if i % 2 = 0 then 0x60000000 else 0x60600000

/-- A Long splice into slot `target` has begun (R692, Table 16.5). -/
structure Spliced (target : Nat) (trial : Bool) (h h' : Hw) : Prop where
  phase : h'.rf UPD_STAT_PHASE = 1 ∧ h'.rf UPD_STAT_SPLICES = satTo 65535 (h.rf UPD_STAT_SPLICES + 1)
  upd : h'.upd = idleTransfer { h.upd with splicing := some (target, h.tcnt, trial) }
  links : ∀ l, l < 10 → h'.link l = { h.link l with role := 0, nonce := [], sigR := [], segs := [], dead := [], answered := [] }
  subs : h'.fw = { h.fw with subs := [], links := h'.fw.links }
  session : h'.rf LYD_SESS_STATE = 0
  unlocked : h'.rf MPU_CTRL_LOCK = 0
  conns : h'.pkey = { h.pkey with conns := h.pkey.conns.map fun c => (c.1, { c.2 with count := 0, taken := false, procRun := false }) }
  held : h.on RADIO_CTRL_HOLD_AUTO = true → h'.rf RADIO_STAT_HOLD_ACT = 1 ∧ h'.radio.held = h.tcnt
  free : h.on RADIO_CTRL_HOLD_AUTO = false → h'.radio = h.radio ∧ ∀ a, 0x40160000 ≤ a → a < 0x40170000 → h'.reg a = h.reg a
  stat : ∀ f ∈ [UPD_STAT_SLOT, UPD_STAT_PREV, UPD_STAT_FALLBACK, UPD_STAT_VFAIL, UPD_STAT_VERR], h'.rf f = h.rf f
  others : ∀ a, ¬ (0x40160000 ≤ a ∧ a < 0x40170000) → a ∉ [UPD_STAT, MPU_CTRL, LYD_SESS, UART_RATE 6] → h'.reg a = h.reg a
  bytes : ∀ a, h'.byte a = h.byte a
  rest : Touches [.regs, .sys, .fw, .serials, .lyd, .radio, .pkey, .upd] h h'

/-- The handover block that `h` holds is the one that the part in state `old` writes (R693, Table 16.6). -/
structure HandoverWritten (old h : Hw) : Prop where
  magic : h.holds 0x31001000 4 0x4B484F01
  zero : h.holds 0x31001006 2 0
  splice : h.holds 0x31001008 4 (old.rf UPD_STAT_SPLICES + 1)
  version : h.holds 0x3100100C 4 (old.fw.version % 2 ^ 32)
  time : h.holds 0x31001010 8 (old.tcnt % 2 ^ 64)
  crc : h.holds 0x31001FFC 4 (crc32 (h.loadBytes 0x31001000 0xFFC))

/-- Slots that 0.4 s of epochs need, and two more (R691). -/
def splSlots (rate : Nat) : Nat := ceilDiv (4 * epochRate rate) 10 + 2

/-- The copy ring of `h` holds enough slots and lies within the SRAM; where it could be grown in place from `old`, it was (R691). -/
structure RingReady (old h : Hw) : Prop where
  on : h.rf HITCH_CTRL_COPY_EN = 1
  enough : splSlots (h.rf HITCH_CTRL_RATE) ≤ h.rf HITCH_COPY_SLOTS
  fits : h.rf HITCH_COPY_SBASE + h.rf HITCH_COPY_SLOTS ≤ 64
  inPlace : ∀ n, n = max (max 2 (old.rf HITCH_COPY_SLOTS)) (splSlots (old.rf HITCH_CTRL_RATE)) → old.rf HITCH_COPY_SBASE + n ≤ 64 →
    h.rf HITCH_COPY_SLOTS = n ∧ h.rf HITCH_COPY_SBASE = old.rf HITCH_COPY_SBASE ∧ h.rf HITCH_CTRL_RATE = old.rf HITCH_CTRL_RATE
  slower : h.rf HITCH_CTRL_RATE = old.rf HITCH_CTRL_RATE ∨ (old.rf HITCH_CTRL_RATE = 6 ∧ h.rf HITCH_CTRL_RATE = 5)

/-- The VECTOR Strands whose aiding age limit is below 600 ms, with the limit. -/
def lowAges (h : Hw) : List (Nat × Nat) :=
  (h.strandList.filter fun p => p.2.state == .vector && decide (h.load (entryAddr p.1 + 0x38) 2 < 600)).map fun p => (p.1, h.load (entryAddr p.1 + 0x38) 2)

/-- The running image in slot `slot` accepts the handover block (R694). -/
def HandoverGood (h : Hw) (slot : Nat) : Prop :=
  leNat (h.loadBytes 0x31001000 4) = 0x4B484F01 ∧ leNat (h.loadBytes 0x31001FFC 4) = crc32 (h.loadBytes 0x31001000 0xFFC) ∧
  h.mramNum (slotAt slot + 0x18) 2 ≤ leNat (h.loadBytes 0x31001004 2) ∧ leNat (h.loadBytes 0x31001004 2) ≤ h.mramNum (slotAt slot + 0x1A) 2

/-- The boot selection record of an accepted UPD_ACTIVATE goes to the journal: TRIAL is set, and the idle slot has the version that came with
UPD_BEGIN (R680, R690; where the record lies and what a refused one does are the model's choice, assumption log 48). -/
def selected (h : Hw) : Option Nat × Hw :=
  let r := { h with upd := { h.upd with
    trial := true
    versions := if h.kept.confirmed % 2 = 1 then (h.upd.version, h.upd.versions.2) else (h.upd.versions.1, h.upd.version) } }
  r.journalWrite 0xF130 1 r.selectionBytes

/-- The fields that a write of `w` to UPD_CTRL changes before GO acts. -/
def ctrlFields (h : Hw) (w : Nat) : List (Fld × Nat) :=
  (if w.testBit 3 = true ∧ h.rf UPD_STAT_PHASE = 2 then [(UPD_STAT_PHASE, 0)] else []) ++ [(UPD_CTRL_TARGET, w / 2), (UPD_CTRL_TRIAL_EN, w / 4)]

/-- A write of `w` to UPD_CTRL by the navigation controller (R692, R698). -/
def CtrlWritten (c : Instr) (w : Nat) (s : State) : Prop :=
  (¬ (w.testBit 0 = true ∧ s.hw.sys.fwRunning = true ∧ s.hw.upd.splicing = none) → Completes c s (Changes (ctrlFields s.hw w) [] s.hw)) ∧
  (w.testBit 0 = true → s.hw.sys.fwRunning = true → s.hw.upd.splicing = none → Completes c s fun h =>
    ∃ g, Changes (ctrlFields s.hw w) [] s.hw g ∧ Spliced (w / 2 % 2) (w.testBit 2) g h)

/-- Firmware update (R680 to R701). -/
def Obligations.FirmwareUpdate : Prop :=
  (∀ (s : State) (l : Fin 10) (b ver n16 : BitVec 32) (n : BitVec 16) (data : List Nat), s.hw.fwUp = false →
    Completes (.updBegin l b ver) s (fun h => h = s.hw) ∧ Completes (.updBlock l n n16 data) s (fun h => h = s.hw) ∧
    Completes (.updActivate l) s (fun h => h = s.hw) ∧ Completes (.updCancel l) s (fun h => h = s.hw) ∧ Completes (.updConfirm l) s (fun h => h = s.hw)) ∧
  (∀ (s : State) (l : Fin 10) (b ver : BitVec 32) (cs : List (Prop × Nat)), s.hw.fwUp = true →
    cs = updGates s.hw l ++ [(0x600000 < b.toNat ∨ b.toNat < 4608, 0x15)] ++ updSafety s.hw →
    (∀ code, FirstOf cs code → Refuses (.updBegin l b ver) s code) ∧
    (NoneOf cs → Completes (.updBegin l b ver) s fun h => h = { s.hw with upd := { s.hw.upd with
      state := 1, next := 0, blocks := ceilDiv b.toNat 4096, bytes := b.toNat, version := ver.toNat, blockAt := s.hw.tcnt } })) ∧
  (∀ (s : State) (l : Fin 10) (n : BitVec 16) (crc : BitVec 32) (data : List Nat) (u : Update) (a : Nat) (cs : List (Prop × Nat)),
    s.hw.fwUp = true → u = s.hw.upd → a = slotAt (1 - s.hw.kept.confirmed % 2) + 4096 * n.toNat →
    cs = updGates s.hw l ++ [(u.state ≠ 1, 0x17),
      (¬ ((n.toNat = u.next ∨ n.toNat + 1 = u.next) ∧ n.toNat < u.blocks ∧ data.length = min 4096 (u.bytes - 4096 * n.toNat)), 0x18),
      (crc32 data ≠ crc.toNat, 0x19)] ++ updSafety s.hw →
    (∀ code, FirstOf cs code → Refuses (.updBlock l n crc data) s code) ∧
    (NoneOf cs → s.hw.rf UPD_STAT_SLOT = 1 - s.hw.kept.confirmed % 2 → Completes (.updBlock l n crc data) s fun h => h = s.hw.report 0 4 0 a 0x80000008) ∧
    (NoneOf cs → s.hw.rf UPD_STAT_SLOT ≠ 1 - s.hw.kept.confirmed % 2 → Completes (.updBlock l n crc data) s fun h =>
      (∀ i, i < data.length → (h.byte (a + i)).toNat = data.getD i 0 % 256) ∧
      (∀ x, (x < a ∨ a + data.length ≤ x) → h.byte x = s.hw.byte x) ∧
      h.upd = { u with next := max u.next (n.toNat + 1), state := if max u.next (n.toNat + 1) = u.blocks then 2 else 1, blockAt := s.hw.tcnt } ∧
      Touches [.mem, .ecc, .upd] s.hw h)) ∧
  (∀ (s : State) (l : Fin 10) (cs : List (Prop × Nat)), s.hw.fwUp = true →
    cs = updGates s.hw l ++ [(s.hw.upd.state ≠ 2, 0x17)] ++ updSafety s.hw →
    (∀ code, FirstOf cs code → Refuses (.updActivate l) s code) ∧
    (∀ code, NoneOf cs → (selected s.hw).1 = some code → Completes (.updActivate l) s fun h => h = s.hw) ∧
    (∀ idle j, NoneOf cs → idle = 1 - s.hw.kept.confirmed % 2 → selected s.hw = (none, j) → Completes (.updActivate l) s fun h =>
      ∃ g, Spliced idle true g h ∧ h.rf UPD_CTRL_TARGET = idle ∧ h.rf UPD_CTRL_TRIAL_EN = 1 ∧ g.tcnt = s.hw.tcnt ∧ h.kept.confirmed = s.hw.kept.confirmed ∧
        h.upd.trial = true ∧ h.upd.versions = (if idle = 0 then (s.hw.upd.version, s.hw.upd.versions.2) else (s.hw.upd.versions.1, s.hw.upd.version)) ∧
        RingReady s.hw h ∧ h.upd.aging = lowAges s.hw ∧ (lowAges s.hw = [] → ∀ x, (x < 0x31001000 ∨ 0x31002000 ≤ x) → h.byte x = j.byte x) ∧
        (lowAges s.hw = [] → HandoverWritten s.hw h) ∧
        Touches ([.regs, .mem, .ecc, .free, .resp, .sys, .elogQ, .memu, .fab] ++ [.hitch, .fw, .serials, .lyd, .radio, .pkey, .upd]) s.hw h)) ∧
  (∀ (s : State) (l : Fin 10), s.hw.fwUp = true →
    (1 ≤ s.hw.linkRole l → Completes (.updCancel l) s fun h => h = { s.hw with upd := idleTransfer s.hw.upd }) ∧
    (s.hw.linkRole l < 1 → Completes (.updCancel l) s (fun h => h = s.hw) ∧ Completes (.updConfirm l) s (fun h => h = s.hw))) ∧
  (∀ s : State, (s.hw.upd.state = 0 → Completes .updTransferTimeout s fun h => h = s.hw) ∧
    (s.hw.upd.state ≠ 0 → Completes .updTransferTimeout s fun h =>
      h = { atTime s.hw (s.hw.upd.blockAt + 600 * 491520000) with upd := idleTransfer s.hw.upd })) ∧
  (∀ (s : State) (l : Fin 10) (cs : List (Prop × Nat)) (slot : Nat), s.hw.fwUp = true → 1 ≤ s.hw.linkRole l →
    cs = [(s.hw.rf UPD_STAT_PHASE ≠ 2, 0x17), (s.hw.obj 0x8002 6 = 1 ∧ s.hw.upd.fixSince = false, 0x1A)] →
    slot = s.hw.rf UPD_STAT_SLOT →
    (∀ code, FirstOf cs code → Refuses (.updConfirm l) s code) ∧
    (NoneOf cs → Completes (.updConfirm l) s fun h => ∃ g k r,
      Changes [(UPD_STAT_PHASE, 0)] [.kept, .upd] s.hw g ∧ g.kept = { s.hw.kept with confirmed := slot } ∧ g.upd = { s.hw.upd with trial := false } ∧
      k = g.keepRecords ∧ Touches [.mem, .ecc, .fw] g k ∧ r = k.mramNum (slotAt slot + 0xC) 2 ∧
      (r ≤ s.hw.fuses.otp → h = k) ∧
      (s.hw.fuses.otp < r → r ≤ 128 → h.fuses = { s.hw.fuses with otp := r } ∧ Changes [(UPD_OTP_CNT, r)] [.fuses] k h))) ∧
  (∀ (s : State) (v : BitVec 32), CtrlWritten (.updCtrlConfirm v) (v.toNat ||| 8) s ∧ CtrlWritten (.longSpliceStart v) (v.toNat ||| 1) s) ∧
  (∀ (s : State) (us : Nat) (vendor : List (List Nat)),
    (s.hw.upd.splicing = none → Completes (.handoverAccept us vendor) s fun h => h = s.hw) ∧
    (∀ target go trial g, s.hw.upd.splicing = some (target, go, trial) → target ≤ 1 → s.hw.upd.aging = [] →
      g = (atTime s.hw (go + us * 49152 / 100)).journalScan → Completes (.handoverAccept us vendor) s fun h =>
        ∃ e slot, e = g.verifySlot target g.opSigReq ∧ slot = (if e = 0 then target else s.hw.rf UPD_STAT_SLOT) ∧
          h.tcnt = max s.hw.tcnt ((go + us * 49152 / 100) % 2 ^ 64) ∧ h.rf UPD_STAT_SLOT = slot ∧ h.rf UPD_SPLTIME_SPLTIME = satTo 0xFFFFFF us ∧
          h.rf UPD_STAT_SPLICES = s.hw.rf UPD_STAT_SPLICES ∧ h.rf UPD_STAT_FALLBACK = s.hw.rf UPD_STAT_FALLBACK ∧
          (if e = 0 then h.rf UPD_STAT_PREV = s.hw.rf UPD_STAT_SLOT ∧ h.rf SYS_BOOT_SLOT = target ∧ h.rf UPD_STAT_PHASE = (if trial then 2 else 0) ∧
              h.rf UPD_STAT_VFAIL = s.hw.rf UPD_STAT_VFAIL ∧ h.fw.vendor = vendor
            else h.rf UPD_STAT_PREV = s.hw.rf UPD_STAT_PREV ∧ h.rf SYS_BOOT_SLOT = s.hw.rf SYS_BOOT_SLOT ∧ h.rf UPD_STAT_PHASE = 0 ∧ h.rf UPD_STAT_VFAIL = 1 ∧
              h.fw.vendor = s.hw.fw.vendor) ∧
          h.upd = { s.hw.upd with splicing := none, trialAt := h.tcnt, expired := false, fixSince := false, trial := s.hw.upd.trial && e == 0 } ∧
          h.kept.confirmed = s.hw.kept.confirmed ∧ h.fw.started = h.tcnt ∧ h.fw.wsAt = none ∧ h.fw.hbSeq = 0 ∧ h.fw.version = g.mramNum (slotAt slot + 8) 4 ∧
          (HandoverGood g slot → h.rf UPD_STAT_VERR = (if e = 0 then s.hw.rf UPD_STAT_VERR else e) ∧ h.pkey.conns = s.hw.pkey.conns ∧ h.fix = s.hw.fix ∧ h.hot = s.hw.hot) ∧
          (¬ HandoverGood g slot → h.rf UPD_STAT_VERR = 8 ∧ h.pkey.conns = [] ∧ h.fix = NavFix.reset ∧ h.hot = { s.hw.hot with class_ := 1 }) ∧
          slotAt slot ≤ h.rf PWR_WAKEVEC_VEC ∧ h.rf PWR_WAKEVEC_VEC < slotAt slot + 0x600000 ∧ h.rf RADIO_STAT_HOLD_ACT = 0 ∧
          Touches [.regs, .mem, .ecc, .free, .kept, .tcnt, .hot, .fw, .pkey, .upd, .fix] s.hw h)) ∧
  (∀ s : State, ((s.hw.rf UPD_STAT_PHASE ≠ 2 ∨ s.hw.upd.expired = true) → Completes .trialTimeout s fun h => h = s.hw) ∧
    (s.hw.rf UPD_STAT_PHASE = 2 → s.hw.upd.expired = false → Completes .trialTimeout s fun h =>
      ∃ g e, g.upd = { s.hw.upd with expired := true } ∧
        g.tcnt = max s.hw.tcnt ((s.hw.upd.trialAt + max 30 (min 3600 (s.hw.rf UPD_CWIN_WINDOW)) * 491520000) % 2 ^ 64) ∧
        Changes [(UPD_STAT_FALLBACK, 1)] [.tcnt, .upd] s.hw g ∧ e = g.verifySlot (s.hw.rf UPD_STAT_PREV) g.opSigReq ∧
        (if e = 0 then Spliced (s.hw.rf UPD_STAT_PREV) false g h else Changes [(UPD_STAT_VERR, e), (UPD_STAT_VFAIL, 1)] [] g h))) ∧
  (∀ (s : State) (v : BitVec 32) (set : Nat) (clr : List (Fld × Nat)), set = v.toNat / 256 % 256 → clr = (if v.toNat.testBit 16 then [(UPD_OTP_REFUSED, 0)] else []) →
    (set ≤ s.hw.fuses.otp → Completes (.updOtpSet v) s (Changes [(UPD_OTP_REFUSED, 1)] [] s.hw)) ∧
    (∀ n, s.hw.fuses.otp < set → n = max (min 128 set) s.hw.fuses.otp → Completes (.updOtpSet v) s fun h =>
      h.fuses = { s.hw.fuses with otp := n } ∧ Changes ((UPD_OTP_CNT, n) :: clr) [.fuses] s.hw h))

/-- From `h` to `h'` the controller becomes `c` and the fields take the values beside them; nothing else changes. -/
def I2cBecomes (c : I2c) (fs : List (Fld × Nat)) (h h' : Hw) : Prop := h'.i2c = c ∧ Changes fs [.i2c] h h'

/-- The controller with no command in progress; the bus is free after a STOP. -/
def noCommand (c : I2c) (stop : Bool) : I2c := { c with sent := false, addrd := false, free := stop }

/-- The fields at the end of a command (R757). -/
def commandOver : List (Fld × Nat) := [(I2C_STAT_DONE, 1), (I2C_STAT_BUSY, 0)]

/-- The controller once the START of its command is sent. -/
def started (c : I2c) : I2c := { c with sent := true, free := false }

/-- A byte of the command is due: a command is in progress, its START is sent, and the address or a data byte is still to come (R750). -/
def ByteDue (h : Hw) : Prop :=
  h.rf I2C_STAT_BUSY = 1 ∧ h.i2c.sent = true ∧ ¬ (h.i2c.addrd = true ∧ h.i2c.cmd / 256 % 256 = h.rf I2C_STAT_DONECNT)

/-- The I2C controller (R750 to R757). -/
def Obligations.I2cBus : Prop :=
  (∀ (s : State) (v : BitVec 32) (c : I2c), c = { s.hw.i2c with cmd := v.toNat, sent := false, addrd := false } →
    ((s.hw.rf I2C_CFG_EN = 0 ∨ s.hw.rf I2C_STAT_BUSY = 1) → Completes (.i2cCmd v) s (Changes [(I2C_STAT_CFG_ERR, 1)] [] s.hw)) ∧
    (s.hw.rf I2C_CFG_EN = 1 → s.hw.rf I2C_STAT_BUSY = 0 → (s.hw.rf I2C_STAT_HELD = 1 ∨ s.hw.i2c.free = true) → Completes (.i2cCmd v) s
      (I2cBecomes (started c) [(I2C_STAT_HELD, 0), (I2C_STAT_DONECNT, 0), (I2C_STAT_BUSY, 1)] s.hw)) ∧
    (s.hw.rf I2C_CFG_EN = 1 → s.hw.rf I2C_STAT_BUSY = 0 → s.hw.rf I2C_STAT_HELD = 0 → s.hw.i2c.free = false → Completes (.i2cCmd v) s
      (I2cBecomes c [(I2C_STAT_DONECNT, 0), (I2C_STAT_BUSY, 1)] s.hw))) ∧
  (∀ s : State,
    (s.hw.rf I2C_STAT_BUSY = 1 → s.hw.i2c.sent = false → Completes .i2cBusFreeStart s (I2cBecomes (started s.hw.i2c) [(I2C_STAT_HELD, 0)] s.hw)) ∧
    (s.hw.rf I2C_STAT_BUSY = 1 → s.hw.i2c.sent = true → Completes .i2cBusFreeStart s fun h => h = s.hw) ∧
    (s.hw.rf I2C_STAT_BUSY = 0 → (s.hw.rf I2C_CFG_EN = 0 ∨ s.hw.rf I2C_STAT_HELD = 1) → Completes .i2cBusFreeStart s fun h => h = s.hw) ∧
    (s.hw.rf I2C_STAT_BUSY = 0 → s.hw.rf I2C_CFG_EN = 1 → s.hw.rf I2C_STAT_HELD = 0 → Completes .i2cBusFreeStart s fun h =>
      h = { s.hw with i2c := { s.hw.i2c with free := true } })) ∧
  (∀ (s : State) (data : BitVec 8) (ack lost : Bool), ¬ ByteDue s.hw → Completes (.i2cByte data ack lost) s fun h => h = s.hw) ∧
  (∀ (s : State) (data : BitVec 8) (ack lost : Bool) (c : I2c), ByteDue s.hw → c = s.hw.i2c → c.addrd = false →
    (lost = true → Completes (.i2cByte data ack lost) s (I2cBecomes (noCommand c false) ((I2C_STAT_ARBLOST, 1) :: commandOver) s.hw)) ∧
    (lost = false → ack = false → Completes (.i2cByte data ack lost) s (I2cBecomes (noCommand c true) ((I2C_STAT_NACK, 1) :: commandOver) s.hw)) ∧
    (lost = false → ack = true → Completes (.i2cByte data ack lost) s fun h => h = { s.hw with i2c := { c with addrd := true } })) ∧
  (∀ (s : State) (data : BitVec 8) (ack lost : Bool) (c : I2c), ByteDue s.hw → c = s.hw.i2c → c.addrd = true → c.cmd.testBit 7 = true →
    (8 ≤ c.rx.length → Completes (.i2cByte data ack lost) s fun h => h = s.hw) ∧
    (c.rx.length < 8 → lost = true → Completes (.i2cByte data ack lost) s (I2cBecomes (noCommand c false) ((I2C_STAT_ARBLOST, 1) :: commandOver) s.hw)) ∧
    (c.rx.length < 8 → lost = false → Completes (.i2cByte data ack lost) s
      (I2cBecomes { c with rx := c.rx ++ [data.toNat] } [(I2C_STAT_DONECNT, s.hw.rf I2C_STAT_DONECNT + 1)] s.hw))) ∧
  (∀ (s : State) (data : BitVec 8) (ack lost : Bool) (c : I2c), ByteDue s.hw → c = s.hw.i2c → c.addrd = true → c.cmd.testBit 7 = false →
    (c.tx = [] → Completes (.i2cByte data ack lost) s fun h => h = s.hw) ∧
    (∀ b rest, c.tx = b :: rest →
      (lost = true → Completes (.i2cByte data ack lost) s (I2cBecomes (noCommand { c with tx := rest } false) ((I2C_STAT_ARBLOST, 1) :: commandOver) s.hw)) ∧
      (lost = false → ack = false → Completes (.i2cByte data ack lost) s (I2cBecomes (noCommand { c with tx := rest } true) ((I2C_STAT_NACK, 1) :: commandOver) s.hw)) ∧
      (lost = false → ack = true → Completes (.i2cByte data ack lost) s
        (I2cBecomes { c with tx := rest } [(I2C_STAT_DONECNT, s.hw.rf I2C_STAT_DONECNT + 1)] s.hw)))) ∧
  (∀ (s : State) (done : Prop), done = (s.hw.rf I2C_STAT_BUSY = 1 ∧ s.hw.i2c.addrd = true ∧ s.hw.i2c.cmd / 256 % 256 = s.hw.rf I2C_STAT_DONECNT) →
    (¬ done → Completes .i2cCommandEnd s fun h => h = s.hw) ∧
    (done → s.hw.i2c.cmd.testBit 16 = true → Completes .i2cCommandEnd s (I2cBecomes (noCommand s.hw.i2c false) ((I2C_STAT_HELD, 1) :: commandOver) s.hw)) ∧
    (done → s.hw.i2c.cmd.testBit 16 = false → Completes .i2cCommandEnd s (I2cBecomes (noCommand s.hw.i2c true) commandOver s.hw))) ∧
  (∀ (s : State) (stop : Bool),
    (s.hw.rf I2C_STAT_BUSY = 1 → Completes (.i2cTimeout stop) s (I2cBecomes (noCommand s.hw.i2c stop) ((I2C_STAT_TIMEOUT, 1) :: commandOver) s.hw)) ∧
    (s.hw.rf I2C_STAT_BUSY = 0 → Completes (.i2cTimeout stop) s fun h => h = s.hw)) ∧
  (∀ (s : State) (v : BitVec 8),
    (8 ≤ s.hw.i2c.tx.length → Completes (.i2cDataWrite v) s (Changes [(I2C_STAT_CFG_ERR, 1)] [] s.hw)) ∧
    (s.hw.i2c.tx.length < 8 → Completes (.i2cDataWrite v) s fun h => h = { s.hw with i2c := { s.hw.i2c with tx := s.hw.i2c.tx ++ [v.toNat] } })) ∧
  (∀ s : State,
    (s.hw.i2c.rx = [] → Completes .i2cDataRead s fun h => h = { s.hw with resp := .data 0 }) ∧
    (∀ b rest, s.hw.i2c.rx = b :: rest → Completes .i2cDataRead s fun h =>
      h = { s.hw with i2c := { s.hw.i2c with rx := rest }, resp := .data (b + 2 ^ 31) }))

/-- Every journal record of what the part keeps holds the value that it should. -/
def UpToDate (h : Hw) : Prop := ∀ r ∈ h.keptRecords, h.vendorValue r.1 r.2.1 = r.2.2

/-- Kept journal records (R416, R417, R435, R680; the layout of their values is the model's choice, assumption log 48). -/
def Obligations.KeptRecords : Prop :=
  (∀ h : Hw, UpToDate h → h.keepRecords = h) ∧
  (∀ h : Hw, h.fwUp = false → h.fwKeep = h) ∧
  (∀ h : Hw, Touches [.mem, .ecc, .fw] h h.keepRecords ∧ Touches [.mem, .ecc, .fw] h h.fwKeep) ∧
  (∀ h : Hw, UpToDate h → (∀ m ∈ h.kept.softMaps, m.row < 2 ^ 16) → h.kept.confirmed < 2 → h.upd.versions.1 < 2 ^ 32 → h.upd.versions.2 < 2 ^ 32 →
    h.readKept = { h with kept := { h.kept with
      softMaps := (upTo 15).flatMap fun u => h.kept.softMaps.filter fun m => m.unit == u
      failing := ((upTo 15).flatMap fun u => h.kept.failing.filter fun p => p.1 == u) ++ h.kept.failing.filter fun p => decide (15 ≤ p.1) } })
end

