-- ==== Sys2Proof/Laws/State.lean ====
section
/-! SUPPORT. What each update of the part leaves alone: one lemma per field and update, and one per read and update, all true by `rfl`. -/

set_option Elab.async false

namespace Sys2Proof.Machine

variable (h : Hw)

/-! ### setReg -/

@[simp] theorem Hw.setReg_mem (a : Nat) (v : BitVec 32) : (h.setReg a v).mem = h.mem := (rfl)
@[simp] theorem Hw.setReg_ecc (a : Nat) (v : BitVec 32) : (h.setReg a v).ecc = h.ecc := (rfl)
@[simp] theorem Hw.setReg_free (a : Nat) (v : BitVec 32) : (h.setReg a v).free = h.free := (rfl)
@[simp] theorem Hw.setReg_resp (a : Nat) (v : BitVec 32) : (h.setReg a v).resp = h.resp := (rfl)
@[simp] theorem Hw.setReg_stalls (a : Nat) (v : BitVec 32) : (h.setReg a v).stalls = h.stalls := (rfl)
@[simp] theorem Hw.setReg_late (a : Nat) (v : BitVec 32) : (h.setReg a v).late = h.late := (rfl)
@[simp] theorem Hw.setReg_fuses (a : Nat) (v : BitVec 32) : (h.setReg a v).fuses = h.fuses := (rfl)
@[simp] theorem Hw.setReg_kept (a : Nat) (v : BitVec 32) : (h.setReg a v).kept = h.kept := (rfl)
@[simp] theorem Hw.setReg_pwr (a : Nat) (v : BitVec 32) : (h.setReg a v).pwr = h.pwr := (rfl)
@[simp] theorem Hw.setReg_sys (a : Nat) (v : BitVec 32) : (h.setReg a v).sys = h.sys := (rfl)
@[simp] theorem Hw.setReg_elogQ (a : Nat) (v : BitVec 32) : (h.setReg a v).elogQ = h.elogQ := (rfl)
@[simp] theorem Hw.setReg_memu (a : Nat) (v : BitVec 32) : (h.setReg a v).memu = h.memu := (rfl)
@[simp] theorem Hw.setReg_dmaTry (a : Nat) (v : BitVec 32) : (h.setReg a v).dmaTry = h.dmaTry := (rfl)
@[simp] theorem Hw.setReg_ports (a : Nat) (v : BitVec 32) : (h.setReg a v).ports = h.ports := (rfl)
@[simp] theorem Hw.setReg_tspi (a : Nat) (v : BitVec 32) : (h.setReg a v).tspi = h.tspi := (rfl)
@[simp] theorem Hw.setReg_sspi (a : Nat) (v : BitVec 32) : (h.setReg a v).sspi = h.sspi := (rfl)
@[simp] theorem Hw.setReg_strands (a : Nat) (v : BitVec 32) : (h.setReg a v).strands = h.strands := (rfl)
@[simp] theorem Hw.setReg_fab (a : Nat) (v : BitVec 32) : (h.setReg a v).fab = h.fab := (rfl)
@[simp] theorem Hw.setReg_loop (a : Nat) (v : BitVec 32) : (h.setReg a v).loop = h.loop := (rfl)
@[simp] theorem Hw.setReg_tcnt (a : Nat) (v : BitVec 32) : (h.setReg a v).tcnt = h.tcnt := (rfl)
@[simp] theorem Hw.setReg_coil (a : Nat) (v : BitVec 32) : (h.setReg a v).coil = h.coil := (rfl)
@[simp] theorem Hw.setReg_hot (a : Nat) (v : BitVec 32) : (h.setReg a v).hot = h.hot := (rfl)
@[simp] theorem Hw.setReg_sched (a : Nat) (v : BitVec 32) : (h.setReg a v).sched = h.sched := (rfl)
@[simp] theorem Hw.setReg_hitch (a : Nat) (v : BitVec 32) : (h.setReg a v).hitch = h.hitch := (rfl)
@[simp] theorem Hw.setReg_tp (a : Nat) (v : BitVec 32) : (h.setReg a v).tp = h.tp := (rfl)
@[simp] theorem Hw.setReg_fw (a : Nat) (v : BitVec 32) : (h.setReg a v).fw = h.fw := (rfl)
@[simp] theorem Hw.setReg_win (a : Nat) (v : BitVec 32) : (h.setReg a v).win = h.win := (rfl)
@[simp] theorem Hw.setReg_serials (a : Nat) (v : BitVec 32) : (h.setReg a v).serials = h.serials := (rfl)
@[simp] theorem Hw.setReg_lyd (a : Nat) (v : BitVec 32) : (h.setReg a v).lyd = h.lyd := (rfl)
@[simp] theorem Hw.setReg_cans (a : Nat) (v : BitVec 32) : (h.setReg a v).cans = h.cans := (rfl)
@[simp] theorem Hw.setReg_radio (a : Nat) (v : BitVec 32) : (h.setReg a v).radio = h.radio := (rfl)
@[simp] theorem Hw.setReg_pkey (a : Nat) (v : BitVec 32) : (h.setReg a v).pkey = h.pkey := (rfl)
@[simp] theorem Hw.setReg_rtc (a : Nat) (v : BitVec 32) : (h.setReg a v).rtc = h.rtc := (rfl)
@[simp] theorem Hw.setReg_upd (a : Nat) (v : BitVec 32) : (h.setReg a v).upd = h.upd := (rfl)
@[simp] theorem Hw.setReg_i2c (a : Nat) (v : BitVec 32) : (h.setReg a v).i2c = h.i2c := (rfl)
@[simp] theorem Hw.setReg_bgnd (a : Nat) (v : BitVec 32) : (h.setReg a v).bgnd = h.bgnd := (rfl)
@[simp] theorem Hw.setReg_fix (a : Nat) (v : BitVec 32) : (h.setReg a v).fix = h.fix := (rfl)
@[simp] theorem Hw.setReg_byte (a : Nat) (v : BitVec 32) (q : Nat) : (h.setReg a v).byte q = h.byte q := (rfl)
@[simp] theorem Hw.setReg_eccAt (a : Nat) (v : BitVec 32) (q : Nat) : (h.setReg a v).eccAt q = h.eccAt q := (rfl)
@[simp] theorem Hw.setReg_port (a : Nat) (v : BitVec 32) (q : Nat) : (h.setReg a v).port q = h.port q := (rfl)
@[simp] theorem Hw.setReg_strand (a : Nat) (v : BitVec 32) (q : Nat) : (h.setReg a v).strand q = h.strand q := (rfl)
@[simp] theorem Hw.setReg_engine (a : Nat) (v : BitVec 32) (q : Nat) : (h.setReg a v).engine q = h.engine q := (rfl)
@[simp] theorem Hw.setReg_tranche (a : Nat) (v : BitVec 32) (q : Nat) : (h.setReg a v).tranche q = h.tranche q := (rfl)
@[simp] theorem Hw.setReg_core (a : Nat) (v : BitVec 32) (q : Nat) : (h.setReg a v).core q = h.core q := (rfl)
@[simp] theorem Hw.setReg_can (a : Nat) (v : BitVec 32) (q : Nat) : (h.setReg a v).can q = h.can q := (rfl)
@[simp] theorem Hw.setReg_link (a : Nat) (v : BitVec 32) (q : Nat) : (h.setReg a v).link q = h.link q := (rfl)
@[simp] theorem Hw.setReg_serial (a : Nat) (v : BitVec 32) (q : Nat) : (h.setReg a v).serial q = h.serial q := (rfl)

/-! ### sf -/

@[simp] theorem Hw.sf_mem (f : Fld) (v : Nat) : (h.sf f v).mem = h.mem := (rfl)
@[simp] theorem Hw.sf_ecc (f : Fld) (v : Nat) : (h.sf f v).ecc = h.ecc := (rfl)
@[simp] theorem Hw.sf_free (f : Fld) (v : Nat) : (h.sf f v).free = h.free := (rfl)
@[simp] theorem Hw.sf_resp (f : Fld) (v : Nat) : (h.sf f v).resp = h.resp := (rfl)
@[simp] theorem Hw.sf_stalls (f : Fld) (v : Nat) : (h.sf f v).stalls = h.stalls := (rfl)
@[simp] theorem Hw.sf_late (f : Fld) (v : Nat) : (h.sf f v).late = h.late := (rfl)
@[simp] theorem Hw.sf_fuses (f : Fld) (v : Nat) : (h.sf f v).fuses = h.fuses := (rfl)
@[simp] theorem Hw.sf_kept (f : Fld) (v : Nat) : (h.sf f v).kept = h.kept := (rfl)
@[simp] theorem Hw.sf_pwr (f : Fld) (v : Nat) : (h.sf f v).pwr = h.pwr := (rfl)
@[simp] theorem Hw.sf_sys (f : Fld) (v : Nat) : (h.sf f v).sys = h.sys := (rfl)
@[simp] theorem Hw.sf_elogQ (f : Fld) (v : Nat) : (h.sf f v).elogQ = h.elogQ := (rfl)
@[simp] theorem Hw.sf_memu (f : Fld) (v : Nat) : (h.sf f v).memu = h.memu := (rfl)
@[simp] theorem Hw.sf_dmaTry (f : Fld) (v : Nat) : (h.sf f v).dmaTry = h.dmaTry := (rfl)
@[simp] theorem Hw.sf_ports (f : Fld) (v : Nat) : (h.sf f v).ports = h.ports := (rfl)
@[simp] theorem Hw.sf_tspi (f : Fld) (v : Nat) : (h.sf f v).tspi = h.tspi := (rfl)
@[simp] theorem Hw.sf_sspi (f : Fld) (v : Nat) : (h.sf f v).sspi = h.sspi := (rfl)
@[simp] theorem Hw.sf_strands (f : Fld) (v : Nat) : (h.sf f v).strands = h.strands := (rfl)
@[simp] theorem Hw.sf_fab (f : Fld) (v : Nat) : (h.sf f v).fab = h.fab := (rfl)
@[simp] theorem Hw.sf_loop (f : Fld) (v : Nat) : (h.sf f v).loop = h.loop := (rfl)
@[simp] theorem Hw.sf_tcnt (f : Fld) (v : Nat) : (h.sf f v).tcnt = h.tcnt := (rfl)
@[simp] theorem Hw.sf_coil (f : Fld) (v : Nat) : (h.sf f v).coil = h.coil := (rfl)
@[simp] theorem Hw.sf_hot (f : Fld) (v : Nat) : (h.sf f v).hot = h.hot := (rfl)
@[simp] theorem Hw.sf_sched (f : Fld) (v : Nat) : (h.sf f v).sched = h.sched := (rfl)
@[simp] theorem Hw.sf_hitch (f : Fld) (v : Nat) : (h.sf f v).hitch = h.hitch := (rfl)
@[simp] theorem Hw.sf_tp (f : Fld) (v : Nat) : (h.sf f v).tp = h.tp := (rfl)
@[simp] theorem Hw.sf_fw (f : Fld) (v : Nat) : (h.sf f v).fw = h.fw := (rfl)
@[simp] theorem Hw.sf_win (f : Fld) (v : Nat) : (h.sf f v).win = h.win := (rfl)
@[simp] theorem Hw.sf_serials (f : Fld) (v : Nat) : (h.sf f v).serials = h.serials := (rfl)
@[simp] theorem Hw.sf_lyd (f : Fld) (v : Nat) : (h.sf f v).lyd = h.lyd := (rfl)
@[simp] theorem Hw.sf_cans (f : Fld) (v : Nat) : (h.sf f v).cans = h.cans := (rfl)
@[simp] theorem Hw.sf_radio (f : Fld) (v : Nat) : (h.sf f v).radio = h.radio := (rfl)
@[simp] theorem Hw.sf_pkey (f : Fld) (v : Nat) : (h.sf f v).pkey = h.pkey := (rfl)
@[simp] theorem Hw.sf_rtc (f : Fld) (v : Nat) : (h.sf f v).rtc = h.rtc := (rfl)
@[simp] theorem Hw.sf_upd (f : Fld) (v : Nat) : (h.sf f v).upd = h.upd := (rfl)
@[simp] theorem Hw.sf_i2c (f : Fld) (v : Nat) : (h.sf f v).i2c = h.i2c := (rfl)
@[simp] theorem Hw.sf_bgnd (f : Fld) (v : Nat) : (h.sf f v).bgnd = h.bgnd := (rfl)
@[simp] theorem Hw.sf_fix (f : Fld) (v : Nat) : (h.sf f v).fix = h.fix := (rfl)
@[simp] theorem Hw.sf_byte (f : Fld) (v : Nat) (q : Nat) : (h.sf f v).byte q = h.byte q := (rfl)
@[simp] theorem Hw.sf_eccAt (f : Fld) (v : Nat) (q : Nat) : (h.sf f v).eccAt q = h.eccAt q := (rfl)
@[simp] theorem Hw.sf_port (f : Fld) (v : Nat) (q : Nat) : (h.sf f v).port q = h.port q := (rfl)
@[simp] theorem Hw.sf_strand (f : Fld) (v : Nat) (q : Nat) : (h.sf f v).strand q = h.strand q := (rfl)
@[simp] theorem Hw.sf_engine (f : Fld) (v : Nat) (q : Nat) : (h.sf f v).engine q = h.engine q := (rfl)
@[simp] theorem Hw.sf_tranche (f : Fld) (v : Nat) (q : Nat) : (h.sf f v).tranche q = h.tranche q := (rfl)
@[simp] theorem Hw.sf_core (f : Fld) (v : Nat) (q : Nat) : (h.sf f v).core q = h.core q := (rfl)
@[simp] theorem Hw.sf_can (f : Fld) (v : Nat) (q : Nat) : (h.sf f v).can q = h.can q := (rfl)
@[simp] theorem Hw.sf_link (f : Fld) (v : Nat) (q : Nat) : (h.sf f v).link q = h.link q := (rfl)
@[simp] theorem Hw.sf_serial (f : Fld) (v : Nat) (q : Nat) : (h.sf f v).serial q = h.serial q := (rfl)

/-! ### sfInt -/

@[simp] theorem Hw.sfInt_mem (f : Fld) (v : Int) : (h.sfInt f v).mem = h.mem := (rfl)
@[simp] theorem Hw.sfInt_ecc (f : Fld) (v : Int) : (h.sfInt f v).ecc = h.ecc := (rfl)
@[simp] theorem Hw.sfInt_free (f : Fld) (v : Int) : (h.sfInt f v).free = h.free := (rfl)
@[simp] theorem Hw.sfInt_resp (f : Fld) (v : Int) : (h.sfInt f v).resp = h.resp := (rfl)
@[simp] theorem Hw.sfInt_stalls (f : Fld) (v : Int) : (h.sfInt f v).stalls = h.stalls := (rfl)
@[simp] theorem Hw.sfInt_late (f : Fld) (v : Int) : (h.sfInt f v).late = h.late := (rfl)
@[simp] theorem Hw.sfInt_fuses (f : Fld) (v : Int) : (h.sfInt f v).fuses = h.fuses := (rfl)
@[simp] theorem Hw.sfInt_kept (f : Fld) (v : Int) : (h.sfInt f v).kept = h.kept := (rfl)
@[simp] theorem Hw.sfInt_pwr (f : Fld) (v : Int) : (h.sfInt f v).pwr = h.pwr := (rfl)
@[simp] theorem Hw.sfInt_sys (f : Fld) (v : Int) : (h.sfInt f v).sys = h.sys := (rfl)
@[simp] theorem Hw.sfInt_elogQ (f : Fld) (v : Int) : (h.sfInt f v).elogQ = h.elogQ := (rfl)
@[simp] theorem Hw.sfInt_memu (f : Fld) (v : Int) : (h.sfInt f v).memu = h.memu := (rfl)
@[simp] theorem Hw.sfInt_dmaTry (f : Fld) (v : Int) : (h.sfInt f v).dmaTry = h.dmaTry := (rfl)
@[simp] theorem Hw.sfInt_ports (f : Fld) (v : Int) : (h.sfInt f v).ports = h.ports := (rfl)
@[simp] theorem Hw.sfInt_tspi (f : Fld) (v : Int) : (h.sfInt f v).tspi = h.tspi := (rfl)
@[simp] theorem Hw.sfInt_sspi (f : Fld) (v : Int) : (h.sfInt f v).sspi = h.sspi := (rfl)
@[simp] theorem Hw.sfInt_strands (f : Fld) (v : Int) : (h.sfInt f v).strands = h.strands := (rfl)
@[simp] theorem Hw.sfInt_fab (f : Fld) (v : Int) : (h.sfInt f v).fab = h.fab := (rfl)
@[simp] theorem Hw.sfInt_loop (f : Fld) (v : Int) : (h.sfInt f v).loop = h.loop := (rfl)
@[simp] theorem Hw.sfInt_tcnt (f : Fld) (v : Int) : (h.sfInt f v).tcnt = h.tcnt := (rfl)
@[simp] theorem Hw.sfInt_coil (f : Fld) (v : Int) : (h.sfInt f v).coil = h.coil := (rfl)
@[simp] theorem Hw.sfInt_hot (f : Fld) (v : Int) : (h.sfInt f v).hot = h.hot := (rfl)
@[simp] theorem Hw.sfInt_sched (f : Fld) (v : Int) : (h.sfInt f v).sched = h.sched := (rfl)
@[simp] theorem Hw.sfInt_hitch (f : Fld) (v : Int) : (h.sfInt f v).hitch = h.hitch := (rfl)
@[simp] theorem Hw.sfInt_tp (f : Fld) (v : Int) : (h.sfInt f v).tp = h.tp := (rfl)
@[simp] theorem Hw.sfInt_fw (f : Fld) (v : Int) : (h.sfInt f v).fw = h.fw := (rfl)
@[simp] theorem Hw.sfInt_win (f : Fld) (v : Int) : (h.sfInt f v).win = h.win := (rfl)
@[simp] theorem Hw.sfInt_serials (f : Fld) (v : Int) : (h.sfInt f v).serials = h.serials := (rfl)
@[simp] theorem Hw.sfInt_lyd (f : Fld) (v : Int) : (h.sfInt f v).lyd = h.lyd := (rfl)
@[simp] theorem Hw.sfInt_cans (f : Fld) (v : Int) : (h.sfInt f v).cans = h.cans := (rfl)
@[simp] theorem Hw.sfInt_radio (f : Fld) (v : Int) : (h.sfInt f v).radio = h.radio := (rfl)
@[simp] theorem Hw.sfInt_pkey (f : Fld) (v : Int) : (h.sfInt f v).pkey = h.pkey := (rfl)
@[simp] theorem Hw.sfInt_rtc (f : Fld) (v : Int) : (h.sfInt f v).rtc = h.rtc := (rfl)
@[simp] theorem Hw.sfInt_upd (f : Fld) (v : Int) : (h.sfInt f v).upd = h.upd := (rfl)
@[simp] theorem Hw.sfInt_i2c (f : Fld) (v : Int) : (h.sfInt f v).i2c = h.i2c := (rfl)
@[simp] theorem Hw.sfInt_bgnd (f : Fld) (v : Int) : (h.sfInt f v).bgnd = h.bgnd := (rfl)
@[simp] theorem Hw.sfInt_fix (f : Fld) (v : Int) : (h.sfInt f v).fix = h.fix := (rfl)
@[simp] theorem Hw.sfInt_byte (f : Fld) (v : Int) (q : Nat) : (h.sfInt f v).byte q = h.byte q := (rfl)
@[simp] theorem Hw.sfInt_eccAt (f : Fld) (v : Int) (q : Nat) : (h.sfInt f v).eccAt q = h.eccAt q := (rfl)
@[simp] theorem Hw.sfInt_port (f : Fld) (v : Int) (q : Nat) : (h.sfInt f v).port q = h.port q := (rfl)
@[simp] theorem Hw.sfInt_strand (f : Fld) (v : Int) (q : Nat) : (h.sfInt f v).strand q = h.strand q := (rfl)
@[simp] theorem Hw.sfInt_engine (f : Fld) (v : Int) (q : Nat) : (h.sfInt f v).engine q = h.engine q := (rfl)
@[simp] theorem Hw.sfInt_tranche (f : Fld) (v : Int) (q : Nat) : (h.sfInt f v).tranche q = h.tranche q := (rfl)
@[simp] theorem Hw.sfInt_core (f : Fld) (v : Int) (q : Nat) : (h.sfInt f v).core q = h.core q := (rfl)
@[simp] theorem Hw.sfInt_can (f : Fld) (v : Int) (q : Nat) : (h.sfInt f v).can q = h.can q := (rfl)
@[simp] theorem Hw.sfInt_link (f : Fld) (v : Int) (q : Nat) : (h.sfInt f v).link q = h.link q := (rfl)
@[simp] theorem Hw.sfInt_serial (f : Fld) (v : Int) (q : Nat) : (h.sfInt f v).serial q = h.serial q := (rfl)

/-! ### bumpBy -/

@[simp] theorem Hw.bumpBy_mem (f : Fld) (k : Nat) : (h.bumpBy f k).mem = h.mem := (rfl)
@[simp] theorem Hw.bumpBy_ecc (f : Fld) (k : Nat) : (h.bumpBy f k).ecc = h.ecc := (rfl)
@[simp] theorem Hw.bumpBy_free (f : Fld) (k : Nat) : (h.bumpBy f k).free = h.free := (rfl)
@[simp] theorem Hw.bumpBy_resp (f : Fld) (k : Nat) : (h.bumpBy f k).resp = h.resp := (rfl)
@[simp] theorem Hw.bumpBy_stalls (f : Fld) (k : Nat) : (h.bumpBy f k).stalls = h.stalls := (rfl)
@[simp] theorem Hw.bumpBy_late (f : Fld) (k : Nat) : (h.bumpBy f k).late = h.late := (rfl)
@[simp] theorem Hw.bumpBy_fuses (f : Fld) (k : Nat) : (h.bumpBy f k).fuses = h.fuses := (rfl)
@[simp] theorem Hw.bumpBy_kept (f : Fld) (k : Nat) : (h.bumpBy f k).kept = h.kept := (rfl)
@[simp] theorem Hw.bumpBy_pwr (f : Fld) (k : Nat) : (h.bumpBy f k).pwr = h.pwr := (rfl)
@[simp] theorem Hw.bumpBy_sys (f : Fld) (k : Nat) : (h.bumpBy f k).sys = h.sys := (rfl)
@[simp] theorem Hw.bumpBy_elogQ (f : Fld) (k : Nat) : (h.bumpBy f k).elogQ = h.elogQ := (rfl)
@[simp] theorem Hw.bumpBy_memu (f : Fld) (k : Nat) : (h.bumpBy f k).memu = h.memu := (rfl)
@[simp] theorem Hw.bumpBy_dmaTry (f : Fld) (k : Nat) : (h.bumpBy f k).dmaTry = h.dmaTry := (rfl)
@[simp] theorem Hw.bumpBy_ports (f : Fld) (k : Nat) : (h.bumpBy f k).ports = h.ports := (rfl)
@[simp] theorem Hw.bumpBy_tspi (f : Fld) (k : Nat) : (h.bumpBy f k).tspi = h.tspi := (rfl)
@[simp] theorem Hw.bumpBy_sspi (f : Fld) (k : Nat) : (h.bumpBy f k).sspi = h.sspi := (rfl)
@[simp] theorem Hw.bumpBy_strands (f : Fld) (k : Nat) : (h.bumpBy f k).strands = h.strands := (rfl)
@[simp] theorem Hw.bumpBy_fab (f : Fld) (k : Nat) : (h.bumpBy f k).fab = h.fab := (rfl)
@[simp] theorem Hw.bumpBy_loop (f : Fld) (k : Nat) : (h.bumpBy f k).loop = h.loop := (rfl)
@[simp] theorem Hw.bumpBy_tcnt (f : Fld) (k : Nat) : (h.bumpBy f k).tcnt = h.tcnt := (rfl)
@[simp] theorem Hw.bumpBy_coil (f : Fld) (k : Nat) : (h.bumpBy f k).coil = h.coil := (rfl)
@[simp] theorem Hw.bumpBy_hot (f : Fld) (k : Nat) : (h.bumpBy f k).hot = h.hot := (rfl)
@[simp] theorem Hw.bumpBy_sched (f : Fld) (k : Nat) : (h.bumpBy f k).sched = h.sched := (rfl)
@[simp] theorem Hw.bumpBy_hitch (f : Fld) (k : Nat) : (h.bumpBy f k).hitch = h.hitch := (rfl)
@[simp] theorem Hw.bumpBy_tp (f : Fld) (k : Nat) : (h.bumpBy f k).tp = h.tp := (rfl)
@[simp] theorem Hw.bumpBy_fw (f : Fld) (k : Nat) : (h.bumpBy f k).fw = h.fw := (rfl)
@[simp] theorem Hw.bumpBy_win (f : Fld) (k : Nat) : (h.bumpBy f k).win = h.win := (rfl)
@[simp] theorem Hw.bumpBy_serials (f : Fld) (k : Nat) : (h.bumpBy f k).serials = h.serials := (rfl)
@[simp] theorem Hw.bumpBy_lyd (f : Fld) (k : Nat) : (h.bumpBy f k).lyd = h.lyd := (rfl)
@[simp] theorem Hw.bumpBy_cans (f : Fld) (k : Nat) : (h.bumpBy f k).cans = h.cans := (rfl)
@[simp] theorem Hw.bumpBy_radio (f : Fld) (k : Nat) : (h.bumpBy f k).radio = h.radio := (rfl)
@[simp] theorem Hw.bumpBy_pkey (f : Fld) (k : Nat) : (h.bumpBy f k).pkey = h.pkey := (rfl)
@[simp] theorem Hw.bumpBy_rtc (f : Fld) (k : Nat) : (h.bumpBy f k).rtc = h.rtc := (rfl)
@[simp] theorem Hw.bumpBy_upd (f : Fld) (k : Nat) : (h.bumpBy f k).upd = h.upd := (rfl)
@[simp] theorem Hw.bumpBy_i2c (f : Fld) (k : Nat) : (h.bumpBy f k).i2c = h.i2c := (rfl)
@[simp] theorem Hw.bumpBy_bgnd (f : Fld) (k : Nat) : (h.bumpBy f k).bgnd = h.bgnd := (rfl)
@[simp] theorem Hw.bumpBy_fix (f : Fld) (k : Nat) : (h.bumpBy f k).fix = h.fix := (rfl)
@[simp] theorem Hw.bumpBy_byte (f : Fld) (k : Nat) (q : Nat) : (h.bumpBy f k).byte q = h.byte q := (rfl)
@[simp] theorem Hw.bumpBy_eccAt (f : Fld) (k : Nat) (q : Nat) : (h.bumpBy f k).eccAt q = h.eccAt q := (rfl)
@[simp] theorem Hw.bumpBy_port (f : Fld) (k : Nat) (q : Nat) : (h.bumpBy f k).port q = h.port q := (rfl)
@[simp] theorem Hw.bumpBy_strand (f : Fld) (k : Nat) (q : Nat) : (h.bumpBy f k).strand q = h.strand q := (rfl)
@[simp] theorem Hw.bumpBy_engine (f : Fld) (k : Nat) (q : Nat) : (h.bumpBy f k).engine q = h.engine q := (rfl)
@[simp] theorem Hw.bumpBy_tranche (f : Fld) (k : Nat) (q : Nat) : (h.bumpBy f k).tranche q = h.tranche q := (rfl)
@[simp] theorem Hw.bumpBy_core (f : Fld) (k : Nat) (q : Nat) : (h.bumpBy f k).core q = h.core q := (rfl)
@[simp] theorem Hw.bumpBy_can (f : Fld) (k : Nat) (q : Nat) : (h.bumpBy f k).can q = h.can q := (rfl)
@[simp] theorem Hw.bumpBy_link (f : Fld) (k : Nat) (q : Nat) : (h.bumpBy f k).link q = h.link q := (rfl)
@[simp] theorem Hw.bumpBy_serial (f : Fld) (k : Nat) (q : Nat) : (h.bumpBy f k).serial q = h.serial q := (rfl)

/-! ### bump -/

@[simp] theorem Hw.bump_mem (f : Fld) : (h.bump f).mem = h.mem := (rfl)
@[simp] theorem Hw.bump_ecc (f : Fld) : (h.bump f).ecc = h.ecc := (rfl)
@[simp] theorem Hw.bump_free (f : Fld) : (h.bump f).free = h.free := (rfl)
@[simp] theorem Hw.bump_resp (f : Fld) : (h.bump f).resp = h.resp := (rfl)
@[simp] theorem Hw.bump_stalls (f : Fld) : (h.bump f).stalls = h.stalls := (rfl)
@[simp] theorem Hw.bump_late (f : Fld) : (h.bump f).late = h.late := (rfl)
@[simp] theorem Hw.bump_fuses (f : Fld) : (h.bump f).fuses = h.fuses := (rfl)
@[simp] theorem Hw.bump_kept (f : Fld) : (h.bump f).kept = h.kept := (rfl)
@[simp] theorem Hw.bump_pwr (f : Fld) : (h.bump f).pwr = h.pwr := (rfl)
@[simp] theorem Hw.bump_sys (f : Fld) : (h.bump f).sys = h.sys := (rfl)
@[simp] theorem Hw.bump_elogQ (f : Fld) : (h.bump f).elogQ = h.elogQ := (rfl)
@[simp] theorem Hw.bump_memu (f : Fld) : (h.bump f).memu = h.memu := (rfl)
@[simp] theorem Hw.bump_dmaTry (f : Fld) : (h.bump f).dmaTry = h.dmaTry := (rfl)
@[simp] theorem Hw.bump_ports (f : Fld) : (h.bump f).ports = h.ports := (rfl)
@[simp] theorem Hw.bump_tspi (f : Fld) : (h.bump f).tspi = h.tspi := (rfl)
@[simp] theorem Hw.bump_sspi (f : Fld) : (h.bump f).sspi = h.sspi := (rfl)
@[simp] theorem Hw.bump_strands (f : Fld) : (h.bump f).strands = h.strands := (rfl)
@[simp] theorem Hw.bump_fab (f : Fld) : (h.bump f).fab = h.fab := (rfl)
@[simp] theorem Hw.bump_loop (f : Fld) : (h.bump f).loop = h.loop := (rfl)
@[simp] theorem Hw.bump_tcnt (f : Fld) : (h.bump f).tcnt = h.tcnt := (rfl)
@[simp] theorem Hw.bump_coil (f : Fld) : (h.bump f).coil = h.coil := (rfl)
@[simp] theorem Hw.bump_hot (f : Fld) : (h.bump f).hot = h.hot := (rfl)
@[simp] theorem Hw.bump_sched (f : Fld) : (h.bump f).sched = h.sched := (rfl)
@[simp] theorem Hw.bump_hitch (f : Fld) : (h.bump f).hitch = h.hitch := (rfl)
@[simp] theorem Hw.bump_tp (f : Fld) : (h.bump f).tp = h.tp := (rfl)
@[simp] theorem Hw.bump_fw (f : Fld) : (h.bump f).fw = h.fw := (rfl)
@[simp] theorem Hw.bump_win (f : Fld) : (h.bump f).win = h.win := (rfl)
@[simp] theorem Hw.bump_serials (f : Fld) : (h.bump f).serials = h.serials := (rfl)
@[simp] theorem Hw.bump_lyd (f : Fld) : (h.bump f).lyd = h.lyd := (rfl)
@[simp] theorem Hw.bump_cans (f : Fld) : (h.bump f).cans = h.cans := (rfl)
@[simp] theorem Hw.bump_radio (f : Fld) : (h.bump f).radio = h.radio := (rfl)
@[simp] theorem Hw.bump_pkey (f : Fld) : (h.bump f).pkey = h.pkey := (rfl)
@[simp] theorem Hw.bump_rtc (f : Fld) : (h.bump f).rtc = h.rtc := (rfl)
@[simp] theorem Hw.bump_upd (f : Fld) : (h.bump f).upd = h.upd := (rfl)
@[simp] theorem Hw.bump_i2c (f : Fld) : (h.bump f).i2c = h.i2c := (rfl)
@[simp] theorem Hw.bump_bgnd (f : Fld) : (h.bump f).bgnd = h.bgnd := (rfl)
@[simp] theorem Hw.bump_fix (f : Fld) : (h.bump f).fix = h.fix := (rfl)
@[simp] theorem Hw.bump_byte (f : Fld) (q : Nat) : (h.bump f).byte q = h.byte q := (rfl)
@[simp] theorem Hw.bump_eccAt (f : Fld) (q : Nat) : (h.bump f).eccAt q = h.eccAt q := (rfl)
@[simp] theorem Hw.bump_port (f : Fld) (q : Nat) : (h.bump f).port q = h.port q := (rfl)
@[simp] theorem Hw.bump_strand (f : Fld) (q : Nat) : (h.bump f).strand q = h.strand q := (rfl)
@[simp] theorem Hw.bump_engine (f : Fld) (q : Nat) : (h.bump f).engine q = h.engine q := (rfl)
@[simp] theorem Hw.bump_tranche (f : Fld) (q : Nat) : (h.bump f).tranche q = h.tranche q := (rfl)
@[simp] theorem Hw.bump_core (f : Fld) (q : Nat) : (h.bump f).core q = h.core q := (rfl)
@[simp] theorem Hw.bump_can (f : Fld) (q : Nat) : (h.bump f).can q = h.can q := (rfl)
@[simp] theorem Hw.bump_link (f : Fld) (q : Nat) : (h.bump f).link q = h.link q := (rfl)
@[simp] theorem Hw.bump_serial (f : Fld) (q : Nat) : (h.bump f).serial q = h.serial q := (rfl)

/-! ### count -/

@[simp] theorem Hw.count_mem (f : Fld) : (h.count f).mem = h.mem := (rfl)
@[simp] theorem Hw.count_ecc (f : Fld) : (h.count f).ecc = h.ecc := (rfl)
@[simp] theorem Hw.count_free (f : Fld) : (h.count f).free = h.free := (rfl)
@[simp] theorem Hw.count_resp (f : Fld) : (h.count f).resp = h.resp := (rfl)
@[simp] theorem Hw.count_stalls (f : Fld) : (h.count f).stalls = h.stalls := (rfl)
@[simp] theorem Hw.count_late (f : Fld) : (h.count f).late = h.late := (rfl)
@[simp] theorem Hw.count_fuses (f : Fld) : (h.count f).fuses = h.fuses := (rfl)
@[simp] theorem Hw.count_kept (f : Fld) : (h.count f).kept = h.kept := (rfl)
@[simp] theorem Hw.count_pwr (f : Fld) : (h.count f).pwr = h.pwr := (rfl)
@[simp] theorem Hw.count_sys (f : Fld) : (h.count f).sys = h.sys := (rfl)
@[simp] theorem Hw.count_elogQ (f : Fld) : (h.count f).elogQ = h.elogQ := (rfl)
@[simp] theorem Hw.count_memu (f : Fld) : (h.count f).memu = h.memu := (rfl)
@[simp] theorem Hw.count_dmaTry (f : Fld) : (h.count f).dmaTry = h.dmaTry := (rfl)
@[simp] theorem Hw.count_ports (f : Fld) : (h.count f).ports = h.ports := (rfl)
@[simp] theorem Hw.count_tspi (f : Fld) : (h.count f).tspi = h.tspi := (rfl)
@[simp] theorem Hw.count_sspi (f : Fld) : (h.count f).sspi = h.sspi := (rfl)
@[simp] theorem Hw.count_strands (f : Fld) : (h.count f).strands = h.strands := (rfl)
@[simp] theorem Hw.count_fab (f : Fld) : (h.count f).fab = h.fab := (rfl)
@[simp] theorem Hw.count_loop (f : Fld) : (h.count f).loop = h.loop := (rfl)
@[simp] theorem Hw.count_tcnt (f : Fld) : (h.count f).tcnt = h.tcnt := (rfl)
@[simp] theorem Hw.count_coil (f : Fld) : (h.count f).coil = h.coil := (rfl)
@[simp] theorem Hw.count_hot (f : Fld) : (h.count f).hot = h.hot := (rfl)
@[simp] theorem Hw.count_sched (f : Fld) : (h.count f).sched = h.sched := (rfl)
@[simp] theorem Hw.count_hitch (f : Fld) : (h.count f).hitch = h.hitch := (rfl)
@[simp] theorem Hw.count_tp (f : Fld) : (h.count f).tp = h.tp := (rfl)
@[simp] theorem Hw.count_fw (f : Fld) : (h.count f).fw = h.fw := (rfl)
@[simp] theorem Hw.count_win (f : Fld) : (h.count f).win = h.win := (rfl)
@[simp] theorem Hw.count_serials (f : Fld) : (h.count f).serials = h.serials := (rfl)
@[simp] theorem Hw.count_lyd (f : Fld) : (h.count f).lyd = h.lyd := (rfl)
@[simp] theorem Hw.count_cans (f : Fld) : (h.count f).cans = h.cans := (rfl)
@[simp] theorem Hw.count_radio (f : Fld) : (h.count f).radio = h.radio := (rfl)
@[simp] theorem Hw.count_pkey (f : Fld) : (h.count f).pkey = h.pkey := (rfl)
@[simp] theorem Hw.count_rtc (f : Fld) : (h.count f).rtc = h.rtc := (rfl)
@[simp] theorem Hw.count_upd (f : Fld) : (h.count f).upd = h.upd := (rfl)
@[simp] theorem Hw.count_i2c (f : Fld) : (h.count f).i2c = h.i2c := (rfl)
@[simp] theorem Hw.count_bgnd (f : Fld) : (h.count f).bgnd = h.bgnd := (rfl)
@[simp] theorem Hw.count_fix (f : Fld) : (h.count f).fix = h.fix := (rfl)
@[simp] theorem Hw.count_byte (f : Fld) (q : Nat) : (h.count f).byte q = h.byte q := (rfl)
@[simp] theorem Hw.count_eccAt (f : Fld) (q : Nat) : (h.count f).eccAt q = h.eccAt q := (rfl)
@[simp] theorem Hw.count_port (f : Fld) (q : Nat) : (h.count f).port q = h.port q := (rfl)
@[simp] theorem Hw.count_strand (f : Fld) (q : Nat) : (h.count f).strand q = h.strand q := (rfl)
@[simp] theorem Hw.count_engine (f : Fld) (q : Nat) : (h.count f).engine q = h.engine q := (rfl)
@[simp] theorem Hw.count_tranche (f : Fld) (q : Nat) : (h.count f).tranche q = h.tranche q := (rfl)
@[simp] theorem Hw.count_core (f : Fld) (q : Nat) : (h.count f).core q = h.core q := (rfl)
@[simp] theorem Hw.count_can (f : Fld) (q : Nat) : (h.count f).can q = h.can q := (rfl)
@[simp] theorem Hw.count_link (f : Fld) (q : Nat) : (h.count f).link q = h.link q := (rfl)
@[simp] theorem Hw.count_serial (f : Fld) (q : Nat) : (h.count f).serial q = h.serial q := (rfl)

/-! ### setByte -/

@[simp] theorem Hw.setByte_regs (a : Nat) (v : BitVec 8) : (h.setByte a v).regs = h.regs := (rfl)
@[simp] theorem Hw.setByte_ecc (a : Nat) (v : BitVec 8) : (h.setByte a v).ecc = h.ecc := (rfl)
@[simp] theorem Hw.setByte_free (a : Nat) (v : BitVec 8) : (h.setByte a v).free = h.free := (rfl)
@[simp] theorem Hw.setByte_resp (a : Nat) (v : BitVec 8) : (h.setByte a v).resp = h.resp := (rfl)
@[simp] theorem Hw.setByte_stalls (a : Nat) (v : BitVec 8) : (h.setByte a v).stalls = h.stalls := (rfl)
@[simp] theorem Hw.setByte_late (a : Nat) (v : BitVec 8) : (h.setByte a v).late = h.late := (rfl)
@[simp] theorem Hw.setByte_fuses (a : Nat) (v : BitVec 8) : (h.setByte a v).fuses = h.fuses := (rfl)
@[simp] theorem Hw.setByte_kept (a : Nat) (v : BitVec 8) : (h.setByte a v).kept = h.kept := (rfl)
@[simp] theorem Hw.setByte_pwr (a : Nat) (v : BitVec 8) : (h.setByte a v).pwr = h.pwr := (rfl)
@[simp] theorem Hw.setByte_sys (a : Nat) (v : BitVec 8) : (h.setByte a v).sys = h.sys := (rfl)
@[simp] theorem Hw.setByte_elogQ (a : Nat) (v : BitVec 8) : (h.setByte a v).elogQ = h.elogQ := (rfl)
@[simp] theorem Hw.setByte_memu (a : Nat) (v : BitVec 8) : (h.setByte a v).memu = h.memu := (rfl)
@[simp] theorem Hw.setByte_dmaTry (a : Nat) (v : BitVec 8) : (h.setByte a v).dmaTry = h.dmaTry := (rfl)
@[simp] theorem Hw.setByte_ports (a : Nat) (v : BitVec 8) : (h.setByte a v).ports = h.ports := (rfl)
@[simp] theorem Hw.setByte_tspi (a : Nat) (v : BitVec 8) : (h.setByte a v).tspi = h.tspi := (rfl)
@[simp] theorem Hw.setByte_sspi (a : Nat) (v : BitVec 8) : (h.setByte a v).sspi = h.sspi := (rfl)
@[simp] theorem Hw.setByte_strands (a : Nat) (v : BitVec 8) : (h.setByte a v).strands = h.strands := (rfl)
@[simp] theorem Hw.setByte_fab (a : Nat) (v : BitVec 8) : (h.setByte a v).fab = h.fab := (rfl)
@[simp] theorem Hw.setByte_loop (a : Nat) (v : BitVec 8) : (h.setByte a v).loop = h.loop := (rfl)
@[simp] theorem Hw.setByte_tcnt (a : Nat) (v : BitVec 8) : (h.setByte a v).tcnt = h.tcnt := (rfl)
@[simp] theorem Hw.setByte_coil (a : Nat) (v : BitVec 8) : (h.setByte a v).coil = h.coil := (rfl)
@[simp] theorem Hw.setByte_hot (a : Nat) (v : BitVec 8) : (h.setByte a v).hot = h.hot := (rfl)
@[simp] theorem Hw.setByte_sched (a : Nat) (v : BitVec 8) : (h.setByte a v).sched = h.sched := (rfl)
@[simp] theorem Hw.setByte_hitch (a : Nat) (v : BitVec 8) : (h.setByte a v).hitch = h.hitch := (rfl)
@[simp] theorem Hw.setByte_tp (a : Nat) (v : BitVec 8) : (h.setByte a v).tp = h.tp := (rfl)
@[simp] theorem Hw.setByte_fw (a : Nat) (v : BitVec 8) : (h.setByte a v).fw = h.fw := (rfl)
@[simp] theorem Hw.setByte_win (a : Nat) (v : BitVec 8) : (h.setByte a v).win = h.win := (rfl)
@[simp] theorem Hw.setByte_serials (a : Nat) (v : BitVec 8) : (h.setByte a v).serials = h.serials := (rfl)
@[simp] theorem Hw.setByte_lyd (a : Nat) (v : BitVec 8) : (h.setByte a v).lyd = h.lyd := (rfl)
@[simp] theorem Hw.setByte_cans (a : Nat) (v : BitVec 8) : (h.setByte a v).cans = h.cans := (rfl)
@[simp] theorem Hw.setByte_radio (a : Nat) (v : BitVec 8) : (h.setByte a v).radio = h.radio := (rfl)
@[simp] theorem Hw.setByte_pkey (a : Nat) (v : BitVec 8) : (h.setByte a v).pkey = h.pkey := (rfl)
@[simp] theorem Hw.setByte_rtc (a : Nat) (v : BitVec 8) : (h.setByte a v).rtc = h.rtc := (rfl)
@[simp] theorem Hw.setByte_upd (a : Nat) (v : BitVec 8) : (h.setByte a v).upd = h.upd := (rfl)
@[simp] theorem Hw.setByte_i2c (a : Nat) (v : BitVec 8) : (h.setByte a v).i2c = h.i2c := (rfl)
@[simp] theorem Hw.setByte_bgnd (a : Nat) (v : BitVec 8) : (h.setByte a v).bgnd = h.bgnd := (rfl)
@[simp] theorem Hw.setByte_fix (a : Nat) (v : BitVec 8) : (h.setByte a v).fix = h.fix := (rfl)
@[simp] theorem Hw.setByte_reg (a : Nat) (v : BitVec 8) (q : Nat) : (h.setByte a v).reg q = h.reg q := (rfl)
@[simp] theorem Hw.setByte_rf (a : Nat) (v : BitVec 8) (q : Fld) : (h.setByte a v).rf q = h.rf q := (rfl)
@[simp] theorem Hw.setByte_on (a : Nat) (v : BitVec 8) (q : Fld) : (h.setByte a v).on q = h.on q := (rfl)
@[simp] theorem Hw.setByte_rfInt (a : Nat) (v : BitVec 8) (q : Fld) : (h.setByte a v).rfInt q = h.rfInt q := (rfl)
@[simp] theorem Hw.setByte_eccAt (a : Nat) (v : BitVec 8) (q : Nat) : (h.setByte a v).eccAt q = h.eccAt q := (rfl)
@[simp] theorem Hw.setByte_port (a : Nat) (v : BitVec 8) (q : Nat) : (h.setByte a v).port q = h.port q := (rfl)
@[simp] theorem Hw.setByte_strand (a : Nat) (v : BitVec 8) (q : Nat) : (h.setByte a v).strand q = h.strand q := (rfl)
@[simp] theorem Hw.setByte_engine (a : Nat) (v : BitVec 8) (q : Nat) : (h.setByte a v).engine q = h.engine q := (rfl)
@[simp] theorem Hw.setByte_tranche (a : Nat) (v : BitVec 8) (q : Nat) : (h.setByte a v).tranche q = h.tranche q := (rfl)
@[simp] theorem Hw.setByte_core (a : Nat) (v : BitVec 8) (q : Nat) : (h.setByte a v).core q = h.core q := (rfl)
@[simp] theorem Hw.setByte_can (a : Nat) (v : BitVec 8) (q : Nat) : (h.setByte a v).can q = h.can q := (rfl)
@[simp] theorem Hw.setByte_link (a : Nat) (v : BitVec 8) (q : Nat) : (h.setByte a v).link q = h.link q := (rfl)
@[simp] theorem Hw.setByte_serial (a : Nat) (v : BitVec 8) (q : Nat) : (h.setByte a v).serial q = h.serial q := (rfl)

/-! ### zero -/

@[simp] theorem Hw.zero_regs (a n : Nat) : (h.zero a n).regs = h.regs := (rfl)
@[simp] theorem Hw.zero_ecc (a n : Nat) : (h.zero a n).ecc = h.ecc := (rfl)
@[simp] theorem Hw.zero_free (a n : Nat) : (h.zero a n).free = h.free := (rfl)
@[simp] theorem Hw.zero_resp (a n : Nat) : (h.zero a n).resp = h.resp := (rfl)
@[simp] theorem Hw.zero_stalls (a n : Nat) : (h.zero a n).stalls = h.stalls := (rfl)
@[simp] theorem Hw.zero_late (a n : Nat) : (h.zero a n).late = h.late := (rfl)
@[simp] theorem Hw.zero_fuses (a n : Nat) : (h.zero a n).fuses = h.fuses := (rfl)
@[simp] theorem Hw.zero_kept (a n : Nat) : (h.zero a n).kept = h.kept := (rfl)
@[simp] theorem Hw.zero_pwr (a n : Nat) : (h.zero a n).pwr = h.pwr := (rfl)
@[simp] theorem Hw.zero_sys (a n : Nat) : (h.zero a n).sys = h.sys := (rfl)
@[simp] theorem Hw.zero_elogQ (a n : Nat) : (h.zero a n).elogQ = h.elogQ := (rfl)
@[simp] theorem Hw.zero_memu (a n : Nat) : (h.zero a n).memu = h.memu := (rfl)
@[simp] theorem Hw.zero_dmaTry (a n : Nat) : (h.zero a n).dmaTry = h.dmaTry := (rfl)
@[simp] theorem Hw.zero_ports (a n : Nat) : (h.zero a n).ports = h.ports := (rfl)
@[simp] theorem Hw.zero_tspi (a n : Nat) : (h.zero a n).tspi = h.tspi := (rfl)
@[simp] theorem Hw.zero_sspi (a n : Nat) : (h.zero a n).sspi = h.sspi := (rfl)
@[simp] theorem Hw.zero_strands (a n : Nat) : (h.zero a n).strands = h.strands := (rfl)
@[simp] theorem Hw.zero_fab (a n : Nat) : (h.zero a n).fab = h.fab := (rfl)
@[simp] theorem Hw.zero_loop (a n : Nat) : (h.zero a n).loop = h.loop := (rfl)
@[simp] theorem Hw.zero_tcnt (a n : Nat) : (h.zero a n).tcnt = h.tcnt := (rfl)
@[simp] theorem Hw.zero_coil (a n : Nat) : (h.zero a n).coil = h.coil := (rfl)
@[simp] theorem Hw.zero_hot (a n : Nat) : (h.zero a n).hot = h.hot := (rfl)
@[simp] theorem Hw.zero_sched (a n : Nat) : (h.zero a n).sched = h.sched := (rfl)
@[simp] theorem Hw.zero_hitch (a n : Nat) : (h.zero a n).hitch = h.hitch := (rfl)
@[simp] theorem Hw.zero_tp (a n : Nat) : (h.zero a n).tp = h.tp := (rfl)
@[simp] theorem Hw.zero_fw (a n : Nat) : (h.zero a n).fw = h.fw := (rfl)
@[simp] theorem Hw.zero_win (a n : Nat) : (h.zero a n).win = h.win := (rfl)
@[simp] theorem Hw.zero_serials (a n : Nat) : (h.zero a n).serials = h.serials := (rfl)
@[simp] theorem Hw.zero_lyd (a n : Nat) : (h.zero a n).lyd = h.lyd := (rfl)
@[simp] theorem Hw.zero_cans (a n : Nat) : (h.zero a n).cans = h.cans := (rfl)
@[simp] theorem Hw.zero_radio (a n : Nat) : (h.zero a n).radio = h.radio := (rfl)
@[simp] theorem Hw.zero_pkey (a n : Nat) : (h.zero a n).pkey = h.pkey := (rfl)
@[simp] theorem Hw.zero_rtc (a n : Nat) : (h.zero a n).rtc = h.rtc := (rfl)
@[simp] theorem Hw.zero_upd (a n : Nat) : (h.zero a n).upd = h.upd := (rfl)
@[simp] theorem Hw.zero_i2c (a n : Nat) : (h.zero a n).i2c = h.i2c := (rfl)
@[simp] theorem Hw.zero_bgnd (a n : Nat) : (h.zero a n).bgnd = h.bgnd := (rfl)
@[simp] theorem Hw.zero_fix (a n : Nat) : (h.zero a n).fix = h.fix := (rfl)
@[simp] theorem Hw.zero_reg (a n : Nat) (q : Nat) : (h.zero a n).reg q = h.reg q := (rfl)
@[simp] theorem Hw.zero_rf (a n : Nat) (q : Fld) : (h.zero a n).rf q = h.rf q := (rfl)
@[simp] theorem Hw.zero_on (a n : Nat) (q : Fld) : (h.zero a n).on q = h.on q := (rfl)
@[simp] theorem Hw.zero_rfInt (a n : Nat) (q : Fld) : (h.zero a n).rfInt q = h.rfInt q := (rfl)
@[simp] theorem Hw.zero_eccAt (a n : Nat) (q : Nat) : (h.zero a n).eccAt q = h.eccAt q := (rfl)
@[simp] theorem Hw.zero_port (a n : Nat) (q : Nat) : (h.zero a n).port q = h.port q := (rfl)
@[simp] theorem Hw.zero_strand (a n : Nat) (q : Nat) : (h.zero a n).strand q = h.strand q := (rfl)
@[simp] theorem Hw.zero_engine (a n : Nat) (q : Nat) : (h.zero a n).engine q = h.engine q := (rfl)
@[simp] theorem Hw.zero_tranche (a n : Nat) (q : Nat) : (h.zero a n).tranche q = h.tranche q := (rfl)
@[simp] theorem Hw.zero_core (a n : Nat) (q : Nat) : (h.zero a n).core q = h.core q := (rfl)
@[simp] theorem Hw.zero_can (a n : Nat) (q : Nat) : (h.zero a n).can q = h.can q := (rfl)
@[simp] theorem Hw.zero_link (a n : Nat) (q : Nat) : (h.zero a n).link q = h.link q := (rfl)
@[simp] theorem Hw.zero_serial (a n : Nat) (q : Nat) : (h.zero a n).serial q = h.serial q := (rfl)

/-! ### setEcc -/

@[simp] theorem Hw.setEcc_regs (a e : Nat) : (h.setEcc a e).regs = h.regs := (rfl)
@[simp] theorem Hw.setEcc_mem (a e : Nat) : (h.setEcc a e).mem = h.mem := (rfl)
@[simp] theorem Hw.setEcc_free (a e : Nat) : (h.setEcc a e).free = h.free := (rfl)
@[simp] theorem Hw.setEcc_resp (a e : Nat) : (h.setEcc a e).resp = h.resp := (rfl)
@[simp] theorem Hw.setEcc_stalls (a e : Nat) : (h.setEcc a e).stalls = h.stalls := (rfl)
@[simp] theorem Hw.setEcc_late (a e : Nat) : (h.setEcc a e).late = h.late := (rfl)
@[simp] theorem Hw.setEcc_fuses (a e : Nat) : (h.setEcc a e).fuses = h.fuses := (rfl)
@[simp] theorem Hw.setEcc_kept (a e : Nat) : (h.setEcc a e).kept = h.kept := (rfl)
@[simp] theorem Hw.setEcc_pwr (a e : Nat) : (h.setEcc a e).pwr = h.pwr := (rfl)
@[simp] theorem Hw.setEcc_sys (a e : Nat) : (h.setEcc a e).sys = h.sys := (rfl)
@[simp] theorem Hw.setEcc_elogQ (a e : Nat) : (h.setEcc a e).elogQ = h.elogQ := (rfl)
@[simp] theorem Hw.setEcc_memu (a e : Nat) : (h.setEcc a e).memu = h.memu := (rfl)
@[simp] theorem Hw.setEcc_dmaTry (a e : Nat) : (h.setEcc a e).dmaTry = h.dmaTry := (rfl)
@[simp] theorem Hw.setEcc_ports (a e : Nat) : (h.setEcc a e).ports = h.ports := (rfl)
@[simp] theorem Hw.setEcc_tspi (a e : Nat) : (h.setEcc a e).tspi = h.tspi := (rfl)
@[simp] theorem Hw.setEcc_sspi (a e : Nat) : (h.setEcc a e).sspi = h.sspi := (rfl)
@[simp] theorem Hw.setEcc_strands (a e : Nat) : (h.setEcc a e).strands = h.strands := (rfl)
@[simp] theorem Hw.setEcc_fab (a e : Nat) : (h.setEcc a e).fab = h.fab := (rfl)
@[simp] theorem Hw.setEcc_loop (a e : Nat) : (h.setEcc a e).loop = h.loop := (rfl)
@[simp] theorem Hw.setEcc_tcnt (a e : Nat) : (h.setEcc a e).tcnt = h.tcnt := (rfl)
@[simp] theorem Hw.setEcc_coil (a e : Nat) : (h.setEcc a e).coil = h.coil := (rfl)
@[simp] theorem Hw.setEcc_hot (a e : Nat) : (h.setEcc a e).hot = h.hot := (rfl)
@[simp] theorem Hw.setEcc_sched (a e : Nat) : (h.setEcc a e).sched = h.sched := (rfl)
@[simp] theorem Hw.setEcc_hitch (a e : Nat) : (h.setEcc a e).hitch = h.hitch := (rfl)
@[simp] theorem Hw.setEcc_tp (a e : Nat) : (h.setEcc a e).tp = h.tp := (rfl)
@[simp] theorem Hw.setEcc_fw (a e : Nat) : (h.setEcc a e).fw = h.fw := (rfl)
@[simp] theorem Hw.setEcc_win (a e : Nat) : (h.setEcc a e).win = h.win := (rfl)
@[simp] theorem Hw.setEcc_serials (a e : Nat) : (h.setEcc a e).serials = h.serials := (rfl)
@[simp] theorem Hw.setEcc_lyd (a e : Nat) : (h.setEcc a e).lyd = h.lyd := (rfl)
@[simp] theorem Hw.setEcc_cans (a e : Nat) : (h.setEcc a e).cans = h.cans := (rfl)
@[simp] theorem Hw.setEcc_radio (a e : Nat) : (h.setEcc a e).radio = h.radio := (rfl)
@[simp] theorem Hw.setEcc_pkey (a e : Nat) : (h.setEcc a e).pkey = h.pkey := (rfl)
@[simp] theorem Hw.setEcc_rtc (a e : Nat) : (h.setEcc a e).rtc = h.rtc := (rfl)
@[simp] theorem Hw.setEcc_upd (a e : Nat) : (h.setEcc a e).upd = h.upd := (rfl)
@[simp] theorem Hw.setEcc_i2c (a e : Nat) : (h.setEcc a e).i2c = h.i2c := (rfl)
@[simp] theorem Hw.setEcc_bgnd (a e : Nat) : (h.setEcc a e).bgnd = h.bgnd := (rfl)
@[simp] theorem Hw.setEcc_fix (a e : Nat) : (h.setEcc a e).fix = h.fix := (rfl)
@[simp] theorem Hw.setEcc_reg (a e : Nat) (q : Nat) : (h.setEcc a e).reg q = h.reg q := (rfl)
@[simp] theorem Hw.setEcc_rf (a e : Nat) (q : Fld) : (h.setEcc a e).rf q = h.rf q := (rfl)
@[simp] theorem Hw.setEcc_on (a e : Nat) (q : Fld) : (h.setEcc a e).on q = h.on q := (rfl)
@[simp] theorem Hw.setEcc_rfInt (a e : Nat) (q : Fld) : (h.setEcc a e).rfInt q = h.rfInt q := (rfl)
@[simp] theorem Hw.setEcc_byte (a e : Nat) (q : Nat) : (h.setEcc a e).byte q = h.byte q := (rfl)
@[simp] theorem Hw.setEcc_port (a e : Nat) (q : Nat) : (h.setEcc a e).port q = h.port q := (rfl)
@[simp] theorem Hw.setEcc_strand (a e : Nat) (q : Nat) : (h.setEcc a e).strand q = h.strand q := (rfl)
@[simp] theorem Hw.setEcc_engine (a e : Nat) (q : Nat) : (h.setEcc a e).engine q = h.engine q := (rfl)
@[simp] theorem Hw.setEcc_tranche (a e : Nat) (q : Nat) : (h.setEcc a e).tranche q = h.tranche q := (rfl)
@[simp] theorem Hw.setEcc_core (a e : Nat) (q : Nat) : (h.setEcc a e).core q = h.core q := (rfl)
@[simp] theorem Hw.setEcc_can (a e : Nat) (q : Nat) : (h.setEcc a e).can q = h.can q := (rfl)
@[simp] theorem Hw.setEcc_link (a e : Nat) (q : Nat) : (h.setEcc a e).link q = h.link q := (rfl)
@[simp] theorem Hw.setEcc_serial (a e : Nat) (q : Nat) : (h.setEcc a e).serial q = h.serial q := (rfl)

/-! ### setPort -/

@[simp] theorem Hw.setPort_regs (n : Nat) (p : Port) : (h.setPort n p).regs = h.regs := (rfl)
@[simp] theorem Hw.setPort_mem (n : Nat) (p : Port) : (h.setPort n p).mem = h.mem := (rfl)
@[simp] theorem Hw.setPort_ecc (n : Nat) (p : Port) : (h.setPort n p).ecc = h.ecc := (rfl)
@[simp] theorem Hw.setPort_free (n : Nat) (p : Port) : (h.setPort n p).free = h.free := (rfl)
@[simp] theorem Hw.setPort_resp (n : Nat) (p : Port) : (h.setPort n p).resp = h.resp := (rfl)
@[simp] theorem Hw.setPort_stalls (n : Nat) (p : Port) : (h.setPort n p).stalls = h.stalls := (rfl)
@[simp] theorem Hw.setPort_late (n : Nat) (p : Port) : (h.setPort n p).late = h.late := (rfl)
@[simp] theorem Hw.setPort_fuses (n : Nat) (p : Port) : (h.setPort n p).fuses = h.fuses := (rfl)
@[simp] theorem Hw.setPort_kept (n : Nat) (p : Port) : (h.setPort n p).kept = h.kept := (rfl)
@[simp] theorem Hw.setPort_pwr (n : Nat) (p : Port) : (h.setPort n p).pwr = h.pwr := (rfl)
@[simp] theorem Hw.setPort_sys (n : Nat) (p : Port) : (h.setPort n p).sys = h.sys := (rfl)
@[simp] theorem Hw.setPort_elogQ (n : Nat) (p : Port) : (h.setPort n p).elogQ = h.elogQ := (rfl)
@[simp] theorem Hw.setPort_memu (n : Nat) (p : Port) : (h.setPort n p).memu = h.memu := (rfl)
@[simp] theorem Hw.setPort_dmaTry (n : Nat) (p : Port) : (h.setPort n p).dmaTry = h.dmaTry := (rfl)
@[simp] theorem Hw.setPort_tspi (n : Nat) (p : Port) : (h.setPort n p).tspi = h.tspi := (rfl)
@[simp] theorem Hw.setPort_sspi (n : Nat) (p : Port) : (h.setPort n p).sspi = h.sspi := (rfl)
@[simp] theorem Hw.setPort_strands (n : Nat) (p : Port) : (h.setPort n p).strands = h.strands := (rfl)
@[simp] theorem Hw.setPort_fab (n : Nat) (p : Port) : (h.setPort n p).fab = h.fab := (rfl)
@[simp] theorem Hw.setPort_loop (n : Nat) (p : Port) : (h.setPort n p).loop = h.loop := (rfl)
@[simp] theorem Hw.setPort_tcnt (n : Nat) (p : Port) : (h.setPort n p).tcnt = h.tcnt := (rfl)
@[simp] theorem Hw.setPort_coil (n : Nat) (p : Port) : (h.setPort n p).coil = h.coil := (rfl)
@[simp] theorem Hw.setPort_hot (n : Nat) (p : Port) : (h.setPort n p).hot = h.hot := (rfl)
@[simp] theorem Hw.setPort_sched (n : Nat) (p : Port) : (h.setPort n p).sched = h.sched := (rfl)
@[simp] theorem Hw.setPort_hitch (n : Nat) (p : Port) : (h.setPort n p).hitch = h.hitch := (rfl)
@[simp] theorem Hw.setPort_tp (n : Nat) (p : Port) : (h.setPort n p).tp = h.tp := (rfl)
@[simp] theorem Hw.setPort_fw (n : Nat) (p : Port) : (h.setPort n p).fw = h.fw := (rfl)
@[simp] theorem Hw.setPort_win (n : Nat) (p : Port) : (h.setPort n p).win = h.win := (rfl)
@[simp] theorem Hw.setPort_serials (n : Nat) (p : Port) : (h.setPort n p).serials = h.serials := (rfl)
@[simp] theorem Hw.setPort_lyd (n : Nat) (p : Port) : (h.setPort n p).lyd = h.lyd := (rfl)
@[simp] theorem Hw.setPort_cans (n : Nat) (p : Port) : (h.setPort n p).cans = h.cans := (rfl)
@[simp] theorem Hw.setPort_radio (n : Nat) (p : Port) : (h.setPort n p).radio = h.radio := (rfl)
@[simp] theorem Hw.setPort_pkey (n : Nat) (p : Port) : (h.setPort n p).pkey = h.pkey := (rfl)
@[simp] theorem Hw.setPort_rtc (n : Nat) (p : Port) : (h.setPort n p).rtc = h.rtc := (rfl)
@[simp] theorem Hw.setPort_upd (n : Nat) (p : Port) : (h.setPort n p).upd = h.upd := (rfl)
@[simp] theorem Hw.setPort_i2c (n : Nat) (p : Port) : (h.setPort n p).i2c = h.i2c := (rfl)
@[simp] theorem Hw.setPort_bgnd (n : Nat) (p : Port) : (h.setPort n p).bgnd = h.bgnd := (rfl)
@[simp] theorem Hw.setPort_fix (n : Nat) (p : Port) : (h.setPort n p).fix = h.fix := (rfl)
@[simp] theorem Hw.setPort_reg (n : Nat) (p : Port) (q : Nat) : (h.setPort n p).reg q = h.reg q := (rfl)
@[simp] theorem Hw.setPort_rf (n : Nat) (p : Port) (q : Fld) : (h.setPort n p).rf q = h.rf q := (rfl)
@[simp] theorem Hw.setPort_on (n : Nat) (p : Port) (q : Fld) : (h.setPort n p).on q = h.on q := (rfl)
@[simp] theorem Hw.setPort_rfInt (n : Nat) (p : Port) (q : Fld) : (h.setPort n p).rfInt q = h.rfInt q := (rfl)
@[simp] theorem Hw.setPort_byte (n : Nat) (p : Port) (q : Nat) : (h.setPort n p).byte q = h.byte q := (rfl)
@[simp] theorem Hw.setPort_eccAt (n : Nat) (p : Port) (q : Nat) : (h.setPort n p).eccAt q = h.eccAt q := (rfl)
@[simp] theorem Hw.setPort_strand (n : Nat) (p : Port) (q : Nat) : (h.setPort n p).strand q = h.strand q := (rfl)
@[simp] theorem Hw.setPort_engine (n : Nat) (p : Port) (q : Nat) : (h.setPort n p).engine q = h.engine q := (rfl)
@[simp] theorem Hw.setPort_tranche (n : Nat) (p : Port) (q : Nat) : (h.setPort n p).tranche q = h.tranche q := (rfl)
@[simp] theorem Hw.setPort_core (n : Nat) (p : Port) (q : Nat) : (h.setPort n p).core q = h.core q := (rfl)
@[simp] theorem Hw.setPort_can (n : Nat) (p : Port) (q : Nat) : (h.setPort n p).can q = h.can q := (rfl)
@[simp] theorem Hw.setPort_link (n : Nat) (p : Port) (q : Nat) : (h.setPort n p).link q = h.link q := (rfl)
@[simp] theorem Hw.setPort_serial (n : Nat) (p : Port) (q : Nat) : (h.setPort n p).serial q = h.serial q := (rfl)

/-! ### setStrand -/

@[simp] theorem Hw.setStrand_regs (s : Nat) (t : Strand) : (h.setStrand s t).regs = h.regs := (rfl)
@[simp] theorem Hw.setStrand_mem (s : Nat) (t : Strand) : (h.setStrand s t).mem = h.mem := (rfl)
@[simp] theorem Hw.setStrand_ecc (s : Nat) (t : Strand) : (h.setStrand s t).ecc = h.ecc := (rfl)
@[simp] theorem Hw.setStrand_free (s : Nat) (t : Strand) : (h.setStrand s t).free = h.free := (rfl)
@[simp] theorem Hw.setStrand_resp (s : Nat) (t : Strand) : (h.setStrand s t).resp = h.resp := (rfl)
@[simp] theorem Hw.setStrand_stalls (s : Nat) (t : Strand) : (h.setStrand s t).stalls = h.stalls := (rfl)
@[simp] theorem Hw.setStrand_late (s : Nat) (t : Strand) : (h.setStrand s t).late = h.late := (rfl)
@[simp] theorem Hw.setStrand_fuses (s : Nat) (t : Strand) : (h.setStrand s t).fuses = h.fuses := (rfl)
@[simp] theorem Hw.setStrand_kept (s : Nat) (t : Strand) : (h.setStrand s t).kept = h.kept := (rfl)
@[simp] theorem Hw.setStrand_pwr (s : Nat) (t : Strand) : (h.setStrand s t).pwr = h.pwr := (rfl)
@[simp] theorem Hw.setStrand_sys (s : Nat) (t : Strand) : (h.setStrand s t).sys = h.sys := (rfl)
@[simp] theorem Hw.setStrand_elogQ (s : Nat) (t : Strand) : (h.setStrand s t).elogQ = h.elogQ := (rfl)
@[simp] theorem Hw.setStrand_memu (s : Nat) (t : Strand) : (h.setStrand s t).memu = h.memu := (rfl)
@[simp] theorem Hw.setStrand_dmaTry (s : Nat) (t : Strand) : (h.setStrand s t).dmaTry = h.dmaTry := (rfl)
@[simp] theorem Hw.setStrand_ports (s : Nat) (t : Strand) : (h.setStrand s t).ports = h.ports := (rfl)
@[simp] theorem Hw.setStrand_tspi (s : Nat) (t : Strand) : (h.setStrand s t).tspi = h.tspi := (rfl)
@[simp] theorem Hw.setStrand_sspi (s : Nat) (t : Strand) : (h.setStrand s t).sspi = h.sspi := (rfl)
@[simp] theorem Hw.setStrand_fab (s : Nat) (t : Strand) : (h.setStrand s t).fab = h.fab := (rfl)
@[simp] theorem Hw.setStrand_loop (s : Nat) (t : Strand) : (h.setStrand s t).loop = h.loop := (rfl)
@[simp] theorem Hw.setStrand_tcnt (s : Nat) (t : Strand) : (h.setStrand s t).tcnt = h.tcnt := (rfl)
@[simp] theorem Hw.setStrand_coil (s : Nat) (t : Strand) : (h.setStrand s t).coil = h.coil := (rfl)
@[simp] theorem Hw.setStrand_hot (s : Nat) (t : Strand) : (h.setStrand s t).hot = h.hot := (rfl)
@[simp] theorem Hw.setStrand_sched (s : Nat) (t : Strand) : (h.setStrand s t).sched = h.sched := (rfl)
@[simp] theorem Hw.setStrand_hitch (s : Nat) (t : Strand) : (h.setStrand s t).hitch = h.hitch := (rfl)
@[simp] theorem Hw.setStrand_tp (s : Nat) (t : Strand) : (h.setStrand s t).tp = h.tp := (rfl)
@[simp] theorem Hw.setStrand_fw (s : Nat) (t : Strand) : (h.setStrand s t).fw = h.fw := (rfl)
@[simp] theorem Hw.setStrand_win (s : Nat) (t : Strand) : (h.setStrand s t).win = h.win := (rfl)
@[simp] theorem Hw.setStrand_serials (s : Nat) (t : Strand) : (h.setStrand s t).serials = h.serials := (rfl)
@[simp] theorem Hw.setStrand_lyd (s : Nat) (t : Strand) : (h.setStrand s t).lyd = h.lyd := (rfl)
@[simp] theorem Hw.setStrand_cans (s : Nat) (t : Strand) : (h.setStrand s t).cans = h.cans := (rfl)
@[simp] theorem Hw.setStrand_radio (s : Nat) (t : Strand) : (h.setStrand s t).radio = h.radio := (rfl)
@[simp] theorem Hw.setStrand_pkey (s : Nat) (t : Strand) : (h.setStrand s t).pkey = h.pkey := (rfl)
@[simp] theorem Hw.setStrand_rtc (s : Nat) (t : Strand) : (h.setStrand s t).rtc = h.rtc := (rfl)
@[simp] theorem Hw.setStrand_upd (s : Nat) (t : Strand) : (h.setStrand s t).upd = h.upd := (rfl)
@[simp] theorem Hw.setStrand_i2c (s : Nat) (t : Strand) : (h.setStrand s t).i2c = h.i2c := (rfl)
@[simp] theorem Hw.setStrand_bgnd (s : Nat) (t : Strand) : (h.setStrand s t).bgnd = h.bgnd := (rfl)
@[simp] theorem Hw.setStrand_fix (s : Nat) (t : Strand) : (h.setStrand s t).fix = h.fix := (rfl)
@[simp] theorem Hw.setStrand_reg (s : Nat) (t : Strand) (q : Nat) : (h.setStrand s t).reg q = h.reg q := (rfl)
@[simp] theorem Hw.setStrand_rf (s : Nat) (t : Strand) (q : Fld) : (h.setStrand s t).rf q = h.rf q := (rfl)
@[simp] theorem Hw.setStrand_on (s : Nat) (t : Strand) (q : Fld) : (h.setStrand s t).on q = h.on q := (rfl)
@[simp] theorem Hw.setStrand_rfInt (s : Nat) (t : Strand) (q : Fld) : (h.setStrand s t).rfInt q = h.rfInt q := (rfl)
@[simp] theorem Hw.setStrand_byte (s : Nat) (t : Strand) (q : Nat) : (h.setStrand s t).byte q = h.byte q := (rfl)
@[simp] theorem Hw.setStrand_eccAt (s : Nat) (t : Strand) (q : Nat) : (h.setStrand s t).eccAt q = h.eccAt q := (rfl)
@[simp] theorem Hw.setStrand_port (s : Nat) (t : Strand) (q : Nat) : (h.setStrand s t).port q = h.port q := (rfl)
@[simp] theorem Hw.setStrand_engine (s : Nat) (t : Strand) (q : Nat) : (h.setStrand s t).engine q = h.engine q := (rfl)
@[simp] theorem Hw.setStrand_tranche (s : Nat) (t : Strand) (q : Nat) : (h.setStrand s t).tranche q = h.tranche q := (rfl)
@[simp] theorem Hw.setStrand_core (s : Nat) (t : Strand) (q : Nat) : (h.setStrand s t).core q = h.core q := (rfl)
@[simp] theorem Hw.setStrand_can (s : Nat) (t : Strand) (q : Nat) : (h.setStrand s t).can q = h.can q := (rfl)
@[simp] theorem Hw.setStrand_link (s : Nat) (t : Strand) (q : Nat) : (h.setStrand s t).link q = h.link q := (rfl)
@[simp] theorem Hw.setStrand_serial (s : Nat) (t : Strand) (q : Nat) : (h.setStrand s t).serial q = h.serial q := (rfl)

/-! ### setEngine -/

@[simp] theorem Hw.setEngine_regs (e : Nat) (g : Engine) : (h.setEngine e g).regs = h.regs := (rfl)
@[simp] theorem Hw.setEngine_mem (e : Nat) (g : Engine) : (h.setEngine e g).mem = h.mem := (rfl)
@[simp] theorem Hw.setEngine_ecc (e : Nat) (g : Engine) : (h.setEngine e g).ecc = h.ecc := (rfl)
@[simp] theorem Hw.setEngine_free (e : Nat) (g : Engine) : (h.setEngine e g).free = h.free := (rfl)
@[simp] theorem Hw.setEngine_resp (e : Nat) (g : Engine) : (h.setEngine e g).resp = h.resp := (rfl)
@[simp] theorem Hw.setEngine_stalls (e : Nat) (g : Engine) : (h.setEngine e g).stalls = h.stalls := (rfl)
@[simp] theorem Hw.setEngine_late (e : Nat) (g : Engine) : (h.setEngine e g).late = h.late := (rfl)
@[simp] theorem Hw.setEngine_fuses (e : Nat) (g : Engine) : (h.setEngine e g).fuses = h.fuses := (rfl)
@[simp] theorem Hw.setEngine_kept (e : Nat) (g : Engine) : (h.setEngine e g).kept = h.kept := (rfl)
@[simp] theorem Hw.setEngine_pwr (e : Nat) (g : Engine) : (h.setEngine e g).pwr = h.pwr := (rfl)
@[simp] theorem Hw.setEngine_sys (e : Nat) (g : Engine) : (h.setEngine e g).sys = h.sys := (rfl)
@[simp] theorem Hw.setEngine_elogQ (e : Nat) (g : Engine) : (h.setEngine e g).elogQ = h.elogQ := (rfl)
@[simp] theorem Hw.setEngine_memu (e : Nat) (g : Engine) : (h.setEngine e g).memu = h.memu := (rfl)
@[simp] theorem Hw.setEngine_dmaTry (e : Nat) (g : Engine) : (h.setEngine e g).dmaTry = h.dmaTry := (rfl)
@[simp] theorem Hw.setEngine_ports (e : Nat) (g : Engine) : (h.setEngine e g).ports = h.ports := (rfl)
@[simp] theorem Hw.setEngine_tspi (e : Nat) (g : Engine) : (h.setEngine e g).tspi = h.tspi := (rfl)
@[simp] theorem Hw.setEngine_sspi (e : Nat) (g : Engine) : (h.setEngine e g).sspi = h.sspi := (rfl)
@[simp] theorem Hw.setEngine_strands (e : Nat) (g : Engine) : (h.setEngine e g).strands = h.strands := (rfl)
@[simp] theorem Hw.setEngine_loop (e : Nat) (g : Engine) : (h.setEngine e g).loop = h.loop := (rfl)
@[simp] theorem Hw.setEngine_tcnt (e : Nat) (g : Engine) : (h.setEngine e g).tcnt = h.tcnt := (rfl)
@[simp] theorem Hw.setEngine_coil (e : Nat) (g : Engine) : (h.setEngine e g).coil = h.coil := (rfl)
@[simp] theorem Hw.setEngine_hot (e : Nat) (g : Engine) : (h.setEngine e g).hot = h.hot := (rfl)
@[simp] theorem Hw.setEngine_sched (e : Nat) (g : Engine) : (h.setEngine e g).sched = h.sched := (rfl)
@[simp] theorem Hw.setEngine_hitch (e : Nat) (g : Engine) : (h.setEngine e g).hitch = h.hitch := (rfl)
@[simp] theorem Hw.setEngine_tp (e : Nat) (g : Engine) : (h.setEngine e g).tp = h.tp := (rfl)
@[simp] theorem Hw.setEngine_fw (e : Nat) (g : Engine) : (h.setEngine e g).fw = h.fw := (rfl)
@[simp] theorem Hw.setEngine_win (e : Nat) (g : Engine) : (h.setEngine e g).win = h.win := (rfl)
@[simp] theorem Hw.setEngine_serials (e : Nat) (g : Engine) : (h.setEngine e g).serials = h.serials := (rfl)
@[simp] theorem Hw.setEngine_lyd (e : Nat) (g : Engine) : (h.setEngine e g).lyd = h.lyd := (rfl)
@[simp] theorem Hw.setEngine_cans (e : Nat) (g : Engine) : (h.setEngine e g).cans = h.cans := (rfl)
@[simp] theorem Hw.setEngine_radio (e : Nat) (g : Engine) : (h.setEngine e g).radio = h.radio := (rfl)
@[simp] theorem Hw.setEngine_pkey (e : Nat) (g : Engine) : (h.setEngine e g).pkey = h.pkey := (rfl)
@[simp] theorem Hw.setEngine_rtc (e : Nat) (g : Engine) : (h.setEngine e g).rtc = h.rtc := (rfl)
@[simp] theorem Hw.setEngine_upd (e : Nat) (g : Engine) : (h.setEngine e g).upd = h.upd := (rfl)
@[simp] theorem Hw.setEngine_i2c (e : Nat) (g : Engine) : (h.setEngine e g).i2c = h.i2c := (rfl)
@[simp] theorem Hw.setEngine_bgnd (e : Nat) (g : Engine) : (h.setEngine e g).bgnd = h.bgnd := (rfl)
@[simp] theorem Hw.setEngine_fix (e : Nat) (g : Engine) : (h.setEngine e g).fix = h.fix := (rfl)
@[simp] theorem Hw.setEngine_reg (e : Nat) (g : Engine) (q : Nat) : (h.setEngine e g).reg q = h.reg q := (rfl)
@[simp] theorem Hw.setEngine_rf (e : Nat) (g : Engine) (q : Fld) : (h.setEngine e g).rf q = h.rf q := (rfl)
@[simp] theorem Hw.setEngine_on (e : Nat) (g : Engine) (q : Fld) : (h.setEngine e g).on q = h.on q := (rfl)
@[simp] theorem Hw.setEngine_rfInt (e : Nat) (g : Engine) (q : Fld) : (h.setEngine e g).rfInt q = h.rfInt q := (rfl)
@[simp] theorem Hw.setEngine_byte (e : Nat) (g : Engine) (q : Nat) : (h.setEngine e g).byte q = h.byte q := (rfl)
@[simp] theorem Hw.setEngine_eccAt (e : Nat) (g : Engine) (q : Nat) : (h.setEngine e g).eccAt q = h.eccAt q := (rfl)
@[simp] theorem Hw.setEngine_port (e : Nat) (g : Engine) (q : Nat) : (h.setEngine e g).port q = h.port q := (rfl)
@[simp] theorem Hw.setEngine_strand (e : Nat) (g : Engine) (q : Nat) : (h.setEngine e g).strand q = h.strand q := (rfl)
@[simp] theorem Hw.setEngine_core (e : Nat) (g : Engine) (q : Nat) : (h.setEngine e g).core q = h.core q := (rfl)
@[simp] theorem Hw.setEngine_can (e : Nat) (g : Engine) (q : Nat) : (h.setEngine e g).can q = h.can q := (rfl)
@[simp] theorem Hw.setEngine_link (e : Nat) (g : Engine) (q : Nat) : (h.setEngine e g).link q = h.link q := (rfl)
@[simp] theorem Hw.setEngine_serial (e : Nat) (g : Engine) (q : Nat) : (h.setEngine e g).serial q = h.serial q := (rfl)

/-! ### setTranche -/

@[simp] theorem Hw.setTranche_regs (i : Nat) (t : Option Tranche) : (h.setTranche i t).regs = h.regs := (rfl)
@[simp] theorem Hw.setTranche_mem (i : Nat) (t : Option Tranche) : (h.setTranche i t).mem = h.mem := (rfl)
@[simp] theorem Hw.setTranche_ecc (i : Nat) (t : Option Tranche) : (h.setTranche i t).ecc = h.ecc := (rfl)
@[simp] theorem Hw.setTranche_free (i : Nat) (t : Option Tranche) : (h.setTranche i t).free = h.free := (rfl)
@[simp] theorem Hw.setTranche_resp (i : Nat) (t : Option Tranche) : (h.setTranche i t).resp = h.resp := (rfl)
@[simp] theorem Hw.setTranche_stalls (i : Nat) (t : Option Tranche) : (h.setTranche i t).stalls = h.stalls := (rfl)
@[simp] theorem Hw.setTranche_late (i : Nat) (t : Option Tranche) : (h.setTranche i t).late = h.late := (rfl)
@[simp] theorem Hw.setTranche_fuses (i : Nat) (t : Option Tranche) : (h.setTranche i t).fuses = h.fuses := (rfl)
@[simp] theorem Hw.setTranche_kept (i : Nat) (t : Option Tranche) : (h.setTranche i t).kept = h.kept := (rfl)
@[simp] theorem Hw.setTranche_pwr (i : Nat) (t : Option Tranche) : (h.setTranche i t).pwr = h.pwr := (rfl)
@[simp] theorem Hw.setTranche_sys (i : Nat) (t : Option Tranche) : (h.setTranche i t).sys = h.sys := (rfl)
@[simp] theorem Hw.setTranche_elogQ (i : Nat) (t : Option Tranche) : (h.setTranche i t).elogQ = h.elogQ := (rfl)
@[simp] theorem Hw.setTranche_memu (i : Nat) (t : Option Tranche) : (h.setTranche i t).memu = h.memu := (rfl)
@[simp] theorem Hw.setTranche_dmaTry (i : Nat) (t : Option Tranche) : (h.setTranche i t).dmaTry = h.dmaTry := (rfl)
@[simp] theorem Hw.setTranche_ports (i : Nat) (t : Option Tranche) : (h.setTranche i t).ports = h.ports := (rfl)
@[simp] theorem Hw.setTranche_tspi (i : Nat) (t : Option Tranche) : (h.setTranche i t).tspi = h.tspi := (rfl)
@[simp] theorem Hw.setTranche_sspi (i : Nat) (t : Option Tranche) : (h.setTranche i t).sspi = h.sspi := (rfl)
@[simp] theorem Hw.setTranche_strands (i : Nat) (t : Option Tranche) : (h.setTranche i t).strands = h.strands := (rfl)
@[simp] theorem Hw.setTranche_loop (i : Nat) (t : Option Tranche) : (h.setTranche i t).loop = h.loop := (rfl)
@[simp] theorem Hw.setTranche_tcnt (i : Nat) (t : Option Tranche) : (h.setTranche i t).tcnt = h.tcnt := (rfl)
@[simp] theorem Hw.setTranche_coil (i : Nat) (t : Option Tranche) : (h.setTranche i t).coil = h.coil := (rfl)
@[simp] theorem Hw.setTranche_hot (i : Nat) (t : Option Tranche) : (h.setTranche i t).hot = h.hot := (rfl)
@[simp] theorem Hw.setTranche_sched (i : Nat) (t : Option Tranche) : (h.setTranche i t).sched = h.sched := (rfl)
@[simp] theorem Hw.setTranche_hitch (i : Nat) (t : Option Tranche) : (h.setTranche i t).hitch = h.hitch := (rfl)
@[simp] theorem Hw.setTranche_tp (i : Nat) (t : Option Tranche) : (h.setTranche i t).tp = h.tp := (rfl)
@[simp] theorem Hw.setTranche_fw (i : Nat) (t : Option Tranche) : (h.setTranche i t).fw = h.fw := (rfl)
@[simp] theorem Hw.setTranche_win (i : Nat) (t : Option Tranche) : (h.setTranche i t).win = h.win := (rfl)
@[simp] theorem Hw.setTranche_serials (i : Nat) (t : Option Tranche) : (h.setTranche i t).serials = h.serials := (rfl)
@[simp] theorem Hw.setTranche_lyd (i : Nat) (t : Option Tranche) : (h.setTranche i t).lyd = h.lyd := (rfl)
@[simp] theorem Hw.setTranche_cans (i : Nat) (t : Option Tranche) : (h.setTranche i t).cans = h.cans := (rfl)
@[simp] theorem Hw.setTranche_radio (i : Nat) (t : Option Tranche) : (h.setTranche i t).radio = h.radio := (rfl)
@[simp] theorem Hw.setTranche_pkey (i : Nat) (t : Option Tranche) : (h.setTranche i t).pkey = h.pkey := (rfl)
@[simp] theorem Hw.setTranche_rtc (i : Nat) (t : Option Tranche) : (h.setTranche i t).rtc = h.rtc := (rfl)
@[simp] theorem Hw.setTranche_upd (i : Nat) (t : Option Tranche) : (h.setTranche i t).upd = h.upd := (rfl)
@[simp] theorem Hw.setTranche_i2c (i : Nat) (t : Option Tranche) : (h.setTranche i t).i2c = h.i2c := (rfl)
@[simp] theorem Hw.setTranche_bgnd (i : Nat) (t : Option Tranche) : (h.setTranche i t).bgnd = h.bgnd := (rfl)
@[simp] theorem Hw.setTranche_fix (i : Nat) (t : Option Tranche) : (h.setTranche i t).fix = h.fix := (rfl)
@[simp] theorem Hw.setTranche_reg (i : Nat) (t : Option Tranche) (q : Nat) : (h.setTranche i t).reg q = h.reg q := (rfl)
@[simp] theorem Hw.setTranche_rf (i : Nat) (t : Option Tranche) (q : Fld) : (h.setTranche i t).rf q = h.rf q := (rfl)
@[simp] theorem Hw.setTranche_on (i : Nat) (t : Option Tranche) (q : Fld) : (h.setTranche i t).on q = h.on q := (rfl)
@[simp] theorem Hw.setTranche_rfInt (i : Nat) (t : Option Tranche) (q : Fld) : (h.setTranche i t).rfInt q = h.rfInt q := (rfl)
@[simp] theorem Hw.setTranche_byte (i : Nat) (t : Option Tranche) (q : Nat) : (h.setTranche i t).byte q = h.byte q := (rfl)
@[simp] theorem Hw.setTranche_eccAt (i : Nat) (t : Option Tranche) (q : Nat) : (h.setTranche i t).eccAt q = h.eccAt q := (rfl)
@[simp] theorem Hw.setTranche_port (i : Nat) (t : Option Tranche) (q : Nat) : (h.setTranche i t).port q = h.port q := (rfl)
@[simp] theorem Hw.setTranche_strand (i : Nat) (t : Option Tranche) (q : Nat) : (h.setTranche i t).strand q = h.strand q := (rfl)
@[simp] theorem Hw.setTranche_core (i : Nat) (t : Option Tranche) (q : Nat) : (h.setTranche i t).core q = h.core q := (rfl)
@[simp] theorem Hw.setTranche_can (i : Nat) (t : Option Tranche) (q : Nat) : (h.setTranche i t).can q = h.can q := (rfl)
@[simp] theorem Hw.setTranche_link (i : Nat) (t : Option Tranche) (q : Nat) : (h.setTranche i t).link q = h.link q := (rfl)
@[simp] theorem Hw.setTranche_serial (i : Nat) (t : Option Tranche) (q : Nat) : (h.setTranche i t).serial q = h.serial q := (rfl)

/-! ### setCore -/

@[simp] theorem Hw.setCore_regs (c : Nat) (k : Core) : (h.setCore c k).regs = h.regs := (rfl)
@[simp] theorem Hw.setCore_mem (c : Nat) (k : Core) : (h.setCore c k).mem = h.mem := (rfl)
@[simp] theorem Hw.setCore_ecc (c : Nat) (k : Core) : (h.setCore c k).ecc = h.ecc := (rfl)
@[simp] theorem Hw.setCore_free (c : Nat) (k : Core) : (h.setCore c k).free = h.free := (rfl)
@[simp] theorem Hw.setCore_resp (c : Nat) (k : Core) : (h.setCore c k).resp = h.resp := (rfl)
@[simp] theorem Hw.setCore_stalls (c : Nat) (k : Core) : (h.setCore c k).stalls = h.stalls := (rfl)
@[simp] theorem Hw.setCore_late (c : Nat) (k : Core) : (h.setCore c k).late = h.late := (rfl)
@[simp] theorem Hw.setCore_fuses (c : Nat) (k : Core) : (h.setCore c k).fuses = h.fuses := (rfl)
@[simp] theorem Hw.setCore_kept (c : Nat) (k : Core) : (h.setCore c k).kept = h.kept := (rfl)
@[simp] theorem Hw.setCore_pwr (c : Nat) (k : Core) : (h.setCore c k).pwr = h.pwr := (rfl)
@[simp] theorem Hw.setCore_sys (c : Nat) (k : Core) : (h.setCore c k).sys = h.sys := (rfl)
@[simp] theorem Hw.setCore_elogQ (c : Nat) (k : Core) : (h.setCore c k).elogQ = h.elogQ := (rfl)
@[simp] theorem Hw.setCore_memu (c : Nat) (k : Core) : (h.setCore c k).memu = h.memu := (rfl)
@[simp] theorem Hw.setCore_dmaTry (c : Nat) (k : Core) : (h.setCore c k).dmaTry = h.dmaTry := (rfl)
@[simp] theorem Hw.setCore_ports (c : Nat) (k : Core) : (h.setCore c k).ports = h.ports := (rfl)
@[simp] theorem Hw.setCore_tspi (c : Nat) (k : Core) : (h.setCore c k).tspi = h.tspi := (rfl)
@[simp] theorem Hw.setCore_sspi (c : Nat) (k : Core) : (h.setCore c k).sspi = h.sspi := (rfl)
@[simp] theorem Hw.setCore_strands (c : Nat) (k : Core) : (h.setCore c k).strands = h.strands := (rfl)
@[simp] theorem Hw.setCore_fab (c : Nat) (k : Core) : (h.setCore c k).fab = h.fab := (rfl)
@[simp] theorem Hw.setCore_tcnt (c : Nat) (k : Core) : (h.setCore c k).tcnt = h.tcnt := (rfl)
@[simp] theorem Hw.setCore_coil (c : Nat) (k : Core) : (h.setCore c k).coil = h.coil := (rfl)
@[simp] theorem Hw.setCore_hot (c : Nat) (k : Core) : (h.setCore c k).hot = h.hot := (rfl)
@[simp] theorem Hw.setCore_sched (c : Nat) (k : Core) : (h.setCore c k).sched = h.sched := (rfl)
@[simp] theorem Hw.setCore_hitch (c : Nat) (k : Core) : (h.setCore c k).hitch = h.hitch := (rfl)
@[simp] theorem Hw.setCore_tp (c : Nat) (k : Core) : (h.setCore c k).tp = h.tp := (rfl)
@[simp] theorem Hw.setCore_fw (c : Nat) (k : Core) : (h.setCore c k).fw = h.fw := (rfl)
@[simp] theorem Hw.setCore_win (c : Nat) (k : Core) : (h.setCore c k).win = h.win := (rfl)
@[simp] theorem Hw.setCore_serials (c : Nat) (k : Core) : (h.setCore c k).serials = h.serials := (rfl)
@[simp] theorem Hw.setCore_lyd (c : Nat) (k : Core) : (h.setCore c k).lyd = h.lyd := (rfl)
@[simp] theorem Hw.setCore_cans (c : Nat) (k : Core) : (h.setCore c k).cans = h.cans := (rfl)
@[simp] theorem Hw.setCore_radio (c : Nat) (k : Core) : (h.setCore c k).radio = h.radio := (rfl)
@[simp] theorem Hw.setCore_pkey (c : Nat) (k : Core) : (h.setCore c k).pkey = h.pkey := (rfl)
@[simp] theorem Hw.setCore_rtc (c : Nat) (k : Core) : (h.setCore c k).rtc = h.rtc := (rfl)
@[simp] theorem Hw.setCore_upd (c : Nat) (k : Core) : (h.setCore c k).upd = h.upd := (rfl)
@[simp] theorem Hw.setCore_i2c (c : Nat) (k : Core) : (h.setCore c k).i2c = h.i2c := (rfl)
@[simp] theorem Hw.setCore_bgnd (c : Nat) (k : Core) : (h.setCore c k).bgnd = h.bgnd := (rfl)
@[simp] theorem Hw.setCore_fix (c : Nat) (k : Core) : (h.setCore c k).fix = h.fix := (rfl)
@[simp] theorem Hw.setCore_reg (c : Nat) (k : Core) (q : Nat) : (h.setCore c k).reg q = h.reg q := (rfl)
@[simp] theorem Hw.setCore_rf (c : Nat) (k : Core) (q : Fld) : (h.setCore c k).rf q = h.rf q := (rfl)
@[simp] theorem Hw.setCore_on (c : Nat) (k : Core) (q : Fld) : (h.setCore c k).on q = h.on q := (rfl)
@[simp] theorem Hw.setCore_rfInt (c : Nat) (k : Core) (q : Fld) : (h.setCore c k).rfInt q = h.rfInt q := (rfl)
@[simp] theorem Hw.setCore_byte (c : Nat) (k : Core) (q : Nat) : (h.setCore c k).byte q = h.byte q := (rfl)
@[simp] theorem Hw.setCore_eccAt (c : Nat) (k : Core) (q : Nat) : (h.setCore c k).eccAt q = h.eccAt q := (rfl)
@[simp] theorem Hw.setCore_port (c : Nat) (k : Core) (q : Nat) : (h.setCore c k).port q = h.port q := (rfl)
@[simp] theorem Hw.setCore_strand (c : Nat) (k : Core) (q : Nat) : (h.setCore c k).strand q = h.strand q := (rfl)
@[simp] theorem Hw.setCore_engine (c : Nat) (k : Core) (q : Nat) : (h.setCore c k).engine q = h.engine q := (rfl)
@[simp] theorem Hw.setCore_tranche (c : Nat) (k : Core) (q : Nat) : (h.setCore c k).tranche q = h.tranche q := (rfl)
@[simp] theorem Hw.setCore_can (c : Nat) (k : Core) (q : Nat) : (h.setCore c k).can q = h.can q := (rfl)
@[simp] theorem Hw.setCore_link (c : Nat) (k : Core) (q : Nat) : (h.setCore c k).link q = h.link q := (rfl)
@[simp] theorem Hw.setCore_serial (c : Nat) (k : Core) (q : Nat) : (h.setCore c k).serial q = h.serial q := (rfl)

/-! ### setSerial -/

@[simp] theorem Hw.setSerial_regs (n : Nat) (s : Serial) : (h.setSerial n s).regs = h.regs := (rfl)
@[simp] theorem Hw.setSerial_mem (n : Nat) (s : Serial) : (h.setSerial n s).mem = h.mem := (rfl)
@[simp] theorem Hw.setSerial_ecc (n : Nat) (s : Serial) : (h.setSerial n s).ecc = h.ecc := (rfl)
@[simp] theorem Hw.setSerial_free (n : Nat) (s : Serial) : (h.setSerial n s).free = h.free := (rfl)
@[simp] theorem Hw.setSerial_resp (n : Nat) (s : Serial) : (h.setSerial n s).resp = h.resp := (rfl)
@[simp] theorem Hw.setSerial_stalls (n : Nat) (s : Serial) : (h.setSerial n s).stalls = h.stalls := (rfl)
@[simp] theorem Hw.setSerial_late (n : Nat) (s : Serial) : (h.setSerial n s).late = h.late := (rfl)
@[simp] theorem Hw.setSerial_fuses (n : Nat) (s : Serial) : (h.setSerial n s).fuses = h.fuses := (rfl)
@[simp] theorem Hw.setSerial_kept (n : Nat) (s : Serial) : (h.setSerial n s).kept = h.kept := (rfl)
@[simp] theorem Hw.setSerial_pwr (n : Nat) (s : Serial) : (h.setSerial n s).pwr = h.pwr := (rfl)
@[simp] theorem Hw.setSerial_sys (n : Nat) (s : Serial) : (h.setSerial n s).sys = h.sys := (rfl)
@[simp] theorem Hw.setSerial_elogQ (n : Nat) (s : Serial) : (h.setSerial n s).elogQ = h.elogQ := (rfl)
@[simp] theorem Hw.setSerial_memu (n : Nat) (s : Serial) : (h.setSerial n s).memu = h.memu := (rfl)
@[simp] theorem Hw.setSerial_dmaTry (n : Nat) (s : Serial) : (h.setSerial n s).dmaTry = h.dmaTry := (rfl)
@[simp] theorem Hw.setSerial_ports (n : Nat) (s : Serial) : (h.setSerial n s).ports = h.ports := (rfl)
@[simp] theorem Hw.setSerial_tspi (n : Nat) (s : Serial) : (h.setSerial n s).tspi = h.tspi := (rfl)
@[simp] theorem Hw.setSerial_sspi (n : Nat) (s : Serial) : (h.setSerial n s).sspi = h.sspi := (rfl)
@[simp] theorem Hw.setSerial_strands (n : Nat) (s : Serial) : (h.setSerial n s).strands = h.strands := (rfl)
@[simp] theorem Hw.setSerial_fab (n : Nat) (s : Serial) : (h.setSerial n s).fab = h.fab := (rfl)
@[simp] theorem Hw.setSerial_loop (n : Nat) (s : Serial) : (h.setSerial n s).loop = h.loop := (rfl)
@[simp] theorem Hw.setSerial_tcnt (n : Nat) (s : Serial) : (h.setSerial n s).tcnt = h.tcnt := (rfl)
@[simp] theorem Hw.setSerial_coil (n : Nat) (s : Serial) : (h.setSerial n s).coil = h.coil := (rfl)
@[simp] theorem Hw.setSerial_hot (n : Nat) (s : Serial) : (h.setSerial n s).hot = h.hot := (rfl)
@[simp] theorem Hw.setSerial_sched (n : Nat) (s : Serial) : (h.setSerial n s).sched = h.sched := (rfl)
@[simp] theorem Hw.setSerial_hitch (n : Nat) (s : Serial) : (h.setSerial n s).hitch = h.hitch := (rfl)
@[simp] theorem Hw.setSerial_tp (n : Nat) (s : Serial) : (h.setSerial n s).tp = h.tp := (rfl)
@[simp] theorem Hw.setSerial_fw (n : Nat) (s : Serial) : (h.setSerial n s).fw = h.fw := (rfl)
@[simp] theorem Hw.setSerial_win (n : Nat) (s : Serial) : (h.setSerial n s).win = h.win := (rfl)
@[simp] theorem Hw.setSerial_lyd (n : Nat) (s : Serial) : (h.setSerial n s).lyd = h.lyd := (rfl)
@[simp] theorem Hw.setSerial_cans (n : Nat) (s : Serial) : (h.setSerial n s).cans = h.cans := (rfl)
@[simp] theorem Hw.setSerial_radio (n : Nat) (s : Serial) : (h.setSerial n s).radio = h.radio := (rfl)
@[simp] theorem Hw.setSerial_pkey (n : Nat) (s : Serial) : (h.setSerial n s).pkey = h.pkey := (rfl)
@[simp] theorem Hw.setSerial_rtc (n : Nat) (s : Serial) : (h.setSerial n s).rtc = h.rtc := (rfl)
@[simp] theorem Hw.setSerial_upd (n : Nat) (s : Serial) : (h.setSerial n s).upd = h.upd := (rfl)
@[simp] theorem Hw.setSerial_i2c (n : Nat) (s : Serial) : (h.setSerial n s).i2c = h.i2c := (rfl)
@[simp] theorem Hw.setSerial_bgnd (n : Nat) (s : Serial) : (h.setSerial n s).bgnd = h.bgnd := (rfl)
@[simp] theorem Hw.setSerial_fix (n : Nat) (s : Serial) : (h.setSerial n s).fix = h.fix := (rfl)
@[simp] theorem Hw.setSerial_reg (n : Nat) (s : Serial) (q : Nat) : (h.setSerial n s).reg q = h.reg q := (rfl)
@[simp] theorem Hw.setSerial_rf (n : Nat) (s : Serial) (q : Fld) : (h.setSerial n s).rf q = h.rf q := (rfl)
@[simp] theorem Hw.setSerial_on (n : Nat) (s : Serial) (q : Fld) : (h.setSerial n s).on q = h.on q := (rfl)
@[simp] theorem Hw.setSerial_rfInt (n : Nat) (s : Serial) (q : Fld) : (h.setSerial n s).rfInt q = h.rfInt q := (rfl)
@[simp] theorem Hw.setSerial_byte (n : Nat) (s : Serial) (q : Nat) : (h.setSerial n s).byte q = h.byte q := (rfl)
@[simp] theorem Hw.setSerial_eccAt (n : Nat) (s : Serial) (q : Nat) : (h.setSerial n s).eccAt q = h.eccAt q := (rfl)
@[simp] theorem Hw.setSerial_port (n : Nat) (s : Serial) (q : Nat) : (h.setSerial n s).port q = h.port q := (rfl)
@[simp] theorem Hw.setSerial_strand (n : Nat) (s : Serial) (q : Nat) : (h.setSerial n s).strand q = h.strand q := (rfl)
@[simp] theorem Hw.setSerial_engine (n : Nat) (s : Serial) (q : Nat) : (h.setSerial n s).engine q = h.engine q := (rfl)
@[simp] theorem Hw.setSerial_tranche (n : Nat) (s : Serial) (q : Nat) : (h.setSerial n s).tranche q = h.tranche q := (rfl)
@[simp] theorem Hw.setSerial_core (n : Nat) (s : Serial) (q : Nat) : (h.setSerial n s).core q = h.core q := (rfl)
@[simp] theorem Hw.setSerial_can (n : Nat) (s : Serial) (q : Nat) : (h.setSerial n s).can q = h.can q := (rfl)
@[simp] theorem Hw.setSerial_link (n : Nat) (s : Serial) (q : Nat) : (h.setSerial n s).link q = h.link q := (rfl)

/-! ### setCan -/

@[simp] theorem Hw.setCan_regs (n : Nat) (c : Can) : (h.setCan n c).regs = h.regs := (rfl)
@[simp] theorem Hw.setCan_mem (n : Nat) (c : Can) : (h.setCan n c).mem = h.mem := (rfl)
@[simp] theorem Hw.setCan_ecc (n : Nat) (c : Can) : (h.setCan n c).ecc = h.ecc := (rfl)
@[simp] theorem Hw.setCan_free (n : Nat) (c : Can) : (h.setCan n c).free = h.free := (rfl)
@[simp] theorem Hw.setCan_resp (n : Nat) (c : Can) : (h.setCan n c).resp = h.resp := (rfl)
@[simp] theorem Hw.setCan_stalls (n : Nat) (c : Can) : (h.setCan n c).stalls = h.stalls := (rfl)
@[simp] theorem Hw.setCan_late (n : Nat) (c : Can) : (h.setCan n c).late = h.late := (rfl)
@[simp] theorem Hw.setCan_fuses (n : Nat) (c : Can) : (h.setCan n c).fuses = h.fuses := (rfl)
@[simp] theorem Hw.setCan_kept (n : Nat) (c : Can) : (h.setCan n c).kept = h.kept := (rfl)
@[simp] theorem Hw.setCan_pwr (n : Nat) (c : Can) : (h.setCan n c).pwr = h.pwr := (rfl)
@[simp] theorem Hw.setCan_sys (n : Nat) (c : Can) : (h.setCan n c).sys = h.sys := (rfl)
@[simp] theorem Hw.setCan_elogQ (n : Nat) (c : Can) : (h.setCan n c).elogQ = h.elogQ := (rfl)
@[simp] theorem Hw.setCan_memu (n : Nat) (c : Can) : (h.setCan n c).memu = h.memu := (rfl)
@[simp] theorem Hw.setCan_dmaTry (n : Nat) (c : Can) : (h.setCan n c).dmaTry = h.dmaTry := (rfl)
@[simp] theorem Hw.setCan_ports (n : Nat) (c : Can) : (h.setCan n c).ports = h.ports := (rfl)
@[simp] theorem Hw.setCan_tspi (n : Nat) (c : Can) : (h.setCan n c).tspi = h.tspi := (rfl)
@[simp] theorem Hw.setCan_sspi (n : Nat) (c : Can) : (h.setCan n c).sspi = h.sspi := (rfl)
@[simp] theorem Hw.setCan_strands (n : Nat) (c : Can) : (h.setCan n c).strands = h.strands := (rfl)
@[simp] theorem Hw.setCan_fab (n : Nat) (c : Can) : (h.setCan n c).fab = h.fab := (rfl)
@[simp] theorem Hw.setCan_loop (n : Nat) (c : Can) : (h.setCan n c).loop = h.loop := (rfl)
@[simp] theorem Hw.setCan_tcnt (n : Nat) (c : Can) : (h.setCan n c).tcnt = h.tcnt := (rfl)
@[simp] theorem Hw.setCan_coil (n : Nat) (c : Can) : (h.setCan n c).coil = h.coil := (rfl)
@[simp] theorem Hw.setCan_hot (n : Nat) (c : Can) : (h.setCan n c).hot = h.hot := (rfl)
@[simp] theorem Hw.setCan_sched (n : Nat) (c : Can) : (h.setCan n c).sched = h.sched := (rfl)
@[simp] theorem Hw.setCan_hitch (n : Nat) (c : Can) : (h.setCan n c).hitch = h.hitch := (rfl)
@[simp] theorem Hw.setCan_tp (n : Nat) (c : Can) : (h.setCan n c).tp = h.tp := (rfl)
@[simp] theorem Hw.setCan_fw (n : Nat) (c : Can) : (h.setCan n c).fw = h.fw := (rfl)
@[simp] theorem Hw.setCan_win (n : Nat) (c : Can) : (h.setCan n c).win = h.win := (rfl)
@[simp] theorem Hw.setCan_serials (n : Nat) (c : Can) : (h.setCan n c).serials = h.serials := (rfl)
@[simp] theorem Hw.setCan_lyd (n : Nat) (c : Can) : (h.setCan n c).lyd = h.lyd := (rfl)
@[simp] theorem Hw.setCan_radio (n : Nat) (c : Can) : (h.setCan n c).radio = h.radio := (rfl)
@[simp] theorem Hw.setCan_pkey (n : Nat) (c : Can) : (h.setCan n c).pkey = h.pkey := (rfl)
@[simp] theorem Hw.setCan_rtc (n : Nat) (c : Can) : (h.setCan n c).rtc = h.rtc := (rfl)
@[simp] theorem Hw.setCan_upd (n : Nat) (c : Can) : (h.setCan n c).upd = h.upd := (rfl)
@[simp] theorem Hw.setCan_i2c (n : Nat) (c : Can) : (h.setCan n c).i2c = h.i2c := (rfl)
@[simp] theorem Hw.setCan_bgnd (n : Nat) (c : Can) : (h.setCan n c).bgnd = h.bgnd := (rfl)
@[simp] theorem Hw.setCan_fix (n : Nat) (c : Can) : (h.setCan n c).fix = h.fix := (rfl)
@[simp] theorem Hw.setCan_reg (n : Nat) (c : Can) (q : Nat) : (h.setCan n c).reg q = h.reg q := (rfl)
@[simp] theorem Hw.setCan_rf (n : Nat) (c : Can) (q : Fld) : (h.setCan n c).rf q = h.rf q := (rfl)
@[simp] theorem Hw.setCan_on (n : Nat) (c : Can) (q : Fld) : (h.setCan n c).on q = h.on q := (rfl)
@[simp] theorem Hw.setCan_rfInt (n : Nat) (c : Can) (q : Fld) : (h.setCan n c).rfInt q = h.rfInt q := (rfl)
@[simp] theorem Hw.setCan_byte (n : Nat) (c : Can) (q : Nat) : (h.setCan n c).byte q = h.byte q := (rfl)
@[simp] theorem Hw.setCan_eccAt (n : Nat) (c : Can) (q : Nat) : (h.setCan n c).eccAt q = h.eccAt q := (rfl)
@[simp] theorem Hw.setCan_port (n : Nat) (c : Can) (q : Nat) : (h.setCan n c).port q = h.port q := (rfl)
@[simp] theorem Hw.setCan_strand (n : Nat) (c : Can) (q : Nat) : (h.setCan n c).strand q = h.strand q := (rfl)
@[simp] theorem Hw.setCan_engine (n : Nat) (c : Can) (q : Nat) : (h.setCan n c).engine q = h.engine q := (rfl)
@[simp] theorem Hw.setCan_tranche (n : Nat) (c : Can) (q : Nat) : (h.setCan n c).tranche q = h.tranche q := (rfl)
@[simp] theorem Hw.setCan_core (n : Nat) (c : Can) (q : Nat) : (h.setCan n c).core q = h.core q := (rfl)
@[simp] theorem Hw.setCan_link (n : Nat) (c : Can) (q : Nat) : (h.setCan n c).link q = h.link q := (rfl)
@[simp] theorem Hw.setCan_serial (n : Nat) (c : Can) (q : Nat) : (h.setCan n c).serial q = h.serial q := (rfl)

/-! ### setLink -/

@[simp] theorem Hw.setLink_regs (l : Nat) (k : Link) : (h.setLink l k).regs = h.regs := (rfl)
@[simp] theorem Hw.setLink_mem (l : Nat) (k : Link) : (h.setLink l k).mem = h.mem := (rfl)
@[simp] theorem Hw.setLink_ecc (l : Nat) (k : Link) : (h.setLink l k).ecc = h.ecc := (rfl)
@[simp] theorem Hw.setLink_free (l : Nat) (k : Link) : (h.setLink l k).free = h.free := (rfl)
@[simp] theorem Hw.setLink_resp (l : Nat) (k : Link) : (h.setLink l k).resp = h.resp := (rfl)
@[simp] theorem Hw.setLink_stalls (l : Nat) (k : Link) : (h.setLink l k).stalls = h.stalls := (rfl)
@[simp] theorem Hw.setLink_late (l : Nat) (k : Link) : (h.setLink l k).late = h.late := (rfl)
@[simp] theorem Hw.setLink_fuses (l : Nat) (k : Link) : (h.setLink l k).fuses = h.fuses := (rfl)
@[simp] theorem Hw.setLink_kept (l : Nat) (k : Link) : (h.setLink l k).kept = h.kept := (rfl)
@[simp] theorem Hw.setLink_pwr (l : Nat) (k : Link) : (h.setLink l k).pwr = h.pwr := (rfl)
@[simp] theorem Hw.setLink_sys (l : Nat) (k : Link) : (h.setLink l k).sys = h.sys := (rfl)
@[simp] theorem Hw.setLink_elogQ (l : Nat) (k : Link) : (h.setLink l k).elogQ = h.elogQ := (rfl)
@[simp] theorem Hw.setLink_memu (l : Nat) (k : Link) : (h.setLink l k).memu = h.memu := (rfl)
@[simp] theorem Hw.setLink_dmaTry (l : Nat) (k : Link) : (h.setLink l k).dmaTry = h.dmaTry := (rfl)
@[simp] theorem Hw.setLink_ports (l : Nat) (k : Link) : (h.setLink l k).ports = h.ports := (rfl)
@[simp] theorem Hw.setLink_tspi (l : Nat) (k : Link) : (h.setLink l k).tspi = h.tspi := (rfl)
@[simp] theorem Hw.setLink_sspi (l : Nat) (k : Link) : (h.setLink l k).sspi = h.sspi := (rfl)
@[simp] theorem Hw.setLink_strands (l : Nat) (k : Link) : (h.setLink l k).strands = h.strands := (rfl)
@[simp] theorem Hw.setLink_fab (l : Nat) (k : Link) : (h.setLink l k).fab = h.fab := (rfl)
@[simp] theorem Hw.setLink_loop (l : Nat) (k : Link) : (h.setLink l k).loop = h.loop := (rfl)
@[simp] theorem Hw.setLink_tcnt (l : Nat) (k : Link) : (h.setLink l k).tcnt = h.tcnt := (rfl)
@[simp] theorem Hw.setLink_coil (l : Nat) (k : Link) : (h.setLink l k).coil = h.coil := (rfl)
@[simp] theorem Hw.setLink_hot (l : Nat) (k : Link) : (h.setLink l k).hot = h.hot := (rfl)
@[simp] theorem Hw.setLink_sched (l : Nat) (k : Link) : (h.setLink l k).sched = h.sched := (rfl)
@[simp] theorem Hw.setLink_hitch (l : Nat) (k : Link) : (h.setLink l k).hitch = h.hitch := (rfl)
@[simp] theorem Hw.setLink_tp (l : Nat) (k : Link) : (h.setLink l k).tp = h.tp := (rfl)
@[simp] theorem Hw.setLink_win (l : Nat) (k : Link) : (h.setLink l k).win = h.win := (rfl)
@[simp] theorem Hw.setLink_serials (l : Nat) (k : Link) : (h.setLink l k).serials = h.serials := (rfl)
@[simp] theorem Hw.setLink_lyd (l : Nat) (k : Link) : (h.setLink l k).lyd = h.lyd := (rfl)
@[simp] theorem Hw.setLink_cans (l : Nat) (k : Link) : (h.setLink l k).cans = h.cans := (rfl)
@[simp] theorem Hw.setLink_radio (l : Nat) (k : Link) : (h.setLink l k).radio = h.radio := (rfl)
@[simp] theorem Hw.setLink_pkey (l : Nat) (k : Link) : (h.setLink l k).pkey = h.pkey := (rfl)
@[simp] theorem Hw.setLink_rtc (l : Nat) (k : Link) : (h.setLink l k).rtc = h.rtc := (rfl)
@[simp] theorem Hw.setLink_upd (l : Nat) (k : Link) : (h.setLink l k).upd = h.upd := (rfl)
@[simp] theorem Hw.setLink_i2c (l : Nat) (k : Link) : (h.setLink l k).i2c = h.i2c := (rfl)
@[simp] theorem Hw.setLink_bgnd (l : Nat) (k : Link) : (h.setLink l k).bgnd = h.bgnd := (rfl)
@[simp] theorem Hw.setLink_fix (l : Nat) (k : Link) : (h.setLink l k).fix = h.fix := (rfl)
@[simp] theorem Hw.setLink_reg (l : Nat) (k : Link) (q : Nat) : (h.setLink l k).reg q = h.reg q := (rfl)
@[simp] theorem Hw.setLink_rf (l : Nat) (k : Link) (q : Fld) : (h.setLink l k).rf q = h.rf q := (rfl)
@[simp] theorem Hw.setLink_on (l : Nat) (k : Link) (q : Fld) : (h.setLink l k).on q = h.on q := (rfl)
@[simp] theorem Hw.setLink_rfInt (l : Nat) (k : Link) (q : Fld) : (h.setLink l k).rfInt q = h.rfInt q := (rfl)
@[simp] theorem Hw.setLink_byte (l : Nat) (k : Link) (q : Nat) : (h.setLink l k).byte q = h.byte q := (rfl)
@[simp] theorem Hw.setLink_eccAt (l : Nat) (k : Link) (q : Nat) : (h.setLink l k).eccAt q = h.eccAt q := (rfl)
@[simp] theorem Hw.setLink_port (l : Nat) (k : Link) (q : Nat) : (h.setLink l k).port q = h.port q := (rfl)
@[simp] theorem Hw.setLink_strand (l : Nat) (k : Link) (q : Nat) : (h.setLink l k).strand q = h.strand q := (rfl)
@[simp] theorem Hw.setLink_engine (l : Nat) (k : Link) (q : Nat) : (h.setLink l k).engine q = h.engine q := (rfl)
@[simp] theorem Hw.setLink_tranche (l : Nat) (k : Link) (q : Nat) : (h.setLink l k).tranche q = h.tranche q := (rfl)
@[simp] theorem Hw.setLink_core (l : Nat) (k : Link) (q : Nat) : (h.setLink l k).core q = h.core q := (rfl)
@[simp] theorem Hw.setLink_can (l : Nat) (k : Link) (q : Nat) : (h.setLink l k).can q = h.can q := (rfl)
@[simp] theorem Hw.setLink_serial (l : Nat) (k : Link) (q : Nat) : (h.setLink l k).serial q = h.serial q := (rfl)

/-! ### setRadio -/

@[simp] theorem Hw.setRadio_regs (r : Radio) : (h.setRadio r).regs = h.regs := (rfl)
@[simp] theorem Hw.setRadio_mem (r : Radio) : (h.setRadio r).mem = h.mem := (rfl)
@[simp] theorem Hw.setRadio_ecc (r : Radio) : (h.setRadio r).ecc = h.ecc := (rfl)
@[simp] theorem Hw.setRadio_free (r : Radio) : (h.setRadio r).free = h.free := (rfl)
@[simp] theorem Hw.setRadio_resp (r : Radio) : (h.setRadio r).resp = h.resp := (rfl)
@[simp] theorem Hw.setRadio_stalls (r : Radio) : (h.setRadio r).stalls = h.stalls := (rfl)
@[simp] theorem Hw.setRadio_late (r : Radio) : (h.setRadio r).late = h.late := (rfl)
@[simp] theorem Hw.setRadio_fuses (r : Radio) : (h.setRadio r).fuses = h.fuses := (rfl)
@[simp] theorem Hw.setRadio_kept (r : Radio) : (h.setRadio r).kept = h.kept := (rfl)
@[simp] theorem Hw.setRadio_pwr (r : Radio) : (h.setRadio r).pwr = h.pwr := (rfl)
@[simp] theorem Hw.setRadio_sys (r : Radio) : (h.setRadio r).sys = h.sys := (rfl)
@[simp] theorem Hw.setRadio_elogQ (r : Radio) : (h.setRadio r).elogQ = h.elogQ := (rfl)
@[simp] theorem Hw.setRadio_memu (r : Radio) : (h.setRadio r).memu = h.memu := (rfl)
@[simp] theorem Hw.setRadio_dmaTry (r : Radio) : (h.setRadio r).dmaTry = h.dmaTry := (rfl)
@[simp] theorem Hw.setRadio_ports (r : Radio) : (h.setRadio r).ports = h.ports := (rfl)
@[simp] theorem Hw.setRadio_tspi (r : Radio) : (h.setRadio r).tspi = h.tspi := (rfl)
@[simp] theorem Hw.setRadio_sspi (r : Radio) : (h.setRadio r).sspi = h.sspi := (rfl)
@[simp] theorem Hw.setRadio_strands (r : Radio) : (h.setRadio r).strands = h.strands := (rfl)
@[simp] theorem Hw.setRadio_fab (r : Radio) : (h.setRadio r).fab = h.fab := (rfl)
@[simp] theorem Hw.setRadio_loop (r : Radio) : (h.setRadio r).loop = h.loop := (rfl)
@[simp] theorem Hw.setRadio_tcnt (r : Radio) : (h.setRadio r).tcnt = h.tcnt := (rfl)
@[simp] theorem Hw.setRadio_coil (r : Radio) : (h.setRadio r).coil = h.coil := (rfl)
@[simp] theorem Hw.setRadio_hot (r : Radio) : (h.setRadio r).hot = h.hot := (rfl)
@[simp] theorem Hw.setRadio_sched (r : Radio) : (h.setRadio r).sched = h.sched := (rfl)
@[simp] theorem Hw.setRadio_hitch (r : Radio) : (h.setRadio r).hitch = h.hitch := (rfl)
@[simp] theorem Hw.setRadio_tp (r : Radio) : (h.setRadio r).tp = h.tp := (rfl)
@[simp] theorem Hw.setRadio_fw (r : Radio) : (h.setRadio r).fw = h.fw := (rfl)
@[simp] theorem Hw.setRadio_win (r : Radio) : (h.setRadio r).win = h.win := (rfl)
@[simp] theorem Hw.setRadio_serials (r : Radio) : (h.setRadio r).serials = h.serials := (rfl)
@[simp] theorem Hw.setRadio_lyd (r : Radio) : (h.setRadio r).lyd = h.lyd := (rfl)
@[simp] theorem Hw.setRadio_cans (r : Radio) : (h.setRadio r).cans = h.cans := (rfl)
@[simp] theorem Hw.setRadio_pkey (r : Radio) : (h.setRadio r).pkey = h.pkey := (rfl)
@[simp] theorem Hw.setRadio_rtc (r : Radio) : (h.setRadio r).rtc = h.rtc := (rfl)
@[simp] theorem Hw.setRadio_upd (r : Radio) : (h.setRadio r).upd = h.upd := (rfl)
@[simp] theorem Hw.setRadio_i2c (r : Radio) : (h.setRadio r).i2c = h.i2c := (rfl)
@[simp] theorem Hw.setRadio_bgnd (r : Radio) : (h.setRadio r).bgnd = h.bgnd := (rfl)
@[simp] theorem Hw.setRadio_fix (r : Radio) : (h.setRadio r).fix = h.fix := (rfl)
@[simp] theorem Hw.setRadio_reg (r : Radio) (q : Nat) : (h.setRadio r).reg q = h.reg q := (rfl)
@[simp] theorem Hw.setRadio_rf (r : Radio) (q : Fld) : (h.setRadio r).rf q = h.rf q := (rfl)
@[simp] theorem Hw.setRadio_on (r : Radio) (q : Fld) : (h.setRadio r).on q = h.on q := (rfl)
@[simp] theorem Hw.setRadio_rfInt (r : Radio) (q : Fld) : (h.setRadio r).rfInt q = h.rfInt q := (rfl)
@[simp] theorem Hw.setRadio_byte (r : Radio) (q : Nat) : (h.setRadio r).byte q = h.byte q := (rfl)
@[simp] theorem Hw.setRadio_eccAt (r : Radio) (q : Nat) : (h.setRadio r).eccAt q = h.eccAt q := (rfl)
@[simp] theorem Hw.setRadio_port (r : Radio) (q : Nat) : (h.setRadio r).port q = h.port q := (rfl)
@[simp] theorem Hw.setRadio_strand (r : Radio) (q : Nat) : (h.setRadio r).strand q = h.strand q := (rfl)
@[simp] theorem Hw.setRadio_engine (r : Radio) (q : Nat) : (h.setRadio r).engine q = h.engine q := (rfl)
@[simp] theorem Hw.setRadio_tranche (r : Radio) (q : Nat) : (h.setRadio r).tranche q = h.tranche q := (rfl)
@[simp] theorem Hw.setRadio_core (r : Radio) (q : Nat) : (h.setRadio r).core q = h.core q := (rfl)
@[simp] theorem Hw.setRadio_can (r : Radio) (q : Nat) : (h.setRadio r).can q = h.can q := (rfl)
@[simp] theorem Hw.setRadio_link (r : Radio) (q : Nat) : (h.setRadio r).link q = h.link q := (rfl)
@[simp] theorem Hw.setRadio_serial (r : Radio) (q : Nat) : (h.setRadio r).serial q = h.serial q := (rfl)

/-! ### report -/

@[simp] theorem Hw.report_mem (c k o a d : Nat) : (h.report c k o a d).mem = h.mem := by unfold Hw.report; split <;> simp
@[simp] theorem Hw.report_ecc (c k o a d : Nat) : (h.report c k o a d).ecc = h.ecc := by unfold Hw.report; split <;> simp
@[simp] theorem Hw.report_free (c k o a d : Nat) : (h.report c k o a d).free = h.free := by unfold Hw.report; split <;> simp
@[simp] theorem Hw.report_resp (c k o a d : Nat) : (h.report c k o a d).resp = h.resp := by unfold Hw.report; split <;> simp
@[simp] theorem Hw.report_stalls (c k o a d : Nat) : (h.report c k o a d).stalls = h.stalls := by unfold Hw.report; split <;> simp
@[simp] theorem Hw.report_late (c k o a d : Nat) : (h.report c k o a d).late = h.late := by unfold Hw.report; split <;> simp
@[simp] theorem Hw.report_fuses (c k o a d : Nat) : (h.report c k o a d).fuses = h.fuses := by unfold Hw.report; split <;> simp
@[simp] theorem Hw.report_kept (c k o a d : Nat) : (h.report c k o a d).kept = h.kept := by unfold Hw.report; split <;> simp
@[simp] theorem Hw.report_pwr (c k o a d : Nat) : (h.report c k o a d).pwr = h.pwr := by unfold Hw.report; split <;> simp
@[simp] theorem Hw.report_sys (c k o a d : Nat) : (h.report c k o a d).sys = h.sys := by unfold Hw.report; split <;> simp
@[simp] theorem Hw.report_memu (c k o a d : Nat) : (h.report c k o a d).memu = h.memu := by unfold Hw.report; split <;> simp
@[simp] theorem Hw.report_dmaTry (c k o a d : Nat) : (h.report c k o a d).dmaTry = h.dmaTry := by unfold Hw.report; split <;> simp
@[simp] theorem Hw.report_ports (c k o a d : Nat) : (h.report c k o a d).ports = h.ports := by unfold Hw.report; split <;> simp
@[simp] theorem Hw.report_tspi (c k o a d : Nat) : (h.report c k o a d).tspi = h.tspi := by unfold Hw.report; split <;> simp
@[simp] theorem Hw.report_sspi (c k o a d : Nat) : (h.report c k o a d).sspi = h.sspi := by unfold Hw.report; split <;> simp
@[simp] theorem Hw.report_strands (c k o a d : Nat) : (h.report c k o a d).strands = h.strands := by unfold Hw.report; split <;> simp
@[simp] theorem Hw.report_fab (c k o a d : Nat) : (h.report c k o a d).fab = h.fab := by unfold Hw.report; split <;> simp
@[simp] theorem Hw.report_loop (c k o a d : Nat) : (h.report c k o a d).loop = h.loop := by unfold Hw.report; split <;> simp
@[simp] theorem Hw.report_tcnt (c k o a d : Nat) : (h.report c k o a d).tcnt = h.tcnt := by unfold Hw.report; split <;> simp
@[simp] theorem Hw.report_coil (c k o a d : Nat) : (h.report c k o a d).coil = h.coil := by unfold Hw.report; split <;> simp
@[simp] theorem Hw.report_hot (c k o a d : Nat) : (h.report c k o a d).hot = h.hot := by unfold Hw.report; split <;> simp
@[simp] theorem Hw.report_sched (c k o a d : Nat) : (h.report c k o a d).sched = h.sched := by unfold Hw.report; split <;> simp
@[simp] theorem Hw.report_hitch (c k o a d : Nat) : (h.report c k o a d).hitch = h.hitch := by unfold Hw.report; split <;> simp
@[simp] theorem Hw.report_tp (c k o a d : Nat) : (h.report c k o a d).tp = h.tp := by unfold Hw.report; split <;> simp
@[simp] theorem Hw.report_fw (c k o a d : Nat) : (h.report c k o a d).fw = h.fw := by unfold Hw.report; split <;> simp
@[simp] theorem Hw.report_win (c k o a d : Nat) : (h.report c k o a d).win = h.win := by unfold Hw.report; split <;> simp
@[simp] theorem Hw.report_serials (c k o a d : Nat) : (h.report c k o a d).serials = h.serials := by unfold Hw.report; split <;> simp
@[simp] theorem Hw.report_lyd (c k o a d : Nat) : (h.report c k o a d).lyd = h.lyd := by unfold Hw.report; split <;> simp
@[simp] theorem Hw.report_cans (c k o a d : Nat) : (h.report c k o a d).cans = h.cans := by unfold Hw.report; split <;> simp
@[simp] theorem Hw.report_radio (c k o a d : Nat) : (h.report c k o a d).radio = h.radio := by unfold Hw.report; split <;> simp
@[simp] theorem Hw.report_pkey (c k o a d : Nat) : (h.report c k o a d).pkey = h.pkey := by unfold Hw.report; split <;> simp
@[simp] theorem Hw.report_rtc (c k o a d : Nat) : (h.report c k o a d).rtc = h.rtc := by unfold Hw.report; split <;> simp
@[simp] theorem Hw.report_upd (c k o a d : Nat) : (h.report c k o a d).upd = h.upd := by unfold Hw.report; split <;> simp
@[simp] theorem Hw.report_i2c (c k o a d : Nat) : (h.report c k o a d).i2c = h.i2c := by unfold Hw.report; split <;> simp
@[simp] theorem Hw.report_bgnd (c k o a d : Nat) : (h.report c k o a d).bgnd = h.bgnd := by unfold Hw.report; split <;> simp
@[simp] theorem Hw.report_fix (c k o a d : Nat) : (h.report c k o a d).fix = h.fix := by unfold Hw.report; split <;> simp
@[simp] theorem Hw.report_byte (c k o a d : Nat) (q : Nat) : (h.report c k o a d).byte q = h.byte q := by unfold Hw.report; split <;> simp [Hw.byte]
@[simp] theorem Hw.report_eccAt (c k o a d : Nat) (q : Nat) : (h.report c k o a d).eccAt q = h.eccAt q := by unfold Hw.report; split <;> simp [Hw.eccAt]
@[simp] theorem Hw.report_port (c k o a d : Nat) (q : Nat) : (h.report c k o a d).port q = h.port q := by unfold Hw.report; split <;> simp [Hw.port]
@[simp] theorem Hw.report_strand (c k o a d : Nat) (q : Nat) : (h.report c k o a d).strand q = h.strand q := by unfold Hw.report; split <;> simp [Hw.strand]
@[simp] theorem Hw.report_engine (c k o a d : Nat) (q : Nat) : (h.report c k o a d).engine q = h.engine q := by unfold Hw.report; split <;> simp [Hw.engine]
@[simp] theorem Hw.report_tranche (c k o a d : Nat) (q : Nat) : (h.report c k o a d).tranche q = h.tranche q := by unfold Hw.report; split <;> simp [Hw.tranche]
@[simp] theorem Hw.report_core (c k o a d : Nat) (q : Nat) : (h.report c k o a d).core q = h.core q := by unfold Hw.report; split <;> simp [Hw.core]
@[simp] theorem Hw.report_can (c k o a d : Nat) (q : Nat) : (h.report c k o a d).can q = h.can q := by unfold Hw.report; split <;> simp [Hw.can]
@[simp] theorem Hw.report_link (c k o a d : Nat) (q : Nat) : (h.report c k o a d).link q = h.link q := by unfold Hw.report; split <;> simp [Hw.link]
@[simp] theorem Hw.report_serial (c k o a d : Nat) (q : Nat) : (h.report c k o a d).serial q = h.serial q := by unfold Hw.report; split <;> simp [Hw.serial]

end Sys2Proof.Machine
end

