-- ==== Sys2Proof/Laws/Store.lean ====
section
/-! SUPPORT. The laws of sparse tables: reading after writing, and that every operation keeps the canonical form. -/

set_option Elab.async false

namespace Sys2Proof.Store

variable {α : Type}

@[simp] theorem get_nil (d : Nat → α) (k : Nat) : get d [] k = d k := rfl

theorem get_cons (d : Nat → α) (i k : Nat) (v : α) (t : List (Nat × α)) :
    get d ((i, v) :: t) k = if i = k then v else get d t k := rfl

theorem get_erase_same (d : Nat → α) (k : Nat) (t : List (Nat × α)) : get d (erase k t) k = d k := by
  induction t with
  | nil => rfl
  | cons p t ih =>
    obtain ⟨i, v⟩ := p
    by_cases h : i = k
    · simp [erase, h, ih]
    · simp [erase, h, get, ih]

theorem get_erase_ne (d : Nat → α) {k j : Nat} (hne : k ≠ j) (t : List (Nat × α)) :
    get d (erase k t) j = get d t j := by
  induction t with
  | nil => rfl
  | cons p t ih =>
    obtain ⟨i, v⟩ := p
    by_cases h : i = k
    · have hij : ¬ i = j := fun e => hne (h ▸ e)
      simp [erase, h, get, ih, h ▸ hij]
    · simp [erase, h, get, ih]

theorem get_insert_same (d : Nat → α) (k : Nat) (v : α) (t : List (Nat × α)) : get d (insert k v t) k = v := by
  induction t with
  | nil => simp [insert, get]
  | cons p t ih =>
    obtain ⟨i, w⟩ := p
    unfold insert
    split
    · simp [get]
    · split
      · simp [get]
      · rename_i h1 h2
        have : ¬ i = k := fun e => h2 e.symm
        simp [get, this, ih]

theorem get_insert_ne (d : Nat → α) {k j : Nat} (hne : k ≠ j) (v : α) (t : List (Nat × α)) :
    get d (insert k v t) j = get d t j := by
  induction t with
  | nil => simp [insert, get, hne]
  | cons p t ih =>
    obtain ⟨i, w⟩ := p
    unfold insert
    split
    · simp [get, hne]
    · split
      · rename_i h1 h2
        subst h2
        simp [get, hne]
      · simp [get, ih]

/-- Reading back the key just written gives the value written. -/
@[simp] theorem get_set_same [DecidableEq α] (d : Nat → α) (t : List (Nat × α)) (k : Nat) (v : α) :
    get d (set d t k v) k = v := by
  unfold set
  split
  · rename_i h; rw [get_erase_same, h]
  · exact get_insert_same d k v t

/-- A write leaves every other key alone. -/
theorem get_set_ne [DecidableEq α] (d : Nat → α) (t : List (Nat × α)) {k j : Nat} (hne : k ≠ j) (v : α) :
    get d (set d t k v) j = get d t j := by
  unfold set
  split
  · exact get_erase_ne d hne t
  · exact get_insert_ne d hne v t

/-- Reading after a write, both cases at once. -/
theorem get_set [DecidableEq α] (d : Nat → α) (t : List (Nat × α)) (k j : Nat) (v : α) :
    get d (set d t k v) j = if k = j then v else get d t j := by
  by_cases h : k = j
  · subst h; simp
  · simp [get_set_ne d t h v, h]

/-- Reading after dropping entries. -/
theorem get_keep (d : Nat → α) (p : Nat → Bool) (t : List (Nat × α)) (k : Nat) : get d (keep p t) k = if p k then get d t k else d k := by
  induction t with
  | nil => simp [keep]
  | cons q t ih =>
    obtain ⟨i, v⟩ := q
    unfold keep
    by_cases hp : p i
    · simp only [hp, if_true, get_cons, ih]
      by_cases hk : i = k
      · subst hk; simp [hp]
      · simp [hk]
    · by_cases hk : i = k
      · subst hk; simp [hp, ih]
      · simp [hp, ih, get_cons, hk]

theorem above_trans {k j : Nat} (hkj : k < j) {t : List (Nat × α)} (h : above j t = true) : above k t = true := by
  induction t with
  | nil => rfl
  | cons p t ih =>
    obtain ⟨i, v⟩ := p
    simp only [above, Bool.and_eq_true, decide_eq_true_eq] at h ⊢
    exact ⟨by omega, ih h.2⟩

theorem above_erase {j : Nat} (k : Nat) {t : List (Nat × α)} (h : above j t = true) : above j (erase k t) = true := by
  induction t with
  | nil => rfl
  | cons p t ih =>
    obtain ⟨i, v⟩ := p
    simp only [above, Bool.and_eq_true, decide_eq_true_eq] at h
    unfold erase
    split
    · exact ih h.2
    · simp [above, h.1, ih h.2]

theorem above_insert {j k : Nat} (hjk : j < k) (v : α) {t : List (Nat × α)} (h : above j t = true) :
    above j (insert k v t) = true := by
  induction t with
  | nil => simp [insert, above, hjk]
  | cons p t ih =>
    obtain ⟨i, w⟩ := p
    simp only [above, Bool.and_eq_true, decide_eq_true_eq] at h
    unfold insert
    split
    · simp [above, hjk, h.1, h.2]
    · split
      · simp [above, hjk, h.2]
      · simp [above, h.1, ih h.2]

theorem above_keep {j : Nat} (p : Nat → Bool) {t : List (Nat × α)} (h : above j t = true) :
    above j (keep p t) = true := by
  induction t with
  | nil => rfl
  | cons q t ih =>
    obtain ⟨i, v⟩ := q
    simp only [above, Bool.and_eq_true, decide_eq_true_eq] at h
    unfold keep
    split
    · simp [above, h.1, ih h.2]
    · exact ih h.2

theorem wf_erase [DecidableEq α] (d : Nat → α) (k : Nat) {t : List (Nat × α)} (h : wf d t = true) :
    wf d (erase k t) = true := by
  induction t with
  | nil => rfl
  | cons p t ih =>
    obtain ⟨i, v⟩ := p
    simp only [wf, Bool.and_eq_true] at h
    unfold erase
    split
    · exact ih h.2
    · simp [wf, above_erase k h.1.1, ih h.2, of_decide_eq_true h.1.2]

theorem wf_insert [DecidableEq α] (d : Nat → α) (k : Nat) {v : α} (hv : v ≠ d k) {t : List (Nat × α)}
    (h : wf d t = true) : wf d (insert k v t) = true := by
  induction t with
  | nil => simp [insert, wf, above, hv]
  | cons p t ih =>
    obtain ⟨i, w⟩ := p
    have h' := h
    simp only [wf, Bool.and_eq_true] at h
    unfold insert
    split
    · rename_i hlt
      simp only [wf, Bool.and_eq_true] at h' ⊢
      refine ⟨⟨?_, by simp [hv]⟩, h'⟩
      simp [above, hlt, above_trans hlt h.1.1]
    · split
      · rename_i h2
        subst h2
        simp [wf, h.1.1, hv, h.2]
      · rename_i h1 h2
        have hik : i < k := by omega
        simp [wf, above_insert hik v h.1.1, ih h.2, of_decide_eq_true h.1.2]

/-- A write keeps the canonical form. -/
theorem wf_set [DecidableEq α] (d : Nat → α) (k : Nat) (v : α) {t : List (Nat × α)} (h : wf d t = true) :
    wf d (set d t k v) = true := by
  unfold set
  split
  · exact wf_erase d k h
  · rename_i hv; exact wf_insert d k hv h

/-- Dropping entries keeps the canonical form. -/
theorem wf_keep [DecidableEq α] (d : Nat → α) (p : Nat → Bool) {t : List (Nat × α)} (h : wf d t = true) :
    wf d (keep p t) = true := by
  induction t with
  | nil => rfl
  | cons q t ih =>
    obtain ⟨i, v⟩ := q
    simp only [wf, Bool.and_eq_true] at h
    unfold keep
    split
    · simp [wf, above_keep p h.1.1, ih h.2, of_decide_eq_true h.1.2]
    · exact ih h.2

end Sys2Proof.Store
end

