-- ==== Sys2Proof/Laws/Ops.lean ====
section
/-! SUPPORT. What the shared operations do: reading a register, a field, a byte or a record after a write of the same or of another one. -/

set_option Elab.async false

namespace Sys2Proof.Machine

/-! ### Registers -/

@[simp] theorem Hw.reg_setReg_same (h : Hw) (a : Nat) (v : BitVec 32) : (h.setReg a v).reg a = v := by
  simp [Hw.reg, Hw.setReg]

theorem Hw.reg_setReg_ne (h : Hw) {a b : Nat} (hne : a ≠ b) (v : BitVec 32) : (h.setReg a v).reg b = h.reg b := by
  simp [Hw.reg, Hw.setReg, Store.get_set_ne _ _ hne]

theorem Hw.reg_setReg (h : Hw) (a b : Nat) (v : BitVec 32) : (h.setReg a v).reg b = if a = b then v else h.reg b := by
  simp [Hw.reg, Hw.setReg, Store.get_set]

/-- A write of one register leaves the fields of every other alone. -/
theorem Hw.rf_setReg_ne (h : Hw) {a : Nat} {f : Fld} (hne : a ≠ f.addr) (v : BitVec 32) : (h.setReg a v).rf f = h.rf f := by
  simp [Hw.rf, Hw.reg_setReg_ne h hne]

theorem Hw.rf_setReg_same (h : Hw) (f : Fld) (v : BitVec 32) : (h.setReg f.addr v).rf f = f.ofNat v.toNat := by
  simp [Hw.rf]

theorem Hw.reg_sf_ne (h : Hw) {f : Fld} {a : Nat} (hne : f.addr ≠ a) (v : Nat) : (h.sf f v).reg a = h.reg a :=
  Hw.reg_setReg_ne h hne _

/-- A write of a field leaves the fields of every other register alone. -/
theorem Hw.rf_sf_ne (h : Hw) {f g : Fld} (hne : f.addr ≠ g.addr) (v : Nat) : (h.sf f v).rf g = h.rf g :=
  Hw.rf_setReg_ne h hne _

theorem Hw.on_sf_ne (h : Hw) {f g : Fld} (hne : f.addr ≠ g.addr) (v : Nat) : (h.sf f v).on g = h.on g := by
  simp [Hw.on, Hw.rf_sf_ne h hne]

/-- The fields of a register value after an insertion. -/
theorem Fld.insert_lt (f : Fld) (hf : f.lo + f.len ≤ 32) {n : Nat} (hn : n < 2 ^ 32) (v : Nat) : f.insert n v < 2 ^ 32 := by
  obtain ⟨a, lo, len⟩ := f
  simp only at hf
  simp only [Fld.insert]
  have hlo : n % 2 ^ lo < 2 ^ lo := Nat.mod_lt _ (by positivity)
  have hv : v % 2 ^ len < 2 ^ len := Nat.mod_lt _ (by positivity)
  have hmid : v % 2 ^ len * 2 ^ lo + n % 2 ^ lo < 2 ^ (lo + len) := by
    have : (v % 2 ^ len + 1) * 2 ^ lo ≤ 2 ^ len * 2 ^ lo := Nat.mul_le_mul_right _ hv
    rw [pow_add]
    nlinarith
  have hq : n / 2 ^ (lo + len) < 2 ^ (32 - (lo + len)) := by
    rw [Nat.div_lt_iff_lt_mul (by positivity), ← pow_add]
    have : 32 - (lo + len) + (lo + len) = 32 := by omega
    rw [this]; exact hn
  have : (n / 2 ^ (lo + len) + 1) * 2 ^ (lo + len) ≤ 2 ^ (32 - (lo + len)) * 2 ^ (lo + len) := Nat.mul_le_mul_right _ hq
  rw [← pow_add] at this
  have he : 32 - (lo + len) + (lo + len) = 32 := by omega
  rw [he] at this
  nlinarith

theorem Fld.ofNat_insert_same (f : Fld) (n v : Nat) : f.ofNat (f.insert n v) = v % 2 ^ f.len := by
  obtain ⟨a, lo, len⟩ := f
  simp only [Fld.ofNat, Fld.insert]
  have h1 : n / 2 ^ (lo + len) * 2 ^ (lo + len) + v % 2 ^ len * 2 ^ lo + n % 2 ^ lo
      = (n / 2 ^ (lo + len) * 2 ^ len + v % 2 ^ len) * 2 ^ lo + n % 2 ^ lo := by rw [pow_add]; ring
  rw [h1]
  have h2 : ((n / 2 ^ (lo + len) * 2 ^ len + v % 2 ^ len) * 2 ^ lo + n % 2 ^ lo) / 2 ^ lo
      = n / 2 ^ (lo + len) * 2 ^ len + v % 2 ^ len := by
    rw [add_comm, Nat.add_mul_div_right _ _ (by positivity), Nat.div_eq_of_lt (Nat.mod_lt _ (by positivity)), zero_add]
  rw [h2, Nat.mul_add_mod', Nat.mod_mod]

/-- A field is a field of the bits up to its top. -/
theorem Fld.div_mod_low (n lo len : Nat) : n / 2 ^ lo % 2 ^ len = n % 2 ^ (lo + len) / 2 ^ lo := by
  rw [pow_add, Nat.mod_mul_right_div_self]

theorem Fld.ofNat_insert_below (f g : Fld) (h : g.lo + g.len ≤ f.lo) (n v : Nat) : g.ofNat (f.insert n v) = g.ofNat n := by
  obtain ⟨a, lo, len⟩ := f
  obtain ⟨b, lo', len'⟩ := g
  simp only at h
  simp only [Fld.ofNat, Fld.insert]
  obtain ⟨d, rfl⟩ := Nat.exists_eq_add_of_le h
  have h1 : n / 2 ^ (lo' + len' + d + len) * 2 ^ (lo' + len' + d + len) + v % 2 ^ len * 2 ^ (lo' + len' + d)
      = 2 ^ (lo' + len') * (2 ^ d * (n / 2 ^ (lo' + len' + d + len) * 2 ^ len + v % 2 ^ len)) := by
    rw [pow_add _ (lo' + len' + d) len, pow_add _ (lo' + len') d]; ring
  rw [h1, Fld.div_mod_low, Fld.div_mod_low, Nat.mul_add_mod, Nat.mod_mod_of_dvd _ (pow_dvd_pow 2 (Nat.le_add_right _ d)), ← Fld.div_mod_low]

theorem Fld.ofNat_insert_above (f g : Fld) (h : f.lo + f.len ≤ g.lo) (n v : Nat) : g.ofNat (f.insert n v) = g.ofNat n := by
  obtain ⟨a, lo, len⟩ := f
  obtain ⟨b, lo', len'⟩ := g
  simp only at h
  simp only [Fld.ofNat, Fld.insert]
  obtain ⟨d, rfl⟩ := Nat.exists_eq_add_of_le h
  have hlo : n % 2 ^ lo < 2 ^ lo := Nat.mod_lt _ (by positivity)
  have hv : v % 2 ^ len < 2 ^ len := Nat.mod_lt _ (by positivity)
  have hmid : v % 2 ^ len * 2 ^ lo + n % 2 ^ lo < 2 ^ (lo + len) := by
    have : (v % 2 ^ len + 1) * 2 ^ lo ≤ 2 ^ len * 2 ^ lo := Nat.mul_le_mul_right _ hv
    rw [pow_add]
    nlinarith
  have e1 : (n / 2 ^ (lo + len) * 2 ^ (lo + len) + v % 2 ^ len * 2 ^ lo + n % 2 ^ lo) / 2 ^ (lo + len) = n / 2 ^ (lo + len) := by
    rw [add_assoc, add_comm, Nat.add_mul_div_right _ _ (by positivity), Nat.div_eq_of_lt hmid, zero_add]
  rw [pow_add 2 (lo + len) d, ← Nat.div_div_eq_div_mul, ← Nat.div_div_eq_div_mul, e1]

/-- The field just written holds the value written, in its width. -/
theorem Hw.rf_sf_same (h : Hw) (f : Fld) (hf : f.lo + f.len ≤ 32) (v : Nat) : (h.sf f v).rf f = v % 2 ^ f.len := by
  unfold Hw.rf Hw.sf
  rw [Hw.reg_setReg_same, BitVec.toNat_ofNat, Nat.mod_eq_of_lt (Fld.insert_lt f hf (BitVec.isLt _) v), Fld.ofNat_insert_same]

/-- Fields of one register that do not overlap are independent. -/
theorem Hw.rf_sf_apart (h : Hw) (f g : Fld) (hf : f.lo + f.len ≤ 32) (hd : g.lo + g.len ≤ f.lo ∨ f.lo + f.len ≤ g.lo) (v : Nat) :
    (h.sf f v).rf g = h.rf g := by
  by_cases ha : f.addr = g.addr
  · unfold Hw.rf Hw.sf
    rw [← ha, Hw.reg_setReg_same, BitVec.toNat_ofNat, Nat.mod_eq_of_lt (Fld.insert_lt f hf (BitVec.isLt _) v)]
    cases hd with
    | inl h1 => exact Fld.ofNat_insert_below f g h1 _ v
    | inr h1 => exact Fld.ofNat_insert_above f g h1 _ v
  · exact Hw.rf_sf_ne h ha v

/-! ### Memory -/

@[simp] theorem Hw.byte_setByte_same (h : Hw) (a : Nat) (v : BitVec 8) : (h.setByte a v).byte a = v := by
  simp [Hw.byte, Hw.setByte]

theorem Hw.byte_setByte_ne (h : Hw) {a b : Nat} (hne : a ≠ b) (v : BitVec 8) : (h.setByte a v).byte b = h.byte b := by
  simp [Hw.byte, Hw.setByte, Store.get_set_ne _ _ hne]

/-- A store leaves every byte outside its range alone. -/
theorem Hw.byte_store (h : Hw) (a n v b : Nat) (hb : b < a ∨ a + n ≤ b) : (h.store a n v).byte b = h.byte b := by
  induction n generalizing h a v with
  | zero => rfl
  | succ n ih =>
    rw [Hw.store, ih _ _ _ (by omega), Hw.byte_setByte_ne _ (by omega)]

/-- A store does nothing but write memory. -/
theorem Hw.store_eq (h : Hw) (a n v : Nat) : h.store a n v = { h with mem := (h.store a n v).mem } := by
  induction n generalizing h a v with
  | zero => rfl
  | succ n ih => rw [Hw.store, ih]; rfl

/-! ### Records -/

@[simp] theorem Hw.port_setPort_same (h : Hw) (n : Nat) (p : Port) : (h.setPort n p).port n = p := by simp [Hw.port, Hw.setPort]

theorem Hw.port_setPort_ne (h : Hw) {n m : Nat} (hne : n ≠ m) (p : Port) : (h.setPort n p).port m = h.port m := by
  simp [Hw.port, Hw.setPort, Store.get_set_ne _ _ hne]

@[simp] theorem Hw.strand_setStrand_same (h : Hw) (n : Nat) (p : Strand) : (h.setStrand n p).strand n = p := by
  simp [Hw.strand, Hw.setStrand]

theorem Hw.strand_setStrand_ne (h : Hw) {n m : Nat} (hne : n ≠ m) (p : Strand) : (h.setStrand n p).strand m = h.strand m := by
  simp [Hw.strand, Hw.setStrand, Store.get_set_ne _ _ hne]

@[simp] theorem Hw.engine_setEngine_same (h : Hw) (n : Nat) (p : Engine) : (h.setEngine n p).engine n = p := by
  simp [Hw.engine, Hw.setEngine]

theorem Hw.engine_setEngine_ne (h : Hw) {n m : Nat} (hne : n ≠ m) (p : Engine) : (h.setEngine n p).engine m = h.engine m := by
  simp [Hw.engine, Hw.setEngine, Store.get_set_ne _ _ hne]

@[simp] theorem Hw.core_setCore_same (h : Hw) (n : Nat) (p : Core) : (h.setCore n p).core n = p := by simp [Hw.core, Hw.setCore]

theorem Hw.core_setCore_ne (h : Hw) {n m : Nat} (hne : n ≠ m) (p : Core) : (h.setCore n p).core m = h.core m := by
  simp [Hw.core, Hw.setCore, Store.get_set_ne _ _ hne]

@[simp] theorem Hw.serial_setSerial_same (h : Hw) (n : Nat) (p : Serial) : (h.setSerial n p).serial n = p := by
  simp [Hw.serial, Hw.setSerial]

theorem Hw.serial_setSerial_ne (h : Hw) {n m : Nat} (hne : n ≠ m) (p : Serial) : (h.setSerial n p).serial m = h.serial m := by
  simp [Hw.serial, Hw.setSerial, Store.get_set_ne _ _ hne]

@[simp] theorem Hw.can_setCan_same (h : Hw) (n : Nat) (p : Can) : (h.setCan n p).can n = p := by simp [Hw.can, Hw.setCan]

@[simp] theorem Hw.link_setLink_same (h : Hw) (n : Nat) (p : Link) : (h.setLink n p).link n = p := by simp [Hw.link, Hw.setLink]

@[simp] theorem Hw.radio_setRadio (h : Hw) (r : Radio) : (h.setRadio r).radio = r := rfl

/-! ### The error log's queue -/

/-- The queue of the error log never grows past its 8 places (R719). -/
theorem Hw.report_depth (h : Hw) (a b c d e : Nat) (hq : h.elogQ.length ≤ 8) : (h.report a b c d e).elogQ.length ≤ 8 := by
  unfold Hw.report
  by_cases hl : h.elogQ.length < 8
  · simp [hl]
  · simpa [hl] using hq

theorem Hw.reg_elogQ (g : Hw) (q : List ElogReport) (a : Nat) : ({ g with elogQ := q } : Hw).reg a = g.reg a := rfl

/-- A report that finds room joins the queue with its stamp and its sequence number (R718, R719). -/
theorem Hw.report_entry (h : Hw) (c k o a d : Nat) (hq : h.elogQ.length < 8) : (h.report c k o a d).elogQ =
    h.elogQ ++ [⟨c, k, o, a, d % pow2 32, (h.rf ELOG_TOTAL_TOTAL + 1) % 256, bits h.tcnt 12 32⟩] := by
  unfold Hw.report
  rw [if_pos hq]
  simp only [Hw.count_elogQ, Hw.count_tcnt]
  unfold Hw.count
  rw [Hw.rf_sf_same h ELOG_TOTAL_TOTAL (by decide), show ELOG_TOTAL_TOTAL.len = 32 from rfl, Nat.mod_mod_of_dvd _ (by norm_num : 256 ∣ 2 ^ 32)]

/-- A report that finds room only counts it in ELOG_TOTAL; one that finds none is counted as lost (R720). -/
theorem Hw.report_regs (h : Hw) (c k o a d : Nat) : (h.report c k o a d).regs = if h.elogQ.length < 8 then (h.count ELOG_TOTAL_TOTAL).regs else
    (((h.bump (elogLostField c)).bump ELOG_LOSTALL_LOST).sf ELOG_STAT_LOSTF 1).regs := by
  unfold Hw.report
  split <;> rfl

/-- A report changes no register outside the error log. -/
theorem Hw.reg_report (h : Hw) (c k o d e : Nat) {a : Nat} (ha : a < ELOG_STAT ∨ ELOG_LOST (c / 2) < a) : (h.report c k o d e).reg a = h.reg a := by
  have h1 : ELOG_TOTAL ≠ a := by unfold ELOG_TOTAL; unfold ELOG_STAT ELOG_LOST at ha; omega
  have h2 : ELOG_LOSTALL ≠ a := by unfold ELOG_LOSTALL; unfold ELOG_STAT ELOG_LOST at ha; omega
  have h3 : ELOG_STAT ≠ a := by unfold ELOG_STAT; unfold ELOG_STAT ELOG_LOST at ha; omega
  have h4 : (elogLostField c).addr ≠ a := by
    unfold elogLostField
    split <;> (simp only [ELOG_LOST_LOST_LO, ELOG_LOST_LOST_HI]; unfold ELOG_LOST at *; unfold ELOG_STAT at ha; omega)
  unfold Hw.report
  split
  · simp only
    rw [Hw.reg_elogQ]
    unfold Hw.count
    rw [Hw.reg_sf_ne h (f := ELOG_TOTAL_TOTAL) h1]
  · unfold Hw.bump Hw.bumpBy
    rw [Hw.reg_sf_ne _ (f := ELOG_STAT_LOSTF) h3, Hw.reg_sf_ne _ (f := ELOG_LOSTALL_LOST) h2, Hw.reg_sf_ne _ h4]

/-- The bits of a number written as a set of bits. -/
theorem bit_mask (f : Nat → Bool) (n k : Nat) : bit ((upTo n).foldl (fun m i => m + (if f i then pow2 i else 0)) 0) k = (decide (k < n) && f k) := by
  have gen : ∀ n, (upTo n).foldl (fun m i => m + (if f i then pow2 i else 0)) 0 < 2 ^ n ∧
      ∀ k, ((upTo n).foldl (fun m i => m + (if f i then pow2 i else 0)) 0).testBit k = (decide (k < n) && f k) := by
    intro n
    induction n with
    | zero => simp [upTo]
    | succ n ih =>
      have e : (upTo (n + 1)).foldl (fun m i => m + (if f i then pow2 i else 0)) 0 =
          (upTo n).foldl (fun m i => m + (if f i then pow2 i else 0)) 0 + (if f n then 2 ^ n else 0) := by
        simp [upTo, List.range_succ, pow2, Nat.one_shiftLeft]
      rw [e]
      generalize (upTo n).foldl (fun m i => m + (if f i then pow2 i else 0)) 0 = m at ih
      obtain ⟨h1, h2⟩ := ih
      cases hf : f n
      · refine ⟨by simp; rw [pow_succ]; omega, fun k => ?_⟩
        simp only [Bool.false_eq_true, if_false, Nat.add_zero, h2]
        by_cases hk : k = n
        · subst hk; simp [hf]
        · have : (k < n + 1) = (k < n) := by apply propext; omega
          simp [this]
      · refine ⟨by simp; rw [pow_succ]; omega, fun k => ?_⟩
        simp only [if_true]
        have e2 : m + 2 ^ n = 2 ^ n * 1 + m := by omega
        rw [e2, Nat.testBit_two_pow_mul_add _ h1]
        by_cases hk : k < n
        · have : k < n + 1 := by omega
          simp [hk, this, h2]
        · by_cases hk2 : k = n
          · subst hk2; simp [hf]
          · have h3 : ¬ k < n + 1 := by omega
            have h4 : k - n ≠ 0 := by omega
            have h5 : (2 ^ 0).testBit (k - n) = decide (0 = k - n) := Nat.testBit_two_pow
            rw [if_neg hk, show (1 : Nat) = 2 ^ 0 from rfl, h5]
            simp [h3]
            omega
  exact (gen n).2 k

end Sys2Proof.Machine
end

