-- ==== Sys2Proof/Laws/Touch.lean ====
section
/-! SUPPORT. The laws of `Touches`: changes compose, branches and loops, and one accessor and one update per component. -/

set_option Elab.async false

namespace Sys2Proof.Machine

variable {h g X Y A B : Hw} {k l : List Block}

theorem Touches.refl : Touches l h h := fun b _ => by cases b <;> rfl

/-- Listed in the smaller, so listed in the larger. -/
theorem Block.contains_within (hl : Block.within k l = true) {b : Block} (hb : l.contains b = false) : k.contains b = false := by
  cases hk : k.contains b with
  | false => rfl
  | true =>
    have := List.all_eq_true.mp hl b (List.contains_iff_mem.mp hk)
    simp_all

theorem Touches.step (t : Touches l h X) (s : Touches k X Y) (hl : Block.within k l = true := by rfl) : Touches l h Y := by
  intro b hb
  have h1 := t b hb
  have h2 := s b (Block.contains_within hl hb)
  cases b <;> exact h2.trans h1

theorem Touches.mono (t : Touches k h X) (hl : Block.within k l = true := by rfl) : Touches l h X := Touches.refl.step t hl

theorem Touches.cut {x : Hw} (a : Touches l h x) (b : Touches l h x → Touches l h Y) : Touches l h Y := b a

theorem Touches.cut2 {α : Type} {x : α × Hw} (a : Touches l h x.2) (b : Touches l h x.2 → Touches l h Y) : Touches l h Y := b a

theorem Touches.pair {α : Type} {a : α} (t : Touches l h X) : Touches l h (a, X).2 := t

theorem Touches.ite {c : Prop} [Decidable c] (a : Touches l h A) (b : Touches l h B) : Touches l h (if c then A else B) := by
  split
  · exact a
  · exact b

theorem Touches.ite2 {α : Type} {c : Prop} [Decidable c] {A B : α × Hw} (a : Touches l h A.2) (b : Touches l h B.2) :
    Touches l h (if c then A else B).2 := by
  split
  · exact a
  · exact b

/-- The second component of a pair known by an equation. -/
theorem Touches.snd {α : Type} {p : α × Hw} {a : α} (t : Touches l h p.2) (e : p = (a, X)) : Touches l h X := by
  have := congrArg Prod.snd e
  simp only at this
  exact this ▸ t

theorem Touches.forEach {α : Type} {f : α → Hw → Hw} {xs : List α} (t : Touches l h X)
    (hf : ∀ x g, Touches l h g → Touches l h (f x g)) : Touches l h (forEach f xs X) := by
  induction xs generalizing X with
  | nil => exact t
  | cons x xs ih => exact ih (hf x X t)

theorem Touches.foldl {α : Type} {f : Hw → α → Hw} {xs : List α} (t : Touches l h X)
    (hf : ∀ g x, Touches l h g → Touches l h (f g x)) : Touches l h (xs.foldl f X) := by
  induction xs generalizing X with
  | nil => exact t
  | cons x xs ih => exact ih (hf X x t)

theorem Touches.regs (t : Touches l h X) (hb : l.contains .regs = false := by rfl) : X.regs = h.regs := t .regs hb
theorem Touches.mem (t : Touches l h X) (hb : l.contains .mem = false := by rfl) : X.mem = h.mem := t .mem hb
theorem Touches.ecc (t : Touches l h X) (hb : l.contains .ecc = false := by rfl) : X.ecc = h.ecc := t .ecc hb
theorem Touches.free (t : Touches l h X) (hb : l.contains .free = false := by rfl) : X.free = h.free := t .free hb
theorem Touches.resp (t : Touches l h X) (hb : l.contains .resp = false := by rfl) : X.resp = h.resp := t .resp hb
theorem Touches.stalls (t : Touches l h X) (hb : l.contains .stalls = false := by rfl) : X.stalls = h.stalls := t .stalls hb
theorem Touches.late (t : Touches l h X) (hb : l.contains .late = false := by rfl) : X.late = h.late := t .late hb
theorem Touches.fuses (t : Touches l h X) (hb : l.contains .fuses = false := by rfl) : X.fuses = h.fuses := t .fuses hb
theorem Touches.kept (t : Touches l h X) (hb : l.contains .kept = false := by rfl) : X.kept = h.kept := t .kept hb
theorem Touches.pwr (t : Touches l h X) (hb : l.contains .pwr = false := by rfl) : X.pwr = h.pwr := t .pwr hb
theorem Touches.sys (t : Touches l h X) (hb : l.contains .sys = false := by rfl) : X.sys = h.sys := t .sys hb
theorem Touches.elogQ (t : Touches l h X) (hb : l.contains .elogQ = false := by rfl) : X.elogQ = h.elogQ := t .elogQ hb
theorem Touches.memu (t : Touches l h X) (hb : l.contains .memu = false := by rfl) : X.memu = h.memu := t .memu hb
theorem Touches.dmaTry (t : Touches l h X) (hb : l.contains .dmaTry = false := by rfl) : X.dmaTry = h.dmaTry := t .dmaTry hb
theorem Touches.ports (t : Touches l h X) (hb : l.contains .ports = false := by rfl) : X.ports = h.ports := t .ports hb
theorem Touches.tspi (t : Touches l h X) (hb : l.contains .tspi = false := by rfl) : X.tspi = h.tspi := t .tspi hb
theorem Touches.sspi (t : Touches l h X) (hb : l.contains .sspi = false := by rfl) : X.sspi = h.sspi := t .sspi hb
theorem Touches.strands (t : Touches l h X) (hb : l.contains .strands = false := by rfl) : X.strands = h.strands := t .strands hb
theorem Touches.fab (t : Touches l h X) (hb : l.contains .fab = false := by rfl) : X.fab = h.fab := t .fab hb
theorem Touches.loop (t : Touches l h X) (hb : l.contains .loop = false := by rfl) : X.loop = h.loop := t .loop hb
theorem Touches.tcnt (t : Touches l h X) (hb : l.contains .tcnt = false := by rfl) : X.tcnt = h.tcnt := t .tcnt hb
theorem Touches.coil (t : Touches l h X) (hb : l.contains .coil = false := by rfl) : X.coil = h.coil := t .coil hb
theorem Touches.hot (t : Touches l h X) (hb : l.contains .hot = false := by rfl) : X.hot = h.hot := t .hot hb
theorem Touches.sched (t : Touches l h X) (hb : l.contains .sched = false := by rfl) : X.sched = h.sched := t .sched hb
theorem Touches.hitch (t : Touches l h X) (hb : l.contains .hitch = false := by rfl) : X.hitch = h.hitch := t .hitch hb
theorem Touches.tp (t : Touches l h X) (hb : l.contains .tp = false := by rfl) : X.tp = h.tp := t .tp hb
theorem Touches.fw (t : Touches l h X) (hb : l.contains .fw = false := by rfl) : X.fw = h.fw := t .fw hb
theorem Touches.win (t : Touches l h X) (hb : l.contains .win = false := by rfl) : X.win = h.win := t .win hb
theorem Touches.serials (t : Touches l h X) (hb : l.contains .serials = false := by rfl) : X.serials = h.serials := t .serials hb
theorem Touches.lyd (t : Touches l h X) (hb : l.contains .lyd = false := by rfl) : X.lyd = h.lyd := t .lyd hb
theorem Touches.cans (t : Touches l h X) (hb : l.contains .cans = false := by rfl) : X.cans = h.cans := t .cans hb
theorem Touches.radio (t : Touches l h X) (hb : l.contains .radio = false := by rfl) : X.radio = h.radio := t .radio hb
theorem Touches.pkey (t : Touches l h X) (hb : l.contains .pkey = false := by rfl) : X.pkey = h.pkey := t .pkey hb
theorem Touches.rtc (t : Touches l h X) (hb : l.contains .rtc = false := by rfl) : X.rtc = h.rtc := t .rtc hb
theorem Touches.upd (t : Touches l h X) (hb : l.contains .upd = false := by rfl) : X.upd = h.upd := t .upd hb
theorem Touches.i2c (t : Touches l h X) (hb : l.contains .i2c = false := by rfl) : X.i2c = h.i2c := t .i2c hb
theorem Touches.bgnd (t : Touches l h X) (hb : l.contains .bgnd = false := by rfl) : X.bgnd = h.bgnd := t .bgnd hb
theorem Touches.fix (t : Touches l h X) (hb : l.contains .fix = false := by rfl) : X.fix = h.fix := t .fix hb

theorem set_regs_touches {e : List (Nat × BitVec 32)} : Touches [.regs] h { h with regs := e } := fun b hb => by cases b <;> first | rfl | cases hb
theorem set_mem_touches {e : List Host.Cell} : Touches [.mem] h { h with mem := e } := fun b hb => by cases b <;> first | rfl | cases hb
theorem set_ecc_touches {e : List (Nat × Nat)} : Touches [.ecc] h { h with ecc := e } := fun b hb => by cases b <;> first | rfl | cases hb
theorem set_free_touches {e : Nat} : Touches [.free] h { h with free := e } := fun b hb => by cases b <;> first | rfl | cases hb
theorem set_resp_touches {e : Resp} : Touches [.resp] h { h with resp := e } := fun b hb => by cases b <;> first | rfl | cases hb
theorem set_stalls_touches {e : List BusOp} : Touches [.stalls] h { h with stalls := e } := fun b hb => by cases b <;> first | rfl | cases hb
theorem set_late_touches {e : List (BusOp × Resp)} : Touches [.late] h { h with late := e } := fun b hb => by cases b <;> first | rfl | cases hb
theorem set_fuses_touches {e : Fuses} : Touches [.fuses] h { h with fuses := e } := fun b hb => by cases b <;> first | rfl | cases hb
theorem set_kept_touches {e : Kept} : Touches [.kept] h { h with kept := e } := fun b hb => by cases b <;> first | rfl | cases hb
theorem set_pwr_touches {e : Pwr} : Touches [.pwr] h { h with pwr := e } := fun b hb => by cases b <;> first | rfl | cases hb
theorem set_sys_touches {e : Sys} : Touches [.sys] h { h with sys := e } := fun b hb => by cases b <;> first | rfl | cases hb
theorem set_elogQ_touches {e : List ElogReport} : Touches [.elogQ] h { h with elogQ := e } := fun b hb => by cases b <;> first | rfl | cases hb
theorem set_memu_touches {e : MemUnits} : Touches [.memu] h { h with memu := e } := fun b hb => by cases b <;> first | rfl | cases hb
theorem set_dmaTry_touches {e : List (Nat × Nat × Nat)} : Touches [.dmaTry] h { h with dmaTry := e } := fun b hb => by cases b <;> first | rfl | cases hb
theorem set_ports_touches {e : List (Nat × Port)} : Touches [.ports] h { h with ports := e } := fun b hb => by cases b <;> first | rfl | cases hb
theorem set_tspi_touches {e : Tspi} : Touches [.tspi] h { h with tspi := e } := fun b hb => by cases b <;> first | rfl | cases hb
theorem set_sspi_touches {e : Sspi} : Touches [.sspi] h { h with sspi := e } := fun b hb => by cases b <;> first | rfl | cases hb
theorem set_strands_touches {e : List (Nat × Strand)} : Touches [.strands] h { h with strands := e } := fun b hb => by cases b <;> first | rfl | cases hb
theorem set_fab_touches {e : Fab} : Touches [.fab] h { h with fab := e } := fun b hb => by cases b <;> first | rfl | cases hb
theorem set_loop_touches {e : Loop} : Touches [.loop] h { h with loop := e } := fun b hb => by cases b <;> first | rfl | cases hb
theorem set_tcnt_touches {e : Nat} : Touches [.tcnt] h { h with tcnt := e } := fun b hb => by cases b <;> first | rfl | cases hb
theorem set_coil_touches {e : Coil} : Touches [.coil] h { h with coil := e } := fun b hb => by cases b <;> first | rfl | cases hb
theorem set_hot_touches {e : HotStart} : Touches [.hot] h { h with hot := e } := fun b hb => by cases b <;> first | rfl | cases hb
theorem set_sched_touches {e : WakeSched} : Touches [.sched] h { h with sched := e } := fun b hb => by cases b <;> first | rfl | cases hb
theorem set_hitch_touches {e : Hitch} : Touches [.hitch] h { h with hitch := e } := fun b hb => by cases b <;> first | rfl | cases hb
theorem set_tp_touches {e : TimePulse} : Touches [.tp] h { h with tp := e } := fun b hb => by cases b <;> first | rfl | cases hb
theorem set_fw_touches {e : Fw} : Touches [.fw] h { h with fw := e } := fun b hb => by cases b <;> first | rfl | cases hb
theorem set_win_touches {e : Option HostWin} : Touches [.win] h { h with win := e } := fun b hb => by cases b <;> first | rfl | cases hb
theorem set_serials_touches {e : List (Nat × Serial)} : Touches [.serials] h { h with serials := e } := fun b hb => by cases b <;> first | rfl | cases hb
theorem set_lyd_touches {e : Lanyard} : Touches [.lyd] h { h with lyd := e } := fun b hb => by cases b <;> first | rfl | cases hb
theorem set_cans_touches {e : List (Nat × Can)} : Touches [.cans] h { h with cans := e } := fun b hb => by cases b <;> first | rfl | cases hb
theorem set_radio_touches {e : Radio} : Touches [.radio] h { h with radio := e } := fun b hb => by cases b <;> first | rfl | cases hb
theorem set_pkey_touches {e : PKey} : Touches [.pkey] h { h with pkey := e } := fun b hb => by cases b <;> first | rfl | cases hb
theorem set_rtc_touches {e : Rtc} : Touches [.rtc] h { h with rtc := e } := fun b hb => by cases b <;> first | rfl | cases hb
theorem set_upd_touches {e : Update} : Touches [.upd] h { h with upd := e } := fun b hb => by cases b <;> first | rfl | cases hb
theorem set_i2c_touches {e : I2c} : Touches [.i2c] h { h with i2c := e } := fun b hb => by cases b <;> first | rfl | cases hb
theorem set_bgnd_touches {e : Bgnd} : Touches [.bgnd] h { h with bgnd := e } := fun b hb => by cases b <;> first | rfl | cases hb
theorem set_fix_touches {e : NavFix} : Touches [.fix] h { h with fix := e } := fun b hb => by cases b <;> first | rfl | cases hb
theorem set_ecc_pwr_touches {e0 : List (Nat × Nat)} {e1 : Pwr} : Touches [.ecc, .pwr] h { h with ecc := e0, pwr := e1 } :=
  fun b hb => by cases b <;> first | rfl | cases hb
theorem set_hot_pkey_fix_touches {e0 : HotStart} {e1 : PKey} {e2 : NavFix} : Touches [.hot, .pkey, .fix] h { h with hot := e0, pkey := e1, fix := e2 } :=
  fun b hb => by cases b <;> first | rfl | cases hb
theorem set_kept_upd_touches {e0 : Kept} {e1 : Update} : Touches [.kept, .upd] h { h with kept := e0, upd := e1 } :=
  fun b hb => by cases b <;> first | rfl | cases hb
theorem set_mem_ecc_touches {e0 : List Host.Cell} {e1 : List (Nat × Nat)} : Touches [.mem, .ecc] h { h with mem := e0, ecc := e1 } :=
  fun b hb => by cases b <;> first | rfl | cases hb
theorem set_memu_bgnd_touches {e0 : MemUnits} {e1 : Bgnd} : Touches [.memu, .bgnd] h { h with memu := e0, bgnd := e1 } :=
  fun b hb => by cases b <;> first | rfl | cases hb
theorem set_pwr_memu_touches {e0 : Pwr} {e1 : MemUnits} : Touches [.pwr, .memu] h { h with pwr := e0, memu := e1 } :=
  fun b hb => by cases b <;> first | rfl | cases hb
theorem set_pwr_pkey_touches {e0 : Pwr} {e1 : PKey} : Touches [.pwr, .pkey] h { h with pwr := e0, pkey := e1 } :=
  fun b hb => by cases b <;> first | rfl | cases hb
theorem set_pwr_pkey_rtc_touches {e0 : Pwr} {e1 : PKey} {e2 : Rtc} : Touches [.pwr, .pkey, .rtc] h { h with pwr := e0, pkey := e1, rtc := e2 } :=
  fun b hb => by cases b <;> first | rfl | cases hb
theorem set_pwr_radio_pkey_touches {e0 : Pwr} {e1 : Radio} {e2 : PKey} : Touches [.pwr, .radio, .pkey] h { h with pwr := e0, radio := e1, pkey := e2 } :=
  fun b hb => by cases b <;> first | rfl | cases hb
theorem set_pwr_radio_pkey_rtc_touches {e0 : Pwr} {e1 : Radio} {e2 : PKey} {e3 : Rtc} : Touches [.pwr, .radio, .pkey, .rtc] h { h with pwr := e0, radio := e1, pkey := e2, rtc := e3 } :=
  fun b hb => by cases b <;> first | rfl | cases hb
theorem set_pwr_sys_memu_hot_pkey_touches {e0 : Pwr} {e1 : Sys} {e2 : MemUnits} {e3 : HotStart} {e4 : PKey} : Touches [.pwr, .sys, .memu, .hot, .pkey] h { h with pwr := e0, sys := e1, memu := e2, hot := e3, pkey := e4 } :=
  fun b hb => by cases b <;> first | rfl | cases hb
theorem set_pwr_tcnt_touches {e0 : Pwr} {e1 : Nat} : Touches [.pwr, .tcnt] h { h with pwr := e0, tcnt := e1 } :=
  fun b hb => by cases b <;> first | rfl | cases hb
theorem set_resp_rtc_touches {e0 : Resp} {e1 : Rtc} : Touches [.resp, .rtc] h { h with resp := e0, rtc := e1 } :=
  fun b hb => by cases b <;> first | rfl | cases hb
theorem set_resp_sspi_touches {e0 : Resp} {e1 : Sspi} : Touches [.resp, .sspi] h { h with resp := e0, sspi := e1 } :=
  fun b hb => by cases b <;> first | rfl | cases hb
theorem set_resp_tspi_touches {e0 : Resp} {e1 : Tspi} : Touches [.resp, .tspi] h { h with resp := e0, tspi := e1 } :=
  fun b hb => by cases b <;> first | rfl | cases hb
theorem set_stalls_late_touches {e0 : List BusOp} {e1 : List (BusOp × Resp)} : Touches [.stalls, .late] h { h with stalls := e0, late := e1 } :=
  fun b hb => by cases b <;> first | rfl | cases hb
theorem set_sys_fw_touches {e0 : Sys} {e1 : Fw} : Touches [.sys, .fw] h { h with sys := e0, fw := e1 } :=
  fun b hb => by cases b <;> first | rfl | cases hb
theorem set_upd_fix_touches {e0 : Update} {e1 : NavFix} : Touches [.upd, .fix] h { h with upd := e0, fix := e1 } :=
  fun b hb => by cases b <;> first | rfl | cases hb

end Sys2Proof.Machine
end

