-- ==== Sys2Proof/Laws/Views.lean ====
section
/-! SUPPORT. What registers, fields and bytes read after an update of a component that holds none of them, and after anything that leaves them alone. -/

set_option Elab.async false

namespace Sys2Proof.Machine

variable {l : List Block} {h X : Hw}

theorem Touches.reg (t : Touches l h X) (a : Nat) (hb : l.contains .regs = false := by rfl) : X.reg a = h.reg a := by
  unfold Hw.reg; rw [t .regs hb]

theorem Touches.rf (t : Touches l h X) (f : Fld) (hb : l.contains .regs = false := by rfl) : X.rf f = h.rf f := by
  unfold Hw.rf; rw [t.reg _ hb]

theorem Touches.on (t : Touches l h X) (f : Fld) (hb : l.contains .regs = false := by rfl) : X.on f = h.on f := by
  unfold Hw.on; rw [t.rf _ hb]

theorem Touches.byte (t : Touches l h X) (a : Nat) (hb : l.contains .mem = false := by rfl) : X.byte a = h.byte a := by
  unfold Hw.byte; rw [t .mem hb]

@[simp] theorem Hw.byte_with_regs (e : List (Nat × BitVec 32)) (a : Nat) : ({ h with regs := e } : Hw).byte a = h.byte a := (rfl)
@[simp] theorem Hw.reg_with_mem (e : List Host.Cell) (a : Nat) : ({ h with mem := e } : Hw).reg a = h.reg a := (rfl)
@[simp] theorem Hw.rf_with_mem (e : List Host.Cell) (f : Fld) : ({ h with mem := e } : Hw).rf f = h.rf f := (rfl)
@[simp] theorem Hw.on_with_mem (e : List Host.Cell) (f : Fld) : ({ h with mem := e } : Hw).on f = h.on f := (rfl)
@[simp] theorem Hw.reg_with_ecc (e : List (Nat × Nat)) (a : Nat) : ({ h with ecc := e } : Hw).reg a = h.reg a := (rfl)
@[simp] theorem Hw.rf_with_ecc (e : List (Nat × Nat)) (f : Fld) : ({ h with ecc := e } : Hw).rf f = h.rf f := (rfl)
@[simp] theorem Hw.on_with_ecc (e : List (Nat × Nat)) (f : Fld) : ({ h with ecc := e } : Hw).on f = h.on f := (rfl)
@[simp] theorem Hw.byte_with_ecc (e : List (Nat × Nat)) (a : Nat) : ({ h with ecc := e } : Hw).byte a = h.byte a := (rfl)
@[simp] theorem Hw.reg_with_free (e : Nat) (a : Nat) : ({ h with free := e } : Hw).reg a = h.reg a := (rfl)
@[simp] theorem Hw.rf_with_free (e : Nat) (f : Fld) : ({ h with free := e } : Hw).rf f = h.rf f := (rfl)
@[simp] theorem Hw.on_with_free (e : Nat) (f : Fld) : ({ h with free := e } : Hw).on f = h.on f := (rfl)
@[simp] theorem Hw.byte_with_free (e : Nat) (a : Nat) : ({ h with free := e } : Hw).byte a = h.byte a := (rfl)
@[simp] theorem Hw.reg_with_resp (e : Resp) (a : Nat) : ({ h with resp := e } : Hw).reg a = h.reg a := (rfl)
@[simp] theorem Hw.rf_with_resp (e : Resp) (f : Fld) : ({ h with resp := e } : Hw).rf f = h.rf f := (rfl)
@[simp] theorem Hw.on_with_resp (e : Resp) (f : Fld) : ({ h with resp := e } : Hw).on f = h.on f := (rfl)
@[simp] theorem Hw.byte_with_resp (e : Resp) (a : Nat) : ({ h with resp := e } : Hw).byte a = h.byte a := (rfl)
@[simp] theorem Hw.reg_with_fuses (e : Fuses) (a : Nat) : ({ h with fuses := e } : Hw).reg a = h.reg a := (rfl)
@[simp] theorem Hw.rf_with_fuses (e : Fuses) (f : Fld) : ({ h with fuses := e } : Hw).rf f = h.rf f := (rfl)
@[simp] theorem Hw.on_with_fuses (e : Fuses) (f : Fld) : ({ h with fuses := e } : Hw).on f = h.on f := (rfl)
@[simp] theorem Hw.byte_with_fuses (e : Fuses) (a : Nat) : ({ h with fuses := e } : Hw).byte a = h.byte a := (rfl)
@[simp] theorem Hw.reg_with_kept (e : Kept) (a : Nat) : ({ h with kept := e } : Hw).reg a = h.reg a := (rfl)
@[simp] theorem Hw.rf_with_kept (e : Kept) (f : Fld) : ({ h with kept := e } : Hw).rf f = h.rf f := (rfl)
@[simp] theorem Hw.on_with_kept (e : Kept) (f : Fld) : ({ h with kept := e } : Hw).on f = h.on f := (rfl)
@[simp] theorem Hw.byte_with_kept (e : Kept) (a : Nat) : ({ h with kept := e } : Hw).byte a = h.byte a := (rfl)
@[simp] theorem Hw.reg_with_pwr (e : Pwr) (a : Nat) : ({ h with pwr := e } : Hw).reg a = h.reg a := (rfl)
@[simp] theorem Hw.rf_with_pwr (e : Pwr) (f : Fld) : ({ h with pwr := e } : Hw).rf f = h.rf f := (rfl)
@[simp] theorem Hw.on_with_pwr (e : Pwr) (f : Fld) : ({ h with pwr := e } : Hw).on f = h.on f := (rfl)
@[simp] theorem Hw.byte_with_pwr (e : Pwr) (a : Nat) : ({ h with pwr := e } : Hw).byte a = h.byte a := (rfl)
@[simp] theorem Hw.reg_with_sys (e : Sys) (a : Nat) : ({ h with sys := e } : Hw).reg a = h.reg a := (rfl)
@[simp] theorem Hw.rf_with_sys (e : Sys) (f : Fld) : ({ h with sys := e } : Hw).rf f = h.rf f := (rfl)
@[simp] theorem Hw.on_with_sys (e : Sys) (f : Fld) : ({ h with sys := e } : Hw).on f = h.on f := (rfl)
@[simp] theorem Hw.byte_with_sys (e : Sys) (a : Nat) : ({ h with sys := e } : Hw).byte a = h.byte a := (rfl)
@[simp] theorem Hw.reg_with_elogQ (e : List ElogReport) (a : Nat) : ({ h with elogQ := e } : Hw).reg a = h.reg a := (rfl)
@[simp] theorem Hw.rf_with_elogQ (e : List ElogReport) (f : Fld) : ({ h with elogQ := e } : Hw).rf f = h.rf f := (rfl)
@[simp] theorem Hw.on_with_elogQ (e : List ElogReport) (f : Fld) : ({ h with elogQ := e } : Hw).on f = h.on f := (rfl)
@[simp] theorem Hw.byte_with_elogQ (e : List ElogReport) (a : Nat) : ({ h with elogQ := e } : Hw).byte a = h.byte a := (rfl)
@[simp] theorem Hw.reg_with_memu (e : MemUnits) (a : Nat) : ({ h with memu := e } : Hw).reg a = h.reg a := (rfl)
@[simp] theorem Hw.rf_with_memu (e : MemUnits) (f : Fld) : ({ h with memu := e } : Hw).rf f = h.rf f := (rfl)
@[simp] theorem Hw.on_with_memu (e : MemUnits) (f : Fld) : ({ h with memu := e } : Hw).on f = h.on f := (rfl)
@[simp] theorem Hw.byte_with_memu (e : MemUnits) (a : Nat) : ({ h with memu := e } : Hw).byte a = h.byte a := (rfl)
@[simp] theorem Hw.reg_with_dmaTry (e : List (Nat × Nat × Nat)) (a : Nat) : ({ h with dmaTry := e } : Hw).reg a = h.reg a := (rfl)
@[simp] theorem Hw.rf_with_dmaTry (e : List (Nat × Nat × Nat)) (f : Fld) : ({ h with dmaTry := e } : Hw).rf f = h.rf f := (rfl)
@[simp] theorem Hw.on_with_dmaTry (e : List (Nat × Nat × Nat)) (f : Fld) : ({ h with dmaTry := e } : Hw).on f = h.on f := (rfl)
@[simp] theorem Hw.byte_with_dmaTry (e : List (Nat × Nat × Nat)) (a : Nat) : ({ h with dmaTry := e } : Hw).byte a = h.byte a := (rfl)
@[simp] theorem Hw.reg_with_ports (e : List (Nat × Port)) (a : Nat) : ({ h with ports := e } : Hw).reg a = h.reg a := (rfl)
@[simp] theorem Hw.rf_with_ports (e : List (Nat × Port)) (f : Fld) : ({ h with ports := e } : Hw).rf f = h.rf f := (rfl)
@[simp] theorem Hw.on_with_ports (e : List (Nat × Port)) (f : Fld) : ({ h with ports := e } : Hw).on f = h.on f := (rfl)
@[simp] theorem Hw.byte_with_ports (e : List (Nat × Port)) (a : Nat) : ({ h with ports := e } : Hw).byte a = h.byte a := (rfl)
@[simp] theorem Hw.reg_with_tspi (e : Tspi) (a : Nat) : ({ h with tspi := e } : Hw).reg a = h.reg a := (rfl)
@[simp] theorem Hw.rf_with_tspi (e : Tspi) (f : Fld) : ({ h with tspi := e } : Hw).rf f = h.rf f := (rfl)
@[simp] theorem Hw.on_with_tspi (e : Tspi) (f : Fld) : ({ h with tspi := e } : Hw).on f = h.on f := (rfl)
@[simp] theorem Hw.byte_with_tspi (e : Tspi) (a : Nat) : ({ h with tspi := e } : Hw).byte a = h.byte a := (rfl)
@[simp] theorem Hw.reg_with_sspi (e : Sspi) (a : Nat) : ({ h with sspi := e } : Hw).reg a = h.reg a := (rfl)
@[simp] theorem Hw.rf_with_sspi (e : Sspi) (f : Fld) : ({ h with sspi := e } : Hw).rf f = h.rf f := (rfl)
@[simp] theorem Hw.on_with_sspi (e : Sspi) (f : Fld) : ({ h with sspi := e } : Hw).on f = h.on f := (rfl)
@[simp] theorem Hw.byte_with_sspi (e : Sspi) (a : Nat) : ({ h with sspi := e } : Hw).byte a = h.byte a := (rfl)
@[simp] theorem Hw.reg_with_strands (e : List (Nat × Strand)) (a : Nat) : ({ h with strands := e } : Hw).reg a = h.reg a := (rfl)
@[simp] theorem Hw.rf_with_strands (e : List (Nat × Strand)) (f : Fld) : ({ h with strands := e } : Hw).rf f = h.rf f := (rfl)
@[simp] theorem Hw.on_with_strands (e : List (Nat × Strand)) (f : Fld) : ({ h with strands := e } : Hw).on f = h.on f := (rfl)
@[simp] theorem Hw.byte_with_strands (e : List (Nat × Strand)) (a : Nat) : ({ h with strands := e } : Hw).byte a = h.byte a := (rfl)
@[simp] theorem Hw.reg_with_fab (e : Fab) (a : Nat) : ({ h with fab := e } : Hw).reg a = h.reg a := (rfl)
@[simp] theorem Hw.rf_with_fab (e : Fab) (f : Fld) : ({ h with fab := e } : Hw).rf f = h.rf f := (rfl)
@[simp] theorem Hw.on_with_fab (e : Fab) (f : Fld) : ({ h with fab := e } : Hw).on f = h.on f := (rfl)
@[simp] theorem Hw.byte_with_fab (e : Fab) (a : Nat) : ({ h with fab := e } : Hw).byte a = h.byte a := (rfl)
@[simp] theorem Hw.reg_with_loop (e : Loop) (a : Nat) : ({ h with loop := e } : Hw).reg a = h.reg a := (rfl)
@[simp] theorem Hw.rf_with_loop (e : Loop) (f : Fld) : ({ h with loop := e } : Hw).rf f = h.rf f := (rfl)
@[simp] theorem Hw.on_with_loop (e : Loop) (f : Fld) : ({ h with loop := e } : Hw).on f = h.on f := (rfl)
@[simp] theorem Hw.byte_with_loop (e : Loop) (a : Nat) : ({ h with loop := e } : Hw).byte a = h.byte a := (rfl)
@[simp] theorem Hw.reg_with_tcnt (e : Nat) (a : Nat) : ({ h with tcnt := e } : Hw).reg a = h.reg a := (rfl)
@[simp] theorem Hw.rf_with_tcnt (e : Nat) (f : Fld) : ({ h with tcnt := e } : Hw).rf f = h.rf f := (rfl)
@[simp] theorem Hw.on_with_tcnt (e : Nat) (f : Fld) : ({ h with tcnt := e } : Hw).on f = h.on f := (rfl)
@[simp] theorem Hw.byte_with_tcnt (e : Nat) (a : Nat) : ({ h with tcnt := e } : Hw).byte a = h.byte a := (rfl)
@[simp] theorem Hw.reg_with_coil (e : Coil) (a : Nat) : ({ h with coil := e } : Hw).reg a = h.reg a := (rfl)
@[simp] theorem Hw.rf_with_coil (e : Coil) (f : Fld) : ({ h with coil := e } : Hw).rf f = h.rf f := (rfl)
@[simp] theorem Hw.on_with_coil (e : Coil) (f : Fld) : ({ h with coil := e } : Hw).on f = h.on f := (rfl)
@[simp] theorem Hw.byte_with_coil (e : Coil) (a : Nat) : ({ h with coil := e } : Hw).byte a = h.byte a := (rfl)
@[simp] theorem Hw.reg_with_hot (e : HotStart) (a : Nat) : ({ h with hot := e } : Hw).reg a = h.reg a := (rfl)
@[simp] theorem Hw.rf_with_hot (e : HotStart) (f : Fld) : ({ h with hot := e } : Hw).rf f = h.rf f := (rfl)
@[simp] theorem Hw.on_with_hot (e : HotStart) (f : Fld) : ({ h with hot := e } : Hw).on f = h.on f := (rfl)
@[simp] theorem Hw.byte_with_hot (e : HotStart) (a : Nat) : ({ h with hot := e } : Hw).byte a = h.byte a := (rfl)
@[simp] theorem Hw.reg_with_hitch (e : Hitch) (a : Nat) : ({ h with hitch := e } : Hw).reg a = h.reg a := (rfl)
@[simp] theorem Hw.rf_with_hitch (e : Hitch) (f : Fld) : ({ h with hitch := e } : Hw).rf f = h.rf f := (rfl)
@[simp] theorem Hw.on_with_hitch (e : Hitch) (f : Fld) : ({ h with hitch := e } : Hw).on f = h.on f := (rfl)
@[simp] theorem Hw.byte_with_hitch (e : Hitch) (a : Nat) : ({ h with hitch := e } : Hw).byte a = h.byte a := (rfl)
@[simp] theorem Hw.reg_with_tp (e : TimePulse) (a : Nat) : ({ h with tp := e } : Hw).reg a = h.reg a := (rfl)
@[simp] theorem Hw.rf_with_tp (e : TimePulse) (f : Fld) : ({ h with tp := e } : Hw).rf f = h.rf f := (rfl)
@[simp] theorem Hw.on_with_tp (e : TimePulse) (f : Fld) : ({ h with tp := e } : Hw).on f = h.on f := (rfl)
@[simp] theorem Hw.byte_with_tp (e : TimePulse) (a : Nat) : ({ h with tp := e } : Hw).byte a = h.byte a := (rfl)
@[simp] theorem Hw.reg_with_fw (e : Fw) (a : Nat) : ({ h with fw := e } : Hw).reg a = h.reg a := (rfl)
@[simp] theorem Hw.rf_with_fw (e : Fw) (f : Fld) : ({ h with fw := e } : Hw).rf f = h.rf f := (rfl)
@[simp] theorem Hw.on_with_fw (e : Fw) (f : Fld) : ({ h with fw := e } : Hw).on f = h.on f := (rfl)
@[simp] theorem Hw.byte_with_fw (e : Fw) (a : Nat) : ({ h with fw := e } : Hw).byte a = h.byte a := (rfl)
@[simp] theorem Hw.reg_with_win (e : Option HostWin) (a : Nat) : ({ h with win := e } : Hw).reg a = h.reg a := (rfl)
@[simp] theorem Hw.rf_with_win (e : Option HostWin) (f : Fld) : ({ h with win := e } : Hw).rf f = h.rf f := (rfl)
@[simp] theorem Hw.on_with_win (e : Option HostWin) (f : Fld) : ({ h with win := e } : Hw).on f = h.on f := (rfl)
@[simp] theorem Hw.byte_with_win (e : Option HostWin) (a : Nat) : ({ h with win := e } : Hw).byte a = h.byte a := (rfl)
@[simp] theorem Hw.reg_with_serials (e : List (Nat × Serial)) (a : Nat) : ({ h with serials := e } : Hw).reg a = h.reg a := (rfl)
@[simp] theorem Hw.rf_with_serials (e : List (Nat × Serial)) (f : Fld) : ({ h with serials := e } : Hw).rf f = h.rf f := (rfl)
@[simp] theorem Hw.on_with_serials (e : List (Nat × Serial)) (f : Fld) : ({ h with serials := e } : Hw).on f = h.on f := (rfl)
@[simp] theorem Hw.byte_with_serials (e : List (Nat × Serial)) (a : Nat) : ({ h with serials := e } : Hw).byte a = h.byte a := (rfl)
@[simp] theorem Hw.reg_with_lyd (e : Lanyard) (a : Nat) : ({ h with lyd := e } : Hw).reg a = h.reg a := (rfl)
@[simp] theorem Hw.rf_with_lyd (e : Lanyard) (f : Fld) : ({ h with lyd := e } : Hw).rf f = h.rf f := (rfl)
@[simp] theorem Hw.on_with_lyd (e : Lanyard) (f : Fld) : ({ h with lyd := e } : Hw).on f = h.on f := (rfl)
@[simp] theorem Hw.byte_with_lyd (e : Lanyard) (a : Nat) : ({ h with lyd := e } : Hw).byte a = h.byte a := (rfl)
@[simp] theorem Hw.reg_with_cans (e : List (Nat × Can)) (a : Nat) : ({ h with cans := e } : Hw).reg a = h.reg a := (rfl)
@[simp] theorem Hw.rf_with_cans (e : List (Nat × Can)) (f : Fld) : ({ h with cans := e } : Hw).rf f = h.rf f := (rfl)
@[simp] theorem Hw.on_with_cans (e : List (Nat × Can)) (f : Fld) : ({ h with cans := e } : Hw).on f = h.on f := (rfl)
@[simp] theorem Hw.byte_with_cans (e : List (Nat × Can)) (a : Nat) : ({ h with cans := e } : Hw).byte a = h.byte a := (rfl)
@[simp] theorem Hw.reg_with_radio (e : Radio) (a : Nat) : ({ h with radio := e } : Hw).reg a = h.reg a := (rfl)
@[simp] theorem Hw.rf_with_radio (e : Radio) (f : Fld) : ({ h with radio := e } : Hw).rf f = h.rf f := (rfl)
@[simp] theorem Hw.on_with_radio (e : Radio) (f : Fld) : ({ h with radio := e } : Hw).on f = h.on f := (rfl)
@[simp] theorem Hw.byte_with_radio (e : Radio) (a : Nat) : ({ h with radio := e } : Hw).byte a = h.byte a := (rfl)
@[simp] theorem Hw.reg_with_pkey (e : PKey) (a : Nat) : ({ h with pkey := e } : Hw).reg a = h.reg a := (rfl)
@[simp] theorem Hw.rf_with_pkey (e : PKey) (f : Fld) : ({ h with pkey := e } : Hw).rf f = h.rf f := (rfl)
@[simp] theorem Hw.on_with_pkey (e : PKey) (f : Fld) : ({ h with pkey := e } : Hw).on f = h.on f := (rfl)
@[simp] theorem Hw.byte_with_pkey (e : PKey) (a : Nat) : ({ h with pkey := e } : Hw).byte a = h.byte a := (rfl)
@[simp] theorem Hw.reg_with_rtc (e : Rtc) (a : Nat) : ({ h with rtc := e } : Hw).reg a = h.reg a := (rfl)
@[simp] theorem Hw.rf_with_rtc (e : Rtc) (f : Fld) : ({ h with rtc := e } : Hw).rf f = h.rf f := (rfl)
@[simp] theorem Hw.on_with_rtc (e : Rtc) (f : Fld) : ({ h with rtc := e } : Hw).on f = h.on f := (rfl)
@[simp] theorem Hw.byte_with_rtc (e : Rtc) (a : Nat) : ({ h with rtc := e } : Hw).byte a = h.byte a := (rfl)
@[simp] theorem Hw.reg_with_upd (e : Update) (a : Nat) : ({ h with upd := e } : Hw).reg a = h.reg a := (rfl)
@[simp] theorem Hw.rf_with_upd (e : Update) (f : Fld) : ({ h with upd := e } : Hw).rf f = h.rf f := (rfl)
@[simp] theorem Hw.on_with_upd (e : Update) (f : Fld) : ({ h with upd := e } : Hw).on f = h.on f := (rfl)
@[simp] theorem Hw.byte_with_upd (e : Update) (a : Nat) : ({ h with upd := e } : Hw).byte a = h.byte a := (rfl)
@[simp] theorem Hw.reg_with_i2c (e : I2c) (a : Nat) : ({ h with i2c := e } : Hw).reg a = h.reg a := (rfl)
@[simp] theorem Hw.rf_with_i2c (e : I2c) (f : Fld) : ({ h with i2c := e } : Hw).rf f = h.rf f := (rfl)
@[simp] theorem Hw.on_with_i2c (e : I2c) (f : Fld) : ({ h with i2c := e } : Hw).on f = h.on f := (rfl)
@[simp] theorem Hw.byte_with_i2c (e : I2c) (a : Nat) : ({ h with i2c := e } : Hw).byte a = h.byte a := (rfl)
@[simp] theorem Hw.reg_with_bgnd (e : Bgnd) (a : Nat) : ({ h with bgnd := e } : Hw).reg a = h.reg a := (rfl)
@[simp] theorem Hw.rf_with_bgnd (e : Bgnd) (f : Fld) : ({ h with bgnd := e } : Hw).rf f = h.rf f := (rfl)
@[simp] theorem Hw.on_with_bgnd (e : Bgnd) (f : Fld) : ({ h with bgnd := e } : Hw).on f = h.on f := (rfl)
@[simp] theorem Hw.byte_with_bgnd (e : Bgnd) (a : Nat) : ({ h with bgnd := e } : Hw).byte a = h.byte a := (rfl)
@[simp] theorem Hw.reg_with_fix (e : NavFix) (a : Nat) : ({ h with fix := e } : Hw).reg a = h.reg a := (rfl)
@[simp] theorem Hw.rf_with_fix (e : NavFix) (f : Fld) : ({ h with fix := e } : Hw).rf f = h.rf f := (rfl)
@[simp] theorem Hw.on_with_fix (e : NavFix) (f : Fld) : ({ h with fix := e } : Hw).on f = h.on f := (rfl)
@[simp] theorem Hw.byte_with_fix (e : NavFix) (a : Nat) : ({ h with fix := e } : Hw).byte a = h.byte a := (rfl)

end Sys2Proof.Machine
end

