-- ==== Sys2Proof/Laws/Bytes.lean ====
section
/-! SUPPORT. Bytes and the numbers they spell: what a load gives and what a store leaves, byte by byte (R42), and where the SRAM regions lie. -/

set_option Elab.async false

namespace Sys2Proof.Machine

/-- A load gives the number that the bytes spell. -/
theorem Hw.holds_load (h : Hw) (a n : Nat) : h.holds a n (h.load a n) := by
  induction n generalizing a with
  | zero => exact ⟨by simp [Hw.load], fun i hi => by omega⟩
  | succ n ih =>
    obtain ⟨h1, h2⟩ := ih (a + 1)
    have hb := (h.byte a).isLt
    refine ⟨?_, fun i hi => ?_⟩
    · simp only [Hw.load, pow_succ]; omega
    · cases i with
      | zero => simp only [Hw.load, pow_zero, Nat.div_one, Nat.add_zero]; omega
      | succ i =>
        have := h2 i (by omega)
        have e : ((h.byte a).toNat + 256 * h.load (a + 1) n) / 256 ^ (i + 1) = h.load (a + 1) n / 256 ^ i := by
          rw [pow_succ', ← Nat.div_div_eq_div_mul, show ((h.byte a).toNat + 256 * h.load (a + 1) n) / 256 = h.load (a + 1) n by omega]
        simp only [Hw.load]
        rw [e, this, show a + 1 + i = a + (i + 1) by omega]

/-- A store leaves the bytes of its value. -/
theorem Hw.byte_store_in (h : Hw) (a n v i : Nat) (hi : i < n) : ((h.store a n v).byte (a + i)).toNat = v / 256 ^ i % 256 := by
  induction n generalizing h a v i with
  | zero => omega
  | succ n ih =>
    cases i with
    | zero =>
      rw [Hw.store, Hw.byte_store _ _ _ _ _ (by omega), Nat.add_zero, Hw.byte_setByte_same]
      simp
    | succ i =>
      rw [Hw.store, show a + (i + 1) = a + 1 + i by omega, ih _ _ _ _ (by omega), pow_succ', ← Nat.div_div_eq_div_mul]

/-- A byte of a number, as its bits. -/
theorem testBit_byte (v i k : Nat) : (v / 256 ^ i % 256).testBit k = (decide (k < 8) && v.testBit (8 * i + k)) := by
  rw [show (256 : Nat) ^ i = 2 ^ (8 * i) by rw [show (256 : Nat) = 2 ^ 8 by norm_num, ← pow_mul], show (256 : Nat) = 2 ^ 8 by norm_num,
    Nat.testBit_mod_two_pow, Nat.testBit_div_two_pow]
  congr 2
  omega

/-- The bytes of a disjunction and of a conjunction. -/
theorem byte_or (x y i : Nat) : (x ||| y) / 256 ^ i % 256 = (x / 256 ^ i % 256) ||| (y / 256 ^ i % 256) := by
  apply Nat.eq_of_testBit_eq
  intro k
  simp only [testBit_byte, Nat.testBit_or, Bool.and_or_distrib_left]

theorem byte_and (x y i : Nat) : (x &&& y) / 256 ^ i % 256 = (x / 256 ^ i % 256) &&& (y / 256 ^ i % 256) := by
  apply Nat.eq_of_testBit_eq
  intro k
  simp only [testBit_byte, Nat.testBit_and]
  cases decide (k < 8) <;> simp

/-- The bytes of the complement of an n-byte number. -/
theorem byte_not (v n i : Nat) (hi : i < n) : (v % pow2 (8 * n) ^^^ (pow2 (8 * n) - 1)) / 256 ^ i % 256 = (v / 256 ^ i % 256) ^^^ 255 := by
  apply Nat.eq_of_testBit_eq
  intro k
  have p1 : pow2 (8 * n) = 2 ^ (8 * n) := by unfold pow2; exact Nat.one_shiftLeft _
  have h255 : (255 : Nat).testBit k = decide (k < 8) := by
    rw [show (255 : Nat) = 2 ^ 8 - 1 by norm_num, Nat.testBit_two_pow_sub_one]
  rw [testBit_byte, Nat.testBit_xor, Nat.testBit_xor, testBit_byte, p1, Nat.testBit_mod_two_pow, Nat.testBit_two_pow_sub_one, h255]
  by_cases hk : k < 8
  · have : 8 * i + k < 8 * n := by omega
    simp [hk, this]
  · simp [hk]

/-- The low bytes of a number are those of the number taken to its width. -/
theorem byte_mod (v n i : Nat) (hi : i < n) : (v % pow2 (8 * n)) / 256 ^ i % 256 = v / 256 ^ i % 256 := by
  apply Nat.eq_of_testBit_eq
  intro k
  have p1 : pow2 (8 * n) = 2 ^ (8 * n) := by unfold pow2; exact Nat.one_shiftLeft _
  rw [testBit_byte, testBit_byte, p1, Nat.testBit_mod_two_pow]
  by_cases hk : k < 8
  · have : 8 * i + k < 8 * n := by omega
    simp [hk, this]
  · simp [hk]

/-- A count that saturates stays within its largest value. -/
theorem satTo_le (m n : Nat) : satTo m n ≤ m := by unfold satTo; split <;> omega

/-- An SRAM address is no register, no backup register, no MRAM, no save area and no alias. -/
theorem inSram_plain {a : Nat} (ha : inSram a = true) : isBlock a = false ∧ isBackupReg a = false ∧ isMram a = false ∧ isSaveArea a = false ∧
    baseOf a = a ∧ within 0x10000000 0x3FFFFFFF a = true ∧ (aliasOf a).1 = .plain := by
  simp only [inSram, within, Bool.or_eq_true, Bool.and_eq_true, decide_eq_true_eq] at ha
  have n1 : ∀ lo hi, (hi < lo ∨ a < lo ∨ hi < a) → within lo hi a = false := by
    intro lo hi hh
    simp only [within, Bool.and_eq_false_iff, decide_eq_false_iff_not]
    omega
  have al : aliasOf a = (.plain, a) := by
    unfold aliasOf
    rw [n1 _ _ (by omega), n1 _ _ (by omega)]
    rfl
  refine ⟨?_, ?_, ?_, ?_, ?_, ?_, ?_⟩
  · unfold isBlock; rw [n1 _ _ (by omega), n1 _ _ (by omega)]; rfl
  · unfold isBackupReg; rw [n1 _ _ (by omega)]
  · unfold isMram; rw [n1 _ _ (by omega)]
  · unfold isSaveArea; rw [n1 _ _ (by omega)]
  · unfold baseOf; rw [al]
  · simp only [within, Bool.and_eq_true, decide_eq_true_eq]; omega
  · rw [al]

end Sys2Proof.Machine
end

