-- ==== Sys2Proof/Laws/TouchOps.lean ====
section
/-! SUPPORT. What each operation of Machine/Ops.lean touches of the part: the components outside the list stay as they were. -/

set_option Elab.async false

namespace Sys2Proof.Machine

theorem Hw.setReg_touches {h : Hw} {a : Nat} {v : BitVec 32} : Touches [.regs] h (Hw.setReg h a v) := by
  unfold Hw.setReg
  exact Touches.refl.step set_regs_touches

theorem Hw.sf_touches {h : Hw} {f : Fld} {v : Nat} : Touches [.regs] h (Hw.sf h f v) := by
  unfold Hw.sf
  exact Touches.refl.step Hw.setReg_touches

theorem Hw.bumpBy_touches {h : Hw} {f : Fld} {k : Nat} : Touches [.regs] h (Hw.bumpBy h f k) := by
  unfold Hw.bumpBy
  exact Touches.refl.step Hw.sf_touches

theorem Hw.bump_touches {h : Hw} {f : Fld} : Touches [.regs] h (Hw.bump h f) := by
  unfold Hw.bump
  exact Touches.refl.step Hw.bumpBy_touches

theorem Hw.count_touches {h : Hw} {f : Fld} : Touches [.regs] h (Hw.count h f) := by
  unfold Hw.count
  exact Touches.refl.step Hw.sf_touches

theorem Hw.sfInt_touches {h : Hw} {f : Fld} {v : Int} : Touches [.regs] h (Hw.sfInt h f v) := by
  unfold Hw.sfInt
  exact Touches.refl.step Hw.sf_touches

theorem Hw.writeFields_touches {h : Hw} {a : Nat} {v : Nat} : Touches [.regs] h (Hw.writeFields h a v) := by
  unfold Hw.writeFields
  split
  · exact Touches.refl
  · exact Touches.refl.step Hw.setReg_touches

theorem Hw.setByte_touches {h : Hw} {a : Nat} {v : BitVec 8} : Touches [.mem] h (Hw.setByte h a v) := by
  unfold Hw.setByte
  exact Touches.refl.step set_mem_touches

theorem Hw.store_touches {h : Hw} {a : Nat} {b1 : Nat} {b2 : Nat} : Touches [.mem] h (Hw.store h a b1 b2) := by
  induction b1 generalizing h a b2 with
  | zero =>
    unfold Hw.store
    exact Touches.refl
  | succ k ih =>
    unfold Hw.store
    exact (Touches.refl.step Hw.setByte_touches).step ih

theorem Hw.store32_touches {h : Hw} {a : Nat} {v : Nat} : Touches [.mem] h (Hw.store32 h a v) := by
  unfold Hw.store32
  exact Touches.refl.step Hw.store_touches

theorem Hw.storeWords_touches {h : Hw} {a : Nat} {b1 : List Nat} : Touches [.mem] h (Hw.storeWords h a b1) := by
  induction b1 generalizing h a with
  | nil =>
    unfold Hw.storeWords
    exact Touches.refl
  | cons y ys ih =>
    unfold Hw.storeWords
    exact (Touches.refl.step Hw.store32_touches).step ih

theorem Hw.storeBytes_touches {h : Hw} {a : Nat} {b1 : List Nat} : Touches [.mem] h (Hw.storeBytes h a b1) := by
  induction b1 generalizing h a with
  | nil =>
    unfold Hw.storeBytes
    exact Touches.refl
  | cons y ys ih =>
    unfold Hw.storeBytes
    exact (Touches.refl.step Hw.setByte_touches).step ih

theorem Hw.zero_touches {h : Hw} {a : Nat} {n : Nat} : Touches [.mem] h (Hw.zero h a n) := by
  unfold Hw.zero
  exact Touches.refl.step set_mem_touches

theorem Hw.setEcc_touches {h : Hw} {a : Nat} {e : Nat} : Touches [.ecc] h (Hw.setEcc h a e) := by
  unfold Hw.setEcc
  exact Touches.refl.step set_ecc_touches

theorem Hw.putWords_touches {h : Hw} {a : Nat} {b1 : List Nat} : Touches [.mem, .ecc] h (Hw.putWords h a b1) := by
  induction b1 generalizing h a with
  | nil =>
    unfold Hw.putWords
    exact Touches.refl
  | cons y ys ih =>
    unfold Hw.putWords
    exact ((Touches.refl.step Hw.store32_touches).step Hw.setEcc_touches).step ih

theorem Hw.setPort_touches {h : Hw} {n : Nat} {p : Port} : Touches [.ports] h (Hw.setPort h n p) := by
  unfold Hw.setPort
  exact Touches.refl.step set_ports_touches

theorem Hw.setStrand_touches {h : Hw} {s : Nat} {t : Strand} : Touches [.strands] h (Hw.setStrand h s t) := by
  unfold Hw.setStrand
  exact Touches.refl.step set_strands_touches

theorem Hw.setEngine_touches {h : Hw} {e : Nat} {g : Engine} : Touches [.fab] h (Hw.setEngine h e g) := by
  unfold Hw.setEngine
  exact Touches.refl.step set_fab_touches

theorem Hw.setTranche_touches {h : Hw} {i : Nat} {t : Option Tranche} : Touches [.fab] h (Hw.setTranche h i t) := by
  unfold Hw.setTranche
  exact Touches.refl.step set_fab_touches

theorem Hw.setCore_touches {h : Hw} {c : Nat} {k : Core} : Touches [.loop] h (Hw.setCore h c k) := by
  unfold Hw.setCore
  exact Touches.refl.step set_loop_touches

theorem Hw.fresh_touches {h : Hw} : Touches [.free] h (Hw.fresh h).2 := by
  unfold Hw.fresh
  exact Touches.pair (Touches.refl.step set_free_touches)

theorem Hw.freshWords_touches {h : Hw} {b1 : Nat} : Touches [.free] h (Hw.freshWords h b1).2 := by
  induction b1 generalizing h with
  | zero =>
    unfold Hw.freshWords
    exact Touches.pair (Touches.refl)
  | succ k ih =>
    unfold Hw.freshWords
    split
    · rename_i a1 a2 h3 e4
      refine Touches.cut (x := h3) (Touches.snd ?_ e4) fun th3 => ?_
      · exact Touches.refl.step Hw.fresh_touches
      split
      · rename_i a5 a6 h7 e8
        refine Touches.cut (x := h7) (Touches.snd ?_ e8) fun th7 => ?_
        · exact th3.step ih
        exact Touches.pair (th7)

theorem Hw.freshBytes_touches {h : Hw} {b1 : Nat} : Touches [.free] h (Hw.freshBytes h b1).2 := by
  induction b1 generalizing h with
  | zero =>
    unfold Hw.freshBytes
    exact Touches.pair (Touches.refl)
  | succ k ih =>
    unfold Hw.freshBytes
    split
    · rename_i a1 a2 h3 e4
      refine Touches.cut (x := h3) (Touches.snd ?_ e4) fun th3 => ?_
      · exact Touches.refl.step Hw.fresh_touches
      split
      · rename_i a5 a6 h7 e8
        refine Touches.cut (x := h7) (Touches.snd ?_ e8) fun th7 => ?_
        · exact th3.step ih
        exact Touches.pair (th7)

theorem Hw.report_touches {h : Hw} {cls : Nat} {code : Nat} {source : Nat} {addr : Nat} {detail : Nat} : Touches [.regs, .elogQ] h (Hw.report h cls code source addr detail) := by
  unfold Hw.report
  refine Touches.ite ?_ ?_
  · extract_lets +onlyGivenNames h1
    refine Touches.cut (x := h1) ?_ fun th1 => ?_
    · subst h1
      exact Touches.refl.step Hw.count_touches
    clear_value h1
    extract_lets +onlyGivenNames v2
    exact th1.step set_elogQ_touches
  · exact ((Touches.refl.step Hw.bump_touches).step Hw.bump_touches).step Hw.sf_touches

theorem Hw.reach_touches {h : Hw} {t : Nat} : Touches [.tcnt] h (Hw.reach h t) := by
  unfold Hw.reach
  exact Touches.refl.step set_tcnt_touches

end Sys2Proof.Machine
end

