-- ==== Sys2Proof/Laws/TouchProtect.lean ====
section
/-! SUPPORT. What each operation of Machine/Protect.lean touches of the part: the components outside the list stay as they were. -/

set_option Elab.async false

namespace Sys2Proof.Machine

theorem Hw.mpuRecord_touches {h : Hw} {src : Nat} {a : Nat} {write : Bool} : Touches [.regs] h (Hw.mpuRecord h src a write) := by
  unfold Hw.mpuRecord
  extract_lets +onlyGivenNames h1
  refine Touches.cut (x := h1) ?_ fun th1 => ?_
  · subst h1
    exact ((Touches.refl.step Hw.sf_touches).step Hw.sf_touches).step Hw.sf_touches
  clear_value h1
  exact (th1.step Hw.bump_touches).step Hw.sf_touches

theorem Hw.fabWrite_touches {h : Hw} {a : Nat} {lo : Nat} {hi : Nat} {who : Nat} : Touches [.regs, .mem, .ecc, .elogQ] h (Hw.fabWrite h a lo hi who) := by
  unfold Hw.fabWrite
  refine Touches.ite ?_ ?_
  · exact ((Touches.refl.step Hw.store32_touches).step Hw.store32_touches).step Hw.setEcc_touches
  · exact (Touches.refl.step Hw.mpuRecord_touches).step Hw.report_touches

theorem Hw.fabWrites_touches {h : Hw} {a who : Nat} {ws : List Nat} : Touches [.regs, .mem, .ecc, .elogQ] h (h.fabWrites a who ws) := by
  fun_induction Hw.fabWrites h a who ws with
  | case1 h a lo hi rest ih => exact (Touches.refl.step Hw.fabWrite_touches).step ih
  | case2 h a lo => exact Touches.refl.step Hw.fabWrite_touches
  | case3 h a => exact Touches.refl

end Sys2Proof.Machine
end

