-- ==== Sys2Proof/Laws/TouchMemory.lean ====
section
/-! SUPPORT. What each operation of Machine/Memory.lean touches of the part: the components outside the list stay as they were. -/

set_option Elab.async false

namespace Sys2Proof.Machine

theorem Hw.setDom_touches {h : Hw} {d : Nat} {v : Nat} : Touches [.regs] h (Hw.setDom h d v) := by
  unfold Hw.setDom
  extract_lets +onlyGivenNames v1
  exact Touches.refl.step Hw.sf_touches

theorem Hw.wakeDomain_touches {h : Hw} {d : Nat} : Touches [.regs] h (Hw.wakeDomain h d) := by
  unfold Hw.wakeDomain
  extract_lets +onlyGivenNames h1
  refine Touches.cut (x := h1) ?_ fun th1 => ?_
  · subst h1
    refine Touches.ite ?_ ?_
    · exact Touches.refl.step Hw.setDom_touches
    · exact Touches.refl
  clear_value h1
  extract_lets +onlyGivenNames h2
  refine Touches.cut (x := h2) ?_ fun th2 => ?_
  · subst h2
    refine Touches.ite ?_ ?_
    · exact th1.step Hw.setDom_touches
    · exact th1
  clear_value h2
  exact th2.step Hw.bump_touches

theorem Hw.errorResp_touches {h : Hw} {m : Master} {a : Nat} {n : Nat} {write : Bool} {cls : Nat} {code : Nat} : Touches [.regs, .resp, .elogQ] h (Hw.errorResp h m a n write cls code) := by
  unfold Hw.errorResp
  extract_lets +onlyGivenNames h1
  refine Touches.cut (x := h1) ?_ fun th1 => ?_
  · subst h1
    refine Touches.ite ?_ ?_
    · exact Touches.refl.step Hw.mpuRecord_touches
    · exact Touches.refl
  clear_value h1
  extract_lets +onlyGivenNames h2
  refine Touches.cut (x := h2) ?_ fun th2 => ?_
  · subst h2
    refine Touches.ite ?_ ?_
    · exact (th1.step Hw.bump_touches).step Hw.sf_touches
    · exact th1
  clear_value h2
  extract_lets +onlyGivenNames h3
  refine Touches.cut (x := h3) ?_ fun th3 => ?_
  · subst h3
    refine Touches.ite ?_ ?_
    · exact th2
    · exact th2.step Hw.report_touches
  clear_value h3
  exact th3.step set_resp_touches

theorem Hw.stallResp_touches {h : Hw} {a : Nat} : Touches [.regs, .resp] h (Hw.stallResp h a) := by
  unfold Hw.stallResp
  extract_lets +onlyGivenNames h1
  refine Touches.cut (x := h1) ?_ fun th1 => ?_
  · subst h1
    split
    · exact Touches.refl
    · refine Touches.ite ?_ ?_
      · exact Touches.refl
      · exact Touches.refl.step Hw.wakeDomain_touches
  clear_value h1
  exact th1.step set_resp_touches

theorem Hw.correct_touches {h : Hw} {a : Nat} : Touches [.regs, .ecc] h (Hw.correct h a) := by
  unfold Hw.correct
  split
  · extract_lets +onlyGivenNames h3
    refine Touches.cut (x := h3) ?_ fun th3 => ?_
    · subst h3
      exact Touches.refl.step Hw.bump_touches
    clear_value h3
    refine Touches.ite ?_ ?_
    · exact th3
    · exact th3.step Hw.setEcc_touches
  · exact Touches.refl.step Hw.bump_touches
  · exact Touches.refl

theorem Hw.mramPut_touches {h : Hw} {a : Nat} {v : Nat} : Touches [.memu] h (Hw.mramPut h a v) := by
  unfold Hw.mramPut
  split
  · exact Touches.refl.step set_memu_touches
  · exact Touches.refl.step set_memu_touches

theorem Hw.memValue_touches {h : Hw} {a : Nat} {n : Nat} : Touches [.free] h (Hw.memValue h a n).2 := by
  unfold Hw.memValue
  refine Touches.ite2 ?_ ?_
  · exact Touches.pair (Touches.refl)
  · refine Touches.ite2 ?_ ?_
    · split
      · rename_i a1 a2 h3 e4
        refine Touches.cut (x := h3) (Touches.snd ?_ e4) fun th3 => ?_
        · exact Touches.refl.step Hw.fresh_touches
        exact Touches.pair (th3)
    · exact Touches.pair (Touches.refl)

theorem Hw.memRead_touches {h : Hw} {m : Master} {a : Nat} {n : Nat} : Touches [.regs, .ecc, .free, .resp, .elogQ] h (Hw.memRead h m a n) := by
  unfold Hw.memRead
  split
  · exact Touches.refl.step Hw.stallResp_touches
  · exact Touches.refl.step Hw.errorResp_touches
  · refine Touches.ite ?_ ?_
    · exact Touches.refl.step Hw.errorResp_touches
    · extract_lets +onlyGivenNames h9
      refine Touches.cut (x := h9) ?_ fun th9 => ?_
      · subst h9
        exact Touches.refl.step Hw.correct_touches
      clear_value h9
      split
      · rename_i a10 a11 h12 e13
        refine Touches.cut (x := h12) (Touches.snd ?_ e13) fun th12 => ?_
        · exact th9.step Hw.memValue_touches
        exact th12.step set_resp_touches

theorem Hw.memStore_touches {h : Hw} {a : Nat} {n : Nat} {v : Nat} : Touches [.mem, .ecc, .memu] h (Hw.memStore h a n v) := by
  unfold Hw.memStore
  refine Touches.ite ?_ ?_
  · exact Touches.refl.step Hw.mramPut_touches
  · exact (Touches.refl.step Hw.store_touches).step Hw.setEcc_touches

theorem Hw.memWrite_touches {h : Hw} {m : Master} {a : Nat} {n : Nat} {v : Nat} : Touches [.regs, .mem, .ecc, .resp, .elogQ, .memu] h (Hw.memWrite h m a n v) := by
  unfold Hw.memWrite
  split
  · exact Touches.refl.step Hw.stallResp_touches
  · exact Touches.refl.step Hw.errorResp_touches
  · refine Touches.ite ?_ ?_
    · exact Touches.refl.step Hw.errorResp_touches
    · refine Touches.ite ?_ ?_
      · exact Touches.refl.step set_resp_touches
      · extract_lets +onlyGivenNames h9
        refine Touches.cut (x := h9) ?_ fun th9 => ?_
        · subst h9
          refine Touches.ite ?_ ?_
          · exact Touches.refl.step Hw.correct_touches
          · exact Touches.refl
        clear_value h9
        extract_lets +onlyGivenNames h10
        refine Touches.cut (x := h10) ?_ fun th10 => ?_
        · subst h10
          exact th9.step Hw.memStore_touches
        clear_value h10
        exact th10.step set_resp_touches

theorem Hw.fabFails_touches {h : Hw} {a : Nat} {who : Nat} : Touches [.regs, .elogQ] h (Hw.fabFails h a who) := by
  unfold Hw.fabFails
  refine Touches.ite ?_ ?_
  · exact ((Touches.refl.step Hw.bump_touches).step Hw.sf_touches).step Hw.report_touches
  · exact (Touches.refl.step Hw.mpuRecord_touches).step Hw.report_touches

theorem Hw.fabRead_touches {h : Hw} {a : Nat} {who : Nat} {b1 : Nat} : Touches [.regs, .ecc, .elogQ] h (Hw.fabRead h a who b1).2 := by
  induction b1 generalizing h a who with
  | zero =>
    unfold Hw.fabRead
    exact Touches.pair (Touches.refl)
  | succ k ih =>
    unfold Hw.fabRead
    refine Touches.ite2 ?_ ?_
    · exact (Touches.refl.step Hw.correct_touches).step ih
    · exact Touches.pair (Touches.refl.step Hw.fabFails_touches)

theorem Hw.collide_touches {h : Hw} {m : Master} {a : Nat} {attempt : Nat} : Touches [.regs, .resp, .elogQ, .strands] h (Hw.collide h m a attempt) := by
  unfold Hw.collide
  extract_lets +onlyGivenNames h1
  refine Touches.cut (x := h1) ?_ fun th1 => ?_
  · subst h1
    exact Touches.refl.step Hw.sf_touches
  clear_value h1
  extract_lets +onlyGivenNames h2
  refine Touches.cut (x := h2) ?_ fun th2 => ?_
  · subst h2
    split
    · exact th1
    · extract_lets +onlyGivenNames v8
      exact th1.step Hw.setStrand_touches
  clear_value h2
  extract_lets +onlyGivenNames h9
  refine Touches.cut (x := h9) ?_ fun th9 => ?_
  · subst h9
    exact th2.step Hw.report_touches
  clear_value h9
  exact th9.step set_resp_touches

theorem Hw.busWrite_touches {h : Hw} {m : Master} {a : Nat} {n : Nat} {v : Nat} {hit : Bool} : Touches [.regs, .mem, .ecc, .resp, .elogQ, .memu, .strands] h (Hw.busWrite h m a n v hit) := by
  unfold Hw.busWrite
  refine Touches.ite ?_ ?_
  · exact Touches.refl.step Hw.collide_touches
  · exact Touches.refl.step Hw.memWrite_touches

theorem Hw.countsCleared_touches {h : Hw} {b : Nat} {n : Nat} {v : Nat} : Touches [.strands] h (Hw.countsCleared h b n v) := by
  unfold Hw.countsCleared
  refine Touches.ite ?_ ?_
  · extract_lets +onlyGivenNames v1 v2 v3
    exact Touches.refl.step Hw.setStrand_touches
  · exact Touches.refl

theorem Hw.aliasWrite_touches {h : Hw} {m : Master} {a : Nat} {n : Nat} {v : Nat} : Touches [.regs, .mem, .ecc, .resp, .elogQ, .memu, .strands] h (Hw.aliasWrite h m a n v) := by
  unfold Hw.aliasWrite
  split
  · refine Touches.ite ?_ ?_
    · exact Touches.refl.step Hw.errorResp_touches
    · split
      · exact Touches.refl.step Hw.stallResp_touches
      · exact Touches.refl.step Hw.errorResp_touches
      · refine Touches.ite ?_ ?_
        · exact Touches.refl.step Hw.errorResp_touches
        · extract_lets +onlyGivenNames h13
          refine Touches.cut (x := h13) ?_ fun th13 => ?_
          · subst h13
            exact Touches.refl.step Hw.correct_touches
          clear_value h13
          extract_lets +onlyGivenNames v14 v15 v16
          extract_lets +onlyGivenNames h17
          refine Touches.cut (x := h17) ?_ fun th17 => ?_
          · subst h17
            exact th13.step Hw.memStore_touches
          clear_value h17
          extract_lets +onlyGivenNames h18
          refine Touches.cut (x := h18) ?_ fun th18 => ?_
          · subst h18
            exact th17.step set_resp_touches
          clear_value h18
          split
          · exact th18.step Hw.countsCleared_touches
          · exact th18

end Sys2Proof.Machine
end

