-- ==== Sys2Proof/Laws/TouchSamplePorts.lean ====
section
/-! SUPPORT. What each operation of Machine/SamplePorts.lean touches of the part: the components outside the list stay as they were. -/

set_option Elab.async false

namespace Sys2Proof.Machine

theorem Hw.writeTag_touches {h : Hw} {n : Nat} {b : Nat} {notch : Bool} : Touches [.regs] h (Hw.writeTag h n b notch) := by
  unfold Hw.writeTag
  extract_lets +onlyGivenNames v1
  refine Touches.ite ?_ ?_
  · exact Touches.refl
  · exact Touches.refl.step Hw.setReg_touches

theorem Hw.markSuspect_touches {h : Hw} {n : Nat} {b0 : Nat} {b1 : Nat} : Touches [.regs, .ports] h (Hw.markSuspect h n b0 b1) := by
  unfold Hw.markSuspect
  extract_lets +onlyGivenNames v1
  extract_lets +onlyGivenNames h2
  refine Touches.cut (x := h2) ?_ fun th2 => ?_
  · subst h2
    exact Touches.refl.step Hw.setPort_touches
  clear_value h2
  refine Touches.forEach ?_ fun x3 h4 th4 => ?_
  · exact th2
  · exact th4.step Hw.writeTag_touches

theorem Hw.logPort_touches {h : Hw} {n : Nat} {code : Nat} {cnt : Nat} : Touches [.regs, .elogQ] h (Hw.logPort h n code cnt) := by
  unfold Hw.logPort
  exact Touches.refl.step Hw.report_touches

theorem Hw.setRingSample_touches {h : Hw} {n : Nat} {j : Nat} {v : Nat} : Touches [.mem] h (Hw.setRingSample h n j v) := by
  unfold Hw.setRingSample
  extract_lets +onlyGivenNames v1 v2
  exact Touches.refl.step Hw.setByte_touches

theorem Hw.notchApply_touches {h : Hw} {n : Nat} {m : Nat} : Touches [.regs, .ports] h (Hw.notchApply h n m) := by
  unfold Hw.notchApply
  extract_lets +onlyGivenNames v1 v2 v3 v4 v5 v6
  extract_lets +onlyGivenNames h7
  refine Touches.cut (x := h7) ?_ fun th7 => ?_
  · subst h7
    exact Touches.refl.step Hw.setPort_touches
  clear_value h7
  refine Touches.ite ?_ ?_
  · exact th7
  · exact th7.step Hw.sf_touches

theorem Hw.notchWrite_touches {h : Hw} {n : Nat} {m : Nat} {v : Nat} : Touches [.regs, .ports] h (Hw.notchWrite h n m v) := by
  unfold Hw.notchWrite
  extract_lets +onlyGivenNames v1
  extract_lets +onlyGivenNames h2
  refine Touches.cut (x := h2) ?_ fun th2 => ?_
  · subst h2
    exact Touches.refl.step Hw.writeFields_touches
  clear_value h2
  refine Touches.ite ?_ ?_
  · exact th2
  · extract_lets +onlyGivenNames v3
    exact th2.step Hw.setPort_touches

theorem Hw.notchAdaptStep_touches {h : Hw} {n : Nat} {m : Nat} : Touches [.regs, .ports] h (Hw.notchAdaptStep h n m) := by
  unfold Hw.notchAdaptStep
  extract_lets +onlyGivenNames v1 v2
  refine Touches.ite ?_ ?_
  · extract_lets +onlyGivenNames v3 v4
    extract_lets +onlyGivenNames h5
    refine Touches.cut (x := h5) ?_ fun th5 => ?_
    · subst h5
      exact Touches.refl.step Hw.setPort_touches
    clear_value h5
    refine Touches.ite ?_ ?_
    · exact th5
    · exact th5.step Hw.sf_touches
  · exact Touches.refl

theorem Hw.depthOf_touches {h : Hw} {t : Notch} : Touches [.free] h (Hw.depthOf h t).2 := by
  unfold Hw.depthOf
  refine Touches.ite2 ?_ ?_
  · split
    · rename_i a1 a2 h3 e4
      refine Touches.cut (x := h3) (Touches.snd ?_ e4) fun th3 => ?_
      · exact Touches.refl.step Hw.fresh_touches
      exact Touches.pair (th3)
  · exact Touches.pair (Touches.refl)

theorem Hw.notchDepthUpdate_touches {h : Hw} {n : Nat} {m : Nat} : Touches [.regs, .free, .ports] h (Hw.notchDepthUpdate h n m) := by
  unfold Hw.notchDepthUpdate
  extract_lets +onlyGivenNames v1 v2
  refine Touches.ite ?_ ?_
  · split
    · rename_i a3 a4 h5 e6
      refine Touches.cut (x := h5) (Touches.snd ?_ e6) fun th5 => ?_
      · exact Touches.refl.step Hw.depthOf_touches
      extract_lets +onlyGivenNames v7
      exact (th5.step Hw.setPort_touches).step Hw.sf_touches
  · exact Touches.refl

theorem Hw.thresholdUpdate_touches {h : Hw} {n : Nat} : Touches [.regs, .ports] h (Hw.thresholdUpdate h n) := by
  unfold Hw.thresholdUpdate
  extract_lets +onlyGivenNames v1
  refine Touches.ite ?_ ?_
  · extract_lets +onlyGivenNames v2 v3
    extract_lets +onlyGivenNames h4
    refine Touches.cut (x := h4) ?_ fun th4 => ?_
    · subst h4
      exact (Touches.refl.step Hw.sf_touches).step Hw.sf_touches
    clear_value h4
    exact th4.step Hw.setPort_touches
  · exact Touches.refl

theorem Hw.writeSpectrum_touches {h : Hw} {n : Nat} {bins : List Nat} : Touches [.regs] h (Hw.writeSpectrum h n bins) := by
  unfold Hw.writeSpectrum
  generalize upTo 128 = ns128
  refine Touches.forEach ?_ fun x1 h2 th2 => ?_
  · exact Touches.refl
  · exact th2.step Hw.setReg_touches

theorem Hw.notchPut_touches {h : Hw} {n : Nat} {b : Nat} {m : Nat} : Touches [.regs, .ports] h (Hw.notchPut h n b m) := by
  unfold Hw.notchPut
  extract_lets +onlyGivenNames h1
  refine Touches.cut (x := h1) ?_ fun th1 => ?_
  · subst h1
    exact ((Touches.refl.step Hw.sf_touches).step Hw.sf_touches).step Hw.sf_touches
  clear_value h1
  extract_lets +onlyGivenNames v2
  exact th1.step Hw.setPort_touches

theorem Hw.assignNotch_touches {h : Hw} {n : Nat} {b : Nat} : Touches [.regs, .elogQ, .ports] h (Hw.assignNotch h n b) := by
  unfold Hw.assignNotch
  refine Touches.ite ?_ ?_
  · exact Touches.refl.step Hw.notchPut_touches
  · refine Touches.ite ?_ ?_
    · exact Touches.refl.step Hw.notchPut_touches
    · exact Touches.refl.step Hw.logPort_touches

theorem Hw.publishSpectrum_touches {h : Hw} {n : Nat} : Touches [.regs, .elogQ, .ports] h (Hw.publishSpectrum h n) := by
  unfold Hw.publishSpectrum
  refine Touches.ite ?_ ?_
  · exact Touches.refl
  · extract_lets +onlyGivenNames v1 v2
    extract_lets +onlyGivenNames h3
    refine Touches.cut (x := h3) ?_ fun th3 => ?_
    · subst h3
      exact Touches.refl.step Hw.setPort_touches
    clear_value h3
    extract_lets +onlyGivenNames h4
    refine Touches.cut (x := h4) ?_ fun th4 => ?_
    · subst h4
      exact th3.step Hw.writeSpectrum_touches
    clear_value h4
    extract_lets +onlyGivenNames v5 v6
    extract_lets +onlyGivenNames h7
    refine Touches.cut (x := h7) ?_ fun th7 => ?_
    · subst h7
      refine Touches.ite ?_ ?_
      · exact th4
      · exact th4.step Hw.sf_touches
    clear_value h7
    extract_lets +onlyGivenNames v8
    extract_lets +onlyGivenNames h9
    refine Touches.cut (x := h9) ?_ fun th9 => ?_
    · subst h9
      exact th7.step Hw.setPort_touches
    clear_value h9
    refine Touches.ite ?_ ?_
    · refine Touches.forEach ?_ fun x10 h11 th11 => ?_
      · exact th9
      · exact th11.step Hw.assignNotch_touches
    · exact th9

theorem Hw.specSample_touches {h : Hw} {n : Nat} {x : Int × Int} : Touches [.regs, .elogQ, .ports] h (Hw.specSample h n x) := by
  unfold Hw.specSample
  generalize upTo 256 = ns256
  extract_lets +onlyGivenNames v1
  refine Touches.ite ?_ ?_
  · exact Touches.refl
  · extract_lets +onlyGivenNames v2
    extract_lets +onlyGivenNames h3
    refine Touches.cut (x := h3) ?_ fun th3 => ?_
    · subst h3
      exact Touches.refl.step Hw.setPort_touches
    clear_value h3
    refine Touches.ite ?_ ?_
    · exact th3
    · extract_lets +onlyGivenNames h4
      refine Touches.cut (x := h4) ?_ fun th4 => ?_
      · subst h4
        exact th3.step Hw.publishSpectrum_touches
      clear_value h4
      extract_lets +onlyGivenNames v5 v6
      exact th4.step Hw.setPort_touches

theorem Hw.notchRelease_touches {h : Hw} {n : Nat} {m : Nat} : Touches [.regs, .tcnt] h (Hw.notchRelease h n m) := by
  unfold Hw.notchRelease
  split
  · exact Touches.refl
  · refine Touches.ite ?_ ?_
    · exact (Touches.refl.step Hw.reach_touches).step Hw.sf_touches
    · exact Touches.refl

theorem Hw.ringDue_touches {h : Hw} {n : Nat} : Touches [.regs, .free, .ports] h (Hw.ringDue h n) := by
  unfold Hw.ringDue
  exact ((((Touches.refl.step Hw.notchAdaptStep_touches).step Hw.notchAdaptStep_touches).step Hw.notchDepthUpdate_touches).step Hw.notchDepthUpdate_touches).step Hw.thresholdUpdate_touches

theorem Hw.notchBoundary_touches {h : Hw} {n : Nat} {m : Nat} : Touches [.regs, .free, .ports] h (Hw.notchBoundary h n m) := by
  unfold Hw.notchBoundary
  refine Touches.ite ?_ ?_
  · exact (Touches.refl.step Hw.ringDue_touches).step Hw.notchApply_touches
  · exact Touches.refl

theorem Hw.ringStage_touches {h : Hw} {n : Nat} {j : Nat} {x : Int × Int} : Touches [.regs, .mem, .free, .elogQ, .ports] h (Hw.ringStage h n j x) := by
  unfold Hw.ringStage
  extract_lets +onlyGivenNames h1
  refine Touches.cut (x := h1) ?_ fun th1 => ?_
  · subst h1
    exact Touches.refl.step Hw.ringDue_touches
  clear_value h1
  extract_lets +onlyGivenNames h2
  refine Touches.cut (x := h2) ?_ fun th2 => ?_
  · subst h2
    refine Touches.ite ?_ ?_
    · exact (th1.step Hw.notchApply_touches).step Hw.notchApply_touches
    · exact th1
  clear_value h2
  extract_lets +onlyGivenNames v3
  split
  · split
    · extract_lets +onlyGivenNames v12 v13 v14 v15 v16
      extract_lets +onlyGivenNames h17
      refine Touches.cut (x := h17) ?_ fun th17 => ?_
      · subst h17
        exact (th2.step Hw.setPort_touches).step Hw.specSample_touches
      clear_value h17
      refine Touches.ite ?_ ?_
      · exact th17
      · exact th17.step Hw.setRingSample_touches

theorem Hw.sample_touches {h : Hw} {n : Nat} {iq : Nat × Nat} : Touches [.regs, .mem, .free, .elogQ, .ports] h (Hw.sample h n iq) := by
  unfold Hw.sample
  extract_lets +onlyGivenNames v1
  refine Touches.ite ?_ ?_
  · extract_lets +onlyGivenNames v2 v3
    extract_lets +onlyGivenNames h4
    refine Touches.cut (x := h4) ?_ fun th4 => ?_
    · subst h4
      exact Touches.refl.step Hw.setPort_touches
    clear_value h4
    refine Touches.ite ?_ ?_
    · exact th4.step Hw.ringStage_touches
    · exact th4
  · refine Touches.ite ?_ ?_
    · exact Touches.refl.step Hw.setPort_touches
    · exact Touches.refl

theorem Hw.tagBlock_touches {h : Hw} {n : Nat} : Touches [.regs, .ports] h (Hw.tagBlock h n) := by
  unfold Hw.tagBlock
  extract_lets +onlyGivenNames v1 v2
  exact (Touches.refl.step Hw.setPort_touches).step Hw.writeTag_touches

theorem Hw.endSynBlock_touches {h : Hw} {n : Nat} : Touches [.regs, .ports] h (Hw.endSynBlock h n) := by
  unfold Hw.endSynBlock
  extract_lets +onlyGivenNames v1 v2
  extract_lets +onlyGivenNames h3
  refine Touches.cut (x := h3) ?_ fun th3 => ?_
  · subst h3
    exact Touches.refl.step Hw.setPort_touches
  clear_value h3
  extract_lets +onlyGivenNames h4
  refine Touches.cut (x := h4) ?_ fun th4 => ?_
  · subst h4
    refine Touches.ite ?_ ?_
    · exact th3
    · exact th3.step Hw.writeTag_touches
  clear_value h4
  exact th4.step Hw.setPort_touches

theorem Hw.tspiCmd_touches {h : Hw} {v : Nat} : Touches [.regs, .tspi] h (Hw.tspiCmd h v) := by
  unfold Hw.tspiCmd
  extract_lets +onlyGivenNames v1
  refine Touches.ite ?_ ?_
  · exact Touches.refl.step set_tspi_touches
  · refine Touches.ite ?_ ?_
    · exact Touches.refl.step set_tspi_touches
    · exact Touches.refl.step Hw.sf_touches

theorem Hw.tspiDone_touches {h : Hw} {miso : Nat} : Touches [.regs, .tspi] h (Hw.tspiDone h miso) := by
  unfold Hw.tspiDone
  split
  · exact Touches.refl
  · extract_lets +onlyGivenNames v6 v7
    refine Touches.ite ?_ ?_
    · extract_lets +onlyGivenNames v8
      refine Touches.ite ?_ ?_
      · exact Touches.refl.step set_tspi_touches
      · exact (Touches.refl.step set_tspi_touches).step Hw.sf_touches
    · exact Touches.refl.step set_tspi_touches

theorem Hw.tspiRead_touches {h : Hw} : Touches [.resp, .tspi] h (Hw.tspiRead h) := by
  unfold Hw.tspiRead
  split
  · exact Touches.refl.step set_resp_touches
  · exact Touches.refl.step set_resp_tspi_touches

theorem Hw.gainTick_touches {h : Hw} : Touches [.regs, .ports, .tspi] h (Hw.gainTick h) := by
  unfold Hw.gainTick
  refine Touches.ite ?_ ?_
  · extract_lets +onlyGivenNames v1 v2
    split
    · extract_lets +onlyGivenNames h7
      refine Touches.cut (x := h7) ?_ fun th7 => ?_
      · subst h7
        exact Touches.refl.step Hw.setPort_touches
      clear_value h7
      extract_lets +onlyGivenNames v8
      extract_lets +onlyGivenNames f9
      subst f9
      refine Touches.ite ?_ ?_
      · exact (th7.step Hw.sf_touches).step Hw.tspiCmd_touches
      · refine Touches.ite ?_ ?_
        · exact (th7.step Hw.sf_touches).step Hw.tspiCmd_touches
        · exact th7
  · exact Touches.refl

theorem Hw.readCount_touches {h : Hw} {n : Nat} : Touches [.regs, .resp] h (Hw.readCount h n) := by
  unfold Hw.readCount
  extract_lets +onlyGivenNames v1
  extract_lets +onlyGivenNames h2
  refine Touches.cut (x := h2) ?_ fun th2 => ?_
  · subst h2
    exact Touches.refl.step Hw.sf_touches
  clear_value h2
  exact th2.step set_resp_touches

theorem Hw.sspiCmd_touches {h : Hw} {v : Nat} : Touches [.sspi] h (Hw.sspiCmd h v) := by
  unfold Hw.sspiCmd
  extract_lets +onlyGivenNames v1 v2
  split
  · exact Touches.refl.step set_sspi_touches
  · exact Touches.refl.step set_sspi_touches

theorem Hw.sspiPush_touches {h : Hw} {b1 : List Nat} : Touches [.regs, .sspi] h (Hw.sspiPush h b1) := by
  induction b1 generalizing h with
  | nil =>
    unfold Hw.sspiPush
    exact Touches.refl
  | cons y ys ih =>
    unfold Hw.sspiPush
    refine Touches.ite ?_ ?_
    · exact (Touches.refl.step set_sspi_touches).step ih
    · exact (Touches.refl.step Hw.sf_touches).step ih

theorem Hw.sspiDone_touches {h : Hw} {miso : List Nat} : Touches [.regs, .sspi] h (Hw.sspiDone h miso) := by
  unfold Hw.sspiDone
  split
  · exact Touches.refl
  · extract_lets +onlyGivenNames v6
    extract_lets +onlyGivenNames h7
    refine Touches.cut (x := h7) ?_ fun th7 => ?_
    · subst h7
      exact Touches.refl.step set_sspi_touches
    clear_value h7
    refine Touches.ite ?_ ?_
    · exact th7.step Hw.sspiPush_touches
    · exact th7

theorem Hw.sspiDrdy_touches {h : Hw} : Touches [.regs, .free, .sspi] h (Hw.sspiDrdy h) := by
  unfold Hw.sspiDrdy
  extract_lets +onlyGivenNames h1
  refine Touches.cut (x := h1) ?_ fun th1 => ?_
  · subst h1
    refine Touches.ite ?_ ?_
    · refine Touches.ite ?_ ?_
      · split
        · rename_i a2 a3 h4 e5
          refine Touches.cut (x := h4) (Touches.snd ?_ e5) fun th4 => ?_
          · exact Touches.refl.step Hw.fresh_touches
          exact th4.step set_sspi_touches
      · exact Touches.refl.step Hw.sf_touches
    · exact Touches.refl
  clear_value h1
  split
  · exact th1.step set_sspi_touches
  · exact th1.step set_sspi_touches
  · exact th1

theorem Hw.sspiRead_touches {h : Hw} : Touches [.resp, .sspi] h (Hw.sspiRead h) := by
  unfold Hw.sspiRead
  split
  · exact Touches.refl.step set_resp_touches
  · exact Touches.refl.step set_resp_sspi_touches

theorem Hw.sspiStamp_touches {h : Hw} : Touches [.resp, .sspi] h (Hw.sspiStamp h) := by
  unfold Hw.sspiStamp
  split
  · exact Touches.refl.step set_resp_touches
  · exact Touches.refl.step set_resp_sspi_touches

end Sys2Proof.Machine
end

