-- ==== Sys2Proof/Laws/TouchStrands.lean ====
section
/-! SUPPORT. What each operation of Machine/Strands.lean touches of the part: the components outside the list stay as they were. -/

set_option Elab.async false

namespace Sys2Proof.Machine

theorem Hw.rewrite_touches {h : Hw} {s : Nat} : Touches [.regs, .mem, .ecc, .elogQ, .strands] h (Hw.rewrite h s) := by
  unfold Hw.rewrite
  extract_lets +onlyGivenNames v1 v2
  extract_lets +onlyGivenNames h3
  refine Touches.cut (x := h3) ?_ fun th3 => ?_
  · subst h3
    exact Touches.refl.step Hw.setStrand_touches
  clear_value h3
  exact th3.step Hw.fabWrites_touches

theorem Hw.anchor_touches {h : Hw} {s : Nat} {n : Nat} : Touches [.strands] h (Hw.anchor h s n) := by
  unfold Hw.anchor
  extract_lets +onlyGivenNames v1
  exact Touches.refl.step Hw.setStrand_touches

theorem Hw.syncReset_touches {h : Hw} {s : Nat} : Touches [.regs, .mem, .ecc, .elogQ, .strands] h (Hw.syncReset h s) := by
  unfold Hw.syncReset
  extract_lets +onlyGivenNames v1
  extract_lets +onlyGivenNames h2
  refine Touches.cut (x := h2) ?_ fun th2 => ?_
  · subst h2
    exact Touches.refl.step Hw.fabWrite_touches
  clear_value h2
  extract_lets +onlyGivenNames v3
  exact th2.step Hw.setStrand_touches

theorem Hw.leaveIdle_touches {h : Hw} {s : Nat} : Touches [.regs, .mem, .ecc, .elogQ, .strands] h (Hw.leaveIdle h s) := by
  unfold Hw.leaveIdle
  extract_lets +onlyGivenNames h1
  refine Touches.cut (x := h1) ?_ fun th1 => ?_
  · subst h1
    exact Touches.refl.step Hw.fabWrites_touches
  clear_value h1
  extract_lets +onlyGivenNames v2
  exact th1.step Hw.setStrand_touches

theorem Hw.withdraw_touches {h : Hw} {s : Nat} {p : Item → Bool} : Touches [.fab] h (Hw.withdraw h s p).2 := by
  unfold Hw.withdraw
  extract_lets +onlyGivenNames v1 v2 v3 v4
  extract_lets +onlyGivenNames h5
  refine Touches.cut (x := h5) ?_ fun th5 => ?_
  · subst h5
    exact Touches.refl.step set_fab_touches
  clear_value h5
  extract_lets +onlyGivenNames h6
  refine Touches.cut (x := h6) ?_ fun th6 => ?_
  · subst h6
    refine Touches.forEach ?_ fun x7 h8 th8 => ?_
    · exact th5
    · extract_lets +onlyGivenNames v9
      exact th8.step Hw.setEngine_touches
  clear_value h6
  exact Touches.pair (th6)

theorem Hw.discardTasks_touches {h : Hw} {s : Nat} : Touches [.regs, .loop] h (Hw.discardTasks h s) := by
  unfold Hw.discardTasks
  extract_lets +onlyGivenNames v1
  extract_lets +onlyGivenNames h2
  refine Touches.cut (x := h2) ?_ fun th2 => ?_
  · subst h2
    exact Touches.refl.step Hw.bumpBy_touches
  clear_value h2
  extract_lets +onlyGivenNames v3
  extract_lets +onlyGivenNames h4
  refine Touches.cut (x := h4) ?_ fun th4 => ?_
  · subst h4
    exact th2.step set_loop_touches
  clear_value h4
  extract_lets +onlyGivenNames v5
  refine Touches.forEach ?_ fun x6 h7 th7 => ?_
  · exact th4
  · extract_lets +onlyGivenNames v8
    exact th7.step Hw.setCore_touches

theorem Hw.dropTranches_touches {h : Hw} {s : Nat} : Touches [.fab] h (Hw.dropTranches h s) := by
  unfold Hw.dropTranches
  generalize upTo 64 = ns64
  refine Touches.forEach ?_ fun x1 h2 th2 => ?_
  · exact Touches.refl
  · split
    · refine Touches.ite ?_ ?_
      · exact th2.step Hw.setTranche_touches
      · exact th2
    · exact th2

theorem Hw.dropWork_touches {h : Hw} {s : Nat} : Touches [.regs, .fab, .loop] h (Hw.dropWork h s) := by
  unfold Hw.dropWork
  split
  · rename_i a1 a2 h3 e4
    refine Touches.cut (x := h3) (Touches.snd ?_ e4) fun th3 => ?_
    · exact Touches.refl.step Hw.withdraw_touches
    exact (th3.step Hw.discardTasks_touches).step Hw.dropTranches_touches

theorem Hw.refuse_touches {h : Hw} {s : Nat} {gen : Nat} {status : Nat} : Touches [.regs, .mem, .ecc, .elogQ, .strands] h (Hw.refuse h s gen status) := by
  unfold Hw.refuse
  extract_lets +onlyGivenNames v1
  extract_lets +onlyGivenNames h2
  refine Touches.cut (x := h2) ?_ fun th2 => ?_
  · subst h2
    exact Touches.refl.step Hw.setStrand_touches
  clear_value h2
  exact (th2.step Hw.sf_touches).step Hw.rewrite_touches

theorem Hw.refuseStaged_touches {h : Hw} {s : Nat} {status : Nat} : Touches [.regs, .mem, .ecc, .elogQ, .strands] h (Hw.refuseStaged h s status) := by
  unfold Hw.refuseStaged
  extract_lets +onlyGivenNames v1
  split
  · exact Touches.refl
  · exact (Touches.refl.step Hw.setStrand_touches).step Hw.refuse_touches

theorem Hw.refuseWaiting_touches {h : Hw} {n : Nat} : Touches [.regs, .mem, .ecc, .elogQ, .strands] h (Hw.refuseWaiting h n) := by
  unfold Hw.refuseWaiting
  refine Touches.forEach ?_ fun x1 h2 th2 => ?_
  · exact Touches.refl
  · exact th2.step Hw.refuseStaged_touches

theorem Hw.endSynthetic_touches {h : Hw} {n : Nat} : Touches [.regs, .mem, .ecc, .elogQ, .ports, .strands] h (Hw.endSynthetic h n) := by
  unfold Hw.endSynthetic
  refine Touches.ite ?_ ?_
  · exact (Touches.refl.step Hw.setPort_touches).step Hw.refuseWaiting_touches
  · exact Touches.refl

theorem Hw.toIdle_touches {h : Hw} {s : Nat} {status : Nat} : Touches [.regs, .mem, .ecc, .elogQ, .ports, .strands, .fab, .loop] h (Hw.toIdle h s status) := by
  unfold Hw.toIdle
  extract_lets +onlyGivenNames v1
  extract_lets +onlyGivenNames h2
  refine Touches.cut (x := h2) ?_ fun th2 => ?_
  · subst h2
    refine Touches.ite ?_ ?_
    · exact Touches.refl
    · exact Touches.refl.step Hw.dropWork_touches
  clear_value h2
  extract_lets +onlyGivenNames v3
  extract_lets +onlyGivenNames h4
  refine Touches.cut (x := h4) ?_ fun th4 => ?_
  · subst h4
    exact th2.step Hw.setStrand_touches
  clear_value h4
  extract_lets +onlyGivenNames h5
  refine Touches.cut (x := h5) ?_ fun th5 => ?_
  · subst h5
    exact th4.step Hw.anchor_touches
  clear_value h5
  exact ((th5.step Hw.syncReset_touches).step Hw.rewrite_touches).step Hw.endSynthetic_touches

theorem Hw.tornRead_touches {h : Hw} {s : Nat} : Touches [.regs, .mem, .ecc, .elogQ, .strands] h (Hw.tornRead h s) := by
  unfold Hw.tornRead
  extract_lets +onlyGivenNames v1
  extract_lets +onlyGivenNames h2
  refine Touches.cut (x := h2) ?_ fun th2 => ?_
  · subst h2
    exact Touches.refl.step Hw.setStrand_touches
  clear_value h2
  exact (th2.step Hw.sf_touches).step Hw.rewrite_touches

end Sys2Proof.Machine
end

