-- ==== Sys2Proof/Laws/TouchFabric.lean ====
section
/-! SUPPORT. What each operation of Machine/Fabric.lean touches of the part: the components outside the list stay as they were. -/

set_option Elab.async false

namespace Sys2Proof.Machine

theorem Hw.preemptRequest_touches {h : Hw} {due : Option Nat} : Touches [.loop] h (Hw.preemptRequest h due) := by
  unfold Hw.preemptRequest
  refine Touches.ite ?_ ?_
  · split
    · exact Touches.refl
    · refine Touches.ite ?_ ?_
      · exact Touches.refl.step Hw.setCore_touches
      · exact Touches.refl
  · exact Touches.refl

theorem Hw.postTask_touches {h : Hw} {k : LoopTask} : Touches [.loop] h (Hw.postTask h k) := by
  unfold Hw.postTask
  extract_lets +onlyGivenNames v1 v2
  extract_lets +onlyGivenNames h3
  refine Touches.cut (x := h3) ?_ fun th3 => ?_
  · subst h3
    exact Touches.refl.step set_loop_touches
  clear_value h3
  exact th3.step Hw.preemptRequest_touches

theorem Hw.integrationComplete_touches {h : Hw} {s : Nat} {nb : Nat} : Touches [.regs, .mem, .ecc, .elogQ, .strands, .loop] h (Hw.integrationComplete h s nb) := by
  unfold Hw.integrationComplete
  extract_lets +onlyGivenNames v1 v2 v3
  extract_lets +onlyGivenNames h4
  refine Touches.cut (x := h4) ?_ fun th4 => ?_
  · subst h4
    exact Touches.refl.step Hw.setStrand_touches
  clear_value h4
  extract_lets +onlyGivenNames h5
  refine Touches.cut (x := h5) ?_ fun th5 => ?_
  · subst h5
    exact th4.step Hw.rewrite_touches
  clear_value h5
  refine Touches.ite ?_ ?_
  · exact th5.step Hw.postTask_touches
  · exact th5

theorem Hw.finishIntegration_touches {h : Hw} {s : Nat} : Touches [.regs, .mem, .ecc, .elogQ, .strands, .loop] h (Hw.finishIntegration h s) := by
  unfold Hw.finishIntegration
  extract_lets +onlyGivenNames v1
  split
  · refine Touches.ite ?_ ?_
    · exact Touches.refl.step Hw.integrationComplete_touches
    · exact Touches.refl
  · exact Touches.refl

theorem Hw.gapBlock_touches {h : Hw} {n : Nat} {b : Nat} : Touches [.regs, .ports] h (Hw.gapBlock h n b) := by
  unfold Hw.gapBlock
  extract_lets +onlyGivenNames v1
  refine Touches.ite ?_ ?_
  · exact Touches.refl
  · exact (Touches.refl.step Hw.setPort_touches).step Hw.bump_touches

theorem Hw.makeItems_touches {h : Hw} {s : Nat} {b1 : Nat} : Touches [.regs, .ports, .strands, .fab] h (Hw.makeItems h s b1) := by
  induction b1 generalizing h s with
  | zero =>
    unfold Hw.makeItems
    exact Touches.refl
  | succ k ih =>
    unfold Hw.makeItems
    extract_lets +onlyGivenNames v1 v2 v3
    split
    · exact Touches.refl
    · extract_lets +onlyGivenNames v9
      refine Touches.ite ?_ ?_
      · exact Touches.refl
      · extract_lets +onlyGivenNames v10
        refine Touches.ite ?_ ?_
        · extract_lets +onlyGivenNames h11
          refine Touches.cut (x := h11) ?_ fun th11 => ?_
          · subst h11
            exact Touches.refl.step Hw.gapBlock_touches
          clear_value h11
          exact (th11.step Hw.setStrand_touches).step ih
        · refine Touches.ite ?_ ?_
          · extract_lets +onlyGivenNames v12 v13 v14
            extract_lets +onlyGivenNames h15
            refine Touches.cut (x := h15) ?_ fun th15 => ?_
            · subst h15
              exact Touches.refl.step set_fab_touches
            clear_value h15
            exact (th15.step Hw.setStrand_touches).step ih
          · exact Touches.refl

theorem Hw.trackWork_touches {h : Hw} {s : Nat} : Touches [.regs, .mem, .ecc, .elogQ, .ports, .strands, .fab, .loop] h (Hw.trackWork h s) := by
  unfold Hw.trackWork
  exact (Touches.refl.step Hw.makeItems_touches).step Hw.finishIntegration_touches

theorem Hw.makeSearchItems_touches {h : Hw} {i : Nat} {b1 : Nat} : Touches [.regs, .ports, .fab] h (Hw.makeSearchItems h i b1) := by
  induction b1 generalizing h i with
  | zero =>
    unfold Hw.makeSearchItems
    exact Touches.refl
  | succ k ih =>
    unfold Hw.makeSearchItems
    split
    · exact Touches.refl
    · split
      · exact Touches.refl
      · refine Touches.ite ?_ ?_
        · exact Touches.refl
        · extract_lets +onlyGivenNames v11
          refine Touches.ite ?_ ?_
          · exact Touches.refl
          · extract_lets +onlyGivenNames v12 v13 v14 v15 v16 v17
            refine Touches.ite ?_ ?_
            · exact Touches.refl
            · refine Touches.ite ?_ ?_
              · extract_lets +onlyGivenNames h18
                refine Touches.cut (x := h18) ?_ fun th18 => ?_
                · subst h18
                  refine Touches.forEach ?_ fun x19 h20 th20 => ?_
                  · exact Touches.refl
                  · refine Touches.ite ?_ ?_
                    · exact th20.step Hw.gapBlock_touches
                    · exact th20
                clear_value h18
                exact (th18.step Hw.setTranche_touches).step ih
              · refine Touches.ite ?_ ?_
                · extract_lets +onlyGivenNames v21 v22 v23
                  extract_lets +onlyGivenNames h24
                  refine Touches.cut (x := h24) ?_ fun th24 => ?_
                  · subst h24
                    exact Touches.refl.step set_fab_touches
                  clear_value h24
                  exact (th24.step Hw.setTranche_touches).step ih
                · exact Touches.refl

theorem Hw.makeSnapItems_touches {h : Hw} {i : Nat} {b1 : Nat} : Touches [.fab] h (Hw.makeSnapItems h i b1) := by
  induction b1 generalizing h i with
  | zero =>
    unfold Hw.makeSnapItems
    exact Touches.refl
  | succ k ih =>
    unfold Hw.makeSnapItems
    split
    · exact Touches.refl
    · extract_lets +onlyGivenNames v6
      refine Touches.ite ?_ ?_
      · exact Touches.refl
      · extract_lets +onlyGivenNames v7 v8 v9 v10 v11 v12 v13
        extract_lets +onlyGivenNames h14
        refine Touches.cut (x := h14) ?_ fun th14 => ?_
        · subst h14
          exact Touches.refl.step set_fab_touches
        clear_value h14
        exact (th14.step Hw.setTranche_touches).step ih

theorem Hw.finishTranche_touches {h : Hw} {i : Nat} : Touches [.strands, .fab, .loop] h (Hw.finishTranche h i) := by
  unfold Hw.finishTranche
  split
  · exact Touches.refl
  · refine Touches.ite ?_ ?_
    · extract_lets +onlyGivenNames h6
      refine Touches.cut (x := h6) ?_ fun th6 => ?_
      · subst h6
        exact Touches.refl.step Hw.setTranche_touches
      clear_value h6
      extract_lets +onlyGivenNames v7 v8 v9 v10
      extract_lets +onlyGivenNames h11
      refine Touches.cut (x := h11) ?_ fun th11 => ?_
      · subst h11
        exact th6.step Hw.setStrand_touches
      clear_value h11
      exact th11.step Hw.postTask_touches
    · exact Touches.refl

theorem Hw.searchWork_touches {h : Hw} {i : Nat} : Touches [.regs, .ports, .strands, .fab, .loop] h (Hw.searchWork h i) := by
  unfold Hw.searchWork
  exact (Touches.refl.step Hw.makeSearchItems_touches).step Hw.finishTranche_touches

theorem Hw.portWork_touches {h : Hw} {n : Nat} : Touches [.regs, .mem, .ecc, .elogQ, .ports, .strands, .fab, .loop] h (Hw.portWork h n) := by
  unfold Hw.portWork
  extract_lets +onlyGivenNames v1
  extract_lets +onlyGivenNames h2
  refine Touches.cut (x := h2) ?_ fun th2 => ?_
  · subst h2
    refine Touches.forEach ?_ fun x3 h4 th4 => ?_
    · exact Touches.refl
    · exact th4.step Hw.trackWork_touches
  clear_value h2
  refine Touches.forEach ?_ fun x5 h6 th6 => ?_
  · exact th2
  · split
    · refine Touches.ite ?_ ?_
      · exact th6.step Hw.searchWork_touches
      · exact th6
    · exact th6

theorem Hw.starveIntegration_touches {h : Hw} {s : Nat} : Touches [.regs, .mem, .ecc, .elogQ, .strands, .fab, .loop] h (Hw.starveIntegration h s) := by
  unfold Hw.starveIntegration
  extract_lets +onlyGivenNames v1
  split
  · rename_i a2 a3 h4 e5
    refine Touches.cut (x := h4) (Touches.snd ?_ e5) fun th4 => ?_
    · exact Touches.refl.step Hw.withdraw_touches
    extract_lets +onlyGivenNames h6
    refine Touches.cut (x := h6) ?_ fun th6 => ?_
    · subst h6
      exact th4.step Hw.bumpBy_touches
    clear_value h6
    extract_lets +onlyGivenNames v7
    extract_lets +onlyGivenNames h8
    refine Touches.cut (x := h8) ?_ fun th8 => ?_
    · subst h8
      exact th6.step Hw.setStrand_touches
    clear_value h8
    exact th8.step Hw.finishIntegration_touches

theorem Hw.starveWork_touches {h : Hw} {it : Item} : Touches [.regs, .mem, .ecc, .elogQ, .strands, .fab, .loop] h (Hw.starveWork h it) := by
  unfold Hw.starveWork
  split
  · extract_lets +onlyGivenNames v3
    refine Touches.ite ?_ ?_
    · exact (Touches.refl.step Hw.setStrand_touches).step Hw.starveIntegration_touches
    · exact Touches.refl
  · split
    · exact Touches.refl
    · exact (Touches.refl.step Hw.setTranche_touches).step Hw.finishTranche_touches

theorem Hw.starveItem_touches {h : Hw} {it : Item} : Touches [.regs, .mem, .ecc, .elogQ, .strands, .fab, .loop] h (Hw.starveItem h it) := by
  unfold Hw.starveItem
  extract_lets +onlyGivenNames v1
  extract_lets +onlyGivenNames h2
  refine Touches.cut (x := h2) ?_ fun th2 => ?_
  · subst h2
    exact Touches.refl.step Hw.setStrand_touches
  clear_value h2
  exact (th2.step Hw.bump_touches).step Hw.starveWork_touches

theorem Hw.refill_touches {h : Hw} : Touches [.regs, .mem, .ecc, .elogQ, .ports, .strands, .fab, .loop] h (Hw.refill h) := by
  unfold Hw.refill
  extract_lets +onlyGivenNames h1
  refine Touches.cut (x := h1) ?_ fun th1 => ?_
  · subst h1
    refine Touches.forEach ?_ fun x2 h3 th3 => ?_
    · exact Touches.refl
    · exact th3.step Hw.portWork_touches
  clear_value h1
  refine Touches.forEach ?_ fun x4 h5 th5 => ?_
  · exact th1
  · exact th5.step Hw.makeSnapItems_touches

theorem Hw.setIssue_touches {h : Hw} {q : List Item} : Touches [.fab] h (Hw.setIssue h q) := by
  unfold Hw.setIssue
  exact Touches.refl.step set_fab_touches

theorem Hw.headToDeque_touches {h : Hw} {it : Item} {rest : List Item} {e : Nat} : Touches [.regs, .mem, .ecc, .elogQ, .ports, .strands, .fab, .loop] h (Hw.headToDeque h it rest e) := by
  unfold Hw.headToDeque
  extract_lets +onlyGivenNames v1
  refine Touches.ite ?_ ?_
  · extract_lets +onlyGivenNames h2
    refine Touches.cut (x := h2) ?_ fun th2 => ?_
    · subst h2
      exact Touches.refl.step Hw.setIssue_touches
    clear_value h2
    refine Touches.ite ?_ ?_
    · exact (th2.step Hw.starveItem_touches).step Hw.refill_touches
    · exact (th2.step Hw.setEngine_touches).step Hw.refill_touches
  · exact Touches.refl

theorem Hw.headHome_touches {h : Hw} {it : Item} {rest : List Item} : Touches [.regs, .mem, .ecc, .elogQ, .ports, .strands, .fab, .loop] h (Hw.headHome h it rest) := by
  unfold Hw.headHome
  refine Touches.ite ?_ ?_
  · exact Touches.refl
  · exact Touches.refl.step Hw.headToDeque_touches

theorem Hw.dispatchHead_touches {h : Hw} : Touches [.regs, .mem, .ecc, .elogQ, .ports, .strands, .fab, .loop] h (Hw.dispatchHead h) := by
  unfold Hw.dispatchHead
  split
  · exact Touches.refl
  · exact Touches.refl.step Hw.headHome_touches

theorem Hw.dispatchItem_touches {h : Hw} : Touches [.regs, .mem, .ecc, .elogQ, .ports, .strands, .fab, .loop] h (Hw.dispatchItem h) := by
  unfold Hw.dispatchItem
  exact (Touches.refl.step Hw.refill_touches).step Hw.dispatchHead_touches

theorem Hw.begin_touches {h : Hw} {e : Nat} {it : Item} : Touches [.regs, .mem, .ecc, .elogQ, .strands, .fab, .loop] h (Hw.begin h e it) := by
  unfold Hw.begin
  refine Touches.ite ?_ ?_
  · exact Touches.refl.step Hw.starveItem_touches
  · exact Touches.refl.step Hw.setEngine_touches

theorem Hw.engineTake_touches {h : Hw} {e : Nat} : Touches [.regs, .mem, .ecc, .elogQ, .strands, .fab, .loop] h (Hw.engineTake h e) := by
  unfold Hw.engineTake
  extract_lets +onlyGivenNames v1
  refine Touches.ite ?_ ?_
  · exact Touches.refl
  · split
    · exact (Touches.refl.step Hw.setEngine_touches).step Hw.begin_touches
    · refine Touches.ite ?_ ?_
      · exact Touches.refl
      · split
        · exact Touches.refl
        · extract_lets +onlyGivenNames v12
          split
          · exact Touches.refl
          · extract_lets +onlyGivenNames h18
            refine Touches.cut (x := h18) ?_ fun th18 => ?_
            · subst h18
              exact Touches.refl.step Hw.setEngine_touches
            clear_value h18
            extract_lets +onlyGivenNames h19
            refine Touches.cut (x := h19) ?_ fun th19 => ?_
            · subst h19
              exact th18.step Hw.bump_touches
            clear_value h19
            extract_lets +onlyGivenNames h20
            refine Touches.cut (x := h20) ?_ fun th20 => ?_
            · subst h20
              exact th19.step Hw.bump_touches
            clear_value h20
            exact th20.step Hw.begin_touches

theorem Hw.reaperSweep_touches {h : Hw} : Touches [.regs, .mem, .ecc, .elogQ, .ports, .strands, .fab, .loop] h (Hw.reaperSweep h) := by
  unfold Hw.reaperSweep
  extract_lets +onlyGivenNames v1
  extract_lets +onlyGivenNames h2
  refine Touches.cut (x := h2) ?_ fun th2 => ?_
  · subst h2
    refine Touches.forEach ?_ fun x3 h4 th4 => ?_
    · exact Touches.refl
    · extract_lets +onlyGivenNames v5
      refine Touches.ite ?_ ?_
      · extract_lets +onlyGivenNames v6
        extract_lets +onlyGivenNames h7
        refine Touches.cut (x := h7) ?_ fun th7 => ?_
        · subst h7
          exact th4.step set_fab_touches
        clear_value h7
        extract_lets +onlyGivenNames h8
        refine Touches.cut (x := h8) ?_ fun th8 => ?_
        · subst h8
          refine Touches.forEach ?_ fun x9 h10 th10 => ?_
          · exact th7
          · extract_lets +onlyGivenNames v11
            exact th10.step Hw.setEngine_touches
        clear_value h8
        exact th8.step Hw.starveItem_touches
      · exact th4
  clear_value h2
  exact th2.step Hw.refill_touches

theorem Hw.failItem_touches {h : Hw} {e : Nat} {it : Item} : Touches [.regs, .mem, .ecc, .elogQ, .strands, .fab, .loop] h (Hw.failItem h e it) := by
  unfold Hw.failItem
  exact (Touches.refl.step Hw.setEngine_touches).step Hw.starveItem_touches

theorem Hw.putSlot_touches {h : Hw} {e : Nat} {it : Item} {sums : List Nat} : Touches [.ecc, .fab] h (Hw.putSlot h e it sums) := by
  unfold Hw.putSlot
  extract_lets +onlyGivenNames v1
  extract_lets +onlyGivenNames h2
  refine Touches.cut (x := h2) ?_ fun th2 => ?_
  · subst h2
    refine Touches.forEach ?_ fun x3 h4 th4 => ?_
    · exact Touches.refl
    · exact th4.step Hw.setEcc_touches
  clear_value h2
  extract_lets +onlyGivenNames h5
  refine Touches.cut (x := h5) ?_ fun th5 => ?_
  · subst h5
    exact th2.step Hw.setEngine_touches
  clear_value h5
  exact th5.step set_fab_touches

theorem Hw.itemComplete_touches {h : Hw} {e : Nat} : Touches [.regs, .mem, .ecc, .elogQ, .strands, .fab, .loop] h (Hw.itemComplete h e) := by
  unfold Hw.itemComplete
  extract_lets +onlyGivenNames v1
  split
  · exact Touches.refl
  · refine Touches.ite ?_ ?_
    · exact Touches.refl
    · extract_lets +onlyGivenNames v7
      split
      · exact ((Touches.refl.step Hw.mpuRecord_touches).step Hw.report_touches).step Hw.failItem_touches
      · split
        · exact ((((Touches.refl.step Hw.bump_touches).step Hw.sf_touches).step Hw.bump_touches).step Hw.report_touches).step Hw.failItem_touches
        · extract_lets +onlyGivenNames h18
          refine Touches.cut (x := h18) ?_ fun th18 => ?_
          · subst h18
            refine Touches.forEach ?_ fun x19 h20 th20 => ?_
            · exact Touches.refl
            · refine Touches.ite ?_ ?_
              · exact (th20.step Hw.bump_touches).step Hw.setEcc_touches
              · exact th20
          clear_value h18
          split
          · exact th18.step Hw.putSlot_touches
          · split
            · exact th18.step Hw.putSlot_touches
            · exact th18.step Hw.putSlot_touches

theorem Hw.gatherSums_touches {h : Hw} {it : Item} {sums : List Nat} : Touches [.regs, .mem, .ecc, .elogQ, .strands, .fab, .loop] h (Hw.gatherSums h it sums) := by
  unfold Hw.gatherSums
  split
  · extract_lets +onlyGivenNames v3
    refine Touches.ite ?_ ?_
    · extract_lets +onlyGivenNames h4
      refine Touches.cut (x := h4) ?_ fun th4 => ?_
      · subst h4
        exact Touches.refl.step Hw.setStrand_touches
      clear_value h4
      exact th4.step Hw.finishIntegration_touches
    · exact Touches.refl
  · split
    · exact Touches.refl
    · extract_lets +onlyGivenNames h12
      refine Touches.cut (x := h12) ?_ fun th12 => ?_
      · subst h12
        exact Touches.refl.step Hw.setTranche_touches
      clear_value h12
      exact th12.step Hw.finishTranche_touches

theorem Hw.gather_touches {h : Hw} {c : Nat} : Touches [.regs, .mem, .ecc, .elogQ, .strands, .fab, .loop] h (Hw.gather h c) := by
  unfold Hw.gather
  split
  · exact Touches.refl
  · extract_lets +onlyGivenNames v7 v8 v9
    extract_lets +onlyGivenNames h10
    refine Touches.cut (x := h10) ?_ fun th10 => ?_
    · subst h10
      exact Touches.refl.step Hw.setEngine_touches
    clear_value h10
    refine Touches.ite ?_ ?_
    · exact (((th10.step Hw.bump_touches).step Hw.bump_touches).step Hw.report_touches).step Hw.starveItem_touches
    · refine Touches.step ?_ Hw.gatherSums_touches
      refine Touches.forEach ?_ fun x11 h12 th12 => ?_
      · exact th10
      · exact th12.step Hw.correct_touches

end Sys2Proof.Machine
end

