-- ==== Sys2Proof/Laws/TouchCommit.lean ====
section
/-! SUPPORT. What each operation of Machine/Commit.lean touches of the part: the components outside the list stay as they were. -/

set_option Elab.async false

namespace Sys2Proof.Machine

theorem Hw.snapDone_touches {h : Hw} {s : Nat} {word12 : Nat} : Touches [.regs, .mem, .ecc, .free, .elogQ, .ports, .strands, .fab, .loop] h (Hw.snapDone h s word12) := by
  unfold Hw.snapDone
  split
  · rename_i a1 a2 h3 e4
    refine Touches.cut (x := h3) (Touches.snd ?_ e4) fun th3 => ?_
    · exact Touches.refl.step Hw.freshWords_touches
    exact (th3.step Hw.putWords_touches).step Hw.toIdle_touches

theorem Hw.snapCheck_touches {h : Hw} {s : Nat} : Touches [.regs, .mem, .ecc, .free, .elogQ, .ports, .strands, .fab, .loop] h (Hw.snapCheck h s) := by
  unfold Hw.snapCheck
  extract_lets +onlyGivenNames v1
  refine Touches.ite ?_ ?_
  · exact Touches.refl
  · refine Touches.ite ?_ ?_
    · exact Touches.refl.step Hw.snapDone_touches
    · refine Touches.ite ?_ ?_
      · exact Touches.refl.step Hw.setStrand_touches
      · exact Touches.refl

theorem Hw.snapCheckAll_touches {h : Hw} : Touches [.regs, .mem, .ecc, .free, .elogQ, .ports, .strands, .fab, .loop] h (Hw.snapCheckAll h) := by
  unfold Hw.snapCheckAll
  refine Touches.forEach ?_ fun x1 h2 th2 => ?_
  · exact Touches.refl
  · exact th2.step Hw.snapCheck_touches

theorem Hw.snapLost_touches {h : Hw} : Touches [.regs, .mem, .ecc, .free, .elogQ, .ports, .strands, .fab, .loop] h (Hw.snapLost h) := by
  unfold Hw.snapLost
  refine Touches.forEach ?_ fun x1 h2 th2 => ?_
  · exact Touches.refl
  · exact th2.step Hw.snapDone_touches

theorem Hw.enterState_touches {h : Hw} {s : Nat} {st : StrandState} : Touches [.regs, .mem, .ecc, .elogQ, .strands] h (Hw.enterState h s st) := by
  unfold Hw.enterState
  extract_lets +onlyGivenNames v1
  refine Touches.ite ?_ ?_
  · exact Touches.refl
  · extract_lets +onlyGivenNames h2
    refine Touches.cut (x := h2) ?_ fun th2 => ?_
    · subst h2
      exact Touches.refl.step Hw.setStrand_touches
    clear_value h2
    refine Touches.ite ?_ ?_
    · exact th2.step Hw.syncReset_touches
    · exact th2

theorem Hw.applyOff_touches {h : Hw} {s : Nat} {t : Strand} {b : List Nat} : Touches [.regs, .mem, .ecc, .elogQ, .ports, .strands, .fab, .loop] h (Hw.applyOff h s t b) := by
  unfold Hw.applyOff
  extract_lets +onlyGivenNames h1
  refine Touches.cut (x := h1) ?_ fun th1 => ?_
  · subst h1
    exact (Touches.refl.step Hw.setStrand_touches).step Hw.toIdle_touches
  clear_value h1
  extract_lets +onlyGivenNames v2 v3
  exact (th1.step Hw.setStrand_touches).step Hw.anchor_touches

theorem Hw.applyStaged_touches {h : Hw} {s : Nat} {n : Nat} : Touches [.regs, .mem, .ecc, .free, .elogQ, .ports, .strands, .fab, .loop] h (Hw.applyStaged h s n) := by
  unfold Hw.applyStaged
  extract_lets +onlyGivenNames v1
  split
  · exact Touches.refl
  · extract_lets +onlyGivenNames v8 v9 v10
    refine Touches.ite ?_ ?_
    · exact Touches.refl.step Hw.applyOff_touches
    · split
      · exact Touches.refl.step Hw.refuseStaged_touches
      · extract_lets +onlyGivenNames h17
        refine Touches.cut (x := h17) ?_ fun th17 => ?_
        · subst h17
          refine Touches.ite ?_ ?_
          · exact Touches.refl.step Hw.dropWork_touches
          · exact Touches.refl
        clear_value h17
        extract_lets +onlyGivenNames v18
        extract_lets +onlyGivenNames h19
        refine Touches.cut (x := h19) ?_ fun th19 => ?_
        · subst h19
          exact th17.step Hw.setStrand_touches
        clear_value h19
        extract_lets +onlyGivenNames h20
        refine Touches.cut (x := h20) ?_ fun th20 => ?_
        · subst h20
          refine Touches.ite ?_ ?_
          · exact th19.step Hw.leaveIdle_touches
          · exact th19
        clear_value h20
        extract_lets +onlyGivenNames h21
        refine Touches.cut (x := h21) ?_ fun th21 => ?_
        · subst h21
          exact th20.step Hw.enterState_touches
        clear_value h21
        extract_lets +onlyGivenNames v22
        extract_lets +onlyGivenNames h23
        refine Touches.cut (x := h23) ?_ fun th23 => ?_
        · subst h23
          refine Touches.ite ?_ ?_
          · exact th21.step Hw.setStrand_touches
          · refine Touches.ite ?_ ?_
            · exact th21.step Hw.setStrand_touches
            · exact th21
        clear_value h23
        extract_lets +onlyGivenNames h24
        refine Touches.cut (x := h24) ?_ fun th24 => ?_
        · subst h24
          refine Touches.ite ?_ ?_
          · exact th23.step Hw.setStrand_touches
          · exact th23
        clear_value h24
        exact ((th24.step Hw.anchor_touches).step Hw.rewrite_touches).step Hw.snapCheck_touches

theorem Hw.aidReady_touches {h : Hw} {s : Nat} {at_ : Nat} {b : List Nat} : Touches [.loop] h (Hw.aidReady h s at_ b) := by
  unfold Hw.aidReady
  extract_lets +onlyGivenNames v1
  exact Touches.refl.step set_loop_touches

theorem Hw.stage_touches {h : Hw} {s : Nat} {gen : Nat} {b : List Nat} : Touches [.regs, .mem, .ecc, .free, .elogQ, .ports, .strands, .fab, .loop] h (Hw.stage h s gen b) := by
  unfold Hw.stage
  extract_lets +onlyGivenNames v1 v2
  refine Touches.ite ?_ ?_
  · exact Touches.refl.step Hw.refuse_touches
  · extract_lets +onlyGivenNames v3 v4
    extract_lets +onlyGivenNames h5
    refine Touches.cut (x := h5) ?_ fun th5 => ?_
    · subst h5
      exact (Touches.refl.step Hw.setStrand_touches).step Hw.aidReady_touches
    clear_value h5
    refine Touches.ite ?_ ?_
    · exact th5.step Hw.applyStaged_touches
    · refine Touches.ite ?_ ?_
      · exact th5.step Hw.applyStaged_touches
      · exact th5

theorem Hw.pickUp_touches {h : Hw} {s : Nat} : Touches [.regs, .mem, .ecc, .free, .elogQ, .ports, .strands, .fab, .loop] h (Hw.pickUp h s) := by
  unfold Hw.pickUp
  extract_lets +onlyGivenNames v1
  split
  · rename_i a2 a3 h4 e5
    refine Touches.cut (x := h4) (Touches.snd ?_ e5) fun th4 => ?_
    · exact Touches.refl.step Hw.fabRead_touches
    extract_lets +onlyGivenNames v6 v7
    refine Touches.ite ?_ ?_
    · exact th4
    · split
      · rename_i a8 a9 h10 e11
        refine Touches.cut (x := h10) (Touches.snd ?_ e11) fun th10 => ?_
        · exact th4.step Hw.fabRead_touches
        extract_lets +onlyGivenNames v12
        refine Touches.ite ?_ ?_
        · exact th10
        · refine Touches.ite ?_ ?_
          · exact th10.step Hw.tornRead_touches
          · refine Touches.ite ?_ ?_
            · exact th10
            · exact th10.step Hw.stage_touches

theorem Hw.scanAll_touches {h : Hw} : Touches [.regs, .mem, .ecc, .free, .elogQ, .ports, .strands, .fab, .loop] h (Hw.scanAll h) := by
  unfold Hw.scanAll
  generalize upTo 512 = ns512
  refine Touches.step ?_ Hw.count_touches
  refine Touches.forEach ?_ fun x1 h2 th2 => ?_
  · exact Touches.refl
  · exact th2.step Hw.pickUp_touches

theorem Hw.scan_touches {h : Hw} : Touches [.regs, .mem, .ecc, .free, .elogQ, .ports, .strands, .fab, .loop] h (Hw.scan h) := by
  unfold Hw.scan
  refine Touches.ite ?_ ?_
  · exact Touches.refl
  · extract_lets +onlyGivenNames v1 v2
    extract_lets +onlyGivenNames h3
    refine Touches.cut (x := h3) ?_ fun th3 => ?_
    · subst h3
      exact Touches.refl.step set_fab_touches
    clear_value h3
    extract_lets +onlyGivenNames h4
    refine Touches.cut (x := h4) ?_ fun th4 => ?_
    · subst h4
      refine Touches.step ?_ Hw.scanAll_touches
      refine Touches.forEach ?_ fun x5 h6 th6 => ?_
      · exact th3
      · split
        · exact th6.step Hw.pickUp_touches
        · exact th6
    clear_value h4
    refine Touches.ite ?_ ?_
    · exact th4.step Hw.scanAll_touches
    · exact th4

theorem Hw.ringBell_touches {h : Hw} {bell : Option Nat} : Touches [.regs, .fab] h (Hw.ringBell h bell) := by
  unfold Hw.ringBell
  refine Touches.ite ?_ ?_
  · exact Touches.refl.step set_fab_touches
  · exact Touches.refl.step Hw.sf_touches

theorem Hw.serveBell_touches {h : Hw} : Touches [.regs, .mem, .ecc, .free, .elogQ, .ports, .strands, .fab, .loop] h (Hw.serveBell h) := by
  unfold Hw.serveBell
  split
  · exact Touches.refl
  · refine Touches.ite ?_ ?_
    · exact Touches.refl
    · extract_lets +onlyGivenNames v7
      extract_lets +onlyGivenNames h8
      refine Touches.cut (x := h8) ?_ fun th8 => ?_
      · subst h8
        exact Touches.refl.step set_fab_touches
      clear_value h8
      split
      · exact th8.step Hw.scan_touches
      · exact th8.step Hw.pickUp_touches

theorem Hw.initScan_touches {h : Hw} : Touches [.regs, .mem, .ecc, .elogQ, .strands] h (Hw.initScan h) := by
  unfold Hw.initScan
  generalize upTo 512 = ns512
  refine Touches.ite ?_ ?_
  · exact Touches.refl
  · refine Touches.forEach ?_ fun x1 h2 th2 => ?_
    · exact Touches.refl
    · extract_lets +onlyGivenNames v3 v4 v5
      exact (th2.step Hw.setStrand_touches).step Hw.fabWrites_touches

theorem Hw.navWords_touches {h : Hw} {a : Nat} {b1 : Nat} : Touches [.regs, .ecc, .free, .resp, .elogQ] h (Hw.navWords h a b1).2 := by
  induction b1 generalizing h a with
  | zero =>
    unfold Hw.navWords
    exact Touches.pair (Touches.refl)
  | succ k ih =>
    unfold Hw.navWords
    extract_lets +onlyGivenNames h1
    refine Touches.cut (x := h1) ?_ fun th1 => ?_
    · subst h1
      exact Touches.refl.step Hw.memRead_touches
    clear_value h1
    split
    · exact th1.step ih
    · exact Touches.pair (th1)

theorem Hw.commitObject_touches {h : Hw} {s : Nat} {bell : Bool} : Touches [.regs, .mem, .ecc, .free, .resp, .elogQ, .memu, .fab, .fw] h (Hw.commitObject h s bell) := by
  unfold Hw.commitObject
  extract_lets +onlyGivenNames v1
  split
  · rename_i a2 h3 e4
    refine Touches.cut (x := h3) (Touches.snd ?_ e4) fun th3 => ?_
    · exact Touches.refl.step Hw.navWords_touches
    exact th3
  · rename_i a5 h6 e7
    refine Touches.cut (x := h6) (Touches.snd ?_ e7) fun th6 => ?_
    · exact Touches.refl.step Hw.navWords_touches
    extract_lets +onlyGivenNames v8 v9
    extract_lets +onlyGivenNames h10
    refine Touches.cut (x := h10) ?_ fun th10 => ?_
    · subst h10
      exact th6.step Hw.memWrite_touches
    clear_value h10
    refine Touches.ite ?_ ?_
    · extract_lets +onlyGivenNames v11
      extract_lets +onlyGivenNames h12
      refine Touches.cut (x := h12) ?_ fun th12 => ?_
      · subst h12
        exact th10.step set_fw_touches
      clear_value h12
      refine Touches.ite ?_ ?_
      · exact th12.step Hw.ringBell_touches
      · exact th12
    · exact th10

theorem Hw.recheckStaged_touches {h : Hw} {s : Nat} : Touches [.regs, .mem, .ecc, .free, .elogQ, .ports, .strands, .fab, .loop] h (Hw.recheckStaged h s) := by
  unfold Hw.recheckStaged
  extract_lets +onlyGivenNames v1
  split
  · exact Touches.refl
  · extract_lets +onlyGivenNames v8
    refine Touches.ite ?_ ?_
    · exact Touches.refl.step Hw.refuseStaged_touches
    · extract_lets +onlyGivenNames h9
      refine Touches.cut (x := h9) ?_ fun th9 => ?_
      · subst h9
        exact Touches.refl.step Hw.setStrand_touches
      clear_value h9
      refine Touches.ite ?_ ?_
      · exact th9.step Hw.applyStaged_touches
      · exact th9

end Sys2Proof.Machine
end

