-- ==== Sys2Proof/Laws/TouchBitSync.lean ====
section
/-! SUPPORT. What each operation of Machine/BitSync.lean touches of the part: the components outside the list stay as they were. -/

set_option Elab.async false

namespace Sys2Proof.Machine

theorem Hw.setNb_touches {h : Hw} {s : Nat} {w : Nat} {v : Nat} : Touches [.regs, .mem, .ecc, .elogQ] h (Hw.setNb h s w v) := by
  unfold Hw.setNb
  extract_lets +onlyGivenNames v1
  refine Touches.ite ?_ ?_
  · exact Touches.refl.step Hw.fabWrite_touches
  · exact Touches.refl.step Hw.fabWrite_touches

theorem Hw.setNbStat_touches {h : Hw} {s : Nat} {lo : Nat} {len : Nat} {v : Nat} : Touches [.regs, .mem, .ecc, .elogQ] h (Hw.setNbStat h s lo len v) := by
  unfold Hw.setNbStat
  exact Touches.refl.step Hw.setNb_touches

theorem Hw.writeSymbol_touches {h : Hw} {s : Nat} {soft : Nat} {hard : Bool} {tag : Nat} : Touches [.regs, .mem, .ecc, .elogQ] h (Hw.writeSymbol h s soft hard tag) := by
  unfold Hw.writeSymbol
  extract_lets +onlyGivenNames v1 v2 v3
  extract_lets +onlyGivenNames h4
  refine Touches.cut (x := h4) ?_ fun th4 => ?_
  · subst h4
    exact Touches.refl.step Hw.setNb_touches
  clear_value h4
  extract_lets +onlyGivenNames v5
  extract_lets +onlyGivenNames h6
  refine Touches.cut (x := h6) ?_ fun th6 => ?_
  · subst h6
    exact th4.step Hw.setNb_touches
  clear_value h6
  extract_lets +onlyGivenNames h7
  refine Touches.cut (x := h7) ?_ fun th7 => ?_
  · subst h7
    exact th6.step Hw.setNb_touches
  clear_value h7
  exact th7.step Hw.setNb_touches

theorem Hw.checked_touches {h : Hw} {s : Nat} {ok : Bool} {kind : Nat} : Touches [.regs, .mem, .ecc, .elogQ] h (Hw.checked h s ok kind) := by
  unfold Hw.checked
  extract_lets +onlyGivenNames v1
  extract_lets +onlyGivenNames h2
  refine Touches.cut (x := h2) ?_ fun th2 => ?_
  · subst h2
    exact Touches.refl.step Hw.setNb_touches
  clear_value h2
  exact th2.step Hw.setNb_touches

theorem Hw.lnavStep_touches {h : Hw} {s : Nat} {nb : Nat} : Touches [.regs, .mem, .ecc, .elogQ, .strands] h (Hw.lnavStep h s nb) := by
  unfold Hw.lnavStep
  extract_lets +onlyGivenNames v1 v2 v3 v4 v5 v6 v7 v8 v9 v10
  extract_lets +onlyGivenNames h11
  refine Touches.cut (x := h11) ?_ fun th11 => ?_
  · subst h11
    exact Touches.refl.step Hw.setStrand_touches
  clear_value h11
  extract_lets +onlyGivenNames h12
  refine Touches.cut (x := h12) ?_ fun th12 => ?_
  · subst h12
    refine Touches.ite ?_ ?_
    · exact th11.step Hw.checked_touches
    · exact th11
  clear_value h12
  refine Touches.ite ?_ ?_
  · extract_lets +onlyGivenNames v13
    extract_lets +onlyGivenNames h14
    refine Touches.cut (x := h14) ?_ fun th14 => ?_
    · subst h14
      exact th12.step Hw.setNbStat_touches
    clear_value h14
    extract_lets +onlyGivenNames v15 v16 v17
    extract_lets +onlyGivenNames h18
    refine Touches.cut (x := h18) ?_ fun th18 => ?_
    · subst h18
      exact th14.step Hw.setStrand_touches
    clear_value h18
    refine Touches.ite ?_ ?_
    · exact th18
    · exact th18.step Hw.setNb_touches
  · exact th12

theorem Hw.glonassStep_touches {h : Hw} {s : Nat} : Touches [.regs, .mem, .ecc, .elogQ] h (Hw.glonassStep h s) := by
  unfold Hw.glonassStep
  extract_lets +onlyGivenNames v1 v2
  refine Touches.ite ?_ ?_
  · extract_lets +onlyGivenNames h3
    refine Touches.cut (x := h3) ?_ fun th3 => ?_
    · subst h3
      exact Touches.refl.step Hw.setNbStat_touches
    clear_value h3
    extract_lets +onlyGivenNames v4
    refine Touches.ite ?_ ?_
    · exact th3.step Hw.checked_touches
    · exact th3
  · exact Touches.refl

theorem Hw.symbolDone_touches {h : Hw} {s : Nat} {nb : Nat} : Touches [.regs, .mem, .ecc, .free, .elogQ, .strands] h (Hw.symbolDone h s nb) := by
  unfold Hw.symbolDone
  extract_lets +onlyGivenNames v1 v2 v3 v4 v5 v6
  refine Touches.ite ?_ ?_
  · extract_lets +onlyGivenNames h7
    refine Touches.cut (x := h7) ?_ fun th7 => ?_
    · subst h7
      exact Touches.refl.step Hw.setNbStat_touches
    clear_value h7
    extract_lets +onlyGivenNames v8
    extract_lets +onlyGivenNames h9
    refine Touches.cut (x := h9) ?_ fun th9 => ?_
    · subst h9
      exact th7.step Hw.setStrand_touches
    clear_value h9
    extract_lets +onlyGivenNames h10
    refine Touches.cut (x := h10) ?_ fun th10 => ?_
    · subst h10
      exact th9.step Hw.writeSymbol_touches
    clear_value h10
    refine Touches.ite ?_ ?_
    · exact th10.step Hw.lnavStep_touches
    · refine Touches.ite ?_ ?_
      · exact th10.step Hw.glonassStep_touches
      · exact th10
  · extract_lets +onlyGivenNames v11 v12 v13
    split
    · rename_i a14 a15 h16 e17
      refine Touches.cut (x := h16) (Touches.snd ?_ e17) fun th16 => ?_
      · split
        · exact Touches.pair (Touches.refl)
        · exact Touches.refl.step Hw.fresh_touches
      extract_lets +onlyGivenNames v23
      extract_lets +onlyGivenNames h24
      refine Touches.cut (x := h24) ?_ fun th24 => ?_
      · subst h24
        exact th16.step Hw.setStrand_touches
      clear_value h24
      extract_lets +onlyGivenNames h25
      refine Touches.cut (x := h25) ?_ fun th25 => ?_
      · subst h25
        exact th24.step Hw.writeSymbol_touches
      clear_value h25
      refine Touches.ite ?_ ?_
      · exact th25.step Hw.lnavStep_touches
      · refine Touches.ite ?_ ?_
        · exact th25.step Hw.glonassStep_touches
        · exact th25

theorem Hw.symbolAdd_touches {h : Hw} {s : Nat} {sym : Option Int} {ms : Nat} {symMs : Nat} {first : Nat} {nb : Nat} {start : Bool} : Touches [.regs, .mem, .ecc, .free, .elogQ, .strands] h (Hw.symbolAdd h s sym ms symMs first nb start) := by
  unfold Hw.symbolAdd
  extract_lets +onlyGivenNames v1 v2 v3
  refine Touches.ite ?_ ?_
  · exact Touches.refl.step Hw.setStrand_touches
  · extract_lets +onlyGivenNames v4 v5 v6 v7
    extract_lets +onlyGivenNames h8
    refine Touches.cut (x := h8) ?_ fun th8 => ?_
    · subst h8
      exact Touches.refl.step Hw.setStrand_touches
    clear_value h8
    refine Touches.ite ?_ ?_
    · exact th8.step Hw.symbolDone_touches
    · exact th8

theorem Hw.syncLock_touches {h : Hw} {s : Nat} {edge : Nat} : Touches [.regs, .mem, .ecc, .elogQ, .strands] h (Hw.syncLock h s edge) := by
  unfold Hw.syncLock
  extract_lets +onlyGivenNames h1
  refine Touches.cut (x := h1) ?_ fun th1 => ?_
  · subst h1
    exact Touches.refl.step Hw.setNbStat_touches
  clear_value h1
  extract_lets +onlyGivenNames h2
  refine Touches.cut (x := h2) ?_ fun th2 => ?_
  · subst h2
    exact th1.step Hw.setNbStat_touches
  clear_value h2
  extract_lets +onlyGivenNames v3
  exact th2.step Hw.setStrand_touches

theorem Hw.histStep_touches {h : Hw} {s : Nat} {sym : Option Int} {mm : Nat} {m : Nat} : Touches [.regs, .mem, .ecc, .elogQ, .strands] h (Hw.histStep h s sym mm m) := by
  unfold Hw.histStep
  extract_lets +onlyGivenNames v1 v2
  split
  · exact Touches.refl.step Hw.setStrand_touches
  · extract_lets +onlyGivenNames v6 v7 v8 v9
    extract_lets +onlyGivenNames h10
    refine Touches.cut (x := h10) ?_ fun th10 => ?_
    · subst h10
      exact Touches.refl.step Hw.setStrand_touches
    clear_value h10
    refine Touches.ite ?_ ?_
    · split
      · refine Touches.ite ?_ ?_
        · exact th10.step Hw.syncLock_touches
        · exact th10.step Hw.setStrand_touches
    · exact th10

theorem Hw.secStep_touches {h : Hw} {s : Nat} {sym : Option Int} {mm : Nat} : Touches [.regs, .mem, .ecc, .elogQ, .strands] h (Hw.secStep h s sym mm) := by
  unfold Hw.secStep
  extract_lets +onlyGivenNames v1 v2 v3
  split
  · exact Touches.refl.step Hw.setStrand_touches
  · extract_lets +onlyGivenNames v7
    extract_lets +onlyGivenNames h8
    refine Touches.cut (x := h8) ?_ fun th8 => ?_
    · subst h8
      exact Touches.refl.step Hw.setStrand_touches
    clear_value h8
    extract_lets +onlyGivenNames v9
    refine Touches.ite ?_ ?_
    · exact th8.step Hw.syncLock_touches
    · exact th8

theorem Hw.syncTake_touches {h : Hw} {k : LoopTask} {r : RetWords} : Touches [.regs, .mem, .ecc, .free, .elogQ, .strands] h (Hw.syncTake h k r) := by
  unfold Hw.syncTake
  extract_lets +onlyGivenNames v1 v2 v3
  split
  · extract_lets +onlyGivenNames v8 v9 v10
    extract_lets +onlyGivenNames h11
    refine Touches.cut (x := h11) ?_ fun th11 => ?_
    · subst h11
      refine Touches.ite ?_ ?_
      · exact Touches.refl.step Hw.setNbStat_touches
      · exact Touches.refl
    clear_value h11
    extract_lets +onlyGivenNames v12 v13
    extract_lets +onlyGivenNames h14
    refine Touches.cut (x := h14) ?_ fun th14 => ?_
    · subst h14
      refine Touches.ite ?_ ?_
      · exact Touches.refl.step Hw.syncLock_touches
      · refine Touches.ite ?_ ?_
        · refine Touches.ite ?_ ?_
          · exact th11.step Hw.histStep_touches
          · exact th11.step Hw.secStep_touches
        · refine Touches.ite ?_ ?_
          · exact Touches.refl.step Hw.setStrand_touches
          · exact Touches.refl
    clear_value h14
    refine Touches.ite ?_ ?_
    · exact th14
    · extract_lets +onlyGivenNames v15
      extract_lets +onlyGivenNames h16
      refine Touches.cut (x := h16) ?_ fun th16 => ?_
      · subst h16
        refine Touches.ite ?_ ?_
        · exact th14
        · exact th14.step Hw.setNbStat_touches
      clear_value h16
      refine Touches.ite ?_ ?_
      · extract_lets +onlyGivenNames v17
        exact th16.step Hw.setStrand_touches
      · refine Touches.ite ?_ ?_
        · exact th16
        · extract_lets +onlyGivenNames v18 v19
          exact th16.step Hw.symbolAdd_touches

theorem Hw.bitSync_touches {h : Hw} {k : LoopTask} {r : RetWords} : Touches [.regs, .mem, .ecc, .free, .elogQ, .strands] h (Hw.bitSync h k r) := by
  unfold Hw.bitSync
  extract_lets +onlyGivenNames h1
  refine Touches.cut (x := h1) ?_ fun th1 => ?_
  · subst h1
    exact Touches.refl.step Hw.syncTake_touches
  clear_value h1
  extract_lets +onlyGivenNames v2
  exact th1.step Hw.setStrand_touches

theorem Hw.erasedInt_touches {h : Hw} {s : Nat} {e : Ended} : Touches [.regs, .mem, .ecc, .free, .elogQ, .strands] h (Hw.erasedInt h s e) := by
  unfold Hw.erasedInt
  refine Touches.ite ?_ ?_
  · exact Touches.refl.step Hw.bitSync_touches
  · exact Touches.refl

end Sys2Proof.Machine
end

