-- ==== Sys2Proof/Laws/TouchClose.lean ====
section
/-! SUPPORT. What each operation of Machine/Close.lean touches of the part: the components outside the list stay as they were. -/

set_option Elab.async false

namespace Sys2Proof.Machine

theorem Hw.close_touches {h : Hw} {s : Nat} : Touches [.regs, .mem, .ecc, .free, .elogQ, .ports, .strands, .fab, .loop] h (Hw.close h s) := by
  unfold Hw.close
  split
  · exact Touches.refl
  · extract_lets +onlyGivenNames h6
    refine Touches.cut (x := h6) ?_ fun th6 => ?_
    · subst h6
      exact Touches.refl.step Hw.erasedInt_touches
    clear_value h6
    extract_lets +onlyGivenNames v7 v8 v9 v10 v11
    split
    · extract_lets +onlyGivenNames v17 v18
      extract_lets +onlyGivenNames h19
      refine Touches.cut (x := h19) ?_ fun th19 => ?_
      · subst h19
        exact th6.step Hw.setStrand_touches
      clear_value h19
      split
      · exact ((th19.step Hw.toIdle_touches).step Hw.anchor_touches).step Hw.recheckStaged_touches
      · extract_lets +onlyGivenNames v24
        extract_lets +onlyGivenNames h25
        refine Touches.cut (x := h25) ?_ fun th25 => ?_
        · subst h25
          exact th19.step Hw.enterState_touches
        clear_value h25
        extract_lets +onlyGivenNames h26
        refine Touches.cut (x := h26) ?_ fun th26 => ?_
        · subst h26
          exact th25.step Hw.setStrand_touches
        clear_value h26
        extract_lets +onlyGivenNames h27
        refine Touches.cut (x := h27) ?_ fun th27 => ?_
        · subst h27
          refine Touches.ite ?_ ?_
          · exact th26.step Hw.rewrite_touches
          · exact th26
        clear_value h27
        extract_lets +onlyGivenNames h28
        refine Touches.cut (x := h28) ?_ fun th28 => ?_
        · subst h28
          refine Touches.ite ?_ ?_
          · exact th27.step Hw.applyStaged_touches
          · exact th27
        clear_value h28
        extract_lets +onlyGivenNames v29 v30
        extract_lets +onlyGivenNames h31
        refine Touches.cut (x := h31) ?_ fun th31 => ?_
        · subst h31
          exact (th28.step Hw.setStrand_touches).step Hw.anchor_touches
        clear_value h31
        refine Touches.ite ?_ ?_
        · exact (th31.step Hw.setStrand_touches).step Hw.trackWork_touches
        · exact th31

theorem Hw.pullExpiry_touches {h : Hw} {s : Nat} : Touches [.regs, .mem, .ecc, .free, .elogQ, .ports, .strands, .fab, .loop] h (Hw.pullExpiry h s) := by
  unfold Hw.pullExpiry
  split
  · refine Touches.ite ?_ ?_
    · exact Touches.refl.step Hw.close_touches
    · exact Touches.refl
  · exact Touches.refl

theorem Hw.coastExpiry_touches {h : Hw} {s : Nat} : Touches [.regs, .mem, .ecc, .free, .elogQ, .ports, .strands, .fab, .loop] h (Hw.coastExpiry h s) := by
  unfold Hw.coastExpiry
  split
  · refine Touches.ite ?_ ?_
    · exact Touches.refl.step Hw.close_touches
    · exact Touches.refl
  · exact Touches.refl

theorem Hw.giveTranche_touches {h : Hw} {i : Nat} {s : Nat} : Touches [.strands, .fab] h (Hw.giveTranche h i s) := by
  unfold Hw.giveTranche
  extract_lets +onlyGivenNames v1 v2 v3 v4
  split
  · extract_lets +onlyGivenNames v9 v10 v11
    extract_lets +onlyGivenNames h12
    refine Touches.cut (x := h12) ?_ fun th12 => ?_
    · subst h12
      exact Touches.refl.step set_fab_touches
    clear_value h12
    split
    · extract_lets +onlyGivenNames h18
      refine Touches.cut (x := h18) ?_ fun th18 => ?_
      · subst h18
        exact th12.step Hw.setTranche_touches
      clear_value h18
      exact th18.step Hw.setStrand_touches
    · extract_lets +onlyGivenNames v21 v22
      extract_lets +onlyGivenNames h23
      refine Touches.cut (x := h23) ?_ fun th23 => ?_
      · subst h23
        exact th12.step Hw.setTranche_touches
      clear_value h23
      extract_lets +onlyGivenNames v24
      exact th23.step Hw.setStrand_touches

theorem Hw.allocateOne_touches {h g : Hw} (e : h.allocateOne = some g) : Touches [.strands, .fab] h g := by
  unfold Hw.allocateOne at e
  simp only at e
  split at e
  · cases e
  · revert e
    generalize (match _ with | some s => some s | none => _ : Option Nat) = first
    intro e
    split at e
    · cases e
    · cases e
      exact (Touches.refl.step Hw.giveTranche_touches).step set_fab_touches

theorem Hw.allocate_touches {h : Hw} {n : Nat} : Touches [.strands, .fab] h (h.allocate n) := by
  induction n generalizing h with
  | zero =>
    unfold Hw.allocate
    exact Touches.refl
  | succ k ih =>
    unfold Hw.allocate
    split
    · exact Touches.refl
    · rename_i g e
      exact (Touches.refl.step (Hw.allocateOne_touches e)).step ih

theorem Hw.startTranche_touches {h : Hw} {i : Nat} : Touches [.regs, .ports, .strands, .fab, .loop] h (Hw.startTranche h i) := by
  unfold Hw.startTranche
  split
  · exact Touches.refl
  · refine Touches.ite ?_ ?_
    · exact Touches.refl
    · extract_lets +onlyGivenNames v6
      refine Touches.ite ?_ ?_
      · exact ((Touches.refl.step Hw.setTranche_touches).step Hw.makeSnapItems_touches).step Hw.finishTranche_touches
      · refine Touches.ite ?_ ?_
        · exact (Touches.refl.step Hw.setTranche_touches).step Hw.searchWork_touches
        · exact Touches.refl

theorem Hw.detectEntry_touches {h : Hw} {s : Nat} : Touches [.regs, .mem, .ecc, .free, .elogQ, .ports, .strands, .fab, .loop] h (Hw.detectEntry h s) := by
  unfold Hw.detectEntry
  extract_lets +onlyGivenNames v1
  split
  · exact Touches.refl
  · extract_lets +onlyGivenNames v10 v11
    refine Touches.ite ?_ ?_
    · extract_lets +onlyGivenNames h12
      refine Touches.cut (x := h12) ?_ fun th12 => ?_
      · subst h12
        exact Touches.refl.step Hw.dropWork_touches
      clear_value h12
      extract_lets +onlyGivenNames v13 v14 v15
      extract_lets +onlyGivenNames h16
      refine Touches.cut (x := h16) ?_ fun th16 => ?_
      · subst h16
        exact th12.step Hw.setStrand_touches
      clear_value h16
      extract_lets +onlyGivenNames h17
      refine Touches.cut (x := h17) ?_ fun th17 => ?_
      · subst h17
        exact th16.step Hw.enterState_touches
      clear_value h17
      extract_lets +onlyGivenNames h18
      refine Touches.cut (x := h18) ?_ fun th18 => ?_
      · subst h18
        exact (th17.step Hw.setStrand_touches).step Hw.rewrite_touches
      clear_value h18
      extract_lets +onlyGivenNames v19
      extract_lets +onlyGivenNames h20
      refine Touches.cut (x := h20) ?_ fun th20 => ?_
      · subst h20
        refine Touches.ite ?_ ?_
        · exact th18.step Hw.applyStaged_touches
        · exact th18
      clear_value h20
      extract_lets +onlyGivenNames h21
      refine Touches.cut (x := h21) ?_ fun th21 => ?_
      · subst h21
        exact th20.step Hw.anchor_touches
      clear_value h21
      refine Touches.ite ?_ ?_
      · exact th21.step Hw.trackWork_touches
      · exact th21
    · exact Touches.refl

theorem Hw.applyAtBlock_touches {h : Hw} {s : Nat} : Touches [.regs, .mem, .ecc, .free, .elogQ, .ports, .strands, .fab, .loop] h (Hw.applyAtBlock h s) := by
  unfold Hw.applyAtBlock
  extract_lets +onlyGivenNames v1
  split
  · exact Touches.refl
  · extract_lets +onlyGivenNames v8
    refine Touches.ite ?_ ?_
    · refine Touches.ite ?_ ?_
      · exact Touches.refl.step Hw.refuseStaged_touches
      · refine Touches.ite ?_ ?_
        · exact Touches.refl.step Hw.detectEntry_touches
        · exact (Touches.refl.step Hw.applyStaged_touches).step Hw.trackWork_touches
    · exact Touches.refl

theorem Hw.passEnd_touches {h : Hw} {s : Nat} : Touches [.regs, .mem, .ecc, .free, .elogQ, .ports, .strands, .fab, .loop] h (Hw.passEnd h s) := by
  unfold Hw.passEnd
  extract_lets +onlyGivenNames v1 v2
  refine Touches.ite ?_ ?_
  · refine Touches.ite ?_ ?_
    · exact (Touches.refl.step Hw.toIdle_touches).step Hw.recheckStaged_touches
    · exact Touches.refl.step Hw.setStrand_touches
  · exact Touches.refl

theorem Hw.refuseExcess_touches {h : Hw} {b1 : Nat} : Touches [.regs, .mem, .ecc, .elogQ, .strands] h (Hw.refuseExcess h b1) := by
  induction b1 generalizing h with
  | zero =>
    unfold Hw.refuseExcess
    exact Touches.refl
  | succ k ih =>
    unfold Hw.refuseExcess
    refine Touches.ite ?_ ?_
    · split
      · exact Touches.refl
      · exact (Touches.refl.step Hw.refuseStaged_touches).step ih
    · exact Touches.refl

theorem Hw.dropExcess_touches {h : Hw} {b1 : Nat} : Touches [.regs, .mem, .ecc, .free, .elogQ, .ports, .strands, .fab, .loop] h (Hw.dropExcess h b1) := by
  induction b1 generalizing h with
  | zero =>
    unfold Hw.dropExcess
    exact Touches.refl
  | succ k ih =>
    unfold Hw.dropExcess
    refine Touches.ite ?_ ?_
    · split
      · exact Touches.refl
      · exact (((Touches.refl.step Hw.toIdle_touches).step Hw.report_touches).step Hw.recheckStaged_touches).step ih
    · exact Touches.refl

theorem Hw.capacityLost_touches {h : Hw} : Touches [.regs, .mem, .ecc, .free, .elogQ, .ports, .strands, .fab, .loop] h (Hw.capacityLost h) := by
  unfold Hw.capacityLost
  exact (Touches.refl.step Hw.refuseExcess_touches).step Hw.dropExcess_touches

theorem Hw.testStart_touches {h : Hw} {v : Nat} : Touches [.regs, .fab] h (Hw.testStart h v) := by
  unfold Hw.testStart
  extract_lets +onlyGivenNames h1
  refine Touches.cut (x := h1) ?_ fun th1 => ?_
  · subst h1
    exact Touches.refl.step Hw.writeFields_touches
  clear_value h1
  refine Touches.ite ?_ ?_
  · extract_lets +onlyGivenNames v2
    refine Touches.ite ?_ ?_
    · extract_lets +onlyGivenNames v3
      extract_lets +onlyGivenNames h4
      refine Touches.cut (x := h4) ?_ fun th4 => ?_
      · subst h4
        exact th1.step Hw.setEngine_touches
      clear_value h4
      exact (th4.step set_fab_touches).step Hw.sf_touches
    · exact th1.step Hw.sf_touches
  · exact th1

theorem Hw.testMarch_touches {h : Hw} : Touches [.fab] h (Hw.testMarch h) := by
  unfold Hw.testMarch
  split
  · extract_lets +onlyGivenNames v4
    refine Touches.ite ?_ ?_
    · exact Touches.refl.step set_fab_touches
    · exact Touches.refl
  · exact Touches.refl

theorem Hw.testDone_touches {h : Hw} {pass : Bool} : Touches [.regs, .mem, .ecc, .free, .pwr, .elogQ, .ports, .strands, .fab, .loop] h (Hw.testDone h pass) := by
  unfold Hw.testDone
  split
  · extract_lets +onlyGivenNames v4
    extract_lets +onlyGivenNames h5
    refine Touches.cut (x := h5) ?_ fun th5 => ?_
    · subst h5
      exact Touches.refl.step Hw.setEngine_touches
    clear_value h5
    extract_lets +onlyGivenNames v6
    extract_lets +onlyGivenNames h7
    refine Touches.cut (x := h7) ?_ fun th7 => ?_
    · subst h7
      exact th5.step set_fab_touches
    clear_value h7
    extract_lets +onlyGivenNames h8
    refine Touches.cut (x := h8) ?_ fun th8 => ?_
    · subst h8
      exact ((th7.step Hw.sf_touches).step Hw.sf_touches).step Hw.sf_touches
    clear_value h8
    refine Touches.ite ?_ ?_
    · exact th8
    · extract_lets +onlyGivenNames v9
      extract_lets +onlyGivenNames h10
      refine Touches.cut (x := h10) ?_ fun th10 => ?_
      · subst h10
        exact th8.step set_pwr_touches
      clear_value h10
      exact th10.step Hw.capacityLost_touches
  · exact Touches.refl

end Sys2Proof.Machine
end

