-- ==== Sys2Proof/Laws/TouchOperands.lean ====
section
/-! SUPPORT. What each operation of Machine/Operands.lean touches of the part: the components outside the list stay as they were. -/

set_option Elab.async false

namespace Sys2Proof.Machine

theorem Hw.setLocal_touches {h : Hw} {c : Nat} {a : Nat} {v : Nat} : Touches [.ecc, .loop] h (Hw.setLocal h c a v) := by
  unfold Hw.setLocal
  extract_lets +onlyGivenNames v1
  exact (Touches.refl.step Hw.setCore_touches).step Hw.setEcc_touches

theorem Hw.setLocals_touches {h : Hw} {c : Nat} {a : Nat} {b1 : List Nat} : Touches [.ecc, .loop] h (Hw.setLocals h c a b1) := by
  induction b1 generalizing h c a with
  | nil =>
    unfold Hw.setLocals
    exact Touches.refl
  | cons y ys ih =>
    unfold Hw.setLocals
    exact (Touches.refl.step Hw.setLocal_touches).step ih

theorem Hw.operandRead_touches {h : Hw} {c : Fin 8} {q : Nat} {sp : Nat} {aux : Nat} {a : Nat} : Touches [.regs, .ecc, .resp, .elogQ] h (Hw.operandRead h c q sp aux a).2 := by
  unfold Hw.operandRead
  refine Touches.ite2 ?_ ?_
  · refine Touches.ite2 ?_ ?_
    · exact Touches.pair (Touches.refl)
    · refine Touches.ite2 ?_ ?_
      · exact Touches.pair (Touches.refl.step Hw.bump_touches)
      · extract_lets +onlyGivenNames h1
        refine Touches.cut (x := h1) ?_ fun th1 => ?_
        · subst h1
          exact Touches.refl.step Hw.correct_touches
        clear_value h1
        exact Touches.pair (th1)
  · extract_lets +onlyGivenNames v2
    split
    · exact Touches.pair (Touches.refl.step Hw.stallResp_touches)
    · exact Touches.pair (Touches.refl.step Hw.errorResp_touches)
    · refine Touches.ite2 ?_ ?_
      · exact Touches.pair (Touches.refl.step Hw.errorResp_touches)
      · extract_lets +onlyGivenNames h11
        refine Touches.cut (x := h11) ?_ fun th11 => ?_
        · subst h11
          exact Touches.refl.step Hw.correct_touches
        clear_value h11
        exact Touches.pair (th11)

theorem Hw.operandWrite_touches {h : Hw} {c : Fin 8} {q : Nat} {sp : Nat} {a : Nat} {n : Nat} {v : Nat} {hi : Bool} {hit : Bool} : Touches [.regs, .mem, .ecc, .resp, .elogQ, .memu, .strands, .loop] h (Hw.operandWrite h c q sp a n v hi hit).2 := by
  unfold Hw.operandWrite
  refine Touches.ite2 ?_ ?_
  · refine Touches.ite2 ?_ ?_
    · exact Touches.pair (Touches.refl)
    · refine Touches.ite2 ?_ ?_
      · exact Touches.pair (Touches.refl.step Hw.bump_touches)
      · extract_lets +onlyGivenNames h1
        refine Touches.cut (x := h1) ?_ fun th1 => ?_
        · subst h1
          exact Touches.refl.step Hw.correct_touches
        clear_value h1
        extract_lets +onlyGivenNames h2
        refine Touches.cut (x := h2) ?_ fun th2 => ?_
        · subst h2
          exact th1.step Hw.setLocal_touches
        clear_value h2
        exact Touches.pair (th2)
  · extract_lets +onlyGivenNames v3
    split
    · exact Touches.pair (Touches.refl.step Hw.stallResp_touches)
    · exact Touches.pair (Touches.refl.step Hw.errorResp_touches)
    · refine Touches.ite2 ?_ ?_
      · extract_lets +onlyGivenNames h12
        refine Touches.cut (x := h12) ?_ fun th12 => ?_
        · subst h12
          exact Touches.refl.step Hw.collide_touches
        clear_value h12
        extract_lets +onlyGivenNames v13
        extract_lets +onlyGivenNames h14
        refine Touches.cut (x := h14) ?_ fun th14 => ?_
        · subst h14
          exact th12.step Hw.setCore_touches
        clear_value h14
        exact Touches.pair (th14)
      · refine Touches.ite2 ?_ ?_
        · exact Touches.pair (Touches.refl.step Hw.errorResp_touches)
        · extract_lets +onlyGivenNames h15
          refine Touches.cut (x := h15) ?_ fun th15 => ?_
          · subst h15
            exact (Touches.refl.step Hw.correct_touches).step Hw.memStore_touches
          clear_value h15
          exact Touches.pair (th15)

end Sys2Proof.Machine
end

