-- ==== Sys2Proof/Laws/TouchKernels.lean ====
section
/-! SUPPORT. What each operation of Machine/Kernels.lean touches of the part: the components outside the list stay as they were. -/

set_option Elab.async false

namespace Sys2Proof.Machine

theorem Hw.snapFinish_touches {h : Hw} {s : Nat} : Touches [.regs, .mem, .ecc, .free, .elogQ, .ports, .strands, .fab, .loop] h (Hw.snapFinish h s) := by
  unfold Hw.snapFinish
  extract_lets +onlyGivenNames v1 v2
  refine Touches.ite ?_ ?_
  · split
    · rename_i a3 a4 h5 e6
      refine Touches.cut (x := h5) (Touches.snd ?_ e6) fun th5 => ?_
      · exact Touches.refl.step Hw.fresh_touches
      extract_lets +onlyGivenNames v7
      extract_lets +onlyGivenNames h8
      refine Touches.cut (x := h8) ?_ fun th8 => ?_
      · subst h8
        exact th5.step Hw.putWords_touches
      clear_value h8
      exact (th8.step Hw.putWords_touches).step Hw.toIdle_touches
  · exact Touches.refl

end Sys2Proof.Machine
end

