-- ==== Sys2Proof/Laws/TouchLoopCore.lean ====
section
/-! SUPPORT. What each operation of Machine/LoopCore.lean touches of the part: the components outside the list stay as they were. -/

set_option Elab.async false

namespace Sys2Proof.Machine

theorem Hw.taskFaulted_touches {h : Hw} {k : LoopTask} : Touches [.regs, .mem, .ecc, .free, .elogQ, .ports, .strands, .fab, .loop] h (Hw.taskFaulted h k) := by
  unfold Hw.taskFaulted
  refine Touches.ite ?_ ?_
  · exact Touches.refl
  · extract_lets +onlyGivenNames v1
    split
    · split
      · exact Touches.refl.step Hw.setStrand_touches
      · exact Touches.refl
    · extract_lets +onlyGivenNames v11
      extract_lets +onlyGivenNames h12
      refine Touches.cut (x := h12) ?_ fun th12 => ?_
      · subst h12
        exact Touches.refl.step Hw.setStrand_touches
      clear_value h12
      exact (th12.step Hw.passEnd_touches).step Hw.snapFinish_touches

theorem Hw.loopFault_touches {h : Hw} {c : Fin 8} {t : Running} {pc : Nat} {f : FaultInfo} : Touches [.regs, .mem, .ecc, .free, .elogQ, .ports, .strands, .fab, .loop] h (Hw.loopFault h c t pc f) := by
  unfold Hw.loopFault
  extract_lets +onlyGivenNames v1
  extract_lets +onlyGivenNames h2
  refine Touches.cut (x := h2) ?_ fun th2 => ?_
  · subst h2
    exact Touches.refl.step Hw.bump_touches
  clear_value h2
  extract_lets +onlyGivenNames h3
  refine Touches.cut (x := h3) ?_ fun th3 => ?_
  · subst h3
    exact (((th2.step Hw.sf_touches).step Hw.sf_touches).step Hw.sf_touches).step Hw.sf_touches
  clear_value h3
  extract_lets +onlyGivenNames h4
  refine Touches.cut (x := h4) ?_ fun th4 => ?_
  · subst h4
    exact (th3.step Hw.sf_touches).step Hw.sf_touches
  clear_value h4
  extract_lets +onlyGivenNames h5
  refine Touches.cut (x := h5) ?_ fun th5 => ?_
  · subst h5
    exact (th4.step Hw.sf_touches).step Hw.sf_touches
  clear_value h5
  extract_lets +onlyGivenNames h6
  refine Touches.cut (x := h6) ?_ fun th6 => ?_
  · subst h6
    exact ((th5.step Hw.sf_touches).step Hw.sf_touches).step Hw.sf_touches
  clear_value h6
  extract_lets +onlyGivenNames h7
  refine Touches.cut (x := h7) ?_ fun th7 => ?_
  · subst h7
    refine Touches.ite ?_ ?_
    · exact th2
    · exact ((th6.step Hw.sf_touches).step Hw.sf_touches).step Hw.sf_touches
  clear_value h7
  extract_lets +onlyGivenNames h8
  refine Touches.cut (x := h8) ?_ fun th8 => ?_
  · subst h8
    exact th7.step Hw.report_touches
  clear_value h8
  extract_lets +onlyGivenNames v9
  extract_lets +onlyGivenNames h10
  refine Touches.cut (x := h10) ?_ fun th10 => ?_
  · subst h10
    exact th8.step Hw.setCore_touches
  clear_value h10
  exact th10.step Hw.taskFaulted_touches

theorem Hw.loopIssue_touches {h0 h : Hw} {l : List Block} {c : Fin 8} {op : Nat} {cost : CoreRegs → Insn → Nat} {go : Hw → Running → Insn → Hw}
    (t : Touches l h0 h) (hgo : ∀ (g : Hw) (r : Running) (i : Insn), Touches l h0 g → Touches l h0 (go g r i))
    (hl : Block.within [.regs, .mem, .ecc, .free, .elogQ, .ports, .strands, .fab, .loop] l = true := by rfl)
    (h1 : Block.within [.regs] l = true := by rfl) (h2 : Block.within [.regs, .ecc] l = true := by rfl) :
    Touches l h0 (h.loopIssue c op cost go) := by
  unfold Hw.loopIssue
  extract_lets k
  split
  · exact t
  · rename_i r e
    extract_lets pc a i g
    refine Touches.ite t (Touches.ite ?_ (Touches.ite t (Touches.ite (t.step Hw.loopFault_touches hl) ?_)))
    · exact ((t.step Hw.bump_touches h1).step Hw.sf_touches h1).step Hw.loopFault_touches hl
    · have tg : Touches l h0 g := t.step Hw.correct_touches h2
      split
      · exact tg.step Hw.loopFault_touches hl
      · exact Touches.ite (tg.step Hw.loopFault_touches hl) (hgo _ _ _ tg)

theorem Hw.loopRetire_touches {h : Hw} {c : Fin 8} {t : Running} {r : CoreRegs} {cost : Nat} : Touches [.loop] h (Hw.loopRetire h c t r cost) := by
  unfold Hw.loopRetire
  split
  · exact Touches.refl.step Hw.setCore_touches

theorem Hw.runPlain_touches {h : Hw} {c : Fin 8} {op : Nat} {f : CoreRegs → Insn → CoreRegs} : Touches [.regs, .mem, .ecc, .free, .elogQ, .ports, .strands, .fab, .loop] h (Hw.runPlain h c op f) := by
  unfold Hw.runPlain
  refine Hw.loopIssue_touches ?_ fun h1 t i th1 => ?_
  · exact Touches.refl
  · refine Touches.ite ?_ ?_
    · exact th1.step Hw.loopFault_touches
    · exact th1.step Hw.loopRetire_touches

theorem Hw.runValue_touches {h : Hw} {c : Fin 8} {op : Nat} {f : CoreRegs → Insn → Nat → CoreRegs} : Touches [.regs, .mem, .ecc, .free, .resp, .elogQ, .ports, .strands, .fab, .loop] h (Hw.runValue h c op f) := by
  unfold Hw.runValue
  refine Hw.loopIssue_touches ?_ fun h1 t i th1 => ?_
  · exact Touches.refl
  · refine Touches.ite ?_ ?_
    · exact th1.step Hw.loopFault_touches
    · refine Touches.ite ?_ ?_
      · exact th1.step Hw.loopRetire_touches
      · extract_lets +onlyGivenNames v2
        split
        · rename_i a3 h4 e5
          refine Touches.cut (x := h4) (Touches.snd ?_ e5) fun th4 => ?_
          · exact th1.step Hw.operandRead_touches
          exact th4
        · rename_i a6 a7 a8 a9 h10 e11
          refine Touches.cut (x := h10) (Touches.snd ?_ e11) fun th10 => ?_
          · exact th1.step Hw.operandRead_touches
          exact th10.step Hw.loopFault_touches
        · rename_i a12 a13 h14 h15 e16
          refine Touches.cut (x := h15) (Touches.snd ?_ e16) fun th15 => ?_
          · exact th1.step Hw.operandRead_touches
          exact th15.step Hw.loopRetire_touches

theorem Hw.runStore_touches {h : Hw} {c : Fin 8} {op : Nat} {n : Nat} {hit : Bool} {f : CoreRegs → Insn → Nat × CoreRegs} : Touches [.regs, .mem, .ecc, .free, .resp, .elogQ, .memu, .ports, .strands, .fab, .loop] h (Hw.runStore h c op n hit f) := by
  unfold Hw.runStore
  refine Hw.loopIssue_touches ?_ fun h1 t i th1 => ?_
  · exact Touches.refl
  · refine Touches.ite ?_ ?_
    · exact th1.step Hw.loopFault_touches
    · extract_lets +onlyGivenNames v2
      split
      · split
        · rename_i a7 h8 e9
          refine Touches.cut (x := h8) (Touches.snd ?_ e9) fun th8 => ?_
          · exact th1.step Hw.operandWrite_touches
          exact th8
        · rename_i a10 a11 a12 a13 h14 e15
          refine Touches.cut (x := h14) (Touches.snd ?_ e15) fun th14 => ?_
          · exact th1.step Hw.operandWrite_touches
          exact th14.step Hw.loopFault_touches
        · rename_i a16 h17 h18 e19
          refine Touches.cut (x := h18) (Touches.snd ?_ e19) fun th18 => ?_
          · exact th1.step Hw.operandWrite_touches
          exact th18.step Hw.loopRetire_touches

theorem Hw.runCmac_touches {h : Hw} {c : Fin 8} : Touches [.regs, .mem, .ecc, .free, .resp, .elogQ, .ports, .strands, .fab, .loop] h (Hw.runCmac h c) := by
  unfold Hw.runCmac
  refine Hw.loopIssue_touches ?_ fun h1 t i th1 => ?_
  · exact Touches.refl
  · extract_lets +onlyGivenNames v2
    refine Touches.ite ?_ ?_
    · exact th1.step Hw.loopFault_touches
    · split
      · rename_i a3 h4 e5
        refine Touches.cut (x := h4) (Touches.snd ?_ e5) fun th4 => ?_
        · exact th1.step Hw.operandRead_touches
        exact th4
      · rename_i a6 a7 a8 a9 h10 e11
        refine Touches.cut (x := h10) (Touches.snd ?_ e11) fun th10 => ?_
        · exact th1.step Hw.operandRead_touches
        exact th10.step Hw.loopFault_touches
      · rename_i a12 a13 h14 h15 e16
        refine Touches.cut (x := h15) (Touches.snd ?_ e16) fun th15 => ?_
        · exact th1.step Hw.operandRead_touches
        split
        · rename_i a17 h18 e19
          refine Touches.cut (x := h18) (Touches.snd ?_ e19) fun th18 => ?_
          · exact th15.step Hw.operandRead_touches
          exact th18
        · rename_i a20 a21 a22 a23 h24 e25
          refine Touches.cut (x := h24) (Touches.snd ?_ e25) fun th24 => ?_
          · exact th15.step Hw.operandRead_touches
          exact th24.step Hw.loopFault_touches
        · rename_i a26 a27 h28 h29 e30
          refine Touches.cut (x := h29) (Touches.snd ?_ e30) fun th29 => ?_
          · exact th15.step Hw.operandRead_touches
          extract_lets +onlyGivenNames v31 v32 v33
          exact th29.step Hw.loopRetire_touches

theorem Hw.runBranch_touches {h : Hw} {c : Fin 8} {op : Nat} : Touches [.regs, .mem, .ecc, .free, .elogQ, .ports, .strands, .fab, .loop] h (Hw.runBranch h c op) := by
  unfold Hw.runBranch
  refine Hw.loopIssue_touches ?_ fun h1 t i th1 => ?_
  · exact Touches.refl
  · extract_lets +onlyGivenNames v2 v3 v4
    refine Touches.ite ?_ ?_
    · exact th1.step Hw.loopFault_touches
    · refine Touches.ite ?_ ?_
      · exact th1.step Hw.loopFault_touches
      · extract_lets +onlyGivenNames v5
        exact th1.step Hw.setCore_touches

theorem Hw.runRepeat_touches {h : Hw} {c : Fin 8} {op : Nat} : Touches [.regs, .mem, .ecc, .free, .elogQ, .ports, .strands, .fab, .loop] h (Hw.runRepeat h c op) := by
  unfold Hw.runRepeat
  refine Hw.loopIssue_touches ?_ fun h1 t i th1 => ?_
  · exact Touches.refl
  · extract_lets +onlyGivenNames v2 v3 v4
    refine Touches.ite ?_ ?_
    · exact th1.step Hw.loopFault_touches
    · extract_lets +onlyGivenNames v5
      exact th1.step Hw.setCore_touches

theorem Hw.storeRetry_touches {h : Hw} {c : Fin 8} {hit : Bool} : Touches [.regs, .mem, .ecc, .resp, .elogQ, .memu, .strands, .loop] h (Hw.storeRetry h c hit) := by
  unfold Hw.storeRetry
  extract_lets +onlyGivenNames v1
  split
  · exact Touches.refl
  · refine Touches.ite ?_ ?_
    · extract_lets +onlyGivenNames h10
      refine Touches.cut (x := h10) ?_ fun th10 => ?_
      · subst h10
        exact Touches.refl.step Hw.collide_touches
      clear_value h10
      exact th10.step Hw.setCore_touches
    · exact (Touches.refl.step Hw.setCore_touches).step Hw.memStore_touches

end Sys2Proof.Machine
end

