-- ==== Sys2Proof/Laws/TouchSerial.lean ====
section
/-! SUPPORT. What each operation of Machine/Serial.lean touches of the part: the components outside the list stay as they were. -/

set_option Elab.async false

namespace Sys2Proof.Machine

theorem Hw.setSerial_touches {h : Hw} {n : Nat} {s : Serial} : Touches [.serials] h (Hw.setSerial h n s) := by
  unfold Hw.setSerial
  exact Touches.refl.step set_serials_touches

theorem Hw.setLink_touches {h : Hw} {l : Nat} {k : Link} : Touches [.fw] h (Hw.setLink h l k) := by
  unfold Hw.setLink
  exact Touches.refl.step set_fw_touches

theorem Hw.serialPump_touches {h : Hw} {n : Nat} : Touches [.fw, .serials] h (Hw.serialPump h n) := by
  unfold Hw.serialPump
  extract_lets +onlyGivenNames v1 v2 v3
  refine Touches.ite ?_ ?_
  · exact Touches.refl
  · exact (Touches.refl.step Hw.setLink_touches).step Hw.setSerial_touches

theorem Hw.txStart_touches {h : Hw} {n : Nat} : Touches [.fw, .serials] h (Hw.txStart h n) := by
  unfold Hw.txStart
  extract_lets +onlyGivenNames h1
  refine Touches.cut (x := h1) ?_ fun th1 => ?_
  · subst h1
    exact Touches.refl.step Hw.serialPump_touches
  clear_value h1
  extract_lets +onlyGivenNames v2
  split
  · refine Touches.ite ?_ ?_
    · exact th1.step Hw.setSerial_touches
    · exact th1
  · exact th1

theorem Hw.uartWrite_touches {h : Hw} {n : Nat} {v : Nat} : Touches [.regs, .fw, .serials] h (Hw.uartWrite h n v) := by
  unfold Hw.uartWrite
  extract_lets +onlyGivenNames v1
  refine Touches.ite ?_ ?_
  · exact Touches.refl.step Hw.sf_touches
  · exact (Touches.refl.step Hw.setSerial_touches).step Hw.txStart_touches

theorem Hw.rxStore_touches {h : Hw} {n : Nat} {e : Nat} : Touches [.regs, .serials] h (Hw.rxStore h n e) := by
  unfold Hw.rxStore
  extract_lets +onlyGivenNames v1
  refine Touches.ite ?_ ?_
  · exact (Touches.refl.step Hw.setSerial_touches).step Hw.bump_touches
  · exact Touches.refl.step Hw.setSerial_touches

theorem Hw.rxTally_touches {h : Hw} {n : Nat} {e : Nat} : Touches [.regs] h (Hw.rxTally h n e) := by
  unfold Hw.rxTally
  extract_lets +onlyGivenNames h1
  refine Touches.cut (x := h1) ?_ fun th1 => ?_
  · subst h1
    refine Touches.ite ?_ ?_
    · exact Touches.refl.step Hw.bump_touches
    · exact Touches.refl
  clear_value h1
  refine Touches.ite ?_ ?_
  · exact th1.step Hw.bump_touches
  · exact th1

theorem Hw.rxTake_touches {h : Hw} {n : Nat} : Touches [.regs, .serials] h (Hw.rxTake h n) := by
  unfold Hw.rxTake
  extract_lets +onlyGivenNames v1
  exact (Touches.refl.step Hw.setSerial_touches).step Hw.sf_touches

theorem Hw.txTake_touches {h : Hw} {n : Nat} : Touches [.regs, .serials] h (Hw.txTake h n) := by
  unfold Hw.txTake
  extract_lets +onlyGivenNames v1
  exact (Touches.refl.step Hw.setSerial_touches).step Hw.sf_touches

theorem Hw.lineUsed_touches {h : Hw} {n : Nat} : Touches [.serials] h (Hw.lineUsed h n) := by
  unfold Hw.lineUsed
  extract_lets +onlyGivenNames v1
  exact Touches.refl.step Hw.setSerial_touches

theorem Hw.rxTicks_touches {h : Hw} {n : Nat} {xs : List Bool} : Touches [.regs, .serials] h (Hw.rxTicks h n xs) := by
  unfold Hw.rxTicks
  extract_lets +onlyGivenNames v1
  extract_lets +onlyGivenNames h2
  refine Touches.cut (x := h2) ?_ fun th2 => ?_
  · subst h2
    refine Touches.ite ?_ ?_
    · exact Touches.refl.step Hw.rxTake_touches
    · exact Touches.refl
  clear_value h2
  split
  · exact (th2.step Hw.setSerial_touches).step Hw.sf_touches

theorem Hw.rxChar_touches {h : Hw} {n : Nat} : Touches [.regs, .fw, .serials] h (Hw.rxChar h n) := by
  unfold Hw.rxChar
  extract_lets +onlyGivenNames v1 v2 v3 v4
  extract_lets +onlyGivenNames h5
  refine Touches.cut (x := h5) ?_ fun th5 => ?_
  · subst h5
    exact Touches.refl.step Hw.setSerial_touches
  clear_value h5
  extract_lets +onlyGivenNames h6
  refine Touches.cut (x := h6) ?_ fun th6 => ?_
  · subst h6
    exact (th5.step Hw.rxTally_touches).step Hw.rxStore_touches
  clear_value h6
  extract_lets +onlyGivenNames h7
  refine Touches.cut (x := h7) ?_ fun th7 => ?_
  · subst h7
    exact (th6.step Hw.rxTake_touches).step Hw.sf_touches
  clear_value h7
  exact ((th7.step Hw.rxTicks_touches).step Hw.lineUsed_touches).step Hw.txStart_touches

theorem Hw.uartReceived_touches {h : Hw} {n : Nat} {xs : List Bool} : Touches [.regs, .fw, .serials] h (Hw.uartReceived h n xs) := by
  unfold Hw.uartReceived
  refine Touches.ite ?_ ?_
  · exact Touches.refl
  · extract_lets +onlyGivenNames h1
    refine Touches.cut (x := h1) ?_ fun th1 => ?_
    · subst h1
      exact Touches.refl.step Hw.rxTicks_touches
    clear_value h1
    refine Touches.ite ?_ ?_
    · exact th1.step Hw.rxChar_touches
    · exact th1.step Hw.txStart_touches

theorem Hw.uartSent_touches {h : Hw} {n : Nat} {d : Nat} {par : Bool} {stop : Bool} {noise : Bool} {cts : Bool} : Touches [.regs, .fw, .serials] h (Hw.uartSent h n d par stop noise cts) := by
  unfold Hw.uartSent
  extract_lets +onlyGivenNames v1
  split
  · exact Touches.refl
  · extract_lets +onlyGivenNames v7 v8 v9 v10 v11
    extract_lets +onlyGivenNames h12
    refine Touches.cut (x := h12) ?_ fun th12 => ?_
    · subst h12
      exact Touches.refl.step Hw.setSerial_touches
    clear_value h12
    extract_lets +onlyGivenNames h13
    refine Touches.cut (x := h13) ?_ fun th13 => ?_
    · subst h13
      exact th12.step Hw.txTake_touches
    clear_value h13
    extract_lets +onlyGivenNames h14
    refine Touches.cut (x := h14) ?_ fun th14 => ?_
    · subst h14
      exact th13.step Hw.lineUsed_touches
    clear_value h14
    extract_lets +onlyGivenNames v15
    extract_lets +onlyGivenNames h16
    refine Touches.cut (x := h16) ?_ fun th16 => ?_
    · subst h16
      exact (th14.step Hw.sf_touches).step Hw.bump_touches
    clear_value h16
    extract_lets +onlyGivenNames v17
    extract_lets +onlyGivenNames h18
    refine Touches.cut (x := h18) ?_ fun th18 => ?_
    · subst h18
      exact th16.step Hw.setSerial_touches
    clear_value h18
    extract_lets +onlyGivenNames h19
    refine Touches.cut (x := h19) ?_ fun th19 => ?_
    · subst h19
      refine Touches.ite ?_ ?_
      · exact th13
      · refine Touches.ite ?_ ?_
        · exact ((th18.step Hw.rxTally_touches).step Hw.rxStore_touches).step Hw.rxTake_touches
        · refine Touches.ite ?_ ?_
          · exact ((th14.step Hw.rxTally_touches).step Hw.rxStore_touches).step Hw.rxTake_touches
          · exact th14
    clear_value h19
    exact th19.step Hw.txStart_touches

theorem Hw.uartRead_touches {h : Hw} {n : Nat} : Touches [.resp, .serials] h (Hw.uartRead h n) := by
  unfold Hw.uartRead
  extract_lets +onlyGivenNames v1
  split
  · exact Touches.refl.step set_resp_touches
  · extract_lets +onlyGivenNames h8
    refine Touches.cut (x := h8) ?_ fun th8 => ?_
    · subst h8
      exact Touches.refl.step Hw.setSerial_touches
    clear_value h8
    exact th8.step set_resp_touches

theorem Hw.uartIdle_touches {h : Hw} {n : Nat} : Touches [.regs] h (Hw.uartIdle h n) := by
  unfold Hw.uartIdle
  refine Touches.ite ?_ ?_
  · exact Touches.refl
  · exact Touches.refl.step Hw.sf_touches

theorem Hw.uartShadow_touches {h : Hw} {n : Nat} {a : Nat} {v : Nat} : Touches [.regs, .serials] h (Hw.uartShadow h n a v) := by
  unfold Hw.uartShadow
  extract_lets +onlyGivenNames v1
  refine Touches.ite ?_ ?_
  · exact Touches.refl.step Hw.sf_touches
  · extract_lets +onlyGivenNames h2
    refine Touches.cut (x := h2) ?_ fun th2 => ?_
    · subst h2
      exact Touches.refl.step Hw.writeFields_touches
    clear_value h2
    extract_lets +onlyGivenNames h3
    refine Touches.cut (x := h3) ?_ fun th3 => ?_
    · subst h3
      refine Touches.ite ?_ ?_
      · exact th2.step Hw.sf_touches
      · exact th2.step Hw.txTake_touches
    clear_value h3
    refine Touches.ite ?_ ?_
    · exact th3.step Hw.sf_touches
    · exact th3.step Hw.rxTake_touches

theorem Hw.uartFifo_touches {h : Hw} {n : Nat} {v : Nat} : Touches [.regs, .serials] h (Hw.uartFifo h n v) := by
  unfold Hw.uartFifo
  extract_lets +onlyGivenNames h1
  refine Touches.cut (x := h1) ?_ fun th1 => ?_
  · subst h1
    exact Touches.refl.step Hw.writeFields_touches
  clear_value h1
  extract_lets +onlyGivenNames v2
  extract_lets +onlyGivenNames h3
  refine Touches.cut (x := h3) ?_ fun th3 => ?_
  · subst h3
    refine Touches.ite ?_ ?_
    · exact th1.step Hw.setSerial_touches
    · exact th1
  clear_value h3
  refine Touches.ite ?_ ?_
  · exact th3.step Hw.setSerial_touches
  · exact th3

theorem Hw.slowExit_touches {h : Hw} {n : Nat} : Touches [.regs, .serials] h (Hw.slowExit h n) := by
  unfold Hw.slowExit
  extract_lets +onlyGivenNames v1
  refine Touches.ite ?_ ?_
  · exact Touches.refl
  · refine Touches.ite ?_ ?_
    · exact (Touches.refl.step Hw.setSerial_touches).step Hw.sf_touches
    · exact (Touches.refl.step Hw.setSerial_touches).step Hw.rxTake_touches

theorem Hw.uartSlow_touches {h : Hw} {n : Nat} {v : Nat} : Touches [.regs, .serials] h (Hw.uartSlow h n v) := by
  unfold Hw.uartSlow
  extract_lets +onlyGivenNames h1
  refine Touches.cut (x := h1) ?_ fun th1 => ?_
  · subst h1
    exact Touches.refl.step Hw.writeFields_touches
  clear_value h1
  refine Touches.ite ?_ ?_
  · exact th1.step Hw.slowExit_touches
  · exact th1

theorem Hw.uartSrate_touches {h : Hw} {n : Nat} {v : Nat} : Touches [.regs] h (Hw.uartSrate h n v) := by
  unfold Hw.uartSrate
  refine Touches.ite ?_ ?_
  · exact Touches.refl.step Hw.writeFields_touches
  · exact Touches.refl.step Hw.sf_touches

theorem Hw.uartCfg_touches {h : Hw} {n : Nat} {v : Nat} : Touches [.regs, .fw, .serials] h (Hw.uartCfg h n v) := by
  unfold Hw.uartCfg
  extract_lets +onlyGivenNames v1
  extract_lets +onlyGivenNames h2
  refine Touches.cut (x := h2) ?_ fun th2 => ?_
  · subst h2
    exact Touches.refl.step Hw.writeFields_touches
  clear_value h2
  extract_lets +onlyGivenNames v3
  extract_lets +onlyGivenNames h4
  refine Touches.cut (x := h4) ?_ fun th4 => ?_
  · subst h4
    refine Touches.ite ?_ ?_
    · exact th2
    · exact (th2.step Hw.setSerial_touches).step Hw.sf_touches
  clear_value h4
  exact th4.step Hw.txStart_touches

theorem Hw.uartStat_touches {h : Hw} {n : Nat} {v : Nat} : Touches [.regs, .fw, .serials] h (Hw.uartStat h n v) := by
  unfold Hw.uartStat
  exact (Touches.refl.step Hw.writeFields_touches).step Hw.txStart_touches

theorem Hw.ctsLow_touches {h : Hw} {n : Nat} : Touches [.fw, .serials] h (Hw.ctsLow h n) := by
  unfold Hw.ctsLow
  exact (Touches.refl.step Hw.setSerial_touches).step Hw.txStart_touches

theorem Hw.guardElapsed_touches {h : Hw} {n : Nat} : Touches [.fw, .serials] h (Hw.guardElapsed h n) := by
  unfold Hw.guardElapsed
  refine Touches.ite ?_ ?_
  · exact (Touches.refl.step Hw.setSerial_touches).step Hw.txStart_touches
  · exact Touches.refl

theorem Hw.slowEnter_touches {h : Hw} {n : Nat} : Touches [.regs, .serials] h (Hw.slowEnter h n) := by
  unfold Hw.slowEnter
  refine Touches.ite ?_ ?_
  · extract_lets +onlyGivenNames h1
    refine Touches.cut (x := h1) ?_ fun th1 => ?_
    · subst h1
      refine Touches.ite ?_ ?_
      · exact (Touches.refl.step Hw.bump_touches).step Hw.sf_touches
      · exact Touches.refl
    clear_value h1
    extract_lets +onlyGivenNames h2
    refine Touches.cut (x := h2) ?_ fun th2 => ?_
    · subst h2
      refine Touches.ite ?_ ?_
      · exact th1.step Hw.rxTake_touches
      · exact th1
    clear_value h2
    exact th2.step Hw.setSerial_touches
  · exact Touches.refl

theorem Hw.flagSource_touches {h : Hw} {src : Nat} : Touches [.regs] h (Hw.flagSource h src) := by
  unfold Hw.flagSource
  refine Touches.ite ?_ ?_
  · exact Touches.refl
  · exact Touches.refl.step Hw.sf_touches

theorem Hw.slowDecided_touches {h : Hw} {n : Nat} : Touches [.regs, .serials] h (Hw.slowDecided h n) := by
  unfold Hw.slowDecided
  extract_lets +onlyGivenNames v1
  extract_lets +onlyGivenNames h2
  refine Touches.cut (x := h2) ?_ fun th2 => ?_
  · subst h2
    exact Touches.refl.step Hw.setSerial_touches
  clear_value h2
  refine Touches.step ?_ Hw.sf_touches
  refine Touches.ite ?_ ?_
  · exact th2.step Hw.rxTake_touches
  · exact th2

theorem Hw.slowTake_touches {h : Hw} {n : Nat} {e : Nat} : Touches [.regs, .serials] h (Hw.slowTake h n e) := by
  unfold Hw.slowTake
  extract_lets +onlyGivenNames v1
  refine Touches.ite ?_ ?_
  · exact ((Touches.refl.step Hw.rxTally_touches).step Hw.rxStore_touches).step Hw.slowDecided_touches
  · refine Touches.ite ?_ ?_
    · refine Touches.ite ?_ ?_
      · exact (Touches.refl.step Hw.setSerial_touches).step Hw.flagSource_touches
      · exact Touches.refl
    · refine Touches.ite ?_ ?_
      · exact Touches.refl.step Hw.setSerial_touches
      · exact Touches.refl.step Hw.setSerial_touches

theorem Hw.slowHold_touches {h : Hw} {n : Nat} {await : Bool} {xs : List Bool} : Touches [.regs, .serials] h (Hw.slowHold h n await xs) := by
  unfold Hw.slowHold
  split
  · exact (Touches.refl.step Hw.setSerial_touches).step Hw.sf_touches

theorem Hw.slowChar_touches {h : Hw} {n : Nat} {xs : List Bool} : Touches [.regs, .serials] h (Hw.slowChar h n xs) := by
  unfold Hw.slowChar
  extract_lets +onlyGivenNames v1 v2 v3
  refine Touches.ite ?_ ?_
  · exact Touches.refl
  · refine Touches.ite ?_ ?_
    · exact (Touches.refl.step Hw.setSerial_touches).step Hw.slowDecided_touches
    · extract_lets +onlyGivenNames h4
      refine Touches.cut (x := h4) ?_ fun th4 => ?_
      · subst h4
        exact Touches.refl.step Hw.slowHold_touches
      clear_value h4
      extract_lets +onlyGivenNames v5
      refine Touches.ite ?_ ?_
      · exact th4
      · extract_lets +onlyGivenNames v6
        exact (th4.step Hw.slowHold_touches).step Hw.slowTake_touches

theorem Hw.wakeBuffer_touches {h : Hw} {n : Nat} : Touches [.regs, .serials] h (Hw.wakeBuffer h n) := by
  unfold Hw.wakeBuffer
  extract_lets +onlyGivenNames v1
  refine Touches.ite ?_ ?_
  · exact Touches.refl
  · extract_lets +onlyGivenNames h2
    refine Touches.cut (x := h2) ?_ fun th2 => ?_
    · subst h2
      exact (Touches.refl.step Hw.setSerial_touches).step Hw.sf_touches
    clear_value h2
    extract_lets +onlyGivenNames h3
    refine Touches.cut (x := h3) ?_ fun th3 => ?_
    · subst h3
      refine Touches.forEach ?_ fun x4 h5 th5 => ?_
      · exact th2
      · exact th5.step Hw.rxTally_touches
    clear_value h3
    exact th3.step Hw.bumpBy_touches

end Sys2Proof.Machine
end

