-- ==== Sys2Proof/Laws/TouchCan.lean ====
section
/-! SUPPORT. What each operation of Machine/Can.lean touches of the part: the components outside the list stay as they were. -/

set_option Elab.async false

namespace Sys2Proof.Machine

theorem Hw.setCan_touches {h : Hw} {n : Nat} {c : Can} : Touches [.cans] h (Hw.setCan h n c) := by
  unfold Hw.setCan
  exact Touches.refl.step set_cans_touches

theorem Hw.canSend_touches {h : Hw} {n : Nat} {fn : Nat} {data : List Nat} {tag : Option Nat} {sub : Option (Nat × Nat × Nat)} : Touches [.regs, .cans] h (Hw.canSend h n fn data tag sub) := by
  unfold Hw.canSend
  extract_lets +onlyGivenNames v1
  refine Touches.ite ?_ ?_
  · exact Touches.refl
  · refine Touches.ite ?_ ?_
    · exact Touches.refl.step Hw.bump_touches
    · exact Touches.refl.step Hw.setCan_touches

theorem Hw.canErrors_touches {h : Hw} {n : Nat} {tec : Nat} : Touches [.regs] h (Hw.canErrors h n tec) := by
  unfold Hw.canErrors
  refine Touches.ite ?_ ?_
  · exact ((Touches.refl.step Hw.sf_touches).step Hw.sf_touches).step Hw.sf_touches
  · extract_lets +onlyGivenNames h1
    refine Touches.cut (x := h1) ?_ fun th1 => ?_
    · subst h1
      exact Touches.refl.step Hw.sf_touches
    clear_value h1
    exact th1.step Hw.sf_touches

theorem Hw.canTake_touches {h : Hw} {n : Nat} {id : Nat} {ext : Bool} {fd : Bool} {data : List Nat} : Touches [.regs, .cans] h (Hw.canTake h n id ext fd data) := by
  unfold Hw.canTake
  extract_lets +onlyGivenNames v1 v2 v3
  refine Touches.ite ?_ ?_
  · exact Touches.refl
  · extract_lets +onlyGivenNames v4
    extract_lets +onlyGivenNames h5
    refine Touches.cut (x := h5) ?_ fun th5 => ?_
    · subst h5
      exact Touches.refl.step Hw.sf_touches
    clear_value h5
    extract_lets +onlyGivenNames h6
    refine Touches.cut (x := h6) ?_ fun th6 => ?_
    · subst h6
      exact th5.step Hw.canErrors_touches
    clear_value h6
    refine Touches.ite ?_ ?_
    · exact th6.step Hw.sf_touches
    · exact th6.step Hw.setCan_touches

theorem Hw.canSent_touches {h : Hw} {n : Nat} {ok : Bool} : Touches [.regs, .cans] h (Hw.canSent h n ok) := by
  unfold Hw.canSent
  extract_lets +onlyGivenNames v1
  split
  · exact Touches.refl
  · refine Touches.ite ?_ ?_
    · exact Touches.refl
    · refine Touches.ite ?_ ?_
      · extract_lets +onlyGivenNames h7
        refine Touches.cut (x := h7) ?_ fun th7 => ?_
        · subst h7
          exact (Touches.refl.step Hw.setCan_touches).step Hw.canErrors_touches
        clear_value h7
        refine Touches.ite ?_ ?_
        · exact th7.step Hw.canTake_touches
        · exact th7
      · exact Touches.refl.step Hw.canErrors_touches

theorem Hw.canReceived_touches {h : Hw} {n : Nat} {id : Nat} {ext : Bool} {fd : Bool} {data : List Nat} : Touches [.regs, .cans] h (Hw.canReceived h n id ext fd data) := by
  unfold Hw.canReceived
  refine Touches.ite ?_ ?_
  · exact Touches.refl
  · exact Touches.refl.step Hw.canTake_touches

theorem Hw.canRecover_touches {h : Hw} {n : Nat} : Touches [.regs] h (Hw.canRecover h n) := by
  unfold Hw.canRecover
  refine Touches.ite ?_ ?_
  · exact ((Touches.refl.step Hw.sf_touches).step Hw.sf_touches).step Hw.sf_touches
  · exact Touches.refl

theorem Hw.canCfg_touches {h : Hw} {n : Nat} {v : Nat} : Touches [.regs] h (Hw.canCfg h n v) := by
  unfold Hw.canCfg
  extract_lets +onlyGivenNames v1
  extract_lets +onlyGivenNames h2
  refine Touches.cut (x := h2) ?_ fun th2 => ?_
  · subst h2
    exact Touches.refl.step Hw.writeFields_touches
  clear_value h2
  extract_lets +onlyGivenNames v3
  refine Touches.ite ?_ ?_
  · exact th2.step Hw.sf_touches
  · refine Touches.ite ?_ ?_
    · exact th2
    · exact ((th2.step Hw.sf_touches).step Hw.sf_touches).step Hw.sf_touches

theorem Hw.hspiPump_touches {h : Hw} : Touches [.fw] h (Hw.hspiPump h) := by
  unfold Hw.hspiPump
  extract_lets +onlyGivenNames v1 v2
  refine Touches.ite ?_ ?_
  · exact Touches.refl
  · extract_lets +onlyGivenNames h3
    refine Touches.cut (x := h3) ?_ fun th3 => ?_
    · subst h3
      exact Touches.refl.step Hw.setLink_touches
    clear_value h3
    exact th3.step set_fw_touches

theorem Hw.setObj_touches {h : Hw} {idx : Nat} {sub : Nat} {v : Nat} : Touches [.fw] h (Hw.setObj h idx sub v) := by
  unfold Hw.setObj
  exact Touches.refl.step set_fw_touches

theorem Hw.wowellSend_touches {h : Hw} {l : Nat} {type : Nat} {payload : List Nat} : Touches [.fw, .serials] h (Hw.wowellSend h l type payload) := by
  unfold Hw.wowellSend
  extract_lets +onlyGivenNames v1
  extract_lets +onlyGivenNames h2
  refine Touches.cut (x := h2) ?_ fun th2 => ?_
  · subst h2
    exact Touches.refl.step Hw.setLink_touches
  clear_value h2
  refine Touches.ite ?_ ?_
  · exact th2.step Hw.hspiPump_touches
  · exact th2.step Hw.txStart_touches

theorem Hw.linkSend_touches {h : Hw} {l : Nat} {fn : Nat} {payload : List Nat} : Touches [.regs, .fw, .serials, .cans] h (Hw.linkSend h l fn payload) := by
  unfold Hw.linkSend
  refine Touches.ite ?_ ?_
  · exact Touches.refl.step Hw.canSend_touches
  · exact Touches.refl.step Hw.wowellSend_touches

theorem Hw.timeFrame_touches {h : Hw} {gtime : Nat} {leap : Option Nat} : Touches [.regs, .cans] h (Hw.timeFrame h gtime leap) := by
  unfold Hw.timeFrame
  split
  · extract_lets +onlyGivenNames v7 v8
    refine Touches.forEach ?_ fun x9 h10 th10 => ?_
    · exact Touches.refl
    · refine Touches.ite ?_ ?_
      · exact th10.step Hw.canSend_touches
      · exact th10

theorem Hw.measDrop_touches {h : Hw} {c : Nat} : Touches [.regs, .cans] h (Hw.measDrop h c) := by
  unfold Hw.measDrop
  extract_lets +onlyGivenNames v1 v2
  exact (Touches.refl.step Hw.setCan_touches).step Hw.bumpBy_touches

theorem Hw.measFrames_touches {h : Hw} {seq : Nat} : Touches [.regs, .cans] h (Hw.measFrames h seq) := by
  unfold Hw.measFrames
  generalize upTo 512 = ns512
  extract_lets +onlyGivenNames v1 v2
  extract_lets +onlyGivenNames h3
  refine Touches.cut (x := h3) ?_ fun th3 => ?_
  · subst h3
    exact (Touches.refl.step Hw.measDrop_touches).step Hw.measDrop_touches
  clear_value h3
  refine Touches.ite ?_ ?_
  · exact th3
  · refine Touches.forEach ?_ fun x4 h5 th5 => ?_
    · exact th3
    · extract_lets +onlyGivenNames v6 v7 v8
      refine Touches.ite ?_ ?_
      · exact th5.step Hw.canSend_touches
      · exact th5

end Sys2Proof.Machine
end

