-- ==== Sys2Proof/Laws/TouchLoopTasks.lean ====
section
/-! SUPPORT. What each operation of Machine/LoopTasks.lean touches of the part: the components outside the list stay as they were. -/

set_option Elab.async false

namespace Sys2Proof.Machine

theorem Hw.blockWords_touches {h : Hw} {s : Nat} {a : Nat} {b1 : Nat} : Touches [.regs, .ecc, .free, .elogQ] h (Hw.blockWords h s a b1).2 := by
  induction b1 generalizing h s a with
  | zero =>
    unfold Hw.blockWords
    exact Touches.pair (Touches.refl)
  | succ k ih =>
    unfold Hw.blockWords
    refine Touches.ite2 ?_ ?_
    · extract_lets +onlyGivenNames v1
      split
      · rename_i a2 a3 h4 e5
        refine Touches.cut (x := h4) (Touches.snd ?_ e5) fun th4 => ?_
        · exact (Touches.refl.step Hw.correct_touches).step ih
        exact Touches.pair (th4)
    · split
      · rename_i a6 a7 h8 e9
        refine Touches.cut (x := h8) (Touches.snd ?_ e9) fun th8 => ?_
        · exact (Touches.refl.step Hw.fabFails_touches).step Hw.freshWords_touches
        split
        · rename_i a10 a11 h12 e13
          refine Touches.cut (x := h12) (Touches.snd ?_ e13) fun th12 => ?_
          · exact th8.step ih
          exact Touches.pair (th12)

theorem Hw.startTask_touches {h : Hw} {c : Nat} {q : Nat} {k : LoopTask} : Touches [.regs, .ecc, .free, .elogQ, .strands, .loop] h (Hw.startTask h c q k) := by
  unfold Hw.startTask
  extract_lets +onlyGivenNames v1 v2
  split
  · rename_i a3 a4 h5 e6
    refine Touches.cut (x := h5) (Touches.snd ?_ e6) fun th5 => ?_
    · refine Touches.ite2 ?_ ?_
      · exact Touches.pair (Touches.refl)
      · exact Touches.refl.step Hw.blockWords_touches
    extract_lets +onlyGivenNames v7
    extract_lets +onlyGivenNames h8
    refine Touches.cut (x := h8) ?_ fun th8 => ?_
    · subst h8
      exact th5.step Hw.setLocals_touches
    clear_value h8
    extract_lets +onlyGivenNames h9
    refine Touches.cut (x := h9) ?_ fun th9 => ?_
    · subst h9
      refine Touches.ite ?_ ?_
      · exact th8.step Hw.setStrand_touches
      · exact th8
    clear_value h9
    extract_lets +onlyGivenNames v10 v11
    exact th9.step Hw.setCore_touches

theorem Hw.taskDispatch_touches {h : Hw} {c : Nat} : Touches [.regs, .ecc, .free, .elogQ, .strands, .loop] h (Hw.taskDispatch h c) := by
  unfold Hw.taskDispatch
  extract_lets +onlyGivenNames v1
  refine Touches.ite ?_ ?_
  · exact Touches.refl
  · extract_lets +onlyGivenNames v2
    split
    · exact Touches.refl
    · split
      · exact Touches.refl.step Hw.setCore_touches
      · exact Touches.refl
    · split
      · exact Touches.refl
      · extract_lets +onlyGivenNames v21
        extract_lets +onlyGivenNames h22
        refine Touches.cut (x := h22) ?_ fun th22 => ?_
        · subst h22
          exact Touches.refl.step set_loop_touches
        clear_value h22
        exact th22.step Hw.startTask_touches

theorem Hw.preemptSave_touches {h : Hw} {c : Nat} : Touches [.regs, .loop] h (Hw.preemptSave h c) := by
  unfold Hw.preemptSave
  extract_lets +onlyGivenNames v1
  split
  · exact Touches.refl
  · refine Touches.ite ?_ ?_
    · exact (Touches.refl.step Hw.setCore_touches).step Hw.bump_touches
    · exact Touches.refl

theorem Hw.writeBlock_touches {h : Hw} {s : Nat} {ws : List Nat} : Touches [.mem, .ecc] h (Hw.writeBlock h s ws) := by
  unfold Hw.writeBlock
  exact Touches.refl.step Hw.putWords_touches

theorem Hw.vendorBlock_touches {h : Hw} {s : Nat} {obs : List Nat} : Touches [.mem, .ecc, .free] h (Hw.vendorBlock h s obs) := by
  unfold Hw.vendorBlock
  split
  · rename_i a1 a2 h3 e4
    refine Touches.cut (x := h3) (Touches.snd ?_ e4) fun th3 => ?_
    · exact Touches.refl.step Hw.freshWords_touches
    exact th3.step Hw.writeBlock_touches

theorem Hw.trackEnd_touches {h : Hw} {k : LoopTask} {r : RetWords} {decided : Bool} : Touches [.regs, .mem, .ecc, .free, .elogQ, .strands] h (Hw.trackEnd h k r decided) := by
  unfold Hw.trackEnd
  extract_lets +onlyGivenNames v1 v2
  extract_lets +onlyGivenNames h3
  refine Touches.cut (x := h3) ?_ fun th3 => ?_
  · subst h3
    refine Touches.ite ?_ ?_
    · exact Touches.refl.step Hw.bump_touches
    · exact Touches.refl
  clear_value h3
  refine Touches.ite ?_ ?_
  · exact th3
  · extract_lets +onlyGivenNames v4
    extract_lets +onlyGivenNames h5
    refine Touches.cut (x := h5) ?_ fun th5 => ?_
    · subst h5
      split
      · exact th3.step Hw.setStrand_touches
      · exact th3
    clear_value h5
    exact th5.step Hw.bitSync_touches

theorem Hw.searchBlock_touches {h : Hw} {k : LoopTask} : Touches [.mem, .ecc, .free] h (Hw.searchBlock h k) := by
  unfold Hw.searchBlock
  split
  · rename_i a1 a2 h3 e4
    refine Touches.cut (x := h3) (Touches.snd ?_ e4) fun th3 => ?_
    · exact Touches.refl.step Hw.freshWords_touches
    exact th3.step Hw.writeBlock_touches

theorem Hw.searchEnd_touches {h : Hw} {k : LoopTask} : Touches [.regs, .mem, .ecc, .free, .elogQ, .ports, .strands, .fab, .loop] h (Hw.searchEnd h k) := by
  unfold Hw.searchEnd
  extract_lets +onlyGivenNames h1
  refine Touches.cut (x := h1) ?_ fun th1 => ?_
  · subst h1
    exact Touches.refl.step Hw.searchBlock_touches
  clear_value h1
  refine Touches.ite ?_ ?_
  · exact th1
  · extract_lets +onlyGivenNames v2
    split
    · exact (th1.step Hw.setStrand_touches).step Hw.passEnd_touches

theorem Hw.snapEnd_touches {h : Hw} {k : LoopTask} : Touches [.regs, .mem, .ecc, .free, .elogQ, .ports, .strands, .fab, .loop] h (Hw.snapEnd h k) := by
  unfold Hw.snapEnd
  extract_lets +onlyGivenNames h1
  refine Touches.cut (x := h1) ?_ fun th1 => ?_
  · subst h1
    exact Touches.refl.step Hw.searchBlock_touches
  clear_value h1
  refine Touches.ite ?_ ?_
  · exact th1
  · extract_lets +onlyGivenNames v2 v3
    extract_lets +onlyGivenNames h4
    refine Touches.cut (x := h4) ?_ fun th4 => ?_
    · subst h4
      exact th1.step Hw.setStrand_touches
    clear_value h4
    exact th4.step Hw.snapFinish_touches

theorem Hw.taskEnd_touches {h : Hw} {c : Fin 8} {t : Running} : Touches [.regs, .mem, .ecc, .free, .elogQ, .ports, .strands, .fab, .loop] h (Hw.taskEnd h c t) := by
  unfold Hw.taskEnd
  generalize upTo 32 = ns32
  extract_lets +onlyGivenNames v1 v2 v3 v4
  extract_lets +onlyGivenNames h5
  refine Touches.cut (x := h5) ?_ fun th5 => ?_
  · subst h5
    exact Touches.refl.step Hw.setCore_touches
  clear_value h5
  extract_lets +onlyGivenNames h6
  refine Touches.cut (x := h6) ?_ fun th6 => ?_
  · subst h6
    exact th5.step Hw.bump_touches
  clear_value h6
  refine Touches.ite ?_ ?_
  · exact th6.step Hw.searchEnd_touches
  · refine Touches.ite ?_ ?_
    · exact th6.step Hw.snapEnd_touches
    · refine Touches.ite ?_ ?_
      · extract_lets +onlyGivenNames v7 v8
        extract_lets +onlyGivenNames h9
        refine Touches.cut (x := h9) ?_ fun th9 => ?_
        · subst h9
          refine Touches.ite ?_ ?_
          · exact th6
          · exact th6.step Hw.setStrand_touches
        clear_value h9
        exact (th9.step Hw.vendorBlock_touches).step Hw.trackEnd_touches
      · exact (th6.step Hw.writeBlock_touches).step Hw.trackEnd_touches

theorem Hw.runRet_touches {h : Hw} {c : Fin 8} : Touches [.regs, .mem, .ecc, .free, .elogQ, .ports, .strands, .fab, .loop] h (Hw.runRet h c) := by
  unfold Hw.runRet
  refine Hw.loopIssue_touches ?_ fun h1 t i th1 => ?_
  · exact Touches.refl
  · extract_lets +onlyGivenNames v2
    refine Touches.ite ?_ ?_
    · split
      · exact th1.step Hw.taskEnd_touches
      · refine Touches.ite ?_ ?_
        · exact th1.step Hw.loopFault_touches
        · exact th1.step Hw.setCore_touches
    · refine Touches.ite ?_ ?_
      · exact th1.step Hw.loopFault_touches
      · exact th1.step Hw.setCore_touches

end Sys2Proof.Machine
end

