-- ==== Sys2Proof/Laws/TouchHitch.lean ====
section
/-! SUPPORT. What each operation of Machine/Hitch.lean touches of the part: the components outside the list stay as they were. -/

set_option Elab.async false

namespace Sys2Proof.Machine

theorem Hw.jitter_touches {h : Hw} : Touches [.free] h (Hw.jitter h).2 := by
  unfold Hw.jitter
  split
  · rename_i a1 a2 h3 e4
    refine Touches.cut (x := h3) (Touches.snd ?_ e4) fun th3 => ?_
    · exact Touches.refl.step Hw.fresh_touches
    exact Touches.pair (th3)

theorem Hw.showBase_touches {h : Hw} : Touches [.regs] h (Hw.showBase h) := by
  unfold Hw.showBase
  split
  · exact Touches.refl
  · extract_lets +onlyGivenNames v6
    extract_lets +onlyGivenNames h7
    refine Touches.cut (x := h7) ?_ fun th7 => ?_
    · subst h7
      refine Touches.ite ?_ ?_
      · exact Touches.refl
      · exact Touches.refl.step Hw.sf_touches
    clear_value h7
    exact th7.step Hw.sf_touches

theorem Hw.hitchBaseLo_touches {h : Hw} {v : Nat} : Touches [.regs, .hitch] h (Hw.hitchBaseLo h v) := by
  unfold Hw.hitchBaseLo
  extract_lets +onlyGivenNames h1
  refine Touches.cut (x := h1) ?_ fun th1 => ?_
  · subst h1
    exact Touches.refl.step Hw.sf_touches
  clear_value h1
  exact th1.step set_hitch_touches

theorem Hw.showPend_touches {h : Hw} : Touches [.regs] h (Hw.showPend h) := by
  unfold Hw.showPend
  exact Touches.refl.step Hw.sf_touches

theorem Hw.changeover_touches {h : Hw} {nc : Option Nat} : Touches [.regs, .hitch] h (Hw.changeover h nc) := by
  unfold Hw.changeover
  extract_lets +onlyGivenNames v1
  refine Touches.ite ?_ ?_
  · exact Touches.refl
  · extract_lets +onlyGivenNames v2 v3
    extract_lets +onlyGivenNames h4
    refine Touches.cut (x := h4) ?_ fun th4 => ?_
    · subst h4
      exact Touches.refl.step set_hitch_touches
    clear_value h4
    exact ((th4.step Hw.showBase_touches).step Hw.showPend_touches).step Hw.sf_touches

theorem Hw.settleSchedule_touches {h : Hw} : Touches [.regs, .hitch] h (Hw.settleSchedule h) := by
  unfold Hw.settleSchedule
  refine Touches.ite ?_ ?_
  · exact Touches.refl
  · exact Touches.refl.step Hw.changeover_touches

theorem Hw.hitchCtrl_touches {h : Hw} {v : Nat} : Touches [.regs, .hitch] h (Hw.hitchCtrl h v) := by
  unfold Hw.hitchCtrl
  extract_lets +onlyGivenNames v1
  refine Touches.ite ?_ ?_
  · exact Touches.refl.step Hw.sf_touches
  · extract_lets +onlyGivenNames v2
    extract_lets +onlyGivenNames h3
    refine Touches.cut (x := h3) ?_ fun th3 => ?_
    · subst h3
      exact Touches.refl.step Hw.writeFields_touches
    clear_value h3
    extract_lets +onlyGivenNames v4 v5
    extract_lets +onlyGivenNames h6
    refine Touches.cut (x := h6) ?_ fun th6 => ?_
    · subst h6
      exact th3.step set_hitch_touches
    clear_value h6
    exact (th6.step Hw.showPend_touches).step Hw.settleSchedule_touches

theorem Hw.hitchBase_touches {h : Hw} {v : Nat} : Touches [.regs, .hitch] h (Hw.hitchBase h v) := by
  unfold Hw.hitchBase
  extract_lets +onlyGivenNames h1
  refine Touches.cut (x := h1) ?_ fun th1 => ?_
  · subst h1
    exact Touches.refl.step Hw.writeFields_touches
  clear_value h1
  extract_lets +onlyGivenNames v2
  extract_lets +onlyGivenNames h3
  refine Touches.cut (x := h3) ?_ fun th3 => ?_
  · subst h3
    exact th1.step set_hitch_touches
  clear_value h3
  exact (th3.step Hw.showPend_touches).step Hw.settleSchedule_touches

theorem Hw.hitchAdj_touches {h : Hw} {v : Nat} : Touches [.regs, .hitch] h (Hw.hitchAdj h v) := by
  unfold Hw.hitchAdj
  extract_lets +onlyGivenNames v1 v2 v3
  refine Touches.ite ?_ ?_
  · exact Touches.refl.step Hw.sf_touches
  · exact Touches.refl.step set_hitch_touches

theorem Hw.instantDue_touches {h : Hw} : Touches [.regs, .free, .hitch] h (Hw.instantDue h) := by
  unfold Hw.instantDue
  extract_lets +onlyGivenNames v1 v2
  refine Touches.ite ?_ ?_
  · exact Touches.refl
  · refine Touches.ite ?_ ?_
    · exact Touches.refl.step set_hitch_touches
    · refine Touches.ite ?_ ?_
      · exact (Touches.refl.step set_hitch_touches).step Hw.sf_touches
      · extract_lets +onlyGivenNames v3 v4 v5 v6
        extract_lets +onlyGivenNames h7
        refine Touches.cut (x := h7) ?_ fun th7 => ?_
        · subst h7
          exact (Touches.refl.step set_hitch_touches).step Hw.showBase_touches
        clear_value h7
        split
        · rename_i a8 a9 h10 e11
          refine Touches.cut (x := h10) (Touches.snd ?_ e11) fun th10 => ?_
          · exact th7.step Hw.jitter_touches
          extract_lets +onlyGivenNames v12 v13 v14 v15 v16
          extract_lets +onlyGivenNames h17
          refine Touches.cut (x := h17) ?_ fun th17 => ?_
          · subst h17
            exact th10.step set_hitch_touches
          clear_value h17
          refine Touches.ite ?_ ?_
          · exact th17.step Hw.changeover_touches
          · exact th17

theorem Hw.anchorExpiry_touches {h : Hw} : Touches [.hitch] h (Hw.anchorExpiry h) := by
  unfold Hw.anchorExpiry
  split
  · exact Touches.refl
  · refine Touches.ite ?_ ?_
    · exact Touches.refl.step set_hitch_touches
    · exact Touches.refl

theorem Hw.writeRecord_touches {h : Hw} {e : Epoch} {s : Nat} : Touches [.regs, .mem, .ecc, .elogQ, .strands] h (Hw.writeRecord h e s).2 := by
  unfold Hw.writeRecord
  extract_lets +onlyGivenNames v1 v2 v3 v4 v5 v6 v7 v8 v9 v10 v11
  extract_lets +onlyGivenNames h12
  refine Touches.cut (x := h12) ?_ fun th12 => ?_
  · subst h12
    exact Touches.refl.step Hw.fabWrites_touches
  clear_value h12
  extract_lets +onlyGivenNames h13
  refine Touches.cut (x := h13) ?_ fun th13 => ?_
  · subst h13
    refine Touches.ite ?_ ?_
    · exact th12
    · exact th12.step Hw.setStrand_touches
  clear_value h13
  exact Touches.pair (th13)

theorem Hw.writeRecords_touches {h : Hw} {e : Epoch} {b1 : List Nat} : Touches [.regs, .mem, .ecc, .elogQ, .strands] h (Hw.writeRecords h e b1).2 := by
  induction b1 generalizing h e with
  | nil =>
    unfold Hw.writeRecords
    exact Touches.pair (Touches.refl)
  | cons y ys ih =>
    unfold Hw.writeRecords
    split
    · rename_i a1 a2 h3 e4
      refine Touches.cut (x := h3) (Touches.snd ?_ e4) fun th3 => ?_
      · exact Touches.refl.step Hw.writeRecord_touches
      split
      · rename_i a5 a6 h7 e8
        refine Touches.cut (x := h7) (Touches.snd ?_ e8) fun th7 => ?_
        · exact th3.step ih
        exact Touches.pair (th7)

theorem Hw.dmaError_touches {h : Hw} {c : Fin 8} {a : Nat} {write : Bool} {cls : Nat} {left : Nat} : Touches [.regs, .elogQ] h (Hw.dmaError h c a write cls left) := by
  unfold Hw.dmaError
  extract_lets +onlyGivenNames h1
  refine Touches.cut (x := h1) ?_ fun th1 => ?_
  · subst h1
    refine Touches.ite ?_ ?_
    · exact Touches.refl.step Hw.mpuRecord_touches
    · exact Touches.refl
  clear_value h1
  extract_lets +onlyGivenNames h2
  refine Touches.cut (x := h2) ?_ fun th2 => ?_
  · subst h2
    refine Touches.ite ?_ ?_
    · exact (th1.step Hw.bump_touches).step Hw.sf_touches
    · exact th1
  clear_value h2
  exact th2.step Hw.report_touches

theorem Hw.copyBeats_touches {h : Hw} {src : Nat} {dst : Nat} {b1 : Nat} : Touches [.regs, .mem, .ecc, .memu] h (Hw.copyBeats h src dst b1).2 := by
  induction b1 generalizing h src dst with
  | zero =>
    unfold Hw.copyBeats
    exact Touches.pair (Touches.refl)
  | succ k ih =>
    unfold Hw.copyBeats
    split
    · exact Touches.pair (Touches.refl)
    · split
      · exact Touches.pair (Touches.refl)
      · extract_lets +onlyGivenNames h11
        refine Touches.cut (x := h11) ?_ fun th11 => ?_
        · subst h11
          exact Touches.refl.step Hw.correct_touches
        clear_value h11
        exact (th11.step Hw.memStore_touches).step ih

theorem Hw.copyAbandon_touches {h : Hw} {seq : Nat} : Touches [.regs, .mem, .ecc, .free, .elogQ, .memu, .hitch] h (Hw.copyAbandon h seq) := by
  unfold Hw.copyAbandon
  extract_lets +onlyGivenNames v1
  refine Touches.ite ?_ ?_
  · split
    · rename_i a2 a3 h4 e5
      refine Touches.cut (x := h4) (Touches.snd ?_ e5) fun th4 => ?_
      · exact Touches.refl.step Hw.fresh_touches
      extract_lets +onlyGivenNames h6
      refine Touches.cut (x := h6) ?_ fun th6 => ?_
      · subst h6
        exact th4.step Hw.copyBeats_touches
      clear_value h6
      extract_lets +onlyGivenNames v7
      extract_lets +onlyGivenNames h8
      refine Touches.cut (x := h8) ?_ fun th8 => ?_
      · subst h8
        exact th6.step set_hitch_touches
      clear_value h8
      extract_lets +onlyGivenNames h9
      refine Touches.cut (x := h9) ?_ fun th9 => ?_
      · subst h9
        exact (th8.step Hw.sf_touches).step Hw.bump_touches
      clear_value h9
      refine Touches.ite ?_ ?_
      · exact th9.step Hw.report_touches
      · exact th9
  · exact Touches.refl

theorem Hw.copyStart_touches {h : Hw} {seq : Nat} : Touches [.regs, .hitch] h (Hw.copyStart h seq) := by
  unfold Hw.copyStart
  refine Touches.ite ?_ ?_
  · exact Touches.refl
  · refine Touches.ite ?_ ?_
    · exact Touches.refl.step Hw.sf_touches
    · exact Touches.refl.step set_hitch_touches

theorem Hw.releaseEpoch_touches {h : Hw} {e : Epoch} : Touches [.regs, .mem, .ecc, .free, .elogQ, .memu, .strands, .hitch] h (Hw.releaseEpoch h e) := by
  unfold Hw.releaseEpoch
  generalize upTo 512 = ns512
  extract_lets +onlyGivenNames h1
  refine Touches.cut (x := h1) ?_ fun th1 => ?_
  · subst h1
    exact Touches.refl.step Hw.copyAbandon_touches
  clear_value h1
  split
  · rename_i a2 a3 h4 e5
    refine Touches.cut (x := h4) (Touches.snd ?_ e5) fun th4 => ?_
    · exact th1.step Hw.writeRecords_touches
    extract_lets +onlyGivenNames h6
    refine Touches.cut (x := h6) ?_ fun th6 => ?_
    · subst h6
      exact (th4.step Hw.bumpBy_touches).step Hw.sf_touches
    clear_value h6
    extract_lets +onlyGivenNames h7
    refine Touches.cut (x := h7) ?_ fun th7 => ?_
    · subst h7
      refine Touches.ite ?_ ?_
      · exact th4
      · refine Touches.ite ?_ ?_
        · exact th6.step Hw.report_touches
        · exact th6
    clear_value h7
    extract_lets +onlyGivenNames h8
    refine Touches.cut (x := h8) ?_ fun th8 => ?_
    · subst h8
      exact (th7.step Hw.sf_touches).step Hw.sf_touches
    clear_value h8
    extract_lets +onlyGivenNames h9
    refine Touches.cut (x := h9) ?_ fun th9 => ?_
    · subst h9
      exact (th8.step Hw.sf_touches).step Hw.sf_touches
    clear_value h9
    extract_lets +onlyGivenNames h10
    refine Touches.cut (x := h10) ?_ fun th10 => ?_
    · subst h10
      exact ((th9.step Hw.sf_touches).step Hw.sf_touches).step Hw.sf_touches
    clear_value h10
    exact th10.step Hw.copyStart_touches

theorem Hw.hitchRelease_touches {h : Hw} : Touches [.regs, .mem, .ecc, .free, .elogQ, .memu, .strands, .hitch] h (Hw.hitchRelease h).2 := by
  unfold Hw.hitchRelease
  split
  · exact Touches.pair (Touches.refl)
  · refine Touches.ite2 ?_ ?_
    · exact Touches.pair ((Touches.refl.step set_hitch_touches).step Hw.releaseEpoch_touches)
    · exact Touches.pair (Touches.refl)

theorem Hw.hitchForget_touches {h : Hw} {n : Nat} : Touches [.hitch] h (Hw.hitchForget h n) := by
  unfold Hw.hitchForget
  extract_lets +onlyGivenNames v1
  exact Touches.refl.step set_hitch_touches

theorem Hw.hitchRestart_touches {h : Hw} : Touches [.hitch] h (Hw.hitchRestart h) := by
  unfold Hw.hitchRestart
  exact Touches.refl.step set_hitch_touches

theorem Hw.latchRef_touches {h : Hw} {n : Nat} : Touches [.regs, .free, .hitch] h (Hw.latchRef h n) := by
  unfold Hw.latchRef
  extract_lets +onlyGivenNames v1 v2
  split
  · rename_i a3 a4 h5 e6
    refine Touches.cut (x := h5) (Touches.snd ?_ e6) fun th5 => ?_
    · refine Touches.ite2 ?_ ?_
      · exact Touches.pair (Touches.refl)
      · refine Touches.ite2 ?_ ?_
        · split
          · rename_i a7 a8 h9 e10
            refine Touches.cut (x := h9) (Touches.snd ?_ e10) fun th9 => ?_
            · exact Touches.refl.step Hw.jitter_touches
            exact Touches.pair (th9)
        · exact Touches.pair (Touches.refl)
    extract_lets +onlyGivenNames v11
    extract_lets +onlyGivenNames h12
    refine Touches.cut (x := h12) ?_ fun th12 => ?_
    · subst h12
      exact th5.step Hw.sf_touches
    clear_value h12
    exact th12.step set_hitch_touches

end Sys2Proof.Machine
end

