-- ==== Sys2Proof/Laws/TouchTimePulse.lean ====
section
/-! SUPPORT. What each operation of Machine/TimePulse.lean touches of the part: the components outside the list stay as they were. -/

set_option Elab.async false

namespace Sys2Proof.Machine

theorem Hw.setEdge_touches {h : Hw} {e : Nat} : Touches [.regs, .tp] h (Hw.setEdge h e) := by
  unfold Hw.setEdge
  extract_lets +onlyGivenNames v1 v2
  extract_lets +onlyGivenNames h3
  refine Touches.cut (x := h3) ?_ fun th3 => ?_
  · subst h3
    exact Touches.refl.step set_tp_touches
  clear_value h3
  exact ((th3.step Hw.sf_touches).step Hw.sf_touches).step Hw.sf_touches

theorem Hw.setSlew_touches {h : Hw} {q : Int} : Touches [.regs] h (Hw.setSlew h q) := by
  unfold Hw.setSlew
  exact (Touches.refl.step Hw.sf_touches).step Hw.sf_touches

theorem Hw.edgeAdvance_touches {h : Hw} : Touches [.regs, .tp] h (Hw.edgeAdvance h) := by
  unfold Hw.edgeAdvance
  extract_lets +onlyGivenNames v1 v2 v3
  extract_lets +onlyGivenNames h4
  refine Touches.cut (x := h4) ?_ fun th4 => ?_
  · subst h4
    exact Touches.refl.step Hw.setSlew_touches
  clear_value h4
  extract_lets +onlyGivenNames h5
  refine Touches.cut (x := h5) ?_ fun th5 => ?_
  · subst h5
    exact th4.step Hw.setEdge_touches
  clear_value h5
  exact th5.step Hw.count_touches

theorem Hw.stepApply_touches {h : Hw} : Touches [.regs, .tp] h (Hw.stepApply h) := by
  unfold Hw.stepApply
  extract_lets +onlyGivenNames h1
  refine Touches.cut (x := h1) ?_ fun th1 => ?_
  · subst h1
    exact Touches.refl.step Hw.sf_touches
  clear_value h1
  extract_lets +onlyGivenNames v2 v3 v4
  refine Touches.ite ?_ ?_
  · extract_lets +onlyGivenNames v5
    extract_lets +onlyGivenNames h6
    refine Touches.cut (x := h6) ?_ fun th6 => ?_
    · subst h6
      exact (th1.step Hw.bumpBy_touches).step Hw.bump_touches
    clear_value h6
    extract_lets +onlyGivenNames v7
    extract_lets +onlyGivenNames h8
    refine Touches.cut (x := h8) ?_ fun th8 => ?_
    · subst h8
      exact th6.step set_tp_touches
    clear_value h8
    exact (((th8.step Hw.sf_touches).step Hw.setSlew_touches).step Hw.setEdge_touches).step Hw.sf_touches
  · exact (th1.step Hw.sf_touches).step Hw.edgeAdvance_touches

theorem Hw.edgeUpdate_touches {h : Hw} : Touches [.regs, .tcnt, .tp] h (Hw.edgeUpdate h) := by
  unfold Hw.edgeUpdate
  extract_lets +onlyGivenNames h1
  refine Touches.cut (x := h1) ?_ fun th1 => ?_
  · subst h1
    exact Touches.refl.step Hw.reach_touches
  clear_value h1
  extract_lets +onlyGivenNames v2
  extract_lets +onlyGivenNames h3
  refine Touches.cut (x := h3) ?_ fun th3 => ?_
  · subst h3
    refine Touches.ite ?_ ?_
    · exact th1.step set_tp_touches
    · exact th1
  clear_value h3
  refine Touches.ite ?_ ?_
  · exact th3.step Hw.stepApply_touches
  · exact th3.step Hw.edgeAdvance_touches

theorem Hw.inactiveEdge_touches {h : Hw} : Touches [.tcnt, .tp] h (Hw.inactiveEdge h) := by
  unfold Hw.inactiveEdge
  split
  · exact Touches.refl
  · extract_lets +onlyGivenNames h6
    refine Touches.cut (x := h6) ?_ fun th6 => ?_
    · subst h6
      exact Touches.refl.step Hw.reach_touches
    clear_value h6
    exact th6.step set_tp_touches

theorem Hw.writePeriod_touches {h : Hw} {v : Nat} : Touches [.regs] h (Hw.writePeriod h v) := by
  unfold Hw.writePeriod
  refine Touches.ite ?_ ?_
  · exact Touches.refl.step Hw.writeFields_touches
  · exact Touches.refl.step Hw.sf_touches

theorem Hw.writeSlew_touches {h : Hw} {v : Nat} : Touches [.regs] h (Hw.writeSlew h v) := by
  unfold Hw.writeSlew
  exact Touches.refl.step Hw.setSlew_touches

theorem Hw.enterHoldover_touches {h : Hw} : Touches [.regs, .tp] h (Hw.enterHoldover h) := by
  unfold Hw.enterHoldover
  extract_lets +onlyGivenNames v1
  extract_lets +onlyGivenNames h2
  refine Touches.cut (x := h2) ?_ fun th2 => ?_
  · subst h2
    exact Touches.refl.step set_tp_touches
  clear_value h2
  exact th2.step Hw.sf_touches

theorem Hw.tpDisc_touches {h : Hw} {v : Nat} : Touches [.regs, .tp] h (Hw.tpDisc h v) := by
  unfold Hw.tpDisc
  extract_lets +onlyGivenNames v1
  extract_lets +onlyGivenNames h2
  refine Touches.cut (x := h2) ?_ fun th2 => ?_
  · subst h2
    exact Touches.refl.step set_tp_touches
  clear_value h2
  exact (th2.step Hw.sf_touches).step Hw.sf_touches

theorem Hw.tpHold_touches {h : Hw} : Touches [.regs, .tp] h (Hw.tpHold h) := by
  unfold Hw.tpHold
  refine Touches.ite ?_ ?_
  · exact Touches.refl.step Hw.enterHoldover_touches
  · exact Touches.refl

theorem Hw.holdTimeout_touches {h : Hw} : Touches [.regs, .tcnt, .tp] h (Hw.holdTimeout h) := by
  unfold Hw.holdTimeout
  refine Touches.ite ?_ ?_
  · exact (Touches.refl.step Hw.reach_touches).step Hw.enterHoldover_touches
  · exact Touches.refl

theorem Hw.writeLim_touches {h : Hw} {v : Nat} : Touches [.regs, .tp] h (Hw.writeLim h v) := by
  unfold Hw.writeLim
  extract_lets +onlyGivenNames h1
  refine Touches.cut (x := h1) ?_ fun th1 => ?_
  · subst h1
    exact Touches.refl.step Hw.writeFields_touches
  clear_value h1
  refine Touches.ite ?_ ?_
  · exact th1.step Hw.enterHoldover_touches
  · exact th1

theorem Hw.holdoverTick_touches {h : Hw} : Touches [.regs, .tcnt, .tp] h (Hw.holdoverTick h) := by
  unfold Hw.holdoverTick
  generalize h.tp.holdFrom + (h.tp.ticks + 1) * secondTicks = k
  refine Touches.ite Touches.refl ?_
  extract_lets h1 v2 v3 h4 h5
  have t1 : Touches [.regs, .tcnt, .tp] h h1 := Touches.refl.step Hw.reach_touches
  have t5 : Touches [.regs, .tcnt, .tp] h h5 := (t1.step set_tp_touches).step Hw.bumpBy_touches
  exact Touches.ite (t5.step Hw.sf_touches) t5

theorem Hw.pulseFix_touches {h : Hw} {f : PulseFix} {thr : Nat} {antDly : Int} {outDly : Int} : Touches [.regs, .tp] h (Hw.pulseFix h f thr antDly outDly) := by
  unfold Hw.pulseFix
  extract_lets +onlyGivenNames v1
  refine Touches.ite ?_ ?_
  · exact (Touches.refl.step Hw.tpDisc_touches).step Hw.setSlew_touches
  · extract_lets +onlyGivenNames h2
    refine Touches.cut (x := h2) ?_ fun th2 => ?_
    · subst h2
      exact ((Touches.refl.step Hw.sf_touches).step Hw.sf_touches).step Hw.sf_touches
    clear_value h2
    exact ((th2.step Hw.sf_touches).step Hw.sf_touches).step Hw.tpDisc_touches

theorem Hw.readTcnt_touches {h : Hw} : Touches [.regs, .resp] h (Hw.readTcnt h) := by
  unfold Hw.readTcnt
  extract_lets +onlyGivenNames h1
  refine Touches.cut (x := h1) ?_ fun th1 => ?_
  · subst h1
    exact (Touches.refl.step Hw.sf_touches).step Hw.sf_touches
  clear_value h1
  exact th1.step set_resp_touches

theorem Hw.dropMark_touches {h : Hw} {f : Fld} : Touches [.regs] h (Hw.dropMark h f) := by
  unfold Hw.dropMark
  exact (Touches.refl.step Hw.sf_touches).step Hw.bump_touches

theorem Hw.markEdge_touches {h : Hw} {rise : Bool} {held : Nat} : Touches [.regs, .tp] h (Hw.markEdge h rise held) := by
  unfold Hw.markEdge
  refine Touches.ite ?_ ?_
  · extract_lets +onlyGivenNames v1 v2
    refine Touches.ite ?_ ?_
    · exact Touches.refl.step Hw.dropMark_touches
    · refine Touches.ite ?_ ?_
      · exact Touches.refl.step Hw.dropMark_touches
      · exact Touches.refl.step set_tp_touches
  · exact Touches.refl

theorem Hw.readMark_touches {h : Hw} : Touches [.regs, .resp, .tp] h (Hw.readMark h) := by
  unfold Hw.readMark
  split
  · extract_lets +onlyGivenNames h3
    refine Touches.cut (x := h3) ?_ fun th3 => ?_
    · subst h3
      exact Touches.refl.step Hw.sf_touches
    clear_value h3
    exact th3.step set_resp_touches
  · extract_lets +onlyGivenNames v10
    extract_lets +onlyGivenNames h11
    refine Touches.cut (x := h11) ?_ fun th11 => ?_
    · subst h11
      exact Touches.refl.step set_tp_touches
    clear_value h11
    extract_lets +onlyGivenNames h12
    refine Touches.cut (x := h12) ?_ fun th12 => ?_
    · subst h12
      exact (th11.step Hw.sf_touches).step Hw.sf_touches
    clear_value h12
    extract_lets +onlyGivenNames h13
    refine Touches.cut (x := h13) ?_ fun th13 => ?_
    · subst h13
      exact ((th12.step Hw.sf_touches).step Hw.sf_touches).step Hw.sf_touches
    clear_value h13
    exact th13.step set_resp_touches

end Sys2Proof.Machine
end

