-- ==== Sys2Proof/Laws/TouchCopy.lean ====
section
/-! SUPPORT. What each operation of Machine/Copy.lean touches of the part: the components outside the list stay as they were. -/

set_option Elab.async false

namespace Sys2Proof.Machine

theorem Hw.copyEnd_touches {h : Hw} {seq : Nat} {x : Option (Nat × Bool × Nat × Nat) × Hw} (t : Touches [.regs, .mem, .ecc, .elogQ, .memu, .hitch, .strands] h x.2) :
    Touches [.regs, .mem, .ecc, .elogQ, .memu, .hitch, .strands] h (Hw.copyEnd seq x) := by
  obtain ⟨o, g⟩ := x
  cases o with
  | none => exact Touches.step (X := g) t Hw.sf_touches
  | some p => exact (((Touches.step (X := g) t Hw.sf_touches).step Hw.bump_touches).step Hw.dmaError_touches)

theorem Hw.copyDone_touches {h : Hw} : Touches [.regs, .mem, .ecc, .elogQ, .memu, .hitch, .strands] h (Hw.copyDone h) := by
  unfold Hw.copyDone
  generalize 4096 = n
  split
  · exact Touches.refl
  · refine Touches.ite Touches.refl ?_
    exact Hw.copyEnd_touches ((Touches.refl.step set_hitch_touches).step Hw.copyBeats_touches)

end Sys2Proof.Machine
end

