-- ==== Sys2Proof/Laws/TouchUnits.lean ====
section
/-! SUPPORT. What each operation of Machine/Units.lean touches of the part: the components outside the list stay as they were. -/

set_option Elab.async false

namespace Sys2Proof.Machine

theorem Hw.mramSet_touches {h : Hw} {a : Nat} {bs : List Nat} : Touches [.mem, .ecc] h (Hw.mramSet h a bs) := by
  unfold Hw.mramSet
  extract_lets +onlyGivenNames h1
  refine Touches.cut (x := h1) ?_ fun th1 => ?_
  · subst h1
    exact Touches.refl.step Hw.storeBytes_touches
  clear_value h1
  refine Touches.forEach ?_ fun x2 h3 th3 => ?_
  · exact th1
  · exact th3.step Hw.setEcc_touches

theorem Hw.mramDone_touches {h : Hw} : Touches [.mem, .ecc, .memu] h (Hw.mramDone h) := by
  unfold Hw.mramDone
  split
  · exact Touches.refl
  · extract_lets +onlyGivenNames h7
    refine Touches.cut (x := h7) ?_ fun th7 => ?_
    · subst h7
      exact (Touches.refl.step Hw.store_touches).step Hw.setEcc_touches
    clear_value h7
    split
    · exact th7.step set_memu_touches
    · exact th7.step set_memu_touches

theorem Hw.setUnit_touches {h : Hw} {u : Nat} {st : Nat} : Touches [.regs] h (Hw.setUnit h u st) := by
  unfold Hw.setUnit
  exact (Touches.refl.step Hw.sf_touches).step Hw.sf_touches

theorem Hw.eccClear_touches {h : Hw} {a : Nat} {n : Nat} : Touches [.ecc] h (Hw.eccClear h a n) := by
  unfold Hw.eccClear
  exact Touches.refl.step set_ecc_touches

theorem Hw.fillUnit_touches {h : Hw} {u : Nat} : Touches [.mem, .ecc] h (Hw.fillUnit h u) := by
  unfold Hw.fillUnit
  exact (Touches.refl.step Hw.zero_touches).step Hw.eccClear_touches

theorem Hw.unitRunOff_touches {h : Hw} {u : Nat} : Touches [.regs, .mem, .ecc] h (Hw.unitRunOff h u) := by
  unfold Hw.unitRunOff
  refine Touches.ite ?_ ?_
  · exact Touches.refl.step Hw.sf_touches
  · extract_lets +onlyGivenNames h1
    refine Touches.cut (x := h1) ?_ fun th1 => ?_
    · subst h1
      exact Touches.refl.step Hw.sf_touches
    clear_value h1
    refine Touches.ite ?_ ?_
    · exact (th1.step Hw.fillUnit_touches).step Hw.setUnit_touches
    · exact th1

theorem Hw.unitRunOn_touches {h : Hw} {u : Nat} : Touches [.regs] h (Hw.unitRunOn h u) := by
  unfold Hw.unitRunOn
  extract_lets +onlyGivenNames h1
  refine Touches.cut (x := h1) ?_ fun th1 => ?_
  · subst h1
    exact Touches.refl.step Hw.sf_touches
  clear_value h1
  refine Touches.ite ?_ ?_
  · exact th1.step Hw.setUnit_touches
  · exact th1

theorem Hw.unitFilled_touches {h : Hw} {u : Nat} : Touches [.regs, .mem, .ecc] h (Hw.unitFilled h u) := by
  unfold Hw.unitFilled
  refine Touches.ite ?_ ?_
  · exact (Touches.refl.step Hw.fillUnit_touches).step Hw.setUnit_touches
  · exact Touches.refl

theorem Hw.unitCtl_touches {h : Hw} {u : Nat} {v : Nat} : Touches [.regs, .mem, .ecc] h (Hw.unitCtl h u v) := by
  unfold Hw.unitCtl
  extract_lets +onlyGivenNames h1
  refine Touches.cut (x := h1) ?_ fun th1 => ?_
  · subst h1
    exact Touches.refl.step Hw.sf_touches
  clear_value h1
  extract_lets +onlyGivenNames h2
  refine Touches.cut (x := h2) ?_ fun th2 => ?_
  · subst h2
    refine Touches.ite ?_ ?_
    · exact th1.step Hw.sf_touches
    · exact th1
  clear_value h2
  refine Touches.ite ?_ ?_
  · exact th2.step Hw.unitRunOff_touches
  · refine Touches.ite ?_ ?_
    · exact th2.step Hw.unitRunOn_touches
    · exact th2

theorem Hw.offlineEffect_touches {h : Hw} {u : Nat} : Touches [.sys] h (Hw.offlineEffect h u) := by
  unfold Hw.offlineEffect
  refine Touches.ite ?_ ?_
  · exact Touches.refl.step set_sys_touches
  · exact Touches.refl

theorem Hw.retireBank_touches {h : Hw} {u : Nat} {b : Nat} : Touches [.regs, .sys] h (Hw.retireBank h u b) := by
  unfold Hw.retireBank
  extract_lets +onlyGivenNames v1
  exact ((Touches.refl.step Hw.sf_touches).step Hw.setUnit_touches).step Hw.offlineEffect_touches

theorem Hw.markFailing_touches {h : Hw} {u : Nat} {b : Nat} : Touches [.regs, .kept, .elogQ] h (Hw.markFailing h u b) := by
  unfold Hw.markFailing
  extract_lets +onlyGivenNames v1
  extract_lets +onlyGivenNames h2
  refine Touches.cut (x := h2) ?_ fun th2 => ?_
  · subst h2
    exact Touches.refl.step set_kept_touches
  clear_value h2
  exact (th2.step Hw.sf_touches).step Hw.report_touches

theorem Hw.mapRow_touches {h : Hw} {m : RowMap} : Touches [.regs, .kept, .memu] h (Hw.mapRow h m) := by
  unfold Hw.mapRow
  extract_lets +onlyGivenNames v1
  extract_lets +onlyGivenNames h2
  refine Touches.cut (x := h2) ?_ fun th2 => ?_
  · subst h2
    exact Touches.refl.step set_memu_touches
  clear_value h2
  extract_lets +onlyGivenNames v3
  extract_lets +onlyGivenNames h4
  refine Touches.cut (x := h4) ?_ fun th4 => ?_
  · subst h4
    refine Touches.ite ?_ ?_
    · exact th2.step set_kept_touches
    · exact th2
  clear_value h4
  exact th4.step Hw.sf_touches

theorem Hw.copyRow_touches {h : Hw} {u : Nat} {b : Nat} {r : Nat} : Touches [.ecc] h (Hw.copyRow h u b r) := by
  unfold Hw.copyRow
  generalize upTo 32 = ns32
  refine Touches.forEach ?_ fun x1 h2 th2 => ?_
  · exact Touches.refl
  · extract_lets +onlyGivenNames v3
    refine Touches.ite ?_ ?_
    · exact th2.step Hw.setEcc_touches
    · exact th2.step Hw.setEcc_touches

theorem Hw.noSpare_touches {h : Hw} {u : Nat} {b : Nat} {live : Bool} : Touches [.regs, .kept, .sys, .elogQ] h (Hw.noSpare h u b live) := by
  unfold Hw.noSpare
  refine Touches.ite ?_ ?_
  · exact Touches.refl.step Hw.retireBank_touches
  · exact Touches.refl.step Hw.markFailing_touches

theorem Hw.handleRow_touches {h : Hw} {u : Nat} {keep : Bool} {bad : List (Nat × Nat)} {br : Nat × Nat} : Touches [.regs, .ecc, .kept, .sys, .elogQ, .memu] h (Hw.handleRow h u keep bad br) := by
  unfold Hw.handleRow
  split
  · extract_lets +onlyGivenNames h4
    refine Touches.cut (x := h4) ?_ fun th4 => ?_
    · subst h4
      refine Touches.ite ?_ ?_
      · exact Touches.refl.step Hw.copyRow_touches
      · exact Touches.refl
    clear_value h4
    exact (th4.step Hw.mapRow_touches).step Hw.sf_touches
  · exact (Touches.refl.step Hw.noSpare_touches).step Hw.sf_touches

theorem Hw.marchWrite_touches {h : Hw} {v : Nat} : Touches [.regs, .memu] h (Hw.marchWrite h v) := by
  unfold Hw.marchWrite
  extract_lets +onlyGivenNames h1
  refine Touches.cut (x := h1) ?_ fun th1 => ?_
  · subst h1
    exact Touches.refl.step Hw.writeFields_touches
  clear_value h1
  refine Touches.ite ?_ ?_
  · exact th1
  · extract_lets +onlyGivenNames v2 v3
    refine Touches.ite ?_ ?_
    · exact th1.step Hw.sf_touches
    · extract_lets +onlyGivenNames v4
      extract_lets +onlyGivenNames h5
      refine Touches.cut (x := h5) ?_ fun th5 => ?_
      · subst h5
        exact th1.step set_memu_touches
      clear_value h5
      exact (th5.step Hw.sf_touches).step Hw.sf_touches

theorem Hw.marchDone_touches {h : Hw} {rows : List (Nat × Nat)} {bad : List (Nat × Nat)} : Touches [.regs, .mem, .ecc, .kept, .sys, .elogQ, .memu] h (Hw.marchDone h rows bad) := by
  unfold Hw.marchDone
  split
  · exact Touches.refl
  · extract_lets +onlyGivenNames v7 v8
    extract_lets +onlyGivenNames h9
    refine Touches.cut (x := h9) ?_ fun th9 => ?_
    · subst h9
      exact Touches.refl.step set_memu_touches
    clear_value h9
    extract_lets +onlyGivenNames h10
    refine Touches.cut (x := h10) ?_ fun th10 => ?_
    · subst h10
      exact ((th9.step Hw.sf_touches).step Hw.sf_touches).step Hw.sf_touches
    clear_value h10
    extract_lets +onlyGivenNames h11
    refine Touches.cut (x := h11) ?_ fun th11 => ?_
    · subst h11
      exact th10.step Hw.setUnit_touches
    clear_value h11
    extract_lets +onlyGivenNames h12
    refine Touches.cut (x := h12) ?_ fun th12 => ?_
    · subst h12
      refine Touches.ite ?_ ?_
      · refine Touches.forEach ?_ fun x13 h14 th14 => ?_
        · exact th11
        · refine Touches.ite ?_ ?_
          · exact th14.step Hw.setEcc_touches
          · exact th14
      · exact th11.step Hw.fillUnit_touches
    clear_value h12
    extract_lets +onlyGivenNames h15
    refine Touches.cut (x := h15) ?_ fun th15 => ?_
    · subst h15
      refine Touches.forEach ?_ fun x16 h17 th17 => ?_
      · exact th12
      · exact th17.step Hw.handleRow_touches
    clear_value h15
    extract_lets +onlyGivenNames h18
    refine Touches.cut (x := h18) ?_ fun th18 => ?_
    · subst h18
      split
      · exact th15
      · exact ((th15.step Hw.sf_touches).step Hw.sf_touches).step Hw.sf_touches
    clear_value h18
    exact ((th18.step Hw.sf_touches).step Hw.sf_touches).step Hw.sf_touches

theorem Hw.repairStart_touches {h : Hw} {a : Nat} : Touches [.regs, .kept, .sys, .elogQ, .memu] h (Hw.repairStart h a) := by
  unfold Hw.repairStart
  split
  · exact Touches.refl
  · refine Touches.ite ?_ ?_
    · exact Touches.refl
    · split
      · split
        · exact Touches.refl.step set_memu_touches
        · refine Touches.ite ?_ ?_
          · exact Touches.refl
          · exact Touches.refl.step Hw.noSpare_touches

theorem Hw.spareTested_touches {h : Hw} {r : Repair} {spareOk : Bool} : Touches [.regs, .kept, .sys, .elogQ, .memu] h (Hw.spareTested h r spareOk) := by
  unfold Hw.spareTested
  extract_lets +onlyGivenNames v1 v2
  refine Touches.ite ?_ ?_
  · exact Touches.refl.step set_memu_touches
  · split
    · exact Touches.refl.step set_memu_touches
    · exact (Touches.refl.step set_memu_touches).step Hw.noSpare_touches

theorem Hw.repairDone_touches {h : Hw} {spareOk : Bool} : Touches [.regs, .ecc, .kept, .sys, .elogQ, .memu] h (Hw.repairDone h spareOk) := by
  unfold Hw.repairDone
  split
  · exact Touches.refl
  · extract_lets +onlyGivenNames v6
    refine Touches.ite ?_ ?_
    · extract_lets +onlyGivenNames v7
      extract_lets +onlyGivenNames h8
      refine Touches.cut (x := h8) ?_ fun th8 => ?_
      · subst h8
        exact Touches.refl.step set_memu_touches
      clear_value h8
      exact ((th8.step Hw.copyRow_touches).step Hw.mapRow_touches).step Hw.report_touches
    · exact Touches.refl.step Hw.spareTested_touches

theorem Hw.wipeRequest_touches {h : Hw} {cause : Nat} {tev : Nat} : Touches [.regs, .pwr, .memu] h (Hw.wipeRequest h cause tev) := by
  unfold Hw.wipeRequest
  extract_lets +onlyGivenNames v1
  extract_lets +onlyGivenNames h2
  refine Touches.cut (x := h2) ?_ fun th2 => ?_
  · subst h2
    exact Touches.refl.step set_pwr_touches
  clear_value h2
  split
  · refine Touches.ite ?_ ?_
    · extract_lets +onlyGivenNames h6
      refine Touches.cut (x := h6) ?_ fun th6 => ?_
      · subst h6
        exact th2.step Hw.sf_touches
      clear_value h6
      refine Touches.ite ?_ ?_
      · exact th6.step Hw.sf_touches
      · exact th6
    · exact th2
  · exact th2.step set_memu_touches

theorem Hw.zeroThimble_touches {h : Hw} : Touches [.mem, .ecc] h (Hw.zeroThimble h) := by
  unfold Hw.zeroThimble
  exact (Touches.refl.step Hw.fillUnit_touches).step Hw.fillUnit_touches

theorem Hw.slackWipe_touches {h : Hw} {cause : Nat} {tev : Nat} : Touches [.regs, .mem, .ecc, .pwr, .memu] h (Hw.slackWipe h cause tev) := by
  unfold Hw.slackWipe
  extract_lets +onlyGivenNames h1
  refine Touches.cut (x := h1) ?_ fun th1 => ?_
  · subst h1
    exact Touches.refl.step Hw.wipeRequest_touches
  clear_value h1
  extract_lets +onlyGivenNames v2
  extract_lets +onlyGivenNames h3
  refine Touches.cut (x := h3) ?_ fun th3 => ?_
  · subst h3
    exact th1.step set_pwr_touches
  clear_value h3
  exact ((th3.step Hw.zeroThimble_touches).step Hw.setUnit_touches).step Hw.setUnit_touches

theorem Hw.wipeStart_touches {h : Hw} : Touches [.regs, .mem, .ecc, .memu] h (Hw.wipeStart h) := by
  unfold Hw.wipeStart
  split
  · exact Touches.refl
  · refine Touches.ite ?_ ?_
    · exact Touches.refl
    · extract_lets +onlyGivenNames v6
      extract_lets +onlyGivenNames h7
      refine Touches.cut (x := h7) ?_ fun th7 => ?_
      · subst h7
        exact Touches.refl.step set_memu_touches
      clear_value h7
      extract_lets +onlyGivenNames h8
      refine Touches.cut (x := h8) ?_ fun th8 => ?_
      · subst h8
        exact (th7.step Hw.sf_touches).step Hw.sf_touches
      clear_value h8
      extract_lets +onlyGivenNames h9
      refine Touches.cut (x := h9) ?_ fun th9 => ?_
      · subst h9
        exact th8.step Hw.sf_touches
      clear_value h9
      extract_lets +onlyGivenNames h10
      refine Touches.cut (x := h10) ?_ fun th10 => ?_
      · subst h10
        refine Touches.ite ?_ ?_
        · exact th9.step Hw.sf_touches
        · exact th9
      clear_value h10
      exact th10.step Hw.zeroThimble_touches

theorem Hw.wipeFinish_touches {h : Hw} : Touches [.regs, .kept, .pwr, .memu, .pkey] h (Hw.wipeFinish h) := by
  unfold Hw.wipeFinish
  extract_lets +onlyGivenNames v1 v2 v3
  extract_lets +onlyGivenNames h4
  refine Touches.cut (x := h4) ?_ fun th4 => ?_
  · subst h4
    exact Touches.refl.step set_pwr_memu_touches
  clear_value h4
  extract_lets +onlyGivenNames h5
  refine Touches.cut (x := h5) ?_ fun th5 => ?_
  · subst h5
    exact ((th4.step Hw.sf_touches).step Hw.sf_touches).step Hw.bump_touches
  clear_value h5
  extract_lets +onlyGivenNames h6
  refine Touches.cut (x := h6) ?_ fun th6 => ?_
  · subst h6
    exact th5.step Hw.sf_touches
  clear_value h6
  extract_lets +onlyGivenNames v7
  extract_lets +onlyGivenNames h8
  refine Touches.cut (x := h8) ?_ fun th8 => ?_
  · subst h8
    exact th6.step set_pkey_touches
  clear_value h8
  extract_lets +onlyGivenNames h9
  refine Touches.cut (x := h9) ?_ fun th9 => ?_
  · subst h9
    refine Touches.ite ?_ ?_
    · exact th8.step Hw.sf_touches
    · exact th8
  clear_value h9
  refine Touches.ite ?_ ?_
  · extract_lets +onlyGivenNames h10
    refine Touches.cut (x := h10) ?_ fun th10 => ?_
    · subst h10
      exact th9.step Hw.sf_touches
    clear_value h10
    exact th10.step set_kept_touches
  · exact th9

theorem Hw.wipeFail_touches {h : Hw} : Touches [.regs, .pwr, .elogQ, .memu] h (Hw.wipeFail h) := by
  unfold Hw.wipeFail
  extract_lets +onlyGivenNames v1 v2 v3
  extract_lets +onlyGivenNames h4
  refine Touches.cut (x := h4) ?_ fun th4 => ?_
  · subst h4
    exact Touches.refl.step set_pwr_memu_touches
  clear_value h4
  extract_lets +onlyGivenNames h5
  refine Touches.cut (x := h5) ?_ fun th5 => ?_
  · subst h5
    exact ((th4.step Hw.sf_touches).step Hw.setUnit_touches).step Hw.setUnit_touches
  clear_value h5
  exact (th5.step Hw.sf_touches).step Hw.report_touches

theorem Hw.wipeWhole_touches {h : Hw} {bad : Nat} : Touches [.regs, .mem, .ecc, .kept, .pwr, .elogQ, .memu, .pkey] h (Hw.wipeWhole h bad) := by
  unfold Hw.wipeWhole
  extract_lets +onlyGivenNames v1 v2
  extract_lets +onlyGivenNames h3
  refine Touches.cut (x := h3) ?_ fun th3 => ?_
  · subst h3
    exact (Touches.refl.step set_memu_touches).step Hw.wipeStart_touches
  clear_value h3
  refine Touches.ite ?_ ?_
  · exact th3.step Hw.wipeFail_touches
  · exact th3.step Hw.wipeFinish_touches

theorem Hw.wipeVerified_touches {h : Hw} {ok : Bool} : Touches [.regs, .mem, .ecc, .kept, .pwr, .elogQ, .memu, .pkey] h (Hw.wipeVerified h ok).2 := by
  unfold Hw.wipeVerified
  split
  · exact Touches.pair (Touches.refl)
  · refine Touches.ite2 ?_ ?_
    · exact Touches.pair (Touches.refl)
    · refine Touches.ite2 ?_ ?_
      · extract_lets +onlyGivenNames v6
        extract_lets +onlyGivenNames h7
        refine Touches.cut (x := h7) ?_ fun th7 => ?_
        · subst h7
          exact Touches.refl.step Hw.wipeFinish_touches
        clear_value h7
        exact Touches.pair (th7.step set_memu_touches)
      · refine Touches.ite2 ?_ ?_
        · exact Touches.pair ((Touches.refl.step set_memu_touches).step Hw.zeroThimble_touches)
        · exact Touches.pair (Touches.refl.step Hw.wipeFail_touches)

theorem Hw.showLifecycle_touches {h : Hw} : Touches [.regs] h (Hw.showLifecycle h) := by
  unfold Hw.showLifecycle
  exact ((Touches.refl.step Hw.sf_touches).step Hw.sf_touches).step Hw.sf_touches

theorem Hw.storeKeys_touches {h : Hw} {k : Nat} {b1 : List (List Nat)} : Touches [.mem, .ecc] h (Hw.storeKeys h k b1) := by
  induction b1 generalizing h k with
  | nil =>
    unfold Hw.storeKeys
    exact Touches.refl
  | cons y ys ih =>
    unfold Hw.storeKeys
    exact ((Touches.refl.step Hw.storeBytes_touches).step Hw.eccClear_touches).step ih

theorem Hw.loadKeys_touches {h : Hw} : Touches [.regs, .mem, .ecc] h (Hw.loadKeys h) := by
  unfold Hw.loadKeys
  generalize upTo 512 = ns512
  extract_lets +onlyGivenNames v1 v2
  exact ((Touches.refl.step Hw.storeKeys_touches).step Hw.sf_touches).step Hw.sf_touches

theorem Hw.keyLoad_touches {h : Hw} : Touches [.regs, .mem, .ecc] h (Hw.keyLoad h) := by
  unfold Hw.keyLoad
  refine Touches.ite ?_ ?_
  · exact Touches.refl.step Hw.loadKeys_touches
  · exact Touches.refl

theorem Hw.tamperUnlock_touches {h : Hw} : Touches [.regs, .kept] h (Hw.tamperUnlock h) := by
  unfold Hw.tamperUnlock
  extract_lets +onlyGivenNames h1
  refine Touches.cut (x := h1) ?_ fun th1 => ?_
  · subst h1
    exact Touches.refl.step Hw.sf_touches
  clear_value h1
  exact th1.step set_kept_touches

theorem Hw.thimbleCmd_touches {h : Hw} {v : Nat} {fleet : Bool} : Touches [.regs, .mem, .ecc, .kept, .pwr, .memu] h (Hw.thimbleCmd h v fleet) := by
  unfold Hw.thimbleCmd
  extract_lets +onlyGivenNames h1
  refine Touches.cut (x := h1) ?_ fun th1 => ?_
  · subst h1
    exact Touches.refl.step Hw.sf_touches
  clear_value h1
  extract_lets +onlyGivenNames h2
  refine Touches.cut (x := h2) ?_ fun th2 => ?_
  · subst h2
    refine Touches.ite ?_ ?_
    · exact th1.step Hw.tamperUnlock_touches
    · exact th1
  clear_value h2
  extract_lets +onlyGivenNames h3
  refine Touches.cut (x := h3) ?_ fun th3 => ?_
  · subst h3
    refine Touches.ite ?_ ?_
    · exact th2.step Hw.wipeRequest_touches
    · exact th2
  clear_value h3
  refine Touches.ite ?_ ?_
  · exact th3.step Hw.keyLoad_touches
  · exact th3

theorem Hw.lcRequest_touches {h : Hw} {v : Nat} {role : Nat} {lyd : Bool} : Touches [.regs, .pwr, .elogQ, .memu] h (Hw.lcRequest h v role lyd).2 := by
  unfold Hw.lcRequest
  extract_lets +onlyGivenNames v1
  refine Touches.ite2 ?_ ?_
  · extract_lets +onlyGivenNames v2
    extract_lets +onlyGivenNames h3
    refine Touches.cut (x := h3) ?_ fun th3 => ?_
    · subst h3
      exact Touches.refl.step set_memu_touches
    clear_value h3
    exact Touches.pair ((th3.step Hw.report_touches).step Hw.wipeRequest_touches)
  · exact Touches.pair (Touches.refl)

theorem Hw.setCanary_touches {h : Hw} {u : Nat} {b : Nat} {v : Nat} : Touches [.memu] h (Hw.setCanary h u b v) := by
  unfold Hw.setCanary
  exact Touches.refl.step set_memu_touches

theorem Hw.canaries_touches {h : Hw} {u : Nat} : Touches [.memu] h (Hw.canaries h u) := by
  unfold Hw.canaries
  refine Touches.forEach ?_ fun x1 h2 th2 => ?_
  · exact Touches.refl
  · exact th2.step Hw.setCanary_touches

theorem Hw.retentionCheck_touches {h : Hw} {u : Nat} : Touches [.regs, .mem, .ecc, .pwr, .elogQ, .memu] h (Hw.retentionCheck h u) := by
  unfold Hw.retentionCheck
  split
  · exact Touches.refl.step Hw.setUnit_touches
  · extract_lets +onlyGivenNames v5
    extract_lets +onlyGivenNames h6
    refine Touches.cut (x := h6) ?_ fun th6 => ?_
    · subst h6
      exact Touches.refl.step Hw.sf_touches
    clear_value h6
    extract_lets +onlyGivenNames h7
    refine Touches.cut (x := h7) ?_ fun th7 => ?_
    · subst h7
      refine Touches.forEach ?_ fun x8 h9 th9 => ?_
      · exact th6
      · exact th9.step Hw.report_touches
    clear_value h7
    extract_lets +onlyGivenNames h10
    refine Touches.cut (x := h10) ?_ fun th10 => ?_
    · subst h10
      refine Touches.ite ?_ ?_
      · exact (th7.step Hw.wipeRequest_touches).step Hw.wipeStart_touches
      · exact th7
    clear_value h10
    exact (th10.step Hw.fillUnit_touches).step Hw.setUnit_touches

end Sys2Proof.Machine
end

