-- ==== Sys2Proof/Laws/TouchKernelSlots.lean ====
section
/-! SUPPORT. What each operation of Machine/KernelSlots.lean touches of the part: the components outside the list stay as they were. -/

set_option Elab.async false

namespace Sys2Proof.Machine

theorem Hw.slotRangeWrite_touches {h : Hw} {n : Nat} {v : Nat} : Touches [.regs] h (Hw.slotRangeWrite h n v) := by
  unfold Hw.slotRangeWrite
  refine Touches.ite ?_ ?_
  · exact Touches.refl.step Hw.sf_touches
  · exact Touches.refl.step Hw.writeFields_touches

theorem Hw.slotCfgWrite_touches {h : Hw} {n : Nat} {v : Nat} : Touches [.regs] h (Hw.slotCfgWrite h n v) := by
  unfold Hw.slotCfgWrite
  extract_lets +onlyGivenNames v1
  extract_lets +onlyGivenNames f2
  subst f2
  split
  · refine Touches.ite ?_ ?_
    · extract_lets +onlyGivenNames h7
      refine Touches.cut (x := h7) ?_ fun th7 => ?_
      · subst h7
        refine Touches.ite ?_ ?_
        · exact Touches.refl.step Hw.sf_touches
        · exact Touches.refl
      clear_value h7
      extract_lets +onlyGivenNames h8
      refine Touches.cut (x := h8) ?_ fun th8 => ?_
      · subst h8
        refine Touches.ite ?_ ?_
        · exact th7.step Hw.sf_touches
        · exact th7
      clear_value h8
      refine Touches.ite ?_ ?_
      · exact th8
      · refine Touches.ite ?_ ?_
        · exact th8.step Hw.sf_touches
        · exact th8.step Hw.sf_touches
    · refine Touches.ite ?_ ?_
      · refine Touches.ite ?_ ?_
        · exact Touches.refl.step Hw.sf_touches
        · refine Touches.step ?_ Hw.sf_touches
          refine Touches.step ?_ Hw.sf_touches
          refine Touches.ite ?_ ?_
          · exact Touches.refl.step Hw.sf_touches
          · exact Touches.refl
      · refine Touches.step ?_ Hw.sf_touches
        refine Touches.ite ?_ ?_
        · exact Touches.refl.step Hw.sf_touches
        · exact Touches.refl

theorem Hw.setImage_touches {h : Hw} {n : Nat} {img : List Nat} : Touches [.fw] h (Hw.setImage h n img) := by
  unfold Hw.setImage
  exact Touches.refl.step set_fw_touches

theorem Hw.kloadPut_touches {h : Hw} {img : List Nat} : Touches [.regs, .mem, .ecc] h (Hw.kloadPut h img) := by
  unfold Hw.kloadPut
  extract_lets +onlyGivenNames v1 v2 v3 v4
  extract_lets +onlyGivenNames h5
  refine Touches.cut (x := h5) ?_ fun th5 => ?_
  · subst h5
    exact Touches.refl.step Hw.sf_touches
  clear_value h5
  extract_lets +onlyGivenNames h6
  refine Touches.cut (x := h6) ?_ fun th6 => ?_
  · subst h6
    exact (th5.step Hw.storeBytes_touches).step Hw.eccClear_touches
  clear_value h6
  extract_lets +onlyGivenNames h7
  refine Touches.cut (x := h7) ?_ fun th7 => ?_
  · subst h7
    exact (th6.step Hw.sf_touches).step Hw.sf_touches
  clear_value h7
  exact (th7.step Hw.sf_touches).step Hw.sf_touches

end Sys2Proof.Machine
end

