-- ==== Sys2Proof/Laws/TouchJournal.lean ====
section
/-! SUPPORT. What each operation of Machine/Journal.lean touches of the part: the components outside the list stay as they were. -/

set_option Elab.async false

namespace Sys2Proof.Machine

theorem Hw.journalScan_touches {h : Hw} : Touches [.mem, .ecc, .fw] h (Hw.journalScan h) := by
  unfold Hw.journalScan
  split
  · split
    · extract_lets +onlyGivenNames v9
      exact Touches.refl.step set_fw_touches
  · extract_lets +onlyGivenNames h12
    refine Touches.cut (x := h12) ?_ fun th12 => ?_
    · subst h12
      exact Touches.refl.step Hw.mramSet_touches
    clear_value h12
    exact th12.step set_fw_touches

theorem Hw.copyRecords_touches {h : Hw} {g : Nat} {a : Nat} {b1 : List JRec} : Touches [.mem, .ecc] h (Hw.copyRecords h g a b1).2 := by
  induction b1 generalizing h g a with
  | nil =>
    unfold Hw.copyRecords
    exact Touches.pair (Touches.refl)
  | cons y ys ih =>
    unfold Hw.copyRecords
    extract_lets +onlyGivenNames v1
    exact (Touches.refl.step Hw.mramSet_touches).step ih

theorem Hw.compact_touches {h : Hw} : Touches [.mem, .ecc, .fw] h (Hw.compact h) := by
  unfold Hw.compact
  extract_lets +onlyGivenNames v1 v2 v3 v4
  extract_lets +onlyGivenNames h5
  refine Touches.cut (x := h5) ?_ fun th5 => ?_
  · subst h5
    exact Touches.refl.step Hw.mramSet_touches
  clear_value h5
  split
  · rename_i a6 a7 h8 e9
    refine Touches.cut (x := h8) (Touches.snd ?_ e9) fun th8 => ?_
    · exact th5.step Hw.copyRecords_touches
    extract_lets +onlyGivenNames h10
    refine Touches.cut (x := h10) ?_ fun th10 => ?_
    · subst h10
      exact th8.step Hw.mramSet_touches
    clear_value h10
    exact th10.step set_fw_touches

theorem Hw.compactDue_touches {h : Hw} : Touches [.mem, .ecc, .fw] h (Hw.compactDue h) := by
  unfold Hw.compactDue
  refine Touches.ite ?_ ?_
  · exact Touches.refl.step Hw.compact_touches
  · exact Touches.refl

theorem Hw.appendKind_touches {h : Hw} {idx : Nat} {sub : Nat} {kind : Nat} {value : List Nat} : Touches [.mem, .ecc, .fw] h (Hw.appendKind h idx sub kind value) := by
  unfold Hw.appendKind
  extract_lets +onlyGivenNames v1 v2 v3
  extract_lets +onlyGivenNames h4
  refine Touches.cut (x := h4) ?_ fun th4 => ?_
  · subst h4
    exact Touches.refl.step Hw.mramSet_touches
  clear_value h4
  exact th4.step set_fw_touches

theorem Hw.append_touches {h : Hw} {idx : Nat} {sub : Nat} {value : List Nat} : Touches [.mem, .ecc, .fw] h (Hw.append h idx sub value) := by
  unfold Hw.append
  exact Touches.refl.step Hw.appendKind_touches

theorem Hw.journalWrite_touches {h : Hw} {idx : Nat} {sub : Nat} {value : List Nat} : Touches [.mem, .ecc, .fw] h (Hw.journalWrite h idx sub value).2 := by
  unfold Hw.journalWrite
  refine Touches.ite2 ?_ ?_
  · exact Touches.pair (Touches.refl)
  · refine Touches.ite2 ?_ ?_
    · exact Touches.pair (Touches.refl.step Hw.append_touches)
    · refine Touches.ite2 ?_ ?_
      · exact Touches.pair ((Touches.refl.step Hw.compact_touches).step Hw.append_touches)
      · exact Touches.pair (Touches.refl)

theorem Hw.journalDelete_touches {h : Hw} {idx : Nat} {sub : Nat} : Touches [.mem, .ecc, .fw] h (Hw.journalDelete h idx sub).2 := by
  unfold Hw.journalDelete
  refine Touches.ite2 ?_ ?_
  · exact Touches.pair (Touches.refl.step Hw.appendKind_touches)
  · refine Touches.ite2 ?_ ?_
    · exact Touches.pair ((Touches.refl.step Hw.compact_touches).step Hw.appendKind_touches)
    · exact Touches.pair (Touches.refl)

theorem Hw.programWait_touches {h : Hw} : Touches [.regs, .resp] h (Hw.programWait h).2 := by
  unfold Hw.programWait
  exact Touches.pair (Touches.refl.step Hw.stallResp_touches)

theorem Hw.kernelRefused_touches {h : Hw} {code : Nat} : Touches [.fw] h (Hw.kernelRefused h code).2 := by
  unfold Hw.kernelRefused
  exact Touches.pair (Touches.refl.step Hw.setObj_touches)

theorem Hw.kload_touches {h : Hw} {img : List Nat} : Touches [.regs, .mem, .ecc, .resp, .fw] h (Hw.kload h img).2 := by
  unfold Hw.kload
  extract_lets +onlyGivenNames v1 v2
  refine Touches.ite2 ?_ ?_
  · exact Touches.refl.step Hw.programWait_touches
  · refine Touches.ite2 ?_ ?_
    · exact Touches.refl.step Hw.kernelRefused_touches
    · split
      · rename_i a3 a4 h5 e6
        refine Touches.cut (x := h5) (Touches.snd ?_ e6) fun th5 => ?_
        · exact Touches.refl.step Hw.journalWrite_touches
        exact Touches.pair (th5)
      · rename_i a7 h8 e9
        refine Touches.cut (x := h8) (Touches.snd ?_ e9) fun th8 => ?_
        · exact Touches.refl.step Hw.journalWrite_touches
        exact Touches.pair (((th8.step Hw.kloadPut_touches).step Hw.setImage_touches).step Hw.setObj_touches)

theorem Hw.kunload_touches {h : Hw} {n : Nat} : Touches [.regs, .mem, .ecc, .resp, .fw] h (Hw.kunload h n).2 := by
  unfold Hw.kunload
  refine Touches.ite2 ?_ ?_
  · exact Touches.refl.step Hw.programWait_touches
  · refine Touches.ite2 ?_ ?_
    · exact Touches.refl.step Hw.kernelRefused_touches
    · refine Touches.ite2 ?_ ?_
      · exact Touches.refl.step Hw.kernelRefused_touches
      · split
        · rename_i a1 a2 h3 e4
          refine Touches.cut (x := h3) (Touches.snd ?_ e4) fun th3 => ?_
          · exact Touches.refl.step Hw.journalDelete_touches
          exact Touches.pair (th3)
        · rename_i a5 h6 e7
          refine Touches.cut (x := h6) (Touches.snd ?_ e7) fun th6 => ?_
          · exact Touches.refl.step Hw.journalDelete_touches
          exact Touches.pair (((th6.step Hw.sf_touches).step Hw.setImage_touches).step Hw.setObj_touches)

end Sys2Proof.Machine
end

