-- ==== Sys2Proof/Laws/TouchRtc.lean ====
section
/-! SUPPORT. What each operation of Machine/Rtc.lean touches of the part: the components outside the list stay as they were. -/

set_option Elab.async false

namespace Sys2Proof.Machine

theorem Hw.almFire_touches {h : Hw} : Touches [.regs] h (Hw.almFire h) := by
  unfold Hw.almFire
  refine Touches.ite ?_ ?_
  · exact Touches.refl
  · exact ((Touches.refl.step Hw.sf_touches).step Hw.sf_touches).step Hw.flagSource_touches

theorem Hw.almEnter_touches {h : Hw} {s : Nat} : Touches [.regs] h (Hw.almEnter h s) := by
  unfold Hw.almEnter
  refine Touches.ite ?_ ?_
  · exact Touches.refl.step Hw.almFire_touches
  · exact Touches.refl

theorem Hw.setTime_touches {h : Hw} {s : Nat} {p : Nat} : Touches [.rtc] h (Hw.setTime h s p) := by
  unfold Hw.setTime
  exact Touches.refl.step set_rtc_touches

theorem Hw.rtcStep_touches {h : Hw} {s : Nat} {p : Nat} {fwd : Bool} : Touches [.regs, .rtc] h (Hw.rtcStep h s p fwd) := by
  unfold Hw.rtcStep
  extract_lets +onlyGivenNames v1 v2
  extract_lets +onlyGivenNames h3
  refine Touches.cut (x := h3) ?_ fun th3 => ?_
  · subst h3
    exact (Touches.refl.step Hw.setTime_touches).step Hw.sf_touches
  clear_value h3
  extract_lets +onlyGivenNames h4
  refine Touches.cut (x := h4) ?_ fun th4 => ?_
  · subst h4
    refine Touches.ite ?_ ?_
    · exact (th3.step Hw.almFire_touches).step Hw.sf_touches
    · exact th3
  clear_value h4
  extract_lets +onlyGivenNames h5
  refine Touches.cut (x := h5) ?_ fun th5 => ?_
  · subst h5
    refine Touches.ite ?_ ?_
    · exact th4.step Hw.almEnter_touches
    · exact th4
  clear_value h5
  exact th5.step set_rtc_touches

theorem Hw.rtcCommit_touches {h : Hw} : Touches [.regs, .rtc] h (Hw.rtcCommit h) := by
  unfold Hw.rtcCommit
  split
  · exact Touches.refl.step Hw.sf_touches
  · extract_lets +onlyGivenNames h6
    refine Touches.cut (x := h6) ?_ fun th6 => ?_
    · subst h6
      exact Touches.refl.step Hw.sf_touches
    clear_value h6
    refine Touches.ite ?_ ?_
    · exact th6
    · exact th6.step Hw.rtcStep_touches

theorem Hw.rtcCapture_touches {h : Hw} : Touches [.regs] h (Hw.rtcCapture h) := by
  unfold Hw.rtcCapture
  exact (Touches.refl.step Hw.setReg_touches).step Hw.setReg_touches

theorem Hw.rtcAdj_touches {h : Hw} {v : Nat} : Touches [.regs, .rtc] h (Hw.rtcAdj h v) := by
  unfold Hw.rtcAdj
  extract_lets +onlyGivenNames v1
  refine Touches.ite ?_ ?_
  · exact Touches.refl
  · extract_lets +onlyGivenNames v2 v3
    extract_lets +onlyGivenNames h4
    refine Touches.cut (x := h4) ?_ fun th4 => ?_
    · subst h4
      refine Touches.ite ?_ ?_
      · exact Touches.refl.step Hw.sf_touches
      · exact Touches.refl
    clear_value h4
    extract_lets +onlyGivenNames v5
    exact th4.step Hw.rtcStep_touches

theorem Hw.rtcCmd_touches {h : Hw} {v : Nat} : Touches [.regs, .rtc] h (Hw.rtcCmd h v) := by
  unfold Hw.rtcCmd
  extract_lets +onlyGivenNames h1
  refine Touches.cut (x := h1) ?_ fun th1 => ?_
  · subst h1
    refine Touches.ite ?_ ?_
    · exact Touches.refl.step Hw.rtcCapture_touches
    · exact Touches.refl
  clear_value h1
  refine Touches.ite ?_ ?_
  · exact th1.step Hw.rtcCommit_touches
  · exact th1

theorem Hw.anextRecompute_touches {h : Hw} : Touches [.regs, .rtc] h (Hw.anextRecompute h) := by
  unfold Hw.anextRecompute
  extract_lets +onlyGivenNames v1
  extract_lets +onlyGivenNames h2
  refine Touches.cut (x := h2) ?_ fun th2 => ?_
  · subst h2
    exact Touches.refl.step set_rtc_touches
  clear_value h2
  split
  · exact ((th2.step Hw.sf_touches).step Hw.sf_touches).step Hw.sf_touches
  · exact ((th2.step Hw.sf_touches).step Hw.sf_touches).step Hw.sf_touches

theorem Hw.secAdvance_touches {h : Hw} {m : Nat} : Touches [.rtc] h (Hw.secAdvance h m) := by
  unfold Hw.secAdvance
  exact Touches.refl.step set_rtc_touches

theorem Hw.wrapWhen_touches {h : Hw} {c : Bool} : Touches [.regs] h (Hw.wrapWhen h c) := by
  unfold Hw.wrapWhen
  refine Touches.ite ?_ ?_
  · exact Touches.refl.step Hw.sf_touches
  · exact Touches.refl

theorem Hw.fireWhen_touches {h : Hw} {c : Bool} : Touches [.regs] h (Hw.fireWhen h c) := by
  unfold Hw.fireWhen
  refine Touches.ite ?_ ?_
  · exact Touches.refl.step Hw.almFire_touches
  · exact Touches.refl

theorem Hw.syncCapture_touches {h : Hw} : Touches [.regs, .free] h (Hw.syncCapture h) := by
  unfold Hw.syncCapture
  refine Touches.ite ?_ ?_
  · split
    · rename_i a1 a2 h3 e4
      refine Touches.cut (x := h3) (Touches.snd ?_ e4) fun th3 => ?_
      · exact Touches.refl.step Hw.fresh_touches
      exact (th3.step Hw.sf_touches).step Hw.sf_touches
  · exact Touches.refl

theorem Hw.passSeconds_touches {h : Hw} {m : Nat} : Touches [.regs, .free, .rtc] h (Hw.passSeconds h m) := by
  unfold Hw.passSeconds
  refine Touches.ite ?_ ?_
  · exact Touches.refl
  · exact (((Touches.refl.step Hw.secAdvance_touches).step Hw.wrapWhen_touches).step Hw.fireWhen_touches).step Hw.syncCapture_touches

theorem Hw.rtcAlarm_touches {h : Hw} {a : Nat} {v : Nat} : Touches [.regs, .rtc] h (Hw.rtcAlarm h a v) := by
  unfold Hw.rtcAlarm
  extract_lets +onlyGivenNames h1
  refine Touches.cut (x := h1) ?_ fun th1 => ?_
  · subst h1
    exact Touches.refl.step Hw.writeFields_touches
  clear_value h1
  exact th1.step set_rtc_touches

theorem Hw.rtcActl_touches {h : Hw} {v : Nat} : Touches [.regs, .rtc] h (Hw.rtcActl h v) := by
  unfold Hw.rtcActl
  exact (Touches.refl.step Hw.rtcAlarm_touches).step Hw.sf_touches

theorem Hw.rtcHalt_touches {h : Hw} : Touches [.regs] h (Hw.rtcHalt h) := by
  unfold Hw.rtcHalt
  refine Touches.ite ?_ ?_
  · exact (Touches.refl.step Hw.sf_touches).step Hw.sf_touches
  · exact Touches.refl

theorem Hw.rtcLoad_touches {h : Hw} {e : Nat} : Touches [.regs, .rtc] h (Hw.rtcLoad h e) := by
  unfold Hw.rtcLoad
  extract_lets +onlyGivenNames h1
  refine Touches.cut (x := h1) ?_ fun th1 => ?_
  · subst h1
    exact (Touches.refl.step Hw.sf_touches).step Hw.sf_touches
  clear_value h1
  exact th1.step set_rtc_touches

theorem Hw.rtcCdctl_touches {h : Hw} {v : Nat} : Touches [.regs, .rtc] h (Hw.rtcCdctl h v) := by
  unfold Hw.rtcCdctl
  extract_lets +onlyGivenNames h1
  refine Touches.cut (x := h1) ?_ fun th1 => ?_
  · subst h1
    exact Touches.refl.step Hw.writeFields_touches
  clear_value h1
  extract_lets +onlyGivenNames h2
  refine Touches.cut (x := h2) ?_ fun th2 => ?_
  · subst h2
    refine Touches.ite ?_ ?_
    · exact th1.step Hw.rtcHalt_touches
    · exact th1
  clear_value h2
  refine Touches.ite ?_ ?_
  · exact th2
  · refine Touches.ite ?_ ?_
    · exact th2.step Hw.sf_touches
    · exact th2.step Hw.rtcLoad_touches

theorem Hw.rtcExpiry_touches {h : Hw} : Touches [.regs, .rtc] h (Hw.rtcExpiry h) := by
  unfold Hw.rtcExpiry
  extract_lets +onlyGivenNames h1
  refine Touches.cut (x := h1) ?_ fun th1 => ?_
  · subst h1
    exact (Touches.refl.step Hw.sf_touches).step Hw.flagSource_touches
  clear_value h1
  refine Touches.ite ?_ ?_
  · exact (th1.step Hw.sf_touches).step Hw.sf_touches
  · refine Touches.ite ?_ ?_
    · exact ((th1.step Hw.sf_touches).step Hw.sf_touches).step Hw.sf_touches
    · exact th1.step Hw.rtcLoad_touches

theorem Hw.setSched_touches {h : Hw} {w : WakeSched} : Touches [.sched] h (Hw.setSched h w) := by
  unfold Hw.setSched
  exact Touches.refl.step set_sched_touches

theorem Hw.planExpiry_touches {h : Hw} : Touches [.sched] h (Hw.planExpiry h) := by
  unfold Hw.planExpiry
  extract_lets +onlyGivenNames v1
  refine Touches.ite ?_ ?_
  · exact Touches.refl
  · exact Touches.refl.step Hw.setSched_touches

theorem Hw.countdownStep_touches {h : Hw} : Touches [.regs, .sched, .rtc] h (Hw.countdownStep h) := by
  unfold Hw.countdownStep
  refine Touches.ite ?_ ?_
  · exact (Touches.refl.step Hw.rtcExpiry_touches).step Hw.planExpiry_touches
  · exact Touches.refl

theorem Hw.slowRun_touches {h : Hw} {n : Nat} : Touches [.regs, .free, .sched, .rtc] h (Hw.slowRun h n) := by
  unfold Hw.slowRun
  extract_lets +onlyGivenNames h1
  refine Touches.cut (x := h1) ?_ fun th1 => ?_
  · subst h1
    refine Touches.ite ?_ ?_
    · exact Touches.refl.step Hw.anextRecompute_touches
    · exact Touches.refl
  clear_value h1
  extract_lets +onlyGivenNames v2 v3
  extract_lets +onlyGivenNames h4
  refine Touches.cut (x := h4) ?_ fun th4 => ?_
  · subst h4
    exact th1.step set_rtc_touches
  clear_value h4
  exact (th4.step Hw.passSeconds_touches).step Hw.countdownStep_touches

theorem Hw.rtcSecond_touches {h : Hw} : Touches [.regs, .free, .sched, .rtc] h (Hw.rtcSecond h) := by
  unfold Hw.rtcSecond
  exact Touches.refl.step Hw.slowRun_touches

theorem Hw.countdownExpiry_touches {h : Hw} : Touches [.regs, .free, .sched, .rtc] h (Hw.countdownExpiry h) := by
  unfold Hw.countdownExpiry
  refine Touches.ite ?_ ?_
  · exact Touches.refl.step Hw.slowRun_touches
  · exact Touches.refl

theorem Hw.oscStopped_touches {h : Hw} : Touches [.regs, .rtc] h (Hw.oscStopped h) := by
  unfold Hw.oscStopped
  exact (Touches.refl.step Hw.setTime_touches).step Hw.sf_touches

theorem Hw.setEvQueue_touches {h : Hw} {n : Nat} {q : List EvStamp} : Touches [.rtc] h (Hw.setEvQueue h n q) := by
  unfold Hw.setEvQueue
  exact Touches.refl.step set_rtc_touches

theorem Hw.tamperEvent_touches {h : Hw} {n : Nat} : Touches [.regs, .mem, .elogQ, .rtc] h (Hw.tamperEvent h n) := by
  unfold Hw.tamperEvent
  extract_lets +onlyGivenNames h1
  refine Touches.cut (x := h1) ?_ fun th1 => ?_
  · subst h1
    exact ((Touches.refl.step Hw.sf_touches).step Hw.sf_touches).step Hw.bump_touches
  clear_value h1
  extract_lets +onlyGivenNames v2
  extract_lets +onlyGivenNames h3
  refine Touches.cut (x := h3) ?_ fun th3 => ?_
  · subst h3
    refine Touches.ite ?_ ?_
    · exact th1.step Hw.report_touches
    · exact th1.step set_rtc_touches
  clear_value h3
  refine Touches.ite ?_ ?_
  · exact th3.step Hw.zero_touches
  · exact th3

theorem Hw.eventAt_touches {h : Hw} {n : Nat} {active : Bool} : Touches [.regs, .mem, .elogQ, .rtc] h (Hw.eventAt h n active) := by
  unfold Hw.eventAt
  refine Touches.ite ?_ ?_
  · exact Touches.refl
  · extract_lets +onlyGivenNames h1
    refine Touches.cut (x := h1) ?_ fun th1 => ?_
    · subst h1
      exact Touches.refl.step Hw.sf_touches
    clear_value h1
    refine Touches.ite ?_ ?_
    · exact th1
    · extract_lets +onlyGivenNames v2 v3
      extract_lets +onlyGivenNames h4
      refine Touches.cut (x := h4) ?_ fun th4 => ?_
      · subst h4
        refine Touches.ite ?_ ?_
        · exact th1.step Hw.setEvQueue_touches
        · exact th1.step Hw.bump_touches
      clear_value h4
      extract_lets +onlyGivenNames h5
      refine Touches.cut (x := h5) ?_ fun th5 => ?_
      · subst h5
        exact th4.step Hw.flagSource_touches
      clear_value h5
      refine Touches.ite ?_ ?_
      · exact th5.step Hw.tamperEvent_touches
      · exact th5

theorem Hw.eventQualified_touches {h : Hw} {n : Nat} {active : Bool} {pre : Nat} : Touches [.regs, .mem, .free, .elogQ, .sched, .rtc] h (Hw.eventQualified h n active pre) := by
  unfold Hw.eventQualified
  refine Touches.ite ?_ ?_
  · exact Touches.refl
  · exact (Touches.refl.step Hw.slowRun_touches).step Hw.eventAt_touches

theorem Hw.logTampers_touches {h : Hw} : Touches [.regs, .elogQ, .rtc] h (Hw.logTampers h) := by
  unfold Hw.logTampers
  extract_lets +onlyGivenNames v1
  extract_lets +onlyGivenNames h2
  refine Touches.cut (x := h2) ?_ fun th2 => ?_
  · subst h2
    refine Touches.forEach ?_ fun x3 h4 th4 => ?_
    · exact Touches.refl
    · exact th4.step Hw.report_touches
  clear_value h2
  exact th2.step set_rtc_touches

theorem Hw.evPop_touches {h : Hw} {n : Nat} {v : Nat} : Touches [.rtc] h (Hw.evPop h n v) := by
  unfold Hw.evPop
  refine Touches.ite ?_ ?_
  · exact Touches.refl.step Hw.setEvQueue_touches
  · exact Touches.refl

theorem Hw.evCfg_touches {h : Hw} {n : Nat} {v : Nat} : Touches [.regs] h (Hw.evCfg h n v) := by
  unfold Hw.evCfg
  extract_lets +onlyGivenNames h1
  refine Touches.cut (x := h1) ?_ fun th1 => ?_
  · subst h1
    exact Touches.refl.step Hw.writeFields_touches
  clear_value h1
  refine Touches.ite ?_ ?_
  · exact th1
  · exact th1.step Hw.sf_touches

theorem Hw.backupApply_touches {h : Hw} {a : Nat} {n : Nat} {v : Nat} : Touches [.regs, .mem, .rtc] h (Hw.backupApply h a n v) := by
  unfold Hw.backupApply
  refine Touches.ite ?_ ?_
  · exact Touches.refl.step Hw.store_touches
  · refine Touches.ite ?_ ?_
    · exact Touches.refl.step Hw.rtcCmd_touches
    · refine Touches.ite ?_ ?_
      · exact Touches.refl.step Hw.rtcAdj_touches
      · refine Touches.ite ?_ ?_
        · exact Touches.refl.step Hw.rtcActl_touches
        · refine Touches.ite ?_ ?_
          · exact Touches.refl.step Hw.rtcAlarm_touches
          · refine Touches.ite ?_ ?_
            · exact Touches.refl.step Hw.rtcCdctl_touches
            · refine Touches.ite ?_ ?_
              · exact Touches.refl.step Hw.evCfg_touches
              · refine Touches.ite ?_ ?_
                · exact Touches.refl.step Hw.evPop_touches
                · exact Touches.refl.step Hw.writeFields_touches

theorem Hw.backupTake_touches {h : Hw} : Touches [.regs, .mem, .rtc] h (Hw.backupTake h) := by
  unfold Hw.backupTake
  split
  · exact Touches.refl
  · extract_lets +onlyGivenNames v6
    extract_lets +onlyGivenNames h7
    refine Touches.cut (x := h7) ?_ fun th7 => ?_
    · subst h7
      exact Touches.refl.step set_rtc_touches
    clear_value h7
    exact th7.step Hw.backupApply_touches

theorem Hw.backupEdge_touches {h : Hw} {pre : Nat} {p : Nat × Nat × Nat → Bool} : Touches [.regs, .mem, .free, .sched, .rtc] h (Hw.backupEdge h pre p) := by
  unfold Hw.backupEdge
  split
  · exact Touches.refl
  · refine Touches.ite ?_ ?_
    · exact (Touches.refl.step Hw.slowRun_touches).step Hw.backupTake_touches
    · exact Touches.refl

theorem Hw.backupPost_touches {h : Hw} {a : Nat} {n : Nat} {v : Nat} : Touches [.resp, .rtc] h (Hw.backupPost h a n v) := by
  unfold Hw.backupPost
  refine Touches.ite ?_ ?_
  · exact Touches.refl.step set_resp_touches
  · exact Touches.refl.step set_resp_rtc_touches

theorem Hw.readTime0_touches {h : Hw} : Touches [.resp, .rtc] h (Hw.readTime0 h) := by
  unfold Hw.readTime0
  exact Touches.refl.step set_resp_rtc_touches

theorem Hw.rtcDiscipline_touches {h : Hw} {ofs : Int} {utc : Nat} {drift : Int} : Touches [.resp, .fw, .rtc] h (Hw.rtcDiscipline h ofs utc drift) := by
  unfold Hw.rtcDiscipline
  refine Touches.ite ?_ ?_
  · exact Touches.refl
  · extract_lets +onlyGivenNames h1
    refine Touches.cut (x := h1) ?_ fun th1 => ?_
    · subst h1
      exact (Touches.refl.step Hw.setObj_touches).step Hw.setObj_touches
    clear_value h1
    extract_lets +onlyGivenNames v2 v3
    extract_lets +onlyGivenNames h4
    refine Touches.cut (x := h4) ?_ fun th4 => ?_
    · subst h4
      exact th1.step set_rtc_touches
    clear_value h4
    extract_lets +onlyGivenNames h5
    refine Touches.cut (x := h5) ?_ fun th5 => ?_
    · subst h5
      refine Touches.ite ?_ ?_
      · exact ((th4.step Hw.backupPost_touches).step Hw.backupPost_touches).step Hw.backupPost_touches
      · refine Touches.ite ?_ ?_
        · exact th4.step Hw.backupPost_touches
        · exact th4
    clear_value h5
    refine Touches.ite ?_ ?_
    · extract_lets +onlyGivenNames v6 v7
      extract_lets +onlyGivenNames h8
      refine Touches.cut (x := h8) ?_ fun th8 => ?_
      · subst h8
        exact th5.step set_rtc_touches
      clear_value h8
      exact th8.step Hw.backupPost_touches
    · exact th5

end Sys2Proof.Machine
end

