-- ==== Sys2Proof/Laws/TouchHotStore.lean ====
section
/-! SUPPORT. What each operation of Machine/HotStore.lean touches of the part: the components outside the list stay as they were. -/

set_option Elab.async false

namespace Sys2Proof.Machine

theorem Hw.setHot_touches {h : Hw} {t : HotStart} : Touches [.hot] h (Hw.setHot h t) := by
  unfold Hw.setHot
  exact Touches.refl.step set_hot_touches

theorem Hw.hotLoad_touches {h : Hw} {f : HotFacts} : Touches [.hot] h (Hw.hotLoad h f) := by
  unfold Hw.hotLoad
  split
  · exact Touches.refl.step Hw.setHot_touches
  · extract_lets +onlyGivenNames v6 v7 v8
    exact Touches.refl.step Hw.setHot_touches

theorem Hw.saveNow_touches {h : Hw} {live : List Nat} : Touches [.mem, .ecc, .hot] h (Hw.saveNow h live) := by
  unfold Hw.saveNow
  extract_lets +onlyGivenNames v1 v2 v3 v4
  extract_lets +onlyGivenNames h5
  refine Touches.cut (x := h5) ?_ fun th5 => ?_
  · subst h5
    exact (Touches.refl.step Hw.mramSet_touches).step Hw.mramSet_touches
  clear_value h5
  exact th5.step Hw.setHot_touches

theorem Hw.hsSave_touches {h : Hw} {live : List Nat} : Touches [.mem, .ecc, .hot] h (Hw.hsSave h live) := by
  unfold Hw.hsSave
  refine Touches.ite ?_ ?_
  · exact Touches.refl.step Hw.saveNow_touches
  · exact Touches.refl

theorem Hw.hsWant_touches {h : Hw} : Touches [.hot] h (Hw.hsWant h) := by
  unfold Hw.hsWant
  exact Touches.refl.step Hw.setHot_touches

theorem Hw.hsSaveNow_touches {h : Hw} {live : List Nat} : Touches [.mem, .ecc, .hot] h (Hw.hsSaveNow h live) := by
  unfold Hw.hsSaveNow
  refine Touches.ite ?_ ?_
  · exact (Touches.refl.step Hw.hsWant_touches).step Hw.hsSave_touches
  · exact Touches.refl

end Sys2Proof.Machine
end

