-- ==== Sys2Proof/Laws/TouchKeep.lean ====
section
/-! SUPPORT. What each operation of Machine/Keep.lean touches of the part: the components outside the list stay as they were. -/

set_option Elab.async false

namespace Sys2Proof.Machine

theorem Hw.keepRecord_touches {h : Hw} {r : Nat × Nat × List Nat} : Touches [.mem, .ecc, .fw] h (Hw.keepRecord h r) := by
  unfold Hw.keepRecord
  refine Touches.ite ?_ ?_
  · exact Touches.refl
  · refine Touches.ite ?_ ?_
    · exact Touches.refl.step Hw.journalDelete_touches
    · exact Touches.refl.step Hw.journalWrite_touches

theorem Hw.keepRecords_touches {h : Hw} : Touches [.mem, .ecc, .fw] h (Hw.keepRecords h) := by
  unfold Hw.keepRecords
  refine Touches.forEach ?_ fun x1 h2 th2 => ?_
  · exact Touches.refl
  · exact th2.step Hw.keepRecord_touches

theorem Hw.fwKeep_touches {h : Hw} : Touches [.mem, .ecc, .fw] h (Hw.fwKeep h) := by
  unfold Hw.fwKeep
  refine Touches.ite ?_ ?_
  · exact Touches.refl.step Hw.keepRecords_touches
  · exact Touches.refl

theorem Hw.readKept_touches {h : Hw} : Touches [.kept, .upd] h (Hw.readKept h) := by
  unfold Hw.readKept
  extract_lets +onlyGivenNames v1 v2
  exact Touches.refl.step set_kept_upd_touches

end Sys2Proof.Machine
end

