-- ==== Sys2Proof/Laws/TouchRadio.lean ====
section
/-! SUPPORT. What each operation of Machine/Radio.lean touches of the part: the components outside the list stay as they were. -/

set_option Elab.async false

namespace Sys2Proof.Machine

theorem Hw.setRadio_touches {h : Hw} {r : Radio} : Touches [.radio] h (Hw.setRadio h r) := by
  unfold Hw.setRadio
  exact Touches.refl.step set_radio_touches

theorem Hw.setRadioByte_touches {h : Hw} {a : Nat} {v : Nat} : Touches [.regs] h (Hw.setRadioByte h a v) := by
  unfold Hw.setRadioByte
  exact Touches.refl.step Hw.setReg_touches

theorem Hw.setRadioBytes_touches {h : Hw} {a : Nat} {b1 : List Nat} : Touches [.regs] h (Hw.setRadioBytes h a b1) := by
  induction b1 generalizing h a with
  | nil =>
    unfold Hw.setRadioBytes
    exact Touches.refl
  | cons y ys ih =>
    unfold Hw.setRadioBytes
    exact (Touches.refl.step Hw.setRadioByte_touches).step ih

theorem Hw.bufStore_touches {h : Hw} {b : Nat} {pdu : List Nat} : Touches [.regs] h (Hw.bufStore h b pdu) := by
  unfold Hw.bufStore
  exact Touches.refl.step Hw.setRadioBytes_touches

theorem Hw.addAirtime_touches {h : Hw} {t : Nat} : Touches [.radio] h (Hw.addAirtime h t) := by
  unfold Hw.addAirtime
  exact Touches.refl.step Hw.setRadio_touches

theorem Hw.dutyAdvance_touches {h : Hw} : Touches [.radio] h (Hw.dutyAdvance h) := by
  unfold Hw.dutyAdvance
  extract_lets +onlyGivenNames v1
  exact Touches.refl.step Hw.setRadio_touches

theorem Hw.radioPost_touches {h : Hw} {tag : Nat} {status : Nat} {clamp : Bool} {delay : Nat} : Touches [.regs, .radio] h (Hw.radioPost h tag status clamp delay) := by
  unfold Hw.radioPost
  refine Touches.ite ?_ ?_
  · exact Touches.refl.step Hw.sf_touches
  · exact Touches.refl.step Hw.setRadio_touches

theorem Hw.radioReturn_touches {h : Hw} {c : RadioCmd} : Touches [.regs] h (Hw.radioReturn h c) := by
  unfold Hw.radioReturn
  exact Touches.refl.step Hw.sf_touches

theorem Hw.radioEndLate_touches {h : Hw} {c : RadioCmd} : Touches [.regs, .radio] h (Hw.radioEndLate h c) := by
  unfold Hw.radioEndLate
  extract_lets +onlyGivenNames h1
  refine Touches.cut (x := h1) ?_ fun th1 => ?_
  · subst h1
    exact Touches.refl.step Hw.radioPost_touches
  clear_value h1
  refine Touches.ite ?_ ?_
  · exact th1.step Hw.radioReturn_touches
  · exact th1

theorem Hw.radioHead_touches {h : Hw} {b1 : Nat} : Touches [.regs, .radio] h (Hw.radioHead h b1) := by
  induction b1 generalizing h with
  | zero =>
    unfold Hw.radioHead
    exact Touches.refl
  | succ k ih =>
    unfold Hw.radioHead
    split
    · exact Touches.refl
    · refine Touches.ite ?_ ?_
      · exact ((Touches.refl.step Hw.setRadio_touches).step Hw.radioEndLate_touches).step ih
      · exact Touches.refl

theorem Hw.radioPop_touches {h : Hw} : Touches [.regs, .radio] h (Hw.radioPop h) := by
  unfold Hw.radioPop
  extract_lets +onlyGivenNames v1 v2
  extract_lets +onlyGivenNames h3
  refine Touches.cut (x := h3) ?_ fun th3 => ?_
  · subst h3
    exact Touches.refl.step Hw.setRadio_touches
  clear_value h3
  exact th3.step Hw.radioHead_touches

theorem Hw.radioEnd_touches {h : Hw} {c : RadioCmd} {status : Nat} {clamp : Bool} {delay : Nat} : Touches [.regs, .radio] h (Hw.radioEnd h c status clamp delay) := by
  unfold Hw.radioEnd
  extract_lets +onlyGivenNames v1
  extract_lets +onlyGivenNames h2
  refine Touches.cut (x := h2) ?_ fun th2 => ?_
  · subst h2
    exact Touches.refl.step Hw.setRadio_touches
  clear_value h2
  exact ((th2.step Hw.radioPost_touches).step Hw.radioReturn_touches).step Hw.radioPop_touches

theorem Hw.radioCal_touches {h : Hw} {f : Nat} : Touches [.radio] h (Hw.radioCal h f) := by
  unfold Hw.radioCal
  refine Touches.ite ?_ ?_
  · exact Touches.refl
  · exact Touches.refl.step Hw.setRadio_touches

theorem Hw.radioReach_touches {h : Hw} {c : RadioCmd} {delay : Nat} : Touches [.tcnt] h (Hw.radioReach h c delay) := by
  unfold Hw.radioReach
  extract_lets +onlyGivenNames v1 v2
  exact Touches.refl.step Hw.reach_touches

theorem Hw.radioGo_touches {h : Hw} {v : Nat} : Touches [.regs, .radio] h (Hw.radioGo h v) := by
  unfold Hw.radioGo
  refine Touches.ite ?_ ?_
  · exact Touches.refl
  · extract_lets +onlyGivenNames v1
    refine Touches.ite ?_ ?_
    · exact Touches.refl.step Hw.sf_touches
    · refine Touches.ite ?_ ?_
      · exact Touches.refl.step Hw.sf_touches
      · extract_lets +onlyGivenNames v2 v3
        extract_lets +onlyGivenNames h4
        refine Touches.cut (x := h4) ?_ fun th4 => ?_
        · subst h4
          exact Touches.refl.step Hw.setRadio_touches
        clear_value h4
        refine Touches.ite ?_ ?_
        · exact th4.step Hw.radioHead_touches
        · exact th4

theorem Hw.radioFlush_touches {h : Hw} : Touches [.regs, .radio] h (Hw.radioFlush h) := by
  unfold Hw.radioFlush
  extract_lets +onlyGivenNames v1 v2 v3
  extract_lets +onlyGivenNames h4
  refine Touches.cut (x := h4) ?_ fun th4 => ?_
  · subst h4
    exact Touches.refl.step Hw.setRadio_touches
  clear_value h4
  refine Touches.forEach ?_ fun x5 h6 th6 => ?_
  · exact th4
  · exact th6.step Hw.radioPost_touches

theorem Hw.radioDoneRead_touches {h : Hw} : Touches [.resp, .radio] h (Hw.radioDoneRead h) := by
  unfold Hw.radioDoneRead
  split
  · exact Touches.refl.step set_resp_touches
  · extract_lets +onlyGivenNames v7
    extract_lets +onlyGivenNames h8
    refine Touches.cut (x := h8) ?_ fun th8 => ?_
    · subst h8
      exact Touches.refl.step Hw.setRadio_touches
    clear_value h8
    exact th8.step set_resp_touches

theorem Hw.radioRefuse_touches {h : Hw} {c : RadioCmd} {status : Nat} {delay : Nat} : Touches [.regs, .radio] h (Hw.radioRefuse h c status delay) := by
  unfold Hw.radioRefuse
  extract_lets +onlyGivenNames h1
  refine Touches.cut (x := h1) ?_ fun th1 => ?_
  · subst h1
    refine Touches.ite ?_ ?_
    · exact Touches.refl.step Hw.bump_touches
    · exact Touches.refl
  clear_value h1
  exact th1.step Hw.radioEnd_touches

theorem Hw.paSelect_touches {h : Hw} {code : Nat} : Touches [.free, .radio] h (Hw.paSelect h code) := by
  unfold Hw.paSelect
  split
  · rename_i a1 a2 h3 e4
    refine Touches.cut (x := h3) (Touches.snd ?_ e4) fun th3 => ?_
    · exact Touches.refl.step Hw.fresh_touches
    exact th3.step Hw.setRadio_touches

theorem Hw.radioSend_touches {h : Hw} {c : RadioCmd} : Touches [.regs, .free, .radio] h (Hw.radioSend h c).2 := by
  unfold Hw.radioSend
  extract_lets +onlyGivenNames v1
  extract_lets +onlyGivenNames h2
  refine Touches.cut (x := h2) ?_ fun th2 => ?_
  · subst h2
    exact Touches.refl.step Hw.paSelect_touches
  clear_value h2
  extract_lets +onlyGivenNames h3
  refine Touches.cut (x := h3) ?_ fun th3 => ?_
  · subst h3
    exact (th2.step Hw.radioCal_touches).step Hw.addAirtime_touches
  clear_value h3
  refine Touches.pair ?_
  refine Touches.ite ?_ ?_
  · exact th3.step Hw.bump_touches
  · exact th3

theorem Hw.radioTx_touches {h : Hw} {delay : Nat} : Touches [.regs, .free, .tcnt, .radio] h (Hw.radioTx h delay) := by
  unfold Hw.radioTx
  split
  · exact Touches.refl
  · extract_lets +onlyGivenNames h6
    refine Touches.cut (x := h6) ?_ fun th6 => ?_
    · subst h6
      exact Touches.refl.step Hw.radioReach_touches
    clear_value h6
    split
    · exact th6.step Hw.radioRefuse_touches
    · split
      · rename_i a12 a13 h14 e15
        refine Touches.cut (x := h14) (Touches.snd ?_ e15) fun th14 => ?_
        · exact th6.step Hw.radioSend_touches
        refine Touches.ite ?_ ?_
        · extract_lets +onlyGivenNames h16
          refine Touches.cut (x := h16) ?_ fun th16 => ?_
          · subst h16
            exact (th14.step Hw.radioPost_touches).step Hw.sf_touches
          clear_value h16
          exact (th16.step Hw.setRadio_touches).step Hw.radioPop_touches
        · exact th14.step Hw.radioEnd_touches

theorem Hw.radioRx_touches {h : Hw} {delay : Nat} : Touches [.regs, .tcnt, .radio] h (Hw.radioRx h delay) := by
  unfold Hw.radioRx
  split
  · exact Touches.refl
  · extract_lets +onlyGivenNames h6
    refine Touches.cut (x := h6) ?_ fun th6 => ?_
    · subst h6
      exact (Touches.refl.step Hw.radioReach_touches).step Hw.radioCal_touches
    clear_value h6
    exact (th6.step Hw.setRadio_touches).step Hw.sf_touches

theorem Hw.returnClose_touches {h : Hw} : Touches [.regs, .radio] h (Hw.returnClose h) := by
  unfold Hw.returnClose
  extract_lets +onlyGivenNames v1
  exact (Touches.refl.step Hw.setRadio_touches).step Hw.sf_touches

theorem Hw.windowClose_touches {h : Hw} {status : Nat} : Touches [.regs, .radio] h (Hw.windowClose h status) := by
  unfold Hw.windowClose
  split
  · refine Touches.ite ?_ ?_
    · exact Touches.refl.step Hw.radioEnd_touches
    · exact Touches.refl.step Hw.returnClose_touches
  · exact Touches.refl.step Hw.returnClose_touches

theorem Hw.radioPacket_touches {h : Hw} {pdu : List Nat} {crcOk : Bool} {rssi : Nat} : Touches [.regs, .radio] h (Hw.radioPacket h pdu crcOk rssi) := by
  unfold Hw.radioPacket
  split
  · exact Touches.refl
  · extract_lets +onlyGivenNames h6
    refine Touches.cut (x := h6) ?_ fun th6 => ?_
    · subst h6
      exact Touches.refl.step Hw.bufStore_touches
    clear_value h6
    exact (th6.step Hw.setRadio_touches).step Hw.windowClose_touches

theorem Hw.radioRxTimeout_touches {h : Hw} : Touches [.regs, .radio] h (Hw.radioRxTimeout h) := by
  unfold Hw.radioRxTimeout
  refine Touches.ite ?_ ?_
  · exact Touches.refl
  · exact Touches.refl.step Hw.windowClose_touches

theorem Hw.radioMove_touches {h : Hw} {op : Nat} : Touches [.regs, .tcnt, .radio] h (Hw.radioMove h op) := by
  unfold Hw.radioMove
  split
  · exact Touches.refl
  · extract_lets +onlyGivenNames h6
    refine Touches.cut (x := h6) ?_ fun th6 => ?_
    · subst h6
      exact (Touches.refl.step Hw.radioReach_touches).step Hw.radioPost_touches
    clear_value h6
    exact (th6.step Hw.sf_touches).step Hw.radioPop_touches

theorem Hw.synthTimeout_touches {h : Hw} : Touches [.regs, .radio] h (Hw.synthTimeout h) := by
  unfold Hw.synthTimeout
  split
  · refine Touches.ite ?_ ?_
    · exact (Touches.refl.step Hw.bump_touches).step Hw.radioEnd_touches
    · exact Touches.refl
  · exact Touches.refl

theorem Hw.paCal_touches {h : Hw} {ts4 : Int} : Touches [.regs, .sys] h (Hw.paCal h ts4) := by
  unfold Hw.paCal
  refine Touches.ite ?_ ?_
  · extract_lets +onlyGivenNames h1
    refine Touches.cut (x := h1) ?_ fun th1 => ?_
    · subst h1
      exact Touches.refl.step Hw.sf_touches
    clear_value h1
    exact th1.step set_sys_touches
  · exact Touches.refl

theorem Hw.coexRequest_touches {h : Hw} : Touches [.radio] h (Hw.coexRequest h) := by
  unfold Hw.coexRequest
  split
  · refine Touches.ite ?_ ?_
    · exact Touches.refl.step Hw.setRadio_touches
    · exact Touches.refl
  · exact Touches.refl

theorem Hw.coexSample_touches {h : Hw} {active : Bool} : Touches [.regs, .radio] h (Hw.coexSample h active) := by
  unfold Hw.coexSample
  extract_lets +onlyGivenNames v1
  extract_lets +onlyGivenNames h2
  refine Touches.cut (x := h2) ?_ fun th2 => ?_
  · subst h2
    exact Touches.refl.step Hw.setRadio_touches
  clear_value h2
  split
  · refine Touches.ite ?_ ?_
    · refine Touches.ite ?_ ?_
      · exact th2.step Hw.setRadio_touches
      · exact (th2.step Hw.bump_touches).step Hw.radioEnd_touches
    · exact th2
  · exact th2

theorem Hw.setWords_touches {h : Hw} {a : Nat} {b1 : List Nat} : Touches [.regs] h (Hw.setWords h a b1) := by
  induction b1 generalizing h a with
  | nil =>
    unfold Hw.setWords
    exact Touches.refl
  | cons y ys ih =>
    unfold Hw.setWords
    exact (Touches.refl.step Hw.setReg_touches).step ih

theorem Hw.csSubevent_touches {h : Hw} {c : RadioCmd} {meas : List (Bool × List Nat)} {rssi : Nat} {end_ : Option Nat} : Touches [.regs, .free, .radio] h (Hw.csSubevent h c meas rssi end_) := by
  unfold Hw.csSubevent
  extract_lets +onlyGivenNames v1 v2
  split
  · extract_lets +onlyGivenNames v7 v8
    extract_lets +onlyGivenNames h9
    refine Touches.cut (x := h9) ?_ fun th9 => ?_
    · subst h9
      exact Touches.refl.step Hw.paSelect_touches
    clear_value h9
    extract_lets +onlyGivenNames h10
    refine Touches.cut (x := h10) ?_ fun th10 => ?_
    · subst h10
      refine Touches.forEach ?_ fun x11 h12 th12 => ?_
      · exact th9
      · exact th12.step Hw.radioCal_touches
    clear_value h10
    extract_lets +onlyGivenNames h13
    refine Touches.cut (x := h13) ?_ fun th13 => ?_
    · subst h13
      exact th10.step Hw.addAirtime_touches
    clear_value h13
    extract_lets +onlyGivenNames h14
    refine Touches.cut (x := h14) ?_ fun th14 => ?_
    · subst h14
      refine Touches.ite ?_ ?_
      · exact th13.step Hw.bump_touches
      · exact th13
    clear_value h14
    extract_lets +onlyGivenNames h15
    refine Touches.cut (x := h15) ?_ fun th15 => ?_
    · subst h15
      exact th14.step Hw.setWords_touches
    clear_value h15
    extract_lets +onlyGivenNames v16
    extract_lets +onlyGivenNames h17
    refine Touches.cut (x := h17) ?_ fun th17 => ?_
    · subst h17
      exact th15.step Hw.setRadio_touches
    clear_value h17
    exact th17.step Hw.radioEnd_touches

theorem Hw.radioCs_touches {h : Hw} {meas : List (Bool × List Nat)} {rssi : Nat} : Touches [.regs, .free, .tcnt, .radio] h (Hw.radioCs h meas rssi) := by
  unfold Hw.radioCs
  split
  · exact Touches.refl
  · extract_lets +onlyGivenNames h6
    refine Touches.cut (x := h6) ?_ fun th6 => ?_
    · subst h6
      exact Touches.refl.step Hw.radioReach_touches
    clear_value h6
    refine Touches.ite ?_ ?_
    · exact th6.step Hw.radioRefuse_touches
    · exact th6.step Hw.csSubevent_touches

theorem Hw.coexLost_touches {h : Hw} {meas : List (Bool × List Nat)} {rssi : Nat} : Touches [.regs, .free, .tcnt, .radio] h (Hw.coexLost h meas rssi) := by
  unfold Hw.coexLost
  refine Touches.ite ?_ ?_
  · exact Touches.refl
  · split
    · extract_lets +onlyGivenNames v5
      extract_lets +onlyGivenNames h6
      refine Touches.cut (x := h6) ?_ fun th6 => ?_
      · subst h6
        exact Touches.refl.step Hw.setRadio_touches
      clear_value h6
      split
      · exact th6
      · extract_lets +onlyGivenNames h12
        refine Touches.cut (x := h12) ?_ fun th12 => ?_
        · subst h12
          exact (th6.step Hw.radioReach_touches).step Hw.bump_touches
        clear_value h12
        refine Touches.ite ?_ ?_
        · split
          · rename_i a13 a14 h15 e16
            refine Touches.cut (x := h15) (Touches.snd ?_ e16) fun th15 => ?_
            · exact th12.step Hw.radioSend_touches
            exact th15.step Hw.radioEnd_touches
        · exact th12.step Hw.radioTx_touches
    · extract_lets +onlyGivenNames v22
      extract_lets +onlyGivenNames h23
      refine Touches.cut (x := h23) ?_ fun th23 => ?_
      · subst h23
        exact Touches.refl.step Hw.setRadio_touches
      clear_value h23
      refine Touches.ite ?_ ?_
      · exact th23
      · extract_lets +onlyGivenNames h24
        refine Touches.cut (x := h24) ?_ fun th24 => ?_
        · subst h24
          exact (th23.step Hw.radioReach_touches).step Hw.bump_touches
        clear_value h24
        exact th24.step Hw.csSubevent_touches
    · exact Touches.refl

theorem Hw.setFuse_touches {h : Hw} {f : Nat} {v : Nat} : Touches [.fuses] h (Hw.setFuse h f v) := by
  unfold Hw.setFuse
  extract_lets +onlyGivenNames v1
  split
  · exact Touches.refl.step set_fuses_touches
  · exact Touches.refl.step set_fuses_touches
  · exact Touches.refl.step set_fuses_touches
  · exact Touches.refl.step set_fuses_touches
  · exact Touches.refl.step set_fuses_touches

theorem Hw.fuseBlow_touches {h : Hw} {v : Nat} {role : Nat} : Touches [.regs, .radio] h (Hw.fuseBlow h v role) := by
  unfold Hw.fuseBlow
  extract_lets +onlyGivenNames v1 v2 v3
  refine Touches.ite ?_ ?_
  · split
    · exact (Touches.refl.step Hw.setRadio_touches).step Hw.sf_touches
  · exact Touches.refl.step Hw.sf_touches

theorem Hw.fuseBlown_touches {h : Hw} {took : Nat} : Touches [.regs, .fuses, .radio] h (Hw.fuseBlown h took) := by
  unfold Hw.fuseBlown
  split
  · exact Touches.refl
  · extract_lets +onlyGivenNames v8 v9
    extract_lets +onlyGivenNames h10
    refine Touches.cut (x := h10) ?_ fun th10 => ?_
    · subst h10
      exact (Touches.refl.step Hw.setFuse_touches).step Hw.setRadio_touches
    clear_value h10
    extract_lets +onlyGivenNames h11
    refine Touches.cut (x := h11) ?_ fun th11 => ?_
    · subst h11
      exact (th10.step Hw.sf_touches).step Hw.sf_touches
    clear_value h11
    refine Touches.ite ?_ ?_
    · exact th11
    · exact th11.step Hw.sf_touches

theorem Hw.holdStart_touches {h : Hw} : Touches [.regs, .radio] h (Hw.holdStart h) := by
  unfold Hw.holdStart
  refine Touches.ite ?_ ?_
  · extract_lets +onlyGivenNames h1
    refine Touches.cut (x := h1) ?_ fun th1 => ?_
    · subst h1
      exact Touches.refl.step Hw.radioFlush_touches
    clear_value h1
    exact (th1.step Hw.setRadio_touches).step Hw.sf_touches
  · exact Touches.refl

theorem Hw.holdSend_touches {h : Hw} {k : Nat} : Touches [.free, .radio] h (Hw.holdSend h k) := by
  unfold Hw.holdSend
  exact ((Touches.refl.step Hw.paSelect_touches).step Hw.radioCal_touches).step Hw.addAirtime_touches

theorem Hw.holdEvent_touches {h : Hw} {k : Nat} {reply : Option (Bool × Bool × Bool)} : Touches [.regs, .free, .radio] h (Hw.holdEvent h k reply) := by
  unfold Hw.holdEvent
  extract_lets +onlyGivenNames v1
  refine Touches.ite ?_ ?_
  · exact Touches.refl
  · extract_lets +onlyGivenNames v2 v3
    split
    · extract_lets +onlyGivenNames h8
      refine Touches.cut (x := h8) ?_ fun th8 => ?_
      · subst h8
        refine Touches.ite ?_ ?_
        · exact Touches.refl.step Hw.holdSend_touches
        · exact Touches.refl
      clear_value h8
      extract_lets +onlyGivenNames v9
      extract_lets +onlyGivenNames h10
      refine Touches.cut (x := h10) ?_ fun th10 => ?_
      · subst h10
        exact th8.step Hw.setReg_touches
      clear_value h10
      extract_lets +onlyGivenNames h11
      refine Touches.cut (x := h11) ?_ fun th11 => ?_
      · subst h11
        exact th10.step Hw.setReg_touches
      clear_value h11
      extract_lets +onlyGivenNames h12
      refine Touches.cut (x := h12) ?_ fun th12 => ?_
      · subst h12
        exact th11.step Hw.setReg_touches
      clear_value h12
      exact th12.step Hw.bump_touches

theorem Hw.holdRelease_touches {h : Hw} : Touches [.regs] h (Hw.holdRelease h) := by
  unfold Hw.holdRelease
  refine Touches.ite ?_ ?_
  · exact (Touches.refl.step Hw.sf_touches).step Hw.sf_touches
  · exact Touches.refl

theorem Hw.holdDrop_touches {h : Hw} : Touches [.pkey] h (Hw.holdDrop h) := by
  unfold Hw.holdDrop
  exact Touches.refl.step set_pkey_touches

theorem Hw.holdTimeoutRadio_touches {h : Hw} : Touches [.regs, .tcnt, .pkey] h (Hw.holdTimeoutRadio h) := by
  unfold Hw.holdTimeoutRadio
  refine Touches.ite ?_ ?_
  · extract_lets +onlyGivenNames h1
    refine Touches.cut (x := h1) ?_ fun th1 => ?_
    · subst h1
      exact (Touches.refl.step Hw.reach_touches).step Hw.holdDrop_touches
    clear_value h1
    extract_lets +onlyGivenNames h2
    refine Touches.cut (x := h2) ?_ fun th2 => ?_
    · subst h2
      refine Touches.forEach ?_ fun x3 h4 th4 => ?_
      · exact th1
      · exact th4.step Hw.setReg_touches
    clear_value h2
    exact th2.step Hw.holdRelease_touches
  · exact Touches.refl

theorem Hw.radioCtrl_touches {h : Hw} {v : Nat} : Touches [.regs, .radio] h (Hw.radioCtrl h v) := by
  unfold Hw.radioCtrl
  extract_lets +onlyGivenNames h1
  refine Touches.cut (x := h1) ?_ fun th1 => ?_
  · subst h1
    exact Touches.refl.step Hw.writeFields_touches
  clear_value h1
  extract_lets +onlyGivenNames h2
  refine Touches.cut (x := h2) ?_ fun th2 => ?_
  · subst h2
    refine Touches.ite ?_ ?_
    · exact th1.step Hw.radioFlush_touches
    · exact th1
  clear_value h2
  refine Touches.ite ?_ ?_
  · exact th2.step Hw.holdRelease_touches
  · exact th2

end Sys2Proof.Machine
end

