-- ==== Sys2Proof/Laws/TouchBoot.lean ====
section
/-! SUPPORT. What each operation of Machine/Boot.lean touches of the part: the components outside the list stay as they were. -/

set_option Elab.async false

namespace Sys2Proof.Machine

theorem Hw.keepRegs_touches {h : Hw} {p : Nat → Bool} : Touches [.regs] h (Hw.keepRegs h p) := by
  unfold Hw.keepRegs
  exact Touches.refl.step set_regs_touches

theorem Hw.coreClear_touches {h : Hw} : Touches (Block.except [.mem, .ecc, .free, .resp, .fuses, .kept, .rtc]) h h.coreClear := by
  intro b hb
  cases b <;> first | rfl | cases hb

theorem Hw.sramLost_touches {h : Hw} : Touches [.mem, .ecc] h (Hw.sramLost h) := by
  unfold Hw.sramLost
  extract_lets +onlyGivenNames v1
  exact Touches.refl.step set_mem_ecc_touches

theorem Hw.alwaysOnClear_touches {h : Hw} : Touches [.regs, .mem, .ecc, .pwr, .radio, .pkey, .rtc] h (Hw.alwaysOnClear h) := by
  unfold Hw.alwaysOnClear
  extract_lets +onlyGivenNames h1
  refine Touches.cut (x := h1) ?_ fun th1 => ?_
  · subst h1
    exact (Touches.refl.step Hw.keepRegs_touches).step Hw.sramLost_touches
  clear_value h1
  exact th1.step set_pwr_radio_pkey_rtc_touches

theorem Hw.backupClear_touches {h : Hw} : Touches [.regs, .mem, .rtc] h (Hw.backupClear h) := by
  unfold Hw.backupClear
  extract_lets +onlyGivenNames h1
  refine Touches.cut (x := h1) ?_ fun th1 => ?_
  · subst h1
    exact Touches.refl.step Hw.keepRegs_touches
  clear_value h1
  extract_lets +onlyGivenNames h2
  refine Touches.cut (x := h2) ?_ fun th2 => ?_
  · subst h2
    exact th1.step Hw.zero_touches
  clear_value h2
  exact th2.step set_rtc_touches

theorem Hw.causeSet_touches {h : Hw} {c : Nat} : Touches [.regs, .rtc] h (Hw.causeSet h c) := by
  unfold Hw.causeSet
  extract_lets +onlyGivenNames v1
  extract_lets +onlyGivenNames h2
  refine Touches.cut (x := h2) ?_ fun th2 => ?_
  · subst h2
    exact Touches.refl.step set_rtc_touches
  clear_value h2
  exact (th2.step Hw.sf_touches).step Hw.sf_touches

theorem Hw.pulsesStop_touches {h : Hw} : Touches [.regs, .pkey] h (Hw.pulsesStop h) := by
  unfold Hw.pulsesStop
  extract_lets +onlyGivenNames h1
  refine Touches.cut (x := h1) ?_ fun th1 => ?_
  · subst h1
    exact (Touches.refl.step Hw.sf_touches).step Hw.sf_touches
  clear_value h1
  exact th1.step set_pkey_touches

theorem Hw.coreReset_touches {h : Hw} {cause : Nat} : Touches (Block.except [.mem, .ecc, .free, .resp, .fuses, .kept]) h (Hw.coreReset h cause) := by
  unfold Hw.coreReset
  exact ((Touches.refl.step Hw.coreClear_touches).step Hw.pulsesStop_touches).step Hw.causeSet_touches

theorem Hw.lifecycleReset_touches {h : Hw} {t : Nat} : Touches (Block.except [.mem, .ecc, .free, .resp, .kept]) h (Hw.lifecycleReset h t) := by
  unfold Hw.lifecycleReset
  exact (Touches.refl.step set_fuses_touches).step Hw.coreReset_touches

theorem Hw.vinReset_touches {h : Hw} {cause : Nat} : Touches (Block.except [.free, .resp, .fuses, .kept]) h (Hw.vinReset h cause) := by
  unfold Hw.vinReset
  exact ((Touches.refl.step Hw.coreClear_touches).step Hw.alwaysOnClear_touches).step Hw.causeSet_touches

theorem Hw.powerOn_touches {h : Hw} : Touches (Block.except [.free, .resp, .fuses, .kept]) h (Hw.powerOn h) := by
  unfold Hw.powerOn
  exact (((Touches.refl.step Hw.coreClear_touches).step Hw.alwaysOnClear_touches).step Hw.backupClear_touches).step Hw.causeSet_touches

theorem Hw.backupEnter_touches {h : Hw} : Touches (Block.except [.free, .resp, .fuses, .kept]) h (Hw.backupEnter h) := by
  unfold Hw.backupEnter
  extract_lets +onlyGivenNames h1
  refine Touches.cut (x := h1) ?_ fun th1 => ?_
  · subst h1
    exact (Touches.refl.step Hw.coreClear_touches).step Hw.alwaysOnClear_touches
  clear_value h1
  exact th1.step set_pwr_touches

theorem Hw.wdRestart_touches {h : Hw} : Touches [.sys] h (Hw.wdRestart h) := by
  unfold Hw.wdRestart
  refine Touches.ite ?_ ?_
  · exact Touches.refl.step set_sys_touches
  · exact Touches.refl

theorem Hw.wdWrite_touches {h : Hw} {v : Nat} : Touches [.regs, .sys] h (Hw.wdWrite h v) := by
  unfold Hw.wdWrite
  extract_lets +onlyGivenNames v1
  extract_lets +onlyGivenNames h2
  refine Touches.cut (x := h2) ?_ fun th2 => ?_
  · subst h2
    exact Touches.refl.step Hw.writeFields_touches
  clear_value h2
  refine Touches.ite ?_ ?_
  · exact th2.step Hw.sf_touches
  · exact th2.step Hw.wdRestart_touches

theorem Hw.wdKick_touches {h : Hw} {v : Nat} : Touches (Block.except [.mem, .ecc, .free, .resp, .fuses, .kept]) h (Hw.wdKick h v) := by
  unfold Hw.wdKick
  refine Touches.ite ?_ ?_
  · exact Touches.refl.step Hw.wdRestart_touches
  · exact Touches.refl.step Hw.coreReset_touches

theorem Hw.sysRst_touches {h : Hw} {v : Nat} : Touches (Block.except [.mem, .ecc, .free, .resp, .fuses, .kept]) h (Hw.sysRst h v) := by
  unfold Hw.sysRst
  refine Touches.ite ?_ ?_
  · exact Touches.refl.step Hw.coreReset_touches
  · exact Touches.refl

theorem Hw.restoreReg_touches {h : Hw} {rs : List JRec} {a : Nat} : Touches [.regs] h (Hw.restoreReg h rs a) := by
  unfold Hw.restoreReg
  split
  · exact Touches.refl
  · split
    · exact Touches.refl
    · exact Touches.refl.step Hw.setReg_touches

theorem Hw.restoreObj_touches {h : Hw} {r : JRec} : Touches [.fw, .pkey] h (Hw.restoreObj h r) := by
  unfold Hw.restoreObj
  split
  · exact Touches.refl
  · refine Touches.ite ?_ ?_
    · exact Touches.refl
    · refine Touches.ite ?_ ?_
      · exact Touches.refl.step set_pkey_touches
      · refine Touches.ite ?_ ?_
        · extract_lets +onlyGivenNames v6
          exact Touches.refl.step set_pkey_touches
        · exact Touches.refl.step Hw.setObj_touches

theorem Hw.restoreAll_touches {h : Hw} : Touches [.regs, .fw, .pkey] h (Hw.restoreAll h) := by
  unfold Hw.restoreAll
  extract_lets +onlyGivenNames v1
  extract_lets +onlyGivenNames h2
  refine Touches.cut (x := h2) ?_ fun th2 => ?_
  · subst h2
    refine Touches.forEach ?_ fun x3 h4 th4 => ?_
    · exact Touches.refl
    · exact th4.step Hw.restoreReg_touches
  clear_value h2
  refine Touches.forEach ?_ fun x5 h6 th6 => ?_
  · exact th2
  · exact th6.step Hw.restoreObj_touches

theorem Hw.slotsEmpty_touches {h : Hw} : Touches [.regs] h (Hw.slotsEmpty h) := by
  unfold Hw.slotsEmpty
  refine Touches.forEach ?_ fun x1 h2 th2 => ?_
  · exact Touches.refl
  · exact th2.step Hw.sf_touches

theorem Hw.loadVendor_touches {h : Hw} {n : Nat} {b : Nat} {b1 : List (List Nat)} : Touches [.regs, .mem, .ecc] h (Hw.loadVendor h n b b1) := by
  induction b1 generalizing h n b with
  | nil =>
    unfold Hw.loadVendor
    exact Touches.refl
  | cons y ys ih =>
    unfold Hw.loadVendor
    extract_lets +onlyGivenNames h1
    refine Touches.cut (x := h1) ?_ fun th1 => ?_
    · subst h1
      exact (Touches.refl.step Hw.storeWords_touches).step Hw.eccClear_touches
    clear_value h1
    extract_lets +onlyGivenNames h2
    refine Touches.cut (x := h2) ?_ fun th2 => ?_
    · subst h2
      exact (th1.step Hw.sf_touches).step Hw.sf_touches
    clear_value h2
    exact (th2.step Hw.sf_touches).step ih

theorem Hw.loadKernels_touches {h : Hw} : Touches [.regs, .mem, .ecc] h (Hw.loadKernels h) := by
  unfold Hw.loadKernels
  extract_lets +onlyGivenNames h1
  refine Touches.cut (x := h1) ?_ fun th1 => ?_
  · subst h1
    exact (Touches.refl.step Hw.slotsEmpty_touches).step Hw.loadVendor_touches
  clear_value h1
  refine Touches.forEach ?_ fun x2 h3 th3 => ?_
  · exact th1
  · refine Touches.ite ?_ ?_
    · exact th3.step Hw.kloadPut_touches
    · exact th3

theorem Hw.loadShapes_touches {h : Hw} {shapes : List (List (BitVec 16))} : Touches [.mem, .ecc] h (Hw.loadShapes h shapes) := by
  unfold Hw.loadShapes
  refine Touches.forEach ?_ fun x1 h2 th2 => ?_
  · exact Touches.refl
  · extract_lets +onlyGivenNames v3
    exact (th2.step Hw.storeBytes_touches).step Hw.eccClear_touches

theorem Hw.shareRings_touches {h : Hw} {ports : List Nat} : Touches [.regs] h (Hw.shareRings h ports) := by
  unfold Hw.shareRings
  extract_lets +onlyGivenNames v1 v2
  refine Touches.ite ?_ ?_
  · exact Touches.refl
  · refine Touches.forEach ?_ fun x3 h4 th4 => ?_
    · exact Touches.refl
    · exact (th4.step Hw.sf_touches).step Hw.sf_touches

theorem Hw.startFirmware_touches {h : Hw} {s : Nat} {f : BootFacts} : Touches [.regs, .mem, .ecc, .sys, .elogQ, .hot, .fw, .pkey, .rtc] h (Hw.startFirmware h s f) := by
  unfold Hw.startFirmware
  extract_lets +onlyGivenNames v1 v2
  extract_lets +onlyGivenNames h3
  refine Touches.cut (x := h3) ?_ fun th3 => ?_
  · subst h3
    exact Touches.refl.step set_sys_fw_touches
  clear_value h3
  extract_lets +onlyGivenNames h4
  refine Touches.cut (x := h4) ?_ fun th4 => ?_
  · subst h4
    exact (th3.step Hw.restoreAll_touches).step Hw.shareRings_touches
  clear_value h4
  extract_lets +onlyGivenNames v5
  extract_lets +onlyGivenNames h6
  refine Touches.cut (x := h6) ?_ fun th6 => ?_
  · subst h6
    exact th4.step set_fw_touches
  clear_value h6
  extract_lets +onlyGivenNames h7
  refine Touches.cut (x := h7) ?_ fun th7 => ?_
  · subst h7
    refine Touches.ite ?_ ?_
    · exact th6
    · exact (th6.step Hw.loadKernels_touches).step Hw.loadShapes_touches
  clear_value h7
  exact (th7.step Hw.hotLoad_touches).step Hw.logTampers_touches

theorem Hw.bootRow_touches {h : Hw} {f : BootFacts} {r : Nat × Nat × Nat} : Touches [.regs, .ecc, .kept, .sys, .memu] h (Hw.bootRow h f r) := by
  unfold Hw.bootRow
  split
  · refine Touches.ite ?_ ?_
    · exact Touches.refl
    · split
      · exact Touches.refl.step Hw.retireBank_touches
      · extract_lets +onlyGivenNames v10
        extract_lets +onlyGivenNames h11
        refine Touches.cut (x := h11) ?_ fun th11 => ?_
        · subst h11
          exact (Touches.refl.step Hw.copyRow_touches).step Hw.mapRow_touches
        clear_value h11
        extract_lets +onlyGivenNames v12
        extract_lets +onlyGivenNames h13
        refine Touches.cut (x := h13) ?_ fun th13 => ?_
        · subst h13
          exact th11.step set_kept_touches
        clear_value h13
        extract_lets +onlyGivenNames v14
        extract_lets +onlyGivenNames h15
        refine Touches.cut (x := h15) ?_ fun th15 => ?_
        · subst h15
          exact th13.step Hw.sf_touches
        clear_value h15
        refine Touches.ite ?_ ?_
        · exact th15.step Hw.retireBank_touches
        · exact th15

theorem Hw.bootMemory_touches {h : Hw} {f : BootFacts} {mode : Nat} : Touches [.regs, .mem, .ecc, .kept, .sys, .memu] h (Hw.bootMemory h f mode) := by
  unfold Hw.bootMemory
  generalize upTo 18 = ns18
  extract_lets +onlyGivenNames v1
  extract_lets +onlyGivenNames h2
  refine Touches.cut (x := h2) ?_ fun th2 => ?_
  · subst h2
    exact Touches.refl.step set_memu_touches
  clear_value h2
  extract_lets +onlyGivenNames h3
  refine Touches.cut (x := h3) ?_ fun th3 => ?_
  · subst h3
    exact th2.step Hw.sf_touches
  clear_value h3
  extract_lets +onlyGivenNames h4
  refine Touches.cut (x := h4) ?_ fun th4 => ?_
  · subst h4
    refine Touches.forEach ?_ fun x5 h6 th6 => ?_
    · exact th3
    · exact th6.step Hw.sf_touches
  clear_value h4
  extract_lets +onlyGivenNames h7
  refine Touches.cut (x := h7) ?_ fun th7 => ?_
  · subst h7
    refine Touches.forEach ?_ fun x8 h9 th9 => ?_
    · exact th4
    · exact (th9.step Hw.sf_touches).step Hw.retireBank_touches
  clear_value h7
  extract_lets +onlyGivenNames h10
  refine Touches.cut (x := h10) ?_ fun th10 => ?_
  · subst h10
    refine Touches.ite ?_ ?_
    · refine Touches.forEach ?_ fun x11 h12 th12 => ?_
      · exact th7
      · refine Touches.ite ?_ ?_
        · exact th12.step Hw.setEcc_touches
        · exact th12
    · refine Touches.forEach ?_ fun x13 h14 th14 => ?_
      · exact th7
      · exact th14.step Hw.fillUnit_touches
  clear_value h10
  extract_lets +onlyGivenNames h15
  refine Touches.cut (x := h15) ?_ fun th15 => ?_
  · subst h15
    refine Touches.forEach ?_ fun x16 h17 th17 => ?_
    · exact th10
    · exact th17.step Hw.fillUnit_touches
  clear_value h15
  extract_lets +onlyGivenNames v18 v19
  refine Touches.forEach ?_ fun x20 h21 th21 => ?_
  · exact th15
  · exact th21.step Hw.bootRow_touches

theorem Hw.bootEngines_touches {h : Hw} {f : BootFacts} : Touches [.ecc, .pwr] h (Hw.bootEngines h f) := by
  unfold Hw.bootEngines
  extract_lets +onlyGivenNames v1 v2
  exact Touches.refl.step set_ecc_pwr_touches

theorem Hw.bootWipe_touches {h : Hw} {bad : Nat} : Touches [.regs, .mem, .ecc, .kept, .pwr, .elogQ, .memu, .pkey] h (Hw.bootWipe h bad) := by
  unfold Hw.bootWipe
  extract_lets +onlyGivenNames v1
  extract_lets +onlyGivenNames h2
  refine Touches.cut (x := h2) ?_ fun th2 => ?_
  · subst h2
    refine Touches.ite ?_ ?_
    · exact Touches.refl.step set_pwr_touches
    · exact Touches.refl
  clear_value h2
  extract_lets +onlyGivenNames v3
  extract_lets +onlyGivenNames h4
  refine Touches.cut (x := h4) ?_ fun th4 => ?_
  · subst h4
    refine Touches.ite ?_ ?_
    · exact th2.step set_pwr_touches
    · exact th2
  clear_value h4
  refine Touches.ite ?_ ?_
  · exact th4
  · exact th4.step Hw.wipeWhole_touches

theorem Hw.bootFailure_touches {h : Hw} {err : Nat} : Touches [.regs, .fw] h (Hw.bootFailure h err) := by
  unfold Hw.bootFailure
  extract_lets +onlyGivenNames h1
  refine Touches.cut (x := h1) ?_ fun th1 => ?_
  · subst h1
    exact Touches.refl.step Hw.sf_touches
  clear_value h1
  refine Touches.ite ?_ ?_
  · exact th1
  · extract_lets +onlyGivenNames v2
    extract_lets +onlyGivenNames h3
    refine Touches.cut (x := h3) ?_ fun th3 => ?_
    · subst h3
      refine Touches.forEach ?_ fun x4 h5 th5 => ?_
      · exact th1
      · exact th5.step Hw.restoreReg_touches
    clear_value h3
    extract_lets +onlyGivenNames h6
    refine Touches.cut (x := h6) ?_ fun th6 => ?_
    · subst h6
      exact ((th3.step Hw.sf_touches).step Hw.sf_touches).step Hw.sf_touches
    clear_value h6
    extract_lets +onlyGivenNames h7
    refine Touches.cut (x := h7) ?_ fun th7 => ?_
    · subst h7
      exact th6.step Hw.sf_touches
    clear_value h7
    exact th7.step set_fw_touches

theorem Hw.selectImage_touches {h : Hw} {opReq : Bool} : Touches [.regs] h (Hw.selectImage h opReq).2 := by
  unfold Hw.selectImage
  extract_lets +onlyGivenNames v1 v2
  refine Touches.ite2 ?_ ?_
  · exact Touches.pair (Touches.refl)
  · extract_lets +onlyGivenNames h3
    refine Touches.cut (x := h3) ?_ fun th3 => ?_
    · subst h3
      exact Touches.refl.step Hw.sf_touches
    clear_value h3
    extract_lets +onlyGivenNames v4
    refine Touches.ite2 ?_ ?_
    · exact Touches.pair (th3)
    · exact Touches.pair (th3.step Hw.sf_touches)

theorem Hw.bootBegin_touches {h : Hw} : Touches [.regs, .mem, .ecc, .kept, .pwr, .fw, .upd] h (Hw.bootBegin h) := by
  unfold Hw.bootBegin
  extract_lets +onlyGivenNames v1
  extract_lets +onlyGivenNames h2
  refine Touches.cut (x := h2) ?_ fun th2 => ?_
  · subst h2
    exact Touches.refl.step set_pwr_touches
  clear_value h2
  extract_lets +onlyGivenNames h3
  refine Touches.cut (x := h3) ?_ fun th3 => ?_
  · subst h3
    exact ((th2.step Hw.sf_touches).step Hw.sf_touches).step Hw.sf_touches
  clear_value h3
  extract_lets +onlyGivenNames h4
  refine Touches.cut (x := h4) ?_ fun th4 => ?_
  · subst h4
    exact (th3.step Hw.sf_touches).step Hw.sf_touches
  clear_value h4
  exact (((th4.step Hw.showLifecycle_touches).step Hw.sf_touches).step Hw.journalScan_touches).step Hw.readKept_touches

theorem Hw.bootTests_touches {h : Hw} {f : BootFacts} : Touches [.regs, .mem, .ecc, .kept, .pwr, .sys, .elogQ, .memu, .strands, .pkey] h (Hw.bootTests h f) := by
  unfold Hw.bootTests
  extract_lets +onlyGivenNames v1 v2
  extract_lets +onlyGivenNames h3
  refine Touches.cut (x := h3) ?_ fun th3 => ?_
  · subst h3
    exact (Touches.refl.step Hw.bootMemory_touches).step Hw.bootEngines_touches
  clear_value h3
  extract_lets +onlyGivenNames h4
  refine Touches.cut (x := h4) ?_ fun th4 => ?_
  · subst h4
    exact th3.step Hw.sf_touches
  clear_value h4
  extract_lets +onlyGivenNames h5
  refine Touches.cut (x := h5) ?_ fun th5 => ?_
  · subst h5
    exact (th4.step Hw.restoreReg_touches).step Hw.bootWipe_touches
  clear_value h5
  extract_lets +onlyGivenNames h6
  refine Touches.cut (x := h6) ?_ fun th6 => ?_
  · subst h6
    refine Touches.ite ?_ ?_
    · exact th5
    · exact th5.step Hw.keyLoad_touches
  clear_value h6
  refine Touches.ite ?_ ?_
  · exact th6
  · exact th6.step Hw.initScan_touches

theorem Hw.bootImage_touches {h : Hw} {f : BootFacts} : Touches [.regs, .mem, .ecc, .sys, .elogQ, .hot, .fw, .pkey, .rtc, .upd] h (Hw.bootImage h f) := by
  unfold Hw.bootImage
  extract_lets +onlyGivenNames v1 v2
  extract_lets +onlyGivenNames h3
  refine Touches.cut (x := h3) ?_ fun th3 => ?_
  · subst h3
    exact (Touches.refl.step set_upd_touches).step Hw.keepRecords_touches
  clear_value h3
  extract_lets +onlyGivenNames h4
  refine Touches.cut (x := h4) ?_ fun th4 => ?_
  · subst h4
    exact (th3.step Hw.sf_touches).step Hw.sf_touches
  clear_value h4
  refine Touches.ite ?_ ?_
  · exact th4.step Hw.bootFailure_touches
  · refine Touches.ite ?_ ?_
    · exact th4.step Hw.bootFailure_touches
    · split
      · rename_i a5 h6 e7
        refine Touches.cut (x := h6) (Touches.snd ?_ e7) fun th6 => ?_
        · exact th4.step Hw.selectImage_touches
        exact th6.step Hw.bootFailure_touches
      · rename_i a8 a9 h10 e11
        refine Touches.cut (x := h10) (Touches.snd ?_ e11) fun th10 => ?_
        · exact th4.step Hw.selectImage_touches
        exact (((th10.step Hw.sf_touches).step Hw.sf_touches).step Hw.sf_touches).step Hw.startFirmware_touches

theorem Hw.coldBoot_touches {h : Hw} {f : BootFacts} : Touches [.regs, .mem, .ecc, .kept, .pwr, .sys, .elogQ, .memu, .strands, .hot, .fw, .pkey, .rtc, .upd] h (Hw.coldBoot h f) := by
  unfold Hw.coldBoot
  refine Touches.ite ?_ ?_
  · exact ((Touches.refl.step Hw.bootBegin_touches).step Hw.bootTests_touches).step Hw.bootImage_touches
  · exact Touches.refl

theorem Hw.heartbeat_touches {h : Hw} {l : Nat} : Touches [.regs, .fw, .serials, .cans] h (Hw.heartbeat h l) := by
  unfold Hw.heartbeat
  extract_lets +onlyGivenNames h1
  refine Touches.cut (x := h1) ?_ fun th1 => ?_
  · subst h1
    exact Touches.refl.step Hw.linkSend_touches
  clear_value h1
  exact th1.step set_fw_touches

theorem Hw.bootHeartbeat_touches {h : Hw} : Touches [.regs, .fw, .serials, .cans] h (Hw.bootHeartbeat h) := by
  unfold Hw.bootHeartbeat
  refine Touches.ite ?_ ?_
  · exact Touches.refl
  · exact Touches.refl.step Hw.heartbeat_touches

theorem Hw.testenRelease_touches {h : Hw} : Touches (Block.except [.mem, .ecc, .free, .resp, .kept]) h (Hw.testenRelease h) := by
  unfold Hw.testenRelease
  refine Touches.ite ?_ ?_
  · exact (Touches.refl.step set_fuses_touches).step Hw.coreReset_touches
  · exact Touches.refl

end Sys2Proof.Machine
end

