-- ==== Sys2Proof/Laws/TouchWakePlan.lean ====
section
/-! SUPPORT. What each operation of Machine/WakePlan.lean touches of the part: the components outside the list stay as they were. -/

set_option Elab.async false

namespace Sys2Proof.Machine

theorem Hw.queueRoom_touches {h : Hw} : Touches [.regs, .mem, .free, .sched, .rtc] h (Hw.queueRoom h) := by
  unfold Hw.queueRoom
  refine Touches.forEach ?_ fun x1 h2 th2 => ?_
  · exact Touches.refl
  · refine Touches.ite ?_ ?_
    · exact th2
    · refine Touches.step ?_ Hw.backupEdge_touches
      refine Touches.ite ?_ ?_
      · exact th2.step Hw.anextRecompute_touches
      · exact th2

theorem Hw.loadCountdown_touches {h : Hw} : Touches [.regs, .mem, .free, .resp, .sched, .rtc] h (Hw.loadCountdown h) := by
  unfold Hw.loadCountdown
  extract_lets +onlyGivenNames v1 v2 v3
  split
  · extract_lets +onlyGivenNames v9 v10
    extract_lets +onlyGivenNames h11
    refine Touches.cut (x := h11) ?_ fun th11 => ?_
    · subst h11
      exact (Touches.refl.step Hw.setSched_touches).step Hw.queueRoom_touches
    clear_value h11
    extract_lets +onlyGivenNames v12
    extract_lets +onlyGivenNames h13
    refine Touches.cut (x := h13) ?_ fun th13 => ?_
    · subst h13
      exact th11.step Hw.setSched_touches
    clear_value h13
    exact (th13.step Hw.backupPost_touches).step Hw.backupPost_touches

theorem Hw.planWake_touches {h : Hw} : Touches [.sched] h (Hw.planWake h) := by
  unfold Hw.planWake
  extract_lets +onlyGivenNames v1
  exact Touches.refl.step Hw.setSched_touches

theorem Hw.advSent_touches {h : Hw} : Touches [.sched] h (Hw.advSent h) := by
  unfold Hw.advSent
  refine Touches.ite ?_ ?_
  · exact Touches.refl.step Hw.setSched_touches
  · exact Touches.refl

theorem Hw.snapTaken_touches {h : Hw} : Touches [.sched] h (Hw.snapTaken h) := by
  unfold Hw.snapTaken
  exact Touches.refl.step Hw.setSched_touches

end Sys2Proof.Machine
end

