-- ==== Sys2Proof/Laws/TouchPower.lean ====
section
/-! SUPPORT. What each operation of Machine/Power.lean touches of the part: the components outside the list stay as they were. -/

set_option Elab.async false

namespace Sys2Proof.Machine

theorem Hw.plTarget_touches {h : Hw} {v : Nat} : Touches [.regs] h (Hw.plTarget h v) := by
  unfold Hw.plTarget
  extract_lets +onlyGivenNames v1 v2
  extract_lets +onlyGivenNames h3
  refine Touches.cut (x := h3) ?_ fun th3 => ?_
  · subst h3
    refine Touches.ite ?_ ?_
    · exact Touches.refl.step Hw.sf_touches
    · exact Touches.refl
  clear_value h3
  extract_lets +onlyGivenNames v4
  refine Touches.ite ?_ ?_
  · exact th3.step Hw.sf_touches
  · refine Touches.ite ?_ ?_
    · exact th3.step Hw.sf_touches
    · extract_lets +onlyGivenNames h5
      refine Touches.cut (x := h5) ?_ fun th5 => ?_
      · subst h5
        exact (th3.step Hw.sf_touches).step Hw.sf_touches
      clear_value h5
      refine Touches.ite ?_ ?_
      · exact th5.step Hw.sf_touches
      · exact th5

theorem Hw.plDone_touches {h : Hw} : Touches [.regs] h (Hw.plDone h) := by
  unfold Hw.plDone
  refine Touches.ite ?_ ?_
  · exact (Touches.refl.step Hw.sf_touches).step Hw.sf_touches
  · exact Touches.refl

theorem Hw.stopRequest_touches {h : Hw} {v : Nat} : Touches [.regs, .pwr] h (Hw.stopRequest h v) := by
  unfold Hw.stopRequest
  extract_lets +onlyGivenNames h1
  refine Touches.cut (x := h1) ?_ fun th1 => ?_
  · subst h1
    refine Touches.ite ?_ ?_
    · exact Touches.refl.step Hw.sf_touches
    · exact Touches.refl
  clear_value h1
  refine Touches.ite ?_ ?_
  · exact th1
  · refine Touches.ite ?_ ?_
    · exact (th1.step Hw.sf_touches).step Hw.sf_touches
    · refine Touches.ite ?_ ?_
      · exact (th1.step Hw.sf_touches).step Hw.sf_touches
      · refine Touches.ite ?_ ?_
        · exact th1
        · exact th1.step set_pwr_touches

theorem Hw.stopEnd_touches {h : Hw} : Touches [.pwr] h (Hw.stopEnd h) := by
  unfold Hw.stopEnd
  refine Touches.ite ?_ ?_
  · exact Touches.refl.step set_pwr_touches
  · exact Touches.refl

theorem Hw.stopExit_touches {h : Hw} : Touches [.pwr] h (Hw.stopExit h) := by
  unfold Hw.stopExit
  refine Touches.ite ?_ ?_
  · exact Touches.refl.step Hw.stopEnd_touches
  · exact Touches.refl

theorem Hw.restoreBits_touches {h : Hw} {a : Nat} {v : Nat} : Touches [.regs] h (Hw.restoreBits h a v) := by
  unfold Hw.restoreBits
  extract_lets +onlyGivenNames v1
  exact Touches.refl.step Hw.setReg_touches

theorem Hw.restoreSaved_touches {h : Hw} {p : Nat → Bool} : Touches [.regs] h (Hw.restoreSaved h p) := by
  unfold Hw.restoreSaved
  refine Touches.forEach ?_ fun x1 h2 th2 => ?_
  · exact Touches.refl
  · exact th2.step Hw.restoreBits_touches

theorem Hw.slackTurn_touches {h : Hw} {ap : Nat} {held : List Nat} : Touches [.regs] h (Hw.slackTurn h ap held) := by
  unfold Hw.slackTurn
  extract_lets +onlyGivenNames v1
  extract_lets +onlyGivenNames h2
  refine Touches.cut (x := h2) ?_ fun th2 => ?_
  · subst h2
    exact Touches.refl.step Hw.bump_touches
  clear_value h2
  extract_lets +onlyGivenNames h3
  refine Touches.cut (x := h3) ?_ fun th3 => ?_
  · subst h3
    exact th2.step Hw.bump_touches
  clear_value h3
  extract_lets +onlyGivenNames h4
  refine Touches.cut (x := h4) ?_ fun th4 => ?_
  · subst h4
    exact ((th3.step Hw.sf_touches).step Hw.sf_touches).step Hw.sf_touches
  clear_value h4
  exact th4.step Hw.sf_touches

theorem Hw.unitsToSlack_touches {h : Hw} : Touches [.mem, .ecc, .pwr, .memu] h (Hw.unitsToSlack h) := by
  unfold Hw.unitsToSlack
  generalize upTo 18 = ns18
  refine Touches.forEach ?_ fun x1 h2 th2 => ?_
  · exact Touches.refl
  · extract_lets +onlyGivenNames v3
    refine Touches.ite ?_ ?_
    · exact th2
    · refine Touches.ite ?_ ?_
      · exact (th2.step set_pwr_touches).step Hw.canaries_touches
      · exact th2.step Hw.fillUnit_touches

theorem Hw.showUnits_touches {h : Hw} {old : Hw} {st : Nat → Nat} : Touches [.regs] h (Hw.showUnits h old st) := by
  unfold Hw.showUnits
  generalize upTo 18 = ns18
  refine Touches.forEach ?_ fun x1 h2 th2 => ?_
  · exact Touches.refl
  · extract_lets +onlyGivenNames h3
    refine Touches.cut (x := h3) ?_ fun th3 => ?_
    · subst h3
      exact (th2.step Hw.sf_touches).step Hw.sf_touches
    clear_value h3
    extract_lets +onlyGivenNames h4
    refine Touches.cut (x := h4) ?_ fun th4 => ?_
    · subst h4
      exact th3.step Hw.sf_touches
    clear_value h4
    exact th4.step Hw.setUnit_touches

theorem Hw.slackClear_touches {h : Hw} {saved : List (Nat × Nat)} :
    Touches (Block.except [.mem, .ecc, .free, .resp, .fuses, .kept, .rtc, .elogQ, .fw, .upd, .lyd, .fix]) h (h.slackClear saved) := by
  intro b hb
  cases b <;> first | rfl | cases hb

theorem Hw.slackSerial_touches {h : Hw} {old : Hw} {n : Nat} : Touches [.regs, .serials] h (Hw.slackSerial h old n) := by
  unfold Hw.slackSerial
  extract_lets +onlyGivenNames v1 v2
  extract_lets +onlyGivenNames h3
  refine Touches.cut (x := h3) ?_ fun th3 => ?_
  · subst h3
    exact Touches.refl.step Hw.setSerial_touches
  clear_value h3
  extract_lets +onlyGivenNames h4
  refine Touches.cut (x := h4) ?_ fun th4 => ?_
  · subst h4
    exact th3.step Hw.setReg_touches
  clear_value h4
  exact ((th4.step Hw.setReg_touches).step Hw.setReg_touches).step Hw.setReg_touches

theorem Hw.slackReady_touches {h : Hw} : Touches [.regs, .mem, .ecc, .free, .resp, .hot, .sched, .rtc] h (Hw.slackReady h) := by
  unfold Hw.slackReady
  refine Touches.ite ?_ ?_
  · exact (Touches.refl.step Hw.hsSave_touches).step Hw.loadCountdown_touches
  · exact Touches.refl

theorem Hw.slackEnter_touches {h : Hw} : Touches (Block.except [.fuses, .kept, .elogQ, .fw, .lyd, .upd, .fix]) h (Hw.slackEnter h) := by
  unfold Hw.slackEnter
  extract_lets +onlyGivenNames h1
  refine Touches.cut (x := h1) ?_ fun th1 => ?_
  · subst h1
    exact Touches.refl.step Hw.slackReady_touches
  clear_value h1
  extract_lets +onlyGivenNames h2
  refine Touches.cut (x := h2) ?_ fun th2 => ?_
  · subst h2
    exact (th1.step Hw.sf_touches).step Hw.bump_touches
  clear_value h2
  extract_lets +onlyGivenNames h3
  refine Touches.cut (x := h3) ?_ fun th3 => ?_
  · subst h3
    exact ((th2.step Hw.sf_touches).step Hw.sf_touches).step Hw.sf_touches
  clear_value h3
  extract_lets +onlyGivenNames v4
  extract_lets +onlyGivenNames h5
  refine Touches.cut (x := h5) ?_ fun th5 => ?_
  · subst h5
    refine Touches.forEach ?_ fun x6 h7 th7 => ?_
    · exact th3
    · exact th7.step Hw.mramDone_touches
  clear_value h5
  extract_lets +onlyGivenNames h8
  refine Touches.cut (x := h8) ?_ fun th8 => ?_
  · subst h8
    exact ((th5.step Hw.slowEnter_touches).step Hw.slowEnter_touches).step Hw.unitsToSlack_touches
  clear_value h8
  extract_lets +onlyGivenNames h9
  refine Touches.cut (x := h9) ?_ fun th9 => ?_
  · subst h9
    exact ((th8.step Hw.slackClear_touches).step Hw.slackSerial_touches).step Hw.slackSerial_touches
  clear_value h9
  extract_lets +onlyGivenNames h10
  refine Touches.cut (x := h10) ?_ fun th10 => ?_
  · subst h10
    exact th9.step Hw.setReg_touches
  clear_value h10
  extract_lets +onlyGivenNames h11
  refine Touches.cut (x := h11) ?_ fun th11 => ?_
  · subst h11
    exact (th10.step Hw.sf_touches).step Hw.sf_touches
  clear_value h11
  extract_lets +onlyGivenNames h12
  refine Touches.cut (x := h12) ?_ fun th12 => ?_
  · subst h12
    exact th11.step Hw.showUnits_touches
  clear_value h12
  exact ((th12.step Hw.showLifecycle_touches).step Hw.sf_touches).step Hw.sf_touches

theorem Hw.slackRequest_touches {h : Hw} {v : Nat} {ap : Nat} {held : List Nat} : Touches (Block.except [.fuses, .kept, .elogQ, .fw, .lyd, .upd, .fix]) h (Hw.slackRequest h v ap held) := by
  unfold Hw.slackRequest
  refine Touches.ite ?_ ?_
  · exact Touches.refl
  · extract_lets +onlyGivenNames h1
    refine Touches.cut (x := h1) ?_ fun th1 => ?_
    · subst h1
      exact Touches.refl.step Hw.plDone_touches
    clear_value h1
    extract_lets +onlyGivenNames v2 v3
    refine Touches.ite ?_ ?_
    · exact th1.step Hw.slackTurn_touches
    · refine Touches.ite ?_ ?_
      · extract_lets +onlyGivenNames h4
        refine Touches.cut (x := h4) ?_ fun th4 => ?_
        · subst h4
          refine Touches.ite ?_ ?_
          · exact (((th1.step Hw.slowEnter_touches).step Hw.slowEnter_touches).step Hw.slowExit_touches).step Hw.slowExit_touches
          · exact th1
        clear_value h4
        exact th4.step Hw.slackTurn_touches
      · exact th1.step Hw.slackEnter_touches

theorem Hw.serialRestore_touches {h : Hw} {n : Nat} : Touches [.serials] h (Hw.serialRestore h n) := by
  unfold Hw.serialRestore
  extract_lets +onlyGivenNames v1 v2 v3
  exact Touches.refl.step Hw.setSerial_touches

theorem Hw.wakeLinks_touches {h : Hw} : Touches [.fw] h (Hw.wakeLinks h) := by
  unfold Hw.wakeLinks
  extract_lets +onlyGivenNames v1
  exact Touches.refl.step set_fw_touches

theorem Hw.cellsLost_touches {h : Hw} {lost : List (Nat × Nat)} : Touches [.memu] h (Hw.cellsLost h lost) := by
  unfold Hw.cellsLost
  refine Touches.forEach ?_ fun x1 h2 th2 => ?_
  · exact Touches.refl
  · refine Touches.ite ?_ ?_
    · exact th2.step Hw.setCanary_touches
    · exact th2

theorem Hw.wakeUnit_touches {h : Hw} {u : Nat} : Touches [.regs, .mem, .ecc, .pwr, .elogQ, .memu] h (Hw.wakeUnit h u) := by
  unfold Hw.wakeUnit
  refine Touches.ite ?_ ?_
  · exact Touches.refl
  · refine Touches.ite ?_ ?_
    · extract_lets +onlyGivenNames v1
      extract_lets +onlyGivenNames h2
      refine Touches.cut (x := h2) ?_ fun th2 => ?_
      · subst h2
        exact Touches.refl.step Hw.retentionCheck_touches
      clear_value h2
      extract_lets +onlyGivenNames v3
      extract_lets +onlyGivenNames h4
      refine Touches.cut (x := h4) ?_ fun th4 => ?_
      · subst h4
        refine Touches.ite ?_ ?_
        · exact th2.step Hw.sf_touches
        · exact th2
      clear_value h4
      refine Touches.ite ?_ ?_
      · exact th4.step Hw.setUnit_touches
      · exact th4
    · refine Touches.ite ?_ ?_
      · exact Touches.refl
      · exact (Touches.refl.step Hw.fillUnit_touches).step Hw.setUnit_touches

theorem Hw.wakeStart_touches {h : Hw} {kept : Bool} {facts : HotFacts} : Touches [.regs, .elogQ, .hot] h (Hw.wakeStart h kept facts) := by
  unfold Hw.wakeStart
  refine Touches.ite ?_ ?_
  · exact Touches.refl.step Hw.setHot_touches
  · extract_lets +onlyGivenNames h1
    refine Touches.cut (x := h1) ?_ fun th1 => ?_
    · subst h1
      split
      · exact Touches.refl.step Hw.report_touches
      · exact Touches.refl
    clear_value h1
    exact th1.step Hw.hotLoad_touches

theorem Hw.wakeUp_touches {h : Hw} {src : Nat} {saveOk : Bool} {lost : List (Nat × Nat)} {facts : HotFacts} {wipeBad : Nat} : Touches (Block.except [.free, .resp, .fuses]) h (Hw.wakeUp h src saveOk lost facts wipeBad) := by
  unfold Hw.wakeUp
  generalize upTo 18 = ns18
  extract_lets +onlyGivenNames h1
  refine Touches.cut (x := h1) ?_ fun th1 => ?_
  · subst h1
    exact (Touches.refl.step Hw.sf_touches).step Hw.sf_touches
  clear_value h1
  refine Touches.ite ?_ ?_
  · exact th1.step Hw.coreReset_touches
  · extract_lets +onlyGivenNames v2 v3
    extract_lets +onlyGivenNames h4
    refine Touches.cut (x := h4) ?_ fun th4 => ?_
    · subst h4
      exact th1.step set_pwr_tcnt_touches
    clear_value h4
    extract_lets +onlyGivenNames h5
    refine Touches.cut (x := h5) ?_ fun th5 => ?_
    · subst h5
      exact th4.step Hw.planWake_touches
    clear_value h5
    extract_lets +onlyGivenNames h6
    refine Touches.cut (x := h6) ?_ fun th6 => ?_
    · subst h6
      exact th5.step Hw.restoreSaved_touches
    clear_value h6
    extract_lets +onlyGivenNames h7
    refine Touches.cut (x := h7) ?_ fun th7 => ?_
    · subst h7
      exact th6.step Hw.wdRestart_touches
    clear_value h7
    extract_lets +onlyGivenNames h8
    refine Touches.cut (x := h8) ?_ fun th8 => ?_
    · subst h8
      refine Touches.forEach ?_ fun x9 h10 th10 => ?_
      · exact th7
      · exact th10.step Hw.serialRestore_touches
    clear_value h8
    extract_lets +onlyGivenNames h11
    refine Touches.cut (x := h11) ?_ fun th11 => ?_
    · subst h11
      refine Touches.forEach ?_ fun x12 h13 th13 => ?_
      · exact th8
      · refine Touches.ite ?_ ?_
        · exact th13
        · exact th13.step Hw.sf_touches
    clear_value h11
    extract_lets +onlyGivenNames h14
    refine Touches.cut (x := h14) ?_ fun th14 => ?_
    · subst h14
      exact th11.step Hw.cellsLost_touches
    clear_value h14
    extract_lets +onlyGivenNames v15
    extract_lets +onlyGivenNames h16
    refine Touches.cut (x := h16) ?_ fun th16 => ?_
    · subst h16
      refine Touches.forEach ?_ fun x17 h18 th18 => ?_
      · exact th14
      · exact th18.step Hw.wakeUnit_touches
    clear_value h16
    extract_lets +onlyGivenNames h19
    refine Touches.cut (x := h19) ?_ fun th19 => ?_
    · subst h19
      refine Touches.step ?_ Hw.sf_touches
      refine Touches.ite ?_ ?_
      · exact th16.step Hw.wipeWhole_touches
      · exact th16
    clear_value h19
    extract_lets +onlyGivenNames h20
    refine Touches.cut (x := h20) ?_ fun th20 => ?_
    · subst h20
      exact (th19.step Hw.wakeBuffer_touches).step Hw.wakeBuffer_touches
    clear_value h20
    extract_lets +onlyGivenNames h21
    refine Touches.cut (x := h21) ?_ fun th21 => ?_
    · subst h21
      exact ((th20.step Hw.sf_touches).step Hw.wakeLinks_touches).step Hw.logTampers_touches
    clear_value h21
    exact th21.step Hw.wakeStart_touches

theorem Hw.wakeSource_touches {h : Hw} {src : Nat} {saveOk : Bool} {lost : List (Nat × Nat)} {facts : HotFacts} {wipeBad : Nat} : Touches (Block.except [.free, .resp, .fuses]) h (Hw.wakeSource h src saveOk lost facts wipeBad) := by
  unfold Hw.wakeSource
  refine Touches.ite ?_ ?_
  · exact Touches.refl
  · extract_lets +onlyGivenNames h1
    refine Touches.cut (x := h1) ?_ fun th1 => ?_
    · subst h1
      exact Touches.refl.step Hw.flagSource_touches
    clear_value h1
    refine Touches.ite ?_ ?_
    · exact th1
    · split
      · exact th1.step Hw.stopEnd_touches
      · exact th1.step Hw.wakeUp_touches
      · exact th1

theorem Hw.tamperWipe_touches {h : Hw} {tamper : Bool} {n : Nat} : Touches [.regs, .mem, .ecc, .pwr, .memu] h (Hw.tamperWipe h tamper n) := by
  unfold Hw.tamperWipe
  refine Touches.ite ?_ ?_
  · exact Touches.refl
  · refine Touches.ite ?_ ?_
    · exact Touches.refl.step Hw.slackWipe_touches
    · exact Touches.refl.step Hw.wipeRequest_touches

theorem Hw.domainWake_touches {h : Hw} {d : Nat} : Touches [.regs, .resp] h (Hw.domainWake h d) := by
  unfold Hw.domainWake
  refine Touches.ite ?_ ?_
  · extract_lets +onlyGivenNames h1
    refine Touches.cut (x := h1) ?_ fun th1 => ?_
    · subst h1
      exact Touches.refl.step Hw.wakeDomain_touches
    clear_value h1
    exact th1.step set_resp_touches
  · exact Touches.refl

theorem Hw.domainUnit_touches {h : Hw} {u : Nat} : Touches [.regs, .mem, .ecc] h (Hw.domainUnit h u) := by
  unfold Hw.domainUnit
  refine Touches.ite ?_ ?_
  · exact Touches.refl
  · refine Touches.ite ?_ ?_
    · exact Touches.refl.step Hw.setUnit_touches
    · refine Touches.ite ?_ ?_
      · exact (Touches.refl.step Hw.fillUnit_touches).step Hw.setUnit_touches
      · exact Touches.refl

theorem Hw.domainReady_touches {h : Hw} {d : Nat} : Touches [.regs, .mem, .ecc, .elogQ, .strands, .hitch] h (Hw.domainReady h d) := by
  unfold Hw.domainReady
  refine Touches.ite ?_ ?_
  · exact Touches.refl
  · extract_lets +onlyGivenNames h1
    refine Touches.cut (x := h1) ?_ fun th1 => ?_
    · subst h1
      exact (Touches.refl.step Hw.setDom_touches).step Hw.restoreSaved_touches
    clear_value h1
    split
    · exact ((th1.step set_hitch_touches).step Hw.domainUnit_touches).step Hw.initScan_touches
    · extract_lets +onlyGivenNames v4
      extract_lets +onlyGivenNames h5
      refine Touches.cut (x := h5) ?_ fun th5 => ?_
      · subst h5
        exact (th1.step Hw.domainUnit_touches).step Hw.domainUnit_touches
      clear_value h5
      refine Touches.ite ?_ ?_
      · exact th5
      · refine Touches.ite ?_ ?_
        · exact (th5.step Hw.slotsEmpty_touches).step Hw.loadKernels_touches
        · exact th5.step Hw.slotsEmpty_touches
    · refine Touches.forEach ?_ fun x7 h8 th8 => ?_
      · exact th1
      · exact th8.step Hw.domainUnit_touches
    · exact th1

end Sys2Proof.Machine
end

