-- ==== Sys2Proof/Laws/TouchSession.lean ====
section
/-! SUPPORT. What each operation of Machine/Session.lean touches of the part: the components outside the list stay as they were. -/

set_option Elab.async false

namespace Sys2Proof.Machine

theorem Hw.dropSubs_touches {h : Hw} {l : Nat} : Touches [.fw] h (Hw.dropSubs h l) := by
  unfold Hw.dropSubs
  exact Touches.refl.step set_fw_touches

theorem Hw.fallBack_touches {h : Hw} {l : Nat} : Touches [.fw] h (Hw.fallBack h l) := by
  unfold Hw.fallBack
  exact (Touches.refl.step Hw.setLink_touches).step Hw.dropSubs_touches

theorem Hw.transferAbandon_touches {h : Hw} : Touches [.upd] h (Hw.transferAbandon h) := by
  unfold Hw.transferAbandon
  exact Touches.refl.step set_upd_touches

theorem Hw.lydEnd_touches {h : Hw} : Touches [.regs, .fw, .serials, .lyd, .upd] h (Hw.lydEnd h) := by
  unfold Hw.lydEnd
  refine Touches.ite ?_ ?_
  · exact Touches.refl
  · extract_lets +onlyGivenNames h1
    refine Touches.cut (x := h1) ?_ fun th1 => ?_
    · subst h1
      exact (Touches.refl.step Hw.fallBack_touches).step Hw.transferAbandon_touches
    clear_value h1
    extract_lets +onlyGivenNames v2
    extract_lets +onlyGivenNames h3
    refine Touches.cut (x := h3) ?_ fun th3 => ?_
    · subst h3
      exact th1.step Hw.setLink_touches
    clear_value h3
    extract_lets +onlyGivenNames h4
    refine Touches.cut (x := h4) ?_ fun th4 => ?_
    · subst h4
      exact th3.step Hw.setReg_touches
    clear_value h4
    extract_lets +onlyGivenNames v5
    extract_lets +onlyGivenNames h6
    refine Touches.cut (x := h6) ?_ fun th6 => ?_
    · subst h6
      exact th4.step set_lyd_touches
    clear_value h6
    exact th6.step Hw.uartShadow_touches

theorem Hw.noSession_touches {h : Hw} : Touches [.regs] h (Hw.noSession h) := by
  unfold Hw.noSession
  exact Touches.refl.step Hw.bump_touches

theorem Hw.lydValid_touches {h : Hw} : Touches [.regs, .lyd] h (Hw.lydValid h) := by
  unfold Hw.lydValid
  extract_lets +onlyGivenNames v1
  extract_lets +onlyGivenNames h2
  refine Touches.cut (x := h2) ?_ fun th2 => ?_
  · subst h2
    exact Touches.refl.step set_lyd_touches
  clear_value h2
  refine Touches.ite ?_ ?_
  · exact (th2.step set_lyd_touches).step Hw.sf_touches
  · exact th2

theorem Hw.lydAttach_touches {h : Hw} : Touches [.regs, .fw, .serials, .lyd, .upd] h (Hw.lydAttach h) := by
  unfold Hw.lydAttach
  extract_lets +onlyGivenNames h1
  refine Touches.cut (x := h1) ?_ fun th1 => ?_
  · subst h1
    exact Touches.refl.step Hw.lydEnd_touches
  clear_value h1
  extract_lets +onlyGivenNames v2 v3
  extract_lets +onlyGivenNames h4
  refine Touches.cut (x := h4) ?_ fun th4 => ?_
  · subst h4
    exact th1.step set_lyd_touches
  clear_value h4
  extract_lets +onlyGivenNames h5
  refine Touches.cut (x := h5) ?_ fun th5 => ?_
  · subst h5
    exact (th4.step Hw.sf_touches).step Hw.sf_touches
  clear_value h5
  exact th5.step Hw.wowellSend_touches

theorem Hw.lydKeep_touches {h : Hw} {sid : Nat} : Touches [.regs, .lyd] h (Hw.lydKeep h sid) := by
  unfold Hw.lydKeep
  refine Touches.ite ?_ ?_
  · exact Touches.refl.step Hw.lydValid_touches
  · exact Touches.refl.step Hw.noSession_touches

theorem Hw.lydDetach_touches {h : Hw} {sid : Nat} : Touches [.regs, .fw, .serials, .lyd, .upd] h (Hw.lydDetach h sid) := by
  unfold Hw.lydDetach
  refine Touches.ite ?_ ?_
  · exact Touches.refl.step Hw.lydEnd_touches
  · exact Touches.refl.step Hw.noSession_touches

theorem Hw.lydRate_touches {h : Hw} {sid : Nat} {inc : Nat} {mod : Nat} : Touches [.regs, .fw, .serials, .lyd] h (Hw.lydRate h sid inc mod) := by
  unfold Hw.lydRate
  refine Touches.ite ?_ ?_
  · exact Touches.refl.step Hw.noSession_touches
  · extract_lets +onlyGivenNames h1
    refine Touches.cut (x := h1) ?_ fun th1 => ?_
    · subst h1
      exact Touches.refl.step Hw.lydValid_touches
    clear_value h1
    extract_lets +onlyGivenNames v2 v3
    extract_lets +onlyGivenNames h4
    refine Touches.cut (x := h4) ?_ fun th4 => ?_
    · subst h4
      exact th1.step Hw.wowellSend_touches
    clear_value h4
    refine Touches.ite ?_ ?_
    · exact (th4.step set_lyd_touches).step Hw.sf_touches
    · exact th4

theorem Hw.lydSent_touches {h : Hw} : Touches [.regs, .serials, .lyd] h (Hw.lydSent h) := by
  unfold Hw.lydSent
  split
  · exact Touches.refl
  · refine Touches.ite ?_ ?_
    · exact Touches.refl.step set_lyd_touches
    · extract_lets +onlyGivenNames v7
      extract_lets +onlyGivenNames h8
      refine Touches.cut (x := h8) ?_ fun th8 => ?_
      · subst h8
        exact Touches.refl.step set_lyd_touches
      clear_value h8
      exact th8.step Hw.uartShadow_touches

theorem Hw.charSent_touches {h : Hw} {n : Nat} {d : Nat} {par : Bool} {stop : Bool} {noise : Bool} {cts : Bool} : Touches [.regs, .fw, .serials, .lyd] h (Hw.charSent h n d par stop noise cts) := by
  unfold Hw.charSent
  refine Touches.ite ?_ ?_
  · exact (Touches.refl.step Hw.lydSent_touches).step Hw.uartSent_touches
  · exact Touches.refl.step Hw.uartSent_touches

theorem Hw.lydTimeout_touches {h : Hw} : Touches [.regs, .tcnt, .fw, .serials, .lyd, .upd] h (Hw.lydTimeout h) := by
  unfold Hw.lydTimeout
  refine Touches.ite ?_ ?_
  · exact Touches.refl
  · exact (Touches.refl.step Hw.reach_touches).step Hw.lydEnd_touches

theorem Hw.lydRateTimeout_touches {h : Hw} : Touches [.regs, .tcnt, .fw, .serials, .lyd, .upd] h (Hw.lydRateTimeout h) := by
  unfold Hw.lydRateTimeout
  split
  · exact Touches.refl
  · exact (Touches.refl.step Hw.reach_touches).step Hw.lydEnd_touches

theorem Hw.serviceExpiry_touches {h : Hw} : Touches [.regs, .tcnt, .fw] h (Hw.serviceExpiry h) := by
  unfold Hw.serviceExpiry
  refine Touches.ite ?_ ?_
  · extract_lets +onlyGivenNames h1
    refine Touches.cut (x := h1) ?_ fun th1 => ?_
    · subst h1
      exact Touches.refl.step Hw.reach_touches
    clear_value h1
    exact (th1.step Hw.setLink_touches).step Hw.sf_touches
  · exact Touches.refl

theorem Hw.sessionTimeout_touches {h : Hw} {l : Nat} : Touches [.regs, .tcnt, .fw, .serials, .lyd, .upd] h (Hw.sessionTimeout h l) := by
  unfold Hw.sessionTimeout
  refine Touches.ite ?_ ?_
  · exact Touches.refl
  · extract_lets +onlyGivenNames h1
    refine Touches.cut (x := h1) ?_ fun th1 => ?_
    · subst h1
      exact Touches.refl.step Hw.reach_touches
    clear_value h1
    refine Touches.ite ?_ ?_
    · exact th1.step Hw.lydEnd_touches
    · exact th1.step Hw.fallBack_touches

end Sys2Proof.Machine
end

