-- ==== Sys2Proof/Laws/TouchPhoneKey.lean ====
section
/-! SUPPORT. What each operation of Machine/PhoneKey.lean touches of the part: the components outside the list stay as they were. -/

set_option Elab.async false

namespace Sys2Proof.Machine

theorem Hw.setPkey_touches {h : Hw} {p : PKey} : Touches [.pkey] h (Hw.setPkey h p) := by
  unfold Hw.setPkey
  exact Touches.refl.step set_pkey_touches

theorem Hw.pulseStart_touches {h : Hw} {i : Nat} : Touches [.regs] h (Hw.pulseStart h i) := by
  unfold Hw.pulseStart
  exact (Touches.refl.step Hw.sf_touches).step Hw.bump_touches

theorem Hw.outCommand_touches {h : Hw} {i : Nat} : Touches [.regs, .pkey] h (Hw.outCommand h i) := by
  unfold Hw.outCommand
  refine Touches.ite ?_ ?_
  · exact Touches.refl.step Hw.sf_touches
  · refine Touches.ite ?_ ?_
    · exact (Touches.refl.step Hw.sf_touches).step Hw.setPkey_touches
    · exact Touches.refl.step Hw.pulseStart_touches

theorem Hw.outWrite_touches {h : Hw} {v : Nat} : Touches [.regs, .pkey] h (Hw.outWrite h v) := by
  unfold Hw.outWrite
  extract_lets +onlyGivenNames h1
  refine Touches.cut (x := h1) ?_ fun th1 => ?_
  · subst h1
    refine Touches.ite ?_ ?_
    · exact Touches.refl.step Hw.outCommand_touches
    · exact Touches.refl
  clear_value h1
  refine Touches.ite ?_ ?_
  · exact th1.step Hw.outCommand_touches
  · exact th1

theorem Hw.pulseEnd_touches {h : Hw} {i : Nat} : Touches [.regs] h (Hw.pulseEnd h i) := by
  unfold Hw.pulseEnd
  exact Touches.refl.step Hw.sf_touches

theorem Hw.pulseDelayed_touches {h : Hw} : Touches [.regs, .pkey] h (Hw.pulseDelayed h) := by
  unfold Hw.pulseDelayed
  split
  · exact Touches.refl
  · exact (Touches.refl.step Hw.setPkey_touches).step Hw.pulseStart_touches

theorem Hw.setConn_touches {h : Hw} {k : Nat} {c : PhoneConn} : Touches [.pkey] h (Hw.setConn h k c) := by
  unfold Hw.setConn
  exact Touches.refl.step Hw.setPkey_touches

theorem Hw.connEnd_touches {h : Hw} {k : Nat} : Touches [.pkey] h (Hw.connEnd h k) := by
  unfold Hw.connEnd
  exact Touches.refl.step Hw.setPkey_touches

theorem Hw.phoneSend_touches {h : Hw} {k : Nat} {msg : List Nat} : Touches [.pkey] h (Hw.phoneSend h k msg) := by
  unfold Hw.phoneSend
  exact Touches.refl.step Hw.setPkey_touches

theorem Hw.strike_touches {h : Hw} {k : Nat} {outcome : Nat} {id : Nat} : Touches [.regs, .elogQ, .pkey] h (Hw.strike h k outcome id) := by
  unfold Hw.strike
  split
  · exact Touches.refl
  · extract_lets +onlyGivenNames h6
    refine Touches.cut (x := h6) ?_ fun th6 => ?_
    · subst h6
      exact (Touches.refl.step Hw.report_touches).step Hw.phoneSend_touches
    clear_value h6
    extract_lets +onlyGivenNames h7
    refine Touches.cut (x := h7) ?_ fun th7 => ?_
    · subst h7
      exact th6.step Hw.setConn_touches
    clear_value h7
    refine Touches.ite ?_ ?_
    · exact th7
    · extract_lets +onlyGivenNames h8
      refine Touches.cut (x := h8) ?_ fun th8 => ?_
      · subst h8
        exact th7.step Hw.connEnd_touches
      clear_value h8
      exact th8.step Hw.setPkey_touches

theorem Hw.barExpiry_touches {h : Hw} {a : Nat} : Touches [.tcnt, .pkey] h (Hw.barExpiry h a) := by
  unfold Hw.barExpiry
  split
  · exact Touches.refl
  · extract_lets +onlyGivenNames h6
    refine Touches.cut (x := h6) ?_ fun th6 => ?_
    · subst h6
      exact Touches.refl.step Hw.reach_touches
    clear_value h6
    exact th6.step Hw.setPkey_touches

theorem Hw.nonce_touches {h : Hw} : Touches [.free] h (Hw.nonce h).2 := by
  unfold Hw.nonce
  split
  · rename_i a1 a2 h3 e4
    refine Touches.cut (x := h3) (Touches.snd ?_ e4) fun th3 => ?_
    · exact Touches.refl.step Hw.freshWords_touches
    exact Touches.pair (th3)

theorem Hw.pkeyToken_touches {h : Hw} {k : Nat} {addr : Nat} {enc : Bool} {msg : List Nat} : Touches [.regs, .free, .elogQ, .pkey] h (Hw.pkeyToken h k addr enc msg) := by
  unfold Hw.pkeyToken
  refine Touches.ite ?_ ?_
  · exact Touches.refl
  · split
    · exact Touches.refl.step Hw.phoneSend_touches
    · extract_lets +onlyGivenNames v6 v7 v8
      split
      · extract_lets +onlyGivenNames v12
        extract_lets +onlyGivenNames h13
        refine Touches.cut (x := h13) ?_ fun th13 => ?_
        · subst h13
          exact Touches.refl.step Hw.setConn_touches
        clear_value h13
        refine Touches.ite ?_ ?_
        · exact th13.step Hw.phoneSend_touches
        · exact th13.step Hw.strike_touches
      · split
        · rename_i a16 a17 h18 e19
          refine Touches.cut (x := h18) (Touches.snd ?_ e19) fun th18 => ?_
          · exact Touches.refl.step Hw.nonce_touches
          exact (th18.step Hw.setConn_touches).step Hw.phoneSend_touches

theorem Hw.pkeyProof_touches {h : Hw} {k : Nat} {sig : List Nat} : Touches [.regs, .elogQ, .pkey] h (Hw.pkeyProof h k sig) := by
  unfold Hw.pkeyProof
  split
  · exact Touches.refl
  · refine Touches.ite ?_ ?_
    · exact Touches.refl
    · extract_lets +onlyGivenNames v6 v7
      refine Touches.ite ?_ ?_
      · exact Touches.refl.step Hw.setConn_touches
      · exact (Touches.refl.step Hw.setConn_touches).step Hw.strike_touches

theorem Hw.proofTimeout_touches {h : Hw} {k : Nat} : Touches [.regs, .elogQ, .tcnt, .pkey] h (Hw.proofTimeout h k) := by
  unfold Hw.proofTimeout
  split
  · exact Touches.refl
  · refine Touches.ite ?_ ?_
    · exact Touches.refl
    · exact ((Touches.refl.step Hw.reach_touches).step Hw.setConn_touches).step Hw.strike_touches

theorem Hw.pairing_touches {h : Hw} {k : Nat} {entry : List Nat} : Touches [.regs, .mem, .ecc, .fw, .pkey] h (Hw.pairing h k entry) := by
  unfold Hw.pairing
  split
  · exact Touches.refl
  · refine Touches.ite ?_ ?_
    · exact Touches.refl
    · split
      · exact Touches.refl.step Hw.phoneSend_touches
      · split
        · exact Touches.refl.step Hw.sf_touches
        · extract_lets +onlyGivenNames v16
          split
          · rename_i a17 a18 h19 e20
            refine Touches.cut (x := h19) (Touches.snd ?_ e20) fun th19 => ?_
            · exact Touches.refl.step Hw.journalWrite_touches
            exact th19
          · rename_i a21 h22 e23
            refine Touches.cut (x := h22) (Touches.snd ?_ e23) fun th22 => ?_
            · exact Touches.refl.step Hw.journalWrite_touches
            extract_lets +onlyGivenNames h24
            refine Touches.cut (x := h24) ?_ fun th24 => ?_
            · subst h24
              exact th22.step Hw.mramSet_touches
            clear_value h24
            extract_lets +onlyGivenNames v25
            extract_lets +onlyGivenNames h26
            refine Touches.cut (x := h26) ?_ fun th26 => ?_
            · subst h26
              exact th24.step Hw.setPkey_touches
            clear_value h26
            exact th26.step Hw.setConn_touches

theorem Hw.bondDelete_touches {h : Hw} {b : Nat} : Touches [.mem, .ecc, .fw, .pkey] h (Hw.bondDelete h b) := by
  unfold Hw.bondDelete
  generalize upTo 512 = ns512
  refine Touches.ite ?_ ?_
  · exact Touches.refl
  · extract_lets +onlyGivenNames h1
    refine Touches.cut (x := h1) ?_ fun th1 => ?_
    · subst h1
      refine Touches.forEach ?_ fun x2 h3 th3 => ?_
      · exact Touches.refl
      · split
        · refine Touches.ite ?_ ?_
          · exact th3.step Hw.connEnd_touches
          · exact th3
        · exact th3
    clear_value h1
    extract_lets +onlyGivenNames v9
    extract_lets +onlyGivenNames h10
    refine Touches.cut (x := h10) ?_ fun th10 => ?_
    · subst h10
      exact th1.step Hw.setPkey_touches
    clear_value h10
    extract_lets +onlyGivenNames h11
    refine Touches.cut (x := h11) ?_ fun th11 => ?_
    · subst h11
      refine Touches.forEach ?_ fun x12 h13 th13 => ?_
      · exact th10
      · refine Touches.ite ?_ ?_
        · exact th13.step Hw.mramSet_touches
        · exact th13
    clear_value h11
    exact th11.step Hw.journalDelete_touches

theorem Hw.act_touches {h : Hw} {action : Nat} {source : Nat} {bond : Nat} {outcome : Nat} {id : Nat} : Touches [.regs, .cans, .pkey] h (Hw.act h action source bond outcome id) := by
  unfold Hw.act
  extract_lets +onlyGivenNames v1 v2
  extract_lets +onlyGivenNames h3
  refine Touches.cut (x := h3) ?_ fun th3 => ?_
  · subst h3
    refine Touches.ite ?_ ?_
    · exact Touches.refl.step Hw.canSend_touches
    · exact Touches.refl
  clear_value h3
  refine Touches.ite ?_ ?_
  · exact th3.step Hw.outCommand_touches
  · exact th3

theorem Hw.remote_touches {h : Hw} {action : Nat} {source : Nat} {fleet : Bool} : Touches [.regs, .cans, .pkey] h (Hw.remote h action source fleet) := by
  unfold Hw.remote
  refine Touches.ite ?_ ?_
  · exact Touches.refl
  · refine Touches.ite ?_ ?_
    · exact Touches.refl.step Hw.act_touches
    · exact Touches.refl.step Hw.bump_touches

theorem Hw.accessFrame_touches {h : Hw} {n : Nat} : Touches [.regs, .cans, .pkey] h (Hw.accessFrame h n) := by
  unfold Hw.accessFrame
  extract_lets +onlyGivenNames v1
  split
  · refine Touches.ite ?_ ?_
    · exact (Touches.refl.step Hw.setCan_touches).step Hw.remote_touches
    · exact Touches.refl
  · exact Touches.refl

theorem Hw.decide__touches {h : Hw} {k : Nat} {action : Nat} : Touches [.regs, .elogQ, .cans, .pkey] h (Hw.decide_ h k action) := by
  unfold Hw.decide_
  extract_lets +onlyGivenNames v1 v2 v3 v4
  extract_lets +onlyGivenNames h5
  refine Touches.cut (x := h5) ?_ fun th5 => ?_
  · subst h5
    refine Touches.ite ?_ ?_
    · exact Touches.refl.step Hw.report_touches
    · exact Touches.refl
  clear_value h5
  extract_lets +onlyGivenNames h6
  refine Touches.cut (x := h6) ?_ fun th6 => ?_
  · subst h6
    exact th5.step Hw.phoneSend_touches
  clear_value h6
  extract_lets +onlyGivenNames v7
  extract_lets +onlyGivenNames h8
  refine Touches.cut (x := h8) ?_ fun th8 => ?_
  · subst h8
    exact th6.step Hw.setPkey_touches
  clear_value h8
  refine Touches.ite ?_ ?_
  · extract_lets +onlyGivenNames h9
    refine Touches.cut (x := h9) ?_ fun th9 => ?_
    · subst h9
      refine Touches.ite ?_ ?_
      · exact th8.step Hw.setConn_touches
      · exact th8
    clear_value h9
    exact th9.step Hw.act_touches
  · exact th8

theorem Hw.cmdUnlock_touches {h : Hw} {k : Nat} : Touches [.regs, .elogQ, .cans, .pkey] h (Hw.cmdUnlock h k) := by
  unfold Hw.cmdUnlock
  split
  · exact Touches.refl
  · refine Touches.ite ?_ ?_
    · exact Touches.refl.step Hw.decide__touches
    · exact Touches.refl

theorem Hw.cmdLock_touches {h : Hw} {k : Nat} : Touches [.regs, .elogQ, .cans, .pkey] h (Hw.cmdLock h k) := by
  unfold Hw.cmdLock
  refine Touches.ite ?_ ?_
  · exact Touches.refl.step Hw.decide__touches
  · exact Touches.refl

theorem Hw.csStart_touches {h : Hw} {k : Nat} : Touches [.pkey] h (Hw.csStart h k) := by
  unfold Hw.csStart
  split
  · exact Touches.refl
  · refine Touches.ite ?_ ?_
    · exact Touches.refl.step Hw.setConn_touches
    · exact Touches.refl

theorem Hw.csDone_touches {h : Hw} {k : Nat} {radio : Bool} {tones : List (Nat × Int)} {rtts : List Int} : Touches [.regs, .elogQ, .cans, .pkey] h (Hw.csDone h k radio tones rtts) := by
  unfold Hw.csDone
  split
  · exact Touches.refl
  · refine Touches.ite ?_ ?_
    · exact Touches.refl
    · extract_lets +onlyGivenNames v6
      split
      · exact Touches.refl.step Hw.setConn_touches
      · refine Touches.ite ?_ ?_
        · exact Touches.refl.step Hw.setConn_touches
        · extract_lets +onlyGivenNames h12
          refine Touches.cut (x := h12) ?_ fun th12 => ?_
          · subst h12
            exact Touches.refl.step Hw.setConn_touches
          clear_value h12
          refine Touches.ite ?_ ?_
          · exact th12.step Hw.decide__touches
          · exact th12

theorem Hw.advertise_touches {h : Hw} : Touches [.sched, .pkey] h (Hw.advertise h) := by
  unfold Hw.advertise
  refine Touches.ite ?_ ?_
  · exact (Touches.refl.step Hw.setPkey_touches).step Hw.advSent_touches
  · exact Touches.refl

theorem Hw.connsSplice_touches {h : Hw} : Touches [.pkey] h (Hw.connsSplice h) := by
  unfold Hw.connsSplice
  exact Touches.refl.step Hw.setPkey_touches

end Sys2Proof.Machine
end

