-- ==== Sys2Proof/Laws/TouchUpdate.lean ====
section
/-! SUPPORT. What each operation of Machine/Update.lean touches of the part: the components outside the list stay as they were. -/

set_option Elab.async false

namespace Sys2Proof.Machine

theorem Hw.setUpd_touches {h : Hw} {u : Update} : Touches [.upd] h (Hw.setUpd h u) := by
  unfold Hw.setUpd
  exact Touches.refl.step set_upd_touches

theorem Hw.updRefuse_touches {h : Hw} {code : Nat} : Touches [.upd] h (Hw.updRefuse h code).2 := by
  unfold Hw.updRefuse
  exact Touches.pair (Touches.refl.step Hw.setUpd_touches)

theorem Hw.updTry_touches {h0 h : Hw} {l : List Block} {checks : List (Option Nat)} {f : Hw → Option Nat × Hw} (t : Touches l h0 h)
    (hf : ∀ g, Touches l h0 g → Touches l h0 (f g).2) (hl : Block.within [.upd] l = true := by rfl) : Touches l h0 (h.updTry checks f).2 := by
  unfold Hw.updTry
  split
  · exact t.step Hw.updRefuse_touches hl
  · exact hf _ t

theorem Hw.updBegin_touches {h : Hw} {l : Nat} {b : Nat} {ver : Nat} : Touches [.upd] h (Hw.updBegin h l b ver).2 := by
  unfold Hw.updBegin
  refine Hw.updTry_touches ?_ fun h1 th1 => ?_
  · exact Touches.refl
  · exact Touches.pair (th1.step Hw.setUpd_touches)

theorem Hw.updBlock_touches {h : Hw} {l : Nat} {n : Nat} {crc : Nat} {data : List Nat} : Touches [.regs, .mem, .ecc, .elogQ, .upd] h (Hw.updBlock h l n crc data).2 := by
  unfold Hw.updBlock
  refine Hw.updTry_touches ?_ fun h1 th1 => ?_
  · exact Touches.refl
  · extract_lets +onlyGivenNames v2
    refine Touches.ite2 ?_ ?_
    · exact Touches.pair (th1.step Hw.report_touches)
    · extract_lets +onlyGivenNames v3 v4
      exact Touches.pair ((th1.step Hw.mramSet_touches).step Hw.setUpd_touches)

theorem Hw.updCancel_touches {h : Hw} : Touches [.upd] h (Hw.updCancel h) := by
  unfold Hw.updCancel
  exact Touches.refl.step Hw.transferAbandon_touches

theorem Hw.updTimeout_touches {h : Hw} : Touches [.tcnt, .upd] h (Hw.updTimeout h) := by
  unfold Hw.updTimeout
  refine Touches.ite ?_ ?_
  · exact Touches.refl
  · exact (Touches.refl.step Hw.reach_touches).step Hw.transferAbandon_touches

theorem Hw.growRing_touches {h : Hw} : Touches [.regs, .hitch] h (Hw.growRing h) := by
  unfold Hw.growRing
  extract_lets +onlyGivenNames h1
  refine Touches.cut (x := h1) ?_ fun th1 => ?_
  · subst h1
    exact Touches.refl.step Hw.sf_touches
  clear_value h1
  extract_lets +onlyGivenNames v2 v3
  extract_lets +onlyGivenNames h4
  refine Touches.cut (x := h4) ?_ fun th4 => ?_
  · subst h4
    refine Touches.ite ?_ ?_
    · exact th1.step Hw.hitchCtrl_touches
    · exact th1
  clear_value h4
  extract_lets +onlyGivenNames v5
  extract_lets +onlyGivenNames h6
  refine Touches.cut (x := h6) ?_ fun th6 => ?_
  · subst h6
    exact th4.step Hw.sf_touches
  clear_value h6
  refine Touches.ite ?_ ?_
  · exact th6.step Hw.sf_touches
  · exact th6

theorem Hw.setAges_touches {h : Hw} {xs : List (Nat × Nat)} : Touches [.regs, .mem, .ecc, .free, .resp, .elogQ, .memu, .fab, .fw] h (Hw.setAges h xs) := by
  unfold Hw.setAges
  split
  · exact Touches.refl
  · refine Touches.step ?_ Hw.ringBell_touches
    refine Touches.forEach ?_ fun x4 h5 th5 => ?_
    · exact Touches.refl
    · exact (th5.step Hw.memWrite_touches).step Hw.commitObject_touches

theorem Hw.raiseAges_touches {h : Hw} : Touches [.regs, .mem, .ecc, .free, .resp, .elogQ, .memu, .fab, .fw, .upd] h (Hw.raiseAges h) := by
  unfold Hw.raiseAges
  extract_lets +onlyGivenNames v1
  extract_lets +onlyGivenNames h2
  refine Touches.cut (x := h2) ?_ fun th2 => ?_
  · subst h2
    exact Touches.refl.step Hw.setAges_touches
  clear_value h2
  exact th2.step Hw.setUpd_touches

theorem Hw.writeHandover_touches {h : Hw} : Touches [.mem, .ecc, .free] h (Hw.writeHandover h) := by
  unfold Hw.writeHandover
  split
  · rename_i a1 a2 h3 e4
    refine Touches.cut (x := h3) (Touches.snd ?_ e4) fun th3 => ?_
    · exact Touches.refl.step Hw.fresh_touches
    split
    · rename_i a5 a6 h7 e8
      refine Touches.cut (x := h7) (Touches.snd ?_ e8) fun th7 => ?_
      · exact th3.step Hw.fresh_touches
      split
      · rename_i a9 a10 h11 e12
        refine Touches.cut (x := h11) (Touches.snd ?_ e12) fun th11 => ?_
        · exact th7.step Hw.freshWords_touches
        extract_lets +onlyGivenNames v13
        exact (th11.step Hw.storeBytes_touches).step Hw.eccClear_touches

theorem Hw.sessionsEnd_touches {h : Hw} : Touches [.regs, .fw, .serials, .lyd, .upd] h (Hw.sessionsEnd h) := by
  unfold Hw.sessionsEnd
  extract_lets +onlyGivenNames h1
  refine Touches.cut (x := h1) ?_ fun th1 => ?_
  · subst h1
    exact Touches.refl.step Hw.lydEnd_touches
  clear_value h1
  extract_lets +onlyGivenNames h2
  refine Touches.cut (x := h2) ?_ fun th2 => ?_
  · subst h2
    refine Touches.forEach ?_ fun x3 h4 th4 => ?_
    · exact th1
    · extract_lets +onlyGivenNames v5
      exact th4.step Hw.setLink_touches
  clear_value h2
  exact th2.step set_fw_touches

theorem Hw.spliceStart_touches {h : Hw} {target : Nat} {trial : Bool} : Touches [.regs, .sys, .fw, .serials, .lyd, .radio, .pkey, .upd] h (Hw.spliceStart h target trial) := by
  unfold Hw.spliceStart
  extract_lets +onlyGivenNames h1
  refine Touches.cut (x := h1) ?_ fun th1 => ?_
  · subst h1
    exact (Touches.refl.step Hw.sf_touches).step Hw.bump_touches
  clear_value h1
  extract_lets +onlyGivenNames v2
  extract_lets +onlyGivenNames h3
  refine Touches.cut (x := h3) ?_ fun th3 => ?_
  · subst h3
    exact th1.step Hw.setUpd_touches
  clear_value h3
  exact (((((th3.step Hw.holdStart_touches).step Hw.sessionsEnd_touches).step Hw.transferAbandon_touches).step Hw.wdRestart_touches).step Hw.sf_touches).step Hw.connsSplice_touches

theorem Hw.updConfirmHw_touches {h : Hw} : Touches [.regs] h (Hw.updConfirmHw h) := by
  unfold Hw.updConfirmHw
  refine Touches.ite ?_ ?_
  · exact Touches.refl.step Hw.sf_touches
  · exact Touches.refl

theorem Hw.updCtrl_touches {h : Hw} {v : Nat} : Touches [.regs, .sys, .fw, .serials, .lyd, .radio, .pkey, .upd] h (Hw.updCtrl h v) := by
  unfold Hw.updCtrl
  extract_lets +onlyGivenNames h1
  refine Touches.cut (x := h1) ?_ fun th1 => ?_
  · subst h1
    exact Touches.refl.step Hw.writeFields_touches
  clear_value h1
  extract_lets +onlyGivenNames h2
  refine Touches.cut (x := h2) ?_ fun th2 => ?_
  · subst h2
    refine Touches.ite ?_ ?_
    · exact th1.step Hw.updConfirmHw_touches
    · exact th1
  clear_value h2
  refine Touches.ite ?_ ?_
  · exact th2.step Hw.spliceStart_touches
  · exact th2

theorem Hw.bootRecord_touches {h : Hw} {active : Nat} {trial : Bool} : Touches [.kept, .upd] h (Hw.bootRecord h active trial) := by
  unfold Hw.bootRecord
  exact Touches.refl.step set_kept_upd_touches

theorem Hw.recordVersion_touches {h : Hw} : Touches [.upd] h (Hw.recordVersion h) := by
  unfold Hw.recordVersion
  split
  · exact Touches.refl.step Hw.setUpd_touches

theorem Hw.updPrepare_touches {h : Hw} {l : Nat} : Touches [.regs, .mem, .ecc, .free, .resp, .kept, .elogQ, .memu, .fab, .hitch, .fw, .upd] h (Hw.updPrepare h l).2 := by
  unfold Hw.updPrepare
  refine Hw.updTry_touches ?_ fun h1 th1 => ?_
  · exact Touches.refl
  · extract_lets +onlyGivenNames h2
    refine Touches.cut (x := h2) ?_ fun th2 => ?_
    · subst h2
      exact (th1.step Hw.recordVersion_touches).step Hw.bootRecord_touches
    clear_value h2
    split
    · rename_i a3 a4 h5 e6
      refine Touches.cut (x := h5) (Touches.snd ?_ e6) fun th5 => ?_
      · exact th2.step Hw.journalWrite_touches
      exact Touches.pair (th1)
    · rename_i a7 h8 e9
      refine Touches.cut (x := h8) (Touches.snd ?_ e9) fun th8 => ?_
      · exact th2.step Hw.journalWrite_touches
      exact Touches.pair (((th8.step Hw.growRing_touches).step Hw.raiseAges_touches).step Hw.writeHandover_touches)

theorem Hw.updGo_touches {h : Hw} : Touches [.regs, .sys, .fw, .serials, .lyd, .radio, .pkey, .upd] h (Hw.updGo h) := by
  unfold Hw.updGo
  exact Touches.refl.step Hw.updCtrl_touches

theorem Hw.updActivate_touches {h : Hw} {l : Nat} : Touches [.regs, .mem, .ecc, .free, .resp, .kept, .sys, .elogQ, .memu, .fab, .hitch, .fw, .serials, .lyd, .radio, .pkey, .upd] h (Hw.updActivate h l).2 := by
  unfold Hw.updActivate
  split
  · rename_i a1 h2 e3
    refine Touches.cut (x := h2) (Touches.snd ?_ e3) fun th2 => ?_
    · exact Touches.refl.step Hw.updPrepare_touches
    exact Touches.pair (th2.step Hw.updGo_touches)
  · exact Touches.refl.step Hw.updPrepare_touches

theorem Hw.spliceImage_touches {h : Hw} {target : Nat} {trial : Bool} {vendor : List (List Nat)} : Touches [.regs, .mem, .ecc, .kept, .fw, .upd] h (Hw.spliceImage h target trial vendor) := by
  unfold Hw.spliceImage
  extract_lets +onlyGivenNames h1
  refine Touches.cut (x := h1) ?_ fun th1 => ?_
  · subst h1
    exact Touches.refl.step Hw.journalScan_touches
  clear_value h1
  extract_lets +onlyGivenNames v2
  refine Touches.ite ?_ ?_
  · extract_lets +onlyGivenNames h3
    refine Touches.cut (x := h3) ?_ fun th3 => ?_
    · subst h3
      exact (th1.step Hw.sf_touches).step Hw.sf_touches
    clear_value h3
    extract_lets +onlyGivenNames h4
    refine Touches.cut (x := h4) ?_ fun th4 => ?_
    · subst h4
      exact (th3.step Hw.sf_touches).step Hw.sf_touches
    clear_value h4
    exact th4.step set_fw_touches
  · exact ((((th1.step Hw.sf_touches).step Hw.sf_touches).step Hw.sf_touches).step Hw.bootRecord_touches).step Hw.keepRecords_touches

theorem Hw.firmwareAgain_touches {h : Hw} : Touches [.fw, .pkey] h (Hw.firmwareAgain h) := by
  unfold Hw.firmwareAgain
  extract_lets +onlyGivenNames v1
  extract_lets +onlyGivenNames h2
  refine Touches.cut (x := h2) ?_ fun th2 => ?_
  · subst h2
    exact Touches.refl.step set_fw_touches
  clear_value h2
  refine Touches.forEach ?_ fun x3 h4 th4 => ?_
  · exact th2
  · exact th4.step Hw.restoreObj_touches

theorem Hw.handover_touches {h : Hw} {us : Nat} {vendor : List (List Nat)} : Touches [.regs, .mem, .ecc, .free, .resp, .kept, .elogQ, .memu, .fab, .tcnt, .hot, .fw, .pkey, .upd, .fix] h (Hw.handover h us vendor) := by
  unfold Hw.handover
  split
  · exact Touches.refl
  · extract_lets +onlyGivenNames h8
    refine Touches.cut (x := h8) ?_ fun th8 => ?_
    · subst h8
      exact (Touches.refl.step Hw.reach_touches).step Hw.spliceImage_touches
    clear_value h8
    extract_lets +onlyGivenNames h9
    refine Touches.cut (x := h9) ?_ fun th9 => ?_
    · subst h9
      exact th8.step Hw.sf_touches
    clear_value h9
    extract_lets +onlyGivenNames v10
    extract_lets +onlyGivenNames h11
    refine Touches.cut (x := h11) ?_ fun th11 => ?_
    · subst h11
      exact th9.step Hw.setUpd_touches
    clear_value h11
    extract_lets +onlyGivenNames h12
    refine Touches.cut (x := h12) ?_ fun th12 => ?_
    · subst h12
      exact th11.step Hw.firmwareAgain_touches
    clear_value h12
    extract_lets +onlyGivenNames h13
    refine Touches.cut (x := h13) ?_ fun th13 => ?_
    · subst h13
      exact th12.step Hw.sf_touches
    clear_value h13
    extract_lets +onlyGivenNames v14 v15
    extract_lets +onlyGivenNames h16
    refine Touches.cut (x := h16) ?_ fun th16 => ?_
    · subst h16
      refine Touches.ite ?_ ?_
      · exact th12
      · exact th13.step set_hot_pkey_fix_touches
    clear_value h16
    split
    · rename_i a17 a18 h19 e20
      refine Touches.cut (x := h19) (Touches.snd ?_ e20) fun th19 => ?_
      · exact th16.step Hw.fresh_touches
      extract_lets +onlyGivenNames h21
      refine Touches.cut (x := h21) ?_ fun th21 => ?_
      · subst h21
        exact th19.step Hw.setReg_touches
      clear_value h21
      extract_lets +onlyGivenNames h22
      refine Touches.cut (x := h22) ?_ fun th22 => ?_
      · subst h22
        exact (th21.step Hw.holdRelease_touches).step Hw.setAges_touches
      clear_value h22
      exact th22.step Hw.setUpd_touches

theorem Hw.trialTimeout_touches {h : Hw} : Touches [.regs, .sys, .tcnt, .fw, .serials, .lyd, .radio, .pkey, .upd] h (Hw.trialTimeout h) := by
  unfold Hw.trialTimeout
  refine Touches.ite ?_ ?_
  · exact Touches.refl
  · extract_lets +onlyGivenNames h1
    refine Touches.cut (x := h1) ?_ fun th1 => ?_
    · subst h1
      exact (Touches.refl.step Hw.reach_touches).step Hw.sf_touches
    clear_value h1
    extract_lets +onlyGivenNames v2
    extract_lets +onlyGivenNames h3
    refine Touches.cut (x := h3) ?_ fun th3 => ?_
    · subst h3
      exact th1.step Hw.setUpd_touches
    clear_value h3
    extract_lets +onlyGivenNames v4 v5
    refine Touches.ite ?_ ?_
    · exact th3.step Hw.spliceStart_touches
    · exact (th3.step Hw.sf_touches).step Hw.sf_touches

theorem Hw.otpSet_touches {h : Hw} {v : Nat} : Touches [.regs, .fuses] h (Hw.otpSet h v) := by
  unfold Hw.otpSet
  extract_lets +onlyGivenNames h1
  refine Touches.cut (x := h1) ?_ fun th1 => ?_
  · subst h1
    refine Touches.ite ?_ ?_
    · exact Touches.refl.step Hw.sf_touches
    · exact Touches.refl
  clear_value h1
  extract_lets +onlyGivenNames v2
  refine Touches.ite ?_ ?_
  · exact th1.step Hw.sf_touches
  · extract_lets +onlyGivenNames v3
    exact (th1.step set_fuses_touches).step Hw.sf_touches

theorem Hw.updConfirm_touches {h : Hw} : Touches [.regs, .mem, .ecc, .fuses, .kept, .fw, .upd] h (Hw.updConfirm h).2 := by
  unfold Hw.updConfirm
  refine Hw.updTry_touches ?_ fun h1 th1 => ?_
  · exact Touches.refl
  · extract_lets +onlyGivenNames v2
    extract_lets +onlyGivenNames h3
    refine Touches.cut (x := h3) ?_ fun th3 => ?_
    · subst h3
      exact ((th1.step Hw.updConfirmHw_touches).step Hw.bootRecord_touches).step Hw.fwKeep_touches
    clear_value h3
    extract_lets +onlyGivenNames v4
    refine Touches.pair ?_
    refine Touches.ite ?_ ?_
    · exact th3.step Hw.otpSet_touches
    · exact th3

end Sys2Proof.Machine
end

