-- ==== Sys2Proof/Laws/TouchBackground.lean ====
section
/-! SUPPORT. What each operation of Machine/Background.lean touches of the part: the components outside the list stay as they were. -/

set_option Elab.async false

namespace Sys2Proof.Machine

theorem Hw.elogWrite_touches {h : Hw} : Touches [.regs, .elogQ] h (Hw.elogWrite h) := by
  unfold Hw.elogWrite
  split
  · exact Touches.refl
  · extract_lets +onlyGivenNames v7 v8 v9
    extract_lets +onlyGivenNames h10
    refine Touches.cut (x := h10) ?_ fun th10 => ?_
    · subst h10
      exact Touches.refl.step set_elogQ_touches
    clear_value h10
    extract_lets +onlyGivenNames h11
    refine Touches.cut (x := h11) ?_ fun th11 => ?_
    · subst h11
      exact ((th10.step Hw.setReg_touches).step Hw.setReg_touches).step Hw.setReg_touches
    clear_value h11
    extract_lets +onlyGivenNames h12
    refine Touches.cut (x := h12) ?_ fun th12 => ?_
    · subst h12
      exact th11.step Hw.setReg_touches
    clear_value h12
    extract_lets +onlyGivenNames h13
    refine Touches.cut (x := h13) ?_ fun th13 => ?_
    · subst h13
      refine Touches.ite ?_ ?_
      · exact th12.step Hw.sf_touches
      · exact (th12.step Hw.sf_touches).step Hw.sf_touches
    clear_value h13
    refine Touches.ite ?_ ?_
    · exact th13.step Hw.sf_touches
    · exact th13

theorem Hw.elogCtrl_touches {h : Hw} {v : Nat} : Touches [.regs] h (Hw.elogCtrl h v) := by
  unfold Hw.elogCtrl
  generalize upTo 64 = ns64
  extract_lets +onlyGivenNames h1
  refine Touches.cut (x := h1) ?_ fun th1 => ?_
  · subst h1
    exact Touches.refl.step Hw.writeFields_touches
  clear_value h1
  refine Touches.ite ?_ ?_
  · exact th1
  · extract_lets +onlyGivenNames h2
    refine Touches.cut (x := h2) ?_ fun th2 => ?_
    · subst h2
      refine Touches.forEach ?_ fun x3 h4 th4 => ?_
      · exact th1
      · extract_lets +onlyGivenNames v5
        refine Touches.ite ?_ ?_
        · exact th4.step Hw.setReg_touches
        · exact th4
    clear_value h2
    exact ((th2.step Hw.sf_touches).step Hw.sf_touches).step Hw.sf_touches

theorem Hw.elogSoft_touches {h : Hw} {v : Nat} : Touches [.regs, .elogQ] h (Hw.elogSoft h v) := by
  unfold Hw.elogSoft
  exact Touches.refl.step Hw.report_touches

theorem Hw.mpuCtrl_touches {h : Hw} {v : Nat} : Touches [.regs] h (Hw.mpuCtrl h v) := by
  unfold Hw.mpuCtrl
  extract_lets +onlyGivenNames h1
  refine Touches.cut (x := h1) ?_ fun th1 => ?_
  · subst h1
    refine Touches.ite ?_ ?_
    · exact Touches.refl
    · exact Touches.refl.step Hw.writeFields_touches
  clear_value h1
  refine Touches.ite ?_ ?_
  · exact th1.step Hw.sf_touches
  · exact th1

theorem Hw.setScrub_touches {h : Hw} {k : Nat} {v : Nat} : Touches [.memu] h (Hw.setScrub h k v) := by
  unfold Hw.setScrub
  exact Touches.refl.step set_memu_touches

theorem Hw.scrubForget_touches {h : Hw} {a : Nat} : Touches [.memu] h (Hw.scrubForget h a) := by
  unfold Hw.scrubForget
  exact Touches.refl.step set_memu_touches

theorem Hw.scrubWord_touches {h : Hw} {a : Nat} : Touches [.regs, .ecc, .kept, .sys, .elogQ, .memu] h (Hw.scrubWord h a) := by
  unfold Hw.scrubWord
  split
  · exact Touches.refl.step Hw.scrubForget_touches
  · extract_lets +onlyGivenNames v5
    extract_lets +onlyGivenNames h6
    refine Touches.cut (x := h6) ?_ fun th6 => ?_
    · subst h6
      exact (Touches.refl.step Hw.correct_touches).step Hw.scrubForget_touches
    clear_value h6
    extract_lets +onlyGivenNames v7
    extract_lets +onlyGivenNames h8
    refine Touches.cut (x := h8) ?_ fun th8 => ?_
    · subst h8
      exact th6.step set_memu_touches
    clear_value h8
    refine Touches.ite ?_ ?_
    · exact th8.step Hw.repairStart_touches
    · exact th8
  · extract_lets +onlyGivenNames h12
    refine Touches.cut (x := h12) ?_ fun th12 => ?_
    · subst h12
      exact ((Touches.refl.step Hw.bump_touches).step Hw.sf_touches).step Hw.report_touches
    clear_value h12
    exact th12.step Hw.repairStart_touches

theorem Hw.scrubUnit_touches {h : Hw} {u : Nat} : Touches [.regs, .ecc, .kept, .sys, .elogQ, .memu] h (Hw.scrubUnit h u) := by
  unfold Hw.scrubUnit
  extract_lets +onlyGivenNames v1 v2
  refine Touches.ite ?_ ?_
  · exact Touches.refl
  · split
    · exact (Touches.refl.step Hw.scrubWord_touches).step Hw.setScrub_touches
    · exact Touches.refl

theorem Hw.scrubLocal_touches {h : Hw} {k : Nat} {key : Nat} {n : Nat} : Touches [.regs, .ecc, .elogQ, .memu] h (Hw.scrubLocal h k key n) := by
  unfold Hw.scrubLocal
  extract_lets +onlyGivenNames v1
  extract_lets +onlyGivenNames h2
  refine Touches.cut (x := h2) ?_ fun th2 => ?_
  · subst h2
    split
    · exact Touches.refl
    · exact Touches.refl.step Hw.correct_touches
    · exact (Touches.refl.step Hw.bump_touches).step Hw.report_touches
  clear_value h2
  exact th2.step Hw.setScrub_touches

theorem Hw.scrubCount_touches {h : Hw} : Touches [.regs, .memu, .bgnd] h (Hw.scrubCount h) := by
  unfold Hw.scrubCount
  extract_lets +onlyGivenNames v1
  refine Touches.ite ?_ ?_
  · exact Touches.refl.step Hw.setScrub_touches
  · extract_lets +onlyGivenNames h2
    refine Touches.cut (x := h2) ?_ fun th2 => ?_
    · subst h2
      exact (Touches.refl.step Hw.setScrub_touches).step Hw.count_touches
    clear_value h2
    extract_lets +onlyGivenNames h3
    refine Touches.cut (x := h3) ?_ fun th3 => ?_
    · subst h3
      exact th2.step Hw.sf_touches
    clear_value h3
    exact th3.step set_memu_bgnd_touches

theorem Hw.scrub_touches {h : Hw} : Touches [.regs, .ecc, .kept, .sys, .elogQ, .memu, .bgnd] h (Hw.scrub h) := by
  unfold Hw.scrub
  generalize upTo 18 = ns18
  generalize upTo 32 = ns32
  refine Touches.ite ?_ ?_
  · exact Touches.refl
  · extract_lets +onlyGivenNames h1
    refine Touches.cut (x := h1) ?_ fun th1 => ?_
    · subst h1
      refine Touches.forEach ?_ fun x2 h3 th3 => ?_
      · exact Touches.refl
      · exact th3.step Hw.scrubUnit_touches
    clear_value h1
    refine Touches.ite ?_ ?_
    · exact th1
    · extract_lets +onlyGivenNames h4
      refine Touches.cut (x := h4) ?_ fun th4 => ?_
      · subst h4
        refine Touches.forEach ?_ fun x5 h6 th6 => ?_
        · exact th1
        · refine Touches.ite ?_ ?_
          · exact th6.step Hw.scrubLocal_touches
          · exact th6
      clear_value h4
      extract_lets +onlyGivenNames h7
      refine Touches.cut (x := h7) ?_ fun th7 => ?_
      · subst h7
        refine Touches.forEach ?_ fun x8 h9 th9 => ?_
        · exact th4
        · refine Touches.ite ?_ ?_
          · exact th9.step Hw.scrubLocal_touches
          · exact th9
      clear_value h7
      exact th7.step Hw.scrubCount_touches

theorem Hw.mscrubWord_touches {h : Hw} : Touches [.regs, .ecc, .elogQ, .memu] h (Hw.mscrubWord h) := by
  unfold Hw.mscrubWord
  extract_lets +onlyGivenNames v1 v2
  extract_lets +onlyGivenNames h3
  refine Touches.cut (x := h3) ?_ fun th3 => ?_
  · subst h3
    split
    · exact Touches.refl
    · exact Touches.refl.step Hw.bump_touches
    · exact (Touches.refl.step Hw.bump_touches).step Hw.setEcc_touches
    · exact ((Touches.refl.step Hw.bump_touches).step Hw.sf_touches).step Hw.report_touches
  clear_value h3
  extract_lets +onlyGivenNames v14
  extract_lets +onlyGivenNames h15
  refine Touches.cut (x := h15) ?_ fun th15 => ?_
  · subst h15
    exact th3.step set_memu_touches
  clear_value h15
  refine Touches.ite ?_ ?_
  · exact th15.step Hw.count_touches
  · exact th15

theorem Hw.mscrub_touches {h : Hw} : Touches [.regs, .ecc, .elogQ, .memu] h (Hw.mscrub h) := by
  unfold Hw.mscrub
  generalize upTo 64 = ns64
  refine Touches.ite ?_ ?_
  · exact Touches.refl
  · refine Touches.forEach ?_ fun x1 h2 th2 => ?_
    · exact Touches.refl
    · exact th2.step Hw.mscrubWord_touches

theorem Hw.thermal_touches {h : Hw} {ts : List Int} : Touches [.regs, .sys, .elogQ] h (Hw.thermal h ts) := by
  unfold Hw.thermal
  extract_lets +onlyGivenNames v1
  extract_lets +onlyGivenNames h2
  refine Touches.cut (x := h2) ?_ fun th2 => ?_
  · subst h2
    exact Touches.refl.step Hw.sf_touches
  clear_value h2
  extract_lets +onlyGivenNames v3
  extract_lets +onlyGivenNames h4
  refine Touches.cut (x := h4) ?_ fun th4 => ?_
  · subst h4
    exact th2.step set_sys_touches
  clear_value h4
  refine Touches.ite ?_ ?_
  · refine Touches.ite ?_ ?_
    · exact th4.step Hw.sf_touches
    · exact th4
  · refine Touches.ite ?_ ?_
    · exact (th4.step Hw.sf_touches).step Hw.report_touches
    · exact th4

theorem Hw.overtemp_touches {h : Hw} {ts : List Int} : Touches [.regs, .sys, .elogQ] h (Hw.overtemp h ts) := by
  unfold Hw.overtemp
  extract_lets +onlyGivenNames v1 v2
  extract_lets +onlyGivenNames h3
  refine Touches.cut (x := h3) ?_ fun th3 => ?_
  · subst h3
    exact Touches.refl.step set_sys_touches
  clear_value h3
  refine Touches.ite ?_ ?_
  · refine Touches.ite ?_ ?_
    · exact th3.step Hw.sf_touches
    · exact th3
  · refine Touches.ite ?_ ?_
    · exact (th3.step Hw.sf_touches).step Hw.report_touches
    · exact th3

theorem Hw.calStale_touches {h : Hw} {ts4 : Int} : Touches [.regs, .radio] h (Hw.calStale h ts4) := by
  unfold Hw.calStale
  refine Touches.ite ?_ ?_
  · exact (Touches.refl.step Hw.setRadio_touches).step Hw.sf_touches
  · exact Touches.refl

theorem Hw.tempSample_touches {h : Hw} {ts : List Int} {rails : List Nat} : Touches [.regs, .sys, .elogQ, .radio, .bgnd] h (Hw.tempSample h ts rails) := by
  unfold Hw.tempSample
  refine Touches.ite ?_ ?_
  · exact Touches.refl
  · extract_lets +onlyGivenNames v1 v2
    extract_lets +onlyGivenNames h3
    refine Touches.cut (x := h3) ?_ fun th3 => ?_
    · subst h3
      refine Touches.forEach ?_ fun x4 h5 th5 => ?_
      · exact Touches.refl
      · exact (th5.step Hw.sf_touches).step Hw.sf_touches
    clear_value h3
    extract_lets +onlyGivenNames h6
    refine Touches.cut (x := h6) ?_ fun th6 => ?_
    · subst h6
      exact (th3.step Hw.sf_touches).step Hw.sf_touches
    clear_value h6
    extract_lets +onlyGivenNames h7
    refine Touches.cut (x := h7) ?_ fun th7 => ?_
    · subst h7
      exact (th6.step Hw.sf_touches).step Hw.sf_touches
    clear_value h7
    extract_lets +onlyGivenNames v8
    extract_lets +onlyGivenNames h9
    refine Touches.cut (x := h9) ?_ fun th9 => ?_
    · subst h9
      exact th7.step set_bgnd_touches
    clear_value h9
    exact ((th9.step Hw.thermal_touches).step Hw.overtemp_touches).step Hw.calStale_touches

theorem Hw.notice_touches {h : Hw} {idx : Nat} {sub : Nat} {value : List Nat} : Touches [.fw] h (Hw.notice h idx sub value) := by
  unfold Hw.notice
  extract_lets +onlyGivenNames v1
  exact Touches.refl.step set_fw_touches

theorem Hw.publish_touches {h : Hw} {sub : Nat} {v : List Nat} : Touches [.fw, .bgnd] h (Hw.publish h sub v) := by
  unfold Hw.publish
  exact (Touches.refl.step set_bgnd_touches).step Hw.notice_touches

theorem Hw.setUtil_touches {h : Hw} {util : List Nat} : Touches [.regs] h (Hw.setUtil h util) := by
  unfold Hw.setUtil
  generalize upTo 32 = ns32
  extract_lets +onlyGivenNames v1
  extract_lets +onlyGivenNames h2
  refine Touches.cut (x := h2) ?_ fun th2 => ?_
  · subst h2
    exact Touches.refl.step Hw.setReg_touches
  clear_value h2
  extract_lets +onlyGivenNames h3
  refine Touches.cut (x := h3) ?_ fun th3 => ?_
  · subst h3
    refine Touches.forEach ?_ fun x4 h5 th5 => ?_
    · exact th2
    · exact th5.step Hw.sf_touches
  clear_value h3
  refine Touches.forEach ?_ fun x6 h7 th7 => ?_
  · exact th3
  · exact th7.step Hw.sf_touches

theorem Hw.teleAnalog_touches {h : Hw} : Touches [.fw, .bgnd] h (Hw.teleAnalog h) := by
  unfold Hw.teleAnalog
  extract_lets +onlyGivenNames v1
  extract_lets +onlyGivenNames h2
  refine Touches.cut (x := h2) ?_ fun th2 => ?_
  · subst h2
    exact Touches.refl.step Hw.publish_touches
  clear_value h2
  extract_lets +onlyGivenNames v3
  extract_lets +onlyGivenNames h4
  refine Touches.cut (x := h4) ?_ fun th4 => ?_
  · subst h4
    exact th2.step Hw.publish_touches
  clear_value h4
  exact th4.step set_bgnd_touches

theorem Hw.teleCounts_touches {h : Hw} : Touches [.regs, .fw, .bgnd] h (Hw.teleCounts h) := by
  unfold Hw.teleCounts
  extract_lets +onlyGivenNames h1
  refine Touches.cut (x := h1) ?_ fun th1 => ?_
  · subst h1
    exact Touches.refl.step Hw.publish_touches
  clear_value h1
  extract_lets +onlyGivenNames h2
  refine Touches.cut (x := h2) ?_ fun th2 => ?_
  · subst h2
    exact th1.step Hw.publish_touches
  clear_value h2
  extract_lets +onlyGivenNames h3
  refine Touches.cut (x := h3) ?_ fun th3 => ?_
  · subst h3
    exact (th2.step Hw.publish_touches).step Hw.setReg_touches
  clear_value h3
  extract_lets +onlyGivenNames h4
  refine Touches.cut (x := h4) ?_ fun th4 => ?_
  · subst h4
    exact th3.step Hw.publish_touches
  clear_value h4
  extract_lets +onlyGivenNames h5
  refine Touches.cut (x := h5) ?_ fun th5 => ?_
  · subst h5
    exact (th4.step Hw.setReg_touches).step Hw.setReg_touches
  clear_value h5
  extract_lets +onlyGivenNames h6
  refine Touches.cut (x := h6) ?_ fun th6 => ?_
  · subst h6
    exact (th5.step Hw.publish_touches).step Hw.setReg_touches
  clear_value h6
  extract_lets +onlyGivenNames v7
  extract_lets +onlyGivenNames h8
  refine Touches.cut (x := h8) ?_ fun th8 => ?_
  · subst h8
    exact th6.step Hw.publish_touches
  clear_value h8
  extract_lets +onlyGivenNames h9
  refine Touches.cut (x := h9) ?_ fun th9 => ?_
  · subst h9
    exact th8.step Hw.setReg_touches
  clear_value h9
  exact th9.step set_bgnd_touches

theorem Hw.teleRest_touches {h : Hw} : Touches [.fw, .bgnd] h (Hw.teleRest h) := by
  unfold Hw.teleRest
  extract_lets +onlyGivenNames h1
  refine Touches.cut (x := h1) ?_ fun th1 => ?_
  · subst h1
    exact Touches.refl.step Hw.publish_touches
  clear_value h1
  extract_lets +onlyGivenNames h2
  refine Touches.cut (x := h2) ?_ fun th2 => ?_
  · subst h2
    exact th1.step Hw.publish_touches
  clear_value h2
  extract_lets +onlyGivenNames v3
  exact th2.step Hw.publish_touches

theorem Hw.nmeaSend_touches {h : Hw} {n : Nat} {bs : List Nat} : Touches [.fw, .serials] h (Hw.nmeaSend h n bs) := by
  unfold Hw.nmeaSend
  extract_lets +onlyGivenNames v1
  exact (Touches.refl.step Hw.setLink_touches).step Hw.txStart_touches

theorem Hw.nmeaOut_touches {h : Hw} {bs : List Nat} : Touches [.fw, .serials] h (Hw.nmeaOut h bs) := by
  unfold Hw.nmeaOut
  refine Touches.ite ?_ ?_
  · refine Touches.forEach ?_ fun x1 h2 th2 => ?_
    · exact Touches.refl
    · refine Touches.ite ?_ ?_
      · exact th2.step Hw.nmeaSend_touches
      · exact th2
  · exact Touches.refl

theorem Hw.pulseCorrect_touches {h : Hw} {fix : NavFix} : Touches [.regs, .tp] h (Hw.pulseCorrect h fix) := by
  unfold Hw.pulseCorrect
  split
  · exact Touches.refl.step Hw.pulseFix_touches
  · exact Touches.refl

theorem Hw.telemetry_touches {h : Hw} {fix : NavFix} {util : List Nat} {nmea : List Nat} : Touches [.regs, .tcnt, .tp, .fw, .serials, .upd, .bgnd, .fix] h (Hw.telemetry h fix util nmea) := by
  unfold Hw.telemetry
  refine Touches.ite ?_ ?_
  · exact Touches.refl
  · extract_lets +onlyGivenNames h1
    refine Touches.cut (x := h1) ?_ fun th1 => ?_
    · subst h1
      exact Touches.refl.step Hw.reach_touches
    clear_value h1
    extract_lets +onlyGivenNames v2 v3
    extract_lets +onlyGivenNames h4
    refine Touches.cut (x := h4) ?_ fun th4 => ?_
    · subst h4
      exact th1.step set_upd_fix_touches
    clear_value h4
    extract_lets +onlyGivenNames h5
    refine Touches.cut (x := h5) ?_ fun th5 => ?_
    · subst h5
      exact (th4.step Hw.setUtil_touches).step Hw.pulseCorrect_touches
    clear_value h5
    extract_lets +onlyGivenNames h6
    refine Touches.cut (x := h6) ?_ fun th6 => ?_
    · subst h6
      refine Touches.ite ?_ ?_
      · exact ((th5.step Hw.teleAnalog_touches).step Hw.teleCounts_touches).step Hw.teleRest_touches
      · exact th5
    clear_value h6
    exact th6.step Hw.nmeaOut_touches

theorem Hw.fwTask_touches {h : Hw} {late : Bool} : Touches [.regs, .mem, .ecc, .fw] h (Hw.fwTask h late) := by
  unfold Hw.fwTask
  refine Touches.step ?_ Hw.fwKeep_touches
  refine Touches.ite ?_ ?_
  · exact Touches.refl.step Hw.bump_touches
  · exact Touches.refl

end Sys2Proof.Machine
end

