-- ==== Sys2Proof/Laws/TouchPortEvents.lean ====
section
/-! SUPPORT. What each operation of Machine/PortEvents.lean touches of the part: the components outside the list stay as they were. -/

set_option Elab.async false

namespace Sys2Proof.Machine

theorem Hw.setCoil_touches {h : Hw} {st : Nat} : Touches [.regs] h (Hw.setCoil h st) := by
  unfold Hw.setCoil
  exact Touches.refl.step Hw.sf_touches

theorem Hw.coilShow_touches {h : Hw} {n : Nat} : Touches [.regs] h (Hw.coilShow h n) := by
  unfold Hw.coilShow
  extract_lets +onlyGivenNames v1 v2 v3 v4
  extract_lets +onlyGivenNames h5
  refine Touches.cut (x := h5) ?_ fun th5 => ?_
  · subst h5
    exact (Touches.refl.step Hw.sf_touches).step Hw.sf_touches
  clear_value h5
  refine Touches.ite ?_ ?_
  · exact th5
  · exact th5.step Hw.sf_touches

theorem Hw.coilLetGo_touches {h : Hw} {n : Nat} : Touches [.ports] h (Hw.coilLetGo h n) := by
  unfold Hw.coilLetGo
  extract_lets +onlyGivenNames v1 v2
  split
  · exact Touches.refl.step Hw.setPort_touches
  · exact Touches.refl.step Hw.setPort_touches

theorem Hw.coilDrop_touches {h : Hw} : Touches [.ports] h (Hw.coilDrop h) := by
  unfold Hw.coilDrop
  refine Touches.forEach ?_ fun x1 h2 th2 => ?_
  · exact Touches.refl
  · exact th2.step Hw.coilLetGo_touches

theorem Hw.coilAbort_touches {h : Hw} {n : Nat} : Touches [.regs, .mem, .ecc, .free, .elogQ, .ports, .strands, .fab, .loop] h (Hw.coilAbort h n) := by
  unfold Hw.coilAbort
  refine Touches.ite ?_ ?_
  · exact (((Touches.refl.step Hw.coilDrop_touches).step Hw.setCoil_touches).step Hw.sf_touches).step Hw.snapLost_touches
  · exact Touches.refl

theorem Hw.coilProgress_touches {h : Hw} {n : Nat} : Touches [.regs, .mem, .ecc, .free, .elogQ, .ports, .strands, .fab, .loop, .hot] h (Hw.coilProgress h n) := by
  unfold Hw.coilProgress
  extract_lets +onlyGivenNames v1
  split
  · exact Touches.refl
  · extract_lets +onlyGivenNames h7
    refine Touches.cut (x := h7) ?_ fun th7 => ?_
    · subst h7
      exact Touches.refl.step Hw.coilShow_touches
    clear_value h7
    refine Touches.ite ?_ ?_
    · extract_lets +onlyGivenNames v8
      extract_lets +onlyGivenNames h9
      refine Touches.cut (x := h9) ?_ fun th9 => ?_
      · subst h9
        exact th7.step Hw.setPort_touches
      clear_value h9
      refine Touches.ite ?_ ?_
      · split
        · rename_i a10 a11 h12 e13
          refine Touches.cut (x := h12) (Touches.snd ?_ e13) fun th12 => ?_
          · exact th9.step Hw.freshBytes_touches
          extract_lets +onlyGivenNames v14
          extract_lets +onlyGivenNames h15
          refine Touches.cut (x := h15) ?_ fun th15 => ?_
          · subst h15
            exact th12.step set_hot_touches
          clear_value h15
          exact (((th15.step Hw.setCoil_touches).step Hw.count_touches).step Hw.sf_touches).step Hw.snapCheckAll_touches
      · exact th9
    · exact th7

theorem Hw.coilArm_touches {h : Hw} : Touches [.regs, .ports, .coil] h (Hw.coilArm h) := by
  unfold Hw.coilArm
  refine Touches.ite ?_ ?_
  · exact Touches.refl.step Hw.sf_touches
  · extract_lets +onlyGivenNames v1
    extract_lets +onlyGivenNames h2
    refine Touches.cut (x := h2) ?_ fun th2 => ?_
    · subst h2
      exact Touches.refl.step set_coil_touches
    clear_value h2
    extract_lets +onlyGivenNames h3
    refine Touches.cut (x := h3) ?_ fun th3 => ?_
    · subst h3
      refine Touches.forEach ?_ fun x4 h5 th5 => ?_
      · exact th2
      · exact th5.step Hw.setPort_touches
    clear_value h3
    extract_lets +onlyGivenNames h6
    refine Touches.cut (x := h6) ?_ fun th6 => ?_
    · subst h6
      refine Touches.forEach ?_ fun x7 h8 th8 => ?_
      · exact th3
      · exact th8.step Hw.setReg_touches
    clear_value h6
    exact (th6.step Hw.setCoil_touches).step Hw.sf_touches

theorem Hw.coilRelease_touches {h : Hw} : Touches [.regs, .mem, .ecc, .free, .elogQ, .ports, .strands, .fab, .loop] h (Hw.coilRelease h) := by
  unfold Hw.coilRelease
  refine Touches.ite ?_ ?_
  · exact ((Touches.refl.step Hw.coilDrop_touches).step Hw.setCoil_touches).step Hw.snapLost_touches
  · exact Touches.refl

theorem Hw.coilAbortCmd_touches {h : Hw} : Touches [.regs, .mem, .ecc, .free, .elogQ, .ports, .strands, .fab, .loop] h (Hw.coilAbortCmd h) := by
  unfold Hw.coilAbortCmd
  refine Touches.ite ?_ ?_
  · exact (Touches.refl.step Hw.coilRelease_touches).step Hw.sf_touches
  · exact Touches.refl

theorem Hw.coilCtrl_touches {h : Hw} {v : Nat} : Touches [.regs, .mem, .ecc, .free, .elogQ, .ports, .strands, .fab, .loop, .coil] h (Hw.coilCtrl h v) := by
  unfold Hw.coilCtrl
  extract_lets +onlyGivenNames h1
  refine Touches.cut (x := h1) ?_ fun th1 => ?_
  · subst h1
    exact Touches.refl.step Hw.writeFields_touches
  clear_value h1
  extract_lets +onlyGivenNames h2
  refine Touches.cut (x := h2) ?_ fun th2 => ?_
  · subst h2
    refine Touches.ite ?_ ?_
    · exact th1.step Hw.coilAbortCmd_touches
    · exact th1
  clear_value h2
  extract_lets +onlyGivenNames h3
  refine Touches.cut (x := h3) ?_ fun th3 => ?_
  · subst h3
    refine Touches.ite ?_ ?_
    · exact th2.step Hw.coilRelease_touches
    · exact th2
  clear_value h3
  refine Touches.ite ?_ ?_
  · exact th3.step Hw.coilArm_touches
  · exact th3

theorem Hw.coilStart_touches {h : Hw} {n : Nat} : Touches [.regs, .mem, .ecc, .free, .elogQ, .ports, .strands, .fab, .loop, .hot] h (Hw.coilStart h n) := by
  unfold Hw.coilStart
  extract_lets +onlyGivenNames v1
  refine Touches.ite ?_ ?_
  · extract_lets +onlyGivenNames h2
    refine Touches.cut (x := h2) ?_ fun th2 => ?_
    · subst h2
      exact Touches.refl.step Hw.setPort_touches
    clear_value h2
    extract_lets +onlyGivenNames h3
    refine Touches.cut (x := h3) ?_ fun th3 => ?_
    · subst h3
      exact (th2.step Hw.sf_touches).step Hw.setCoil_touches
    clear_value h3
    extract_lets +onlyGivenNames h4
    refine Touches.cut (x := h4) ?_ fun th4 => ?_
    · subst h4
      refine Touches.ite ?_ ?_
      · split
        · rename_i a5 a6 h7 e8
          refine Touches.cut (x := h7) (Touches.snd ?_ e8) fun th7 => ?_
          · exact th3.step Hw.jitter_touches
          extract_lets +onlyGivenNames v9
          exact (th7.step Hw.sf_touches).step Hw.sf_touches
      · exact th3
    clear_value h4
    exact th4.step Hw.coilProgress_touches
  · exact Touches.refl

theorem Hw.ringResume_touches {h : Hw} {n : Nat} : Touches [.ports] h (Hw.ringResume h n) := by
  unfold Hw.ringResume
  extract_lets +onlyGivenNames v1
  split
  · exact Touches.refl
  · refine Touches.ite ?_ ?_
    · extract_lets +onlyGivenNames v7
      exact Touches.refl.step Hw.setPort_touches
    · exact Touches.refl

theorem Hw.searchLost_touches {h : Hw} {n : Nat} : Touches [.regs, .mem, .ecc, .free, .elogQ, .ports, .strands, .fab, .loop] h (Hw.searchLost h n) := by
  unfold Hw.searchLost
  refine Touches.forEach ?_ fun x1 h2 th2 => ?_
  · exact Touches.refl
  · exact (th2.step Hw.toIdle_touches).step Hw.recheckStaged_touches

theorem Hw.setPortState_touches {h : Hw} {n : Nat} {st : Nat} : Touches [.regs] h (Hw.setPortState h n st) := by
  unfold Hw.setPortState
  exact Touches.refl.step Hw.sf_touches

theorem Hw.blockEnds_touches {h : Hw} {n : Nat} : Touches [.regs, .mem, .ecc, .free, .elogQ, .ports, .strands, .fab, .loop, .hot] h (Hw.blockEnds h n) := by
  unfold Hw.blockEnds
  exact ((Touches.refl.step Hw.tagBlock_touches).step Hw.coilProgress_touches).step Hw.portWork_touches

theorem Hw.takeSample_touches {h : Hw} {n : Nat} {iq : Nat × Nat} : Touches [.regs, .mem, .ecc, .free, .elogQ, .ports, .strands, .fab, .loop, .hot] h (Hw.takeSample h n iq) := by
  unfold Hw.takeSample
  extract_lets +onlyGivenNames h1
  refine Touches.cut (x := h1) ?_ fun th1 => ?_
  · subst h1
    exact (Touches.refl.step Hw.coilStart_touches).step Hw.sample_touches
  clear_value h1
  refine Touches.ite ?_ ?_
  · exact th1.step Hw.blockEnds_touches
  · exact th1

theorem Hw.samples_touches {h : Hw} {n : Nat} {b1 : List (Nat × Nat)} : Touches [.regs, .mem, .ecc, .free, .elogQ, .ports, .strands, .fab, .loop, .hot] h (Hw.samples h n b1) := by
  induction b1 generalizing h n with
  | nil =>
    unfold Hw.samples
    exact Touches.refl
  | cons y ys ih =>
    unfold Hw.samples
    exact (Touches.refl.step Hw.takeSample_touches).step ih

theorem Hw.blockWritten_touches {h : Hw} {n : Nat} {xs : List (Nat × Nat)} : Touches [.regs, .mem, .ecc, .free, .elogQ, .ports, .strands, .fab, .loop, .hot] h (Hw.blockWritten h n xs) := by
  unfold Hw.blockWritten
  refine Touches.ite ?_ ?_
  · exact Touches.refl.step Hw.samples_touches
  · refine Touches.ite ?_ ?_
    · exact ((Touches.refl.step Hw.endSynBlock_touches).step Hw.coilProgress_touches).step Hw.portWork_touches
    · exact Touches.refl

theorem Hw.gapBegins_touches {h : Hw} {n : Nat} : Touches [.ports] h (Hw.gapBegins h n) := by
  unfold Hw.gapBegins
  extract_lets +onlyGivenNames v1
  split
  · exact Touches.refl
  · extract_lets +onlyGivenNames v7
    exact Touches.refl.step Hw.setPort_touches

theorem Hw.tagNow_touches {h : Hw} {n : Nat} : Touches [.regs] h (Hw.tagNow h n) := by
  unfold Hw.tagNow
  extract_lets +onlyGivenNames v1
  exact Touches.refl.step Hw.writeTag_touches

theorem Hw.portStop_touches {h : Hw} {n : Nat} : Touches [.regs, .mem, .ecc, .free, .elogQ, .ports, .strands, .fab, .loop, .hitch] h (Hw.portStop h n) := by
  unfold Hw.portStop
  extract_lets +onlyGivenNames v1
  refine Touches.ite ?_ ?_
  · exact Touches.refl
  · extract_lets +onlyGivenNames h2
    refine Touches.cut (x := h2) ?_ fun th2 => ?_
    · subst h2
      exact Touches.refl.step Hw.coilAbort_touches
    clear_value h2
    extract_lets +onlyGivenNames h3
    refine Touches.cut (x := h3) ?_ fun th3 => ?_
    · subst h3
      refine Touches.ite ?_ ?_
      · exact th2.step Hw.gapBegins_touches
      · exact th2
    clear_value h3
    extract_lets +onlyGivenNames v4 v5
    extract_lets +onlyGivenNames h6
    refine Touches.cut (x := h6) ?_ fun th6 => ?_
    · subst h6
      exact th3.step Hw.setPort_touches
    clear_value h6
    extract_lets +onlyGivenNames h7
    refine Touches.cut (x := h7) ?_ fun th7 => ?_
    · subst h7
      exact th6.step Hw.setPortState_touches
    clear_value h7
    extract_lets +onlyGivenNames h8
    refine Touches.cut (x := h8) ?_ fun th8 => ?_
    · subst h8
      exact th7.step Hw.searchLost_touches
    clear_value h8
    extract_lets +onlyGivenNames h9
    refine Touches.cut (x := h9) ?_ fun th9 => ?_
    · subst h9
      exact th8.step Hw.endSynthetic_touches
    clear_value h9
    extract_lets +onlyGivenNames h10
    refine Touches.cut (x := h10) ?_ fun th10 => ?_
    · subst h10
      refine Touches.ite ?_ ?_
      · exact th9
      · exact th9.step Hw.refuseWaiting_touches
    clear_value h10
    refine Touches.ite ?_ ?_
    · exact th10.step Hw.settleSchedule_touches
    · exact th10

theorem Hw.portStart_touches {h : Hw} {n : Nat} : Touches [.regs, .mem, .ecc, .free, .elogQ, .ports, .strands, .fab, .loop, .hitch] h (Hw.portStart h n) := by
  unfold Hw.portStart
  refine Touches.ite ?_ ?_
  · exact Touches.refl
  · refine Touches.ite ?_ ?_
    · exact Touches.refl.step Hw.sf_touches
    · extract_lets +onlyGivenNames h1
      refine Touches.cut (x := h1) ?_ fun th1 => ?_
      · subst h1
        refine Touches.forEach ?_ fun x2 h3 th3 => ?_
        · exact Touches.refl
        · exact (th3.step Hw.toIdle_touches).step Hw.recheckStaged_touches
      clear_value h1
      extract_lets +onlyGivenNames v4
      extract_lets +onlyGivenNames h5
      refine Touches.cut (x := h5) ?_ fun th5 => ?_
      · subst h5
        exact th1.step Hw.setPort_touches
      clear_value h5
      extract_lets +onlyGivenNames h6
      refine Touches.cut (x := h6) ?_ fun th6 => ?_
      · subst h6
        exact th5.step Hw.hitchForget_touches
      clear_value h6
      extract_lets +onlyGivenNames v7
      extract_lets +onlyGivenNames h8
      refine Touches.cut (x := h8) ?_ fun th8 => ?_
      · subst h8
        exact th6.step Hw.setPort_touches
      clear_value h8
      extract_lets +onlyGivenNames h9
      refine Touches.cut (x := h9) ?_ fun th9 => ?_
      · subst h9
        refine Touches.ite ?_ ?_
        · exact th8.step Hw.hitchRestart_touches
        · exact th8
      clear_value h9
      exact th9.step Hw.setPortState_touches

theorem Hw.sportCtrl_touches {h : Hw} {v : Nat} : Touches [.regs, .mem, .ecc, .free, .elogQ, .ports, .strands, .fab, .loop, .hitch] h (Hw.sportCtrl h v) := by
  unfold Hw.sportCtrl
  extract_lets +onlyGivenNames h1
  refine Touches.cut (x := h1) ?_ fun th1 => ?_
  · subst h1
    exact Touches.refl.step Hw.writeFields_touches
  clear_value h1
  extract_lets +onlyGivenNames h2
  refine Touches.cut (x := h2) ?_ fun th2 => ?_
  · subst h2
    refine Touches.forEach ?_ fun x3 h4 th4 => ?_
    · exact th1
    · refine Touches.ite ?_ ?_
      · exact th4.step Hw.portStop_touches
      · exact th4
  clear_value h2
  refine Touches.forEach ?_ fun x5 h6 th6 => ?_
  · exact th2
  · refine Touches.ite ?_ ?_
    · exact th6.step Hw.portStart_touches
    · exact th6

theorem Hw.portRuns_touches {h : Hw} {n : Nat} {iq : Nat × Nat} : Touches [.regs, .mem, .ecc, .free, .elogQ, .ports, .strands, .fab, .loop, .hot, .hitch] h (Hw.portRuns h n iq) := by
  unfold Hw.portRuns
  refine Touches.ite ?_ ?_
  · extract_lets +onlyGivenNames h1
    refine Touches.cut (x := h1) ?_ fun th1 => ?_
    · subst h1
      exact (Touches.refl.step Hw.latchRef_touches).step Hw.setPortState_touches
    clear_value h1
    exact th1.step Hw.takeSample_touches
  · exact Touches.refl

theorem Hw.notchSamples_touches {h : Hw} {n : Nat} {m : Nat} {xs : List (Nat × Nat)} : Touches [.regs, .mem, .ecc, .free, .elogQ, .ports, .strands, .fab, .loop, .hot] h (Hw.notchSamples h n m xs) := by
  unfold Hw.notchSamples
  exact (Touches.refl.step Hw.samples_touches).step Hw.notchAdaptStep_touches

theorem Hw.stopDeclared_touches {h : Hw} {n : Nat} {xs : List (Nat × Nat)} : Touches [.regs, .mem, .ecc, .free, .elogQ, .ports, .strands, .fab, .loop, .hot] h (Hw.stopDeclared h n xs) := by
  unfold Hw.stopDeclared
  refine Touches.ite ?_ ?_
  · exact Touches.refl
  · extract_lets +onlyGivenNames h1
    refine Touches.cut (x := h1) ?_ fun th1 => ?_
    · subst h1
      exact Touches.refl.step Hw.samples_touches
    clear_value h1
    extract_lets +onlyGivenNames h2
    refine Touches.cut (x := h2) ?_ fun th2 => ?_
    · subst h2
      exact th1.step Hw.gapBegins_touches
    clear_value h2
    extract_lets +onlyGivenNames h3
    refine Touches.cut (x := h3) ?_ fun th3 => ?_
    · subst h3
      exact th2.step Hw.tagNow_touches
    clear_value h3
    extract_lets +onlyGivenNames v4
    split
    · rename_i a5 a6 h7 e8
      refine Touches.cut (x := h7) (Touches.snd ?_ e8) fun th7 => ?_
      · exact th3.step Hw.fresh_touches
      extract_lets +onlyGivenNames v9
      extract_lets +onlyGivenNames h10
      refine Touches.cut (x := h10) ?_ fun th10 => ?_
      · subst h10
        exact th7.step Hw.setPort_touches
      clear_value h10
      extract_lets +onlyGivenNames h11
      refine Touches.cut (x := h11) ?_ fun th11 => ?_
      · subst h11
        exact ((th10.step Hw.setPortState_touches).step Hw.sf_touches).step Hw.bump_touches
      clear_value h11
      exact (th11.step Hw.logPort_touches).step Hw.coilAbort_touches

theorem Hw.discontinuity_touches {h : Hw} {n : Nat} : Touches [.regs, .elogQ, .ports] h (Hw.discontinuity h n) := by
  unfold Hw.discontinuity
  refine Touches.ite ?_ ?_
  · exact Touches.refl
  · extract_lets +onlyGivenNames v1
    extract_lets +onlyGivenNames h2
    refine Touches.cut (x := h2) ?_ fun th2 => ?_
    · subst h2
      exact Touches.refl.step Hw.markSuspect_touches
    clear_value h2
    extract_lets +onlyGivenNames h3
    refine Touches.cut (x := h3) ?_ fun th3 => ?_
    · subst h3
      exact ((th2.step Hw.coilShow_touches).step Hw.sf_touches).step Hw.bump_touches
    clear_value h3
    exact th3.step Hw.logPort_touches

theorem Hw.rateChange_touches {h : Hw} {n : Nat} : Touches [.regs, .mem, .ecc, .free, .elogQ, .ports, .strands, .fab, .loop] h (Hw.rateChange h n) := by
  unfold Hw.rateChange
  extract_lets +onlyGivenNames h1
  refine Touches.cut (x := h1) ?_ fun th1 => ?_
  · subst h1
    exact Touches.refl.step Hw.gapBegins_touches
  clear_value h1
  extract_lets +onlyGivenNames h2
  refine Touches.cut (x := h2) ?_ fun th2 => ?_
  · subst h2
    exact th1.step Hw.tagNow_touches
  clear_value h2
  extract_lets +onlyGivenNames h3
  refine Touches.cut (x := h3) ?_ fun th3 => ?_
  · subst h3
    exact (th2.step Hw.setPortState_touches).step Hw.sf_touches
  clear_value h3
  extract_lets +onlyGivenNames h4
  refine Touches.cut (x := h4) ?_ fun th4 => ?_
  · subst h4
    exact th3.step Hw.logPort_touches
  clear_value h4
  exact (th4.step Hw.searchLost_touches).step Hw.coilAbort_touches

theorem Hw.windowRun_touches {h : Hw} {n : Nat} : Touches [.regs, .mem, .ecc, .free, .elogQ, .ports, .strands, .fab, .loop] h (Hw.windowRun h n) := by
  unfold Hw.windowRun
  extract_lets +onlyGivenNames v1 v2
  refine Touches.ite ?_ ?_
  · exact Touches.refl
  · extract_lets +onlyGivenNames v3 v4 v5
    extract_lets +onlyGivenNames h6
    refine Touches.cut (x := h6) ?_ fun th6 => ?_
    · subst h6
      exact Touches.refl.step Hw.sfInt_touches
    clear_value h6
    extract_lets +onlyGivenNames f7
    subst f7
    refine Touches.ite ?_ ?_
    · extract_lets +onlyGivenNames h8
      refine Touches.cut (x := h8) ?_ fun th8 => ?_
      · subst h8
        exact th6.step Hw.setPort_touches
      clear_value h8
      refine Touches.step ?_ Hw.rateChange_touches
      refine Touches.step ?_ Hw.sfInt_touches
      refine Touches.ite ?_ ?_
      · exact th8
      · exact (th8.step Hw.markSuspect_touches).step Hw.coilShow_touches
    · refine Touches.ite ?_ ?_
      · extract_lets +onlyGivenNames h9
        refine Touches.cut (x := h9) ?_ fun th9 => ?_
        · subst h9
          exact th6.step Hw.setPort_touches
        clear_value h9
        extract_lets +onlyGivenNames h10
        refine Touches.cut (x := h10) ?_ fun th10 => ?_
        · subst h10
          refine Touches.step ?_ Hw.bump_touches
          refine Touches.step ?_ Hw.sf_touches
          refine Touches.step ?_ Hw.sfInt_touches
          refine Touches.ite ?_ ?_
          · exact th9
          · exact (th9.step Hw.markSuspect_touches).step Hw.coilShow_touches
        clear_value h10
        exact th10.step Hw.logPort_touches
      · exact (th6.step Hw.setPort_touches).step Hw.sfInt_touches

theorem Hw.windowSynthetic_touches {h : Hw} {n : Nat} : Touches [.ports] h (Hw.windowSynthetic h n) := by
  unfold Hw.windowSynthetic
  extract_lets +onlyGivenNames v1
  refine Touches.ite ?_ ?_
  · exact Touches.refl
  · exact Touches.refl.step Hw.setPort_touches

theorem Hw.windowGap_touches {h : Hw} {n : Nat} : Touches [.regs, .mem, .ecc, .free, .elogQ, .ports, .strands, .fab, .loop] h (Hw.windowGap h n) := by
  unfold Hw.windowGap
  extract_lets +onlyGivenNames v1
  extract_lets +onlyGivenNames h2
  refine Touches.cut (x := h2) ?_ fun th2 => ?_
  · subst h2
    exact Touches.refl.step Hw.windowSynthetic_touches
  clear_value h2
  extract_lets +onlyGivenNames v3
  extract_lets +onlyGivenNames h4
  refine Touches.cut (x := h4) ?_ fun th4 => ?_
  · subst h4
    exact th2.step Hw.sfInt_touches
  clear_value h4
  extract_lets +onlyGivenNames v5
  refine Touches.ite ?_ ?_
  · extract_lets +onlyGivenNames v6 v7
    exact th4.step Hw.setPort_touches
  · refine Touches.ite ?_ ?_
    · extract_lets +onlyGivenNames h8
      refine Touches.cut (x := h8) ?_ fun th8 => ?_
      · subst h8
        exact th4.step Hw.setPort_touches
      clear_value h8
      refine Touches.ite ?_ ?_
      · exact th8.step Hw.rateChange_touches
      · exact th8
    · exact th4.step Hw.setPort_touches

theorem Hw.portWindow_touches {h : Hw} {n : Nat} {xs : List (Nat × Nat)} : Touches [.regs, .mem, .ecc, .free, .elogQ, .ports, .strands, .fab, .loop, .hot] h (Hw.portWindow h n xs) := by
  unfold Hw.portWindow
  extract_lets +onlyGivenNames h1
  refine Touches.cut (x := h1) ?_ fun th1 => ?_
  · subst h1
    exact Touches.refl.step Hw.samples_touches
  clear_value h1
  extract_lets +onlyGivenNames v2
  extract_lets +onlyGivenNames h3
  refine Touches.cut (x := h3) ?_ fun th3 => ?_
  · subst h3
    refine Touches.ite ?_ ?_
    · exact th1.step Hw.windowRun_touches
    · refine Touches.ite ?_ ?_
      · exact th1.step Hw.windowGap_touches
      · refine Touches.ite ?_ ?_
        · exact th1.step Hw.windowSynthetic_touches
        · exact th1
  clear_value h3
  extract_lets +onlyGivenNames v4
  exact th3.step Hw.setPort_touches

theorem Hw.windowEnd_touches {h : Hw} {xs : List (List (Nat × Nat))} : Touches [.regs, .mem, .ecc, .free, .elogQ, .ports, .strands, .fab, .loop, .hot] h (Hw.windowEnd h xs) := by
  unfold Hw.windowEnd
  refine Touches.forEach ?_ fun x1 h2 th2 => ?_
  · exact Touches.refl.step Hw.count_touches
  · exact th2.step Hw.portWindow_touches

theorem Hw.endBlocksTo_touches {h : Hw} {n : Nat} {b : Nat} : Touches [.regs, .ports] h (Hw.endBlocksTo h n b) := by
  unfold Hw.endBlocksTo
  refine Touches.forEach ?_ fun x1 h2 th2 => ?_
  · exact Touches.refl
  · refine Touches.ite ?_ ?_
    · exact th2.step Hw.endSynBlock_touches
    · exact th2

theorem Hw.portResume_touches {h : Hw} {n : Nat} : Touches [.regs, .mem, .ecc, .elogQ, .ports, .strands, .fab, .loop] h (Hw.portResume h n) := by
  unfold Hw.portResume
  split
  · extract_lets +onlyGivenNames h6
    refine Touches.cut (x := h6) ?_ fun th6 => ?_
    · subst h6
      exact Touches.refl.step Hw.endBlocksTo_touches
    clear_value h6
    extract_lets +onlyGivenNames v7 v8 v9
    extract_lets +onlyGivenNames h10
    refine Touches.cut (x := h10) ?_ fun th10 => ?_
    · subst h10
      exact th6.step Hw.setPort_touches
    clear_value h10
    extract_lets +onlyGivenNames h11
    refine Touches.cut (x := h11) ?_ fun th11 => ?_
    · subst h11
      exact (th10.step Hw.setPortState_touches).step Hw.sf_touches
    clear_value h11
    extract_lets +onlyGivenNames h12
    refine Touches.cut (x := h12) ?_ fun th12 => ?_
    · subst h12
      exact th11.step Hw.logPort_touches
    clear_value h12
    extract_lets +onlyGivenNames h13
    refine Touches.cut (x := h13) ?_ fun th13 => ?_
    · subst h13
      refine Touches.forEach ?_ fun x14 h15 th15 => ?_
      · exact th12
      · exact th15.step Hw.setStrand_touches
    clear_value h13
    exact th13.step Hw.portWork_touches
  · exact Touches.refl

end Sys2Proof.Machine
end

