-- ==== Sys2Proof/Laws/TouchHotSnap.lean ====
section
/-! SUPPORT. What each operation of Machine/HotSnap.lean touches of the part: the components outside the list stay as they were. -/

set_option Elab.async false

namespace Sys2Proof.Machine

theorem Hw.snapGain_touches {h : Hw} {n : Nat} {gain : Nat} : Touches [.regs, .tspi] h (Hw.snapGain h n gain) := by
  unfold Hw.snapGain
  refine Touches.ite ?_ ?_
  · exact (Touches.refl.step Hw.sf_touches).step Hw.tspiCmd_touches
  · exact Touches.refl

theorem Hw.snapSettings_touches {h : Hw} {n : Nat} : Touches [.regs, .tspi] h (Hw.snapSettings h n) := by
  unfold Hw.snapSettings
  split
  · exact (Touches.refl.step Hw.sf_touches).step Hw.snapGain_touches
  · exact Touches.refl

theorem Hw.snapArm_touches {h : Hw} {ports : Nat} {len : Nat} : Touches [.regs, .mem, .ecc, .free, .elogQ, .ports, .tspi, .strands, .fab, .loop, .tcnt, .coil, .hitch] h (Hw.snapArm h ports len) := by
  unfold Hw.snapArm
  extract_lets +onlyGivenNames h1
  refine Touches.cut (x := h1) ?_ fun th1 => ?_
  · subst h1
    refine Touches.forEach ?_ fun x2 h3 th3 => ?_
    · exact Touches.refl
    · refine Touches.ite ?_ ?_
      · exact th3.step Hw.snapSettings_touches
      · exact th3
  clear_value h1
  extract_lets +onlyGivenNames h4
  refine Touches.cut (x := h4) ?_ fun th4 => ?_
  · subst h4
    exact th1.step Hw.reach_touches
  clear_value h4
  exact (th4.step Hw.sportCtrl_touches).step Hw.coilCtrl_touches

theorem Hw.snapStop_touches {h : Hw} : Touches [.regs, .mem, .ecc, .free, .elogQ, .ports, .strands, .fab, .loop, .hitch] h (Hw.snapStop h) := by
  unfold Hw.snapStop
  refine Touches.forEach ?_ fun x1 h2 th2 => ?_
  · exact Touches.refl
  · exact th2.step Hw.portStop_touches

theorem Hw.snapOutcome_touches {h : Hw} {o : SnapOutcome} : Touches [.free, .hot, .fw] h (Hw.snapOutcome h o) := by
  unfold Hw.snapOutcome
  split
  · rename_i a1 a2 h3 e4
    refine Touches.cut (x := h3) (Touches.snd ?_ e4) fun th3 => ?_
    · exact Touches.refl.step Hw.fresh_touches
    split
    · rename_i a5 a6 h7 e8
      refine Touches.cut (x := h7) (Touches.snd ?_ e8) fun th7 => ?_
      · exact th3.step Hw.freshBytes_touches
      exact (th7.step Hw.setHot_touches).step Hw.notice_touches

theorem Hw.snapSleep_touches {h : Hw} : Touches (Block.except [.fuses, .kept, .elogQ, .fw, .lyd, .upd, .fix]) h (Hw.snapSleep h) := by
  unfold Hw.snapSleep
  refine Touches.ite ?_ ?_
  · exact Touches.refl.step Hw.slackRequest_touches
  · exact Touches.refl

theorem Hw.snapDomains_touches {h : Hw} : Touches [.regs, .mem, .ecc, .elogQ, .strands, .hitch] h (Hw.snapDomains h) := by
  unfold Hw.snapDomains
  refine Touches.forEach ?_ fun x1 h2 th2 => ?_
  · exact Touches.refl
  · refine Touches.step ?_ Hw.domainReady_touches
    refine Touches.ite ?_ ?_
    · exact th2.step Hw.wakeDomain_touches
    · exact th2

theorem Hw.snapBegin_touches {h : Hw} : Touches (Block.except [.fuses, .kept, .lyd, .upd, .fix]) h (Hw.snapBegin h) := by
  unfold Hw.snapBegin
  extract_lets +onlyGivenNames h1
  refine Touches.cut (x := h1) ?_ fun th1 => ?_
  · subst h1
    exact Touches.refl.step Hw.snapTaken_touches
  clear_value h1
  refine Touches.ite ?_ ?_
  · exact (th1.step Hw.snapOutcome_touches).step Hw.snapSleep_touches
  · extract_lets +onlyGivenNames h2
    refine Touches.cut (x := h2) ?_ fun th2 => ?_
    · subst h2
      exact th1.step Hw.snapDomains_touches
    clear_value h2
    exact (th2.step Hw.setHot_touches).step Hw.snapArm_touches

theorem Hw.snapRetry_touches {h : Hw} : Touches [.regs, .mem, .ecc, .free, .elogQ, .ports, .tspi, .strands, .fab, .loop, .tcnt, .coil, .hot, .hitch] h (Hw.snapRetry h) := by
  unfold Hw.snapRetry
  extract_lets +onlyGivenNames h1
  refine Touches.cut (x := h1) ?_ fun th1 => ?_
  · subst h1
    exact (Touches.refl.step Hw.snapStop_touches).step Hw.coilRelease_touches
  clear_value h1
  exact (th1.step Hw.setHot_touches).step Hw.snapArm_touches

theorem Hw.snapStream_touches {h : Hw} : Touches [.regs, .mem, .ecc, .free, .elogQ, .ports, .strands, .fab, .loop, .hot, .hitch, .fw] h (Hw.snapStream h) := by
  unfold Hw.snapStream
  extract_lets +onlyGivenNames h1
  refine Touches.cut (x := h1) ?_ fun th1 => ?_
  · subst h1
    exact Touches.refl.step Hw.snapStop_touches
  clear_value h1
  extract_lets +onlyGivenNames v2
  extract_lets +onlyGivenNames h3
  refine Touches.cut (x := h3) ?_ fun th3 => ?_
  · subst h3
    exact th1.step Hw.setHot_touches
  clear_value h3
  exact th3.step Hw.notice_touches

theorem Hw.snapFinishCycle_touches {h : Hw} {o : SnapOutcome} {live : List Nat} : Touches (Block.except [.fuses, .kept, .lyd, .upd, .fix]) h (Hw.snapFinishCycle h o live) := by
  unfold Hw.snapFinishCycle
  extract_lets +onlyGivenNames h1
  refine Touches.cut (x := h1) ?_ fun th1 => ?_
  · subst h1
    exact (Touches.refl.step Hw.snapStop_touches).step Hw.coilRelease_touches
  clear_value h1
  exact ((th1.step Hw.setHot_touches).step Hw.snapOutcome_touches).step Hw.snapSleep_touches

theorem Hw.snapCommit_touches {h : Hw} {first : Bool} {x : Fin 512 × List (BitVec 32)} : Touches [.regs, .mem, .ecc, .free, .resp, .elogQ, .memu, .fab, .hot, .fw] h (Hw.snapCommit h first x) := by
  unfold Hw.snapCommit
  extract_lets +onlyGivenNames v1
  extract_lets +onlyGivenNames h2
  refine Touches.cut (x := h2) ?_ fun th2 => ?_
  · subst h2
    refine Touches.forEach ?_ fun x3 h4 th4 => ?_
    · exact Touches.refl
    · exact th4.step Hw.memWrite_touches
  clear_value h2
  extract_lets +onlyGivenNames h5
  refine Touches.cut (x := h5) ?_ fun th5 => ?_
  · subst h5
    exact th2.step Hw.commitObject_touches
  clear_value h5
  exact th5.step Hw.setHot_touches

theorem Hw.snapStage_touches {h : Hw} {bodies : List (Fin 512 × List (BitVec 32))} : Touches [.regs, .mem, .ecc, .free, .resp, .elogQ, .memu, .fab, .hot, .fw] h (Hw.snapStage h bodies) := by
  unfold Hw.snapStage
  refine Touches.ite ?_ ?_
  · refine Touches.ite ?_ ?_
    · exact Touches.refl
    · refine Touches.forEach ?_ fun x1 h2 th2 => ?_
      · exact Touches.refl
      · exact th2.step Hw.snapCommit_touches
  · refine Touches.ite ?_ ?_
    · refine Touches.forEach ?_ fun x3 h4 th4 => ?_
      · exact Touches.refl
      · exact th4.step Hw.snapCommit_touches
    · exact Touches.refl

theorem Hw.snapEndCycle_touches {h : Hw} {live : List Nat} : Touches (Block.except [.fuses, .kept, .lyd, .upd, .fix]) h (Hw.snapEndCycle h live) := by
  unfold Hw.snapEndCycle
  refine Touches.ite ?_ ?_
  · exact Touches.refl.step Hw.snapFinishCycle_touches
  · refine Touches.ite ?_ ?_
    · exact Touches.refl
    · refine Touches.ite ?_ ?_
      · exact Touches.refl.step Hw.snapStream_touches
      · refine Touches.ite ?_ ?_
        · exact Touches.refl
        · refine Touches.ite ?_ ?_
          · exact Touches.refl.step Hw.snapFinishCycle_touches
          · refine Touches.ite ?_ ?_
            · exact Touches.refl.step Hw.snapRetry_touches
            · exact Touches.refl.step Hw.snapFinishCycle_touches

theorem Hw.snapCycle_touches {h : Hw} {what : SnapStep} {live : List Nat} : Touches (Block.except [.fuses, .kept, .lyd, .upd, .fix]) h (Hw.snapCycle h what live) := by
  unfold Hw.snapCycle
  refine Touches.ite ?_ ?_
  · exact Touches.refl
  · split
    · refine Touches.ite ?_ ?_
      · exact Touches.refl.step Hw.snapBegin_touches
      · exact Touches.refl
    · refine Touches.ite ?_ ?_
      · exact Touches.refl.step Hw.snapStage_touches
      · exact Touches.refl
    · refine Touches.ite ?_ ?_
      · exact Touches.refl.step Hw.snapEndCycle_touches
      · exact Touches.refl

theorem Hw.snapAbandon_touches {h : Hw} : Touches [.regs, .mem, .ecc, .free, .elogQ, .ports, .strands, .fab, .loop, .hot, .fw] h (Hw.snapAbandon h) := by
  unfold Hw.snapAbandon
  refine Touches.ite ?_ ?_
  · exact (Touches.refl.step Hw.coilRelease_touches).step Hw.snapOutcome_touches
  · exact Touches.refl

theorem Hw.coilReleaseObj_touches {h : Hw} : Touches [.regs, .mem, .ecc, .free, .elogQ, .ports, .strands, .fab, .loop, .hot] h (Hw.coilReleaseObj h) := by
  unfold Hw.coilReleaseObj
  exact (Touches.refl.step Hw.setHot_touches).step Hw.coilRelease_touches

theorem Hw.coilStreamTimeout_touches {h : Hw} : Touches [.regs, .mem, .ecc, .free, .elogQ, .ports, .strands, .fab, .loop, .tcnt, .hot, .fw] h (Hw.coilStreamTimeout h) := by
  unfold Hw.coilStreamTimeout
  refine Touches.ite ?_ ?_
  · exact ((Touches.refl.step Hw.reach_touches).step Hw.coilReleaseObj_touches).step Hw.snapOutcome_touches
  · exact Touches.refl

end Sys2Proof.Machine
end

