-- ==== Sys2Proof/Laws/TouchI2cBus.lean ====
section
/-! SUPPORT. What each operation of Machine/I2cBus.lean touches of the part: the components outside the list stay as they were. -/

set_option Elab.async false

namespace Sys2Proof.Machine

theorem Hw.setI2c_touches {h : Hw} {c : I2c} : Touches [.i2c] h (Hw.setI2c h c) := by
  unfold Hw.setI2c
  exact Touches.refl.step set_i2c_touches

theorem Hw.i2cStart_touches {h : Hw} : Touches [.regs, .i2c] h (Hw.i2cStart h) := by
  unfold Hw.i2cStart
  exact (Touches.refl.step Hw.sf_touches).step Hw.setI2c_touches

theorem Hw.i2cCmd_touches {h : Hw} {v : Nat} : Touches [.regs, .i2c] h (Hw.i2cCmd h v) := by
  unfold Hw.i2cCmd
  refine Touches.ite ?_ ?_
  · exact Touches.refl.step Hw.sf_touches
  · extract_lets +onlyGivenNames v1
    extract_lets +onlyGivenNames h2
    refine Touches.cut (x := h2) ?_ fun th2 => ?_
    · subst h2
      exact (Touches.refl.step Hw.setI2c_touches).step Hw.sf_touches
    clear_value h2
    extract_lets +onlyGivenNames h3
    refine Touches.cut (x := h3) ?_ fun th3 => ?_
    · subst h3
      exact th2.step Hw.sf_touches
    clear_value h3
    refine Touches.ite ?_ ?_
    · exact th3.step Hw.i2cStart_touches
    · exact th3

theorem Hw.i2cFree_touches {h : Hw} : Touches [.regs, .i2c] h (Hw.i2cFree h) := by
  unfold Hw.i2cFree
  refine Touches.ite ?_ ?_
  · refine Touches.ite ?_ ?_
    · exact Touches.refl
    · exact Touches.refl.step Hw.i2cStart_touches
  · refine Touches.ite ?_ ?_
    · exact Touches.refl.step Hw.setI2c_touches
    · exact Touches.refl

theorem Hw.i2cEnd_touches {h : Hw} {stop : Bool} : Touches [.regs, .i2c] h (Hw.i2cEnd h stop) := by
  unfold Hw.i2cEnd
  exact ((Touches.refl.step Hw.sf_touches).step Hw.sf_touches).step Hw.setI2c_touches

theorem Hw.i2cByte_touches {h : Hw} {data : Nat} {ack : Bool} {lost : Bool} : Touches [.regs, .i2c] h (Hw.i2cByte h data ack lost) := by
  unfold Hw.i2cByte
  extract_lets +onlyGivenNames v1 v2
  extract_lets +onlyGivenNames f3
  subst f3
  refine Touches.ite ?_ ?_
  · exact Touches.refl
  · refine Touches.ite ?_ ?_
    · refine Touches.ite ?_ ?_
      · exact (Touches.refl.step Hw.sf_touches).step Hw.i2cEnd_touches
      · refine Touches.ite ?_ ?_
        · exact Touches.refl.step Hw.setI2c_touches
        · exact (Touches.refl.step Hw.sf_touches).step Hw.i2cEnd_touches
    · refine Touches.ite ?_ ?_
      · refine Touches.ite ?_ ?_
        · exact Touches.refl
        · refine Touches.ite ?_ ?_
          · exact (Touches.refl.step Hw.sf_touches).step Hw.i2cEnd_touches
          · exact (Touches.refl.step Hw.setI2c_touches).step Hw.sf_touches
      · split
        · exact Touches.refl
        · extract_lets +onlyGivenNames h10
          refine Touches.cut (x := h10) ?_ fun th10 => ?_
          · subst h10
            exact Touches.refl.step Hw.setI2c_touches
          clear_value h10
          refine Touches.ite ?_ ?_
          · exact (th10.step Hw.sf_touches).step Hw.i2cEnd_touches
          · refine Touches.ite ?_ ?_
            · exact th10.step Hw.sf_touches
            · exact (th10.step Hw.sf_touches).step Hw.i2cEnd_touches

theorem Hw.i2cDone_touches {h : Hw} : Touches [.regs, .i2c] h (Hw.i2cDone h) := by
  unfold Hw.i2cDone
  extract_lets +onlyGivenNames v1
  refine Touches.ite ?_ ?_
  · exact Touches.refl
  · refine Touches.ite ?_ ?_
    · exact (Touches.refl.step Hw.sf_touches).step Hw.i2cEnd_touches
    · exact Touches.refl.step Hw.i2cEnd_touches

theorem Hw.i2cTimeout_touches {h : Hw} {stop : Bool} : Touches [.regs, .i2c] h (Hw.i2cTimeout h stop) := by
  unfold Hw.i2cTimeout
  refine Touches.ite ?_ ?_
  · exact (Touches.refl.step Hw.sf_touches).step Hw.i2cEnd_touches
  · exact Touches.refl

theorem Hw.i2cWrite_touches {h : Hw} {v : Nat} : Touches [.regs, .i2c] h (Hw.i2cWrite h v) := by
  unfold Hw.i2cWrite
  refine Touches.ite ?_ ?_
  · exact Touches.refl.step Hw.sf_touches
  · exact Touches.refl.step Hw.setI2c_touches

theorem Hw.i2cRead_touches {h : Hw} : Touches [.resp, .i2c] h (Hw.i2cRead h) := by
  unfold Hw.i2cRead
  split
  · exact Touches.refl.step set_resp_touches
  · extract_lets +onlyGivenNames v7
    extract_lets +onlyGivenNames h8
    refine Touches.cut (x := h8) ?_ fun th8 => ?_
    · subst h8
      exact Touches.refl.step Hw.setI2c_touches
    clear_value h8
    exact th8.step set_resp_touches

theorem Hw.i2cCfg_touches {h : Hw} {v : Nat} : Touches [.regs, .i2c] h (Hw.i2cCfg h v) := by
  unfold Hw.i2cCfg
  extract_lets +onlyGivenNames v1
  extract_lets +onlyGivenNames h2
  refine Touches.cut (x := h2) ?_ fun th2 => ?_
  · subst h2
    exact Touches.refl.step Hw.writeFields_touches
  clear_value h2
  refine Touches.ite ?_ ?_
  · exact th2.step Hw.setI2c_touches
  · exact th2

end Sys2Proof.Machine
end

