-- ==== Sys2Proof/Laws/TouchBusViews.lean ====
section
/-! SUPPORT. What each operation of Machine/BusViews.lean touches of the part: the components outside the list stay as they were. -/

set_option Elab.async false

namespace Sys2Proof.Machine

theorem Hw.clearRead_touches {h : Hw} {a : Nat} : Touches [.regs] h (Hw.clearRead h a) := by
  unfold Hw.clearRead
  split
  · exact Touches.refl
  · refine Touches.ite ?_ ?_
    · exact Touches.refl
    · exact Touches.refl.step Hw.setReg_touches

theorem Hw.plainRead_touches {h : Hw} {a : Nat} : Touches [.regs, .resp] h (Hw.plainRead h a) := by
  unfold Hw.plainRead
  extract_lets +onlyGivenNames h1
  refine Touches.cut (x := h1) ?_ fun th1 => ?_
  · subst h1
    exact Touches.refl.step Hw.clearRead_touches
  clear_value h1
  exact th1.step set_resp_touches

theorem Hw.regRead_touches {h : Hw} {a : Nat} : Touches [.regs, .resp, .tspi, .sspi, .tp, .serials, .radio, .rtc, .i2c] h (Hw.regRead h a) := by
  unfold Hw.regRead
  refine Touches.ite ?_ ?_
  · exact Touches.refl.step Hw.tspiRead_touches
  · refine Touches.ite ?_ ?_
    · exact Touches.refl.step Hw.sspiRead_touches
    · refine Touches.ite ?_ ?_
      · exact Touches.refl.step Hw.sspiStamp_touches
      · refine Touches.ite ?_ ?_
        · exact Touches.refl.step Hw.i2cRead_touches
        · refine Touches.ite ?_ ?_
          · exact Touches.refl.step Hw.readMark_touches
          · refine Touches.ite ?_ ?_
            · exact Touches.refl.step Hw.readTcnt_touches
            · refine Touches.ite ?_ ?_
              · exact Touches.refl.step Hw.radioDoneRead_touches
              · refine Touches.ite ?_ ?_
                · exact Touches.refl.step Hw.readTime0_touches
                · split
                  · exact Touches.refl.step Hw.readCount_touches
                  · split
                    · exact Touches.refl.step Hw.uartRead_touches
                    · exact Touches.refl.step Hw.plainRead_touches

theorem Hw.regObject_touches {h : Hw} {a : Nat} : Touches [.regs, .resp, .tspi, .sspi, .tp, .serials, .radio, .rtc, .i2c] h (Hw.regObject h a).2 := by
  unfold Hw.regObject
  extract_lets +onlyGivenNames v1
  extract_lets +onlyGivenNames h2
  refine Touches.cut (x := h2) ?_ fun th2 => ?_
  · subst h2
    exact Touches.refl.step Hw.regRead_touches
  clear_value h2
  extract_lets +onlyGivenNames v3
  exact Touches.pair (th2.step set_resp_touches)

end Sys2Proof.Machine
end

