-- ==== Sys2Proof/Laws/TouchBus.lean ====
section
/-! SUPPORT. What each operation of Machine/Bus.lean touches of the part: the components outside the list stay as they were. -/

set_option Elab.async false

namespace Sys2Proof.Machine

theorem Hw.dmaGo_touches {h : Hw} {c : Nat} : Touches [.regs] h (Hw.dmaGo h c) := by
  unfold Hw.dmaGo
  refine Touches.ite ?_ ?_
  · exact (Touches.refl.step Hw.sf_touches).step Hw.sf_touches
  · exact Touches.refl.step Hw.sf_touches

theorem Hw.dmaForget_touches {h : Hw} {c : Nat} : Touches [.dmaTry] h (Hw.dmaForget h c) := by
  unfold Hw.dmaForget
  exact Touches.refl.step set_dmaTry_touches

theorem Hw.dmaResume_touches {h : Hw} {c : Nat} : Touches [.regs] h (Hw.dmaResume h c) := by
  unfold Hw.dmaResume
  refine Touches.ite ?_ ?_
  · exact (Touches.refl.step Hw.sf_touches).step Hw.sf_touches
  · exact Touches.refl

theorem Hw.dmaAbort_touches {h : Hw} {c : Nat} : Touches [.regs, .dmaTry] h (Hw.dmaAbort h c) := by
  unfold Hw.dmaAbort
  refine Touches.ite ?_ ?_
  · exact Touches.refl
  · exact (Touches.refl.step Hw.dmaForget_touches).step Hw.sf_touches

theorem Hw.dmaConfig_touches {h : Hw} {c : Nat} {a : Nat} {v : Nat} : Touches [.regs] h (Hw.dmaConfig h c a v) := by
  unfold Hw.dmaConfig
  extract_lets +onlyGivenNames v1 v2 v3
  refine Touches.ite ?_ ?_
  · exact Touches.refl.step Hw.writeFields_touches
  · refine Touches.ite ?_ ?_
    · exact Touches.refl.step Hw.writeFields_touches
    · extract_lets +onlyGivenNames v4
      exact (Touches.refl.step Hw.setReg_touches).step Hw.sf_touches

theorem Hw.dmaCtrl_touches {h : Hw} {c : Nat} {v : Nat} : Touches [.regs, .dmaTry] h (Hw.dmaCtrl h c v) := by
  unfold Hw.dmaCtrl
  extract_lets +onlyGivenNames h1
  refine Touches.cut (x := h1) ?_ fun th1 => ?_
  · subst h1
    exact Touches.refl.step Hw.dmaConfig_touches
  clear_value h1
  refine Touches.ite ?_ ?_
  · exact th1.step Hw.dmaAbort_touches
  · refine Touches.ite ?_ ?_
    · exact th1.step Hw.dmaResume_touches
    · refine Touches.ite ?_ ?_
      · exact th1.step Hw.dmaGo_touches
      · exact th1

theorem Hw.dmaWrite_touches {h : Hw} {c : Nat} {o : Nat} {v : Nat} : Touches [.regs, .dmaTry] h (Hw.dmaWrite h c o v) := by
  unfold Hw.dmaWrite
  refine Touches.ite ?_ ?_
  · exact Touches.refl.step Hw.dmaCtrl_touches
  · refine Touches.ite ?_ ?_
    · exact Touches.refl.step Hw.writeFields_touches
    · exact Touches.refl.step Hw.dmaConfig_touches

theorem Hw.sysWrite_touches {h : Hw} {a : Nat} {v : Nat} : Touches (Block.except [.fuses, .kept]) h (Hw.sysWrite h a v) := by
  unfold Hw.sysWrite
  refine Touches.ite ?_ ?_
  · exact Touches.refl.step Hw.sysRst_touches
  · refine Touches.ite ?_ ?_
    · exact Touches.refl.step Hw.wdWrite_touches
    · refine Touches.ite ?_ ?_
      · exact Touches.refl.step Hw.wdKick_touches
      · refine Touches.ite ?_ ?_
        · exact Touches.refl.step Hw.dmaWrite_touches
        · refine Touches.ite ?_ ?_
          · exact Touches.refl.step Hw.slackRequest_touches
          · refine Touches.ite ?_ ?_
            · exact Touches.refl.step Hw.stopRequest_touches
            · refine Touches.ite ?_ ?_
              · exact Touches.refl.step Hw.plTarget_touches
              · exact Touches.refl.step Hw.writeFields_touches

theorem Hw.portConfig_touches {h : Hw} {n : Nat} {a : Nat} {v : Nat} : Touches [.regs] h (Hw.portConfig h n a v) := by
  unfold Hw.portConfig
  refine Touches.ite ?_ ?_
  · exact Touches.refl.step Hw.writeFields_touches
  · exact Touches.refl.step Hw.sf_touches

theorem Hw.sportWrite_touches {h : Hw} {a : Nat} {v : Nat} : Touches [.regs, .mem, .ecc, .free, .elogQ, .ports, .tspi, .strands, .fab, .loop, .coil, .hitch] h (Hw.sportWrite h a v) := by
  unfold Hw.sportWrite
  refine Touches.ite ?_ ?_
  · exact Touches.refl.step Hw.sportCtrl_touches
  · refine Touches.ite ?_ ?_
    · exact Touches.refl.step Hw.tspiCmd_touches
    · refine Touches.ite ?_ ?_
      · exact Touches.refl.step Hw.coilCtrl_touches
      · split
        · exact Touches.refl.step Hw.portConfig_touches
        · exact Touches.refl.step Hw.portConfig_touches
        · split
          · exact Touches.refl.step Hw.notchWrite_touches
          · exact Touches.refl.step Hw.notchWrite_touches
          · exact Touches.refl.step Hw.writeFields_touches

theorem Hw.fabLoopWrite_touches {h : Hw} {a : Nat} {v : Nat} : Touches [.regs, .fab] h (Hw.fabLoopWrite h a v) := by
  unfold Hw.fabLoopWrite
  refine Touches.ite ?_ ?_
  · exact Touches.refl.step Hw.testStart_touches
  · refine Touches.ite ?_ ?_
    · exact Touches.refl.step Hw.ringBell_touches
    · split
      · exact Touches.refl.step Hw.slotRangeWrite_touches
      · exact Touches.refl.step Hw.slotCfgWrite_touches
      · exact Touches.refl.step Hw.writeFields_touches

theorem Hw.copyWrite_touches {h : Hw} {v : Nat} : Touches [.regs] h (Hw.copyWrite h v) := by
  unfold Hw.copyWrite
  extract_lets +onlyGivenNames h1
  refine Touches.cut (x := h1) ?_ fun th1 => ?_
  · subst h1
    exact Touches.refl.step Hw.writeFields_touches
  clear_value h1
  refine Touches.ite ?_ ?_
  · exact th1.step Hw.sf_touches
  · exact th1

theorem Hw.tpCmd_touches {h : Hw} {v : Nat} : Touches [.regs, .tp] h (Hw.tpCmd h v) := by
  unfold Hw.tpCmd
  extract_lets +onlyGivenNames h1
  refine Touches.cut (x := h1) ?_ fun th1 => ?_
  · subst h1
    refine Touches.ite ?_ ?_
    · exact Touches.refl.step Hw.sf_touches
    · exact Touches.refl
  clear_value h1
  refine Touches.ite ?_ ?_
  · exact th1.step Hw.tpHold_touches
  · exact th1

theorem Hw.hitchWrite_touches {h : Hw} {a : Nat} {v : Nat} : Touches [.regs, .hitch, .tp] h (Hw.hitchWrite h a v) := by
  unfold Hw.hitchWrite
  refine Touches.ite ?_ ?_
  · exact Touches.refl.step Hw.hitchCtrl_touches
  · refine Touches.ite ?_ ?_
    · exact Touches.refl.step Hw.hitchBaseLo_touches
    · refine Touches.ite ?_ ?_
      · exact Touches.refl.step Hw.hitchBase_touches
      · refine Touches.ite ?_ ?_
        · exact Touches.refl.step Hw.hitchAdj_touches
        · refine Touches.ite ?_ ?_
          · exact Touches.refl.step Hw.copyWrite_touches
          · refine Touches.ite ?_ ?_
            · exact Touches.refl.step Hw.writePeriod_touches
            · refine Touches.ite ?_ ?_
              · exact Touches.refl.step Hw.tpCmd_touches
              · refine Touches.ite ?_ ?_
                · exact Touches.refl.step Hw.writeSlew_touches
                · refine Touches.ite ?_ ?_
                  · exact Touches.refl.step Hw.writeLim_touches
                  · refine Touches.ite ?_ ?_
                    · exact Touches.refl.step Hw.tpDisc_touches
                    · exact Touches.refl.step Hw.writeFields_touches

theorem Hw.memBlockWrite_touches {h : Hw} {a : Nat} {v : Nat} : Touches [.regs, .mem, .ecc, .kept, .pwr, .elogQ, .memu] h (Hw.memBlockWrite h a v) := by
  unfold Hw.memBlockWrite
  refine Touches.ite ?_ ?_
  · exact Touches.refl.step Hw.marchWrite_touches
  · refine Touches.ite ?_ ?_
    · exact Touches.refl.step Hw.lcRequest_touches
    · refine Touches.ite ?_ ?_
      · exact Touches.refl.step Hw.thimbleCmd_touches
      · split
        · exact Touches.refl.step Hw.unitCtl_touches
        · exact Touches.refl.step Hw.writeFields_touches

theorem Hw.mpuWrite_touches {h : Hw} {a : Nat} {v : Nat} : Touches [.regs] h (Hw.mpuWrite h a v) := by
  unfold Hw.mpuWrite
  refine Touches.ite ?_ ?_
  · exact Touches.refl.step Hw.mpuCtrl_touches
  · refine Touches.ite ?_ ?_
    · exact Touches.refl
    · exact Touches.refl.step Hw.writeFields_touches

theorem Hw.uartBlockWrite_touches {h : Hw} {n : Nat} {o : Nat} {v : Nat} : Touches [.regs, .fw, .serials] h (Hw.uartBlockWrite h n o v) := by
  unfold Hw.uartBlockWrite
  refine Touches.ite ?_ ?_
  · exact Touches.refl.step Hw.uartCfg_touches
  · refine Touches.ite ?_ ?_
    · exact Touches.refl.step Hw.uartShadow_touches
    · refine Touches.ite ?_ ?_
      · exact Touches.refl.step Hw.uartShadow_touches
      · refine Touches.ite ?_ ?_
        · exact Touches.refl.step Hw.uartWrite_touches
        · refine Touches.ite ?_ ?_
          · exact Touches.refl.step Hw.uartStat_touches
          · refine Touches.ite ?_ ?_
            · exact Touches.refl.step Hw.uartFifo_touches
            · refine Touches.ite ?_ ?_
              · exact Touches.refl.step Hw.uartSlow_touches
              · refine Touches.ite ?_ ?_
                · exact Touches.refl.step Hw.uartSrate_touches
                · exact Touches.refl.step Hw.writeFields_touches

theorem Hw.linkBlockWrite_touches {h : Hw} {a : Nat} {v : Nat} : Touches [.regs, .sspi, .i2c] h (Hw.linkBlockWrite h a v) := by
  unfold Hw.linkBlockWrite
  refine Touches.ite ?_ ?_
  · exact Touches.refl.step Hw.sspiCmd_touches
  · refine Touches.ite ?_ ?_
    · exact Touches.refl.step Hw.i2cCfg_touches
    · refine Touches.ite ?_ ?_
      · exact Touches.refl.step Hw.i2cCmd_touches
      · refine Touches.ite ?_ ?_
        · exact Touches.refl.step Hw.i2cWrite_touches
        · split
          · exact Touches.refl.step Hw.canCfg_touches
          · exact Touches.refl.step Hw.writeFields_touches

theorem Hw.radioWrite_touches {h : Hw} {a : Nat} {v : Nat} : Touches [.regs, .radio] h (Hw.radioWrite h a v) := by
  unfold Hw.radioWrite
  refine Touches.ite ?_ ?_
  · refine Touches.ite ?_ ?_
    · exact Touches.refl
    · exact Touches.refl.step Hw.setReg_touches
  · refine Touches.ite ?_ ?_
    · exact Touches.refl.step Hw.radioCtrl_touches
    · refine Touches.ite ?_ ?_
      · exact Touches.refl.step Hw.radioGo_touches
      · refine Touches.ite ?_ ?_
        · exact Touches.refl.step Hw.fuseBlow_touches
        · split
          · exact Touches.refl.step Hw.setReg_touches
          · exact Touches.refl.step Hw.writeFields_touches

theorem Hw.updBlockWrite_touches {h : Hw} {a : Nat} {v : Nat} : Touches [.regs, .fuses, .sys, .fw, .serials, .lyd, .radio, .pkey, .upd] h (Hw.updBlockWrite h a v) := by
  unfold Hw.updBlockWrite
  refine Touches.ite ?_ ?_
  · exact Touches.refl.step Hw.updCtrl_touches
  · refine Touches.ite ?_ ?_
    · exact Touches.refl.step Hw.otpSet_touches
    · exact Touches.refl.step Hw.writeFields_touches

theorem Hw.regWrite_touches {h : Hw} {a : Nat} {v : Nat} : Touches (Block.except []) h (Hw.regWrite h a v) := by
  unfold Hw.regWrite
  refine Touches.ite ?_ ?_
  · exact Touches.refl.step Hw.sysWrite_touches
  · refine Touches.ite ?_ ?_
    · refine Touches.ite ?_ ?_
      · exact Touches.refl
      · exact Touches.refl.step Hw.sportWrite_touches
    · refine Touches.ite ?_ ?_
      · exact Touches.refl.step Hw.fabLoopWrite_touches
      · refine Touches.ite ?_ ?_
        · exact Touches.refl.step Hw.hitchWrite_touches
        · refine Touches.ite ?_ ?_
          · exact Touches.refl.step Hw.memBlockWrite_touches
          · refine Touches.ite ?_ ?_
            · exact Touches.refl.step Hw.mpuWrite_touches
            · refine Touches.ite ?_ ?_
              · exact Touches.refl.step Hw.elogCtrl_touches
              · refine Touches.ite ?_ ?_
                · exact Touches.refl.step Hw.elogSoft_touches
                · refine Touches.ite ?_ ?_
                  · exact Touches.refl.step Hw.uartBlockWrite_touches
                  · refine Touches.ite ?_ ?_
                    · exact Touches.refl.step Hw.linkBlockWrite_touches
                    · refine Touches.ite ?_ ?_
                      · exact Touches.refl.step Hw.radioWrite_touches
                      · refine Touches.ite ?_ ?_
                        · exact Touches.refl.step Hw.outWrite_touches
                        · refine Touches.ite ?_ ?_
                          · exact Touches.refl.step Hw.updBlockWrite_touches
                          · refine Touches.ite ?_ ?_
                            · exact Touches.refl
                            · exact Touches.refl.step Hw.writeFields_touches

theorem Hw.backupRead_touches {h : Hw} {a : Nat} {n : Nat} : Touches [.resp] h (Hw.backupRead h a n) := by
  unfold Hw.backupRead
  exact Touches.refl.step set_resp_touches

theorem Hw.backupWrite_touches {h : Hw} {a : Nat} {n : Nat} {v : Nat} : Touches [.resp, .rtc] h (Hw.backupWrite h a n v) := by
  unfold Hw.backupWrite
  refine Touches.ite ?_ ?_
  · exact (Touches.refl.step Hw.backupPost_touches).step Hw.backupPost_touches
  · exact Touches.refl.step Hw.backupPost_touches

theorem Hw.gated_touches {h0 h : Hw} {l : List Block} {m : Master} {a n : Nat} {write : Bool} {f : Hw → Hw} (t : Touches l h0 h)
    (hf : ∀ g, Touches l h0 g → Touches l h0 (f g)) (hl : Block.within [.regs, .resp, .elogQ] l = true := by rfl)
    (hr : Block.within [.regs, .resp] l = true := by rfl) : Touches l h0 (h.gated m a n write f) := by
  unfold Hw.gated
  split
  · exact t.step Hw.errorResp_touches hl
  · exact t.step Hw.stallResp_touches hr
  · exact hf _ t

theorem Hw.read_touches {h : Hw} {m : Master} {a : Nat} {n : Nat} : Touches [.regs, .ecc, .free, .resp, .elogQ, .tspi, .sspi, .tp, .serials, .radio, .rtc, .i2c] h (Hw.read h m a n) := by
  unfold Hw.read
  refine Touches.ite ?_ ?_
  · refine Hw.gated_touches ?_ fun h1 th1 => ?_
    · exact Touches.refl
    · exact th1.step Hw.regRead_touches
  · refine Touches.ite ?_ ?_
    · refine Hw.gated_touches ?_ fun h2 th2 => ?_
      · exact Touches.refl
      · exact th2.step Hw.backupRead_touches
    · exact Touches.refl.step Hw.memRead_touches

theorem Hw.regWriteBy_touches {h : Hw} {m : Master} {a : Nat} {v : Nat} : Touches (Block.except []) h (Hw.regWriteBy h m a v) := by
  unfold Hw.regWriteBy
  refine Touches.ite ?_ ?_
  · exact Touches.refl.step set_resp_touches
  · refine Touches.ite ?_ ?_
    · exact Touches.refl.step Hw.backupWrite_touches
    · refine Touches.ite ?_ ?_
      · extract_lets +onlyGivenNames h1
        refine Touches.cut (x := h1) ?_ fun th1 => ?_
        · subst h1
          exact Touches.refl.step Hw.regWrite_touches
        clear_value h1
        exact th1.step set_resp_touches
      · refine Touches.ite ?_ ?_
        · extract_lets +onlyGivenNames h2
          refine Touches.cut (x := h2) ?_ fun th2 => ?_
          · subst h2
            exact Touches.refl.step Hw.regWrite_touches
          clear_value h2
          exact th2.step set_resp_touches
        · refine Touches.ite ?_ ?_
          · exact Touches.refl.step set_resp_touches
          · extract_lets +onlyGivenNames h3
            refine Touches.cut (x := h3) ?_ fun th3 => ?_
            · subst h3
              exact Touches.refl.step Hw.regWrite_touches
            clear_value h3
            exact th3.step set_resp_touches

theorem Hw.timeAligned_touches {h : Hw} {s : Nat} : Touches [.free, .strands] h (Hw.timeAligned h s) := by
  unfold Hw.timeAligned
  extract_lets +onlyGivenNames v1 v2
  refine Touches.ite ?_ ?_
  · split
    · rename_i a3 a4 h5 e6
      refine Touches.cut (x := h5) (Touches.snd ?_ e6) fun th5 => ?_
      · exact Touches.refl.step Hw.fresh_touches
      extract_lets +onlyGivenNames v7
      exact th5.step Hw.setStrand_touches
  · exact Touches.refl

theorem Hw.aliasBy_touches {h : Hw} {m : Master} {a : Nat} {n : Nat} {v : Nat} : Touches [.regs, .mem, .ecc, .free, .resp, .elogQ, .memu, .strands] h (Hw.aliasBy h m a n v) := by
  unfold Hw.aliasBy
  extract_lets +onlyGivenNames h1
  refine Touches.cut (x := h1) ?_ fun th1 => ?_
  · subst h1
    exact Touches.refl.step Hw.aliasWrite_touches
  clear_value h1
  extract_lets +onlyGivenNames v2
  refine Touches.ite ?_ ?_
  · exact th1.step Hw.timeAligned_touches
  · exact th1

theorem Hw.write_touches {h : Hw} {m : Master} {a : Nat} {n : Nat} {v : Nat} {hit : Bool} : Touches (Block.except []) h (Hw.write h m a n v hit) := by
  unfold Hw.write
  refine Touches.ite ?_ ?_
  · refine Hw.gated_touches ?_ fun h1 th1 => ?_
    · exact Touches.refl
    · exact th1.step Hw.regWriteBy_touches
  · refine Touches.ite ?_ ?_
    · refine Hw.gated_touches ?_ fun h2 th2 => ?_
      · exact Touches.refl
      · exact th2.step Hw.backupWrite_touches
    · refine Touches.ite ?_ ?_
      · exact Touches.refl.step Hw.aliasBy_touches
      · exact Touches.refl.step Hw.busWrite_touches

theorem Hw.busOp_touches {h : Hw} {o : BusOp} : Touches (Block.except []) h (Hw.busOp h o) := by
  unfold Hw.busOp
  split
  · exact Touches.refl.step Hw.read_touches
  · exact Touches.refl.step Hw.write_touches
  · exact Touches.refl.step Hw.aliasBy_touches
  · exact Touches.refl.step Hw.aliasBy_touches

theorem Hw.issue_touches {h : Hw} {o : BusOp} : Touches (Block.except []) h (Hw.issue h o) := by
  unfold Hw.issue
  extract_lets +onlyGivenNames h1
  refine Touches.cut (x := h1) ?_ fun th1 => ?_
  · subst h1
    exact (Touches.refl.step set_late_touches).step Hw.busOp_touches
  refine Touches.ite ?_ ?_
  · exact th1.step set_stalls_touches
  · exact th1

theorem Hw.retry_touches {h : Hw} {o : BusOp} : Touches (Block.except []) h (Hw.retry h o) := by
  unfold Hw.retry
  refine Touches.ite ?_ ?_
  · exact Touches.refl
  · extract_lets +onlyGivenNames h1
    refine Touches.cut (x := h1) ?_ fun th1 => ?_
    · subst h1
      exact Touches.refl.step Hw.busOp_touches
    clear_value h1
    refine Touches.ite ?_ ?_
    · exact Touches.refl.step set_stalls_touches
    · exact th1.step set_late_touches

theorem Hw.resume_touches {h : Hw} : Touches (Block.except []) h (Hw.resume h) := by
  unfold Hw.resume
  refine Touches.ite ?_ ?_
  · exact Touches.refl
  · refine Touches.forEach ?_ fun x1 h2 th2 => ?_
    · exact Touches.refl.step set_stalls_late_touches
    · exact th2.step Hw.retry_touches

theorem Hw.queueEdge_touches {h : Hw} {pre : Nat} {p : Nat × Nat × Nat → Bool} : Touches (Block.except []) h (Hw.queueEdge h pre p) := by
  unfold Hw.queueEdge
  exact (Touches.refl.step Hw.backupEdge_touches).step Hw.resume_touches

end Sys2Proof.Machine
end

