-- ==== Sys2Proof/Laws/TouchDma.lean ====
section
/-! SUPPORT. What each operation of Machine/Dma.lean touches of the part: the components outside the list stay as they were. -/

set_option Elab.async false

namespace Sys2Proof.Machine

theorem Hw.dmaHalt_touches {h : Hw} {c : Fin 8} {a : Nat} {write : Bool} {cls : Nat} : Touches [.regs, .resp, .elogQ, .dmaTry] h (Hw.dmaHalt h c a write cls) := by
  unfold Hw.dmaHalt
  extract_lets +onlyGivenNames h1
  refine Touches.cut (x := h1) ?_ fun th1 => ?_
  · subst h1
    exact (Touches.refl.step Hw.sf_touches).step Hw.sf_touches
  clear_value h1
  extract_lets +onlyGivenNames h2
  refine Touches.cut (x := h2) ?_ fun th2 => ?_
  · subst h2
    exact (th1.step Hw.dmaForget_touches).step Hw.dmaError_touches
  clear_value h2
  exact th2.step set_resp_touches

theorem Hw.dmaNext_touches {h : Hw} {c : Nat} : Touches [.regs, .dmaTry] h (Hw.dmaNext h c) := by
  unfold Hw.dmaNext
  extract_lets +onlyGivenNames v1
  extract_lets +onlyGivenNames h2
  refine Touches.cut (x := h2) ?_ fun th2 => ?_
  · subst h2
    refine Touches.ite ?_ ?_
    · exact Touches.refl.step Hw.sf_touches
    · exact Touches.refl
  clear_value h2
  extract_lets +onlyGivenNames h3
  refine Touches.cut (x := h3) ?_ fun th3 => ?_
  · subst h3
    refine Touches.ite ?_ ?_
    · exact th2.step Hw.sf_touches
    · exact th2
  clear_value h3
  extract_lets +onlyGivenNames h4
  refine Touches.cut (x := h4) ?_ fun th4 => ?_
  · subst h4
    exact (th3.step Hw.dmaForget_touches).step Hw.sf_touches
  clear_value h4
  refine Touches.ite ?_ ?_
  · exact (th4.step Hw.sf_touches).step Hw.sf_touches
  · exact th4

theorem Hw.dmaCollide_touches {h : Hw} {c : Fin 8} {a : Nat} {v : Nat} {times : Nat} : Touches [.regs, .resp, .elogQ, .dmaTry, .strands] h (Hw.dmaCollide h c a v times) := by
  unfold Hw.dmaCollide
  extract_lets +onlyGivenNames h1
  refine Touches.cut (x := h1) ?_ fun th1 => ?_
  · subst h1
    exact Touches.refl.step Hw.collide_touches
  clear_value h1
  refine Touches.ite ?_ ?_
  · exact th1.step set_dmaTry_touches
  · extract_lets +onlyGivenNames h2
    refine Touches.cut (x := h2) ?_ fun th2 => ?_
    · subst h2
      exact ((th1.step Hw.dmaForget_touches).step Hw.sf_touches).step Hw.sf_touches
    clear_value h2
    exact th2.step Hw.report_touches

theorem Hw.dmaPut_touches {h : Hw} {c : Fin 8} {v : Nat} {times : Nat} {hit : Bool} : Touches (Block.except []) h (Hw.dmaPut h c v times hit) := by
  unfold Hw.dmaPut
  extract_lets +onlyGivenNames v1 v2
  split
  · exact Touches.refl.step Hw.dmaHalt_touches
  · refine Touches.ite ?_ ?_
    · exact Touches.refl.step Hw.dmaCollide_touches
    · exact (Touches.refl.step Hw.write_touches).step Hw.dmaNext_touches

theorem Hw.dmaBeatOf_touches {h : Hw} {c : Fin 8} {hit : Bool} : Touches (Block.except []) h (Hw.dmaBeatOf h c hit) := by
  unfold Hw.dmaBeatOf
  extract_lets +onlyGivenNames v1 v2 v3
  split
  · refine Touches.ite ?_ ?_
    · exact Touches.refl.step Hw.stallResp_touches
    · exact Touches.refl.step Hw.dmaPut_touches
  · split
    · exact Touches.refl.step Hw.dmaHalt_touches
    · refine Touches.ite ?_ ?_
      · exact Touches.refl.step Hw.stallResp_touches
      · refine Touches.ite ?_ ?_
        · exact Touches.refl.step Hw.stallResp_touches
        · extract_lets +onlyGivenNames h16
          refine Touches.cut (x := h16) ?_ fun th16 => ?_
          · subst h16
            exact Touches.refl.step Hw.read_touches
          clear_value h16
          exact th16.step Hw.dmaPut_touches

theorem Hw.dmaBeat_touches {h : Hw} {hit : Bool} : Touches (Block.except []) h (Hw.dmaBeat h hit) := by
  unfold Hw.dmaBeat
  split
  · exact Touches.refl
  · refine Touches.ite ?_ ?_
    · exact Touches.refl.step Hw.dmaBeatOf_touches
    · exact Touches.refl

end Sys2Proof.Machine
end

