-- ==== Sys2Proof/Laws/BusFacts.lean ====
section
/-! SUPPORT. What bus accesses of SRAM and of registers come to once their checks are known. -/

set_option Elab.async false

namespace Sys2Proof.Machine

/-- A master whose port is not closed makes its access. -/
theorem Hw.onBus_eq {h : Hw} {m : Master} (hm : m ≠ .jtag) (f : Hw → Hw) : h.onBus m f = f h := by
  unfold Hw.onBus Hw.mute
  rw [if_neg]
  simp [hm]

/-- An access that does not stall is done. -/
theorem Hw.issue_done {h g : Hw} {o : BusOp} (e : ({ h with late := [] } : Hw).busOp o = g) (hs : g.resp ≠ .stalled) : h.issue o = g := by
  unfold Hw.issue
  simp only [e]
  rw [if_neg hs]

/-- An access that stalls waits. -/
theorem Hw.issue_stalls {h g : Hw} {o : BusOp} (e : ({ h with late := [] } : Hw).busOp o = g) (hs : g.resp = .stalled) :
    h.issue o = { g with stalls := g.stalls ++ [o] } := by
  unfold Hw.issue
  simp only [e]
  rw [if_pos hs]

/-- The answers of earlier waiting accesses are forgotten, and the changes follow. -/
theorem Changes.late {fs : List (Fld × Nat)} {l k : List Block} {h X : Hw} (c : Changes fs l { h with late := [] } X)
    (hk : Block.within (.late :: l) k = true := by rfl) : Changes fs k h X := by
  simp only [Block.within, List.all_cons, List.all_eq_true, Bool.and_eq_true] at hk
  have sub : ∀ b, k.contains b = false → l.contains b = false := fun b hb => by
    by_contra hl
    have := hk.2 b (by simpa using hl)
    rw [this] at hb; cases hb
  refine ⟨c.regs, fun b hb => ?_, fun hm a => c.bytes (sub _ hm) a⟩
  have hb' : (b == .regs) = false ∧ k.contains b = false := by simpa [List.contains_cons, Bool.or_eq_false_iff] using hb
  have e1 : ({ h with late := [] } : Hw).same X b := c.rest b (by
    have := sub b hb'.2
    simp only [List.contains_cons, Bool.or_eq_false_iff]
    exact ⟨hb'.1, this⟩)
  cases b <;> first | exact e1 | (rw [hk.1] at hb'; cases hb'.2)

/-- While nothing waits, nothing is tried again. -/
theorem Hw.resume_idle {h : Hw} (hs : h.stalls = []) : h.resume = h := by
  unfold Hw.resume
  rw [if_pos hs]

/-- The checks do not look at the last response. -/
theorem Hw.access_with_resp (h : Hw) (r : Resp) (m : Master) (a n : Nat) (w : Bool) : ({ h with resp := r } : Hw).access m a n w = h.access m a n w := (rfl)

/-- A read of an SRAM address. -/
theorem Hw.read_sram {h : Hw} {m : Master} {a n : Nat} (hs : inSram a = true) : h.read m a n = match h.access m a n false with
  | .stall => h.stallResp a
  | .error c k => h.errorResp m a n false c k
  | .ok => if h.unreadable a then h.errorResp m a n false 3 (h.eccCode a)
    else { h.correct a with resp := .data ((h.correct a).load a n) } := by
  obtain ⟨h1, h2, h3, h4, h5, h6, h7⟩ := inSram_plain hs
  unfold Hw.read Hw.memRead Hw.memValue
  rw [h1, h2, h5, h3, h4]
  simp only [Bool.false_eq_true, if_false] <;> cases h.access m a n false <;> rfl

/-- A write of an SRAM address. -/
theorem Hw.write_sram {h : Hw} {m : Master} {a n v : Nat} {hit : Bool} (hs : inSram a = true) : h.write m a n v hit = h.busWrite m a n v hit := by
  obtain ⟨h1, h2, h3, h4, h5, h6, h7⟩ := inSram_plain hs
  unfold Hw.write
  rw [h1, h2, h7]
  simp

/-- A write of an SRAM address that every check lets pass, to a word without error, that meets no port B write. -/
theorem Hw.write_clean {h : Hw} {m : Master} {a n v : Nat} (hs : inSram a = true) (ha : h.access m a n true = .ok) (he : h.eccAt a = 0) :
    h.write m a n v false = { (h.store a n (v % pow2 (8 * n))).setEcc a 0 with resp := .okay } := by
  rw [Hw.write_sram hs]
  unfold Hw.busWrite Hw.memWrite
  have hu : h.unreadable a = false := by unfold Hw.unreadable; rw [he]; rfl
  have hc : h.correct a = h := by unfold Hw.correct; rw [he]; rfl
  rw [if_neg (by simp), ha]
  simp only [hu, hc, (inSram_plain hs).2.2.1, Bool.false_eq_true, and_false, false_and, if_false, ite_self]
  unfold Hw.memStore
  rw [(inSram_plain hs).2.2.1]
  rfl

/-- What a checked access of SRAM meets. -/
theorem Hw.busAccess_sram {h : Hw} {m : Master} {a n : Nat} {w : Bool} (hs : inSram a = true) : h.busAccess m a n w = h.access m a n w := by
  obtain ⟨h1, h2, h3, h4, h5, h6, h7⟩ := inSram_plain hs
  have hb : backupReg a = false := by
    unfold backupReg
    simp only [within, Bool.and_eq_true, Bool.or_eq_true, decide_eq_true_eq] at h6 ⊢
    first
    | (simp; omega)
    | (simp [within]; omega)
  unfold Hw.busAccess
  rw [h1, h2, h5, hb]
  simp only [Bool.false_eq_true, if_false, false_and, Bool.or_self]
  cases h.access m a n w <;> rfl

end Sys2Proof.Machine
end

