-- ==== Sys2Proof/Laws/Changes.lean ====
section
/-! SUPPORT. The laws of `Changes`: how the operations on registers and components add to a list of changes, and what a list of changes says
about reading a field. -/

set_option Elab.async false

namespace Sys2Proof.Machine

variable {fs : List (Fld × Nat)} {l : List Block} {h X : Hw}

theorem Changes.refl : Changes [] l h h := ⟨fun _ _ _ => rfl, Touches.refl, fun _ _ => rfl⟩

/-- The bits of a register value after an insertion. -/
theorem Fld.testBit_insert (f : Fld) (n v k : Nat) :
    (f.insert n v).testBit k = if f.lo ≤ k ∧ k < f.lo + f.len then v.testBit (k - f.lo) else n.testBit k := by
  obtain ⟨a, lo, len⟩ := f
  simp only [Fld.insert]
  have h1 : n / 2 ^ (lo + len) * 2 ^ (lo + len) + v % 2 ^ len * 2 ^ lo + n % 2 ^ lo
      = 2 ^ lo * (2 ^ len * (n / 2 ^ (lo + len)) + v % 2 ^ len) + n % 2 ^ lo := by rw [pow_add]; ring
  rw [h1, Nat.testBit_two_pow_mul_add _ (Nat.mod_lt _ (by positivity)), Nat.testBit_two_pow_mul_add _ (Nat.mod_lt _ (by positivity))]
  by_cases c1 : k < lo
  · have c2 : ¬ (lo ≤ k ∧ k < lo + len) := by omega
    simp [c1, c2, Nat.testBit_mod_two_pow]
  · by_cases c3 : k - lo < len
    · have c2 : lo ≤ k ∧ k < lo + len := by omega
      simp [c1, c2, c3, Nat.testBit_mod_two_pow]
    · have c2 : ¬ (lo ≤ k ∧ k < lo + len) := by omega
      simp only [c1, c2, c3, if_false, Nat.testBit_div_two_pow]
      congr 1
      omega

theorem Hw.getLsbD_sf (f : Fld) (v a k : Nat) (hk : k < 32) :
    ((h.sf f v).reg a).getLsbD k = if f.addr = a ∧ f.lo ≤ k ∧ k < f.lo + f.len then v.testBit (k - f.lo) else (h.reg a).getLsbD k := by
  unfold Hw.sf
  rw [Hw.reg_setReg]
  by_cases ha : f.addr = a
  · subst ha
    simp only [true_and, if_true, BitVec.getLsbD_ofNat, hk, decide_true, Bool.true_and, Fld.testBit_insert]
    rfl
  · simp [ha]

theorem Changes.byte_of_touches {h h' : Hw} (t : Touches (.regs :: l) h h') (hl : l.contains .mem = false) (a : Nat) : h'.byte a = h.byte a := by
  have : h'.mem = h.mem := t .mem (by simpa using hl)
  simp [Hw.byte, this]

theorem Changes.of (r : ∀ a k, k < 32 → (X.reg a).getLsbD k = fieldBit (h.reg a) a k fs) (t : Touches (.regs :: l) h X) : Changes fs l h X :=
  ⟨r, t, fun hl a => Changes.byte_of_touches t hl a⟩

/-- Writing a field adds it to the front of the list. -/
theorem Changes.sf {f : Fld} {v : Nat} (c : Changes fs l h X) :
    Changes ((f, v) :: fs) l h (X.sf f v) := by
  refine Changes.of (fun a k hk => ?_) (c.rest.step Hw.sf_touches (by simp [Block.within]))
  rw [Hw.getLsbD_sf f v a k hk, c.regs a k hk]
  rfl

theorem Changes.setReg {a : Nat} {v : BitVec 32} (c : Changes fs l h X) : Changes ((wholeReg a, v.toNat) :: fs) l h (X.setReg a v) := by
  refine Changes.of (fun b k hk => ?_) (c.rest.step Hw.setReg_touches (by simp [Block.within]))
  rw [Hw.reg_setReg]
  by_cases ha : a = b
  · subst ha
    simp [fieldBit, wholeReg, hk, bit, BitVec.getLsbD]
  · simp [fieldBit, wholeReg, ha, c.regs b k hk]

/-- Writing a register with what it holds adds nothing. -/
theorem Changes.same {a : Nat} {v : BitVec 32} (c : Changes fs l h X) (e : X.reg a = v) : Changes fs l h (X.setReg a v) := by
  refine Changes.of (fun b k hk => ?_) (c.rest.step Hw.setReg_touches (by simp [Block.within]))
  rw [Hw.reg_setReg]
  by_cases hb : a = b
  · subst hb; simp [← e, c.regs _ k hk]
  · simp [hb, c.regs _ k hk]

/-- A change of components that are no registers. -/
theorem Changes.touch {Y : Hw} {k : List Block} (c : Changes fs l h X) (t : Touches k X Y) (hk : Block.within k l = true := by rfl)
    (hr : k.contains .regs = false := by rfl) : Changes fs l h Y := by
  have hreg : Y.regs = X.regs := t .regs hr
  have hs : Block.within k (.regs :: l) = true := by
    simp only [Block.within, List.all_eq_true] at hk ⊢
    intro b hb
    simp only [List.contains_cons, hk b hb, Bool.or_true]
  refine Changes.of (fun a j hj => ?_) (c.rest.step t hs)
  rw [← c.regs a j hj]
  simp [Hw.reg, hreg]

/-- Reading the field at the front of the list. -/
theorem Changes.rf {f : Fld} {v : Nat} (c : Changes ((f, v) :: fs) l h X) (hf : f.lo + f.len ≤ 32 := by exact Nat.le_of_ble_eq_true rfl) :
    X.rf f = v % 2 ^ f.len := by
  have e : X.reg f.addr = (X.sf f v).reg f.addr := by
    apply BitVec.eq_of_getLsbD_eq
    intro k hk
    rw [Hw.getLsbD_sf f v _ k hk, c.regs _ k hk]
    simp only [fieldBit, true_and]
    split
    · rfl
    · rfl
  rw [Hw.rf, e]
  exact Hw.rf_sf_same X f hf v

end Sys2Proof.Machine
end

