-- ==== Sys2Proof/Laws/Ok.lean ====
section
/-! SUPPORT. The laws of the invariant: a change that touches none of its components keeps it, and so do the basic operations on those. -/

set_option Elab.async false

namespace Sys2Proof.Machine

variable {h X A B : Hw}

/-- The components that the invariant speaks of. -/
def okBlocks : List Block := [.regs, .mem, .ecc, .tcnt, .elogQ, .tspi, .sspi, .radio, .i2c, .tp, .serials]

/-- A change that touches no component of the invariant keeps it. -/
theorem Hw.Ok.touches {l : List Block} (ok : h.Ok) (t : Touches l h X) (hl : okBlocks.all (fun b => !l.contains b) = true := by rfl) : X.Ok := by
  have e : ∀ b, okBlocks.contains b = true → h.same X b := by
    intro b hb
    have := List.all_eq_true.mp hl b (List.contains_iff_mem.mp hb)
    exact t b (by simpa using this)
  have hr : X.regs = h.regs := e .regs rfl
  have hm : X.mem = h.mem := e .mem rfl
  have he : X.ecc = h.ecc := e .ecc rfl
  have ht : X.tcnt = h.tcnt := e .tcnt rfl
  have hq : X.elogQ = h.elogQ := e .elogQ rfl
  have h1 : X.tspi = h.tspi := e .tspi rfl
  have h2 : X.sspi = h.sspi := e .sspi rfl
  have h3 : X.radio = h.radio := e .radio rfl
  have h4 : X.i2c = h.i2c := e .i2c rfl
  have h5 : X.tp = h.tp := e .tp rfl
  have h6 : X.serials = h.serials := e .serials rfl
  have h7 : ∀ n, X.serial n = h.serial n := fun n => by simp only [Hw.serial, h6]
  exact ⟨hr ▸ ok.regs, hm ▸ ok.mem, he ▸ ok.ecc, ht ▸ ok.tcnt, hq ▸ ok.elog, h1 ▸ ok.tspiQ, h1 ▸ ok.tspiRx, h2 ▸ ok.sspiRx, h2 ▸ ok.stamps,
    h3 ▸ ok.radioQ, h3 ▸ ok.radioDone, h4 ▸ ok.i2cTx, h4 ▸ ok.i2cRx, h5 ▸ ok.marks, fun n => h7 n ▸ ok.serialRx n, fun n => h7 n ▸ ok.serialTx n, fun n => h7 n ▸ ok.serialWake n⟩

theorem Hw.Ok.cut {x : Hw} (a : x.Ok) (b : x.Ok → X.Ok) : X.Ok := b a

theorem Hw.Ok.cut2 {α : Type} {x : α × Hw} (a : x.2.Ok) (b : x.2.Ok → X.Ok) : X.Ok := b a

theorem Hw.Ok.pair {α : Type} {a : α} (ok : X.Ok) : (a, X).2.Ok := ok

theorem Hw.Ok.ite {c : Prop} [Decidable c] (a : c → A.Ok) (b : ¬c → B.Ok) : (if c then A else B).Ok := by
  split
  · exact a ‹_›
  · exact b ‹_›

theorem Hw.Ok.ite2 {α : Type} {c : Prop} [Decidable c] {A B : α × Hw} (a : c → A.2.Ok) (b : ¬c → B.2.Ok) : (if c then A else B).2.Ok := by
  split
  · exact a ‹_›
  · exact b ‹_›

theorem Hw.Ok.snd {α : Type} {p : α × Hw} {a : α} (ok : p.2.Ok) (e : p = (a, X)) : X.Ok := by
  have := congrArg Prod.snd e
  simp only at this
  exact this ▸ ok

theorem Hw.Ok.forEach {α : Type} {f : α → Hw → Hw} {xs : List α} (ok : X.Ok) (hf : ∀ x g, g.Ok → (f x g).Ok) : (forEach f xs X).Ok := by
  induction xs generalizing X with
  | nil => exact ok
  | cons x xs ih => exact ih (hf x X ok)

theorem Hw.Ok.foldl {α : Type} {f : Hw → α → Hw} {xs : List α} (ok : X.Ok) (hf : ∀ g x, g.Ok → (f g x).Ok) : (xs.foldl f X).Ok := by
  induction xs generalizing X with
  | nil => exact ok
  | cons x xs ih => exact ih (hf X x ok)

/-! ### Registers, memory, errors of words -/

theorem set_regs_ok {r : List (Nat × BitVec 32)} (ok : h.Ok) (hr : Registers.wf r = true) : ({ h with regs := r } : Hw).Ok :=
  { ok with regs := hr }

theorem set_mem_ok {m : List Host.Cell} (ok : h.Ok) (hm : Memory.wf m = true) : ({ h with mem := m } : Hw).Ok := { ok with mem := hm }

theorem set_ecc_ok {m : List (Nat × Nat)} (ok : h.Ok) (hm : Store.wf (fun _ => 0) m = true) : ({ h with ecc := m } : Hw).Ok := { ok with ecc := hm }

theorem set_ecc_pwr_ok {m : List (Nat × Nat)} {p : Pwr} (ok : h.Ok) (hm : Store.wf (fun _ => 0) m = true) : ({ h with ecc := m, pwr := p } : Hw).Ok :=
  { ok with ecc := hm }

theorem set_mem_ecc_ok {m : List Host.Cell} {e : List (Nat × Nat)} (ok : h.Ok) (hm : Memory.wf m = true) (he : Store.wf (fun _ => 0) e = true) :
    ({ h with mem := m, ecc := e } : Hw).Ok := { ok with mem := hm, ecc := he }

theorem set_tcnt_ok {t : Nat} (ok : h.Ok) (ht : t < 2 ^ 64) : ({ h with tcnt := t } : Hw).Ok := { ok with tcnt := ht }

theorem set_pwr_tcnt_ok {p : Pwr} {t : Nat} (ok : h.Ok) (ht : t < 2 ^ 64) : ({ h with pwr := p, tcnt := t } : Hw).Ok := { ok with tcnt := ht }

theorem set_elogQ_ok {q : List ElogReport} (ok : h.Ok) (hq : q.length ≤ 8) : ({ h with elogQ := q } : Hw).Ok := { ok with elog := hq }

theorem set_tspi_ok {t : Tspi} (ok : h.Ok) (hq : t.queue.length ≤ 16) (hr : t.rx.length ≤ 8) : ({ h with tspi := t } : Hw).Ok :=
  { ok with tspiQ := hq, tspiRx := hr }

theorem set_resp_tspi_ok {r : Resp} {t : Tspi} (ok : h.Ok) (hq : t.queue.length ≤ 16) (hr : t.rx.length ≤ 8) :
    ({ h with tspi := t, resp := r } : Hw).Ok := { ok with tspiQ := hq, tspiRx := hr }

theorem set_sspi_ok {t : Sspi} (ok : h.Ok) (hq : t.rx.length ≤ 64) (hr : t.stamps.length ≤ 16) : ({ h with sspi := t } : Hw).Ok :=
  { ok with sspiRx := hq, stamps := hr }

theorem set_resp_sspi_ok {r : Resp} {t : Sspi} (ok : h.Ok) (hq : t.rx.length ≤ 64) (hr : t.stamps.length ≤ 16) :
    ({ h with sspi := t, resp := r } : Hw).Ok := { ok with sspiRx := hq, stamps := hr }

theorem set_tp_ok {t : TimePulse} (ok : h.Ok) (hq : t.marks.length ≤ 8) : ({ h with tp := t } : Hw).Ok := { ok with marks := hq }

theorem set_radio_ok {r : Radio} (ok : h.Ok) (hq : r.queue.length ≤ 4) (hd : r.done.length ≤ 8) : ({ h with radio := r } : Hw).Ok :=
  { ok with radioQ := hq, radioDone := hd }

theorem set_i2c_ok {c : I2c} (ok : h.Ok) (ht : c.tx.length ≤ 8) (hr : c.rx.length ≤ 8) : ({ h with i2c := c } : Hw).Ok :=
  { ok with i2cTx := ht, i2cRx := hr }

theorem Hw.setSerial_ok {n : Nat} {s : Serial} (ok : h.Ok) (hr : s.rx.length ≤ 32) (ht : s.tx.length ≤ 32) (hw : s.wakeBuf.length ≤ 4) :
    (h.setSerial n s).Ok := by
  have e : ∀ m, (h.setSerial n s).serial m = if n = m then s else h.serial m := fun m => Store.get_set _ _ _ _ _
  refine { ok with serialRx := fun m => ?_, serialTx := fun m => ?_, serialWake := fun m => ?_ } <;> rw [e] <;> split
  · exact hr
  · exact ok.serialRx m
  · exact ht
  · exact ok.serialTx m
  · exact hw
  · exact ok.serialWake m

end Sys2Proof.Machine
end

