-- ==== Sys2Proof/Laws/OkOps.lean ====
section
/-! SUPPORT. Every operation of Machine/Ops.lean keeps the invariant of the part. -/

set_option Elab.async false

namespace Sys2Proof.Machine

theorem Hw.setReg_ok {h : Hw} {a : Nat} {v : BitVec 32} (ok : h.Ok) : (Hw.setReg h a v).Ok :=
  set_regs_ok ok (Store.wf_set resetOf a v ok.regs)

theorem Hw.sf_ok {h : Hw} {f : Fld} {v : Nat} (hk : h.Ok) : (Hw.sf h f v).Ok := by
  unfold Hw.sf
  exact Hw.setReg_ok hk

theorem Hw.bumpBy_ok {h : Hw} {f : Fld} {k : Nat} (hk : h.Ok) : (Hw.bumpBy h f k).Ok := by
  unfold Hw.bumpBy
  exact Hw.sf_ok hk

theorem Hw.bump_ok {h : Hw} {f : Fld} (hk : h.Ok) : (Hw.bump h f).Ok := by
  unfold Hw.bump
  exact Hw.bumpBy_ok hk

theorem Hw.count_ok {h : Hw} {f : Fld} (hk : h.Ok) : (Hw.count h f).Ok := by
  unfold Hw.count
  exact Hw.sf_ok hk

theorem Hw.sfInt_ok {h : Hw} {f : Fld} {v : Int} (hk : h.Ok) : (Hw.sfInt h f v).Ok := by
  unfold Hw.sfInt
  exact Hw.sf_ok hk

theorem Hw.writeFields_ok {h : Hw} {a : Nat} {v : Nat} (hk : h.Ok) : (Hw.writeFields h a v).Ok := by
  unfold Hw.writeFields
  split
  · exact hk
  · exact Hw.setReg_ok hk

theorem Hw.setByte_ok {h : Hw} {a : Nat} {v : BitVec 8} (ok : h.Ok) : (Hw.setByte h a v).Ok :=
  set_mem_ok ok (Store.wf_set blankByte a v ok.mem)

theorem Hw.store_ok {h : Hw} {a : Nat} {b1 : Nat} {b2 : Nat} (hk : h.Ok) : (Hw.store h a b1 b2).Ok := by
  induction b1 generalizing h a b2 hk with
  | zero =>
    unfold Hw.store
    exact hk
  | succ k ih =>
    unfold Hw.store
    exact ih (Hw.setByte_ok hk)

theorem Hw.store32_ok {h : Hw} {a : Nat} {v : Nat} (hk : h.Ok) : (Hw.store32 h a v).Ok := by
  unfold Hw.store32
  exact Hw.store_ok hk

theorem Hw.storeWords_ok {h : Hw} {a : Nat} {b1 : List Nat} (hk : h.Ok) : (Hw.storeWords h a b1).Ok := by
  induction b1 generalizing h a hk with
  | nil =>
    unfold Hw.storeWords
    exact hk
  | cons y ys ih =>
    unfold Hw.storeWords
    exact ih (Hw.store32_ok hk)

theorem Hw.storeBytes_ok {h : Hw} {a : Nat} {b1 : List Nat} (hk : h.Ok) : (Hw.storeBytes h a b1).Ok := by
  induction b1 generalizing h a hk with
  | nil =>
    unfold Hw.storeBytes
    exact hk
  | cons y ys ih =>
    unfold Hw.storeBytes
    exact ih (Hw.setByte_ok hk)

theorem Hw.zero_ok {h : Hw} {a n : Nat} (ok : h.Ok) : (Hw.zero h a n).Ok := set_mem_ok ok (Store.wf_keep blankByte _ ok.mem)

theorem Hw.setEcc_ok {h : Hw} {a e : Nat} (ok : h.Ok) : (Hw.setEcc h a e).Ok := set_ecc_ok ok (Store.wf_set (fun _ => 0) (a / 8) e ok.ecc)

theorem Hw.putWords_ok {h : Hw} {a : Nat} {b1 : List Nat} (hk : h.Ok) : (Hw.putWords h a b1).Ok := by
  induction b1 generalizing h a hk with
  | nil =>
    unfold Hw.putWords
    exact hk
  | cons y ys ih =>
    unfold Hw.putWords
    exact ih (Hw.setEcc_ok (Hw.store32_ok hk))

theorem Hw.setPort_ok {h : Hw} {n : Nat} {p : Port} (hk : h.Ok) : (Hw.setPort h n p).Ok := hk.touches Hw.setPort_touches

theorem Hw.setStrand_ok {h : Hw} {s : Nat} {t : Strand} (hk : h.Ok) : (Hw.setStrand h s t).Ok := hk.touches Hw.setStrand_touches

theorem Hw.setEngine_ok {h : Hw} {e : Nat} {g : Engine} (hk : h.Ok) : (Hw.setEngine h e g).Ok := hk.touches Hw.setEngine_touches

theorem Hw.setTranche_ok {h : Hw} {i : Nat} {t : Option Tranche} (hk : h.Ok) : (Hw.setTranche h i t).Ok := hk.touches Hw.setTranche_touches

theorem Hw.setCore_ok {h : Hw} {c : Nat} {k : Core} (hk : h.Ok) : (Hw.setCore h c k).Ok := hk.touches Hw.setCore_touches

theorem Hw.fresh_ok {h : Hw} (hk : h.Ok) : (Hw.fresh h).2.Ok := hk.touches Hw.fresh_touches

theorem Hw.freshWords_ok {h : Hw} {b1 : Nat} (hk : h.Ok) : (Hw.freshWords h b1).2.Ok := hk.touches Hw.freshWords_touches

theorem Hw.freshBytes_ok {h : Hw} {b1 : Nat} (hk : h.Ok) : (Hw.freshBytes h b1).2.Ok := hk.touches Hw.freshBytes_touches

theorem Hw.report_ok {h : Hw} {cls code source addr detail : Nat} (ok : h.Ok) : (Hw.report h cls code source addr detail).Ok := by
  unfold Hw.report
  split
  · rename_i e
    refine set_elogQ_ok (Hw.count_ok ok) ?_
    have : (h.count ELOG_TOTAL_TOTAL).elogQ = h.elogQ := Hw.count_touches (f := ELOG_TOTAL_TOTAL) .elogQ rfl
    simp only [List.length_append, List.length_cons, List.length_nil, this]
    omega
  · exact Hw.sf_ok (Hw.bump_ok (Hw.bump_ok ok))

theorem Hw.reach_ok {h : Hw} {t : Nat} (keep : h.Ok) : (Hw.reach h t).Ok := by
  unfold Hw.reach
  exact set_tcnt_ok keep (Nat.max_lt.2 ⟨keep.tcnt, Nat.mod_lt _ (by decide)⟩)

end Sys2Proof.Machine
end

