-- ==== Sys2Proof/Laws/OkProtect.lean ====
section
/-! SUPPORT. Every operation of Machine/Protect.lean keeps the invariant of the part. -/

set_option Elab.async false

namespace Sys2Proof.Machine

theorem Hw.mpuRecord_ok {h : Hw} {src : Nat} {a : Nat} {write : Bool} (hk : h.Ok) : (Hw.mpuRecord h src a write).Ok := by
  unfold Hw.mpuRecord
  extract_lets +onlyGivenNames h1
  refine Hw.Ok.cut (x := h1) ?_ fun th1 => ?_
  · subst h1
    exact Hw.sf_ok (Hw.sf_ok (Hw.sf_ok hk))
  clear_value h1
  exact Hw.sf_ok (Hw.bump_ok th1)

theorem Hw.fabWrite_ok {h : Hw} {a : Nat} {lo : Nat} {hi : Nat} {who : Nat} (hk : h.Ok) : (Hw.fabWrite h a lo hi who).Ok := by
  unfold Hw.fabWrite
  refine Hw.Ok.ite (fun _ => ?_) (fun _ => ?_)
  · exact Hw.setEcc_ok (Hw.store32_ok (Hw.store32_ok hk))
  · exact Hw.report_ok (Hw.mpuRecord_ok hk)

theorem Hw.fabWrites_ok {h : Hw} {a who : Nat} {ws : List Nat} (ok : h.Ok) : (h.fabWrites a who ws).Ok := by
  fun_induction Hw.fabWrites h a who ws with
  | case1 h a lo hi rest ih => exact ih (Hw.fabWrite_ok ok)
  | case2 h a lo => exact Hw.fabWrite_ok ok
  | case3 h a => exact ok

end Sys2Proof.Machine
end

