-- ==== Sys2Proof/Laws/OkMemory.lean ====
section
/-! SUPPORT. Every operation of Machine/Memory.lean keeps the invariant of the part. -/

set_option Elab.async false

namespace Sys2Proof.Machine

theorem Hw.setDom_ok {h : Hw} {d : Nat} {v : Nat} (hk : h.Ok) : (Hw.setDom h d v).Ok := by
  unfold Hw.setDom
  extract_lets +onlyGivenNames v1
  exact Hw.sf_ok hk

theorem Hw.wakeDomain_ok {h : Hw} {d : Nat} (hk : h.Ok) : (Hw.wakeDomain h d).Ok := by
  unfold Hw.wakeDomain
  extract_lets +onlyGivenNames h1
  refine Hw.Ok.cut (x := h1) ?_ fun th1 => ?_
  · subst h1
    refine Hw.Ok.ite (fun _ => ?_) (fun _ => ?_)
    · exact Hw.setDom_ok hk
    · exact hk
  clear_value h1
  extract_lets +onlyGivenNames h2
  refine Hw.Ok.cut (x := h2) ?_ fun th2 => ?_
  · subst h2
    refine Hw.Ok.ite (fun _ => ?_) (fun _ => ?_)
    · exact Hw.setDom_ok th1
    · exact th1
  clear_value h2
  exact Hw.bump_ok th2

theorem Hw.errorResp_ok {h : Hw} {m : Master} {a : Nat} {n : Nat} {write : Bool} {cls : Nat} {code : Nat} (hk : h.Ok) : (Hw.errorResp h m a n write cls code).Ok := by
  unfold Hw.errorResp
  extract_lets +onlyGivenNames h1
  refine Hw.Ok.cut (x := h1) ?_ fun th1 => ?_
  · subst h1
    refine Hw.Ok.ite (fun _ => ?_) (fun _ => ?_)
    · exact Hw.mpuRecord_ok hk
    · exact hk
  clear_value h1
  extract_lets +onlyGivenNames h2
  refine Hw.Ok.cut (x := h2) ?_ fun th2 => ?_
  · subst h2
    refine Hw.Ok.ite (fun _ => ?_) (fun _ => ?_)
    · exact Hw.sf_ok (Hw.bump_ok th1)
    · exact th1
  clear_value h2
  extract_lets +onlyGivenNames h3
  refine Hw.Ok.cut (x := h3) ?_ fun th3 => ?_
  · subst h3
    refine Hw.Ok.ite (fun _ => ?_) (fun _ => ?_)
    · exact th2
    · exact Hw.report_ok th2
  clear_value h3
  exact Hw.Ok.touches th3 set_resp_touches

theorem Hw.stallResp_ok {h : Hw} {a : Nat} (hk : h.Ok) : (Hw.stallResp h a).Ok := by
  unfold Hw.stallResp
  extract_lets +onlyGivenNames h1
  refine Hw.Ok.cut (x := h1) ?_ fun th1 => ?_
  · subst h1
    split
    · exact hk
    · refine Hw.Ok.ite (fun _ => ?_) (fun _ => ?_)
      · exact hk
      · exact Hw.wakeDomain_ok hk
  clear_value h1
  exact Hw.Ok.touches th1 set_resp_touches

theorem Hw.correct_ok {h : Hw} {a : Nat} (hk : h.Ok) : (Hw.correct h a).Ok := by
  unfold Hw.correct
  split
  · extract_lets +onlyGivenNames h3
    refine Hw.Ok.cut (x := h3) ?_ fun th3 => ?_
    · subst h3
      exact Hw.bump_ok hk
    clear_value h3
    refine Hw.Ok.ite (fun _ => ?_) (fun _ => ?_)
    · exact th3
    · exact Hw.setEcc_ok th3
  · exact Hw.bump_ok hk
  · exact hk

theorem Hw.mramPut_ok {h : Hw} {a : Nat} {v : Nat} (hk : h.Ok) : (Hw.mramPut h a v).Ok := hk.touches Hw.mramPut_touches

theorem Hw.memValue_ok {h : Hw} {a : Nat} {n : Nat} (hk : h.Ok) : (Hw.memValue h a n).2.Ok := hk.touches Hw.memValue_touches

theorem Hw.memRead_ok {h : Hw} {m : Master} {a : Nat} {n : Nat} (hk : h.Ok) : (Hw.memRead h m a n).Ok := by
  unfold Hw.memRead
  split
  · exact Hw.stallResp_ok hk
  · exact Hw.errorResp_ok hk
  · refine Hw.Ok.ite (fun _ => ?_) (fun _ => ?_)
    · exact Hw.errorResp_ok hk
    · extract_lets +onlyGivenNames h9
      refine Hw.Ok.cut (x := h9) ?_ fun th9 => ?_
      · subst h9
        exact Hw.correct_ok hk
      clear_value h9
      split
      · rename_i a10 a11 h12 e13
        refine Hw.Ok.cut (x := h12) (Hw.Ok.snd ?_ e13) fun th12 => ?_
        · exact Hw.memValue_ok th9
        exact Hw.Ok.touches th12 set_resp_touches

theorem Hw.memStore_ok {h : Hw} {a : Nat} {n : Nat} {v : Nat} (hk : h.Ok) : (Hw.memStore h a n v).Ok := by
  unfold Hw.memStore
  refine Hw.Ok.ite (fun _ => ?_) (fun _ => ?_)
  · exact Hw.mramPut_ok hk
  · exact Hw.setEcc_ok (Hw.store_ok hk)

theorem Hw.memWrite_ok {h : Hw} {m : Master} {a : Nat} {n : Nat} {v : Nat} (hk : h.Ok) : (Hw.memWrite h m a n v).Ok := by
  unfold Hw.memWrite
  split
  · exact Hw.stallResp_ok hk
  · exact Hw.errorResp_ok hk
  · refine Hw.Ok.ite (fun _ => ?_) (fun _ => ?_)
    · exact Hw.errorResp_ok hk
    · refine Hw.Ok.ite (fun _ => ?_) (fun _ => ?_)
      · exact Hw.Ok.touches hk set_resp_touches
      · extract_lets +onlyGivenNames h9
        refine Hw.Ok.cut (x := h9) ?_ fun th9 => ?_
        · subst h9
          refine Hw.Ok.ite (fun _ => ?_) (fun _ => ?_)
          · exact Hw.correct_ok hk
          · exact hk
        clear_value h9
        extract_lets +onlyGivenNames h10
        refine Hw.Ok.cut (x := h10) ?_ fun th10 => ?_
        · subst h10
          exact Hw.memStore_ok th9
        clear_value h10
        exact Hw.Ok.touches th10 set_resp_touches

theorem Hw.fabFails_ok {h : Hw} {a : Nat} {who : Nat} (hk : h.Ok) : (Hw.fabFails h a who).Ok := by
  unfold Hw.fabFails
  refine Hw.Ok.ite (fun _ => ?_) (fun _ => ?_)
  · exact Hw.report_ok (Hw.sf_ok (Hw.bump_ok hk))
  · exact Hw.report_ok (Hw.mpuRecord_ok hk)

theorem Hw.fabRead_ok {h : Hw} {a : Nat} {who : Nat} {b1 : Nat} (hk : h.Ok) : (Hw.fabRead h a who b1).2.Ok := by
  induction b1 generalizing h a who hk with
  | zero =>
    unfold Hw.fabRead
    exact Hw.Ok.pair (hk)
  | succ k ih =>
    unfold Hw.fabRead
    refine Hw.Ok.ite2 (fun _ => ?_) (fun _ => ?_)
    · exact ih (Hw.correct_ok hk)
    · exact Hw.Ok.pair (Hw.fabFails_ok hk)

theorem Hw.collide_ok {h : Hw} {m : Master} {a : Nat} {attempt : Nat} (hk : h.Ok) : (Hw.collide h m a attempt).Ok := by
  unfold Hw.collide
  extract_lets +onlyGivenNames h1
  refine Hw.Ok.cut (x := h1) ?_ fun th1 => ?_
  · subst h1
    exact Hw.sf_ok hk
  clear_value h1
  extract_lets +onlyGivenNames h2
  refine Hw.Ok.cut (x := h2) ?_ fun th2 => ?_
  · subst h2
    split
    · exact th1
    · extract_lets +onlyGivenNames v8
      exact Hw.setStrand_ok th1
  clear_value h2
  extract_lets +onlyGivenNames h9
  refine Hw.Ok.cut (x := h9) ?_ fun th9 => ?_
  · subst h9
    exact Hw.report_ok th2
  clear_value h9
  exact Hw.Ok.touches th9 set_resp_touches

theorem Hw.busWrite_ok {h : Hw} {m : Master} {a : Nat} {n : Nat} {v : Nat} {hit : Bool} (hk : h.Ok) : (Hw.busWrite h m a n v hit).Ok := by
  unfold Hw.busWrite
  refine Hw.Ok.ite (fun _ => ?_) (fun _ => ?_)
  · exact Hw.collide_ok hk
  · exact Hw.memWrite_ok hk

theorem Hw.countsCleared_ok {h : Hw} {b : Nat} {n : Nat} {v : Nat} (hk : h.Ok) : (Hw.countsCleared h b n v).Ok := hk.touches Hw.countsCleared_touches

theorem Hw.aliasWrite_ok {h : Hw} {m : Master} {a : Nat} {n : Nat} {v : Nat} (hk : h.Ok) : (Hw.aliasWrite h m a n v).Ok := by
  unfold Hw.aliasWrite
  split
  · refine Hw.Ok.ite (fun _ => ?_) (fun _ => ?_)
    · exact Hw.errorResp_ok hk
    · split
      · exact Hw.stallResp_ok hk
      · exact Hw.errorResp_ok hk
      · refine Hw.Ok.ite (fun _ => ?_) (fun _ => ?_)
        · exact Hw.errorResp_ok hk
        · extract_lets +onlyGivenNames h13
          refine Hw.Ok.cut (x := h13) ?_ fun th13 => ?_
          · subst h13
            exact Hw.correct_ok hk
          clear_value h13
          extract_lets +onlyGivenNames v14 v15 v16
          extract_lets +onlyGivenNames h17
          refine Hw.Ok.cut (x := h17) ?_ fun th17 => ?_
          · subst h17
            exact Hw.memStore_ok th13
          clear_value h17
          extract_lets +onlyGivenNames h18
          refine Hw.Ok.cut (x := h18) ?_ fun th18 => ?_
          · subst h18
            exact Hw.Ok.touches th17 set_resp_touches
          clear_value h18
          split
          · exact Hw.countsCleared_ok th18
          · exact th18

end Sys2Proof.Machine
end

