-- ==== Sys2Proof/Laws/OkSamplePorts.lean ====
section
/-! SUPPORT. Every operation of Machine/SamplePorts.lean keeps the invariant of the part. -/

set_option Elab.async false

namespace Sys2Proof.Machine

theorem Hw.writeTag_ok {h : Hw} {n : Nat} {b : Nat} {notch : Bool} (hk : h.Ok) : (Hw.writeTag h n b notch).Ok := by
  unfold Hw.writeTag
  extract_lets +onlyGivenNames v1
  refine Hw.Ok.ite (fun _ => ?_) (fun _ => ?_)
  · exact hk
  · exact Hw.setReg_ok hk

theorem Hw.markSuspect_ok {h : Hw} {n : Nat} {b0 : Nat} {b1 : Nat} (hk : h.Ok) : (Hw.markSuspect h n b0 b1).Ok := by
  unfold Hw.markSuspect
  extract_lets +onlyGivenNames v1
  extract_lets +onlyGivenNames h2
  refine Hw.Ok.cut (x := h2) ?_ fun th2 => ?_
  · subst h2
    exact Hw.setPort_ok hk
  clear_value h2
  refine Hw.Ok.forEach ?_ fun x3 h4 th4 => ?_
  · exact th2
  · exact Hw.writeTag_ok th4

theorem Hw.logPort_ok {h : Hw} {n : Nat} {code : Nat} {cnt : Nat} (hk : h.Ok) : (Hw.logPort h n code cnt).Ok := by
  unfold Hw.logPort
  exact Hw.report_ok hk

theorem Hw.setRingSample_ok {h : Hw} {n : Nat} {j : Nat} {v : Nat} (hk : h.Ok) : (Hw.setRingSample h n j v).Ok := by
  unfold Hw.setRingSample
  extract_lets +onlyGivenNames v1 v2
  exact Hw.setByte_ok hk

theorem Hw.notchApply_ok {h : Hw} {n : Nat} {m : Nat} (hk : h.Ok) : (Hw.notchApply h n m).Ok := by
  unfold Hw.notchApply
  extract_lets +onlyGivenNames v1 v2 v3 v4 v5 v6
  extract_lets +onlyGivenNames h7
  refine Hw.Ok.cut (x := h7) ?_ fun th7 => ?_
  · subst h7
    exact Hw.setPort_ok hk
  clear_value h7
  refine Hw.Ok.ite (fun _ => ?_) (fun _ => ?_)
  · exact th7
  · exact Hw.sf_ok th7

theorem Hw.notchWrite_ok {h : Hw} {n : Nat} {m : Nat} {v : Nat} (hk : h.Ok) : (Hw.notchWrite h n m v).Ok := by
  unfold Hw.notchWrite
  extract_lets +onlyGivenNames v1
  extract_lets +onlyGivenNames h2
  refine Hw.Ok.cut (x := h2) ?_ fun th2 => ?_
  · subst h2
    exact Hw.writeFields_ok hk
  clear_value h2
  refine Hw.Ok.ite (fun _ => ?_) (fun _ => ?_)
  · exact th2
  · extract_lets +onlyGivenNames v3
    exact Hw.setPort_ok th2

theorem Hw.notchAdaptStep_ok {h : Hw} {n : Nat} {m : Nat} (hk : h.Ok) : (Hw.notchAdaptStep h n m).Ok := by
  unfold Hw.notchAdaptStep
  extract_lets +onlyGivenNames v1 v2
  refine Hw.Ok.ite (fun _ => ?_) (fun _ => ?_)
  · extract_lets +onlyGivenNames v3 v4
    extract_lets +onlyGivenNames h5
    refine Hw.Ok.cut (x := h5) ?_ fun th5 => ?_
    · subst h5
      exact Hw.setPort_ok hk
    clear_value h5
    refine Hw.Ok.ite (fun _ => ?_) (fun _ => ?_)
    · exact th5
    · exact Hw.sf_ok th5
  · exact hk

theorem Hw.depthOf_ok {h : Hw} {t : Notch} (hk : h.Ok) : (Hw.depthOf h t).2.Ok := hk.touches Hw.depthOf_touches

theorem Hw.notchDepthUpdate_ok {h : Hw} {n : Nat} {m : Nat} (hk : h.Ok) : (Hw.notchDepthUpdate h n m).Ok := by
  unfold Hw.notchDepthUpdate
  extract_lets +onlyGivenNames v1 v2
  refine Hw.Ok.ite (fun _ => ?_) (fun _ => ?_)
  · split
    · rename_i a3 a4 h5 e6
      refine Hw.Ok.cut (x := h5) (Hw.Ok.snd ?_ e6) fun th5 => ?_
      · exact Hw.depthOf_ok hk
      extract_lets +onlyGivenNames v7
      exact Hw.sf_ok (Hw.setPort_ok th5)
  · exact hk

theorem Hw.thresholdUpdate_ok {h : Hw} {n : Nat} (hk : h.Ok) : (Hw.thresholdUpdate h n).Ok := by
  unfold Hw.thresholdUpdate
  extract_lets +onlyGivenNames v1
  refine Hw.Ok.ite (fun _ => ?_) (fun _ => ?_)
  · extract_lets +onlyGivenNames v2 v3
    extract_lets +onlyGivenNames h4
    refine Hw.Ok.cut (x := h4) ?_ fun th4 => ?_
    · subst h4
      exact Hw.sf_ok (Hw.sf_ok hk)
    clear_value h4
    exact Hw.setPort_ok th4
  · exact hk

theorem Hw.writeSpectrum_ok {h : Hw} {n : Nat} {bins : List Nat} (hk : h.Ok) : (Hw.writeSpectrum h n bins).Ok := by
  unfold Hw.writeSpectrum
  generalize upTo 128 = ns128
  refine Hw.Ok.forEach ?_ fun x1 h2 th2 => ?_
  · exact hk
  · exact Hw.setReg_ok th2

theorem Hw.notchPut_ok {h : Hw} {n : Nat} {b : Nat} {m : Nat} (hk : h.Ok) : (Hw.notchPut h n b m).Ok := by
  unfold Hw.notchPut
  extract_lets +onlyGivenNames h1
  refine Hw.Ok.cut (x := h1) ?_ fun th1 => ?_
  · subst h1
    exact Hw.sf_ok (Hw.sf_ok (Hw.sf_ok hk))
  clear_value h1
  extract_lets +onlyGivenNames v2
  exact Hw.setPort_ok th1

theorem Hw.assignNotch_ok {h : Hw} {n : Nat} {b : Nat} (hk : h.Ok) : (Hw.assignNotch h n b).Ok := by
  unfold Hw.assignNotch
  refine Hw.Ok.ite (fun _ => ?_) (fun _ => ?_)
  · exact Hw.notchPut_ok hk
  · refine Hw.Ok.ite (fun _ => ?_) (fun _ => ?_)
    · exact Hw.notchPut_ok hk
    · exact Hw.logPort_ok hk

theorem Hw.publishSpectrum_ok {h : Hw} {n : Nat} (hk : h.Ok) : (Hw.publishSpectrum h n).Ok := by
  unfold Hw.publishSpectrum
  refine Hw.Ok.ite (fun _ => ?_) (fun _ => ?_)
  · exact hk
  · extract_lets +onlyGivenNames v1 v2
    extract_lets +onlyGivenNames h3
    refine Hw.Ok.cut (x := h3) ?_ fun th3 => ?_
    · subst h3
      exact Hw.setPort_ok hk
    clear_value h3
    extract_lets +onlyGivenNames h4
    refine Hw.Ok.cut (x := h4) ?_ fun th4 => ?_
    · subst h4
      exact Hw.writeSpectrum_ok th3
    clear_value h4
    extract_lets +onlyGivenNames v5 v6
    extract_lets +onlyGivenNames h7
    refine Hw.Ok.cut (x := h7) ?_ fun th7 => ?_
    · subst h7
      refine Hw.Ok.ite (fun _ => ?_) (fun _ => ?_)
      · exact th4
      · exact Hw.sf_ok th4
    clear_value h7
    extract_lets +onlyGivenNames v8
    extract_lets +onlyGivenNames h9
    refine Hw.Ok.cut (x := h9) ?_ fun th9 => ?_
    · subst h9
      exact Hw.setPort_ok th7
    clear_value h9
    refine Hw.Ok.ite (fun _ => ?_) (fun _ => ?_)
    · refine Hw.Ok.forEach ?_ fun x10 h11 th11 => ?_
      · exact th9
      · exact Hw.assignNotch_ok th11
    · exact th9

theorem Hw.specSample_ok {h : Hw} {n : Nat} {x : Int × Int} (hk : h.Ok) : (Hw.specSample h n x).Ok := by
  unfold Hw.specSample
  generalize upTo 256 = ns256
  extract_lets +onlyGivenNames v1
  refine Hw.Ok.ite (fun _ => ?_) (fun _ => ?_)
  · exact hk
  · extract_lets +onlyGivenNames v2
    extract_lets +onlyGivenNames h3
    refine Hw.Ok.cut (x := h3) ?_ fun th3 => ?_
    · subst h3
      exact Hw.setPort_ok hk
    clear_value h3
    refine Hw.Ok.ite (fun _ => ?_) (fun _ => ?_)
    · exact th3
    · extract_lets +onlyGivenNames h4
      refine Hw.Ok.cut (x := h4) ?_ fun th4 => ?_
      · subst h4
        exact Hw.publishSpectrum_ok th3
      clear_value h4
      extract_lets +onlyGivenNames v5 v6
      exact Hw.setPort_ok th4

theorem Hw.notchRelease_ok {h : Hw} {n : Nat} {m : Nat} (hk : h.Ok) : (Hw.notchRelease h n m).Ok := by
  unfold Hw.notchRelease
  split
  · exact hk
  · refine Hw.Ok.ite (fun _ => ?_) (fun _ => ?_)
    · exact Hw.sf_ok (Hw.reach_ok hk)
    · exact hk

theorem Hw.ringDue_ok {h : Hw} {n : Nat} (hk : h.Ok) : (Hw.ringDue h n).Ok := by
  unfold Hw.ringDue
  exact Hw.thresholdUpdate_ok (Hw.notchDepthUpdate_ok (Hw.notchDepthUpdate_ok (Hw.notchAdaptStep_ok (Hw.notchAdaptStep_ok hk))))

theorem Hw.notchBoundary_ok {h : Hw} {n : Nat} {m : Nat} (hk : h.Ok) : (Hw.notchBoundary h n m).Ok := by
  unfold Hw.notchBoundary
  refine Hw.Ok.ite (fun _ => ?_) (fun _ => ?_)
  · exact Hw.notchApply_ok (Hw.ringDue_ok hk)
  · exact hk

theorem Hw.ringStage_ok {h : Hw} {n : Nat} {j : Nat} {x : Int × Int} (hk : h.Ok) : (Hw.ringStage h n j x).Ok := by
  unfold Hw.ringStage
  extract_lets +onlyGivenNames h1
  refine Hw.Ok.cut (x := h1) ?_ fun th1 => ?_
  · subst h1
    exact Hw.ringDue_ok hk
  clear_value h1
  extract_lets +onlyGivenNames h2
  refine Hw.Ok.cut (x := h2) ?_ fun th2 => ?_
  · subst h2
    refine Hw.Ok.ite (fun _ => ?_) (fun _ => ?_)
    · exact Hw.notchApply_ok (Hw.notchApply_ok th1)
    · exact th1
  clear_value h2
  extract_lets +onlyGivenNames v3
  split
  · split
    · extract_lets +onlyGivenNames v12 v13 v14 v15 v16
      extract_lets +onlyGivenNames h17
      refine Hw.Ok.cut (x := h17) ?_ fun th17 => ?_
      · subst h17
        exact Hw.specSample_ok (Hw.setPort_ok th2)
      clear_value h17
      refine Hw.Ok.ite (fun _ => ?_) (fun _ => ?_)
      · exact th17
      · exact Hw.setRingSample_ok th17

theorem Hw.sample_ok {h : Hw} {n : Nat} {iq : Nat × Nat} (hk : h.Ok) : (Hw.sample h n iq).Ok := by
  unfold Hw.sample
  extract_lets +onlyGivenNames v1
  refine Hw.Ok.ite (fun _ => ?_) (fun _ => ?_)
  · extract_lets +onlyGivenNames v2 v3
    extract_lets +onlyGivenNames h4
    refine Hw.Ok.cut (x := h4) ?_ fun th4 => ?_
    · subst h4
      exact Hw.setPort_ok hk
    clear_value h4
    refine Hw.Ok.ite (fun _ => ?_) (fun _ => ?_)
    · exact Hw.ringStage_ok th4
    · exact th4
  · refine Hw.Ok.ite (fun _ => ?_) (fun _ => ?_)
    · exact Hw.setPort_ok hk
    · exact hk

theorem Hw.tagBlock_ok {h : Hw} {n : Nat} (hk : h.Ok) : (Hw.tagBlock h n).Ok := by
  unfold Hw.tagBlock
  extract_lets +onlyGivenNames v1 v2
  exact Hw.writeTag_ok (Hw.setPort_ok hk)

theorem Hw.endSynBlock_ok {h : Hw} {n : Nat} (hk : h.Ok) : (Hw.endSynBlock h n).Ok := by
  unfold Hw.endSynBlock
  extract_lets +onlyGivenNames v1 v2
  extract_lets +onlyGivenNames h3
  refine Hw.Ok.cut (x := h3) ?_ fun th3 => ?_
  · subst h3
    exact Hw.setPort_ok hk
  clear_value h3
  extract_lets +onlyGivenNames h4
  refine Hw.Ok.cut (x := h4) ?_ fun th4 => ?_
  · subst h4
    refine Hw.Ok.ite (fun _ => ?_) (fun _ => ?_)
    · exact th3
    · exact Hw.writeTag_ok th3
  clear_value h4
  exact Hw.setPort_ok th4

theorem Hw.tspiCmd_ok {h : Hw} {v : Nat} (hk : h.Ok) : (Hw.tspiCmd h v).Ok := by
  unfold Hw.tspiCmd
  extract_lets +onlyGivenNames v1
  refine Hw.Ok.ite (fun _ => ?_) (fun _ => ?_)
  · refine set_tspi_ok ?_ ?_ ?_
    · exact hk
    · exact hk.tspiQ
    · exact hk.tspiRx
  · refine Hw.Ok.ite (fun _ => ?_) (fun _ => ?_)
    · refine set_tspi_ok ?_ ?_ ?_
      · exact hk
      · (have k := hk.elog; simp_all +zetaDelta <;> omega)
      · exact hk.tspiRx
    · exact Hw.sf_ok hk

theorem Hw.tspiDone_ok {h : Hw} {miso : Nat} (hk : h.Ok) : (Hw.tspiDone h miso).Ok := by
  unfold Hw.tspiDone
  split
  · exact hk
  · extract_lets +onlyGivenNames v6 v7
    refine Hw.Ok.ite (fun _ => ?_) (fun _ => ?_)
    · extract_lets +onlyGivenNames v8
      refine Hw.Ok.ite (fun _ => ?_) (fun _ => ?_)
      · refine set_tspi_ok ?_ ?_ ?_
        · exact hk
        · (have k := hk.tspiQ; simp_all +zetaDelta <;> omega)
        · (have k := hk.elog; simp_all +zetaDelta <;> omega)
      · refine Hw.sf_ok ?_
        refine set_tspi_ok ?_ ?_ ?_
        · exact hk
        · (have k := hk.tspiQ; simp_all +zetaDelta <;> omega)
        · exact hk.tspiRx
    · refine set_tspi_ok ?_ ?_ ?_
      · exact hk
      · (have k := hk.tspiQ; simp_all +zetaDelta <;> omega)
      · exact hk.tspiRx

theorem Hw.tspiRead_ok {h : Hw} (hk : h.Ok) : (Hw.tspiRead h).Ok := by
  unfold Hw.tspiRead
  split
  · exact Hw.Ok.touches hk set_resp_touches
  · refine set_resp_tspi_ok ?_ ?_ ?_
    · exact hk
    · exact hk.tspiQ
    · (have k := hk.tspiRx; simp_all +zetaDelta <;> omega)

theorem Hw.gainTick_ok {h : Hw} (hk : h.Ok) : (Hw.gainTick h).Ok := by
  unfold Hw.gainTick
  refine Hw.Ok.ite (fun _ => ?_) (fun _ => ?_)
  · extract_lets +onlyGivenNames v1 v2
    split
    · extract_lets +onlyGivenNames h7
      refine Hw.Ok.cut (x := h7) ?_ fun th7 => ?_
      · subst h7
        exact Hw.setPort_ok hk
      clear_value h7
      extract_lets +onlyGivenNames v8
      extract_lets +onlyGivenNames f9
      subst f9
      refine Hw.Ok.ite (fun _ => ?_) (fun _ => ?_)
      · exact Hw.tspiCmd_ok (Hw.sf_ok th7)
      · refine Hw.Ok.ite (fun _ => ?_) (fun _ => ?_)
        · exact Hw.tspiCmd_ok (Hw.sf_ok th7)
        · exact th7
  · exact hk

theorem Hw.readCount_ok {h : Hw} {n : Nat} (hk : h.Ok) : (Hw.readCount h n).Ok := by
  unfold Hw.readCount
  extract_lets +onlyGivenNames v1
  extract_lets +onlyGivenNames h2
  refine Hw.Ok.cut (x := h2) ?_ fun th2 => ?_
  · subst h2
    exact Hw.sf_ok hk
  clear_value h2
  exact Hw.Ok.touches th2 set_resp_touches

theorem Hw.sspiCmd_ok {h : Hw} {v : Nat} (hk : h.Ok) : (Hw.sspiCmd h v).Ok := by
  unfold Hw.sspiCmd
  extract_lets +onlyGivenNames v1 v2
  split
  · refine set_sspi_ok ?_ ?_ ?_
    · exact hk
    · exact hk.sspiRx
    · exact hk.stamps
  · refine set_sspi_ok ?_ ?_ ?_
    · exact hk
    · exact hk.sspiRx
    · exact hk.stamps

theorem Hw.sspiPush_ok {h : Hw} {b1 : List Nat} (hk : h.Ok) : (Hw.sspiPush h b1).Ok := by
  induction b1 generalizing h hk with
  | nil =>
    unfold Hw.sspiPush
    exact hk
  | cons y ys ih =>
    unfold Hw.sspiPush
    refine Hw.Ok.ite (fun _ => ?_) (fun _ => ?_)
    · refine ih ?_
      refine set_sspi_ok ?_ ?_ ?_
      · exact hk
      · (have k := hk.elog; simp_all +zetaDelta <;> omega)
      · exact hk.stamps
    · exact ih (Hw.sf_ok hk)

theorem Hw.sspiDone_ok {h : Hw} {miso : List Nat} (hk : h.Ok) : (Hw.sspiDone h miso).Ok := by
  unfold Hw.sspiDone
  split
  · exact hk
  · extract_lets +onlyGivenNames v6
    extract_lets +onlyGivenNames h7
    refine Hw.Ok.cut (x := h7) ?_ fun th7 => ?_
    · subst h7
      refine set_sspi_ok ?_ ?_ ?_
      · exact hk
      · exact hk.sspiRx
      · exact hk.stamps
    clear_value h7
    refine Hw.Ok.ite (fun _ => ?_) (fun _ => ?_)
    · exact Hw.sspiPush_ok th7
    · exact th7

theorem Hw.sspiDrdy_ok {h : Hw} (ok : h.Ok) : (Hw.sspiDrdy h).Ok := by
  unfold Hw.sspiDrdy
  extract_lets +onlyGivenNames h1
  refine Hw.Ok.cut (x := h1) ?_ fun th1 => ?_
  · subst h1
    refine Hw.Ok.ite (fun _ => Hw.Ok.ite (fun hl => ?_) (fun _ => Hw.sf_ok ok)) (fun _ => ok)
    have ok' : h.fresh.2.Ok := Hw.fresh_ok ok
    exact set_sspi_ok ok' ok'.sspiRx (by
      have e : h.fresh.2.sspi = h.sspi := rfl
      show (h.fresh.2.sspi.stamps ++ [_]).length ≤ 16
      rw [e, List.length_append]
      simp only [List.length_cons, List.length_nil]
      omega)
  · split
    · exact set_sspi_ok th1 th1.sspiRx th1.stamps
    · exact set_sspi_ok th1 th1.sspiRx th1.stamps
    · exact th1

theorem Hw.sspiRead_ok {h : Hw} (hk : h.Ok) : (Hw.sspiRead h).Ok := by
  unfold Hw.sspiRead
  split
  · exact Hw.Ok.touches hk set_resp_touches
  · refine set_resp_sspi_ok ?_ ?_ ?_
    · exact hk
    · (have k := hk.sspiRx; simp_all +zetaDelta <;> omega)
    · exact hk.stamps

theorem Hw.sspiStamp_ok {h : Hw} (hk : h.Ok) : (Hw.sspiStamp h).Ok := by
  unfold Hw.sspiStamp
  split
  · exact Hw.Ok.touches hk set_resp_touches
  · refine set_resp_sspi_ok ?_ ?_ ?_
    · exact hk
    · exact hk.sspiRx
    · (have k := hk.stamps; simp_all +zetaDelta <;> omega)

end Sys2Proof.Machine
end

