-- ==== Sys2Proof/Laws/OkStrands.lean ====
section
/-! SUPPORT. Every operation of Machine/Strands.lean keeps the invariant of the part. -/

set_option Elab.async false

namespace Sys2Proof.Machine

theorem Hw.rewrite_ok {h : Hw} {s : Nat} (hk : h.Ok) : (Hw.rewrite h s).Ok := by
  unfold Hw.rewrite
  extract_lets +onlyGivenNames v1 v2
  extract_lets +onlyGivenNames h3
  refine Hw.Ok.cut (x := h3) ?_ fun th3 => ?_
  · subst h3
    exact Hw.setStrand_ok hk
  clear_value h3
  exact Hw.fabWrites_ok th3

theorem Hw.anchor_ok {h : Hw} {s : Nat} {n : Nat} (hk : h.Ok) : (Hw.anchor h s n).Ok := hk.touches Hw.anchor_touches

theorem Hw.syncReset_ok {h : Hw} {s : Nat} (hk : h.Ok) : (Hw.syncReset h s).Ok := by
  unfold Hw.syncReset
  extract_lets +onlyGivenNames v1
  extract_lets +onlyGivenNames h2
  refine Hw.Ok.cut (x := h2) ?_ fun th2 => ?_
  · subst h2
    exact Hw.fabWrite_ok hk
  clear_value h2
  extract_lets +onlyGivenNames v3
  exact Hw.setStrand_ok th2

theorem Hw.leaveIdle_ok {h : Hw} {s : Nat} (hk : h.Ok) : (Hw.leaveIdle h s).Ok := by
  unfold Hw.leaveIdle
  extract_lets +onlyGivenNames h1
  refine Hw.Ok.cut (x := h1) ?_ fun th1 => ?_
  · subst h1
    exact Hw.fabWrites_ok hk
  clear_value h1
  extract_lets +onlyGivenNames v2
  exact Hw.setStrand_ok th1

theorem Hw.withdraw_ok {h : Hw} {s : Nat} {p : Item → Bool} (hk : h.Ok) : (Hw.withdraw h s p).2.Ok := hk.touches Hw.withdraw_touches

theorem Hw.discardTasks_ok {h : Hw} {s : Nat} (hk : h.Ok) : (Hw.discardTasks h s).Ok := by
  unfold Hw.discardTasks
  extract_lets +onlyGivenNames v1
  extract_lets +onlyGivenNames h2
  refine Hw.Ok.cut (x := h2) ?_ fun th2 => ?_
  · subst h2
    exact Hw.bumpBy_ok hk
  clear_value h2
  extract_lets +onlyGivenNames v3
  extract_lets +onlyGivenNames h4
  refine Hw.Ok.cut (x := h4) ?_ fun th4 => ?_
  · subst h4
    exact Hw.Ok.touches th2 set_loop_touches
  clear_value h4
  extract_lets +onlyGivenNames v5
  refine Hw.Ok.forEach ?_ fun x6 h7 th7 => ?_
  · exact th4
  · extract_lets +onlyGivenNames v8
    exact Hw.setCore_ok th7

theorem Hw.dropTranches_ok {h : Hw} {s : Nat} (hk : h.Ok) : (Hw.dropTranches h s).Ok := hk.touches Hw.dropTranches_touches

theorem Hw.dropWork_ok {h : Hw} {s : Nat} (hk : h.Ok) : (Hw.dropWork h s).Ok := by
  unfold Hw.dropWork
  split
  · rename_i a1 a2 h3 e4
    refine Hw.Ok.cut (x := h3) (Hw.Ok.snd ?_ e4) fun th3 => ?_
    · exact Hw.withdraw_ok hk
    exact Hw.dropTranches_ok (Hw.discardTasks_ok th3)

theorem Hw.refuse_ok {h : Hw} {s : Nat} {gen : Nat} {status : Nat} (hk : h.Ok) : (Hw.refuse h s gen status).Ok := by
  unfold Hw.refuse
  extract_lets +onlyGivenNames v1
  extract_lets +onlyGivenNames h2
  refine Hw.Ok.cut (x := h2) ?_ fun th2 => ?_
  · subst h2
    exact Hw.setStrand_ok hk
  clear_value h2
  exact Hw.rewrite_ok (Hw.sf_ok th2)

theorem Hw.refuseStaged_ok {h : Hw} {s : Nat} {status : Nat} (hk : h.Ok) : (Hw.refuseStaged h s status).Ok := by
  unfold Hw.refuseStaged
  extract_lets +onlyGivenNames v1
  split
  · exact hk
  · exact Hw.refuse_ok (Hw.setStrand_ok hk)

theorem Hw.refuseWaiting_ok {h : Hw} {n : Nat} (hk : h.Ok) : (Hw.refuseWaiting h n).Ok := by
  unfold Hw.refuseWaiting
  refine Hw.Ok.forEach ?_ fun x1 h2 th2 => ?_
  · exact hk
  · exact Hw.refuseStaged_ok th2

theorem Hw.endSynthetic_ok {h : Hw} {n : Nat} (hk : h.Ok) : (Hw.endSynthetic h n).Ok := by
  unfold Hw.endSynthetic
  refine Hw.Ok.ite (fun _ => ?_) (fun _ => ?_)
  · exact Hw.refuseWaiting_ok (Hw.setPort_ok hk)
  · exact hk

theorem Hw.toIdle_ok {h : Hw} {s : Nat} {status : Nat} (hk : h.Ok) : (Hw.toIdle h s status).Ok := by
  unfold Hw.toIdle
  extract_lets +onlyGivenNames v1
  extract_lets +onlyGivenNames h2
  refine Hw.Ok.cut (x := h2) ?_ fun th2 => ?_
  · subst h2
    refine Hw.Ok.ite (fun _ => ?_) (fun _ => ?_)
    · exact hk
    · exact Hw.dropWork_ok hk
  clear_value h2
  extract_lets +onlyGivenNames v3
  extract_lets +onlyGivenNames h4
  refine Hw.Ok.cut (x := h4) ?_ fun th4 => ?_
  · subst h4
    exact Hw.setStrand_ok th2
  clear_value h4
  extract_lets +onlyGivenNames h5
  refine Hw.Ok.cut (x := h5) ?_ fun th5 => ?_
  · subst h5
    exact Hw.anchor_ok th4
  clear_value h5
  exact Hw.endSynthetic_ok (Hw.rewrite_ok (Hw.syncReset_ok th5))

theorem Hw.tornRead_ok {h : Hw} {s : Nat} (hk : h.Ok) : (Hw.tornRead h s).Ok := by
  unfold Hw.tornRead
  extract_lets +onlyGivenNames v1
  extract_lets +onlyGivenNames h2
  refine Hw.Ok.cut (x := h2) ?_ fun th2 => ?_
  · subst h2
    exact Hw.setStrand_ok hk
  clear_value h2
  exact Hw.rewrite_ok (Hw.sf_ok th2)

end Sys2Proof.Machine
end

