-- ==== Sys2Proof/Laws/OkFabric.lean ====
section
/-! SUPPORT. Every operation of Machine/Fabric.lean keeps the invariant of the part. -/

set_option Elab.async false

namespace Sys2Proof.Machine

theorem Hw.preemptRequest_ok {h : Hw} {due : Option Nat} (hk : h.Ok) : (Hw.preemptRequest h due).Ok := hk.touches Hw.preemptRequest_touches

theorem Hw.postTask_ok {h : Hw} {k : LoopTask} (hk : h.Ok) : (Hw.postTask h k).Ok := hk.touches Hw.postTask_touches

theorem Hw.integrationComplete_ok {h : Hw} {s : Nat} {nb : Nat} (hk : h.Ok) : (Hw.integrationComplete h s nb).Ok := by
  unfold Hw.integrationComplete
  extract_lets +onlyGivenNames v1 v2 v3
  extract_lets +onlyGivenNames h4
  refine Hw.Ok.cut (x := h4) ?_ fun th4 => ?_
  · subst h4
    exact Hw.setStrand_ok hk
  clear_value h4
  extract_lets +onlyGivenNames h5
  refine Hw.Ok.cut (x := h5) ?_ fun th5 => ?_
  · subst h5
    exact Hw.rewrite_ok th4
  clear_value h5
  refine Hw.Ok.ite (fun _ => ?_) (fun _ => ?_)
  · exact Hw.postTask_ok th5
  · exact th5

theorem Hw.finishIntegration_ok {h : Hw} {s : Nat} (hk : h.Ok) : (Hw.finishIntegration h s).Ok := by
  unfold Hw.finishIntegration
  extract_lets +onlyGivenNames v1
  split
  · refine Hw.Ok.ite (fun _ => ?_) (fun _ => ?_)
    · exact Hw.integrationComplete_ok hk
    · exact hk
  · exact hk

theorem Hw.gapBlock_ok {h : Hw} {n : Nat} {b : Nat} (hk : h.Ok) : (Hw.gapBlock h n b).Ok := by
  unfold Hw.gapBlock
  extract_lets +onlyGivenNames v1
  refine Hw.Ok.ite (fun _ => ?_) (fun _ => ?_)
  · exact hk
  · exact Hw.bump_ok (Hw.setPort_ok hk)

theorem Hw.makeItems_ok {h : Hw} {s : Nat} {b1 : Nat} (hk : h.Ok) : (Hw.makeItems h s b1).Ok := by
  induction b1 generalizing h s hk with
  | zero =>
    unfold Hw.makeItems
    exact hk
  | succ k ih =>
    unfold Hw.makeItems
    extract_lets +onlyGivenNames v1 v2 v3
    split
    · exact hk
    · extract_lets +onlyGivenNames v9
      refine Hw.Ok.ite (fun _ => ?_) (fun _ => ?_)
      · exact hk
      · extract_lets +onlyGivenNames v10
        refine Hw.Ok.ite (fun _ => ?_) (fun _ => ?_)
        · extract_lets +onlyGivenNames h11
          refine Hw.Ok.cut (x := h11) ?_ fun th11 => ?_
          · subst h11
            exact Hw.gapBlock_ok hk
          clear_value h11
          exact ih (Hw.setStrand_ok th11)
        · refine Hw.Ok.ite (fun _ => ?_) (fun _ => ?_)
          · extract_lets +onlyGivenNames v12 v13 v14
            extract_lets +onlyGivenNames h15
            refine Hw.Ok.cut (x := h15) ?_ fun th15 => ?_
            · subst h15
              exact Hw.Ok.touches hk set_fab_touches
            clear_value h15
            exact ih (Hw.setStrand_ok th15)
          · exact hk

theorem Hw.trackWork_ok {h : Hw} {s : Nat} (hk : h.Ok) : (Hw.trackWork h s).Ok := by
  unfold Hw.trackWork
  exact Hw.finishIntegration_ok (Hw.makeItems_ok hk)

theorem Hw.makeSearchItems_ok {h : Hw} {i : Nat} {b1 : Nat} (hk : h.Ok) : (Hw.makeSearchItems h i b1).Ok := by
  induction b1 generalizing h i hk with
  | zero =>
    unfold Hw.makeSearchItems
    exact hk
  | succ k ih =>
    unfold Hw.makeSearchItems
    split
    · exact hk
    · split
      · exact hk
      · refine Hw.Ok.ite (fun _ => ?_) (fun _ => ?_)
        · exact hk
        · extract_lets +onlyGivenNames v11
          refine Hw.Ok.ite (fun _ => ?_) (fun _ => ?_)
          · exact hk
          · extract_lets +onlyGivenNames v12 v13 v14 v15 v16 v17
            refine Hw.Ok.ite (fun _ => ?_) (fun _ => ?_)
            · exact hk
            · refine Hw.Ok.ite (fun _ => ?_) (fun _ => ?_)
              · extract_lets +onlyGivenNames h18
                refine Hw.Ok.cut (x := h18) ?_ fun th18 => ?_
                · subst h18
                  refine Hw.Ok.forEach ?_ fun x19 h20 th20 => ?_
                  · exact hk
                  · refine Hw.Ok.ite (fun _ => ?_) (fun _ => ?_)
                    · exact Hw.gapBlock_ok th20
                    · exact th20
                clear_value h18
                exact ih (Hw.setTranche_ok th18)
              · refine Hw.Ok.ite (fun _ => ?_) (fun _ => ?_)
                · extract_lets +onlyGivenNames v21 v22 v23
                  extract_lets +onlyGivenNames h24
                  refine Hw.Ok.cut (x := h24) ?_ fun th24 => ?_
                  · subst h24
                    exact Hw.Ok.touches hk set_fab_touches
                  clear_value h24
                  exact ih (Hw.setTranche_ok th24)
                · exact hk

theorem Hw.makeSnapItems_ok {h : Hw} {i : Nat} {b1 : Nat} (hk : h.Ok) : (Hw.makeSnapItems h i b1).Ok := hk.touches Hw.makeSnapItems_touches

theorem Hw.finishTranche_ok {h : Hw} {i : Nat} (hk : h.Ok) : (Hw.finishTranche h i).Ok := hk.touches Hw.finishTranche_touches

theorem Hw.searchWork_ok {h : Hw} {i : Nat} (hk : h.Ok) : (Hw.searchWork h i).Ok := by
  unfold Hw.searchWork
  exact Hw.finishTranche_ok (Hw.makeSearchItems_ok hk)

theorem Hw.portWork_ok {h : Hw} {n : Nat} (hk : h.Ok) : (Hw.portWork h n).Ok := by
  unfold Hw.portWork
  extract_lets +onlyGivenNames v1
  extract_lets +onlyGivenNames h2
  refine Hw.Ok.cut (x := h2) ?_ fun th2 => ?_
  · subst h2
    refine Hw.Ok.forEach ?_ fun x3 h4 th4 => ?_
    · exact hk
    · exact Hw.trackWork_ok th4
  clear_value h2
  refine Hw.Ok.forEach ?_ fun x5 h6 th6 => ?_
  · exact th2
  · split
    · refine Hw.Ok.ite (fun _ => ?_) (fun _ => ?_)
      · exact Hw.searchWork_ok th6
      · exact th6
    · exact th6

theorem Hw.starveIntegration_ok {h : Hw} {s : Nat} (hk : h.Ok) : (Hw.starveIntegration h s).Ok := by
  unfold Hw.starveIntegration
  extract_lets +onlyGivenNames v1
  split
  · rename_i a2 a3 h4 e5
    refine Hw.Ok.cut (x := h4) (Hw.Ok.snd ?_ e5) fun th4 => ?_
    · exact Hw.withdraw_ok hk
    extract_lets +onlyGivenNames h6
    refine Hw.Ok.cut (x := h6) ?_ fun th6 => ?_
    · subst h6
      exact Hw.bumpBy_ok th4
    clear_value h6
    extract_lets +onlyGivenNames v7
    extract_lets +onlyGivenNames h8
    refine Hw.Ok.cut (x := h8) ?_ fun th8 => ?_
    · subst h8
      exact Hw.setStrand_ok th6
    clear_value h8
    exact Hw.finishIntegration_ok th8

theorem Hw.starveWork_ok {h : Hw} {it : Item} (hk : h.Ok) : (Hw.starveWork h it).Ok := by
  unfold Hw.starveWork
  split
  · extract_lets +onlyGivenNames v3
    refine Hw.Ok.ite (fun _ => ?_) (fun _ => ?_)
    · exact Hw.starveIntegration_ok (Hw.setStrand_ok hk)
    · exact hk
  · split
    · exact hk
    · exact Hw.finishTranche_ok (Hw.setTranche_ok hk)

theorem Hw.starveItem_ok {h : Hw} {it : Item} (hk : h.Ok) : (Hw.starveItem h it).Ok := by
  unfold Hw.starveItem
  extract_lets +onlyGivenNames v1
  extract_lets +onlyGivenNames h2
  refine Hw.Ok.cut (x := h2) ?_ fun th2 => ?_
  · subst h2
    exact Hw.setStrand_ok hk
  clear_value h2
  exact Hw.starveWork_ok (Hw.bump_ok th2)

theorem Hw.refill_ok {h : Hw} (hk : h.Ok) : (Hw.refill h).Ok := by
  unfold Hw.refill
  extract_lets +onlyGivenNames h1
  refine Hw.Ok.cut (x := h1) ?_ fun th1 => ?_
  · subst h1
    refine Hw.Ok.forEach ?_ fun x2 h3 th3 => ?_
    · exact hk
    · exact Hw.portWork_ok th3
  clear_value h1
  refine Hw.Ok.forEach ?_ fun x4 h5 th5 => ?_
  · exact th1
  · exact Hw.makeSnapItems_ok th5

theorem Hw.setIssue_ok {h : Hw} {q : List Item} (hk : h.Ok) : (Hw.setIssue h q).Ok := hk.touches Hw.setIssue_touches

theorem Hw.headToDeque_ok {h : Hw} {it : Item} {rest : List Item} {e : Nat} (hk : h.Ok) : (Hw.headToDeque h it rest e).Ok := by
  unfold Hw.headToDeque
  extract_lets +onlyGivenNames v1
  refine Hw.Ok.ite (fun _ => ?_) (fun _ => ?_)
  · extract_lets +onlyGivenNames h2
    refine Hw.Ok.cut (x := h2) ?_ fun th2 => ?_
    · subst h2
      exact Hw.setIssue_ok hk
    clear_value h2
    refine Hw.Ok.ite (fun _ => ?_) (fun _ => ?_)
    · exact Hw.refill_ok (Hw.starveItem_ok th2)
    · exact Hw.refill_ok (Hw.setEngine_ok th2)
  · exact hk

theorem Hw.headHome_ok {h : Hw} {it : Item} {rest : List Item} (hk : h.Ok) : (Hw.headHome h it rest).Ok := by
  unfold Hw.headHome
  refine Hw.Ok.ite (fun _ => ?_) (fun _ => ?_)
  · exact hk
  · exact Hw.headToDeque_ok hk

theorem Hw.dispatchHead_ok {h : Hw} (hk : h.Ok) : (Hw.dispatchHead h).Ok := by
  unfold Hw.dispatchHead
  split
  · exact hk
  · exact Hw.headHome_ok hk

theorem Hw.dispatchItem_ok {h : Hw} (hk : h.Ok) : (Hw.dispatchItem h).Ok := by
  unfold Hw.dispatchItem
  exact Hw.dispatchHead_ok (Hw.refill_ok hk)

theorem Hw.begin_ok {h : Hw} {e : Nat} {it : Item} (hk : h.Ok) : (Hw.begin h e it).Ok := by
  unfold Hw.begin
  refine Hw.Ok.ite (fun _ => ?_) (fun _ => ?_)
  · exact Hw.starveItem_ok hk
  · exact Hw.setEngine_ok hk

theorem Hw.engineTake_ok {h : Hw} {e : Nat} (hk : h.Ok) : (Hw.engineTake h e).Ok := by
  unfold Hw.engineTake
  extract_lets +onlyGivenNames v1
  refine Hw.Ok.ite (fun _ => ?_) (fun _ => ?_)
  · exact hk
  · split
    · exact Hw.begin_ok (Hw.setEngine_ok hk)
    · refine Hw.Ok.ite (fun _ => ?_) (fun _ => ?_)
      · exact hk
      · split
        · exact hk
        · extract_lets +onlyGivenNames v12
          split
          · exact hk
          · extract_lets +onlyGivenNames h18
            refine Hw.Ok.cut (x := h18) ?_ fun th18 => ?_
            · subst h18
              exact Hw.setEngine_ok hk
            clear_value h18
            extract_lets +onlyGivenNames h19
            refine Hw.Ok.cut (x := h19) ?_ fun th19 => ?_
            · subst h19
              exact Hw.bump_ok th18
            clear_value h19
            extract_lets +onlyGivenNames h20
            refine Hw.Ok.cut (x := h20) ?_ fun th20 => ?_
            · subst h20
              exact Hw.bump_ok th19
            clear_value h20
            exact Hw.begin_ok th20

theorem Hw.reaperSweep_ok {h : Hw} (hk : h.Ok) : (Hw.reaperSweep h).Ok := by
  unfold Hw.reaperSweep
  extract_lets +onlyGivenNames v1
  extract_lets +onlyGivenNames h2
  refine Hw.Ok.cut (x := h2) ?_ fun th2 => ?_
  · subst h2
    refine Hw.Ok.forEach ?_ fun x3 h4 th4 => ?_
    · exact hk
    · extract_lets +onlyGivenNames v5
      refine Hw.Ok.ite (fun _ => ?_) (fun _ => ?_)
      · extract_lets +onlyGivenNames v6
        extract_lets +onlyGivenNames h7
        refine Hw.Ok.cut (x := h7) ?_ fun th7 => ?_
        · subst h7
          exact Hw.Ok.touches th4 set_fab_touches
        clear_value h7
        extract_lets +onlyGivenNames h8
        refine Hw.Ok.cut (x := h8) ?_ fun th8 => ?_
        · subst h8
          refine Hw.Ok.forEach ?_ fun x9 h10 th10 => ?_
          · exact th7
          · extract_lets +onlyGivenNames v11
            exact Hw.setEngine_ok th10
        clear_value h8
        exact Hw.starveItem_ok th8
      · exact th4
  clear_value h2
  exact Hw.refill_ok th2

theorem Hw.failItem_ok {h : Hw} {e : Nat} {it : Item} (hk : h.Ok) : (Hw.failItem h e it).Ok := by
  unfold Hw.failItem
  exact Hw.starveItem_ok (Hw.setEngine_ok hk)

theorem Hw.putSlot_ok {h : Hw} {e : Nat} {it : Item} {sums : List Nat} (hk : h.Ok) : (Hw.putSlot h e it sums).Ok := by
  unfold Hw.putSlot
  extract_lets +onlyGivenNames v1
  extract_lets +onlyGivenNames h2
  refine Hw.Ok.cut (x := h2) ?_ fun th2 => ?_
  · subst h2
    refine Hw.Ok.forEach ?_ fun x3 h4 th4 => ?_
    · exact hk
    · exact Hw.setEcc_ok th4
  clear_value h2
  extract_lets +onlyGivenNames h5
  refine Hw.Ok.cut (x := h5) ?_ fun th5 => ?_
  · subst h5
    exact Hw.setEngine_ok th2
  clear_value h5
  exact Hw.Ok.touches th5 set_fab_touches

theorem Hw.itemComplete_ok {h : Hw} {e : Nat} (hk : h.Ok) : (Hw.itemComplete h e).Ok := by
  unfold Hw.itemComplete
  extract_lets +onlyGivenNames v1
  split
  · exact hk
  · refine Hw.Ok.ite (fun _ => ?_) (fun _ => ?_)
    · exact hk
    · extract_lets +onlyGivenNames v7
      split
      · exact Hw.failItem_ok (Hw.report_ok (Hw.mpuRecord_ok hk))
      · split
        · exact Hw.failItem_ok (Hw.report_ok (Hw.bump_ok (Hw.sf_ok (Hw.bump_ok hk))))
        · extract_lets +onlyGivenNames h18
          refine Hw.Ok.cut (x := h18) ?_ fun th18 => ?_
          · subst h18
            refine Hw.Ok.forEach ?_ fun x19 h20 th20 => ?_
            · exact hk
            · refine Hw.Ok.ite (fun _ => ?_) (fun _ => ?_)
              · exact Hw.setEcc_ok (Hw.bump_ok th20)
              · exact th20
          clear_value h18
          split
          · exact Hw.putSlot_ok th18
          · split
            · exact Hw.putSlot_ok th18
            · exact Hw.putSlot_ok th18

theorem Hw.gatherSums_ok {h : Hw} {it : Item} {sums : List Nat} (hk : h.Ok) : (Hw.gatherSums h it sums).Ok := by
  unfold Hw.gatherSums
  split
  · extract_lets +onlyGivenNames v3
    refine Hw.Ok.ite (fun _ => ?_) (fun _ => ?_)
    · extract_lets +onlyGivenNames h4
      refine Hw.Ok.cut (x := h4) ?_ fun th4 => ?_
      · subst h4
        exact Hw.setStrand_ok hk
      clear_value h4
      exact Hw.finishIntegration_ok th4
    · exact hk
  · split
    · exact hk
    · extract_lets +onlyGivenNames h12
      refine Hw.Ok.cut (x := h12) ?_ fun th12 => ?_
      · subst h12
        exact Hw.setTranche_ok hk
      clear_value h12
      exact Hw.finishTranche_ok th12

theorem Hw.gather_ok {h : Hw} {c : Nat} (hk : h.Ok) : (Hw.gather h c).Ok := by
  unfold Hw.gather
  split
  · exact hk
  · extract_lets +onlyGivenNames v7 v8 v9
    extract_lets +onlyGivenNames h10
    refine Hw.Ok.cut (x := h10) ?_ fun th10 => ?_
    · subst h10
      exact Hw.setEngine_ok hk
    clear_value h10
    refine Hw.Ok.ite (fun _ => ?_) (fun _ => ?_)
    · exact Hw.starveItem_ok (Hw.report_ok (Hw.bump_ok (Hw.bump_ok th10)))
    · refine Hw.gatherSums_ok ?_
      refine Hw.Ok.forEach ?_ fun x11 h12 th12 => ?_
      · exact th10
      · exact Hw.correct_ok th12

end Sys2Proof.Machine
end

