-- ==== Sys2Proof/Laws/OkCommit.lean ====
section
/-! SUPPORT. Every operation of Machine/Commit.lean keeps the invariant of the part. -/

set_option Elab.async false

namespace Sys2Proof.Machine

theorem Hw.snapDone_ok {h : Hw} {s : Nat} {word12 : Nat} (hk : h.Ok) : (Hw.snapDone h s word12).Ok := by
  unfold Hw.snapDone
  split
  · rename_i a1 a2 h3 e4
    refine Hw.Ok.cut (x := h3) (Hw.Ok.snd ?_ e4) fun th3 => ?_
    · exact Hw.freshWords_ok hk
    exact Hw.toIdle_ok (Hw.putWords_ok th3)

theorem Hw.snapCheck_ok {h : Hw} {s : Nat} (hk : h.Ok) : (Hw.snapCheck h s).Ok := by
  unfold Hw.snapCheck
  extract_lets +onlyGivenNames v1
  refine Hw.Ok.ite (fun _ => ?_) (fun _ => ?_)
  · exact hk
  · refine Hw.Ok.ite (fun _ => ?_) (fun _ => ?_)
    · exact Hw.snapDone_ok hk
    · refine Hw.Ok.ite (fun _ => ?_) (fun _ => ?_)
      · exact Hw.setStrand_ok hk
      · exact hk

theorem Hw.snapCheckAll_ok {h : Hw} (hk : h.Ok) : (Hw.snapCheckAll h).Ok := by
  unfold Hw.snapCheckAll
  refine Hw.Ok.forEach ?_ fun x1 h2 th2 => ?_
  · exact hk
  · exact Hw.snapCheck_ok th2

theorem Hw.snapLost_ok {h : Hw} (hk : h.Ok) : (Hw.snapLost h).Ok := by
  unfold Hw.snapLost
  refine Hw.Ok.forEach ?_ fun x1 h2 th2 => ?_
  · exact hk
  · exact Hw.snapDone_ok th2

theorem Hw.enterState_ok {h : Hw} {s : Nat} {st : StrandState} (hk : h.Ok) : (Hw.enterState h s st).Ok := by
  unfold Hw.enterState
  extract_lets +onlyGivenNames v1
  refine Hw.Ok.ite (fun _ => ?_) (fun _ => ?_)
  · exact hk
  · extract_lets +onlyGivenNames h2
    refine Hw.Ok.cut (x := h2) ?_ fun th2 => ?_
    · subst h2
      exact Hw.setStrand_ok hk
    clear_value h2
    refine Hw.Ok.ite (fun _ => ?_) (fun _ => ?_)
    · exact Hw.syncReset_ok th2
    · exact th2

theorem Hw.applyOff_ok {h : Hw} {s : Nat} {t : Strand} {b : List Nat} (hk : h.Ok) : (Hw.applyOff h s t b).Ok := by
  unfold Hw.applyOff
  extract_lets +onlyGivenNames h1
  refine Hw.Ok.cut (x := h1) ?_ fun th1 => ?_
  · subst h1
    exact Hw.toIdle_ok (Hw.setStrand_ok hk)
  clear_value h1
  extract_lets +onlyGivenNames v2 v3
  exact Hw.anchor_ok (Hw.setStrand_ok th1)

theorem Hw.applyStaged_ok {h : Hw} {s : Nat} {n : Nat} (hk : h.Ok) : (Hw.applyStaged h s n).Ok := by
  unfold Hw.applyStaged
  extract_lets +onlyGivenNames v1
  split
  · exact hk
  · extract_lets +onlyGivenNames v8 v9 v10
    refine Hw.Ok.ite (fun _ => ?_) (fun _ => ?_)
    · exact Hw.applyOff_ok hk
    · split
      · exact Hw.refuseStaged_ok hk
      · extract_lets +onlyGivenNames h17
        refine Hw.Ok.cut (x := h17) ?_ fun th17 => ?_
        · subst h17
          refine Hw.Ok.ite (fun _ => ?_) (fun _ => ?_)
          · exact Hw.dropWork_ok hk
          · exact hk
        clear_value h17
        extract_lets +onlyGivenNames v18
        extract_lets +onlyGivenNames h19
        refine Hw.Ok.cut (x := h19) ?_ fun th19 => ?_
        · subst h19
          exact Hw.setStrand_ok th17
        clear_value h19
        extract_lets +onlyGivenNames h20
        refine Hw.Ok.cut (x := h20) ?_ fun th20 => ?_
        · subst h20
          refine Hw.Ok.ite (fun _ => ?_) (fun _ => ?_)
          · exact Hw.leaveIdle_ok th19
          · exact th19
        clear_value h20
        extract_lets +onlyGivenNames h21
        refine Hw.Ok.cut (x := h21) ?_ fun th21 => ?_
        · subst h21
          exact Hw.enterState_ok th20
        clear_value h21
        extract_lets +onlyGivenNames v22
        extract_lets +onlyGivenNames h23
        refine Hw.Ok.cut (x := h23) ?_ fun th23 => ?_
        · subst h23
          refine Hw.Ok.ite (fun _ => ?_) (fun _ => ?_)
          · exact Hw.setStrand_ok th21
          · refine Hw.Ok.ite (fun _ => ?_) (fun _ => ?_)
            · exact Hw.setStrand_ok th21
            · exact th21
        clear_value h23
        extract_lets +onlyGivenNames h24
        refine Hw.Ok.cut (x := h24) ?_ fun th24 => ?_
        · subst h24
          refine Hw.Ok.ite (fun _ => ?_) (fun _ => ?_)
          · exact Hw.setStrand_ok th23
          · exact th23
        clear_value h24
        exact Hw.snapCheck_ok (Hw.rewrite_ok (Hw.anchor_ok th24))

theorem Hw.aidReady_ok {h : Hw} {s : Nat} {at_ : Nat} {b : List Nat} (hk : h.Ok) : (Hw.aidReady h s at_ b).Ok := hk.touches Hw.aidReady_touches

theorem Hw.stage_ok {h : Hw} {s : Nat} {gen : Nat} {b : List Nat} (hk : h.Ok) : (Hw.stage h s gen b).Ok := by
  unfold Hw.stage
  extract_lets +onlyGivenNames v1 v2
  refine Hw.Ok.ite (fun _ => ?_) (fun _ => ?_)
  · exact Hw.refuse_ok hk
  · extract_lets +onlyGivenNames v3 v4
    extract_lets +onlyGivenNames h5
    refine Hw.Ok.cut (x := h5) ?_ fun th5 => ?_
    · subst h5
      exact Hw.aidReady_ok (Hw.setStrand_ok hk)
    clear_value h5
    refine Hw.Ok.ite (fun _ => ?_) (fun _ => ?_)
    · exact Hw.applyStaged_ok th5
    · refine Hw.Ok.ite (fun _ => ?_) (fun _ => ?_)
      · exact Hw.applyStaged_ok th5
      · exact th5

theorem Hw.pickUp_ok {h : Hw} {s : Nat} (hk : h.Ok) : (Hw.pickUp h s).Ok := by
  unfold Hw.pickUp
  extract_lets +onlyGivenNames v1
  split
  · rename_i a2 a3 h4 e5
    refine Hw.Ok.cut (x := h4) (Hw.Ok.snd ?_ e5) fun th4 => ?_
    · exact Hw.fabRead_ok hk
    extract_lets +onlyGivenNames v6 v7
    refine Hw.Ok.ite (fun _ => ?_) (fun _ => ?_)
    · exact th4
    · split
      · rename_i a8 a9 h10 e11
        refine Hw.Ok.cut (x := h10) (Hw.Ok.snd ?_ e11) fun th10 => ?_
        · exact Hw.fabRead_ok th4
        extract_lets +onlyGivenNames v12
        refine Hw.Ok.ite (fun _ => ?_) (fun _ => ?_)
        · exact th10
        · refine Hw.Ok.ite (fun _ => ?_) (fun _ => ?_)
          · exact Hw.tornRead_ok th10
          · refine Hw.Ok.ite (fun _ => ?_) (fun _ => ?_)
            · exact th10
            · exact Hw.stage_ok th10

theorem Hw.scanAll_ok {h : Hw} (hk : h.Ok) : (Hw.scanAll h).Ok := by
  unfold Hw.scanAll
  generalize upTo 512 = ns512
  refine Hw.count_ok ?_
  refine Hw.Ok.forEach ?_ fun x1 h2 th2 => ?_
  · exact hk
  · exact Hw.pickUp_ok th2

theorem Hw.scan_ok {h : Hw} (hk : h.Ok) : (Hw.scan h).Ok := by
  unfold Hw.scan
  refine Hw.Ok.ite (fun _ => ?_) (fun _ => ?_)
  · exact hk
  · extract_lets +onlyGivenNames v1 v2
    extract_lets +onlyGivenNames h3
    refine Hw.Ok.cut (x := h3) ?_ fun th3 => ?_
    · subst h3
      exact Hw.Ok.touches hk set_fab_touches
    clear_value h3
    extract_lets +onlyGivenNames h4
    refine Hw.Ok.cut (x := h4) ?_ fun th4 => ?_
    · subst h4
      refine Hw.scanAll_ok ?_
      refine Hw.Ok.forEach ?_ fun x5 h6 th6 => ?_
      · exact th3
      · split
        · exact Hw.pickUp_ok th6
        · exact th6
    clear_value h4
    refine Hw.Ok.ite (fun _ => ?_) (fun _ => ?_)
    · exact Hw.scanAll_ok th4
    · exact th4

theorem Hw.ringBell_ok {h : Hw} {bell : Option Nat} (hk : h.Ok) : (Hw.ringBell h bell).Ok := by
  unfold Hw.ringBell
  refine Hw.Ok.ite (fun _ => ?_) (fun _ => ?_)
  · exact Hw.Ok.touches hk set_fab_touches
  · exact Hw.sf_ok hk

theorem Hw.serveBell_ok {h : Hw} (hk : h.Ok) : (Hw.serveBell h).Ok := by
  unfold Hw.serveBell
  split
  · exact hk
  · refine Hw.Ok.ite (fun _ => ?_) (fun _ => ?_)
    · exact hk
    · extract_lets +onlyGivenNames v7
      extract_lets +onlyGivenNames h8
      refine Hw.Ok.cut (x := h8) ?_ fun th8 => ?_
      · subst h8
        exact Hw.Ok.touches hk set_fab_touches
      clear_value h8
      split
      · exact Hw.scan_ok th8
      · exact Hw.pickUp_ok th8

theorem Hw.initScan_ok {h : Hw} (hk : h.Ok) : (Hw.initScan h).Ok := by
  unfold Hw.initScan
  generalize upTo 512 = ns512
  refine Hw.Ok.ite (fun _ => ?_) (fun _ => ?_)
  · exact hk
  · refine Hw.Ok.forEach ?_ fun x1 h2 th2 => ?_
    · exact hk
    · extract_lets +onlyGivenNames v3 v4 v5
      exact Hw.fabWrites_ok (Hw.setStrand_ok th2)

theorem Hw.navWords_ok {h : Hw} {a : Nat} {b1 : Nat} (hk : h.Ok) : (Hw.navWords h a b1).2.Ok := by
  induction b1 generalizing h a hk with
  | zero =>
    unfold Hw.navWords
    exact Hw.Ok.pair (hk)
  | succ k ih =>
    unfold Hw.navWords
    extract_lets +onlyGivenNames h1
    refine Hw.Ok.cut (x := h1) ?_ fun th1 => ?_
    · subst h1
      exact Hw.memRead_ok hk
    clear_value h1
    split
    · exact ih th1
    · exact Hw.Ok.pair (th1)

theorem Hw.commitObject_ok {h : Hw} {s : Nat} {bell : Bool} (hk : h.Ok) : (Hw.commitObject h s bell).Ok := by
  unfold Hw.commitObject
  extract_lets +onlyGivenNames v1
  split
  · rename_i a2 h3 e4
    refine Hw.Ok.cut (x := h3) (Hw.Ok.snd ?_ e4) fun th3 => ?_
    · exact Hw.navWords_ok hk
    exact th3
  · rename_i a5 h6 e7
    refine Hw.Ok.cut (x := h6) (Hw.Ok.snd ?_ e7) fun th6 => ?_
    · exact Hw.navWords_ok hk
    extract_lets +onlyGivenNames v8 v9
    extract_lets +onlyGivenNames h10
    refine Hw.Ok.cut (x := h10) ?_ fun th10 => ?_
    · subst h10
      exact Hw.memWrite_ok th6
    clear_value h10
    refine Hw.Ok.ite (fun _ => ?_) (fun _ => ?_)
    · extract_lets +onlyGivenNames v11
      extract_lets +onlyGivenNames h12
      refine Hw.Ok.cut (x := h12) ?_ fun th12 => ?_
      · subst h12
        exact Hw.Ok.touches th10 set_fw_touches
      clear_value h12
      refine Hw.Ok.ite (fun _ => ?_) (fun _ => ?_)
      · exact Hw.ringBell_ok th12
      · exact th12
    · exact th10

theorem Hw.recheckStaged_ok {h : Hw} {s : Nat} (hk : h.Ok) : (Hw.recheckStaged h s).Ok := by
  unfold Hw.recheckStaged
  extract_lets +onlyGivenNames v1
  split
  · exact hk
  · extract_lets +onlyGivenNames v8
    refine Hw.Ok.ite (fun _ => ?_) (fun _ => ?_)
    · exact Hw.refuseStaged_ok hk
    · extract_lets +onlyGivenNames h9
      refine Hw.Ok.cut (x := h9) ?_ fun th9 => ?_
      · subst h9
        exact Hw.setStrand_ok hk
      clear_value h9
      refine Hw.Ok.ite (fun _ => ?_) (fun _ => ?_)
      · exact Hw.applyStaged_ok th9
      · exact th9

end Sys2Proof.Machine
end

