-- ==== Sys2Proof/Laws/OkBitSync.lean ====
section
/-! SUPPORT. Every operation of Machine/BitSync.lean keeps the invariant of the part. -/

set_option Elab.async false

namespace Sys2Proof.Machine

theorem Hw.setNb_ok {h : Hw} {s : Nat} {w : Nat} {v : Nat} (hk : h.Ok) : (Hw.setNb h s w v).Ok := by
  unfold Hw.setNb
  extract_lets +onlyGivenNames v1
  refine Hw.Ok.ite (fun _ => ?_) (fun _ => ?_)
  · exact Hw.fabWrite_ok hk
  · exact Hw.fabWrite_ok hk

theorem Hw.setNbStat_ok {h : Hw} {s : Nat} {lo : Nat} {len : Nat} {v : Nat} (hk : h.Ok) : (Hw.setNbStat h s lo len v).Ok := by
  unfold Hw.setNbStat
  exact Hw.setNb_ok hk

theorem Hw.writeSymbol_ok {h : Hw} {s : Nat} {soft : Nat} {hard : Bool} {tag : Nat} (hk : h.Ok) : (Hw.writeSymbol h s soft hard tag).Ok := by
  unfold Hw.writeSymbol
  extract_lets +onlyGivenNames v1 v2 v3
  extract_lets +onlyGivenNames h4
  refine Hw.Ok.cut (x := h4) ?_ fun th4 => ?_
  · subst h4
    exact Hw.setNb_ok hk
  clear_value h4
  extract_lets +onlyGivenNames v5
  extract_lets +onlyGivenNames h6
  refine Hw.Ok.cut (x := h6) ?_ fun th6 => ?_
  · subst h6
    exact Hw.setNb_ok th4
  clear_value h6
  extract_lets +onlyGivenNames h7
  refine Hw.Ok.cut (x := h7) ?_ fun th7 => ?_
  · subst h7
    exact Hw.setNb_ok th6
  clear_value h7
  exact Hw.setNb_ok th7

theorem Hw.checked_ok {h : Hw} {s : Nat} {ok : Bool} {kind : Nat} (hk : h.Ok) : (Hw.checked h s ok kind).Ok := by
  unfold Hw.checked
  extract_lets +onlyGivenNames v1
  extract_lets +onlyGivenNames h2
  refine Hw.Ok.cut (x := h2) ?_ fun th2 => ?_
  · subst h2
    exact Hw.setNb_ok hk
  clear_value h2
  exact Hw.setNb_ok th2

theorem Hw.lnavStep_ok {h : Hw} {s : Nat} {nb : Nat} (hk : h.Ok) : (Hw.lnavStep h s nb).Ok := by
  unfold Hw.lnavStep
  extract_lets +onlyGivenNames v1 v2 v3 v4 v5 v6 v7 v8 v9 v10
  extract_lets +onlyGivenNames h11
  refine Hw.Ok.cut (x := h11) ?_ fun th11 => ?_
  · subst h11
    exact Hw.setStrand_ok hk
  clear_value h11
  extract_lets +onlyGivenNames h12
  refine Hw.Ok.cut (x := h12) ?_ fun th12 => ?_
  · subst h12
    refine Hw.Ok.ite (fun _ => ?_) (fun _ => ?_)
    · exact Hw.checked_ok th11
    · exact th11
  clear_value h12
  refine Hw.Ok.ite (fun _ => ?_) (fun _ => ?_)
  · extract_lets +onlyGivenNames v13
    extract_lets +onlyGivenNames h14
    refine Hw.Ok.cut (x := h14) ?_ fun th14 => ?_
    · subst h14
      exact Hw.setNbStat_ok th12
    clear_value h14
    extract_lets +onlyGivenNames v15 v16 v17
    extract_lets +onlyGivenNames h18
    refine Hw.Ok.cut (x := h18) ?_ fun th18 => ?_
    · subst h18
      exact Hw.setStrand_ok th14
    clear_value h18
    refine Hw.Ok.ite (fun _ => ?_) (fun _ => ?_)
    · exact th18
    · exact Hw.setNb_ok th18
  · exact th12

theorem Hw.glonassStep_ok {h : Hw} {s : Nat} (hk : h.Ok) : (Hw.glonassStep h s).Ok := by
  unfold Hw.glonassStep
  extract_lets +onlyGivenNames v1 v2
  refine Hw.Ok.ite (fun _ => ?_) (fun _ => ?_)
  · extract_lets +onlyGivenNames h3
    refine Hw.Ok.cut (x := h3) ?_ fun th3 => ?_
    · subst h3
      exact Hw.setNbStat_ok hk
    clear_value h3
    extract_lets +onlyGivenNames v4
    refine Hw.Ok.ite (fun _ => ?_) (fun _ => ?_)
    · exact Hw.checked_ok th3
    · exact th3
  · exact hk

theorem Hw.symbolDone_ok {h : Hw} {s : Nat} {nb : Nat} (hk : h.Ok) : (Hw.symbolDone h s nb).Ok := by
  unfold Hw.symbolDone
  extract_lets +onlyGivenNames v1 v2 v3 v4 v5 v6
  refine Hw.Ok.ite (fun _ => ?_) (fun _ => ?_)
  · extract_lets +onlyGivenNames h7
    refine Hw.Ok.cut (x := h7) ?_ fun th7 => ?_
    · subst h7
      exact Hw.setNbStat_ok hk
    clear_value h7
    extract_lets +onlyGivenNames v8
    extract_lets +onlyGivenNames h9
    refine Hw.Ok.cut (x := h9) ?_ fun th9 => ?_
    · subst h9
      exact Hw.setStrand_ok th7
    clear_value h9
    extract_lets +onlyGivenNames h10
    refine Hw.Ok.cut (x := h10) ?_ fun th10 => ?_
    · subst h10
      exact Hw.writeSymbol_ok th9
    clear_value h10
    refine Hw.Ok.ite (fun _ => ?_) (fun _ => ?_)
    · exact Hw.lnavStep_ok th10
    · refine Hw.Ok.ite (fun _ => ?_) (fun _ => ?_)
      · exact Hw.glonassStep_ok th10
      · exact th10
  · extract_lets +onlyGivenNames v11 v12 v13
    split
    · rename_i a14 a15 h16 e17
      refine Hw.Ok.cut (x := h16) (Hw.Ok.snd ?_ e17) fun th16 => ?_
      · split
        · exact Hw.Ok.pair (hk)
        · exact Hw.fresh_ok hk
      extract_lets +onlyGivenNames v23
      extract_lets +onlyGivenNames h24
      refine Hw.Ok.cut (x := h24) ?_ fun th24 => ?_
      · subst h24
        exact Hw.setStrand_ok th16
      clear_value h24
      extract_lets +onlyGivenNames h25
      refine Hw.Ok.cut (x := h25) ?_ fun th25 => ?_
      · subst h25
        exact Hw.writeSymbol_ok th24
      clear_value h25
      refine Hw.Ok.ite (fun _ => ?_) (fun _ => ?_)
      · exact Hw.lnavStep_ok th25
      · refine Hw.Ok.ite (fun _ => ?_) (fun _ => ?_)
        · exact Hw.glonassStep_ok th25
        · exact th25

theorem Hw.symbolAdd_ok {h : Hw} {s : Nat} {sym : Option Int} {ms : Nat} {symMs : Nat} {first : Nat} {nb : Nat} {start : Bool} (hk : h.Ok) : (Hw.symbolAdd h s sym ms symMs first nb start).Ok := by
  unfold Hw.symbolAdd
  extract_lets +onlyGivenNames v1 v2 v3
  refine Hw.Ok.ite (fun _ => ?_) (fun _ => ?_)
  · exact Hw.setStrand_ok hk
  · extract_lets +onlyGivenNames v4 v5 v6 v7
    extract_lets +onlyGivenNames h8
    refine Hw.Ok.cut (x := h8) ?_ fun th8 => ?_
    · subst h8
      exact Hw.setStrand_ok hk
    clear_value h8
    refine Hw.Ok.ite (fun _ => ?_) (fun _ => ?_)
    · exact Hw.symbolDone_ok th8
    · exact th8

theorem Hw.syncLock_ok {h : Hw} {s : Nat} {edge : Nat} (hk : h.Ok) : (Hw.syncLock h s edge).Ok := by
  unfold Hw.syncLock
  extract_lets +onlyGivenNames h1
  refine Hw.Ok.cut (x := h1) ?_ fun th1 => ?_
  · subst h1
    exact Hw.setNbStat_ok hk
  clear_value h1
  extract_lets +onlyGivenNames h2
  refine Hw.Ok.cut (x := h2) ?_ fun th2 => ?_
  · subst h2
    exact Hw.setNbStat_ok th1
  clear_value h2
  extract_lets +onlyGivenNames v3
  exact Hw.setStrand_ok th2

theorem Hw.histStep_ok {h : Hw} {s : Nat} {sym : Option Int} {mm : Nat} {m : Nat} (hk : h.Ok) : (Hw.histStep h s sym mm m).Ok := by
  unfold Hw.histStep
  extract_lets +onlyGivenNames v1 v2
  split
  · exact Hw.setStrand_ok hk
  · extract_lets +onlyGivenNames v6 v7 v8 v9
    extract_lets +onlyGivenNames h10
    refine Hw.Ok.cut (x := h10) ?_ fun th10 => ?_
    · subst h10
      exact Hw.setStrand_ok hk
    clear_value h10
    refine Hw.Ok.ite (fun _ => ?_) (fun _ => ?_)
    · split
      · refine Hw.Ok.ite (fun _ => ?_) (fun _ => ?_)
        · exact Hw.syncLock_ok th10
        · exact Hw.setStrand_ok th10
    · exact th10

theorem Hw.secStep_ok {h : Hw} {s : Nat} {sym : Option Int} {mm : Nat} (hk : h.Ok) : (Hw.secStep h s sym mm).Ok := by
  unfold Hw.secStep
  extract_lets +onlyGivenNames v1 v2 v3
  split
  · exact Hw.setStrand_ok hk
  · extract_lets +onlyGivenNames v7
    extract_lets +onlyGivenNames h8
    refine Hw.Ok.cut (x := h8) ?_ fun th8 => ?_
    · subst h8
      exact Hw.setStrand_ok hk
    clear_value h8
    extract_lets +onlyGivenNames v9
    refine Hw.Ok.ite (fun _ => ?_) (fun _ => ?_)
    · exact Hw.syncLock_ok th8
    · exact th8

theorem Hw.syncTake_ok {h : Hw} {k : LoopTask} {r : RetWords} (hk : h.Ok) : (Hw.syncTake h k r).Ok := by
  unfold Hw.syncTake
  extract_lets +onlyGivenNames v1 v2 v3
  split
  · extract_lets +onlyGivenNames v8 v9 v10
    extract_lets +onlyGivenNames h11
    refine Hw.Ok.cut (x := h11) ?_ fun th11 => ?_
    · subst h11
      refine Hw.Ok.ite (fun _ => ?_) (fun _ => ?_)
      · exact Hw.setNbStat_ok hk
      · exact hk
    clear_value h11
    extract_lets +onlyGivenNames v12 v13
    extract_lets +onlyGivenNames h14
    refine Hw.Ok.cut (x := h14) ?_ fun th14 => ?_
    · subst h14
      refine Hw.Ok.ite (fun _ => ?_) (fun _ => ?_)
      · exact Hw.syncLock_ok hk
      · refine Hw.Ok.ite (fun _ => ?_) (fun _ => ?_)
        · refine Hw.Ok.ite (fun _ => ?_) (fun _ => ?_)
          · exact Hw.histStep_ok th11
          · exact Hw.secStep_ok th11
        · refine Hw.Ok.ite (fun _ => ?_) (fun _ => ?_)
          · exact Hw.setStrand_ok hk
          · exact hk
    clear_value h14
    refine Hw.Ok.ite (fun _ => ?_) (fun _ => ?_)
    · exact th14
    · extract_lets +onlyGivenNames v15
      extract_lets +onlyGivenNames h16
      refine Hw.Ok.cut (x := h16) ?_ fun th16 => ?_
      · subst h16
        refine Hw.Ok.ite (fun _ => ?_) (fun _ => ?_)
        · exact th14
        · exact Hw.setNbStat_ok th14
      clear_value h16
      refine Hw.Ok.ite (fun _ => ?_) (fun _ => ?_)
      · extract_lets +onlyGivenNames v17
        exact Hw.setStrand_ok th16
      · refine Hw.Ok.ite (fun _ => ?_) (fun _ => ?_)
        · exact th16
        · extract_lets +onlyGivenNames v18 v19
          exact Hw.symbolAdd_ok th16

theorem Hw.bitSync_ok {h : Hw} {k : LoopTask} {r : RetWords} (hk : h.Ok) : (Hw.bitSync h k r).Ok := by
  unfold Hw.bitSync
  extract_lets +onlyGivenNames h1
  refine Hw.Ok.cut (x := h1) ?_ fun th1 => ?_
  · subst h1
    exact Hw.syncTake_ok hk
  clear_value h1
  extract_lets +onlyGivenNames v2
  exact Hw.setStrand_ok th1

theorem Hw.erasedInt_ok {h : Hw} {s : Nat} {e : Ended} (hk : h.Ok) : (Hw.erasedInt h s e).Ok := by
  unfold Hw.erasedInt
  refine Hw.Ok.ite (fun _ => ?_) (fun _ => ?_)
  · exact Hw.bitSync_ok hk
  · exact hk

end Sys2Proof.Machine
end

