-- ==== Sys2Proof/Laws/OkClose.lean ====
section
/-! SUPPORT. Every operation of Machine/Close.lean keeps the invariant of the part. -/

set_option Elab.async false

namespace Sys2Proof.Machine

theorem Hw.close_ok {h : Hw} {s : Nat} (hk : h.Ok) : (Hw.close h s).Ok := by
  unfold Hw.close
  split
  · exact hk
  · extract_lets +onlyGivenNames h6
    refine Hw.Ok.cut (x := h6) ?_ fun th6 => ?_
    · subst h6
      exact Hw.erasedInt_ok hk
    clear_value h6
    extract_lets +onlyGivenNames v7 v8 v9 v10 v11
    split
    · extract_lets +onlyGivenNames v17 v18
      extract_lets +onlyGivenNames h19
      refine Hw.Ok.cut (x := h19) ?_ fun th19 => ?_
      · subst h19
        exact Hw.setStrand_ok th6
      clear_value h19
      split
      · exact Hw.recheckStaged_ok (Hw.anchor_ok (Hw.toIdle_ok th19))
      · extract_lets +onlyGivenNames v24
        extract_lets +onlyGivenNames h25
        refine Hw.Ok.cut (x := h25) ?_ fun th25 => ?_
        · subst h25
          exact Hw.enterState_ok th19
        clear_value h25
        extract_lets +onlyGivenNames h26
        refine Hw.Ok.cut (x := h26) ?_ fun th26 => ?_
        · subst h26
          exact Hw.setStrand_ok th25
        clear_value h26
        extract_lets +onlyGivenNames h27
        refine Hw.Ok.cut (x := h27) ?_ fun th27 => ?_
        · subst h27
          refine Hw.Ok.ite (fun _ => ?_) (fun _ => ?_)
          · exact Hw.rewrite_ok th26
          · exact th26
        clear_value h27
        extract_lets +onlyGivenNames h28
        refine Hw.Ok.cut (x := h28) ?_ fun th28 => ?_
        · subst h28
          refine Hw.Ok.ite (fun _ => ?_) (fun _ => ?_)
          · exact Hw.applyStaged_ok th27
          · exact th27
        clear_value h28
        extract_lets +onlyGivenNames v29 v30
        extract_lets +onlyGivenNames h31
        refine Hw.Ok.cut (x := h31) ?_ fun th31 => ?_
        · subst h31
          exact Hw.anchor_ok (Hw.setStrand_ok th28)
        clear_value h31
        refine Hw.Ok.ite (fun _ => ?_) (fun _ => ?_)
        · exact Hw.trackWork_ok (Hw.setStrand_ok th31)
        · exact th31

theorem Hw.pullExpiry_ok {h : Hw} {s : Nat} (hk : h.Ok) : (Hw.pullExpiry h s).Ok := by
  unfold Hw.pullExpiry
  split
  · refine Hw.Ok.ite (fun _ => ?_) (fun _ => ?_)
    · exact Hw.close_ok hk
    · exact hk
  · exact hk

theorem Hw.coastExpiry_ok {h : Hw} {s : Nat} (hk : h.Ok) : (Hw.coastExpiry h s).Ok := by
  unfold Hw.coastExpiry
  split
  · refine Hw.Ok.ite (fun _ => ?_) (fun _ => ?_)
    · exact Hw.close_ok hk
    · exact hk
  · exact hk

theorem Hw.giveTranche_ok {h : Hw} {i : Nat} {s : Nat} (hk : h.Ok) : (Hw.giveTranche h i s).Ok := hk.touches Hw.giveTranche_touches

theorem Hw.allocateOne_ok {h g : Hw} (e : h.allocateOne = some g) (ok : h.Ok) : g.Ok := ok.touches (Hw.allocateOne_touches e)

theorem Hw.allocate_ok {h : Hw} {n : Nat} (ok : h.Ok) : (h.allocate n).Ok := ok.touches Hw.allocate_touches

theorem Hw.startTranche_ok {h : Hw} {i : Nat} (hk : h.Ok) : (Hw.startTranche h i).Ok := by
  unfold Hw.startTranche
  split
  · exact hk
  · refine Hw.Ok.ite (fun _ => ?_) (fun _ => ?_)
    · exact hk
    · extract_lets +onlyGivenNames v6
      refine Hw.Ok.ite (fun _ => ?_) (fun _ => ?_)
      · exact Hw.finishTranche_ok (Hw.makeSnapItems_ok (Hw.setTranche_ok hk))
      · refine Hw.Ok.ite (fun _ => ?_) (fun _ => ?_)
        · exact Hw.searchWork_ok (Hw.setTranche_ok hk)
        · exact hk

theorem Hw.detectEntry_ok {h : Hw} {s : Nat} (hk : h.Ok) : (Hw.detectEntry h s).Ok := by
  unfold Hw.detectEntry
  extract_lets +onlyGivenNames v1
  split
  · exact hk
  · extract_lets +onlyGivenNames v10 v11
    refine Hw.Ok.ite (fun _ => ?_) (fun _ => ?_)
    · extract_lets +onlyGivenNames h12
      refine Hw.Ok.cut (x := h12) ?_ fun th12 => ?_
      · subst h12
        exact Hw.dropWork_ok hk
      clear_value h12
      extract_lets +onlyGivenNames v13 v14 v15
      extract_lets +onlyGivenNames h16
      refine Hw.Ok.cut (x := h16) ?_ fun th16 => ?_
      · subst h16
        exact Hw.setStrand_ok th12
      clear_value h16
      extract_lets +onlyGivenNames h17
      refine Hw.Ok.cut (x := h17) ?_ fun th17 => ?_
      · subst h17
        exact Hw.enterState_ok th16
      clear_value h17
      extract_lets +onlyGivenNames h18
      refine Hw.Ok.cut (x := h18) ?_ fun th18 => ?_
      · subst h18
        exact Hw.rewrite_ok (Hw.setStrand_ok th17)
      clear_value h18
      extract_lets +onlyGivenNames v19
      extract_lets +onlyGivenNames h20
      refine Hw.Ok.cut (x := h20) ?_ fun th20 => ?_
      · subst h20
        refine Hw.Ok.ite (fun _ => ?_) (fun _ => ?_)
        · exact Hw.applyStaged_ok th18
        · exact th18
      clear_value h20
      extract_lets +onlyGivenNames h21
      refine Hw.Ok.cut (x := h21) ?_ fun th21 => ?_
      · subst h21
        exact Hw.anchor_ok th20
      clear_value h21
      refine Hw.Ok.ite (fun _ => ?_) (fun _ => ?_)
      · exact Hw.trackWork_ok th21
      · exact th21
    · exact hk

theorem Hw.applyAtBlock_ok {h : Hw} {s : Nat} (hk : h.Ok) : (Hw.applyAtBlock h s).Ok := by
  unfold Hw.applyAtBlock
  extract_lets +onlyGivenNames v1
  split
  · exact hk
  · extract_lets +onlyGivenNames v8
    refine Hw.Ok.ite (fun _ => ?_) (fun _ => ?_)
    · refine Hw.Ok.ite (fun _ => ?_) (fun _ => ?_)
      · exact Hw.refuseStaged_ok hk
      · refine Hw.Ok.ite (fun _ => ?_) (fun _ => ?_)
        · exact Hw.detectEntry_ok hk
        · exact Hw.trackWork_ok (Hw.applyStaged_ok hk)
    · exact hk

theorem Hw.passEnd_ok {h : Hw} {s : Nat} (hk : h.Ok) : (Hw.passEnd h s).Ok := by
  unfold Hw.passEnd
  extract_lets +onlyGivenNames v1 v2
  refine Hw.Ok.ite (fun _ => ?_) (fun _ => ?_)
  · refine Hw.Ok.ite (fun _ => ?_) (fun _ => ?_)
    · exact Hw.recheckStaged_ok (Hw.toIdle_ok hk)
    · exact Hw.setStrand_ok hk
  · exact hk

theorem Hw.refuseExcess_ok {h : Hw} {b1 : Nat} (hk : h.Ok) : (Hw.refuseExcess h b1).Ok := by
  induction b1 generalizing h hk with
  | zero =>
    unfold Hw.refuseExcess
    exact hk
  | succ k ih =>
    unfold Hw.refuseExcess
    refine Hw.Ok.ite (fun _ => ?_) (fun _ => ?_)
    · split
      · exact hk
      · exact ih (Hw.refuseStaged_ok hk)
    · exact hk

theorem Hw.dropExcess_ok {h : Hw} {b1 : Nat} (hk : h.Ok) : (Hw.dropExcess h b1).Ok := by
  induction b1 generalizing h hk with
  | zero =>
    unfold Hw.dropExcess
    exact hk
  | succ k ih =>
    unfold Hw.dropExcess
    refine Hw.Ok.ite (fun _ => ?_) (fun _ => ?_)
    · split
      · exact hk
      · exact ih (Hw.recheckStaged_ok (Hw.report_ok (Hw.toIdle_ok hk)))
    · exact hk

theorem Hw.capacityLost_ok {h : Hw} (hk : h.Ok) : (Hw.capacityLost h).Ok := by
  unfold Hw.capacityLost
  exact Hw.dropExcess_ok (Hw.refuseExcess_ok hk)

theorem Hw.testStart_ok {h : Hw} {v : Nat} (hk : h.Ok) : (Hw.testStart h v).Ok := by
  unfold Hw.testStart
  extract_lets +onlyGivenNames h1
  refine Hw.Ok.cut (x := h1) ?_ fun th1 => ?_
  · subst h1
    exact Hw.writeFields_ok hk
  clear_value h1
  refine Hw.Ok.ite (fun _ => ?_) (fun _ => ?_)
  · extract_lets +onlyGivenNames v2
    refine Hw.Ok.ite (fun _ => ?_) (fun _ => ?_)
    · extract_lets +onlyGivenNames v3
      extract_lets +onlyGivenNames h4
      refine Hw.Ok.cut (x := h4) ?_ fun th4 => ?_
      · subst h4
        exact Hw.setEngine_ok th1
      clear_value h4
      exact Hw.sf_ok (Hw.Ok.touches th4 set_fab_touches)
    · exact Hw.sf_ok th1
  · exact th1

theorem Hw.testMarch_ok {h : Hw} (hk : h.Ok) : (Hw.testMarch h).Ok := hk.touches Hw.testMarch_touches

theorem Hw.testDone_ok {h : Hw} {pass : Bool} (hk : h.Ok) : (Hw.testDone h pass).Ok := by
  unfold Hw.testDone
  split
  · extract_lets +onlyGivenNames v4
    extract_lets +onlyGivenNames h5
    refine Hw.Ok.cut (x := h5) ?_ fun th5 => ?_
    · subst h5
      exact Hw.setEngine_ok hk
    clear_value h5
    extract_lets +onlyGivenNames v6
    extract_lets +onlyGivenNames h7
    refine Hw.Ok.cut (x := h7) ?_ fun th7 => ?_
    · subst h7
      exact Hw.Ok.touches th5 set_fab_touches
    clear_value h7
    extract_lets +onlyGivenNames h8
    refine Hw.Ok.cut (x := h8) ?_ fun th8 => ?_
    · subst h8
      exact Hw.sf_ok (Hw.sf_ok (Hw.sf_ok th7))
    clear_value h8
    refine Hw.Ok.ite (fun _ => ?_) (fun _ => ?_)
    · exact th8
    · extract_lets +onlyGivenNames v9
      extract_lets +onlyGivenNames h10
      refine Hw.Ok.cut (x := h10) ?_ fun th10 => ?_
      · subst h10
        exact Hw.Ok.touches th8 set_pwr_touches
      clear_value h10
      exact Hw.capacityLost_ok th10
  · exact hk

end Sys2Proof.Machine
end

