-- ==== Sys2Proof/Laws/OkOperands.lean ====
section
/-! SUPPORT. Every operation of Machine/Operands.lean keeps the invariant of the part. -/

set_option Elab.async false

namespace Sys2Proof.Machine

theorem Hw.setLocal_ok {h : Hw} {c : Nat} {a : Nat} {v : Nat} (hk : h.Ok) : (Hw.setLocal h c a v).Ok := by
  unfold Hw.setLocal
  extract_lets +onlyGivenNames v1
  exact Hw.setEcc_ok (Hw.setCore_ok hk)

theorem Hw.setLocals_ok {h : Hw} {c : Nat} {a : Nat} {b1 : List Nat} (hk : h.Ok) : (Hw.setLocals h c a b1).Ok := by
  induction b1 generalizing h c a hk with
  | nil =>
    unfold Hw.setLocals
    exact hk
  | cons y ys ih =>
    unfold Hw.setLocals
    exact ih (Hw.setLocal_ok hk)

theorem Hw.operandRead_ok {h : Hw} {c : Fin 8} {q : Nat} {sp : Nat} {aux : Nat} {a : Nat} (hk : h.Ok) : (Hw.operandRead h c q sp aux a).2.Ok := by
  unfold Hw.operandRead
  refine Hw.Ok.ite2 (fun _ => ?_) (fun _ => ?_)
  · refine Hw.Ok.ite2 (fun _ => ?_) (fun _ => ?_)
    · exact Hw.Ok.pair (hk)
    · refine Hw.Ok.ite2 (fun _ => ?_) (fun _ => ?_)
      · exact Hw.Ok.pair (Hw.bump_ok hk)
      · extract_lets +onlyGivenNames h1
        refine Hw.Ok.cut (x := h1) ?_ fun th1 => ?_
        · subst h1
          exact Hw.correct_ok hk
        clear_value h1
        exact Hw.Ok.pair (th1)
  · extract_lets +onlyGivenNames v2
    split
    · exact Hw.Ok.pair (Hw.stallResp_ok hk)
    · exact Hw.Ok.pair (Hw.errorResp_ok hk)
    · refine Hw.Ok.ite2 (fun _ => ?_) (fun _ => ?_)
      · exact Hw.Ok.pair (Hw.errorResp_ok hk)
      · extract_lets +onlyGivenNames h11
        refine Hw.Ok.cut (x := h11) ?_ fun th11 => ?_
        · subst h11
          exact Hw.correct_ok hk
        clear_value h11
        exact Hw.Ok.pair (th11)

theorem Hw.operandWrite_ok {h : Hw} {c : Fin 8} {q : Nat} {sp : Nat} {a : Nat} {n : Nat} {v : Nat} {hi : Bool} {hit : Bool} (hk : h.Ok) : (Hw.operandWrite h c q sp a n v hi hit).2.Ok := by
  unfold Hw.operandWrite
  refine Hw.Ok.ite2 (fun _ => ?_) (fun _ => ?_)
  · refine Hw.Ok.ite2 (fun _ => ?_) (fun _ => ?_)
    · exact Hw.Ok.pair (hk)
    · refine Hw.Ok.ite2 (fun _ => ?_) (fun _ => ?_)
      · exact Hw.Ok.pair (Hw.bump_ok hk)
      · extract_lets +onlyGivenNames h1
        refine Hw.Ok.cut (x := h1) ?_ fun th1 => ?_
        · subst h1
          exact Hw.correct_ok hk
        clear_value h1
        extract_lets +onlyGivenNames h2
        refine Hw.Ok.cut (x := h2) ?_ fun th2 => ?_
        · subst h2
          exact Hw.setLocal_ok th1
        clear_value h2
        exact Hw.Ok.pair (th2)
  · extract_lets +onlyGivenNames v3
    split
    · exact Hw.Ok.pair (Hw.stallResp_ok hk)
    · exact Hw.Ok.pair (Hw.errorResp_ok hk)
    · refine Hw.Ok.ite2 (fun _ => ?_) (fun _ => ?_)
      · extract_lets +onlyGivenNames h12
        refine Hw.Ok.cut (x := h12) ?_ fun th12 => ?_
        · subst h12
          exact Hw.collide_ok hk
        clear_value h12
        extract_lets +onlyGivenNames v13
        extract_lets +onlyGivenNames h14
        refine Hw.Ok.cut (x := h14) ?_ fun th14 => ?_
        · subst h14
          exact Hw.setCore_ok th12
        clear_value h14
        exact Hw.Ok.pair (th14)
      · refine Hw.Ok.ite2 (fun _ => ?_) (fun _ => ?_)
        · exact Hw.Ok.pair (Hw.errorResp_ok hk)
        · extract_lets +onlyGivenNames h15
          refine Hw.Ok.cut (x := h15) ?_ fun th15 => ?_
          · subst h15
            exact Hw.memStore_ok (Hw.correct_ok hk)
          clear_value h15
          exact Hw.Ok.pair (th15)

end Sys2Proof.Machine
end

