-- ==== Sys2Proof/Laws/OkKernels.lean ====
section
/-! SUPPORT. Every operation of Machine/Kernels.lean keeps the invariant of the part. -/

set_option Elab.async false

namespace Sys2Proof.Machine

theorem Hw.snapFinish_ok {h : Hw} {s : Nat} (hk : h.Ok) : (Hw.snapFinish h s).Ok := by
  unfold Hw.snapFinish
  extract_lets +onlyGivenNames v1 v2
  refine Hw.Ok.ite (fun _ => ?_) (fun _ => ?_)
  · split
    · rename_i a3 a4 h5 e6
      refine Hw.Ok.cut (x := h5) (Hw.Ok.snd ?_ e6) fun th5 => ?_
      · exact Hw.fresh_ok hk
      extract_lets +onlyGivenNames v7
      extract_lets +onlyGivenNames h8
      refine Hw.Ok.cut (x := h8) ?_ fun th8 => ?_
      · subst h8
        exact Hw.putWords_ok th5
      clear_value h8
      exact Hw.toIdle_ok (Hw.putWords_ok th8)
  · exact hk

end Sys2Proof.Machine
end

