-- ==== Sys2Proof/Laws/OkLoopCore.lean ====
section
/-! SUPPORT. Every operation of Machine/LoopCore.lean keeps the invariant of the part. -/

set_option Elab.async false

namespace Sys2Proof.Machine

theorem Hw.taskFaulted_ok {h : Hw} {k : LoopTask} (hk : h.Ok) : (Hw.taskFaulted h k).Ok := by
  unfold Hw.taskFaulted
  refine Hw.Ok.ite (fun _ => ?_) (fun _ => ?_)
  · exact hk
  · extract_lets +onlyGivenNames v1
    split
    · split
      · exact Hw.setStrand_ok hk
      · exact hk
    · extract_lets +onlyGivenNames v11
      extract_lets +onlyGivenNames h12
      refine Hw.Ok.cut (x := h12) ?_ fun th12 => ?_
      · subst h12
        exact Hw.setStrand_ok hk
      clear_value h12
      exact Hw.snapFinish_ok (Hw.passEnd_ok th12)

theorem Hw.loopFault_ok {h : Hw} {c : Fin 8} {t : Running} {pc : Nat} {f : FaultInfo} (hk : h.Ok) : (Hw.loopFault h c t pc f).Ok := by
  unfold Hw.loopFault
  extract_lets +onlyGivenNames v1
  extract_lets +onlyGivenNames h2
  refine Hw.Ok.cut (x := h2) ?_ fun th2 => ?_
  · subst h2
    exact Hw.bump_ok hk
  clear_value h2
  extract_lets +onlyGivenNames h3
  refine Hw.Ok.cut (x := h3) ?_ fun th3 => ?_
  · subst h3
    exact Hw.sf_ok (Hw.sf_ok (Hw.sf_ok (Hw.sf_ok th2)))
  clear_value h3
  extract_lets +onlyGivenNames h4
  refine Hw.Ok.cut (x := h4) ?_ fun th4 => ?_
  · subst h4
    exact Hw.sf_ok (Hw.sf_ok th3)
  clear_value h4
  extract_lets +onlyGivenNames h5
  refine Hw.Ok.cut (x := h5) ?_ fun th5 => ?_
  · subst h5
    exact Hw.sf_ok (Hw.sf_ok th4)
  clear_value h5
  extract_lets +onlyGivenNames h6
  refine Hw.Ok.cut (x := h6) ?_ fun th6 => ?_
  · subst h6
    exact Hw.sf_ok (Hw.sf_ok (Hw.sf_ok th5))
  clear_value h6
  extract_lets +onlyGivenNames h7
  refine Hw.Ok.cut (x := h7) ?_ fun th7 => ?_
  · subst h7
    refine Hw.Ok.ite (fun _ => ?_) (fun _ => ?_)
    · exact th2
    · exact Hw.sf_ok (Hw.sf_ok (Hw.sf_ok th6))
  clear_value h7
  extract_lets +onlyGivenNames h8
  refine Hw.Ok.cut (x := h8) ?_ fun th8 => ?_
  · subst h8
    exact Hw.report_ok th7
  clear_value h8
  extract_lets +onlyGivenNames v9
  extract_lets +onlyGivenNames h10
  refine Hw.Ok.cut (x := h10) ?_ fun th10 => ?_
  · subst h10
    exact Hw.setCore_ok th8
  clear_value h10
  exact Hw.taskFaulted_ok th10

theorem Hw.loopIssue_ok {h : Hw} {c : Fin 8} {op : Nat} {cost : CoreRegs → Insn → Nat} {go : Hw → Running → Insn → Hw}
    (ok : h.Ok) (hgo : ∀ (g : Hw) (r : Running) (i : Insn), g.Ok → (go g r i).Ok) : (h.loopIssue c op cost go).Ok := by
  unfold Hw.loopIssue
  extract_lets k
  split
  · exact ok
  · rename_i r e
    extract_lets pc a i g
    refine Hw.Ok.ite (fun _ => ok) (fun _ => Hw.Ok.ite (fun _ => ?_) (fun _ => Hw.Ok.ite (fun _ => ok) (fun _ => Hw.Ok.ite (fun _ => Hw.loopFault_ok ok) (fun _ => ?_))))
    · exact Hw.loopFault_ok (Hw.sf_ok (Hw.bump_ok ok))
    · have tg : g.Ok := Hw.correct_ok ok
      split
      · exact Hw.loopFault_ok tg
      · exact Hw.Ok.ite (fun _ => Hw.loopFault_ok tg) (fun _ => hgo _ _ _ tg)

theorem Hw.loopRetire_ok {h : Hw} {c : Fin 8} {t : Running} {r : CoreRegs} {cost : Nat} (hk : h.Ok) : (Hw.loopRetire h c t r cost).Ok := hk.touches Hw.loopRetire_touches

theorem Hw.runPlain_ok {h : Hw} {c : Fin 8} {op : Nat} {f : CoreRegs → Insn → CoreRegs} (hk : h.Ok) : (Hw.runPlain h c op f).Ok := by
  unfold Hw.runPlain
  refine Hw.loopIssue_ok ?_ fun h1 t i th1 => ?_
  · exact hk
  · refine Hw.Ok.ite (fun _ => ?_) (fun _ => ?_)
    · exact Hw.loopFault_ok th1
    · exact Hw.loopRetire_ok th1

theorem Hw.runValue_ok {h : Hw} {c : Fin 8} {op : Nat} {f : CoreRegs → Insn → Nat → CoreRegs} (hk : h.Ok) : (Hw.runValue h c op f).Ok := by
  unfold Hw.runValue
  refine Hw.loopIssue_ok ?_ fun h1 t i th1 => ?_
  · exact hk
  · refine Hw.Ok.ite (fun _ => ?_) (fun _ => ?_)
    · exact Hw.loopFault_ok th1
    · refine Hw.Ok.ite (fun _ => ?_) (fun _ => ?_)
      · exact Hw.loopRetire_ok th1
      · extract_lets +onlyGivenNames v2
        split
        · rename_i a3 h4 e5
          refine Hw.Ok.cut (x := h4) (Hw.Ok.snd ?_ e5) fun th4 => ?_
          · exact Hw.operandRead_ok th1
          exact th4
        · rename_i a6 a7 a8 a9 h10 e11
          refine Hw.Ok.cut (x := h10) (Hw.Ok.snd ?_ e11) fun th10 => ?_
          · exact Hw.operandRead_ok th1
          exact Hw.loopFault_ok th10
        · rename_i a12 a13 h14 h15 e16
          refine Hw.Ok.cut (x := h15) (Hw.Ok.snd ?_ e16) fun th15 => ?_
          · exact Hw.operandRead_ok th1
          exact Hw.loopRetire_ok th15

theorem Hw.runStore_ok {h : Hw} {c : Fin 8} {op : Nat} {n : Nat} {hit : Bool} {f : CoreRegs → Insn → Nat × CoreRegs} (hk : h.Ok) : (Hw.runStore h c op n hit f).Ok := by
  unfold Hw.runStore
  refine Hw.loopIssue_ok ?_ fun h1 t i th1 => ?_
  · exact hk
  · refine Hw.Ok.ite (fun _ => ?_) (fun _ => ?_)
    · exact Hw.loopFault_ok th1
    · extract_lets +onlyGivenNames v2
      split
      · split
        · rename_i a7 h8 e9
          refine Hw.Ok.cut (x := h8) (Hw.Ok.snd ?_ e9) fun th8 => ?_
          · exact Hw.operandWrite_ok th1
          exact th8
        · rename_i a10 a11 a12 a13 h14 e15
          refine Hw.Ok.cut (x := h14) (Hw.Ok.snd ?_ e15) fun th14 => ?_
          · exact Hw.operandWrite_ok th1
          exact Hw.loopFault_ok th14
        · rename_i a16 h17 h18 e19
          refine Hw.Ok.cut (x := h18) (Hw.Ok.snd ?_ e19) fun th18 => ?_
          · exact Hw.operandWrite_ok th1
          exact Hw.loopRetire_ok th18

theorem Hw.runCmac_ok {h : Hw} {c : Fin 8} (hk : h.Ok) : (Hw.runCmac h c).Ok := by
  unfold Hw.runCmac
  refine Hw.loopIssue_ok ?_ fun h1 t i th1 => ?_
  · exact hk
  · extract_lets +onlyGivenNames v2
    refine Hw.Ok.ite (fun _ => ?_) (fun _ => ?_)
    · exact Hw.loopFault_ok th1
    · split
      · rename_i a3 h4 e5
        refine Hw.Ok.cut (x := h4) (Hw.Ok.snd ?_ e5) fun th4 => ?_
        · exact Hw.operandRead_ok th1
        exact th4
      · rename_i a6 a7 a8 a9 h10 e11
        refine Hw.Ok.cut (x := h10) (Hw.Ok.snd ?_ e11) fun th10 => ?_
        · exact Hw.operandRead_ok th1
        exact Hw.loopFault_ok th10
      · rename_i a12 a13 h14 h15 e16
        refine Hw.Ok.cut (x := h15) (Hw.Ok.snd ?_ e16) fun th15 => ?_
        · exact Hw.operandRead_ok th1
        split
        · rename_i a17 h18 e19
          refine Hw.Ok.cut (x := h18) (Hw.Ok.snd ?_ e19) fun th18 => ?_
          · exact Hw.operandRead_ok th15
          exact th18
        · rename_i a20 a21 a22 a23 h24 e25
          refine Hw.Ok.cut (x := h24) (Hw.Ok.snd ?_ e25) fun th24 => ?_
          · exact Hw.operandRead_ok th15
          exact Hw.loopFault_ok th24
        · rename_i a26 a27 h28 h29 e30
          refine Hw.Ok.cut (x := h29) (Hw.Ok.snd ?_ e30) fun th29 => ?_
          · exact Hw.operandRead_ok th15
          extract_lets +onlyGivenNames v31 v32 v33
          exact Hw.loopRetire_ok th29

theorem Hw.runBranch_ok {h : Hw} {c : Fin 8} {op : Nat} (hk : h.Ok) : (Hw.runBranch h c op).Ok := by
  unfold Hw.runBranch
  refine Hw.loopIssue_ok ?_ fun h1 t i th1 => ?_
  · exact hk
  · extract_lets +onlyGivenNames v2 v3 v4
    refine Hw.Ok.ite (fun _ => ?_) (fun _ => ?_)
    · exact Hw.loopFault_ok th1
    · refine Hw.Ok.ite (fun _ => ?_) (fun _ => ?_)
      · exact Hw.loopFault_ok th1
      · extract_lets +onlyGivenNames v5
        exact Hw.setCore_ok th1

theorem Hw.runRepeat_ok {h : Hw} {c : Fin 8} {op : Nat} (hk : h.Ok) : (Hw.runRepeat h c op).Ok := by
  unfold Hw.runRepeat
  refine Hw.loopIssue_ok ?_ fun h1 t i th1 => ?_
  · exact hk
  · extract_lets +onlyGivenNames v2 v3 v4
    refine Hw.Ok.ite (fun _ => ?_) (fun _ => ?_)
    · exact Hw.loopFault_ok th1
    · extract_lets +onlyGivenNames v5
      exact Hw.setCore_ok th1

theorem Hw.storeRetry_ok {h : Hw} {c : Fin 8} {hit : Bool} (hk : h.Ok) : (Hw.storeRetry h c hit).Ok := by
  unfold Hw.storeRetry
  extract_lets +onlyGivenNames v1
  split
  · exact hk
  · refine Hw.Ok.ite (fun _ => ?_) (fun _ => ?_)
    · extract_lets +onlyGivenNames h10
      refine Hw.Ok.cut (x := h10) ?_ fun th10 => ?_
      · subst h10
        exact Hw.collide_ok hk
      clear_value h10
      exact Hw.setCore_ok th10
    · exact Hw.memStore_ok (Hw.setCore_ok hk)

end Sys2Proof.Machine
end

