-- ==== Sys2Proof/Laws/OkSerial.lean ====
section
/-! SUPPORT. Every operation of Machine/Serial.lean keeps the invariant of the part. -/

set_option Elab.async false

namespace Sys2Proof.Machine



theorem Hw.setLink_ok {h : Hw} {l : Nat} {k : Link} (hk : h.Ok) : (Hw.setLink h l k).Ok := hk.touches Hw.setLink_touches

theorem Hw.serialPump_ok {h : Hw} {n : Nat} (hk : h.Ok) : (Hw.serialPump h n).Ok := by
  unfold Hw.serialPump
  extract_lets +onlyGivenNames v1 v2 v3
  refine Hw.Ok.ite (fun _ => ?_) (fun _ => ?_)
  · exact hk
  · refine Hw.setSerial_ok ?_ ?_ ?_ ?_
    · exact Hw.setLink_ok hk
    · exact hk.serialRx _
    · (have k := hk.elog; simp_all +zetaDelta <;> omega)
    · exact hk.serialWake _

theorem Hw.txStart_ok {h : Hw} {n : Nat} (hk : h.Ok) : (Hw.txStart h n).Ok := by
  unfold Hw.txStart
  extract_lets +onlyGivenNames h1
  refine Hw.Ok.cut (x := h1) ?_ fun th1 => ?_
  · subst h1
    exact Hw.serialPump_ok hk
  clear_value h1
  extract_lets +onlyGivenNames v2
  split
  · refine Hw.Ok.ite (fun _ => ?_) (fun _ => ?_)
    · refine Hw.setSerial_ok ?_ ?_ ?_ ?_
      · exact th1
      · exact th1.serialRx _
      · (have k := th1.serialTx n; simp_all +zetaDelta <;> omega)
      · exact th1.serialWake _
    · exact th1
  · exact th1

theorem Hw.uartWrite_ok {h : Hw} {n : Nat} {v : Nat} (hk : h.Ok) : (Hw.uartWrite h n v).Ok := by
  unfold Hw.uartWrite
  extract_lets +onlyGivenNames v1
  refine Hw.Ok.ite (fun _ => ?_) (fun _ => ?_)
  · exact Hw.sf_ok hk
  · refine Hw.txStart_ok ?_
    refine Hw.setSerial_ok ?_ ?_ ?_ ?_
    · exact hk
    · exact hk.serialRx _
    · (have k := hk.elog; simp_all +zetaDelta <;> omega)
    · exact hk.serialWake _

theorem Hw.rxStore_ok {h : Hw} {n : Nat} {e : Nat} (hk : h.Ok) : (Hw.rxStore h n e).Ok := by
  unfold Hw.rxStore
  extract_lets +onlyGivenNames v1
  refine Hw.Ok.ite (fun _ => ?_) (fun _ => ?_)
  · refine Hw.bump_ok ?_
    refine Hw.setSerial_ok ?_ ?_ ?_ ?_
    · exact hk
    · exact hk.serialRx _
    · exact hk.serialTx _
    · exact hk.serialWake _
  · refine Hw.setSerial_ok ?_ ?_ ?_ ?_
    · exact hk
    · (have k := hk.elog; simp_all +zetaDelta <;> omega)
    · exact hk.serialTx _
    · exact hk.serialWake _

theorem Hw.rxTally_ok {h : Hw} {n : Nat} {e : Nat} (hk : h.Ok) : (Hw.rxTally h n e).Ok := by
  unfold Hw.rxTally
  extract_lets +onlyGivenNames h1
  refine Hw.Ok.cut (x := h1) ?_ fun th1 => ?_
  · subst h1
    refine Hw.Ok.ite (fun _ => ?_) (fun _ => ?_)
    · exact Hw.bump_ok hk
    · exact hk
  clear_value h1
  refine Hw.Ok.ite (fun _ => ?_) (fun _ => ?_)
  · exact Hw.bump_ok th1
  · exact th1

theorem Hw.rxTake_ok {h : Hw} {n : Nat} (hk : h.Ok) : (Hw.rxTake h n).Ok := by
  unfold Hw.rxTake
  extract_lets +onlyGivenNames v1
  refine Hw.sf_ok ?_
  refine Hw.setSerial_ok ?_ ?_ ?_ ?_
  · exact hk
  · exact hk.serialRx _
  · exact hk.serialTx _
  · exact hk.serialWake _

theorem Hw.txTake_ok {h : Hw} {n : Nat} (hk : h.Ok) : (Hw.txTake h n).Ok := by
  unfold Hw.txTake
  extract_lets +onlyGivenNames v1
  refine Hw.sf_ok ?_
  refine Hw.setSerial_ok ?_ ?_ ?_ ?_
  · exact hk
  · exact hk.serialRx _
  · exact hk.serialTx _
  · exact hk.serialWake _

theorem Hw.lineUsed_ok {h : Hw} {n : Nat} (hk : h.Ok) : (Hw.lineUsed h n).Ok := by
  unfold Hw.lineUsed
  extract_lets +onlyGivenNames v1
  refine Hw.setSerial_ok ?_ ?_ ?_ ?_
  · exact hk
  · exact hk.serialRx _
  · exact hk.serialTx _
  · exact hk.serialWake _

theorem Hw.rxTicks_ok {h : Hw} {n : Nat} {xs : List Bool} (hk : h.Ok) : (Hw.rxTicks h n xs).Ok := by
  unfold Hw.rxTicks
  extract_lets +onlyGivenNames v1
  extract_lets +onlyGivenNames h2
  refine Hw.Ok.cut (x := h2) ?_ fun th2 => ?_
  · subst h2
    refine Hw.Ok.ite (fun _ => ?_) (fun _ => ?_)
    · exact Hw.rxTake_ok hk
    · exact hk
  clear_value h2
  split
  · refine Hw.sf_ok ?_
    refine Hw.setSerial_ok ?_ ?_ ?_ ?_
    · exact th2
    · exact th2.serialRx _
    · exact th2.serialTx _
    · exact th2.serialWake _

theorem Hw.rxChar_ok {h : Hw} {n : Nat} (hk : h.Ok) : (Hw.rxChar h n).Ok := by
  unfold Hw.rxChar
  extract_lets +onlyGivenNames v1 v2 v3 v4
  extract_lets +onlyGivenNames h5
  refine Hw.Ok.cut (x := h5) ?_ fun th5 => ?_
  · subst h5
    refine Hw.setSerial_ok ?_ ?_ ?_ ?_
    · exact hk
    · exact hk.serialRx _
    · exact hk.serialTx _
    · exact hk.serialWake _
  clear_value h5
  extract_lets +onlyGivenNames h6
  refine Hw.Ok.cut (x := h6) ?_ fun th6 => ?_
  · subst h6
    exact Hw.rxStore_ok (Hw.rxTally_ok th5)
  clear_value h6
  extract_lets +onlyGivenNames h7
  refine Hw.Ok.cut (x := h7) ?_ fun th7 => ?_
  · subst h7
    exact Hw.sf_ok (Hw.rxTake_ok th6)
  clear_value h7
  exact Hw.txStart_ok (Hw.lineUsed_ok (Hw.rxTicks_ok th7))

theorem Hw.uartReceived_ok {h : Hw} {n : Nat} {xs : List Bool} (hk : h.Ok) : (Hw.uartReceived h n xs).Ok := by
  unfold Hw.uartReceived
  refine Hw.Ok.ite (fun _ => ?_) (fun _ => ?_)
  · exact hk
  · extract_lets +onlyGivenNames h1
    refine Hw.Ok.cut (x := h1) ?_ fun th1 => ?_
    · subst h1
      exact Hw.rxTicks_ok hk
    clear_value h1
    refine Hw.Ok.ite (fun _ => ?_) (fun _ => ?_)
    · exact Hw.rxChar_ok th1
    · exact Hw.txStart_ok th1

theorem Hw.uartSent_ok {h : Hw} {n : Nat} {d : Nat} {par : Bool} {stop : Bool} {noise : Bool} {cts : Bool} (hk : h.Ok) : (Hw.uartSent h n d par stop noise cts).Ok := by
  unfold Hw.uartSent
  extract_lets +onlyGivenNames v1
  split
  · exact hk
  · extract_lets +onlyGivenNames v7 v8 v9 v10 v11
    extract_lets +onlyGivenNames h12
    refine Hw.Ok.cut (x := h12) ?_ fun th12 => ?_
    · subst h12
      refine Hw.setSerial_ok ?_ ?_ ?_ ?_
      · exact hk
      · exact hk.serialRx _
      · exact hk.serialTx _
      · exact hk.serialWake _
    clear_value h12
    extract_lets +onlyGivenNames h13
    refine Hw.Ok.cut (x := h13) ?_ fun th13 => ?_
    · subst h13
      exact Hw.txTake_ok th12
    clear_value h13
    extract_lets +onlyGivenNames h14
    refine Hw.Ok.cut (x := h14) ?_ fun th14 => ?_
    · subst h14
      exact Hw.lineUsed_ok th13
    clear_value h14
    extract_lets +onlyGivenNames v15
    extract_lets +onlyGivenNames h16
    refine Hw.Ok.cut (x := h16) ?_ fun th16 => ?_
    · subst h16
      exact Hw.bump_ok (Hw.sf_ok th14)
    clear_value h16
    extract_lets +onlyGivenNames v17
    extract_lets +onlyGivenNames h18
    refine Hw.Ok.cut (x := h18) ?_ fun th18 => ?_
    · subst h18
      refine Hw.setSerial_ok ?_ ?_ ?_ ?_
      · exact th16
      · exact th16.serialRx _
      · exact th16.serialTx _
      · exact th16.serialWake _
    clear_value h18
    extract_lets +onlyGivenNames h19
    refine Hw.Ok.cut (x := h19) ?_ fun th19 => ?_
    · subst h19
      refine Hw.Ok.ite (fun _ => ?_) (fun _ => ?_)
      · exact th13
      · refine Hw.Ok.ite (fun _ => ?_) (fun _ => ?_)
        · exact Hw.rxTake_ok (Hw.rxStore_ok (Hw.rxTally_ok th18))
        · refine Hw.Ok.ite (fun _ => ?_) (fun _ => ?_)
          · exact Hw.rxTake_ok (Hw.rxStore_ok (Hw.rxTally_ok th14))
          · exact th14
    clear_value h19
    exact Hw.txStart_ok th19

theorem Hw.uartRead_ok {h : Hw} {n : Nat} (hk : h.Ok) : (Hw.uartRead h n).Ok := by
  unfold Hw.uartRead
  extract_lets +onlyGivenNames v1
  split
  · exact Hw.Ok.touches hk set_resp_touches
  · extract_lets +onlyGivenNames h8
    refine Hw.Ok.cut (x := h8) ?_ fun th8 => ?_
    · subst h8
      refine Hw.setSerial_ok ?_ ?_ ?_ ?_
      · exact hk
      · (have k := hk.serialRx n; simp_all +zetaDelta <;> omega)
      · exact hk.serialTx _
      · exact hk.serialWake _
    clear_value h8
    exact Hw.Ok.touches th8 set_resp_touches

theorem Hw.uartIdle_ok {h : Hw} {n : Nat} (hk : h.Ok) : (Hw.uartIdle h n).Ok := by
  unfold Hw.uartIdle
  refine Hw.Ok.ite (fun _ => ?_) (fun _ => ?_)
  · exact hk
  · exact Hw.sf_ok hk

theorem Hw.uartShadow_ok {h : Hw} {n : Nat} {a : Nat} {v : Nat} (hk : h.Ok) : (Hw.uartShadow h n a v).Ok := by
  unfold Hw.uartShadow
  extract_lets +onlyGivenNames v1
  refine Hw.Ok.ite (fun _ => ?_) (fun _ => ?_)
  · exact Hw.sf_ok hk
  · extract_lets +onlyGivenNames h2
    refine Hw.Ok.cut (x := h2) ?_ fun th2 => ?_
    · subst h2
      exact Hw.writeFields_ok hk
    clear_value h2
    extract_lets +onlyGivenNames h3
    refine Hw.Ok.cut (x := h3) ?_ fun th3 => ?_
    · subst h3
      refine Hw.Ok.ite (fun _ => ?_) (fun _ => ?_)
      · exact Hw.sf_ok th2
      · exact Hw.txTake_ok th2
    clear_value h3
    refine Hw.Ok.ite (fun _ => ?_) (fun _ => ?_)
    · exact Hw.sf_ok th3
    · exact Hw.rxTake_ok th3

theorem Hw.uartFifo_ok {h : Hw} {n : Nat} {v : Nat} (hk : h.Ok) : (Hw.uartFifo h n v).Ok := by
  unfold Hw.uartFifo
  extract_lets +onlyGivenNames h1
  refine Hw.Ok.cut (x := h1) ?_ fun th1 => ?_
  · subst h1
    exact Hw.writeFields_ok hk
  clear_value h1
  extract_lets +onlyGivenNames v2
  extract_lets +onlyGivenNames h3
  refine Hw.Ok.cut (x := h3) ?_ fun th3 => ?_
  · subst h3
    refine Hw.Ok.ite (fun _ => ?_) (fun _ => ?_)
    · refine Hw.setSerial_ok ?_ ?_ ?_ ?_
      · exact th1
      · exact Nat.zero_le _
      · exact th1.serialTx _
      · exact th1.serialWake _
    · exact th1
  clear_value h3
  refine Hw.Ok.ite (fun _ => ?_) (fun _ => ?_)
  · refine Hw.setSerial_ok ?_ ?_ ?_ ?_
    · exact th3
    · exact th3.serialRx _
    · exact Nat.zero_le _
    · exact th3.serialWake _
  · exact th3

theorem Hw.slowExit_ok {h : Hw} {n : Nat} (hk : h.Ok) : (Hw.slowExit h n).Ok := by
  unfold Hw.slowExit
  extract_lets +onlyGivenNames v1
  refine Hw.Ok.ite (fun _ => ?_) (fun _ => ?_)
  · exact hk
  · refine Hw.Ok.ite (fun _ => ?_) (fun _ => ?_)
    · refine Hw.sf_ok ?_
      refine Hw.setSerial_ok ?_ ?_ ?_ ?_
      · exact hk
      · exact hk.serialRx _
      · exact hk.serialTx _
      · exact hk.serialWake _
    · refine Hw.rxTake_ok ?_
      refine Hw.setSerial_ok ?_ ?_ ?_ ?_
      · exact hk
      · exact hk.serialRx _
      · exact hk.serialTx _
      · exact hk.serialWake _

theorem Hw.uartSlow_ok {h : Hw} {n : Nat} {v : Nat} (hk : h.Ok) : (Hw.uartSlow h n v).Ok := by
  unfold Hw.uartSlow
  extract_lets +onlyGivenNames h1
  refine Hw.Ok.cut (x := h1) ?_ fun th1 => ?_
  · subst h1
    exact Hw.writeFields_ok hk
  clear_value h1
  refine Hw.Ok.ite (fun _ => ?_) (fun _ => ?_)
  · exact Hw.slowExit_ok th1
  · exact th1

theorem Hw.uartSrate_ok {h : Hw} {n : Nat} {v : Nat} (hk : h.Ok) : (Hw.uartSrate h n v).Ok := by
  unfold Hw.uartSrate
  refine Hw.Ok.ite (fun _ => ?_) (fun _ => ?_)
  · exact Hw.writeFields_ok hk
  · exact Hw.sf_ok hk

theorem Hw.uartCfg_ok {h : Hw} {n : Nat} {v : Nat} (hk : h.Ok) : (Hw.uartCfg h n v).Ok := by
  unfold Hw.uartCfg
  extract_lets +onlyGivenNames v1
  extract_lets +onlyGivenNames h2
  refine Hw.Ok.cut (x := h2) ?_ fun th2 => ?_
  · subst h2
    exact Hw.writeFields_ok hk
  clear_value h2
  extract_lets +onlyGivenNames v3
  extract_lets +onlyGivenNames h4
  refine Hw.Ok.cut (x := h4) ?_ fun th4 => ?_
  · subst h4
    refine Hw.Ok.ite (fun _ => ?_) (fun _ => ?_)
    · exact th2
    · refine Hw.sf_ok ?_
      refine Hw.setSerial_ok ?_ ?_ ?_ ?_
      · exact th2
      · exact th2.serialRx _
      · exact th2.serialTx _
      · exact th2.serialWake _
  clear_value h4
  exact Hw.txStart_ok th4

theorem Hw.uartStat_ok {h : Hw} {n : Nat} {v : Nat} (hk : h.Ok) : (Hw.uartStat h n v).Ok := by
  unfold Hw.uartStat
  exact Hw.txStart_ok (Hw.writeFields_ok hk)

theorem Hw.ctsLow_ok {h : Hw} {n : Nat} (hk : h.Ok) : (Hw.ctsLow h n).Ok := by
  unfold Hw.ctsLow
  refine Hw.txStart_ok ?_
  refine Hw.setSerial_ok ?_ ?_ ?_ ?_
  · exact hk
  · exact hk.serialRx _
  · exact hk.serialTx _
  · exact hk.serialWake _

theorem Hw.guardElapsed_ok {h : Hw} {n : Nat} (hk : h.Ok) : (Hw.guardElapsed h n).Ok := by
  unfold Hw.guardElapsed
  refine Hw.Ok.ite (fun _ => ?_) (fun _ => ?_)
  · refine Hw.txStart_ok ?_
    refine Hw.setSerial_ok ?_ ?_ ?_ ?_
    · exact hk
    · exact hk.serialRx _
    · exact hk.serialTx _
    · exact hk.serialWake _
  · exact hk

theorem Hw.slowEnter_ok {h : Hw} {n : Nat} (hk : h.Ok) : (Hw.slowEnter h n).Ok := by
  unfold Hw.slowEnter
  refine Hw.Ok.ite (fun _ => ?_) (fun _ => ?_)
  · extract_lets +onlyGivenNames h1
    refine Hw.Ok.cut (x := h1) ?_ fun th1 => ?_
    · subst h1
      refine Hw.Ok.ite (fun _ => ?_) (fun _ => ?_)
      · exact Hw.sf_ok (Hw.bump_ok hk)
      · exact hk
    clear_value h1
    extract_lets +onlyGivenNames h2
    refine Hw.Ok.cut (x := h2) ?_ fun th2 => ?_
    · subst h2
      refine Hw.Ok.ite (fun _ => ?_) (fun _ => ?_)
      · exact Hw.rxTake_ok th1
      · exact th1
    clear_value h2
    refine Hw.setSerial_ok ?_ ?_ ?_ ?_
    · exact th2
    · exact th2.serialRx _
    · exact th2.serialTx _
    · exact Nat.zero_le _
  · exact hk

theorem Hw.flagSource_ok {h : Hw} {src : Nat} (hk : h.Ok) : (Hw.flagSource h src).Ok := by
  unfold Hw.flagSource
  refine Hw.Ok.ite (fun _ => ?_) (fun _ => ?_)
  · exact hk
  · exact Hw.sf_ok hk

theorem Hw.slowDecided_ok {h : Hw} {n : Nat} (hk : h.Ok) : (Hw.slowDecided h n).Ok := by
  unfold Hw.slowDecided
  extract_lets +onlyGivenNames v1
  extract_lets +onlyGivenNames h2
  refine Hw.Ok.cut (x := h2) ?_ fun th2 => ?_
  · subst h2
    refine Hw.setSerial_ok ?_ ?_ ?_ ?_
    · exact hk
    · exact hk.serialRx _
    · exact hk.serialTx _
    · exact hk.serialWake _
  clear_value h2
  refine Hw.sf_ok ?_
  refine Hw.Ok.ite (fun _ => ?_) (fun _ => ?_)
  · exact Hw.rxTake_ok th2
  · exact th2

theorem Hw.slowTake_ok {h : Hw} {n : Nat} {e : Nat} (hk : h.Ok) : (Hw.slowTake h n e).Ok := by
  unfold Hw.slowTake
  extract_lets +onlyGivenNames v1
  refine Hw.Ok.ite (fun _ => ?_) (fun _ => ?_)
  · exact Hw.slowDecided_ok (Hw.rxStore_ok (Hw.rxTally_ok hk))
  · refine Hw.Ok.ite (fun _ => ?_) (fun _ => ?_)
    · refine Hw.Ok.ite (fun _ => ?_) (fun _ => ?_)
      · refine Hw.flagSource_ok ?_
        refine Hw.setSerial_ok ?_ ?_ ?_ ?_
        · exact hk
        · exact hk.serialRx _
        · exact hk.serialTx _
        · (have k := hk.elog; simp_all +zetaDelta <;> omega)
      · exact hk
    · refine Hw.Ok.ite (fun _ => ?_) (fun _ => ?_)
      · refine Hw.setSerial_ok ?_ ?_ ?_ ?_
        · exact hk
        · exact hk.serialRx _
        · exact hk.serialTx _
        · (have k := hk.elog; simp_all +zetaDelta <;> omega)
      · refine Hw.setSerial_ok ?_ ?_ ?_ ?_
        · exact hk
        · exact hk.serialRx _
        · exact hk.serialTx _
        · exact hk.serialWake _

theorem Hw.slowHold_ok {h : Hw} {n : Nat} {await : Bool} {xs : List Bool} (hk : h.Ok) : (Hw.slowHold h n await xs).Ok := by
  unfold Hw.slowHold
  split
  · refine Hw.sf_ok ?_
    refine Hw.setSerial_ok ?_ ?_ ?_ ?_
    · exact hk
    · exact hk.serialRx _
    · exact hk.serialTx _
    · exact hk.serialWake _

theorem Hw.slowChar_ok {h : Hw} {n : Nat} {xs : List Bool} (hk : h.Ok) : (Hw.slowChar h n xs).Ok := by
  unfold Hw.slowChar
  extract_lets +onlyGivenNames v1 v2 v3
  refine Hw.Ok.ite (fun _ => ?_) (fun _ => ?_)
  · exact hk
  · refine Hw.Ok.ite (fun _ => ?_) (fun _ => ?_)
    · refine Hw.slowDecided_ok ?_
      refine Hw.setSerial_ok ?_ ?_ ?_ ?_
      · exact hk
      · exact hk.serialRx _
      · exact hk.serialTx _
      · exact hk.serialWake _
    · extract_lets +onlyGivenNames h4
      refine Hw.Ok.cut (x := h4) ?_ fun th4 => ?_
      · subst h4
        exact Hw.slowHold_ok hk
      clear_value h4
      extract_lets +onlyGivenNames v5
      refine Hw.Ok.ite (fun _ => ?_) (fun _ => ?_)
      · exact th4
      · extract_lets +onlyGivenNames v6
        exact Hw.slowTake_ok (Hw.slowHold_ok th4)

theorem Hw.wakeBuffer_ok {h : Hw} {n : Nat} (hk : h.Ok) : (Hw.wakeBuffer h n).Ok := by
  unfold Hw.wakeBuffer
  extract_lets +onlyGivenNames v1
  refine Hw.Ok.ite (fun _ => ?_) (fun _ => ?_)
  · exact hk
  · extract_lets +onlyGivenNames h2
    refine Hw.Ok.cut (x := h2) ?_ fun th2 => ?_
    · subst h2
      refine Hw.sf_ok ?_
      refine Hw.setSerial_ok ?_ ?_ ?_ ?_
      · exact hk
      · (have k := hk.serialWake n; simp_all +zetaDelta <;> omega)
      · exact hk.serialTx _
      · exact Nat.zero_le _
    clear_value h2
    extract_lets +onlyGivenNames h3
    refine Hw.Ok.cut (x := h3) ?_ fun th3 => ?_
    · subst h3
      refine Hw.Ok.forEach ?_ fun x4 h5 th5 => ?_
      · exact th2
      · exact Hw.rxTally_ok th5
    clear_value h3
    exact Hw.bumpBy_ok th3

end Sys2Proof.Machine
end

