-- ==== Sys2Proof/Laws/OkCan.lean ====
section
/-! SUPPORT. Every operation of Machine/Can.lean keeps the invariant of the part. -/

set_option Elab.async false

namespace Sys2Proof.Machine

theorem Hw.setCan_ok {h : Hw} {n : Nat} {c : Can} (hk : h.Ok) : (Hw.setCan h n c).Ok := hk.touches Hw.setCan_touches

theorem Hw.canSend_ok {h : Hw} {n : Nat} {fn : Nat} {data : List Nat} {tag : Option Nat} {sub : Option (Nat × Nat × Nat)} (hk : h.Ok) : (Hw.canSend h n fn data tag sub).Ok := by
  unfold Hw.canSend
  extract_lets +onlyGivenNames v1
  refine Hw.Ok.ite (fun _ => ?_) (fun _ => ?_)
  · exact hk
  · refine Hw.Ok.ite (fun _ => ?_) (fun _ => ?_)
    · exact Hw.bump_ok hk
    · exact Hw.setCan_ok hk

theorem Hw.canErrors_ok {h : Hw} {n : Nat} {tec : Nat} (hk : h.Ok) : (Hw.canErrors h n tec).Ok := by
  unfold Hw.canErrors
  refine Hw.Ok.ite (fun _ => ?_) (fun _ => ?_)
  · exact Hw.sf_ok (Hw.sf_ok (Hw.sf_ok hk))
  · extract_lets +onlyGivenNames h1
    refine Hw.Ok.cut (x := h1) ?_ fun th1 => ?_
    · subst h1
      exact Hw.sf_ok hk
    clear_value h1
    exact Hw.sf_ok th1

theorem Hw.canTake_ok {h : Hw} {n : Nat} {id : Nat} {ext : Bool} {fd : Bool} {data : List Nat} (hk : h.Ok) : (Hw.canTake h n id ext fd data).Ok := by
  unfold Hw.canTake
  extract_lets +onlyGivenNames v1 v2 v3
  refine Hw.Ok.ite (fun _ => ?_) (fun _ => ?_)
  · exact hk
  · extract_lets +onlyGivenNames v4
    extract_lets +onlyGivenNames h5
    refine Hw.Ok.cut (x := h5) ?_ fun th5 => ?_
    · subst h5
      exact Hw.sf_ok hk
    clear_value h5
    extract_lets +onlyGivenNames h6
    refine Hw.Ok.cut (x := h6) ?_ fun th6 => ?_
    · subst h6
      exact Hw.canErrors_ok th5
    clear_value h6
    refine Hw.Ok.ite (fun _ => ?_) (fun _ => ?_)
    · exact Hw.sf_ok th6
    · exact Hw.setCan_ok th6

theorem Hw.canSent_ok {h : Hw} {n : Nat} {ok : Bool} (hk : h.Ok) : (Hw.canSent h n ok).Ok := by
  unfold Hw.canSent
  extract_lets +onlyGivenNames v1
  split
  · exact hk
  · refine Hw.Ok.ite (fun _ => ?_) (fun _ => ?_)
    · exact hk
    · refine Hw.Ok.ite (fun _ => ?_) (fun _ => ?_)
      · extract_lets +onlyGivenNames h7
        refine Hw.Ok.cut (x := h7) ?_ fun th7 => ?_
        · subst h7
          exact Hw.canErrors_ok (Hw.setCan_ok hk)
        clear_value h7
        refine Hw.Ok.ite (fun _ => ?_) (fun _ => ?_)
        · exact Hw.canTake_ok th7
        · exact th7
      · exact Hw.canErrors_ok hk

theorem Hw.canReceived_ok {h : Hw} {n : Nat} {id : Nat} {ext : Bool} {fd : Bool} {data : List Nat} (hk : h.Ok) : (Hw.canReceived h n id ext fd data).Ok := by
  unfold Hw.canReceived
  refine Hw.Ok.ite (fun _ => ?_) (fun _ => ?_)
  · exact hk
  · exact Hw.canTake_ok hk

theorem Hw.canRecover_ok {h : Hw} {n : Nat} (hk : h.Ok) : (Hw.canRecover h n).Ok := by
  unfold Hw.canRecover
  refine Hw.Ok.ite (fun _ => ?_) (fun _ => ?_)
  · exact Hw.sf_ok (Hw.sf_ok (Hw.sf_ok hk))
  · exact hk

theorem Hw.canCfg_ok {h : Hw} {n : Nat} {v : Nat} (hk : h.Ok) : (Hw.canCfg h n v).Ok := by
  unfold Hw.canCfg
  extract_lets +onlyGivenNames v1
  extract_lets +onlyGivenNames h2
  refine Hw.Ok.cut (x := h2) ?_ fun th2 => ?_
  · subst h2
    exact Hw.writeFields_ok hk
  clear_value h2
  extract_lets +onlyGivenNames v3
  refine Hw.Ok.ite (fun _ => ?_) (fun _ => ?_)
  · exact Hw.sf_ok th2
  · refine Hw.Ok.ite (fun _ => ?_) (fun _ => ?_)
    · exact th2
    · exact Hw.sf_ok (Hw.sf_ok (Hw.sf_ok th2))

theorem Hw.hspiPump_ok {h : Hw} (hk : h.Ok) : (Hw.hspiPump h).Ok := hk.touches Hw.hspiPump_touches

theorem Hw.setObj_ok {h : Hw} {idx : Nat} {sub : Nat} {v : Nat} (hk : h.Ok) : (Hw.setObj h idx sub v).Ok := hk.touches Hw.setObj_touches

theorem Hw.wowellSend_ok {h : Hw} {l : Nat} {type : Nat} {payload : List Nat} (hk : h.Ok) : (Hw.wowellSend h l type payload).Ok := by
  unfold Hw.wowellSend
  extract_lets +onlyGivenNames v1
  extract_lets +onlyGivenNames h2
  refine Hw.Ok.cut (x := h2) ?_ fun th2 => ?_
  · subst h2
    exact Hw.setLink_ok hk
  clear_value h2
  refine Hw.Ok.ite (fun _ => ?_) (fun _ => ?_)
  · exact Hw.hspiPump_ok th2
  · exact Hw.txStart_ok th2

theorem Hw.linkSend_ok {h : Hw} {l : Nat} {fn : Nat} {payload : List Nat} (hk : h.Ok) : (Hw.linkSend h l fn payload).Ok := by
  unfold Hw.linkSend
  refine Hw.Ok.ite (fun _ => ?_) (fun _ => ?_)
  · exact Hw.canSend_ok hk
  · exact Hw.wowellSend_ok hk

theorem Hw.timeFrame_ok {h : Hw} {gtime : Nat} {leap : Option Nat} (hk : h.Ok) : (Hw.timeFrame h gtime leap).Ok := by
  unfold Hw.timeFrame
  split
  · extract_lets +onlyGivenNames v7 v8
    refine Hw.Ok.forEach ?_ fun x9 h10 th10 => ?_
    · exact hk
    · refine Hw.Ok.ite (fun _ => ?_) (fun _ => ?_)
      · exact Hw.canSend_ok th10
      · exact th10

theorem Hw.measDrop_ok {h : Hw} {c : Nat} (hk : h.Ok) : (Hw.measDrop h c).Ok := by
  unfold Hw.measDrop
  extract_lets +onlyGivenNames v1 v2
  exact Hw.bumpBy_ok (Hw.setCan_ok hk)

theorem Hw.measFrames_ok {h : Hw} {seq : Nat} (hk : h.Ok) : (Hw.measFrames h seq).Ok := by
  unfold Hw.measFrames
  generalize upTo 512 = ns512
  extract_lets +onlyGivenNames v1 v2
  extract_lets +onlyGivenNames h3
  refine Hw.Ok.cut (x := h3) ?_ fun th3 => ?_
  · subst h3
    exact Hw.measDrop_ok (Hw.measDrop_ok hk)
  clear_value h3
  refine Hw.Ok.ite (fun _ => ?_) (fun _ => ?_)
  · exact th3
  · refine Hw.Ok.forEach ?_ fun x4 h5 th5 => ?_
    · exact th3
    · extract_lets +onlyGivenNames v6 v7 v8
      refine Hw.Ok.ite (fun _ => ?_) (fun _ => ?_)
      · exact Hw.canSend_ok th5
      · exact th5

end Sys2Proof.Machine
end

