-- ==== Sys2Proof/Laws/OkLoopTasks.lean ====
section
/-! SUPPORT. Every operation of Machine/LoopTasks.lean keeps the invariant of the part. -/

set_option Elab.async false

namespace Sys2Proof.Machine

theorem Hw.blockWords_ok {h : Hw} {s : Nat} {a : Nat} {b1 : Nat} (hk : h.Ok) : (Hw.blockWords h s a b1).2.Ok := by
  induction b1 generalizing h s a hk with
  | zero =>
    unfold Hw.blockWords
    exact Hw.Ok.pair (hk)
  | succ k ih =>
    unfold Hw.blockWords
    refine Hw.Ok.ite2 (fun _ => ?_) (fun _ => ?_)
    · extract_lets +onlyGivenNames v1
      split
      · rename_i a2 a3 h4 e5
        refine Hw.Ok.cut (x := h4) (Hw.Ok.snd ?_ e5) fun th4 => ?_
        · exact ih (Hw.correct_ok hk)
        exact Hw.Ok.pair (th4)
    · split
      · rename_i a6 a7 h8 e9
        refine Hw.Ok.cut (x := h8) (Hw.Ok.snd ?_ e9) fun th8 => ?_
        · exact Hw.freshWords_ok (Hw.fabFails_ok hk)
        split
        · rename_i a10 a11 h12 e13
          refine Hw.Ok.cut (x := h12) (Hw.Ok.snd ?_ e13) fun th12 => ?_
          · exact ih th8
          exact Hw.Ok.pair (th12)

theorem Hw.startTask_ok {h : Hw} {c : Nat} {q : Nat} {k : LoopTask} (hk : h.Ok) : (Hw.startTask h c q k).Ok := by
  unfold Hw.startTask
  extract_lets +onlyGivenNames v1 v2
  split
  · rename_i a3 a4 h5 e6
    refine Hw.Ok.cut (x := h5) (Hw.Ok.snd ?_ e6) fun th5 => ?_
    · refine Hw.Ok.ite2 (fun _ => ?_) (fun _ => ?_)
      · exact Hw.Ok.pair (hk)
      · exact Hw.blockWords_ok hk
    extract_lets +onlyGivenNames v7
    extract_lets +onlyGivenNames h8
    refine Hw.Ok.cut (x := h8) ?_ fun th8 => ?_
    · subst h8
      exact Hw.setLocals_ok th5
    clear_value h8
    extract_lets +onlyGivenNames h9
    refine Hw.Ok.cut (x := h9) ?_ fun th9 => ?_
    · subst h9
      refine Hw.Ok.ite (fun _ => ?_) (fun _ => ?_)
      · exact Hw.setStrand_ok th8
      · exact th8
    clear_value h9
    extract_lets +onlyGivenNames v10 v11
    exact Hw.setCore_ok th9

theorem Hw.taskDispatch_ok {h : Hw} {c : Nat} (hk : h.Ok) : (Hw.taskDispatch h c).Ok := by
  unfold Hw.taskDispatch
  extract_lets +onlyGivenNames v1
  refine Hw.Ok.ite (fun _ => ?_) (fun _ => ?_)
  · exact hk
  · extract_lets +onlyGivenNames v2
    split
    · exact hk
    · split
      · exact Hw.setCore_ok hk
      · exact hk
    · split
      · exact hk
      · extract_lets +onlyGivenNames v21
        extract_lets +onlyGivenNames h22
        refine Hw.Ok.cut (x := h22) ?_ fun th22 => ?_
        · subst h22
          exact Hw.Ok.touches hk set_loop_touches
        clear_value h22
        exact Hw.startTask_ok th22

theorem Hw.preemptSave_ok {h : Hw} {c : Nat} (hk : h.Ok) : (Hw.preemptSave h c).Ok := by
  unfold Hw.preemptSave
  extract_lets +onlyGivenNames v1
  split
  · exact hk
  · refine Hw.Ok.ite (fun _ => ?_) (fun _ => ?_)
    · exact Hw.bump_ok (Hw.setCore_ok hk)
    · exact hk

theorem Hw.writeBlock_ok {h : Hw} {s : Nat} {ws : List Nat} (hk : h.Ok) : (Hw.writeBlock h s ws).Ok := by
  unfold Hw.writeBlock
  exact Hw.putWords_ok hk

theorem Hw.vendorBlock_ok {h : Hw} {s : Nat} {obs : List Nat} (hk : h.Ok) : (Hw.vendorBlock h s obs).Ok := by
  unfold Hw.vendorBlock
  split
  · rename_i a1 a2 h3 e4
    refine Hw.Ok.cut (x := h3) (Hw.Ok.snd ?_ e4) fun th3 => ?_
    · exact Hw.freshWords_ok hk
    exact Hw.writeBlock_ok th3

theorem Hw.trackEnd_ok {h : Hw} {k : LoopTask} {r : RetWords} {decided : Bool} (hk : h.Ok) : (Hw.trackEnd h k r decided).Ok := by
  unfold Hw.trackEnd
  extract_lets +onlyGivenNames v1 v2
  extract_lets +onlyGivenNames h3
  refine Hw.Ok.cut (x := h3) ?_ fun th3 => ?_
  · subst h3
    refine Hw.Ok.ite (fun _ => ?_) (fun _ => ?_)
    · exact Hw.bump_ok hk
    · exact hk
  clear_value h3
  refine Hw.Ok.ite (fun _ => ?_) (fun _ => ?_)
  · exact th3
  · extract_lets +onlyGivenNames v4
    extract_lets +onlyGivenNames h5
    refine Hw.Ok.cut (x := h5) ?_ fun th5 => ?_
    · subst h5
      split
      · exact Hw.setStrand_ok th3
      · exact th3
    clear_value h5
    exact Hw.bitSync_ok th5

theorem Hw.searchBlock_ok {h : Hw} {k : LoopTask} (hk : h.Ok) : (Hw.searchBlock h k).Ok := by
  unfold Hw.searchBlock
  split
  · rename_i a1 a2 h3 e4
    refine Hw.Ok.cut (x := h3) (Hw.Ok.snd ?_ e4) fun th3 => ?_
    · exact Hw.freshWords_ok hk
    exact Hw.writeBlock_ok th3

theorem Hw.searchEnd_ok {h : Hw} {k : LoopTask} (hk : h.Ok) : (Hw.searchEnd h k).Ok := by
  unfold Hw.searchEnd
  extract_lets +onlyGivenNames h1
  refine Hw.Ok.cut (x := h1) ?_ fun th1 => ?_
  · subst h1
    exact Hw.searchBlock_ok hk
  clear_value h1
  refine Hw.Ok.ite (fun _ => ?_) (fun _ => ?_)
  · exact th1
  · extract_lets +onlyGivenNames v2
    split
    · exact Hw.passEnd_ok (Hw.setStrand_ok th1)

theorem Hw.snapEnd_ok {h : Hw} {k : LoopTask} (hk : h.Ok) : (Hw.snapEnd h k).Ok := by
  unfold Hw.snapEnd
  extract_lets +onlyGivenNames h1
  refine Hw.Ok.cut (x := h1) ?_ fun th1 => ?_
  · subst h1
    exact Hw.searchBlock_ok hk
  clear_value h1
  refine Hw.Ok.ite (fun _ => ?_) (fun _ => ?_)
  · exact th1
  · extract_lets +onlyGivenNames v2 v3
    extract_lets +onlyGivenNames h4
    refine Hw.Ok.cut (x := h4) ?_ fun th4 => ?_
    · subst h4
      exact Hw.setStrand_ok th1
    clear_value h4
    exact Hw.snapFinish_ok th4

theorem Hw.taskEnd_ok {h : Hw} {c : Fin 8} {t : Running} (hk : h.Ok) : (Hw.taskEnd h c t).Ok := by
  unfold Hw.taskEnd
  generalize upTo 32 = ns32
  extract_lets +onlyGivenNames v1 v2 v3 v4
  extract_lets +onlyGivenNames h5
  refine Hw.Ok.cut (x := h5) ?_ fun th5 => ?_
  · subst h5
    exact Hw.setCore_ok hk
  clear_value h5
  extract_lets +onlyGivenNames h6
  refine Hw.Ok.cut (x := h6) ?_ fun th6 => ?_
  · subst h6
    exact Hw.bump_ok th5
  clear_value h6
  refine Hw.Ok.ite (fun _ => ?_) (fun _ => ?_)
  · exact Hw.searchEnd_ok th6
  · refine Hw.Ok.ite (fun _ => ?_) (fun _ => ?_)
    · exact Hw.snapEnd_ok th6
    · refine Hw.Ok.ite (fun _ => ?_) (fun _ => ?_)
      · extract_lets +onlyGivenNames v7 v8
        extract_lets +onlyGivenNames h9
        refine Hw.Ok.cut (x := h9) ?_ fun th9 => ?_
        · subst h9
          refine Hw.Ok.ite (fun _ => ?_) (fun _ => ?_)
          · exact th6
          · exact Hw.setStrand_ok th6
        clear_value h9
        exact Hw.trackEnd_ok (Hw.vendorBlock_ok th9)
      · exact Hw.trackEnd_ok (Hw.writeBlock_ok th6)

theorem Hw.runRet_ok {h : Hw} {c : Fin 8} (hk : h.Ok) : (Hw.runRet h c).Ok := by
  unfold Hw.runRet
  refine Hw.loopIssue_ok ?_ fun h1 t i th1 => ?_
  · exact hk
  · extract_lets +onlyGivenNames v2
    refine Hw.Ok.ite (fun _ => ?_) (fun _ => ?_)
    · split
      · exact Hw.taskEnd_ok th1
      · refine Hw.Ok.ite (fun _ => ?_) (fun _ => ?_)
        · exact Hw.loopFault_ok th1
        · exact Hw.setCore_ok th1
    · refine Hw.Ok.ite (fun _ => ?_) (fun _ => ?_)
      · exact Hw.loopFault_ok th1
      · exact Hw.setCore_ok th1

end Sys2Proof.Machine
end

