-- ==== Sys2Proof/Laws/OkHitch.lean ====
section
/-! SUPPORT. Every operation of Machine/Hitch.lean keeps the invariant of the part. -/

set_option Elab.async false

namespace Sys2Proof.Machine

theorem Hw.jitter_ok {h : Hw} (hk : h.Ok) : (Hw.jitter h).2.Ok := hk.touches Hw.jitter_touches

theorem Hw.showBase_ok {h : Hw} (hk : h.Ok) : (Hw.showBase h).Ok := by
  unfold Hw.showBase
  split
  · exact hk
  · extract_lets +onlyGivenNames v6
    extract_lets +onlyGivenNames h7
    refine Hw.Ok.cut (x := h7) ?_ fun th7 => ?_
    · subst h7
      refine Hw.Ok.ite (fun _ => ?_) (fun _ => ?_)
      · exact hk
      · exact Hw.sf_ok hk
    clear_value h7
    exact Hw.sf_ok th7

theorem Hw.hitchBaseLo_ok {h : Hw} {v : Nat} (hk : h.Ok) : (Hw.hitchBaseLo h v).Ok := by
  unfold Hw.hitchBaseLo
  extract_lets +onlyGivenNames h1
  refine Hw.Ok.cut (x := h1) ?_ fun th1 => ?_
  · subst h1
    exact Hw.sf_ok hk
  clear_value h1
  exact Hw.Ok.touches th1 set_hitch_touches

theorem Hw.showPend_ok {h : Hw} (hk : h.Ok) : (Hw.showPend h).Ok := by
  unfold Hw.showPend
  exact Hw.sf_ok hk

theorem Hw.changeover_ok {h : Hw} {nc : Option Nat} (hk : h.Ok) : (Hw.changeover h nc).Ok := by
  unfold Hw.changeover
  extract_lets +onlyGivenNames v1
  refine Hw.Ok.ite (fun _ => ?_) (fun _ => ?_)
  · exact hk
  · extract_lets +onlyGivenNames v2 v3
    extract_lets +onlyGivenNames h4
    refine Hw.Ok.cut (x := h4) ?_ fun th4 => ?_
    · subst h4
      exact Hw.Ok.touches hk set_hitch_touches
    clear_value h4
    exact Hw.sf_ok (Hw.showPend_ok (Hw.showBase_ok th4))

theorem Hw.settleSchedule_ok {h : Hw} (hk : h.Ok) : (Hw.settleSchedule h).Ok := by
  unfold Hw.settleSchedule
  refine Hw.Ok.ite (fun _ => ?_) (fun _ => ?_)
  · exact hk
  · exact Hw.changeover_ok hk

theorem Hw.hitchCtrl_ok {h : Hw} {v : Nat} (hk : h.Ok) : (Hw.hitchCtrl h v).Ok := by
  unfold Hw.hitchCtrl
  extract_lets +onlyGivenNames v1
  refine Hw.Ok.ite (fun _ => ?_) (fun _ => ?_)
  · exact Hw.sf_ok hk
  · extract_lets +onlyGivenNames v2
    extract_lets +onlyGivenNames h3
    refine Hw.Ok.cut (x := h3) ?_ fun th3 => ?_
    · subst h3
      exact Hw.writeFields_ok hk
    clear_value h3
    extract_lets +onlyGivenNames v4 v5
    extract_lets +onlyGivenNames h6
    refine Hw.Ok.cut (x := h6) ?_ fun th6 => ?_
    · subst h6
      exact Hw.Ok.touches th3 set_hitch_touches
    clear_value h6
    exact Hw.settleSchedule_ok (Hw.showPend_ok th6)

theorem Hw.hitchBase_ok {h : Hw} {v : Nat} (hk : h.Ok) : (Hw.hitchBase h v).Ok := by
  unfold Hw.hitchBase
  extract_lets +onlyGivenNames h1
  refine Hw.Ok.cut (x := h1) ?_ fun th1 => ?_
  · subst h1
    exact Hw.writeFields_ok hk
  clear_value h1
  extract_lets +onlyGivenNames v2
  extract_lets +onlyGivenNames h3
  refine Hw.Ok.cut (x := h3) ?_ fun th3 => ?_
  · subst h3
    exact Hw.Ok.touches th1 set_hitch_touches
  clear_value h3
  exact Hw.settleSchedule_ok (Hw.showPend_ok th3)

theorem Hw.hitchAdj_ok {h : Hw} {v : Nat} (hk : h.Ok) : (Hw.hitchAdj h v).Ok := by
  unfold Hw.hitchAdj
  extract_lets +onlyGivenNames v1 v2 v3
  refine Hw.Ok.ite (fun _ => ?_) (fun _ => ?_)
  · exact Hw.sf_ok hk
  · exact Hw.Ok.touches hk set_hitch_touches

theorem Hw.instantDue_ok {h : Hw} (hk : h.Ok) : (Hw.instantDue h).Ok := by
  unfold Hw.instantDue
  extract_lets +onlyGivenNames v1 v2
  refine Hw.Ok.ite (fun _ => ?_) (fun _ => ?_)
  · exact hk
  · refine Hw.Ok.ite (fun _ => ?_) (fun _ => ?_)
    · exact Hw.Ok.touches hk set_hitch_touches
    · refine Hw.Ok.ite (fun _ => ?_) (fun _ => ?_)
      · exact Hw.sf_ok (Hw.Ok.touches hk set_hitch_touches)
      · extract_lets +onlyGivenNames v3 v4 v5 v6
        extract_lets +onlyGivenNames h7
        refine Hw.Ok.cut (x := h7) ?_ fun th7 => ?_
        · subst h7
          exact Hw.showBase_ok (Hw.Ok.touches hk set_hitch_touches)
        clear_value h7
        split
        · rename_i a8 a9 h10 e11
          refine Hw.Ok.cut (x := h10) (Hw.Ok.snd ?_ e11) fun th10 => ?_
          · exact Hw.jitter_ok th7
          extract_lets +onlyGivenNames v12 v13 v14 v15 v16
          extract_lets +onlyGivenNames h17
          refine Hw.Ok.cut (x := h17) ?_ fun th17 => ?_
          · subst h17
            exact Hw.Ok.touches th10 set_hitch_touches
          clear_value h17
          refine Hw.Ok.ite (fun _ => ?_) (fun _ => ?_)
          · exact Hw.changeover_ok th17
          · exact th17

theorem Hw.anchorExpiry_ok {h : Hw} (hk : h.Ok) : (Hw.anchorExpiry h).Ok := hk.touches Hw.anchorExpiry_touches

theorem Hw.writeRecord_ok {h : Hw} {e : Epoch} {s : Nat} (hk : h.Ok) : (Hw.writeRecord h e s).2.Ok := by
  unfold Hw.writeRecord
  extract_lets +onlyGivenNames v1 v2 v3 v4 v5 v6 v7 v8 v9 v10 v11
  extract_lets +onlyGivenNames h12
  refine Hw.Ok.cut (x := h12) ?_ fun th12 => ?_
  · subst h12
    exact Hw.fabWrites_ok hk
  clear_value h12
  extract_lets +onlyGivenNames h13
  refine Hw.Ok.cut (x := h13) ?_ fun th13 => ?_
  · subst h13
    refine Hw.Ok.ite (fun _ => ?_) (fun _ => ?_)
    · exact th12
    · exact Hw.setStrand_ok th12
  clear_value h13
  exact Hw.Ok.pair (th13)

theorem Hw.writeRecords_ok {h : Hw} {e : Epoch} {b1 : List Nat} (hk : h.Ok) : (Hw.writeRecords h e b1).2.Ok := by
  induction b1 generalizing h e hk with
  | nil =>
    unfold Hw.writeRecords
    exact Hw.Ok.pair (hk)
  | cons y ys ih =>
    unfold Hw.writeRecords
    split
    · rename_i a1 a2 h3 e4
      refine Hw.Ok.cut (x := h3) (Hw.Ok.snd ?_ e4) fun th3 => ?_
      · exact Hw.writeRecord_ok hk
      split
      · rename_i a5 a6 h7 e8
        refine Hw.Ok.cut (x := h7) (Hw.Ok.snd ?_ e8) fun th7 => ?_
        · exact ih th3
        exact Hw.Ok.pair (th7)

theorem Hw.dmaError_ok {h : Hw} {c : Fin 8} {a : Nat} {write : Bool} {cls : Nat} {left : Nat} (hk : h.Ok) : (Hw.dmaError h c a write cls left).Ok := by
  unfold Hw.dmaError
  extract_lets +onlyGivenNames h1
  refine Hw.Ok.cut (x := h1) ?_ fun th1 => ?_
  · subst h1
    refine Hw.Ok.ite (fun _ => ?_) (fun _ => ?_)
    · exact Hw.mpuRecord_ok hk
    · exact hk
  clear_value h1
  extract_lets +onlyGivenNames h2
  refine Hw.Ok.cut (x := h2) ?_ fun th2 => ?_
  · subst h2
    refine Hw.Ok.ite (fun _ => ?_) (fun _ => ?_)
    · exact Hw.sf_ok (Hw.bump_ok th1)
    · exact th1
  clear_value h2
  exact Hw.report_ok th2

theorem Hw.copyBeats_ok {h : Hw} {src : Nat} {dst : Nat} {b1 : Nat} (hk : h.Ok) : (Hw.copyBeats h src dst b1).2.Ok := by
  induction b1 generalizing h src dst hk with
  | zero =>
    unfold Hw.copyBeats
    exact Hw.Ok.pair (hk)
  | succ k ih =>
    unfold Hw.copyBeats
    split
    · exact Hw.Ok.pair (hk)
    · split
      · exact Hw.Ok.pair (hk)
      · extract_lets +onlyGivenNames h11
        refine Hw.Ok.cut (x := h11) ?_ fun th11 => ?_
        · subst h11
          exact Hw.correct_ok hk
        clear_value h11
        exact ih (Hw.memStore_ok th11)

theorem Hw.copyAbandon_ok {h : Hw} {seq : Nat} (hk : h.Ok) : (Hw.copyAbandon h seq).Ok := by
  unfold Hw.copyAbandon
  extract_lets +onlyGivenNames v1
  refine Hw.Ok.ite (fun _ => ?_) (fun _ => ?_)
  · split
    · rename_i a2 a3 h4 e5
      refine Hw.Ok.cut (x := h4) (Hw.Ok.snd ?_ e5) fun th4 => ?_
      · exact Hw.fresh_ok hk
      extract_lets +onlyGivenNames h6
      refine Hw.Ok.cut (x := h6) ?_ fun th6 => ?_
      · subst h6
        exact Hw.copyBeats_ok th4
      clear_value h6
      extract_lets +onlyGivenNames v7
      extract_lets +onlyGivenNames h8
      refine Hw.Ok.cut (x := h8) ?_ fun th8 => ?_
      · subst h8
        exact Hw.Ok.touches th6 set_hitch_touches
      clear_value h8
      extract_lets +onlyGivenNames h9
      refine Hw.Ok.cut (x := h9) ?_ fun th9 => ?_
      · subst h9
        exact Hw.bump_ok (Hw.sf_ok th8)
      clear_value h9
      refine Hw.Ok.ite (fun _ => ?_) (fun _ => ?_)
      · exact Hw.report_ok th9
      · exact th9
  · exact hk

theorem Hw.copyStart_ok {h : Hw} {seq : Nat} (hk : h.Ok) : (Hw.copyStart h seq).Ok := by
  unfold Hw.copyStart
  refine Hw.Ok.ite (fun _ => ?_) (fun _ => ?_)
  · exact hk
  · refine Hw.Ok.ite (fun _ => ?_) (fun _ => ?_)
    · exact Hw.sf_ok hk
    · exact Hw.Ok.touches hk set_hitch_touches

theorem Hw.releaseEpoch_ok {h : Hw} {e : Epoch} (hk : h.Ok) : (Hw.releaseEpoch h e).Ok := by
  unfold Hw.releaseEpoch
  generalize upTo 512 = ns512
  extract_lets +onlyGivenNames h1
  refine Hw.Ok.cut (x := h1) ?_ fun th1 => ?_
  · subst h1
    exact Hw.copyAbandon_ok hk
  clear_value h1
  split
  · rename_i a2 a3 h4 e5
    refine Hw.Ok.cut (x := h4) (Hw.Ok.snd ?_ e5) fun th4 => ?_
    · exact Hw.writeRecords_ok th1
    extract_lets +onlyGivenNames h6
    refine Hw.Ok.cut (x := h6) ?_ fun th6 => ?_
    · subst h6
      exact Hw.sf_ok (Hw.bumpBy_ok th4)
    clear_value h6
    extract_lets +onlyGivenNames h7
    refine Hw.Ok.cut (x := h7) ?_ fun th7 => ?_
    · subst h7
      refine Hw.Ok.ite (fun _ => ?_) (fun _ => ?_)
      · exact th4
      · refine Hw.Ok.ite (fun _ => ?_) (fun _ => ?_)
        · exact Hw.report_ok th6
        · exact th6
    clear_value h7
    extract_lets +onlyGivenNames h8
    refine Hw.Ok.cut (x := h8) ?_ fun th8 => ?_
    · subst h8
      exact Hw.sf_ok (Hw.sf_ok th7)
    clear_value h8
    extract_lets +onlyGivenNames h9
    refine Hw.Ok.cut (x := h9) ?_ fun th9 => ?_
    · subst h9
      exact Hw.sf_ok (Hw.sf_ok th8)
    clear_value h9
    extract_lets +onlyGivenNames h10
    refine Hw.Ok.cut (x := h10) ?_ fun th10 => ?_
    · subst h10
      exact Hw.sf_ok (Hw.sf_ok (Hw.sf_ok th9))
    clear_value h10
    exact Hw.copyStart_ok th10

theorem Hw.hitchRelease_ok {h : Hw} (hk : h.Ok) : (Hw.hitchRelease h).2.Ok := by
  unfold Hw.hitchRelease
  split
  · exact Hw.Ok.pair (hk)
  · refine Hw.Ok.ite2 (fun _ => ?_) (fun _ => ?_)
    · exact Hw.Ok.pair (Hw.releaseEpoch_ok (Hw.Ok.touches hk set_hitch_touches))
    · exact Hw.Ok.pair (hk)

theorem Hw.hitchForget_ok {h : Hw} {n : Nat} (hk : h.Ok) : (Hw.hitchForget h n).Ok := hk.touches Hw.hitchForget_touches

theorem Hw.hitchRestart_ok {h : Hw} (hk : h.Ok) : (Hw.hitchRestart h).Ok := hk.touches Hw.hitchRestart_touches

theorem Hw.latchRef_ok {h : Hw} {n : Nat} (hk : h.Ok) : (Hw.latchRef h n).Ok := by
  unfold Hw.latchRef
  extract_lets +onlyGivenNames v1 v2
  split
  · rename_i a3 a4 h5 e6
    refine Hw.Ok.cut (x := h5) (Hw.Ok.snd ?_ e6) fun th5 => ?_
    · refine Hw.Ok.ite2 (fun _ => ?_) (fun _ => ?_)
      · exact Hw.Ok.pair (hk)
      · refine Hw.Ok.ite2 (fun _ => ?_) (fun _ => ?_)
        · split
          · rename_i a7 a8 h9 e10
            refine Hw.Ok.cut (x := h9) (Hw.Ok.snd ?_ e10) fun th9 => ?_
            · exact Hw.jitter_ok hk
            exact Hw.Ok.pair (th9)
        · exact Hw.Ok.pair (hk)
    extract_lets +onlyGivenNames v11
    extract_lets +onlyGivenNames h12
    refine Hw.Ok.cut (x := h12) ?_ fun th12 => ?_
    · subst h12
      exact Hw.sf_ok th5
    clear_value h12
    exact Hw.Ok.touches th12 set_hitch_touches

end Sys2Proof.Machine
end

