-- ==== Sys2Proof/Laws/OkTimePulse.lean ====
section
/-! SUPPORT. Every operation of Machine/TimePulse.lean keeps the invariant of the part. -/

set_option Elab.async false

namespace Sys2Proof.Machine

theorem Hw.setEdge_ok {h : Hw} {e : Nat} (hk : h.Ok) : (Hw.setEdge h e).Ok := by
  unfold Hw.setEdge
  extract_lets +onlyGivenNames v1 v2
  extract_lets +onlyGivenNames h3
  refine Hw.Ok.cut (x := h3) ?_ fun th3 => ?_
  · subst h3
    refine set_tp_ok ?_ ?_
    · exact hk
    · exact hk.marks
  clear_value h3
  exact Hw.sf_ok (Hw.sf_ok (Hw.sf_ok th3))

theorem Hw.setSlew_ok {h : Hw} {q : Int} (hk : h.Ok) : (Hw.setSlew h q).Ok := by
  unfold Hw.setSlew
  exact Hw.sf_ok (Hw.sf_ok hk)

theorem Hw.edgeAdvance_ok {h : Hw} (hk : h.Ok) : (Hw.edgeAdvance h).Ok := by
  unfold Hw.edgeAdvance
  extract_lets +onlyGivenNames v1 v2 v3
  extract_lets +onlyGivenNames h4
  refine Hw.Ok.cut (x := h4) ?_ fun th4 => ?_
  · subst h4
    exact Hw.setSlew_ok hk
  clear_value h4
  extract_lets +onlyGivenNames h5
  refine Hw.Ok.cut (x := h5) ?_ fun th5 => ?_
  · subst h5
    exact Hw.setEdge_ok th4
  clear_value h5
  exact Hw.count_ok th5

theorem Hw.stepApply_ok {h : Hw} (hk : h.Ok) : (Hw.stepApply h).Ok := by
  unfold Hw.stepApply
  extract_lets +onlyGivenNames h1
  refine Hw.Ok.cut (x := h1) ?_ fun th1 => ?_
  · subst h1
    exact Hw.sf_ok hk
  clear_value h1
  extract_lets +onlyGivenNames v2 v3 v4
  refine Hw.Ok.ite (fun _ => ?_) (fun _ => ?_)
  · extract_lets +onlyGivenNames v5
    extract_lets +onlyGivenNames h6
    refine Hw.Ok.cut (x := h6) ?_ fun th6 => ?_
    · subst h6
      exact Hw.bump_ok (Hw.bumpBy_ok th1)
    clear_value h6
    extract_lets +onlyGivenNames v7
    extract_lets +onlyGivenNames h8
    refine Hw.Ok.cut (x := h8) ?_ fun th8 => ?_
    · subst h8
      refine set_tp_ok ?_ ?_
      · exact th6
      · exact th6.marks
    clear_value h8
    exact Hw.sf_ok (Hw.setEdge_ok (Hw.setSlew_ok (Hw.sf_ok th8)))
  · exact Hw.edgeAdvance_ok (Hw.sf_ok th1)

theorem Hw.edgeUpdate_ok {h : Hw} (hk : h.Ok) : (Hw.edgeUpdate h).Ok := by
  unfold Hw.edgeUpdate
  extract_lets +onlyGivenNames h1
  refine Hw.Ok.cut (x := h1) ?_ fun th1 => ?_
  · subst h1
    exact Hw.reach_ok hk
  clear_value h1
  extract_lets +onlyGivenNames v2
  extract_lets +onlyGivenNames h3
  refine Hw.Ok.cut (x := h3) ?_ fun th3 => ?_
  · subst h3
    refine Hw.Ok.ite (fun _ => ?_) (fun _ => ?_)
    · refine set_tp_ok ?_ ?_
      · exact th1
      · exact th1.marks
    · exact th1
  clear_value h3
  refine Hw.Ok.ite (fun _ => ?_) (fun _ => ?_)
  · exact Hw.stepApply_ok th3
  · exact Hw.edgeAdvance_ok th3

theorem Hw.inactiveEdge_ok {h : Hw} (hk : h.Ok) : (Hw.inactiveEdge h).Ok := by
  unfold Hw.inactiveEdge
  split
  · exact hk
  · extract_lets +onlyGivenNames h6
    refine Hw.Ok.cut (x := h6) ?_ fun th6 => ?_
    · subst h6
      exact Hw.reach_ok hk
    clear_value h6
    refine set_tp_ok ?_ ?_
    · exact th6
    · exact th6.marks

theorem Hw.writePeriod_ok {h : Hw} {v : Nat} (hk : h.Ok) : (Hw.writePeriod h v).Ok := by
  unfold Hw.writePeriod
  refine Hw.Ok.ite (fun _ => ?_) (fun _ => ?_)
  · exact Hw.writeFields_ok hk
  · exact Hw.sf_ok hk

theorem Hw.writeSlew_ok {h : Hw} {v : Nat} (hk : h.Ok) : (Hw.writeSlew h v).Ok := by
  unfold Hw.writeSlew
  exact Hw.setSlew_ok hk

theorem Hw.enterHoldover_ok {h : Hw} (hk : h.Ok) : (Hw.enterHoldover h).Ok := by
  unfold Hw.enterHoldover
  extract_lets +onlyGivenNames v1
  extract_lets +onlyGivenNames h2
  refine Hw.Ok.cut (x := h2) ?_ fun th2 => ?_
  · subst h2
    refine set_tp_ok ?_ ?_
    · exact hk
    · exact hk.marks
  clear_value h2
  exact Hw.sf_ok th2

theorem Hw.tpDisc_ok {h : Hw} {v : Nat} (hk : h.Ok) : (Hw.tpDisc h v).Ok := by
  unfold Hw.tpDisc
  extract_lets +onlyGivenNames v1
  extract_lets +onlyGivenNames h2
  refine Hw.Ok.cut (x := h2) ?_ fun th2 => ?_
  · subst h2
    refine set_tp_ok ?_ ?_
    · exact hk
    · exact hk.marks
  clear_value h2
  exact Hw.sf_ok (Hw.sf_ok th2)

theorem Hw.tpHold_ok {h : Hw} (hk : h.Ok) : (Hw.tpHold h).Ok := by
  unfold Hw.tpHold
  refine Hw.Ok.ite (fun _ => ?_) (fun _ => ?_)
  · exact Hw.enterHoldover_ok hk
  · exact hk

theorem Hw.holdTimeout_ok {h : Hw} (hk : h.Ok) : (Hw.holdTimeout h).Ok := by
  unfold Hw.holdTimeout
  refine Hw.Ok.ite (fun _ => ?_) (fun _ => ?_)
  · exact Hw.enterHoldover_ok (Hw.reach_ok hk)
  · exact hk

theorem Hw.writeLim_ok {h : Hw} {v : Nat} (hk : h.Ok) : (Hw.writeLim h v).Ok := by
  unfold Hw.writeLim
  extract_lets +onlyGivenNames h1
  refine Hw.Ok.cut (x := h1) ?_ fun th1 => ?_
  · subst h1
    exact Hw.writeFields_ok hk
  clear_value h1
  refine Hw.Ok.ite (fun _ => ?_) (fun _ => ?_)
  · exact Hw.enterHoldover_ok th1
  · exact th1

theorem Hw.holdoverTick_ok {h : Hw} (ok : h.Ok) : (Hw.holdoverTick h).Ok := by
  unfold Hw.holdoverTick
  generalize h.tp.holdFrom + (h.tp.ticks + 1) * secondTicks = k
  refine Hw.Ok.ite (fun _ => ok) (fun _ => ?_)
  extract_lets h1 v2 v3 h4 h5
  have t1 : h1.Ok := Hw.reach_ok ok
  have t4 : h4.Ok := set_tp_ok t1 t1.marks
  have t5 : h5.Ok := Hw.bumpBy_ok t4
  exact Hw.Ok.ite (fun _ => Hw.sf_ok t5) (fun _ => t5)

theorem Hw.pulseFix_ok {h : Hw} {f : PulseFix} {thr : Nat} {antDly : Int} {outDly : Int} (hk : h.Ok) : (Hw.pulseFix h f thr antDly outDly).Ok := by
  unfold Hw.pulseFix
  extract_lets +onlyGivenNames v1
  refine Hw.Ok.ite (fun _ => ?_) (fun _ => ?_)
  · exact Hw.setSlew_ok (Hw.tpDisc_ok hk)
  · extract_lets +onlyGivenNames h2
    refine Hw.Ok.cut (x := h2) ?_ fun th2 => ?_
    · subst h2
      exact Hw.sf_ok (Hw.sf_ok (Hw.sf_ok hk))
    clear_value h2
    exact Hw.tpDisc_ok (Hw.sf_ok (Hw.sf_ok th2))

theorem Hw.readTcnt_ok {h : Hw} (hk : h.Ok) : (Hw.readTcnt h).Ok := by
  unfold Hw.readTcnt
  extract_lets +onlyGivenNames h1
  refine Hw.Ok.cut (x := h1) ?_ fun th1 => ?_
  · subst h1
    exact Hw.sf_ok (Hw.sf_ok hk)
  clear_value h1
  exact Hw.Ok.touches th1 set_resp_touches

theorem Hw.dropMark_ok {h : Hw} {f : Fld} (hk : h.Ok) : (Hw.dropMark h f).Ok := by
  unfold Hw.dropMark
  exact Hw.bump_ok (Hw.sf_ok hk)

theorem Hw.markEdge_ok {h : Hw} {rise : Bool} {held : Nat} (hk : h.Ok) : (Hw.markEdge h rise held).Ok := by
  unfold Hw.markEdge
  refine Hw.Ok.ite (fun _ => ?_) (fun _ => ?_)
  · extract_lets +onlyGivenNames v1 v2
    refine Hw.Ok.ite (fun _ => ?_) (fun _ => ?_)
    · exact Hw.dropMark_ok hk
    · refine Hw.Ok.ite (fun _ => ?_) (fun _ => ?_)
      · exact Hw.dropMark_ok hk
      · refine set_tp_ok ?_ ?_
        · exact hk
        · (have k := hk.elog; simp_all +zetaDelta <;> omega)
  · exact hk

theorem Hw.readMark_ok {h : Hw} (hk : h.Ok) : (Hw.readMark h).Ok := by
  unfold Hw.readMark
  split
  · extract_lets +onlyGivenNames h3
    refine Hw.Ok.cut (x := h3) ?_ fun th3 => ?_
    · subst h3
      exact Hw.sf_ok hk
    clear_value h3
    exact Hw.Ok.touches th3 set_resp_touches
  · extract_lets +onlyGivenNames v10
    extract_lets +onlyGivenNames h11
    refine Hw.Ok.cut (x := h11) ?_ fun th11 => ?_
    · subst h11
      refine set_tp_ok ?_ ?_
      · exact hk
      · (have k := hk.marks; simp_all +zetaDelta <;> omega)
    clear_value h11
    extract_lets +onlyGivenNames h12
    refine Hw.Ok.cut (x := h12) ?_ fun th12 => ?_
    · subst h12
      exact Hw.sf_ok (Hw.sf_ok th11)
    clear_value h12
    extract_lets +onlyGivenNames h13
    refine Hw.Ok.cut (x := h13) ?_ fun th13 => ?_
    · subst h13
      exact Hw.sf_ok (Hw.sf_ok (Hw.sf_ok th12))
    clear_value h13
    exact Hw.Ok.touches th13 set_resp_touches

end Sys2Proof.Machine
end

