-- ==== Sys2Proof/Laws/OkCopy.lean ====
section
/-! SUPPORT. Every operation of Machine/Copy.lean keeps the invariant of the part. -/

set_option Elab.async false

namespace Sys2Proof.Machine

theorem Hw.copyEnd_ok {seq : Nat} {x : Option (Nat × Bool × Nat × Nat) × Hw} (ok : x.2.Ok) : (Hw.copyEnd seq x).Ok := by
  obtain ⟨o, g⟩ := x
  cases o with
  | none => exact Hw.sf_ok (h := g) ok
  | some p => exact Hw.dmaError_ok (Hw.bump_ok (Hw.sf_ok (h := g) ok))

theorem Hw.copyDone_ok {h : Hw} (ok : h.Ok) : (Hw.copyDone h).Ok := by
  unfold Hw.copyDone
  generalize 4096 = n
  split
  · exact ok
  · refine Hw.Ok.ite (fun _ => ok) (fun _ => ?_)
    exact Hw.copyEnd_ok (Hw.copyBeats_ok (Hw.Ok.touches ok set_hitch_touches))

end Sys2Proof.Machine
end

