-- ==== Sys2Proof/Laws/OkUnits.lean ====
section
/-! SUPPORT. Every operation of Machine/Units.lean keeps the invariant of the part. -/

set_option Elab.async false

namespace Sys2Proof.Machine

theorem Hw.mramSet_ok {h : Hw} {a : Nat} {bs : List Nat} (hk : h.Ok) : (Hw.mramSet h a bs).Ok := by
  unfold Hw.mramSet
  extract_lets +onlyGivenNames h1
  refine Hw.Ok.cut (x := h1) ?_ fun th1 => ?_
  · subst h1
    exact Hw.storeBytes_ok hk
  clear_value h1
  refine Hw.Ok.forEach ?_ fun x2 h3 th3 => ?_
  · exact th1
  · exact Hw.setEcc_ok th3

theorem Hw.mramDone_ok {h : Hw} (hk : h.Ok) : (Hw.mramDone h).Ok := by
  unfold Hw.mramDone
  split
  · exact hk
  · extract_lets +onlyGivenNames h7
    refine Hw.Ok.cut (x := h7) ?_ fun th7 => ?_
    · subst h7
      exact Hw.setEcc_ok (Hw.store_ok hk)
    clear_value h7
    split
    · exact Hw.Ok.touches th7 set_memu_touches
    · exact Hw.Ok.touches th7 set_memu_touches

theorem Hw.setUnit_ok {h : Hw} {u : Nat} {st : Nat} (hk : h.Ok) : (Hw.setUnit h u st).Ok := by
  unfold Hw.setUnit
  exact Hw.sf_ok (Hw.sf_ok hk)

theorem Hw.eccClear_ok {h : Hw} {a n : Nat} (ok : h.Ok) : (Hw.eccClear h a n).Ok := set_ecc_ok ok (Store.wf_keep _ _ ok.ecc)

theorem Hw.fillUnit_ok {h : Hw} {u : Nat} (hk : h.Ok) : (Hw.fillUnit h u).Ok := by
  unfold Hw.fillUnit
  exact Hw.eccClear_ok (Hw.zero_ok hk)

theorem Hw.unitRunOff_ok {h : Hw} {u : Nat} (hk : h.Ok) : (Hw.unitRunOff h u).Ok := by
  unfold Hw.unitRunOff
  refine Hw.Ok.ite (fun _ => ?_) (fun _ => ?_)
  · exact Hw.sf_ok hk
  · extract_lets +onlyGivenNames h1
    refine Hw.Ok.cut (x := h1) ?_ fun th1 => ?_
    · subst h1
      exact Hw.sf_ok hk
    clear_value h1
    refine Hw.Ok.ite (fun _ => ?_) (fun _ => ?_)
    · exact Hw.setUnit_ok (Hw.fillUnit_ok th1)
    · exact th1

theorem Hw.unitRunOn_ok {h : Hw} {u : Nat} (hk : h.Ok) : (Hw.unitRunOn h u).Ok := by
  unfold Hw.unitRunOn
  extract_lets +onlyGivenNames h1
  refine Hw.Ok.cut (x := h1) ?_ fun th1 => ?_
  · subst h1
    exact Hw.sf_ok hk
  clear_value h1
  refine Hw.Ok.ite (fun _ => ?_) (fun _ => ?_)
  · exact Hw.setUnit_ok th1
  · exact th1

theorem Hw.unitFilled_ok {h : Hw} {u : Nat} (hk : h.Ok) : (Hw.unitFilled h u).Ok := by
  unfold Hw.unitFilled
  refine Hw.Ok.ite (fun _ => ?_) (fun _ => ?_)
  · exact Hw.setUnit_ok (Hw.fillUnit_ok hk)
  · exact hk

theorem Hw.unitCtl_ok {h : Hw} {u : Nat} {v : Nat} (hk : h.Ok) : (Hw.unitCtl h u v).Ok := by
  unfold Hw.unitCtl
  extract_lets +onlyGivenNames h1
  refine Hw.Ok.cut (x := h1) ?_ fun th1 => ?_
  · subst h1
    exact Hw.sf_ok hk
  clear_value h1
  extract_lets +onlyGivenNames h2
  refine Hw.Ok.cut (x := h2) ?_ fun th2 => ?_
  · subst h2
    refine Hw.Ok.ite (fun _ => ?_) (fun _ => ?_)
    · exact Hw.sf_ok th1
    · exact th1
  clear_value h2
  refine Hw.Ok.ite (fun _ => ?_) (fun _ => ?_)
  · exact Hw.unitRunOff_ok th2
  · refine Hw.Ok.ite (fun _ => ?_) (fun _ => ?_)
    · exact Hw.unitRunOn_ok th2
    · exact th2

theorem Hw.offlineEffect_ok {h : Hw} {u : Nat} (hk : h.Ok) : (Hw.offlineEffect h u).Ok := hk.touches Hw.offlineEffect_touches

theorem Hw.retireBank_ok {h : Hw} {u : Nat} {b : Nat} (hk : h.Ok) : (Hw.retireBank h u b).Ok := by
  unfold Hw.retireBank
  extract_lets +onlyGivenNames v1
  exact Hw.offlineEffect_ok (Hw.setUnit_ok (Hw.sf_ok hk))

theorem Hw.markFailing_ok {h : Hw} {u : Nat} {b : Nat} (hk : h.Ok) : (Hw.markFailing h u b).Ok := by
  unfold Hw.markFailing
  extract_lets +onlyGivenNames v1
  extract_lets +onlyGivenNames h2
  refine Hw.Ok.cut (x := h2) ?_ fun th2 => ?_
  · subst h2
    exact Hw.Ok.touches hk set_kept_touches
  clear_value h2
  exact Hw.report_ok (Hw.sf_ok th2)

theorem Hw.mapRow_ok {h : Hw} {m : RowMap} (hk : h.Ok) : (Hw.mapRow h m).Ok := by
  unfold Hw.mapRow
  extract_lets +onlyGivenNames v1
  extract_lets +onlyGivenNames h2
  refine Hw.Ok.cut (x := h2) ?_ fun th2 => ?_
  · subst h2
    exact Hw.Ok.touches hk set_memu_touches
  clear_value h2
  extract_lets +onlyGivenNames v3
  extract_lets +onlyGivenNames h4
  refine Hw.Ok.cut (x := h4) ?_ fun th4 => ?_
  · subst h4
    refine Hw.Ok.ite (fun _ => ?_) (fun _ => ?_)
    · exact Hw.Ok.touches th2 set_kept_touches
    · exact th2
  clear_value h4
  exact Hw.sf_ok th4

theorem Hw.copyRow_ok {h : Hw} {u : Nat} {b : Nat} {r : Nat} (hk : h.Ok) : (Hw.copyRow h u b r).Ok := by
  unfold Hw.copyRow
  generalize upTo 32 = ns32
  refine Hw.Ok.forEach ?_ fun x1 h2 th2 => ?_
  · exact hk
  · extract_lets +onlyGivenNames v3
    refine Hw.Ok.ite (fun _ => ?_) (fun _ => ?_)
    · exact Hw.setEcc_ok th2
    · exact Hw.setEcc_ok th2

theorem Hw.noSpare_ok {h : Hw} {u : Nat} {b : Nat} {live : Bool} (hk : h.Ok) : (Hw.noSpare h u b live).Ok := by
  unfold Hw.noSpare
  refine Hw.Ok.ite (fun _ => ?_) (fun _ => ?_)
  · exact Hw.retireBank_ok hk
  · exact Hw.markFailing_ok hk

theorem Hw.handleRow_ok {h : Hw} {u : Nat} {keep : Bool} {bad : List (Nat × Nat)} {br : Nat × Nat} (hk : h.Ok) : (Hw.handleRow h u keep bad br).Ok := by
  unfold Hw.handleRow
  split
  · extract_lets +onlyGivenNames h4
    refine Hw.Ok.cut (x := h4) ?_ fun th4 => ?_
    · subst h4
      refine Hw.Ok.ite (fun _ => ?_) (fun _ => ?_)
      · exact Hw.copyRow_ok hk
      · exact hk
    clear_value h4
    exact Hw.sf_ok (Hw.mapRow_ok th4)
  · exact Hw.sf_ok (Hw.noSpare_ok hk)

theorem Hw.marchWrite_ok {h : Hw} {v : Nat} (hk : h.Ok) : (Hw.marchWrite h v).Ok := by
  unfold Hw.marchWrite
  extract_lets +onlyGivenNames h1
  refine Hw.Ok.cut (x := h1) ?_ fun th1 => ?_
  · subst h1
    exact Hw.writeFields_ok hk
  clear_value h1
  refine Hw.Ok.ite (fun _ => ?_) (fun _ => ?_)
  · exact th1
  · extract_lets +onlyGivenNames v2 v3
    refine Hw.Ok.ite (fun _ => ?_) (fun _ => ?_)
    · exact Hw.sf_ok th1
    · extract_lets +onlyGivenNames v4
      extract_lets +onlyGivenNames h5
      refine Hw.Ok.cut (x := h5) ?_ fun th5 => ?_
      · subst h5
        exact Hw.Ok.touches th1 set_memu_touches
      clear_value h5
      exact Hw.sf_ok (Hw.sf_ok th5)

theorem Hw.marchDone_ok {h : Hw} {rows : List (Nat × Nat)} {bad : List (Nat × Nat)} (hk : h.Ok) : (Hw.marchDone h rows bad).Ok := by
  unfold Hw.marchDone
  split
  · exact hk
  · extract_lets +onlyGivenNames v7 v8
    extract_lets +onlyGivenNames h9
    refine Hw.Ok.cut (x := h9) ?_ fun th9 => ?_
    · subst h9
      exact Hw.Ok.touches hk set_memu_touches
    clear_value h9
    extract_lets +onlyGivenNames h10
    refine Hw.Ok.cut (x := h10) ?_ fun th10 => ?_
    · subst h10
      exact Hw.sf_ok (Hw.sf_ok (Hw.sf_ok th9))
    clear_value h10
    extract_lets +onlyGivenNames h11
    refine Hw.Ok.cut (x := h11) ?_ fun th11 => ?_
    · subst h11
      exact Hw.setUnit_ok th10
    clear_value h11
    extract_lets +onlyGivenNames h12
    refine Hw.Ok.cut (x := h12) ?_ fun th12 => ?_
    · subst h12
      refine Hw.Ok.ite (fun _ => ?_) (fun _ => ?_)
      · refine Hw.Ok.forEach ?_ fun x13 h14 th14 => ?_
        · exact th11
        · refine Hw.Ok.ite (fun _ => ?_) (fun _ => ?_)
          · exact Hw.setEcc_ok th14
          · exact th14
      · exact Hw.fillUnit_ok th11
    clear_value h12
    extract_lets +onlyGivenNames h15
    refine Hw.Ok.cut (x := h15) ?_ fun th15 => ?_
    · subst h15
      refine Hw.Ok.forEach ?_ fun x16 h17 th17 => ?_
      · exact th12
      · exact Hw.handleRow_ok th17
    clear_value h15
    extract_lets +onlyGivenNames h18
    refine Hw.Ok.cut (x := h18) ?_ fun th18 => ?_
    · subst h18
      split
      · exact th15
      · exact Hw.sf_ok (Hw.sf_ok (Hw.sf_ok th15))
    clear_value h18
    exact Hw.sf_ok (Hw.sf_ok (Hw.sf_ok th18))

theorem Hw.repairStart_ok {h : Hw} {a : Nat} (hk : h.Ok) : (Hw.repairStart h a).Ok := by
  unfold Hw.repairStart
  split
  · exact hk
  · refine Hw.Ok.ite (fun _ => ?_) (fun _ => ?_)
    · exact hk
    · split
      · split
        · exact Hw.Ok.touches hk set_memu_touches
        · refine Hw.Ok.ite (fun _ => ?_) (fun _ => ?_)
          · exact hk
          · exact Hw.noSpare_ok hk

theorem Hw.spareTested_ok {h : Hw} {r : Repair} {spareOk : Bool} (hk : h.Ok) : (Hw.spareTested h r spareOk).Ok := by
  unfold Hw.spareTested
  extract_lets +onlyGivenNames v1 v2
  refine Hw.Ok.ite (fun _ => ?_) (fun _ => ?_)
  · exact Hw.Ok.touches hk set_memu_touches
  · split
    · exact Hw.Ok.touches hk set_memu_touches
    · exact Hw.noSpare_ok (Hw.Ok.touches hk set_memu_touches)

theorem Hw.repairDone_ok {h : Hw} {spareOk : Bool} (hk : h.Ok) : (Hw.repairDone h spareOk).Ok := by
  unfold Hw.repairDone
  split
  · exact hk
  · extract_lets +onlyGivenNames v6
    refine Hw.Ok.ite (fun _ => ?_) (fun _ => ?_)
    · extract_lets +onlyGivenNames v7
      extract_lets +onlyGivenNames h8
      refine Hw.Ok.cut (x := h8) ?_ fun th8 => ?_
      · subst h8
        exact Hw.Ok.touches hk set_memu_touches
      clear_value h8
      exact Hw.report_ok (Hw.mapRow_ok (Hw.copyRow_ok th8))
    · exact Hw.spareTested_ok hk

theorem Hw.wipeRequest_ok {h : Hw} {cause : Nat} {tev : Nat} (hk : h.Ok) : (Hw.wipeRequest h cause tev).Ok := by
  unfold Hw.wipeRequest
  extract_lets +onlyGivenNames v1
  extract_lets +onlyGivenNames h2
  refine Hw.Ok.cut (x := h2) ?_ fun th2 => ?_
  · subst h2
    exact Hw.Ok.touches hk set_pwr_touches
  clear_value h2
  split
  · refine Hw.Ok.ite (fun _ => ?_) (fun _ => ?_)
    · extract_lets +onlyGivenNames h6
      refine Hw.Ok.cut (x := h6) ?_ fun th6 => ?_
      · subst h6
        exact Hw.sf_ok th2
      clear_value h6
      refine Hw.Ok.ite (fun _ => ?_) (fun _ => ?_)
      · exact Hw.sf_ok th6
      · exact th6
    · exact th2
  · exact Hw.Ok.touches th2 set_memu_touches

theorem Hw.zeroThimble_ok {h : Hw} (hk : h.Ok) : (Hw.zeroThimble h).Ok := by
  unfold Hw.zeroThimble
  exact Hw.fillUnit_ok (Hw.fillUnit_ok hk)

theorem Hw.slackWipe_ok {h : Hw} {cause : Nat} {tev : Nat} (hk : h.Ok) : (Hw.slackWipe h cause tev).Ok := by
  unfold Hw.slackWipe
  extract_lets +onlyGivenNames h1
  refine Hw.Ok.cut (x := h1) ?_ fun th1 => ?_
  · subst h1
    exact Hw.wipeRequest_ok hk
  clear_value h1
  extract_lets +onlyGivenNames v2
  extract_lets +onlyGivenNames h3
  refine Hw.Ok.cut (x := h3) ?_ fun th3 => ?_
  · subst h3
    exact Hw.Ok.touches th1 set_pwr_touches
  clear_value h3
  exact Hw.setUnit_ok (Hw.setUnit_ok (Hw.zeroThimble_ok th3))

theorem Hw.wipeStart_ok {h : Hw} (hk : h.Ok) : (Hw.wipeStart h).Ok := by
  unfold Hw.wipeStart
  split
  · exact hk
  · refine Hw.Ok.ite (fun _ => ?_) (fun _ => ?_)
    · exact hk
    · extract_lets +onlyGivenNames v6
      extract_lets +onlyGivenNames h7
      refine Hw.Ok.cut (x := h7) ?_ fun th7 => ?_
      · subst h7
        exact Hw.Ok.touches hk set_memu_touches
      clear_value h7
      extract_lets +onlyGivenNames h8
      refine Hw.Ok.cut (x := h8) ?_ fun th8 => ?_
      · subst h8
        exact Hw.sf_ok (Hw.sf_ok th7)
      clear_value h8
      extract_lets +onlyGivenNames h9
      refine Hw.Ok.cut (x := h9) ?_ fun th9 => ?_
      · subst h9
        exact Hw.sf_ok th8
      clear_value h9
      extract_lets +onlyGivenNames h10
      refine Hw.Ok.cut (x := h10) ?_ fun th10 => ?_
      · subst h10
        refine Hw.Ok.ite (fun _ => ?_) (fun _ => ?_)
        · exact Hw.sf_ok th9
        · exact th9
      clear_value h10
      exact Hw.zeroThimble_ok th10

theorem Hw.wipeFinish_ok {h : Hw} (hk : h.Ok) : (Hw.wipeFinish h).Ok := by
  unfold Hw.wipeFinish
  extract_lets +onlyGivenNames v1 v2 v3
  extract_lets +onlyGivenNames h4
  refine Hw.Ok.cut (x := h4) ?_ fun th4 => ?_
  · subst h4
    exact Hw.Ok.touches hk set_pwr_memu_touches
  clear_value h4
  extract_lets +onlyGivenNames h5
  refine Hw.Ok.cut (x := h5) ?_ fun th5 => ?_
  · subst h5
    exact Hw.bump_ok (Hw.sf_ok (Hw.sf_ok th4))
  clear_value h5
  extract_lets +onlyGivenNames h6
  refine Hw.Ok.cut (x := h6) ?_ fun th6 => ?_
  · subst h6
    exact Hw.sf_ok th5
  clear_value h6
  extract_lets +onlyGivenNames v7
  extract_lets +onlyGivenNames h8
  refine Hw.Ok.cut (x := h8) ?_ fun th8 => ?_
  · subst h8
    exact Hw.Ok.touches th6 set_pkey_touches
  clear_value h8
  extract_lets +onlyGivenNames h9
  refine Hw.Ok.cut (x := h9) ?_ fun th9 => ?_
  · subst h9
    refine Hw.Ok.ite (fun _ => ?_) (fun _ => ?_)
    · exact Hw.sf_ok th8
    · exact th8
  clear_value h9
  refine Hw.Ok.ite (fun _ => ?_) (fun _ => ?_)
  · extract_lets +onlyGivenNames h10
    refine Hw.Ok.cut (x := h10) ?_ fun th10 => ?_
    · subst h10
      exact Hw.sf_ok th9
    clear_value h10
    exact Hw.Ok.touches th10 set_kept_touches
  · exact th9

theorem Hw.wipeFail_ok {h : Hw} (hk : h.Ok) : (Hw.wipeFail h).Ok := by
  unfold Hw.wipeFail
  extract_lets +onlyGivenNames v1 v2 v3
  extract_lets +onlyGivenNames h4
  refine Hw.Ok.cut (x := h4) ?_ fun th4 => ?_
  · subst h4
    exact Hw.Ok.touches hk set_pwr_memu_touches
  clear_value h4
  extract_lets +onlyGivenNames h5
  refine Hw.Ok.cut (x := h5) ?_ fun th5 => ?_
  · subst h5
    exact Hw.setUnit_ok (Hw.setUnit_ok (Hw.sf_ok th4))
  clear_value h5
  exact Hw.report_ok (Hw.sf_ok th5)

theorem Hw.wipeWhole_ok {h : Hw} {bad : Nat} (hk : h.Ok) : (Hw.wipeWhole h bad).Ok := by
  unfold Hw.wipeWhole
  extract_lets +onlyGivenNames v1 v2
  extract_lets +onlyGivenNames h3
  refine Hw.Ok.cut (x := h3) ?_ fun th3 => ?_
  · subst h3
    exact Hw.wipeStart_ok (Hw.Ok.touches hk set_memu_touches)
  clear_value h3
  refine Hw.Ok.ite (fun _ => ?_) (fun _ => ?_)
  · exact Hw.wipeFail_ok th3
  · exact Hw.wipeFinish_ok th3

theorem Hw.wipeVerified_ok {h : Hw} {ok : Bool} (hk : h.Ok) : (Hw.wipeVerified h ok).2.Ok := by
  unfold Hw.wipeVerified
  split
  · exact Hw.Ok.pair (hk)
  · refine Hw.Ok.ite2 (fun _ => ?_) (fun _ => ?_)
    · exact Hw.Ok.pair (hk)
    · refine Hw.Ok.ite2 (fun _ => ?_) (fun _ => ?_)
      · extract_lets +onlyGivenNames v6
        extract_lets +onlyGivenNames h7
        refine Hw.Ok.cut (x := h7) ?_ fun th7 => ?_
        · subst h7
          exact Hw.wipeFinish_ok hk
        clear_value h7
        exact Hw.Ok.pair (Hw.Ok.touches th7 set_memu_touches)
      · refine Hw.Ok.ite2 (fun _ => ?_) (fun _ => ?_)
        · exact Hw.Ok.pair (Hw.zeroThimble_ok (Hw.Ok.touches hk set_memu_touches))
        · exact Hw.Ok.pair (Hw.wipeFail_ok hk)

theorem Hw.showLifecycle_ok {h : Hw} (hk : h.Ok) : (Hw.showLifecycle h).Ok := by
  unfold Hw.showLifecycle
  exact Hw.sf_ok (Hw.sf_ok (Hw.sf_ok hk))

theorem Hw.storeKeys_ok {h : Hw} {k : Nat} {b1 : List (List Nat)} (hk : h.Ok) : (Hw.storeKeys h k b1).Ok := by
  induction b1 generalizing h k hk with
  | nil =>
    unfold Hw.storeKeys
    exact hk
  | cons y ys ih =>
    unfold Hw.storeKeys
    exact ih (Hw.eccClear_ok (Hw.storeBytes_ok hk))

theorem Hw.loadKeys_ok {h : Hw} (hk : h.Ok) : (Hw.loadKeys h).Ok := by
  unfold Hw.loadKeys
  generalize upTo 512 = ns512
  extract_lets +onlyGivenNames v1 v2
  exact Hw.sf_ok (Hw.sf_ok (Hw.storeKeys_ok hk))

theorem Hw.keyLoad_ok {h : Hw} (hk : h.Ok) : (Hw.keyLoad h).Ok := by
  unfold Hw.keyLoad
  refine Hw.Ok.ite (fun _ => ?_) (fun _ => ?_)
  · exact Hw.loadKeys_ok hk
  · exact hk

theorem Hw.tamperUnlock_ok {h : Hw} (hk : h.Ok) : (Hw.tamperUnlock h).Ok := by
  unfold Hw.tamperUnlock
  extract_lets +onlyGivenNames h1
  refine Hw.Ok.cut (x := h1) ?_ fun th1 => ?_
  · subst h1
    exact Hw.sf_ok hk
  clear_value h1
  exact Hw.Ok.touches th1 set_kept_touches

theorem Hw.thimbleCmd_ok {h : Hw} {v : Nat} {fleet : Bool} (hk : h.Ok) : (Hw.thimbleCmd h v fleet).Ok := by
  unfold Hw.thimbleCmd
  extract_lets +onlyGivenNames h1
  refine Hw.Ok.cut (x := h1) ?_ fun th1 => ?_
  · subst h1
    exact Hw.sf_ok hk
  clear_value h1
  extract_lets +onlyGivenNames h2
  refine Hw.Ok.cut (x := h2) ?_ fun th2 => ?_
  · subst h2
    refine Hw.Ok.ite (fun _ => ?_) (fun _ => ?_)
    · exact Hw.tamperUnlock_ok th1
    · exact th1
  clear_value h2
  extract_lets +onlyGivenNames h3
  refine Hw.Ok.cut (x := h3) ?_ fun th3 => ?_
  · subst h3
    refine Hw.Ok.ite (fun _ => ?_) (fun _ => ?_)
    · exact Hw.wipeRequest_ok th2
    · exact th2
  clear_value h3
  refine Hw.Ok.ite (fun _ => ?_) (fun _ => ?_)
  · exact Hw.keyLoad_ok th3
  · exact th3

theorem Hw.lcRequest_ok {h : Hw} {v : Nat} {role : Nat} {lyd : Bool} (hk : h.Ok) : (Hw.lcRequest h v role lyd).2.Ok := by
  unfold Hw.lcRequest
  extract_lets +onlyGivenNames v1
  refine Hw.Ok.ite2 (fun _ => ?_) (fun _ => ?_)
  · extract_lets +onlyGivenNames v2
    extract_lets +onlyGivenNames h3
    refine Hw.Ok.cut (x := h3) ?_ fun th3 => ?_
    · subst h3
      exact Hw.Ok.touches hk set_memu_touches
    clear_value h3
    exact Hw.Ok.pair (Hw.wipeRequest_ok (Hw.report_ok th3))
  · exact Hw.Ok.pair (hk)

theorem Hw.setCanary_ok {h : Hw} {u : Nat} {b : Nat} {v : Nat} (hk : h.Ok) : (Hw.setCanary h u b v).Ok := hk.touches Hw.setCanary_touches

theorem Hw.canaries_ok {h : Hw} {u : Nat} (hk : h.Ok) : (Hw.canaries h u).Ok := hk.touches Hw.canaries_touches

theorem Hw.retentionCheck_ok {h : Hw} {u : Nat} (hk : h.Ok) : (Hw.retentionCheck h u).Ok := by
  unfold Hw.retentionCheck
  split
  · exact Hw.setUnit_ok hk
  · extract_lets +onlyGivenNames v5
    extract_lets +onlyGivenNames h6
    refine Hw.Ok.cut (x := h6) ?_ fun th6 => ?_
    · subst h6
      exact Hw.sf_ok hk
    clear_value h6
    extract_lets +onlyGivenNames h7
    refine Hw.Ok.cut (x := h7) ?_ fun th7 => ?_
    · subst h7
      refine Hw.Ok.forEach ?_ fun x8 h9 th9 => ?_
      · exact th6
      · exact Hw.report_ok th9
    clear_value h7
    extract_lets +onlyGivenNames h10
    refine Hw.Ok.cut (x := h10) ?_ fun th10 => ?_
    · subst h10
      refine Hw.Ok.ite (fun _ => ?_) (fun _ => ?_)
      · exact Hw.wipeStart_ok (Hw.wipeRequest_ok th7)
      · exact th7
    clear_value h10
    exact Hw.setUnit_ok (Hw.fillUnit_ok th10)

end Sys2Proof.Machine
end

