-- ==== Sys2Proof/Laws/OkKernelSlots.lean ====
section
/-! SUPPORT. Every operation of Machine/KernelSlots.lean keeps the invariant of the part. -/

set_option Elab.async false

namespace Sys2Proof.Machine

theorem Hw.slotRangeWrite_ok {h : Hw} {n : Nat} {v : Nat} (hk : h.Ok) : (Hw.slotRangeWrite h n v).Ok := by
  unfold Hw.slotRangeWrite
  refine Hw.Ok.ite (fun _ => ?_) (fun _ => ?_)
  · exact Hw.sf_ok hk
  · exact Hw.writeFields_ok hk

theorem Hw.slotCfgWrite_ok {h : Hw} {n : Nat} {v : Nat} (hk : h.Ok) : (Hw.slotCfgWrite h n v).Ok := by
  unfold Hw.slotCfgWrite
  extract_lets +onlyGivenNames v1
  extract_lets +onlyGivenNames f2
  subst f2
  split
  · refine Hw.Ok.ite (fun _ => ?_) (fun _ => ?_)
    · extract_lets +onlyGivenNames h7
      refine Hw.Ok.cut (x := h7) ?_ fun th7 => ?_
      · subst h7
        refine Hw.Ok.ite (fun _ => ?_) (fun _ => ?_)
        · exact Hw.sf_ok hk
        · exact hk
      clear_value h7
      extract_lets +onlyGivenNames h8
      refine Hw.Ok.cut (x := h8) ?_ fun th8 => ?_
      · subst h8
        refine Hw.Ok.ite (fun _ => ?_) (fun _ => ?_)
        · exact Hw.sf_ok th7
        · exact th7
      clear_value h8
      refine Hw.Ok.ite (fun _ => ?_) (fun _ => ?_)
      · exact th8
      · refine Hw.Ok.ite (fun _ => ?_) (fun _ => ?_)
        · exact Hw.sf_ok th8
        · exact Hw.sf_ok th8
    · refine Hw.Ok.ite (fun _ => ?_) (fun _ => ?_)
      · refine Hw.Ok.ite (fun _ => ?_) (fun _ => ?_)
        · exact Hw.sf_ok hk
        · refine Hw.sf_ok ?_
          refine Hw.sf_ok ?_
          refine Hw.Ok.ite (fun _ => ?_) (fun _ => ?_)
          · exact Hw.sf_ok hk
          · exact hk
      · refine Hw.sf_ok ?_
        refine Hw.Ok.ite (fun _ => ?_) (fun _ => ?_)
        · exact Hw.sf_ok hk
        · exact hk

theorem Hw.setImage_ok {h : Hw} {n : Nat} {img : List Nat} (hk : h.Ok) : (Hw.setImage h n img).Ok := hk.touches Hw.setImage_touches

theorem Hw.kloadPut_ok {h : Hw} {img : List Nat} (hk : h.Ok) : (Hw.kloadPut h img).Ok := by
  unfold Hw.kloadPut
  extract_lets +onlyGivenNames v1 v2 v3 v4
  extract_lets +onlyGivenNames h5
  refine Hw.Ok.cut (x := h5) ?_ fun th5 => ?_
  · subst h5
    exact Hw.sf_ok hk
  clear_value h5
  extract_lets +onlyGivenNames h6
  refine Hw.Ok.cut (x := h6) ?_ fun th6 => ?_
  · subst h6
    exact Hw.eccClear_ok (Hw.storeBytes_ok th5)
  clear_value h6
  extract_lets +onlyGivenNames h7
  refine Hw.Ok.cut (x := h7) ?_ fun th7 => ?_
  · subst h7
    exact Hw.sf_ok (Hw.sf_ok th6)
  clear_value h7
  exact Hw.sf_ok (Hw.sf_ok th7)

end Sys2Proof.Machine
end

