-- ==== Sys2Proof/Laws/OkJournal.lean ====
section
/-! SUPPORT. Every operation of Machine/Journal.lean keeps the invariant of the part. -/

set_option Elab.async false

namespace Sys2Proof.Machine

theorem Hw.journalScan_ok {h : Hw} (hk : h.Ok) : (Hw.journalScan h).Ok := by
  unfold Hw.journalScan
  split
  · split
    · extract_lets +onlyGivenNames v9
      exact Hw.Ok.touches hk set_fw_touches
  · extract_lets +onlyGivenNames h12
    refine Hw.Ok.cut (x := h12) ?_ fun th12 => ?_
    · subst h12
      exact Hw.mramSet_ok hk
    clear_value h12
    exact Hw.Ok.touches th12 set_fw_touches

theorem Hw.copyRecords_ok {h : Hw} {g : Nat} {a : Nat} {b1 : List JRec} (hk : h.Ok) : (Hw.copyRecords h g a b1).2.Ok := by
  induction b1 generalizing h g a hk with
  | nil =>
    unfold Hw.copyRecords
    exact Hw.Ok.pair (hk)
  | cons y ys ih =>
    unfold Hw.copyRecords
    extract_lets +onlyGivenNames v1
    exact ih (Hw.mramSet_ok hk)

theorem Hw.compact_ok {h : Hw} (hk : h.Ok) : (Hw.compact h).Ok := by
  unfold Hw.compact
  extract_lets +onlyGivenNames v1 v2 v3 v4
  extract_lets +onlyGivenNames h5
  refine Hw.Ok.cut (x := h5) ?_ fun th5 => ?_
  · subst h5
    exact Hw.mramSet_ok hk
  clear_value h5
  split
  · rename_i a6 a7 h8 e9
    refine Hw.Ok.cut (x := h8) (Hw.Ok.snd ?_ e9) fun th8 => ?_
    · exact Hw.copyRecords_ok th5
    extract_lets +onlyGivenNames h10
    refine Hw.Ok.cut (x := h10) ?_ fun th10 => ?_
    · subst h10
      exact Hw.mramSet_ok th8
    clear_value h10
    exact Hw.Ok.touches th10 set_fw_touches

theorem Hw.compactDue_ok {h : Hw} (hk : h.Ok) : (Hw.compactDue h).Ok := by
  unfold Hw.compactDue
  refine Hw.Ok.ite (fun _ => ?_) (fun _ => ?_)
  · exact Hw.compact_ok hk
  · exact hk

theorem Hw.appendKind_ok {h : Hw} {idx : Nat} {sub : Nat} {kind : Nat} {value : List Nat} (hk : h.Ok) : (Hw.appendKind h idx sub kind value).Ok := by
  unfold Hw.appendKind
  extract_lets +onlyGivenNames v1 v2 v3
  extract_lets +onlyGivenNames h4
  refine Hw.Ok.cut (x := h4) ?_ fun th4 => ?_
  · subst h4
    exact Hw.mramSet_ok hk
  clear_value h4
  exact Hw.Ok.touches th4 set_fw_touches

theorem Hw.append_ok {h : Hw} {idx : Nat} {sub : Nat} {value : List Nat} (hk : h.Ok) : (Hw.append h idx sub value).Ok := by
  unfold Hw.append
  exact Hw.appendKind_ok hk

theorem Hw.journalWrite_ok {h : Hw} {idx : Nat} {sub : Nat} {value : List Nat} (hk : h.Ok) : (Hw.journalWrite h idx sub value).2.Ok := by
  unfold Hw.journalWrite
  refine Hw.Ok.ite2 (fun _ => ?_) (fun _ => ?_)
  · exact Hw.Ok.pair (hk)
  · refine Hw.Ok.ite2 (fun _ => ?_) (fun _ => ?_)
    · exact Hw.Ok.pair (Hw.append_ok hk)
    · refine Hw.Ok.ite2 (fun _ => ?_) (fun _ => ?_)
      · exact Hw.Ok.pair (Hw.append_ok (Hw.compact_ok hk))
      · exact Hw.Ok.pair (hk)

theorem Hw.journalDelete_ok {h : Hw} {idx : Nat} {sub : Nat} (hk : h.Ok) : (Hw.journalDelete h idx sub).2.Ok := by
  unfold Hw.journalDelete
  refine Hw.Ok.ite2 (fun _ => ?_) (fun _ => ?_)
  · exact Hw.Ok.pair (Hw.appendKind_ok hk)
  · refine Hw.Ok.ite2 (fun _ => ?_) (fun _ => ?_)
    · exact Hw.Ok.pair (Hw.appendKind_ok (Hw.compact_ok hk))
    · exact Hw.Ok.pair (hk)

theorem Hw.programWait_ok {h : Hw} (hk : h.Ok) : (Hw.programWait h).2.Ok := by
  unfold Hw.programWait
  exact Hw.Ok.pair (Hw.stallResp_ok hk)

theorem Hw.kernelRefused_ok {h : Hw} {code : Nat} (hk : h.Ok) : (Hw.kernelRefused h code).2.Ok := hk.touches Hw.kernelRefused_touches

theorem Hw.kload_ok {h : Hw} {img : List Nat} (hk : h.Ok) : (Hw.kload h img).2.Ok := by
  unfold Hw.kload
  extract_lets +onlyGivenNames v1 v2
  refine Hw.Ok.ite2 (fun _ => ?_) (fun _ => ?_)
  · exact Hw.programWait_ok hk
  · refine Hw.Ok.ite2 (fun _ => ?_) (fun _ => ?_)
    · exact Hw.kernelRefused_ok hk
    · split
      · rename_i a3 a4 h5 e6
        refine Hw.Ok.cut (x := h5) (Hw.Ok.snd ?_ e6) fun th5 => ?_
        · exact Hw.journalWrite_ok hk
        exact Hw.Ok.pair (th5)
      · rename_i a7 h8 e9
        refine Hw.Ok.cut (x := h8) (Hw.Ok.snd ?_ e9) fun th8 => ?_
        · exact Hw.journalWrite_ok hk
        exact Hw.Ok.pair (Hw.setObj_ok (Hw.setImage_ok (Hw.kloadPut_ok th8)))

theorem Hw.kunload_ok {h : Hw} {n : Nat} (hk : h.Ok) : (Hw.kunload h n).2.Ok := by
  unfold Hw.kunload
  refine Hw.Ok.ite2 (fun _ => ?_) (fun _ => ?_)
  · exact Hw.programWait_ok hk
  · refine Hw.Ok.ite2 (fun _ => ?_) (fun _ => ?_)
    · exact Hw.kernelRefused_ok hk
    · refine Hw.Ok.ite2 (fun _ => ?_) (fun _ => ?_)
      · exact Hw.kernelRefused_ok hk
      · split
        · rename_i a1 a2 h3 e4
          refine Hw.Ok.cut (x := h3) (Hw.Ok.snd ?_ e4) fun th3 => ?_
          · exact Hw.journalDelete_ok hk
          exact Hw.Ok.pair (th3)
        · rename_i a5 h6 e7
          refine Hw.Ok.cut (x := h6) (Hw.Ok.snd ?_ e7) fun th6 => ?_
          · exact Hw.journalDelete_ok hk
          exact Hw.Ok.pair (Hw.setObj_ok (Hw.setImage_ok (Hw.sf_ok th6)))

end Sys2Proof.Machine
end

