-- ==== Sys2Proof/Laws/OkRtc.lean ====
section
/-! SUPPORT. Every operation of Machine/Rtc.lean keeps the invariant of the part. -/

set_option Elab.async false

namespace Sys2Proof.Machine

theorem Hw.almFire_ok {h : Hw} (hk : h.Ok) : (Hw.almFire h).Ok := by
  unfold Hw.almFire
  refine Hw.Ok.ite (fun _ => ?_) (fun _ => ?_)
  · exact hk
  · exact Hw.flagSource_ok (Hw.sf_ok (Hw.sf_ok hk))

theorem Hw.almEnter_ok {h : Hw} {s : Nat} (hk : h.Ok) : (Hw.almEnter h s).Ok := by
  unfold Hw.almEnter
  refine Hw.Ok.ite (fun _ => ?_) (fun _ => ?_)
  · exact Hw.almFire_ok hk
  · exact hk

theorem Hw.setTime_ok {h : Hw} {s : Nat} {p : Nat} (hk : h.Ok) : (Hw.setTime h s p).Ok := hk.touches Hw.setTime_touches

theorem Hw.rtcStep_ok {h : Hw} {s : Nat} {p : Nat} {fwd : Bool} (hk : h.Ok) : (Hw.rtcStep h s p fwd).Ok := by
  unfold Hw.rtcStep
  extract_lets +onlyGivenNames v1 v2
  extract_lets +onlyGivenNames h3
  refine Hw.Ok.cut (x := h3) ?_ fun th3 => ?_
  · subst h3
    exact Hw.sf_ok (Hw.setTime_ok hk)
  clear_value h3
  extract_lets +onlyGivenNames h4
  refine Hw.Ok.cut (x := h4) ?_ fun th4 => ?_
  · subst h4
    refine Hw.Ok.ite (fun _ => ?_) (fun _ => ?_)
    · exact Hw.sf_ok (Hw.almFire_ok th3)
    · exact th3
  clear_value h4
  extract_lets +onlyGivenNames h5
  refine Hw.Ok.cut (x := h5) ?_ fun th5 => ?_
  · subst h5
    refine Hw.Ok.ite (fun _ => ?_) (fun _ => ?_)
    · exact Hw.almEnter_ok th4
    · exact th4
  clear_value h5
  exact Hw.Ok.touches th5 set_rtc_touches

theorem Hw.rtcCommit_ok {h : Hw} (hk : h.Ok) : (Hw.rtcCommit h).Ok := by
  unfold Hw.rtcCommit
  split
  · exact Hw.sf_ok hk
  · extract_lets +onlyGivenNames h6
    refine Hw.Ok.cut (x := h6) ?_ fun th6 => ?_
    · subst h6
      exact Hw.sf_ok hk
    clear_value h6
    refine Hw.Ok.ite (fun _ => ?_) (fun _ => ?_)
    · exact th6
    · exact Hw.rtcStep_ok th6

theorem Hw.rtcCapture_ok {h : Hw} (hk : h.Ok) : (Hw.rtcCapture h).Ok := by
  unfold Hw.rtcCapture
  exact Hw.setReg_ok (Hw.setReg_ok hk)

theorem Hw.rtcAdj_ok {h : Hw} {v : Nat} (hk : h.Ok) : (Hw.rtcAdj h v).Ok := by
  unfold Hw.rtcAdj
  extract_lets +onlyGivenNames v1
  refine Hw.Ok.ite (fun _ => ?_) (fun _ => ?_)
  · exact hk
  · extract_lets +onlyGivenNames v2 v3
    extract_lets +onlyGivenNames h4
    refine Hw.Ok.cut (x := h4) ?_ fun th4 => ?_
    · subst h4
      refine Hw.Ok.ite (fun _ => ?_) (fun _ => ?_)
      · exact Hw.sf_ok hk
      · exact hk
    clear_value h4
    extract_lets +onlyGivenNames v5
    exact Hw.rtcStep_ok th4

theorem Hw.rtcCmd_ok {h : Hw} {v : Nat} (hk : h.Ok) : (Hw.rtcCmd h v).Ok := by
  unfold Hw.rtcCmd
  extract_lets +onlyGivenNames h1
  refine Hw.Ok.cut (x := h1) ?_ fun th1 => ?_
  · subst h1
    refine Hw.Ok.ite (fun _ => ?_) (fun _ => ?_)
    · exact Hw.rtcCapture_ok hk
    · exact hk
  clear_value h1
  refine Hw.Ok.ite (fun _ => ?_) (fun _ => ?_)
  · exact Hw.rtcCommit_ok th1
  · exact th1

theorem Hw.anextRecompute_ok {h : Hw} (hk : h.Ok) : (Hw.anextRecompute h).Ok := by
  unfold Hw.anextRecompute
  extract_lets +onlyGivenNames v1
  extract_lets +onlyGivenNames h2
  refine Hw.Ok.cut (x := h2) ?_ fun th2 => ?_
  · subst h2
    exact Hw.Ok.touches hk set_rtc_touches
  clear_value h2
  split
  · exact Hw.sf_ok (Hw.sf_ok (Hw.sf_ok th2))
  · exact Hw.sf_ok (Hw.sf_ok (Hw.sf_ok th2))

theorem Hw.secAdvance_ok {h : Hw} {m : Nat} (hk : h.Ok) : (Hw.secAdvance h m).Ok := hk.touches Hw.secAdvance_touches

theorem Hw.wrapWhen_ok {h : Hw} {c : Bool} (hk : h.Ok) : (Hw.wrapWhen h c).Ok := by
  unfold Hw.wrapWhen
  refine Hw.Ok.ite (fun _ => ?_) (fun _ => ?_)
  · exact Hw.sf_ok hk
  · exact hk

theorem Hw.fireWhen_ok {h : Hw} {c : Bool} (hk : h.Ok) : (Hw.fireWhen h c).Ok := by
  unfold Hw.fireWhen
  refine Hw.Ok.ite (fun _ => ?_) (fun _ => ?_)
  · exact Hw.almFire_ok hk
  · exact hk

theorem Hw.syncCapture_ok {h : Hw} (hk : h.Ok) : (Hw.syncCapture h).Ok := by
  unfold Hw.syncCapture
  refine Hw.Ok.ite (fun _ => ?_) (fun _ => ?_)
  · split
    · rename_i a1 a2 h3 e4
      refine Hw.Ok.cut (x := h3) (Hw.Ok.snd ?_ e4) fun th3 => ?_
      · exact Hw.fresh_ok hk
      exact Hw.sf_ok (Hw.sf_ok th3)
  · exact hk

theorem Hw.passSeconds_ok {h : Hw} {m : Nat} (hk : h.Ok) : (Hw.passSeconds h m).Ok := by
  unfold Hw.passSeconds
  refine Hw.Ok.ite (fun _ => ?_) (fun _ => ?_)
  · exact hk
  · exact Hw.syncCapture_ok (Hw.fireWhen_ok (Hw.wrapWhen_ok (Hw.secAdvance_ok hk)))

theorem Hw.rtcAlarm_ok {h : Hw} {a : Nat} {v : Nat} (hk : h.Ok) : (Hw.rtcAlarm h a v).Ok := by
  unfold Hw.rtcAlarm
  extract_lets +onlyGivenNames h1
  refine Hw.Ok.cut (x := h1) ?_ fun th1 => ?_
  · subst h1
    exact Hw.writeFields_ok hk
  clear_value h1
  exact Hw.Ok.touches th1 set_rtc_touches

theorem Hw.rtcActl_ok {h : Hw} {v : Nat} (hk : h.Ok) : (Hw.rtcActl h v).Ok := by
  unfold Hw.rtcActl
  exact Hw.sf_ok (Hw.rtcAlarm_ok hk)

theorem Hw.rtcHalt_ok {h : Hw} (hk : h.Ok) : (Hw.rtcHalt h).Ok := by
  unfold Hw.rtcHalt
  refine Hw.Ok.ite (fun _ => ?_) (fun _ => ?_)
  · exact Hw.sf_ok (Hw.sf_ok hk)
  · exact hk

theorem Hw.rtcLoad_ok {h : Hw} {e : Nat} (hk : h.Ok) : (Hw.rtcLoad h e).Ok := by
  unfold Hw.rtcLoad
  extract_lets +onlyGivenNames h1
  refine Hw.Ok.cut (x := h1) ?_ fun th1 => ?_
  · subst h1
    exact Hw.sf_ok (Hw.sf_ok hk)
  clear_value h1
  exact Hw.Ok.touches th1 set_rtc_touches

theorem Hw.rtcCdctl_ok {h : Hw} {v : Nat} (hk : h.Ok) : (Hw.rtcCdctl h v).Ok := by
  unfold Hw.rtcCdctl
  extract_lets +onlyGivenNames h1
  refine Hw.Ok.cut (x := h1) ?_ fun th1 => ?_
  · subst h1
    exact Hw.writeFields_ok hk
  clear_value h1
  extract_lets +onlyGivenNames h2
  refine Hw.Ok.cut (x := h2) ?_ fun th2 => ?_
  · subst h2
    refine Hw.Ok.ite (fun _ => ?_) (fun _ => ?_)
    · exact Hw.rtcHalt_ok th1
    · exact th1
  clear_value h2
  refine Hw.Ok.ite (fun _ => ?_) (fun _ => ?_)
  · exact th2
  · refine Hw.Ok.ite (fun _ => ?_) (fun _ => ?_)
    · exact Hw.sf_ok th2
    · exact Hw.rtcLoad_ok th2

theorem Hw.rtcExpiry_ok {h : Hw} (hk : h.Ok) : (Hw.rtcExpiry h).Ok := by
  unfold Hw.rtcExpiry
  extract_lets +onlyGivenNames h1
  refine Hw.Ok.cut (x := h1) ?_ fun th1 => ?_
  · subst h1
    exact Hw.flagSource_ok (Hw.sf_ok hk)
  clear_value h1
  refine Hw.Ok.ite (fun _ => ?_) (fun _ => ?_)
  · exact Hw.sf_ok (Hw.sf_ok th1)
  · refine Hw.Ok.ite (fun _ => ?_) (fun _ => ?_)
    · exact Hw.sf_ok (Hw.sf_ok (Hw.sf_ok th1))
    · exact Hw.rtcLoad_ok th1

theorem Hw.setSched_ok {h : Hw} {w : WakeSched} (hk : h.Ok) : (Hw.setSched h w).Ok := hk.touches Hw.setSched_touches

theorem Hw.planExpiry_ok {h : Hw} (hk : h.Ok) : (Hw.planExpiry h).Ok := hk.touches Hw.planExpiry_touches

theorem Hw.countdownStep_ok {h : Hw} (hk : h.Ok) : (Hw.countdownStep h).Ok := by
  unfold Hw.countdownStep
  refine Hw.Ok.ite (fun _ => ?_) (fun _ => ?_)
  · exact Hw.planExpiry_ok (Hw.rtcExpiry_ok hk)
  · exact hk

theorem Hw.slowRun_ok {h : Hw} {n : Nat} (hk : h.Ok) : (Hw.slowRun h n).Ok := by
  unfold Hw.slowRun
  extract_lets +onlyGivenNames h1
  refine Hw.Ok.cut (x := h1) ?_ fun th1 => ?_
  · subst h1
    refine Hw.Ok.ite (fun _ => ?_) (fun _ => ?_)
    · exact Hw.anextRecompute_ok hk
    · exact hk
  clear_value h1
  extract_lets +onlyGivenNames v2 v3
  extract_lets +onlyGivenNames h4
  refine Hw.Ok.cut (x := h4) ?_ fun th4 => ?_
  · subst h4
    exact Hw.Ok.touches th1 set_rtc_touches
  clear_value h4
  exact Hw.countdownStep_ok (Hw.passSeconds_ok th4)

theorem Hw.rtcSecond_ok {h : Hw} (hk : h.Ok) : (Hw.rtcSecond h).Ok := by
  unfold Hw.rtcSecond
  exact Hw.slowRun_ok hk

theorem Hw.countdownExpiry_ok {h : Hw} (hk : h.Ok) : (Hw.countdownExpiry h).Ok := by
  unfold Hw.countdownExpiry
  refine Hw.Ok.ite (fun _ => ?_) (fun _ => ?_)
  · exact Hw.slowRun_ok hk
  · exact hk

theorem Hw.oscStopped_ok {h : Hw} (hk : h.Ok) : (Hw.oscStopped h).Ok := by
  unfold Hw.oscStopped
  exact Hw.sf_ok (Hw.setTime_ok hk)

theorem Hw.setEvQueue_ok {h : Hw} {n : Nat} {q : List EvStamp} (hk : h.Ok) : (Hw.setEvQueue h n q).Ok := hk.touches Hw.setEvQueue_touches

theorem Hw.tamperEvent_ok {h : Hw} {n : Nat} (hk : h.Ok) : (Hw.tamperEvent h n).Ok := by
  unfold Hw.tamperEvent
  extract_lets +onlyGivenNames h1
  refine Hw.Ok.cut (x := h1) ?_ fun th1 => ?_
  · subst h1
    exact Hw.bump_ok (Hw.sf_ok (Hw.sf_ok hk))
  clear_value h1
  extract_lets +onlyGivenNames v2
  extract_lets +onlyGivenNames h3
  refine Hw.Ok.cut (x := h3) ?_ fun th3 => ?_
  · subst h3
    refine Hw.Ok.ite (fun _ => ?_) (fun _ => ?_)
    · exact Hw.report_ok th1
    · exact Hw.Ok.touches th1 set_rtc_touches
  clear_value h3
  refine Hw.Ok.ite (fun _ => ?_) (fun _ => ?_)
  · exact Hw.zero_ok th3
  · exact th3

theorem Hw.eventAt_ok {h : Hw} {n : Nat} {active : Bool} (hk : h.Ok) : (Hw.eventAt h n active).Ok := by
  unfold Hw.eventAt
  refine Hw.Ok.ite (fun _ => ?_) (fun _ => ?_)
  · exact hk
  · extract_lets +onlyGivenNames h1
    refine Hw.Ok.cut (x := h1) ?_ fun th1 => ?_
    · subst h1
      exact Hw.sf_ok hk
    clear_value h1
    refine Hw.Ok.ite (fun _ => ?_) (fun _ => ?_)
    · exact th1
    · extract_lets +onlyGivenNames v2 v3
      extract_lets +onlyGivenNames h4
      refine Hw.Ok.cut (x := h4) ?_ fun th4 => ?_
      · subst h4
        refine Hw.Ok.ite (fun _ => ?_) (fun _ => ?_)
        · exact Hw.setEvQueue_ok th1
        · exact Hw.bump_ok th1
      clear_value h4
      extract_lets +onlyGivenNames h5
      refine Hw.Ok.cut (x := h5) ?_ fun th5 => ?_
      · subst h5
        exact Hw.flagSource_ok th4
      clear_value h5
      refine Hw.Ok.ite (fun _ => ?_) (fun _ => ?_)
      · exact Hw.tamperEvent_ok th5
      · exact th5

theorem Hw.eventQualified_ok {h : Hw} {n : Nat} {active : Bool} {pre : Nat} (hk : h.Ok) : (Hw.eventQualified h n active pre).Ok := by
  unfold Hw.eventQualified
  refine Hw.Ok.ite (fun _ => ?_) (fun _ => ?_)
  · exact hk
  · exact Hw.eventAt_ok (Hw.slowRun_ok hk)

theorem Hw.logTampers_ok {h : Hw} (hk : h.Ok) : (Hw.logTampers h).Ok := by
  unfold Hw.logTampers
  extract_lets +onlyGivenNames v1
  extract_lets +onlyGivenNames h2
  refine Hw.Ok.cut (x := h2) ?_ fun th2 => ?_
  · subst h2
    refine Hw.Ok.forEach ?_ fun x3 h4 th4 => ?_
    · exact hk
    · exact Hw.report_ok th4
  clear_value h2
  exact Hw.Ok.touches th2 set_rtc_touches

theorem Hw.evPop_ok {h : Hw} {n : Nat} {v : Nat} (hk : h.Ok) : (Hw.evPop h n v).Ok := hk.touches Hw.evPop_touches

theorem Hw.evCfg_ok {h : Hw} {n : Nat} {v : Nat} (hk : h.Ok) : (Hw.evCfg h n v).Ok := by
  unfold Hw.evCfg
  extract_lets +onlyGivenNames h1
  refine Hw.Ok.cut (x := h1) ?_ fun th1 => ?_
  · subst h1
    exact Hw.writeFields_ok hk
  clear_value h1
  refine Hw.Ok.ite (fun _ => ?_) (fun _ => ?_)
  · exact th1
  · exact Hw.sf_ok th1

theorem Hw.backupApply_ok {h : Hw} {a : Nat} {n : Nat} {v : Nat} (hk : h.Ok) : (Hw.backupApply h a n v).Ok := by
  unfold Hw.backupApply
  refine Hw.Ok.ite (fun _ => ?_) (fun _ => ?_)
  · exact Hw.store_ok hk
  · refine Hw.Ok.ite (fun _ => ?_) (fun _ => ?_)
    · exact Hw.rtcCmd_ok hk
    · refine Hw.Ok.ite (fun _ => ?_) (fun _ => ?_)
      · exact Hw.rtcAdj_ok hk
      · refine Hw.Ok.ite (fun _ => ?_) (fun _ => ?_)
        · exact Hw.rtcActl_ok hk
        · refine Hw.Ok.ite (fun _ => ?_) (fun _ => ?_)
          · exact Hw.rtcAlarm_ok hk
          · refine Hw.Ok.ite (fun _ => ?_) (fun _ => ?_)
            · exact Hw.rtcCdctl_ok hk
            · refine Hw.Ok.ite (fun _ => ?_) (fun _ => ?_)
              · exact Hw.evCfg_ok hk
              · refine Hw.Ok.ite (fun _ => ?_) (fun _ => ?_)
                · exact Hw.evPop_ok hk
                · exact Hw.writeFields_ok hk

theorem Hw.backupTake_ok {h : Hw} (hk : h.Ok) : (Hw.backupTake h).Ok := by
  unfold Hw.backupTake
  split
  · exact hk
  · extract_lets +onlyGivenNames v6
    extract_lets +onlyGivenNames h7
    refine Hw.Ok.cut (x := h7) ?_ fun th7 => ?_
    · subst h7
      exact Hw.Ok.touches hk set_rtc_touches
    clear_value h7
    exact Hw.backupApply_ok th7

theorem Hw.backupEdge_ok {h : Hw} {pre : Nat} {p : Nat × Nat × Nat → Bool} (hk : h.Ok) : (Hw.backupEdge h pre p).Ok := by
  unfold Hw.backupEdge
  split
  · exact hk
  · refine Hw.Ok.ite (fun _ => ?_) (fun _ => ?_)
    · exact Hw.backupTake_ok (Hw.slowRun_ok hk)
    · exact hk

theorem Hw.backupPost_ok {h : Hw} {a : Nat} {n : Nat} {v : Nat} (hk : h.Ok) : (Hw.backupPost h a n v).Ok := hk.touches Hw.backupPost_touches

theorem Hw.readTime0_ok {h : Hw} (hk : h.Ok) : (Hw.readTime0 h).Ok := hk.touches Hw.readTime0_touches

theorem Hw.rtcDiscipline_ok {h : Hw} {ofs : Int} {utc : Nat} {drift : Int} (hk : h.Ok) : (Hw.rtcDiscipline h ofs utc drift).Ok := hk.touches Hw.rtcDiscipline_touches

end Sys2Proof.Machine
end

