-- ==== Sys2Proof/Laws/OkHotStore.lean ====
section
/-! SUPPORT. Every operation of Machine/HotStore.lean keeps the invariant of the part. -/

set_option Elab.async false

namespace Sys2Proof.Machine

theorem Hw.setHot_ok {h : Hw} {t : HotStart} (hk : h.Ok) : (Hw.setHot h t).Ok := hk.touches Hw.setHot_touches

theorem Hw.hotLoad_ok {h : Hw} {f : HotFacts} (hk : h.Ok) : (Hw.hotLoad h f).Ok := hk.touches Hw.hotLoad_touches

theorem Hw.saveNow_ok {h : Hw} {live : List Nat} (hk : h.Ok) : (Hw.saveNow h live).Ok := by
  unfold Hw.saveNow
  extract_lets +onlyGivenNames v1 v2 v3 v4
  extract_lets +onlyGivenNames h5
  refine Hw.Ok.cut (x := h5) ?_ fun th5 => ?_
  · subst h5
    exact Hw.mramSet_ok (Hw.mramSet_ok hk)
  clear_value h5
  exact Hw.setHot_ok th5

theorem Hw.hsSave_ok {h : Hw} {live : List Nat} (hk : h.Ok) : (Hw.hsSave h live).Ok := by
  unfold Hw.hsSave
  refine Hw.Ok.ite (fun _ => ?_) (fun _ => ?_)
  · exact Hw.saveNow_ok hk
  · exact hk

theorem Hw.hsWant_ok {h : Hw} (hk : h.Ok) : (Hw.hsWant h).Ok := hk.touches Hw.hsWant_touches

theorem Hw.hsSaveNow_ok {h : Hw} {live : List Nat} (hk : h.Ok) : (Hw.hsSaveNow h live).Ok := by
  unfold Hw.hsSaveNow
  refine Hw.Ok.ite (fun _ => ?_) (fun _ => ?_)
  · exact Hw.hsSave_ok (Hw.hsWant_ok hk)
  · exact hk

end Sys2Proof.Machine
end

