-- ==== Sys2Proof/Laws/OkKeep.lean ====
section
/-! SUPPORT. Every operation of Machine/Keep.lean keeps the invariant of the part. -/

set_option Elab.async false

namespace Sys2Proof.Machine

theorem Hw.keepRecord_ok {h : Hw} {r : Nat × Nat × List Nat} (hk : h.Ok) : (Hw.keepRecord h r).Ok := by
  unfold Hw.keepRecord
  refine Hw.Ok.ite (fun _ => ?_) (fun _ => ?_)
  · exact hk
  · refine Hw.Ok.ite (fun _ => ?_) (fun _ => ?_)
    · exact Hw.journalDelete_ok hk
    · exact Hw.journalWrite_ok hk

theorem Hw.keepRecords_ok {h : Hw} (hk : h.Ok) : (Hw.keepRecords h).Ok := by
  unfold Hw.keepRecords
  refine Hw.Ok.forEach ?_ fun x1 h2 th2 => ?_
  · exact hk
  · exact Hw.keepRecord_ok th2

theorem Hw.fwKeep_ok {h : Hw} (hk : h.Ok) : (Hw.fwKeep h).Ok := by
  unfold Hw.fwKeep
  refine Hw.Ok.ite (fun _ => ?_) (fun _ => ?_)
  · exact Hw.keepRecords_ok hk
  · exact hk

theorem Hw.readKept_ok {h : Hw} (hk : h.Ok) : (Hw.readKept h).Ok := hk.touches Hw.readKept_touches

end Sys2Proof.Machine
end

