-- ==== Sys2Proof/Laws/OkRadio.lean ====
section
/-! SUPPORT. Every operation of Machine/Radio.lean keeps the invariant of the part. -/

set_option Elab.async false

namespace Sys2Proof.Machine

theorem Hw.setRadio_ok {h : Hw} {r : Radio} (ok : h.Ok) (hq : r.queue.length ≤ 4) (hd : r.done.length ≤ 8) : (Hw.setRadio h r).Ok :=
  set_radio_ok ok hq hd

theorem Hw.setRadioByte_ok {h : Hw} {a : Nat} {v : Nat} (hk : h.Ok) : (Hw.setRadioByte h a v).Ok := by
  unfold Hw.setRadioByte
  exact Hw.setReg_ok hk

theorem Hw.setRadioBytes_ok {h : Hw} {a : Nat} {b1 : List Nat} (hk : h.Ok) : (Hw.setRadioBytes h a b1).Ok := by
  induction b1 generalizing h a hk with
  | nil =>
    unfold Hw.setRadioBytes
    exact hk
  | cons y ys ih =>
    unfold Hw.setRadioBytes
    exact ih (Hw.setRadioByte_ok hk)

theorem Hw.bufStore_ok {h : Hw} {b : Nat} {pdu : List Nat} (hk : h.Ok) : (Hw.bufStore h b pdu).Ok := by
  unfold Hw.bufStore
  exact Hw.setRadioBytes_ok hk

theorem Hw.addAirtime_ok {h : Hw} {t : Nat} (hk : h.Ok) : (Hw.addAirtime h t).Ok := by
  unfold Hw.addAirtime
  refine Hw.setRadio_ok ?_ ?_ ?_
  · exact hk
  · exact hk.radioQ
  · exact hk.radioDone

theorem Hw.dutyAdvance_ok {h : Hw} (hk : h.Ok) : (Hw.dutyAdvance h).Ok := by
  unfold Hw.dutyAdvance
  extract_lets +onlyGivenNames v1
  refine Hw.setRadio_ok ?_ ?_ ?_
  · exact hk
  · exact hk.radioQ
  · exact hk.radioDone

theorem Hw.radioPost_ok {h : Hw} {tag : Nat} {status : Nat} {clamp : Bool} {delay : Nat} (hk : h.Ok) : (Hw.radioPost h tag status clamp delay).Ok := by
  unfold Hw.radioPost
  refine Hw.Ok.ite (fun _ => ?_) (fun _ => ?_)
  · exact Hw.sf_ok hk
  · refine Hw.setRadio_ok ?_ ?_ ?_
    · exact hk
    · exact hk.radioQ
    · (have k := hk.elog; simp_all +zetaDelta <;> omega)

theorem Hw.radioReturn_ok {h : Hw} {c : RadioCmd} (hk : h.Ok) : (Hw.radioReturn h c).Ok := by
  unfold Hw.radioReturn
  exact Hw.sf_ok hk

theorem Hw.radioEndLate_ok {h : Hw} {c : RadioCmd} (hk : h.Ok) : (Hw.radioEndLate h c).Ok := by
  unfold Hw.radioEndLate
  extract_lets +onlyGivenNames h1
  refine Hw.Ok.cut (x := h1) ?_ fun th1 => ?_
  · subst h1
    exact Hw.radioPost_ok hk
  clear_value h1
  refine Hw.Ok.ite (fun _ => ?_) (fun _ => ?_)
  · exact Hw.radioReturn_ok th1
  · exact th1

theorem Hw.radioHead_ok {h : Hw} {b1 : Nat} (hk : h.Ok) : (Hw.radioHead h b1).Ok := by
  induction b1 generalizing h hk with
  | zero =>
    unfold Hw.radioHead
    exact hk
  | succ k ih =>
    unfold Hw.radioHead
    split
    · exact hk
    · refine Hw.Ok.ite (fun _ => ?_) (fun _ => ?_)
      · refine ih ?_
        refine Hw.radioEndLate_ok ?_
        refine Hw.setRadio_ok ?_ ?_ ?_
        · exact hk
        · (have k := hk.radioQ; simp_all +zetaDelta <;> omega)
        · exact hk.radioDone
      · exact hk

theorem Hw.radioPop_ok {h : Hw} (hk : h.Ok) : (Hw.radioPop h).Ok := by
  unfold Hw.radioPop
  extract_lets +onlyGivenNames v1 v2
  extract_lets +onlyGivenNames h3
  refine Hw.Ok.cut (x := h3) ?_ fun th3 => ?_
  · subst h3
    refine Hw.setRadio_ok ?_ ?_ ?_
    · exact hk
    · (have k := hk.radioQ; simp_all +zetaDelta <;> omega)
    · exact hk.radioDone
  clear_value h3
  exact Hw.radioHead_ok th3

theorem Hw.radioEnd_ok {h : Hw} {c : RadioCmd} {status : Nat} {clamp : Bool} {delay : Nat} (hk : h.Ok) : (Hw.radioEnd h c status clamp delay).Ok := by
  unfold Hw.radioEnd
  extract_lets +onlyGivenNames v1
  extract_lets +onlyGivenNames h2
  refine Hw.Ok.cut (x := h2) ?_ fun th2 => ?_
  · subst h2
    refine Hw.setRadio_ok ?_ ?_ ?_
    · exact hk
    · exact hk.radioQ
    · exact hk.radioDone
  clear_value h2
  exact Hw.radioPop_ok (Hw.radioReturn_ok (Hw.radioPost_ok th2))

theorem Hw.radioCal_ok {h : Hw} {f : Nat} (hk : h.Ok) : (Hw.radioCal h f).Ok := by
  unfold Hw.radioCal
  refine Hw.Ok.ite (fun _ => ?_) (fun _ => ?_)
  · exact hk
  · refine Hw.setRadio_ok ?_ ?_ ?_
    · exact hk
    · exact hk.radioQ
    · exact hk.radioDone

theorem Hw.radioReach_ok {h : Hw} {c : RadioCmd} {delay : Nat} (hk : h.Ok) : (Hw.radioReach h c delay).Ok := by
  unfold Hw.radioReach
  extract_lets +onlyGivenNames v1 v2
  exact Hw.reach_ok hk

theorem Hw.radioGo_ok {h : Hw} {v : Nat} (hk : h.Ok) : (Hw.radioGo h v).Ok := by
  unfold Hw.radioGo
  refine Hw.Ok.ite (fun _ => ?_) (fun _ => ?_)
  · exact hk
  · extract_lets +onlyGivenNames v1
    refine Hw.Ok.ite (fun _ => ?_) (fun _ => ?_)
    · exact Hw.sf_ok hk
    · refine Hw.Ok.ite (fun _ => ?_) (fun _ => ?_)
      · exact Hw.sf_ok hk
      · extract_lets +onlyGivenNames v2 v3
        extract_lets +onlyGivenNames h4
        refine Hw.Ok.cut (x := h4) ?_ fun th4 => ?_
        · subst h4
          refine Hw.setRadio_ok ?_ ?_ ?_
          · exact hk
          · (have k := hk.elog; simp_all +zetaDelta <;> omega)
          · exact hk.radioDone
        clear_value h4
        refine Hw.Ok.ite (fun _ => ?_) (fun _ => ?_)
        · exact Hw.radioHead_ok th4
        · exact th4

theorem Hw.radioFlush_ok {h : Hw} (ok : h.Ok) : (Hw.radioFlush h).Ok := by
  unfold Hw.radioFlush
  extract_lets r started rest h1
  have hs : started.length ≤ 4 := by
    have k := ok.radioQ
    simp only [started, r]
    split
    · simp only [List.length_take]; omega
    · simp
  have t1 : h1.Ok := Hw.setRadio_ok ok hs ok.radioDone
  exact Hw.Ok.forEach t1 fun x g tg => Hw.radioPost_ok tg

theorem Hw.radioDoneRead_ok {h : Hw} (hk : h.Ok) : (Hw.radioDoneRead h).Ok := by
  unfold Hw.radioDoneRead
  split
  · exact Hw.Ok.touches hk set_resp_touches
  · extract_lets +onlyGivenNames v7
    extract_lets +onlyGivenNames h8
    refine Hw.Ok.cut (x := h8) ?_ fun th8 => ?_
    · subst h8
      refine Hw.setRadio_ok ?_ ?_ ?_
      · exact hk
      · exact hk.radioQ
      · (have k := hk.radioDone; simp_all +zetaDelta <;> omega)
    clear_value h8
    exact Hw.Ok.touches th8 set_resp_touches

theorem Hw.radioRefuse_ok {h : Hw} {c : RadioCmd} {status : Nat} {delay : Nat} (hk : h.Ok) : (Hw.radioRefuse h c status delay).Ok := by
  unfold Hw.radioRefuse
  extract_lets +onlyGivenNames h1
  refine Hw.Ok.cut (x := h1) ?_ fun th1 => ?_
  · subst h1
    refine Hw.Ok.ite (fun _ => ?_) (fun _ => ?_)
    · exact Hw.bump_ok hk
    · exact hk
  clear_value h1
  exact Hw.radioEnd_ok th1

theorem Hw.paSelect_ok {h : Hw} {code : Nat} (hk : h.Ok) : (Hw.paSelect h code).Ok := by
  unfold Hw.paSelect
  split
  · rename_i a1 a2 h3 e4
    refine Hw.Ok.cut (x := h3) (Hw.Ok.snd ?_ e4) fun th3 => ?_
    · exact Hw.fresh_ok hk
    refine Hw.setRadio_ok ?_ ?_ ?_
    · exact th3
    · exact th3.radioQ
    · exact th3.radioDone

theorem Hw.radioSend_ok {h : Hw} {c : RadioCmd} (hk : h.Ok) : (Hw.radioSend h c).2.Ok := by
  unfold Hw.radioSend
  extract_lets +onlyGivenNames v1
  extract_lets +onlyGivenNames h2
  refine Hw.Ok.cut (x := h2) ?_ fun th2 => ?_
  · subst h2
    exact Hw.paSelect_ok hk
  clear_value h2
  extract_lets +onlyGivenNames h3
  refine Hw.Ok.cut (x := h3) ?_ fun th3 => ?_
  · subst h3
    exact Hw.addAirtime_ok (Hw.radioCal_ok th2)
  clear_value h3
  refine Hw.Ok.pair ?_
  refine Hw.Ok.ite (fun _ => ?_) (fun _ => ?_)
  · exact Hw.bump_ok th3
  · exact th3

theorem Hw.radioTx_ok {h : Hw} {delay : Nat} (hk : h.Ok) : (Hw.radioTx h delay).Ok := by
  unfold Hw.radioTx
  split
  · exact hk
  · extract_lets +onlyGivenNames h6
    refine Hw.Ok.cut (x := h6) ?_ fun th6 => ?_
    · subst h6
      exact Hw.radioReach_ok hk
    clear_value h6
    split
    · exact Hw.radioRefuse_ok th6
    · split
      · rename_i a12 a13 h14 e15
        refine Hw.Ok.cut (x := h14) (Hw.Ok.snd ?_ e15) fun th14 => ?_
        · exact Hw.radioSend_ok th6
        refine Hw.Ok.ite (fun _ => ?_) (fun _ => ?_)
        · extract_lets +onlyGivenNames h16
          refine Hw.Ok.cut (x := h16) ?_ fun th16 => ?_
          · subst h16
            exact Hw.sf_ok (Hw.radioPost_ok th14)
          clear_value h16
          refine Hw.radioPop_ok ?_
          refine Hw.setRadio_ok ?_ ?_ ?_
          · exact th16
          · exact th16.radioQ
          · exact th16.radioDone
        · exact Hw.radioEnd_ok th14

theorem Hw.radioRx_ok {h : Hw} {delay : Nat} (hk : h.Ok) : (Hw.radioRx h delay).Ok := by
  unfold Hw.radioRx
  split
  · exact hk
  · extract_lets +onlyGivenNames h6
    refine Hw.Ok.cut (x := h6) ?_ fun th6 => ?_
    · subst h6
      exact Hw.radioCal_ok (Hw.radioReach_ok hk)
    clear_value h6
    refine Hw.sf_ok ?_
    refine Hw.setRadio_ok ?_ ?_ ?_
    · exact th6
    · exact th6.radioQ
    · exact th6.radioDone

theorem Hw.returnClose_ok {h : Hw} (hk : h.Ok) : (Hw.returnClose h).Ok := by
  unfold Hw.returnClose
  extract_lets +onlyGivenNames v1
  refine Hw.sf_ok ?_
  refine Hw.setRadio_ok ?_ ?_ ?_
  · exact hk
  · exact hk.radioQ
  · exact hk.radioDone

theorem Hw.windowClose_ok {h : Hw} {status : Nat} (hk : h.Ok) : (Hw.windowClose h status).Ok := by
  unfold Hw.windowClose
  split
  · refine Hw.Ok.ite (fun _ => ?_) (fun _ => ?_)
    · exact Hw.radioEnd_ok hk
    · exact Hw.returnClose_ok hk
  · exact Hw.returnClose_ok hk

theorem Hw.radioPacket_ok {h : Hw} {pdu : List Nat} {crcOk : Bool} {rssi : Nat} (hk : h.Ok) : (Hw.radioPacket h pdu crcOk rssi).Ok := by
  unfold Hw.radioPacket
  split
  · exact hk
  · extract_lets +onlyGivenNames h6
    refine Hw.Ok.cut (x := h6) ?_ fun th6 => ?_
    · subst h6
      exact Hw.bufStore_ok hk
    clear_value h6
    refine Hw.windowClose_ok ?_
    refine Hw.setRadio_ok ?_ ?_ ?_
    · exact th6
    · exact th6.radioQ
    · exact th6.radioDone

theorem Hw.radioRxTimeout_ok {h : Hw} (hk : h.Ok) : (Hw.radioRxTimeout h).Ok := by
  unfold Hw.radioRxTimeout
  refine Hw.Ok.ite (fun _ => ?_) (fun _ => ?_)
  · exact hk
  · exact Hw.windowClose_ok hk

theorem Hw.radioMove_ok {h : Hw} {op : Nat} (hk : h.Ok) : (Hw.radioMove h op).Ok := by
  unfold Hw.radioMove
  split
  · exact hk
  · extract_lets +onlyGivenNames h6
    refine Hw.Ok.cut (x := h6) ?_ fun th6 => ?_
    · subst h6
      exact Hw.radioPost_ok (Hw.radioReach_ok hk)
    clear_value h6
    exact Hw.radioPop_ok (Hw.sf_ok th6)

theorem Hw.synthTimeout_ok {h : Hw} (hk : h.Ok) : (Hw.synthTimeout h).Ok := by
  unfold Hw.synthTimeout
  split
  · refine Hw.Ok.ite (fun _ => ?_) (fun _ => ?_)
    · exact Hw.radioEnd_ok (Hw.bump_ok hk)
    · exact hk
  · exact hk

theorem Hw.paCal_ok {h : Hw} {ts4 : Int} (hk : h.Ok) : (Hw.paCal h ts4).Ok := by
  unfold Hw.paCal
  refine Hw.Ok.ite (fun _ => ?_) (fun _ => ?_)
  · extract_lets +onlyGivenNames h1
    refine Hw.Ok.cut (x := h1) ?_ fun th1 => ?_
    · subst h1
      exact Hw.sf_ok hk
    clear_value h1
    exact Hw.Ok.touches th1 set_sys_touches
  · exact hk

theorem Hw.coexRequest_ok {h : Hw} (hk : h.Ok) : (Hw.coexRequest h).Ok := by
  unfold Hw.coexRequest
  split
  · refine Hw.Ok.ite (fun _ => ?_) (fun _ => ?_)
    · refine Hw.setRadio_ok ?_ ?_ ?_
      · exact hk
      · exact hk.radioQ
      · exact hk.radioDone
    · exact hk
  · exact hk

theorem Hw.coexSample_ok {h : Hw} {active : Bool} (hk : h.Ok) : (Hw.coexSample h active).Ok := by
  unfold Hw.coexSample
  extract_lets +onlyGivenNames v1
  extract_lets +onlyGivenNames h2
  refine Hw.Ok.cut (x := h2) ?_ fun th2 => ?_
  · subst h2
    refine Hw.setRadio_ok ?_ ?_ ?_
    · exact hk
    · exact hk.radioQ
    · exact hk.radioDone
  clear_value h2
  split
  · refine Hw.Ok.ite (fun _ => ?_) (fun _ => ?_)
    · refine Hw.Ok.ite (fun _ => ?_) (fun _ => ?_)
      · refine Hw.setRadio_ok ?_ ?_ ?_
        · exact th2
        · exact th2.radioQ
        · exact th2.radioDone
      · exact Hw.radioEnd_ok (Hw.bump_ok th2)
    · exact th2
  · exact th2

theorem Hw.setWords_ok {h : Hw} {a : Nat} {b1 : List Nat} (hk : h.Ok) : (Hw.setWords h a b1).Ok := by
  induction b1 generalizing h a hk with
  | nil =>
    unfold Hw.setWords
    exact hk
  | cons y ys ih =>
    unfold Hw.setWords
    exact ih (Hw.setReg_ok hk)

theorem Hw.csSubevent_ok {h : Hw} {c : RadioCmd} {meas : List (Bool × List Nat)} {rssi : Nat} {end_ : Option Nat} (hk : h.Ok) : (Hw.csSubevent h c meas rssi end_).Ok := by
  unfold Hw.csSubevent
  extract_lets +onlyGivenNames v1 v2
  split
  · extract_lets +onlyGivenNames v7 v8
    extract_lets +onlyGivenNames h9
    refine Hw.Ok.cut (x := h9) ?_ fun th9 => ?_
    · subst h9
      exact Hw.paSelect_ok hk
    clear_value h9
    extract_lets +onlyGivenNames h10
    refine Hw.Ok.cut (x := h10) ?_ fun th10 => ?_
    · subst h10
      refine Hw.Ok.forEach ?_ fun x11 h12 th12 => ?_
      · exact th9
      · exact Hw.radioCal_ok th12
    clear_value h10
    extract_lets +onlyGivenNames h13
    refine Hw.Ok.cut (x := h13) ?_ fun th13 => ?_
    · subst h13
      exact Hw.addAirtime_ok th10
    clear_value h13
    extract_lets +onlyGivenNames h14
    refine Hw.Ok.cut (x := h14) ?_ fun th14 => ?_
    · subst h14
      refine Hw.Ok.ite (fun _ => ?_) (fun _ => ?_)
      · exact Hw.bump_ok th13
      · exact th13
    clear_value h14
    extract_lets +onlyGivenNames h15
    refine Hw.Ok.cut (x := h15) ?_ fun th15 => ?_
    · subst h15
      exact Hw.setWords_ok th14
    clear_value h15
    extract_lets +onlyGivenNames v16
    extract_lets +onlyGivenNames h17
    refine Hw.Ok.cut (x := h17) ?_ fun th17 => ?_
    · subst h17
      refine Hw.setRadio_ok ?_ ?_ ?_
      · exact th15
      · exact th15.radioQ
      · exact th15.radioDone
    clear_value h17
    exact Hw.radioEnd_ok th17

theorem Hw.radioCs_ok {h : Hw} {meas : List (Bool × List Nat)} {rssi : Nat} (hk : h.Ok) : (Hw.radioCs h meas rssi).Ok := by
  unfold Hw.radioCs
  split
  · exact hk
  · extract_lets +onlyGivenNames h6
    refine Hw.Ok.cut (x := h6) ?_ fun th6 => ?_
    · subst h6
      exact Hw.radioReach_ok hk
    clear_value h6
    refine Hw.Ok.ite (fun _ => ?_) (fun _ => ?_)
    · exact Hw.radioRefuse_ok th6
    · exact Hw.csSubevent_ok th6

theorem Hw.coexLost_ok {h : Hw} {meas : List (Bool × List Nat)} {rssi : Nat} (hk : h.Ok) : (Hw.coexLost h meas rssi).Ok := by
  unfold Hw.coexLost
  refine Hw.Ok.ite (fun _ => ?_) (fun _ => ?_)
  · exact hk
  · split
    · extract_lets +onlyGivenNames v5
      extract_lets +onlyGivenNames h6
      refine Hw.Ok.cut (x := h6) ?_ fun th6 => ?_
      · subst h6
        refine Hw.setRadio_ok ?_ ?_ ?_
        · exact hk
        · exact hk.radioQ
        · exact hk.radioDone
      clear_value h6
      split
      · exact th6
      · extract_lets +onlyGivenNames h12
        refine Hw.Ok.cut (x := h12) ?_ fun th12 => ?_
        · subst h12
          exact Hw.bump_ok (Hw.radioReach_ok th6)
        clear_value h12
        refine Hw.Ok.ite (fun _ => ?_) (fun _ => ?_)
        · split
          · rename_i a13 a14 h15 e16
            refine Hw.Ok.cut (x := h15) (Hw.Ok.snd ?_ e16) fun th15 => ?_
            · exact Hw.radioSend_ok th12
            exact Hw.radioEnd_ok th15
        · exact Hw.radioTx_ok th12
    · extract_lets +onlyGivenNames v22
      extract_lets +onlyGivenNames h23
      refine Hw.Ok.cut (x := h23) ?_ fun th23 => ?_
      · subst h23
        refine Hw.setRadio_ok ?_ ?_ ?_
        · exact hk
        · exact hk.radioQ
        · exact hk.radioDone
      clear_value h23
      refine Hw.Ok.ite (fun _ => ?_) (fun _ => ?_)
      · exact th23
      · extract_lets +onlyGivenNames h24
        refine Hw.Ok.cut (x := h24) ?_ fun th24 => ?_
        · subst h24
          exact Hw.bump_ok (Hw.radioReach_ok th23)
        clear_value h24
        exact Hw.csSubevent_ok th24
    · exact hk

theorem Hw.setFuse_ok {h : Hw} {f : Nat} {v : Nat} (hk : h.Ok) : (Hw.setFuse h f v).Ok := hk.touches Hw.setFuse_touches

theorem Hw.fuseBlow_ok {h : Hw} {v : Nat} {role : Nat} (hk : h.Ok) : (Hw.fuseBlow h v role).Ok := by
  unfold Hw.fuseBlow
  extract_lets +onlyGivenNames v1 v2 v3
  refine Hw.Ok.ite (fun _ => ?_) (fun _ => ?_)
  · split
    · refine Hw.sf_ok ?_
      refine Hw.setRadio_ok ?_ ?_ ?_
      · exact hk
      · exact hk.radioQ
      · exact hk.radioDone
  · exact Hw.sf_ok hk

theorem Hw.fuseBlown_ok {h : Hw} {took : Nat} (hk : h.Ok) : (Hw.fuseBlown h took).Ok := by
  unfold Hw.fuseBlown
  split
  · exact hk
  · extract_lets +onlyGivenNames v8 v9
    extract_lets +onlyGivenNames h10
    refine Hw.Ok.cut (x := h10) ?_ fun th10 => ?_
    · subst h10
      refine Hw.setRadio_ok ?_ ?_ ?_
      · exact Hw.setFuse_ok hk
      · exact hk.radioQ
      · exact hk.radioDone
    clear_value h10
    extract_lets +onlyGivenNames h11
    refine Hw.Ok.cut (x := h11) ?_ fun th11 => ?_
    · subst h11
      exact Hw.sf_ok (Hw.sf_ok th10)
    clear_value h11
    refine Hw.Ok.ite (fun _ => ?_) (fun _ => ?_)
    · exact th11
    · exact Hw.sf_ok th11

theorem Hw.holdStart_ok {h : Hw} (hk : h.Ok) : (Hw.holdStart h).Ok := by
  unfold Hw.holdStart
  refine Hw.Ok.ite (fun _ => ?_) (fun _ => ?_)
  · extract_lets +onlyGivenNames h1
    refine Hw.Ok.cut (x := h1) ?_ fun th1 => ?_
    · subst h1
      exact Hw.radioFlush_ok hk
    clear_value h1
    refine Hw.sf_ok ?_
    refine Hw.setRadio_ok ?_ ?_ ?_
    · exact th1
    · exact th1.radioQ
    · exact th1.radioDone
  · exact hk

theorem Hw.holdSend_ok {h : Hw} {k : Nat} (hk : h.Ok) : (Hw.holdSend h k).Ok := by
  unfold Hw.holdSend
  exact Hw.addAirtime_ok (Hw.radioCal_ok (Hw.paSelect_ok hk))

theorem Hw.holdEvent_ok {h : Hw} {k : Nat} {reply : Option (Bool × Bool × Bool)} (hk : h.Ok) : (Hw.holdEvent h k reply).Ok := by
  unfold Hw.holdEvent
  extract_lets +onlyGivenNames v1
  refine Hw.Ok.ite (fun _ => ?_) (fun _ => ?_)
  · exact hk
  · extract_lets +onlyGivenNames v2 v3
    split
    · extract_lets +onlyGivenNames h8
      refine Hw.Ok.cut (x := h8) ?_ fun th8 => ?_
      · subst h8
        refine Hw.Ok.ite (fun _ => ?_) (fun _ => ?_)
        · exact Hw.holdSend_ok hk
        · exact hk
      clear_value h8
      extract_lets +onlyGivenNames v9
      extract_lets +onlyGivenNames h10
      refine Hw.Ok.cut (x := h10) ?_ fun th10 => ?_
      · subst h10
        exact Hw.setReg_ok th8
      clear_value h10
      extract_lets +onlyGivenNames h11
      refine Hw.Ok.cut (x := h11) ?_ fun th11 => ?_
      · subst h11
        exact Hw.setReg_ok th10
      clear_value h11
      extract_lets +onlyGivenNames h12
      refine Hw.Ok.cut (x := h12) ?_ fun th12 => ?_
      · subst h12
        exact Hw.setReg_ok th11
      clear_value h12
      exact Hw.bump_ok th12

theorem Hw.holdRelease_ok {h : Hw} (hk : h.Ok) : (Hw.holdRelease h).Ok := by
  unfold Hw.holdRelease
  refine Hw.Ok.ite (fun _ => ?_) (fun _ => ?_)
  · exact Hw.sf_ok (Hw.sf_ok hk)
  · exact hk

theorem Hw.holdDrop_ok {h : Hw} (hk : h.Ok) : (Hw.holdDrop h).Ok := hk.touches Hw.holdDrop_touches

theorem Hw.holdTimeoutRadio_ok {h : Hw} (hk : h.Ok) : (Hw.holdTimeoutRadio h).Ok := by
  unfold Hw.holdTimeoutRadio
  refine Hw.Ok.ite (fun _ => ?_) (fun _ => ?_)
  · extract_lets +onlyGivenNames h1
    refine Hw.Ok.cut (x := h1) ?_ fun th1 => ?_
    · subst h1
      exact Hw.holdDrop_ok (Hw.reach_ok hk)
    clear_value h1
    extract_lets +onlyGivenNames h2
    refine Hw.Ok.cut (x := h2) ?_ fun th2 => ?_
    · subst h2
      refine Hw.Ok.forEach ?_ fun x3 h4 th4 => ?_
      · exact th1
      · exact Hw.setReg_ok th4
    clear_value h2
    exact Hw.holdRelease_ok th2
  · exact hk

theorem Hw.radioCtrl_ok {h : Hw} {v : Nat} (hk : h.Ok) : (Hw.radioCtrl h v).Ok := by
  unfold Hw.radioCtrl
  extract_lets +onlyGivenNames h1
  refine Hw.Ok.cut (x := h1) ?_ fun th1 => ?_
  · subst h1
    exact Hw.writeFields_ok hk
  clear_value h1
  extract_lets +onlyGivenNames h2
  refine Hw.Ok.cut (x := h2) ?_ fun th2 => ?_
  · subst h2
    refine Hw.Ok.ite (fun _ => ?_) (fun _ => ?_)
    · exact Hw.radioFlush_ok th1
    · exact th1
  clear_value h2
  refine Hw.Ok.ite (fun _ => ?_) (fun _ => ?_)
  · exact Hw.holdRelease_ok th2
  · exact th2

end Sys2Proof.Machine
end

