-- ==== Sys2Proof/Laws/OkBoot.lean ====
section
/-! SUPPORT. Every operation of Machine/Boot.lean keeps the invariant of the part. -/

set_option Elab.async false

namespace Sys2Proof.Machine

theorem Hw.keepRegs_ok {h : Hw} {p : Nat → Bool} (ok : h.Ok) : (Hw.keepRegs h p).Ok := set_regs_ok ok (Store.wf_keep resetOf p ok.regs)

theorem Hw.coreClear_ok {h : Hw} (ok : h.Ok) : h.coreClear.Ok where
  regs := Store.wf_keep resetOf _ ok.regs
  mem := ok.mem
  ecc := ok.ecc
  tcnt := Nat.two_pow_pos 64
  elog := Nat.zero_le _
  tspiQ := Nat.zero_le _
  tspiRx := Nat.zero_le _
  sspiRx := Nat.zero_le _
  stamps := Nat.zero_le _
  radioQ := Nat.zero_le _
  radioDone := Nat.zero_le _
  i2cTx := Nat.zero_le _
  i2cRx := Nat.zero_le _
  marks := Nat.zero_le _
  serialRx _ := Nat.zero_le _
  serialTx _ := Nat.zero_le _
  serialWake _ := Nat.zero_le _

theorem Hw.sramLost_ok {h : Hw} (ok : h.Ok) : (Hw.sramLost h).Ok := set_mem_ecc_ok ok (Store.wf_keep blankByte _ ok.mem) (Store.wf_keep _ _ ok.ecc)

theorem Hw.alwaysOnClear_ok {h : Hw} (ok : h.Ok) : h.alwaysOnClear.Ok := by
  unfold Hw.alwaysOnClear
  extract_lets h1
  have t1 : h1.Ok := Hw.sramLost_ok (Hw.keepRegs_ok ok)
  exact Hw.Ok.touches (set_radio_ok (r := Radio.reset []) t1 (Nat.zero_le _) (Nat.zero_le _)) set_pwr_pkey_rtc_touches

theorem Hw.backupClear_ok {h : Hw} (hk : h.Ok) : (Hw.backupClear h).Ok := by
  unfold Hw.backupClear
  extract_lets +onlyGivenNames h1
  refine Hw.Ok.cut (x := h1) ?_ fun th1 => ?_
  · subst h1
    exact Hw.keepRegs_ok hk
  clear_value h1
  extract_lets +onlyGivenNames h2
  refine Hw.Ok.cut (x := h2) ?_ fun th2 => ?_
  · subst h2
    exact Hw.zero_ok th1
  clear_value h2
  exact Hw.Ok.touches th2 set_rtc_touches

theorem Hw.causeSet_ok {h : Hw} {c : Nat} (hk : h.Ok) : (Hw.causeSet h c).Ok := by
  unfold Hw.causeSet
  extract_lets +onlyGivenNames v1
  extract_lets +onlyGivenNames h2
  refine Hw.Ok.cut (x := h2) ?_ fun th2 => ?_
  · subst h2
    exact Hw.Ok.touches hk set_rtc_touches
  clear_value h2
  exact Hw.sf_ok (Hw.sf_ok th2)

theorem Hw.pulsesStop_ok {h : Hw} (hk : h.Ok) : (Hw.pulsesStop h).Ok := by
  unfold Hw.pulsesStop
  extract_lets +onlyGivenNames h1
  refine Hw.Ok.cut (x := h1) ?_ fun th1 => ?_
  · subst h1
    exact Hw.sf_ok (Hw.sf_ok hk)
  clear_value h1
  exact Hw.Ok.touches th1 set_pkey_touches

theorem Hw.coreReset_ok {h : Hw} {cause : Nat} (hk : h.Ok) : (Hw.coreReset h cause).Ok := by
  unfold Hw.coreReset
  exact Hw.causeSet_ok (Hw.pulsesStop_ok (Hw.coreClear_ok hk))

theorem Hw.lifecycleReset_ok {h : Hw} {t : Nat} (hk : h.Ok) : (Hw.lifecycleReset h t).Ok := by
  unfold Hw.lifecycleReset
  exact Hw.coreReset_ok (Hw.Ok.touches hk set_fuses_touches)

theorem Hw.vinReset_ok {h : Hw} {cause : Nat} (hk : h.Ok) : (Hw.vinReset h cause).Ok := by
  unfold Hw.vinReset
  exact Hw.causeSet_ok (Hw.alwaysOnClear_ok (Hw.coreClear_ok hk))

theorem Hw.powerOn_ok {h : Hw} (hk : h.Ok) : (Hw.powerOn h).Ok := by
  unfold Hw.powerOn
  exact Hw.causeSet_ok (Hw.backupClear_ok (Hw.alwaysOnClear_ok (Hw.coreClear_ok hk)))

theorem Hw.backupEnter_ok {h : Hw} (hk : h.Ok) : (Hw.backupEnter h).Ok := by
  unfold Hw.backupEnter
  extract_lets +onlyGivenNames h1
  refine Hw.Ok.cut (x := h1) ?_ fun th1 => ?_
  · subst h1
    exact Hw.alwaysOnClear_ok (Hw.coreClear_ok hk)
  clear_value h1
  exact Hw.Ok.touches th1 set_pwr_touches

theorem Hw.wdRestart_ok {h : Hw} (hk : h.Ok) : (Hw.wdRestart h).Ok := hk.touches Hw.wdRestart_touches

theorem Hw.wdWrite_ok {h : Hw} {v : Nat} (hk : h.Ok) : (Hw.wdWrite h v).Ok := by
  unfold Hw.wdWrite
  extract_lets +onlyGivenNames v1
  extract_lets +onlyGivenNames h2
  refine Hw.Ok.cut (x := h2) ?_ fun th2 => ?_
  · subst h2
    exact Hw.writeFields_ok hk
  clear_value h2
  refine Hw.Ok.ite (fun _ => ?_) (fun _ => ?_)
  · exact Hw.sf_ok th2
  · exact Hw.wdRestart_ok th2

theorem Hw.wdKick_ok {h : Hw} {v : Nat} (hk : h.Ok) : (Hw.wdKick h v).Ok := by
  unfold Hw.wdKick
  refine Hw.Ok.ite (fun _ => ?_) (fun _ => ?_)
  · exact Hw.wdRestart_ok hk
  · exact Hw.coreReset_ok hk

theorem Hw.sysRst_ok {h : Hw} {v : Nat} (hk : h.Ok) : (Hw.sysRst h v).Ok := by
  unfold Hw.sysRst
  refine Hw.Ok.ite (fun _ => ?_) (fun _ => ?_)
  · exact Hw.coreReset_ok hk
  · exact hk

theorem Hw.restoreReg_ok {h : Hw} {rs : List JRec} {a : Nat} (hk : h.Ok) : (Hw.restoreReg h rs a).Ok := by
  unfold Hw.restoreReg
  split
  · exact hk
  · split
    · exact hk
    · exact Hw.setReg_ok hk

theorem Hw.restoreObj_ok {h : Hw} {r : JRec} (hk : h.Ok) : (Hw.restoreObj h r).Ok := hk.touches Hw.restoreObj_touches

theorem Hw.restoreAll_ok {h : Hw} (hk : h.Ok) : (Hw.restoreAll h).Ok := by
  unfold Hw.restoreAll
  extract_lets +onlyGivenNames v1
  extract_lets +onlyGivenNames h2
  refine Hw.Ok.cut (x := h2) ?_ fun th2 => ?_
  · subst h2
    refine Hw.Ok.forEach ?_ fun x3 h4 th4 => ?_
    · exact hk
    · exact Hw.restoreReg_ok th4
  clear_value h2
  refine Hw.Ok.forEach ?_ fun x5 h6 th6 => ?_
  · exact th2
  · exact Hw.restoreObj_ok th6

theorem Hw.slotsEmpty_ok {h : Hw} (hk : h.Ok) : (Hw.slotsEmpty h).Ok := by
  unfold Hw.slotsEmpty
  refine Hw.Ok.forEach ?_ fun x1 h2 th2 => ?_
  · exact hk
  · exact Hw.sf_ok th2

theorem Hw.loadVendor_ok {h : Hw} {n : Nat} {b : Nat} {b1 : List (List Nat)} (hk : h.Ok) : (Hw.loadVendor h n b b1).Ok := by
  induction b1 generalizing h n b hk with
  | nil =>
    unfold Hw.loadVendor
    exact hk
  | cons y ys ih =>
    unfold Hw.loadVendor
    extract_lets +onlyGivenNames h1
    refine Hw.Ok.cut (x := h1) ?_ fun th1 => ?_
    · subst h1
      exact Hw.eccClear_ok (Hw.storeWords_ok hk)
    clear_value h1
    extract_lets +onlyGivenNames h2
    refine Hw.Ok.cut (x := h2) ?_ fun th2 => ?_
    · subst h2
      exact Hw.sf_ok (Hw.sf_ok th1)
    clear_value h2
    exact ih (Hw.sf_ok th2)

theorem Hw.loadKernels_ok {h : Hw} (hk : h.Ok) : (Hw.loadKernels h).Ok := by
  unfold Hw.loadKernels
  extract_lets +onlyGivenNames h1
  refine Hw.Ok.cut (x := h1) ?_ fun th1 => ?_
  · subst h1
    exact Hw.loadVendor_ok (Hw.slotsEmpty_ok hk)
  clear_value h1
  refine Hw.Ok.forEach ?_ fun x2 h3 th3 => ?_
  · exact th1
  · refine Hw.Ok.ite (fun _ => ?_) (fun _ => ?_)
    · exact Hw.kloadPut_ok th3
    · exact th3

theorem Hw.loadShapes_ok {h : Hw} {shapes : List (List (BitVec 16))} (hk : h.Ok) : (Hw.loadShapes h shapes).Ok := by
  unfold Hw.loadShapes
  refine Hw.Ok.forEach ?_ fun x1 h2 th2 => ?_
  · exact hk
  · extract_lets +onlyGivenNames v3
    exact Hw.eccClear_ok (Hw.storeBytes_ok th2)

theorem Hw.shareRings_ok {h : Hw} {ports : List Nat} (hk : h.Ok) : (Hw.shareRings h ports).Ok := by
  unfold Hw.shareRings
  extract_lets +onlyGivenNames v1 v2
  refine Hw.Ok.ite (fun _ => ?_) (fun _ => ?_)
  · exact hk
  · refine Hw.Ok.forEach ?_ fun x3 h4 th4 => ?_
    · exact hk
    · exact Hw.sf_ok (Hw.sf_ok th4)

theorem Hw.startFirmware_ok {h : Hw} {s : Nat} {f : BootFacts} (hk : h.Ok) : (Hw.startFirmware h s f).Ok := by
  unfold Hw.startFirmware
  extract_lets +onlyGivenNames v1 v2
  extract_lets +onlyGivenNames h3
  refine Hw.Ok.cut (x := h3) ?_ fun th3 => ?_
  · subst h3
    exact Hw.Ok.touches hk set_sys_fw_touches
  clear_value h3
  extract_lets +onlyGivenNames h4
  refine Hw.Ok.cut (x := h4) ?_ fun th4 => ?_
  · subst h4
    exact Hw.shareRings_ok (Hw.restoreAll_ok th3)
  clear_value h4
  extract_lets +onlyGivenNames v5
  extract_lets +onlyGivenNames h6
  refine Hw.Ok.cut (x := h6) ?_ fun th6 => ?_
  · subst h6
    exact Hw.Ok.touches th4 set_fw_touches
  clear_value h6
  extract_lets +onlyGivenNames h7
  refine Hw.Ok.cut (x := h7) ?_ fun th7 => ?_
  · subst h7
    refine Hw.Ok.ite (fun _ => ?_) (fun _ => ?_)
    · exact th6
    · exact Hw.loadShapes_ok (Hw.loadKernels_ok th6)
  clear_value h7
  exact Hw.logTampers_ok (Hw.hotLoad_ok th7)

theorem Hw.bootRow_ok {h : Hw} {f : BootFacts} {r : Nat × Nat × Nat} (hk : h.Ok) : (Hw.bootRow h f r).Ok := by
  unfold Hw.bootRow
  split
  · refine Hw.Ok.ite (fun _ => ?_) (fun _ => ?_)
    · exact hk
    · split
      · exact Hw.retireBank_ok hk
      · extract_lets +onlyGivenNames v10
        extract_lets +onlyGivenNames h11
        refine Hw.Ok.cut (x := h11) ?_ fun th11 => ?_
        · subst h11
          exact Hw.mapRow_ok (Hw.copyRow_ok hk)
        clear_value h11
        extract_lets +onlyGivenNames v12
        extract_lets +onlyGivenNames h13
        refine Hw.Ok.cut (x := h13) ?_ fun th13 => ?_
        · subst h13
          exact Hw.Ok.touches th11 set_kept_touches
        clear_value h13
        extract_lets +onlyGivenNames v14
        extract_lets +onlyGivenNames h15
        refine Hw.Ok.cut (x := h15) ?_ fun th15 => ?_
        · subst h15
          exact Hw.sf_ok th13
        clear_value h15
        refine Hw.Ok.ite (fun _ => ?_) (fun _ => ?_)
        · exact Hw.retireBank_ok th15
        · exact th15

theorem Hw.bootMemory_ok {h : Hw} {f : BootFacts} {mode : Nat} (hk : h.Ok) : (Hw.bootMemory h f mode).Ok := by
  unfold Hw.bootMemory
  generalize upTo 18 = ns18
  extract_lets +onlyGivenNames v1
  extract_lets +onlyGivenNames h2
  refine Hw.Ok.cut (x := h2) ?_ fun th2 => ?_
  · subst h2
    exact Hw.Ok.touches hk set_memu_touches
  clear_value h2
  extract_lets +onlyGivenNames h3
  refine Hw.Ok.cut (x := h3) ?_ fun th3 => ?_
  · subst h3
    exact Hw.sf_ok th2
  clear_value h3
  extract_lets +onlyGivenNames h4
  refine Hw.Ok.cut (x := h4) ?_ fun th4 => ?_
  · subst h4
    refine Hw.Ok.forEach ?_ fun x5 h6 th6 => ?_
    · exact th3
    · exact Hw.sf_ok th6
  clear_value h4
  extract_lets +onlyGivenNames h7
  refine Hw.Ok.cut (x := h7) ?_ fun th7 => ?_
  · subst h7
    refine Hw.Ok.forEach ?_ fun x8 h9 th9 => ?_
    · exact th4
    · exact Hw.retireBank_ok (Hw.sf_ok th9)
  clear_value h7
  extract_lets +onlyGivenNames h10
  refine Hw.Ok.cut (x := h10) ?_ fun th10 => ?_
  · subst h10
    refine Hw.Ok.ite (fun _ => ?_) (fun _ => ?_)
    · refine Hw.Ok.forEach ?_ fun x11 h12 th12 => ?_
      · exact th7
      · refine Hw.Ok.ite (fun _ => ?_) (fun _ => ?_)
        · exact Hw.setEcc_ok th12
        · exact th12
    · refine Hw.Ok.forEach ?_ fun x13 h14 th14 => ?_
      · exact th7
      · exact Hw.fillUnit_ok th14
  clear_value h10
  extract_lets +onlyGivenNames h15
  refine Hw.Ok.cut (x := h15) ?_ fun th15 => ?_
  · subst h15
    refine Hw.Ok.forEach ?_ fun x16 h17 th17 => ?_
    · exact th10
    · exact Hw.fillUnit_ok th17
  clear_value h15
  extract_lets +onlyGivenNames v18 v19
  refine Hw.Ok.forEach ?_ fun x20 h21 th21 => ?_
  · exact th15
  · exact Hw.bootRow_ok th21

theorem Hw.bootEngines_ok {h : Hw} {f : BootFacts} (ok : h.Ok) : (Hw.bootEngines h f).Ok := set_ecc_pwr_ok ok (Store.wf_keep _ _ ok.ecc)

theorem Hw.bootWipe_ok {h : Hw} {bad : Nat} (hk : h.Ok) : (Hw.bootWipe h bad).Ok := by
  unfold Hw.bootWipe
  extract_lets +onlyGivenNames v1
  extract_lets +onlyGivenNames h2
  refine Hw.Ok.cut (x := h2) ?_ fun th2 => ?_
  · subst h2
    refine Hw.Ok.ite (fun _ => ?_) (fun _ => ?_)
    · exact Hw.Ok.touches hk set_pwr_touches
    · exact hk
  clear_value h2
  extract_lets +onlyGivenNames v3
  extract_lets +onlyGivenNames h4
  refine Hw.Ok.cut (x := h4) ?_ fun th4 => ?_
  · subst h4
    refine Hw.Ok.ite (fun _ => ?_) (fun _ => ?_)
    · exact Hw.Ok.touches th2 set_pwr_touches
    · exact th2
  clear_value h4
  refine Hw.Ok.ite (fun _ => ?_) (fun _ => ?_)
  · exact th4
  · exact Hw.wipeWhole_ok th4

theorem Hw.bootFailure_ok {h : Hw} {err : Nat} (hk : h.Ok) : (Hw.bootFailure h err).Ok := by
  unfold Hw.bootFailure
  extract_lets +onlyGivenNames h1
  refine Hw.Ok.cut (x := h1) ?_ fun th1 => ?_
  · subst h1
    exact Hw.sf_ok hk
  clear_value h1
  refine Hw.Ok.ite (fun _ => ?_) (fun _ => ?_)
  · exact th1
  · extract_lets +onlyGivenNames v2
    extract_lets +onlyGivenNames h3
    refine Hw.Ok.cut (x := h3) ?_ fun th3 => ?_
    · subst h3
      refine Hw.Ok.forEach ?_ fun x4 h5 th5 => ?_
      · exact th1
      · exact Hw.restoreReg_ok th5
    clear_value h3
    extract_lets +onlyGivenNames h6
    refine Hw.Ok.cut (x := h6) ?_ fun th6 => ?_
    · subst h6
      exact Hw.sf_ok (Hw.sf_ok (Hw.sf_ok th3))
    clear_value h6
    extract_lets +onlyGivenNames h7
    refine Hw.Ok.cut (x := h7) ?_ fun th7 => ?_
    · subst h7
      exact Hw.sf_ok th6
    clear_value h7
    exact Hw.Ok.touches th7 set_fw_touches

theorem Hw.selectImage_ok {h : Hw} {opReq : Bool} (hk : h.Ok) : (Hw.selectImage h opReq).2.Ok := by
  unfold Hw.selectImage
  extract_lets +onlyGivenNames v1 v2
  refine Hw.Ok.ite2 (fun _ => ?_) (fun _ => ?_)
  · exact Hw.Ok.pair (hk)
  · extract_lets +onlyGivenNames h3
    refine Hw.Ok.cut (x := h3) ?_ fun th3 => ?_
    · subst h3
      exact Hw.sf_ok hk
    clear_value h3
    extract_lets +onlyGivenNames v4
    refine Hw.Ok.ite2 (fun _ => ?_) (fun _ => ?_)
    · exact Hw.Ok.pair (th3)
    · exact Hw.Ok.pair (Hw.sf_ok th3)

theorem Hw.bootBegin_ok {h : Hw} (hk : h.Ok) : (Hw.bootBegin h).Ok := by
  unfold Hw.bootBegin
  extract_lets +onlyGivenNames v1
  extract_lets +onlyGivenNames h2
  refine Hw.Ok.cut (x := h2) ?_ fun th2 => ?_
  · subst h2
    exact Hw.Ok.touches hk set_pwr_touches
  clear_value h2
  extract_lets +onlyGivenNames h3
  refine Hw.Ok.cut (x := h3) ?_ fun th3 => ?_
  · subst h3
    exact Hw.sf_ok (Hw.sf_ok (Hw.sf_ok th2))
  clear_value h3
  extract_lets +onlyGivenNames h4
  refine Hw.Ok.cut (x := h4) ?_ fun th4 => ?_
  · subst h4
    exact Hw.sf_ok (Hw.sf_ok th3)
  clear_value h4
  exact Hw.readKept_ok (Hw.journalScan_ok (Hw.sf_ok (Hw.showLifecycle_ok th4)))

theorem Hw.bootTests_ok {h : Hw} {f : BootFacts} (hk : h.Ok) : (Hw.bootTests h f).Ok := by
  unfold Hw.bootTests
  extract_lets +onlyGivenNames v1 v2
  extract_lets +onlyGivenNames h3
  refine Hw.Ok.cut (x := h3) ?_ fun th3 => ?_
  · subst h3
    exact Hw.bootEngines_ok (Hw.bootMemory_ok hk)
  clear_value h3
  extract_lets +onlyGivenNames h4
  refine Hw.Ok.cut (x := h4) ?_ fun th4 => ?_
  · subst h4
    exact Hw.sf_ok th3
  clear_value h4
  extract_lets +onlyGivenNames h5
  refine Hw.Ok.cut (x := h5) ?_ fun th5 => ?_
  · subst h5
    exact Hw.bootWipe_ok (Hw.restoreReg_ok th4)
  clear_value h5
  extract_lets +onlyGivenNames h6
  refine Hw.Ok.cut (x := h6) ?_ fun th6 => ?_
  · subst h6
    refine Hw.Ok.ite (fun _ => ?_) (fun _ => ?_)
    · exact th5
    · exact Hw.keyLoad_ok th5
  clear_value h6
  refine Hw.Ok.ite (fun _ => ?_) (fun _ => ?_)
  · exact th6
  · exact Hw.initScan_ok th6

theorem Hw.bootImage_ok {h : Hw} {f : BootFacts} (hk : h.Ok) : (Hw.bootImage h f).Ok := by
  unfold Hw.bootImage
  extract_lets +onlyGivenNames v1 v2
  extract_lets +onlyGivenNames h3
  refine Hw.Ok.cut (x := h3) ?_ fun th3 => ?_
  · subst h3
    exact Hw.keepRecords_ok (Hw.Ok.touches hk set_upd_touches)
  clear_value h3
  extract_lets +onlyGivenNames h4
  refine Hw.Ok.cut (x := h4) ?_ fun th4 => ?_
  · subst h4
    exact Hw.sf_ok (Hw.sf_ok th3)
  clear_value h4
  refine Hw.Ok.ite (fun _ => ?_) (fun _ => ?_)
  · exact Hw.bootFailure_ok th4
  · refine Hw.Ok.ite (fun _ => ?_) (fun _ => ?_)
    · exact Hw.bootFailure_ok th4
    · split
      · rename_i a5 h6 e7
        refine Hw.Ok.cut (x := h6) (Hw.Ok.snd ?_ e7) fun th6 => ?_
        · exact Hw.selectImage_ok th4
        exact Hw.bootFailure_ok th6
      · rename_i a8 a9 h10 e11
        refine Hw.Ok.cut (x := h10) (Hw.Ok.snd ?_ e11) fun th10 => ?_
        · exact Hw.selectImage_ok th4
        exact Hw.startFirmware_ok (Hw.sf_ok (Hw.sf_ok (Hw.sf_ok th10)))

theorem Hw.coldBoot_ok {h : Hw} {f : BootFacts} (hk : h.Ok) : (Hw.coldBoot h f).Ok := by
  unfold Hw.coldBoot
  refine Hw.Ok.ite (fun _ => ?_) (fun _ => ?_)
  · exact Hw.bootImage_ok (Hw.bootTests_ok (Hw.bootBegin_ok hk))
  · exact hk

theorem Hw.heartbeat_ok {h : Hw} {l : Nat} (hk : h.Ok) : (Hw.heartbeat h l).Ok := by
  unfold Hw.heartbeat
  extract_lets +onlyGivenNames h1
  refine Hw.Ok.cut (x := h1) ?_ fun th1 => ?_
  · subst h1
    exact Hw.linkSend_ok hk
  clear_value h1
  exact Hw.Ok.touches th1 set_fw_touches

theorem Hw.bootHeartbeat_ok {h : Hw} (hk : h.Ok) : (Hw.bootHeartbeat h).Ok := by
  unfold Hw.bootHeartbeat
  refine Hw.Ok.ite (fun _ => ?_) (fun _ => ?_)
  · exact hk
  · exact Hw.heartbeat_ok hk

theorem Hw.testenRelease_ok {h : Hw} (hk : h.Ok) : (Hw.testenRelease h).Ok := by
  unfold Hw.testenRelease
  refine Hw.Ok.ite (fun _ => ?_) (fun _ => ?_)
  · exact Hw.coreReset_ok (Hw.Ok.touches hk set_fuses_touches)
  · exact hk

end Sys2Proof.Machine
end

