-- ==== Sys2Proof/Laws/OkWakePlan.lean ====
section
/-! SUPPORT. Every operation of Machine/WakePlan.lean keeps the invariant of the part. -/

set_option Elab.async false

namespace Sys2Proof.Machine

theorem Hw.queueRoom_ok {h : Hw} (hk : h.Ok) : (Hw.queueRoom h).Ok := by
  unfold Hw.queueRoom
  refine Hw.Ok.forEach ?_ fun x1 h2 th2 => ?_
  · exact hk
  · refine Hw.Ok.ite (fun _ => ?_) (fun _ => ?_)
    · exact th2
    · refine Hw.backupEdge_ok ?_
      refine Hw.Ok.ite (fun _ => ?_) (fun _ => ?_)
      · exact Hw.anextRecompute_ok th2
      · exact th2

theorem Hw.loadCountdown_ok {h : Hw} (hk : h.Ok) : (Hw.loadCountdown h).Ok := by
  unfold Hw.loadCountdown
  extract_lets +onlyGivenNames v1 v2 v3
  split
  · extract_lets +onlyGivenNames v9 v10
    extract_lets +onlyGivenNames h11
    refine Hw.Ok.cut (x := h11) ?_ fun th11 => ?_
    · subst h11
      exact Hw.queueRoom_ok (Hw.setSched_ok hk)
    clear_value h11
    extract_lets +onlyGivenNames v12
    extract_lets +onlyGivenNames h13
    refine Hw.Ok.cut (x := h13) ?_ fun th13 => ?_
    · subst h13
      exact Hw.setSched_ok th11
    clear_value h13
    exact Hw.backupPost_ok (Hw.backupPost_ok th13)

theorem Hw.planWake_ok {h : Hw} (hk : h.Ok) : (Hw.planWake h).Ok := hk.touches Hw.planWake_touches

theorem Hw.advSent_ok {h : Hw} (hk : h.Ok) : (Hw.advSent h).Ok := hk.touches Hw.advSent_touches

theorem Hw.snapTaken_ok {h : Hw} (hk : h.Ok) : (Hw.snapTaken h).Ok := hk.touches Hw.snapTaken_touches

end Sys2Proof.Machine
end

