-- ==== Sys2Proof/Laws/OkPower.lean ====
section
/-! SUPPORT. Every operation of Machine/Power.lean keeps the invariant of the part. -/

set_option Elab.async false

namespace Sys2Proof.Machine

theorem Hw.plTarget_ok {h : Hw} {v : Nat} (hk : h.Ok) : (Hw.plTarget h v).Ok := by
  unfold Hw.plTarget
  extract_lets +onlyGivenNames v1 v2
  extract_lets +onlyGivenNames h3
  refine Hw.Ok.cut (x := h3) ?_ fun th3 => ?_
  · subst h3
    refine Hw.Ok.ite (fun _ => ?_) (fun _ => ?_)
    · exact Hw.sf_ok hk
    · exact hk
  clear_value h3
  extract_lets +onlyGivenNames v4
  refine Hw.Ok.ite (fun _ => ?_) (fun _ => ?_)
  · exact Hw.sf_ok th3
  · refine Hw.Ok.ite (fun _ => ?_) (fun _ => ?_)
    · exact Hw.sf_ok th3
    · extract_lets +onlyGivenNames h5
      refine Hw.Ok.cut (x := h5) ?_ fun th5 => ?_
      · subst h5
        exact Hw.sf_ok (Hw.sf_ok th3)
      clear_value h5
      refine Hw.Ok.ite (fun _ => ?_) (fun _ => ?_)
      · exact Hw.sf_ok th5
      · exact th5

theorem Hw.plDone_ok {h : Hw} (hk : h.Ok) : (Hw.plDone h).Ok := by
  unfold Hw.plDone
  refine Hw.Ok.ite (fun _ => ?_) (fun _ => ?_)
  · exact Hw.sf_ok (Hw.sf_ok hk)
  · exact hk

theorem Hw.stopRequest_ok {h : Hw} {v : Nat} (hk : h.Ok) : (Hw.stopRequest h v).Ok := by
  unfold Hw.stopRequest
  extract_lets +onlyGivenNames h1
  refine Hw.Ok.cut (x := h1) ?_ fun th1 => ?_
  · subst h1
    refine Hw.Ok.ite (fun _ => ?_) (fun _ => ?_)
    · exact Hw.sf_ok hk
    · exact hk
  clear_value h1
  refine Hw.Ok.ite (fun _ => ?_) (fun _ => ?_)
  · exact th1
  · refine Hw.Ok.ite (fun _ => ?_) (fun _ => ?_)
    · exact Hw.sf_ok (Hw.sf_ok th1)
    · refine Hw.Ok.ite (fun _ => ?_) (fun _ => ?_)
      · exact Hw.sf_ok (Hw.sf_ok th1)
      · refine Hw.Ok.ite (fun _ => ?_) (fun _ => ?_)
        · exact th1
        · exact Hw.Ok.touches th1 set_pwr_touches

theorem Hw.stopEnd_ok {h : Hw} (hk : h.Ok) : (Hw.stopEnd h).Ok := hk.touches Hw.stopEnd_touches

theorem Hw.stopExit_ok {h : Hw} (hk : h.Ok) : (Hw.stopExit h).Ok := hk.touches Hw.stopExit_touches

theorem Hw.restoreBits_ok {h : Hw} {a : Nat} {v : Nat} (hk : h.Ok) : (Hw.restoreBits h a v).Ok := by
  unfold Hw.restoreBits
  extract_lets +onlyGivenNames v1
  exact Hw.setReg_ok hk

theorem Hw.restoreSaved_ok {h : Hw} {p : Nat → Bool} (hk : h.Ok) : (Hw.restoreSaved h p).Ok := by
  unfold Hw.restoreSaved
  refine Hw.Ok.forEach ?_ fun x1 h2 th2 => ?_
  · exact hk
  · exact Hw.restoreBits_ok th2

theorem Hw.slackTurn_ok {h : Hw} {ap : Nat} {held : List Nat} (hk : h.Ok) : (Hw.slackTurn h ap held).Ok := by
  unfold Hw.slackTurn
  extract_lets +onlyGivenNames v1
  extract_lets +onlyGivenNames h2
  refine Hw.Ok.cut (x := h2) ?_ fun th2 => ?_
  · subst h2
    exact Hw.bump_ok hk
  clear_value h2
  extract_lets +onlyGivenNames h3
  refine Hw.Ok.cut (x := h3) ?_ fun th3 => ?_
  · subst h3
    exact Hw.bump_ok th2
  clear_value h3
  extract_lets +onlyGivenNames h4
  refine Hw.Ok.cut (x := h4) ?_ fun th4 => ?_
  · subst h4
    exact Hw.sf_ok (Hw.sf_ok (Hw.sf_ok th3))
  clear_value h4
  exact Hw.sf_ok th4

theorem Hw.unitsToSlack_ok {h : Hw} (hk : h.Ok) : (Hw.unitsToSlack h).Ok := by
  unfold Hw.unitsToSlack
  generalize upTo 18 = ns18
  refine Hw.Ok.forEach ?_ fun x1 h2 th2 => ?_
  · exact hk
  · extract_lets +onlyGivenNames v3
    refine Hw.Ok.ite (fun _ => ?_) (fun _ => ?_)
    · exact th2
    · refine Hw.Ok.ite (fun _ => ?_) (fun _ => ?_)
      · exact Hw.canaries_ok (Hw.Ok.touches th2 set_pwr_touches)
      · exact Hw.fillUnit_ok th2

theorem Hw.showUnits_ok {h : Hw} {old : Hw} {st : Nat → Nat} (hk : h.Ok) : (Hw.showUnits h old st).Ok := by
  unfold Hw.showUnits
  generalize upTo 18 = ns18
  refine Hw.Ok.forEach ?_ fun x1 h2 th2 => ?_
  · exact hk
  · extract_lets +onlyGivenNames h3
    refine Hw.Ok.cut (x := h3) ?_ fun th3 => ?_
    · subst h3
      exact Hw.sf_ok (Hw.sf_ok th2)
    clear_value h3
    extract_lets +onlyGivenNames h4
    refine Hw.Ok.cut (x := h4) ?_ fun th4 => ?_
    · subst h4
      exact Hw.sf_ok th3
    clear_value h4
    exact Hw.setUnit_ok th4

theorem Hw.slackClear_ok {h : Hw} {saved : List (Nat × Nat)} (ok : h.Ok) : (h.slackClear saved).Ok :=
  have c : h.coreClear.Ok := Hw.coreClear_ok ok
  { regs := c.regs, mem := c.mem, ecc := c.ecc, tcnt := c.tcnt, elog := ok.elog, tspiQ := c.tspiQ, tspiRx := c.tspiRx, sspiRx := c.sspiRx,
    stamps := c.stamps, radioQ := c.radioQ, radioDone := c.radioDone, i2cTx := c.i2cTx, i2cRx := c.i2cRx, marks := c.marks,
    serialRx := c.serialRx, serialTx := c.serialTx, serialWake := c.serialWake }

theorem Hw.slackSerial_ok {h : Hw} {old : Hw} {n : Nat} (hk : h.Ok) : (Hw.slackSerial h old n).Ok := by
  unfold Hw.slackSerial
  extract_lets +onlyGivenNames v1 v2
  extract_lets +onlyGivenNames h3
  refine Hw.Ok.cut (x := h3) ?_ fun th3 => ?_
  · subst h3
    refine Hw.setSerial_ok ?_ ?_ ?_ ?_
    · exact hk
    · exact Nat.zero_le _
    · exact Nat.zero_le _
    · exact Nat.zero_le _
  clear_value h3
  extract_lets +onlyGivenNames h4
  refine Hw.Ok.cut (x := h4) ?_ fun th4 => ?_
  · subst h4
    exact Hw.setReg_ok th3
  clear_value h4
  exact Hw.setReg_ok (Hw.setReg_ok (Hw.setReg_ok th4))

theorem Hw.slackReady_ok {h : Hw} (hk : h.Ok) : (Hw.slackReady h).Ok := by
  unfold Hw.slackReady
  refine Hw.Ok.ite (fun _ => ?_) (fun _ => ?_)
  · exact Hw.loadCountdown_ok (Hw.hsSave_ok hk)
  · exact hk

theorem Hw.slackEnter_ok {h : Hw} (hk : h.Ok) : (Hw.slackEnter h).Ok := by
  unfold Hw.slackEnter
  extract_lets +onlyGivenNames h1
  refine Hw.Ok.cut (x := h1) ?_ fun th1 => ?_
  · subst h1
    exact Hw.slackReady_ok hk
  clear_value h1
  extract_lets +onlyGivenNames h2
  refine Hw.Ok.cut (x := h2) ?_ fun th2 => ?_
  · subst h2
    exact Hw.bump_ok (Hw.sf_ok th1)
  clear_value h2
  extract_lets +onlyGivenNames h3
  refine Hw.Ok.cut (x := h3) ?_ fun th3 => ?_
  · subst h3
    exact Hw.sf_ok (Hw.sf_ok (Hw.sf_ok th2))
  clear_value h3
  extract_lets +onlyGivenNames v4
  extract_lets +onlyGivenNames h5
  refine Hw.Ok.cut (x := h5) ?_ fun th5 => ?_
  · subst h5
    refine Hw.Ok.forEach ?_ fun x6 h7 th7 => ?_
    · exact th3
    · exact Hw.mramDone_ok th7
  clear_value h5
  extract_lets +onlyGivenNames h8
  refine Hw.Ok.cut (x := h8) ?_ fun th8 => ?_
  · subst h8
    exact Hw.unitsToSlack_ok (Hw.slowEnter_ok (Hw.slowEnter_ok th5))
  clear_value h8
  extract_lets +onlyGivenNames h9
  refine Hw.Ok.cut (x := h9) ?_ fun th9 => ?_
  · subst h9
    exact Hw.slackSerial_ok (Hw.slackSerial_ok (Hw.slackClear_ok th8))
  clear_value h9
  extract_lets +onlyGivenNames h10
  refine Hw.Ok.cut (x := h10) ?_ fun th10 => ?_
  · subst h10
    exact Hw.setReg_ok th9
  clear_value h10
  extract_lets +onlyGivenNames h11
  refine Hw.Ok.cut (x := h11) ?_ fun th11 => ?_
  · subst h11
    exact Hw.sf_ok (Hw.sf_ok th10)
  clear_value h11
  extract_lets +onlyGivenNames h12
  refine Hw.Ok.cut (x := h12) ?_ fun th12 => ?_
  · subst h12
    exact Hw.showUnits_ok th11
  clear_value h12
  exact Hw.sf_ok (Hw.sf_ok (Hw.showLifecycle_ok th12))

theorem Hw.slackRequest_ok {h : Hw} {v : Nat} {ap : Nat} {held : List Nat} (hk : h.Ok) : (Hw.slackRequest h v ap held).Ok := by
  unfold Hw.slackRequest
  refine Hw.Ok.ite (fun _ => ?_) (fun _ => ?_)
  · exact hk
  · extract_lets +onlyGivenNames h1
    refine Hw.Ok.cut (x := h1) ?_ fun th1 => ?_
    · subst h1
      exact Hw.plDone_ok hk
    clear_value h1
    extract_lets +onlyGivenNames v2 v3
    refine Hw.Ok.ite (fun _ => ?_) (fun _ => ?_)
    · exact Hw.slackTurn_ok th1
    · refine Hw.Ok.ite (fun _ => ?_) (fun _ => ?_)
      · extract_lets +onlyGivenNames h4
        refine Hw.Ok.cut (x := h4) ?_ fun th4 => ?_
        · subst h4
          refine Hw.Ok.ite (fun _ => ?_) (fun _ => ?_)
          · exact Hw.slowExit_ok (Hw.slowExit_ok (Hw.slowEnter_ok (Hw.slowEnter_ok th1)))
          · exact th1
        clear_value h4
        exact Hw.slackTurn_ok th4
      · exact Hw.slackEnter_ok th1

theorem Hw.serialRestore_ok {h : Hw} {n : Nat} (hk : h.Ok) : (Hw.serialRestore h n).Ok := by
  unfold Hw.serialRestore
  extract_lets +onlyGivenNames v1 v2 v3
  refine Hw.setSerial_ok ?_ ?_ ?_ ?_
  · exact hk
  · exact hk.serialRx _
  · exact hk.serialTx _
  · exact hk.serialWake _

theorem Hw.wakeLinks_ok {h : Hw} (hk : h.Ok) : (Hw.wakeLinks h).Ok := hk.touches Hw.wakeLinks_touches

theorem Hw.cellsLost_ok {h : Hw} {lost : List (Nat × Nat)} (hk : h.Ok) : (Hw.cellsLost h lost).Ok := hk.touches Hw.cellsLost_touches

theorem Hw.wakeUnit_ok {h : Hw} {u : Nat} (hk : h.Ok) : (Hw.wakeUnit h u).Ok := by
  unfold Hw.wakeUnit
  refine Hw.Ok.ite (fun _ => ?_) (fun _ => ?_)
  · exact hk
  · refine Hw.Ok.ite (fun _ => ?_) (fun _ => ?_)
    · extract_lets +onlyGivenNames v1
      extract_lets +onlyGivenNames h2
      refine Hw.Ok.cut (x := h2) ?_ fun th2 => ?_
      · subst h2
        exact Hw.retentionCheck_ok hk
      clear_value h2
      extract_lets +onlyGivenNames v3
      extract_lets +onlyGivenNames h4
      refine Hw.Ok.cut (x := h4) ?_ fun th4 => ?_
      · subst h4
        refine Hw.Ok.ite (fun _ => ?_) (fun _ => ?_)
        · exact Hw.sf_ok th2
        · exact th2
      clear_value h4
      refine Hw.Ok.ite (fun _ => ?_) (fun _ => ?_)
      · exact Hw.setUnit_ok th4
      · exact th4
    · refine Hw.Ok.ite (fun _ => ?_) (fun _ => ?_)
      · exact hk
      · exact Hw.setUnit_ok (Hw.fillUnit_ok hk)

theorem Hw.wakeStart_ok {h : Hw} {kept : Bool} {facts : HotFacts} (hk : h.Ok) : (Hw.wakeStart h kept facts).Ok := by
  unfold Hw.wakeStart
  refine Hw.Ok.ite (fun _ => ?_) (fun _ => ?_)
  · exact Hw.setHot_ok hk
  · extract_lets +onlyGivenNames h1
    refine Hw.Ok.cut (x := h1) ?_ fun th1 => ?_
    · subst h1
      split
      · exact Hw.report_ok hk
      · exact hk
    clear_value h1
    exact Hw.hotLoad_ok th1

theorem Hw.wakeUp_ok {h : Hw} {src : Nat} {saveOk : Bool} {lost : List (Nat × Nat)} {facts : HotFacts} {wipeBad : Nat} (hk : h.Ok) : (Hw.wakeUp h src saveOk lost facts wipeBad).Ok := by
  unfold Hw.wakeUp
  generalize upTo 18 = ns18
  extract_lets +onlyGivenNames h1
  refine Hw.Ok.cut (x := h1) ?_ fun th1 => ?_
  · subst h1
    exact Hw.sf_ok (Hw.sf_ok hk)
  clear_value h1
  refine Hw.Ok.ite (fun _ => ?_) (fun _ => ?_)
  · exact Hw.coreReset_ok th1
  · extract_lets +onlyGivenNames v2 v3
    extract_lets +onlyGivenNames h4
    refine Hw.Ok.cut (x := h4) ?_ fun th4 => ?_
    · subst h4
      refine set_pwr_tcnt_ok ?_ ?_
      · exact th1
      · omega
    clear_value h4
    extract_lets +onlyGivenNames h5
    refine Hw.Ok.cut (x := h5) ?_ fun th5 => ?_
    · subst h5
      exact Hw.planWake_ok th4
    clear_value h5
    extract_lets +onlyGivenNames h6
    refine Hw.Ok.cut (x := h6) ?_ fun th6 => ?_
    · subst h6
      exact Hw.restoreSaved_ok th5
    clear_value h6
    extract_lets +onlyGivenNames h7
    refine Hw.Ok.cut (x := h7) ?_ fun th7 => ?_
    · subst h7
      exact Hw.wdRestart_ok th6
    clear_value h7
    extract_lets +onlyGivenNames h8
    refine Hw.Ok.cut (x := h8) ?_ fun th8 => ?_
    · subst h8
      refine Hw.Ok.forEach ?_ fun x9 h10 th10 => ?_
      · exact th7
      · exact Hw.serialRestore_ok th10
    clear_value h8
    extract_lets +onlyGivenNames h11
    refine Hw.Ok.cut (x := h11) ?_ fun th11 => ?_
    · subst h11
      refine Hw.Ok.forEach ?_ fun x12 h13 th13 => ?_
      · exact th8
      · refine Hw.Ok.ite (fun _ => ?_) (fun _ => ?_)
        · exact th13
        · exact Hw.sf_ok th13
    clear_value h11
    extract_lets +onlyGivenNames h14
    refine Hw.Ok.cut (x := h14) ?_ fun th14 => ?_
    · subst h14
      exact Hw.cellsLost_ok th11
    clear_value h14
    extract_lets +onlyGivenNames v15
    extract_lets +onlyGivenNames h16
    refine Hw.Ok.cut (x := h16) ?_ fun th16 => ?_
    · subst h16
      refine Hw.Ok.forEach ?_ fun x17 h18 th18 => ?_
      · exact th14
      · exact Hw.wakeUnit_ok th18
    clear_value h16
    extract_lets +onlyGivenNames h19
    refine Hw.Ok.cut (x := h19) ?_ fun th19 => ?_
    · subst h19
      refine Hw.sf_ok ?_
      refine Hw.Ok.ite (fun _ => ?_) (fun _ => ?_)
      · exact Hw.wipeWhole_ok th16
      · exact th16
    clear_value h19
    extract_lets +onlyGivenNames h20
    refine Hw.Ok.cut (x := h20) ?_ fun th20 => ?_
    · subst h20
      exact Hw.wakeBuffer_ok (Hw.wakeBuffer_ok th19)
    clear_value h20
    extract_lets +onlyGivenNames h21
    refine Hw.Ok.cut (x := h21) ?_ fun th21 => ?_
    · subst h21
      exact Hw.logTampers_ok (Hw.wakeLinks_ok (Hw.sf_ok th20))
    clear_value h21
    exact Hw.wakeStart_ok th21

theorem Hw.wakeSource_ok {h : Hw} {src : Nat} {saveOk : Bool} {lost : List (Nat × Nat)} {facts : HotFacts} {wipeBad : Nat} (hk : h.Ok) : (Hw.wakeSource h src saveOk lost facts wipeBad).Ok := by
  unfold Hw.wakeSource
  refine Hw.Ok.ite (fun _ => ?_) (fun _ => ?_)
  · exact hk
  · extract_lets +onlyGivenNames h1
    refine Hw.Ok.cut (x := h1) ?_ fun th1 => ?_
    · subst h1
      exact Hw.flagSource_ok hk
    clear_value h1
    refine Hw.Ok.ite (fun _ => ?_) (fun _ => ?_)
    · exact th1
    · split
      · exact Hw.stopEnd_ok th1
      · exact Hw.wakeUp_ok th1
      · exact th1

theorem Hw.tamperWipe_ok {h : Hw} {tamper : Bool} {n : Nat} (hk : h.Ok) : (Hw.tamperWipe h tamper n).Ok := by
  unfold Hw.tamperWipe
  refine Hw.Ok.ite (fun _ => ?_) (fun _ => ?_)
  · exact hk
  · refine Hw.Ok.ite (fun _ => ?_) (fun _ => ?_)
    · exact Hw.slackWipe_ok hk
    · exact Hw.wipeRequest_ok hk

theorem Hw.domainWake_ok {h : Hw} {d : Nat} (hk : h.Ok) : (Hw.domainWake h d).Ok := by
  unfold Hw.domainWake
  refine Hw.Ok.ite (fun _ => ?_) (fun _ => ?_)
  · extract_lets +onlyGivenNames h1
    refine Hw.Ok.cut (x := h1) ?_ fun th1 => ?_
    · subst h1
      exact Hw.wakeDomain_ok hk
    clear_value h1
    exact Hw.Ok.touches th1 set_resp_touches
  · exact hk

theorem Hw.domainUnit_ok {h : Hw} {u : Nat} (hk : h.Ok) : (Hw.domainUnit h u).Ok := by
  unfold Hw.domainUnit
  refine Hw.Ok.ite (fun _ => ?_) (fun _ => ?_)
  · exact hk
  · refine Hw.Ok.ite (fun _ => ?_) (fun _ => ?_)
    · exact Hw.setUnit_ok hk
    · refine Hw.Ok.ite (fun _ => ?_) (fun _ => ?_)
      · exact Hw.setUnit_ok (Hw.fillUnit_ok hk)
      · exact hk

theorem Hw.domainReady_ok {h : Hw} {d : Nat} (hk : h.Ok) : (Hw.domainReady h d).Ok := by
  unfold Hw.domainReady
  refine Hw.Ok.ite (fun _ => ?_) (fun _ => ?_)
  · exact hk
  · extract_lets +onlyGivenNames h1
    refine Hw.Ok.cut (x := h1) ?_ fun th1 => ?_
    · subst h1
      exact Hw.restoreSaved_ok (Hw.setDom_ok hk)
    clear_value h1
    split
    · exact Hw.initScan_ok (Hw.domainUnit_ok (Hw.Ok.touches th1 set_hitch_touches))
    · extract_lets +onlyGivenNames v6
      extract_lets +onlyGivenNames h7
      refine Hw.Ok.cut (x := h7) ?_ fun th7 => ?_
      · subst h7
        exact Hw.domainUnit_ok (Hw.domainUnit_ok th1)
      clear_value h7
      refine Hw.Ok.ite (fun _ => ?_) (fun _ => ?_)
      · exact th7
      · refine Hw.Ok.ite (fun _ => ?_) (fun _ => ?_)
        · exact Hw.loadKernels_ok (Hw.slotsEmpty_ok th7)
        · exact Hw.slotsEmpty_ok th7
    · refine Hw.Ok.forEach ?_ fun x10 h11 th11 => ?_
      · exact th1
      · exact Hw.domainUnit_ok th11
    · exact th1

end Sys2Proof.Machine
end

