-- ==== Sys2Proof/Laws/OkSession.lean ====
section
/-! SUPPORT. Every operation of Machine/Session.lean keeps the invariant of the part. -/

set_option Elab.async false

namespace Sys2Proof.Machine

theorem Hw.dropSubs_ok {h : Hw} {l : Nat} (hk : h.Ok) : (Hw.dropSubs h l).Ok := hk.touches Hw.dropSubs_touches

theorem Hw.fallBack_ok {h : Hw} {l : Nat} (hk : h.Ok) : (Hw.fallBack h l).Ok := hk.touches Hw.fallBack_touches

theorem Hw.transferAbandon_ok {h : Hw} (hk : h.Ok) : (Hw.transferAbandon h).Ok := hk.touches Hw.transferAbandon_touches

theorem Hw.lydEnd_ok {h : Hw} (hk : h.Ok) : (Hw.lydEnd h).Ok := by
  unfold Hw.lydEnd
  refine Hw.Ok.ite (fun _ => ?_) (fun _ => ?_)
  · exact hk
  · extract_lets +onlyGivenNames h1
    refine Hw.Ok.cut (x := h1) ?_ fun th1 => ?_
    · subst h1
      exact Hw.transferAbandon_ok (Hw.fallBack_ok hk)
    clear_value h1
    extract_lets +onlyGivenNames v2
    extract_lets +onlyGivenNames h3
    refine Hw.Ok.cut (x := h3) ?_ fun th3 => ?_
    · subst h3
      exact Hw.setLink_ok th1
    clear_value h3
    extract_lets +onlyGivenNames h4
    refine Hw.Ok.cut (x := h4) ?_ fun th4 => ?_
    · subst h4
      exact Hw.setReg_ok th3
    clear_value h4
    extract_lets +onlyGivenNames v5
    extract_lets +onlyGivenNames h6
    refine Hw.Ok.cut (x := h6) ?_ fun th6 => ?_
    · subst h6
      exact Hw.Ok.touches th4 set_lyd_touches
    clear_value h6
    exact Hw.uartShadow_ok th6

theorem Hw.noSession_ok {h : Hw} (hk : h.Ok) : (Hw.noSession h).Ok := by
  unfold Hw.noSession
  exact Hw.bump_ok hk

theorem Hw.lydValid_ok {h : Hw} (hk : h.Ok) : (Hw.lydValid h).Ok := by
  unfold Hw.lydValid
  extract_lets +onlyGivenNames v1
  extract_lets +onlyGivenNames h2
  refine Hw.Ok.cut (x := h2) ?_ fun th2 => ?_
  · subst h2
    exact Hw.Ok.touches hk set_lyd_touches
  clear_value h2
  refine Hw.Ok.ite (fun _ => ?_) (fun _ => ?_)
  · exact Hw.sf_ok (Hw.Ok.touches th2 set_lyd_touches)
  · exact th2

theorem Hw.lydAttach_ok {h : Hw} (hk : h.Ok) : (Hw.lydAttach h).Ok := by
  unfold Hw.lydAttach
  extract_lets +onlyGivenNames h1
  refine Hw.Ok.cut (x := h1) ?_ fun th1 => ?_
  · subst h1
    exact Hw.lydEnd_ok hk
  clear_value h1
  extract_lets +onlyGivenNames v2 v3
  extract_lets +onlyGivenNames h4
  refine Hw.Ok.cut (x := h4) ?_ fun th4 => ?_
  · subst h4
    exact Hw.Ok.touches th1 set_lyd_touches
  clear_value h4
  extract_lets +onlyGivenNames h5
  refine Hw.Ok.cut (x := h5) ?_ fun th5 => ?_
  · subst h5
    exact Hw.sf_ok (Hw.sf_ok th4)
  clear_value h5
  exact Hw.wowellSend_ok th5

theorem Hw.lydKeep_ok {h : Hw} {sid : Nat} (hk : h.Ok) : (Hw.lydKeep h sid).Ok := by
  unfold Hw.lydKeep
  refine Hw.Ok.ite (fun _ => ?_) (fun _ => ?_)
  · exact Hw.lydValid_ok hk
  · exact Hw.noSession_ok hk

theorem Hw.lydDetach_ok {h : Hw} {sid : Nat} (hk : h.Ok) : (Hw.lydDetach h sid).Ok := by
  unfold Hw.lydDetach
  refine Hw.Ok.ite (fun _ => ?_) (fun _ => ?_)
  · exact Hw.lydEnd_ok hk
  · exact Hw.noSession_ok hk

theorem Hw.lydRate_ok {h : Hw} {sid : Nat} {inc : Nat} {mod : Nat} (hk : h.Ok) : (Hw.lydRate h sid inc mod).Ok := by
  unfold Hw.lydRate
  refine Hw.Ok.ite (fun _ => ?_) (fun _ => ?_)
  · exact Hw.noSession_ok hk
  · extract_lets +onlyGivenNames h1
    refine Hw.Ok.cut (x := h1) ?_ fun th1 => ?_
    · subst h1
      exact Hw.lydValid_ok hk
    clear_value h1
    extract_lets +onlyGivenNames v2 v3
    extract_lets +onlyGivenNames h4
    refine Hw.Ok.cut (x := h4) ?_ fun th4 => ?_
    · subst h4
      exact Hw.wowellSend_ok th1
    clear_value h4
    refine Hw.Ok.ite (fun _ => ?_) (fun _ => ?_)
    · exact Hw.sf_ok (Hw.Ok.touches th4 set_lyd_touches)
    · exact th4

theorem Hw.lydSent_ok {h : Hw} (hk : h.Ok) : (Hw.lydSent h).Ok := by
  unfold Hw.lydSent
  split
  · exact hk
  · refine Hw.Ok.ite (fun _ => ?_) (fun _ => ?_)
    · exact Hw.Ok.touches hk set_lyd_touches
    · extract_lets +onlyGivenNames v7
      extract_lets +onlyGivenNames h8
      refine Hw.Ok.cut (x := h8) ?_ fun th8 => ?_
      · subst h8
        exact Hw.Ok.touches hk set_lyd_touches
      clear_value h8
      exact Hw.uartShadow_ok th8

theorem Hw.charSent_ok {h : Hw} {n : Nat} {d : Nat} {par : Bool} {stop : Bool} {noise : Bool} {cts : Bool} (hk : h.Ok) : (Hw.charSent h n d par stop noise cts).Ok := by
  unfold Hw.charSent
  refine Hw.Ok.ite (fun _ => ?_) (fun _ => ?_)
  · exact Hw.uartSent_ok (Hw.lydSent_ok hk)
  · exact Hw.uartSent_ok hk

theorem Hw.lydTimeout_ok {h : Hw} (hk : h.Ok) : (Hw.lydTimeout h).Ok := by
  unfold Hw.lydTimeout
  refine Hw.Ok.ite (fun _ => ?_) (fun _ => ?_)
  · exact hk
  · exact Hw.lydEnd_ok (Hw.reach_ok hk)

theorem Hw.lydRateTimeout_ok {h : Hw} (hk : h.Ok) : (Hw.lydRateTimeout h).Ok := by
  unfold Hw.lydRateTimeout
  split
  · exact hk
  · exact Hw.lydEnd_ok (Hw.reach_ok hk)

theorem Hw.serviceExpiry_ok {h : Hw} (hk : h.Ok) : (Hw.serviceExpiry h).Ok := by
  unfold Hw.serviceExpiry
  refine Hw.Ok.ite (fun _ => ?_) (fun _ => ?_)
  · extract_lets +onlyGivenNames h1
    refine Hw.Ok.cut (x := h1) ?_ fun th1 => ?_
    · subst h1
      exact Hw.reach_ok hk
    clear_value h1
    exact Hw.sf_ok (Hw.setLink_ok th1)
  · exact hk

theorem Hw.sessionTimeout_ok {h : Hw} {l : Nat} (hk : h.Ok) : (Hw.sessionTimeout h l).Ok := by
  unfold Hw.sessionTimeout
  refine Hw.Ok.ite (fun _ => ?_) (fun _ => ?_)
  · exact hk
  · extract_lets +onlyGivenNames h1
    refine Hw.Ok.cut (x := h1) ?_ fun th1 => ?_
    · subst h1
      exact Hw.reach_ok hk
    clear_value h1
    refine Hw.Ok.ite (fun _ => ?_) (fun _ => ?_)
    · exact Hw.lydEnd_ok th1
    · exact Hw.fallBack_ok th1

end Sys2Proof.Machine
end

