-- ==== Sys2Proof/Laws/OkPhoneKey.lean ====
section
/-! SUPPORT. Every operation of Machine/PhoneKey.lean keeps the invariant of the part. -/

set_option Elab.async false

namespace Sys2Proof.Machine

theorem Hw.setPkey_ok {h : Hw} {p : PKey} (hk : h.Ok) : (Hw.setPkey h p).Ok := hk.touches Hw.setPkey_touches

theorem Hw.pulseStart_ok {h : Hw} {i : Nat} (hk : h.Ok) : (Hw.pulseStart h i).Ok := by
  unfold Hw.pulseStart
  exact Hw.bump_ok (Hw.sf_ok hk)

theorem Hw.outCommand_ok {h : Hw} {i : Nat} (hk : h.Ok) : (Hw.outCommand h i).Ok := by
  unfold Hw.outCommand
  refine Hw.Ok.ite (fun _ => ?_) (fun _ => ?_)
  · exact Hw.sf_ok hk
  · refine Hw.Ok.ite (fun _ => ?_) (fun _ => ?_)
    · exact Hw.setPkey_ok (Hw.sf_ok hk)
    · exact Hw.pulseStart_ok hk

theorem Hw.outWrite_ok {h : Hw} {v : Nat} (hk : h.Ok) : (Hw.outWrite h v).Ok := by
  unfold Hw.outWrite
  extract_lets +onlyGivenNames h1
  refine Hw.Ok.cut (x := h1) ?_ fun th1 => ?_
  · subst h1
    refine Hw.Ok.ite (fun _ => ?_) (fun _ => ?_)
    · exact Hw.outCommand_ok hk
    · exact hk
  clear_value h1
  refine Hw.Ok.ite (fun _ => ?_) (fun _ => ?_)
  · exact Hw.outCommand_ok th1
  · exact th1

theorem Hw.pulseEnd_ok {h : Hw} {i : Nat} (hk : h.Ok) : (Hw.pulseEnd h i).Ok := by
  unfold Hw.pulseEnd
  exact Hw.sf_ok hk

theorem Hw.pulseDelayed_ok {h : Hw} (hk : h.Ok) : (Hw.pulseDelayed h).Ok := by
  unfold Hw.pulseDelayed
  split
  · exact hk
  · exact Hw.pulseStart_ok (Hw.setPkey_ok hk)

theorem Hw.setConn_ok {h : Hw} {k : Nat} {c : PhoneConn} (hk : h.Ok) : (Hw.setConn h k c).Ok := hk.touches Hw.setConn_touches

theorem Hw.connEnd_ok {h : Hw} {k : Nat} (hk : h.Ok) : (Hw.connEnd h k).Ok := hk.touches Hw.connEnd_touches

theorem Hw.phoneSend_ok {h : Hw} {k : Nat} {msg : List Nat} (hk : h.Ok) : (Hw.phoneSend h k msg).Ok := hk.touches Hw.phoneSend_touches

theorem Hw.strike_ok {h : Hw} {k : Nat} {outcome : Nat} {id : Nat} (hk : h.Ok) : (Hw.strike h k outcome id).Ok := by
  unfold Hw.strike
  split
  · exact hk
  · extract_lets +onlyGivenNames h6
    refine Hw.Ok.cut (x := h6) ?_ fun th6 => ?_
    · subst h6
      exact Hw.phoneSend_ok (Hw.report_ok hk)
    clear_value h6
    extract_lets +onlyGivenNames h7
    refine Hw.Ok.cut (x := h7) ?_ fun th7 => ?_
    · subst h7
      exact Hw.setConn_ok th6
    clear_value h7
    refine Hw.Ok.ite (fun _ => ?_) (fun _ => ?_)
    · exact th7
    · extract_lets +onlyGivenNames h8
      refine Hw.Ok.cut (x := h8) ?_ fun th8 => ?_
      · subst h8
        exact Hw.connEnd_ok th7
      clear_value h8
      exact Hw.setPkey_ok th8

theorem Hw.barExpiry_ok {h : Hw} {a : Nat} (hk : h.Ok) : (Hw.barExpiry h a).Ok := by
  unfold Hw.barExpiry
  split
  · exact hk
  · extract_lets +onlyGivenNames h6
    refine Hw.Ok.cut (x := h6) ?_ fun th6 => ?_
    · subst h6
      exact Hw.reach_ok hk
    clear_value h6
    exact Hw.setPkey_ok th6

theorem Hw.nonce_ok {h : Hw} (hk : h.Ok) : (Hw.nonce h).2.Ok := hk.touches Hw.nonce_touches

theorem Hw.pkeyToken_ok {h : Hw} {k : Nat} {addr : Nat} {enc : Bool} {msg : List Nat} (hk : h.Ok) : (Hw.pkeyToken h k addr enc msg).Ok := by
  unfold Hw.pkeyToken
  refine Hw.Ok.ite (fun _ => ?_) (fun _ => ?_)
  · exact hk
  · split
    · exact Hw.phoneSend_ok hk
    · extract_lets +onlyGivenNames v6 v7 v8
      split
      · extract_lets +onlyGivenNames v12
        extract_lets +onlyGivenNames h13
        refine Hw.Ok.cut (x := h13) ?_ fun th13 => ?_
        · subst h13
          exact Hw.setConn_ok hk
        clear_value h13
        refine Hw.Ok.ite (fun _ => ?_) (fun _ => ?_)
        · exact Hw.phoneSend_ok th13
        · exact Hw.strike_ok th13
      · split
        · rename_i a16 a17 h18 e19
          refine Hw.Ok.cut (x := h18) (Hw.Ok.snd ?_ e19) fun th18 => ?_
          · exact Hw.nonce_ok hk
          exact Hw.phoneSend_ok (Hw.setConn_ok th18)

theorem Hw.pkeyProof_ok {h : Hw} {k : Nat} {sig : List Nat} (hk : h.Ok) : (Hw.pkeyProof h k sig).Ok := by
  unfold Hw.pkeyProof
  split
  · exact hk
  · refine Hw.Ok.ite (fun _ => ?_) (fun _ => ?_)
    · exact hk
    · extract_lets +onlyGivenNames v6 v7
      refine Hw.Ok.ite (fun _ => ?_) (fun _ => ?_)
      · exact Hw.setConn_ok hk
      · exact Hw.strike_ok (Hw.setConn_ok hk)

theorem Hw.proofTimeout_ok {h : Hw} {k : Nat} (hk : h.Ok) : (Hw.proofTimeout h k).Ok := by
  unfold Hw.proofTimeout
  split
  · exact hk
  · refine Hw.Ok.ite (fun _ => ?_) (fun _ => ?_)
    · exact hk
    · exact Hw.strike_ok (Hw.setConn_ok (Hw.reach_ok hk))

theorem Hw.pairing_ok {h : Hw} {k : Nat} {entry : List Nat} (hk : h.Ok) : (Hw.pairing h k entry).Ok := by
  unfold Hw.pairing
  split
  · exact hk
  · refine Hw.Ok.ite (fun _ => ?_) (fun _ => ?_)
    · exact hk
    · split
      · exact Hw.phoneSend_ok hk
      · split
        · exact Hw.sf_ok hk
        · extract_lets +onlyGivenNames v16
          split
          · rename_i a17 a18 h19 e20
            refine Hw.Ok.cut (x := h19) (Hw.Ok.snd ?_ e20) fun th19 => ?_
            · exact Hw.journalWrite_ok hk
            exact th19
          · rename_i a21 h22 e23
            refine Hw.Ok.cut (x := h22) (Hw.Ok.snd ?_ e23) fun th22 => ?_
            · exact Hw.journalWrite_ok hk
            extract_lets +onlyGivenNames h24
            refine Hw.Ok.cut (x := h24) ?_ fun th24 => ?_
            · subst h24
              exact Hw.mramSet_ok th22
            clear_value h24
            extract_lets +onlyGivenNames v25
            extract_lets +onlyGivenNames h26
            refine Hw.Ok.cut (x := h26) ?_ fun th26 => ?_
            · subst h26
              exact Hw.setPkey_ok th24
            clear_value h26
            exact Hw.setConn_ok th26

theorem Hw.bondDelete_ok {h : Hw} {b : Nat} (hk : h.Ok) : (Hw.bondDelete h b).Ok := by
  unfold Hw.bondDelete
  generalize upTo 512 = ns512
  refine Hw.Ok.ite (fun _ => ?_) (fun _ => ?_)
  · exact hk
  · extract_lets +onlyGivenNames h1
    refine Hw.Ok.cut (x := h1) ?_ fun th1 => ?_
    · subst h1
      refine Hw.Ok.forEach ?_ fun x2 h3 th3 => ?_
      · exact hk
      · split
        · refine Hw.Ok.ite (fun _ => ?_) (fun _ => ?_)
          · exact Hw.connEnd_ok th3
          · exact th3
        · exact th3
    clear_value h1
    extract_lets +onlyGivenNames v9
    extract_lets +onlyGivenNames h10
    refine Hw.Ok.cut (x := h10) ?_ fun th10 => ?_
    · subst h10
      exact Hw.setPkey_ok th1
    clear_value h10
    extract_lets +onlyGivenNames h11
    refine Hw.Ok.cut (x := h11) ?_ fun th11 => ?_
    · subst h11
      refine Hw.Ok.forEach ?_ fun x12 h13 th13 => ?_
      · exact th10
      · refine Hw.Ok.ite (fun _ => ?_) (fun _ => ?_)
        · exact Hw.mramSet_ok th13
        · exact th13
    clear_value h11
    exact Hw.journalDelete_ok th11

theorem Hw.act_ok {h : Hw} {action : Nat} {source : Nat} {bond : Nat} {outcome : Nat} {id : Nat} (hk : h.Ok) : (Hw.act h action source bond outcome id).Ok := by
  unfold Hw.act
  extract_lets +onlyGivenNames v1 v2
  extract_lets +onlyGivenNames h3
  refine Hw.Ok.cut (x := h3) ?_ fun th3 => ?_
  · subst h3
    refine Hw.Ok.ite (fun _ => ?_) (fun _ => ?_)
    · exact Hw.canSend_ok hk
    · exact hk
  clear_value h3
  refine Hw.Ok.ite (fun _ => ?_) (fun _ => ?_)
  · exact Hw.outCommand_ok th3
  · exact th3

theorem Hw.remote_ok {h : Hw} {action : Nat} {source : Nat} {fleet : Bool} (hk : h.Ok) : (Hw.remote h action source fleet).Ok := by
  unfold Hw.remote
  refine Hw.Ok.ite (fun _ => ?_) (fun _ => ?_)
  · exact hk
  · refine Hw.Ok.ite (fun _ => ?_) (fun _ => ?_)
    · exact Hw.act_ok hk
    · exact Hw.bump_ok hk

theorem Hw.accessFrame_ok {h : Hw} {n : Nat} (hk : h.Ok) : (Hw.accessFrame h n).Ok := by
  unfold Hw.accessFrame
  extract_lets +onlyGivenNames v1
  split
  · refine Hw.Ok.ite (fun _ => ?_) (fun _ => ?_)
    · exact Hw.remote_ok (Hw.setCan_ok hk)
    · exact hk
  · exact hk

theorem Hw.decide__ok {h : Hw} {k : Nat} {action : Nat} (hk : h.Ok) : (Hw.decide_ h k action).Ok := by
  unfold Hw.decide_
  extract_lets +onlyGivenNames v1 v2 v3 v4
  extract_lets +onlyGivenNames h5
  refine Hw.Ok.cut (x := h5) ?_ fun th5 => ?_
  · subst h5
    refine Hw.Ok.ite (fun _ => ?_) (fun _ => ?_)
    · exact Hw.report_ok hk
    · exact hk
  clear_value h5
  extract_lets +onlyGivenNames h6
  refine Hw.Ok.cut (x := h6) ?_ fun th6 => ?_
  · subst h6
    exact Hw.phoneSend_ok th5
  clear_value h6
  extract_lets +onlyGivenNames v7
  extract_lets +onlyGivenNames h8
  refine Hw.Ok.cut (x := h8) ?_ fun th8 => ?_
  · subst h8
    exact Hw.setPkey_ok th6
  clear_value h8
  refine Hw.Ok.ite (fun _ => ?_) (fun _ => ?_)
  · extract_lets +onlyGivenNames h9
    refine Hw.Ok.cut (x := h9) ?_ fun th9 => ?_
    · subst h9
      refine Hw.Ok.ite (fun _ => ?_) (fun _ => ?_)
      · exact Hw.setConn_ok th8
      · exact th8
    clear_value h9
    exact Hw.act_ok th9
  · exact th8

theorem Hw.cmdUnlock_ok {h : Hw} {k : Nat} (hk : h.Ok) : (Hw.cmdUnlock h k).Ok := by
  unfold Hw.cmdUnlock
  split
  · exact hk
  · refine Hw.Ok.ite (fun _ => ?_) (fun _ => ?_)
    · exact Hw.decide__ok hk
    · exact hk

theorem Hw.cmdLock_ok {h : Hw} {k : Nat} (hk : h.Ok) : (Hw.cmdLock h k).Ok := by
  unfold Hw.cmdLock
  refine Hw.Ok.ite (fun _ => ?_) (fun _ => ?_)
  · exact Hw.decide__ok hk
  · exact hk

theorem Hw.csStart_ok {h : Hw} {k : Nat} (hk : h.Ok) : (Hw.csStart h k).Ok := hk.touches Hw.csStart_touches

theorem Hw.csDone_ok {h : Hw} {k : Nat} {radio : Bool} {tones : List (Nat × Int)} {rtts : List Int} (hk : h.Ok) : (Hw.csDone h k radio tones rtts).Ok := by
  unfold Hw.csDone
  split
  · exact hk
  · refine Hw.Ok.ite (fun _ => ?_) (fun _ => ?_)
    · exact hk
    · extract_lets +onlyGivenNames v6
      split
      · exact Hw.setConn_ok hk
      · refine Hw.Ok.ite (fun _ => ?_) (fun _ => ?_)
        · exact Hw.setConn_ok hk
        · extract_lets +onlyGivenNames h12
          refine Hw.Ok.cut (x := h12) ?_ fun th12 => ?_
          · subst h12
            exact Hw.setConn_ok hk
          clear_value h12
          refine Hw.Ok.ite (fun _ => ?_) (fun _ => ?_)
          · exact Hw.decide__ok th12
          · exact th12

theorem Hw.advertise_ok {h : Hw} (hk : h.Ok) : (Hw.advertise h).Ok := hk.touches Hw.advertise_touches

theorem Hw.connsSplice_ok {h : Hw} (hk : h.Ok) : (Hw.connsSplice h).Ok := hk.touches Hw.connsSplice_touches

end Sys2Proof.Machine
end

