-- ==== Sys2Proof/Laws/OkUpdate.lean ====
section
/-! SUPPORT. Every operation of Machine/Update.lean keeps the invariant of the part. -/

set_option Elab.async false

namespace Sys2Proof.Machine

theorem Hw.setUpd_ok {h : Hw} {u : Update} (hk : h.Ok) : (Hw.setUpd h u).Ok := hk.touches Hw.setUpd_touches

theorem Hw.updRefuse_ok {h : Hw} {code : Nat} (hk : h.Ok) : (Hw.updRefuse h code).2.Ok := hk.touches Hw.updRefuse_touches

theorem Hw.updTry_ok {h : Hw} {checks : List (Option Nat)} {f : Hw → Option Nat × Hw} (ok : h.Ok)
    (hf : ∀ g, g.Ok → (f g).2.Ok) : (h.updTry checks f).2.Ok := by
  unfold Hw.updTry
  split
  · exact Hw.updRefuse_ok ok
  · exact hf _ ok

theorem Hw.updBegin_ok {h : Hw} {l : Nat} {b : Nat} {ver : Nat} (hk : h.Ok) : (Hw.updBegin h l b ver).2.Ok := hk.touches Hw.updBegin_touches

theorem Hw.updBlock_ok {h : Hw} {l : Nat} {n : Nat} {crc : Nat} {data : List Nat} (hk : h.Ok) : (Hw.updBlock h l n crc data).2.Ok := by
  unfold Hw.updBlock
  refine Hw.updTry_ok ?_ fun h1 th1 => ?_
  · exact hk
  · extract_lets +onlyGivenNames v2
    refine Hw.Ok.ite2 (fun _ => ?_) (fun _ => ?_)
    · exact Hw.Ok.pair (Hw.report_ok th1)
    · extract_lets +onlyGivenNames v3 v4
      exact Hw.Ok.pair (Hw.setUpd_ok (Hw.mramSet_ok th1))

theorem Hw.updCancel_ok {h : Hw} (hk : h.Ok) : (Hw.updCancel h).Ok := hk.touches Hw.updCancel_touches

theorem Hw.updTimeout_ok {h : Hw} (hk : h.Ok) : (Hw.updTimeout h).Ok := by
  unfold Hw.updTimeout
  refine Hw.Ok.ite (fun _ => ?_) (fun _ => ?_)
  · exact hk
  · exact Hw.transferAbandon_ok (Hw.reach_ok hk)

theorem Hw.growRing_ok {h : Hw} (hk : h.Ok) : (Hw.growRing h).Ok := by
  unfold Hw.growRing
  extract_lets +onlyGivenNames h1
  refine Hw.Ok.cut (x := h1) ?_ fun th1 => ?_
  · subst h1
    exact Hw.sf_ok hk
  clear_value h1
  extract_lets +onlyGivenNames v2 v3
  extract_lets +onlyGivenNames h4
  refine Hw.Ok.cut (x := h4) ?_ fun th4 => ?_
  · subst h4
    refine Hw.Ok.ite (fun _ => ?_) (fun _ => ?_)
    · exact Hw.hitchCtrl_ok th1
    · exact th1
  clear_value h4
  extract_lets +onlyGivenNames v5
  extract_lets +onlyGivenNames h6
  refine Hw.Ok.cut (x := h6) ?_ fun th6 => ?_
  · subst h6
    exact Hw.sf_ok th4
  clear_value h6
  refine Hw.Ok.ite (fun _ => ?_) (fun _ => ?_)
  · exact Hw.sf_ok th6
  · exact th6

theorem Hw.setAges_ok {h : Hw} {xs : List (Nat × Nat)} (hk : h.Ok) : (Hw.setAges h xs).Ok := by
  unfold Hw.setAges
  split
  · exact hk
  · refine Hw.ringBell_ok ?_
    refine Hw.Ok.forEach ?_ fun x4 h5 th5 => ?_
    · exact hk
    · exact Hw.commitObject_ok (Hw.memWrite_ok th5)

theorem Hw.raiseAges_ok {h : Hw} (hk : h.Ok) : (Hw.raiseAges h).Ok := by
  unfold Hw.raiseAges
  extract_lets +onlyGivenNames v1
  extract_lets +onlyGivenNames h2
  refine Hw.Ok.cut (x := h2) ?_ fun th2 => ?_
  · subst h2
    exact Hw.setAges_ok hk
  clear_value h2
  exact Hw.setUpd_ok th2

theorem Hw.writeHandover_ok {h : Hw} (hk : h.Ok) : (Hw.writeHandover h).Ok := by
  unfold Hw.writeHandover
  split
  · rename_i a1 a2 h3 e4
    refine Hw.Ok.cut (x := h3) (Hw.Ok.snd ?_ e4) fun th3 => ?_
    · exact Hw.fresh_ok hk
    split
    · rename_i a5 a6 h7 e8
      refine Hw.Ok.cut (x := h7) (Hw.Ok.snd ?_ e8) fun th7 => ?_
      · exact Hw.fresh_ok th3
      split
      · rename_i a9 a10 h11 e12
        refine Hw.Ok.cut (x := h11) (Hw.Ok.snd ?_ e12) fun th11 => ?_
        · exact Hw.freshWords_ok th7
        extract_lets +onlyGivenNames v13
        exact Hw.eccClear_ok (Hw.storeBytes_ok th11)

theorem Hw.sessionsEnd_ok {h : Hw} (hk : h.Ok) : (Hw.sessionsEnd h).Ok := by
  unfold Hw.sessionsEnd
  extract_lets +onlyGivenNames h1
  refine Hw.Ok.cut (x := h1) ?_ fun th1 => ?_
  · subst h1
    exact Hw.lydEnd_ok hk
  clear_value h1
  extract_lets +onlyGivenNames h2
  refine Hw.Ok.cut (x := h2) ?_ fun th2 => ?_
  · subst h2
    refine Hw.Ok.forEach ?_ fun x3 h4 th4 => ?_
    · exact th1
    · extract_lets +onlyGivenNames v5
      exact Hw.setLink_ok th4
  clear_value h2
  exact Hw.Ok.touches th2 set_fw_touches

theorem Hw.spliceStart_ok {h : Hw} {target : Nat} {trial : Bool} (hk : h.Ok) : (Hw.spliceStart h target trial).Ok := by
  unfold Hw.spliceStart
  extract_lets +onlyGivenNames h1
  refine Hw.Ok.cut (x := h1) ?_ fun th1 => ?_
  · subst h1
    exact Hw.bump_ok (Hw.sf_ok hk)
  clear_value h1
  extract_lets +onlyGivenNames v2
  extract_lets +onlyGivenNames h3
  refine Hw.Ok.cut (x := h3) ?_ fun th3 => ?_
  · subst h3
    exact Hw.setUpd_ok th1
  clear_value h3
  exact Hw.connsSplice_ok (Hw.sf_ok (Hw.wdRestart_ok (Hw.transferAbandon_ok (Hw.sessionsEnd_ok (Hw.holdStart_ok th3)))))

theorem Hw.updConfirmHw_ok {h : Hw} (hk : h.Ok) : (Hw.updConfirmHw h).Ok := by
  unfold Hw.updConfirmHw
  refine Hw.Ok.ite (fun _ => ?_) (fun _ => ?_)
  · exact Hw.sf_ok hk
  · exact hk

theorem Hw.updCtrl_ok {h : Hw} {v : Nat} (hk : h.Ok) : (Hw.updCtrl h v).Ok := by
  unfold Hw.updCtrl
  extract_lets +onlyGivenNames h1
  refine Hw.Ok.cut (x := h1) ?_ fun th1 => ?_
  · subst h1
    exact Hw.writeFields_ok hk
  clear_value h1
  extract_lets +onlyGivenNames h2
  refine Hw.Ok.cut (x := h2) ?_ fun th2 => ?_
  · subst h2
    refine Hw.Ok.ite (fun _ => ?_) (fun _ => ?_)
    · exact Hw.updConfirmHw_ok th1
    · exact th1
  clear_value h2
  refine Hw.Ok.ite (fun _ => ?_) (fun _ => ?_)
  · exact Hw.spliceStart_ok th2
  · exact th2

theorem Hw.bootRecord_ok {h : Hw} {active : Nat} {trial : Bool} (hk : h.Ok) : (Hw.bootRecord h active trial).Ok := hk.touches Hw.bootRecord_touches

theorem Hw.recordVersion_ok {h : Hw} (hk : h.Ok) : (Hw.recordVersion h).Ok := hk.touches Hw.recordVersion_touches

theorem Hw.updPrepare_ok {h : Hw} {l : Nat} (hk : h.Ok) : (Hw.updPrepare h l).2.Ok := by
  unfold Hw.updPrepare
  refine Hw.updTry_ok ?_ fun h1 th1 => ?_
  · exact hk
  · extract_lets +onlyGivenNames h2
    refine Hw.Ok.cut (x := h2) ?_ fun th2 => ?_
    · subst h2
      exact Hw.bootRecord_ok (Hw.recordVersion_ok th1)
    clear_value h2
    split
    · rename_i a3 a4 h5 e6
      refine Hw.Ok.cut (x := h5) (Hw.Ok.snd ?_ e6) fun th5 => ?_
      · exact Hw.journalWrite_ok th2
      exact Hw.Ok.pair (th1)
    · rename_i a7 h8 e9
      refine Hw.Ok.cut (x := h8) (Hw.Ok.snd ?_ e9) fun th8 => ?_
      · exact Hw.journalWrite_ok th2
      exact Hw.Ok.pair (Hw.writeHandover_ok (Hw.raiseAges_ok (Hw.growRing_ok th8)))

theorem Hw.updGo_ok {h : Hw} (hk : h.Ok) : (Hw.updGo h).Ok := by
  unfold Hw.updGo
  exact Hw.updCtrl_ok hk

theorem Hw.updActivate_ok {h : Hw} {l : Nat} (hk : h.Ok) : (Hw.updActivate h l).2.Ok := by
  unfold Hw.updActivate
  split
  · rename_i a1 h2 e3
    refine Hw.Ok.cut (x := h2) (Hw.Ok.snd ?_ e3) fun th2 => ?_
    · exact Hw.updPrepare_ok hk
    exact Hw.Ok.pair (Hw.updGo_ok th2)
  · exact Hw.updPrepare_ok hk

theorem Hw.spliceImage_ok {h : Hw} {target : Nat} {trial : Bool} {vendor : List (List Nat)} (hk : h.Ok) : (Hw.spliceImage h target trial vendor).Ok := by
  unfold Hw.spliceImage
  extract_lets +onlyGivenNames h1
  refine Hw.Ok.cut (x := h1) ?_ fun th1 => ?_
  · subst h1
    exact Hw.journalScan_ok hk
  clear_value h1
  extract_lets +onlyGivenNames v2
  refine Hw.Ok.ite (fun _ => ?_) (fun _ => ?_)
  · extract_lets +onlyGivenNames h3
    refine Hw.Ok.cut (x := h3) ?_ fun th3 => ?_
    · subst h3
      exact Hw.sf_ok (Hw.sf_ok th1)
    clear_value h3
    extract_lets +onlyGivenNames h4
    refine Hw.Ok.cut (x := h4) ?_ fun th4 => ?_
    · subst h4
      exact Hw.sf_ok (Hw.sf_ok th3)
    clear_value h4
    exact Hw.Ok.touches th4 set_fw_touches
  · exact Hw.keepRecords_ok (Hw.bootRecord_ok (Hw.sf_ok (Hw.sf_ok (Hw.sf_ok th1))))

theorem Hw.firmwareAgain_ok {h : Hw} (hk : h.Ok) : (Hw.firmwareAgain h).Ok := hk.touches Hw.firmwareAgain_touches

theorem Hw.handover_ok {h : Hw} {us : Nat} {vendor : List (List Nat)} (hk : h.Ok) : (Hw.handover h us vendor).Ok := by
  unfold Hw.handover
  split
  · exact hk
  · extract_lets +onlyGivenNames h8
    refine Hw.Ok.cut (x := h8) ?_ fun th8 => ?_
    · subst h8
      exact Hw.spliceImage_ok (Hw.reach_ok hk)
    clear_value h8
    extract_lets +onlyGivenNames h9
    refine Hw.Ok.cut (x := h9) ?_ fun th9 => ?_
    · subst h9
      exact Hw.sf_ok th8
    clear_value h9
    extract_lets +onlyGivenNames v10
    extract_lets +onlyGivenNames h11
    refine Hw.Ok.cut (x := h11) ?_ fun th11 => ?_
    · subst h11
      exact Hw.setUpd_ok th9
    clear_value h11
    extract_lets +onlyGivenNames h12
    refine Hw.Ok.cut (x := h12) ?_ fun th12 => ?_
    · subst h12
      exact Hw.firmwareAgain_ok th11
    clear_value h12
    extract_lets +onlyGivenNames h13
    refine Hw.Ok.cut (x := h13) ?_ fun th13 => ?_
    · subst h13
      exact Hw.sf_ok th12
    clear_value h13
    extract_lets +onlyGivenNames v14 v15
    extract_lets +onlyGivenNames h16
    refine Hw.Ok.cut (x := h16) ?_ fun th16 => ?_
    · subst h16
      refine Hw.Ok.ite (fun _ => ?_) (fun _ => ?_)
      · exact th12
      · exact Hw.Ok.touches th13 set_hot_pkey_fix_touches
    clear_value h16
    split
    · rename_i a17 a18 h19 e20
      refine Hw.Ok.cut (x := h19) (Hw.Ok.snd ?_ e20) fun th19 => ?_
      · exact Hw.fresh_ok th16
      extract_lets +onlyGivenNames h21
      refine Hw.Ok.cut (x := h21) ?_ fun th21 => ?_
      · subst h21
        exact Hw.setReg_ok th19
      clear_value h21
      extract_lets +onlyGivenNames h22
      refine Hw.Ok.cut (x := h22) ?_ fun th22 => ?_
      · subst h22
        exact Hw.setAges_ok (Hw.holdRelease_ok th21)
      clear_value h22
      exact Hw.setUpd_ok th22

theorem Hw.trialTimeout_ok {h : Hw} (hk : h.Ok) : (Hw.trialTimeout h).Ok := by
  unfold Hw.trialTimeout
  refine Hw.Ok.ite (fun _ => ?_) (fun _ => ?_)
  · exact hk
  · extract_lets +onlyGivenNames h1
    refine Hw.Ok.cut (x := h1) ?_ fun th1 => ?_
    · subst h1
      exact Hw.sf_ok (Hw.reach_ok hk)
    clear_value h1
    extract_lets +onlyGivenNames v2
    extract_lets +onlyGivenNames h3
    refine Hw.Ok.cut (x := h3) ?_ fun th3 => ?_
    · subst h3
      exact Hw.setUpd_ok th1
    clear_value h3
    extract_lets +onlyGivenNames v4 v5
    refine Hw.Ok.ite (fun _ => ?_) (fun _ => ?_)
    · exact Hw.spliceStart_ok th3
    · exact Hw.sf_ok (Hw.sf_ok th3)

theorem Hw.otpSet_ok {h : Hw} {v : Nat} (hk : h.Ok) : (Hw.otpSet h v).Ok := by
  unfold Hw.otpSet
  extract_lets +onlyGivenNames h1
  refine Hw.Ok.cut (x := h1) ?_ fun th1 => ?_
  · subst h1
    refine Hw.Ok.ite (fun _ => ?_) (fun _ => ?_)
    · exact Hw.sf_ok hk
    · exact hk
  clear_value h1
  extract_lets +onlyGivenNames v2
  refine Hw.Ok.ite (fun _ => ?_) (fun _ => ?_)
  · exact Hw.sf_ok th1
  · extract_lets +onlyGivenNames v3
    exact Hw.sf_ok (Hw.Ok.touches th1 set_fuses_touches)

theorem Hw.updConfirm_ok {h : Hw} (hk : h.Ok) : (Hw.updConfirm h).2.Ok := by
  unfold Hw.updConfirm
  refine Hw.updTry_ok ?_ fun h1 th1 => ?_
  · exact hk
  · extract_lets +onlyGivenNames v2
    extract_lets +onlyGivenNames h3
    refine Hw.Ok.cut (x := h3) ?_ fun th3 => ?_
    · subst h3
      exact Hw.fwKeep_ok (Hw.bootRecord_ok (Hw.updConfirmHw_ok th1))
    clear_value h3
    extract_lets +onlyGivenNames v4
    refine Hw.Ok.pair ?_
    refine Hw.Ok.ite (fun _ => ?_) (fun _ => ?_)
    · exact Hw.otpSet_ok th3
    · exact th3

end Sys2Proof.Machine
end

