-- ==== Sys2Proof/Laws/OkBackground.lean ====
section
/-! SUPPORT. Every operation of Machine/Background.lean keeps the invariant of the part. -/

set_option Elab.async false

namespace Sys2Proof.Machine

theorem Hw.elogWrite_ok {h : Hw} (hk : h.Ok) : (Hw.elogWrite h).Ok := by
  unfold Hw.elogWrite
  split
  · exact hk
  · extract_lets +onlyGivenNames v7 v8 v9
    extract_lets +onlyGivenNames h10
    refine Hw.Ok.cut (x := h10) ?_ fun th10 => ?_
    · subst h10
      refine set_elogQ_ok ?_ ?_
      · exact hk
      · (have k := hk.elog; simp_all +zetaDelta <;> omega)
    clear_value h10
    extract_lets +onlyGivenNames h11
    refine Hw.Ok.cut (x := h11) ?_ fun th11 => ?_
    · subst h11
      exact Hw.setReg_ok (Hw.setReg_ok (Hw.setReg_ok th10))
    clear_value h11
    extract_lets +onlyGivenNames h12
    refine Hw.Ok.cut (x := h12) ?_ fun th12 => ?_
    · subst h12
      exact Hw.setReg_ok th11
    clear_value h12
    extract_lets +onlyGivenNames h13
    refine Hw.Ok.cut (x := h13) ?_ fun th13 => ?_
    · subst h13
      refine Hw.Ok.ite (fun _ => ?_) (fun _ => ?_)
      · exact Hw.sf_ok th12
      · exact Hw.sf_ok (Hw.sf_ok th12)
    clear_value h13
    refine Hw.Ok.ite (fun _ => ?_) (fun _ => ?_)
    · exact Hw.sf_ok th13
    · exact th13

theorem Hw.elogCtrl_ok {h : Hw} {v : Nat} (hk : h.Ok) : (Hw.elogCtrl h v).Ok := by
  unfold Hw.elogCtrl
  generalize upTo 64 = ns64
  extract_lets +onlyGivenNames h1
  refine Hw.Ok.cut (x := h1) ?_ fun th1 => ?_
  · subst h1
    exact Hw.writeFields_ok hk
  clear_value h1
  refine Hw.Ok.ite (fun _ => ?_) (fun _ => ?_)
  · exact th1
  · extract_lets +onlyGivenNames h2
    refine Hw.Ok.cut (x := h2) ?_ fun th2 => ?_
    · subst h2
      refine Hw.Ok.forEach ?_ fun x3 h4 th4 => ?_
      · exact th1
      · extract_lets +onlyGivenNames v5
        refine Hw.Ok.ite (fun _ => ?_) (fun _ => ?_)
        · exact Hw.setReg_ok th4
        · exact th4
    clear_value h2
    exact Hw.sf_ok (Hw.sf_ok (Hw.sf_ok th2))

theorem Hw.elogSoft_ok {h : Hw} {v : Nat} (hk : h.Ok) : (Hw.elogSoft h v).Ok := by
  unfold Hw.elogSoft
  exact Hw.report_ok hk

theorem Hw.mpuCtrl_ok {h : Hw} {v : Nat} (hk : h.Ok) : (Hw.mpuCtrl h v).Ok := by
  unfold Hw.mpuCtrl
  extract_lets +onlyGivenNames h1
  refine Hw.Ok.cut (x := h1) ?_ fun th1 => ?_
  · subst h1
    refine Hw.Ok.ite (fun _ => ?_) (fun _ => ?_)
    · exact hk
    · exact Hw.writeFields_ok hk
  clear_value h1
  refine Hw.Ok.ite (fun _ => ?_) (fun _ => ?_)
  · exact Hw.sf_ok th1
  · exact th1

theorem Hw.setScrub_ok {h : Hw} {k : Nat} {v : Nat} (hk : h.Ok) : (Hw.setScrub h k v).Ok := hk.touches Hw.setScrub_touches

theorem Hw.scrubForget_ok {h : Hw} {a : Nat} (hk : h.Ok) : (Hw.scrubForget h a).Ok := hk.touches Hw.scrubForget_touches

theorem Hw.scrubWord_ok {h : Hw} {a : Nat} (hk : h.Ok) : (Hw.scrubWord h a).Ok := by
  unfold Hw.scrubWord
  split
  · exact Hw.scrubForget_ok hk
  · extract_lets +onlyGivenNames v5
    extract_lets +onlyGivenNames h6
    refine Hw.Ok.cut (x := h6) ?_ fun th6 => ?_
    · subst h6
      exact Hw.scrubForget_ok (Hw.correct_ok hk)
    clear_value h6
    extract_lets +onlyGivenNames v7
    extract_lets +onlyGivenNames h8
    refine Hw.Ok.cut (x := h8) ?_ fun th8 => ?_
    · subst h8
      exact Hw.Ok.touches th6 set_memu_touches
    clear_value h8
    refine Hw.Ok.ite (fun _ => ?_) (fun _ => ?_)
    · exact Hw.repairStart_ok th8
    · exact th8
  · extract_lets +onlyGivenNames h12
    refine Hw.Ok.cut (x := h12) ?_ fun th12 => ?_
    · subst h12
      exact Hw.report_ok (Hw.sf_ok (Hw.bump_ok hk))
    clear_value h12
    exact Hw.repairStart_ok th12

theorem Hw.scrubUnit_ok {h : Hw} {u : Nat} (hk : h.Ok) : (Hw.scrubUnit h u).Ok := by
  unfold Hw.scrubUnit
  extract_lets +onlyGivenNames v1 v2
  refine Hw.Ok.ite (fun _ => ?_) (fun _ => ?_)
  · exact hk
  · split
    · exact Hw.setScrub_ok (Hw.scrubWord_ok hk)
    · exact hk

theorem Hw.scrubLocal_ok {h : Hw} {k : Nat} {key : Nat} {n : Nat} (hk : h.Ok) : (Hw.scrubLocal h k key n).Ok := by
  unfold Hw.scrubLocal
  extract_lets +onlyGivenNames v1
  extract_lets +onlyGivenNames h2
  refine Hw.Ok.cut (x := h2) ?_ fun th2 => ?_
  · subst h2
    split
    · exact hk
    · exact Hw.correct_ok hk
    · exact Hw.report_ok (Hw.bump_ok hk)
  clear_value h2
  exact Hw.setScrub_ok th2

theorem Hw.scrubCount_ok {h : Hw} (hk : h.Ok) : (Hw.scrubCount h).Ok := by
  unfold Hw.scrubCount
  extract_lets +onlyGivenNames v1
  refine Hw.Ok.ite (fun _ => ?_) (fun _ => ?_)
  · exact Hw.setScrub_ok hk
  · extract_lets +onlyGivenNames h2
    refine Hw.Ok.cut (x := h2) ?_ fun th2 => ?_
    · subst h2
      exact Hw.count_ok (Hw.setScrub_ok hk)
    clear_value h2
    extract_lets +onlyGivenNames h3
    refine Hw.Ok.cut (x := h3) ?_ fun th3 => ?_
    · subst h3
      exact Hw.sf_ok th2
    clear_value h3
    exact Hw.Ok.touches th3 set_memu_bgnd_touches

theorem Hw.scrub_ok {h : Hw} (hk : h.Ok) : (Hw.scrub h).Ok := by
  unfold Hw.scrub
  generalize upTo 18 = ns18
  generalize upTo 32 = ns32
  refine Hw.Ok.ite (fun _ => ?_) (fun _ => ?_)
  · exact hk
  · extract_lets +onlyGivenNames h1
    refine Hw.Ok.cut (x := h1) ?_ fun th1 => ?_
    · subst h1
      refine Hw.Ok.forEach ?_ fun x2 h3 th3 => ?_
      · exact hk
      · exact Hw.scrubUnit_ok th3
    clear_value h1
    refine Hw.Ok.ite (fun _ => ?_) (fun _ => ?_)
    · exact th1
    · extract_lets +onlyGivenNames h4
      refine Hw.Ok.cut (x := h4) ?_ fun th4 => ?_
      · subst h4
        refine Hw.Ok.forEach ?_ fun x5 h6 th6 => ?_
        · exact th1
        · refine Hw.Ok.ite (fun _ => ?_) (fun _ => ?_)
          · exact Hw.scrubLocal_ok th6
          · exact th6
      clear_value h4
      extract_lets +onlyGivenNames h7
      refine Hw.Ok.cut (x := h7) ?_ fun th7 => ?_
      · subst h7
        refine Hw.Ok.forEach ?_ fun x8 h9 th9 => ?_
        · exact th4
        · refine Hw.Ok.ite (fun _ => ?_) (fun _ => ?_)
          · exact Hw.scrubLocal_ok th9
          · exact th9
      clear_value h7
      exact Hw.scrubCount_ok th7

theorem Hw.mscrubWord_ok {h : Hw} (hk : h.Ok) : (Hw.mscrubWord h).Ok := by
  unfold Hw.mscrubWord
  extract_lets +onlyGivenNames v1 v2
  extract_lets +onlyGivenNames h3
  refine Hw.Ok.cut (x := h3) ?_ fun th3 => ?_
  · subst h3
    split
    · exact hk
    · exact Hw.bump_ok hk
    · exact Hw.setEcc_ok (Hw.bump_ok hk)
    · exact Hw.report_ok (Hw.sf_ok (Hw.bump_ok hk))
  clear_value h3
  extract_lets +onlyGivenNames v14
  extract_lets +onlyGivenNames h15
  refine Hw.Ok.cut (x := h15) ?_ fun th15 => ?_
  · subst h15
    exact Hw.Ok.touches th3 set_memu_touches
  clear_value h15
  refine Hw.Ok.ite (fun _ => ?_) (fun _ => ?_)
  · exact Hw.count_ok th15
  · exact th15

theorem Hw.mscrub_ok {h : Hw} (hk : h.Ok) : (Hw.mscrub h).Ok := by
  unfold Hw.mscrub
  generalize upTo 64 = ns64
  refine Hw.Ok.ite (fun _ => ?_) (fun _ => ?_)
  · exact hk
  · refine Hw.Ok.forEach ?_ fun x1 h2 th2 => ?_
    · exact hk
    · exact Hw.mscrubWord_ok th2

theorem Hw.thermal_ok {h : Hw} {ts : List Int} (hk : h.Ok) : (Hw.thermal h ts).Ok := by
  unfold Hw.thermal
  extract_lets +onlyGivenNames v1
  extract_lets +onlyGivenNames h2
  refine Hw.Ok.cut (x := h2) ?_ fun th2 => ?_
  · subst h2
    exact Hw.sf_ok hk
  clear_value h2
  extract_lets +onlyGivenNames v3
  extract_lets +onlyGivenNames h4
  refine Hw.Ok.cut (x := h4) ?_ fun th4 => ?_
  · subst h4
    exact Hw.Ok.touches th2 set_sys_touches
  clear_value h4
  refine Hw.Ok.ite (fun _ => ?_) (fun _ => ?_)
  · refine Hw.Ok.ite (fun _ => ?_) (fun _ => ?_)
    · exact Hw.sf_ok th4
    · exact th4
  · refine Hw.Ok.ite (fun _ => ?_) (fun _ => ?_)
    · exact Hw.report_ok (Hw.sf_ok th4)
    · exact th4

theorem Hw.overtemp_ok {h : Hw} {ts : List Int} (hk : h.Ok) : (Hw.overtemp h ts).Ok := by
  unfold Hw.overtemp
  extract_lets +onlyGivenNames v1 v2
  extract_lets +onlyGivenNames h3
  refine Hw.Ok.cut (x := h3) ?_ fun th3 => ?_
  · subst h3
    exact Hw.Ok.touches hk set_sys_touches
  clear_value h3
  refine Hw.Ok.ite (fun _ => ?_) (fun _ => ?_)
  · refine Hw.Ok.ite (fun _ => ?_) (fun _ => ?_)
    · exact Hw.sf_ok th3
    · exact th3
  · refine Hw.Ok.ite (fun _ => ?_) (fun _ => ?_)
    · exact Hw.report_ok (Hw.sf_ok th3)
    · exact th3

theorem Hw.calStale_ok {h : Hw} {ts4 : Int} (hk : h.Ok) : (Hw.calStale h ts4).Ok := by
  unfold Hw.calStale
  refine Hw.Ok.ite (fun _ => ?_) (fun _ => ?_)
  · refine Hw.sf_ok ?_
    refine Hw.setRadio_ok ?_ ?_ ?_
    · exact hk
    · exact hk.radioQ
    · exact hk.radioDone
  · exact hk

theorem Hw.tempSample_ok {h : Hw} {ts : List Int} {rails : List Nat} (hk : h.Ok) : (Hw.tempSample h ts rails).Ok := by
  unfold Hw.tempSample
  refine Hw.Ok.ite (fun _ => ?_) (fun _ => ?_)
  · exact hk
  · extract_lets +onlyGivenNames v1 v2
    extract_lets +onlyGivenNames h3
    refine Hw.Ok.cut (x := h3) ?_ fun th3 => ?_
    · subst h3
      refine Hw.Ok.forEach ?_ fun x4 h5 th5 => ?_
      · exact hk
      · exact Hw.sf_ok (Hw.sf_ok th5)
    clear_value h3
    extract_lets +onlyGivenNames h6
    refine Hw.Ok.cut (x := h6) ?_ fun th6 => ?_
    · subst h6
      exact Hw.sf_ok (Hw.sf_ok th3)
    clear_value h6
    extract_lets +onlyGivenNames h7
    refine Hw.Ok.cut (x := h7) ?_ fun th7 => ?_
    · subst h7
      exact Hw.sf_ok (Hw.sf_ok th6)
    clear_value h7
    extract_lets +onlyGivenNames v8
    extract_lets +onlyGivenNames h9
    refine Hw.Ok.cut (x := h9) ?_ fun th9 => ?_
    · subst h9
      exact Hw.Ok.touches th7 set_bgnd_touches
    clear_value h9
    exact Hw.calStale_ok (Hw.overtemp_ok (Hw.thermal_ok th9))

theorem Hw.notice_ok {h : Hw} {idx : Nat} {sub : Nat} {value : List Nat} (hk : h.Ok) : (Hw.notice h idx sub value).Ok := hk.touches Hw.notice_touches

theorem Hw.publish_ok {h : Hw} {sub : Nat} {v : List Nat} (hk : h.Ok) : (Hw.publish h sub v).Ok := hk.touches Hw.publish_touches

theorem Hw.setUtil_ok {h : Hw} {util : List Nat} (hk : h.Ok) : (Hw.setUtil h util).Ok := by
  unfold Hw.setUtil
  generalize upTo 32 = ns32
  extract_lets +onlyGivenNames v1
  extract_lets +onlyGivenNames h2
  refine Hw.Ok.cut (x := h2) ?_ fun th2 => ?_
  · subst h2
    exact Hw.setReg_ok hk
  clear_value h2
  extract_lets +onlyGivenNames h3
  refine Hw.Ok.cut (x := h3) ?_ fun th3 => ?_
  · subst h3
    refine Hw.Ok.forEach ?_ fun x4 h5 th5 => ?_
    · exact th2
    · exact Hw.sf_ok th5
  clear_value h3
  refine Hw.Ok.forEach ?_ fun x6 h7 th7 => ?_
  · exact th3
  · exact Hw.sf_ok th7

theorem Hw.teleAnalog_ok {h : Hw} (hk : h.Ok) : (Hw.teleAnalog h).Ok := hk.touches Hw.teleAnalog_touches

theorem Hw.teleCounts_ok {h : Hw} (hk : h.Ok) : (Hw.teleCounts h).Ok := by
  unfold Hw.teleCounts
  extract_lets +onlyGivenNames h1
  refine Hw.Ok.cut (x := h1) ?_ fun th1 => ?_
  · subst h1
    exact Hw.publish_ok hk
  clear_value h1
  extract_lets +onlyGivenNames h2
  refine Hw.Ok.cut (x := h2) ?_ fun th2 => ?_
  · subst h2
    exact Hw.publish_ok th1
  clear_value h2
  extract_lets +onlyGivenNames h3
  refine Hw.Ok.cut (x := h3) ?_ fun th3 => ?_
  · subst h3
    exact Hw.setReg_ok (Hw.publish_ok th2)
  clear_value h3
  extract_lets +onlyGivenNames h4
  refine Hw.Ok.cut (x := h4) ?_ fun th4 => ?_
  · subst h4
    exact Hw.publish_ok th3
  clear_value h4
  extract_lets +onlyGivenNames h5
  refine Hw.Ok.cut (x := h5) ?_ fun th5 => ?_
  · subst h5
    exact Hw.setReg_ok (Hw.setReg_ok th4)
  clear_value h5
  extract_lets +onlyGivenNames h6
  refine Hw.Ok.cut (x := h6) ?_ fun th6 => ?_
  · subst h6
    exact Hw.setReg_ok (Hw.publish_ok th5)
  clear_value h6
  extract_lets +onlyGivenNames v7
  extract_lets +onlyGivenNames h8
  refine Hw.Ok.cut (x := h8) ?_ fun th8 => ?_
  · subst h8
    exact Hw.publish_ok th6
  clear_value h8
  extract_lets +onlyGivenNames h9
  refine Hw.Ok.cut (x := h9) ?_ fun th9 => ?_
  · subst h9
    exact Hw.setReg_ok th8
  clear_value h9
  exact Hw.Ok.touches th9 set_bgnd_touches

theorem Hw.teleRest_ok {h : Hw} (hk : h.Ok) : (Hw.teleRest h).Ok := hk.touches Hw.teleRest_touches

theorem Hw.nmeaSend_ok {h : Hw} {n : Nat} {bs : List Nat} (hk : h.Ok) : (Hw.nmeaSend h n bs).Ok := by
  unfold Hw.nmeaSend
  extract_lets +onlyGivenNames v1
  exact Hw.txStart_ok (Hw.setLink_ok hk)

theorem Hw.nmeaOut_ok {h : Hw} {bs : List Nat} (hk : h.Ok) : (Hw.nmeaOut h bs).Ok := by
  unfold Hw.nmeaOut
  refine Hw.Ok.ite (fun _ => ?_) (fun _ => ?_)
  · refine Hw.Ok.forEach ?_ fun x1 h2 th2 => ?_
    · exact hk
    · refine Hw.Ok.ite (fun _ => ?_) (fun _ => ?_)
      · exact Hw.nmeaSend_ok th2
      · exact th2
  · exact hk

theorem Hw.pulseCorrect_ok {h : Hw} {fix : NavFix} (hk : h.Ok) : (Hw.pulseCorrect h fix).Ok := by
  unfold Hw.pulseCorrect
  split
  · exact Hw.pulseFix_ok hk
  · exact hk

theorem Hw.telemetry_ok {h : Hw} {fix : NavFix} {util : List Nat} {nmea : List Nat} (hk : h.Ok) : (Hw.telemetry h fix util nmea).Ok := by
  unfold Hw.telemetry
  refine Hw.Ok.ite (fun _ => ?_) (fun _ => ?_)
  · exact hk
  · extract_lets +onlyGivenNames h1
    refine Hw.Ok.cut (x := h1) ?_ fun th1 => ?_
    · subst h1
      exact Hw.reach_ok hk
    clear_value h1
    extract_lets +onlyGivenNames v2 v3
    extract_lets +onlyGivenNames h4
    refine Hw.Ok.cut (x := h4) ?_ fun th4 => ?_
    · subst h4
      exact Hw.Ok.touches th1 set_upd_fix_touches
    clear_value h4
    extract_lets +onlyGivenNames h5
    refine Hw.Ok.cut (x := h5) ?_ fun th5 => ?_
    · subst h5
      exact Hw.pulseCorrect_ok (Hw.setUtil_ok th4)
    clear_value h5
    extract_lets +onlyGivenNames h6
    refine Hw.Ok.cut (x := h6) ?_ fun th6 => ?_
    · subst h6
      refine Hw.Ok.ite (fun _ => ?_) (fun _ => ?_)
      · exact Hw.teleRest_ok (Hw.teleCounts_ok (Hw.teleAnalog_ok th5))
      · exact th5
    clear_value h6
    exact Hw.nmeaOut_ok th6

theorem Hw.fwTask_ok {h : Hw} {late : Bool} (hk : h.Ok) : (Hw.fwTask h late).Ok := by
  unfold Hw.fwTask
  refine Hw.fwKeep_ok ?_
  refine Hw.Ok.ite (fun _ => ?_) (fun _ => ?_)
  · exact Hw.bump_ok hk
  · exact hk

end Sys2Proof.Machine
end

