-- ==== Sys2Proof/Laws/OkBackgroundCmds.lean ====
section
/-! SUPPORT. Every command of Machine/BackgroundCmds.lean answers a next state and keeps the invariant of the part. -/

set_option Elab.async false

namespace Sys2Proof.Machine

theorem execMpuLock_ok {v : BitVec 32} {s : State} (hk : s.hw.Ok) : ∃ h, execMpuLock v s = .next ⟨h, s.pending⟩ ∧ h.Ok := by
  refine ⟨_, rfl, ?_⟩
  simp only
  generalize s.hw = h at *
  exact Hw.mpuCtrl_ok hk

theorem execMramScrub_ok {s : State} (hk : s.hw.Ok) : ∃ h, execMramScrub s = .next ⟨h, s.pending⟩ ∧ h.Ok := by
  refine ⟨_, rfl, ?_⟩
  simp only
  generalize s.hw = h at *
  exact Hw.mscrub_ok hk

theorem execElogSwhdr_ok {v : BitVec 32} {s : State} (hk : s.hw.Ok) : ∃ h, execElogSwhdr v s = .next ⟨h, s.pending⟩ ∧ h.Ok := by
  refine ⟨_, rfl, ?_⟩
  simp only
  generalize s.hw = h at *
  exact Hw.elogSoft_ok hk

theorem execElogReport_ok {cls : Fin 16} {code : BitVec 8} {source : BitVec 8} {addr : BitVec 32} {detail : BitVec 32} {s : State} (hk : s.hw.Ok) : ∃ h, execElogReport cls code source addr detail s = .next ⟨h, s.pending⟩ ∧ h.Ok := by
  refine ⟨_, rfl, ?_⟩
  simp only
  generalize s.hw = h at *
  exact Hw.report_ok hk

theorem execElogEntryWrite_ok {s : State} (hk : s.hw.Ok) : ∃ h, execElogEntryWrite s = .next ⟨h, s.pending⟩ ∧ h.Ok := by
  refine ⟨_, rfl, ?_⟩
  simp only
  generalize s.hw = h at *
  exact Hw.elogWrite_ok hk

theorem execWhippingFwTask_ok {late : Bool} {s : State} (hk : s.hw.Ok) : ∃ h, execWhippingFwTask late s = .next ⟨h, s.pending⟩ ∧ h.Ok := by
  refine ⟨_, rfl, ?_⟩
  simp only
  generalize s.hw = h at *
  exact Hw.fwTask_ok hk

theorem execTelemetrySecond_ok {fix : NavFix} {util : List Nat} {nmea : List Nat} {s : State} (hk : s.hw.Ok) : ∃ h, execTelemetrySecond fix util nmea s = .next ⟨h, s.pending⟩ ∧ h.Ok := by
  refine ⟨_, rfl, ?_⟩
  simp only
  generalize s.hw = h at *
  exact Hw.telemetry_ok hk

theorem execElogClear_ok {v : BitVec 32} {s : State} (hk : s.hw.Ok) : ∃ h, execElogClear v s = .next ⟨h, s.pending⟩ ∧ h.Ok := by
  refine ⟨_, rfl, ?_⟩
  simp only
  generalize s.hw = h at *
  exact Hw.elogCtrl_ok hk

theorem execTempSample_ok {ts : List Int} {rails : List Nat} {s : State} (hk : s.hw.Ok) : ∃ h, execTempSample ts rails s = .next ⟨h, s.pending⟩ ∧ h.Ok := by
  refine ⟨_, rfl, ?_⟩
  simp only
  generalize s.hw = h at *
  exact Hw.tempSample_ok hk

theorem execScrubRead_ok {s : State} (hk : s.hw.Ok) : ∃ h, execScrubRead s = .next ⟨h, s.pending⟩ ∧ h.Ok := by
  refine ⟨_, rfl, ?_⟩
  simp only
  generalize s.hw = h at *
  exact Hw.scrub_ok hk

end Sys2Proof.Machine
end

