-- ==== Sys2Proof/Laws/OkPortEvents.lean ====
section
/-! SUPPORT. Every operation of Machine/PortEvents.lean keeps the invariant of the part. -/

set_option Elab.async false

namespace Sys2Proof.Machine

theorem Hw.setCoil_ok {h : Hw} {st : Nat} (hk : h.Ok) : (Hw.setCoil h st).Ok := by
  unfold Hw.setCoil
  exact Hw.sf_ok hk

theorem Hw.coilShow_ok {h : Hw} {n : Nat} (hk : h.Ok) : (Hw.coilShow h n).Ok := by
  unfold Hw.coilShow
  extract_lets +onlyGivenNames v1 v2 v3 v4
  extract_lets +onlyGivenNames h5
  refine Hw.Ok.cut (x := h5) ?_ fun th5 => ?_
  · subst h5
    exact Hw.sf_ok (Hw.sf_ok hk)
  clear_value h5
  refine Hw.Ok.ite (fun _ => ?_) (fun _ => ?_)
  · exact th5
  · exact Hw.sf_ok th5

theorem Hw.coilLetGo_ok {h : Hw} {n : Nat} (hk : h.Ok) : (Hw.coilLetGo h n).Ok := hk.touches Hw.coilLetGo_touches

theorem Hw.coilDrop_ok {h : Hw} (hk : h.Ok) : (Hw.coilDrop h).Ok := hk.touches Hw.coilDrop_touches

theorem Hw.coilAbort_ok {h : Hw} {n : Nat} (hk : h.Ok) : (Hw.coilAbort h n).Ok := by
  unfold Hw.coilAbort
  refine Hw.Ok.ite (fun _ => ?_) (fun _ => ?_)
  · exact Hw.snapLost_ok (Hw.sf_ok (Hw.setCoil_ok (Hw.coilDrop_ok hk)))
  · exact hk

theorem Hw.coilProgress_ok {h : Hw} {n : Nat} (hk : h.Ok) : (Hw.coilProgress h n).Ok := by
  unfold Hw.coilProgress
  extract_lets +onlyGivenNames v1
  split
  · exact hk
  · extract_lets +onlyGivenNames h7
    refine Hw.Ok.cut (x := h7) ?_ fun th7 => ?_
    · subst h7
      exact Hw.coilShow_ok hk
    clear_value h7
    refine Hw.Ok.ite (fun _ => ?_) (fun _ => ?_)
    · extract_lets +onlyGivenNames v8
      extract_lets +onlyGivenNames h9
      refine Hw.Ok.cut (x := h9) ?_ fun th9 => ?_
      · subst h9
        exact Hw.setPort_ok th7
      clear_value h9
      refine Hw.Ok.ite (fun _ => ?_) (fun _ => ?_)
      · split
        · rename_i a10 a11 h12 e13
          refine Hw.Ok.cut (x := h12) (Hw.Ok.snd ?_ e13) fun th12 => ?_
          · exact Hw.freshBytes_ok th9
          extract_lets +onlyGivenNames v14
          extract_lets +onlyGivenNames h15
          refine Hw.Ok.cut (x := h15) ?_ fun th15 => ?_
          · subst h15
            exact Hw.Ok.touches th12 set_hot_touches
          clear_value h15
          exact Hw.snapCheckAll_ok (Hw.sf_ok (Hw.count_ok (Hw.setCoil_ok th15)))
      · exact th9
    · exact th7

theorem Hw.coilArm_ok {h : Hw} (hk : h.Ok) : (Hw.coilArm h).Ok := by
  unfold Hw.coilArm
  refine Hw.Ok.ite (fun _ => ?_) (fun _ => ?_)
  · exact Hw.sf_ok hk
  · extract_lets +onlyGivenNames v1
    extract_lets +onlyGivenNames h2
    refine Hw.Ok.cut (x := h2) ?_ fun th2 => ?_
    · subst h2
      exact Hw.Ok.touches hk set_coil_touches
    clear_value h2
    extract_lets +onlyGivenNames h3
    refine Hw.Ok.cut (x := h3) ?_ fun th3 => ?_
    · subst h3
      refine Hw.Ok.forEach ?_ fun x4 h5 th5 => ?_
      · exact th2
      · exact Hw.setPort_ok th5
    clear_value h3
    extract_lets +onlyGivenNames h6
    refine Hw.Ok.cut (x := h6) ?_ fun th6 => ?_
    · subst h6
      refine Hw.Ok.forEach ?_ fun x7 h8 th8 => ?_
      · exact th3
      · exact Hw.setReg_ok th8
    clear_value h6
    exact Hw.sf_ok (Hw.setCoil_ok th6)

theorem Hw.coilRelease_ok {h : Hw} (hk : h.Ok) : (Hw.coilRelease h).Ok := by
  unfold Hw.coilRelease
  refine Hw.Ok.ite (fun _ => ?_) (fun _ => ?_)
  · exact Hw.snapLost_ok (Hw.setCoil_ok (Hw.coilDrop_ok hk))
  · exact hk

theorem Hw.coilAbortCmd_ok {h : Hw} (hk : h.Ok) : (Hw.coilAbortCmd h).Ok := by
  unfold Hw.coilAbortCmd
  refine Hw.Ok.ite (fun _ => ?_) (fun _ => ?_)
  · exact Hw.sf_ok (Hw.coilRelease_ok hk)
  · exact hk

theorem Hw.coilCtrl_ok {h : Hw} {v : Nat} (hk : h.Ok) : (Hw.coilCtrl h v).Ok := by
  unfold Hw.coilCtrl
  extract_lets +onlyGivenNames h1
  refine Hw.Ok.cut (x := h1) ?_ fun th1 => ?_
  · subst h1
    exact Hw.writeFields_ok hk
  clear_value h1
  extract_lets +onlyGivenNames h2
  refine Hw.Ok.cut (x := h2) ?_ fun th2 => ?_
  · subst h2
    refine Hw.Ok.ite (fun _ => ?_) (fun _ => ?_)
    · exact Hw.coilAbortCmd_ok th1
    · exact th1
  clear_value h2
  extract_lets +onlyGivenNames h3
  refine Hw.Ok.cut (x := h3) ?_ fun th3 => ?_
  · subst h3
    refine Hw.Ok.ite (fun _ => ?_) (fun _ => ?_)
    · exact Hw.coilRelease_ok th2
    · exact th2
  clear_value h3
  refine Hw.Ok.ite (fun _ => ?_) (fun _ => ?_)
  · exact Hw.coilArm_ok th3
  · exact th3

theorem Hw.coilStart_ok {h : Hw} {n : Nat} (hk : h.Ok) : (Hw.coilStart h n).Ok := by
  unfold Hw.coilStart
  extract_lets +onlyGivenNames v1
  refine Hw.Ok.ite (fun _ => ?_) (fun _ => ?_)
  · extract_lets +onlyGivenNames h2
    refine Hw.Ok.cut (x := h2) ?_ fun th2 => ?_
    · subst h2
      exact Hw.setPort_ok hk
    clear_value h2
    extract_lets +onlyGivenNames h3
    refine Hw.Ok.cut (x := h3) ?_ fun th3 => ?_
    · subst h3
      exact Hw.setCoil_ok (Hw.sf_ok th2)
    clear_value h3
    extract_lets +onlyGivenNames h4
    refine Hw.Ok.cut (x := h4) ?_ fun th4 => ?_
    · subst h4
      refine Hw.Ok.ite (fun _ => ?_) (fun _ => ?_)
      · split
        · rename_i a5 a6 h7 e8
          refine Hw.Ok.cut (x := h7) (Hw.Ok.snd ?_ e8) fun th7 => ?_
          · exact Hw.jitter_ok th3
          extract_lets +onlyGivenNames v9
          exact Hw.sf_ok (Hw.sf_ok th7)
      · exact th3
    clear_value h4
    exact Hw.coilProgress_ok th4
  · exact hk

theorem Hw.ringResume_ok {h : Hw} {n : Nat} (hk : h.Ok) : (Hw.ringResume h n).Ok := hk.touches Hw.ringResume_touches

theorem Hw.searchLost_ok {h : Hw} {n : Nat} (hk : h.Ok) : (Hw.searchLost h n).Ok := by
  unfold Hw.searchLost
  refine Hw.Ok.forEach ?_ fun x1 h2 th2 => ?_
  · exact hk
  · exact Hw.recheckStaged_ok (Hw.toIdle_ok th2)

theorem Hw.setPortState_ok {h : Hw} {n : Nat} {st : Nat} (hk : h.Ok) : (Hw.setPortState h n st).Ok := by
  unfold Hw.setPortState
  exact Hw.sf_ok hk

theorem Hw.blockEnds_ok {h : Hw} {n : Nat} (hk : h.Ok) : (Hw.blockEnds h n).Ok := by
  unfold Hw.blockEnds
  exact Hw.portWork_ok (Hw.coilProgress_ok (Hw.tagBlock_ok hk))

theorem Hw.takeSample_ok {h : Hw} {n : Nat} {iq : Nat × Nat} (hk : h.Ok) : (Hw.takeSample h n iq).Ok := by
  unfold Hw.takeSample
  extract_lets +onlyGivenNames h1
  refine Hw.Ok.cut (x := h1) ?_ fun th1 => ?_
  · subst h1
    exact Hw.sample_ok (Hw.coilStart_ok hk)
  clear_value h1
  refine Hw.Ok.ite (fun _ => ?_) (fun _ => ?_)
  · exact Hw.blockEnds_ok th1
  · exact th1

theorem Hw.samples_ok {h : Hw} {n : Nat} {b1 : List (Nat × Nat)} (hk : h.Ok) : (Hw.samples h n b1).Ok := by
  induction b1 generalizing h n hk with
  | nil =>
    unfold Hw.samples
    exact hk
  | cons y ys ih =>
    unfold Hw.samples
    exact ih (Hw.takeSample_ok hk)

theorem Hw.blockWritten_ok {h : Hw} {n : Nat} {xs : List (Nat × Nat)} (hk : h.Ok) : (Hw.blockWritten h n xs).Ok := by
  unfold Hw.blockWritten
  refine Hw.Ok.ite (fun _ => ?_) (fun _ => ?_)
  · exact Hw.samples_ok hk
  · refine Hw.Ok.ite (fun _ => ?_) (fun _ => ?_)
    · exact Hw.portWork_ok (Hw.coilProgress_ok (Hw.endSynBlock_ok hk))
    · exact hk

theorem Hw.gapBegins_ok {h : Hw} {n : Nat} (hk : h.Ok) : (Hw.gapBegins h n).Ok := hk.touches Hw.gapBegins_touches

theorem Hw.tagNow_ok {h : Hw} {n : Nat} (hk : h.Ok) : (Hw.tagNow h n).Ok := by
  unfold Hw.tagNow
  extract_lets +onlyGivenNames v1
  exact Hw.writeTag_ok hk

theorem Hw.portStop_ok {h : Hw} {n : Nat} (hk : h.Ok) : (Hw.portStop h n).Ok := by
  unfold Hw.portStop
  extract_lets +onlyGivenNames v1
  refine Hw.Ok.ite (fun _ => ?_) (fun _ => ?_)
  · exact hk
  · extract_lets +onlyGivenNames h2
    refine Hw.Ok.cut (x := h2) ?_ fun th2 => ?_
    · subst h2
      exact Hw.coilAbort_ok hk
    clear_value h2
    extract_lets +onlyGivenNames h3
    refine Hw.Ok.cut (x := h3) ?_ fun th3 => ?_
    · subst h3
      refine Hw.Ok.ite (fun _ => ?_) (fun _ => ?_)
      · exact Hw.gapBegins_ok th2
      · exact th2
    clear_value h3
    extract_lets +onlyGivenNames v4 v5
    extract_lets +onlyGivenNames h6
    refine Hw.Ok.cut (x := h6) ?_ fun th6 => ?_
    · subst h6
      exact Hw.setPort_ok th3
    clear_value h6
    extract_lets +onlyGivenNames h7
    refine Hw.Ok.cut (x := h7) ?_ fun th7 => ?_
    · subst h7
      exact Hw.setPortState_ok th6
    clear_value h7
    extract_lets +onlyGivenNames h8
    refine Hw.Ok.cut (x := h8) ?_ fun th8 => ?_
    · subst h8
      exact Hw.searchLost_ok th7
    clear_value h8
    extract_lets +onlyGivenNames h9
    refine Hw.Ok.cut (x := h9) ?_ fun th9 => ?_
    · subst h9
      exact Hw.endSynthetic_ok th8
    clear_value h9
    extract_lets +onlyGivenNames h10
    refine Hw.Ok.cut (x := h10) ?_ fun th10 => ?_
    · subst h10
      refine Hw.Ok.ite (fun _ => ?_) (fun _ => ?_)
      · exact th9
      · exact Hw.refuseWaiting_ok th9
    clear_value h10
    refine Hw.Ok.ite (fun _ => ?_) (fun _ => ?_)
    · exact Hw.settleSchedule_ok th10
    · exact th10

theorem Hw.portStart_ok {h : Hw} {n : Nat} (hk : h.Ok) : (Hw.portStart h n).Ok := by
  unfold Hw.portStart
  refine Hw.Ok.ite (fun _ => ?_) (fun _ => ?_)
  · exact hk
  · refine Hw.Ok.ite (fun _ => ?_) (fun _ => ?_)
    · exact Hw.sf_ok hk
    · extract_lets +onlyGivenNames h1
      refine Hw.Ok.cut (x := h1) ?_ fun th1 => ?_
      · subst h1
        refine Hw.Ok.forEach ?_ fun x2 h3 th3 => ?_
        · exact hk
        · exact Hw.recheckStaged_ok (Hw.toIdle_ok th3)
      clear_value h1
      extract_lets +onlyGivenNames v4
      extract_lets +onlyGivenNames h5
      refine Hw.Ok.cut (x := h5) ?_ fun th5 => ?_
      · subst h5
        exact Hw.setPort_ok th1
      clear_value h5
      extract_lets +onlyGivenNames h6
      refine Hw.Ok.cut (x := h6) ?_ fun th6 => ?_
      · subst h6
        exact Hw.hitchForget_ok th5
      clear_value h6
      extract_lets +onlyGivenNames v7
      extract_lets +onlyGivenNames h8
      refine Hw.Ok.cut (x := h8) ?_ fun th8 => ?_
      · subst h8
        exact Hw.setPort_ok th6
      clear_value h8
      extract_lets +onlyGivenNames h9
      refine Hw.Ok.cut (x := h9) ?_ fun th9 => ?_
      · subst h9
        refine Hw.Ok.ite (fun _ => ?_) (fun _ => ?_)
        · exact Hw.hitchRestart_ok th8
        · exact th8
      clear_value h9
      exact Hw.setPortState_ok th9

theorem Hw.sportCtrl_ok {h : Hw} {v : Nat} (hk : h.Ok) : (Hw.sportCtrl h v).Ok := by
  unfold Hw.sportCtrl
  extract_lets +onlyGivenNames h1
  refine Hw.Ok.cut (x := h1) ?_ fun th1 => ?_
  · subst h1
    exact Hw.writeFields_ok hk
  clear_value h1
  extract_lets +onlyGivenNames h2
  refine Hw.Ok.cut (x := h2) ?_ fun th2 => ?_
  · subst h2
    refine Hw.Ok.forEach ?_ fun x3 h4 th4 => ?_
    · exact th1
    · refine Hw.Ok.ite (fun _ => ?_) (fun _ => ?_)
      · exact Hw.portStop_ok th4
      · exact th4
  clear_value h2
  refine Hw.Ok.forEach ?_ fun x5 h6 th6 => ?_
  · exact th2
  · refine Hw.Ok.ite (fun _ => ?_) (fun _ => ?_)
    · exact Hw.portStart_ok th6
    · exact th6

theorem Hw.portRuns_ok {h : Hw} {n : Nat} {iq : Nat × Nat} (hk : h.Ok) : (Hw.portRuns h n iq).Ok := by
  unfold Hw.portRuns
  refine Hw.Ok.ite (fun _ => ?_) (fun _ => ?_)
  · extract_lets +onlyGivenNames h1
    refine Hw.Ok.cut (x := h1) ?_ fun th1 => ?_
    · subst h1
      exact Hw.setPortState_ok (Hw.latchRef_ok hk)
    clear_value h1
    exact Hw.takeSample_ok th1
  · exact hk

theorem Hw.notchSamples_ok {h : Hw} {n : Nat} {m : Nat} {xs : List (Nat × Nat)} (hk : h.Ok) : (Hw.notchSamples h n m xs).Ok := by
  unfold Hw.notchSamples
  exact Hw.notchAdaptStep_ok (Hw.samples_ok hk)

theorem Hw.stopDeclared_ok {h : Hw} {n : Nat} {xs : List (Nat × Nat)} (hk : h.Ok) : (Hw.stopDeclared h n xs).Ok := by
  unfold Hw.stopDeclared
  refine Hw.Ok.ite (fun _ => ?_) (fun _ => ?_)
  · exact hk
  · extract_lets +onlyGivenNames h1
    refine Hw.Ok.cut (x := h1) ?_ fun th1 => ?_
    · subst h1
      exact Hw.samples_ok hk
    clear_value h1
    extract_lets +onlyGivenNames h2
    refine Hw.Ok.cut (x := h2) ?_ fun th2 => ?_
    · subst h2
      exact Hw.gapBegins_ok th1
    clear_value h2
    extract_lets +onlyGivenNames h3
    refine Hw.Ok.cut (x := h3) ?_ fun th3 => ?_
    · subst h3
      exact Hw.tagNow_ok th2
    clear_value h3
    extract_lets +onlyGivenNames v4
    split
    · rename_i a5 a6 h7 e8
      refine Hw.Ok.cut (x := h7) (Hw.Ok.snd ?_ e8) fun th7 => ?_
      · exact Hw.fresh_ok th3
      extract_lets +onlyGivenNames v9
      extract_lets +onlyGivenNames h10
      refine Hw.Ok.cut (x := h10) ?_ fun th10 => ?_
      · subst h10
        exact Hw.setPort_ok th7
      clear_value h10
      extract_lets +onlyGivenNames h11
      refine Hw.Ok.cut (x := h11) ?_ fun th11 => ?_
      · subst h11
        exact Hw.bump_ok (Hw.sf_ok (Hw.setPortState_ok th10))
      clear_value h11
      exact Hw.coilAbort_ok (Hw.logPort_ok th11)

theorem Hw.discontinuity_ok {h : Hw} {n : Nat} (hk : h.Ok) : (Hw.discontinuity h n).Ok := by
  unfold Hw.discontinuity
  refine Hw.Ok.ite (fun _ => ?_) (fun _ => ?_)
  · exact hk
  · extract_lets +onlyGivenNames v1
    extract_lets +onlyGivenNames h2
    refine Hw.Ok.cut (x := h2) ?_ fun th2 => ?_
    · subst h2
      exact Hw.markSuspect_ok hk
    clear_value h2
    extract_lets +onlyGivenNames h3
    refine Hw.Ok.cut (x := h3) ?_ fun th3 => ?_
    · subst h3
      exact Hw.bump_ok (Hw.sf_ok (Hw.coilShow_ok th2))
    clear_value h3
    exact Hw.logPort_ok th3

theorem Hw.rateChange_ok {h : Hw} {n : Nat} (hk : h.Ok) : (Hw.rateChange h n).Ok := by
  unfold Hw.rateChange
  extract_lets +onlyGivenNames h1
  refine Hw.Ok.cut (x := h1) ?_ fun th1 => ?_
  · subst h1
    exact Hw.gapBegins_ok hk
  clear_value h1
  extract_lets +onlyGivenNames h2
  refine Hw.Ok.cut (x := h2) ?_ fun th2 => ?_
  · subst h2
    exact Hw.tagNow_ok th1
  clear_value h2
  extract_lets +onlyGivenNames h3
  refine Hw.Ok.cut (x := h3) ?_ fun th3 => ?_
  · subst h3
    exact Hw.sf_ok (Hw.setPortState_ok th2)
  clear_value h3
  extract_lets +onlyGivenNames h4
  refine Hw.Ok.cut (x := h4) ?_ fun th4 => ?_
  · subst h4
    exact Hw.logPort_ok th3
  clear_value h4
  exact Hw.coilAbort_ok (Hw.searchLost_ok th4)

theorem Hw.windowRun_ok {h : Hw} {n : Nat} (hk : h.Ok) : (Hw.windowRun h n).Ok := by
  unfold Hw.windowRun
  extract_lets +onlyGivenNames v1 v2
  refine Hw.Ok.ite (fun _ => ?_) (fun _ => ?_)
  · exact hk
  · extract_lets +onlyGivenNames v3 v4 v5
    extract_lets +onlyGivenNames h6
    refine Hw.Ok.cut (x := h6) ?_ fun th6 => ?_
    · subst h6
      exact Hw.sfInt_ok hk
    clear_value h6
    extract_lets +onlyGivenNames f7
    subst f7
    refine Hw.Ok.ite (fun _ => ?_) (fun _ => ?_)
    · extract_lets +onlyGivenNames h8
      refine Hw.Ok.cut (x := h8) ?_ fun th8 => ?_
      · subst h8
        exact Hw.setPort_ok th6
      clear_value h8
      refine Hw.rateChange_ok ?_
      refine Hw.sfInt_ok ?_
      refine Hw.Ok.ite (fun _ => ?_) (fun _ => ?_)
      · exact th8
      · exact Hw.coilShow_ok (Hw.markSuspect_ok th8)
    · refine Hw.Ok.ite (fun _ => ?_) (fun _ => ?_)
      · extract_lets +onlyGivenNames h9
        refine Hw.Ok.cut (x := h9) ?_ fun th9 => ?_
        · subst h9
          exact Hw.setPort_ok th6
        clear_value h9
        extract_lets +onlyGivenNames h10
        refine Hw.Ok.cut (x := h10) ?_ fun th10 => ?_
        · subst h10
          refine Hw.bump_ok ?_
          refine Hw.sf_ok ?_
          refine Hw.sfInt_ok ?_
          refine Hw.Ok.ite (fun _ => ?_) (fun _ => ?_)
          · exact th9
          · exact Hw.coilShow_ok (Hw.markSuspect_ok th9)
        clear_value h10
        exact Hw.logPort_ok th10
      · exact Hw.sfInt_ok (Hw.setPort_ok th6)

theorem Hw.windowSynthetic_ok {h : Hw} {n : Nat} (hk : h.Ok) : (Hw.windowSynthetic h n).Ok := hk.touches Hw.windowSynthetic_touches

theorem Hw.windowGap_ok {h : Hw} {n : Nat} (hk : h.Ok) : (Hw.windowGap h n).Ok := by
  unfold Hw.windowGap
  extract_lets +onlyGivenNames v1
  extract_lets +onlyGivenNames h2
  refine Hw.Ok.cut (x := h2) ?_ fun th2 => ?_
  · subst h2
    exact Hw.windowSynthetic_ok hk
  clear_value h2
  extract_lets +onlyGivenNames v3
  extract_lets +onlyGivenNames h4
  refine Hw.Ok.cut (x := h4) ?_ fun th4 => ?_
  · subst h4
    exact Hw.sfInt_ok th2
  clear_value h4
  extract_lets +onlyGivenNames v5
  refine Hw.Ok.ite (fun _ => ?_) (fun _ => ?_)
  · extract_lets +onlyGivenNames v6 v7
    exact Hw.setPort_ok th4
  · refine Hw.Ok.ite (fun _ => ?_) (fun _ => ?_)
    · extract_lets +onlyGivenNames h8
      refine Hw.Ok.cut (x := h8) ?_ fun th8 => ?_
      · subst h8
        exact Hw.setPort_ok th4
      clear_value h8
      refine Hw.Ok.ite (fun _ => ?_) (fun _ => ?_)
      · exact Hw.rateChange_ok th8
      · exact th8
    · exact Hw.setPort_ok th4

theorem Hw.portWindow_ok {h : Hw} {n : Nat} {xs : List (Nat × Nat)} (hk : h.Ok) : (Hw.portWindow h n xs).Ok := by
  unfold Hw.portWindow
  extract_lets +onlyGivenNames h1
  refine Hw.Ok.cut (x := h1) ?_ fun th1 => ?_
  · subst h1
    exact Hw.samples_ok hk
  clear_value h1
  extract_lets +onlyGivenNames v2
  extract_lets +onlyGivenNames h3
  refine Hw.Ok.cut (x := h3) ?_ fun th3 => ?_
  · subst h3
    refine Hw.Ok.ite (fun _ => ?_) (fun _ => ?_)
    · exact Hw.windowRun_ok th1
    · refine Hw.Ok.ite (fun _ => ?_) (fun _ => ?_)
      · exact Hw.windowGap_ok th1
      · refine Hw.Ok.ite (fun _ => ?_) (fun _ => ?_)
        · exact Hw.windowSynthetic_ok th1
        · exact th1
  clear_value h3
  extract_lets +onlyGivenNames v4
  exact Hw.setPort_ok th3

theorem Hw.windowEnd_ok {h : Hw} {xs : List (List (Nat × Nat))} (hk : h.Ok) : (Hw.windowEnd h xs).Ok := by
  unfold Hw.windowEnd
  refine Hw.Ok.forEach ?_ fun x1 h2 th2 => ?_
  · exact Hw.count_ok hk
  · exact Hw.portWindow_ok th2

theorem Hw.endBlocksTo_ok {h : Hw} {n : Nat} {b : Nat} (hk : h.Ok) : (Hw.endBlocksTo h n b).Ok := by
  unfold Hw.endBlocksTo
  refine Hw.Ok.forEach ?_ fun x1 h2 th2 => ?_
  · exact hk
  · refine Hw.Ok.ite (fun _ => ?_) (fun _ => ?_)
    · exact Hw.endSynBlock_ok th2
    · exact th2

theorem Hw.portResume_ok {h : Hw} {n : Nat} (hk : h.Ok) : (Hw.portResume h n).Ok := by
  unfold Hw.portResume
  split
  · extract_lets +onlyGivenNames h6
    refine Hw.Ok.cut (x := h6) ?_ fun th6 => ?_
    · subst h6
      exact Hw.endBlocksTo_ok hk
    clear_value h6
    extract_lets +onlyGivenNames v7 v8 v9
    extract_lets +onlyGivenNames h10
    refine Hw.Ok.cut (x := h10) ?_ fun th10 => ?_
    · subst h10
      exact Hw.setPort_ok th6
    clear_value h10
    extract_lets +onlyGivenNames h11
    refine Hw.Ok.cut (x := h11) ?_ fun th11 => ?_
    · subst h11
      exact Hw.sf_ok (Hw.setPortState_ok th10)
    clear_value h11
    extract_lets +onlyGivenNames h12
    refine Hw.Ok.cut (x := h12) ?_ fun th12 => ?_
    · subst h12
      exact Hw.logPort_ok th11
    clear_value h12
    extract_lets +onlyGivenNames h13
    refine Hw.Ok.cut (x := h13) ?_ fun th13 => ?_
    · subst h13
      refine Hw.Ok.forEach ?_ fun x14 h15 th15 => ?_
      · exact th12
      · exact Hw.setStrand_ok th15
    clear_value h13
    exact Hw.portWork_ok th13
  · exact hk

end Sys2Proof.Machine
end

