-- ==== Sys2Proof/Laws/OkHotSnap.lean ====
section
/-! SUPPORT. Every operation of Machine/HotSnap.lean keeps the invariant of the part. -/

set_option Elab.async false

namespace Sys2Proof.Machine

theorem Hw.snapGain_ok {h : Hw} {n : Nat} {gain : Nat} (hk : h.Ok) : (Hw.snapGain h n gain).Ok := by
  unfold Hw.snapGain
  refine Hw.Ok.ite (fun _ => ?_) (fun _ => ?_)
  · exact Hw.tspiCmd_ok (Hw.sf_ok hk)
  · exact hk

theorem Hw.snapSettings_ok {h : Hw} {n : Nat} (hk : h.Ok) : (Hw.snapSettings h n).Ok := by
  unfold Hw.snapSettings
  split
  · exact Hw.snapGain_ok (Hw.sf_ok hk)
  · exact hk

theorem Hw.snapArm_ok {h : Hw} {ports : Nat} {len : Nat} (hk : h.Ok) : (Hw.snapArm h ports len).Ok := by
  unfold Hw.snapArm
  extract_lets +onlyGivenNames h1
  refine Hw.Ok.cut (x := h1) ?_ fun th1 => ?_
  · subst h1
    refine Hw.Ok.forEach ?_ fun x2 h3 th3 => ?_
    · exact hk
    · refine Hw.Ok.ite (fun _ => ?_) (fun _ => ?_)
      · exact Hw.snapSettings_ok th3
      · exact th3
  clear_value h1
  extract_lets +onlyGivenNames h4
  refine Hw.Ok.cut (x := h4) ?_ fun th4 => ?_
  · subst h4
    exact Hw.reach_ok th1
  clear_value h4
  exact Hw.coilCtrl_ok (Hw.sportCtrl_ok th4)

theorem Hw.snapStop_ok {h : Hw} (hk : h.Ok) : (Hw.snapStop h).Ok := by
  unfold Hw.snapStop
  refine Hw.Ok.forEach ?_ fun x1 h2 th2 => ?_
  · exact hk
  · exact Hw.portStop_ok th2

theorem Hw.snapOutcome_ok {h : Hw} {o : SnapOutcome} (hk : h.Ok) : (Hw.snapOutcome h o).Ok := hk.touches Hw.snapOutcome_touches

theorem Hw.snapSleep_ok {h : Hw} (hk : h.Ok) : (Hw.snapSleep h).Ok := by
  unfold Hw.snapSleep
  refine Hw.Ok.ite (fun _ => ?_) (fun _ => ?_)
  · exact Hw.slackRequest_ok hk
  · exact hk

theorem Hw.snapDomains_ok {h : Hw} (hk : h.Ok) : (Hw.snapDomains h).Ok := by
  unfold Hw.snapDomains
  refine Hw.Ok.forEach ?_ fun x1 h2 th2 => ?_
  · exact hk
  · refine Hw.domainReady_ok ?_
    refine Hw.Ok.ite (fun _ => ?_) (fun _ => ?_)
    · exact Hw.wakeDomain_ok th2
    · exact th2

theorem Hw.snapBegin_ok {h : Hw} (hk : h.Ok) : (Hw.snapBegin h).Ok := by
  unfold Hw.snapBegin
  extract_lets +onlyGivenNames h1
  refine Hw.Ok.cut (x := h1) ?_ fun th1 => ?_
  · subst h1
    exact Hw.snapTaken_ok hk
  clear_value h1
  refine Hw.Ok.ite (fun _ => ?_) (fun _ => ?_)
  · exact Hw.snapSleep_ok (Hw.snapOutcome_ok th1)
  · extract_lets +onlyGivenNames h2
    refine Hw.Ok.cut (x := h2) ?_ fun th2 => ?_
    · subst h2
      exact Hw.snapDomains_ok th1
    clear_value h2
    exact Hw.snapArm_ok (Hw.setHot_ok th2)

theorem Hw.snapRetry_ok {h : Hw} (hk : h.Ok) : (Hw.snapRetry h).Ok := by
  unfold Hw.snapRetry
  extract_lets +onlyGivenNames h1
  refine Hw.Ok.cut (x := h1) ?_ fun th1 => ?_
  · subst h1
    exact Hw.coilRelease_ok (Hw.snapStop_ok hk)
  clear_value h1
  exact Hw.snapArm_ok (Hw.setHot_ok th1)

theorem Hw.snapStream_ok {h : Hw} (hk : h.Ok) : (Hw.snapStream h).Ok := by
  unfold Hw.snapStream
  extract_lets +onlyGivenNames h1
  refine Hw.Ok.cut (x := h1) ?_ fun th1 => ?_
  · subst h1
    exact Hw.snapStop_ok hk
  clear_value h1
  extract_lets +onlyGivenNames v2
  extract_lets +onlyGivenNames h3
  refine Hw.Ok.cut (x := h3) ?_ fun th3 => ?_
  · subst h3
    exact Hw.setHot_ok th1
  clear_value h3
  exact Hw.notice_ok th3

theorem Hw.snapFinishCycle_ok {h : Hw} {o : SnapOutcome} {live : List Nat} (hk : h.Ok) : (Hw.snapFinishCycle h o live).Ok := by
  unfold Hw.snapFinishCycle
  extract_lets +onlyGivenNames h1
  refine Hw.Ok.cut (x := h1) ?_ fun th1 => ?_
  · subst h1
    exact Hw.coilRelease_ok (Hw.snapStop_ok hk)
  clear_value h1
  exact Hw.snapSleep_ok (Hw.snapOutcome_ok (Hw.setHot_ok th1))

theorem Hw.snapCommit_ok {h : Hw} {first : Bool} {x : Fin 512 × List (BitVec 32)} (hk : h.Ok) : (Hw.snapCommit h first x).Ok := by
  unfold Hw.snapCommit
  extract_lets +onlyGivenNames v1
  extract_lets +onlyGivenNames h2
  refine Hw.Ok.cut (x := h2) ?_ fun th2 => ?_
  · subst h2
    refine Hw.Ok.forEach ?_ fun x3 h4 th4 => ?_
    · exact hk
    · exact Hw.memWrite_ok th4
  clear_value h2
  extract_lets +onlyGivenNames h5
  refine Hw.Ok.cut (x := h5) ?_ fun th5 => ?_
  · subst h5
    exact Hw.commitObject_ok th2
  clear_value h5
  exact Hw.setHot_ok th5

theorem Hw.snapStage_ok {h : Hw} {bodies : List (Fin 512 × List (BitVec 32))} (hk : h.Ok) : (Hw.snapStage h bodies).Ok := by
  unfold Hw.snapStage
  refine Hw.Ok.ite (fun _ => ?_) (fun _ => ?_)
  · refine Hw.Ok.ite (fun _ => ?_) (fun _ => ?_)
    · exact hk
    · refine Hw.Ok.forEach ?_ fun x1 h2 th2 => ?_
      · exact hk
      · exact Hw.snapCommit_ok th2
  · refine Hw.Ok.ite (fun _ => ?_) (fun _ => ?_)
    · refine Hw.Ok.forEach ?_ fun x3 h4 th4 => ?_
      · exact hk
      · exact Hw.snapCommit_ok th4
    · exact hk

theorem Hw.snapEndCycle_ok {h : Hw} {live : List Nat} (hk : h.Ok) : (Hw.snapEndCycle h live).Ok := by
  unfold Hw.snapEndCycle
  refine Hw.Ok.ite (fun _ => ?_) (fun _ => ?_)
  · exact Hw.snapFinishCycle_ok hk
  · refine Hw.Ok.ite (fun _ => ?_) (fun _ => ?_)
    · exact hk
    · refine Hw.Ok.ite (fun _ => ?_) (fun _ => ?_)
      · exact Hw.snapStream_ok hk
      · refine Hw.Ok.ite (fun _ => ?_) (fun _ => ?_)
        · exact hk
        · refine Hw.Ok.ite (fun _ => ?_) (fun _ => ?_)
          · exact Hw.snapFinishCycle_ok hk
          · refine Hw.Ok.ite (fun _ => ?_) (fun _ => ?_)
            · exact Hw.snapRetry_ok hk
            · exact Hw.snapFinishCycle_ok hk

theorem Hw.snapCycle_ok {h : Hw} {what : SnapStep} {live : List Nat} (hk : h.Ok) : (Hw.snapCycle h what live).Ok := by
  unfold Hw.snapCycle
  refine Hw.Ok.ite (fun _ => ?_) (fun _ => ?_)
  · exact hk
  · split
    · refine Hw.Ok.ite (fun _ => ?_) (fun _ => ?_)
      · exact Hw.snapBegin_ok hk
      · exact hk
    · refine Hw.Ok.ite (fun _ => ?_) (fun _ => ?_)
      · exact Hw.snapStage_ok hk
      · exact hk
    · refine Hw.Ok.ite (fun _ => ?_) (fun _ => ?_)
      · exact Hw.snapEndCycle_ok hk
      · exact hk

theorem Hw.snapAbandon_ok {h : Hw} (hk : h.Ok) : (Hw.snapAbandon h).Ok := by
  unfold Hw.snapAbandon
  refine Hw.Ok.ite (fun _ => ?_) (fun _ => ?_)
  · exact Hw.snapOutcome_ok (Hw.coilRelease_ok hk)
  · exact hk

theorem Hw.coilReleaseObj_ok {h : Hw} (hk : h.Ok) : (Hw.coilReleaseObj h).Ok := by
  unfold Hw.coilReleaseObj
  exact Hw.coilRelease_ok (Hw.setHot_ok hk)

theorem Hw.coilStreamTimeout_ok {h : Hw} (hk : h.Ok) : (Hw.coilStreamTimeout h).Ok := by
  unfold Hw.coilStreamTimeout
  refine Hw.Ok.ite (fun _ => ?_) (fun _ => ?_)
  · exact Hw.snapOutcome_ok (Hw.coilReleaseObj_ok (Hw.reach_ok hk))
  · exact hk

end Sys2Proof.Machine
end

