-- ==== Sys2Proof/Laws/OkI2cBus.lean ====
section
/-! SUPPORT. Every operation of Machine/I2cBus.lean keeps the invariant of the part. -/

set_option Elab.async false

namespace Sys2Proof.Machine

theorem Hw.setI2c_ok {h : Hw} {c : I2c} (ok : h.Ok) (ht : c.tx.length ≤ 8) (hr : c.rx.length ≤ 8) : (Hw.setI2c h c).Ok := set_i2c_ok ok ht hr

theorem Hw.i2cStart_ok {h : Hw} (hk : h.Ok) : (Hw.i2cStart h).Ok := by
  unfold Hw.i2cStart
  refine Hw.setI2c_ok ?_ ?_ ?_
  · exact Hw.sf_ok hk
  · exact hk.i2cTx
  · exact hk.i2cRx

theorem Hw.i2cCmd_ok {h : Hw} {v : Nat} (hk : h.Ok) : (Hw.i2cCmd h v).Ok := by
  unfold Hw.i2cCmd
  refine Hw.Ok.ite (fun _ => ?_) (fun _ => ?_)
  · exact Hw.sf_ok hk
  · extract_lets +onlyGivenNames v1
    extract_lets +onlyGivenNames h2
    refine Hw.Ok.cut (x := h2) ?_ fun th2 => ?_
    · subst h2
      refine Hw.sf_ok ?_
      refine Hw.setI2c_ok ?_ ?_ ?_
      · exact hk
      · exact hk.i2cTx
      · exact hk.i2cRx
    clear_value h2
    extract_lets +onlyGivenNames h3
    refine Hw.Ok.cut (x := h3) ?_ fun th3 => ?_
    · subst h3
      exact Hw.sf_ok th2
    clear_value h3
    refine Hw.Ok.ite (fun _ => ?_) (fun _ => ?_)
    · exact Hw.i2cStart_ok th3
    · exact th3

theorem Hw.i2cFree_ok {h : Hw} (hk : h.Ok) : (Hw.i2cFree h).Ok := by
  unfold Hw.i2cFree
  refine Hw.Ok.ite (fun _ => ?_) (fun _ => ?_)
  · refine Hw.Ok.ite (fun _ => ?_) (fun _ => ?_)
    · exact hk
    · exact Hw.i2cStart_ok hk
  · refine Hw.Ok.ite (fun _ => ?_) (fun _ => ?_)
    · refine Hw.setI2c_ok ?_ ?_ ?_
      · exact hk
      · exact hk.i2cTx
      · exact hk.i2cRx
    · exact hk

theorem Hw.i2cEnd_ok {h : Hw} {stop : Bool} (hk : h.Ok) : (Hw.i2cEnd h stop).Ok := by
  unfold Hw.i2cEnd
  refine Hw.setI2c_ok ?_ ?_ ?_
  · exact Hw.sf_ok (Hw.sf_ok hk)
  · exact hk.i2cTx
  · exact hk.i2cRx

theorem Hw.i2cByte_ok {h : Hw} {data : Nat} {ack : Bool} {lost : Bool} (hk : h.Ok) : (Hw.i2cByte h data ack lost).Ok := by
  unfold Hw.i2cByte
  extract_lets +onlyGivenNames v1 v2
  extract_lets +onlyGivenNames f3
  subst f3
  refine Hw.Ok.ite (fun _ => ?_) (fun _ => ?_)
  · exact hk
  · refine Hw.Ok.ite (fun _ => ?_) (fun _ => ?_)
    · refine Hw.Ok.ite (fun _ => ?_) (fun _ => ?_)
      · exact Hw.i2cEnd_ok (Hw.sf_ok hk)
      · refine Hw.Ok.ite (fun _ => ?_) (fun _ => ?_)
        · refine Hw.setI2c_ok ?_ ?_ ?_
          · exact hk
          · exact hk.i2cTx
          · exact hk.i2cRx
        · exact Hw.i2cEnd_ok (Hw.sf_ok hk)
    · refine Hw.Ok.ite (fun _ => ?_) (fun _ => ?_)
      · refine Hw.Ok.ite (fun _ => ?_) (fun _ => ?_)
        · exact hk
        · refine Hw.Ok.ite (fun _ => ?_) (fun _ => ?_)
          · exact Hw.i2cEnd_ok (Hw.sf_ok hk)
          · refine Hw.sf_ok ?_
            refine Hw.setI2c_ok ?_ ?_ ?_
            · exact hk
            · exact hk.i2cTx
            · (have k := hk.elog; simp_all +zetaDelta <;> omega)
      · split
        · exact hk
        · extract_lets +onlyGivenNames h10
          refine Hw.Ok.cut (x := h10) ?_ fun th10 => ?_
          · subst h10
            refine Hw.setI2c_ok ?_ ?_ ?_
            · exact hk
            · (have k := hk.i2cTx; simp_all +zetaDelta <;> omega)
            · exact hk.i2cRx
          clear_value h10
          refine Hw.Ok.ite (fun _ => ?_) (fun _ => ?_)
          · exact Hw.i2cEnd_ok (Hw.sf_ok th10)
          · refine Hw.Ok.ite (fun _ => ?_) (fun _ => ?_)
            · exact Hw.sf_ok th10
            · exact Hw.i2cEnd_ok (Hw.sf_ok th10)

theorem Hw.i2cDone_ok {h : Hw} (hk : h.Ok) : (Hw.i2cDone h).Ok := by
  unfold Hw.i2cDone
  extract_lets +onlyGivenNames v1
  refine Hw.Ok.ite (fun _ => ?_) (fun _ => ?_)
  · exact hk
  · refine Hw.Ok.ite (fun _ => ?_) (fun _ => ?_)
    · exact Hw.i2cEnd_ok (Hw.sf_ok hk)
    · exact Hw.i2cEnd_ok hk

theorem Hw.i2cTimeout_ok {h : Hw} {stop : Bool} (hk : h.Ok) : (Hw.i2cTimeout h stop).Ok := by
  unfold Hw.i2cTimeout
  refine Hw.Ok.ite (fun _ => ?_) (fun _ => ?_)
  · exact Hw.i2cEnd_ok (Hw.sf_ok hk)
  · exact hk

theorem Hw.i2cWrite_ok {h : Hw} {v : Nat} (hk : h.Ok) : (Hw.i2cWrite h v).Ok := by
  unfold Hw.i2cWrite
  refine Hw.Ok.ite (fun _ => ?_) (fun _ => ?_)
  · exact Hw.sf_ok hk
  · refine Hw.setI2c_ok ?_ ?_ ?_
    · exact hk
    · (have k := hk.elog; simp_all +zetaDelta <;> omega)
    · exact hk.i2cRx

theorem Hw.i2cRead_ok {h : Hw} (hk : h.Ok) : (Hw.i2cRead h).Ok := by
  unfold Hw.i2cRead
  split
  · exact Hw.Ok.touches hk set_resp_touches
  · extract_lets +onlyGivenNames v7
    extract_lets +onlyGivenNames h8
    refine Hw.Ok.cut (x := h8) ?_ fun th8 => ?_
    · subst h8
      refine Hw.setI2c_ok ?_ ?_ ?_
      · exact hk
      · exact hk.i2cTx
      · (have k := hk.i2cRx; simp_all +zetaDelta <;> omega)
    clear_value h8
    exact Hw.Ok.touches th8 set_resp_touches

theorem Hw.i2cCfg_ok {h : Hw} {v : Nat} (hk : h.Ok) : (Hw.i2cCfg h v).Ok := by
  unfold Hw.i2cCfg
  extract_lets +onlyGivenNames v1
  extract_lets +onlyGivenNames h2
  refine Hw.Ok.cut (x := h2) ?_ fun th2 => ?_
  · subst h2
    exact Hw.writeFields_ok hk
  clear_value h2
  refine Hw.Ok.ite (fun _ => ?_) (fun _ => ?_)
  · refine Hw.setI2c_ok ?_ ?_ ?_
    · exact th2
    · exact th2.i2cTx
    · exact th2.i2cRx
  · exact th2

end Sys2Proof.Machine
end

