-- ==== Sys2Proof/Laws/OkBusViews.lean ====
section
/-! SUPPORT. Every operation of Machine/BusViews.lean keeps the invariant of the part. -/

set_option Elab.async false

namespace Sys2Proof.Machine

theorem Hw.clearRead_ok {h : Hw} {a : Nat} (hk : h.Ok) : (Hw.clearRead h a).Ok := by
  unfold Hw.clearRead
  split
  · exact hk
  · refine Hw.Ok.ite (fun _ => ?_) (fun _ => ?_)
    · exact hk
    · exact Hw.setReg_ok hk

theorem Hw.plainRead_ok {h : Hw} {a : Nat} (hk : h.Ok) : (Hw.plainRead h a).Ok := by
  unfold Hw.plainRead
  extract_lets +onlyGivenNames h1
  refine Hw.Ok.cut (x := h1) ?_ fun th1 => ?_
  · subst h1
    exact Hw.clearRead_ok hk
  clear_value h1
  exact Hw.Ok.touches th1 set_resp_touches

theorem Hw.regRead_ok {h : Hw} {a : Nat} (hk : h.Ok) : (Hw.regRead h a).Ok := by
  unfold Hw.regRead
  refine Hw.Ok.ite (fun _ => ?_) (fun _ => ?_)
  · exact Hw.tspiRead_ok hk
  · refine Hw.Ok.ite (fun _ => ?_) (fun _ => ?_)
    · exact Hw.sspiRead_ok hk
    · refine Hw.Ok.ite (fun _ => ?_) (fun _ => ?_)
      · exact Hw.sspiStamp_ok hk
      · refine Hw.Ok.ite (fun _ => ?_) (fun _ => ?_)
        · exact Hw.i2cRead_ok hk
        · refine Hw.Ok.ite (fun _ => ?_) (fun _ => ?_)
          · exact Hw.readMark_ok hk
          · refine Hw.Ok.ite (fun _ => ?_) (fun _ => ?_)
            · exact Hw.readTcnt_ok hk
            · refine Hw.Ok.ite (fun _ => ?_) (fun _ => ?_)
              · exact Hw.radioDoneRead_ok hk
              · refine Hw.Ok.ite (fun _ => ?_) (fun _ => ?_)
                · exact Hw.readTime0_ok hk
                · split
                  · exact Hw.readCount_ok hk
                  · split
                    · exact Hw.uartRead_ok hk
                    · exact Hw.plainRead_ok hk

theorem Hw.regObject_ok {h : Hw} {a : Nat} (hk : h.Ok) : (Hw.regObject h a).2.Ok := by
  unfold Hw.regObject
  extract_lets +onlyGivenNames v1
  extract_lets +onlyGivenNames h2
  refine Hw.Ok.cut (x := h2) ?_ fun th2 => ?_
  · subst h2
    exact Hw.regRead_ok hk
  clear_value h2
  extract_lets +onlyGivenNames v3
  exact Hw.Ok.pair (Hw.Ok.touches th2 set_resp_touches)

end Sys2Proof.Machine
end

