-- ==== Sys2Proof/Laws/OkBus.lean ====
section
/-! SUPPORT. Every operation of Machine/Bus.lean keeps the invariant of the part. -/

set_option Elab.async false

namespace Sys2Proof.Machine

theorem Hw.dmaGo_ok {h : Hw} {c : Nat} (hk : h.Ok) : (Hw.dmaGo h c).Ok := by
  unfold Hw.dmaGo
  refine Hw.Ok.ite (fun _ => ?_) (fun _ => ?_)
  · exact Hw.sf_ok (Hw.sf_ok hk)
  · exact Hw.sf_ok hk

theorem Hw.dmaForget_ok {h : Hw} {c : Nat} (hk : h.Ok) : (Hw.dmaForget h c).Ok := hk.touches Hw.dmaForget_touches

theorem Hw.dmaResume_ok {h : Hw} {c : Nat} (hk : h.Ok) : (Hw.dmaResume h c).Ok := by
  unfold Hw.dmaResume
  refine Hw.Ok.ite (fun _ => ?_) (fun _ => ?_)
  · exact Hw.sf_ok (Hw.sf_ok hk)
  · exact hk

theorem Hw.dmaAbort_ok {h : Hw} {c : Nat} (hk : h.Ok) : (Hw.dmaAbort h c).Ok := by
  unfold Hw.dmaAbort
  refine Hw.Ok.ite (fun _ => ?_) (fun _ => ?_)
  · exact hk
  · exact Hw.sf_ok (Hw.dmaForget_ok hk)

theorem Hw.dmaConfig_ok {h : Hw} {c : Nat} {a : Nat} {v : Nat} (hk : h.Ok) : (Hw.dmaConfig h c a v).Ok := by
  unfold Hw.dmaConfig
  extract_lets +onlyGivenNames v1 v2 v3
  refine Hw.Ok.ite (fun _ => ?_) (fun _ => ?_)
  · exact Hw.writeFields_ok hk
  · refine Hw.Ok.ite (fun _ => ?_) (fun _ => ?_)
    · exact Hw.writeFields_ok hk
    · extract_lets +onlyGivenNames v4
      exact Hw.sf_ok (Hw.setReg_ok hk)

theorem Hw.dmaCtrl_ok {h : Hw} {c : Nat} {v : Nat} (hk : h.Ok) : (Hw.dmaCtrl h c v).Ok := by
  unfold Hw.dmaCtrl
  extract_lets +onlyGivenNames h1
  refine Hw.Ok.cut (x := h1) ?_ fun th1 => ?_
  · subst h1
    exact Hw.dmaConfig_ok hk
  clear_value h1
  refine Hw.Ok.ite (fun _ => ?_) (fun _ => ?_)
  · exact Hw.dmaAbort_ok th1
  · refine Hw.Ok.ite (fun _ => ?_) (fun _ => ?_)
    · exact Hw.dmaResume_ok th1
    · refine Hw.Ok.ite (fun _ => ?_) (fun _ => ?_)
      · exact Hw.dmaGo_ok th1
      · exact th1

theorem Hw.dmaWrite_ok {h : Hw} {c : Nat} {o : Nat} {v : Nat} (hk : h.Ok) : (Hw.dmaWrite h c o v).Ok := by
  unfold Hw.dmaWrite
  refine Hw.Ok.ite (fun _ => ?_) (fun _ => ?_)
  · exact Hw.dmaCtrl_ok hk
  · refine Hw.Ok.ite (fun _ => ?_) (fun _ => ?_)
    · exact Hw.writeFields_ok hk
    · exact Hw.dmaConfig_ok hk

theorem Hw.sysWrite_ok {h : Hw} {a : Nat} {v : Nat} (hk : h.Ok) : (Hw.sysWrite h a v).Ok := by
  unfold Hw.sysWrite
  refine Hw.Ok.ite (fun _ => ?_) (fun _ => ?_)
  · exact Hw.sysRst_ok hk
  · refine Hw.Ok.ite (fun _ => ?_) (fun _ => ?_)
    · exact Hw.wdWrite_ok hk
    · refine Hw.Ok.ite (fun _ => ?_) (fun _ => ?_)
      · exact Hw.wdKick_ok hk
      · refine Hw.Ok.ite (fun _ => ?_) (fun _ => ?_)
        · exact Hw.dmaWrite_ok hk
        · refine Hw.Ok.ite (fun _ => ?_) (fun _ => ?_)
          · exact Hw.slackRequest_ok hk
          · refine Hw.Ok.ite (fun _ => ?_) (fun _ => ?_)
            · exact Hw.stopRequest_ok hk
            · refine Hw.Ok.ite (fun _ => ?_) (fun _ => ?_)
              · exact Hw.plTarget_ok hk
              · exact Hw.writeFields_ok hk

theorem Hw.portConfig_ok {h : Hw} {n : Nat} {a : Nat} {v : Nat} (hk : h.Ok) : (Hw.portConfig h n a v).Ok := by
  unfold Hw.portConfig
  refine Hw.Ok.ite (fun _ => ?_) (fun _ => ?_)
  · exact Hw.writeFields_ok hk
  · exact Hw.sf_ok hk

theorem Hw.sportWrite_ok {h : Hw} {a : Nat} {v : Nat} (hk : h.Ok) : (Hw.sportWrite h a v).Ok := by
  unfold Hw.sportWrite
  refine Hw.Ok.ite (fun _ => ?_) (fun _ => ?_)
  · exact Hw.sportCtrl_ok hk
  · refine Hw.Ok.ite (fun _ => ?_) (fun _ => ?_)
    · exact Hw.tspiCmd_ok hk
    · refine Hw.Ok.ite (fun _ => ?_) (fun _ => ?_)
      · exact Hw.coilCtrl_ok hk
      · split
        · exact Hw.portConfig_ok hk
        · exact Hw.portConfig_ok hk
        · split
          · exact Hw.notchWrite_ok hk
          · exact Hw.notchWrite_ok hk
          · exact Hw.writeFields_ok hk

theorem Hw.fabLoopWrite_ok {h : Hw} {a : Nat} {v : Nat} (hk : h.Ok) : (Hw.fabLoopWrite h a v).Ok := by
  unfold Hw.fabLoopWrite
  refine Hw.Ok.ite (fun _ => ?_) (fun _ => ?_)
  · exact Hw.testStart_ok hk
  · refine Hw.Ok.ite (fun _ => ?_) (fun _ => ?_)
    · exact Hw.ringBell_ok hk
    · split
      · exact Hw.slotRangeWrite_ok hk
      · exact Hw.slotCfgWrite_ok hk
      · exact Hw.writeFields_ok hk

theorem Hw.copyWrite_ok {h : Hw} {v : Nat} (hk : h.Ok) : (Hw.copyWrite h v).Ok := by
  unfold Hw.copyWrite
  extract_lets +onlyGivenNames h1
  refine Hw.Ok.cut (x := h1) ?_ fun th1 => ?_
  · subst h1
    exact Hw.writeFields_ok hk
  clear_value h1
  refine Hw.Ok.ite (fun _ => ?_) (fun _ => ?_)
  · exact Hw.sf_ok th1
  · exact th1

theorem Hw.tpCmd_ok {h : Hw} {v : Nat} (hk : h.Ok) : (Hw.tpCmd h v).Ok := by
  unfold Hw.tpCmd
  extract_lets +onlyGivenNames h1
  refine Hw.Ok.cut (x := h1) ?_ fun th1 => ?_
  · subst h1
    refine Hw.Ok.ite (fun _ => ?_) (fun _ => ?_)
    · exact Hw.sf_ok hk
    · exact hk
  clear_value h1
  refine Hw.Ok.ite (fun _ => ?_) (fun _ => ?_)
  · exact Hw.tpHold_ok th1
  · exact th1

theorem Hw.hitchWrite_ok {h : Hw} {a : Nat} {v : Nat} (hk : h.Ok) : (Hw.hitchWrite h a v).Ok := by
  unfold Hw.hitchWrite
  refine Hw.Ok.ite (fun _ => ?_) (fun _ => ?_)
  · exact Hw.hitchCtrl_ok hk
  · refine Hw.Ok.ite (fun _ => ?_) (fun _ => ?_)
    · exact Hw.hitchBaseLo_ok hk
    · refine Hw.Ok.ite (fun _ => ?_) (fun _ => ?_)
      · exact Hw.hitchBase_ok hk
      · refine Hw.Ok.ite (fun _ => ?_) (fun _ => ?_)
        · exact Hw.hitchAdj_ok hk
        · refine Hw.Ok.ite (fun _ => ?_) (fun _ => ?_)
          · exact Hw.copyWrite_ok hk
          · refine Hw.Ok.ite (fun _ => ?_) (fun _ => ?_)
            · exact Hw.writePeriod_ok hk
            · refine Hw.Ok.ite (fun _ => ?_) (fun _ => ?_)
              · exact Hw.tpCmd_ok hk
              · refine Hw.Ok.ite (fun _ => ?_) (fun _ => ?_)
                · exact Hw.writeSlew_ok hk
                · refine Hw.Ok.ite (fun _ => ?_) (fun _ => ?_)
                  · exact Hw.writeLim_ok hk
                  · refine Hw.Ok.ite (fun _ => ?_) (fun _ => ?_)
                    · exact Hw.tpDisc_ok hk
                    · exact Hw.writeFields_ok hk

theorem Hw.memBlockWrite_ok {h : Hw} {a : Nat} {v : Nat} (hk : h.Ok) : (Hw.memBlockWrite h a v).Ok := by
  unfold Hw.memBlockWrite
  refine Hw.Ok.ite (fun _ => ?_) (fun _ => ?_)
  · exact Hw.marchWrite_ok hk
  · refine Hw.Ok.ite (fun _ => ?_) (fun _ => ?_)
    · exact Hw.lcRequest_ok hk
    · refine Hw.Ok.ite (fun _ => ?_) (fun _ => ?_)
      · exact Hw.thimbleCmd_ok hk
      · split
        · exact Hw.unitCtl_ok hk
        · exact Hw.writeFields_ok hk

theorem Hw.mpuWrite_ok {h : Hw} {a : Nat} {v : Nat} (hk : h.Ok) : (Hw.mpuWrite h a v).Ok := by
  unfold Hw.mpuWrite
  refine Hw.Ok.ite (fun _ => ?_) (fun _ => ?_)
  · exact Hw.mpuCtrl_ok hk
  · refine Hw.Ok.ite (fun _ => ?_) (fun _ => ?_)
    · exact hk
    · exact Hw.writeFields_ok hk

theorem Hw.uartBlockWrite_ok {h : Hw} {n : Nat} {o : Nat} {v : Nat} (hk : h.Ok) : (Hw.uartBlockWrite h n o v).Ok := by
  unfold Hw.uartBlockWrite
  refine Hw.Ok.ite (fun _ => ?_) (fun _ => ?_)
  · exact Hw.uartCfg_ok hk
  · refine Hw.Ok.ite (fun _ => ?_) (fun _ => ?_)
    · exact Hw.uartShadow_ok hk
    · refine Hw.Ok.ite (fun _ => ?_) (fun _ => ?_)
      · exact Hw.uartShadow_ok hk
      · refine Hw.Ok.ite (fun _ => ?_) (fun _ => ?_)
        · exact Hw.uartWrite_ok hk
        · refine Hw.Ok.ite (fun _ => ?_) (fun _ => ?_)
          · exact Hw.uartStat_ok hk
          · refine Hw.Ok.ite (fun _ => ?_) (fun _ => ?_)
            · exact Hw.uartFifo_ok hk
            · refine Hw.Ok.ite (fun _ => ?_) (fun _ => ?_)
              · exact Hw.uartSlow_ok hk
              · refine Hw.Ok.ite (fun _ => ?_) (fun _ => ?_)
                · exact Hw.uartSrate_ok hk
                · exact Hw.writeFields_ok hk

theorem Hw.linkBlockWrite_ok {h : Hw} {a : Nat} {v : Nat} (hk : h.Ok) : (Hw.linkBlockWrite h a v).Ok := by
  unfold Hw.linkBlockWrite
  refine Hw.Ok.ite (fun _ => ?_) (fun _ => ?_)
  · exact Hw.sspiCmd_ok hk
  · refine Hw.Ok.ite (fun _ => ?_) (fun _ => ?_)
    · exact Hw.i2cCfg_ok hk
    · refine Hw.Ok.ite (fun _ => ?_) (fun _ => ?_)
      · exact Hw.i2cCmd_ok hk
      · refine Hw.Ok.ite (fun _ => ?_) (fun _ => ?_)
        · exact Hw.i2cWrite_ok hk
        · split
          · exact Hw.canCfg_ok hk
          · exact Hw.writeFields_ok hk

theorem Hw.radioWrite_ok {h : Hw} {a : Nat} {v : Nat} (hk : h.Ok) : (Hw.radioWrite h a v).Ok := by
  unfold Hw.radioWrite
  refine Hw.Ok.ite (fun _ => ?_) (fun _ => ?_)
  · refine Hw.Ok.ite (fun _ => ?_) (fun _ => ?_)
    · exact hk
    · exact Hw.setReg_ok hk
  · refine Hw.Ok.ite (fun _ => ?_) (fun _ => ?_)
    · exact Hw.radioCtrl_ok hk
    · refine Hw.Ok.ite (fun _ => ?_) (fun _ => ?_)
      · exact Hw.radioGo_ok hk
      · refine Hw.Ok.ite (fun _ => ?_) (fun _ => ?_)
        · exact Hw.fuseBlow_ok hk
        · split
          · exact Hw.setReg_ok hk
          · exact Hw.writeFields_ok hk

theorem Hw.updBlockWrite_ok {h : Hw} {a : Nat} {v : Nat} (hk : h.Ok) : (Hw.updBlockWrite h a v).Ok := by
  unfold Hw.updBlockWrite
  refine Hw.Ok.ite (fun _ => ?_) (fun _ => ?_)
  · exact Hw.updCtrl_ok hk
  · refine Hw.Ok.ite (fun _ => ?_) (fun _ => ?_)
    · exact Hw.otpSet_ok hk
    · exact Hw.writeFields_ok hk

theorem Hw.regWrite_ok {h : Hw} {a : Nat} {v : Nat} (hk : h.Ok) : (Hw.regWrite h a v).Ok := by
  unfold Hw.regWrite
  refine Hw.Ok.ite (fun _ => ?_) (fun _ => ?_)
  · exact Hw.sysWrite_ok hk
  · refine Hw.Ok.ite (fun _ => ?_) (fun _ => ?_)
    · refine Hw.Ok.ite (fun _ => ?_) (fun _ => ?_)
      · exact hk
      · exact Hw.sportWrite_ok hk
    · refine Hw.Ok.ite (fun _ => ?_) (fun _ => ?_)
      · exact Hw.fabLoopWrite_ok hk
      · refine Hw.Ok.ite (fun _ => ?_) (fun _ => ?_)
        · exact Hw.hitchWrite_ok hk
        · refine Hw.Ok.ite (fun _ => ?_) (fun _ => ?_)
          · exact Hw.memBlockWrite_ok hk
          · refine Hw.Ok.ite (fun _ => ?_) (fun _ => ?_)
            · exact Hw.mpuWrite_ok hk
            · refine Hw.Ok.ite (fun _ => ?_) (fun _ => ?_)
              · exact Hw.elogCtrl_ok hk
              · refine Hw.Ok.ite (fun _ => ?_) (fun _ => ?_)
                · exact Hw.elogSoft_ok hk
                · refine Hw.Ok.ite (fun _ => ?_) (fun _ => ?_)
                  · exact Hw.uartBlockWrite_ok hk
                  · refine Hw.Ok.ite (fun _ => ?_) (fun _ => ?_)
                    · exact Hw.linkBlockWrite_ok hk
                    · refine Hw.Ok.ite (fun _ => ?_) (fun _ => ?_)
                      · exact Hw.radioWrite_ok hk
                      · refine Hw.Ok.ite (fun _ => ?_) (fun _ => ?_)
                        · exact Hw.outWrite_ok hk
                        · refine Hw.Ok.ite (fun _ => ?_) (fun _ => ?_)
                          · exact Hw.updBlockWrite_ok hk
                          · refine Hw.Ok.ite (fun _ => ?_) (fun _ => ?_)
                            · exact hk
                            · exact Hw.writeFields_ok hk

theorem Hw.backupRead_ok {h : Hw} {a : Nat} {n : Nat} (hk : h.Ok) : (Hw.backupRead h a n).Ok := hk.touches Hw.backupRead_touches

theorem Hw.backupWrite_ok {h : Hw} {a : Nat} {n : Nat} {v : Nat} (hk : h.Ok) : (Hw.backupWrite h a n v).Ok := hk.touches Hw.backupWrite_touches

theorem Hw.gated_ok {h : Hw} {m : Master} {a n : Nat} {write : Bool} {f : Hw → Hw} (ok : h.Ok) (hf : ∀ g, g.Ok → (f g).Ok) :
    (h.gated m a n write f).Ok := by
  unfold Hw.gated
  split
  · exact Hw.errorResp_ok ok
  · exact Hw.stallResp_ok ok
  · exact hf _ ok

theorem Hw.read_ok {h : Hw} {m : Master} {a : Nat} {n : Nat} (hk : h.Ok) : (Hw.read h m a n).Ok := by
  unfold Hw.read
  refine Hw.Ok.ite (fun _ => ?_) (fun _ => ?_)
  · refine Hw.gated_ok ?_ fun h1 th1 => ?_
    · exact hk
    · exact Hw.regRead_ok th1
  · refine Hw.Ok.ite (fun _ => ?_) (fun _ => ?_)
    · refine Hw.gated_ok ?_ fun h2 th2 => ?_
      · exact hk
      · exact Hw.backupRead_ok th2
    · exact Hw.memRead_ok hk

theorem Hw.regWriteBy_ok {h : Hw} {m : Master} {a : Nat} {v : Nat} (hk : h.Ok) : (Hw.regWriteBy h m a v).Ok := by
  unfold Hw.regWriteBy
  refine Hw.Ok.ite (fun _ => ?_) (fun _ => ?_)
  · exact Hw.Ok.touches hk set_resp_touches
  · refine Hw.Ok.ite (fun _ => ?_) (fun _ => ?_)
    · exact Hw.backupWrite_ok hk
    · refine Hw.Ok.ite (fun _ => ?_) (fun _ => ?_)
      · extract_lets +onlyGivenNames h1
        refine Hw.Ok.cut (x := h1) ?_ fun th1 => ?_
        · subst h1
          exact Hw.regWrite_ok hk
        clear_value h1
        exact Hw.Ok.touches th1 set_resp_touches
      · refine Hw.Ok.ite (fun _ => ?_) (fun _ => ?_)
        · extract_lets +onlyGivenNames h2
          refine Hw.Ok.cut (x := h2) ?_ fun th2 => ?_
          · subst h2
            exact Hw.regWrite_ok hk
          clear_value h2
          exact Hw.Ok.touches th2 set_resp_touches
        · refine Hw.Ok.ite (fun _ => ?_) (fun _ => ?_)
          · exact Hw.Ok.touches hk set_resp_touches
          · extract_lets +onlyGivenNames h3
            refine Hw.Ok.cut (x := h3) ?_ fun th3 => ?_
            · subst h3
              exact Hw.regWrite_ok hk
            clear_value h3
            exact Hw.Ok.touches th3 set_resp_touches

theorem Hw.timeAligned_ok {h : Hw} {s : Nat} (hk : h.Ok) : (Hw.timeAligned h s).Ok := hk.touches Hw.timeAligned_touches

theorem Hw.aliasBy_ok {h : Hw} {m : Master} {a : Nat} {n : Nat} {v : Nat} (hk : h.Ok) : (Hw.aliasBy h m a n v).Ok := by
  unfold Hw.aliasBy
  extract_lets +onlyGivenNames h1
  refine Hw.Ok.cut (x := h1) ?_ fun th1 => ?_
  · subst h1
    exact Hw.aliasWrite_ok hk
  clear_value h1
  extract_lets +onlyGivenNames v2
  refine Hw.Ok.ite (fun _ => ?_) (fun _ => ?_)
  · exact Hw.timeAligned_ok th1
  · exact th1

theorem Hw.write_ok {h : Hw} {m : Master} {a : Nat} {n : Nat} {v : Nat} {hit : Bool} (hk : h.Ok) : (Hw.write h m a n v hit).Ok := by
  unfold Hw.write
  refine Hw.Ok.ite (fun _ => ?_) (fun _ => ?_)
  · refine Hw.gated_ok ?_ fun h1 th1 => ?_
    · exact hk
    · exact Hw.regWriteBy_ok th1
  · refine Hw.Ok.ite (fun _ => ?_) (fun _ => ?_)
    · refine Hw.gated_ok ?_ fun h2 th2 => ?_
      · exact hk
      · exact Hw.backupWrite_ok th2
    · refine Hw.Ok.ite (fun _ => ?_) (fun _ => ?_)
      · exact Hw.aliasBy_ok hk
      · exact Hw.busWrite_ok hk

theorem Hw.busOp_ok {h : Hw} {o : BusOp} (hk : h.Ok) : (Hw.busOp h o).Ok := by
  unfold Hw.busOp
  split
  · exact Hw.read_ok hk
  · exact Hw.write_ok hk
  · exact Hw.aliasBy_ok hk
  · exact Hw.aliasBy_ok hk

theorem Hw.issue_ok {h : Hw} {o : BusOp} (hk : h.Ok) : (Hw.issue h o).Ok := by
  unfold Hw.issue
  extract_lets +onlyGivenNames h1
  refine Hw.Ok.cut (x := h1) ?_ fun th1 => ?_
  · subst h1
    exact Hw.busOp_ok (Hw.Ok.touches hk set_late_touches)
  refine Hw.Ok.ite (fun _ => ?_) (fun _ => ?_)
  · exact Hw.Ok.touches th1 set_stalls_touches
  · exact th1

theorem Hw.retry_ok {h : Hw} {o : BusOp} (hk : h.Ok) : (Hw.retry h o).Ok := by
  unfold Hw.retry
  refine Hw.Ok.ite (fun _ => ?_) (fun _ => ?_)
  · exact hk
  · extract_lets +onlyGivenNames h1
    refine Hw.Ok.cut (x := h1) ?_ fun th1 => ?_
    · subst h1
      exact Hw.busOp_ok hk
    clear_value h1
    refine Hw.Ok.ite (fun _ => ?_) (fun _ => ?_)
    · exact Hw.Ok.touches hk set_stalls_touches
    · exact Hw.Ok.touches th1 set_late_touches

theorem Hw.resume_ok {h : Hw} (hk : h.Ok) : (Hw.resume h).Ok := by
  unfold Hw.resume
  refine Hw.Ok.ite (fun _ => ?_) (fun _ => ?_)
  · exact hk
  · refine Hw.Ok.forEach ?_ fun x1 h2 th2 => ?_
    · exact Hw.Ok.touches hk set_stalls_late_touches
    · exact Hw.retry_ok th2

theorem Hw.queueEdge_ok {h : Hw} {pre : Nat} {p : Nat × Nat × Nat → Bool} (hk : h.Ok) : (Hw.queueEdge h pre p).Ok := by
  unfold Hw.queueEdge
  exact Hw.resume_ok (Hw.backupEdge_ok hk)

end Sys2Proof.Machine
end

