-- ==== Sys2Proof/Laws/OkDma.lean ====
section
/-! SUPPORT. Every operation of Machine/Dma.lean keeps the invariant of the part. -/

set_option Elab.async false

namespace Sys2Proof.Machine

theorem Hw.dmaHalt_ok {h : Hw} {c : Fin 8} {a : Nat} {write : Bool} {cls : Nat} (hk : h.Ok) : (Hw.dmaHalt h c a write cls).Ok := by
  unfold Hw.dmaHalt
  extract_lets +onlyGivenNames h1
  refine Hw.Ok.cut (x := h1) ?_ fun th1 => ?_
  · subst h1
    exact Hw.sf_ok (Hw.sf_ok hk)
  clear_value h1
  extract_lets +onlyGivenNames h2
  refine Hw.Ok.cut (x := h2) ?_ fun th2 => ?_
  · subst h2
    exact Hw.dmaError_ok (Hw.dmaForget_ok th1)
  clear_value h2
  exact Hw.Ok.touches th2 set_resp_touches

theorem Hw.dmaNext_ok {h : Hw} {c : Nat} (hk : h.Ok) : (Hw.dmaNext h c).Ok := by
  unfold Hw.dmaNext
  extract_lets +onlyGivenNames v1
  extract_lets +onlyGivenNames h2
  refine Hw.Ok.cut (x := h2) ?_ fun th2 => ?_
  · subst h2
    refine Hw.Ok.ite (fun _ => ?_) (fun _ => ?_)
    · exact Hw.sf_ok hk
    · exact hk
  clear_value h2
  extract_lets +onlyGivenNames h3
  refine Hw.Ok.cut (x := h3) ?_ fun th3 => ?_
  · subst h3
    refine Hw.Ok.ite (fun _ => ?_) (fun _ => ?_)
    · exact Hw.sf_ok th2
    · exact th2
  clear_value h3
  extract_lets +onlyGivenNames h4
  refine Hw.Ok.cut (x := h4) ?_ fun th4 => ?_
  · subst h4
    exact Hw.sf_ok (Hw.dmaForget_ok th3)
  clear_value h4
  refine Hw.Ok.ite (fun _ => ?_) (fun _ => ?_)
  · exact Hw.sf_ok (Hw.sf_ok th4)
  · exact th4

theorem Hw.dmaCollide_ok {h : Hw} {c : Fin 8} {a : Nat} {v : Nat} {times : Nat} (hk : h.Ok) : (Hw.dmaCollide h c a v times).Ok := by
  unfold Hw.dmaCollide
  extract_lets +onlyGivenNames h1
  refine Hw.Ok.cut (x := h1) ?_ fun th1 => ?_
  · subst h1
    exact Hw.collide_ok hk
  clear_value h1
  refine Hw.Ok.ite (fun _ => ?_) (fun _ => ?_)
  · exact Hw.Ok.touches th1 set_dmaTry_touches
  · extract_lets +onlyGivenNames h2
    refine Hw.Ok.cut (x := h2) ?_ fun th2 => ?_
    · subst h2
      exact Hw.sf_ok (Hw.sf_ok (Hw.dmaForget_ok th1))
    clear_value h2
    exact Hw.report_ok th2

theorem Hw.dmaPut_ok {h : Hw} {c : Fin 8} {v : Nat} {times : Nat} {hit : Bool} (hk : h.Ok) : (Hw.dmaPut h c v times hit).Ok := by
  unfold Hw.dmaPut
  extract_lets +onlyGivenNames v1 v2
  split
  · exact Hw.dmaHalt_ok hk
  · refine Hw.Ok.ite (fun _ => ?_) (fun _ => ?_)
    · exact Hw.dmaCollide_ok hk
    · exact Hw.dmaNext_ok (Hw.write_ok hk)

theorem Hw.dmaBeatOf_ok {h : Hw} {c : Fin 8} {hit : Bool} (hk : h.Ok) : (Hw.dmaBeatOf h c hit).Ok := by
  unfold Hw.dmaBeatOf
  extract_lets +onlyGivenNames v1 v2 v3
  split
  · refine Hw.Ok.ite (fun _ => ?_) (fun _ => ?_)
    · exact Hw.stallResp_ok hk
    · exact Hw.dmaPut_ok hk
  · split
    · exact Hw.dmaHalt_ok hk
    · refine Hw.Ok.ite (fun _ => ?_) (fun _ => ?_)
      · exact Hw.stallResp_ok hk
      · refine Hw.Ok.ite (fun _ => ?_) (fun _ => ?_)
        · exact Hw.stallResp_ok hk
        · extract_lets +onlyGivenNames h16
          refine Hw.Ok.cut (x := h16) ?_ fun th16 => ?_
          · subst h16
            exact Hw.read_ok hk
          clear_value h16
          exact Hw.dmaPut_ok th16

theorem Hw.dmaBeat_ok {h : Hw} {hit : Bool} (hk : h.Ok) : (Hw.dmaBeat h hit).Ok := by
  unfold Hw.dmaBeat
  split
  · exact hk
  · refine Hw.Ok.ite (fun _ => ?_) (fun _ => ?_)
    · exact Hw.dmaBeatOf_ok hk
    · exact hk

end Sys2Proof.Machine
end

