-- ==== Sys2Proof/Laws/OkBusCmds.lean ====
section
/-! SUPPORT. Every command of Machine/BusCmds.lean answers a next state and keeps the invariant of the part. -/

set_option Elab.async false

namespace Sys2Proof.Machine

theorem execMemoryRead_ok {m : Master} {a : BitVec 32} {size : Fin 4} {s : State} (hk : s.hw.Ok) : ∃ h, execMemoryRead m a size s = .next ⟨h, s.pending⟩ ∧ h.Ok := by
  refine ⟨_, rfl, ?_⟩
  simp only
  generalize s.hw = h at *
  unfold Hw.onBus
  exact Hw.Ok.ite (fun _ => hk) (fun _ => Hw.issue_ok hk)

theorem execMemoryWrite_ok {m : Master} {a : BitVec 32} {size : Fin 4} {v : BitVec 64} {hit : Bool} {s : State} (hk : s.hw.Ok) : ∃ h, execMemoryWrite m a size v hit s = .next ⟨h, s.pending⟩ ∧ h.Ok := by
  refine ⟨_, rfl, ?_⟩
  simp only
  generalize s.hw = h at *
  unfold Hw.onBus
  exact Hw.Ok.ite (fun _ => hk) (fun _ => Hw.issue_ok hk)

theorem execSetAliasWrite_ok {m : Master} {a : BitVec 32} {size : Fin 4} {v : BitVec 64} {s : State} (hk : s.hw.Ok) : ∃ h, execSetAliasWrite m a size v s = .next ⟨h, s.pending⟩ ∧ h.Ok := by
  refine ⟨_, rfl, ?_⟩
  simp only
  generalize s.hw = h at *
  refine Hw.Ok.ite (fun _ => ?_) (fun _ => hk)
  unfold Hw.onBus
  exact Hw.Ok.ite (fun _ => hk) (fun _ => Hw.issue_ok hk)

theorem execClearAliasWrite_ok {m : Master} {a : BitVec 32} {size : Fin 4} {v : BitVec 64} {s : State} (hk : s.hw.Ok) : ∃ h, execClearAliasWrite m a size v s = .next ⟨h, s.pending⟩ ∧ h.Ok := by
  refine ⟨_, rfl, ?_⟩
  simp only
  generalize s.hw = h at *
  refine Hw.Ok.ite (fun _ => ?_) (fun _ => hk)
  unfold Hw.onBus
  exact Hw.Ok.ite (fun _ => hk) (fun _ => Hw.issue_ok hk)

theorem execRegisterWrite_ok {m : Master} {a : BitVec 32} {v : BitVec 32} {s : State} (hk : s.hw.Ok) : ∃ h, execRegisterWrite m a v s = .next ⟨h, s.pending⟩ ∧ h.Ok := by
  refine ⟨_, rfl, ?_⟩
  simp only
  generalize s.hw = h at *
  unfold Hw.onBus
  exact Hw.Ok.ite (fun _ => hk) (fun _ => Hw.issue_ok hk)

theorem execRclrCounterRead_ok {m : Master} {a : BitVec 32} {s : State} (hk : s.hw.Ok) : ∃ h, execRclrCounterRead m a s = .next ⟨h, s.pending⟩ ∧ h.Ok := by
  refine ⟨_, rfl, ?_⟩
  simp only
  generalize s.hw = h at *
  unfold Hw.onBus
  exact Hw.Ok.ite (fun _ => hk) (fun _ => Hw.issue_ok hk)

theorem execDmaAbort_ok {c : Fin 8} {v : BitVec 32} {s : State} (hk : s.hw.Ok) : ∃ h, execDmaAbort c v s = .next ⟨h, s.pending⟩ ∧ h.Ok := by
  refine ⟨_, rfl, ?_⟩
  simp only
  generalize s.hw = h at *
  refine Hw.Ok.ite (fun _ => ?_) (fun _ => ?_)
  · exact Hw.dmaCtrl_ok hk
  · exact hk

theorem execDmaGo_ok {c : Fin 8} {v : BitVec 32} {s : State} (hk : s.hw.Ok) : ∃ h, execDmaGo c v s = .next ⟨h, s.pending⟩ ∧ h.Ok := by
  refine ⟨_, rfl, ?_⟩
  simp only
  generalize s.hw = h at *
  refine Hw.Ok.ite (fun _ => ?_) (fun _ => ?_)
  · exact Hw.dmaCtrl_ok hk
  · exact hk

theorem execDmaResume_ok {c : Fin 8} {v : BitVec 32} {s : State} (hk : s.hw.Ok) : ∃ h, execDmaResume c v s = .next ⟨h, s.pending⟩ ∧ h.Ok := by
  refine ⟨_, rfl, ?_⟩
  simp only
  generalize s.hw = h at *
  refine Hw.Ok.ite (fun _ => ?_) (fun _ => ?_)
  · exact Hw.dmaCtrl_ok hk
  · exact hk

theorem execDmaBeat_ok {hit : Bool} {s : State} (hk : s.hw.Ok) : ∃ h, execDmaBeat hit s = .next ⟨h, s.pending⟩ ∧ h.Ok := by
  refine ⟨_, rfl, ?_⟩
  simp only
  generalize s.hw = h at *
  exact Hw.dmaBeat_ok hk

end Sys2Proof.Machine
end

