-- ==== Sys2Proof/Laws/TouchObjects.lean ====
section
/-! SUPPORT. What each operation of Machine/Objects.lean touches of the part: the components outside the list stay as they were. -/

set_option Elab.async false

namespace Sys2Proof.Machine

theorem Hw.readWord_touches {h : Hw} {a : Nat} : Touches [.regs, .ecc, .free, .resp, .elogQ, .tspi, .sspi, .tp, .serials, .radio, .rtc, .i2c] h (Hw.readWord h a).2 := by
  unfold Hw.readWord
  extract_lets +onlyGivenNames h1
  refine Touches.cut (x := h1) ?_ fun th1 => ?_
  · subst h1
    exact Touches.refl.step Hw.read_touches
  clear_value h1
  split
  · exact Touches.pair (th1)
  · exact Touches.pair (th1)
  · exact Touches.pair (th1)

theorem Hw.coilRead_touches {h : Hw} {b1 : List Nat} : Touches [.regs, .ecc, .free, .resp, .elogQ] h (Hw.coilRead h b1).2 := by
  induction b1 generalizing h with
  | nil =>
    unfold Hw.coilRead
    exact Touches.pair (Touches.refl)
  | cons y ys ih =>
    unfold Hw.coilRead
    split
    · rename_i a1 h2 e3
      refine Touches.cut (x := h2) (Touches.snd ?_ e3) fun th2 => ?_
      · exact Touches.refl.step Hw.navWords_touches
      exact Touches.pair (th2)
    · rename_i a4 h5 e6
      refine Touches.cut (x := h5) (Touches.snd ?_ e6) fun th5 => ?_
      · exact Touches.refl.step Hw.navWords_touches
      exact th5.step ih

theorem Hw.coilAnswer_touches {h : Hw} : Touches [.regs, .ecc, .free, .resp, .elogQ] h (Hw.coilAnswer h).2 := by
  unfold Hw.coilAnswer
  refine Touches.ite2 ?_ ?_
  · exact Touches.pair (Touches.refl)
  · split
    · rename_i a1 h2 e3
      refine Touches.cut (x := h2) (Touches.snd ?_ e3) fun th2 => ?_
      · exact Touches.refl.step Hw.coilRead_touches
      exact Touches.pair (th2)
    · rename_i a4 h5 e6
      refine Touches.cut (x := h5) (Touches.snd ?_ e6) fun th5 => ?_
      · exact Touches.refl.step Hw.coilRead_touches
      refine Touches.ite2 ?_ ?_
      · exact Touches.pair (th5)
      · exact Touches.pair (th5)

theorem Hw.objectValue_touches {h : Hw} {l : Nat} {o : ObjDef} : Touches [.regs, .ecc, .free, .resp, .elogQ, .tspi, .sspi, .tp, .serials, .radio, .rtc, .i2c] h (Hw.objectValue h l o).2 := by
  unfold Hw.objectValue
  refine Touches.ite2 ?_ ?_
  · exact Touches.pair (Touches.refl)
  · split
    · exact Touches.refl.step Hw.readWord_touches
    · refine Touches.ite2 ?_ ?_
      · exact Touches.refl.step Hw.coilAnswer_touches
      · exact Touches.pair (Touches.refl)

theorem Hw.objectRead_touches {h : Hw} {l : Nat} {idx : Nat} {sub : Nat} : Touches [.regs, .ecc, .free, .resp, .elogQ, .tspi, .sspi, .tp, .serials, .radio, .rtc, .i2c] h (Hw.objectRead h l idx sub).2 := by
  unfold Hw.objectRead
  split
  · exact Touches.pair (Touches.refl)
  · refine Touches.ite2 ?_ ?_
    · exact Touches.pair (Touches.refl)
    · refine Touches.ite2 ?_ ?_
      · exact Touches.pair (Touches.refl)
      · exact Touches.refl.step Hw.objectValue_touches

theorem done_touches {h : Hw} {l : List Block} {r : Option Nat × Hw} (t : Touches l h r.2) : Touches l h (done r).2 := by
  obtain ⟨o, g⟩ := r
  cases o <;> exact t

theorem kernelAnswer_touches {h : Hw} {l : List Block} {r : KernelStep × Hw} (t : Touches l h r.2) : Touches l h (kernelAnswer r).2 := by
  obtain ⟨o, g⟩ := r
  cases o <;> exact t

theorem Hw.roleAccess_touches {h0 h : Hw} {l : List Block} {a : Nat} {f : Hw → Answer × Hw} (t : Touches l h0 h)
    (hf : ∀ g, Touches l h0 g → Touches l h0 (f g).2) (hl : Block.within [.regs, .resp, .elogQ] l = true := by rfl)
    (hr : Block.within [.regs, .resp] l = true := by rfl) : Touches l h0 (h.roleAccess a f).2 := by
  unfold Hw.roleAccess
  split
  · exact Touches.pair (t.step Hw.errorResp_touches hl)
  · exact Touches.pair (t.step Hw.stallResp_touches hr)
  · exact hf _ t

theorem Hw.writeWord_touches {h : Hw} {a : Nat} {v : Nat} : Touches (Block.except []) h (Hw.writeWord h a v).2 := by
  unfold Hw.writeWord
  extract_lets +onlyGivenNames h1
  refine Touches.cut (x := h1) ?_ fun th1 => ?_
  · subst h1
    exact Touches.refl.step Hw.write_touches
  clear_value h1
  split
  · exact Touches.pair (th1)
  · exact Touches.pair (th1)
  · exact Touches.pair (th1)

theorem Hw.wordWrite_touches {h : Hw} {l : Nat} {a : Nat} {v : Nat} : Touches (Block.except []) h (Hw.wordWrite h l a v).2 := by
  unfold Hw.wordWrite
  refine Touches.ite2 ?_ ?_
  · refine Hw.roleAccess_touches ?_ fun h1 th1 => ?_
    · exact Touches.refl
    · split
      · rename_i a2 h3 e4
        refine Touches.cut (x := h3) (Touches.snd ?_ e4) fun th3 => ?_
        · exact th1.step Hw.lcRequest_touches
        exact Touches.pair (th3)
      · rename_i a5 h6 e7
        refine Touches.cut (x := h6) (Touches.snd ?_ e7) fun th6 => ?_
        · exact th1.step Hw.lcRequest_touches
        exact Touches.pair (th6)
  · refine Touches.ite2 ?_ ?_
    · refine Hw.roleAccess_touches ?_ fun h8 th8 => ?_
      · exact Touches.refl
      · exact Touches.pair (th8.step Hw.fuseBlow_touches)
    · exact Touches.refl.step Hw.writeWord_touches

theorem Hw.pkeyObject_touches {h : Hw} {idx : Nat} {v : Nat} : Touches [.regs, .mem, .ecc, .fw, .cans, .pkey] h (Hw.pkeyObject h idx v).2 := by
  unfold Hw.pkeyObject
  refine Touches.ite2 ?_ ?_
  · exact Touches.pair (Touches.refl.step Hw.bondDelete_touches)
  · refine Touches.ite2 ?_ ?_
    · exact Touches.pair (Touches.refl.step Hw.remote_touches)
    · exact Touches.pair (Touches.refl)

theorem Hw.updObject_touches {h : Hw} {l : Nat} {sub : Nat} {bs : List Nat} : Touches [.regs, .mem, .ecc, .free, .resp, .fuses, .kept, .elogQ, .memu, .fab, .hitch, .fw, .upd] h (Hw.updObject h l sub bs).2 := by
  unfold Hw.updObject
  extract_lets +onlyGivenNames v1
  split
  · refine done_touches ?_
    exact Touches.refl.step Hw.updBegin_touches
  · refine done_touches ?_
    exact Touches.refl.step Hw.updBlock_touches
  · split
    · rename_i a5 h6 e7
      refine Touches.cut (x := h6) (Touches.snd ?_ e7) fun th6 => ?_
      · exact Touches.refl.step Hw.updPrepare_touches
      exact Touches.pair (th6)
    · rename_i a8 a9 h10 e11
      refine Touches.cut (x := h10) (Touches.snd ?_ e11) fun th10 => ?_
      · exact Touches.refl.step Hw.updPrepare_touches
      exact Touches.pair (th10)
  · exact Touches.pair (Touches.refl.step Hw.updCancel_touches)
  · refine done_touches ?_
    exact Touches.refl.step Hw.updConfirm_touches

theorem Hw.vehicleObject_touches {h : Hw} {sub : Nat} {v : Nat} : Touches [.regs, .mem, .ecc, .free, .elogQ, .ports, .strands, .fab, .loop, .hot, .fw] h (Hw.vehicleObject h sub v).2 := by
  unfold Hw.vehicleObject
  extract_lets +onlyGivenNames h1
  refine Touches.cut (x := h1) ?_ fun th1 => ?_
  · subst h1
    exact Touches.refl.step Hw.setObj_touches
  clear_value h1
  extract_lets +onlyGivenNames v2
  extract_lets +onlyGivenNames h3
  refine Touches.cut (x := h3) ?_ fun th3 => ?_
  · subst h3
    refine Touches.ite ?_ ?_
    · exact th1.step set_fw_touches
    · exact th1
  clear_value h3
  refine Touches.pair ?_
  refine Touches.ite ?_ ?_
  · exact th3.step Hw.snapAbandon_touches
  · exact th3

theorem Hw.commitAnswer_touches {h : Hw} {s : Nat} {bell : Bool} : Touches [.regs, .mem, .ecc, .free, .resp, .elogQ, .memu, .fab, .fw] h (Hw.commitAnswer h s bell).2 := by
  unfold Hw.commitAnswer
  extract_lets +onlyGivenNames h1
  refine Touches.cut (x := h1) ?_ fun th1 => ?_
  · subst h1
    exact Touches.refl.step Hw.commitObject_touches
  clear_value h1
  split
  · exact Touches.pair (th1)
  · exact Touches.pair (th1)
  · exact Touches.pair (th1)

theorem Hw.fwEffect_touches {h : Hw} {l : Nat} {o : ObjDef} {bs : List Nat} : Touches [.regs, .mem, .ecc, .free, .resp, .fuses, .kept, .elogQ, .memu, .ports, .strands, .fab, .loop, .hot, .hitch, .fw, .cans, .pkey, .upd] h (Hw.fwEffect h l o bs).2 := by
  unfold Hw.fwEffect
  extract_lets +onlyGivenNames v1
  refine Touches.ite2 ?_ ?_
  · exact Touches.pair (Touches.refl.step Hw.hsWant_touches)
  · refine Touches.ite2 ?_ ?_
    · exact Touches.pair (Touches.refl.step Hw.coilReleaseObj_touches)
    · refine Touches.ite2 ?_ ?_
      · refine kernelAnswer_touches ?_
        exact Touches.refl.step Hw.kload_touches
      · refine Touches.ite2 ?_ ?_
        · refine kernelAnswer_touches ?_
          exact Touches.refl.step Hw.kunload_touches
        · refine Touches.ite2 ?_ ?_
          · exact Touches.refl.step Hw.commitAnswer_touches
          · refine Touches.ite2 ?_ ?_
            · exact Touches.refl.step Hw.vehicleObject_touches
            · refine Touches.ite2 ?_ ?_
              · exact Touches.refl.step Hw.pkeyObject_touches
              · refine Touches.ite2 ?_ ?_
                · exact Touches.refl.step Hw.updObject_touches
                · refine Touches.ite2 ?_ ?_
                  · exact Touches.pair (Touches.refl.step Hw.restoreObj_touches)
                  · exact Touches.pair (Touches.refl.step Hw.setObj_touches)

theorem Hw.objectPut_touches {h : Hw} {l : Nat} {o : ObjDef} {bs : List Nat} : Touches (Block.except []) h (Hw.objectPut h l o bs).2 := by
  unfold Hw.objectPut
  extract_lets +onlyGivenNames p1
  refine Touches.cut2 (x := p1) ?_ fun tp1 => ?_
  · subst p1
    refine Touches.ite2 ?_ ?_
    · exact Touches.refl.step Hw.journalWrite_touches
    · exact Touches.pair (Touches.refl)
  clear_value p1
  split
  · rename_i a2 a3 h4
    exact Touches.pair (tp1)
  · rename_i a5 h6
    split
    · exact tp1.step Hw.wordWrite_touches
    · split
      · rename_i a12 a13 h14 e15
        refine Touches.cut (x := h14) (Touches.snd ?_ e15) fun th14 => ?_
        · exact tp1.step Hw.fwEffect_touches
        exact Touches.pair (th14)
      · rename_i a16 h17 e18
        refine Touches.cut (x := h17) (Touches.snd ?_ e18) fun th17 => ?_
        · exact tp1.step Hw.fwEffect_touches
        exact Touches.pair (th17)
      · rename_i a19 a20 h21 a22 a23 e24
        refine Touches.cut (x := h21) (Touches.snd ?_ e24) fun th21 => ?_
        · exact tp1.step Hw.fwEffect_touches
        exact Touches.pair (th21.step Hw.notice_touches)

theorem Hw.putChecked_touches {h : Hw} {l : Nat} {o : ObjDef} {bs : List Nat} : Touches (Block.except []) h (Hw.putChecked h l o bs).2 := by
  unfold Hw.putChecked
  refine Touches.ite2 ?_ ?_
  · exact Touches.pair (Touches.refl)
  · split
    · exact Touches.pair (Touches.refl)
    · refine Touches.ite2 ?_ ?_
      · exact Touches.pair (Touches.refl)
      · exact Touches.refl.step Hw.objectPut_touches

end Sys2Proof.Machine
end

