-- ==== Sys2Proof/Laws/OkObjects.lean ====
section
/-! SUPPORT. Every operation of Machine/Objects.lean keeps the invariant of the part. -/

set_option Elab.async false

namespace Sys2Proof.Machine

theorem Hw.readWord_ok {h : Hw} {a : Nat} (hk : h.Ok) : (Hw.readWord h a).2.Ok := by
  unfold Hw.readWord
  extract_lets +onlyGivenNames h1
  refine Hw.Ok.cut (x := h1) ?_ fun th1 => ?_
  · subst h1
    exact Hw.read_ok hk
  clear_value h1
  split
  · exact Hw.Ok.pair (th1)
  · exact Hw.Ok.pair (th1)
  · exact Hw.Ok.pair (th1)

theorem Hw.coilRead_ok {h : Hw} {b1 : List Nat} (hk : h.Ok) : (Hw.coilRead h b1).2.Ok := by
  induction b1 generalizing h hk with
  | nil =>
    unfold Hw.coilRead
    exact Hw.Ok.pair (hk)
  | cons y ys ih =>
    unfold Hw.coilRead
    split
    · rename_i a1 h2 e3
      refine Hw.Ok.cut (x := h2) (Hw.Ok.snd ?_ e3) fun th2 => ?_
      · exact Hw.navWords_ok hk
      exact Hw.Ok.pair (th2)
    · rename_i a4 h5 e6
      refine Hw.Ok.cut (x := h5) (Hw.Ok.snd ?_ e6) fun th5 => ?_
      · exact Hw.navWords_ok hk
      exact ih th5

theorem Hw.coilAnswer_ok {h : Hw} (hk : h.Ok) : (Hw.coilAnswer h).2.Ok := by
  unfold Hw.coilAnswer
  refine Hw.Ok.ite2 (fun _ => ?_) (fun _ => ?_)
  · exact Hw.Ok.pair (hk)
  · split
    · rename_i a1 h2 e3
      refine Hw.Ok.cut (x := h2) (Hw.Ok.snd ?_ e3) fun th2 => ?_
      · exact Hw.coilRead_ok hk
      exact Hw.Ok.pair (th2)
    · rename_i a4 h5 e6
      refine Hw.Ok.cut (x := h5) (Hw.Ok.snd ?_ e6) fun th5 => ?_
      · exact Hw.coilRead_ok hk
      refine Hw.Ok.ite2 (fun _ => ?_) (fun _ => ?_)
      · exact Hw.Ok.pair (th5)
      · exact Hw.Ok.pair (th5)

theorem Hw.objectValue_ok {h : Hw} {l : Nat} {o : ObjDef} (hk : h.Ok) : (Hw.objectValue h l o).2.Ok := by
  unfold Hw.objectValue
  refine Hw.Ok.ite2 (fun _ => ?_) (fun _ => ?_)
  · exact Hw.Ok.pair (hk)
  · split
    · exact Hw.readWord_ok hk
    · refine Hw.Ok.ite2 (fun _ => ?_) (fun _ => ?_)
      · exact Hw.coilAnswer_ok hk
      · exact Hw.Ok.pair (hk)

theorem Hw.objectRead_ok {h : Hw} {l : Nat} {idx : Nat} {sub : Nat} (hk : h.Ok) : (Hw.objectRead h l idx sub).2.Ok := by
  unfold Hw.objectRead
  split
  · exact Hw.Ok.pair (hk)
  · refine Hw.Ok.ite2 (fun _ => ?_) (fun _ => ?_)
    · exact Hw.Ok.pair (hk)
    · refine Hw.Ok.ite2 (fun _ => ?_) (fun _ => ?_)
      · exact Hw.Ok.pair (hk)
      · exact Hw.objectValue_ok hk

theorem done_ok {r : Option Nat × Hw} (ok : r.2.Ok) : (done r).2.Ok := by
  obtain ⟨o, g⟩ := r
  cases o <;> exact ok

theorem kernelAnswer_ok {r : KernelStep × Hw} (ok : r.2.Ok) : (kernelAnswer r).2.Ok := by
  obtain ⟨o, g⟩ := r
  cases o <;> exact ok

theorem Hw.roleAccess_ok {h : Hw} {a : Nat} {f : Hw → Answer × Hw} (ok : h.Ok) (hf : ∀ g, g.Ok → (f g).2.Ok) : (h.roleAccess a f).2.Ok := by
  unfold Hw.roleAccess
  split
  · exact Hw.Ok.pair (Hw.errorResp_ok ok)
  · exact Hw.Ok.pair (Hw.stallResp_ok ok)
  · exact hf _ ok

theorem Hw.writeWord_ok {h : Hw} {a : Nat} {v : Nat} (hk : h.Ok) : (Hw.writeWord h a v).2.Ok := by
  unfold Hw.writeWord
  extract_lets +onlyGivenNames h1
  refine Hw.Ok.cut (x := h1) ?_ fun th1 => ?_
  · subst h1
    exact Hw.write_ok hk
  clear_value h1
  split
  · exact Hw.Ok.pair (th1)
  · exact Hw.Ok.pair (th1)
  · exact Hw.Ok.pair (th1)

theorem Hw.wordWrite_ok {h : Hw} {l : Nat} {a : Nat} {v : Nat} (hk : h.Ok) : (Hw.wordWrite h l a v).2.Ok := by
  unfold Hw.wordWrite
  refine Hw.Ok.ite2 (fun _ => ?_) (fun _ => ?_)
  · refine Hw.roleAccess_ok ?_ fun h1 th1 => ?_
    · exact hk
    · split
      · rename_i a2 h3 e4
        refine Hw.Ok.cut (x := h3) (Hw.Ok.snd ?_ e4) fun th3 => ?_
        · exact Hw.lcRequest_ok th1
        exact Hw.Ok.pair (th3)
      · rename_i a5 h6 e7
        refine Hw.Ok.cut (x := h6) (Hw.Ok.snd ?_ e7) fun th6 => ?_
        · exact Hw.lcRequest_ok th1
        exact Hw.Ok.pair (th6)
  · refine Hw.Ok.ite2 (fun _ => ?_) (fun _ => ?_)
    · refine Hw.roleAccess_ok ?_ fun h8 th8 => ?_
      · exact hk
      · exact Hw.Ok.pair (Hw.fuseBlow_ok th8)
    · exact Hw.writeWord_ok hk

theorem Hw.pkeyObject_ok {h : Hw} {idx : Nat} {v : Nat} (hk : h.Ok) : (Hw.pkeyObject h idx v).2.Ok := by
  unfold Hw.pkeyObject
  refine Hw.Ok.ite2 (fun _ => ?_) (fun _ => ?_)
  · exact Hw.Ok.pair (Hw.bondDelete_ok hk)
  · refine Hw.Ok.ite2 (fun _ => ?_) (fun _ => ?_)
    · exact Hw.Ok.pair (Hw.remote_ok hk)
    · exact Hw.Ok.pair (hk)

theorem Hw.updObject_ok {h : Hw} {l : Nat} {sub : Nat} {bs : List Nat} (hk : h.Ok) : (Hw.updObject h l sub bs).2.Ok := by
  unfold Hw.updObject
  extract_lets +onlyGivenNames v1
  split
  · refine done_ok ?_
    exact Hw.updBegin_ok hk
  · refine done_ok ?_
    exact Hw.updBlock_ok hk
  · split
    · rename_i a5 h6 e7
      refine Hw.Ok.cut (x := h6) (Hw.Ok.snd ?_ e7) fun th6 => ?_
      · exact Hw.updPrepare_ok hk
      exact Hw.Ok.pair (th6)
    · rename_i a8 a9 h10 e11
      refine Hw.Ok.cut (x := h10) (Hw.Ok.snd ?_ e11) fun th10 => ?_
      · exact Hw.updPrepare_ok hk
      exact Hw.Ok.pair (th10)
  · exact Hw.Ok.pair (Hw.updCancel_ok hk)
  · refine done_ok ?_
    exact Hw.updConfirm_ok hk

theorem Hw.vehicleObject_ok {h : Hw} {sub : Nat} {v : Nat} (hk : h.Ok) : (Hw.vehicleObject h sub v).2.Ok := by
  unfold Hw.vehicleObject
  extract_lets +onlyGivenNames h1
  refine Hw.Ok.cut (x := h1) ?_ fun th1 => ?_
  · subst h1
    exact Hw.setObj_ok hk
  clear_value h1
  extract_lets +onlyGivenNames v2
  extract_lets +onlyGivenNames h3
  refine Hw.Ok.cut (x := h3) ?_ fun th3 => ?_
  · subst h3
    refine Hw.Ok.ite (fun _ => ?_) (fun _ => ?_)
    · exact Hw.Ok.touches th1 set_fw_touches
    · exact th1
  clear_value h3
  refine Hw.Ok.pair ?_
  refine Hw.Ok.ite (fun _ => ?_) (fun _ => ?_)
  · exact Hw.snapAbandon_ok th3
  · exact th3

theorem Hw.commitAnswer_ok {h : Hw} {s : Nat} {bell : Bool} (hk : h.Ok) : (Hw.commitAnswer h s bell).2.Ok := by
  unfold Hw.commitAnswer
  extract_lets +onlyGivenNames h1
  refine Hw.Ok.cut (x := h1) ?_ fun th1 => ?_
  · subst h1
    exact Hw.commitObject_ok hk
  clear_value h1
  split
  · exact Hw.Ok.pair (th1)
  · exact Hw.Ok.pair (th1)
  · exact Hw.Ok.pair (th1)

theorem Hw.fwEffect_ok {h : Hw} {l : Nat} {o : ObjDef} {bs : List Nat} (hk : h.Ok) : (Hw.fwEffect h l o bs).2.Ok := by
  unfold Hw.fwEffect
  extract_lets +onlyGivenNames v1
  refine Hw.Ok.ite2 (fun _ => ?_) (fun _ => ?_)
  · exact Hw.Ok.pair (Hw.hsWant_ok hk)
  · refine Hw.Ok.ite2 (fun _ => ?_) (fun _ => ?_)
    · exact Hw.Ok.pair (Hw.coilReleaseObj_ok hk)
    · refine Hw.Ok.ite2 (fun _ => ?_) (fun _ => ?_)
      · refine kernelAnswer_ok ?_
        exact Hw.kload_ok hk
      · refine Hw.Ok.ite2 (fun _ => ?_) (fun _ => ?_)
        · refine kernelAnswer_ok ?_
          exact Hw.kunload_ok hk
        · refine Hw.Ok.ite2 (fun _ => ?_) (fun _ => ?_)
          · exact Hw.commitAnswer_ok hk
          · refine Hw.Ok.ite2 (fun _ => ?_) (fun _ => ?_)
            · exact Hw.vehicleObject_ok hk
            · refine Hw.Ok.ite2 (fun _ => ?_) (fun _ => ?_)
              · exact Hw.pkeyObject_ok hk
              · refine Hw.Ok.ite2 (fun _ => ?_) (fun _ => ?_)
                · exact Hw.updObject_ok hk
                · refine Hw.Ok.ite2 (fun _ => ?_) (fun _ => ?_)
                  · exact Hw.Ok.pair (Hw.restoreObj_ok hk)
                  · exact Hw.Ok.pair (Hw.setObj_ok hk)

theorem Hw.objectPut_ok {h : Hw} {l : Nat} {o : ObjDef} {bs : List Nat} (hk : h.Ok) : (Hw.objectPut h l o bs).2.Ok := by
  unfold Hw.objectPut
  extract_lets +onlyGivenNames p1
  refine Hw.Ok.cut2 (x := p1) ?_ fun tp1 => ?_
  · subst p1
    refine Hw.Ok.ite2 (fun _ => ?_) (fun _ => ?_)
    · exact Hw.journalWrite_ok hk
    · exact Hw.Ok.pair (hk)
  clear_value p1
  split
  · rename_i a2 a3 h4
    exact Hw.Ok.pair (tp1)
  · rename_i a5 h6
    split
    · exact Hw.wordWrite_ok tp1
    · split
      · rename_i a12 a13 h14 e15
        refine Hw.Ok.cut (x := h14) (Hw.Ok.snd ?_ e15) fun th14 => ?_
        · exact Hw.fwEffect_ok tp1
        exact Hw.Ok.pair (th14)
      · rename_i a16 h17 e18
        refine Hw.Ok.cut (x := h17) (Hw.Ok.snd ?_ e18) fun th17 => ?_
        · exact Hw.fwEffect_ok tp1
        exact Hw.Ok.pair (th17)
      · rename_i a19 a20 h21 a22 a23 e24
        refine Hw.Ok.cut (x := h21) (Hw.Ok.snd ?_ e24) fun th21 => ?_
        · exact Hw.fwEffect_ok tp1
        exact Hw.Ok.pair (Hw.notice_ok th21)

theorem Hw.putChecked_ok {h : Hw} {l : Nat} {o : ObjDef} {bs : List Nat} (hk : h.Ok) : (Hw.putChecked h l o bs).2.Ok := by
  unfold Hw.putChecked
  refine Hw.Ok.ite2 (fun _ => ?_) (fun _ => ?_)
  · exact Hw.Ok.pair (hk)
  · split
    · exact Hw.Ok.pair (hk)
    · refine Hw.Ok.ite2 (fun _ => ?_) (fun _ => ?_)
      · exact Hw.Ok.pair (hk)
      · exact Hw.objectPut_ok hk

end Sys2Proof.Machine
end

