-- ==== Sys2Proof/Laws/TouchDictionary.lean ====
section
/-! SUPPORT. What each operation of Machine/Dictionary.lean touches of the part: the components outside the list stay as they were. -/

set_option Elab.async false

namespace Sys2Proof.Machine

theorem Hw.respond_touches {h : Hw} {l : Nat} {req : List Nat} {r : Except Nat (List Nat)} : Touches [.regs, .fw, .serials, .cans] h (Hw.respond h l req r) := by
  unfold Hw.respond
  exact Touches.refl.step Hw.linkSend_touches

theorem Hw.setRequests_touches {h : Hw} {q : List (Nat × List Nat)} : Touches [.fw] h (Hw.setRequests h q) := by
  unfold Hw.setRequests
  exact Touches.refl.step set_fw_touches

theorem Hw.dropNonce_touches {h : Hw} {l : Nat} : Touches [.fw] h (Hw.dropNonce h l) := by
  unfold Hw.dropNonce
  exact Touches.refl.step Hw.setLink_touches

theorem Hw.flushBad_touches {h : Hw} {b1 : Nat} : Touches [.regs, .fw, .serials, .cans] h (Hw.flushBad h b1) := by
  induction b1 generalizing h with
  | zero =>
    unfold Hw.flushBad
    exact Touches.refl
  | succ k ih =>
    unfold Hw.flushBad
    split
    · exact Touches.refl
    · split
      · exact Touches.refl
      · extract_lets +onlyGivenNames h13
        refine Touches.cut (x := h13) ?_ fun th13 => ?_
        · subst h13
          exact Touches.refl.step Hw.setRequests_touches
        clear_value h13
        extract_lets +onlyGivenNames h14
        refine Touches.cut (x := h14) ?_ fun th14 => ?_
        · subst h14
          refine Touches.ite ?_ ?_
          · exact th13.step Hw.dropNonce_touches
          · exact th13
        clear_value h14
        exact (th14.step Hw.respond_touches).step ih

theorem Hw.bootAnswer_touches {h : Hw} {l : Nat} {req : List Nat} : Touches [.regs, .fw, .serials, .cans] h (Hw.bootAnswer h l req) := by
  unfold Hw.bootAnswer
  split
  · exact Touches.refl.step Hw.respond_touches
  · exact Touches.refl.step Hw.respond_touches

theorem Hw.request_touches {h : Hw} {l : Nat} {req : List Nat} : Touches [.regs, .fw, .serials, .cans] h (Hw.request h l req) := by
  unfold Hw.request
  refine Touches.ite ?_ ?_
  · exact Touches.refl.step Hw.bootAnswer_touches
  · refine Touches.ite ?_ ?_
    · exact Touches.refl
    · extract_lets +onlyGivenNames v1
      extract_lets +onlyGivenNames h2
      refine Touches.cut (x := h2) ?_ fun th2 => ?_
      · subst h2
        exact Touches.refl.step Hw.setLink_touches
      clear_value h2
      refine Touches.ite ?_ ?_
      · exact th2.step Hw.respond_touches
      · extract_lets +onlyGivenNames h3
        refine Touches.cut (x := h3) ?_ fun th3 => ?_
        · subst h3
          exact th2.step Hw.setRequests_touches
        clear_value h3
        refine Touches.ite ?_ ?_
        · exact th3.step Hw.flushBad_touches
        · exact th3

theorem Hw.finishRequest_touches {h : Hw} {l : Nat} {req : List Nat} {r : Except Nat (List Nat)} : Touches [.regs, .fw, .serials, .cans] h (Hw.finishRequest h l req r) := by
  unfold Hw.finishRequest
  extract_lets +onlyGivenNames h1
  refine Touches.cut (x := h1) ?_ fun th1 => ?_
  · subst h1
    exact Touches.refl.step Hw.setRequests_touches
  clear_value h1
  refine Touches.ite ?_ ?_
  · exact th1.step Hw.respond_touches
  · exact th1

theorem served_touches {h : Hw} {k : List Block} {l : Nat} {req : List Nat} {x : Answer × Hw} (t : Touches k h x.2)
    (hl : Block.within [.regs, .sys, .fw, .serials, .lyd, .cans, .radio, .pkey, .upd] k = true := by rfl)
    (hf : Block.within [.regs, .fw, .serials, .cans] k = true := by rfl) : Touches k h (served l req x) := by
  obtain ⟨a, g⟩ := x
  have tg : Touches k h g := t
  cases a with
  | later => exact tg
  | value bs => exact tg.step Hw.finishRequest_touches hf
  | abort code => exact tg.step Hw.finishRequest_touches hf
  | thenGo => exact tg.step ((Touches.refl.step Hw.finishRequest_touches).step Hw.updGo_touches) hl

theorem Hw.serveIf_touches {h0 h : Hw} {k : List Block} {op : Nat} {p : List Nat → Bool} {f : Nat → List Nat → Hw → Answer × Hw} (t : Touches k h0 h)
    (hg : ∀ l req g, Touches k h0 g → Touches k h0 (f l req g).2)
    (hl : Block.within [.regs, .sys, .fw, .serials, .lyd, .cans, .radio, .pkey, .upd] k = true := by rfl)
    (hf : Block.within [.regs, .fw, .serials, .cans] k = true := by rfl) : Touches k h0 (h.serveIf op p f) := by
  unfold Hw.serveIf
  refine Touches.ite t ?_
  extract_lets h1
  have t1 : Touches k h0 h1 := t.step Hw.flushBad_touches hf
  clear_value h1
  split
  · exact t1
  · refine Touches.ite t1 ?_
    extract_lets h2
    have t2 : Touches k h0 h2 := served_touches (hg _ _ _ t1) hl hf
    exact Touches.ite (t2.step Hw.flushBad_touches hf) t2

theorem Hw.serve_touches {h0 h : Hw} {k : List Block} {op : Nat} {f : Nat → List Nat → Hw → Answer × Hw} (t : Touches k h0 h)
    (hg : ∀ l req g, Touches k h0 g → Touches k h0 (f l req g).2)
    (hl : Block.within [.regs, .sys, .fw, .serials, .lyd, .cans, .radio, .pkey, .upd] k = true := by rfl)
    (hf : Block.within [.regs, .fw, .serials, .cans] k = true := by rfl) : Touches k h0 (h.serve op f) :=
  Hw.serveIf_touches t hg hl hf

theorem Hw.opRead_touches {h : Hw} : Touches [.regs, .ecc, .free, .resp, .sys, .elogQ, .tspi, .sspi, .tp, .fw, .serials, .lyd, .cans, .radio, .pkey, .rtc, .upd, .i2c] h (Hw.opRead h) := by
  unfold Hw.opRead
  refine Hw.serve_touches ?_ fun l req h1 th1 => ?_
  · exact Touches.refl
  · split
    · rename_i a2 a3 h4 e5
      refine Touches.cut (x := h4) (Touches.snd ?_ e5) fun th4 => ?_
      · exact th1.step Hw.objectRead_touches
      refine Touches.ite2 ?_ ?_
      · exact Touches.pair (th4)
      · exact Touches.pair (th4)
    · exact th1.step Hw.objectRead_touches

theorem Hw.opWrite_touches {h : Hw} : Touches (Block.except []) h (Hw.opWrite h) := by
  unfold Hw.opWrite
  refine Hw.serve_touches ?_ fun l req h1 th1 => ?_
  · exact Touches.refl
  · split
    · exact Touches.pair (th1)
    · refine Touches.ite2 ?_ ?_
      · exact Touches.pair (th1)
      · exact th1.step Hw.putChecked_touches

theorem Hw.opReadSeg_touches {h : Hw} : Touches [.regs, .ecc, .free, .resp, .sys, .elogQ, .tspi, .sspi, .tp, .fw, .serials, .lyd, .cans, .radio, .pkey, .rtc, .upd, .i2c] h (Hw.opReadSeg h) := by
  unfold Hw.opReadSeg
  refine Hw.serve_touches ?_ fun l req h1 th1 => ?_
  · exact Touches.refl
  · extract_lets +onlyGivenNames v2
    refine Touches.ite2 ?_ ?_
    · exact Touches.pair (th1)
    · split
      · rename_i a3 a4 h5 e6
        refine Touches.cut (x := h5) (Touches.snd ?_ e6) fun th5 => ?_
        · exact th1.step Hw.objectRead_touches
        extract_lets +onlyGivenNames v7
        exact Touches.pair (th5)
      · exact th1.step Hw.objectRead_touches

theorem Hw.segDrop_touches {h : Hw} {l : Nat} {idx : Nat} {sub : Nat} : Touches [.fw] h (Hw.segDrop h l idx sub) := by
  unfold Hw.segDrop
  exact Touches.refl.step Hw.setLink_touches

theorem Hw.segPut_touches {h : Hw} {l : Nat} {x : SegWrite} : Touches [.fw] h (Hw.segPut h l x) := by
  unfold Hw.segPut
  extract_lets +onlyGivenNames h1
  refine Touches.cut (x := h1) ?_ fun th1 => ?_
  · subst h1
    exact Touches.refl.step Hw.segDrop_touches
  clear_value h1
  exact th1.step Hw.setLink_touches

theorem Hw.segKill_touches {h : Hw} {l : Nat} {idx : Nat} {sub : Nat} {code : Nat} : Touches [.fw] h (Hw.segKill h l idx sub code) := by
  unfold Hw.segKill
  extract_lets +onlyGivenNames h1
  refine Touches.cut (x := h1) ?_ fun th1 => ?_
  · subst h1
    exact Touches.refl.step Hw.segDrop_touches
  clear_value h1
  exact th1.step Hw.setLink_touches

theorem Hw.segExpire_touches {h : Hw} {l : Nat} {idx : Nat} {sub : Nat} : Touches [.tcnt, .fw] h (Hw.segExpire h l idx sub) := by
  unfold Hw.segExpire
  split
  · exact Touches.refl
  · refine Touches.ite ?_ ?_
    · exact (Touches.refl.step Hw.reach_touches).step Hw.segKill_touches
    · exact Touches.refl

theorem Hw.segTake_touches {h : Hw} {l : Nat} {o : ObjDef} {x : SegWrite} {g : Segment} : Touches (Block.except []) h (Hw.segTake h l o x g).2 := by
  unfold Hw.segTake
  extract_lets +onlyGivenNames v1 v2
  refine Touches.ite2 ?_ ?_
  · exact Touches.pair (Touches.refl.step Hw.segDrop_touches)
  · refine Touches.ite2 ?_ ?_
    · exact Touches.pair (Touches.refl.step Hw.segPut_touches)
    · refine Touches.ite2 ?_ ?_
      · exact Touches.pair (Touches.refl.step Hw.segDrop_touches)
      · split
        · rename_i a3 h4 e5
          refine Touches.cut (x := h4) (Touches.snd ?_ e5) fun th4 => ?_
          · exact Touches.refl.step Hw.putChecked_touches
          exact Touches.pair (th4)
        · rename_i a6 a7 h8 e9
          refine Touches.cut (x := h8) (Touches.snd ?_ e9) fun th8 => ?_
          · exact Touches.refl.step Hw.putChecked_touches
          extract_lets +onlyGivenNames v10
          extract_lets +onlyGivenNames h11
          refine Touches.cut (x := h11) ?_ fun th11 => ?_
          · subst h11
            exact th8.step Hw.segDrop_touches
          clear_value h11
          exact Touches.pair (th11.step Hw.setLink_touches)
        · rename_i a12 a13 h14 a15 a16 e17
          refine Touches.cut (x := h14) (Touches.snd ?_ e17) fun th14 => ?_
          · exact Touches.refl.step Hw.putChecked_touches
          exact Touches.pair (th14.step Hw.segDrop_touches)

theorem Hw.segStep_touches {h : Hw} {l : Nat} {o : ObjDef} {g : Segment} : Touches (Block.except []) h (Hw.segStep h l o g).2 := by
  unfold Hw.segStep
  extract_lets +onlyGivenNames h1
  refine Touches.cut (x := h1) ?_ fun th1 => ?_
  · subst h1
    split
    · refine Touches.ite ?_ ?_
      · exact Touches.refl.step Hw.segKill_touches
      · exact Touches.refl
    · exact Touches.refl
  clear_value h1
  extract_lets +onlyGivenNames v7
  split
  · exact Touches.pair (th1.step Hw.setLink_touches)
  · split
    · split
      · exact Touches.pair (th1)
      · refine Touches.ite2 ?_ ?_
        · exact Touches.pair (th1)
        · exact th1.step Hw.segTake_touches
    · refine Touches.ite2 ?_ ?_
      · exact Touches.pair (th1.step Hw.segPut_touches)
      · refine Touches.ite2 ?_ ?_
        · exact Touches.pair (th1.step Hw.segDrop_touches)
        · exact th1.step Hw.segTake_touches

theorem Hw.opWriteSeg_touches {h : Hw} : Touches (Block.except []) h (Hw.opWriteSeg h) := by
  unfold Hw.opWriteSeg
  refine Hw.serve_touches ?_ fun l req h1 th1 => ?_
  · exact Touches.refl
  · split
    · exact Touches.pair (th1)
    · refine Touches.ite2 ?_ ?_
      · exact Touches.pair (th1)
      · refine Touches.ite2 ?_ ?_
        · exact Touches.pair (th1)
        · exact th1.step Hw.segStep_touches

theorem Hw.opAbort_touches {h : Hw} : Touches [.regs, .sys, .fw, .serials, .lyd, .cans, .radio, .pkey, .upd] h (Hw.opAbort h) := by
  unfold Hw.opAbort
  refine Hw.serve_touches ?_ fun l req h1 th1 => ?_
  · exact Touches.refl
  · split
    · exact Touches.pair (th1)
    · split
      · exact Touches.pair (th1)
      · exact Touches.pair (th1.step Hw.segKill_touches)

theorem Hw.authStep1_touches {h : Hw} : Touches [.regs, .free, .sys, .fw, .serials, .lyd, .cans, .radio, .pkey, .upd] h (Hw.authStep1 h) := by
  unfold Hw.authStep1
  refine Hw.serveIf_touches ?_ fun l req h1 th1 => ?_
  · exact Touches.refl
  · refine Touches.ite2 ?_ ?_
    · exact Touches.pair (th1)
    · refine Touches.ite2 ?_ ?_
      · exact Touches.pair (th1)
      · split
        · rename_i a2 a3 h4 e5
          refine Touches.cut (x := h4) (Touches.snd ?_ e5) fun th4 => ?_
          · exact th1.step Hw.nonce_touches
          exact Touches.pair (th4.step Hw.setLink_touches)

theorem Hw.authStep2_touches {h : Hw} : Touches [.regs, .sys, .fw, .serials, .lyd, .cans, .radio, .pkey, .upd] h (Hw.authStep2 h) := by
  unfold Hw.authStep2
  refine Hw.serveIf_touches ?_ fun l req h1 th1 => ?_
  · exact Touches.refl
  · refine Touches.ite2 ?_ ?_
    · exact Touches.pair (th1)
    · refine Touches.ite2 ?_ ?_
      · exact Touches.pair (th1)
      · refine Touches.ite2 ?_ ?_
        · exact Touches.pair (th1.step Hw.dropNonce_touches)
        · exact Touches.pair (th1.step Hw.setLink_touches)

theorem Hw.proofFailed_touches {h : Hw} {l : Nat} {role : Nat} : Touches [.regs, .elogQ, .fw] h (Hw.proofFailed h l role) := by
  unfold Hw.proofFailed
  extract_lets +onlyGivenNames h1
  refine Touches.cut (x := h1) ?_ fun th1 => ?_
  · subst h1
    exact Touches.refl.step Hw.setObj_touches
  extract_lets +onlyGivenNames v2 v3
  extract_lets +onlyGivenNames h4
  refine Touches.cut (x := h4) ?_ fun th4 => ?_
  · subst h4
    exact th1.step Hw.setLink_touches
  clear_value h4
  refine Touches.ite ?_ ?_
  · exact th4.step Hw.report_touches
  · exact th4

theorem Hw.grant_touches {h : Hw} {l : Nat} {role : Nat} : Touches [.regs, .fw, .lyd] h (Hw.grant h l role) := by
  unfold Hw.grant
  extract_lets +onlyGivenNames v1
  extract_lets +onlyGivenNames h2
  refine Touches.cut (x := h2) ?_ fun th2 => ?_
  · subst h2
    exact Touches.refl.step Hw.setLink_touches
  clear_value h2
  refine Touches.ite ?_ ?_
  · exact (th2.step set_lyd_touches).step Hw.sf_touches
  · exact th2

theorem Hw.authStep3_touches {h : Hw} : Touches [.regs, .sys, .elogQ, .fw, .serials, .lyd, .cans, .radio, .pkey, .upd] h (Hw.authStep3 h) := by
  unfold Hw.authStep3
  refine Hw.serveIf_touches ?_ fun l req h1 th1 => ?_
  · exact Touches.refl
  · extract_lets +onlyGivenNames v2 v3 v4
    refine Touches.ite2 ?_ ?_
    · exact Touches.pair (th1)
    · refine Touches.ite2 ?_ ?_
      · exact Touches.pair (th1)
      · refine Touches.ite2 ?_ ?_
        · exact Touches.pair (th1.step Hw.dropNonce_touches)
        · extract_lets +onlyGivenNames h5
          refine Touches.cut (x := h5) ?_ fun th5 => ?_
          · subst h5
            exact th1.step Hw.dropNonce_touches
          clear_value h5
          refine Touches.ite2 ?_ ?_
          · exact Touches.pair (th5)
          · split
            · exact Touches.pair (th5)
            · extract_lets +onlyGivenNames v11
              refine Touches.ite2 ?_ ?_
              · exact Touches.pair (th5.step Hw.grant_touches)
              · exact Touches.pair (th5.step Hw.proofFailed_touches)

theorem Hw.nonceExpiry_touches {h : Hw} {l : Nat} : Touches [.tcnt, .fw] h (Hw.nonceExpiry h l) := by
  unfold Hw.nonceExpiry
  refine Touches.ite ?_ ?_
  · exact Touches.refl
  · exact (Touches.refl.step Hw.reach_touches).step Hw.dropNonce_touches

theorem Hw.authBarExpiry_touches {h : Hw} {l : Nat} : Touches [.tcnt, .fw] h (Hw.authBarExpiry h l) := by
  unfold Hw.authBarExpiry
  refine Touches.ite ?_ ?_
  · exact Touches.refl
  · extract_lets +onlyGivenNames h1
    refine Touches.cut (x := h1) ?_ fun th1 => ?_
    · subst h1
      exact Touches.refl.step Hw.reach_touches
    clear_value h1
    exact th1.step Hw.setLink_touches

theorem Hw.setSubs_touches {h : Hw} {xs : List Sub} : Touches [.fw] h (Hw.setSubs h xs) := by
  unfold Hw.setSubs
  exact Touches.refl.step set_fw_touches

theorem Hw.setSub_touches {h : Hw} {x : Sub} : Touches [.fw] h (Hw.setSub h x) := by
  unfold Hw.setSub
  exact Touches.refl.step Hw.setSubs_touches

theorem Hw.subscribeTo_touches {h : Hw} {l idx sub mode period minInt : Nat} {seen : List Nat} :
    Touches [.free, .fw] h (h.subscribeTo l idx sub mode period minInt seen).2 := by
  unfold Hw.subscribeTo
  extract_lets old make
  clear_value old make
  refine Touches.ite2 ?_ ?_
  · cases old with
    | none => exact Touches.pair (Touches.refl.step Hw.fresh_touches)
    | some x => exact Touches.pair (Touches.refl.step Hw.setSubs_touches)
  · cases old with
    | none =>
      cases h.freeSlot with
      | none => exact Touches.pair Touches.refl
      | some i => exact Touches.pair (Touches.refl.step Hw.setSubs_touches)
    | some x => exact Touches.pair (Touches.refl.step Hw.setSub_touches)

theorem Hw.opSubscribe_touches {h : Hw} : Touches [.regs, .ecc, .free, .resp, .sys, .elogQ, .tspi, .sspi, .tp, .fw, .serials, .lyd, .cans, .radio, .pkey, .rtc, .upd, .i2c] h (Hw.opSubscribe h) := by
  unfold Hw.opSubscribe
  refine Hw.serve_touches ?_ fun l req h1 th1 => ?_
  · exact Touches.refl
  · extract_lets +onlyGivenNames v2 v3 v4 v5
    refine Touches.ite2 ?_ ?_
    · exact Touches.pair (th1)
    · refine Touches.ite2 ?_ ?_
      · exact Touches.pair (th1)
      · split
        · rename_i a6 a7 h8 e9
          refine Touches.cut (x := h8) (Touches.snd ?_ e9) fun th8 => ?_
          · exact th1.step Hw.objectRead_touches
          exact th8.step Hw.subscribeTo_touches
        · exact th1.step Hw.objectRead_touches

theorem Hw.sampleOne_touches {h : Hw} {x : Sub} : Touches [.regs, .ecc, .free, .resp, .elogQ, .tspi, .sspi, .tp, .fw, .serials, .radio, .rtc, .i2c] h (Hw.sampleOne h x) := by
  unfold Hw.sampleOne
  refine Touches.ite ?_ ?_
  · exact Touches.refl
  · split
    · rename_i a1 a2 h3 e4
      refine Touches.cut (x := h3) (Touches.snd ?_ e4) fun th3 => ?_
      · exact Touches.refl.step Hw.objectRead_touches
      refine Touches.ite ?_ ?_
      · exact th3
      · exact th3.step Hw.setSub_touches
    · rename_i a5 a6 h7 a8 e9
      refine Touches.cut (x := h7) (Touches.snd ?_ e9) fun th7 => ?_
      · exact Touches.refl.step Hw.objectRead_touches
      exact th7

theorem Hw.registerSampling_touches {h : Hw} : Touches [.regs, .ecc, .free, .resp, .elogQ, .tspi, .sspi, .tp, .fw, .serials, .radio, .rtc, .i2c] h (Hw.registerSampling h) := by
  unfold Hw.registerSampling
  refine Touches.ite ?_ ?_
  · refine Touches.forEach ?_ fun x1 h2 th2 => ?_
    · exact Touches.refl
    · exact th2.step Hw.sampleOne_touches
  · exact Touches.refl

theorem Hw.subSent_touches {h : Hw} {x : Sub} {v : List Nat} : Touches [.fw] h (Hw.subSent h x v) := by
  unfold Hw.subSent
  exact Touches.refl.step Hw.setSub_touches

theorem Hw.notifyFrame_touches {h : Hw} {x : Sub} {payload : List Nat} : Touches [.regs, .fw, .serials, .cans] h (Hw.notifyFrame h x payload) := by
  unfold Hw.notifyFrame
  refine Touches.ite ?_ ?_
  · exact Touches.refl.step Hw.canSend_touches
  · exact Touches.refl.step Hw.wowellSend_touches

theorem Hw.replaceNotify_touches {h g : Hw} {x : Sub} {payload : List Nat} (e : h.replaceNotify x payload = some g) :
    Touches [.regs, .cans] h g := by
  unfold Hw.replaceNotify at e
  split at e
  · cases e
  · extract_lets n c tag put at e
    split at e
    · cases e
      exact (Touches.refl.step Hw.setCan_touches).step Hw.bump_touches
    · cases e

theorem Hw.notifySend_touches {h : Hw} {x : Sub} {v : List Nat} : Touches [.regs, .fw, .serials, .cans] h (h.notifySend x v) := by
  unfold Hw.notifySend
  extract_lets payload
  refine Touches.ite ((Touches.refl.step Hw.notifyFrame_touches).step Hw.subSent_touches) ?_
  split
  · rename_i g e
    exact (Touches.refl.step (Hw.replaceNotify_touches e)).step Hw.subSent_touches
  · exact Touches.ite ((Touches.ite (Touches.refl.step Hw.bump_touches) Touches.refl).step Hw.setSub_touches) (Touches.refl.step Hw.setSub_touches)

theorem Hw.notifyDue_touches {h : Hw} {slot : Nat} : Touches [.regs, .ecc, .free, .resp, .elogQ, .tspi, .sspi, .tcnt, .tp, .fw, .serials, .cans, .radio, .rtc, .i2c] h (Hw.notifyDue h slot) := by
  unfold Hw.notifyDue
  split
  · exact Touches.refl
  · refine Touches.ite ?_ ?_
    · exact Touches.refl
    · split
      · exact Touches.refl
      · split
        · rename_i a11 a12 h13 e14
          refine Touches.cut (x := h13) (Touches.snd ?_ e14) fun th13 => ?_
          · exact (Touches.refl.step Hw.reach_touches).step Hw.objectRead_touches
          exact th13.step Hw.notifySend_touches
        · rename_i a15 a16 h17 a18 e19
          refine Touches.cut (x := h17) (Touches.snd ?_ e19) fun th17 => ?_
          · exact (Touches.refl.step Hw.reach_touches).step Hw.objectRead_touches
          exact th17

end Sys2Proof.Machine
end

