-- ==== Sys2Proof/Laws/OkDictionary.lean ====
section
/-! SUPPORT. Every operation of Machine/Dictionary.lean keeps the invariant of the part. -/

set_option Elab.async false

namespace Sys2Proof.Machine

theorem Hw.respond_ok {h : Hw} {l : Nat} {req : List Nat} {r : Except Nat (List Nat)} (hk : h.Ok) : (Hw.respond h l req r).Ok := by
  unfold Hw.respond
  exact Hw.linkSend_ok hk

theorem Hw.setRequests_ok {h : Hw} {q : List (Nat × List Nat)} (hk : h.Ok) : (Hw.setRequests h q).Ok := hk.touches Hw.setRequests_touches

theorem Hw.dropNonce_ok {h : Hw} {l : Nat} (hk : h.Ok) : (Hw.dropNonce h l).Ok := hk.touches Hw.dropNonce_touches

theorem Hw.flushBad_ok {h : Hw} {b1 : Nat} (hk : h.Ok) : (Hw.flushBad h b1).Ok := by
  induction b1 generalizing h hk with
  | zero =>
    unfold Hw.flushBad
    exact hk
  | succ k ih =>
    unfold Hw.flushBad
    split
    · exact hk
    · split
      · exact hk
      · extract_lets +onlyGivenNames h13
        refine Hw.Ok.cut (x := h13) ?_ fun th13 => ?_
        · subst h13
          exact Hw.setRequests_ok hk
        clear_value h13
        extract_lets +onlyGivenNames h14
        refine Hw.Ok.cut (x := h14) ?_ fun th14 => ?_
        · subst h14
          refine Hw.Ok.ite (fun _ => ?_) (fun _ => ?_)
          · exact Hw.dropNonce_ok th13
          · exact th13
        clear_value h14
        exact ih (Hw.respond_ok th14)

theorem Hw.bootAnswer_ok {h : Hw} {l : Nat} {req : List Nat} (hk : h.Ok) : (Hw.bootAnswer h l req).Ok := by
  unfold Hw.bootAnswer
  split
  · exact Hw.respond_ok hk
  · exact Hw.respond_ok hk

theorem Hw.request_ok {h : Hw} {l : Nat} {req : List Nat} (hk : h.Ok) : (Hw.request h l req).Ok := by
  unfold Hw.request
  refine Hw.Ok.ite (fun _ => ?_) (fun _ => ?_)
  · exact Hw.bootAnswer_ok hk
  · refine Hw.Ok.ite (fun _ => ?_) (fun _ => ?_)
    · exact hk
    · extract_lets +onlyGivenNames v1
      extract_lets +onlyGivenNames h2
      refine Hw.Ok.cut (x := h2) ?_ fun th2 => ?_
      · subst h2
        exact Hw.setLink_ok hk
      clear_value h2
      refine Hw.Ok.ite (fun _ => ?_) (fun _ => ?_)
      · exact Hw.respond_ok th2
      · extract_lets +onlyGivenNames h3
        refine Hw.Ok.cut (x := h3) ?_ fun th3 => ?_
        · subst h3
          exact Hw.setRequests_ok th2
        clear_value h3
        refine Hw.Ok.ite (fun _ => ?_) (fun _ => ?_)
        · exact Hw.flushBad_ok th3
        · exact th3

theorem Hw.finishRequest_ok {h : Hw} {l : Nat} {req : List Nat} {r : Except Nat (List Nat)} (hk : h.Ok) : (Hw.finishRequest h l req r).Ok := by
  unfold Hw.finishRequest
  extract_lets +onlyGivenNames h1
  refine Hw.Ok.cut (x := h1) ?_ fun th1 => ?_
  · subst h1
    exact Hw.setRequests_ok hk
  clear_value h1
  refine Hw.Ok.ite (fun _ => ?_) (fun _ => ?_)
  · exact Hw.respond_ok th1
  · exact th1

theorem served_ok {l : Nat} {req : List Nat} {x : Answer × Hw} (ok : x.2.Ok) : (served l req x).Ok := by
  obtain ⟨a, g⟩ := x
  have tg : g.Ok := ok
  cases a with
  | later => exact tg
  | value bs => exact Hw.finishRequest_ok tg
  | abort code => exact Hw.finishRequest_ok tg
  | thenGo => exact Hw.updGo_ok (Hw.finishRequest_ok tg)

theorem Hw.serveIf_ok {h : Hw} {op : Nat} {p : List Nat → Bool} {f : Nat → List Nat → Hw → Answer × Hw} (ok : h.Ok)
    (hg : ∀ l req g, g.Ok → (f l req g).2.Ok) : (h.serveIf op p f).Ok := by
  unfold Hw.serveIf
  refine Hw.Ok.ite (fun _ => ok) (fun _ => ?_)
  extract_lets h1
  have t1 : h1.Ok := Hw.flushBad_ok ok
  clear_value h1
  split
  · exact t1
  · refine Hw.Ok.ite (fun _ => t1) (fun _ => ?_)
    extract_lets h2
    have t2 : h2.Ok := served_ok (hg _ _ _ t1)
    exact Hw.Ok.ite (fun _ => Hw.flushBad_ok t2) (fun _ => t2)

theorem Hw.serve_ok {h : Hw} {op : Nat} {f : Nat → List Nat → Hw → Answer × Hw} (ok : h.Ok)
    (hg : ∀ l req g, g.Ok → (f l req g).2.Ok) : (h.serve op f).Ok := Hw.serveIf_ok ok hg

theorem Hw.opRead_ok {h : Hw} (hk : h.Ok) : (Hw.opRead h).Ok := by
  unfold Hw.opRead
  refine Hw.serve_ok ?_ fun l req h1 th1 => ?_
  · exact hk
  · split
    · rename_i a2 a3 h4 e5
      refine Hw.Ok.cut (x := h4) (Hw.Ok.snd ?_ e5) fun th4 => ?_
      · exact Hw.objectRead_ok th1
      refine Hw.Ok.ite2 (fun _ => ?_) (fun _ => ?_)
      · exact Hw.Ok.pair (th4)
      · exact Hw.Ok.pair (th4)
    · exact Hw.objectRead_ok th1

theorem Hw.opWrite_ok {h : Hw} (hk : h.Ok) : (Hw.opWrite h).Ok := by
  unfold Hw.opWrite
  refine Hw.serve_ok ?_ fun l req h1 th1 => ?_
  · exact hk
  · split
    · exact Hw.Ok.pair (th1)
    · refine Hw.Ok.ite2 (fun _ => ?_) (fun _ => ?_)
      · exact Hw.Ok.pair (th1)
      · exact Hw.putChecked_ok th1

theorem Hw.opReadSeg_ok {h : Hw} (hk : h.Ok) : (Hw.opReadSeg h).Ok := by
  unfold Hw.opReadSeg
  refine Hw.serve_ok ?_ fun l req h1 th1 => ?_
  · exact hk
  · extract_lets +onlyGivenNames v2
    refine Hw.Ok.ite2 (fun _ => ?_) (fun _ => ?_)
    · exact Hw.Ok.pair (th1)
    · split
      · rename_i a3 a4 h5 e6
        refine Hw.Ok.cut (x := h5) (Hw.Ok.snd ?_ e6) fun th5 => ?_
        · exact Hw.objectRead_ok th1
        extract_lets +onlyGivenNames v7
        exact Hw.Ok.pair (th5)
      · exact Hw.objectRead_ok th1

theorem Hw.segDrop_ok {h : Hw} {l : Nat} {idx : Nat} {sub : Nat} (hk : h.Ok) : (Hw.segDrop h l idx sub).Ok := hk.touches Hw.segDrop_touches

theorem Hw.segPut_ok {h : Hw} {l : Nat} {x : SegWrite} (hk : h.Ok) : (Hw.segPut h l x).Ok := hk.touches Hw.segPut_touches

theorem Hw.segKill_ok {h : Hw} {l : Nat} {idx : Nat} {sub : Nat} {code : Nat} (hk : h.Ok) : (Hw.segKill h l idx sub code).Ok := hk.touches Hw.segKill_touches

theorem Hw.segExpire_ok {h : Hw} {l : Nat} {idx : Nat} {sub : Nat} (hk : h.Ok) : (Hw.segExpire h l idx sub).Ok := by
  unfold Hw.segExpire
  split
  · exact hk
  · refine Hw.Ok.ite (fun _ => ?_) (fun _ => ?_)
    · exact Hw.segKill_ok (Hw.reach_ok hk)
    · exact hk

theorem Hw.segTake_ok {h : Hw} {l : Nat} {o : ObjDef} {x : SegWrite} {g : Segment} (hk : h.Ok) : (Hw.segTake h l o x g).2.Ok := by
  unfold Hw.segTake
  extract_lets +onlyGivenNames v1 v2
  refine Hw.Ok.ite2 (fun _ => ?_) (fun _ => ?_)
  · exact Hw.Ok.pair (Hw.segDrop_ok hk)
  · refine Hw.Ok.ite2 (fun _ => ?_) (fun _ => ?_)
    · exact Hw.Ok.pair (Hw.segPut_ok hk)
    · refine Hw.Ok.ite2 (fun _ => ?_) (fun _ => ?_)
      · exact Hw.Ok.pair (Hw.segDrop_ok hk)
      · split
        · rename_i a3 h4 e5
          refine Hw.Ok.cut (x := h4) (Hw.Ok.snd ?_ e5) fun th4 => ?_
          · exact Hw.putChecked_ok hk
          exact Hw.Ok.pair (th4)
        · rename_i a6 a7 h8 e9
          refine Hw.Ok.cut (x := h8) (Hw.Ok.snd ?_ e9) fun th8 => ?_
          · exact Hw.putChecked_ok hk
          extract_lets +onlyGivenNames v10
          extract_lets +onlyGivenNames h11
          refine Hw.Ok.cut (x := h11) ?_ fun th11 => ?_
          · subst h11
            exact Hw.segDrop_ok th8
          clear_value h11
          exact Hw.Ok.pair (Hw.setLink_ok th11)
        · rename_i a12 a13 h14 a15 a16 e17
          refine Hw.Ok.cut (x := h14) (Hw.Ok.snd ?_ e17) fun th14 => ?_
          · exact Hw.putChecked_ok hk
          exact Hw.Ok.pair (Hw.segDrop_ok th14)

theorem Hw.segStep_ok {h : Hw} {l : Nat} {o : ObjDef} {g : Segment} (hk : h.Ok) : (Hw.segStep h l o g).2.Ok := by
  unfold Hw.segStep
  extract_lets +onlyGivenNames h1
  refine Hw.Ok.cut (x := h1) ?_ fun th1 => ?_
  · subst h1
    split
    · refine Hw.Ok.ite (fun _ => ?_) (fun _ => ?_)
      · exact Hw.segKill_ok hk
      · exact hk
    · exact hk
  clear_value h1
  extract_lets +onlyGivenNames v7
  split
  · exact Hw.Ok.pair (Hw.setLink_ok th1)
  · split
    · split
      · exact Hw.Ok.pair (th1)
      · refine Hw.Ok.ite2 (fun _ => ?_) (fun _ => ?_)
        · exact Hw.Ok.pair (th1)
        · exact Hw.segTake_ok th1
    · refine Hw.Ok.ite2 (fun _ => ?_) (fun _ => ?_)
      · exact Hw.Ok.pair (Hw.segPut_ok th1)
      · refine Hw.Ok.ite2 (fun _ => ?_) (fun _ => ?_)
        · exact Hw.Ok.pair (Hw.segDrop_ok th1)
        · exact Hw.segTake_ok th1

theorem Hw.opWriteSeg_ok {h : Hw} (hk : h.Ok) : (Hw.opWriteSeg h).Ok := by
  unfold Hw.opWriteSeg
  refine Hw.serve_ok ?_ fun l req h1 th1 => ?_
  · exact hk
  · split
    · exact Hw.Ok.pair (th1)
    · refine Hw.Ok.ite2 (fun _ => ?_) (fun _ => ?_)
      · exact Hw.Ok.pair (th1)
      · refine Hw.Ok.ite2 (fun _ => ?_) (fun _ => ?_)
        · exact Hw.Ok.pair (th1)
        · exact Hw.segStep_ok th1

theorem Hw.opAbort_ok {h : Hw} (hk : h.Ok) : (Hw.opAbort h).Ok := by
  unfold Hw.opAbort
  refine Hw.serve_ok ?_ fun l req h1 th1 => ?_
  · exact hk
  · split
    · exact Hw.Ok.pair (th1)
    · split
      · exact Hw.Ok.pair (th1)
      · exact Hw.Ok.pair (Hw.segKill_ok th1)

theorem Hw.authStep1_ok {h : Hw} (hk : h.Ok) : (Hw.authStep1 h).Ok := by
  unfold Hw.authStep1
  refine Hw.serveIf_ok ?_ fun l req h1 th1 => ?_
  · exact hk
  · refine Hw.Ok.ite2 (fun _ => ?_) (fun _ => ?_)
    · exact Hw.Ok.pair (th1)
    · refine Hw.Ok.ite2 (fun _ => ?_) (fun _ => ?_)
      · exact Hw.Ok.pair (th1)
      · split
        · rename_i a2 a3 h4 e5
          refine Hw.Ok.cut (x := h4) (Hw.Ok.snd ?_ e5) fun th4 => ?_
          · exact Hw.nonce_ok th1
          exact Hw.Ok.pair (Hw.setLink_ok th4)

theorem Hw.authStep2_ok {h : Hw} (hk : h.Ok) : (Hw.authStep2 h).Ok := by
  unfold Hw.authStep2
  refine Hw.serveIf_ok ?_ fun l req h1 th1 => ?_
  · exact hk
  · refine Hw.Ok.ite2 (fun _ => ?_) (fun _ => ?_)
    · exact Hw.Ok.pair (th1)
    · refine Hw.Ok.ite2 (fun _ => ?_) (fun _ => ?_)
      · exact Hw.Ok.pair (th1)
      · refine Hw.Ok.ite2 (fun _ => ?_) (fun _ => ?_)
        · exact Hw.Ok.pair (Hw.dropNonce_ok th1)
        · exact Hw.Ok.pair (Hw.setLink_ok th1)

theorem Hw.proofFailed_ok {h : Hw} {l : Nat} {role : Nat} (hk : h.Ok) : (Hw.proofFailed h l role).Ok := by
  unfold Hw.proofFailed
  extract_lets +onlyGivenNames h1
  refine Hw.Ok.cut (x := h1) ?_ fun th1 => ?_
  · subst h1
    exact Hw.setObj_ok hk
  extract_lets +onlyGivenNames v2 v3
  extract_lets +onlyGivenNames h4
  refine Hw.Ok.cut (x := h4) ?_ fun th4 => ?_
  · subst h4
    exact Hw.setLink_ok th1
  clear_value h4
  refine Hw.Ok.ite (fun _ => ?_) (fun _ => ?_)
  · exact Hw.report_ok th4
  · exact th4

theorem Hw.grant_ok {h : Hw} {l : Nat} {role : Nat} (hk : h.Ok) : (Hw.grant h l role).Ok := by
  unfold Hw.grant
  extract_lets +onlyGivenNames v1
  extract_lets +onlyGivenNames h2
  refine Hw.Ok.cut (x := h2) ?_ fun th2 => ?_
  · subst h2
    exact Hw.setLink_ok hk
  clear_value h2
  refine Hw.Ok.ite (fun _ => ?_) (fun _ => ?_)
  · exact Hw.sf_ok (Hw.Ok.touches th2 set_lyd_touches)
  · exact th2

theorem Hw.authStep3_ok {h : Hw} (hk : h.Ok) : (Hw.authStep3 h).Ok := by
  unfold Hw.authStep3
  refine Hw.serveIf_ok ?_ fun l req h1 th1 => ?_
  · exact hk
  · extract_lets +onlyGivenNames v2 v3 v4
    refine Hw.Ok.ite2 (fun _ => ?_) (fun _ => ?_)
    · exact Hw.Ok.pair (th1)
    · refine Hw.Ok.ite2 (fun _ => ?_) (fun _ => ?_)
      · exact Hw.Ok.pair (th1)
      · refine Hw.Ok.ite2 (fun _ => ?_) (fun _ => ?_)
        · exact Hw.Ok.pair (Hw.dropNonce_ok th1)
        · extract_lets +onlyGivenNames h5
          refine Hw.Ok.cut (x := h5) ?_ fun th5 => ?_
          · subst h5
            exact Hw.dropNonce_ok th1
          clear_value h5
          refine Hw.Ok.ite2 (fun _ => ?_) (fun _ => ?_)
          · exact Hw.Ok.pair (th5)
          · split
            · exact Hw.Ok.pair (th5)
            · extract_lets +onlyGivenNames v11
              refine Hw.Ok.ite2 (fun _ => ?_) (fun _ => ?_)
              · exact Hw.Ok.pair (Hw.grant_ok th5)
              · exact Hw.Ok.pair (Hw.proofFailed_ok th5)

theorem Hw.nonceExpiry_ok {h : Hw} {l : Nat} (hk : h.Ok) : (Hw.nonceExpiry h l).Ok := by
  unfold Hw.nonceExpiry
  refine Hw.Ok.ite (fun _ => ?_) (fun _ => ?_)
  · exact hk
  · exact Hw.dropNonce_ok (Hw.reach_ok hk)

theorem Hw.authBarExpiry_ok {h : Hw} {l : Nat} (hk : h.Ok) : (Hw.authBarExpiry h l).Ok := by
  unfold Hw.authBarExpiry
  refine Hw.Ok.ite (fun _ => ?_) (fun _ => ?_)
  · exact hk
  · extract_lets +onlyGivenNames h1
    refine Hw.Ok.cut (x := h1) ?_ fun th1 => ?_
    · subst h1
      exact Hw.reach_ok hk
    clear_value h1
    exact Hw.setLink_ok th1

theorem Hw.setSubs_ok {h : Hw} {xs : List Sub} (hk : h.Ok) : (Hw.setSubs h xs).Ok := hk.touches Hw.setSubs_touches

theorem Hw.setSub_ok {h : Hw} {x : Sub} (hk : h.Ok) : (Hw.setSub h x).Ok := hk.touches Hw.setSub_touches

theorem Hw.subscribeTo_ok {h : Hw} {l idx sub mode period minInt : Nat} {seen : List Nat} (ok : h.Ok) :
    (h.subscribeTo l idx sub mode period minInt seen).2.Ok := ok.touches Hw.subscribeTo_touches

theorem Hw.opSubscribe_ok {h : Hw} (hk : h.Ok) : (Hw.opSubscribe h).Ok := by
  unfold Hw.opSubscribe
  refine Hw.serve_ok ?_ fun l req h1 th1 => ?_
  · exact hk
  · extract_lets +onlyGivenNames v2 v3 v4 v5
    refine Hw.Ok.ite2 (fun _ => ?_) (fun _ => ?_)
    · exact Hw.Ok.pair (th1)
    · refine Hw.Ok.ite2 (fun _ => ?_) (fun _ => ?_)
      · exact Hw.Ok.pair (th1)
      · split
        · rename_i a6 a7 h8 e9
          refine Hw.Ok.cut (x := h8) (Hw.Ok.snd ?_ e9) fun th8 => ?_
          · exact Hw.objectRead_ok th1
          exact Hw.subscribeTo_ok th8
        · exact Hw.objectRead_ok th1

theorem Hw.sampleOne_ok {h : Hw} {x : Sub} (hk : h.Ok) : (Hw.sampleOne h x).Ok := by
  unfold Hw.sampleOne
  refine Hw.Ok.ite (fun _ => ?_) (fun _ => ?_)
  · exact hk
  · split
    · rename_i a1 a2 h3 e4
      refine Hw.Ok.cut (x := h3) (Hw.Ok.snd ?_ e4) fun th3 => ?_
      · exact Hw.objectRead_ok hk
      refine Hw.Ok.ite (fun _ => ?_) (fun _ => ?_)
      · exact th3
      · exact Hw.setSub_ok th3
    · rename_i a5 a6 h7 a8 e9
      refine Hw.Ok.cut (x := h7) (Hw.Ok.snd ?_ e9) fun th7 => ?_
      · exact Hw.objectRead_ok hk
      exact th7

theorem Hw.registerSampling_ok {h : Hw} (hk : h.Ok) : (Hw.registerSampling h).Ok := by
  unfold Hw.registerSampling
  refine Hw.Ok.ite (fun _ => ?_) (fun _ => ?_)
  · refine Hw.Ok.forEach ?_ fun x1 h2 th2 => ?_
    · exact hk
    · exact Hw.sampleOne_ok th2
  · exact hk

theorem Hw.subSent_ok {h : Hw} {x : Sub} {v : List Nat} (hk : h.Ok) : (Hw.subSent h x v).Ok := hk.touches Hw.subSent_touches

theorem Hw.notifyFrame_ok {h : Hw} {x : Sub} {payload : List Nat} (hk : h.Ok) : (Hw.notifyFrame h x payload).Ok := by
  unfold Hw.notifyFrame
  refine Hw.Ok.ite (fun _ => ?_) (fun _ => ?_)
  · exact Hw.canSend_ok hk
  · exact Hw.wowellSend_ok hk

theorem Hw.replaceNotify_ok {h g : Hw} {x : Sub} {payload : List Nat} (e : h.replaceNotify x payload = some g) (ok : h.Ok) : g.Ok := by
  unfold Hw.replaceNotify at e
  split at e
  · cases e
  · extract_lets n c tag put at e
    split at e
    · cases e
      exact Hw.bump_ok (Hw.setCan_ok ok)
    · cases e

theorem Hw.notifySend_ok {h : Hw} {x : Sub} {v : List Nat} (ok : h.Ok) : (h.notifySend x v).Ok := by
  unfold Hw.notifySend
  extract_lets payload
  refine Hw.Ok.ite (fun _ => Hw.subSent_ok (Hw.notifyFrame_ok ok)) (fun _ => ?_)
  split
  · rename_i g e
    exact Hw.subSent_ok (Hw.replaceNotify_ok e ok)
  · exact Hw.Ok.ite (fun _ => Hw.setSub_ok (Hw.Ok.ite (fun _ => Hw.bump_ok ok) (fun _ => ok))) (fun _ => Hw.setSub_ok ok)

theorem Hw.notifyDue_ok {h : Hw} {slot : Nat} (hk : h.Ok) : (Hw.notifyDue h slot).Ok := by
  unfold Hw.notifyDue
  split
  · exact hk
  · refine Hw.Ok.ite (fun _ => ?_) (fun _ => ?_)
    · exact hk
    · split
      · exact hk
      · split
        · rename_i a11 a12 h13 e14
          refine Hw.Ok.cut (x := h13) (Hw.Ok.snd ?_ e14) fun th13 => ?_
          · exact Hw.objectRead_ok (Hw.reach_ok hk)
          exact Hw.notifySend_ok th13
        · rename_i a15 a16 h17 a18 e19
          refine Hw.Ok.cut (x := h17) (Hw.Ok.snd ?_ e19) fun th17 => ?_
          · exact Hw.objectRead_ok (Hw.reach_ok hk)
          exact th17

end Sys2Proof.Machine
end

