-- ==== Sys2Proof/Laws/TouchTransport.lean ====
section
/-! SUPPORT. What each operation of Machine/Transport.lean touches of the part: the components outside the list stay as they were. -/

set_option Elab.async false

namespace Sys2Proof.Machine

theorem Hw.setWin_touches {h : Hw} {w : Option HostWin} : Touches [.win] h (Hw.setWin h w) := by
  unfold Hw.setWin
  exact Touches.refl.step set_win_touches

theorem Hw.winEnd_touches {h : Hw} {w : HostWin} {status : Nat} : Touches [.fw, .win, .serials] h (Hw.winEnd h w status) := by
  unfold Hw.winEnd
  exact (Touches.refl.step Hw.setWin_touches).step Hw.wowellSend_touches

theorem Hw.winPut_touches {h : Hw} {a : Nat} {v : Nat} {hits : Nat} : Touches (Block.except []) h (Hw.winPut h a v hits).2 := by
  unfold Hw.winPut
  extract_lets +onlyGivenNames v1
  extract_lets +onlyGivenNames h2
  refine Touches.cut (x := h2) ?_ fun th2 => ?_
  · subst h2
    refine Touches.forEach ?_ fun x3 h4 th4 => ?_
    · exact Touches.refl
    · exact th4.step Hw.collide_touches
  clear_value h2
  refine Touches.ite2 ?_ ?_
  · exact Touches.pair (th2)
  · exact Touches.pair (th2.step Hw.write_touches)

theorem Hw.winRun_touches {h : Hw} {w : HostWin} {b1 : Nat} : Touches (Block.except []) h (Hw.winRun h w b1) := by
  induction b1 generalizing h w with
  | zero =>
    unfold Hw.winRun
    exact Touches.refl.step Hw.setWin_touches
  | succ k ih =>
    unfold Hw.winRun
    split
    · exact Touches.refl.step Hw.winEnd_touches
    · extract_lets +onlyGivenNames v7
      refine Touches.ite ?_ ?_
      · exact Touches.refl.step Hw.setWin_touches
      · refine Touches.ite ?_ ?_
        · split
          · rename_i a8 h9 e10
            refine Touches.cut (x := h9) (Touches.snd ?_ e10) fun th9 => ?_
            · exact Touches.refl.step Hw.winPut_touches
            exact th9.step Hw.winEnd_touches
          · rename_i a11 h12 e13
            refine Touches.cut (x := h12) (Touches.snd ?_ e13) fun th12 => ?_
            · exact Touches.refl.step Hw.winPut_touches
            refine Touches.ite ?_ ?_
            · exact th12.step Hw.winEnd_touches
            · exact th12.step ih
        · extract_lets +onlyGivenNames h14
          refine Touches.cut (x := h14) ?_ fun th14 => ?_
          · subst h14
            exact Touches.refl.step Hw.read_touches
          clear_value h14
          split
          · exact th14.step ih
          · exact th14.step Hw.winEnd_touches

theorem Hw.winResume_touches {h : Hw} : Touches (Block.except []) h (Hw.winResume h) := by
  unfold Hw.winResume
  split
  · exact Touches.refl
  · exact Touches.refl.step Hw.winRun_touches

theorem Hw.hspiBad_touches {h : Hw} : Touches [.regs] h (Hw.hspiBad h) := by
  unfold Hw.hspiBad
  exact Touches.refl.step Hw.bump_touches

theorem Hw.wread_touches {h : Hw} {a : Nat} {n : Nat} : Touches (Block.except []) h (Hw.wread h a n) := by
  unfold Hw.wread
  refine Touches.ite ?_ ?_
  · exact Touches.refl.step Hw.winResume_touches
  · refine Touches.ite ?_ ?_
    · exact Touches.refl
    · refine Touches.ite ?_ ?_
      · exact Touches.refl.step Hw.hspiBad_touches
      · exact Touches.refl.step Hw.winRun_touches

theorem Hw.wwrite_touches {h : Hw} {a : Nat} {words : List Nat} {hits : List Nat} : Touches (Block.except []) h (Hw.wwrite h a words hits) := by
  unfold Hw.wwrite
  refine Touches.ite ?_ ?_
  · exact Touches.refl.step Hw.winResume_touches
  · refine Touches.ite ?_ ?_
    · exact Touches.refl
    · refine Touches.ite ?_ ?_
      · exact Touches.refl.step Hw.hspiBad_touches
      · exact Touches.refl.step Hw.winRun_touches

theorem Hw.badFrameOn_touches {h : Hw} {l : Nat} : Touches [.regs, .fw] h (Hw.badFrameOn h l) := by
  unfold Hw.badFrameOn
  refine Touches.ite ?_ ?_
  · exact Touches.refl.step Hw.hspiBad_touches
  · exact Touches.refl.step Hw.setLink_touches

theorem Hw.sessionFrame_touches {h : Hw} {t : Nat} {p : List Nat} : Touches [.regs, .fw, .serials, .lyd, .upd] h (Hw.sessionFrame h t p) := by
  unfold Hw.sessionFrame
  extract_lets +onlyGivenNames v1
  split
  · exact Touches.refl.step Hw.lydAttach_touches
  · exact Touches.refl.step Hw.lydKeep_touches
  · exact Touches.refl.step Hw.lydDetach_touches
  · exact Touches.refl.step Hw.lydRate_touches
  · exact Touches.refl

theorem Hw.frameOn_touches {h : Hw} {l : Nat} {t : Nat} {p : List Nat} {hits : List Nat} : Touches (Block.except []) h (Hw.frameOn h l t p hits) := by
  unfold Hw.frameOn
  refine Touches.ite ?_ ?_
  · exact Touches.refl.step Hw.request_touches
  · refine Touches.ite ?_ ?_
    · refine Touches.ite ?_ ?_
      · exact Touches.refl.step Hw.remote_touches
      · exact Touches.refl
    · refine Touches.ite ?_ ?_
      · exact Touches.refl.step Hw.hspiBad_touches
      · refine Touches.ite ?_ ?_
        · refine Touches.ite ?_ ?_
          · exact Touches.refl.step Hw.wread_touches
          · exact Touches.refl.step Hw.hspiBad_touches
        · refine Touches.ite ?_ ?_
          · refine Touches.ite ?_ ?_
            · exact Touches.refl.step Hw.wwrite_touches
            · exact Touches.refl.step Hw.hspiBad_touches
          · exact Touches.refl

theorem Hw.lanyardFrame_touches {h : Hw} {t : Nat} {p : List Nat} : Touches (Block.except []) h (Hw.lanyardFrame h t p) := by
  unfold Hw.lanyardFrame
  refine Touches.ite ?_ ?_
  · refine Touches.ite ?_ ?_
    · exact Touches.refl.step Hw.bootAnswer_touches
    · exact Touches.refl
  · refine Touches.ite ?_ ?_
    · exact Touches.refl
    · refine Touches.ite ?_ ?_
      · refine Touches.ite ?_ ?_
        · exact Touches.refl.step Hw.noSession_touches
        · exact Touches.refl.step Hw.sessionFrame_touches
      · refine Touches.ite ?_ ?_
        · exact Touches.refl.step Hw.noSession_touches
        · exact (Touches.refl.step Hw.lydValid_touches).step Hw.frameOn_touches

theorem Hw.frameTaken_touches {h : Hw} {l : Nat} {t : Nat} {p : List Nat} {hits : List Nat} : Touches (Block.except []) h (Hw.frameTaken h l t p hits) := by
  unfold Hw.frameTaken
  refine Touches.ite ?_ ?_
  · exact Touches.refl.step Hw.lanyardFrame_touches
  · exact Touches.refl.step Hw.frameOn_touches

theorem Hw.drainPort_touches {h : Hw} {l : Nat} : Touches [.fw, .serials] h (Hw.drainPort h l) := by
  unfold Hw.drainPort
  refine Touches.ite ?_ ?_
  · exact Touches.refl
  · extract_lets +onlyGivenNames v1
    extract_lets +onlyGivenNames h2
    refine Touches.cut (x := h2) ?_ fun th2 => ?_
    · subst h2
      exact Touches.refl.step Hw.setSerial_touches
    clear_value h2
    exact th2.step Hw.setLink_touches

theorem Hw.decideFrame_touches {h : Hw} {l : Nat} {hits : List Nat} : Touches (Block.except []) h (Hw.decideFrame h l hits) := by
  unfold Hw.decideFrame
  extract_lets +onlyGivenNames f1
  subst f1
  split
  · exact Touches.refl.step Hw.setLink_touches
  · exact (Touches.refl.step Hw.setLink_touches).step Hw.badFrameOn_touches
  · exact (Touches.refl.step Hw.setLink_touches).step Hw.frameTaken_touches

theorem Hw.wowellReceived_touches {h : Hw} {l : Nat} {hits : List Nat} : Touches (Block.except []) h (Hw.wowellReceived h l hits) := by
  unfold Hw.wowellReceived
  refine Touches.ite ?_ ?_
  · exact Touches.refl
  · extract_lets +onlyGivenNames h1
    refine Touches.cut (x := h1) ?_ fun th1 => ?_
    · subst h1
      refine Touches.ite ?_ ?_
      · exact Touches.refl.step Hw.winResume_touches
      · exact Touches.refl.step Hw.drainPort_touches
    clear_value h1
    refine Touches.ite ?_ ?_
    · exact th1
    · exact th1.step Hw.decideFrame_touches

theorem Hw.decideAll_touches {h : Hw} {l : Nat} {b1 : Nat} : Touches (Block.except []) h (Hw.decideAll h l b1) := by
  induction b1 generalizing h l with
  | zero =>
    unfold Hw.decideAll
    exact Touches.refl
  | succ k ih =>
    unfold Hw.decideAll
    split
    · exact Touches.refl.step Hw.decideFrame_touches
    · exact (Touches.refl.step Hw.decideFrame_touches).step ih

theorem Hw.wowellGap_touches {h : Hw} {l : Nat} : Touches (Block.except []) h (Hw.wowellGap h l) := by
  unfold Hw.wowellGap
  refine Touches.ite ?_ ?_
  · exact Touches.refl
  · extract_lets +onlyGivenNames h1
    refine Touches.cut (x := h1) ?_ fun th1 => ?_
    · subst h1
      exact Touches.refl.step Hw.drainPort_touches
    clear_value h1
    extract_lets +onlyGivenNames h2
    refine Touches.cut (x := h2) ?_ fun th2 => ?_
    · subst h2
      exact th1.step Hw.decideAll_touches
    clear_value h2
    exact th2.step Hw.setLink_touches

theorem Hw.setOut_touches {h : Hw} {q : List Nat} {part : Nat} : Touches [.fw] h (Hw.setOut h q part) := by
  unfold Hw.setOut
  exact Touches.refl.step set_fw_touches

theorem Hw.hspiByte_touches {h : Hw} {b : Nat} : Touches [.resp, .fw] h (Hw.hspiByte h b) := by
  unfold Hw.hspiByte
  refine Touches.ite ?_ ?_
  · exact Touches.refl
  · extract_lets +onlyGivenNames v1
    extract_lets +onlyGivenNames h2
    refine Touches.cut (x := h2) ?_ fun th2 => ?_
    · subst h2
      exact Touches.refl.step set_fw_touches
    clear_value h2
    extract_lets +onlyGivenNames v3
    extract_lets +onlyGivenNames h4
    refine Touches.cut (x := h4) ?_ fun th4 => ?_
    · subst h4
      exact th2.step Hw.setLink_touches
    clear_value h4
    split
    · exact th4.step set_resp_touches
    · extract_lets +onlyGivenNames v11
      extract_lets +onlyGivenNames h12
      refine Touches.cut (x := h12) ?_ fun th12 => ?_
      · subst h12
        exact (th4.step Hw.setOut_touches).step Hw.hspiPump_touches
      clear_value h12
      exact th12.step set_resp_touches

theorem Hw.hspiDropOut_touches {h : Hw} : Touches [.regs, .fw] h (Hw.hspiDropOut h) := by
  unfold Hw.hspiDropOut
  extract_lets +onlyGivenNames v1
  refine Touches.ite ?_ ?_
  · exact Touches.refl
  · extract_lets +onlyGivenNames v2
    extract_lets +onlyGivenNames h3
    refine Touches.cut (x := h3) ?_ fun th3 => ?_
    · subst h3
      exact Touches.refl.step Hw.setOut_touches
    clear_value h3
    exact ((th3.step Hw.setLink_touches).step Hw.hspiPump_touches).step Hw.hspiBad_touches

theorem Hw.hspiDeassert_touches {h : Hw} : Touches (Block.except []) h (Hw.hspiDeassert h) := by
  unfold Hw.hspiDeassert
  extract_lets +onlyGivenNames v1
  extract_lets +onlyGivenNames h2
  refine Touches.cut (x := h2) ?_ fun th2 => ?_
  · subst h2
    exact Touches.refl.step set_fw_touches
  extract_lets +onlyGivenNames h3
  refine Touches.cut (x := h3) ?_ fun th3 => ?_
  · subst h3
    exact th2.step Hw.decideAll_touches
  extract_lets +onlyGivenNames v4
  extract_lets +onlyGivenNames h5
  refine Touches.cut (x := h5) ?_ fun th5 => ?_
  · subst h5
    refine Touches.ite ?_ ?_
    · exact th3
    · exact (th3.step Hw.setLink_touches).step Hw.hspiBad_touches
  clear_value h5
  exact th5.step Hw.hspiDropOut_touches

theorem Hw.requestOn_touches {h : Hw} {l : Nat} {payload : List Nat} : Touches (Block.except []) h (Hw.requestOn h l payload) := by
  unfold Hw.requestOn
  refine Touches.ite ?_ ?_
  · extract_lets +onlyGivenNames v1
    split
    · refine Touches.ite ?_ ?_
      · exact (Touches.refl.step Hw.setCan_touches).step Hw.request_touches
      · exact Touches.refl
    · exact Touches.refl
  · refine Touches.ite ?_ ?_
    · exact Touches.refl.step Hw.frameTaken_touches
    · refine Touches.ite ?_ ?_
      · exact Touches.refl.step Hw.noSession_touches
      · exact Touches.refl

theorem Hw.heartbeatDue_touches {h : Hw} {l : Nat} : Touches [.regs, .fw, .serials, .cans] h (Hw.heartbeatDue h l) := by
  unfold Hw.heartbeatDue
  refine Touches.ite ?_ ?_
  · exact Touches.refl.step Hw.heartbeat_touches
  · exact Touches.refl

theorem Hw.timeFrameDue_touches {h : Hw} {gtime : Nat} {leap : Option Nat} : Touches [.regs, .cans] h (Hw.timeFrameDue h gtime leap) := by
  unfold Hw.timeFrameDue
  refine Touches.ite ?_ ?_
  · exact Touches.refl.step Hw.timeFrame_touches
  · exact Touches.refl

end Sys2Proof.Machine
end

