-- ==== Sys2Proof/Laws/OkTransport.lean ====
section
/-! SUPPORT. Every operation of Machine/Transport.lean keeps the invariant of the part. -/

set_option Elab.async false

namespace Sys2Proof.Machine

theorem Hw.setWin_ok {h : Hw} {w : Option HostWin} (hk : h.Ok) : (Hw.setWin h w).Ok := hk.touches Hw.setWin_touches

theorem Hw.winEnd_ok {h : Hw} {w : HostWin} {status : Nat} (hk : h.Ok) : (Hw.winEnd h w status).Ok := by
  unfold Hw.winEnd
  exact Hw.wowellSend_ok (Hw.setWin_ok hk)

theorem Hw.winPut_ok {h : Hw} {a : Nat} {v : Nat} {hits : Nat} (hk : h.Ok) : (Hw.winPut h a v hits).2.Ok := by
  unfold Hw.winPut
  extract_lets +onlyGivenNames v1
  extract_lets +onlyGivenNames h2
  refine Hw.Ok.cut (x := h2) ?_ fun th2 => ?_
  · subst h2
    refine Hw.Ok.forEach ?_ fun x3 h4 th4 => ?_
    · exact hk
    · exact Hw.collide_ok th4
  clear_value h2
  refine Hw.Ok.ite2 (fun _ => ?_) (fun _ => ?_)
  · exact Hw.Ok.pair (th2)
  · exact Hw.Ok.pair (Hw.write_ok th2)

theorem Hw.winRun_ok {h : Hw} {w : HostWin} {b1 : Nat} (hk : h.Ok) : (Hw.winRun h w b1).Ok := by
  induction b1 generalizing h w hk with
  | zero =>
    unfold Hw.winRun
    exact Hw.setWin_ok hk
  | succ k ih =>
    unfold Hw.winRun
    split
    · exact Hw.winEnd_ok hk
    · extract_lets +onlyGivenNames v7
      refine Hw.Ok.ite (fun _ => ?_) (fun _ => ?_)
      · exact Hw.setWin_ok hk
      · refine Hw.Ok.ite (fun _ => ?_) (fun _ => ?_)
        · split
          · rename_i a8 h9 e10
            refine Hw.Ok.cut (x := h9) (Hw.Ok.snd ?_ e10) fun th9 => ?_
            · exact Hw.winPut_ok hk
            exact Hw.winEnd_ok th9
          · rename_i a11 h12 e13
            refine Hw.Ok.cut (x := h12) (Hw.Ok.snd ?_ e13) fun th12 => ?_
            · exact Hw.winPut_ok hk
            refine Hw.Ok.ite (fun _ => ?_) (fun _ => ?_)
            · exact Hw.winEnd_ok th12
            · exact ih th12
        · extract_lets +onlyGivenNames h14
          refine Hw.Ok.cut (x := h14) ?_ fun th14 => ?_
          · subst h14
            exact Hw.read_ok hk
          clear_value h14
          split
          · exact ih th14
          · exact Hw.winEnd_ok th14

theorem Hw.winResume_ok {h : Hw} (hk : h.Ok) : (Hw.winResume h).Ok := by
  unfold Hw.winResume
  split
  · exact hk
  · exact Hw.winRun_ok hk

theorem Hw.hspiBad_ok {h : Hw} (hk : h.Ok) : (Hw.hspiBad h).Ok := by
  unfold Hw.hspiBad
  exact Hw.bump_ok hk

theorem Hw.wread_ok {h : Hw} {a : Nat} {n : Nat} (hk : h.Ok) : (Hw.wread h a n).Ok := by
  unfold Hw.wread
  refine Hw.Ok.ite (fun _ => ?_) (fun _ => ?_)
  · exact Hw.winResume_ok hk
  · refine Hw.Ok.ite (fun _ => ?_) (fun _ => ?_)
    · exact hk
    · refine Hw.Ok.ite (fun _ => ?_) (fun _ => ?_)
      · exact Hw.hspiBad_ok hk
      · exact Hw.winRun_ok hk

theorem Hw.wwrite_ok {h : Hw} {a : Nat} {words : List Nat} {hits : List Nat} (hk : h.Ok) : (Hw.wwrite h a words hits).Ok := by
  unfold Hw.wwrite
  refine Hw.Ok.ite (fun _ => ?_) (fun _ => ?_)
  · exact Hw.winResume_ok hk
  · refine Hw.Ok.ite (fun _ => ?_) (fun _ => ?_)
    · exact hk
    · refine Hw.Ok.ite (fun _ => ?_) (fun _ => ?_)
      · exact Hw.hspiBad_ok hk
      · exact Hw.winRun_ok hk

theorem Hw.badFrameOn_ok {h : Hw} {l : Nat} (hk : h.Ok) : (Hw.badFrameOn h l).Ok := by
  unfold Hw.badFrameOn
  refine Hw.Ok.ite (fun _ => ?_) (fun _ => ?_)
  · exact Hw.hspiBad_ok hk
  · exact Hw.setLink_ok hk

theorem Hw.sessionFrame_ok {h : Hw} {t : Nat} {p : List Nat} (hk : h.Ok) : (Hw.sessionFrame h t p).Ok := by
  unfold Hw.sessionFrame
  extract_lets +onlyGivenNames v1
  split
  · exact Hw.lydAttach_ok hk
  · exact Hw.lydKeep_ok hk
  · exact Hw.lydDetach_ok hk
  · exact Hw.lydRate_ok hk
  · exact hk

theorem Hw.frameOn_ok {h : Hw} {l : Nat} {t : Nat} {p : List Nat} {hits : List Nat} (hk : h.Ok) : (Hw.frameOn h l t p hits).Ok := by
  unfold Hw.frameOn
  refine Hw.Ok.ite (fun _ => ?_) (fun _ => ?_)
  · exact Hw.request_ok hk
  · refine Hw.Ok.ite (fun _ => ?_) (fun _ => ?_)
    · refine Hw.Ok.ite (fun _ => ?_) (fun _ => ?_)
      · exact Hw.remote_ok hk
      · exact hk
    · refine Hw.Ok.ite (fun _ => ?_) (fun _ => ?_)
      · exact Hw.hspiBad_ok hk
      · refine Hw.Ok.ite (fun _ => ?_) (fun _ => ?_)
        · refine Hw.Ok.ite (fun _ => ?_) (fun _ => ?_)
          · exact Hw.wread_ok hk
          · exact Hw.hspiBad_ok hk
        · refine Hw.Ok.ite (fun _ => ?_) (fun _ => ?_)
          · refine Hw.Ok.ite (fun _ => ?_) (fun _ => ?_)
            · exact Hw.wwrite_ok hk
            · exact Hw.hspiBad_ok hk
          · exact hk

theorem Hw.lanyardFrame_ok {h : Hw} {t : Nat} {p : List Nat} (hk : h.Ok) : (Hw.lanyardFrame h t p).Ok := by
  unfold Hw.lanyardFrame
  refine Hw.Ok.ite (fun _ => ?_) (fun _ => ?_)
  · refine Hw.Ok.ite (fun _ => ?_) (fun _ => ?_)
    · exact Hw.bootAnswer_ok hk
    · exact hk
  · refine Hw.Ok.ite (fun _ => ?_) (fun _ => ?_)
    · exact hk
    · refine Hw.Ok.ite (fun _ => ?_) (fun _ => ?_)
      · refine Hw.Ok.ite (fun _ => ?_) (fun _ => ?_)
        · exact Hw.noSession_ok hk
        · exact Hw.sessionFrame_ok hk
      · refine Hw.Ok.ite (fun _ => ?_) (fun _ => ?_)
        · exact Hw.noSession_ok hk
        · exact Hw.frameOn_ok (Hw.lydValid_ok hk)

theorem Hw.frameTaken_ok {h : Hw} {l : Nat} {t : Nat} {p : List Nat} {hits : List Nat} (hk : h.Ok) : (Hw.frameTaken h l t p hits).Ok := by
  unfold Hw.frameTaken
  refine Hw.Ok.ite (fun _ => ?_) (fun _ => ?_)
  · exact Hw.lanyardFrame_ok hk
  · exact Hw.frameOn_ok hk

theorem Hw.drainPort_ok {h : Hw} {l : Nat} (hk : h.Ok) : (Hw.drainPort h l).Ok := by
  unfold Hw.drainPort
  refine Hw.Ok.ite (fun _ => ?_) (fun _ => ?_)
  · exact hk
  · extract_lets +onlyGivenNames v1
    extract_lets +onlyGivenNames h2
    refine Hw.Ok.cut (x := h2) ?_ fun th2 => ?_
    · subst h2
      refine Hw.setSerial_ok ?_ ?_ ?_ ?_
      · exact hk
      · exact Nat.zero_le _
      · exact hk.serialTx _
      · exact hk.serialWake _
    clear_value h2
    exact Hw.setLink_ok th2

theorem Hw.decideFrame_ok {h : Hw} {l : Nat} {hits : List Nat} (hk : h.Ok) : (Hw.decideFrame h l hits).Ok := by
  unfold Hw.decideFrame
  extract_lets +onlyGivenNames f1
  subst f1
  split
  · exact Hw.setLink_ok hk
  · exact Hw.badFrameOn_ok (Hw.setLink_ok hk)
  · exact Hw.frameTaken_ok (Hw.setLink_ok hk)

theorem Hw.wowellReceived_ok {h : Hw} {l : Nat} {hits : List Nat} (hk : h.Ok) : (Hw.wowellReceived h l hits).Ok := by
  unfold Hw.wowellReceived
  refine Hw.Ok.ite (fun _ => ?_) (fun _ => ?_)
  · exact hk
  · extract_lets +onlyGivenNames h1
    refine Hw.Ok.cut (x := h1) ?_ fun th1 => ?_
    · subst h1
      refine Hw.Ok.ite (fun _ => ?_) (fun _ => ?_)
      · exact Hw.winResume_ok hk
      · exact Hw.drainPort_ok hk
    clear_value h1
    refine Hw.Ok.ite (fun _ => ?_) (fun _ => ?_)
    · exact th1
    · exact Hw.decideFrame_ok th1

theorem Hw.decideAll_ok {h : Hw} {l : Nat} {b1 : Nat} (hk : h.Ok) : (Hw.decideAll h l b1).Ok := by
  induction b1 generalizing h l hk with
  | zero =>
    unfold Hw.decideAll
    exact hk
  | succ k ih =>
    unfold Hw.decideAll
    split
    · exact Hw.decideFrame_ok hk
    · exact ih (Hw.decideFrame_ok hk)

theorem Hw.wowellGap_ok {h : Hw} {l : Nat} (hk : h.Ok) : (Hw.wowellGap h l).Ok := by
  unfold Hw.wowellGap
  refine Hw.Ok.ite (fun _ => ?_) (fun _ => ?_)
  · exact hk
  · extract_lets +onlyGivenNames h1
    refine Hw.Ok.cut (x := h1) ?_ fun th1 => ?_
    · subst h1
      exact Hw.drainPort_ok hk
    clear_value h1
    extract_lets +onlyGivenNames h2
    refine Hw.Ok.cut (x := h2) ?_ fun th2 => ?_
    · subst h2
      exact Hw.decideAll_ok th1
    clear_value h2
    exact Hw.setLink_ok th2

theorem Hw.setOut_ok {h : Hw} {q : List Nat} {part : Nat} (hk : h.Ok) : (Hw.setOut h q part).Ok := hk.touches Hw.setOut_touches

theorem Hw.hspiByte_ok {h : Hw} {b : Nat} (hk : h.Ok) : (Hw.hspiByte h b).Ok := hk.touches Hw.hspiByte_touches

theorem Hw.hspiDropOut_ok {h : Hw} (hk : h.Ok) : (Hw.hspiDropOut h).Ok := by
  unfold Hw.hspiDropOut
  extract_lets +onlyGivenNames v1
  refine Hw.Ok.ite (fun _ => ?_) (fun _ => ?_)
  · exact hk
  · extract_lets +onlyGivenNames v2
    extract_lets +onlyGivenNames h3
    refine Hw.Ok.cut (x := h3) ?_ fun th3 => ?_
    · subst h3
      exact Hw.setOut_ok hk
    clear_value h3
    exact Hw.hspiBad_ok (Hw.hspiPump_ok (Hw.setLink_ok th3))

theorem Hw.hspiDeassert_ok {h : Hw} (hk : h.Ok) : (Hw.hspiDeassert h).Ok := by
  unfold Hw.hspiDeassert
  extract_lets +onlyGivenNames v1
  extract_lets +onlyGivenNames h2
  refine Hw.Ok.cut (x := h2) ?_ fun th2 => ?_
  · subst h2
    exact Hw.Ok.touches hk set_fw_touches
  extract_lets +onlyGivenNames h3
  refine Hw.Ok.cut (x := h3) ?_ fun th3 => ?_
  · subst h3
    exact Hw.decideAll_ok th2
  extract_lets +onlyGivenNames v4
  extract_lets +onlyGivenNames h5
  refine Hw.Ok.cut (x := h5) ?_ fun th5 => ?_
  · subst h5
    refine Hw.Ok.ite (fun _ => ?_) (fun _ => ?_)
    · exact th3
    · exact Hw.hspiBad_ok (Hw.setLink_ok th3)
  clear_value h5
  exact Hw.hspiDropOut_ok th5

theorem Hw.requestOn_ok {h : Hw} {l : Nat} {payload : List Nat} (hk : h.Ok) : (Hw.requestOn h l payload).Ok := by
  unfold Hw.requestOn
  refine Hw.Ok.ite (fun _ => ?_) (fun _ => ?_)
  · extract_lets +onlyGivenNames v1
    split
    · refine Hw.Ok.ite (fun _ => ?_) (fun _ => ?_)
      · exact Hw.request_ok (Hw.setCan_ok hk)
      · exact hk
    · exact hk
  · refine Hw.Ok.ite (fun _ => ?_) (fun _ => ?_)
    · exact Hw.frameTaken_ok hk
    · refine Hw.Ok.ite (fun _ => ?_) (fun _ => ?_)
      · exact Hw.noSession_ok hk
      · exact hk

theorem Hw.heartbeatDue_ok {h : Hw} {l : Nat} (hk : h.Ok) : (Hw.heartbeatDue h l).Ok := by
  unfold Hw.heartbeatDue
  refine Hw.Ok.ite (fun _ => ?_) (fun _ => ?_)
  · exact Hw.heartbeat_ok hk
  · exact hk

theorem Hw.timeFrameDue_ok {h : Hw} {gtime : Nat} {leap : Option Nat} (hk : h.Ok) : (Hw.timeFrameDue h gtime leap).Ok := by
  unfold Hw.timeFrameDue
  refine Hw.Ok.ite (fun _ => ?_) (fun _ => ?_)
  · exact Hw.timeFrame_ok hk
  · exact hk

end Sys2Proof.Machine
end

