-- ==== Sys2Proof/Laws/OkDictCmds.lean ====
section
/-! SUPPORT. Every command of Machine/DictCmds.lean answers a next state and keeps the invariant of the part. -/

set_option Elab.async false

namespace Sys2Proof.Machine

theorem execRequestReceived_ok {l : Fin 10} {payload : List Nat} {s : State} (hk : s.hw.Ok) : ∃ h, execRequestReceived l payload s = .next ⟨h, s.pending⟩ ∧ h.Ok := by
  refine ⟨_, rfl, ?_⟩
  simp only
  generalize s.hw = h at *
  exact Hw.requestOn_ok hk

theorem execRegisterSampling_ok {s : State} (hk : s.hw.Ok) : ∃ h, execRegisterSampling s = .next ⟨h, s.pending⟩ ∧ h.Ok := by
  refine ⟨_, rfl, ?_⟩
  simp only
  generalize s.hw = h at *
  exact Hw.registerSampling_ok hk

theorem execJournalCompaction_ok {s : State} (hk : s.hw.Ok) : ∃ h, execJournalCompaction s = .next ⟨h, s.pending⟩ ∧ h.Ok := by
  refine ⟨_, rfl, ?_⟩
  simp only
  generalize s.hw = h at *
  exact Hw.compactDue_ok hk

theorem execReadSeg_ok {s : State} (hk : s.hw.Ok) : ∃ h, execReadSeg s = .next ⟨h, s.pending⟩ ∧ h.Ok := by
  refine ⟨_, rfl, ?_⟩
  simp only
  generalize s.hw = h at *
  exact Hw.opReadSeg_ok hk

theorem execObjectWrite_ok {s : State} (hk : s.hw.Ok) : ∃ h, execObjectWrite s = .next ⟨h, s.pending⟩ ∧ h.Ok := by
  refine ⟨_, rfl, ?_⟩
  simp only
  generalize s.hw = h at *
  exact Hw.opWrite_ok hk

theorem execSubscribe_ok {s : State} (hk : s.hw.Ok) : ∃ h, execSubscribe s = .next ⟨h, s.pending⟩ ∧ h.Ok := by
  refine ⟨_, rfl, ?_⟩
  simp only
  generalize s.hw = h at *
  exact Hw.opSubscribe_ok hk

theorem execAbortTransfer_ok {s : State} (hk : s.hw.Ok) : ∃ h, execAbortTransfer s = .next ⟨h, s.pending⟩ ∧ h.Ok := by
  refine ⟨_, rfl, ?_⟩
  simp only
  generalize s.hw = h at *
  exact Hw.opAbort_ok hk

theorem execAuthBarExpiry_ok {l : Fin 10} {s : State} (hk : s.hw.Ok) : ∃ h, execAuthBarExpiry l s = .next ⟨h, s.pending⟩ ∧ h.Ok := by
  refine ⟨_, rfl, ?_⟩
  simp only
  generalize s.hw = h at *
  exact Hw.authBarExpiry_ok hk

theorem execObjectRead_ok {s : State} (hk : s.hw.Ok) : ∃ h, execObjectRead s = .next ⟨h, s.pending⟩ ∧ h.Ok := by
  refine ⟨_, rfl, ?_⟩
  simp only
  generalize s.hw = h at *
  exact Hw.opRead_ok hk

theorem execSessionTimeout_ok {l : Fin 10} {s : State} (hk : s.hw.Ok) : ∃ h, execSessionTimeout l s = .next ⟨h, s.pending⟩ ∧ h.Ok := by
  refine ⟨_, rfl, ?_⟩
  simp only
  generalize s.hw = h at *
  exact Hw.sessionTimeout_ok hk

theorem execAuthStep3_ok {s : State} (hk : s.hw.Ok) : ∃ h, execAuthStep3 s = .next ⟨h, s.pending⟩ ∧ h.Ok := by
  refine ⟨_, rfl, ?_⟩
  simp only
  generalize s.hw = h at *
  exact Hw.authStep3_ok hk

theorem execNotifySend_ok {slot : Fin 32} {s : State} (hk : s.hw.Ok) : ∃ h, execNotifySend slot s = .next ⟨h, s.pending⟩ ∧ h.Ok := by
  refine ⟨_, rfl, ?_⟩
  simp only
  generalize s.hw = h at *
  exact Hw.notifyDue_ok hk

theorem execStrandCommitObject_ok {link : Fin 10} {k : Fin 512} {bell : Bool} {s : State} (hk : s.hw.Ok) : ∃ h, execStrandCommitObject link k bell s = .next ⟨h, s.pending⟩ ∧ h.Ok := by
  refine ⟨_, rfl, ?_⟩
  simp only
  generalize s.hw = h at *
  refine Hw.Ok.ite (fun _ => ?_) (fun _ => ?_)
  · exact Hw.commitObject_ok hk
  · exact hk

theorem execAuthStep2_ok {s : State} (hk : s.hw.Ok) : ∃ h, execAuthStep2 s = .next ⟨h, s.pending⟩ ∧ h.Ok := by
  refine ⟨_, rfl, ?_⟩
  simp only
  generalize s.hw = h at *
  exact Hw.authStep2_ok hk

theorem execAuthStep1_ok {s : State} (hk : s.hw.Ok) : ∃ h, execAuthStep1 s = .next ⟨h, s.pending⟩ ∧ h.Ok := by
  refine ⟨_, rfl, ?_⟩
  simp only
  generalize s.hw = h at *
  exact Hw.authStep1_ok hk

theorem execNonceExpiry_ok {l : Fin 10} {s : State} (hk : s.hw.Ok) : ∃ h, execNonceExpiry l s = .next ⟨h, s.pending⟩ ∧ h.Ok := by
  refine ⟨_, rfl, ?_⟩
  simp only
  generalize s.hw = h at *
  exact Hw.nonceExpiry_ok hk

theorem execWriteSeg_ok {s : State} (hk : s.hw.Ok) : ∃ h, execWriteSeg s = .next ⟨h, s.pending⟩ ∧ h.Ok := by
  refine ⟨_, rfl, ?_⟩
  simp only
  generalize s.hw = h at *
  exact Hw.opWriteSeg_ok hk

theorem execSegTransferTimeout_ok {l : Fin 10} {idx : BitVec 16} {sub : BitVec 8} {s : State} (hk : s.hw.Ok) : ∃ h, execSegTransferTimeout l idx sub s = .next ⟨h, s.pending⟩ ∧ h.Ok := by
  refine ⟨_, rfl, ?_⟩
  simp only
  generalize s.hw = h at *
  exact Hw.segExpire_ok hk

end Sys2Proof.Machine
end

