-- ==== Sys2Proof/Laws/OkHitchCmds.lean ====
section
/-! SUPPORT. Every command of Machine/HitchCmds.lean answers a next state and keeps the invariant of the part. -/

set_option Elab.async false

namespace Sys2Proof.Machine

theorem execTpEdgeUpdate_ok {s : State} (hk : s.hw.Ok) : ∃ h, execTpEdgeUpdate s = .next ⟨h, s.pending⟩ ∧ h.Ok := by
  refine ⟨_, rfl, ?_⟩
  simp only
  generalize s.hw = h at *
  exact Hw.edgeUpdate_ok hk

theorem execTpHold_ok {s : State} (hk : s.hw.Ok) : ∃ h, execTpHold s = .next ⟨h, s.pending⟩ ∧ h.Ok := by
  refine ⟨_, rfl, ?_⟩
  simp only
  generalize s.hw = h at *
  exact Hw.tpHold_ok hk

theorem execTmTLoRead_ok {s : State} (hk : s.hw.Ok) : ∃ h, execTmTLoRead s = .next ⟨h, s.pending⟩ ∧ h.Ok := by
  refine ⟨_, rfl, ?_⟩
  simp only
  generalize s.hw = h at *
  exact Hw.readMark_ok hk

theorem execTpDisc_ok {v : BitVec 32} {s : State} (hk : s.hw.Ok) : ∃ h, execTpDisc v s = .next ⟨h, s.pending⟩ ∧ h.Ok := by
  refine ⟨_, rfl, ?_⟩
  simp only
  generalize s.hw = h at *
  exact Hw.tpDisc_ok hk

theorem execTmarkCapture_ok {rise : Bool} {held : BitVec 32} {s : State} (hk : s.hw.Ok) : ∃ h, execTmarkCapture rise held s = .next ⟨h, s.pending⟩ ∧ h.Ok := by
  refine ⟨_, rfl, ?_⟩
  simp only
  generalize s.hw = h at *
  exact Hw.markEdge_ok hk

theorem execHitchAdj_ok {v : BitVec 32} {s : State} (hk : s.hw.Ok) : ∃ h, execHitchAdj v s = .next ⟨h, s.pending⟩ ∧ h.Ok := by
  refine ⟨_, rfl, ?_⟩
  simp only
  generalize s.hw = h at *
  exact Hw.hitchAdj_ok hk

theorem execHitchInstantDue_ok {s : State} (hk : s.hw.Ok) : ∃ h, execHitchInstantDue s = .next ⟨h, s.pending⟩ ∧ h.Ok := by
  refine ⟨_, rfl, ?_⟩
  simp only
  generalize s.hw = h at *
  exact Hw.instantDue_ok hk

theorem execHitchRelease_ok {s : State} (hk : s.hw.Ok) : ∃ h, execHitchRelease s = .next ⟨h, s.pending⟩ ∧ h.Ok := by
  refine ⟨_, rfl, ?_⟩
  simp only
  generalize s.hw = h at *
  split
  · rename_i a1 h2 e3
    refine Hw.Ok.cut (x := h2) (Hw.Ok.snd ?_ e3) fun th2 => ?_
    · exact Hw.hitchRelease_ok hk
    exact th2
  · rename_i a4 a5 h6 e7
    refine Hw.Ok.cut (x := h6) (Hw.Ok.snd ?_ e7) fun th6 => ?_
    · exact Hw.hitchRelease_ok hk
    refine Hw.Ok.ite (fun _ => ?_) (fun _ => ?_)
    · exact Hw.measFrames_ok th6
    · exact th6

theorem execHitchBaseHiWrite_ok {v : BitVec 32} {s : State} (hk : s.hw.Ok) : ∃ h, execHitchBaseHiWrite v s = .next ⟨h, s.pending⟩ ∧ h.Ok := by
  refine ⟨_, rfl, ?_⟩
  simp only
  generalize s.hw = h at *
  exact Hw.hitchBase_ok hk

theorem execTpInactiveEdge_ok {s : State} (hk : s.hw.Ok) : ∃ h, execTpInactiveEdge s = .next ⟨h, s.pending⟩ ∧ h.Ok := by
  refine ⟨_, rfl, ?_⟩
  simp only
  generalize s.hw = h at *
  exact Hw.inactiveEdge_ok hk

theorem execAnchorWaitExpiry_ok {s : State} (hk : s.hw.Ok) : ∃ h, execAnchorWaitExpiry s = .next ⟨h, s.pending⟩ ∧ h.Ok := by
  refine ⟨_, rfl, ?_⟩
  simp only
  generalize s.hw = h at *
  exact Hw.anchorExpiry_ok hk

theorem execHitchCopyComplete_ok {s : State} (hk : s.hw.Ok) : ∃ h, execHitchCopyComplete s = .next ⟨h, s.pending⟩ ∧ h.Ok := by
  refine ⟨_, rfl, ?_⟩
  simp only
  generalize s.hw = h at *
  exact Hw.copyDone_ok hk

theorem execHitchCtrlWrite_ok {v : BitVec 32} {s : State} (hk : s.hw.Ok) : ∃ h, execHitchCtrlWrite v s = .next ⟨h, s.pending⟩ ∧ h.Ok := by
  refine ⟨_, rfl, ?_⟩
  simp only
  generalize s.hw = h at *
  exact Hw.hitchCtrl_ok hk

theorem execHoldTimeout_ok {s : State} (hk : s.hw.Ok) : ∃ h, execHoldTimeout s = .next ⟨h, s.pending⟩ ∧ h.Ok := by
  refine ⟨_, rfl, ?_⟩
  simp only
  generalize s.hw = h at *
  exact Hw.holdTimeout_ok hk

theorem execTpDelayCal_ok {s : State} (hk : s.hw.Ok) : ∃ h, execTpDelayCal s = .next ⟨h, s.pending⟩ ∧ h.Ok := by
  refine ⟨_, rfl, ?_⟩
  simp only
  generalize s.hw = h at *
  exact hk

theorem execTpStepGo_ok {s : State} (hk : s.hw.Ok) : ∃ h, execTpStepGo s = .next ⟨h, s.pending⟩ ∧ h.Ok := by
  refine ⟨_, rfl, ?_⟩
  simp only
  generalize s.hw = h at *
  exact Hw.sf_ok hk

theorem execHoldoverTick_ok {s : State} (hk : s.hw.Ok) : ∃ h, execHoldoverTick s = .next ⟨h, s.pending⟩ ∧ h.Ok := by
  refine ⟨_, rfl, ?_⟩
  simp only
  generalize s.hw = h at *
  exact Hw.holdoverTick_ok hk

theorem execTcntLoRead_ok {s : State} (hk : s.hw.Ok) : ∃ h, execTcntLoRead s = .next ⟨h, s.pending⟩ ∧ h.Ok := by
  refine ⟨_, rfl, ?_⟩
  simp only
  generalize s.hw = h at *
  exact Hw.readTcnt_ok hk

end Sys2Proof.Machine
end

