-- ==== Sys2Proof/Laws/OkI2cCmds.lean ====
section
/-! SUPPORT. Every command of Machine/I2cCmds.lean answers a next state and keeps the invariant of the part. -/

set_option Elab.async false

namespace Sys2Proof.Machine

theorem execI2cTimeout_ok {stop : Bool} {s : State} (hk : s.hw.Ok) : ∃ h, execI2cTimeout stop s = .next ⟨h, s.pending⟩ ∧ h.Ok := by
  refine ⟨_, rfl, ?_⟩
  simp only
  generalize s.hw = h at *
  exact Hw.i2cTimeout_ok hk

theorem execI2cCommandEnd_ok {s : State} (hk : s.hw.Ok) : ∃ h, execI2cCommandEnd s = .next ⟨h, s.pending⟩ ∧ h.Ok := by
  refine ⟨_, rfl, ?_⟩
  simp only
  generalize s.hw = h at *
  exact Hw.i2cDone_ok hk

theorem execI2cDataRead_ok {s : State} (hk : s.hw.Ok) : ∃ h, execI2cDataRead s = .next ⟨h, s.pending⟩ ∧ h.Ok := by
  refine ⟨_, rfl, ?_⟩
  simp only
  generalize s.hw = h at *
  exact Hw.i2cRead_ok hk

theorem execI2cByte_ok {data : BitVec 8} {ack : Bool} {lost : Bool} {s : State} (hk : s.hw.Ok) : ∃ h, execI2cByte data ack lost s = .next ⟨h, s.pending⟩ ∧ h.Ok := by
  refine ⟨_, rfl, ?_⟩
  simp only
  generalize s.hw = h at *
  exact Hw.i2cByte_ok hk

theorem execI2cBusFreeStart_ok {s : State} (hk : s.hw.Ok) : ∃ h, execI2cBusFreeStart s = .next ⟨h, s.pending⟩ ∧ h.Ok := by
  refine ⟨_, rfl, ?_⟩
  simp only
  generalize s.hw = h at *
  exact Hw.i2cFree_ok hk

theorem execI2cDataWrite_ok {v : BitVec 8} {s : State} (hk : s.hw.Ok) : ∃ h, execI2cDataWrite v s = .next ⟨h, s.pending⟩ ∧ h.Ok := by
  refine ⟨_, rfl, ?_⟩
  simp only
  generalize s.hw = h at *
  exact Hw.i2cWrite_ok hk

theorem execI2cCmd_ok {v : BitVec 32} {s : State} (hk : s.hw.Ok) : ∃ h, execI2cCmd v s = .next ⟨h, s.pending⟩ ∧ h.Ok := by
  refine ⟨_, rfl, ?_⟩
  simp only
  generalize s.hw = h at *
  exact Hw.i2cCmd_ok hk

end Sys2Proof.Machine
end

