-- ==== Sys2Proof/Laws/OkLinkCmds.lean ====
section
/-! SUPPORT. Every command of Machine/LinkCmds.lean answers a next state and keeps the invariant of the part. -/

set_option Elab.async false

namespace Sys2Proof.Machine

theorem execWowellFrameReceived_ok {l : Fin 10} {hits : List Nat} {s : State} (hk : s.hw.Ok) : ∃ h, execWowellFrameReceived l hits s = .next ⟨h, s.pending⟩ ∧ h.Ok := by
  refine ⟨_, rfl, ?_⟩
  simp only
  generalize s.hw = h at *
  exact Hw.wowellReceived_ok hk

theorem execCanFrameReceived_ok {n : Fin 2} {id : BitVec 29} {ext : Bool} {fd : Bool} {data : List Nat} {s : State} (hk : s.hw.Ok) : ∃ h, execCanFrameReceived n id ext fd data s = .next ⟨h, s.pending⟩ ∧ h.Ok := by
  refine ⟨_, rfl, ?_⟩
  simp only
  generalize s.hw = h at *
  exact Hw.canReceived_ok hk

theorem execCanBusoffRecovery_ok {n : Fin 2} {s : State} (hk : s.hw.Ok) : ∃ h, execCanBusoffRecovery n s = .next ⟨h, s.pending⟩ ∧ h.Ok := by
  refine ⟨_, rfl, ?_⟩
  simp only
  generalize s.hw = h at *
  exact Hw.canRecover_ok hk

theorem execHspiByteExchange_ok {b : BitVec 8} {s : State} (hk : s.hw.Ok) : ∃ h, execHspiByteExchange b s = .next ⟨h, s.pending⟩ ∧ h.Ok := by
  refine ⟨_, rfl, ?_⟩
  simp only
  generalize s.hw = h at *
  exact Hw.hspiByte_ok hk

theorem execWread_ok {a : BitVec 32} {n : BitVec 8} {s : State} (hk : s.hw.Ok) : ∃ h, execWread a n s = .next ⟨h, s.pending⟩ ∧ h.Ok := by
  refine ⟨_, rfl, ?_⟩
  simp only
  generalize s.hw = h at *
  exact Hw.wread_ok hk

theorem execWowellGapTimeout_ok {l : Fin 10} {s : State} (hk : s.hw.Ok) : ∃ h, execWowellGapTimeout l s = .next ⟨h, s.pending⟩ ∧ h.Ok := by
  refine ⟨_, rfl, ?_⟩
  simp only
  generalize s.hw = h at *
  exact Hw.wowellGap_ok hk

theorem execHeartbeat_ok {l : Fin 10} {s : State} (hk : s.hw.Ok) : ∃ h, execHeartbeat l s = .next ⟨h, s.pending⟩ ∧ h.Ok := by
  refine ⟨_, rfl, ?_⟩
  simp only
  generalize s.hw = h at *
  exact Hw.heartbeatDue_ok hk

theorem execHspiCsDeassert_ok {s : State} (hk : s.hw.Ok) : ∃ h, execHspiCsDeassert s = .next ⟨h, s.pending⟩ ∧ h.Ok := by
  refine ⟨_, rfl, ?_⟩
  simp only
  generalize s.hw = h at *
  exact Hw.hspiDeassert_ok hk

theorem execWwrite_ok {a : BitVec 32} {words : List Nat} {hits : List Nat} {s : State} (hk : s.hw.Ok) : ∃ h, execWwrite a words hits s = .next ⟨h, s.pending⟩ ∧ h.Ok := by
  refine ⟨_, rfl, ?_⟩
  simp only
  generalize s.hw = h at *
  exact Hw.wwrite_ok hk

theorem execTimeFrameQueue_ok {gtime : BitVec 64} {leap : Option (BitVec 8)} {s : State} (hk : s.hw.Ok) : ∃ h, execTimeFrameQueue gtime leap s = .next ⟨h, s.pending⟩ ∧ h.Ok := by
  refine ⟨_, rfl, ?_⟩
  simp only
  generalize s.hw = h at *
  exact Hw.timeFrameDue_ok hk

theorem execCanFrameSent_ok {n : Fin 2} {ok : Bool} {s : State} (hk : s.hw.Ok) : ∃ h, execCanFrameSent n ok s = .next ⟨h, s.pending⟩ ∧ h.Ok := by
  refine ⟨_, rfl, ?_⟩
  simp only
  generalize s.hw = h at *
  exact Hw.canSent_ok hk

end Sys2Proof.Machine
end

