-- ==== Sys2Proof/Laws/OkLoopInsns.lean ====
section
/-! SUPPORT. Every command of Machine/LoopInsns.lean answers a next state and keeps the invariant of the part. -/

set_option Elab.async false

namespace Sys2Proof.Machine

theorem execSta_ok {c : Fin 8} {hit : Bool} {s : State} (hk : s.hw.Ok) : ∃ h, execSta c hit s = .next ⟨h, s.pending⟩ ∧ h.Ok := by
  refine ⟨_, rfl, ?_⟩
  simp only
  generalize s.hw = h at *
  exact Hw.runStore_ok hk

theorem execAddh_ok {c : Fin 8} {s : State} (hk : s.hw.Ok) : ∃ h, execAddh c s = .next ⟨h, s.pending⟩ ∧ h.Ok := by
  refine ⟨_, rfl, ?_⟩
  simp only
  generalize s.hw = h at *
  exact Hw.runValue_ok hk

theorem execRpt_ok {c : Fin 8} {s : State} (hk : s.hw.Ok) : ∃ h, execRpt c s = .next ⟨h, s.pending⟩ ∧ h.Ok := by
  refine ⟨_, rfl, ?_⟩
  simp only
  generalize s.hw = h at *
  exact Hw.runRepeat_ok hk

theorem execCmph_ok {c : Fin 8} {s : State} (hk : s.hw.Ok) : ∃ h, execCmph c s = .next ⟨h, s.pending⟩ ∧ h.Ok := by
  refine ⟨_, rfl, ?_⟩
  simp only
  generalize s.hw = h at *
  exact Hw.runValue_ok hk

theorem execNorm_ok {c : Fin 8} {s : State} (hk : s.hw.Ok) : ∃ h, execNorm c s = .next ⟨h, s.pending⟩ ∧ h.Ok := by
  refine ⟨_, rfl, ?_⟩
  simp only
  generalize s.hw = h at *
  exact Hw.runPlain_ok hk

theorem execMag_ok {c : Fin 8} {s : State} (hk : s.hw.Ok) : ∃ h, execMag c s = .next ⟨h, s.pending⟩ ∧ h.Ok := by
  refine ⟨_, rfl, ?_⟩
  simp only
  generalize s.hw = h at *
  exact Hw.runValue_ok hk

theorem execSubh_ok {c : Fin 8} {s : State} (hk : s.hw.Ok) : ∃ h, execSubh c s = .next ⟨h, s.pending⟩ ∧ h.Ok := by
  refine ⟨_, rfl, ?_⟩
  simp only
  generalize s.hw = h at *
  exact Hw.runValue_ok hk

theorem execStoreRetry_ok {c : Fin 8} {hit : Bool} {s : State} (hk : s.hw.Ok) : ∃ h, execStoreRetry c hit s = .next ⟨h, s.pending⟩ ∧ h.Ok := by
  refine ⟨_, rfl, ?_⟩
  simp only
  generalize s.hw = h at *
  exact Hw.storeRetry_ok hk

theorem execSt_ok {c : Fin 8} {hit : Bool} {s : State} (hk : s.hw.Ok) : ∃ h, execSt c hit s = .next ⟨h, s.pending⟩ ∧ h.Ok := by
  refine ⟨_, rfl, ?_⟩
  simp only
  generalize s.hw = h at *
  exact Hw.runStore_ok hk

theorem execStg_ok {c : Fin 8} {hit : Bool} {s : State} (hk : s.hw.Ok) : ∃ h, execStg c hit s = .next ⟨h, s.pending⟩ ∧ h.Ok := by
  refine ⟨_, rfl, ?_⟩
  simp only
  generalize s.hw = h at *
  exact Hw.runStore_ok hk

theorem execLdg_ok {c : Fin 8} {s : State} (hk : s.hw.Ok) : ∃ h, execLdg c s = .next ⟨h, s.pending⟩ ∧ h.Ok := by
  refine ⟨_, rfl, ?_⟩
  simp only
  generalize s.hw = h at *
  exact Hw.runValue_ok hk

theorem execCall_ok {c : Fin 8} {s : State} (hk : s.hw.Ok) : ∃ h, execCall c s = .next ⟨h, s.pending⟩ ∧ h.Ok := by
  refine ⟨_, rfl, ?_⟩
  simp only
  generalize s.hw = h at *
  exact Hw.runBranch_ok hk

theorem execAbs_ok {c : Fin 8} {s : State} (hk : s.hw.Ok) : ∃ h, execAbs c s = .next ⟨h, s.pending⟩ ∧ h.Ok := by
  refine ⟨_, rfl, ?_⟩
  simp only
  generalize s.hw = h at *
  exact Hw.runPlain_ok hk

theorem execAddg_ok {c : Fin 8} {s : State} (hk : s.hw.Ok) : ∃ h, execAddg c s = .next ⟨h, s.pending⟩ ∧ h.Ok := by
  refine ⟨_, rfl, ?_⟩
  simp only
  generalize s.hw = h at *
  exact Hw.runPlain_ok hk

theorem execB_ok {c : Fin 8} {s : State} (hk : s.hw.Ok) : ∃ h, execB c s = .next ⟨h, s.pending⟩ ∧ h.Ok := by
  refine ⟨_, rfl, ?_⟩
  simp only
  generalize s.hw = h at *
  exact Hw.runBranch_ok hk

theorem execCmac_ok {c : Fin 8} {s : State} (hk : s.hw.Ok) : ∃ h, execCmac c s = .next ⟨h, s.pending⟩ ∧ h.Ok := by
  refine ⟨_, rfl, ?_⟩
  simp only
  generalize s.hw = h at *
  exact Hw.runCmac_ok hk

theorem execSat_ok {c : Fin 8} {s : State} (hk : s.hw.Ok) : ∃ h, execSat c s = .next ⟨h, s.pending⟩ ∧ h.Ok := by
  refine ⟨_, rfl, ?_⟩
  simp only
  generalize s.hw = h at *
  exact Hw.runPlain_ok hk

theorem execSth_ok {c : Fin 8} {hit : Bool} {s : State} (hk : s.hw.Ok) : ∃ h, execSth c hit s = .next ⟨h, s.pending⟩ ∧ h.Ok := by
  refine ⟨_, rfl, ?_⟩
  simp only
  generalize s.hw = h at *
  exact Hw.runStore_ok hk

theorem execSub_ok {c : Fin 8} {s : State} (hk : s.hw.Ok) : ∃ h, execSub c s = .next ⟨h, s.pending⟩ ∧ h.Ok := by
  refine ⟨_, rfl, ?_⟩
  simp only
  generalize s.hw = h at *
  exact Hw.runValue_ok hk

theorem execOr_ok {c : Fin 8} {s : State} (hk : s.hw.Ok) : ∃ h, execOr c s = .next ⟨h, s.pending⟩ ∧ h.Ok := by
  refine ⟨_, rfl, ?_⟩
  simp only
  generalize s.hw = h at *
  exact Hw.runValue_ok hk

theorem execLd_ok {c : Fin 8} {s : State} (hk : s.hw.Ok) : ∃ h, execLd c s = .next ⟨h, s.pending⟩ ∧ h.Ok := by
  refine ⟨_, rfl, ?_⟩
  simp only
  generalize s.hw = h at *
  exact Hw.runValue_ok hk

theorem execLdh_ok {c : Fin 8} {s : State} (hk : s.hw.Ok) : ∃ h, execLdh c s = .next ⟨h, s.pending⟩ ∧ h.Ok := by
  refine ⟨_, rfl, ?_⟩
  simp only
  generalize s.hw = h at *
  exact Hw.runValue_ok hk

theorem execRpti_ok {c : Fin 8} {s : State} (hk : s.hw.Ok) : ∃ h, execRpti c s = .next ⟨h, s.pending⟩ ∧ h.Ok := by
  refine ⟨_, rfl, ?_⟩
  simp only
  generalize s.hw = h at *
  exact Hw.runRepeat_ok hk

theorem execMsu_ok {c : Fin 8} {s : State} (hk : s.hw.Ok) : ∃ h, execMsu c s = .next ⟨h, s.pending⟩ ∧ h.Ok := by
  refine ⟨_, rfl, ?_⟩
  simp only
  generalize s.hw = h at *
  exact Hw.runValue_ok hk

theorem execAtn_ok {c : Fin 8} {s : State} (hk : s.hw.Ok) : ∃ h, execAtn c s = .next ⟨h, s.pending⟩ ∧ h.Ok := by
  refine ⟨_, rfl, ?_⟩
  simp only
  generalize s.hw = h at *
  exact Hw.runValue_ok hk

theorem execXor_ok {c : Fin 8} {s : State} (hk : s.hw.Ok) : ∃ h, execXor c s = .next ⟨h, s.pending⟩ ∧ h.Ok := by
  refine ⟨_, rfl, ?_⟩
  simp only
  generalize s.hw = h at *
  exact Hw.runValue_ok hk

theorem execNeg_ok {c : Fin 8} {s : State} (hk : s.hw.Ok) : ∃ h, execNeg c s = .next ⟨h, s.pending⟩ ∧ h.Ok := by
  refine ⟨_, rfl, ?_⟩
  simp only
  generalize s.hw = h at *
  exact Hw.runPlain_ok hk

theorem execAsh_ok {c : Fin 8} {s : State} (hk : s.hw.Ok) : ∃ h, execAsh c s = .next ⟨h, s.pending⟩ ∧ h.Ok := by
  refine ⟨_, rfl, ?_⟩
  simp only
  generalize s.hw = h at *
  exact Hw.runPlain_ok hk

theorem execNop_ok {c : Fin 8} {s : State} (hk : s.hw.Ok) : ∃ h, execNop c s = .next ⟨h, s.pending⟩ ∧ h.Ok := by
  refine ⟨_, rfl, ?_⟩
  simp only
  generalize s.hw = h at *
  exact Hw.runPlain_ok hk

theorem execMpy_ok {c : Fin 8} {s : State} (hk : s.hw.Ok) : ∃ h, execMpy c s = .next ⟨h, s.pending⟩ ∧ h.Ok := by
  refine ⟨_, rfl, ?_⟩
  simp only
  generalize s.hw = h at *
  exact Hw.runValue_ok hk

theorem execAshm_ok {c : Fin 8} {s : State} (hk : s.hw.Ok) : ∃ h, execAshm c s = .next ⟨h, s.pending⟩ ∧ h.Ok := by
  refine ⟨_, rfl, ?_⟩
  simp only
  generalize s.hw = h at *
  exact Hw.runPlain_ok hk

theorem execCmp_ok {c : Fin 8} {s : State} (hk : s.hw.Ok) : ∃ h, execCmp c s = .next ⟨h, s.pending⟩ ∧ h.Ok := by
  refine ⟨_, rfl, ?_⟩
  simp only
  generalize s.hw = h at *
  exact Hw.runValue_ok hk

theorem execAnd_ok {c : Fin 8} {s : State} (hk : s.hw.Ok) : ∃ h, execAnd c s = .next ⟨h, s.pending⟩ ∧ h.Ok := by
  refine ⟨_, rfl, ?_⟩
  simp only
  generalize s.hw = h at *
  exact Hw.runValue_ok hk

theorem execAdd_ok {c : Fin 8} {s : State} (hk : s.hw.Ok) : ∃ h, execAdd c s = .next ⟨h, s.pending⟩ ∧ h.Ok := by
  refine ⟨_, rfl, ?_⟩
  simp only
  generalize s.hw = h at *
  exact Hw.runValue_ok hk

theorem execMac_ok {c : Fin 8} {s : State} (hk : s.hw.Ok) : ∃ h, execMac c s = .next ⟨h, s.pending⟩ ∧ h.Ok := by
  refine ⟨_, rfl, ?_⟩
  simp only
  generalize s.hw = h at *
  exact Hw.runValue_ok hk

theorem execRet_ok {c : Fin 8} {s : State} (hk : s.hw.Ok) : ∃ h, execRet c s = .next ⟨h, s.pending⟩ ∧ h.Ok := by
  refine ⟨_, rfl, ?_⟩
  simp only
  generalize s.hw = h at *
  exact Hw.runRet_ok hk

end Sys2Proof.Machine
end

