-- ==== Sys2Proof/Laws/OkPkeyCmds.lean ====
section
/-! SUPPORT. Every command of Machine/PkeyCmds.lean answers a next state and keeps the invariant of the part. -/

set_option Elab.async false

namespace Sys2Proof.Machine

theorem execPkeyPulseDelayedStart_ok {s : State} (hk : s.hw.Ok) : ∃ h, execPkeyPulseDelayedStart s = .next ⟨h, s.pending⟩ ∧ h.Ok := by
  refine ⟨_, rfl, ?_⟩
  simp only
  generalize s.hw = h at *
  exact Hw.pulseDelayed_ok hk

theorem execCsProcedureStart_ok {k : Fin 4} {s : State} (hk : s.hw.Ok) : ∃ h, execCsProcedureStart k s = .next ⟨h, s.pending⟩ ∧ h.Ok := by
  refine ⟨_, rfl, ?_⟩
  simp only
  generalize s.hw = h at *
  exact Hw.csStart_ok hk

theorem execPkeyOutLock_ok {s : State} (hk : s.hw.Ok) : ∃ h, execPkeyOutLock s = .next ⟨h, s.pending⟩ ∧ h.Ok := by
  refine ⟨_, rfl, ?_⟩
  simp only
  generalize s.hw = h at *
  exact Hw.outCommand_ok hk

theorem execPkeyPairingRequest_ok {k : Fin 4} {entry : List Nat} {s : State} (hk : s.hw.Ok) : ∃ h, execPkeyPairingRequest k entry s = .next ⟨h, s.pending⟩ ∧ h.Ok := by
  refine ⟨_, rfl, ?_⟩
  simp only
  generalize s.hw = h at *
  exact Hw.pairing_ok hk

theorem execPkeyCmdLock_ok {k : Fin 4} {s : State} (hk : s.hw.Ok) : ∃ h, execPkeyCmdLock k s = .next ⟨h, s.pending⟩ ∧ h.Ok := by
  refine ⟨_, rfl, ?_⟩
  simp only
  generalize s.hw = h at *
  exact Hw.cmdLock_ok hk

theorem execPkeyOutUnlock_ok {s : State} (hk : s.hw.Ok) : ∃ h, execPkeyOutUnlock s = .next ⟨h, s.pending⟩ ∧ h.Ok := by
  refine ⟨_, rfl, ?_⟩
  simp only
  generalize s.hw = h at *
  exact Hw.outCommand_ok hk

theorem execPkeyPulseEnd_ok {i : Fin 2} {s : State} (hk : s.hw.Ok) : ∃ h, execPkeyPulseEnd i s = .next ⟨h, s.pending⟩ ∧ h.Ok := by
  refine ⟨_, rfl, ?_⟩
  simp only
  generalize s.hw = h at *
  exact Hw.pulseEnd_ok hk

theorem execPkeyProofTimeout_ok {k : Fin 4} {s : State} (hk : s.hw.Ok) : ∃ h, execPkeyProofTimeout k s = .next ⟨h, s.pending⟩ ∧ h.Ok := by
  refine ⟨_, rfl, ?_⟩
  simp only
  generalize s.hw = h at *
  exact Hw.proofTimeout_ok hk

theorem execPkeyCmdUnlock_ok {k : Fin 4} {s : State} (hk : s.hw.Ok) : ∃ h, execPkeyCmdUnlock k s = .next ⟨h, s.pending⟩ ∧ h.Ok := by
  refine ⟨_, rfl, ?_⟩
  simp only
  generalize s.hw = h at *
  exact Hw.cmdUnlock_ok hk

theorem execBondDelete_ok {link : Fin 10} {v : BitVec 8} {s : State} (hk : s.hw.Ok) : ∃ h, execBondDelete link v s = .next ⟨h, s.pending⟩ ∧ h.Ok := by
  refine ⟨_, rfl, ?_⟩
  simp only
  generalize s.hw = h at *
  refine Hw.Ok.ite (fun _ => ?_) (fun _ => ?_)
  · exact Hw.bondDelete_ok hk
  · exact hk

theorem execCsProcedureResult_ok {k : Fin 4} {radio : Bool} {tones : List (Nat × Int)} {rtts : List Int} {s : State} (hk : s.hw.Ok) : ∃ h, execCsProcedureResult k radio tones rtts s = .next ⟨h, s.pending⟩ ∧ h.Ok := by
  refine ⟨_, rfl, ?_⟩
  simp only
  generalize s.hw = h at *
  exact Hw.csDone_ok hk

theorem execAccessFrameReceived_ok {n : Fin 2} {s : State} (hk : s.hw.Ok) : ∃ h, execAccessFrameReceived n s = .next ⟨h, s.pending⟩ ∧ h.Ok := by
  refine ⟨_, rfl, ?_⟩
  simp only
  generalize s.hw = h at *
  exact Hw.accessFrame_ok hk

theorem execPkeyToken_ok {k : Fin 4} {addr : BitVec 56} {enc : Bool} {msg : List Nat} {s : State} (hk : s.hw.Ok) : ∃ h, execPkeyToken k addr enc msg s = .next ⟨h, s.pending⟩ ∧ h.Ok := by
  refine ⟨_, rfl, ?_⟩
  simp only
  generalize s.hw = h at *
  exact Hw.pkeyToken_ok hk

theorem execPkeyProof_ok {k : Fin 4} {sig : List Nat} {s : State} (hk : s.hw.Ok) : ∃ h, execPkeyProof k sig s = .next ⟨h, s.pending⟩ ∧ h.Ok := by
  refine ⟨_, rfl, ?_⟩
  simp only
  generalize s.hw = h at *
  exact Hw.pkeyProof_ok hk

theorem execPkeyConnectionEnd_ok {k : Fin 4} {s : State} (hk : s.hw.Ok) : ∃ h, execPkeyConnectionEnd k s = .next ⟨h, s.pending⟩ ∧ h.Ok := by
  refine ⟨_, rfl, ?_⟩
  simp only
  generalize s.hw = h at *
  exact Hw.connEnd_ok hk

theorem execPkeyBarExpiry_ok {addr : BitVec 56} {s : State} (hk : s.hw.Ok) : ∃ h, execPkeyBarExpiry addr s = .next ⟨h, s.pending⟩ ∧ h.Ok := by
  refine ⟨_, rfl, ?_⟩
  simp only
  generalize s.hw = h at *
  exact Hw.barExpiry_ok hk

theorem execRemoteCmd_ok {link : Fin 10} {v : BitVec 8} {s : State} (hk : s.hw.Ok) : ∃ h, execRemoteCmd link v s = .next ⟨h, s.pending⟩ ∧ h.Ok := by
  refine ⟨_, rfl, ?_⟩
  simp only
  generalize s.hw = h at *
  refine Hw.Ok.ite (fun _ => ?_) (fun _ => ?_)
  · exact Hw.remote_ok hk
  · exact hk

theorem execAdvertisingEvent_ok {s : State} (hk : s.hw.Ok) : ∃ h, execAdvertisingEvent s = .next ⟨h, s.pending⟩ ∧ h.Ok := by
  refine ⟨_, rfl, ?_⟩
  simp only
  generalize s.hw = h at *
  exact Hw.advertise_ok hk

end Sys2Proof.Machine
end

