-- ==== Sys2Proof/Laws/OkPortCmds.lean ====
section
/-! SUPPORT. Every command of Machine/PortCmds.lean answers a next state and keeps the invariant of the part. -/

set_option Elab.async false

namespace Sys2Proof.Machine

theorem execStopDeclared_ok {n : Fin 4} {xs : List (Nat × Nat)} {s : State} (hk : s.hw.Ok) : ∃ h, execStopDeclared n xs s = .next ⟨h, s.pending⟩ ∧ h.Ok := by
  refine ⟨_, rfl, ?_⟩
  simp only
  generalize s.hw = h at *
  exact Hw.stopDeclared_ok hk

theorem execMonitorWindowEnd_ok {xs : List (List (Nat × Nat))} {s : State} (hk : s.hw.Ok) : ∃ h, execMonitorWindowEnd xs s = .next ⟨h, s.pending⟩ ∧ h.Ok := by
  refine ⟨_, rfl, ?_⟩
  simp only
  generalize s.hw = h at *
  exact Hw.windowEnd_ok hk

theorem execThresholdUpdate_ok {n : Fin 4} {s : State} (hk : s.hw.Ok) : ∃ h, execThresholdUpdate n s = .next ⟨h, s.pending⟩ ∧ h.Ok := by
  refine ⟨_, rfl, ?_⟩
  simp only
  generalize s.hw = h at *
  exact Hw.thresholdUpdate_ok hk

theorem execTspiCmd_ok {v : BitVec 32} {s : State} (hk : s.hw.Ok) : ∃ h, execTspiCmd v s = .next ⟨h, s.pending⟩ ∧ h.Ok := by
  refine ⟨_, rfl, ?_⟩
  simp only
  generalize s.hw = h at *
  exact Hw.tspiCmd_ok hk

theorem execSpCntLoRead_ok {n : Fin 4} {s : State} (hk : s.hw.Ok) : ∃ h, execSpCntLoRead n s = .next ⟨h, s.pending⟩ ∧ h.Ok := by
  refine ⟨_, rfl, ?_⟩
  simp only
  generalize s.hw = h at *
  exact Hw.readCount_ok hk

theorem execPortStop_ok {v : BitVec 32} {s : State} (hk : s.hw.Ok) : ∃ h, execPortStop v s = .next ⟨h, s.pending⟩ ∧ h.Ok := by
  refine ⟨_, rfl, ?_⟩
  simp only
  generalize s.hw = h at *
  exact Hw.sportCtrl_ok hk

theorem execDiscontinuity_ok {n : Fin 4} {s : State} (hk : s.hw.Ok) : ∃ h, execDiscontinuity n s = .next ⟨h, s.pending⟩ ∧ h.Ok := by
  refine ⟨_, rfl, ?_⟩
  simp only
  generalize s.hw = h at *
  exact Hw.discontinuity_ok hk

theorem execPortResume_ok {n : Fin 4} {s : State} (hk : s.hw.Ok) : ∃ h, execPortResume n s = .next ⟨h, s.pending⟩ ∧ h.Ok := by
  refine ⟨_, rfl, ?_⟩
  simp only
  generalize s.hw = h at *
  exact Hw.portResume_ok hk

theorem execNotchDepthUpdate_ok {n : Fin 4} {m : Fin 2} {s : State} (hk : s.hw.Ok) : ∃ h, execNotchDepthUpdate n m s = .next ⟨h, s.pending⟩ ∧ h.Ok := by
  refine ⟨_, rfl, ?_⟩
  simp only
  generalize s.hw = h at *
  exact Hw.notchDepthUpdate_ok hk

theorem execCoilArm_ok {v : BitVec 32} {s : State} (hk : s.hw.Ok) : ∃ h, execCoilArm v s = .next ⟨h, s.pending⟩ ∧ h.Ok := by
  refine ⟨_, rfl, ?_⟩
  simp only
  generalize s.hw = h at *
  exact Hw.coilCtrl_ok hk

theorem execCoilAbort_ok {v : BitVec 32} {s : State} (hk : s.hw.Ok) : ∃ h, execCoilAbort v s = .next ⟨h, s.pending⟩ ∧ h.Ok := by
  refine ⟨_, rfl, ?_⟩
  simp only
  generalize s.hw = h at *
  exact Hw.coilCtrl_ok hk

theorem execNotchConfigApply_ok {n : Fin 4} {m : Fin 2} {s : State} (hk : s.hw.Ok) : ∃ h, execNotchConfigApply n m s = .next ⟨h, s.pending⟩ ∧ h.Ok := by
  refine ⟨_, rfl, ?_⟩
  simp only
  generalize s.hw = h at *
  exact Hw.notchBoundary_ok hk

theorem execNotchRelease_ok {n : Fin 4} {m : Fin 2} {s : State} (hk : s.hw.Ok) : ∃ h, execNotchRelease n m s = .next ⟨h, s.pending⟩ ∧ h.Ok := by
  refine ⟨_, rfl, ?_⟩
  simp only
  generalize s.hw = h at *
  exact Hw.notchRelease_ok hk

theorem execGainControlTick_ok {s : State} (hk : s.hw.Ok) : ∃ h, execGainControlTick s = .next ⟨h, s.pending⟩ ∧ h.Ok := by
  refine ⟨_, rfl, ?_⟩
  simp only
  generalize s.hw = h at *
  exact Hw.gainTick_ok hk

theorem execPortRun_ok {n : Fin 4} {iq : Nat × Nat} {s : State} (hk : s.hw.Ok) : ∃ h, execPortRun n iq s = .next ⟨h, s.pending⟩ ∧ h.Ok := by
  refine ⟨_, rfl, ?_⟩
  simp only
  generalize s.hw = h at *
  exact Hw.portRuns_ok hk

theorem execPortStart_ok {v : BitVec 32} {s : State} (hk : s.hw.Ok) : ∃ h, execPortStart v s = .next ⟨h, s.pending⟩ ∧ h.Ok := by
  refine ⟨_, rfl, ?_⟩
  simp only
  generalize s.hw = h at *
  exact Hw.sportCtrl_ok hk

theorem execSspiTransactionDone_ok {rx : List (BitVec 8)} {s : State} (hk : s.hw.Ok) : ∃ h, execSspiTransactionDone rx s = .next ⟨h, s.pending⟩ ∧ h.Ok := by
  refine ⟨_, rfl, ?_⟩
  simp only
  generalize s.hw = h at *
  exact Hw.sspiDone_ok hk

theorem execRingBlockWritten_ok {n : Fin 4} {xs : List (Nat × Nat)} {s : State} (hk : s.hw.Ok) : ∃ h, execRingBlockWritten n xs s = .next ⟨h, s.pending⟩ ∧ h.Ok := by
  refine ⟨_, rfl, ?_⟩
  simp only
  generalize s.hw = h at *
  exact Hw.blockWritten_ok hk

theorem execTspiRxRead_ok {s : State} (hk : s.hw.Ok) : ∃ h, execTspiRxRead s = .next ⟨h, s.pending⟩ ∧ h.Ok := by
  refine ⟨_, rfl, ?_⟩
  simp only
  generalize s.hw = h at *
  exact Hw.tspiRead_ok hk

theorem execSspiCmd_ok {v : BitVec 32} {s : State} (hk : s.hw.Ok) : ∃ h, execSspiCmd v s = .next ⟨h, s.pending⟩ ∧ h.Ok := by
  refine ⟨_, rfl, ?_⟩
  simp only
  generalize s.hw = h at *
  exact Hw.sspiCmd_ok hk

theorem execSspiDrdyEdge_ok {s : State} (hk : s.hw.Ok) : ∃ h, execSspiDrdyEdge s = .next ⟨h, s.pending⟩ ∧ h.Ok := by
  refine ⟨_, rfl, ?_⟩
  simp only
  generalize s.hw = h at *
  exact Hw.sspiDrdy_ok hk

theorem execRingWriteResume_ok {n : Fin 4} {s : State} (hk : s.hw.Ok) : ∃ h, execRingWriteResume n s = .next ⟨h, s.pending⟩ ∧ h.Ok := by
  refine ⟨_, rfl, ?_⟩
  simp only
  generalize s.hw = h at *
  exact Hw.ringResume_ok hk

theorem execNotchAdapt_ok {n : Fin 4} {m : Fin 2} {xs : List (Nat × Nat)} {s : State} (hk : s.hw.Ok) : ∃ h, execNotchAdapt n m xs s = .next ⟨h, s.pending⟩ ∧ h.Ok := by
  refine ⟨_, rfl, ?_⟩
  simp only
  generalize s.hw = h at *
  exact Hw.notchSamples_ok hk

theorem execCoilRelease_ok {v : BitVec 32} {s : State} (hk : s.hw.Ok) : ∃ h, execCoilRelease v s = .next ⟨h, s.pending⟩ ∧ h.Ok := by
  refine ⟨_, rfl, ?_⟩
  simp only
  generalize s.hw = h at *
  exact Hw.coilCtrl_ok hk

theorem execTspiTransactionDone_ok {rx : BitVec 24} {s : State} (hk : s.hw.Ok) : ∃ h, execTspiTransactionDone rx s = .next ⟨h, s.pending⟩ ∧ h.Ok := by
  refine ⟨_, rfl, ?_⟩
  simp only
  generalize s.hw = h at *
  exact Hw.tspiDone_ok hk

theorem execSpectrumPublish_ok {n : Fin 4} {s : State} (hk : s.hw.Ok) : ∃ h, execSpectrumPublish n s = .next ⟨h, s.pending⟩ ∧ h.Ok := by
  refine ⟨_, rfl, ?_⟩
  simp only
  generalize s.hw = h at *
  exact Hw.publishSpectrum_ok hk

theorem execSspiRxRead_ok {s : State} (hk : s.hw.Ok) : ∃ h, execSspiRxRead s = .next ⟨h, s.pending⟩ ∧ h.Ok := by
  refine ⟨_, rfl, ?_⟩
  simp only
  generalize s.hw = h at *
  exact Hw.sspiRead_ok hk

theorem execSspiDrdyRead_ok {s : State} (hk : s.hw.Ok) : ∃ h, execSspiDrdyRead s = .next ⟨h, s.pending⟩ ∧ h.Ok := by
  refine ⟨_, rfl, ?_⟩
  simp only
  generalize s.hw = h at *
  exact Hw.sspiStamp_ok hk

theorem execCoilCaptureStart_ok {n : Fin 4} {s : State} (hk : s.hw.Ok) : ∃ h, execCoilCaptureStart n s = .next ⟨h, s.pending⟩ ∧ h.Ok := by
  refine ⟨_, rfl, ?_⟩
  simp only
  generalize s.hw = h at *
  exact Hw.coilStart_ok hk

end Sys2Proof.Machine
end

