-- ==== Sys2Proof/Laws/OkPowerCmds.lean ====
section
/-! SUPPORT. Every command of Machine/PowerCmds.lean answers a next state and keeps the invariant of the part. -/

set_option Elab.async false

namespace Sys2Proof.Machine

theorem execDomainWake_ok {d : Fin 4} {s : State} (hk : s.hw.Ok) : ∃ h, execDomainWake d s = .next ⟨h, s.pending⟩ ∧ h.Ok := by
  refine ⟨_, rfl, ?_⟩
  simp only
  generalize s.hw = h at *
  exact Hw.domainWake_ok hk

theorem execPllUnlock_ok {s : State} (hk : s.hw.Ok) : ∃ h, execPllUnlock s = .next ⟨h, s.pending⟩ ∧ h.Ok := by
  refine ⟨_, rfl, ?_⟩
  simp only
  generalize s.hw = h at *
  refine Hw.Ok.ite (fun _ => ?_) (fun _ => ?_)
  · exact Hw.coreReset_ok hk
  · exact hk

theorem execDomainReady_ok {d : Fin 4} {s : State} (hk : s.hw.Ok) : ∃ h, execDomainReady d s = .next ⟨h, s.pending⟩ ∧ h.Ok := by
  refine ⟨_, rfl, ?_⟩
  simp only
  generalize s.hw = h at *
  exact Hw.resume_ok (Hw.domainReady_ok hk)

theorem execBrownout_ok {s : State} (hk : s.hw.Ok) : ∃ h, execBrownout s = .next ⟨h, s.pending⟩ ∧ h.Ok := by
  refine ⟨_, rfl, ?_⟩
  simp only
  generalize s.hw = h at *
  refine Hw.Ok.ite (fun _ => ?_) (fun _ => ?_)
  · exact hk
  · exact Hw.vinReset_ok hk

theorem execPlTargetWrite_ok {v : BitVec 32} {s : State} (hk : s.hw.Ok) : ∃ h, execPlTargetWrite v s = .next ⟨h, s.pending⟩ ∧ h.Ok := by
  refine ⟨_, rfl, ?_⟩
  simp only
  generalize s.hw = h at *
  exact Hw.plTarget_ok hk

theorem execResetPin_ok {s : State} (hk : s.hw.Ok) : ∃ h, execResetPin s = .next ⟨h, s.pending⟩ ∧ h.Ok := by
  refine ⟨_, rfl, ?_⟩
  simp only
  generalize s.hw = h at *
  refine Hw.Ok.ite (fun _ => ?_) (fun _ => ?_)
  · exact hk
  · exact Hw.coreReset_ok hk

theorem execWatchdogTimeout_ok {s : State} (hk : s.hw.Ok) : ∃ h, execWatchdogTimeout s = .next ⟨h, s.pending⟩ ∧ h.Ok := by
  refine ⟨_, rfl, ?_⟩
  simp only
  generalize s.hw = h at *
  refine Hw.Ok.ite (fun _ => ?_) (fun _ => ?_)
  · exact Hw.coreReset_ok hk
  · exact hk

theorem execTestenRelease_ok {s : State} (hk : s.hw.Ok) : ∃ h, execTestenRelease s = .next ⟨h, s.pending⟩ ∧ h.Ok := by
  refine ⟨_, rfl, ?_⟩
  simp only
  generalize s.hw = h at *
  exact Hw.testenRelease_ok hk

theorem execBackupEntry_ok {s : State} (hk : s.hw.Ok) : ∃ h, execBackupEntry s = .next ⟨h, s.pending⟩ ∧ h.Ok := by
  refine ⟨_, rfl, ?_⟩
  simp only
  generalize s.hw = h at *
  exact Hw.backupEnter_ok hk

theorem execSoftwareReset_ok {v : BitVec 32} {s : State} (hk : s.hw.Ok) : ∃ h, execSoftwareReset v s = .next ⟨h, s.pending⟩ ∧ h.Ok := by
  refine ⟨_, rfl, ?_⟩
  simp only
  generalize s.hw = h at *
  exact Hw.sysRst_ok hk

theorem execWakeSourceQualified_ok {src : Fin 17} {saveOk : Bool} {lost : List (Nat × Nat)} {facts : HotFacts} {wipeBad : Nat} {s : State} (hk : s.hw.Ok) : ∃ h, execWakeSourceQualified src saveOk lost facts wipeBad s = .next ⟨h, s.pending⟩ ∧ h.Ok := by
  refine ⟨_, rfl, ?_⟩
  simp only
  generalize s.hw = h at *
  exact Hw.wakeSource_ok hk

theorem execColdBoot_ok {f : BootFacts} {s : State} (hk : s.hw.Ok) : ∃ h, execColdBoot f s = .next ⟨h, s.pending⟩ ∧ h.Ok := by
  refine ⟨_, rfl, ?_⟩
  simp only
  generalize s.hw = h at *
  exact Hw.coldBoot_ok hk

theorem execSlackRequest_ok {v : BitVec 32} {ap : Nat} {held : List Nat} {s : State} (hk : s.hw.Ok) : ∃ h, execSlackRequest v ap held s = .next ⟨h, s.pending⟩ ∧ h.Ok := by
  refine ⟨_, rfl, ?_⟩
  simp only
  generalize s.hw = h at *
  refine Hw.Ok.ite (fun _ => ?_) (fun _ => ?_)
  · exact Hw.Ok.touches hk set_resp_touches
  · exact Hw.slackRequest_ok hk

theorem execVinLoss_ok {s : State} (hk : s.hw.Ok) : ∃ h, execVinLoss s = .next ⟨h, s.pending⟩ ∧ h.Ok := by
  refine ⟨_, rfl, ?_⟩
  simp only
  generalize s.hw = h at *
  exact Hw.vinReset_ok hk

theorem execRefLost_ok {s : State} (hk : s.hw.Ok) : ∃ h, execRefLost s = .next ⟨h, s.pending⟩ ∧ h.Ok := by
  refine ⟨_, rfl, ?_⟩
  simp only
  generalize s.hw = h at *
  refine Hw.Ok.ite (fun _ => ?_) (fun _ => ?_)
  · exact Hw.coreReset_ok hk
  · exact hk

theorem execBootRomHeartbeat_ok {s : State} (hk : s.hw.Ok) : ∃ h, execBootRomHeartbeat s = .next ⟨h, s.pending⟩ ∧ h.Ok := by
  refine ⟨_, rfl, ?_⟩
  simp only
  generalize s.hw = h at *
  exact Hw.bootHeartbeat_ok hk

theorem execWatchdogKick_ok {v : BitVec 32} {s : State} (hk : s.hw.Ok) : ∃ h, execWatchdogKick v s = .next ⟨h, s.pending⟩ ∧ h.Ok := by
  refine ⟨_, rfl, ?_⟩
  simp only
  generalize s.hw = h at *
  exact Hw.wdKick_ok hk

theorem execStopExit_ok {s : State} (hk : s.hw.Ok) : ∃ h, execStopExit s = .next ⟨h, s.pending⟩ ∧ h.Ok := by
  refine ⟨_, rfl, ?_⟩
  simp only
  generalize s.hw = h at *
  exact Hw.stopExit_ok hk

theorem execPlChangeComplete_ok {s : State} (hk : s.hw.Ok) : ∃ h, execPlChangeComplete s = .next ⟨h, s.pending⟩ ∧ h.Ok := by
  refine ⟨_, rfl, ?_⟩
  simp only
  generalize s.hw = h at *
  exact Hw.plDone_ok hk

theorem execStopRequest_ok {v : BitVec 32} {s : State} (hk : s.hw.Ok) : ∃ h, execStopRequest v s = .next ⟨h, s.pending⟩ ∧ h.Ok := by
  refine ⟨_, rfl, ?_⟩
  simp only
  generalize s.hw = h at *
  exact Hw.stopRequest_ok hk

theorem execPowerOnReset_ok {s : State} (hk : s.hw.Ok) : ∃ h, execPowerOnReset s = .next ⟨h, s.pending⟩ ∧ h.Ok := by
  refine ⟨_, rfl, ?_⟩
  simp only
  generalize s.hw = h at *
  exact Hw.powerOn_ok hk

end Sys2Proof.Machine
end

