-- ==== Sys2Proof/Laws/OkRadioCmds.lean ====
section
/-! SUPPORT. Every command of Machine/RadioCmds.lean answers a next state and keeps the invariant of the part. -/

set_option Elab.async false

namespace Sys2Proof.Machine

theorem execRadioTx_ok {delay : Nat} {s : State} (hk : s.hw.Ok) : ∃ h, execRadioTx delay s = .next ⟨h, s.pending⟩ ∧ h.Ok := by
  refine ⟨_, rfl, ?_⟩
  simp only
  generalize s.hw = h at *
  exact Hw.radioTx_ok hk

theorem execRadioCmdgo_ok {v : BitVec 32} {s : State} (hk : s.hw.Ok) : ∃ h, execRadioCmdgo v s = .next ⟨h, s.pending⟩ ∧ h.Ok := by
  refine ⟨_, rfl, ?_⟩
  simp only
  generalize s.hw = h at *
  exact Hw.radioGo_ok hk

theorem execRadioRxTimeout_ok {s : State} (hk : s.hw.Ok) : ∃ h, execRadioRxTimeout s = .next ⟨h, s.pending⟩ ∧ h.Ok := by
  refine ⟨_, rfl, ?_⟩
  simp only
  generalize s.hw = h at *
  exact Hw.radioRxTimeout_ok hk

theorem execCoexRequest_ok {s : State} (hk : s.hw.Ok) : ∃ h, execCoexRequest s = .next ⟨h, s.pending⟩ ∧ h.Ok := by
  refine ⟨_, rfl, ?_⟩
  simp only
  generalize s.hw = h at *
  exact Hw.coexRequest_ok hk

theorem execRadioDoneRead_ok {s : State} (hk : s.hw.Ok) : ∃ h, execRadioDoneRead s = .next ⟨h, s.pending⟩ ∧ h.Ok := by
  refine ⟨_, rfl, ?_⟩
  simp only
  generalize s.hw = h at *
  exact Hw.radioDoneRead_ok hk

theorem execRadioCs_ok {meas : List (Bool × List Nat)} {rssi : BitVec 8} {s : State} (hk : s.hw.Ok) : ∃ h, execRadioCs meas rssi s = .next ⟨h, s.pending⟩ ∧ h.Ok := by
  refine ⟨_, rfl, ?_⟩
  simp only
  generalize s.hw = h at *
  exact Hw.radioCs_ok hk

theorem execCoexGrantSample_ok {active : Bool} {s : State} (hk : s.hw.Ok) : ∃ h, execCoexGrantSample active s = .next ⟨h, s.pending⟩ ∧ h.Ok := by
  refine ⟨_, rfl, ?_⟩
  simp only
  generalize s.hw = h at *
  exact Hw.coexSample_ok hk

theorem execDutyWindowAdvance_ok {s : State} (hk : s.hw.Ok) : ∃ h, execDutyWindowAdvance s = .next ⟨h, s.pending⟩ ∧ h.Ok := by
  refine ⟨_, rfl, ?_⟩
  simp only
  generalize s.hw = h at *
  exact Hw.dutyAdvance_ok hk

theorem execRadioHoldTimeout_ok {s : State} (hk : s.hw.Ok) : ∃ h, execRadioHoldTimeout s = .next ⟨h, s.pending⟩ ∧ h.Ok := by
  refine ⟨_, rfl, ?_⟩
  simp only
  generalize s.hw = h at *
  exact Hw.holdTimeoutRadio_ok hk

theorem execCoexGrantLost_ok {meas : List (Bool × List Nat)} {rssi : BitVec 8} {s : State} (hk : s.hw.Ok) : ∃ h, execCoexGrantLost meas rssi s = .next ⟨h, s.pending⟩ ∧ h.Ok := by
  refine ⟨_, rfl, ?_⟩
  simp only
  generalize s.hw = h at *
  exact Hw.coexLost_ok hk

theorem execRadioOff_ok {s : State} (hk : s.hw.Ok) : ∃ h, execRadioOff s = .next ⟨h, s.pending⟩ ∧ h.Ok := by
  refine ⟨_, rfl, ?_⟩
  simp only
  generalize s.hw = h at *
  exact Hw.radioMove_ok hk

theorem execRadioPaCal_ok {ts4 : Int} {s : State} (hk : s.hw.Ok) : ∃ h, execRadioPaCal ts4 s = .next ⟨h, s.pending⟩ ∧ h.Ok := by
  refine ⟨_, rfl, ?_⟩
  simp only
  generalize s.hw = h at *
  exact Hw.paCal_ok hk

theorem execRadioFlush_ok {v : BitVec 32} {s : State} (hk : s.hw.Ok) : ∃ h, execRadioFlush v s = .next ⟨h, s.pending⟩ ∧ h.Ok := by
  refine ⟨_, rfl, ?_⟩
  simp only
  generalize s.hw = h at *
  exact Hw.radioCtrl_ok hk

theorem execRadioHoldEvent_ok {k : Fin 4} {reply : Option (Bool × Bool × Bool)} {s : State} (hk : s.hw.Ok) : ∃ h, execRadioHoldEvent k reply s = .next ⟨h, s.pending⟩ ∧ h.Ok := by
  refine ⟨_, rfl, ?_⟩
  simp only
  generalize s.hw = h at *
  exact Hw.holdEvent_ok hk

theorem execHoldRel_ok {v : BitVec 32} {s : State} (hk : s.hw.Ok) : ∃ h, execHoldRel v s = .next ⟨h, s.pending⟩ ∧ h.Ok := by
  refine ⟨_, rfl, ?_⟩
  simp only
  generalize s.hw = h at *
  exact Hw.radioCtrl_ok hk

theorem execRadioPacketReceived_ok {pdu : List Nat} {crcOk : Bool} {rssi : BitVec 8} {s : State} (hk : s.hw.Ok) : ∃ h, execRadioPacketReceived pdu crcOk rssi s = .next ⟨h, s.pending⟩ ∧ h.Ok := by
  refine ⟨_, rfl, ?_⟩
  simp only
  generalize s.hw = h at *
  exact Hw.radioPacket_ok hk

theorem execSynthTimeout_ok {s : State} (hk : s.hw.Ok) : ∃ h, execSynthTimeout s = .next ⟨h, s.pending⟩ ∧ h.Ok := by
  refine ⟨_, rfl, ?_⟩
  simp only
  generalize s.hw = h at *
  exact Hw.synthTimeout_ok hk

theorem execRadioRx_ok {delay : Nat} {s : State} (hk : s.hw.Ok) : ∃ h, execRadioRx delay s = .next ⟨h, s.pending⟩ ∧ h.Ok := by
  refine ⟨_, rfl, ?_⟩
  simp only
  generalize s.hw = h at *
  exact Hw.radioRx_ok hk

theorem execRadioFuseBlow_ok {link : Fin 10} {v : BitVec 32} {s : State} (hk : s.hw.Ok) : ∃ h, execRadioFuseBlow link v s = .next ⟨h, s.pending⟩ ∧ h.Ok := by
  refine ⟨_, rfl, ?_⟩
  simp only
  generalize s.hw = h at *
  exact Hw.fuseBlow_ok hk

theorem execRadioFuseBlowDone_ok {took : Nat} {s : State} (hk : s.hw.Ok) : ∃ h, execRadioFuseBlowDone took s = .next ⟨h, s.pending⟩ ∧ h.Ok := by
  refine ⟨_, rfl, ?_⟩
  simp only
  generalize s.hw = h at *
  exact Hw.fuseBlown_ok hk

theorem execRadioIdle_ok {s : State} (hk : s.hw.Ok) : ∃ h, execRadioIdle s = .next ⟨h, s.pending⟩ ∧ h.Ok := by
  refine ⟨_, rfl, ?_⟩
  simp only
  generalize s.hw = h at *
  exact Hw.radioMove_ok hk

end Sys2Proof.Machine
end

