-- ==== Sys2Proof/Laws/OkRtcCmds.lean ====
section
/-! SUPPORT. Every command of Machine/RtcCmds.lean answers a next state and keeps the invariant of the part. -/

set_option Elab.async false

namespace Sys2Proof.Machine

theorem execRtcQueuedWriteApply_ok {pre : Fin 32768} {s : State} (hk : s.hw.Ok) : ∃ h, execRtcQueuedWriteApply pre s = .next ⟨h, s.pending⟩ ∧ h.Ok := by
  refine ⟨_, rfl, ?_⟩
  simp only
  generalize s.hw = h at *
  exact Hw.queueEdge_ok hk

theorem execRtcTime0Read_ok {s : State} (hk : s.hw.Ok) : ∃ h, execRtcTime0Read s = .next ⟨h, s.pending⟩ ∧ h.Ok := by
  refine ⟨_, rfl, ?_⟩
  simp only
  generalize s.hw = h at *
  exact Hw.readTime0_ok hk

theorem execRtcAdj_ok {pre : Fin 32768} {s : State} (hk : s.hw.Ok) : ∃ h, execRtcAdj pre s = .next ⟨h, s.pending⟩ ∧ h.Ok := by
  refine ⟨_, rfl, ?_⟩
  simp only
  generalize s.hw = h at *
  exact Hw.queueEdge_ok hk

theorem execRtcCdStop_ok {pre : Fin 32768} {s : State} (hk : s.hw.Ok) : ∃ h, execRtcCdStop pre s = .next ⟨h, s.pending⟩ ∧ h.Ok := by
  refine ⟨_, rfl, ?_⟩
  simp only
  generalize s.hw = h at *
  exact Hw.queueEdge_ok hk

theorem execRtcSecond_ok {s : State} (hk : s.hw.Ok) : ∃ h, execRtcSecond s = .next ⟨h, s.pending⟩ ∧ h.Ok := by
  refine ⟨_, rfl, ?_⟩
  simp only
  generalize s.hw = h at *
  exact Hw.rtcSecond_ok hk

theorem execRtcCommit_ok {pre : Fin 32768} {s : State} (hk : s.hw.Ok) : ∃ h, execRtcCommit pre s = .next ⟨h, s.pending⟩ ∧ h.Ok := by
  refine ⟨_, rfl, ?_⟩
  simp only
  generalize s.hw = h at *
  exact Hw.queueEdge_ok hk

theorem execRtcCapture_ok {pre : Fin 32768} {s : State} (hk : s.hw.Ok) : ∃ h, execRtcCapture pre s = .next ⟨h, s.pending⟩ ∧ h.Ok := by
  refine ⟨_, rfl, ?_⟩
  simp only
  generalize s.hw = h at *
  exact Hw.queueEdge_ok hk

theorem execVbkpLow_ok {s : State} (hk : s.hw.Ok) : ∃ h, execVbkpLow s = .next ⟨h, s.pending⟩ ∧ h.Ok := by
  refine ⟨_, rfl, ?_⟩
  simp only
  generalize s.hw = h at *
  refine Hw.Ok.ite (fun _ => ?_) (fun _ => ?_)
  · exact Hw.oscStopped_ok hk
  · exact hk

theorem execAnextRecompute_ok {s : State} (hk : s.hw.Ok) : ∃ h, execAnextRecompute s = .next ⟨h, s.pending⟩ ∧ h.Ok := by
  refine ⟨_, rfl, ?_⟩
  simp only
  generalize s.hw = h at *
  exact Hw.anextRecompute_ok hk

theorem execRtcActlWrite_ok {pre : Fin 32768} {s : State} (hk : s.hw.Ok) : ∃ h, execRtcActlWrite pre s = .next ⟨h, s.pending⟩ ∧ h.Ok := by
  refine ⟨_, rfl, ?_⟩
  simp only
  generalize s.hw = h at *
  exact Hw.queueEdge_ok hk

theorem execRtcCountdownExpiry_ok {s : State} (hk : s.hw.Ok) : ∃ h, execRtcCountdownExpiry s = .next ⟨h, s.pending⟩ ∧ h.Ok := by
  refine ⟨_, rfl, ?_⟩
  simp only
  generalize s.hw = h at *
  exact Hw.countdownExpiry_ok hk

theorem execEvPop_ok {n : Fin 4} {pre : Fin 32768} {s : State} (hk : s.hw.Ok) : ∃ h, execEvPop n pre s = .next ⟨h, s.pending⟩ ∧ h.Ok := by
  refine ⟨_, rfl, ?_⟩
  simp only
  generalize s.hw = h at *
  exact Hw.queueEdge_ok hk

theorem execRtcCdStart_ok {pre : Fin 32768} {s : State} (hk : s.hw.Ok) : ∃ h, execRtcCdStart pre s = .next ⟨h, s.pending⟩ ∧ h.Ok := by
  refine ⟨_, rfl, ?_⟩
  simp only
  generalize s.hw = h at *
  exact Hw.queueEdge_ok hk

theorem execOscStopDetected_ok {s : State} (hk : s.hw.Ok) : ∃ h, execOscStopDetected s = .next ⟨h, s.pending⟩ ∧ h.Ok := by
  refine ⟨_, rfl, ?_⟩
  simp only
  generalize s.hw = h at *
  exact Hw.oscStopped_ok hk

theorem execRtcDiscipline_ok {ofs : Int} {utc : Nat} {drift : Int} {s : State} (hk : s.hw.Ok) : ∃ h, execRtcDiscipline ofs utc drift s = .next ⟨h, s.pending⟩ ∧ h.Ok := by
  refine ⟨_, rfl, ?_⟩
  simp only
  generalize s.hw = h at *
  exact Hw.rtcDiscipline_ok hk

theorem execEventInputQualified_ok {n : Fin 4} {active : Bool} {pre : Fin 32768} {s : State} (hk : s.hw.Ok) : ∃ h, execEventInputQualified n active pre s = .next ⟨h, s.pending⟩ ∧ h.Ok := by
  refine ⟨_, rfl, ?_⟩
  generalize s.hw = h at *
  exact Hw.tamperWipe_ok (Hw.eventQualified_ok hk)

end Sys2Proof.Machine
end

