-- ==== Sys2Proof/Laws/OkSerialCmds.lean ====
section
/-! SUPPORT. Every command of Machine/SerialCmds.lean answers a next state and keeps the invariant of the part. -/

set_option Elab.async false

namespace Sys2Proof.Machine

theorem execSlowExit_ok {n : Fin 2} {v : BitVec 32} {s : State} (hk : s.hw.Ok) : ∃ h, execSlowExit n v s = .next ⟨h, s.pending⟩ ∧ h.Ok := by
  refine ⟨_, rfl, ?_⟩
  simp only
  generalize s.hw = h at *
  exact Hw.uartSlow_ok hk

theorem execUartCtsAsserted_ok {n : Fin 2} {s : State} (hk : s.hw.Ok) : ∃ h, execUartCtsAsserted n s = .next ⟨h, s.pending⟩ ∧ h.Ok := by
  refine ⟨_, rfl, ?_⟩
  simp only
  generalize s.hw = h at *
  exact Hw.ctsLow_ok hk

theorem execUartDataWrite_ok {n : Fin 7} {v : BitVec 32} {s : State} (hk : s.hw.Ok) : ∃ h, execUartDataWrite n v s = .next ⟨h, s.pending⟩ ∧ h.Ok := by
  refine ⟨_, rfl, ?_⟩
  simp only
  generalize s.hw = h at *
  exact Hw.uartWrite_ok hk

theorem execDetach_ok {sid : BitVec 8} {s : State} (hk : s.hw.Ok) : ∃ h, execDetach sid s = .next ⟨h, s.pending⟩ ∧ h.Ok := by
  refine ⟨_, rfl, ?_⟩
  simp only
  generalize s.hw = h at *
  refine Hw.Ok.ite (fun _ => ?_) (fun _ => ?_)
  · exact Hw.lydDetach_ok hk
  · exact hk

theorem execLydSessionTimeout_ok {s : State} (hk : s.hw.Ok) : ∃ h, execLydSessionTimeout s = .next ⟨h, s.pending⟩ ∧ h.Ok := by
  refine ⟨_, rfl, ?_⟩
  simp only
  generalize s.hw = h at *
  exact Hw.lydTimeout_ok hk

theorem execKeep_ok {sid : BitVec 8} {s : State} (hk : s.hw.Ok) : ∃ h, execKeep sid s = .next ⟨h, s.pending⟩ ∧ h.Ok := by
  refine ⟨_, rfl, ?_⟩
  simp only
  generalize s.hw = h at *
  refine Hw.Ok.ite (fun _ => ?_) (fun _ => ?_)
  · exact Hw.lydKeep_ok hk
  · exact hk

theorem execUartTxFlush_ok {n : Fin 7} {v : BitVec 32} {s : State} (hk : s.hw.Ok) : ∃ h, execUartTxFlush n v s = .next ⟨h, s.pending⟩ ∧ h.Ok := by
  refine ⟨_, rfl, ?_⟩
  simp only
  generalize s.hw = h at *
  exact Hw.uartFifo_ok hk

theorem execLydRate_ok {sid : BitVec 8} {inc : BitVec 16} {mod : BitVec 16} {s : State} (hk : s.hw.Ok) : ∃ h, execLydRate sid inc mod s = .next ⟨h, s.pending⟩ ∧ h.Ok := by
  refine ⟨_, rfl, ?_⟩
  simp only
  generalize s.hw = h at *
  refine Hw.Ok.ite (fun _ => ?_) (fun _ => ?_)
  · exact Hw.lydRate_ok hk
  · exact hk

theorem execUartCharReceived_ok {n : Fin 7} {ticks : List Bool} {s : State} (hk : s.hw.Ok) : ∃ h, execUartCharReceived n ticks s = .next ⟨h, s.pending⟩ ∧ h.Ok := by
  refine ⟨_, rfl, ?_⟩
  simp only
  generalize s.hw = h at *
  exact Hw.uartReceived_ok hk

theorem execLydLineLow_ok {s : State} (hk : s.hw.Ok) : ∃ h, execLydLineLow s = .next ⟨h, s.pending⟩ ∧ h.Ok := by
  refine ⟨_, rfl, ?_⟩
  simp only
  generalize s.hw = h at *
  exact Hw.lydEnd_ok hk

theorem execLydRateTimeout_ok {s : State} (hk : s.hw.Ok) : ∃ h, execLydRateTimeout s = .next ⟨h, s.pending⟩ ∧ h.Ok := by
  refine ⟨_, rfl, ?_⟩
  simp only
  generalize s.hw = h at *
  exact Hw.lydRateTimeout_ok hk

theorem execUartBreakWrite_ok {n : Fin 7} {v : BitVec 32} {s : State} (hk : s.hw.Ok) : ∃ h, execUartBreakWrite n v s = .next ⟨h, s.pending⟩ ∧ h.Ok := by
  refine ⟨_, rfl, ?_⟩
  simp only
  generalize s.hw = h at *
  exact Hw.uartWrite_ok hk

theorem execUartDataRead_ok {n : Fin 7} {s : State} (hk : s.hw.Ok) : ∃ h, execUartDataRead n s = .next ⟨h, s.pending⟩ ∧ h.Ok := by
  refine ⟨_, rfl, ?_⟩
  simp only
  generalize s.hw = h at *
  exact Hw.uartRead_ok hk

theorem execUartGuardElapsed_ok {n : Fin 7} {s : State} (hk : s.hw.Ok) : ∃ h, execUartGuardElapsed n s = .next ⟨h, s.pending⟩ ∧ h.Ok := by
  refine ⟨_, rfl, ?_⟩
  simp only
  generalize s.hw = h at *
  exact Hw.guardElapsed_ok hk

theorem execUartIdleDetect_ok {n : Fin 7} {s : State} (hk : s.hw.Ok) : ∃ h, execUartIdleDetect n s = .next ⟨h, s.pending⟩ ∧ h.Ok := by
  refine ⟨_, rfl, ?_⟩
  simp only
  generalize s.hw = h at *
  exact Hw.uartIdle_ok hk

theorem execUartRxFlush_ok {n : Fin 7} {v : BitVec 32} {s : State} (hk : s.hw.Ok) : ∃ h, execUartRxFlush n v s = .next ⟨h, s.pending⟩ ∧ h.Ok := by
  refine ⟨_, rfl, ?_⟩
  simp only
  generalize s.hw = h at *
  exact Hw.uartFifo_ok hk

theorem execServiceRoleExpiry_ok {s : State} (hk : s.hw.Ok) : ∃ h, execServiceRoleExpiry s = .next ⟨h, s.pending⟩ ∧ h.Ok := by
  refine ⟨_, rfl, ?_⟩
  simp only
  generalize s.hw = h at *
  exact Hw.serviceExpiry_ok hk

theorem execUartRateWrite_ok {n : Fin 7} {fmt : Bool} {v : BitVec 32} {busy : Bool} {s : State} (hk : s.hw.Ok) : ∃ h, execUartRateWrite n fmt v busy s = .next ⟨h, s.pending⟩ ∧ h.Ok := by
  refine ⟨_, rfl, ?_⟩
  simp only
  generalize s.hw = h at *
  refine Hw.Ok.ite (fun _ => ?_) (fun _ => ?_)
  · exact hk
  · exact Hw.uartShadow_ok (Hw.sf_ok hk)

theorem execUartSlowChar_ok {n : Fin 2} {edges : List Bool} {s : State} (hk : s.hw.Ok) : ∃ h, execUartSlowChar n edges s = .next ⟨h, s.pending⟩ ∧ h.Ok := by
  refine ⟨_, rfl, ?_⟩
  simp only
  generalize s.hw = h at *
  exact Hw.slowChar_ok hk

theorem execUartCharSent_ok {n : Fin 7} {d : BitVec 9} {par : Bool} {stop : Bool} {noise : Bool} {cts : Bool} {s : State} (hk : s.hw.Ok) : ∃ h, execUartCharSent n d par stop noise cts s = .next ⟨h, s.pending⟩ ∧ h.Ok := by
  refine ⟨_, rfl, ?_⟩
  simp only
  generalize s.hw = h at *
  exact Hw.charSent_ok hk

theorem execAttach_ok {tool : BitVec 32} {s : State} (hk : s.hw.Ok) : ∃ h, execAttach tool s = .next ⟨h, s.pending⟩ ∧ h.Ok :=
  ⟨_, rfl, Hw.Ok.ite (fun _ => Hw.lydAttach_ok hk) (fun _ => hk)⟩

end Sys2Proof.Machine
end

