-- ==== Sys2Proof/Laws/OkSnapCmds.lean ====
section
/-! SUPPORT. Every command of Machine/SnapCmds.lean answers a next state and keeps the invariant of the part. -/

set_option Elab.async false

namespace Sys2Proof.Machine

theorem execHsSaveNow_ok {live : List Nat} {s : State} (hk : s.hw.Ok) : ∃ h, execHsSaveNow live s = .next ⟨h, s.pending⟩ ∧ h.Ok := by
  refine ⟨_, rfl, ?_⟩
  simp only
  generalize s.hw = h at *
  exact Hw.hsSaveNow_ok hk

theorem execCoilStreamTimeout_ok {s : State} (hk : s.hw.Ok) : ∃ h, execCoilStreamTimeout s = .next ⟨h, s.pending⟩ ∧ h.Ok := by
  refine ⟨_, rfl, ?_⟩
  simp only
  generalize s.hw = h at *
  exact Hw.coilStreamTimeout_ok hk

theorem execCoilReleaseObject_ok {l : Fin 10} {s : State} (hk : s.hw.Ok) : ∃ h, execCoilReleaseObject l s = .next ⟨h, s.pending⟩ ∧ h.Ok := by
  refine ⟨_, rfl, ?_⟩
  simp only
  generalize s.hw = h at *
  refine Hw.Ok.ite (fun _ => ?_) (fun _ => ?_)
  · exact Hw.coilReleaseObj_ok hk
  · exact hk

theorem execHsSave_ok {live : List Nat} {s : State} (hk : s.hw.Ok) : ∃ h, execHsSave live s = .next ⟨h, s.pending⟩ ∧ h.Ok := by
  refine ⟨_, rfl, ?_⟩
  simp only
  generalize s.hw = h at *
  exact Hw.hsSave_ok hk

theorem execSnapshotCycle_ok {what : SnapStep} {live : List Nat} {s : State} (hk : s.hw.Ok) : ∃ h, execSnapshotCycle what live s = .next ⟨h, s.pending⟩ ∧ h.Ok := by
  refine ⟨_, rfl, ?_⟩
  simp only
  generalize s.hw = h at *
  exact Hw.snapCycle_ok hk

end Sys2Proof.Machine
end

