-- ==== Sys2Proof/Laws/OkStrandCmds.lean ====
section
/-! SUPPORT. Every command of Machine/StrandCmds.lean answers a next state and keeps the invariant of the part. -/

set_option Elab.async false

namespace Sys2Proof.Machine

theorem execStagedBodyApply_ok {k : Fin 512} {s : State} (hk : s.hw.Ok) : ∃ h, execStagedBodyApply k s = .next ⟨h, s.pending⟩ ∧ h.Ok := by
  refine ⟨_, rfl, ?_⟩
  simp only
  generalize s.hw = h at *
  exact Hw.refill_ok (Hw.applyAtBlock_ok hk)

theorem execTrancheStart_ok {i : Fin 64} {s : State} (hk : s.hw.Ok) : ∃ h, execTrancheStart i s = .next ⟨h, s.pending⟩ ∧ h.Ok := by
  refine ⟨_, rfl, ?_⟩
  simp only
  generalize s.hw = h at *
  exact Hw.startTranche_ok hk

theorem execEngineTestStart_ok {v : BitVec 32} {s : State} (hk : s.hw.Ok) : ∃ h, execEngineTestStart v s = .next ⟨h, s.pending⟩ ∧ h.Ok := by
  refine ⟨_, rfl, ?_⟩
  simp only
  generalize s.hw = h at *
  exact Hw.testStart_ok hk

theorem execTrancheAllocate_ok {s : State} (hk : s.hw.Ok) : ∃ h, execTrancheAllocate s = .next ⟨h, s.pending⟩ ∧ h.Ok := by
  refine ⟨_, rfl, ?_⟩
  simp only
  generalize s.hw = h at *
  exact Hw.allocate_ok hk

theorem execPreemptSave_ok {c : Fin 8} {s : State} (hk : s.hw.Ok) : ∃ h, execPreemptSave c s = .next ⟨h, s.pending⟩ ∧ h.Ok := by
  refine ⟨_, rfl, ?_⟩
  simp only
  generalize s.hw = h at *
  exact Hw.preemptSave_ok hk

theorem execDoorbellServed_ok {s : State} (hk : s.hw.Ok) : ∃ h, execDoorbellServed s = .next ⟨h, s.pending⟩ ∧ h.Ok := by
  refine ⟨_, rfl, ?_⟩
  simp only
  generalize s.hw = h at *
  exact Hw.serveBell_ok hk

theorem execDispatchToDeque_ok {s : State} (hk : s.hw.Ok) : ∃ h, execDispatchToDeque s = .next ⟨h, s.pending⟩ ∧ h.Ok := by
  refine ⟨_, rfl, ?_⟩
  simp only
  generalize s.hw = h at *
  exact Hw.dispatchItem_ok hk

theorem execItemComplete_ok {e : Fin 32} {s : State} (hk : s.hw.Ok) : ∃ h, execItemComplete e s = .next ⟨h, s.pending⟩ ∧ h.Ok := by
  refine ⟨_, rfl, ?_⟩
  simp only
  generalize s.hw = h at *
  exact Hw.refill_ok (Hw.itemComplete_ok hk)

theorem execEngineRestMarch_ok {s : State} (hk : s.hw.Ok) : ∃ h, execEngineRestMarch s = .next ⟨h, s.pending⟩ ∧ h.Ok := by
  refine ⟨_, rfl, ?_⟩
  simp only
  generalize s.hw = h at *
  exact Hw.testMarch_ok hk

theorem execLoopTaskDispatch_ok {c : Fin 8} {s : State} (hk : s.hw.Ok) : ∃ h, execLoopTaskDispatch c s = .next ⟨h, s.pending⟩ ∧ h.Ok := by
  refine ⟨_, rfl, ?_⟩
  simp only
  generalize s.hw = h at *
  exact Hw.taskDispatch_ok hk

theorem execFabFlush_ok {v : BitVec 32} {s : State} (hk : s.hw.Ok) : ∃ h, execFabFlush v s = .next ⟨h, s.pending⟩ ∧ h.Ok := by
  refine ⟨_, rfl, ?_⟩
  simp only
  generalize s.hw = h at *
  exact Hw.ringBell_ok hk

theorem execGather_ok {c : Fin 4} {s : State} (hk : s.hw.Ok) : ∃ h, execGather c s = .next ⟨h, s.pending⟩ ∧ h.Ok := by
  refine ⟨_, rfl, ?_⟩
  simp only
  generalize s.hw = h at *
  exact Hw.refill_ok (Hw.gather_ok hk)

theorem execPullTmoExpiry_ok {k : Fin 512} {s : State} (hk : s.hw.Ok) : ∃ h, execPullTmoExpiry k s = .next ⟨h, s.pending⟩ ∧ h.Ok := by
  refine ⟨_, rfl, ?_⟩
  simp only
  generalize s.hw = h at *
  exact Hw.refill_ok (Hw.pullExpiry_ok hk)

theorem execEngineTestComplete_ok {pass : Bool} {s : State} (hk : s.hw.Ok) : ∃ h, execEngineTestComplete pass s = .next ⟨h, s.pending⟩ ∧ h.Ok := by
  refine ⟨_, rfl, ?_⟩
  simp only
  generalize s.hw = h at *
  exact Hw.refill_ok (Hw.testDone_ok hk)

theorem execEngineTake_ok {e : Fin 32} {s : State} (hk : s.hw.Ok) : ∃ h, execEngineTake e s = .next ⟨h, s.pending⟩ ∧ h.Ok := by
  refine ⟨_, rfl, ?_⟩
  simp only
  generalize s.hw = h at *
  exact Hw.refill_ok (Hw.engineTake_ok hk)

theorem execStrandScan_ok {s : State} (hk : s.hw.Ok) : ∃ h, execStrandScan s = .next ⟨h, s.pending⟩ ∧ h.Ok := by
  refine ⟨_, rfl, ?_⟩
  simp only
  generalize s.hw = h at *
  exact Hw.scan_ok hk

theorem execIntegrationClose_ok {k : Fin 512} {s : State} (hk : s.hw.Ok) : ∃ h, execIntegrationClose k s = .next ⟨h, s.pending⟩ ∧ h.Ok := by
  refine ⟨_, rfl, ?_⟩
  simp only
  generalize s.hw = h at *
  exact Hw.refill_ok (Hw.close_ok hk)

theorem execSearchDetectEntry_ok {k : Fin 512} {s : State} (hk : s.hw.Ok) : ∃ h, execSearchDetectEntry k s = .next ⟨h, s.pending⟩ ∧ h.Ok := by
  refine ⟨_, rfl, ?_⟩
  simp only
  generalize s.hw = h at *
  exact Hw.refill_ok (Hw.detectEntry_ok hk)

theorem execReaperSweep_ok {s : State} (hk : s.hw.Ok) : ∃ h, execReaperSweep s = .next ⟨h, s.pending⟩ ∧ h.Ok := by
  refine ⟨_, rfl, ?_⟩
  simp only
  generalize s.hw = h at *
  exact Hw.reaperSweep_ok hk

theorem execCoastMaxExpiry_ok {k : Fin 512} {s : State} (hk : s.hw.Ok) : ∃ h, execCoastMaxExpiry k s = .next ⟨h, s.pending⟩ ∧ h.Ok := by
  refine ⟨_, rfl, ?_⟩
  simp only
  generalize s.hw = h at *
  exact Hw.refill_ok (Hw.coastExpiry_ok hk)

end Sys2Proof.Machine
end

