-- ==== Sys2Proof/Laws/TouchTick.lean ====
section
/-! SUPPORT. What each operation of Machine/Tick.lean touches of the part: the components outside the list stay as they were. -/

set_option Elab.async false

namespace Sys2Proof.Machine

theorem Hw.synStep_touches {h : Hw} {n : Nat} : Touches [.ports] h (Hw.synStep h n) := by
  unfold Hw.synStep
  refine Touches.ite ?_ ?_
  · extract_lets +onlyGivenNames v1 v2
    exact Touches.refl.step Hw.setPort_touches
  · exact Touches.refl

theorem Hw.tick_touches {h : Hw} : Touches [.ports, .tcnt] h (Hw.tick h) := by
  unfold Hw.tick
  refine Touches.ite ?_ ?_
  · exact Touches.refl
  · extract_lets +onlyGivenNames h1
    refine Touches.cut (x := h1) ?_ fun th1 => ?_
    · subst h1
      exact Touches.refl.step set_tcnt_touches
    refine Touches.ite ?_ ?_
    · refine Touches.forEach ?_ fun x2 h3 th3 => ?_
      · exact th1
      · exact th3.step Hw.synStep_touches
    · exact th1

end Sys2Proof.Machine
end

