-- ==== Sys2Proof/Laws/OkTick.lean ====
section
/-! SUPPORT. Every operation of Machine/Tick.lean keeps the invariant of the part. -/

set_option Elab.async false

namespace Sys2Proof.Machine

theorem Hw.synStep_ok {h : Hw} {n : Nat} (hk : h.Ok) : (Hw.synStep h n).Ok := hk.touches Hw.synStep_touches

theorem Hw.tick_ok {h : Hw} (hk : h.Ok) : (Hw.tick h).Ok := by
  unfold Hw.tick
  refine Hw.Ok.ite (fun _ => ?_) (fun _ => ?_)
  · exact hk
  · extract_lets +onlyGivenNames h1
    refine Hw.Ok.cut (x := h1) ?_ fun th1 => ?_
    · subst h1
      refine set_tcnt_ok ?_ ?_
      · exact hk
      · exact Nat.mod_lt _ (by decide)
    refine Hw.Ok.ite (fun _ => ?_) (fun _ => ?_)
    · refine Hw.Ok.forEach ?_ fun x2 h3 th3 => ?_
      · exact th1
      · exact Hw.synStep_ok th3
    · exact th1

end Sys2Proof.Machine
end

