-- ==== Sys2Proof/Laws/OkUnitCmds.lean ====
section
/-! SUPPORT. Every command of Machine/UnitCmds.lean answers a next state and keeps the invariant of the part. -/

set_option Elab.async false

namespace Sys2Proof.Machine

theorem execWipeStart_ok {s : State} (hk : s.hw.Ok) : ∃ h, execWipeStart s = .next ⟨h, s.pending⟩ ∧ h.Ok := by
  refine ⟨_, rfl, ?_⟩
  simp only
  generalize s.hw = h at *
  exact Hw.wipeStart_ok hk

theorem execUnitRunOn_ok {u : Fin 18} {s : State} (hk : s.hw.Ok) : ∃ h, execUnitRunOn u s = .next ⟨h, s.pending⟩ ∧ h.Ok := by
  refine ⟨_, rfl, ?_⟩
  simp only
  generalize s.hw = h at *
  exact Hw.unitRunOn_ok hk

theorem execLcRequest_ok {link : Fin 10} {v : BitVec 32} {s : State} (hk : s.hw.Ok) : ∃ h, execLcRequest link v s = .next ⟨h, s.pending⟩ ∧ h.Ok := by
  refine ⟨_, rfl, ?_⟩
  simp only
  generalize s.hw = h at *
  exact Hw.lcRequest_ok hk

theorem execMramWordWriteDone_ok {s : State} (hk : s.hw.Ok) : ∃ h, execMramWordWriteDone s = .next ⟨h, s.pending⟩ ∧ h.Ok := by
  refine ⟨_, rfl, ?_⟩
  simp only
  generalize s.hw = h at *
  exact Hw.resume_ok (Hw.mramDone_ok hk)

theorem execKeyLoadCmd_ok {link : Fin 10} {v : BitVec 32} {s : State} (hk : s.hw.Ok) : ∃ h, execKeyLoadCmd link v s = .next ⟨h, s.pending⟩ ∧ h.Ok := by
  refine ⟨_, rfl, ?_⟩
  simp only
  generalize s.hw = h at *
  refine Hw.Ok.ite (fun _ => ?_) (fun _ => ?_)
  · exact Hw.fwKeep_ok (Hw.thimbleCmd_ok hk)
  · exact hk

theorem execUnitFillComplete_ok {u : Fin 18} {s : State} (hk : s.hw.Ok) : ∃ h, execUnitFillComplete u s = .next ⟨h, s.pending⟩ ∧ h.Ok := by
  refine ⟨_, rfl, ?_⟩
  simp only
  generalize s.hw = h at *
  exact Hw.unitFilled_ok hk

theorem execWipeVerified_ok {ok : Bool} {s : State} (hk : s.hw.Ok) : ∃ h, execWipeVerified ok s = .next ⟨h, s.pending⟩ ∧ h.Ok := by
  refine ⟨_, rfl, ?_⟩
  simp only
  generalize s.hw = h at *
  split
  · rename_i a1 h2 e3
    refine Hw.Ok.cut (x := h2) (Hw.Ok.snd ?_ e3) fun th2 => ?_
    · exact Hw.wipeVerified_ok hk
    exact Hw.fwKeep_ok th2
  · rename_i a4 a5 h6 e7
    refine Hw.Ok.cut (x := h6) (Hw.Ok.snd ?_ e7) fun th6 => ?_
    · exact Hw.wipeVerified_ok hk
    exact Hw.lifecycleReset_ok (Hw.fwKeep_ok th6)

theorem execKloadImage_ok {img : List Nat} {s : State} (hk : s.hw.Ok) : ∃ h, execKloadImage img s = .next ⟨h, s.pending⟩ ∧ h.Ok := by
  refine ⟨_, rfl, ?_⟩
  simp only
  generalize s.hw = h at *
  refine Hw.Ok.ite (fun _ => ?_) (fun _ => ?_)
  · exact Hw.kload_ok hk
  · exact hk

theorem execKslotCfgWrite_ok {n : Fin 16} {range : Bool} {v : BitVec 32} {s : State} (hk : s.hw.Ok) : ∃ h, execKslotCfgWrite n range v s = .next ⟨h, s.pending⟩ ∧ h.Ok := by
  refine ⟨_, rfl, ?_⟩
  simp only
  generalize s.hw = h at *
  refine Hw.Ok.ite (fun _ => ?_) (fun _ => ?_)
  · exact Hw.slotRangeWrite_ok hk
  · exact Hw.slotCfgWrite_ok hk

theorem execMarchTestStart_ok {v : BitVec 32} {s : State} (hk : s.hw.Ok) : ∃ h, execMarchTestStart v s = .next ⟨h, s.pending⟩ ∧ h.Ok := by
  refine ⟨_, rfl, ?_⟩
  simp only
  generalize s.hw = h at *
  exact Hw.marchWrite_ok hk

theorem execKunload_ok {v : BitVec 8} {s : State} (hk : s.hw.Ok) : ∃ h, execKunload v s = .next ⟨h, s.pending⟩ ∧ h.Ok := by
  refine ⟨_, rfl, ?_⟩
  simp only
  generalize s.hw = h at *
  refine Hw.Ok.ite (fun _ => ?_) (fun _ => ?_)
  · exact Hw.kunload_ok hk
  · exact hk

theorem execLiveRepairComplete_ok {spareOk : Bool} {s : State} (hk : s.hw.Ok) : ∃ h, execLiveRepairComplete spareOk s = .next ⟨h, s.pending⟩ ∧ h.Ok := by
  refine ⟨_, rfl, ?_⟩
  simp only
  generalize s.hw = h at *
  exact Hw.resume_ok (Hw.fwKeep_ok (Hw.repairDone_ok hk))

theorem execUnitRunOff_ok {u : Fin 18} {s : State} (hk : s.hw.Ok) : ∃ h, execUnitRunOff u s = .next ⟨h, s.pending⟩ ∧ h.Ok := by
  refine ⟨_, rfl, ?_⟩
  simp only
  generalize s.hw = h at *
  exact Hw.unitRunOff_ok hk

theorem execMarchTestComplete_ok {rows : List (Nat × Nat)} {bad : List (Nat × Nat)} {s : State} (hk : s.hw.Ok) : ∃ h, execMarchTestComplete rows bad s = .next ⟨h, s.pending⟩ ∧ h.Ok := by
  refine ⟨_, rfl, ?_⟩
  simp only
  generalize s.hw = h at *
  exact Hw.resume_ok (Hw.fwKeep_ok (Hw.marchDone_ok hk))

theorem execTamperUnlock_ok {link : Fin 10} {v : BitVec 32} {s : State} (hk : s.hw.Ok) : ∃ h, execTamperUnlock link v s = .next ⟨h, s.pending⟩ ∧ h.Ok := by
  refine ⟨_, rfl, ?_⟩
  simp only
  generalize s.hw = h at *
  refine Hw.Ok.ite (fun _ => ?_) (fun _ => ?_)
  · exact Hw.fwKeep_ok (Hw.thimbleCmd_ok hk)
  · exact hk

theorem execThimbleWipeCmd_ok {link : Fin 10} {v : BitVec 32} {s : State} (hk : s.hw.Ok) : ∃ h, execThimbleWipeCmd link v s = .next ⟨h, s.pending⟩ ∧ h.Ok := by
  refine ⟨_, rfl, ?_⟩
  simp only
  generalize s.hw = h at *
  refine Hw.Ok.ite (fun _ => ?_) (fun _ => ?_)
  · exact Hw.fwKeep_ok (Hw.thimbleCmd_ok hk)
  · exact hk

end Sys2Proof.Machine
end

