-- ==== Sys2Proof/Laws/OkUpdateCmds.lean ====
section
/-! SUPPORT. Every command of Machine/UpdateCmds.lean answers a next state and keeps the invariant of the part. -/

set_option Elab.async false

namespace Sys2Proof.Machine

theorem execUpdActivate_ok {link : Fin 10} {s : State} (hk : s.hw.Ok) : ∃ h, execUpdActivate link s = .next ⟨h, s.pending⟩ ∧ h.Ok := by
  refine ⟨_, rfl, ?_⟩
  simp only
  generalize s.hw = h at *
  refine Hw.Ok.ite (fun _ => ?_) (fun _ => ?_)
  · exact Hw.updActivate_ok hk
  · exact hk

theorem execUpdTransferTimeout_ok {s : State} (hk : s.hw.Ok) : ∃ h, execUpdTransferTimeout s = .next ⟨h, s.pending⟩ ∧ h.Ok := by
  refine ⟨_, rfl, ?_⟩
  simp only
  generalize s.hw = h at *
  exact Hw.updTimeout_ok hk

theorem execLongSpliceStart_ok {v : BitVec 32} {s : State} (hk : s.hw.Ok) : ∃ h, execLongSpliceStart v s = .next ⟨h, s.pending⟩ ∧ h.Ok := by
  refine ⟨_, rfl, ?_⟩
  simp only
  generalize s.hw = h at *
  exact Hw.updCtrl_ok hk

theorem execUpdConfirm_ok {link : Fin 10} {s : State} (hk : s.hw.Ok) : ∃ h, execUpdConfirm link s = .next ⟨h, s.pending⟩ ∧ h.Ok := by
  refine ⟨_, rfl, ?_⟩
  simp only
  generalize s.hw = h at *
  refine Hw.Ok.ite (fun _ => ?_) (fun _ => ?_)
  · exact Hw.updConfirm_ok hk
  · exact hk

theorem execTrialTimeout_ok {s : State} (hk : s.hw.Ok) : ∃ h, execTrialTimeout s = .next ⟨h, s.pending⟩ ∧ h.Ok := by
  refine ⟨_, rfl, ?_⟩
  simp only
  generalize s.hw = h at *
  exact Hw.trialTimeout_ok hk

theorem execUpdOtpSet_ok {v : BitVec 32} {s : State} (hk : s.hw.Ok) : ∃ h, execUpdOtpSet v s = .next ⟨h, s.pending⟩ ∧ h.Ok := by
  refine ⟨_, rfl, ?_⟩
  simp only
  generalize s.hw = h at *
  exact Hw.otpSet_ok hk

theorem execHandoverAccept_ok {us : Nat} {vendor : List (List Nat)} {s : State} (hk : s.hw.Ok) : ∃ h, execHandoverAccept us vendor s = .next ⟨h, s.pending⟩ ∧ h.Ok := by
  refine ⟨_, rfl, ?_⟩
  simp only
  generalize s.hw = h at *
  exact Hw.handover_ok hk

theorem execUpdCancel_ok {link : Fin 10} {s : State} (hk : s.hw.Ok) : ∃ h, execUpdCancel link s = .next ⟨h, s.pending⟩ ∧ h.Ok := by
  refine ⟨_, rfl, ?_⟩
  simp only
  generalize s.hw = h at *
  refine Hw.Ok.ite (fun _ => ?_) (fun _ => ?_)
  · exact Hw.updCancel_ok hk
  · exact hk

theorem execUpdCtrlConfirm_ok {v : BitVec 32} {s : State} (hk : s.hw.Ok) : ∃ h, execUpdCtrlConfirm v s = .next ⟨h, s.pending⟩ ∧ h.Ok := by
  refine ⟨_, rfl, ?_⟩
  simp only
  generalize s.hw = h at *
  exact Hw.updCtrl_ok hk

theorem execUpdBegin_ok {link : Fin 10} {b : BitVec 32} {ver : BitVec 32} {s : State} (hk : s.hw.Ok) : ∃ h, execUpdBegin link b ver s = .next ⟨h, s.pending⟩ ∧ h.Ok := by
  refine ⟨_, rfl, ?_⟩
  simp only
  generalize s.hw = h at *
  refine Hw.Ok.ite (fun _ => ?_) (fun _ => ?_)
  · exact Hw.updBegin_ok hk
  · exact hk

theorem execUpdBlock_ok {link : Fin 10} {n : BitVec 16} {crc : BitVec 32} {data : List Nat} {s : State} (hk : s.hw.Ok) : ∃ h, execUpdBlock link n crc data s = .next ⟨h, s.pending⟩ ∧ h.Ok := by
  refine ⟨_, rfl, ?_⟩
  simp only
  generalize s.hw = h at *
  refine Hw.Ok.ite (fun _ => ?_) (fun _ => ?_)
  · exact Hw.updBlock_ok hk
  · exact hk

end Sys2Proof.Machine
end

