-- ==== Sys2Proof/Laws/Reset.lean ====
section
/-! SUPPORT. What the three resets do (R642): the parts that every cause shares. -/

set_option Elab.async false

namespace Sys2Proof.Machine

variable {h : Hw}

theorem Hw.reg_keepRegs (p : Nat → Bool) (a : Nat) : (h.keepRegs p).reg a = if p a then h.reg a else resetOf a := Store.get_keep _ _ _ _

theorem Hw.reg_coreClear (a : Nat) : h.coreClear.reg a = if (alwaysOnReg a || backupReg a) then h.reg a else resetOf a :=
  Hw.reg_keepRegs (h := h) (fun a => alwaysOnReg a || backupReg a) a

theorem Hw.reg_alwaysOnClear (a : Nat) : h.alwaysOnClear.reg a = if alwaysOnReg a then resetOf a else h.reg a := by
  have : h.alwaysOnClear.reg a = if !alwaysOnReg a then h.reg a else resetOf a := Hw.reg_keepRegs (h := h) (fun a => !alwaysOnReg a) a
  rw [this]
  cases alwaysOnReg a <;> rfl

/-- The cause of a reset as it is recorded. -/
theorem Hw.causeSet_last (c : Nat) (hc : c < 16) : (h.causeSet c).rf WAKE_RSTCAUSE_LAST = c := by
  unfold Hw.causeSet
  rw [Hw.rf_sf_same _ _ (by decide)]
  exact Nat.mod_eq_of_lt hc

theorem Hw.causeSet_causes (c k : Nat) (hk : k < 10) :
    bit ((h.causeSet c).rf WAKE_RSTCAUSE_CAUSES) k = (k == c || bit (h.rf WAKE_RSTCAUSE_CAUSES) k) := by
  unfold Hw.causeSet
  rw [Hw.rf_sf_apart _ _ _ (by decide) (by decide), Hw.rf_sf_same _ _ (by decide)]
  have e : (pow2 c).testBit k = (k == c) := by
    unfold pow2
    rw [Nat.one_shiftLeft, Nat.testBit_two_pow]
    rcases Nat.lt_trichotomy c k with h1 | h1 | h1
    · have : ¬ c = k := by omega
      have h2 : (k == c) = false := by simp; omega
      simp [this, h2]
    · simp [h1]
    · have : ¬ c = k := by omega
      have h2 : (k == c) = false := by simp; omega
      simp [this, h2]
  have w : WAKE_RSTCAUSE_CAUSES.len = 10 := rfl
  have n : ({ h with rtc := { h.rtc with latch := none } } : Hw).rf WAKE_RSTCAUSE_CAUSES = h.rf WAKE_RSTCAUSE_CAUSES := rfl
  rw [n]
  simp only [bit, Nat.testBit_mod_two_pow, w, hk, decide_true, Bool.true_and, Nat.testBit_or, e, Bool.or_comm]

theorem Hw.reg_causeSet (c a : Nat) (ha : a ≠ WAKE_RSTCAUSE) : (h.causeSet c).reg a = h.reg a := by
  unfold Hw.causeSet
  rw [Hw.reg_sf_ne _ (f := WAKE_RSTCAUSE_LAST) ha.symm, Hw.reg_sf_ne _ (f := WAKE_RSTCAUSE_CAUSES) ha.symm]
  rfl

theorem Hw.reg_pulsesStop (a : Nat) (ha : a ≠ PKEY_OUTSTAT) : (h.pulsesStop).reg a = h.reg a := by
  have : (h.pulsesStop).reg a = ((h.sf PKEY_OUTSTAT_UNL_ACT 0).sf PKEY_OUTSTAT_LCK_ACT 0).reg a := rfl
  rw [this, Hw.reg_sf_ne _ (f := PKEY_OUTSTAT_LCK_ACT) ha.symm, Hw.reg_sf_ne _ (f := PKEY_OUTSTAT_UNL_ACT) ha.symm]

theorem within_iff (lo hi a : Nat) : within lo hi a = true ↔ lo ≤ a ∧ a ≤ hi := by simp [within]

theorem alwaysOn_not_backup {a : Nat} (ha : alwaysOnReg a = true) : backupReg a = false := by
  simp only [alwaysOnReg, backupReg, Bool.or_eq_true, within_iff] at ha ⊢
  rw [Bool.eq_false_iff]
  intro hb
  rw [within_iff] at hb
  omega

theorem rstcause_backup : backupReg WAKE_RSTCAUSE = true := rfl
theorem outstat_alwaysOn : alwaysOnReg PKEY_OUTSTAT = true := rfl

/-- A reset of the core domain alone. -/
theorem Hw.coreReset_by (c : Nat) (hc : c < 10) : CoreResetBy c h (h.coreReset c) where
  begun := by
    have p : (h.coreReset c).pwr = h.coreClear.pwr :=
      (Hw.causeSet_touches (h := h.coreClear.pulsesStop) .pwr rfl).trans (Hw.pulsesStop_touches (h := h.coreClear) .pwr rfl)
    rw [p]
    exact ⟨rfl, rfl⟩
  last := Hw.causeSet_last c (by omega)
  causes k hk := by
    unfold Hw.coreReset
    rw [Hw.causeSet_causes c k hk]
    have : (h.coreClear.pulsesStop).rf WAKE_RSTCAUSE_CAUSES = h.rf WAKE_RSTCAUSE_CAUSES := by
      unfold Hw.rf
      rw [Hw.reg_pulsesStop _ (by decide), Hw.reg_coreClear]
      rfl
    rw [this]
  core a h1 h2 := by
    have e1 : a ≠ WAKE_RSTCAUSE := by rintro rfl; rw [rstcause_backup] at h2; cases h2
    have e2 : a ≠ PKEY_OUTSTAT := by rintro rfl; rw [outstat_alwaysOn] at h1; cases h1
    unfold Hw.coreReset
    rw [Hw.reg_causeSet _ _ e1, Hw.reg_pulsesStop _ e2, Hw.reg_coreClear]
    simp [h1, h2]
  alwaysOn a h1 h2 := by
    have e1 : a ≠ WAKE_RSTCAUSE := by rintro rfl; have := alwaysOn_not_backup h1; rw [rstcause_backup] at this; cases this
    unfold Hw.coreReset
    rw [Hw.reg_causeSet _ _ e1, Hw.reg_pulsesStop _ h2, Hw.reg_coreClear]
    simp [h1]
  backup a h1 h2 := by
    have e2 : a ≠ PKEY_OUTSTAT := by rintro rfl; have := alwaysOn_not_backup outstat_alwaysOn; rw [h1] at this; cases this
    unfold Hw.coreReset
    rw [Hw.reg_causeSet _ _ h2, Hw.reg_pulsesStop _ e2, Hw.reg_coreClear]
    simp [h1]
  bytes a := by
    have m : (h.coreReset c).mem = h.mem := Hw.coreReset_touches .mem rfl
    simp only [Hw.byte, m]
  clock := rfl
  rest := Hw.coreReset_touches

/-- A reset of the core and always-on domains. -/
theorem Hw.vinReset_pwr (c : Nat) : (h.vinReset c).pwr = h.coreClear.alwaysOnClear.pwr := Hw.causeSet_touches (h := h.coreClear.alwaysOnClear) .pwr rfl

theorem Hw.vinReset_by (c : Nat) (hc : c < 10) : SupplyResetBy c h (h.vinReset c) where
  begun := by rw [Hw.vinReset_pwr]; exact ⟨rfl, rfl⟩
  last := Hw.causeSet_last c (by omega)
  causes k hk := by
    unfold Hw.vinReset
    rw [Hw.causeSet_causes c k hk]
    have : h.coreClear.alwaysOnClear.rf WAKE_RSTCAUSE_CAUSES = h.rf WAKE_RSTCAUSE_CAUSES := by
      unfold Hw.rf
      rw [Hw.reg_alwaysOnClear, Hw.reg_coreClear]
      rfl
    rw [this]
  core a h1 := by
    have e1 : a ≠ WAKE_RSTCAUSE := by rintro rfl; rw [rstcause_backup] at h1; cases h1
    unfold Hw.vinReset
    rw [Hw.reg_causeSet _ _ e1, Hw.reg_alwaysOnClear, Hw.reg_coreClear]
    simp only [h1, Bool.or_false]
    split <;> rfl
  backup a h1 h2 := by
    have e2 : alwaysOnReg a = false := by
      cases e : alwaysOnReg a
      · rfl
      · rw [alwaysOn_not_backup e] at h1; cases h1
    unfold Hw.vinReset
    rw [Hw.reg_causeSet _ _ h2, Hw.reg_alwaysOnClear, Hw.reg_coreClear]
    simp [h1, e2]
  records := by rw [Hw.vinReset_pwr]; exact ⟨rfl, rfl⟩
  mram a h1 := by
    have m : (h.vinReset c).mem = h.coreClear.alwaysOnClear.mem := Hw.causeSet_touches (h := h.coreClear.alwaysOnClear) .mem rfl
    have m2 : h.coreClear.alwaysOnClear.mem = Store.keep (fun a => isMram a || within 0x32000000 0x3200007F a) h.mem := rfl
    rw [Hw.byte, m, m2, Store.get_keep]
    simp [h1, Hw.byte]
  clock := rfl
  rest := Hw.vinReset_touches

theorem Hw.bump_reg_ne (f : Fld) (a : Nat) (ha : f.addr ≠ a) : (h.bump f).reg a = h.reg a := Hw.reg_sf_ne _ ha _

end Sys2Proof.Machine
end

