-- ==== Sys2Proof/Laws/PowerState.lean ====
section
/-! SUPPORT. Which operations leave the power state alone, and what a report to the error log leaves alone of the registers. -/

set_option Elab.async false

namespace Sys2Proof.Machine

variable {h : Hw}

/-- A change that does not touch the power record keeps its state. -/
theorem Touches.power {l : List Block} {h h' : Hw} (t : Touches l h h') (hl : l.contains .pwr = false := by rfl) : h'.pwr = h.pwr := t .pwr hl

theorem Hw.wipeRequest_state {c t : Nat} : (h.wipeRequest c t).pwr.state = h.pwr.state := by
  unfold Hw.wipeRequest
  simp only
  split
  · split
    · split <;> simp
    · rfl
  · rfl

theorem Hw.wipeStart_state : (h.wipeStart).pwr.state = h.pwr.state := congrArg Pwr.state Hw.wipeStart_touches.power

theorem Hw.wipeFinish_state : (h.wipeFinish).pwr.state = h.pwr.state := by
  unfold Hw.wipeFinish
  simp only
  split_ifs <;> simp

theorem forEach_keeps {α β : Type} {f : α → Hw → Hw} (v : Hw → β) (hf : ∀ x g, v (f x g) = v g) (xs : List α) (g : Hw) :
    v (forEach f xs g) = v g := by
  induction xs generalizing g with
  | nil => rfl
  | cons x xs ih => exact (ih _).trans (hf x g)

theorem Hw.retentionCheck_state {u : Nat} : (h.retentionCheck u).pwr.state = h.pwr.state := by
  unfold Hw.retentionCheck
  split
  · exact congrArg Pwr.state Hw.setUnit_touches.power
  · rename_i bs _
    extract_lets mask g1 g2 g3
    have p1 : g1.pwr.state = h.pwr.state := congrArg Pwr.state Hw.sf_touches.power
    have p2 : g2.pwr.state = g1.pwr.state := forEach_keeps (fun g => g.pwr.state) (fun x g => congrArg Pwr.state Hw.report_touches.power) _ _
    have p3 : g3.pwr.state = g2.pwr.state := by
      show (if u = 15 ∨ u = 16 then (g2.wipeRequest wipeRetention 0).wipeStart else g2).pwr.state = _
      split
      · exact Hw.wipeStart_state.trans Hw.wipeRequest_state
      · rfl
    have p4 : ((g3.fillUnit u).setUnit u unitIsOn).pwr.state = g3.pwr.state :=
      congrArg Pwr.state (((Touches.refl.step Hw.fillUnit_touches).step Hw.setUnit_touches : Touches [.regs, .mem, .ecc] g3 _)).power
    exact p4.trans (p3.trans (p2.trans p1))

theorem Hw.setUnit_state {u k : Nat} : (h.setUnit u k).pwr.state = h.pwr.state := congrArg Pwr.state Hw.setUnit_touches.power

theorem Hw.wakeUnit_state {u : Nat} : (h.wakeUnit u).pwr.state = h.pwr.state := by
  unfold Hw.wakeUnit
  simp only
  split_ifs <;> simp [Hw.setUnit_state, Hw.retentionCheck_state]
  exact congrArg Pwr.state Hw.fillUnit_touches.power

theorem Hw.wipeFail_state : (h.wipeFail).pwr.state = h.pwr.state :=
  (congrArg Pwr.state Hw.report_touches.power).trans ((congrArg Pwr.state Hw.sf_touches.power).trans
    (Hw.setUnit_state.trans (Hw.setUnit_state.trans
      ((congrArg Pwr.state Hw.sf_touches.power).trans (Eq.refl h.pwr.state)))))

theorem Hw.wipeWhole_state {bad : Nat} : (h.wipeWhole bad).pwr.state = h.pwr.state := by
  unfold Hw.wipeWhole
  simp only
  split
  · exact Hw.wipeFail_state.trans Hw.wipeStart_state
  · exact Hw.wipeFinish_state.trans Hw.wipeStart_state

/-! ### Domains and the save area -/

/-- Registers that are not restored keep their values. -/
theorem Hw.restoreSaved_reg {p : Nat → Bool} {a : Nat} (ha : p a = false) : (h.restoreSaved p).reg a = h.reg a := by
  unfold Hw.restoreSaved
  have gen : ∀ (xs : List (Nat × Nat)) (g : Hw), (∀ x ∈ xs, p x.1 = true) → (forEach (fun x h => h.restoreBits x.1 x.2) xs g).reg a = g.reg a := by
    intro xs
    induction xs with
    | nil => intro g _; rfl
    | cons x xs ih =>
      intro g hx
      refine (ih _ (fun y hy => hx y (by simp [hy]))).trans (Hw.reg_setReg_ne _ ?_ _)
      rintro rfl
      rw [hx x (by simp)] at ha
      cases ha
  apply gen
  intro x hx
  exact (List.mem_filter.mp hx).2

theorem domState_arith : ∀ n < 256, ∀ d < 4, ∀ v < 4, ∀ k < 4,
    (n / 4 ^ (d + 1) * 4 ^ (d + 1) + v * 4 ^ d + n % 4 ^ d) % 2 ^ 8 / 4 ^ k % 4 = if k = d then v else n / 4 ^ k % 4 := by decide +kernel

theorem Hw.domState_setDom (d v k : Nat) (hd : d < 4) (hv : v < 4) (hk : k < 4) : (h.setDom d v).domState k = if k = d then v else h.domState k := by
  unfold Hw.setDom Hw.domState
  rw [Hw.rf_sf_same _ _ (by decide)]
  exact domState_arith _ (by unfold Hw.rf Fld.ofNat; exact Nat.mod_lt _ (by decide)) d hd v hv k hk

theorem Hw.reg_setDom {d v a : Nat} (ha : a ≠ PWR_DOM) : (h.setDom d v).reg a = h.reg a := by
  unfold Hw.setDom
  exact Hw.reg_sf_ne _ (f := PWR_DOM_STATE) ha.symm _

theorem Hw.domState_of_reg {g : Hw} (e : g.reg PWR_DOM = h.reg PWR_DOM) (k : Nat) : g.domState k = h.domState k := by
  unfold Hw.domState Hw.rf
  exact congrArg (fun r : BitVec 32 => PWR_DOM_STATE.ofNat r.toNat / 4 ^ k % 4) e

end Sys2Proof.Machine
end

