-- ==== Sys2Proof/Laws/TouchBackgroundCmds.lean ====
section
/-! SUPPORT. Every command of Machine/BackgroundCmds.lean answers a next state, and what it touches of the part. -/

set_option Elab.async false

namespace Sys2Proof.Machine

theorem execMpuLock_touches {v : BitVec 32} {s : State} : ∃ h, execMpuLock v s = .next ⟨h, s.pending⟩ ∧ Touches [.regs] s.hw h := by
  refine ⟨_, rfl, ?_⟩
  simp only
  generalize s.hw = h
  exact Touches.refl.step Hw.mpuCtrl_touches

theorem execMramScrub_touches {s : State} : ∃ h, execMramScrub s = .next ⟨h, s.pending⟩ ∧ Touches [.regs, .ecc, .elogQ, .memu] s.hw h := by
  refine ⟨_, rfl, ?_⟩
  simp only
  generalize s.hw = h
  exact Touches.refl.step Hw.mscrub_touches

theorem execElogSwhdr_touches {v : BitVec 32} {s : State} : ∃ h, execElogSwhdr v s = .next ⟨h, s.pending⟩ ∧ Touches [.regs, .elogQ] s.hw h := by
  refine ⟨_, rfl, ?_⟩
  simp only
  generalize s.hw = h
  exact Touches.refl.step Hw.elogSoft_touches

theorem execElogReport_touches {cls : Fin 16} {code : BitVec 8} {source : BitVec 8} {addr : BitVec 32} {detail : BitVec 32} {s : State} : ∃ h, execElogReport cls code source addr detail s = .next ⟨h, s.pending⟩ ∧ Touches [.regs, .elogQ] s.hw h := by
  refine ⟨_, rfl, ?_⟩
  simp only
  generalize s.hw = h
  exact Touches.refl.step Hw.report_touches

theorem execElogEntryWrite_touches {s : State} : ∃ h, execElogEntryWrite s = .next ⟨h, s.pending⟩ ∧ Touches [.regs, .elogQ] s.hw h := by
  refine ⟨_, rfl, ?_⟩
  simp only
  generalize s.hw = h
  exact Touches.refl.step Hw.elogWrite_touches

theorem execWhippingFwTask_touches {late : Bool} {s : State} : ∃ h, execWhippingFwTask late s = .next ⟨h, s.pending⟩ ∧ Touches [.regs, .mem, .ecc, .fw] s.hw h := by
  refine ⟨_, rfl, ?_⟩
  simp only
  generalize s.hw = h
  exact Touches.refl.step Hw.fwTask_touches

theorem execTelemetrySecond_touches {fix : NavFix} {util : List Nat} {nmea : List Nat} {s : State} : ∃ h, execTelemetrySecond fix util nmea s = .next ⟨h, s.pending⟩ ∧ Touches [.regs, .tcnt, .tp, .fw, .serials, .upd, .bgnd, .fix] s.hw h := by
  refine ⟨_, rfl, ?_⟩
  simp only
  generalize s.hw = h
  exact Touches.refl.step Hw.telemetry_touches

theorem execElogClear_touches {v : BitVec 32} {s : State} : ∃ h, execElogClear v s = .next ⟨h, s.pending⟩ ∧ Touches [.regs] s.hw h := by
  refine ⟨_, rfl, ?_⟩
  simp only
  generalize s.hw = h
  exact Touches.refl.step Hw.elogCtrl_touches

theorem execTempSample_touches {ts : List Int} {rails : List Nat} {s : State} : ∃ h, execTempSample ts rails s = .next ⟨h, s.pending⟩ ∧ Touches [.regs, .sys, .elogQ, .radio, .bgnd] s.hw h := by
  refine ⟨_, rfl, ?_⟩
  simp only
  generalize s.hw = h
  exact Touches.refl.step Hw.tempSample_touches

theorem execScrubRead_touches {s : State} : ∃ h, execScrubRead s = .next ⟨h, s.pending⟩ ∧ Touches [.regs, .ecc, .kept, .sys, .elogQ, .memu, .bgnd] s.hw h := by
  refine ⟨_, rfl, ?_⟩
  simp only
  generalize s.hw = h
  exact Touches.refl.step Hw.scrub_touches

end Sys2Proof.Machine
end

