-- ==== Sys2Proof/Laws/TouchBusCmds.lean ====
section
/-! SUPPORT. Every command of Machine/BusCmds.lean answers a next state, and what it touches of the part. -/

set_option Elab.async false

namespace Sys2Proof.Machine

theorem execMemoryRead_touches {m : Master} {a : BitVec 32} {size : Fin 4} {s : State} : ∃ h, execMemoryRead m a size s = .next ⟨h, s.pending⟩ ∧ Touches (Block.except []) s.hw h := by
  refine ⟨_, rfl, ?_⟩
  simp only
  generalize s.hw = h
  unfold Hw.onBus
  exact Touches.ite Touches.refl (Touches.refl.step Hw.issue_touches)

theorem execMemoryWrite_touches {m : Master} {a : BitVec 32} {size : Fin 4} {v : BitVec 64} {hit : Bool} {s : State} : ∃ h, execMemoryWrite m a size v hit s = .next ⟨h, s.pending⟩ ∧ Touches (Block.except []) s.hw h := by
  refine ⟨_, rfl, ?_⟩
  simp only
  generalize s.hw = h
  unfold Hw.onBus
  exact Touches.ite Touches.refl (Touches.refl.step Hw.issue_touches)

theorem execSetAliasWrite_touches {m : Master} {a : BitVec 32} {size : Fin 4} {v : BitVec 64} {s : State} : ∃ h, execSetAliasWrite m a size v s = .next ⟨h, s.pending⟩ ∧ Touches (Block.except []) s.hw h := by
  refine ⟨_, rfl, ?_⟩
  simp only
  generalize s.hw = h
  refine Touches.ite ?_ Touches.refl
  unfold Hw.onBus
  exact Touches.ite Touches.refl (Touches.refl.step Hw.issue_touches)

theorem execClearAliasWrite_touches {m : Master} {a : BitVec 32} {size : Fin 4} {v : BitVec 64} {s : State} : ∃ h, execClearAliasWrite m a size v s = .next ⟨h, s.pending⟩ ∧ Touches (Block.except []) s.hw h := by
  refine ⟨_, rfl, ?_⟩
  simp only
  generalize s.hw = h
  refine Touches.ite ?_ Touches.refl
  unfold Hw.onBus
  exact Touches.ite Touches.refl (Touches.refl.step Hw.issue_touches)

theorem execRegisterWrite_touches {m : Master} {a : BitVec 32} {v : BitVec 32} {s : State} : ∃ h, execRegisterWrite m a v s = .next ⟨h, s.pending⟩ ∧ Touches (Block.except []) s.hw h := by
  refine ⟨_, rfl, ?_⟩
  simp only
  generalize s.hw = h
  unfold Hw.onBus
  exact Touches.ite Touches.refl (Touches.refl.step Hw.issue_touches)

theorem execRclrCounterRead_touches {m : Master} {a : BitVec 32} {s : State} : ∃ h, execRclrCounterRead m a s = .next ⟨h, s.pending⟩ ∧ Touches (Block.except []) s.hw h := by
  refine ⟨_, rfl, ?_⟩
  simp only
  generalize s.hw = h
  unfold Hw.onBus
  exact Touches.ite Touches.refl (Touches.refl.step Hw.issue_touches)

theorem execDmaAbort_touches {c : Fin 8} {v : BitVec 32} {s : State} : ∃ h, execDmaAbort c v s = .next ⟨h, s.pending⟩ ∧ Touches [.regs, .dmaTry] s.hw h := by
  refine ⟨_, rfl, ?_⟩
  simp only
  generalize s.hw = h
  refine Touches.ite ?_ ?_
  · exact Touches.refl.step Hw.dmaCtrl_touches
  · exact Touches.refl

theorem execDmaGo_touches {c : Fin 8} {v : BitVec 32} {s : State} : ∃ h, execDmaGo c v s = .next ⟨h, s.pending⟩ ∧ Touches [.regs, .dmaTry] s.hw h := by
  refine ⟨_, rfl, ?_⟩
  simp only
  generalize s.hw = h
  refine Touches.ite ?_ ?_
  · exact Touches.refl.step Hw.dmaCtrl_touches
  · exact Touches.refl

theorem execDmaResume_touches {c : Fin 8} {v : BitVec 32} {s : State} : ∃ h, execDmaResume c v s = .next ⟨h, s.pending⟩ ∧ Touches [.regs, .dmaTry] s.hw h := by
  refine ⟨_, rfl, ?_⟩
  simp only
  generalize s.hw = h
  refine Touches.ite ?_ ?_
  · exact Touches.refl.step Hw.dmaCtrl_touches
  · exact Touches.refl

theorem execDmaBeat_touches {hit : Bool} {s : State} : ∃ h, execDmaBeat hit s = .next ⟨h, s.pending⟩ ∧ Touches (Block.except []) s.hw h := by
  refine ⟨_, rfl, ?_⟩
  simp only
  generalize s.hw = h
  exact Touches.refl.step Hw.dmaBeat_touches

end Sys2Proof.Machine
end

