-- ==== Sys2Proof/Laws/TouchDictCmds.lean ====
section
/-! SUPPORT. Every command of Machine/DictCmds.lean answers a next state, and what it touches of the part. -/

set_option Elab.async false

namespace Sys2Proof.Machine

theorem execRequestReceived_touches {l : Fin 10} {payload : List Nat} {s : State} : ∃ h, execRequestReceived l payload s = .next ⟨h, s.pending⟩ ∧ Touches (Block.except []) s.hw h := by
  refine ⟨_, rfl, ?_⟩
  simp only
  generalize s.hw = h
  exact Touches.refl.step Hw.requestOn_touches

theorem execRegisterSampling_touches {s : State} : ∃ h, execRegisterSampling s = .next ⟨h, s.pending⟩ ∧ Touches [.regs, .ecc, .free, .resp, .elogQ, .tspi, .sspi, .tp, .fw, .serials, .radio, .rtc, .i2c] s.hw h := by
  refine ⟨_, rfl, ?_⟩
  simp only
  generalize s.hw = h
  exact Touches.refl.step Hw.registerSampling_touches

theorem execJournalCompaction_touches {s : State} : ∃ h, execJournalCompaction s = .next ⟨h, s.pending⟩ ∧ Touches [.mem, .ecc, .fw] s.hw h := by
  refine ⟨_, rfl, ?_⟩
  simp only
  generalize s.hw = h
  exact Touches.refl.step Hw.compactDue_touches

theorem execReadSeg_touches {s : State} : ∃ h, execReadSeg s = .next ⟨h, s.pending⟩ ∧ Touches [.regs, .ecc, .free, .resp, .sys, .elogQ, .tspi, .sspi, .tp, .fw, .serials, .lyd, .cans, .radio, .pkey, .rtc, .upd, .i2c] s.hw h := by
  refine ⟨_, rfl, ?_⟩
  simp only
  generalize s.hw = h
  exact Touches.refl.step Hw.opReadSeg_touches

theorem execObjectWrite_touches {s : State} : ∃ h, execObjectWrite s = .next ⟨h, s.pending⟩ ∧ Touches (Block.except []) s.hw h := by
  refine ⟨_, rfl, ?_⟩
  simp only
  generalize s.hw = h
  exact Touches.refl.step Hw.opWrite_touches

theorem execSubscribe_touches {s : State} : ∃ h, execSubscribe s = .next ⟨h, s.pending⟩ ∧ Touches [.regs, .ecc, .free, .resp, .sys, .elogQ, .tspi, .sspi, .tp, .fw, .serials, .lyd, .cans, .radio, .pkey, .rtc, .upd, .i2c] s.hw h := by
  refine ⟨_, rfl, ?_⟩
  simp only
  generalize s.hw = h
  exact Touches.refl.step Hw.opSubscribe_touches

theorem execAbortTransfer_touches {s : State} : ∃ h, execAbortTransfer s = .next ⟨h, s.pending⟩ ∧ Touches [.regs, .sys, .fw, .serials, .lyd, .cans, .radio, .pkey, .upd] s.hw h := by
  refine ⟨_, rfl, ?_⟩
  simp only
  generalize s.hw = h
  exact Touches.refl.step Hw.opAbort_touches

theorem execAuthBarExpiry_touches {l : Fin 10} {s : State} : ∃ h, execAuthBarExpiry l s = .next ⟨h, s.pending⟩ ∧ Touches [.tcnt, .fw] s.hw h := by
  refine ⟨_, rfl, ?_⟩
  simp only
  generalize s.hw = h
  exact Touches.refl.step Hw.authBarExpiry_touches

theorem execObjectRead_touches {s : State} : ∃ h, execObjectRead s = .next ⟨h, s.pending⟩ ∧ Touches [.regs, .ecc, .free, .resp, .sys, .elogQ, .tspi, .sspi, .tp, .fw, .serials, .lyd, .cans, .radio, .pkey, .rtc, .upd, .i2c] s.hw h := by
  refine ⟨_, rfl, ?_⟩
  simp only
  generalize s.hw = h
  exact Touches.refl.step Hw.opRead_touches

theorem execSessionTimeout_touches {l : Fin 10} {s : State} : ∃ h, execSessionTimeout l s = .next ⟨h, s.pending⟩ ∧ Touches [.regs, .tcnt, .fw, .serials, .lyd, .upd] s.hw h := by
  refine ⟨_, rfl, ?_⟩
  simp only
  generalize s.hw = h
  exact Touches.refl.step Hw.sessionTimeout_touches

theorem execAuthStep3_touches {s : State} : ∃ h, execAuthStep3 s = .next ⟨h, s.pending⟩ ∧ Touches [.regs, .sys, .elogQ, .fw, .serials, .lyd, .cans, .radio, .pkey, .upd] s.hw h := by
  refine ⟨_, rfl, ?_⟩
  simp only
  generalize s.hw = h
  exact Touches.refl.step Hw.authStep3_touches

theorem execNotifySend_touches {slot : Fin 32} {s : State} : ∃ h, execNotifySend slot s = .next ⟨h, s.pending⟩ ∧ Touches [.regs, .ecc, .free, .resp, .elogQ, .tspi, .sspi, .tcnt, .tp, .fw, .serials, .cans, .radio, .rtc, .i2c] s.hw h := by
  refine ⟨_, rfl, ?_⟩
  simp only
  generalize s.hw = h
  exact Touches.refl.step Hw.notifyDue_touches

theorem execStrandCommitObject_touches {link : Fin 10} {k : Fin 512} {bell : Bool} {s : State} : ∃ h, execStrandCommitObject link k bell s = .next ⟨h, s.pending⟩ ∧ Touches [.regs, .mem, .ecc, .free, .resp, .elogQ, .memu, .fab, .fw] s.hw h := by
  refine ⟨_, rfl, ?_⟩
  simp only
  generalize s.hw = h
  refine Touches.ite ?_ ?_
  · exact Touches.refl.step Hw.commitObject_touches
  · exact Touches.refl

theorem execAuthStep2_touches {s : State} : ∃ h, execAuthStep2 s = .next ⟨h, s.pending⟩ ∧ Touches [.regs, .sys, .fw, .serials, .lyd, .cans, .radio, .pkey, .upd] s.hw h := by
  refine ⟨_, rfl, ?_⟩
  simp only
  generalize s.hw = h
  exact Touches.refl.step Hw.authStep2_touches

theorem execAuthStep1_touches {s : State} : ∃ h, execAuthStep1 s = .next ⟨h, s.pending⟩ ∧ Touches [.regs, .free, .sys, .fw, .serials, .lyd, .cans, .radio, .pkey, .upd] s.hw h := by
  refine ⟨_, rfl, ?_⟩
  simp only
  generalize s.hw = h
  exact Touches.refl.step Hw.authStep1_touches

theorem execNonceExpiry_touches {l : Fin 10} {s : State} : ∃ h, execNonceExpiry l s = .next ⟨h, s.pending⟩ ∧ Touches [.tcnt, .fw] s.hw h := by
  refine ⟨_, rfl, ?_⟩
  simp only
  generalize s.hw = h
  exact Touches.refl.step Hw.nonceExpiry_touches

theorem execWriteSeg_touches {s : State} : ∃ h, execWriteSeg s = .next ⟨h, s.pending⟩ ∧ Touches (Block.except []) s.hw h := by
  refine ⟨_, rfl, ?_⟩
  simp only
  generalize s.hw = h
  exact Touches.refl.step Hw.opWriteSeg_touches

theorem execSegTransferTimeout_touches {l : Fin 10} {idx : BitVec 16} {sub : BitVec 8} {s : State} : ∃ h, execSegTransferTimeout l idx sub s = .next ⟨h, s.pending⟩ ∧ Touches [.tcnt, .fw] s.hw h := by
  refine ⟨_, rfl, ?_⟩
  simp only
  generalize s.hw = h
  exact Touches.refl.step Hw.segExpire_touches

end Sys2Proof.Machine
end

