-- ==== Sys2Proof/Laws/TouchHitchCmds.lean ====
section
/-! SUPPORT. Every command of Machine/HitchCmds.lean answers a next state, and what it touches of the part. -/

set_option Elab.async false

namespace Sys2Proof.Machine

theorem execTpEdgeUpdate_touches {s : State} : ∃ h, execTpEdgeUpdate s = .next ⟨h, s.pending⟩ ∧ Touches [.regs, .tcnt, .tp] s.hw h := by
  refine ⟨_, rfl, ?_⟩
  simp only
  generalize s.hw = h
  exact Touches.refl.step Hw.edgeUpdate_touches

theorem execTpHold_touches {s : State} : ∃ h, execTpHold s = .next ⟨h, s.pending⟩ ∧ Touches [.regs, .tp] s.hw h := by
  refine ⟨_, rfl, ?_⟩
  simp only
  generalize s.hw = h
  exact Touches.refl.step Hw.tpHold_touches

theorem execTmTLoRead_touches {s : State} : ∃ h, execTmTLoRead s = .next ⟨h, s.pending⟩ ∧ Touches [.regs, .resp, .tp] s.hw h := by
  refine ⟨_, rfl, ?_⟩
  simp only
  generalize s.hw = h
  exact Touches.refl.step Hw.readMark_touches

theorem execTpDisc_touches {v : BitVec 32} {s : State} : ∃ h, execTpDisc v s = .next ⟨h, s.pending⟩ ∧ Touches [.regs, .tp] s.hw h := by
  refine ⟨_, rfl, ?_⟩
  simp only
  generalize s.hw = h
  exact Touches.refl.step Hw.tpDisc_touches

theorem execTmarkCapture_touches {rise : Bool} {held : BitVec 32} {s : State} : ∃ h, execTmarkCapture rise held s = .next ⟨h, s.pending⟩ ∧ Touches [.regs, .tp] s.hw h := by
  refine ⟨_, rfl, ?_⟩
  simp only
  generalize s.hw = h
  exact Touches.refl.step Hw.markEdge_touches

theorem execHitchAdj_touches {v : BitVec 32} {s : State} : ∃ h, execHitchAdj v s = .next ⟨h, s.pending⟩ ∧ Touches [.regs, .hitch] s.hw h := by
  refine ⟨_, rfl, ?_⟩
  simp only
  generalize s.hw = h
  exact Touches.refl.step Hw.hitchAdj_touches

theorem execHitchInstantDue_touches {s : State} : ∃ h, execHitchInstantDue s = .next ⟨h, s.pending⟩ ∧ Touches [.regs, .free, .hitch] s.hw h := by
  refine ⟨_, rfl, ?_⟩
  simp only
  generalize s.hw = h
  exact Touches.refl.step Hw.instantDue_touches

theorem execHitchRelease_touches {s : State} : ∃ h, execHitchRelease s = .next ⟨h, s.pending⟩ ∧ Touches [.regs, .mem, .ecc, .free, .elogQ, .memu, .strands, .hitch, .cans] s.hw h := by
  refine ⟨_, rfl, ?_⟩
  simp only
  generalize s.hw = h
  split
  · rename_i a1 h2 e3
    refine Touches.cut (x := h2) (Touches.snd ?_ e3) fun th2 => ?_
    · exact Touches.refl.step Hw.hitchRelease_touches
    exact th2
  · rename_i a4 a5 h6 e7
    refine Touches.cut (x := h6) (Touches.snd ?_ e7) fun th6 => ?_
    · exact Touches.refl.step Hw.hitchRelease_touches
    refine Touches.ite ?_ ?_
    · exact th6.step Hw.measFrames_touches
    · exact th6

theorem execHitchBaseHiWrite_touches {v : BitVec 32} {s : State} : ∃ h, execHitchBaseHiWrite v s = .next ⟨h, s.pending⟩ ∧ Touches [.regs, .hitch] s.hw h := by
  refine ⟨_, rfl, ?_⟩
  simp only
  generalize s.hw = h
  exact Touches.refl.step Hw.hitchBase_touches

theorem execTpInactiveEdge_touches {s : State} : ∃ h, execTpInactiveEdge s = .next ⟨h, s.pending⟩ ∧ Touches [.tcnt, .tp] s.hw h := by
  refine ⟨_, rfl, ?_⟩
  simp only
  generalize s.hw = h
  exact Touches.refl.step Hw.inactiveEdge_touches

theorem execAnchorWaitExpiry_touches {s : State} : ∃ h, execAnchorWaitExpiry s = .next ⟨h, s.pending⟩ ∧ Touches [.hitch] s.hw h := by
  refine ⟨_, rfl, ?_⟩
  simp only
  generalize s.hw = h
  exact Touches.refl.step Hw.anchorExpiry_touches

theorem execHitchCopyComplete_touches {s : State} : ∃ h, execHitchCopyComplete s = .next ⟨h, s.pending⟩ ∧ Touches [.regs, .mem, .ecc, .elogQ, .memu, .strands, .hitch] s.hw h := by
  refine ⟨_, rfl, ?_⟩
  simp only
  generalize s.hw = h
  exact Touches.refl.step Hw.copyDone_touches

theorem execHitchCtrlWrite_touches {v : BitVec 32} {s : State} : ∃ h, execHitchCtrlWrite v s = .next ⟨h, s.pending⟩ ∧ Touches [.regs, .hitch] s.hw h := by
  refine ⟨_, rfl, ?_⟩
  simp only
  generalize s.hw = h
  exact Touches.refl.step Hw.hitchCtrl_touches

theorem execHoldTimeout_touches {s : State} : ∃ h, execHoldTimeout s = .next ⟨h, s.pending⟩ ∧ Touches [.regs, .tcnt, .tp] s.hw h := by
  refine ⟨_, rfl, ?_⟩
  simp only
  generalize s.hw = h
  exact Touches.refl.step Hw.holdTimeout_touches

theorem execTpDelayCal_touches {s : State} : ∃ h, execTpDelayCal s = .next ⟨h, s.pending⟩ ∧ Touches [] s.hw h := by
  refine ⟨_, rfl, ?_⟩
  simp only
  generalize s.hw = h
  exact Touches.refl

theorem execTpStepGo_touches {s : State} : ∃ h, execTpStepGo s = .next ⟨h, s.pending⟩ ∧ Touches [.regs] s.hw h := by
  refine ⟨_, rfl, ?_⟩
  simp only
  generalize s.hw = h
  exact Touches.refl.step Hw.sf_touches

theorem execHoldoverTick_touches {s : State} : ∃ h, execHoldoverTick s = .next ⟨h, s.pending⟩ ∧ Touches [.regs, .tcnt, .tp] s.hw h := by
  refine ⟨_, rfl, ?_⟩
  simp only
  generalize s.hw = h
  exact Touches.refl.step Hw.holdoverTick_touches

theorem execTcntLoRead_touches {s : State} : ∃ h, execTcntLoRead s = .next ⟨h, s.pending⟩ ∧ Touches [.regs, .resp] s.hw h := by
  refine ⟨_, rfl, ?_⟩
  simp only
  generalize s.hw = h
  exact Touches.refl.step Hw.readTcnt_touches

end Sys2Proof.Machine
end

