-- ==== Sys2Proof/Laws/TouchI2cCmds.lean ====
section
/-! SUPPORT. Every command of Machine/I2cCmds.lean answers a next state, and what it touches of the part. -/

set_option Elab.async false

namespace Sys2Proof.Machine

theorem execI2cTimeout_touches {stop : Bool} {s : State} : ∃ h, execI2cTimeout stop s = .next ⟨h, s.pending⟩ ∧ Touches [.regs, .i2c] s.hw h := by
  refine ⟨_, rfl, ?_⟩
  simp only
  generalize s.hw = h
  exact Touches.refl.step Hw.i2cTimeout_touches

theorem execI2cCommandEnd_touches {s : State} : ∃ h, execI2cCommandEnd s = .next ⟨h, s.pending⟩ ∧ Touches [.regs, .i2c] s.hw h := by
  refine ⟨_, rfl, ?_⟩
  simp only
  generalize s.hw = h
  exact Touches.refl.step Hw.i2cDone_touches

theorem execI2cDataRead_touches {s : State} : ∃ h, execI2cDataRead s = .next ⟨h, s.pending⟩ ∧ Touches [.resp, .i2c] s.hw h := by
  refine ⟨_, rfl, ?_⟩
  simp only
  generalize s.hw = h
  exact Touches.refl.step Hw.i2cRead_touches

theorem execI2cByte_touches {data : BitVec 8} {ack : Bool} {lost : Bool} {s : State} : ∃ h, execI2cByte data ack lost s = .next ⟨h, s.pending⟩ ∧ Touches [.regs, .i2c] s.hw h := by
  refine ⟨_, rfl, ?_⟩
  simp only
  generalize s.hw = h
  exact Touches.refl.step Hw.i2cByte_touches

theorem execI2cBusFreeStart_touches {s : State} : ∃ h, execI2cBusFreeStart s = .next ⟨h, s.pending⟩ ∧ Touches [.regs, .i2c] s.hw h := by
  refine ⟨_, rfl, ?_⟩
  simp only
  generalize s.hw = h
  exact Touches.refl.step Hw.i2cFree_touches

theorem execI2cDataWrite_touches {v : BitVec 8} {s : State} : ∃ h, execI2cDataWrite v s = .next ⟨h, s.pending⟩ ∧ Touches [.regs, .i2c] s.hw h := by
  refine ⟨_, rfl, ?_⟩
  simp only
  generalize s.hw = h
  exact Touches.refl.step Hw.i2cWrite_touches

theorem execI2cCmd_touches {v : BitVec 32} {s : State} : ∃ h, execI2cCmd v s = .next ⟨h, s.pending⟩ ∧ Touches [.regs, .i2c] s.hw h := by
  refine ⟨_, rfl, ?_⟩
  simp only
  generalize s.hw = h
  exact Touches.refl.step Hw.i2cCmd_touches

end Sys2Proof.Machine
end

