-- ==== Sys2Proof/Laws/TouchLinkCmds.lean ====
section
/-! SUPPORT. Every command of Machine/LinkCmds.lean answers a next state, and what it touches of the part. -/

set_option Elab.async false

namespace Sys2Proof.Machine

theorem execWowellFrameReceived_touches {l : Fin 10} {hits : List Nat} {s : State} : ∃ h, execWowellFrameReceived l hits s = .next ⟨h, s.pending⟩ ∧ Touches (Block.except []) s.hw h := by
  refine ⟨_, rfl, ?_⟩
  simp only
  generalize s.hw = h
  exact Touches.refl.step Hw.wowellReceived_touches

theorem execCanFrameReceived_touches {n : Fin 2} {id : BitVec 29} {ext : Bool} {fd : Bool} {data : List Nat} {s : State} : ∃ h, execCanFrameReceived n id ext fd data s = .next ⟨h, s.pending⟩ ∧ Touches [.regs, .cans] s.hw h := by
  refine ⟨_, rfl, ?_⟩
  simp only
  generalize s.hw = h
  exact Touches.refl.step Hw.canReceived_touches

theorem execCanBusoffRecovery_touches {n : Fin 2} {s : State} : ∃ h, execCanBusoffRecovery n s = .next ⟨h, s.pending⟩ ∧ Touches [.regs] s.hw h := by
  refine ⟨_, rfl, ?_⟩
  simp only
  generalize s.hw = h
  exact Touches.refl.step Hw.canRecover_touches

theorem execHspiByteExchange_touches {b : BitVec 8} {s : State} : ∃ h, execHspiByteExchange b s = .next ⟨h, s.pending⟩ ∧ Touches [.resp, .fw] s.hw h := by
  refine ⟨_, rfl, ?_⟩
  simp only
  generalize s.hw = h
  exact Touches.refl.step Hw.hspiByte_touches

theorem execWread_touches {a : BitVec 32} {n : BitVec 8} {s : State} : ∃ h, execWread a n s = .next ⟨h, s.pending⟩ ∧ Touches (Block.except []) s.hw h := by
  refine ⟨_, rfl, ?_⟩
  simp only
  generalize s.hw = h
  exact Touches.refl.step Hw.wread_touches

theorem execWowellGapTimeout_touches {l : Fin 10} {s : State} : ∃ h, execWowellGapTimeout l s = .next ⟨h, s.pending⟩ ∧ Touches (Block.except []) s.hw h := by
  refine ⟨_, rfl, ?_⟩
  simp only
  generalize s.hw = h
  exact Touches.refl.step Hw.wowellGap_touches

theorem execHeartbeat_touches {l : Fin 10} {s : State} : ∃ h, execHeartbeat l s = .next ⟨h, s.pending⟩ ∧ Touches [.regs, .fw, .serials, .cans] s.hw h := by
  refine ⟨_, rfl, ?_⟩
  simp only
  generalize s.hw = h
  exact Touches.refl.step Hw.heartbeatDue_touches

theorem execHspiCsDeassert_touches {s : State} : ∃ h, execHspiCsDeassert s = .next ⟨h, s.pending⟩ ∧ Touches (Block.except []) s.hw h := by
  refine ⟨_, rfl, ?_⟩
  simp only
  generalize s.hw = h
  exact Touches.refl.step Hw.hspiDeassert_touches

theorem execWwrite_touches {a : BitVec 32} {words : List Nat} {hits : List Nat} {s : State} : ∃ h, execWwrite a words hits s = .next ⟨h, s.pending⟩ ∧ Touches (Block.except []) s.hw h := by
  refine ⟨_, rfl, ?_⟩
  simp only
  generalize s.hw = h
  exact Touches.refl.step Hw.wwrite_touches

theorem execTimeFrameQueue_touches {gtime : BitVec 64} {leap : Option (BitVec 8)} {s : State} : ∃ h, execTimeFrameQueue gtime leap s = .next ⟨h, s.pending⟩ ∧ Touches [.regs, .cans] s.hw h := by
  refine ⟨_, rfl, ?_⟩
  simp only
  generalize s.hw = h
  exact Touches.refl.step Hw.timeFrameDue_touches

theorem execCanFrameSent_touches {n : Fin 2} {ok : Bool} {s : State} : ∃ h, execCanFrameSent n ok s = .next ⟨h, s.pending⟩ ∧ Touches [.regs, .cans] s.hw h := by
  refine ⟨_, rfl, ?_⟩
  simp only
  generalize s.hw = h
  exact Touches.refl.step Hw.canSent_touches

end Sys2Proof.Machine
end

