-- ==== Sys2Proof/Laws/TouchLoopInsns.lean ====
section
/-! SUPPORT. Every command of Machine/LoopInsns.lean answers a next state, and what it touches of the part. -/

set_option Elab.async false

namespace Sys2Proof.Machine

theorem execSta_touches {c : Fin 8} {hit : Bool} {s : State} : ∃ h, execSta c hit s = .next ⟨h, s.pending⟩ ∧ Touches [.regs, .mem, .ecc, .free, .resp, .elogQ, .memu, .ports, .strands, .fab, .loop] s.hw h := by
  refine ⟨_, rfl, ?_⟩
  simp only
  generalize s.hw = h
  exact Touches.refl.step Hw.runStore_touches

theorem execAddh_touches {c : Fin 8} {s : State} : ∃ h, execAddh c s = .next ⟨h, s.pending⟩ ∧ Touches [.regs, .mem, .ecc, .free, .resp, .elogQ, .ports, .strands, .fab, .loop] s.hw h := by
  refine ⟨_, rfl, ?_⟩
  simp only
  generalize s.hw = h
  exact Touches.refl.step Hw.runValue_touches

theorem execRpt_touches {c : Fin 8} {s : State} : ∃ h, execRpt c s = .next ⟨h, s.pending⟩ ∧ Touches [.regs, .mem, .ecc, .free, .elogQ, .ports, .strands, .fab, .loop] s.hw h := by
  refine ⟨_, rfl, ?_⟩
  simp only
  generalize s.hw = h
  exact Touches.refl.step Hw.runRepeat_touches

theorem execCmph_touches {c : Fin 8} {s : State} : ∃ h, execCmph c s = .next ⟨h, s.pending⟩ ∧ Touches [.regs, .mem, .ecc, .free, .resp, .elogQ, .ports, .strands, .fab, .loop] s.hw h := by
  refine ⟨_, rfl, ?_⟩
  simp only
  generalize s.hw = h
  exact Touches.refl.step Hw.runValue_touches

theorem execNorm_touches {c : Fin 8} {s : State} : ∃ h, execNorm c s = .next ⟨h, s.pending⟩ ∧ Touches [.regs, .mem, .ecc, .free, .elogQ, .ports, .strands, .fab, .loop] s.hw h := by
  refine ⟨_, rfl, ?_⟩
  simp only
  generalize s.hw = h
  exact Touches.refl.step Hw.runPlain_touches

theorem execMag_touches {c : Fin 8} {s : State} : ∃ h, execMag c s = .next ⟨h, s.pending⟩ ∧ Touches [.regs, .mem, .ecc, .free, .resp, .elogQ, .ports, .strands, .fab, .loop] s.hw h := by
  refine ⟨_, rfl, ?_⟩
  simp only
  generalize s.hw = h
  exact Touches.refl.step Hw.runValue_touches

theorem execSubh_touches {c : Fin 8} {s : State} : ∃ h, execSubh c s = .next ⟨h, s.pending⟩ ∧ Touches [.regs, .mem, .ecc, .free, .resp, .elogQ, .ports, .strands, .fab, .loop] s.hw h := by
  refine ⟨_, rfl, ?_⟩
  simp only
  generalize s.hw = h
  exact Touches.refl.step Hw.runValue_touches

theorem execStoreRetry_touches {c : Fin 8} {hit : Bool} {s : State} : ∃ h, execStoreRetry c hit s = .next ⟨h, s.pending⟩ ∧ Touches [.regs, .mem, .ecc, .resp, .elogQ, .memu, .strands, .loop] s.hw h := by
  refine ⟨_, rfl, ?_⟩
  simp only
  generalize s.hw = h
  exact Touches.refl.step Hw.storeRetry_touches

theorem execSt_touches {c : Fin 8} {hit : Bool} {s : State} : ∃ h, execSt c hit s = .next ⟨h, s.pending⟩ ∧ Touches [.regs, .mem, .ecc, .free, .resp, .elogQ, .memu, .ports, .strands, .fab, .loop] s.hw h := by
  refine ⟨_, rfl, ?_⟩
  simp only
  generalize s.hw = h
  exact Touches.refl.step Hw.runStore_touches

theorem execStg_touches {c : Fin 8} {hit : Bool} {s : State} : ∃ h, execStg c hit s = .next ⟨h, s.pending⟩ ∧ Touches [.regs, .mem, .ecc, .free, .resp, .elogQ, .memu, .ports, .strands, .fab, .loop] s.hw h := by
  refine ⟨_, rfl, ?_⟩
  simp only
  generalize s.hw = h
  exact Touches.refl.step Hw.runStore_touches

theorem execLdg_touches {c : Fin 8} {s : State} : ∃ h, execLdg c s = .next ⟨h, s.pending⟩ ∧ Touches [.regs, .mem, .ecc, .free, .resp, .elogQ, .ports, .strands, .fab, .loop] s.hw h := by
  refine ⟨_, rfl, ?_⟩
  simp only
  generalize s.hw = h
  exact Touches.refl.step Hw.runValue_touches

theorem execCall_touches {c : Fin 8} {s : State} : ∃ h, execCall c s = .next ⟨h, s.pending⟩ ∧ Touches [.regs, .mem, .ecc, .free, .elogQ, .ports, .strands, .fab, .loop] s.hw h := by
  refine ⟨_, rfl, ?_⟩
  simp only
  generalize s.hw = h
  exact Touches.refl.step Hw.runBranch_touches

theorem execAbs_touches {c : Fin 8} {s : State} : ∃ h, execAbs c s = .next ⟨h, s.pending⟩ ∧ Touches [.regs, .mem, .ecc, .free, .elogQ, .ports, .strands, .fab, .loop] s.hw h := by
  refine ⟨_, rfl, ?_⟩
  simp only
  generalize s.hw = h
  exact Touches.refl.step Hw.runPlain_touches

theorem execAddg_touches {c : Fin 8} {s : State} : ∃ h, execAddg c s = .next ⟨h, s.pending⟩ ∧ Touches [.regs, .mem, .ecc, .free, .elogQ, .ports, .strands, .fab, .loop] s.hw h := by
  refine ⟨_, rfl, ?_⟩
  simp only
  generalize s.hw = h
  exact Touches.refl.step Hw.runPlain_touches

theorem execB_touches {c : Fin 8} {s : State} : ∃ h, execB c s = .next ⟨h, s.pending⟩ ∧ Touches [.regs, .mem, .ecc, .free, .elogQ, .ports, .strands, .fab, .loop] s.hw h := by
  refine ⟨_, rfl, ?_⟩
  simp only
  generalize s.hw = h
  exact Touches.refl.step Hw.runBranch_touches

theorem execCmac_touches {c : Fin 8} {s : State} : ∃ h, execCmac c s = .next ⟨h, s.pending⟩ ∧ Touches [.regs, .mem, .ecc, .free, .resp, .elogQ, .ports, .strands, .fab, .loop] s.hw h := by
  refine ⟨_, rfl, ?_⟩
  simp only
  generalize s.hw = h
  exact Touches.refl.step Hw.runCmac_touches

theorem execSat_touches {c : Fin 8} {s : State} : ∃ h, execSat c s = .next ⟨h, s.pending⟩ ∧ Touches [.regs, .mem, .ecc, .free, .elogQ, .ports, .strands, .fab, .loop] s.hw h := by
  refine ⟨_, rfl, ?_⟩
  simp only
  generalize s.hw = h
  exact Touches.refl.step Hw.runPlain_touches

theorem execSth_touches {c : Fin 8} {hit : Bool} {s : State} : ∃ h, execSth c hit s = .next ⟨h, s.pending⟩ ∧ Touches [.regs, .mem, .ecc, .free, .resp, .elogQ, .memu, .ports, .strands, .fab, .loop] s.hw h := by
  refine ⟨_, rfl, ?_⟩
  simp only
  generalize s.hw = h
  exact Touches.refl.step Hw.runStore_touches

theorem execSub_touches {c : Fin 8} {s : State} : ∃ h, execSub c s = .next ⟨h, s.pending⟩ ∧ Touches [.regs, .mem, .ecc, .free, .resp, .elogQ, .ports, .strands, .fab, .loop] s.hw h := by
  refine ⟨_, rfl, ?_⟩
  simp only
  generalize s.hw = h
  exact Touches.refl.step Hw.runValue_touches

theorem execOr_touches {c : Fin 8} {s : State} : ∃ h, execOr c s = .next ⟨h, s.pending⟩ ∧ Touches [.regs, .mem, .ecc, .free, .resp, .elogQ, .ports, .strands, .fab, .loop] s.hw h := by
  refine ⟨_, rfl, ?_⟩
  simp only
  generalize s.hw = h
  exact Touches.refl.step Hw.runValue_touches

theorem execLd_touches {c : Fin 8} {s : State} : ∃ h, execLd c s = .next ⟨h, s.pending⟩ ∧ Touches [.regs, .mem, .ecc, .free, .resp, .elogQ, .ports, .strands, .fab, .loop] s.hw h := by
  refine ⟨_, rfl, ?_⟩
  simp only
  generalize s.hw = h
  exact Touches.refl.step Hw.runValue_touches

theorem execLdh_touches {c : Fin 8} {s : State} : ∃ h, execLdh c s = .next ⟨h, s.pending⟩ ∧ Touches [.regs, .mem, .ecc, .free, .resp, .elogQ, .ports, .strands, .fab, .loop] s.hw h := by
  refine ⟨_, rfl, ?_⟩
  simp only
  generalize s.hw = h
  exact Touches.refl.step Hw.runValue_touches

theorem execRpti_touches {c : Fin 8} {s : State} : ∃ h, execRpti c s = .next ⟨h, s.pending⟩ ∧ Touches [.regs, .mem, .ecc, .free, .elogQ, .ports, .strands, .fab, .loop] s.hw h := by
  refine ⟨_, rfl, ?_⟩
  simp only
  generalize s.hw = h
  exact Touches.refl.step Hw.runRepeat_touches

theorem execMsu_touches {c : Fin 8} {s : State} : ∃ h, execMsu c s = .next ⟨h, s.pending⟩ ∧ Touches [.regs, .mem, .ecc, .free, .resp, .elogQ, .ports, .strands, .fab, .loop] s.hw h := by
  refine ⟨_, rfl, ?_⟩
  simp only
  generalize s.hw = h
  exact Touches.refl.step Hw.runValue_touches

theorem execAtn_touches {c : Fin 8} {s : State} : ∃ h, execAtn c s = .next ⟨h, s.pending⟩ ∧ Touches [.regs, .mem, .ecc, .free, .resp, .elogQ, .ports, .strands, .fab, .loop] s.hw h := by
  refine ⟨_, rfl, ?_⟩
  simp only
  generalize s.hw = h
  exact Touches.refl.step Hw.runValue_touches

theorem execXor_touches {c : Fin 8} {s : State} : ∃ h, execXor c s = .next ⟨h, s.pending⟩ ∧ Touches [.regs, .mem, .ecc, .free, .resp, .elogQ, .ports, .strands, .fab, .loop] s.hw h := by
  refine ⟨_, rfl, ?_⟩
  simp only
  generalize s.hw = h
  exact Touches.refl.step Hw.runValue_touches

theorem execNeg_touches {c : Fin 8} {s : State} : ∃ h, execNeg c s = .next ⟨h, s.pending⟩ ∧ Touches [.regs, .mem, .ecc, .free, .elogQ, .ports, .strands, .fab, .loop] s.hw h := by
  refine ⟨_, rfl, ?_⟩
  simp only
  generalize s.hw = h
  exact Touches.refl.step Hw.runPlain_touches

theorem execAsh_touches {c : Fin 8} {s : State} : ∃ h, execAsh c s = .next ⟨h, s.pending⟩ ∧ Touches [.regs, .mem, .ecc, .free, .elogQ, .ports, .strands, .fab, .loop] s.hw h := by
  refine ⟨_, rfl, ?_⟩
  simp only
  generalize s.hw = h
  exact Touches.refl.step Hw.runPlain_touches

theorem execNop_touches {c : Fin 8} {s : State} : ∃ h, execNop c s = .next ⟨h, s.pending⟩ ∧ Touches [.regs, .mem, .ecc, .free, .elogQ, .ports, .strands, .fab, .loop] s.hw h := by
  refine ⟨_, rfl, ?_⟩
  simp only
  generalize s.hw = h
  exact Touches.refl.step Hw.runPlain_touches

theorem execMpy_touches {c : Fin 8} {s : State} : ∃ h, execMpy c s = .next ⟨h, s.pending⟩ ∧ Touches [.regs, .mem, .ecc, .free, .resp, .elogQ, .ports, .strands, .fab, .loop] s.hw h := by
  refine ⟨_, rfl, ?_⟩
  simp only
  generalize s.hw = h
  exact Touches.refl.step Hw.runValue_touches

theorem execAshm_touches {c : Fin 8} {s : State} : ∃ h, execAshm c s = .next ⟨h, s.pending⟩ ∧ Touches [.regs, .mem, .ecc, .free, .elogQ, .ports, .strands, .fab, .loop] s.hw h := by
  refine ⟨_, rfl, ?_⟩
  simp only
  generalize s.hw = h
  exact Touches.refl.step Hw.runPlain_touches

theorem execCmp_touches {c : Fin 8} {s : State} : ∃ h, execCmp c s = .next ⟨h, s.pending⟩ ∧ Touches [.regs, .mem, .ecc, .free, .resp, .elogQ, .ports, .strands, .fab, .loop] s.hw h := by
  refine ⟨_, rfl, ?_⟩
  simp only
  generalize s.hw = h
  exact Touches.refl.step Hw.runValue_touches

theorem execAnd_touches {c : Fin 8} {s : State} : ∃ h, execAnd c s = .next ⟨h, s.pending⟩ ∧ Touches [.regs, .mem, .ecc, .free, .resp, .elogQ, .ports, .strands, .fab, .loop] s.hw h := by
  refine ⟨_, rfl, ?_⟩
  simp only
  generalize s.hw = h
  exact Touches.refl.step Hw.runValue_touches

theorem execAdd_touches {c : Fin 8} {s : State} : ∃ h, execAdd c s = .next ⟨h, s.pending⟩ ∧ Touches [.regs, .mem, .ecc, .free, .resp, .elogQ, .ports, .strands, .fab, .loop] s.hw h := by
  refine ⟨_, rfl, ?_⟩
  simp only
  generalize s.hw = h
  exact Touches.refl.step Hw.runValue_touches

theorem execMac_touches {c : Fin 8} {s : State} : ∃ h, execMac c s = .next ⟨h, s.pending⟩ ∧ Touches [.regs, .mem, .ecc, .free, .resp, .elogQ, .ports, .strands, .fab, .loop] s.hw h := by
  refine ⟨_, rfl, ?_⟩
  simp only
  generalize s.hw = h
  exact Touches.refl.step Hw.runValue_touches

theorem execRet_touches {c : Fin 8} {s : State} : ∃ h, execRet c s = .next ⟨h, s.pending⟩ ∧ Touches [.regs, .mem, .ecc, .free, .elogQ, .ports, .strands, .fab, .loop] s.hw h := by
  refine ⟨_, rfl, ?_⟩
  simp only
  generalize s.hw = h
  exact Touches.refl.step Hw.runRet_touches

end Sys2Proof.Machine
end

