-- ==== Sys2Proof/Laws/TouchPkeyCmds.lean ====
section
/-! SUPPORT. Every command of Machine/PkeyCmds.lean answers a next state, and what it touches of the part. -/

set_option Elab.async false

namespace Sys2Proof.Machine

theorem execPkeyPulseDelayedStart_touches {s : State} : ∃ h, execPkeyPulseDelayedStart s = .next ⟨h, s.pending⟩ ∧ Touches [.regs, .pkey] s.hw h := by
  refine ⟨_, rfl, ?_⟩
  simp only
  generalize s.hw = h
  exact Touches.refl.step Hw.pulseDelayed_touches

theorem execCsProcedureStart_touches {k : Fin 4} {s : State} : ∃ h, execCsProcedureStart k s = .next ⟨h, s.pending⟩ ∧ Touches [.pkey] s.hw h := by
  refine ⟨_, rfl, ?_⟩
  simp only
  generalize s.hw = h
  exact Touches.refl.step Hw.csStart_touches

theorem execPkeyOutLock_touches {s : State} : ∃ h, execPkeyOutLock s = .next ⟨h, s.pending⟩ ∧ Touches [.regs, .pkey] s.hw h := by
  refine ⟨_, rfl, ?_⟩
  simp only
  generalize s.hw = h
  exact Touches.refl.step Hw.outCommand_touches

theorem execPkeyPairingRequest_touches {k : Fin 4} {entry : List Nat} {s : State} : ∃ h, execPkeyPairingRequest k entry s = .next ⟨h, s.pending⟩ ∧ Touches [.regs, .mem, .ecc, .fw, .pkey] s.hw h := by
  refine ⟨_, rfl, ?_⟩
  simp only
  generalize s.hw = h
  exact Touches.refl.step Hw.pairing_touches

theorem execPkeyCmdLock_touches {k : Fin 4} {s : State} : ∃ h, execPkeyCmdLock k s = .next ⟨h, s.pending⟩ ∧ Touches [.regs, .elogQ, .cans, .pkey] s.hw h := by
  refine ⟨_, rfl, ?_⟩
  simp only
  generalize s.hw = h
  exact Touches.refl.step Hw.cmdLock_touches

theorem execPkeyOutUnlock_touches {s : State} : ∃ h, execPkeyOutUnlock s = .next ⟨h, s.pending⟩ ∧ Touches [.regs, .pkey] s.hw h := by
  refine ⟨_, rfl, ?_⟩
  simp only
  generalize s.hw = h
  exact Touches.refl.step Hw.outCommand_touches

theorem execPkeyPulseEnd_touches {i : Fin 2} {s : State} : ∃ h, execPkeyPulseEnd i s = .next ⟨h, s.pending⟩ ∧ Touches [.regs] s.hw h := by
  refine ⟨_, rfl, ?_⟩
  simp only
  generalize s.hw = h
  exact Touches.refl.step Hw.pulseEnd_touches

theorem execPkeyProofTimeout_touches {k : Fin 4} {s : State} : ∃ h, execPkeyProofTimeout k s = .next ⟨h, s.pending⟩ ∧ Touches [.regs, .elogQ, .tcnt, .pkey] s.hw h := by
  refine ⟨_, rfl, ?_⟩
  simp only
  generalize s.hw = h
  exact Touches.refl.step Hw.proofTimeout_touches

theorem execPkeyCmdUnlock_touches {k : Fin 4} {s : State} : ∃ h, execPkeyCmdUnlock k s = .next ⟨h, s.pending⟩ ∧ Touches [.regs, .elogQ, .cans, .pkey] s.hw h := by
  refine ⟨_, rfl, ?_⟩
  simp only
  generalize s.hw = h
  exact Touches.refl.step Hw.cmdUnlock_touches

theorem execBondDelete_touches {link : Fin 10} {v : BitVec 8} {s : State} : ∃ h, execBondDelete link v s = .next ⟨h, s.pending⟩ ∧ Touches [.mem, .ecc, .fw, .pkey] s.hw h := by
  refine ⟨_, rfl, ?_⟩
  simp only
  generalize s.hw = h
  refine Touches.ite ?_ ?_
  · exact Touches.refl.step Hw.bondDelete_touches
  · exact Touches.refl

theorem execCsProcedureResult_touches {k : Fin 4} {radio : Bool} {tones : List (Nat × Int)} {rtts : List Int} {s : State} : ∃ h, execCsProcedureResult k radio tones rtts s = .next ⟨h, s.pending⟩ ∧ Touches [.regs, .elogQ, .cans, .pkey] s.hw h := by
  refine ⟨_, rfl, ?_⟩
  simp only
  generalize s.hw = h
  exact Touches.refl.step Hw.csDone_touches

theorem execAccessFrameReceived_touches {n : Fin 2} {s : State} : ∃ h, execAccessFrameReceived n s = .next ⟨h, s.pending⟩ ∧ Touches [.regs, .cans, .pkey] s.hw h := by
  refine ⟨_, rfl, ?_⟩
  simp only
  generalize s.hw = h
  exact Touches.refl.step Hw.accessFrame_touches

theorem execPkeyToken_touches {k : Fin 4} {addr : BitVec 56} {enc : Bool} {msg : List Nat} {s : State} : ∃ h, execPkeyToken k addr enc msg s = .next ⟨h, s.pending⟩ ∧ Touches [.regs, .free, .elogQ, .pkey] s.hw h := by
  refine ⟨_, rfl, ?_⟩
  simp only
  generalize s.hw = h
  exact Touches.refl.step Hw.pkeyToken_touches

theorem execPkeyProof_touches {k : Fin 4} {sig : List Nat} {s : State} : ∃ h, execPkeyProof k sig s = .next ⟨h, s.pending⟩ ∧ Touches [.regs, .elogQ, .pkey] s.hw h := by
  refine ⟨_, rfl, ?_⟩
  simp only
  generalize s.hw = h
  exact Touches.refl.step Hw.pkeyProof_touches

theorem execPkeyConnectionEnd_touches {k : Fin 4} {s : State} : ∃ h, execPkeyConnectionEnd k s = .next ⟨h, s.pending⟩ ∧ Touches [.pkey] s.hw h := by
  refine ⟨_, rfl, ?_⟩
  simp only
  generalize s.hw = h
  exact Touches.refl.step Hw.connEnd_touches

theorem execPkeyBarExpiry_touches {addr : BitVec 56} {s : State} : ∃ h, execPkeyBarExpiry addr s = .next ⟨h, s.pending⟩ ∧ Touches [.tcnt, .pkey] s.hw h := by
  refine ⟨_, rfl, ?_⟩
  simp only
  generalize s.hw = h
  exact Touches.refl.step Hw.barExpiry_touches

theorem execRemoteCmd_touches {link : Fin 10} {v : BitVec 8} {s : State} : ∃ h, execRemoteCmd link v s = .next ⟨h, s.pending⟩ ∧ Touches [.regs, .cans, .pkey] s.hw h := by
  refine ⟨_, rfl, ?_⟩
  simp only
  generalize s.hw = h
  refine Touches.ite ?_ ?_
  · exact Touches.refl.step Hw.remote_touches
  · exact Touches.refl

theorem execAdvertisingEvent_touches {s : State} : ∃ h, execAdvertisingEvent s = .next ⟨h, s.pending⟩ ∧ Touches [.sched, .pkey] s.hw h := by
  refine ⟨_, rfl, ?_⟩
  simp only
  generalize s.hw = h
  exact Touches.refl.step Hw.advertise_touches

end Sys2Proof.Machine
end

