-- ==== Sys2Proof/Laws/TouchPortCmds.lean ====
section
/-! SUPPORT. Every command of Machine/PortCmds.lean answers a next state, and what it touches of the part. -/

set_option Elab.async false

namespace Sys2Proof.Machine

theorem execStopDeclared_touches {n : Fin 4} {xs : List (Nat × Nat)} {s : State} : ∃ h, execStopDeclared n xs s = .next ⟨h, s.pending⟩ ∧ Touches [.regs, .mem, .ecc, .free, .elogQ, .ports, .strands, .fab, .loop, .hot] s.hw h := by
  refine ⟨_, rfl, ?_⟩
  simp only
  generalize s.hw = h
  exact Touches.refl.step Hw.stopDeclared_touches

theorem execMonitorWindowEnd_touches {xs : List (List (Nat × Nat))} {s : State} : ∃ h, execMonitorWindowEnd xs s = .next ⟨h, s.pending⟩ ∧ Touches [.regs, .mem, .ecc, .free, .elogQ, .ports, .strands, .fab, .loop, .hot] s.hw h := by
  refine ⟨_, rfl, ?_⟩
  simp only
  generalize s.hw = h
  exact Touches.refl.step Hw.windowEnd_touches

theorem execThresholdUpdate_touches {n : Fin 4} {s : State} : ∃ h, execThresholdUpdate n s = .next ⟨h, s.pending⟩ ∧ Touches [.regs, .ports] s.hw h := by
  refine ⟨_, rfl, ?_⟩
  simp only
  generalize s.hw = h
  exact Touches.refl.step Hw.thresholdUpdate_touches

theorem execTspiCmd_touches {v : BitVec 32} {s : State} : ∃ h, execTspiCmd v s = .next ⟨h, s.pending⟩ ∧ Touches [.regs, .tspi] s.hw h := by
  refine ⟨_, rfl, ?_⟩
  simp only
  generalize s.hw = h
  exact Touches.refl.step Hw.tspiCmd_touches

theorem execSpCntLoRead_touches {n : Fin 4} {s : State} : ∃ h, execSpCntLoRead n s = .next ⟨h, s.pending⟩ ∧ Touches [.regs, .resp] s.hw h := by
  refine ⟨_, rfl, ?_⟩
  simp only
  generalize s.hw = h
  exact Touches.refl.step Hw.readCount_touches

theorem execPortStop_touches {v : BitVec 32} {s : State} : ∃ h, execPortStop v s = .next ⟨h, s.pending⟩ ∧ Touches [.regs, .mem, .ecc, .free, .elogQ, .ports, .strands, .fab, .loop, .hitch] s.hw h := by
  refine ⟨_, rfl, ?_⟩
  simp only
  generalize s.hw = h
  exact Touches.refl.step Hw.sportCtrl_touches

theorem execDiscontinuity_touches {n : Fin 4} {s : State} : ∃ h, execDiscontinuity n s = .next ⟨h, s.pending⟩ ∧ Touches [.regs, .elogQ, .ports] s.hw h := by
  refine ⟨_, rfl, ?_⟩
  simp only
  generalize s.hw = h
  exact Touches.refl.step Hw.discontinuity_touches

theorem execPortResume_touches {n : Fin 4} {s : State} : ∃ h, execPortResume n s = .next ⟨h, s.pending⟩ ∧ Touches [.regs, .mem, .ecc, .elogQ, .ports, .strands, .fab, .loop] s.hw h := by
  refine ⟨_, rfl, ?_⟩
  simp only
  generalize s.hw = h
  exact Touches.refl.step Hw.portResume_touches

theorem execNotchDepthUpdate_touches {n : Fin 4} {m : Fin 2} {s : State} : ∃ h, execNotchDepthUpdate n m s = .next ⟨h, s.pending⟩ ∧ Touches [.regs, .free, .ports] s.hw h := by
  refine ⟨_, rfl, ?_⟩
  simp only
  generalize s.hw = h
  exact Touches.refl.step Hw.notchDepthUpdate_touches

theorem execCoilArm_touches {v : BitVec 32} {s : State} : ∃ h, execCoilArm v s = .next ⟨h, s.pending⟩ ∧ Touches [.regs, .mem, .ecc, .free, .elogQ, .ports, .strands, .fab, .loop, .coil] s.hw h := by
  refine ⟨_, rfl, ?_⟩
  simp only
  generalize s.hw = h
  exact Touches.refl.step Hw.coilCtrl_touches

theorem execCoilAbort_touches {v : BitVec 32} {s : State} : ∃ h, execCoilAbort v s = .next ⟨h, s.pending⟩ ∧ Touches [.regs, .mem, .ecc, .free, .elogQ, .ports, .strands, .fab, .loop, .coil] s.hw h := by
  refine ⟨_, rfl, ?_⟩
  simp only
  generalize s.hw = h
  exact Touches.refl.step Hw.coilCtrl_touches

theorem execNotchConfigApply_touches {n : Fin 4} {m : Fin 2} {s : State} : ∃ h, execNotchConfigApply n m s = .next ⟨h, s.pending⟩ ∧ Touches [.regs, .free, .ports] s.hw h := by
  refine ⟨_, rfl, ?_⟩
  simp only
  generalize s.hw = h
  exact Touches.refl.step Hw.notchBoundary_touches

theorem execNotchRelease_touches {n : Fin 4} {m : Fin 2} {s : State} : ∃ h, execNotchRelease n m s = .next ⟨h, s.pending⟩ ∧ Touches [.regs, .tcnt] s.hw h := by
  refine ⟨_, rfl, ?_⟩
  simp only
  generalize s.hw = h
  exact Touches.refl.step Hw.notchRelease_touches

theorem execGainControlTick_touches {s : State} : ∃ h, execGainControlTick s = .next ⟨h, s.pending⟩ ∧ Touches [.regs, .ports, .tspi] s.hw h := by
  refine ⟨_, rfl, ?_⟩
  simp only
  generalize s.hw = h
  exact Touches.refl.step Hw.gainTick_touches

theorem execPortRun_touches {n : Fin 4} {iq : Nat × Nat} {s : State} : ∃ h, execPortRun n iq s = .next ⟨h, s.pending⟩ ∧ Touches [.regs, .mem, .ecc, .free, .elogQ, .ports, .strands, .fab, .loop, .hot, .hitch] s.hw h := by
  refine ⟨_, rfl, ?_⟩
  simp only
  generalize s.hw = h
  exact Touches.refl.step Hw.portRuns_touches

theorem execPortStart_touches {v : BitVec 32} {s : State} : ∃ h, execPortStart v s = .next ⟨h, s.pending⟩ ∧ Touches [.regs, .mem, .ecc, .free, .elogQ, .ports, .strands, .fab, .loop, .hitch] s.hw h := by
  refine ⟨_, rfl, ?_⟩
  simp only
  generalize s.hw = h
  exact Touches.refl.step Hw.sportCtrl_touches

theorem execSspiTransactionDone_touches {rx : List (BitVec 8)} {s : State} : ∃ h, execSspiTransactionDone rx s = .next ⟨h, s.pending⟩ ∧ Touches [.regs, .sspi] s.hw h := by
  refine ⟨_, rfl, ?_⟩
  simp only
  generalize s.hw = h
  exact Touches.refl.step Hw.sspiDone_touches

theorem execRingBlockWritten_touches {n : Fin 4} {xs : List (Nat × Nat)} {s : State} : ∃ h, execRingBlockWritten n xs s = .next ⟨h, s.pending⟩ ∧ Touches [.regs, .mem, .ecc, .free, .elogQ, .ports, .strands, .fab, .loop, .hot] s.hw h := by
  refine ⟨_, rfl, ?_⟩
  simp only
  generalize s.hw = h
  exact Touches.refl.step Hw.blockWritten_touches

theorem execTspiRxRead_touches {s : State} : ∃ h, execTspiRxRead s = .next ⟨h, s.pending⟩ ∧ Touches [.resp, .tspi] s.hw h := by
  refine ⟨_, rfl, ?_⟩
  simp only
  generalize s.hw = h
  exact Touches.refl.step Hw.tspiRead_touches

theorem execSspiCmd_touches {v : BitVec 32} {s : State} : ∃ h, execSspiCmd v s = .next ⟨h, s.pending⟩ ∧ Touches [.sspi] s.hw h := by
  refine ⟨_, rfl, ?_⟩
  simp only
  generalize s.hw = h
  exact Touches.refl.step Hw.sspiCmd_touches

theorem execSspiDrdyEdge_touches {s : State} : ∃ h, execSspiDrdyEdge s = .next ⟨h, s.pending⟩ ∧ Touches [.regs, .free, .sspi] s.hw h := by
  refine ⟨_, rfl, ?_⟩
  simp only
  generalize s.hw = h
  exact Touches.refl.step Hw.sspiDrdy_touches

theorem execRingWriteResume_touches {n : Fin 4} {s : State} : ∃ h, execRingWriteResume n s = .next ⟨h, s.pending⟩ ∧ Touches [.ports] s.hw h := by
  refine ⟨_, rfl, ?_⟩
  simp only
  generalize s.hw = h
  exact Touches.refl.step Hw.ringResume_touches

theorem execNotchAdapt_touches {n : Fin 4} {m : Fin 2} {xs : List (Nat × Nat)} {s : State} : ∃ h, execNotchAdapt n m xs s = .next ⟨h, s.pending⟩ ∧ Touches [.regs, .mem, .ecc, .free, .elogQ, .ports, .strands, .fab, .loop, .hot] s.hw h := by
  refine ⟨_, rfl, ?_⟩
  simp only
  generalize s.hw = h
  exact Touches.refl.step Hw.notchSamples_touches

theorem execCoilRelease_touches {v : BitVec 32} {s : State} : ∃ h, execCoilRelease v s = .next ⟨h, s.pending⟩ ∧ Touches [.regs, .mem, .ecc, .free, .elogQ, .ports, .strands, .fab, .loop, .coil] s.hw h := by
  refine ⟨_, rfl, ?_⟩
  simp only
  generalize s.hw = h
  exact Touches.refl.step Hw.coilCtrl_touches

theorem execTspiTransactionDone_touches {rx : BitVec 24} {s : State} : ∃ h, execTspiTransactionDone rx s = .next ⟨h, s.pending⟩ ∧ Touches [.regs, .tspi] s.hw h := by
  refine ⟨_, rfl, ?_⟩
  simp only
  generalize s.hw = h
  exact Touches.refl.step Hw.tspiDone_touches

theorem execSpectrumPublish_touches {n : Fin 4} {s : State} : ∃ h, execSpectrumPublish n s = .next ⟨h, s.pending⟩ ∧ Touches [.regs, .elogQ, .ports] s.hw h := by
  refine ⟨_, rfl, ?_⟩
  simp only
  generalize s.hw = h
  exact Touches.refl.step Hw.publishSpectrum_touches

theorem execSspiRxRead_touches {s : State} : ∃ h, execSspiRxRead s = .next ⟨h, s.pending⟩ ∧ Touches [.resp, .sspi] s.hw h := by
  refine ⟨_, rfl, ?_⟩
  simp only
  generalize s.hw = h
  exact Touches.refl.step Hw.sspiRead_touches

theorem execSspiDrdyRead_touches {s : State} : ∃ h, execSspiDrdyRead s = .next ⟨h, s.pending⟩ ∧ Touches [.resp, .sspi] s.hw h := by
  refine ⟨_, rfl, ?_⟩
  simp only
  generalize s.hw = h
  exact Touches.refl.step Hw.sspiStamp_touches

theorem execCoilCaptureStart_touches {n : Fin 4} {s : State} : ∃ h, execCoilCaptureStart n s = .next ⟨h, s.pending⟩ ∧ Touches [.regs, .mem, .ecc, .free, .elogQ, .ports, .strands, .fab, .loop, .hot] s.hw h := by
  refine ⟨_, rfl, ?_⟩
  simp only
  generalize s.hw = h
  exact Touches.refl.step Hw.coilStart_touches

end Sys2Proof.Machine
end

