-- ==== Sys2Proof/Laws/TouchPowerCmds.lean ====
section
/-! SUPPORT. Every command of Machine/PowerCmds.lean answers a next state, and what it touches of the part. -/

set_option Elab.async false

namespace Sys2Proof.Machine

theorem execDomainWake_touches {d : Fin 4} {s : State} : ∃ h, execDomainWake d s = .next ⟨h, s.pending⟩ ∧ Touches [.regs, .resp] s.hw h := by
  refine ⟨_, rfl, ?_⟩
  simp only
  generalize s.hw = h
  exact Touches.refl.step Hw.domainWake_touches

theorem execPllUnlock_touches {s : State} : ∃ h, execPllUnlock s = .next ⟨h, s.pending⟩ ∧ Touches (Block.except [.mem, .ecc, .free, .resp, .fuses, .kept]) s.hw h := by
  refine ⟨_, rfl, ?_⟩
  simp only
  generalize s.hw = h
  refine Touches.ite ?_ ?_
  · exact Touches.refl.step Hw.coreReset_touches
  · exact Touches.refl

theorem execDomainReady_touches {d : Fin 4} {s : State} : ∃ h, execDomainReady d s = .next ⟨h, s.pending⟩ ∧ Touches (Block.except []) s.hw h := by
  refine ⟨_, rfl, ?_⟩
  simp only
  generalize s.hw = h
  exact (Touches.refl.step Hw.domainReady_touches).step Hw.resume_touches

theorem execBrownout_touches {s : State} : ∃ h, execBrownout s = .next ⟨h, s.pending⟩ ∧ Touches (Block.except [.free, .resp, .fuses, .kept]) s.hw h := by
  refine ⟨_, rfl, ?_⟩
  simp only
  generalize s.hw = h
  refine Touches.ite ?_ ?_
  · exact Touches.refl
  · exact Touches.refl.step Hw.vinReset_touches

theorem execPlTargetWrite_touches {v : BitVec 32} {s : State} : ∃ h, execPlTargetWrite v s = .next ⟨h, s.pending⟩ ∧ Touches [.regs] s.hw h := by
  refine ⟨_, rfl, ?_⟩
  simp only
  generalize s.hw = h
  exact Touches.refl.step Hw.plTarget_touches

theorem execResetPin_touches {s : State} : ∃ h, execResetPin s = .next ⟨h, s.pending⟩ ∧ Touches (Block.except [.mem, .ecc, .free, .resp, .fuses, .kept]) s.hw h := by
  refine ⟨_, rfl, ?_⟩
  simp only
  generalize s.hw = h
  refine Touches.ite ?_ ?_
  · exact Touches.refl
  · exact Touches.refl.step Hw.coreReset_touches

theorem execWatchdogTimeout_touches {s : State} : ∃ h, execWatchdogTimeout s = .next ⟨h, s.pending⟩ ∧ Touches (Block.except [.mem, .ecc, .free, .resp, .fuses, .kept]) s.hw h := by
  refine ⟨_, rfl, ?_⟩
  simp only
  generalize s.hw = h
  refine Touches.ite ?_ ?_
  · exact Touches.refl.step Hw.coreReset_touches
  · exact Touches.refl

theorem execTestenRelease_touches {s : State} : ∃ h, execTestenRelease s = .next ⟨h, s.pending⟩ ∧ Touches (Block.except [.mem, .ecc, .free, .resp, .kept]) s.hw h := by
  refine ⟨_, rfl, ?_⟩
  simp only
  generalize s.hw = h
  exact Touches.refl.step Hw.testenRelease_touches

theorem execBackupEntry_touches {s : State} : ∃ h, execBackupEntry s = .next ⟨h, s.pending⟩ ∧ Touches (Block.except [.free, .resp, .fuses, .kept]) s.hw h := by
  refine ⟨_, rfl, ?_⟩
  simp only
  generalize s.hw = h
  exact Touches.refl.step Hw.backupEnter_touches

theorem execSoftwareReset_touches {v : BitVec 32} {s : State} : ∃ h, execSoftwareReset v s = .next ⟨h, s.pending⟩ ∧ Touches (Block.except [.mem, .ecc, .free, .resp, .fuses, .kept]) s.hw h := by
  refine ⟨_, rfl, ?_⟩
  simp only
  generalize s.hw = h
  exact Touches.refl.step Hw.sysRst_touches

theorem execWakeSourceQualified_touches {src : Fin 17} {saveOk : Bool} {lost : List (Nat × Nat)} {facts : HotFacts} {wipeBad : Nat} {s : State} : ∃ h, execWakeSourceQualified src saveOk lost facts wipeBad s = .next ⟨h, s.pending⟩ ∧ Touches (Block.except [.free, .resp, .fuses]) s.hw h := by
  refine ⟨_, rfl, ?_⟩
  simp only
  generalize s.hw = h
  exact Touches.refl.step Hw.wakeSource_touches

theorem execColdBoot_touches {f : BootFacts} {s : State} : ∃ h, execColdBoot f s = .next ⟨h, s.pending⟩ ∧ Touches [.regs, .mem, .ecc, .kept, .pwr, .sys, .elogQ, .memu, .strands, .hot, .fw, .pkey, .rtc, .upd] s.hw h := by
  refine ⟨_, rfl, ?_⟩
  simp only
  generalize s.hw = h
  exact Touches.refl.step Hw.coldBoot_touches

theorem execSlackRequest_touches {v : BitVec 32} {ap : Nat} {held : List Nat} {s : State} : ∃ h, execSlackRequest v ap held s = .next ⟨h, s.pending⟩ ∧ Touches (Block.except [.fuses, .kept, .elogQ, .fw, .lyd, .upd, .fix]) s.hw h := by
  refine ⟨_, rfl, ?_⟩
  simp only
  generalize s.hw = h
  refine Touches.ite ?_ ?_
  · exact Touches.refl.step set_resp_touches
  · exact Touches.refl.step Hw.slackRequest_touches

theorem execVinLoss_touches {s : State} : ∃ h, execVinLoss s = .next ⟨h, s.pending⟩ ∧ Touches (Block.except [.free, .resp, .fuses, .kept]) s.hw h := by
  refine ⟨_, rfl, ?_⟩
  simp only
  generalize s.hw = h
  exact Touches.refl.step Hw.vinReset_touches

theorem execRefLost_touches {s : State} : ∃ h, execRefLost s = .next ⟨h, s.pending⟩ ∧ Touches (Block.except [.mem, .ecc, .free, .resp, .fuses, .kept]) s.hw h := by
  refine ⟨_, rfl, ?_⟩
  simp only
  generalize s.hw = h
  refine Touches.ite ?_ ?_
  · exact Touches.refl.step Hw.coreReset_touches
  · exact Touches.refl

theorem execBootRomHeartbeat_touches {s : State} : ∃ h, execBootRomHeartbeat s = .next ⟨h, s.pending⟩ ∧ Touches [.regs, .fw, .serials, .cans] s.hw h := by
  refine ⟨_, rfl, ?_⟩
  simp only
  generalize s.hw = h
  exact Touches.refl.step Hw.bootHeartbeat_touches

theorem execWatchdogKick_touches {v : BitVec 32} {s : State} : ∃ h, execWatchdogKick v s = .next ⟨h, s.pending⟩ ∧ Touches (Block.except [.mem, .ecc, .free, .resp, .fuses, .kept]) s.hw h := by
  refine ⟨_, rfl, ?_⟩
  simp only
  generalize s.hw = h
  exact Touches.refl.step Hw.wdKick_touches

theorem execStopExit_touches {s : State} : ∃ h, execStopExit s = .next ⟨h, s.pending⟩ ∧ Touches [.pwr] s.hw h := by
  refine ⟨_, rfl, ?_⟩
  simp only
  generalize s.hw = h
  exact Touches.refl.step Hw.stopExit_touches

theorem execPlChangeComplete_touches {s : State} : ∃ h, execPlChangeComplete s = .next ⟨h, s.pending⟩ ∧ Touches [.regs] s.hw h := by
  refine ⟨_, rfl, ?_⟩
  simp only
  generalize s.hw = h
  exact Touches.refl.step Hw.plDone_touches

theorem execStopRequest_touches {v : BitVec 32} {s : State} : ∃ h, execStopRequest v s = .next ⟨h, s.pending⟩ ∧ Touches [.regs, .pwr] s.hw h := by
  refine ⟨_, rfl, ?_⟩
  simp only
  generalize s.hw = h
  exact Touches.refl.step Hw.stopRequest_touches

theorem execPowerOnReset_touches {s : State} : ∃ h, execPowerOnReset s = .next ⟨h, s.pending⟩ ∧ Touches (Block.except [.free, .resp, .fuses, .kept]) s.hw h := by
  refine ⟨_, rfl, ?_⟩
  simp only
  generalize s.hw = h
  exact Touches.refl.step Hw.powerOn_touches

end Sys2Proof.Machine
end

