-- ==== Sys2Proof/Laws/TouchRadioCmds.lean ====
section
/-! SUPPORT. Every command of Machine/RadioCmds.lean answers a next state, and what it touches of the part. -/

set_option Elab.async false

namespace Sys2Proof.Machine

theorem execRadioTx_touches {delay : Nat} {s : State} : ∃ h, execRadioTx delay s = .next ⟨h, s.pending⟩ ∧ Touches [.regs, .free, .tcnt, .radio] s.hw h := by
  refine ⟨_, rfl, ?_⟩
  simp only
  generalize s.hw = h
  exact Touches.refl.step Hw.radioTx_touches

theorem execRadioCmdgo_touches {v : BitVec 32} {s : State} : ∃ h, execRadioCmdgo v s = .next ⟨h, s.pending⟩ ∧ Touches [.regs, .radio] s.hw h := by
  refine ⟨_, rfl, ?_⟩
  simp only
  generalize s.hw = h
  exact Touches.refl.step Hw.radioGo_touches

theorem execRadioRxTimeout_touches {s : State} : ∃ h, execRadioRxTimeout s = .next ⟨h, s.pending⟩ ∧ Touches [.regs, .radio] s.hw h := by
  refine ⟨_, rfl, ?_⟩
  simp only
  generalize s.hw = h
  exact Touches.refl.step Hw.radioRxTimeout_touches

theorem execCoexRequest_touches {s : State} : ∃ h, execCoexRequest s = .next ⟨h, s.pending⟩ ∧ Touches [.radio] s.hw h := by
  refine ⟨_, rfl, ?_⟩
  simp only
  generalize s.hw = h
  exact Touches.refl.step Hw.coexRequest_touches

theorem execRadioDoneRead_touches {s : State} : ∃ h, execRadioDoneRead s = .next ⟨h, s.pending⟩ ∧ Touches [.resp, .radio] s.hw h := by
  refine ⟨_, rfl, ?_⟩
  simp only
  generalize s.hw = h
  exact Touches.refl.step Hw.radioDoneRead_touches

theorem execRadioCs_touches {meas : List (Bool × List Nat)} {rssi : BitVec 8} {s : State} : ∃ h, execRadioCs meas rssi s = .next ⟨h, s.pending⟩ ∧ Touches [.regs, .free, .tcnt, .radio] s.hw h := by
  refine ⟨_, rfl, ?_⟩
  simp only
  generalize s.hw = h
  exact Touches.refl.step Hw.radioCs_touches

theorem execCoexGrantSample_touches {active : Bool} {s : State} : ∃ h, execCoexGrantSample active s = .next ⟨h, s.pending⟩ ∧ Touches [.regs, .radio] s.hw h := by
  refine ⟨_, rfl, ?_⟩
  simp only
  generalize s.hw = h
  exact Touches.refl.step Hw.coexSample_touches

theorem execDutyWindowAdvance_touches {s : State} : ∃ h, execDutyWindowAdvance s = .next ⟨h, s.pending⟩ ∧ Touches [.radio] s.hw h := by
  refine ⟨_, rfl, ?_⟩
  simp only
  generalize s.hw = h
  exact Touches.refl.step Hw.dutyAdvance_touches

theorem execRadioHoldTimeout_touches {s : State} : ∃ h, execRadioHoldTimeout s = .next ⟨h, s.pending⟩ ∧ Touches [.regs, .tcnt, .pkey] s.hw h := by
  refine ⟨_, rfl, ?_⟩
  simp only
  generalize s.hw = h
  exact Touches.refl.step Hw.holdTimeoutRadio_touches

theorem execCoexGrantLost_touches {meas : List (Bool × List Nat)} {rssi : BitVec 8} {s : State} : ∃ h, execCoexGrantLost meas rssi s = .next ⟨h, s.pending⟩ ∧ Touches [.regs, .free, .tcnt, .radio] s.hw h := by
  refine ⟨_, rfl, ?_⟩
  simp only
  generalize s.hw = h
  exact Touches.refl.step Hw.coexLost_touches

theorem execRadioOff_touches {s : State} : ∃ h, execRadioOff s = .next ⟨h, s.pending⟩ ∧ Touches [.regs, .tcnt, .radio] s.hw h := by
  refine ⟨_, rfl, ?_⟩
  simp only
  generalize s.hw = h
  exact Touches.refl.step Hw.radioMove_touches

theorem execRadioPaCal_touches {ts4 : Int} {s : State} : ∃ h, execRadioPaCal ts4 s = .next ⟨h, s.pending⟩ ∧ Touches [.regs, .sys] s.hw h := by
  refine ⟨_, rfl, ?_⟩
  simp only
  generalize s.hw = h
  exact Touches.refl.step Hw.paCal_touches

theorem execRadioFlush_touches {v : BitVec 32} {s : State} : ∃ h, execRadioFlush v s = .next ⟨h, s.pending⟩ ∧ Touches [.regs, .radio] s.hw h := by
  refine ⟨_, rfl, ?_⟩
  simp only
  generalize s.hw = h
  exact Touches.refl.step Hw.radioCtrl_touches

theorem execRadioHoldEvent_touches {k : Fin 4} {reply : Option (Bool × Bool × Bool)} {s : State} : ∃ h, execRadioHoldEvent k reply s = .next ⟨h, s.pending⟩ ∧ Touches [.regs, .free, .radio] s.hw h := by
  refine ⟨_, rfl, ?_⟩
  simp only
  generalize s.hw = h
  exact Touches.refl.step Hw.holdEvent_touches

theorem execHoldRel_touches {v : BitVec 32} {s : State} : ∃ h, execHoldRel v s = .next ⟨h, s.pending⟩ ∧ Touches [.regs, .radio] s.hw h := by
  refine ⟨_, rfl, ?_⟩
  simp only
  generalize s.hw = h
  exact Touches.refl.step Hw.radioCtrl_touches

theorem execRadioPacketReceived_touches {pdu : List Nat} {crcOk : Bool} {rssi : BitVec 8} {s : State} : ∃ h, execRadioPacketReceived pdu crcOk rssi s = .next ⟨h, s.pending⟩ ∧ Touches [.regs, .radio] s.hw h := by
  refine ⟨_, rfl, ?_⟩
  simp only
  generalize s.hw = h
  exact Touches.refl.step Hw.radioPacket_touches

theorem execSynthTimeout_touches {s : State} : ∃ h, execSynthTimeout s = .next ⟨h, s.pending⟩ ∧ Touches [.regs, .radio] s.hw h := by
  refine ⟨_, rfl, ?_⟩
  simp only
  generalize s.hw = h
  exact Touches.refl.step Hw.synthTimeout_touches

theorem execRadioRx_touches {delay : Nat} {s : State} : ∃ h, execRadioRx delay s = .next ⟨h, s.pending⟩ ∧ Touches [.regs, .tcnt, .radio] s.hw h := by
  refine ⟨_, rfl, ?_⟩
  simp only
  generalize s.hw = h
  exact Touches.refl.step Hw.radioRx_touches

theorem execRadioFuseBlow_touches {link : Fin 10} {v : BitVec 32} {s : State} : ∃ h, execRadioFuseBlow link v s = .next ⟨h, s.pending⟩ ∧ Touches [.regs, .radio] s.hw h := by
  refine ⟨_, rfl, ?_⟩
  simp only
  generalize s.hw = h
  exact Touches.refl.step Hw.fuseBlow_touches

theorem execRadioFuseBlowDone_touches {took : Nat} {s : State} : ∃ h, execRadioFuseBlowDone took s = .next ⟨h, s.pending⟩ ∧ Touches [.regs, .fuses, .radio] s.hw h := by
  refine ⟨_, rfl, ?_⟩
  simp only
  generalize s.hw = h
  exact Touches.refl.step Hw.fuseBlown_touches

theorem execRadioIdle_touches {s : State} : ∃ h, execRadioIdle s = .next ⟨h, s.pending⟩ ∧ Touches [.regs, .tcnt, .radio] s.hw h := by
  refine ⟨_, rfl, ?_⟩
  simp only
  generalize s.hw = h
  exact Touches.refl.step Hw.radioMove_touches

end Sys2Proof.Machine
end

