-- ==== Sys2Proof/Laws/TouchRtcCmds.lean ====
section
/-! SUPPORT. Every command of Machine/RtcCmds.lean answers a next state, and what it touches of the part. -/

set_option Elab.async false

namespace Sys2Proof.Machine

theorem execRtcQueuedWriteApply_touches {pre : Fin 32768} {s : State} : ∃ h, execRtcQueuedWriteApply pre s = .next ⟨h, s.pending⟩ ∧ Touches (Block.except []) s.hw h := by
  refine ⟨_, rfl, ?_⟩
  simp only
  generalize s.hw = h
  exact Touches.refl.step Hw.queueEdge_touches

theorem execRtcTime0Read_touches {s : State} : ∃ h, execRtcTime0Read s = .next ⟨h, s.pending⟩ ∧ Touches [.resp, .rtc] s.hw h := by
  refine ⟨_, rfl, ?_⟩
  simp only
  generalize s.hw = h
  exact Touches.refl.step Hw.readTime0_touches

theorem execRtcAdj_touches {pre : Fin 32768} {s : State} : ∃ h, execRtcAdj pre s = .next ⟨h, s.pending⟩ ∧ Touches (Block.except []) s.hw h := by
  refine ⟨_, rfl, ?_⟩
  simp only
  generalize s.hw = h
  exact Touches.refl.step Hw.queueEdge_touches

theorem execRtcCdStop_touches {pre : Fin 32768} {s : State} : ∃ h, execRtcCdStop pre s = .next ⟨h, s.pending⟩ ∧ Touches (Block.except []) s.hw h := by
  refine ⟨_, rfl, ?_⟩
  simp only
  generalize s.hw = h
  exact Touches.refl.step Hw.queueEdge_touches

theorem execRtcSecond_touches {s : State} : ∃ h, execRtcSecond s = .next ⟨h, s.pending⟩ ∧ Touches [.regs, .free, .sched, .rtc] s.hw h := by
  refine ⟨_, rfl, ?_⟩
  simp only
  generalize s.hw = h
  exact Touches.refl.step Hw.rtcSecond_touches

theorem execRtcCommit_touches {pre : Fin 32768} {s : State} : ∃ h, execRtcCommit pre s = .next ⟨h, s.pending⟩ ∧ Touches (Block.except []) s.hw h := by
  refine ⟨_, rfl, ?_⟩
  simp only
  generalize s.hw = h
  exact Touches.refl.step Hw.queueEdge_touches

theorem execRtcCapture_touches {pre : Fin 32768} {s : State} : ∃ h, execRtcCapture pre s = .next ⟨h, s.pending⟩ ∧ Touches (Block.except []) s.hw h := by
  refine ⟨_, rfl, ?_⟩
  simp only
  generalize s.hw = h
  exact Touches.refl.step Hw.queueEdge_touches

theorem execVbkpLow_touches {s : State} : ∃ h, execVbkpLow s = .next ⟨h, s.pending⟩ ∧ Touches [.regs, .rtc] s.hw h := by
  refine ⟨_, rfl, ?_⟩
  simp only
  generalize s.hw = h
  refine Touches.ite ?_ ?_
  · exact Touches.refl.step Hw.oscStopped_touches
  · exact Touches.refl

theorem execAnextRecompute_touches {s : State} : ∃ h, execAnextRecompute s = .next ⟨h, s.pending⟩ ∧ Touches [.regs, .rtc] s.hw h := by
  refine ⟨_, rfl, ?_⟩
  simp only
  generalize s.hw = h
  exact Touches.refl.step Hw.anextRecompute_touches

theorem execRtcActlWrite_touches {pre : Fin 32768} {s : State} : ∃ h, execRtcActlWrite pre s = .next ⟨h, s.pending⟩ ∧ Touches (Block.except []) s.hw h := by
  refine ⟨_, rfl, ?_⟩
  simp only
  generalize s.hw = h
  exact Touches.refl.step Hw.queueEdge_touches

theorem execRtcCountdownExpiry_touches {s : State} : ∃ h, execRtcCountdownExpiry s = .next ⟨h, s.pending⟩ ∧ Touches [.regs, .free, .sched, .rtc] s.hw h := by
  refine ⟨_, rfl, ?_⟩
  simp only
  generalize s.hw = h
  exact Touches.refl.step Hw.countdownExpiry_touches

theorem execEvPop_touches {n : Fin 4} {pre : Fin 32768} {s : State} : ∃ h, execEvPop n pre s = .next ⟨h, s.pending⟩ ∧ Touches (Block.except []) s.hw h := by
  refine ⟨_, rfl, ?_⟩
  simp only
  generalize s.hw = h
  exact Touches.refl.step Hw.queueEdge_touches

theorem execRtcCdStart_touches {pre : Fin 32768} {s : State} : ∃ h, execRtcCdStart pre s = .next ⟨h, s.pending⟩ ∧ Touches (Block.except []) s.hw h := by
  refine ⟨_, rfl, ?_⟩
  simp only
  generalize s.hw = h
  exact Touches.refl.step Hw.queueEdge_touches

theorem execOscStopDetected_touches {s : State} : ∃ h, execOscStopDetected s = .next ⟨h, s.pending⟩ ∧ Touches [.regs, .rtc] s.hw h := by
  refine ⟨_, rfl, ?_⟩
  simp only
  generalize s.hw = h
  exact Touches.refl.step Hw.oscStopped_touches

theorem execRtcDiscipline_touches {ofs : Int} {utc : Nat} {drift : Int} {s : State} : ∃ h, execRtcDiscipline ofs utc drift s = .next ⟨h, s.pending⟩ ∧ Touches [.resp, .fw, .rtc] s.hw h := by
  refine ⟨_, rfl, ?_⟩
  simp only
  generalize s.hw = h
  exact Touches.refl.step Hw.rtcDiscipline_touches

theorem execEventInputQualified_touches {n : Fin 4} {active : Bool} {pre : Fin 32768} {s : State} : ∃ h, execEventInputQualified n active pre s = .next ⟨h, s.pending⟩ ∧ Touches [.regs, .mem, .ecc, .free, .pwr, .elogQ, .memu, .sched, .rtc] s.hw h := by
  refine ⟨_, rfl, ?_⟩
  generalize s.hw = h
  have th : Touches [.regs, .mem, .ecc, .free, .pwr, .elogQ, .memu, .sched, .rtc] h (h.eventQualified n.val active pre.val) :=
    Touches.refl.step Hw.eventQualified_touches
  exact th.step Hw.tamperWipe_touches

end Sys2Proof.Machine
end

