-- ==== Sys2Proof/Laws/TouchSerialCmds.lean ====
section
/-! SUPPORT. Every command of Machine/SerialCmds.lean answers a next state, and what it touches of the part. -/

set_option Elab.async false

namespace Sys2Proof.Machine

theorem execSlowExit_touches {n : Fin 2} {v : BitVec 32} {s : State} : ∃ h, execSlowExit n v s = .next ⟨h, s.pending⟩ ∧ Touches [.regs, .serials] s.hw h := by
  refine ⟨_, rfl, ?_⟩
  simp only
  generalize s.hw = h
  exact Touches.refl.step Hw.uartSlow_touches

theorem execUartCtsAsserted_touches {n : Fin 2} {s : State} : ∃ h, execUartCtsAsserted n s = .next ⟨h, s.pending⟩ ∧ Touches [.fw, .serials] s.hw h := by
  refine ⟨_, rfl, ?_⟩
  simp only
  generalize s.hw = h
  exact Touches.refl.step Hw.ctsLow_touches

theorem execUartDataWrite_touches {n : Fin 7} {v : BitVec 32} {s : State} : ∃ h, execUartDataWrite n v s = .next ⟨h, s.pending⟩ ∧ Touches [.regs, .fw, .serials] s.hw h := by
  refine ⟨_, rfl, ?_⟩
  simp only
  generalize s.hw = h
  exact Touches.refl.step Hw.uartWrite_touches

theorem execDetach_touches {sid : BitVec 8} {s : State} : ∃ h, execDetach sid s = .next ⟨h, s.pending⟩ ∧ Touches [.regs, .fw, .serials, .lyd, .upd] s.hw h := by
  refine ⟨_, rfl, ?_⟩
  simp only
  generalize s.hw = h
  refine Touches.ite ?_ ?_
  · exact Touches.refl.step Hw.lydDetach_touches
  · exact Touches.refl

theorem execLydSessionTimeout_touches {s : State} : ∃ h, execLydSessionTimeout s = .next ⟨h, s.pending⟩ ∧ Touches [.regs, .tcnt, .fw, .serials, .lyd, .upd] s.hw h := by
  refine ⟨_, rfl, ?_⟩
  simp only
  generalize s.hw = h
  exact Touches.refl.step Hw.lydTimeout_touches

theorem execKeep_touches {sid : BitVec 8} {s : State} : ∃ h, execKeep sid s = .next ⟨h, s.pending⟩ ∧ Touches [.regs, .lyd] s.hw h := by
  refine ⟨_, rfl, ?_⟩
  simp only
  generalize s.hw = h
  refine Touches.ite ?_ ?_
  · exact Touches.refl.step Hw.lydKeep_touches
  · exact Touches.refl

theorem execUartTxFlush_touches {n : Fin 7} {v : BitVec 32} {s : State} : ∃ h, execUartTxFlush n v s = .next ⟨h, s.pending⟩ ∧ Touches [.regs, .serials] s.hw h := by
  refine ⟨_, rfl, ?_⟩
  simp only
  generalize s.hw = h
  exact Touches.refl.step Hw.uartFifo_touches

theorem execLydRate_touches {sid : BitVec 8} {inc : BitVec 16} {mod : BitVec 16} {s : State} : ∃ h, execLydRate sid inc mod s = .next ⟨h, s.pending⟩ ∧ Touches [.regs, .fw, .serials, .lyd] s.hw h := by
  refine ⟨_, rfl, ?_⟩
  simp only
  generalize s.hw = h
  refine Touches.ite ?_ ?_
  · exact Touches.refl.step Hw.lydRate_touches
  · exact Touches.refl

theorem execUartCharReceived_touches {n : Fin 7} {ticks : List Bool} {s : State} : ∃ h, execUartCharReceived n ticks s = .next ⟨h, s.pending⟩ ∧ Touches [.regs, .fw, .serials] s.hw h := by
  refine ⟨_, rfl, ?_⟩
  simp only
  generalize s.hw = h
  exact Touches.refl.step Hw.uartReceived_touches

theorem execLydLineLow_touches {s : State} : ∃ h, execLydLineLow s = .next ⟨h, s.pending⟩ ∧ Touches [.regs, .fw, .serials, .lyd, .upd] s.hw h := by
  refine ⟨_, rfl, ?_⟩
  simp only
  generalize s.hw = h
  exact Touches.refl.step Hw.lydEnd_touches

theorem execLydRateTimeout_touches {s : State} : ∃ h, execLydRateTimeout s = .next ⟨h, s.pending⟩ ∧ Touches [.regs, .tcnt, .fw, .serials, .lyd, .upd] s.hw h := by
  refine ⟨_, rfl, ?_⟩
  simp only
  generalize s.hw = h
  exact Touches.refl.step Hw.lydRateTimeout_touches

theorem execUartBreakWrite_touches {n : Fin 7} {v : BitVec 32} {s : State} : ∃ h, execUartBreakWrite n v s = .next ⟨h, s.pending⟩ ∧ Touches [.regs, .fw, .serials] s.hw h := by
  refine ⟨_, rfl, ?_⟩
  simp only
  generalize s.hw = h
  exact Touches.refl.step Hw.uartWrite_touches

theorem execUartDataRead_touches {n : Fin 7} {s : State} : ∃ h, execUartDataRead n s = .next ⟨h, s.pending⟩ ∧ Touches [.resp, .serials] s.hw h := by
  refine ⟨_, rfl, ?_⟩
  simp only
  generalize s.hw = h
  exact Touches.refl.step Hw.uartRead_touches

theorem execUartGuardElapsed_touches {n : Fin 7} {s : State} : ∃ h, execUartGuardElapsed n s = .next ⟨h, s.pending⟩ ∧ Touches [.fw, .serials] s.hw h := by
  refine ⟨_, rfl, ?_⟩
  simp only
  generalize s.hw = h
  exact Touches.refl.step Hw.guardElapsed_touches

theorem execUartIdleDetect_touches {n : Fin 7} {s : State} : ∃ h, execUartIdleDetect n s = .next ⟨h, s.pending⟩ ∧ Touches [.regs] s.hw h := by
  refine ⟨_, rfl, ?_⟩
  simp only
  generalize s.hw = h
  exact Touches.refl.step Hw.uartIdle_touches

theorem execUartRxFlush_touches {n : Fin 7} {v : BitVec 32} {s : State} : ∃ h, execUartRxFlush n v s = .next ⟨h, s.pending⟩ ∧ Touches [.regs, .serials] s.hw h := by
  refine ⟨_, rfl, ?_⟩
  simp only
  generalize s.hw = h
  exact Touches.refl.step Hw.uartFifo_touches

theorem execServiceRoleExpiry_touches {s : State} : ∃ h, execServiceRoleExpiry s = .next ⟨h, s.pending⟩ ∧ Touches [.regs, .tcnt, .fw] s.hw h := by
  refine ⟨_, rfl, ?_⟩
  simp only
  generalize s.hw = h
  exact Touches.refl.step Hw.serviceExpiry_touches

theorem execUartRateWrite_touches {n : Fin 7} {fmt : Bool} {v : BitVec 32} {busy : Bool} {s : State} : ∃ h, execUartRateWrite n fmt v busy s = .next ⟨h, s.pending⟩ ∧ Touches [.regs, .serials] s.hw h := by
  refine ⟨_, rfl, ?_⟩
  simp only
  generalize s.hw = h
  refine Touches.ite ?_ ?_
  · exact Touches.refl
  · exact (Touches.refl.step Hw.sf_touches).step Hw.uartShadow_touches

theorem execUartSlowChar_touches {n : Fin 2} {edges : List Bool} {s : State} : ∃ h, execUartSlowChar n edges s = .next ⟨h, s.pending⟩ ∧ Touches [.regs, .serials] s.hw h := by
  refine ⟨_, rfl, ?_⟩
  simp only
  generalize s.hw = h
  exact Touches.refl.step Hw.slowChar_touches

theorem execUartCharSent_touches {n : Fin 7} {d : BitVec 9} {par : Bool} {stop : Bool} {noise : Bool} {cts : Bool} {s : State} : ∃ h, execUartCharSent n d par stop noise cts s = .next ⟨h, s.pending⟩ ∧ Touches [.regs, .fw, .serials, .lyd] s.hw h := by
  refine ⟨_, rfl, ?_⟩
  simp only
  generalize s.hw = h
  exact Touches.refl.step Hw.charSent_touches

theorem execAttach_touches {tool : BitVec 32} {s : State} : ∃ h, execAttach tool s = .next ⟨h, s.pending⟩ ∧ Touches [.regs, .fw, .serials, .lyd, .upd] s.hw h :=
  ⟨_, rfl, Touches.ite (Touches.refl.step Hw.lydAttach_touches) Touches.refl⟩

end Sys2Proof.Machine
end

