-- ==== Sys2Proof/Laws/TouchSnapCmds.lean ====
section
/-! SUPPORT. Every command of Machine/SnapCmds.lean answers a next state, and what it touches of the part. -/

set_option Elab.async false

namespace Sys2Proof.Machine

theorem execHsSaveNow_touches {live : List Nat} {s : State} : ∃ h, execHsSaveNow live s = .next ⟨h, s.pending⟩ ∧ Touches [.mem, .ecc, .hot] s.hw h := by
  refine ⟨_, rfl, ?_⟩
  simp only
  generalize s.hw = h
  exact Touches.refl.step Hw.hsSaveNow_touches

theorem execCoilStreamTimeout_touches {s : State} : ∃ h, execCoilStreamTimeout s = .next ⟨h, s.pending⟩ ∧ Touches [.regs, .mem, .ecc, .free, .elogQ, .ports, .strands, .fab, .loop, .tcnt, .hot, .fw] s.hw h := by
  refine ⟨_, rfl, ?_⟩
  simp only
  generalize s.hw = h
  exact Touches.refl.step Hw.coilStreamTimeout_touches

theorem execCoilReleaseObject_touches {l : Fin 10} {s : State} : ∃ h, execCoilReleaseObject l s = .next ⟨h, s.pending⟩ ∧ Touches [.regs, .mem, .ecc, .free, .elogQ, .ports, .strands, .fab, .loop, .hot] s.hw h := by
  refine ⟨_, rfl, ?_⟩
  simp only
  generalize s.hw = h
  refine Touches.ite ?_ ?_
  · exact Touches.refl.step Hw.coilReleaseObj_touches
  · exact Touches.refl

theorem execHsSave_touches {live : List Nat} {s : State} : ∃ h, execHsSave live s = .next ⟨h, s.pending⟩ ∧ Touches [.mem, .ecc, .hot] s.hw h := by
  refine ⟨_, rfl, ?_⟩
  simp only
  generalize s.hw = h
  exact Touches.refl.step Hw.hsSave_touches

theorem execSnapshotCycle_touches {what : SnapStep} {live : List Nat} {s : State} : ∃ h, execSnapshotCycle what live s = .next ⟨h, s.pending⟩ ∧ Touches (Block.except [.fuses, .kept, .lyd, .upd, .fix]) s.hw h := by
  refine ⟨_, rfl, ?_⟩
  simp only
  generalize s.hw = h
  exact Touches.refl.step Hw.snapCycle_touches

end Sys2Proof.Machine
end

