-- ==== Sys2Proof/Laws/TouchStrandCmds.lean ====
section
/-! SUPPORT. Every command of Machine/StrandCmds.lean answers a next state, and what it touches of the part. -/

set_option Elab.async false

namespace Sys2Proof.Machine

theorem execStagedBodyApply_touches {k : Fin 512} {s : State} : ∃ h, execStagedBodyApply k s = .next ⟨h, s.pending⟩ ∧ Touches [.regs, .mem, .ecc, .free, .elogQ, .ports, .strands, .fab, .loop] s.hw h := by
  refine ⟨_, rfl, ?_⟩
  simp only
  generalize s.hw = h
  exact (Touches.refl.step Hw.applyAtBlock_touches).step Hw.refill_touches

theorem execTrancheStart_touches {i : Fin 64} {s : State} : ∃ h, execTrancheStart i s = .next ⟨h, s.pending⟩ ∧ Touches [.regs, .ports, .strands, .fab, .loop] s.hw h := by
  refine ⟨_, rfl, ?_⟩
  simp only
  generalize s.hw = h
  exact Touches.refl.step Hw.startTranche_touches

theorem execEngineTestStart_touches {v : BitVec 32} {s : State} : ∃ h, execEngineTestStart v s = .next ⟨h, s.pending⟩ ∧ Touches [.regs, .fab] s.hw h := by
  refine ⟨_, rfl, ?_⟩
  simp only
  generalize s.hw = h
  exact Touches.refl.step Hw.testStart_touches

theorem execTrancheAllocate_touches {s : State} : ∃ h, execTrancheAllocate s = .next ⟨h, s.pending⟩ ∧ Touches [.strands, .fab] s.hw h := by
  refine ⟨_, rfl, ?_⟩
  simp only
  generalize s.hw = h
  exact Touches.refl.step Hw.allocate_touches

theorem execPreemptSave_touches {c : Fin 8} {s : State} : ∃ h, execPreemptSave c s = .next ⟨h, s.pending⟩ ∧ Touches [.regs, .loop] s.hw h := by
  refine ⟨_, rfl, ?_⟩
  simp only
  generalize s.hw = h
  exact Touches.refl.step Hw.preemptSave_touches

theorem execDoorbellServed_touches {s : State} : ∃ h, execDoorbellServed s = .next ⟨h, s.pending⟩ ∧ Touches [.regs, .mem, .ecc, .free, .elogQ, .ports, .strands, .fab, .loop] s.hw h := by
  refine ⟨_, rfl, ?_⟩
  simp only
  generalize s.hw = h
  exact Touches.refl.step Hw.serveBell_touches

theorem execDispatchToDeque_touches {s : State} : ∃ h, execDispatchToDeque s = .next ⟨h, s.pending⟩ ∧ Touches [.regs, .mem, .ecc, .elogQ, .ports, .strands, .fab, .loop] s.hw h := by
  refine ⟨_, rfl, ?_⟩
  simp only
  generalize s.hw = h
  exact Touches.refl.step Hw.dispatchItem_touches

theorem execItemComplete_touches {e : Fin 32} {s : State} : ∃ h, execItemComplete e s = .next ⟨h, s.pending⟩ ∧ Touches [.regs, .mem, .ecc, .elogQ, .ports, .strands, .fab, .loop] s.hw h := by
  refine ⟨_, rfl, ?_⟩
  simp only
  generalize s.hw = h
  exact (Touches.refl.step Hw.itemComplete_touches).step Hw.refill_touches

theorem execEngineRestMarch_touches {s : State} : ∃ h, execEngineRestMarch s = .next ⟨h, s.pending⟩ ∧ Touches [.fab] s.hw h := by
  refine ⟨_, rfl, ?_⟩
  simp only
  generalize s.hw = h
  exact Touches.refl.step Hw.testMarch_touches

theorem execLoopTaskDispatch_touches {c : Fin 8} {s : State} : ∃ h, execLoopTaskDispatch c s = .next ⟨h, s.pending⟩ ∧ Touches [.regs, .ecc, .free, .elogQ, .strands, .loop] s.hw h := by
  refine ⟨_, rfl, ?_⟩
  simp only
  generalize s.hw = h
  exact Touches.refl.step Hw.taskDispatch_touches

theorem execFabFlush_touches {v : BitVec 32} {s : State} : ∃ h, execFabFlush v s = .next ⟨h, s.pending⟩ ∧ Touches [.regs, .fab] s.hw h := by
  refine ⟨_, rfl, ?_⟩
  simp only
  generalize s.hw = h
  exact Touches.refl.step Hw.ringBell_touches

theorem execGather_touches {c : Fin 4} {s : State} : ∃ h, execGather c s = .next ⟨h, s.pending⟩ ∧ Touches [.regs, .mem, .ecc, .elogQ, .ports, .strands, .fab, .loop] s.hw h := by
  refine ⟨_, rfl, ?_⟩
  simp only
  generalize s.hw = h
  exact (Touches.refl.step Hw.gather_touches).step Hw.refill_touches

theorem execPullTmoExpiry_touches {k : Fin 512} {s : State} : ∃ h, execPullTmoExpiry k s = .next ⟨h, s.pending⟩ ∧ Touches [.regs, .mem, .ecc, .free, .elogQ, .ports, .strands, .fab, .loop] s.hw h := by
  refine ⟨_, rfl, ?_⟩
  simp only
  generalize s.hw = h
  exact (Touches.refl.step Hw.pullExpiry_touches).step Hw.refill_touches

theorem execEngineTestComplete_touches {pass : Bool} {s : State} : ∃ h, execEngineTestComplete pass s = .next ⟨h, s.pending⟩ ∧ Touches [.regs, .mem, .ecc, .free, .pwr, .elogQ, .ports, .strands, .fab, .loop] s.hw h := by
  refine ⟨_, rfl, ?_⟩
  simp only
  generalize s.hw = h
  exact (Touches.refl.step Hw.testDone_touches).step Hw.refill_touches

theorem execEngineTake_touches {e : Fin 32} {s : State} : ∃ h, execEngineTake e s = .next ⟨h, s.pending⟩ ∧ Touches [.regs, .mem, .ecc, .elogQ, .ports, .strands, .fab, .loop] s.hw h := by
  refine ⟨_, rfl, ?_⟩
  simp only
  generalize s.hw = h
  exact (Touches.refl.step Hw.engineTake_touches).step Hw.refill_touches

theorem execStrandScan_touches {s : State} : ∃ h, execStrandScan s = .next ⟨h, s.pending⟩ ∧ Touches [.regs, .mem, .ecc, .free, .elogQ, .ports, .strands, .fab, .loop] s.hw h := by
  refine ⟨_, rfl, ?_⟩
  simp only
  generalize s.hw = h
  exact Touches.refl.step Hw.scan_touches

theorem execIntegrationClose_touches {k : Fin 512} {s : State} : ∃ h, execIntegrationClose k s = .next ⟨h, s.pending⟩ ∧ Touches [.regs, .mem, .ecc, .free, .elogQ, .ports, .strands, .fab, .loop] s.hw h := by
  refine ⟨_, rfl, ?_⟩
  simp only
  generalize s.hw = h
  exact (Touches.refl.step Hw.close_touches).step Hw.refill_touches

theorem execSearchDetectEntry_touches {k : Fin 512} {s : State} : ∃ h, execSearchDetectEntry k s = .next ⟨h, s.pending⟩ ∧ Touches [.regs, .mem, .ecc, .free, .elogQ, .ports, .strands, .fab, .loop] s.hw h := by
  refine ⟨_, rfl, ?_⟩
  simp only
  generalize s.hw = h
  exact (Touches.refl.step Hw.detectEntry_touches).step Hw.refill_touches

theorem execReaperSweep_touches {s : State} : ∃ h, execReaperSweep s = .next ⟨h, s.pending⟩ ∧ Touches [.regs, .mem, .ecc, .elogQ, .ports, .strands, .fab, .loop] s.hw h := by
  refine ⟨_, rfl, ?_⟩
  simp only
  generalize s.hw = h
  exact Touches.refl.step Hw.reaperSweep_touches

theorem execCoastMaxExpiry_touches {k : Fin 512} {s : State} : ∃ h, execCoastMaxExpiry k s = .next ⟨h, s.pending⟩ ∧ Touches [.regs, .mem, .ecc, .free, .elogQ, .ports, .strands, .fab, .loop] s.hw h := by
  refine ⟨_, rfl, ?_⟩
  simp only
  generalize s.hw = h
  exact (Touches.refl.step Hw.coastExpiry_touches).step Hw.refill_touches

end Sys2Proof.Machine
end

