-- ==== Sys2Proof/Laws/TouchUnitCmds.lean ====
section
/-! SUPPORT. Every command of Machine/UnitCmds.lean answers a next state, and what it touches of the part. -/

set_option Elab.async false

namespace Sys2Proof.Machine

theorem execWipeStart_touches {s : State} : ∃ h, execWipeStart s = .next ⟨h, s.pending⟩ ∧ Touches [.regs, .mem, .ecc, .memu] s.hw h := by
  refine ⟨_, rfl, ?_⟩
  simp only
  generalize s.hw = h
  exact Touches.refl.step Hw.wipeStart_touches

theorem execUnitRunOn_touches {u : Fin 18} {s : State} : ∃ h, execUnitRunOn u s = .next ⟨h, s.pending⟩ ∧ Touches [.regs] s.hw h := by
  refine ⟨_, rfl, ?_⟩
  simp only
  generalize s.hw = h
  exact Touches.refl.step Hw.unitRunOn_touches

theorem execLcRequest_touches {link : Fin 10} {v : BitVec 32} {s : State} : ∃ h, execLcRequest link v s = .next ⟨h, s.pending⟩ ∧ Touches [.regs, .pwr, .elogQ, .memu] s.hw h := by
  refine ⟨_, rfl, ?_⟩
  simp only
  generalize s.hw = h
  exact Touches.refl.step Hw.lcRequest_touches

theorem execMramWordWriteDone_touches {s : State} : ∃ h, execMramWordWriteDone s = .next ⟨h, s.pending⟩ ∧ Touches (Block.except []) s.hw h := by
  refine ⟨_, rfl, ?_⟩
  simp only
  generalize s.hw = h
  exact (Touches.refl.step Hw.mramDone_touches).step Hw.resume_touches

theorem execKeyLoadCmd_touches {link : Fin 10} {v : BitVec 32} {s : State} : ∃ h, execKeyLoadCmd link v s = .next ⟨h, s.pending⟩ ∧ Touches [.regs, .mem, .ecc, .kept, .pwr, .memu, .fw] s.hw h := by
  refine ⟨_, rfl, ?_⟩
  simp only
  generalize s.hw = h
  refine Touches.ite ?_ ?_
  · exact (Touches.refl.step Hw.thimbleCmd_touches).step Hw.fwKeep_touches
  · exact Touches.refl

theorem execUnitFillComplete_touches {u : Fin 18} {s : State} : ∃ h, execUnitFillComplete u s = .next ⟨h, s.pending⟩ ∧ Touches [.regs, .mem, .ecc] s.hw h := by
  refine ⟨_, rfl, ?_⟩
  simp only
  generalize s.hw = h
  exact Touches.refl.step Hw.unitFilled_touches

theorem execWipeVerified_touches {ok : Bool} {s : State} : ∃ h, execWipeVerified ok s = .next ⟨h, s.pending⟩ ∧ Touches (Block.except [.free, .resp]) s.hw h := by
  refine ⟨_, rfl, ?_⟩
  simp only
  generalize s.hw = h
  split
  · rename_i a1 h2 e3
    refine Touches.cut (x := h2) (Touches.snd ?_ e3) fun th2 => ?_
    · exact Touches.refl.step Hw.wipeVerified_touches
    exact th2.step Hw.fwKeep_touches
  · rename_i a4 a5 h6 e7
    refine Touches.cut (x := h6) (Touches.snd ?_ e7) fun th6 => ?_
    · exact Touches.refl.step Hw.wipeVerified_touches
    exact (th6.step Hw.fwKeep_touches).step Hw.lifecycleReset_touches

theorem execKloadImage_touches {img : List Nat} {s : State} : ∃ h, execKloadImage img s = .next ⟨h, s.pending⟩ ∧ Touches [.regs, .mem, .ecc, .resp, .fw] s.hw h := by
  refine ⟨_, rfl, ?_⟩
  simp only
  generalize s.hw = h
  refine Touches.ite ?_ ?_
  · exact Touches.refl.step Hw.kload_touches
  · exact Touches.refl

theorem execKslotCfgWrite_touches {n : Fin 16} {range : Bool} {v : BitVec 32} {s : State} : ∃ h, execKslotCfgWrite n range v s = .next ⟨h, s.pending⟩ ∧ Touches [.regs] s.hw h := by
  refine ⟨_, rfl, ?_⟩
  simp only
  generalize s.hw = h
  refine Touches.ite ?_ ?_
  · exact Touches.refl.step Hw.slotRangeWrite_touches
  · exact Touches.refl.step Hw.slotCfgWrite_touches

theorem execMarchTestStart_touches {v : BitVec 32} {s : State} : ∃ h, execMarchTestStart v s = .next ⟨h, s.pending⟩ ∧ Touches [.regs, .memu] s.hw h := by
  refine ⟨_, rfl, ?_⟩
  simp only
  generalize s.hw = h
  exact Touches.refl.step Hw.marchWrite_touches

theorem execKunload_touches {v : BitVec 8} {s : State} : ∃ h, execKunload v s = .next ⟨h, s.pending⟩ ∧ Touches [.regs, .mem, .ecc, .resp, .fw] s.hw h := by
  refine ⟨_, rfl, ?_⟩
  simp only
  generalize s.hw = h
  refine Touches.ite ?_ ?_
  · exact Touches.refl.step Hw.kunload_touches
  · exact Touches.refl

theorem execLiveRepairComplete_touches {spareOk : Bool} {s : State} : ∃ h, execLiveRepairComplete spareOk s = .next ⟨h, s.pending⟩ ∧ Touches (Block.except []) s.hw h := by
  refine ⟨_, rfl, ?_⟩
  simp only
  generalize s.hw = h
  exact ((Touches.refl.step Hw.repairDone_touches).step Hw.fwKeep_touches).step Hw.resume_touches

theorem execUnitRunOff_touches {u : Fin 18} {s : State} : ∃ h, execUnitRunOff u s = .next ⟨h, s.pending⟩ ∧ Touches [.regs, .mem, .ecc] s.hw h := by
  refine ⟨_, rfl, ?_⟩
  simp only
  generalize s.hw = h
  exact Touches.refl.step Hw.unitRunOff_touches

theorem execMarchTestComplete_touches {rows : List (Nat × Nat)} {bad : List (Nat × Nat)} {s : State} : ∃ h, execMarchTestComplete rows bad s = .next ⟨h, s.pending⟩ ∧ Touches (Block.except []) s.hw h := by
  refine ⟨_, rfl, ?_⟩
  simp only
  generalize s.hw = h
  exact ((Touches.refl.step Hw.marchDone_touches).step Hw.fwKeep_touches).step Hw.resume_touches

theorem execTamperUnlock_touches {link : Fin 10} {v : BitVec 32} {s : State} : ∃ h, execTamperUnlock link v s = .next ⟨h, s.pending⟩ ∧ Touches [.regs, .mem, .ecc, .kept, .pwr, .memu, .fw] s.hw h := by
  refine ⟨_, rfl, ?_⟩
  simp only
  generalize s.hw = h
  refine Touches.ite ?_ ?_
  · exact (Touches.refl.step Hw.thimbleCmd_touches).step Hw.fwKeep_touches
  · exact Touches.refl

theorem execThimbleWipeCmd_touches {link : Fin 10} {v : BitVec 32} {s : State} : ∃ h, execThimbleWipeCmd link v s = .next ⟨h, s.pending⟩ ∧ Touches [.regs, .mem, .ecc, .kept, .pwr, .memu, .fw] s.hw h := by
  refine ⟨_, rfl, ?_⟩
  simp only
  generalize s.hw = h
  refine Touches.ite ?_ ?_
  · exact (Touches.refl.step Hw.thimbleCmd_touches).step Hw.fwKeep_touches
  · exact Touches.refl

end Sys2Proof.Machine
end

