-- ==== Sys2Proof/Laws/TouchUpdateCmds.lean ====
section
/-! SUPPORT. Every command of Machine/UpdateCmds.lean answers a next state, and what it touches of the part. -/

set_option Elab.async false

namespace Sys2Proof.Machine

theorem execUpdActivate_touches {link : Fin 10} {s : State} : ∃ h, execUpdActivate link s = .next ⟨h, s.pending⟩ ∧ Touches [.regs, .mem, .ecc, .free, .resp, .kept, .sys, .elogQ, .memu, .fab, .hitch, .fw, .serials, .lyd, .radio, .pkey, .upd] s.hw h := by
  refine ⟨_, rfl, ?_⟩
  simp only
  generalize s.hw = h
  refine Touches.ite ?_ ?_
  · exact Touches.refl.step Hw.updActivate_touches
  · exact Touches.refl

theorem execUpdTransferTimeout_touches {s : State} : ∃ h, execUpdTransferTimeout s = .next ⟨h, s.pending⟩ ∧ Touches [.tcnt, .upd] s.hw h := by
  refine ⟨_, rfl, ?_⟩
  simp only
  generalize s.hw = h
  exact Touches.refl.step Hw.updTimeout_touches

theorem execLongSpliceStart_touches {v : BitVec 32} {s : State} : ∃ h, execLongSpliceStart v s = .next ⟨h, s.pending⟩ ∧ Touches [.regs, .sys, .fw, .serials, .lyd, .radio, .pkey, .upd] s.hw h := by
  refine ⟨_, rfl, ?_⟩
  simp only
  generalize s.hw = h
  exact Touches.refl.step Hw.updCtrl_touches

theorem execUpdConfirm_touches {link : Fin 10} {s : State} : ∃ h, execUpdConfirm link s = .next ⟨h, s.pending⟩ ∧ Touches [.regs, .mem, .ecc, .fuses, .kept, .fw, .upd] s.hw h := by
  refine ⟨_, rfl, ?_⟩
  simp only
  generalize s.hw = h
  refine Touches.ite ?_ ?_
  · exact Touches.refl.step Hw.updConfirm_touches
  · exact Touches.refl

theorem execTrialTimeout_touches {s : State} : ∃ h, execTrialTimeout s = .next ⟨h, s.pending⟩ ∧ Touches [.regs, .sys, .tcnt, .fw, .serials, .lyd, .radio, .pkey, .upd] s.hw h := by
  refine ⟨_, rfl, ?_⟩
  simp only
  generalize s.hw = h
  exact Touches.refl.step Hw.trialTimeout_touches

theorem execUpdOtpSet_touches {v : BitVec 32} {s : State} : ∃ h, execUpdOtpSet v s = .next ⟨h, s.pending⟩ ∧ Touches [.regs, .fuses] s.hw h := by
  refine ⟨_, rfl, ?_⟩
  simp only
  generalize s.hw = h
  exact Touches.refl.step Hw.otpSet_touches

theorem execHandoverAccept_touches {us : Nat} {vendor : List (List Nat)} {s : State} : ∃ h, execHandoverAccept us vendor s = .next ⟨h, s.pending⟩ ∧ Touches [.regs, .mem, .ecc, .free, .resp, .kept, .elogQ, .memu, .fab, .tcnt, .hot, .fw, .pkey, .upd, .fix] s.hw h := by
  refine ⟨_, rfl, ?_⟩
  simp only
  generalize s.hw = h
  exact Touches.refl.step Hw.handover_touches

theorem execUpdCancel_touches {link : Fin 10} {s : State} : ∃ h, execUpdCancel link s = .next ⟨h, s.pending⟩ ∧ Touches [.upd] s.hw h := by
  refine ⟨_, rfl, ?_⟩
  simp only
  generalize s.hw = h
  refine Touches.ite ?_ ?_
  · exact Touches.refl.step Hw.updCancel_touches
  · exact Touches.refl

theorem execUpdCtrlConfirm_touches {v : BitVec 32} {s : State} : ∃ h, execUpdCtrlConfirm v s = .next ⟨h, s.pending⟩ ∧ Touches [.regs, .sys, .fw, .serials, .lyd, .radio, .pkey, .upd] s.hw h := by
  refine ⟨_, rfl, ?_⟩
  simp only
  generalize s.hw = h
  exact Touches.refl.step Hw.updCtrl_touches

theorem execUpdBegin_touches {link : Fin 10} {b : BitVec 32} {ver : BitVec 32} {s : State} : ∃ h, execUpdBegin link b ver s = .next ⟨h, s.pending⟩ ∧ Touches [.upd] s.hw h := by
  refine ⟨_, rfl, ?_⟩
  simp only
  generalize s.hw = h
  refine Touches.ite ?_ ?_
  · exact Touches.refl.step Hw.updBegin_touches
  · exact Touches.refl

theorem execUpdBlock_touches {link : Fin 10} {n : BitVec 16} {crc : BitVec 32} {data : List Nat} {s : State} : ∃ h, execUpdBlock link n crc data s = .next ⟨h, s.pending⟩ ∧ Touches [.regs, .mem, .ecc, .elogQ, .upd] s.hw h := by
  refine ⟨_, rfl, ?_⟩
  simp only
  generalize s.hw = h
  refine Touches.ite ?_ ?_
  · exact Touches.refl.step Hw.updBlock_touches
  · exact Touches.refl

end Sys2Proof.Machine
end

