-- ==== Sys2Proof/WellFormed.lean ====
section
/-! DEFINITION. Which terms are commands of the part: the limits on operands that their types do not already hold. -/

namespace Sys2Proof

/-- Every number of the list lies below `n`. -/
def allBelow (n : Nat) (xs : List Nat) : Bool := xs.all fun x => decide (x < n)

/-- The input fields of a sampling edge are 3 bits each (Table 2.1). -/
def sampleOk (x : Nat × Nat) : Bool := decide (x.1 < 8) && decide (x.2 < 8)

/-- The data lengths of classic and FD frames (R489). -/
def canLengthOk (fd : Bool) (n : Nat) : Bool := decide (n ≤ 8) || (fd && [12, 16, 20, 24, 32, 48, 64].contains n)

/-- The kept data name at most 96 satellites, and ports with the limits of SPn_QNT.THR, of the gain code and of SPn_CFG (Table 7.1, chapter 2). -/
def factsOk (f : Machine.HotFacts) : Bool :=
  decide (f.sats.length ≤ 96) &&
    f.ports.all fun p => decide (p.port < 4) && decide (1 ≤ p.thr) && decide (p.thr < 2048) && decide (p.gain < 64) && decide (p.dec < 3) && decide (p.fmt < 4)

/-- A step of a snapshot cycle commits bodies of 22 words (Table 3.2). -/
def stepOk : Machine.SnapStep → Bool
  | .begin_ => true
  | .commit bs => bs.all fun b => b.2.length == 22
  | .finish => true

/-- The command is well formed. -/
def Instr.wellFormed (i : Instr) : Bool :=
  match i with
  | .powerOnReset => true
  | .vinLoss => true
  | .backupEntry => true
  | .brownout => true
  | .resetPin => true
  | .refLost => true
  | .pllUnlock => true
  | .watchdogTimeout => true
  | .watchdogKick _ => true
  | .softwareReset _ => true
  | .coldBoot f =>
    f.vendor.length == 6 && f.vendor.all (allBelow (pow2 32)) && factsOk f.hot && f.shapes.length == 32 && f.shapes.all (·.length == 257)
  | .bootRomHeartbeat => true
  | .testenRelease => true
  | .tempSample ts rails => ts.length == 6 && rails.length == 4
  | .memoryRead _ _ _ => true
  | .memoryWrite _ _ _ _ _ => true
  | .setAliasWrite _ _ _ _ => true
  | .clearAliasWrite _ _ _ _ => true
  | .registerWrite _ _ _ => true
  | .rclrCounterRead _ _ => true
  | .plTargetWrite _ => true
  | .plChangeComplete => true
  | .portStart _ => true
  | .portStop _ => true
  | .portRun _ iq => sampleOk iq
  | .ringBlockWritten _ xs => xs.all sampleOk
  | .stopDeclared _ xs => xs.all sampleOk
  | .discontinuity _ => true
  | .monitorWindowEnd xs => xs.length == 4 && xs.all fun l => l.all sampleOk
  | .portResume _ => true
  | .notchConfigApply _ _ => true
  | .notchAdapt _ _ xs => xs.all sampleOk
  | .notchDepthUpdate _ _ => true
  | .thresholdUpdate _ => true
  | .spectrumPublish _ => true
  | .notchRelease _ _ => true
  | .tspiCmd _ => true
  | .tspiTransactionDone _ => true
  | .tspiRxRead => true
  | .gainControlTick => true
  | .spCntLoRead _ => true
  | .strandScan => true
  | .fabFlush _ => true
  | .doorbellServed => true
  | .stagedBodyApply _ => true
  | .strandCommitObject _ _ _ => true
  | .dispatchToDeque => true
  | .engineTake _ => true
  | .itemComplete _ => true
  | .gather _ => true
  | .reaperSweep => true
  | .integrationClose _ => true
  | .pullTmoExpiry _ => true
  | .coastMaxExpiry _ => true
  | .trancheAllocate => true
  | .trancheStart _ => true
  | .searchDetectEntry _ => true
  | .engineTestStart _ => true
  | .engineRestMarch => true
  | .engineTestComplete _ => true
  | .loopTaskDispatch _ => true
  | .preemptSave _ => true
  | .sspiCmd _ => true
  | .sspiTransactionDone rx => decide (rx.length ≤ 32)
  | .sspiDrdyEdge => true
  | .sspiRxRead => true
  | .sspiDrdyRead => true
  | .hitchInstantDue => true
  | .hitchRelease => true
  | .anchorWaitExpiry => true
  | .hitchCopyComplete => true
  | .hitchCtrlWrite _ => true
  | .hitchBaseHiWrite _ => true
  | .hitchAdj _ => true
  | .tcntLoRead => true
  | .tpEdgeUpdate => true
  | .tpInactiveEdge => true
  | .tpDelayCal => true
  | .tpDisc _ => true
  | .tpHold => true
  | .tpStepGo => true
  | .holdTimeout => true
  | .holdoverTick => true
  | .tmarkCapture _ _ => true
  | .tmTLoRead => true
  | .hsSave live => allBelow 256 live && decide (live.length ≤ 0x3FC0)
  | .hsSaveNow live => allBelow 256 live && decide (live.length ≤ 0x3FC0)
  | .coilArm _ => true
  | .coilCaptureStart _ => true
  | .coilRelease _ => true
  | .coilAbort _ => true
  | .ringWriteResume _ => true
  | .snapshotCycle what live => stepOk what && allBelow 256 live && decide (live.length ≤ 0x3FC0)
  | .coilReleaseObject _ => true
  | .coilStreamTimeout => true
  | .ld _ => true
  | .ldh _ => true
  | .ldg _ => true
  | .st _ _ => true
  | .sth _ _ => true
  | .sta _ _ => true
  | .stg _ _ => true
  | .add _ => true
  | .addh _ => true
  | .sub _ => true
  | .subh _ => true
  | .mpy _ => true
  | .mac _ => true
  | .msu _ => true
  | .cmac _ => true
  | .cmp _ => true
  | .cmph _ => true
  | .and _ => true
  | .or _ => true
  | .xor _ => true
  | .abs _ => true
  | .neg _ => true
  | .sat _ => true
  | .ash _ => true
  | .ashm _ => true
  | .norm _ => true
  | .addg _ => true
  | .atn _ => true
  | .mag _ => true
  | .b _ => true
  | .call _ => true
  | .ret _ => true
  | .rpt _ => true
  | .rpti _ => true
  | .nop _ => true
  | .storeRetry _ _ => true
  | .kslotCfgWrite _ _ _ => true
  | .kloadImage img => allBelow 256 img
  | .kunload _ => true
  | .unitRunOff _ => true
  | .unitRunOn _ => true
  | .unitFillComplete _ => true
  | .marchTestStart _ => true
  | .marchTestComplete _ _ => true
  | .liveRepairComplete _ => true
  | .lcRequest _ _ => true
  | .thimbleWipeCmd _ _ => true
  | .keyLoadCmd _ _ => true
  | .tamperUnlock _ _ => true
  | .wipeStart => true
  | .wipeVerified _ => true
  | .mramWordWriteDone => true
  | .requestReceived _ payload => allBelow 256 payload && decide (payload.length ≤ 248)
  | .objectRead => true
  | .objectWrite => true
  | .readSeg => true
  | .writeSeg => true
  | .subscribe => true
  | .authStep1 => true
  | .authStep2 => true
  | .authStep3 => true
  | .abortTransfer => true
  | .segTransferTimeout _ _ _ => true
  | .nonceExpiry _ => true
  | .authBarExpiry _ => true
  | .sessionTimeout _ => true
  | .registerSampling => true
  | .notifySend _ => true
  | .wowellFrameReceived _ _ => true
  | .wowellGapTimeout _ => true
  | .hspiCsDeassert => true
  | .wread _ n => decide (1 ≤ n.toNat) && decide (n.toNat ≤ 60)
  | .wwrite _ words _ => allBelow (pow2 32) words && decide (1 ≤ words.length) && decide (words.length ≤ 60)
  | .canFrameReceived _ id ext fd data => allBelow 256 data && canLengthOk fd data.length && (ext || decide (id.toNat < 2048))
  | .canFrameSent _ _ => true
  | .canBusoffRecovery _ => true
  | .timeFrameQueue _ _ => true
  | .heartbeat _ => true
  | .journalCompaction => true
  | .uartCharReceived _ _ => true
  | .uartCharSent _ _ _ _ _ _ => true
  | .uartDataRead _ => true
  | .uartDataWrite _ _ => true
  | .uartBreakWrite _ _ => true
  | .uartRateWrite _ _ _ _ => true
  | .uartIdleDetect _ => true
  | .uartRxFlush _ _ => true
  | .uartTxFlush _ _ => true
  | .uartSlowChar _ _ => true
  | .slowExit _ _ => true
  | .attach _ => true
  | .keep _ => true
  | .detach _ => true
  | .lydRate _ _ _ => true
  | .lydSessionTimeout => true
  | .lydLineLow => true
  | .lydRateTimeout => true
  | .serviceRoleExpiry => true
  | .radioCmdgo _ => true
  | .radioTx _ => true
  | .radioRx _ => true
  | .radioCs _ _ => true
  | .radioIdle => true
  | .radioOff => true
  | .radioPacketReceived pdu _ _ => allBelow 256 pdu && decide (pdu.length ≤ 257)
  | .radioRxTimeout => true
  | .synthTimeout => true
  | .radioDoneRead => true
  | .radioFlush _ => true
  | .radioPaCal _ => true
  | .dutyWindowAdvance => true
  | .radioFuseBlow _ _ => true
  | .radioFuseBlowDone _ => true
  | .coexRequest => true
  | .coexGrantSample _ => true
  | .coexGrantLost _ _ => true
  | .radioHoldEvent _ _ => true
  | .holdRel _ => true
  | .radioHoldTimeout => true
  | .advertisingEvent => true
  | .pkeyToken _ _ _ msg => allBelow 256 msg
  | .pkeyProof _ sig => allBelow 256 sig
  | .pkeyProofTimeout _ => true
  | .pkeyPairingRequest _ entry => allBelow 256 entry && entry.length == 128
  | .pkeyCmdUnlock _ => true
  | .pkeyCmdLock _ => true
  | .csProcedureStart _ => true
  | .csProcedureResult _ _ _ _ => true
  | .pkeyConnectionEnd _ => true
  | .pkeyBarExpiry _ => true
  | .accessFrameReceived _ => true
  | .remoteCmd _ _ => true
  | .bondDelete _ _ => true
  | .pkeyOutUnlock => true
  | .pkeyOutLock => true
  | .pkeyPulseEnd _ => true
  | .pkeyPulseDelayedStart => true
  | .stopRequest _ => true
  | .stopExit => true
  | .slackRequest _ _ _ => true
  | .wakeSourceQualified _ _ _ f _ => factsOk f
  | .domainWake _ => true
  | .domainReady _ => true
  | .rtcQueuedWriteApply _ => true
  | .rtcSecond => true
  | .rtcCommit _ => true
  | .rtcCapture _ => true
  | .rtcAdj _ => true
  | .anextRecompute => true
  | .rtcActlWrite _ => true
  | .rtcTime0Read => true
  | .rtcCountdownExpiry => true
  | .rtcCdStart _ => true
  | .rtcCdStop _ => true
  | .oscStopDetected => true
  | .vbkpLow => true
  | .rtcDiscipline _ _ _ => true
  | .eventInputQualified _ _ _ => true
  | .evPop _ _ => true
  | .updBegin _ _ _ => true
  | .updBlock _ _ _ data => allBelow 256 data
  | .updActivate _ => true
  | .updCancel _ => true
  | .updTransferTimeout => true
  | .updConfirm _ => true
  | .updCtrlConfirm _ => true
  | .longSpliceStart _ => true
  | .handoverAccept _ vendor => vendor.length == 6 && vendor.all (allBelow (pow2 32))
  | .trialTimeout => true
  | .updOtpSet _ => true
  | .mpuLock _ => true
  | .dmaGo _ _ => true
  | .dmaBeat _ => true
  | .dmaResume _ _ => true
  | .dmaAbort _ _ => true
  | .elogReport _ _ _ _ _ => true
  | .elogEntryWrite => true
  | .elogClear _ => true
  | .elogSwhdr _ => true
  | .scrubRead => true
  | .mramScrub => true
  | .telemetrySecond _ util nmea => util.length == 44 && allBelow 201 util && allBelow 256 nmea
  | .whippingFwTask _ => true
  | .i2cCmd _ => true
  | .i2cBusFreeStart => true
  | .i2cByte _ _ _ => true
  | .i2cCommandEnd => true
  | .i2cTimeout _ => true
  | .i2cDataWrite _ => true
  | .i2cDataRead => true
  | .hspiByteExchange _ => true
  | .uartCtsAsserted _ => true
  | .uartGuardElapsed _ => true

end Sys2Proof
end

