-- ==== Sys2Proof/Tests/Slice0.lean ====
section
/-! SUPPORT. The checks of this work: ill-formed commands are refused, every obligation's hypotheses can be met, and single steps give what the
specification states. -/

set_option Elab.async false
set_option maxRecDepth 20000

open Sys2Proof Sys2Proof.Machine

/-! ### Ill-formed commands are refused: a term for each check of WellFormed -/

namespace Smoke

/-- What a start finds, with a given image. -/
def boot (vendor : List (List Nat)) (shapes : List (List (BitVec 16))) (hot : HotFacts) : BootFacts :=
  ⟨[], [], [], [], [], [], hot, 0, shapes, [], vendor⟩

/-- Kept data with these satellites and ports. -/
def hot (sats : List SavedSat) (ports : List SavedPort) : HotFacts := ⟨0, 0, 0, 0, false, false, sats, ports⟩

/-- A port's kept settings. -/
def port : SavedPort := ⟨0, 40920, 0, 0, 1, 0⟩

/-- The shapes of an image. -/
def shapes : List (List (BitVec 16)) := List.replicate 32 (List.replicate 257 0)

/-- Vendor kernels without code. -/
def vendor : List (List Nat) := List.replicate 6 []

end Smoke

theorem test_wellformed_coldBoot : (Instr.coldBoot (Smoke.boot Smoke.vendor Smoke.shapes (Smoke.hot [] [Smoke.port]))).wellFormed = true := by decide +kernel
theorem test_illformed_coldBoot_vendor : (Instr.coldBoot (Smoke.boot [] Smoke.shapes (Smoke.hot [] []))).wellFormed = false := by decide +kernel
theorem test_illformed_coldBoot_word : (Instr.coldBoot (Smoke.boot ([pow2 32] :: Smoke.vendor.drop 1) Smoke.shapes (Smoke.hot [] []))).wellFormed = false := by decide +kernel
theorem test_illformed_coldBoot_shapes : (Instr.coldBoot (Smoke.boot Smoke.vendor (Smoke.shapes.drop 1) (Smoke.hot [] []))).wellFormed = false := by decide +kernel
theorem test_illformed_coldBoot_shape : (Instr.coldBoot (Smoke.boot Smoke.vendor ([] :: Smoke.shapes.drop 1) (Smoke.hot [] []))).wellFormed = false := by decide +kernel
theorem test_illformed_coldBoot_thr : (Instr.coldBoot (Smoke.boot Smoke.vendor Smoke.shapes (Smoke.hot [] [{ Smoke.port with thr := 0 }]))).wellFormed = false := by decide +kernel
theorem test_illformed_facts : factsOk (Smoke.hot [] [{ Smoke.port with port := 4 }]) = false ∧ factsOk (Smoke.hot [] [{ Smoke.port with thr := 2048 }]) = false ∧
    factsOk (Smoke.hot [] [{ Smoke.port with gain := 64 }]) = false ∧ factsOk (Smoke.hot [] [{ Smoke.port with dec := 3 }]) = false ∧
    factsOk (Smoke.hot [] [{ Smoke.port with fmt := 4 }]) = false := by decide
theorem test_illformed_wakeSource : (Instr.wakeSourceQualified 3 true [] (Smoke.hot [] [{ Smoke.port with thr := 0 }]) 0).wellFormed = false := by decide
theorem test_illformed_tempSample : (Instr.tempSample [] [0, 0, 0, 0]).wellFormed = false ∧ (Instr.tempSample [0, 0, 0, 0, 0, 0] []).wellFormed = false := by decide
theorem test_illformed_samples : (Instr.portRun 0 (8, 0)).wellFormed = false ∧ (Instr.ringBlockWritten 0 [(0, 8)]).wellFormed = false ∧
    (Instr.stopDeclared 0 [(8, 0)]).wellFormed = false ∧ (Instr.monitorWindowEnd []).wellFormed = false ∧
    (Instr.monitorWindowEnd [[(0, 8)], [], [], []]).wellFormed = false ∧ (Instr.notchAdapt 0 0 [(9, 0)]).wellFormed = false := by decide
theorem test_illformed_sspi : (Instr.sspiTransactionDone (List.replicate 33 0)).wellFormed = false := by decide
theorem test_illformed_hsSave : (Instr.hsSave [256]).wellFormed = false ∧ (Instr.hsSaveNow [256]).wellFormed = false := by decide
theorem test_illformed_hsSave_length : (Instr.hsSave (List.replicate 0x3FC1 0)).wellFormed = false := by decide +kernel
theorem test_illformed_snapshotCycle : (Instr.snapshotCycle (.commit [(0, [])]) []).wellFormed = false ∧ (Instr.snapshotCycle .finish [256]).wellFormed = false := by decide
theorem test_illformed_kloadImage : (Instr.kloadImage [256]).wellFormed = false := by decide
theorem test_illformed_requestReceived : (Instr.requestReceived 0 [256]).wellFormed = false ∧ (Instr.requestReceived 0 (List.replicate 249 0)).wellFormed = false := by decide +kernel
theorem test_illformed_wread : (Instr.wread 0 0).wellFormed = false ∧ (Instr.wread 0 61).wellFormed = false := by decide
theorem test_illformed_wwrite : (Instr.wwrite 0 [] []).wellFormed = false ∧ (Instr.wwrite 0 [pow2 32] []).wellFormed = false ∧
    (Instr.wwrite 0 (List.replicate 61 0) []).wellFormed = false := by decide
theorem test_illformed_canFrame : (Instr.canFrameReceived 0 0 false false (List.replicate 9 0)).wellFormed = false ∧
    (Instr.canFrameReceived 0 2048 false false []).wellFormed = false ∧ (Instr.canFrameReceived 0 0 false true (List.replicate 13 0)).wellFormed = false ∧
    (Instr.canFrameReceived 0 0 false false [256]).wellFormed = false := by decide
theorem test_illformed_radioPacket : (Instr.radioPacketReceived [256] true 0).wellFormed = false ∧ (Instr.radioPacketReceived (List.replicate 258 0) true 0).wellFormed = false := by decide +kernel
theorem test_illformed_pkey : (Instr.pkeyToken 0 0 true [256]).wellFormed = false ∧ (Instr.pkeyProof 0 [256]).wellFormed = false ∧
    (Instr.pkeyPairingRequest 0 []).wellFormed = false := by decide
theorem test_illformed_pkeyEntry : (Instr.pkeyPairingRequest 0 (List.replicate 128 256)).wellFormed = false := by decide +kernel
theorem test_illformed_updBlock : (Instr.updBlock 7 0 0 [256]).wellFormed = false := by decide
theorem test_illformed_handover : (Instr.handoverAccept 0 []).wellFormed = false ∧ (Instr.handoverAccept 0 (List.replicate 6 [pow2 32])).wellFormed = false := by decide
theorem test_illformed_telemetry : (Instr.telemetrySecond NavFix.reset [] []).wellFormed = false ∧
    (Instr.telemetrySecond NavFix.reset (List.replicate 44 201) []).wellFormed = false ∧
    (Instr.telemetrySecond NavFix.reset (List.replicate 44 0) [256]).wellFormed = false := by decide


/-! ### The hypotheses of each obligation can be met -/

theorem wit_EmptyQueueTicks_off : ({ Hw.reset with pwr := { Hw.reset.pwr with state := .slack } } : Hw).pwr.state = .slack := rfl
theorem wit_EmptyQueueTicks_on : Hw.reset.pwr.state = .run := rfl

theorem wit_CoreResetCauses_1 : Hw.reset.pwr.state ≠ .backup := by decide
theorem wit_CoreResetCauses_2 : Hw.reset.pwr.state = .run ∨ Hw.reset.pwr.state = .stop := by decide
theorem wit_CoreResetCauses_3 : Hw.reset.pwr.state = .run ∧ (Hw.reset.sf SYS_WDOG_EN 1).on SYS_WDOG_EN = true := by decide +kernel
theorem wit_CoreResetCauses_4 : ({ Hw.reset with fuses := { Hw.reset.fuses with lifecycle := 0 } } : Hw).fuses.lifecycle = 0 := rfl

theorem wit_SoftwareReset_1 : bits (0x52530001#32).toNat 16 16 = 0x5253 ∧ bit (0x52530001#32).toNat 0 = true := by decide
theorem wit_SoftwareReset_2 : bits (0x52540001#32).toNat 16 16 ≠ 0x5253 := by decide

theorem wit_Watchdog_1 : (Hw.reset.sf SYS_WDOG_EN 1).on SYS_WDOG_EN = true := by decide +kernel
theorem wit_Watchdog_2 : Hw.reset.on SYS_WDOG_EN = false ∧ (Hw.reset.writeFields SYS_WDOG 1).on SYS_WDOG_EN = true := by decide +kernel
theorem wit_Watchdog_3 : (0 : BitVec 32) ≠ 0x4B49434B := by decide

theorem wit_SupplyLosses : Hw.reset.pwr.state ≠ .backup := by decide

theorem wit_PerformanceLevels_1 : let h := ({ Hw.reset with fuses := { Hw.reset.fuses with part := .ak256 } }).sf PWR_PL_CURRENT 1
    bit (2#32).toNat 5 = false ∧ h.fuses.part ≠ .ak512 ∧ h.on PWR_PL_BUSY = false ∧ h.rf PWR_PL_CURRENT < bits (2#32).toNat 0 2 ∧
    bits (0#32).toNat 0 2 < h.rf PWR_PL_CURRENT ∧ h.trackLoad ≤ 4 * h.fabCapacity (bits (0#32).toNat 0 2) := by decide +kernel
theorem wit_PerformanceLevels_2 : bit (2#32).toNat 5 = false ∧ Hw.reset.fuses.part = .ak512 ∧ bits (2#32).toNat 0 2 ≠ 3 := by decide +kernel
theorem wit_PerformanceLevels_3 : (Hw.reset.sf PWR_PL_BUSY 1).on PWR_PL_BUSY = true := by decide +kernel

theorem wit_StopEntryAndExit_1 : Hw.reset.pwr.state = .run ∧ bit (1#32).toNat 0 = true ∧ bit (1#32).toNat 1 = false ∧
    Hw.reset.slackCond 1 = false ∧ Hw.reset.slackCond 2 = false := by decide +kernel
theorem wit_StopEntryAndExit_1a : (Hw.reset.sf (UART_CFG_EN 6) 0).irqRaised = false := by decide +kernel
theorem wit_StopEntryAndExit_1b : (Hw.reset.sf ELOG_STAT_NEW 1).irqRaised = true := by decide +kernel
theorem wit_StopEntryAndExit_2 : (Hw.reset.sf (DMA_STAT_STATE 0) 1).slackCond 2 = true := by decide +kernel

theorem wit_SlackRequests_1 : let h := Hw.reset.sf HSPI_CFG_WIN_EN 1
    h.pwr.state = .run ∧ bit (1#32).toNat 0 = true ∧ h.plDone.slackCond 9 = true ∧ (∀ j, j < 9 → h.plDone.slackCond j = false) := by decide +kernel
theorem wit_SlackRequests_2 : Hw.reset.plDone.slackConds = [] := by decide +kernel

theorem wit_WakeSources_1 : Hw.reset.pwr.state ≠ .backup ∧ bit (Hw.reset.rf WAKE_EN_SRC) 0 = false ∧ Hw.reset.pwr.state = .run := by decide +kernel
theorem wit_WakeSources_2 : let h := ({ Hw.reset with pwr := { Hw.reset.pwr with state := .slack } }).sf WAKE_EN_SRC 8
    h.pwr.state = .slack ∧ bit (h.rf WAKE_EN_SRC) 3 = true := by decide +kernel
theorem wit_WakeSources_3 : let h := ({ Hw.reset with pwr := { Hw.reset.pwr with state := .stop } }).sf WAKE_EN_SRC 8
    h.pwr.state = .stop ∧ bit (h.rf WAKE_EN_SRC) 3 = true := by decide +kernel

theorem wit_DomainWakes_1 : Hw.reset.pwr.state = .run ∧ (Hw.reset.sf PWR_DOM_STATE 0).domState 3 = 0 := by decide +kernel
theorem wit_DomainWakes_2 : (Hw.reset.setDom 3 1).domState 3 = 1 := by decide +kernel
theorem wit_DomainWakes_3 : Hw.reset.domState 2 ≠ 1 := by decide +kernel

theorem wit_ColdBoot_1 : Hw.reset.pwr.resetting = true ∧ Hw.reset.pwr.state ≠ .backup ∧ Hw.reset.inert = false := by decide +kernel
theorem wit_ColdBoot_2 : ({ Hw.reset with fuses := { Hw.reset.fuses with lifecycle := 5 } } : Hw).inert = true := by decide
theorem wit_ColdBoot_3 : let h := ({ Hw.reset with pwr := { Hw.reset.pwr with resetting := false } }).sf (CAN_CFG_EN 0) 1
    h.sys.fwRunning = false ∧ h.pwr.resetting = false ∧ h.inert = false ∧ h.clocked = true ∧ h.on (CAN_CFG_EN 0) = true ∧ (h.can 0).tx.length < 32 := by decide +kernel

theorem wit_MemoryReads_1 : inSram 0x20000000 = true ∧ 
    (Hw.reset.sf (MEM_SCTL_STATE 7) 5).access .nav 0x20000000 4 false = .ok ∧ (Hw.reset.sf (MEM_SCTL_STATE 7) 5).eccAt 0x20000000 = 0 := by decide +kernel
theorem wit_MemoryReads_2 : let h := (Hw.reset.sf (MEM_SCTL_STATE 7) 5).setEcc 0x20000000 1
    h.access .nav 0x20000000 4 false = .ok ∧ h.eccAt 0x20000000 = 1 := by decide +kernel
theorem wit_MemoryReads_3 : let h := (Hw.reset.sf (MEM_SCTL_STATE 7) 5).setEcc 0x20000000 2
    h.access (.dma 0) 0x20000000 4 false = .ok ∧ h.eccAt 0x20000000 = 2 ∧ (Master.dma 0).silent = true := by decide +kernel
theorem wit_MemoryReads_4 : let h := { Hw.reset with memu := { Hw.reset.memu with test := some (7, true) } }
    h.access .nav 0x20000000 4 false = .stall ∧ h.domainOn 0x20000000 = true := by decide +kernel
theorem wit_MemoryReads_5 : Hw.reset.mute .jtag = true := by decide +kernel

theorem wit_MemoryWrites_1 : let h := Hw.reset.sf (MEM_SCTL_STATE 7) 5
    inSram 0x20000000 = true ∧ h.access .nav 0x20000000 4 true = .ok ∧ within 0x11000000 0x1103FFFF 0x20000000 = false ∧ h.unreadable 0x20000000 = false := by
  decide +kernel
theorem wit_MemoryWrites_2 : let h := (Hw.reset.sf (MEM_SCTL_STATE 7) 5).setEcc 0x20000000 2
    h.access .nav 0x20000000 4 true = .ok ∧ h.unreadable 0x20000000 = true := by decide +kernel
theorem wit_MemoryWrites_3 : let h := (Hw.reset.sf (MEM_SCTL_STATE 4) 5).sf PWR_DOM_STATE 0xAA
    inSram 0x11004B00 = true ∧ h.access .nav 0x11004B00 4 true = .ok ∧ within 0x11000000 0x1103FFFF 0x11004B00 = true ∧ strandOfWord 0x11004B00 = some 75 ∧
      h.unreadable 0x11004B00 = false := by decide +kernel
theorem wit_MemoryWrites_4 : let h := ((Hw.reset.sf (MEM_SCTL_STATE 4) 5).sf PWR_DOM_STATE 0xAA).setEcc 0x11004B00 2
    h.access .nav 0x11004B00 4 true = .ok ∧ h.unreadable 0x11004B00 = true := by decide +kernel

theorem wit_RefusedAccesses_1 : (Hw.reset.mute .nav = false ∧ Master.nav.silent = false) ∧ isBlock 0x70000000 = false ∧ isBackupReg 0x70000000 = false ∧
    baseOf 0x70000000 = 0x70000000 ∧ regionOf 0x70000000 = none := by decide
theorem wit_RefusedAccesses_2 : isBlock 0x20000002 = false ∧ isBackupReg 0x20000002 = false ∧ regionOf (baseOf 0x20000002) = some .navSram ∧
    0x20000002 % 2 ^ 2 ≠ 0 := by decide
theorem wit_RefusedAccesses_3 : Master.host.silent = false ∧ regionOf (baseOf 0x20000000) = some .navSram ∧ Hw.reset.pathOk .host .navSram false = false := by
  decide
theorem wit_RefusedAccesses_4 : let h := Hw.reset.sf MPU_CTRL_EN 1
    regionOf (baseOf 0x12000000) = some .loopShared ∧ h.pathOk .host .loopShared false = true ∧ h.portPart .host (baseOf 0x12000000) = true ∧ h.mpuOk .host (baseOf 0x12000000) false = false := by decide +kernel

theorem wit_RegisterAccesses_1 : MEM_ECC ∈ clearedByRead ∧ Hw.reset.mute .nav = false ∧ Hw.reset.busAccess .nav MEM_ECC 4 false = .ok ∧
    Hw.reset.busAccess .nav MPU_VIOL 4 false = .ok := by decide +kernel
theorem wit_RegisterAccesses_2 : Master.nav.silent = false ∧ isBlock 0x4019000C = true ∧ regHere (0x4019000C / 4 * 4) = false ∧
    Hw.reset.access .nav 0x4019000C 4 true = .ok := by decide +kernel

theorem wit_DmaChannels_1 : keepsCtrl Hw.reset 0 0x39 ∧ bit 0x39 0 = true ∧ bit 0x39 1 = false ∧ bit 0x39 2 = false ∧
    keepsCtrl Hw.reset 0 0x3A ∧ keepsCtrl Hw.reset 0 0x3C := by unfold keepsCtrl; decide +kernel
/-- Channel 0 copies one beat from 0x20000000 to 0x20000008. -/
def witDma (src : Nat) : Hw :=
  { (((Hw.reset.sf (MEM_SCTL_STATE 7) 5).setReg (DMA_SRC 0) (BitVec.ofNat 32 src)).setReg (DMA_DST 0) 0x20000008).sf (DMA_CNT_COUNT 0) 1 |>.sf (DMA_STAT_STATE 0) 1 with
    pwr := { Hw.reset.pwr with resetting := false } }
theorem wit_DmaChannels_2 : let h := witDma 0x20000000
    h.dmaTurn = some 0 ∧ h.clocked = true ∧ Store.get (fun _ => (0, 0)) h.dmaTry 0 = (0, 0) ∧ h.rf (DMA_SRC_ADDR 0) = 0x20000000 ∧ h.dmaWidth 0 = 8 ∧
      inSram 0x20000000 = true ∧ inSram 0x20000008 = true ∧ h.access (.dma 0) 0x20000000 8 false = .ok ∧ h.access (.dma 0) 0x20000008 8 true = .ok ∧
      h.eccAt 0x20000000 = 0 ∧ h.eccAt 0x20000008 = 0 := by decide +kernel
theorem wit_DmaChannels_3 : let h := witDma 0x20000004
    h.dmaTurn = some 0 ∧ inSram 0x20000004 = true ∧ h.access (.dma 0) 0x20000004 8 false = .error 0 2 := by decide +kernel

theorem wit_ErrorLog_1 : ({ Hw.reset with elogQ := [⟨1, 2, 3, 4, 5, 6, 7⟩] } : Hw).elogQ = ⟨1, 2, 3, 4, 5, 6, 7⟩ :: [] ∧ Hw.reset.elogQ = [] := by decide

theorem wit_Whipping_1 : Hw.reset.clocked = true ∧ Hw.reset.on BGND_CTRL_SCRUB_EN = true ∧ Hw.reset.pwr.state = .run ∧ Hw.reset.ecc = [] ∧
    Hw.reset.on BGND_CTRL_MSCRUB_EN = true ∧ Hw.reset.memu.mscrubPtr < 2097152 ∧ Hw.reset.on BGND_CTRL_TELEM_EN = true := by decide +kernel

/-- Port 0 in a state. -/
def witPort (st : Nat) : Hw := Hw.reset.sf (portStateField 0) st
/-- Port 0 in GAP with its resume fixed at block 3. -/
def witResume : Hw := (witPort portGap).setPort 0 { (witPort portGap).port 0 with resumeAt := some 3 }
theorem wit_PortStates_1 : 0 < (Hw.reset.sf (SP_CFG_DEC 0) 3).portCount ∧ (1 : BitVec 32).toNat % 256 = 2 ^ 0 ∧
    (Hw.reset.sf (SP_CFG_DEC 0) 3).portState 0 = portOff ∧ (Hw.reset.sf (SP_CFG_DEC 0) 3).rf (SP_CFG_DEC 0) = 3 := by decide +kernel
theorem wit_PortStates_2 : 0 < Hw.reset.portCount ∧ Hw.reset.portState 0 = portOff ∧ Hw.reset.startOk 0 = true ∧ Hw.reset.strands = [] := by decide +kernel
theorem wit_PortStates_3 : (16 : BitVec 32).toNat % 256 = 16 * 2 ^ 0 ∧ (witPort portRun).portState 0 = portRun ∧ (witPort portRun).coilPort 0 = false ∧
    (witPort portRun).strands = [] := by decide +kernel
theorem wit_PortStates_4 : (witPort portArmed).portState 0 = portArmed ∧ ((witPort portArmed).port 0).cnt = 0 ∧ 1 ≤ (witPort portRun).rf (SP_RING_SIZE 0) := by decide +kernel
theorem wit_PortStates_5 : witResume.portState 0 = portGap ∧ (witResume.port 0).resumeAt = some 3 ∧ 1 ≤ witResume.rf (SP_RING_SIZE 0) := by decide +kernel

theorem wit_PortFronts_1 : (witPort portRun).portState 0 = portRun ∧ (witPort portRun).strands = [] ∧ (witPort portRun).fab.tranches = [] ∧
    (witPort portRun).coilState = coilEmpty ∧ ((witPort portRun).port 0).cap = none ∧
    ((witPort portRun).port 0).untagged ((witPort portRun).port 0).nextTag = false ∧
    1 ≤ (witPort portRun).rf (SP_RING_SIZE 0) ∧ ((witPort portRun).port 0).cnt < (witPort portRun).blockNeeds 0 ((witPort portRun).port 0).nextTag ∧
    (witPort portRun).blockNeeds 0 ((witPort portRun).port 0).nextTag = 2048 ∧ (List.replicate 2048 (0, 0)).length = 2048 := by decide +kernel
/-- Port 0 in RUN after its first window, with a running sum. -/
def witWindow (sum : Int) : Hw := (witPort portRun).setPort 0 { (witPort portRun).port 0 with fresh := false, sum := sum, edges := 40920 }
theorem wit_PortFronts_2 : ∀ n, n < 4 → (Hw.reset.portState n = portOff ∨ Hw.reset.portState n = portArmed) ∧ (Hw.reset.port n).syn = false := by decide +kernel
theorem wit_PortFronts_3 : (witWindow 0).portState 0 = portRun ∧
    (∀ m, m < 4 → m ≠ 0 → ((witWindow 0).portState m = portOff ∨ (witWindow 0).portState m = portArmed) ∧ ((witWindow 0).port m).syn = false) ∧
    ((witWindow 0).port 0).fresh = false ∧ (0 : Int) = (((witWindow 0).port 0).edges : Int) - ((witWindow 0).rate 0 : Int) ∧
    (0 : Int).natAbs ≤ (witWindow 0).rateTol 0 ∧ (((witWindow 0).port 0).sum + 0).natAbs < 2 := by decide +kernel
theorem wit_PortFronts_4 : (witWindow 2).portState 0 = portRun ∧
    (∀ m, m < 4 → m ≠ 0 → ((witWindow 2).portState m = portOff ∨ (witWindow 2).portState m = portArmed) ∧ ((witWindow 2).port m).syn = false) ∧
    ((witWindow 2).port 0).fresh = false ∧ (0 : Int) = (((witWindow 2).port 0).edges : Int) - ((witWindow 2).rate 0 : Int) ∧
    1 ≤ (witWindow 2).rf (SP_RING_SIZE 0) ∧ 2 ≤ (((witWindow 2).port 0).sum + 0).natAbs := by decide +kernel
/-- Port 0 with notch 0 enabled and its sums full. -/
def witNotch : Hw := (((Hw.reset.sf (SP_NOTCH0_ADAPT 0) 1).sf (SP_NOTCH0_EN 0) 1).sf BGND_CTRL_NOTCH_EN 1).setPort 0 { Hw.reset.port 0 with
  n0 := { Notch.reset with en := true, thetaN := 16, theta := 5, pn := 4096, pin := 400, pout := 4, lowAt := some 0 }, magN := 4096 }
theorem wit_PortFronts_5 : ((witNotch.port 0).notch 0).en = true ∧ witNotch.on (notchAdapt 0 0) = true ∧ ((witNotch.port 0).notch 0).thetaN = 16 ∧
    ((witNotch.port 0).notch 0).pn = 4096 ∧ ((witNotch.port 0).notch 0).pin ≠ 0 ∧ ((witNotch.port 0).notch 0).pout ≤ ((witNotch.port 0).notch 0).pin ∧
    ((Hw.reset.port 0).notch 0).en = false ∧ witNotch.on (SP_QNT_FREEZE 0) = false ∧ (witNotch.port 0).magN = 4096 ∧
    peakBins (List.replicate 256 0) (Hw.reset.rf SPORT_CTRL_SPEC_THR) = [] := by decide +kernel
theorem wit_PortFronts_6 : (witPort portRun).portState 0 = portRun ∧ ringDone ((witPort portRun).dec 0) ((witPort portRun).port 0).cnt % 2048 = 0 ∧
    (∀ m, m < 2 → (((witPort portRun).port 0).notch m).en = false) ∧ ((witPort portRun).port 0).magN = 0 ∧ Hw.reset.portState 0 ≠ portRun := by decide +kernel
theorem wit_PortFronts_7 : ((witNotch.port 0).notch 0).lowAt = some 0 ∧ witNotch.on BGND_CTRL_NOTCH_EN = true ∧ witNotch.on (notchEn 0 0) = true ∧
    witNotch.rf (notchDepth 0 0) < 12 ∧ (Hw.reset.port 0).specN < 64 := by decide +kernel

/-- Both interfaces with a READ of two bytes under way, and the gain control on. -/
def witSpi : Hw := { Hw.reset.sf TSPI_GAIN_EN 1 with
  tspi := { Hw.reset.tspi with cur := some 0x2000000 }, sspi := { Hw.reset.sspi with cur := some 0x4200 } }
/-- Port 0 has one threshold in its mean. -/
def witGain : Hw := witSpi.setPort 0 { witSpi.port 0 with thrSum := 5, thrN := 1 }
theorem wit_TunerAndSensorSpi_1 : witGain.tspi.cur = some 0x2000000 ∧ witGain.on TSPI_GAIN_EN = true ∧
    (witGain.port (witGain.rf TSPI_GAIN_PORT)).thrSum = 5 ∧ (witGain.port (witGain.rf TSPI_GAIN_PORT)).thrN = 1 ∧ Hw.reset.on TSPI_GAIN_EN = false := by
  decide +kernel
theorem wit_TunerAndSensorSpi_2 : witSpi.sspi.cur = some 0x4200 ∧ bit 0x4200 14 = true ∧ ([1, 2] : List (BitVec 8)).length = sspiLen 0x4200 ∧
    witSpi.sspi.rx.length + 2 ≤ 64 ∧ (Hw.reset.sf SSPI_CFG_DRDY_EN 1).on SSPI_CFG_DRDY_EN = true := by decide +kernel

/-- Strand 5 idle, with a body staged at count 0 of port 0, whose count is `c`. -/
def witStaged (b : List Nat) (c : Nat) : Hw :=
  let h := (witPort portRun).setPort 0 { (witPort portRun).port 0 with cnt := c }
  h.setStrand 5 { h.strand 5 with staged := some (b, 7) }
/-- The commit word of Strand 5 stands at `v`, and its bell waits. -/
def witBell (v : Nat) : Hw := { Hw.reset.store32 (entryAddr 5 + 0x5C) v with fab := { Hw.reset.fab with bells := [some 5] } }
theorem wit_Commits_1 : Hw.reset.fab.bells = [] ∧ (witBell 0).fab.bells = [some 5] ∧ EntryReads 5 (witBell 0) ∧ commitWord (witBell 0) 5 % 65536 = ((witBell 0).strand 5).appliedGen := by
  decide +kernel
theorem wit_Commits_2 : EntryReads 5 (witBell 1) ∧ commitWord (witBell 1) 5 % 65536 ≠ ((witBell 1).strand 5).appliedGen ∧ ((witBell 1).strand 5).refusedGen ≠ some 1 ∧
    crc16 ((witBell 1).loadBytes (entryAddr 5) 92) ≠ commitWord (witBell 1) 5 / 65536 := by decide +kernel
theorem wit_Commits_3 : Hw.reset.fab.bells = [] ∧ ∀ k, k < 512 → EntryReads k Hw.reset ∧ commitWord Hw.reset k % 65536 = (Hw.reset.strand k).appliedGen :=
  ⟨rfl, fun _ _ => ⟨⟨rfl, fun _ _ => ⟨rfl, rfl⟩⟩, rfl⟩⟩
/-- The firmware runs, and link 1 holds the role FLEET. -/
def witFw : Hw := ({ Hw.reset with sys := { Hw.reset.sys with fwRunning := true } } : Hw).setLink 1 { Link.reset with role := 1 }
theorem wit_Commits_7 : witFw.fwUp = true ∧ 1 ≤ witFw.linkRole 1 ∧ EntryOpen 5 witFw := by decide +kernel
theorem wit_Commits_4 : ((witStaged [3] 2048).strand 5).staged = some ([3], 7) ∧ ((witStaged [3] 2048).strand 5).state = .idle ∧ bodyEn [3] = true ∧
    bodyMode [3] = 1 ∧ (witStaged [3] 4096).portState (bodyPort [3]) = portRun ∧
    nextBlock ((witStaged [3] 2048).strand 5).stagedAt ≤ (witStaged [3] 2048).ringCount (bodyPort [3]) ∧
    (witStaged [3] 2048).ringCount (bodyPort [3]) < nextBlock ((witStaged [3] 2048).strand 5).stagedAt + 2048 := by decide +kernel
/-- The entry of Strand 5 holds the body `b` with its CRC and GEN 1, port 0 runs, kernel 0 is valid, and its bell waits. -/
def witBody (b : List Nat) : Hw :=
  let h := ((witPort portRun).sf (LOOP_KSLOT_CFG_VALID 0) 1).storeWords (entryAddr 5) b
  let h := h.store32 (entryAddr 5 + 0x5C) (h.entryCrc 5 * 65536 + 1)
  { h with fuses := { h.fuses with engines := 1 }, fab := { h.fab with bells := [some 5] } }
theorem wit_Commits_5 : (let h := witBody [1]; crc16 (h.loadBytes (entryAddr 5) 92) = commitWord h 5 / 65536 ∧
    h.checkBody 5 (h.loadWords (entryAddr 5) 23) none = 0x0B ∧ EntryReads 5 h) := by decide +kernel
theorem wit_Commits_6 : (let h := witBody [0x00010E07, 0x00420820, 0x066665C9, 0, 0, 0]; crc16 (h.loadBytes (entryAddr 5) 92) = commitWord h 5 / 65536 ∧
    h.checkBody 5 (h.loadWords (entryAddr 5) 23) none = 0 ∧ EntryReads 5 h ∧ bodyEn (h.loadWords (entryAddr 5) 23) = true) := by decide +kernel

/-- A TRACK item of Strand 5 on port 0 with deadline `d`. -/
def witItem (d : Nat) : Item := ⟨5, .track, 0, false, false, 0, 0, 0, 8, 0, 0, some d, some 1⟩
/-- Engine 0 live with the deque `q`, an item `c` under way, and the issue queue `is`. -/
def witFab (is q : List Item) (c : Option Item) : Hw :=
  let h := { Hw.reset with fuses := { Hw.reset.fuses with engines := 3 }, fab := { Hw.reset.fab with issue := is } }
  h.setEngine 0 { Engine.reset with deque := q, cur := c }
theorem wit_WorkItems_1 : (witFab [] [] none).fab.issue = [] ∧ (witFab [] [] none).fab.tranches = [] ∧ (witFab [] [] none).strands = [] ∧
    (witFab [witItem 9] [] none).home 5 = some 9 := by decide +kernel
theorem wit_WorkItems_2 : (witFab [] [witItem 9] none).engLive 0 = true ∧ ((witFab [] [witItem 9] none).engine 0).cur = none ∧
    ((witFab [] [witItem 9] none).engine 0).deque.find? (witFab [] [witItem 9] none).gate = some (witItem 9) ∧
    (witFab [] [witItem 9] none).pastDeadline (witItem 9) = false ∧ (witFab [] [witItem 0] none).pastDeadline (witItem 0) = true ∧
    ((witFab [] [witItem 0] none).strand 5).open_ = false := by decide +kernel
theorem wit_WorkItems_3 : (witFab [] [witItem 9] none).engLive 1 = true ∧ ((witFab [] [witItem 9] none).engine 1).deque = [] ∧
    (witFab [] [witItem 9] none).on FAB_CTRL_STEAL_EN = true ∧ (witFab [] [witItem 9] none).chooseVictim 1 = some 0 ∧
    ((witFab [] [witItem 9] none).engine 0).deque.getLast? = some (witItem 9) ∧ (witFab [] [witItem 9] none).gate (witItem 9) = true := by decide +kernel
theorem wit_WorkItems_4 : ((witFab [] [] (some (witItem 9))).engine 0).cur = some (witItem 9) ∧
    (∀ a ∈ (witFab [] [] (some (witItem 9))).itemWords (witItem 9),
      (witFab [] [] (some (witItem 9))).mpuOk .fabric a false = true ∧ (witFab [] [] (some (witItem 9))).eccAt a = 0) := by decide +kernel
/-- Engine 0 has finished an item of Strand 5, whose integration is open with two items out. -/
def witSlot : Hw := (Hw.reset.setEngine 0 { Engine.reset with slots := [⟨witItem 9, 0, 0, [1]⟩] }).setStrand 5 { Strand.reset with open_ := true, items := 2 }
theorem wit_WorkItems_5 : witSlot.oldestSlot 0 = some (0, ⟨witItem 9, 0, 0, [1]⟩) ∧ (witSlot.strand 5).open_ = true ∧ (witSlot.strand 5).iseq = 0 ∧
    (witSlot.strand 5).starved = false ∧ 2 ≤ (witSlot.strand 5).items := by decide +kernel
theorem wit_WorkItems_6 : ({ Hw.reset with fab := { Hw.reset.fab with issue := [witItem 0] } } : Hw).fab.engines = [] ∧
    ({ Hw.reset with fab := { Hw.reset.fab with issue := [witItem 0] } } : Hw).pastDeadline (witItem 0) = true := by decide +kernel
theorem wit_WorkItems_7 (is q : List Item) (c : Option Item) : Settled (witFab is q c) := ⟨rfl, fun _ h => absurd h Bool.false_ne_true⟩
theorem wit_WorkItems_8 : Settled witSlot ∧ ∀ a ∈ slotWords 0 0, witSlot.eccAt a = 0 := by
  refine ⟨⟨rfl, fun k h => ?_⟩, by decide +kernel⟩
  by_cases hk : k = 5
  · subst hk; exact ⟨by decide +kernel, fun nb h => by cases h⟩
  · have e : witSlot.strand k = Strand.reset := by
      simp only [witSlot]
      rw [Hw.strand_setStrand_ne _ (Ne.symm hk)]; rfl
    rw [e] at h; cases h

/-- A test of engine 0 on request. -/
def witTest (m : Bool) : Hw := { Hw.reset.setEngine 0 { Engine.reset with rest := true } with fab := { Hw.reset.fab with testing := some (0, m) } }
/-- One Strand that searches, and its tranche. -/
def witSearch : Hw := { Hw.reset.sf FAB_CTRL_TRMAX 1 with strands := [(3, { Strand.reset with state := .search, body := [0x00010003, 0, 1, 0, 0, 0x10000] })] }
/-- Entry 2 allocated to Strand 3 and not started. -/
def witTranche : Hw := witSearch.setTranche 2 (some ⟨3, 0, 0, 2046, 1, false, 0, none, 40920, 1, 0, 0, false, false, false, [], false, false, 0⟩)
theorem wit_EngineTests_1 : (0x1FF : BitVec 32).toNat.testBit 8 = true ∧ (0xFF : BitVec 32).toNat.testBit 8 = false ∧ (witTest true).fab.testing = some (0, true) ∧
    (witTest true).strands = [] := by decide +kernel
theorem wit_EngineTests_2 : witSearch.fab.tranches = [] ∧ bodyDwell [0x00010003, 0, 1, 0, 0, 0x10000] = 1 ∧ witSearch.rf FAB_CTRL_TRMAX ≤ 1 := by decide +kernel
theorem wit_EngineTests_4 (m : Bool) : Settled (witTest m) := ⟨rfl, fun _ h => absurd h Bool.false_ne_true⟩
theorem wit_EngineTests_3 : witTranche.tranche 2 = some ⟨3, 0, 0, 2046, 1, false, 0, none, 40920, 1, 0, 0, false, false, false, [], false, false, 0⟩ ∧
    (witTranche.port (bodyPort (witTranche.strand 3).body)).nextTag ≤ (0 + 40920 - 1) / 2048 ∧ witTranche.tranche 1 = none := by decide +kernel

/-- Return words with flags `f`. -/
def witRet (f : Nat) : RetWords := ⟨f, 100, 200, 0x00050004, 0, 0, 0, 0⟩
/-- Strand 5 of port 0, which runs at count 100000, in a state with an integration ended at 50000. -/
def witEnd (st : StrandState) (f : Nat) (fault : Bool) : Hw :=
  let h := (witPort portRun).setPort 0 { (witPort portRun).port 0 with cnt := 100000 }
  h.setStrand 5 { Strand.reset with state := st, body := [0x00010007, 0, 1], pullAcc := 10000000, coastAcc := 10000000,
                                    ended := some ⟨50000, false, false, false, some (witRet f), fault, false, true⟩ }
theorem wit_Boundaries_1 : ∀ st f, st = StrandState.track ∨ st = .pullIn ∨ st = .coast → f = 0 ∨ f = 1 ∨ f = 2 ∨ f = 4 →
    (witEnd st f false).closable 5 = some ⟨50000, false, false, false, some (witRet f), false, false, true⟩ ∧
    ((witEnd st f false).strand 5).staged = none ∧ ((witEnd st f false).strand 5).state = st ∧
    (witEnd st f false).insideGap (bodyPort ((witEnd st f false).strand 5).body) 50000 = false ∧
    (witEnd st f false).portState (bodyPort ((witEnd st f false).strand 5).body) = portRun := by
  rintro st f (rfl | rfl | rfl) (rfl | rfl | rfl | rfl) <;> decide +kernel
theorem wit_Boundaries_2 : (witEnd .pullIn 0 false).pullDone ((witEnd .pullIn 0 false).addTime ((witEnd .pullIn 0 false).strand 5) 50000) = true ∧
    (witEnd .coast 0 false).coastDone ((witEnd .coast 0 false).addTime ((witEnd .coast 0 false).strand 5) 50000) = true ∧
    (witEnd .track 0 true).closable 5 ≠ none ∧ (Hw.reset.strand 5).ended = none ∧ (Hw.reset.strand 5).state ≠ .pullIn := by decide +kernel
/-- Strand 5 has a detection. -/
def witDetect : Hw := (witEnd .search 0 false).setStrand 5 { Strand.reset with
  state := .search, body := [0x00010007, 0, 1], search := { Search.start with detect := some (3, 100, 200, 50000) } }
theorem wit_Boundaries_3 : (witDetect.strand 5).search.detect = some (3, 100, 200, 50000) ∧ (witDetect.strand 5).state = .search ∧
    (witDetect.strand 5).staged = none ∧ nextBlock 50000 ≤ witDetect.ringCount (bodyPort (witDetect.strand 5).body) := by decide +kernel
theorem wit_Boundaries_4 : Settled Hw.reset := ⟨rfl, fun _ h => absurd h Bool.false_ne_true⟩

/-- A task of Strand 5 in slot 6. -/
def witTask : LoopTask := ⟨5, 0, 6, some 0, none, 0, 0, 0, 0, 0, (0, 0), 0, 0, 0, [], [], [], false⟩
/-- Core 0 runs the task in area 1 with registers `r` at program word 0, which is `w`; slot 6 holds 16 words. -/
def witCore (w : Nat) (r : CoreRegs) : Hw :=
  ((Hw.reset.store32 0x12800000 w).sf (LOOP_KSLOT_RANGE_LEN 6) 16).setCore 0 { Core.reset with run := some ⟨witTask, 1, r⟩ }
/-- The conditions of `Issues` for that core. -/
def witIssues (w op cost next : Nat) (r : CoreRegs) : Bool :=
  let h := witCore w r
  let i := insnOf (h.programWord 0)
  decide ((h.core 0).run = some ⟨witTask, 1, r⟩ ∧ (h.core 0).retry = none ∧ h.mustSave (h.core 0) ⟨witTask, 1, r⟩ = false ∧ h.unitTesting 6 = false ∧ h.rowLocked 6 0x12800000 = false ∧
    h.eccAt 0x12800000 = 0 ∧ i.word = w ∧ i.op = op ∧ i.legal = true ∧ h.rf (LOOP_KSLOT_CFG_LIMIT 6) = 0 ∧ cost < 100 ∧
    h.rf (LOOP_KSLOT_RANGE_BASE 6) ≤ next ∧ next < h.rf (LOOP_KSLOT_RANGE_BASE 6) + h.rf (LOOP_KSLOT_RANGE_LEN 6))
/-- An immediate, a direct local operand, and an operand of loop shared data at X for each operation code. -/
theorem wit_LoopArithmetic_1 : ∀ op ∈ [0x10, 0x11, 0x12, 0x13, 0x14, 0x15, 0x16],
    witIssues (op * 2 ^ 26 + 0x03000010) op 1 1 CoreRegs.start = true ∧ witIssues (op * 2 ^ 26 + 0x10) op 1 1 CoreRegs.start = true ∧
    witIssues (op * 2 ^ 26 + 0x00A00010) op 1 1 CoreRegs.start = true := by decide +kernel
theorem wit_LoopArithmetic_2 : (insnOf 0x40000010).ea 1 CoreRegs.start / 256 = 1 ∧
    (witCore 0x40000010 CoreRegs.start).eccAt (localKey 0 ((insnOf 0x40000010).ea 1 CoreRegs.start)) = 0 ∧
    (witCore 0x40A00010 CoreRegs.start).access (.loop 0) (spaceAddr 1 0 0x10) 4 false = .ok ∧
    (witCore 0x40A00010 CoreRegs.start).eccAt (spaceAddr 1 0 0x10) = 0 := by decide +kernel
theorem wit_LoopArithmetic_3 : witIssues 0x77800000 0x1D 1 1 CoreRegs.start = true ∧ witIssues 0x7B800000 0x1E 1 1 CoreRegs.start = true ∧
    witIssues 0x83000003 0x20 1 1 CoreRegs.start = true ∧ witIssues 0x87800000 0x21 1 1 CoreRegs.start = true := by decide +kernel

theorem wit_LoopNorm_1 : witIssues 0x8B800000 0x22 1 1 CoreRegs.start = true ∧ witIssues 0x8B800000 0x22 1 1 { CoreRegs.start with a := 5 } = true := by
  decide +kernel

theorem wit_LoopRegisters_1 : ∀ op ∈ [0x01, 0x02, 0x03, 0x18, 0x19, 0x1A, 0x1B, 0x1C],
    witIssues (op * 2 ^ 26 + 0x03000010) op 1 1 CoreRegs.start = true ∧ witIssues (op * 2 ^ 26 + 0x10) op 1 1 CoreRegs.start = true ∧
    witIssues (op * 2 ^ 26 + 0x00A00010) op 1 1 CoreRegs.start = true := by decide +kernel
theorem wit_LoopRegisters_2 : witIssues 0x7F800000 0x1F 1 1 CoreRegs.start = true ∧ witIssues 0x8F010003 0x23 1 1 CoreRegs.start = true ∧
    witIssues 0x90000010 0x24 17 1 CoreRegs.start = true ∧ witIssues 0x94000010 0x25 17 1 CoreRegs.start = true ∧
    witIssues 0xD7800000 0x35 1 1 CoreRegs.start = true := by decide +kernel
theorem wit_LoopRegisters_3 : witIssues 0x5D830101 0x17 1 1 { CoreRegs.start with x := 0x110, y := 0x120 } = true ∧
    (witCore 0x5D830101 CoreRegs.start).eccAt (localKey 0 0x110) = 0 ∧ (0x110 : BitVec 16).toNat / 256 = 1 := by decide +kernel

theorem wit_LoopStores_1 : ∀ op ∈ [0x08, 0x09, 0x0A, 0x0B], witIssues (op * 2 ^ 26 + 0x10) op 1 1 CoreRegs.start = true ∧
    witIssues (op * 2 ^ 26 + 0x00A00010) op 1 1 CoreRegs.start = true ∧ witIssues (op * 2 ^ 26 + 0x00C00010) op 1 1 CoreRegs.start = true := by
  decide +kernel
theorem wit_LoopStores_2 : ∀ n ∈ [2, 4], (witCore 0x20C00010 CoreRegs.start).access (.loop 0) (spaceAddr 1 0 0x10) n true = .ok ∧
    (witCore 0x20C00010 CoreRegs.start).access (.loop 0) (spaceAddr 2 0 0x10) n true = .ok ∧
    (witCore 0x20C00010 CoreRegs.start).eccAt (spaceAddr 2 0 0x10) = 0 := by decide +kernel
theorem wit_LoopStores_3 : ((Hw.reset.setCore 0 { Core.reset with retry := some (0x11000010, 4, 7, 1) }).core 0).retry = some (0x11000010, 4, 7, 1) ∧
    isMram 0x11000010 = false ∧ (Hw.reset.core 0).retry = none := by decide +kernel

theorem wit_LoopControlFlow_1 : witIssues 0xC0000003 0x30 2 3 CoreRegs.start = true ∧ leadsTo (insnOf 0xC0000003) ⟨witTask, 1, CoreRegs.start⟩ 3 ∧
    witIssues 0xC0403FFF 0x30 1 1 CoreRegs.start = true ∧ leadsTo (insnOf 0xC0403FFF) ⟨witTask, 1, CoreRegs.start⟩ 1 ∧
    witIssues 0xC4000003 0x31 2 3 CoreRegs.start = true ∧ witIssues 0xC8000000 0x32 2 9 { CoreRegs.start with stack := [9] } = true ∧
    witIssues 0xC8400000 0x32 1 1 CoreRegs.start = true := by
  unfold leadsTo; decide +kernel
theorem wit_LoopControlFlow_2 : ∀ op ∈ [0x33, 0x34], witIssues (op * 2 ^ 26 + 4) op 1 1 CoreRegs.start = true ∧
    countOf CoreRegs.start (insnOf (op * 2 ^ 26 + 4)) = 5 ∧ witIssues (op * 2 ^ 26 + 2 ^ 16) op 2 2 CoreRegs.start = true ∧
    countOf CoreRegs.start (insnOf (op * 2 ^ 26 + 2 ^ 16)) = 0 ∧
    (insnOf ((witCore (op * 2 ^ 26 + 4) CoreRegs.start).programWord 1)).op ∉ [0x30, 0x31, 0x32, 0x33, 0x34, 0x03, 0x23] := by decide +kernel
theorem wit_LoopControlFlow_3 : taken CoreRegs.start (condOf (insnOf 0xC8000000)) = true ∧ witTask.kind = 0 ∧ 4 ≤ witTask.slot ∧
    witTask.strand < 512 ∧ witTask.dead = false ∧ (witCore 0xC8000000 CoreRegs.start).strand 5 = Strand.reset ∧
    (((witCore 0xC8000000 CoreRegs.start).setStrand 5 { Strand.reset with ended := some ⟨9, false, false, false, none, false, false, true⟩ }).strand 5).ended =
      some ⟨9, false, false, false, none, false, false, true⟩ := by decide +kernel

/-- The core of `witCore` with error code `e` in its program word. -/
def witFetch (w e : Nat) (r : CoreRegs) : Hw := (witCore w r).setEcc 0x12800000 e
theorem wit_LoopFaults_1 : ∀ w ∈ [0, 0x04000010, 0x04000810], ∀ e ∈ [0, 2],
    ((witFetch w e CoreRegs.start).core 0).run = some ⟨witTask, 1, CoreRegs.start⟩ ∧ ((witFetch w e CoreRegs.start).core 0).retry = none ∧
    (witFetch w e CoreRegs.start).mustSave ((witFetch w e CoreRegs.start).core 0) ⟨witTask, 1, CoreRegs.start⟩ = false ∧
    witTask.kind = 0 ∧ (witFetch w e CoreRegs.start).unitTesting 6 = false ∧ (witFetch w e CoreRegs.start).rowLocked 6 0x12800000 = false ∧
    (witFetch w e CoreRegs.start).eccAt 0x12800000 = e ∧ (insnOf ((witFetch w e CoreRegs.start).programWord 0)).word = w := by decide +kernel
theorem wit_LoopFaults_2 : (insnOf 0).op ∉ loopForms.map (·.2) ∧ (insnOf 0x04000810).op = 0x01 ∧ (insnOf 0x04000810).legal = false ∧
    (insnOf 0x04000010).legal = true ∧ ((witCore 0x04000010 CoreRegs.start).sf (LOOP_KSLOT_CFG_LIMIT 6) 1).rf (LOOP_KSLOT_CFG_LIMIT 6) = 1 ∧
    (successor { CoreRegs.start with pc := 15 }).1 = 16 ∧ (insnOf 0x04000410).ea 1 CoreRegs.start / 256 ≠ 1 ∧
    witIssues 0x04000410 0x01 1 1 CoreRegs.start = true := by decide +kernel

/-- Core 0 is live with the ready task `witTask`, or with it saved. -/
def witReady (rs : List LoopTask) (saved : List Running) : Hw :=
  let h := { Hw.reset with fuses := { Hw.reset.fuses with cores := 255 } }
  { h.setCore 0 { Core.reset with saved := saved } with loop := { (h.setCore 0 { Core.reset with saved := saved }).loop with ready := rs } }
theorem wit_LoopDispatch_1 : (witReady [witTask] []).coreLive 0 = true ∧ ((witReady [witTask] []).core 0).run = none ∧
    ((witReady [witTask] []).core 0).saved = [] ∧ (witReady [witTask] []).strandBusy 5 = false ∧ BlockReads 5 (witReady [witTask] []) ∧ (witReady [witTask] []).loop.ready = [witTask] ∧
    ((witReady [] [⟨witTask, 1, CoreRegs.start⟩]).core 0).saved = [⟨witTask, 1, CoreRegs.start⟩] ∧
    (witReady [] [⟨witTask, 1, CoreRegs.start⟩]).coreLive 0 = true ∧ (witReady [] [⟨witTask, 1, CoreRegs.start⟩]).loop.ready = [] := by decide +kernel
theorem wit_LoopDispatch_2 : ((Hw.reset.setCore 0 { Core.reset with run := some ⟨witTask, 1, CoreRegs.start⟩, preempt := true }).core 0).preempt = true ∧
    countOf CoreRegs.start (insnOf 0xD000000F) = 16 ∧ (11 : Nat) < countOf CoreRegs.start (insnOf 0xD000000F) := by decide +kernel

/-- E at timing clock 10, label 3, with the fields given. -/
def witPulse (go lbl e : Nat) : Hw :=
  let h := (((Hw.reset.sf TP_CFG_EN 1).sf TP_CMD_STEP_GO go).sf TP_STEPLBL_LABEL lbl).sf TP_STEP_LO_E e
  { h.sf TP_LABEL_LABEL 3 with tp := { Hw.reset.tp with edge := 10 * 2 ^ 32, offAt := some 20 } }
theorem wit_TimePulse_1 : (witPulse 0 0 0).on TP_CMD_STEP_GO = false ∧ (witPulse 1 9 30).on TP_CMD_STEP_GO = true ∧
    lastPulse (witPulse 1 9 30) = some (3, 10 * 2 ^ 32) ∧ (3 : Nat) < (witPulse 1 9 30).rf TP_STEPLBL_LABEL ∧ 10 * 2 ^ 32 < stepEdge (witPulse 1 9 30) ∧
    lastPulse (witPulse 1 3 30) = some (3, 10 * 2 ^ 32) ∧ (witPulse 1 3 30).rf TP_STEPLBL_LABEL ≤ 3 ∧
    (witPulse 0 0 0).tp.offAt = some 20 ∧ Hw.reset.tp.offAt = none := by decide +kernel
theorem wit_TimePulse_2 : (Hw.reset.sf TP_STAT_TSTATE 1).rf TP_STAT_TSTATE = 1 ∧ Hw.reset.rf TP_STAT_TSTATE ≠ 1 ∧
    Hw.reset.on TM_CFG_EN = false ∧ (Hw.reset.sf TM_CFG_EN 1).on TM_CFG_EN = true ∧
    ((Hw.reset.sf TM_CFG_EN 1).rf TM_CFG_EDGE).testBit 0 = true ∧ max 1 ((Hw.reset.sf TM_CFG_EN 1).rf TM_CFG_MINW) ≤ 100 ∧ (Hw.reset.sf TM_CFG_EN 1).tp.lastMark = none ∧ Hw.reset.tp.marks = [] := by
  decide +kernel
theorem wit_TimePulse_3 : ({ Hw.reset.sf TM_CFG_EN 1 with tp := { Hw.reset.tp with marks := [(5, true, 0)], lastMark := some 5 } } : Hw).tp.lastMark = some 5 ∧
    ({ Hw.reset.sf TM_CFG_EN 1 with tp := { Hw.reset.tp with marks := [(5, true, 0)], lastMark := some 5 } } : Hw).tcnt - 1 - 5 ≤ 16 := by decide +kernel

/-- Port 0 in the given state at count 100, with EN as given. -/
def witCount (st en : Nat) : Hw :=
  let h := (witPort st).sf HITCH_CTRL_EN en
  h.setPort 0 { h.port 0 with cnt := 100, syn := true }
theorem wit_HitchEpochs_1 : (witCount portRun 1).counting 0 = true ∧ dueInstant (witCount portRun 1) < ((witCount portRun 1).port 0).cnt ∧
    (witCount portRun 1).on HITCH_CTRL_EN = true ∧ (witCount portRun 1).portState 0 ∈ [portRun, portGap, portHalted] ∧
    (witCount portRun 1).hitch.pendRate = none ∧ (witCount portRun 1).hitch.pendBase = none ∧
    (witCount portRun 0).on HITCH_CTRL_EN = false ∧ (witCount portRun 0).counting 0 = true := by decide +kernel
theorem wit_HitchEpochs_2 : (witCount portOff 1).counting 0 = true ∧ (witCount portOff 1).portState 0 = portOff ∧
    dueInstant (witCount portOff 1) < ((witCount portOff 1).port 0).cnt := by decide +kernel
/-- An epoch due at position 0 with no port running, one whose counts have not settled, and one with an open anchor. -/
def witEpoch : Epoch := ⟨1, 0, 0, [0, 0, 0, 0], [0, 0, 0, 0], false, false, [0, 0, 0, 0], [none, none, none, none]⟩
def witDue (h : Hw) : Hw := { h with hitch := { h.hitch with due := [witEpoch], copies := [1] } }
theorem wit_HitchEpochs_3 : (witDue Hw.reset).settledPast witEpoch = true ∧ (witDue Hw.reset).anchorsClosed witEpoch = true ∧
    (witDue (witPort portRun)).settledPast witEpoch = false ∧
    (witDue (Hw.reset.setStrand 5 { Strand.reset with state := .track, ended := some ⟨0, false, false, false, none, false, false, true⟩ })).anchorsClosed
      witEpoch = false ∧ witEpoch.expired = false ∧ (witDue Hw.reset).tableBusy = false := by decide +kernel
theorem wit_HitchEpochs_4a (m : Master) (a : Nat) (w : Bool) : (witDue Hw.reset).mpuOk m a w = true := by
  have e : (!(witDue Hw.reset).on MPU_CTRL_EN) = true := by decide +kernel
  unfold Hw.mpuOk
  rw [if_pos e]
theorem wit_HitchEpochs_4 (k : Nat) (hk : k < 4096) : (witDue Hw.reset).access (.dma 0) (0x11028000 + 8 * k) 8 false = .ok ∧
    (witDue Hw.reset).access (.dma 0) (0x20008000 + 8 * k) 8 true = .ok ∧ (witDue Hw.reset).eccAt (0x11028000 + 8 * k) = 0 := by
  have w : ∀ lo hi a, within lo hi a = true ↔ lo ≤ a ∧ a ≤ hi := by intro lo hi a; simp [within]
  have r1 : regionOf (0x11028000 + 8 * k) = some .strandTable := by
    unfold regionOf; simp only [w]; repeat (first | rw [if_pos (by omega)] | rw [if_neg (by omega)])
  have r2 : regionOf (0x20008000 + 8 * k) = some .navSram := by
    unfold regionOf; simp only [w]; repeat (first | rw [if_pos (by omega)] | rw [if_neg (by omega)])
  have u1 : unitOf (0x11028000 + 8 * k) = some 4 := by
    unfold unitOf; simp only [w]; repeat (first | rw [if_pos (by omega)] | rw [if_neg (by omega)])
  have u2 : unitOf (0x20008000 + 8 * k) = some 7 := by
    unfold unitOf; simp only [w]; repeat (first | rw [if_pos (by omega)] | rw [if_neg (by omega)])
    congr 1; omega
  have d1 : domainOf (0x11028000 + 8 * k) = some 0 := by
    unfold domainOf; simp only [w]; rw [if_pos (by omega)]
  have d2 : domainOf (0x20008000 + 8 * k) = none := by
    unfold domainOf; simp only [w]; repeat rw [if_neg (by omega)]
  have p : (witDue Hw.reset).writeProtected (0x20008000 + 8 * k) 8 = false := by
    unfold Hw.writeProtected; simp only [w]; repeat rw [if_neg (by omega)]
    unfold Hw.imageProtected imageSlot; simp only [w]; repeat rw [if_neg (by omega)]
  have o : (witDue Hw.reset).unitOn 4 = true ∧ (witDue Hw.reset).unitOn 7 = true ∧ (∀ u, u < 17 → (witDue Hw.reset).unitTesting u = false) ∧ (witDue Hw.reset).memu.repair = none ∧ (witDue Hw.reset).ecc = [] ∧
    ((witDue Hw.reset).domState 0 == 2) = true := by decide +kernel
  have rl : ∀ u a, (witDue Hw.reset).rowLocked u a = false := by intro u a; unfold Hw.rowLocked; rw [o.2.2.2.1]
  refine ⟨?_, ?_, ?_⟩
  · unfold Hw.access; rw [r1]; simp [wit_HitchEpochs_4a, Hw.pathOk, Hw.portPart, Hw.domainOn, d1, Hw.unitAccess, u1, o, rl]
  · unfold Hw.access; rw [r2]; simp [wit_HitchEpochs_4a, Hw.pathOk, Hw.portPart, Hw.domainOn, d2, Hw.unitAccess, u2, o, rl, p]
  · unfold Hw.eccAt; rw [o.2.2.2.2.1]; rfl
theorem wit_HitchEpochs_5 : (7 : Nat) ∉ [(6#32).toNat / 2 % 8] ∧ (15#32).toNat / 2 % 8 = 7 ∧ (witCount portRun 1).spZeroUp = true ∧
    Hw.reset.spZeroUp = false ∧ Hw.reset.epochsOccur = false ∧ (witCount portRun 1).epochsOccur = true ∧
    (Hw.reset.nextInstant : Int) + signed16 0 ≤ adjBound Hw.reset ∧ adjBound Hw.reset < (Hw.reset.nextInstant : Int) + signed16 5 := by decide +kernel

/-- Port 0 in RUN selected for a capture of 10 blocks, in state `st`. -/
def witCoil (st : Nat) : Hw :=
  let h := (witPort portRun).sf COIL_STAT_STATE st
  { h with coil := ⟨1, [10, 0, 0, 0]⟩ }
/-- The same port with a ring of 16 units. -/
def witArm : Hw := (witPort portRun).sf (SP_RING_SIZE 0) 16
theorem wit_CoilCaptures_1 : (0x11141#32).toNat / 65536 % 8 = 1 ∧ (0x20000#32).toNat / 65536 % 8 = 2 ∧ (0x40000#32).toNat / 65536 % 8 = 4 ∧
    (0x11141#32).toNat % 16 = 1 ∧ (0x11141#32).toNat / 16 % 64 = 20 ∧ witArm.rf COIL_STAT_STATE = 0 ∧
    witArm.portState 0 = portRun ∧ 0 < witArm.portCount ∧
    captureBlocks witArm 0 20 ≤ witArm.rf (SP_RING_SIZE 0) * 64 ∧ witArm.strands = [] := by decide +kernel
theorem wit_CoilCaptures_2 : ArmRefused Hw.reset 0 := Or.inr (Or.inl rfl)
theorem wit_CoilCaptures_3 : ¬ ArmRefused witArm 0x11141 := by
  have q := wit_CoilCaptures_1
  unfold ArmRefused
  rintro (a | a | a | a | ⟨n, a, b, c⟩)
  · revert a; decide +kernel
  · revert a; decide
  · revert a; decide
  · revert a; decide
  · have : n = 0 := by
      rcases n with _ | _ | _ | _ | n
      · rfl
      · revert b; decide
      · revert b; decide
      · revert b; decide
      · omega
    subst this
    rcases c with c | c | c | ⟨t, c, -⟩
    · revert c; decide +kernel
    · revert c; decide +kernel
    · revert c; decide +kernel
    · rw [q.2.2.2.2.2.2.2.2.2] at c; cases c
theorem wit_CoilCaptures_4 : (witCoil 1).coil.ports.testBit 0 = true ∧ (witCoil 1).rf COIL_STAT_STATE ∈ [1, 2] ∧ ((witCoil 1).port 0).cap = none ∧
    (witCoil 1).portState 0 = portRun ∧ ((witCoil 1).port 0).coilFrom * (witCoil 1).dec 0 = ((witCoil 1).port 0).cnt ∧ 0 < (witCoil 1).coilBlocks 0 ∧
    ((witCoil 1).port 0).nextTag ≤ ((witCoil 1).port 0).coilFrom / 2048 ∧ (witCoil 1).strands = [] ∧ (witCoil 3).rf COIL_STAT_STATE = 3 := by decide +kernel
theorem wit_CoilCaptures_5 : (((witCoil 3).setPort 0 { (witCoil 3).port 0 with hold := some 3, holdEnd := true }).port 0).hold = some 3 ∧
    ((witCoil 3).port 0).hold = none := by decide +kernel

/-- Firmware runs; the hot-start service as given. -/
def witHot (t : HotStart) : Hw := { Hw.reset with sys := { Hw.reset.sys with fwRunning := true }, hot := t }
theorem wit_HotStartAndSnapshot_1 (now : Bool) : SaveDue (witHot HotStart.reset) now := by
  have e : (witHot HotStart.reset).fwUp = true := by decide +kernel
  have n : ∀ t, (witHot HotStart.reset).hot.savedAt ≠ some t := fun t h => by cases h
  exact ⟨e, fun t h => absurd h (n t), Or.inr (Or.inr fun t h => absurd h (n t))⟩
theorem wit_HotStartAndSnapshot_2 : ¬ SaveDue Hw.reset false := by
  rintro ⟨a, -⟩; revert a; decide +kernel
theorem wit_HotStartAndSnapshot_3 : (witHot { HotStart.reset with savedAt := some 0 }).rtc.sec - 0 < 160 ∧
    (witHot { HotStart.reset with cycle := true }).hot.cycle = true ∧ (witHot { HotStart.reset with cycle := true }).obj 0x2101 6 ≠ 1 ∧
    (witHot { HotStart.reset with stream := true }).hot.stream = true ∧ ((witHot HotStart.reset).setObj 0x2101 1 1).obj 0x2101 1 = 1 ∧
    ((witHot HotStart.reset).setObj 0x2101 1 1).fwUp = true ∧ ((witHot { HotStart.reset with class_ := 2 }).setObj 0x2101 1 1).hot.class_ = 2 ∧
    HotStart.reset.class_ ≠ 2 ∧ Hw.reset.linkRole 3 = 0 ∧ Hw.reset.fwUp = false := by decide +kernel
theorem wit_HotStartAndSnapshot_4 : 1 ≤ ((witHot HotStart.reset).setLink 3 { (witHot HotStart.reset).link 3 with role := 2 }).linkRole 3 ∧
    ((witHot HotStart.reset).setLink 3 { (witHot HotStart.reset).link 3 with role := 2 }).fwUp = true := by decide +kernel
/-- A cycle may begin, or is under way with the capture in state `st`. -/
def witCycle (cycle : Bool) (st : Nat) : Hw :=
  { ((witHot { HotStart.reset with class_ := 2, cycle := cycle }).setObj 0x2101 1 1).sf COIL_STAT_STATE st with
    sched := { Hw.reset.sched with snapDue := !cycle } }
theorem wit_HotStartAndSnapshot_5 : (witCycle false 0).fwUp = true ∧ (witCycle false 0).obj 0x2101 1 = 1 ∧ (witCycle false 0).hot.cycle = false ∧
    (witCycle false 0).hot.stream = false ∧ (witCycle false 0).sched.snapDue = true ∧ (witCycle false 0).sched.advDue = false ∧
    (witCycle false 0).stalls = [] := by decide +kernel
theorem wit_HotStartAndSnapshot_6 : (witCycle true 3).fwUp = true ∧ (witCycle true 3).hot.cycle = true ∧ (witCycle true 3).rf COIL_STAT_STATE = 3 ∧
    (witCycle true 4).rf COIL_STAT_STATE ∈ [0, 4] ∧ (witCycle true 3).obj 0x2101 6 ≠ 1 ∧ ((witCycle true 3).setObj 0x2101 6 1).obj 0x2101 6 = 1 ∧
    (witCycle true 3).snapIdle = true ∧ (witCycle true 3).snapDetected < (witCycle true 3).obj 0x2101 7 ∧ (witCycle true 3).hot.retried = false ∧
    ((witCycle true 3).setObj 0x2101 7 0).obj 0x2101 7 ≤ ((witCycle true 3).setObj 0x2101 7 0).snapDetected ∧ (witCycle true 3).snapLong = false ∧
    ((witCycle true 3).sf (SP_RING_SIZE 0) 60).snapLong = true := by decide +kernel

/-- Slot 6 with 16 words and LIMIT 1, valid or not; slot 7 with no words. -/
def witKslot (valid : Nat) : Hw :=
  ((witHot HotStart.reset).sf (LOOP_KSLOT_RANGE_LEN 6) 16 |>.sf (LOOP_KSLOT_CFG_LIMIT 6) 1).sf (LOOP_KSLOT_CFG_VALID 6) valid
theorem wit_KernelSlots_1 : (witKslot 1).rf (LOOP_KSLOT_CFG_VALID 6) = 1 ∧ (witKslot 0).rf (LOOP_KSLOT_CFG_VALID 6) = 0 ∧
    (witKslot 1).rf (LOOP_KSLOT_CFG_LIMIT 6) = 1 ∧ (witKslot 1).slotUsers 6 = 0 ∧ (witKslot 0).rangeTaken 6 0 16 = false ∧
    (witKslot 0).rf (LOOP_KSLOT_RANGE_LEN 7) = 0 ∧ (witKslot 0).rf (LOOP_KSLOT_CFG_VALID 7) = 0 ∧ (witKslot 1).sys.fwRunning = true ∧
    0 < ({ witKslot 1 with loop := { Hw.reset.loop with ready := [witTask] } } : Hw).slotUsers 6 := by decide +kernel
/-- An image of one word, RET, for slot `k`, with the code CRC `c`. -/
def witImage (k : Nat) (w : List Nat) (c : Nat) : List Nat :=
  [0x01, 0x4E, 0x4C, 0x4B, k, 0, 0, 0, 1, 0, 0, 0, 3, 0, 0, 0, 0, 0, 0, 0] ++ leBytes 4 c ++ List.replicate 8 0 ++ w
theorem wit_KernelSlots_2 : ∀ p ∈ [(6, [0, 0, 0, 0xC8]), (5, [0, 0, 0, 0xC8]), (6, [0, 0, 0, 0])], ∀ q ∈ [0, 1],
    ImageHeader (witImage p.1 p.2 (crc32 p.2 ^^^ q)) ∧ (∀ b ∈ witImage p.1 p.2 (crc32 p.2 ^^^ q), b < 256) ∧
    wordAt (witImage p.1 p.2 (crc32 p.2 ^^^ q)) 20 = crc32 p.2 ^^^ q ∧ (witImage p.1 p.2 (crc32 p.2 ^^^ q)).drop 32 = p.2 ∧
    wordAt (witImage p.1 p.2 (crc32 p.2 ^^^ q)) 4 = p.1 := by
  unfold ImageHeader; decide +kernel
theorem wit_KernelSlots_3 : codeOk (wordsOf [0, 0, 0, 0xC8]) = true ∧ codeOk (wordsOf [0, 0, 0, 0]) = false ∧
    (witKslot 0).fleetWords 6 + 1 ≤ 6144 ∧ (witKslot 0).domState 1 = 2 ∧
    (Hw.reset.sf PWR_DOM_STATE 0).domState 1 ≠ 2 ∧ (witKslot 0).fw.journal.free + 48 ≤ 131072 ∧ recordSize 36 ≤ 64 ∧ (witKslot 0).liveBytes 0xF110 6 [] ≤ 65536 ∧ (witKslot 0).firstFit 6 1 = some 0 ∧ ((witKslot 0).sf (LOOP_KSLOT_RANGE_LEN 7) 16384 |>.sf
      (LOOP_KSLOT_CFG_VALID 7) 1).firstFit 6 1 = none := by decide +kernel
theorem wit_KernelSlots_4 : ¬ ImageHeader [] := by unfold ImageHeader; decide

/-- A unit state, RUN_OFF and a test as given. -/
def witUnit (u st off : Nat) (t : Option (Nat × Bool)) (maps : List RowMap) : Hw :=
  { (Hw.reset.sf (MEM_SCTL_STATE u) st).sf (MEM_SCTL_RUN_OFF u) off with memu := { Hw.reset.memu with test := t, rowMaps := maps, repair := some ⟨⟨u, 2, 3, 0⟩, [], false⟩ } }
theorem wit_MemoryUnits_1 : (witUnit 7 5 1 none []).rf (MEM_SCTL_RUN_OFF 7) = 1 ∧ (witUnit 7 5 0 none []).rf (MEM_SCTL_RUN_OFF 7) = 0 ∧
    (witUnit 7 5 0 none []).rf (MEM_SCTL_STATE 7) = 5 ∧ (witUnit 7 0 1 none []).rf (MEM_SCTL_STATE 7) = 0 ∧
    (witUnit 7 4 0 none []).rf (MEM_SCTL_STATE 7) = 4 ∧ (witUnit 7 5 0 (some (7, true)) []).memu.test = some (7, true) ∧
    (witUnit 7 5 0 (some (7, true)) []).rowsUnreadable 7 = [] ∧ (witUnit 7 5 0 (some (7, true)) []).freeSpare 7 2 [] = some 0 ∧
    (witUnit 7 5 0 none [⟨7, 2, 0, 0⟩, ⟨7, 2, 1, 1⟩]).freeSpare 7 2 [] = none ∧ (2 : Nat) < unitBanks 7 ∧
    (witUnit 7 5 0 none []).freeSpare 7 2 [(2, 0)] = some 1 ∧ (witUnit 7 5 0 none [⟨7, 2, 1, 1⟩]).freeSpare 7 2 [(2, 0)] = none ∧
    (witUnit 2 5 0 none [⟨2, 2, 0, 0⟩, ⟨2, 2, 1, 1⟩]).freeSpare 2 2 [] = none ∧ (witUnit 2 5 0 (some (2, true)) []).memu.test = some (2, true) ∧
    (witUnit 2 5 0 (some (2, true)) []).rowsUnreadable 2 = [] ∧ (witUnit 7 5 0 none []).memu.repair = some ⟨⟨7, 2, 3, 0⟩, [], false⟩ ∧
    Hw.reset.memu.repair = none ∧ Hw.reset.memu.test = none := by decide +kernel
theorem wit_MemoryUnits_2 : ¬ RunOffRefused (witUnit 7 5 0 none []) 7 ∧ RunOffRefused Hw.reset 4 := by
  refine ⟨?_, Or.inl (by decide)⟩
  rintro (a | ⟨k, a⟩ | ⟨a, -⟩)
  · revert a; decide
  · cases a
  · revert a; decide
theorem wit_MemoryUnits_3 : ¬ MarchRefused (witUnit 7 5 0 none []) 7 true ∧ ¬ MarchRefused (witUnit 7 0 1 none []) 7 false ∧
    MarchRefused Hw.reset 15 true := by
  refine ⟨?_, ?_, Or.inr (Or.inl (by decide))⟩
  · rintro (a | a | a | ⟨a, -⟩ | ⟨-, a | ⟨a, -⟩ | ⟨a, -⟩⟩)
    · exact a rfl
    · revert a; decide
    · revert a; decide +kernel
    · cases a
    · revert a; decide +kernel
    · revert a; decide
    · revert a; decide
  · rintro (a | a | a | ⟨-, a⟩ | ⟨a, -⟩)
    · exact a rfl
    · revert a; decide
    · revert a; decide +kernel
    · revert a; decide +kernel
    · cases a
theorem wit_MemoryUnits_4 : (0x127#32).toNat.testBit 8 = true ∧ (0x127#32).toNat % 32 = 7 ∧ (0x127#32).toNat.testBit 5 = true ∧
    (0x107#32).toNat.testBit 5 = false := by decide

/-- A wipe in progress or waiting, with the fields given. -/
def witWipe (w : Option Wipe) (lc : Option Nat) : Hw := { Hw.reset with memu := { Hw.reset.memu with wipe := w, lcTarget := lc, mramCur := some (0x60000000, 5) } }
theorem wit_ThimbleAndLifeCycle_1 : (0x101#32).toNat.testBit 0 = true ∧ (0x101#32).toNat.testBit 1 = false ∧ (0x102#32).toNat.testBit 1 = true ∧ (0x104#32).toNat.testBit 2 = true ∧
    Hw.reset.memu.wipe = none ∧ Hw.reset.rf MEM_THSTAT_BLOCKED = 0 ∧ Hw.reset.rf MEM_THSTAT_TAMPER_LOCKED = 0 ∧
    Hw.reset.rf (MEM_SCTL_STATE 15) = 5 ∧ Hw.reset.rf (MEM_SCTL_STATE 16) = 5 ∧ (witWipe (some ⟨true, 1⟩) none).memu.wipe = some ⟨true, 1⟩ ∧
    (witWipe (some ⟨false, 1⟩) none).memu.wipe = some ⟨false, 1⟩ ∧ (witWipe (some ⟨true, 3⟩) (some 2)).memu.lcTarget = some 2 ∧
    Hw.reset.memu.lcTarget = none ∧ Hw.reset.pwr.state ≠ .slack ∧ Hw.reset.memu.mramCur = none ∧
    (witWipe none none).memu.mramCur = some (0x60000000, 5) ∧ Hw.reset.linkRole 3 = 0 := by decide +kernel
/-- Link 3 has role SERVICE. -/
def witRole : Hw := Hw.reset.setLink 3 { Hw.reset.link 3 with role := 2 }
theorem wit_ThimbleAndLifeCycle_2 : permitted witRole.fuses.lifecycle ((0x4C430002#32).toNat % 8) (witRole.linkRole 3) false ∧
    (0x4C430002#32).toNat / 65536 = 0x4C43 ∧ 1 ≤ witRole.linkRole 3 ∧ witRole.memu.lcTarget = none := by
  unfold permitted; decide +kernel
theorem wit_ThimbleAndLifeCycle_3 : LoadPermitted Hw.reset false ∧ ¬ LoadPermitted (witWipe (some ⟨true, 1⟩) none) true := by
  unfold LoadPermitted; decide +kernel

/-- Firmware serves, with the requests given and telemetry object 4 of 60 bytes. -/
def witAsk (q : List (Nat × List Nat)) : Hw :=
  { Hw.reset with
    sys := { Hw.reset.sys with fwRunning := true }
    fw := { Hw.reset.fw with requests := q }
    bgnd := { Hw.reset.bgnd with tele := [(4, List.replicate 60 7)] } }
theorem wit_RequestsAndReads_1 : (witAsk []).fwUp = true ∧ (witAsk []).linkUp 0 = true ∧ (witAsk []).queued 0 < 4 ∧
    4 ≤ (witAsk (List.replicate 4 (0, reqOf 1 7 0x5100 17 []))).queued 0 ∧ frameFault (reqOf 1 7 0x5100 17 []) = none ∧
    (witAsk []).bootAnswers 7 = false ∧ (witAsk []).rf LYD_SESS_STATE = 0 ∧ (witAsk []).linkUp 1 = false ∧ (witAsk []).bootAnswers 1 = false ∧
    (((witAsk []).setCan 0 ⟨[], [(2, reqOf 1 7 0x5100 17 [])]⟩).can 0).rx = [(2, reqOf 1 7 0x5100 17 [])] := by decide +kernel
theorem wit_RequestsAndReads_2 : Asked ⟨witAsk [(0, reqOf 1 7 0x5100 17 [])], []⟩ 0 (reqOf 1 7 0x5100 17 []) [] :=
  ⟨by decide +kernel, rfl, by simp⟩
theorem wit_RequestsAndReads_3 : plainObject 0x5100 0xF0 = none ∧ plainObject 0x1234 1 = none ∧
    (∃ o, plainObject 0x2100 2 = some o ∧ o.kind = .wo) ∧ (witAsk []).linkRole 0 = 0 ∧
    (∃ o, plainObject 0x5100 17 = some o ∧ o.sub = 17 ∧ o.idx = 0x5100 ∧ o.kind ≠ .wo ∧ (witAsk []).objectWord 0x5100 17 = some TP_STAT) := by
  refine ⟨by decide +kernel, by decide +kernel, ⟨_, rfl, rfl⟩, by decide +kernel, ⟨_, rfl, rfl, rfl, by decide +kernel, by decide +kernel⟩⟩
theorem wit_RequestsAndReads_4 : (∃ v, ((witAsk []).read .nav TP_STAT 4).resp = .data v) := ⟨((witAsk []).regValue TP_STAT), by decide +kernel⟩

/-- Firmware serves with the request given at the head on link 2, whose session has the role FLEET, and the transfers, abandonments and answers given. -/
def witPut (req : List Nat) (segs : List SegWrite) (dead : List (Nat × Nat × Nat)) (ans : List SegDone) : Hw :=
  (witAsk [(2, req)]).setLink 2 { Link.reset with role := 1, segs := segs, dead := dead, answered := ans }
theorem wit_ObjectWrites_1 : Asked ⟨witPut (reqOf 2 7 0x1010 1 (leBytes 2 500)) [] [] [], []⟩ 2 (reqOf 2 7 0x1010 1 (leBytes 2 500)) [] :=
  ⟨by decide +kernel, rfl, by simp⟩
theorem wit_ObjectWrites_2 : (∃ o, MayWrite (witPut [] [] [] []) 2 0x1010 1 o ∧ o.size = 2) ∧ (∃ o, MayWrite (witPut [] [] [] []) 2 0x4010 2 o) ∧
    (∃ o, MayWrite (witPut [] [] [] []) 2 0x6110 1 o ∧ o.check = .range 50 500) ∧
    (∃ o, MayWrite (witPut [] [] [] []) 2 0x5000 1 o ∧ o.size = 4 ∧ o.check = .any) := by
  have e : ∀ k, k < 10 → k ≠ 2 → ((witPut [] [] [] []).link k).segs = [] := by decide +kernel
  have n : ∀ i j k, k < 10 → k ≠ 2 → ∀ x ∈ ((witPut [] [] [] []).link k).segs, ¬ (x.idx = i ∧ x.sub = j) := by
    intro i j k a b x hx; rw [e k a b] at hx; cases hx
  refine ⟨⟨_, ⟨by decide, rfl, rfl, rfl, by decide, by decide, by decide +kernel, n _ _⟩, rfl⟩,
    ⟨_, by decide, rfl, rfl, rfl, by decide, by decide, by decide +kernel, n _ _⟩,
    ⟨_, ⟨by decide, rfl, rfl, rfl, by decide, by decide, by decide +kernel, n _ _⟩, rfl⟩,
    ⟨_, ⟨by decide, rfl, rfl, rfl, by decide +kernel, by decide +kernel, by decide +kernel, n _ _⟩, rfl, rfl⟩⟩
theorem wit_ObjectWrites_3 : (witPut [] [] [] []).liveBytes 0x1010 1 (leBytes 2 500) ≤ 65536 ∧ (witPut [] [] [] []).fw.journal.free + 32 ≤ 131072 ∧
    (witPut [] [] [] []).segOf 2 0x1010 1 = none ∧
    (witPut [] [⟨[7], 0x1010, 1, 2, [5], 0, 0⟩] [] []).segOf 2 0x1010 1 = some ⟨[7], 0x1010, 1, 2, [5], 0, 0⟩ ∧
    (witPut [] [] [(0x01000009, 0x1010, 1)] []).segOf 2 0x1010 1 = none := by decide +kernel
theorem wit_ObjectWrites_4 : ∃ w, (witPut [] [⟨[7], 0x4010, 2, 2, [], 9, 0⟩] [] []).putChecked 2 ⟨0x4010, 2, .rw, 1, 1, .upTo 2⟩ [1] = (.value [], w) ∧
    w.fwUp = true := ⟨_, rfl, by decide +kernel⟩

/-- A served AUTH request on link 2, whose link record is as given. -/
def witAuth (d : List Nat) (k : Link) : State := ⟨(witAsk [(2, reqOf 6 7 0 0 d)]).setLink 2 k, []⟩
theorem wit_Sessions_1 : ∀ d ∈ [[1], 2 :: List.replicate 32 5, 3 :: List.replicate 32 5 ++ [1]], Asked (witAuth d Link.reset) 2 (reqOf 6 7 0 0 d) [] ∧
    frameFault (reqOf 6 7 0 0 d) = none := by
  intro d hd
  refine ⟨⟨?_, ?_, by simp⟩, ?_⟩ <;> revert d hd <;> decide +kernel
theorem wit_Sessions_2 : NonceValid (witAuth [1] { Link.reset with nonce := [1] }).hw 2 ∧ ¬ NonceValid (witAuth [1] Link.reset).hw 2 ∧
    RoleOpen (witAuth [1] Link.reset).hw 2 1 ∧ ¬ RoleOpen (witAuth [1] Link.reset).hw 2 2 := by
  refine ⟨⟨by decide +kernel, by decide +kernel⟩, ?_, Or.inl rfl, ?_⟩
  · rintro ⟨a, -⟩; revert a; decide +kernel
  · rintro (a | ⟨-, a, -⟩ | ⟨a, -⟩) <;> revert a <;> decide
theorem wit_Sessions_3 : (witAuth [1] Link.reset).hw.keyWithId 0x0100 = none ∧ ((witAuth [1] { Link.reset with barred := true }).hw.link 2).barred = true ∧
    (witAuth [1] { Link.reset with barred := true }).hw.tcnt < ((witAuth [1] { Link.reset with barred := true }).hw.link 2).barAt + 60 * 491520000 := by
  decide +kernel

/-- Link 2 with the role given, the request at the head, and the subscriptions given. -/
def witSub (q : List (Nat × List Nat)) (xs : List Sub) : Hw := { witAsk q with fw := { (witAsk q).fw with subs := xs } }
theorem wit_Subscriptions_1 : Asked ⟨witSub [(2, subReq 7 0x1010 1 1 100 0)] [], []⟩ 2 (subReq 7 0x1010 1 1 100 0) [] := ⟨by decide +kernel, rfl, by simp⟩
theorem wit_Subscriptions_2 : ∃ v g, (witSub [] []).objectRead 2 0x1010 1 = (.value v, g) := ⟨_, _, rfl⟩
theorem wit_Subscriptions_3 : ∃ g, (witSub [] []).objectRead 2 0x1010 9 = (.abort 0x02000002, g) := ⟨_, by
  have e : plainObject 0x1010 9 = none := by decide +kernel
  have t : ¬ topSub 0x1010 = 0 := by decide +kernel
  simp only [Hw.objectRead, objectAt, absent, e, t, if_false, if_neg (show ¬ (9 = 0) by decide)]; rfl⟩
theorem wit_Subscriptions_4 : DueAt ⟨3, 2, 0x1010, 1, 2, 100, 0, 0, none, 5, [], false, false⟩ False (5 + 100 * 491520) ∧
    DueAt ⟨3, 2, 0x1010, 1, 1, 100, 0, 0, none, 5, [], true, false⟩ True 0 := ⟨Or.inr (Or.inr (Or.inl ⟨rfl, rfl, rfl⟩)), Or.inl ⟨rfl, Or.inl rfl, trivial, rfl, rfl⟩⟩
theorem wit_Subscriptions_5 : (witSub [] []).objectWord 0x5000 1 ≠ none ∧ (witSub [] []).objectWord 0x1010 1 = none ∧ ((witSub [] []).link 2).out = [] ∧
    (witSub [] []).fwUp = true := by decide +kernel

/-- The host SPI port with the bytes given received, the output queue and its part given, and the window enabled. -/
def witHspi (rx out : List Nat) (part : Nat) : Hw :=
  let h := (witAsk []).setLink 6 { Link.reset with rx := rx }
  { h with fw := { h.fw with hspiOut := out, hspiPart := part } }.sf HSPI_CFG_WIN_EN 1
theorem wit_WowellAndWindow_1 : (witHspi [] [] 0).win = none ∧ (0xA5 : Nat) ∉ [1, 2] ∧ (witHspi [] [] 0).on HSPI_CFG_EN = true ∧
    (witHspi [] [] 0).clocked = true ∧ (witHspi [] [] 0).on HSPI_CFG_WIN_EN = true ∧ (witHspi [] [] 0).linkUp 0 = true ∧ (witHspi [] [] 0).fwUp = true ∧
    within 0x11000000 0x1103FFFF 0x11000000 = true ∧ (witHspi [] [] 0).busAccess .host 0x11000000 4 true = .ok ∧
    (witHspi [] [0xA5, 0, 7, 1, 2] 5).fw.hspiPart ≤ (witHspi [] [0xA5, 0, 7, 1, 2] 5).fw.hspiOut.length := by decide +kernel
theorem wit_WowellAndWindow_2 : PartialFrame 6 [0xA5, 6] ∧ FalseStart 6 [249, 2] :=
  ⟨Or.inr (Or.inl ⟨6, by decide, rfl⟩), 249, 2, [], rfl, Or.inl (by decide)⟩
theorem wit_WowellAndWindow_3 : ∃ g, HostReads (witHspi [] [] 0) HSPI_CFG 1 [13] g :=
  ⟨_, [], 13, _, ⟨rfl, rfl⟩, by decide +kernel, by decide +kernel, rfl, rfl⟩
theorem wit_WowellAndWindow_4 : ∃ g, HostWrites (witHspi [] [] 0) 0x11000000 [5] g := ⟨_, by decide +kernel, by decide +kernel, rfl⟩
theorem wit_WowellAndWindow_5 : ((witHspi [] [] 0).read .host 0x50000000 4).resp = .error ∧
    (witHspi [] [] 0).busAccess .host 0x50000000 4 false ≠ .stall := by decide +kernel

/-- CAN0 enabled, with the state code, counts and queues given. -/
def witCan (st tec : Nat) (tx : List CanFrame) (rx : List (Nat × List Nat)) : Hw :=
  ((((witAsk []).setCan 0 ⟨tx, rx⟩).sf (CAN_CFG_EN 0) 1).sf (CAN_STAT_STATE 0) st).sf (CAN_STAT_TEC 0) tec
theorem wit_CanAndJournal_1 : (witCan 0 0 [] []).on (CAN_CFG_EN 0) = true ∧ (witCan 0 0 [] []).rf (CAN_STAT_STATE 0) ≠ 2 ∧
    (witCan 0 0 [] []).on (CAN_CFG_FDOE 0) = true ∧ false = (witCan 0 0 [] []).on (CAN_CFG_XID 0) ∧
    (0x121#29).toNat = (witCan 0 0 [] []).canId 0 2 ∧ ((witCan 0 0 [] []).can 0).rx.length < 16 ∧
    16 ≤ ((witCan 0 0 [] (List.replicate 16 (2, []))).can 0).rx.length ∧ (witCan 0 0 [] []).on (CAN_CFG_SILENT 0) = false ∧
    (witCan 2 255 [] []).rf (CAN_STAT_STATE 0) = 2 ∧ (witCan 2 255 [] []).on (CAN_CFG_AUTO_BOR 0) = true ∧ (witCan 0 0 [] []).linkUp 8 = true ∧
    (witCan 0 0 [] []).fwUp = true ∧ (witCan 0 0 [] []).obj 0x1010 1 ≠ 0 ∧ (witCan 0 0 [] []).linkUp 0 = true ∧
    ((witCan 0 0 [] []).setObj 0x5120 1 1).obj 0x5120 1 = 2 ^ (0 : Nat) ∧ 255 < (witCan 0 250 [] []).rf (CAN_STAT_TEC 0) + 8 := by decide +kernel
theorem wit_CanAndJournal_2 : SentNext [⟨0x1A1, [], none, none⟩, ⟨0x121, [1], none, none⟩, ⟨0x121, [2], none, none⟩] [⟨0x1A1, [], none, none⟩]
    ⟨0x121, [1], none, none⟩ [⟨0x121, [2], none, none⟩] := ⟨rfl, by decide, by decide⟩
/-- The journal at its free pointer given, never compacted. -/
def witJournal (p : Nat) : Hw := { witAsk [] with fw := { (witAsk []).fw with journal := ⟨0, 1, p, 0, none⟩ } }
theorem wit_CanAndJournal_3 : 98304 ≤ (witJournal 98304).fw.journal.free ∧ (witJournal 98304).sys.fwRunning = true ∧
    (∀ t, (witJournal 98304).fw.journal.lastCompact = some t → t + 320 * 491520000 ≤ (witJournal 98304).tcnt) :=
  ⟨by decide +kernel, by decide +kernel, fun _ h => by cases h⟩

/-- Port n enabled, with the state given. -/
def witUart (n : Nat) (c : Serial) : Hw := ((Hw.reset.setSerial n c).sf (UART_CFG_EN n) 1)
theorem wit_SerialPorts_1 : (witUart 2 Serial.reset).rxOn 2 = true ∧ ((witUart 2 Serial.reset).serial 2).slow = false ∧
    (witUart 2 Serial.reset).halfDuplex 2 = false ∧ (witUart 6 Serial.reset).halfDuplex 6 = true ∧ ((witUart 2 Serial.reset).link (serialLink 2)).out = [] ∧
    ((witUart 2 { Serial.reset with cur := some 5 }).serial 2).cur = some 5 ∧ (witUart 6 Serial.reset).lyd.ratePend = none ∧
    (witUart 6 Serial.reset).on (UART_CFG_ECHO 6) = false ∧ ((witUart 6 Serial.reset).sf (UART_CFG_ECHO 6) 1).on (UART_CFG_ECHO 6) = true ∧
    ((witUart 2 { Serial.reset with tx := List.replicate 32 0 }).serial 2).tx.length = 32 ∧ ((witUart 2 { Serial.reset with rx := [5] }).serial 2).rx = [5] ∧
    ((witUart 1 { Serial.reset with slow := true }).serial 1).slow = true ∧ (witUart 1 Serial.reset).on (UART_STAT_RXBUSY 1) = false ∧
    ((witUart 1 Serial.reset).sf (UART_STAT_RXBUSY 1) 1).on (UART_STAT_RXBUSY 1) = true ∧ (witUart 1 Serial.reset).on (UART_STAT_SHRX 1) = false ∧
    Hw.reset.rxOn 2 = false := by decide +kernel
/-- The samples of the 8N1 character 0x55 and sample 0 to 9 of its stop bit, after two high samples. -/
def witSamples : List Bool := [true, true] ++ [false, true, false, true, false, true, false, true, false].flatMap (List.replicate 16) ++ List.replicate 10 true
theorem wit_SerialPorts_3 : FromStart (witUart 2 { Serial.reset with rxFmt := 8 }) 2 witSamples (witSamples.drop 2) ∧
    bitsAhead ((witUart 2 { Serial.reset with rxFmt := 8 }).serial 2).rxFmt = 9 ∧ 16 * 9 + 10 ≤ (witSamples.drop 2).length ∧
    majority (witSamples.drop 2) 0 = false ∧ dataOfBits 8 (witSamples.drop 2) = 0x55 ∧ Idle ((witSamples.drop 2).drop (16 * 9 + 10)) ∧
    FromStart (witUart 2 { Serial.reset with rxFmt := 8 }) 2 [false, true] [false, true] ∧
    FromStart (witUart 2 Serial.reset) 2 (false :: List.replicate 12 true) (false :: List.replicate 12 true) ∧
    majority (false :: List.replicate 12 true) 0 = true ∧ Idle ((false :: List.replicate 12 true).drop 10) :=
  ⟨Or.inr ⟨by decide +kernel, rfl, [true, true], by decide, rfl, by decide +kernel⟩, by decide +kernel, by decide +kernel, by decide +kernel, by decide +kernel,
    by decide +kernel, Or.inr ⟨by decide +kernel, rfl, [], by decide, rfl, by decide +kernel⟩,
    Or.inr ⟨by decide +kernel, rfl, [], by decide, rfl, by decide +kernel⟩, by decide +kernel, by decide +kernel⟩
theorem wit_SerialPorts_2 : RateOk 6 (768 * 65536 + 125) ∧ ¬ RateOk 2 0 ∧ FmtOk 8 ∧ ¬ FmtOk 4 := by
  unfold RateOk FmtOk; decide
/-- UART1 in slow reception with 16 slow-clock edges to a bit. -/
def witSlow : Hw := (witUart 1 { Serial.reset with rxFmt := 8, slow := true }).setReg (UART_SRATE 1) (1 + 16 * 65536)
def witSlowSamples : List Bool := [true, true] ++ [false, true, false, true, false, true, false, true, false].flatMap (List.replicate 16) ++ List.replicate 9 true
theorem wit_SerialPorts_4 : SlowFrom witSlow 1 witSlowSamples (witSlowSamples.drop 2) ∧ slowAt (1 + 16 * 65536) 9 < (witSlowSamples.drop 2).length ∧
    slowSample (1 + 16 * 65536) (witSlowSamples.drop 2) 0 = false ∧ slowData (1 + 16 * 65536) (witSlowSamples.drop 2) 8 = 0x55 ∧
    Idle ((witSlowSamples.drop 2).drop (slowAt (1 + 16 * 65536) 9 + 1)) ∧ SlowFrom witSlow 1 [true, false] [false] ∧
    slowSample (1 + 16 * 65536) (false :: List.replicate 12 true) 0 = true :=
  ⟨Or.inr ⟨by decide +kernel, by decide +kernel, rfl, [true, true], by decide, rfl, by decide +kernel⟩, by decide +kernel, by decide +kernel, by decide +kernel,
    by decide +kernel, Or.inr ⟨by decide +kernel, by decide +kernel, rfl, [true], by decide, rfl, by decide +kernel⟩, by decide +kernel⟩

/-- A session with ID 5 is open, or none, with the rate times given. -/
def witLyd (st : Nat) (at_ : Option Nat) (pend : Option (Nat × Nat)) (cur : Option Nat) : Hw :=
  let h := ((((witAsk []).sf LYD_SESS_STATE st).sf LYD_SESS_SID 5).setSerial 6 { Serial.reset with cur := cur }).setLink 7 { Link.reset with role := 2 }
  { h with lyd := { h.lyd with rateAt := at_, ratePend := pend } }
theorem wit_LanyardSessions_1 : (witLyd 1 none none none).fwUp = true ∧ (witLyd 1 none none none).on LYD_CFG_EN = true ∧
    (witLyd 0 none none none).rf LYD_SESS_STATE = 0 ∧ (witLyd 1 none none none).rf LYD_SESS_STATE ≠ 0 ∧ (witLyd 1 none none none).lyd.rateAt = none ∧
    (witLyd 1 (some 3) none none).lyd.rateAt = some 3 ∧ (witLyd 2 none (some (768 * 65536 + 125, 1)) (some 5)).lyd.ratePend = some (768 * 65536 + 125, 1) ∧
    ((witLyd 2 none (some (768 * 65536 + 125, 1)) (some 5)).serial 6).cur ≠ none ∧ ((witLyd 1 none none none).link 7).role = 2 ∧
    ((Hw.reset).link 7).role ≠ 2 := by decide +kernel
theorem wit_LanyardSessions_2 : OfSession (witLyd 1 none none none) (5#8).toNat ∧ ¬ OfSession (witLyd 1 none none none) (6#8).toNat := by
  refine ⟨⟨by decide +kernel, by decide +kernel⟩, ?_⟩
  rintro ⟨-, a⟩; revert a; decide +kernel
theorem wit_LanyardSessions_3 : (125#16).toNat ≠ 0 ∧ (125#16).toNat ≤ (768#16).toNat ∧ 6144 * (125#16).toNat ≤ 1000 * (768#16).toNat := by decide

/-- The radio with the commands given waiting and the window given, opened by the head or not. -/
def witRadio (q : List RadioCmd) (w : Option Nat) (o : Bool) : Hw := { Hw.reset with radio := { Hw.reset.radio with queue := q, window := w, opened := o } }
/-- An immediate command with this OP, on channel 37, at power 60, tag 9. -/
def witCmd (op : Nat) : RadioCmd := ⟨op + 8 * 37 + 16384, 60 + 2 ^ 24 * 9, 0⟩
theorem wit_RadioCommands_1 : MayStart (witRadio [witCmd 1] none false) (witCmd 1) [] ∧ NextReady [] ∧ NoStart Hw.reset 1 ∧
    ∀ st, ¬ Limited (witRadio [witCmd 1] none false) (witCmd 1) st := by
  refine ⟨⟨rfl, rfl, by decide +kernel, Or.inl (by decide +kernel)⟩, (by intro d h; cases h), Or.inl (by intro c h; cases h), ?_⟩
  rintro st (⟨-, h⟩ | ⟨-, -, h⟩ | ⟨-, -, -, h⟩) <;> revert h <;> decide +kernel
theorem wit_RadioCommands_2 : Limited ((witRadio [witCmd 1] none false).sf RADIO_LIM_DUTY 0) (witCmd 1) 4 :=
  Or.inr (Or.inr ⟨rfl, by decide +kernel, by decide +kernel, by decide +kernel⟩)
theorem wit_RadioCommands_3 : (witCmd 1).ret ≠ 1 ∧ (witCmd 1).chan ≤ 78 ∧ (witCmd 1).op = 1 ∧ (witRadio [witCmd 2] (some 0) true).radio.window = some 0 ∧
    Hw.reset.on RADIO_STAT_HOLD_ACT = false ∧ (Hw.reset.sf RADIO_STAT_CAL_PEND 1).on RADIO_STAT_CAL_PEND = true ∧ Hw.reset.rf RADIO_STAT_STATE ≤ 1 ∧
    Hw.reset.on RADIO_STAT_CAL_PEND = false ∧ (witRadio [witCmd 2] (some 0) true).radio.done.length + ((witRadio [witCmd 2] (some 0) true).radio.queue.drop 1).length ≤ 8 := by
  decide +kernel

theorem wit_RadioSharing_1 : MayStart (witRadio [witCmd 3] none false) (witCmd 3) [] ∧ (witCmd 3).op = 3 ∧
    MayStart ({ witRadio [witCmd 1] none false with radio := { (witRadio [witCmd 1] none false).radio with asked := true, granted := true } }.sf RADIO_COEX_EN 1)
      (witCmd 1) [] ∧ NoStart Hw.reset 3 :=
  ⟨⟨rfl, rfl, by decide +kernel, Or.inl (by decide +kernel)⟩, by decide, ⟨rfl, rfl, by decide +kernel, Or.inr (Or.inl rfl)⟩, Or.inl (by intro c h; cases h)⟩
theorem wit_RadioSharing_2 : BlowOk { Hw.reset with fuses := { Hw.reset.fuses with lifecycle := 1 } } 0x46420001 2 ∧ ¬ BlowOk Hw.reset 0 2 := by
  unfold BlowOk
  exact ⟨⟨by decide, by decide, Or.inl rfl, by decide, by decide, by decide +kernel⟩, fun h => absurd h.1 (by decide)⟩
theorem wit_RadioSharing_3 : OverLimit (Hw.reset.sf RADIO_LIM_DUTY 0) 1 ∧ SyncStep Hw.reset 0 ∧
    (Hw.reset.sf RADIO_STAT_HOLD_ACT 1).on RADIO_STAT_HOLD_ACT = true ∧ ((Hw.reset.setReg (holdReg 0 0) 1).reg (holdReg 0 0)).toNat % 2 = 1 ∧
    (witAsk []).fwUp = true ∧ (witAsk []).pkey.conns.length < 4 := by
  unfold OverLimit SyncStep; decide +kernel

/-- Connection 1 is open as given, while firmware serves. -/
def witPhone (c : PhoneConn) : Hw := withConn (witAsk []) 1 c
/-- A connection whose token is proved, with all rights, under bond 0. -/
def witConn : PhoneConn := ⟨77, some 0, List.replicate 128 255, [1], [], 0, true, 0, false, 30, 0, true⟩
/-- A token that passes check 1. -/
def witToken : List Nat := [0x01, 0x4B, 0x54, 0x42, 1, 7, 0, 0, 9, 0, 0, 0] ++ List.replicate 8 0 ++ [1, 0, 0, 0, 2, 0, 0, 0] ++ List.replicate 100 0
theorem wit_PhoneAuthentication_1 : (witPhone witConn).fwUp = true ∧ (witPhone witConn).conn 1 = some witConn ∧ (witPhone witConn).conn 2 = none ∧
    TokenForm witToken ∧ TokenFault (witPhone witConn) [] [] 0x11 ∧ MayPair (witPhone witConn) witConn ∧ FreeBond (witPhone witConn) 0 ∧
    (witPhone witConn).keyWithId 0x0300 = none ∧ tok witToken 0x0C 8 = (witPhone witConn).fuses.unique :=
  ⟨by decide +kernel, by decide +kernel, by decide +kernel, by decide +kernel, Or.inl ⟨rfl, by decide⟩, ⟨by decide +kernel, rfl, by decide +kernel⟩,
   ⟨by decide, (by intro x h; cases h), (by intro j h; omega)⟩, by decide +kernel, by decide +kernel⟩
theorem wit_PhoneAuthentication_2 : MeetsConn (witPhone witConn) 2 5 false ⟨5, none, [], [], [], 0, false, 0, false, 0, 0, false⟩ ∧
    { witConn with nonce := [3] }.nonce ≠ [] ∧ (witPhone witConn).tcnt ≤ witConn.challengeAt + 5 * 491520000 ∧ witConn.auth = true ∧ witConn.procRun = true ∧
    (witPhone witConn).mramNum (0x60C50000 + 128 * 0) 4 ≠ 0x4B530001 ∧ (witPhone witConn).fw.journal.free + 24 ≤ 131072 ∧ (witPhone witConn).fw.journal.area ≤ 1 :=
  ⟨Or.inr ⟨by decide +kernel, (by intro b h; cases h), rfl⟩, by decide, by decide +kernel, by decide, by decide, by decide +kernel, by decide +kernel, by decide +kernel⟩
theorem wit_PhoneAuthentication_3 : ∃ g, (witPhone witConn).journalWrite 0x6111 2 (leBytes 7 witConn.addr ++ leBytes 4 (witPhone witConn).rtc.sec) = (none, g) := by
  unfold Hw.journalWrite
  rw [if_neg (by decide +kernel), if_pos (by decide +kernel)]
  exact ⟨_, rfl⟩
theorem wit_PhoneAuthentication_4 : ∃ d, (witPhone witConn).distance false ((List.range 40).map fun i => (i, 0)) [0, 0, 0, 0] = some d ∧
    d ≤ (witPhone witConn).obj 0x6110 1 := ⟨0, by decide +kernel⟩

theorem wit_AccessDecisions_1 : OutcomeIs (witPhone { witConn with count := 3 }) { witConn with count := 3 } 1 0x1B ∧ (witPhone { witConn with count := 3 }).fwUp = true ∧
    (witPhone { witConn with count := 3 }).obj 0x6110 2 ≤ 3 ∧ Hw.reset.pkey.start = none ∧ (Hw.reset.sf PKEY_OUTSTAT_UNL_ACT 1).on PKEY_OUTSTAT_UNL_ACT = true :=
  ⟨Or.inl ⟨rfl, Or.inl (by decide +kernel)⟩, by decide +kernel, by decide +kernel, rfl, by decide +kernel⟩
theorem wit_AccessDecisions_2 : ((witAsk []).setCan 0 ⟨[], [(6, [1])]⟩).fwUp = true ∧ (((witAsk []).setCan 0 ⟨[], [(6, [1])]⟩).can 0).rx = [(6, [1])] ∧
    ((witAsk []).setObj 0x6110 7 1).obj 0x6110 7 = 1 ∧ (witAsk []).obj 0x6110 7 ≠ 1 ∧ ((witAsk []).setLink 2 { Link.reset with role := 1 }).linkRole 2 = 1 := by
  decide +kernel

/-- A write is queued in the backup domain. -/
def witEdge (a v : Nat) : Hw := { Hw.reset with rtc := { Hw.reset.rtc with wq := [(a, 4, v)] } }
theorem witNotIdle (a v : Nat) : ¬ EdgeIdle (witEdge a v) := by
  rintro (h | ⟨_, _, _, _, _, h, _⟩)
  · cases h
  · cases h
theorem wit_RealTimeClock_1 : EdgeHead (witEdge RTC_CMD 1) 0 RTC_CMD 4 1 [] ∧ EdgeHead (witEdge RTC_ADJ 5) 0 RTC_ADJ 4 5 [] ∧ EdgeIdle Hw.reset ∧
    EdgeHead (witEdge 0x32000000 5) 0 0x32000000 4 5 [] :=
  ⟨⟨rfl, witNotIdle _ _, witNotIdle _ _⟩, ⟨rfl, witNotIdle _ _, witNotIdle _ _⟩, Or.inl rfl, ⟨rfl, witNotIdle _ _, witNotIdle _ _⟩⟩
theorem wit_RealTimeClock_4 : ClockOk Hw.reset ∧ SecondAt Hw.reset 32768 ∧ Hw.reset.on RTC_CDCTL_RUN = false ∧
    Hw.reset.rtc.recompute = false ∧ Hw.reset.rtc.edge % 2 ^ 20 = 0 ∧
    SecondAt ({ Hw.reset with rtc := { Hw.reset.rtc with pre := 32767, recompute := true } }) 1 := by
  unfold ClockOk SecondAt; decide +kernel
theorem wit_RealTimeClock_2 : shadowTime 0x235958 0x23991231 = some (eraSeconds - 2) ∧ shadowTime 0 0 = none ∧
    (movedBy Hw.reset 5) % ((eraSeconds * 32768 : Nat) : Int) = ((5 : Nat) : Int) := by decide +kernel
theorem wit_RealTimeClock_3 : ∃ m, Hw.reset.rtc.sec < m ∧ m < eraSeconds ∧ Hw.reset.almMatches m = true ∧
    ∀ j, Hw.reset.rtc.sec < j → j < m → Hw.reset.almMatches j = false := ⟨1, by decide +kernel, by decide, by decide +kernel, by
      intro j a b
      have e : Hw.reset.rtc.sec = 0 := by decide +kernel
      omega⟩

/-- Event input 1 is enabled, with tamper or not. -/
def witEvent (tamper : Nat) : Hw := (Hw.reset.sf (EV_CFG_EN 1) 1).sf (EV_CFG_TAMPER 1) tamper
theorem witStillHead (a v : Nat) : ¬ EdgeIdle (witEdge a v) := by
  rintro (h | ⟨_, _, _, _, _, h, _⟩) <;> cases h
theorem wit_CountdownAndEvents_1 : EdgeHead (witEdge RTC_CDCTL 1) 0 RTC_CDCTL 4 1 [] ∧ EdgeHead (witEdge (EV_STAT 1) 8) 0 (EV_STAT 1) 4 8 [] :=
  ⟨⟨rfl, witStillHead _ _, witStillHead _ _⟩, ⟨rfl, witStillHead _ _, witStillHead _ _⟩⟩
theorem wit_CountdownAndEvents_2 : IsEvent (witEvent 1) 1 true ∧ (witEvent 1).on (EV_CFG_TAMPER 1) = true ∧ (witEvent 0).on (EV_CFG_TAMPER 1) = false ∧
    (witEvent 1).pwr.state = .run ∧ Hw.reset.on RTC_CDCTL_RUN = false ∧ (Hw.reset.sf RTC_CDCTL_RUN 1).on RTC_CDCTL_RUN = true ∧
    MayDiscipline ((witAsk []).sf TP_STAT_TSTATE 1) ∧ ¬ MayDiscipline Hw.reset := by
  refine ⟨⟨by decide +kernel, by decide +kernel, Or.inl rfl⟩, by decide +kernel, by decide +kernel, by decide +kernel, by decide +kernel, by decide +kernel,
    ⟨by decide +kernel, by decide +kernel, by decide +kernel, by decide +kernel⟩, ?_⟩
  rintro ⟨-, h, -⟩; revert h; decide +kernel

/-- A part that serves an update: the Lanyard session has role FLEET, the life cycle is IN_SERVICE, and the supply is high. -/
def witUpd : Hw :=
  let h := witAsk []
  let h := { h with fuses := { h.fuses with lifecycle := 3 } }
  ((h.setLink 7 { h.link 7 with role := 1 }).sf BGND_RAIL1_SENSE 2000).sf BGND_RAIL0_VBKP 3000
/-- The image that runs is the confirmed one, and one block of a transfer is left. -/
def witBlock : Hw := { witUpd with upd := { witUpd.upd with state := 1, next := 1, blocks := 2, bytes := 4097 } }
theorem wit_FirmwareUpdate_1 : witUpd.fwUp = true ∧ Hw.reset.fwUp = false ∧ NoneOf (updGates witUpd 7 ++ [(0x600000 < 4608 ∨ 4608 < 4608, 0x15)] ++ updSafety witUpd) ∧
    FirstOf (updGates witUpd 7 ++ [(0x600000 < 4607 ∨ 4607 < 4608, 0x15)] ++ updSafety witUpd) 0x15 ∧ 1 ≤ witUpd.linkRole 7 ∧ witUpd.linkRole 0 < 1 := by
  simp only [NoneOf, FirstOf, updGates, updSafety, IsMoving, List.cons_append, List.nil_append]
  refine ⟨by decide +kernel, by decide +kernel, by decide +kernel, by decide +kernel, by decide +kernel, by decide +kernel⟩
theorem wit_FirmwareUpdate_2 : NoneOf (updGates witBlock 7 ++ [(witBlock.upd.state ≠ 1, 0x17),
      (¬ ((1 = witBlock.upd.next ∨ 1 + 1 = witBlock.upd.next) ∧ 1 < witBlock.upd.blocks ∧ [9].length = min 4096 (witBlock.upd.bytes - 4096 * 1)), 0x18),
      (crc32 [9] ≠ crc32 [9], 0x19)] ++ updSafety witBlock) ∧ witBlock.rf UPD_STAT_SLOT ≠ 1 - witBlock.kept.confirmed % 2 ∧
    (witBlock.sf UPD_STAT_SLOT 1).rf UPD_STAT_SLOT = 1 - (witBlock.sf UPD_STAT_SLOT 1).kept.confirmed % 2 := by
  simp only [NoneOf, updGates, updSafety, IsMoving, List.cons_append, List.nil_append]
  refine ⟨by decide +kernel, by decide +kernel, by decide +kernel⟩
theorem wit_FirmwareUpdate_3 (h : Hw) (hh : h = { witUpd with upd := { witUpd.upd with state := 2, version := 5 } }) :
    NoneOf (updGates h 7 ++ [(h.upd.state ≠ 2, 0x17)] ++ updSafety h) ∧ lowAges h = [] ∧ (selected h).1 = none ∧
    (selected { h with fw := { h.fw with journal := { h.fw.journal with free := 131072, lastCompact := some 0 } } }).1 = some 0x05000002 := by
  subst hh
  simp only [NoneOf, updGates, updSafety, IsMoving, List.cons_append, List.nil_append]
  refine ⟨by decide +kernel, by decide +kernel, by decide +kernel, by decide +kernel⟩
theorem wit_FirmwareUpdate_4 (h : Hw) (hh : h = (witUpd.sf UPD_STAT_PHASE 2).setUpd { witUpd.upd with fixSince := true, trial := true }) :
    NoneOf [(h.rf UPD_STAT_PHASE ≠ 2, 0x17), (h.obj 0x8002 6 = 1 ∧ h.upd.fixSince = false, 0x1A)] ∧ FirstOf [(witUpd.rf UPD_STAT_PHASE ≠ 2, 0x17),
      (witUpd.obj 0x8002 6 = 1 ∧ witUpd.upd.fixSince = false, 0x1A)] 0x17 ∧ h.fuses.otp = 0 ∧ h.mramNum (slotAt 0 + 0xC) 2 = 0 ∧
    (h.storeBytes (slotAt 0 + 0xC) [7, 0]).mramNum (slotAt 0 + 0xC) 2 = 7 ∧ h.upd.expired = false ∧ h.upd.splicing = none ∧ h.sys.fwRunning = true := by
  subst hh
  simp only [NoneOf, FirstOf]
  refine ⟨by decide +kernel, by decide +kernel, by decide +kernel, by decide +kernel, by decide +kernel, by decide +kernel, by decide +kernel, by decide +kernel⟩
theorem wit_FirmwareUpdate_5 (h : Hw) (hh : h = { witUpd with upd := { witUpd.upd with splicing := some (1, 0, true), trial := true } }) :
    h.upd.splicing = some (1, 0, true) ∧ h.upd.aging = [] ∧ ¬ HandoverGood h 1 := by
  subst hh
  refine ⟨rfl, rfl, ?_⟩
  rintro ⟨h, -⟩; revert h; decide +kernel

/-- A command is in progress whose START is sent, with its address acknowledged or not. -/
def witI2c (cmd : Nat) (addrd : Bool) (tx rx : List Nat) : Hw :=
  { (Hw.reset.sf I2C_CFG_EN 1).sf I2C_STAT_BUSY 1 with i2c := ⟨tx, rx, cmd, true, addrd, false⟩ }
theorem wit_I2cBus_1 : (Hw.reset.sf I2C_CFG_EN 1).rf I2C_CFG_EN = 1 ∧ (Hw.reset.sf I2C_CFG_EN 1).rf I2C_STAT_BUSY = 0 ∧
    ((Hw.reset.sf I2C_CFG_EN 1).sf I2C_STAT_HELD 1).rf I2C_STAT_HELD = 1 ∧ Hw.reset.i2c.free = false ∧ Hw.reset.rf I2C_STAT_HELD = 0 ∧
    Hw.reset.rf I2C_CFG_EN = 0 ∧ (Hw.reset.sf I2C_STAT_BUSY 1).rf I2C_STAT_BUSY = 1 ∧ Hw.reset.i2c.sent = false ∧
    Hw.reset.rf I2C_STAT_BUSY = 0 ∧ (Hw.reset.sf I2C_CFG_EN 1).rf I2C_STAT_HELD = 0 ∧
    (witI2c 0 false [] []).rf I2C_STAT_BUSY = 1 ∧ (witI2c 0 false [] []).i2c.sent = true := by decide +kernel
theorem wit_I2cBus_2 : ByteDue (witI2c 0x150 false [] []) ∧ ByteDue (witI2c 0x1D0 true [] []) ∧ ByteDue (witI2c 0x1D0 true [] (List.replicate 8 1)) ∧
    ByteDue (witI2c 0x150 true [7] []) ∧ ByteDue (witI2c 0x150 true [] []) ∧ ¬ ByteDue (witI2c 0x50 true [7] []) ∧ ¬ ByteDue Hw.reset := by
  simp only [ByteDue]; decide +kernel
theorem wit_I2cBus_3 : (witI2c 0x50 true [] []).rf I2C_STAT_BUSY = 1 ∧ (witI2c 0x50 true [] []).i2c.cmd / 256 % 256 = (witI2c 0x50 true [] []).rf I2C_STAT_DONECNT ∧
    (witI2c 0x50 true [] []).i2c.cmd.testBit 16 = false ∧ (witI2c 0x10050 true [] []).i2c.cmd.testBit 16 = true ∧
    8 ≤ (witI2c 0 true (List.replicate 8 1) []).i2c.tx.length ∧ (witI2c 0 true [] [5]).i2c.rx = [5] := by decide +kernel

/-- A part that keeps a soft map and a marked bank of unit 3, TAMPER_LOCKED and slot 1 as the confirmed one. -/
def witKept : Hw :=
  let h := Hw.reset.journalScan
  { h with kept := { h.kept with softMaps := [⟨3, 2, 300, 1⟩], failing := [(3, 7)], tamperLocked := true, confirmed := 1 }, upd := Hw.reset.upd }
theorem wit_KeptRecords_1 : (∀ r ∈ Hw.reset.keptRecords, Hw.reset.vendorValue r.1 r.2.1 = r.2.2) ∧ Hw.reset.fwUp = false := by decide +kernel
theorem witKept_upToDate : UpToDate witKept.keepRecords := by unfold UpToDate; decide +kernel
theorem witKept_kept : witKept.keepRecords.kept = witKept.kept := (Hw.keepRecords_touches (h := witKept)).kept
theorem witKept_upd : witKept.keepRecords.upd = Hw.reset.upd := (Hw.keepRecords_touches (h := witKept)).upd
theorem wit_KeptRecords_2 : UpToDate witKept.keepRecords ∧ witKept.keepRecords.kept.softMaps = [⟨3, 2, 300, 1⟩] ∧ witKept.keepRecords.kept.confirmed < 2 ∧
    witKept.keepRecords.upd.versions = (0, 0) := by
  refine ⟨witKept_upToDate, ?_⟩
  rw [witKept_kept, witKept_upd]
  exact ⟨rfl, by decide, rfl⟩

/-! ### Single steps, with what the specification states of them -/

namespace Smoke

/-- The part after a command; a command that stopped would leave it as it was. -/
def after (i : Instr) (h : Hw) : Hw :=
  match exec i ⟨h, []⟩ with
  | .next s => s.hw
  | _ => h

/-- The registers of loop core 0 after a command, on the word `w` and registers `r`. -/
def regs (i : Instr) (w : Nat) (r : CoreRegs) : Option CoreRegs := ((after i (witCore w r)).core 0).run.map (·.regs)

/-- Registers with A at `a` and M at `m`, and rounding to convergent with saturation off. -/
def am (a m : Int) : CoreRegs := { CoreRegs.start with a := BitVec.ofInt 40 a, m := BitVec.ofInt 16 m, mr := 2 }

end Smoke

/-- On an empty queue one timing clock passes, and the queue stays empty. -/
theorem test_step_empty (h : Hw) : step ⟨h, []⟩ = .next ⟨h.tick, []⟩ := rfl

/-- No word spells a command. -/
theorem test_no_words : decodeTableWord 32 0 = none := rfl

/-! CRCs: the check values of CRC-32 and of CRC-16 with initial value 0xFFFF, and the frame of 10.6. -/

theorem test_crc32_check : crc32 [0x31, 0x32, 0x33, 0x34, 0x35, 0x36, 0x37, 0x38, 0x39] = 0xCBF43926 := by decide +kernel
theorem test_crc16_frame : wowellFrame 2 [1, 7, 0, 0x51, 0x11, 0] = [0xA5, 6, 2, 1, 7, 0, 0x51, 0x11, 0, 0xAA, 0xDE] := by decide +kernel

/-! The worked examples of 1.5, 2.2, 9.1: aliases, ring places, units. -/

theorem test_set_alias : (Smoke.after (.setAliasWrite .nav 0x11034B00 2 8) (Hw.reset.store32 0x11034B00 0x10)).load32 0x11034B00 = 0x18 := by decide +kernel
theorem test_clear_alias : (Smoke.after (.clearAliasWrite .nav 0x11034B00 2 8) (Hw.reset.store32 0x11034B00 0x18)).load32 0x11034B00 = 0x10 := by decide +kernel
theorem test_ring_address : ((Hw.reset.sf (SP_RING_BASE 1) 4).sf (SP_RING_SIZE 1) 4).ringAddr 1 1000000 = 0x1007A120 := by decide +kernel
theorem test_unit_of : unitOf 0x11012345 = some 4 := by decide

/-! The loop cores (8.6). -/

/-- The words of the example of 8.7: RPTI #16, and MAC with AM 0b100, SP 0b01 and d = +1. -/
theorem test_rpti_word : (insnOf 0xD000000F).op = 0x34 ∧ (insnOf 0x56200001).op = 0x15 ∧ (insnOf 0x56200001).am = 4 ∧ (insnOf 0x56200001).sp = 1 ∧
    (insnOf 0x56200001).disp = 1 := by decide
/-- ADD with an immediate of −1: the carry out of bit 39 of 5 + (2^40 − 1) is 1. -/
theorem test_add : (Smoke.regs (.add 0) 0x4300FFFF (Smoke.am 5 0)).map (fun r => (r.a, r.sr)) = some (4, 4) := by decide +kernel
/-- SUB of an equal value: Z, and C as the carry of A + NOT(operand) + 1. -/
theorem test_sub : (Smoke.regs (.sub 0) 0x4B000005 (Smoke.am 5 0)).map (fun r => (r.a, r.sr)) = some (0, 5) := by decide +kernel
/-- An immediate with H = 1 is placed at bit 16 (R362). -/
theorem test_addh : (Smoke.regs (.addh 0) 0x47100001 (Smoke.am 5 0)).map (·.a) = some 0x10005 := by decide +kernel
/-- MPY of −1 and −1 in Q15 gives +2^31 (R359). -/
theorem test_mpy : (Smoke.regs (.mpy 0) 0x53008000 (Smoke.am 0 (-32768))).map (·.a) = some 0x80000000 := by decide +kernel
/-- MSU takes twice the product away. -/
theorem test_msu : (Smoke.regs (.msu 0) 0x5B000003 (Smoke.am 10 2)).map (fun r => r.a.toInt) = some (-2) := by decide +kernel
/-- ABS of a negative value, and NEG of a positive one. -/
theorem test_abs : (Smoke.regs (.abs 0) 0x77800000 (Smoke.am (-7) 0)).map (·.a) = some 7 := by decide +kernel
theorem test_neg : (Smoke.regs (.neg 0) 0x7B800000 (Smoke.am 7 0)).map (fun r => r.a.toInt) = some (-7) := by decide +kernel
/-- SAT clamps to 2^31 − 1 and sets SF. -/
theorem test_sat : (Smoke.regs (.sat 0) 0x7F800000 (Smoke.am 0x80000000 0)).map (fun r => (r.a, r.sr)) = some (0x7FFFFFFF, 16) := by decide +kernel
/-- ASH by +3 and by −1, which rounds half up under RND 1. -/
theorem test_ash : (Smoke.regs (.ash 0) 0x83000003 (Smoke.am 5 0)).map (·.a) = some 40 := by decide +kernel
theorem test_ash_rounds : (Smoke.regs (.ash 0) 0x8300FFFF (Smoke.am 5 0)).map (·.a) = some 3 := by decide +kernel
/-- NORM of 1 shifts by 30 (R369). -/
theorem test_norm : (Smoke.regs (.norm 0) 0x8B800000 (Smoke.am 1 0)).map (fun r => (r.a, r.m)) = some (0x40000000, 30) := by decide +kernel
/-- ATN of 0, and of I alone, which is phase 0 within 2^−17 cycle (R370). -/
theorem test_atn_zero : (Smoke.regs (.atn 0) 0x90000010 (Smoke.am 9 0)).map (fun r => (r.a, r.cyc)) = some (0, 17) := by decide +kernel
/-- AND takes its immediate without a sign (R362). -/
theorem test_and : (Smoke.regs (.and 0) 0x6B00FFFF (Smoke.am 0x80000001 0)).map (fun r => r.a.toInt) = some 1 := by decide +kernel
/-- CMP sets flags only. -/
theorem test_cmp : (Smoke.regs (.cmp 0) 0x63000006 (Smoke.am 5 0)).map (fun r => (r.a, r.sr)) = some (5, 2) := by decide +kernel
/-- NOP goes on after one cycle. -/
theorem test_nop : (Smoke.regs (.nop 0) 0xD7800000 CoreRegs.start).map (fun r => (r.pc, r.cyc)) = some (1, 1) := by decide +kernel
/-- A word whose OP is in no row is illegal: the task faults and the core is free of it. -/
theorem test_illegal_word : (insnOf 0).legal = false ∧ (insnOf 0xFC000000).legal = false := by decide

/-! The calendar, with the example of 15.7. -/

theorem test_calendar : dayOfDate 2100 3 1 = 36525 + 59 ∧ weekday (dayOfDate 2100 3 1) = 1 ∧ weekday (dayOfDate 2100 1 1) = 5 ∧ monthDays 2100 2 = 28 ∧
    dateOfDay (36525 + 59) = (2100, 3, 1) := by decide +kernel
theorem test_shadow : shadowTime 0 0x21000229 = none ∧
    (shadowTime 0x01000003 0x21000301).map (fun s => (time0Of s, time1Of s)) = some (0x01000003, 0x21000301) := by decide +kernel
/-! Commands that a part after reset answers as the tables say. -/

/-- A SET not above the counter is refused, one above raises it (R701). -/
theorem test_otp : (Smoke.after (.updOtpSet 0x700) Hw.reset).fuses.otp = 7 ∧ (Smoke.after (.updOtpSet 0) Hw.reset).rf UPD_OTP_REFUSED = 1 := by decide +kernel
/-- The worked example of 16.7: 513 blocks, and 6, 12 and 22 slots at 10, 25 and 50 Hz. -/
theorem test_blocks : (Smoke.after (.updBegin 7 2097664 0x30500) witUpd).upd.blocks = 513 ∧ spliceSlots 10 = 6 ∧ spliceSlots 25 = 12 ∧ spliceSlots 50 = 22 := by decide +kernel
/-- A transfer is refused on another link than the Lanyard port. -/
theorem test_begin_refused : (Smoke.after (.updBegin 0 2097664 0x30500) witUpd).upd.refusal = 0x16 := by decide +kernel
/-- A burst of reports is accepted up to 8 (R719). -/
theorem test_elog_queue : (Smoke.after (.elogReport 1 1 0 0 0) Hw.reset).elogQ.length = 1 := by decide +kernel
/-- I2C_CMD with EN 0 sets CFG_ERR (R750). -/
theorem test_i2c_disabled : (Smoke.after (.i2cCmd 0x150) Hw.reset).rf I2C_STAT_CFG_ERR = 1 := by decide +kernel
/-- A byte read of an empty receive FIFO is 0 without VALID (I2C_DATA). -/
theorem test_i2c_empty : (Smoke.after .i2cDataRead Hw.reset).resp = .data 0 := by decide +kernel
/-- A watchdog kick with another value is a core reset with cause 6 (R645). -/
theorem test_kick : (Smoke.after (.watchdogKick 0) Hw.reset).rf WAKE_RSTCAUSE_LAST = 6 := by decide +kernel
/-- A wrong width is a bus error: a byte read of a register (R17). -/
theorem test_width : (Smoke.after (.memoryRead .nav 0x40100018 0) Hw.reset).resp = .error := by decide +kernel
/-- A CAN request of node 33 has identifier 0x121, its response 0x1A1 (10.7). -/
theorem test_can_id : (Hw.reset.sf (CAN_CFG_NODE 0) 33).canId 0 2 = 0x121 ∧ (Hw.reset.sf (CAN_CFG_NODE 0) 33).canId 0 3 = 0x1A1 := by decide +kernel
/-- RATE 7 of HITCH_CTRL is refused (R284). -/
theorem test_hitch_rate : (Smoke.after (.hitchCtrlWrite 0xF) Hw.reset).rf HITCH_EVT_CFG_ERR = 1 ∧ (Smoke.after (.hitchCtrlWrite 0xF) Hw.reset).reg HITCH_CTRL = Hw.reset.reg HITCH_CTRL := by
  decide +kernel
/-- A port that is OFF starts with count 0 (R86). -/
theorem test_port_start : (Smoke.after (.portStart 1) (Hw.reset.sf (SP_RING_SIZE 0) 4)).portState 0 = portArmed := by decide +kernel
/-- A written byte enters the transmit FIFO of the I2C controller. -/
theorem test_i2c_write : (Smoke.after (.i2cDataWrite 5) Hw.reset).i2c.tx = [5] := by decide +kernel
/-- TCNT is read low word first, and the high word is latched (R306). -/
theorem test_tcnt : (Smoke.after .tcntLoRead { Hw.reset with tcnt := 0x500000007 }).resp = .data 7 := by decide +kernel
end

section
/-! SUPPORT. The flags of a loop core as the statements write them: Z and N replaced, every other bit of SR as it was (Table 8.3). -/

namespace Sys2Proof.Machine

theorem b2n_eq_toNat (b : Bool) : b2n b = b.toNat := by cases b <;> rfl

theorem setFlag_ZN_eq_statusOf (sr : Nat) (z n : Bool) :
    setFlag (setFlag sr flagZ z) flagN n = statusOf sr z n (sr.testBit 2) (sr.testBit 3) (sr.testBit 4) := by
  have hz := z.toNat_le
  have hn := n.toNat_le
  simp only [setFlag, statusOf, b2n_eq_toNat, Nat.toNat_testBit, flagZ, flagN]
  omega

theorem CoreRegs.setZN_eq_statusOf (r : CoreRegs) (v : Int) :
    r.setZN v = { r with sr := statusOf r.sr (decide (v = 0)) (decide (v < 0)) (r.sr.testBit 2) (r.sr.testBit 3) (r.sr.testBit 4) } := by
  rw [← setFlag_ZN_eq_statusOf]
  rfl

/-- A value of A's range loaded into A (8.3): the flags are those of the value. -/
theorem CoreRegs.load_eq_statusOf (r : CoreRegs) {v : Int} (lo : -2 ^ 39 ≤ v) (hi : v < 2 ^ 39) :
    r.load v = { r with
      a := BitVec.ofInt 40 v
      sr := statusOf r.sr (decide (v = 0)) (decide (v < 0)) (r.sr.testBit 2) (r.sr.testBit 3) (r.sr.testBit 4) } := by
  rw [CoreRegs.load, CoreRegs.setZN_eq_statusOf, BitVec.toInt_ofInt_eq_self (by decide) lo hi]

end Sys2Proof.Machine
end

section
/-! SUPPORT. Issue and completion: a core at which `Issues` holds runs its instruction, and one that changes registers only retires. -/

open Sys2Proof Sys2Proof.Machine

theorem after_eq_successor (r : CoreRegs) : r.after = successor r := by
  unfold CoreRegs.after successor
  cases r.rep with
  | none => rfl
  | some p => obtain ⟨n, k⟩ := p; by_cases hn : 1 < n <;> simp [hn, Nat.not_le.mpr, Nat.not_lt.mp]

theorem loopRetire_eq_retired (h : Hw) (c : Fin 8) (t : Running) (r : CoreRegs) (cost : Nat) :
    h.loopRetire c t r cost = retired h c t r cost := by
  rw [Hw.loopRetire, after_eq_successor, retired]

/-- No check of R382 stops the instruction, and its word needs no correction; RPT and RPTI have a check of their own (R374). -/
theorem Issues.loopIssue_eq {h : Hw} {c : Fin 8} {op next : Nat} {t : Running} {i : Insn} {cost : CoreRegs → Insn → Nat}
    (go : Hw → Running → Insn → Hw) (hi : Issues h c op (cost t.regs i) next t i) (hp : (op == 0x33 || op == 0x34) = false) :
    h.loopIssue c op cost go = go h t i := by
  obtain ⟨hrun, hidle, hstays, ⟨htest, hrow⟩, hintact, hword, hcode, hlegal, hlimit, -⟩ := hi
  have hreadable : h.unreadable (0x12800000 + 4 * t.regs.pc) = false := by rw [Hw.unreadable, hintact]; rfl
  have hcorrect : h.correct (0x12800000 + 4 * t.regs.pc) = h := by rw [Hw.correct, hintact]; rfl
  have hwithin : h.overLimit t (cost t.regs i) = false := by
    simp only [Hw.overLimit, Bool.and_eq_false_iff, bne_eq_false_iff_eq, decide_eq_false_iff_not, Nat.not_lt]
    exact hlimit
  simp [Hw.loopIssue, hrun, hidle, hstays, htest, hrow, hreadable, ← hword, hcode, hlegal, hcorrect, hp, hwithin]

theorem Issues.fetchOk {h : Hw} {c : Fin 8} {op cost : Nat} {t : Running} {i : Insn} (hi : Issues h c op cost (successor t.regs).1 t i) :
    h.fetchOk t = true := by
  simp [Hw.fetchOk, Hw.inSlot, after_eq_successor, hi.slot]

theorem Issues.runPlain_eq {h : Hw} {c : Fin 8} {op : Nat} {t : Running} {i : Insn} (f : CoreRegs → Insn → CoreRegs)
    (hi : Issues h c op i.cycles (successor t.regs).1 t i) (hp : (op == 0x33 || op == 0x34) = false) :
    h.runPlain c op f = retired h c t (f t.regs i) i.cycles := by
  rw [Hw.runPlain, Issues.loopIssue_eq _ hi hp, hi.fetchOk]
  exact loopRetire_eq_retired h c t _ _

/-- A command that runs `f` on the registers for one cycle transforms them as `f` does. -/
theorem transforms_of_runPlain {ins : Fin 8 → Instr} {op : Nat} {f : CoreRegs → Insn → CoreRegs} {P : CoreRegs → Insn → CoreRegs → Prop}
    (hexec : ∀ c s, exec (ins c) s = s.does (·.runPlain c op f)) (hp : (op == 0x33 || op == 0x34) = false)
    (hcost : (op == 0x24 || op == 0x25) = false) (hf : ∀ r i, P r i (f r i)) : Transforms ins op P := by
  intro s c t i hi
  have hone : i.cycles = 1 := by simp [Insn.cycles, hi.code, hcost]
  rw [← hone] at hi
  refine ⟨s.hw.runPlain c op f, hexec c s, f t.regs i, hf t.regs i, ?_⟩
  rw [hi.runPlain_eq f hp, hone]

end

section
/-! The shift of NORM (R369). It runs from -8 to 31; the lemmas count with n = k + 8, so that v × 2^k is the integer v × 2^n over 2^8. -/

namespace Sys2Proof.Machine

/-- The shift n - 8 brings v to the top of the Q31 range, on the side of its sign (R369). -/
abbrev NormalizedBy (v : Int) (n : Nat) : Prop :=
  (0 < v → 2 ^ 38 ≤ v * 2 ^ n ∧ v * 2 ^ n < 2 ^ 39) ∧ (v < 0 → -2 ^ 39 ≤ v * 2 ^ n ∧ v * 2 ^ n < -2 ^ 38)

/-- v × 2^n fits in 40 bits: the shift n - 8 keeps v in the Q31 range. -/
abbrev FitsShifted (v : Int) (n : Nat) : Prop := -2 ^ 39 ≤ v * 2 ^ n ∧ v * 2 ^ n < 2 ^ 39

/-- The largest shift that fits is the one of R369: one place further, the value would leave the range. -/
theorem exists_normalizedBy {v : Int} (lo : -2 ^ 39 ≤ v) (hi : v < 2 ^ 39) : ∃ n < 40, NormalizedBy v n := by
  have hfits := Nat.findGreatest_spec (P := FitsShifted v) (Nat.zero_le 39) (by rw [FitsShifted, pow_zero, mul_one]; exact ⟨lo, hi⟩)
  have hle : Nat.findGreatest (FitsShifted v) 39 ≤ 39 := Nat.findGreatest_le 39
  have hmax := Nat.findGreatest_is_greatest (P := FitsShifted v) (n := 39) (Nat.lt_succ_self _)
  generalize Nat.findGreatest (FitsShifted v) 39 = n at hfits hle hmax
  refine ⟨n, by omega, ?_⟩
  obtain hlt | rfl : n < 39 ∨ n = 39 := by omega
  · have hnext : ¬ FitsShifted v (n + 1) := hmax hlt
    rw [FitsShifted, pow_succ 2 n, ← mul_assoc] at hnext
    have hsign : 0 < v ↔ 0 < v * 2 ^ n := (mul_pos_iff_of_pos_right (by positivity)).symm
    omega
  · omega

theorem NormalizedBy.in_range {v : Int} {n : Nat} (hn : NormalizedBy v n) (hv : v ≠ 0) :
    -2 ^ 39 ≤ v * 2 ^ n / 2 ^ 8 ∧ v * 2 ^ n / 2 ^ 8 < 2 ^ 39 := by
  omega

/-- The model's shift by n - 8, to the left or to the right, gives the floor of v × 2^(n - 8). -/
theorem shift_eq_ediv (v : Int) (n : Nat) :
    (if 0 ≤ (n : Int) - 8 then v * (2 ^ ((n : Int) - 8).toNat : Nat) else v / (2 ^ (-((n : Int) - 8)).toNat : Nat)) = v * 2 ^ n / 2 ^ 8 := by
  split
  case isTrue hk =>
    obtain ⟨m, rfl⟩ : ∃ m, n = m + 8 := ⟨n - 8, by omega⟩
    rw [show ((m + 8 : Nat) : Int) - 8 = m by omega, Int.toNat_natCast, pow_add, ← mul_assoc, Int.mul_ediv_cancel _ (by decide)]
    norm_cast
  case isFalse hk =>
    obtain ⟨m, hm⟩ : ∃ m, m + n = 8 := ⟨8 - n, by omega⟩
    rw [show -((n : Int) - 8) = m by omega, Int.toNat_natCast, ← hm, pow_add, Int.mul_ediv_mul_of_pos_left _ _ (by positivity)]
    norm_cast

theorem normShift_succ {v : Int} (hv : v ≠ 0) (n : Nat) : normShift v (n + 1) = if NormalizedBy v n then (n : Int) - 8 else normShift v n := by
  have hfits : (if 0 < v then decide (1073741824 ≤ v * 2 ^ n / 2 ^ 8 ∧ v * 2 ^ n / 2 ^ 8 < 2147483648)
      else decide (-2147483648 ≤ v * 2 ^ n / 2 ^ 8 ∧ v * 2 ^ n / 2 ^ 8 < -1073741824)) = decide (NormalizedBy v n) := by
    split <;> rw [decide_eq_decide] <;> omega
  simp only [normShift, shift_eq_ediv, hfits, decide_eq_true_eq]

/-- The search finds a shift of R369 where there is one. -/
theorem normShift_spec {v : Int} (hv : v ≠ 0) (n : Nat) (h : ∃ m < n, NormalizedBy v m) :
    ∃ m < n, normShift v n = (m : Int) - 8 ∧ NormalizedBy v m := by
  induction n with
  | zero => obtain ⟨m, hm, -⟩ := h; omega
  | succ n ih =>
    rw [normShift_succ hv n]
    by_cases hn : NormalizedBy v n
    · exact ⟨n, n.lt_succ_self, if_pos hn, hn⟩
    · obtain ⟨m, hm, hmv⟩ := h
      have hne : m ≠ n := fun e => hn (e ▸ hmv)
      obtain ⟨k, hk, hkv, hkn⟩ := ih ⟨m, by omega, hmv⟩
      exact ⟨k, by omega, by rw [if_neg hn, hkv], hkn⟩

/-! ### The registers after NORM -/

theorem CoreRegs.norm_of_zero (r : CoreRegs) (ha : r.a = 0) :
    r.norm = { r with m := 0, sr := statusOf r.sr true false (r.sr.testBit 2) (r.sr.testBit 3) (r.sr.testBit 4) } := by
  rw [CoreRegs.norm, CoreRegs.acc, ha, if_pos (by rfl), CoreRegs.setZN_eq_statusOf]
  rfl

theorem CoreRegs.norm_of_ne_zero (r : CoreRegs) (ha : r.a ≠ 0) :
    ∃ n < 40, NormalizedBy r.a.toInt n ∧ r.norm.a.toInt = r.a.toInt * 2 ^ n / 2 ^ 8 ∧ r.norm.m = BitVec.ofInt 16 ((n : Int) - 8) ∧
      r.norm = { r with
        a := r.norm.a
        m := r.norm.m
        sr := statusOf r.sr false (decide (r.a.toInt < 0)) (r.sr.testBit 2) (r.sr.testBit 3) (r.sr.testBit 4) } := by
  have hv : r.a.toInt ≠ 0 := fun e => ha (BitVec.toInt_inj.mp e)
  obtain ⟨n, hn, hshift, hnorm⟩ := normShift_spec hv 40 (exists_normalizedBy r.a.le_toInt r.a.toInt_lt)
  have hzero : decide (r.a.toInt * 2 ^ n / 2 ^ 8 = 0) = false := decide_eq_false (by omega)
  have hsign : decide (r.a.toInt * 2 ^ n / 2 ^ 8 < 0) = decide (r.a.toInt < 0) := decide_eq_decide.mpr (by omega)
  obtain ⟨lo, hi⟩ := hnorm.in_range hv
  have hr : r.norm = { r with m := BitVec.ofInt 16 ((n : Int) - 8) }.load (r.a.toInt * 2 ^ n / 2 ^ 8) := by
    simp only [CoreRegs.norm, CoreRegs.acc, if_neg hv, hshift, shift_eq_ediv]
  rw [CoreRegs.load_eq_statusOf _ lo hi, hzero, hsign] at hr
  rw [hr]
  exact ⟨n, hn, hnorm, BitVec.toInt_ofInt_eq_self (by decide) lo hi, rfl, rfl⟩

end Sys2Proof.Machine

open Sys2Proof Sys2Proof.Machine

/-- Settles O31: A is in the 40-bit range, so the search from above finds the shift of R369. -/
theorem loopNorm : Obligations.LoopNorm := by
  refine transforms_of_runPlain (f := fun r _ => r.norm) (fun _ _ => rfl) rfl rfl fun r _ => ⟨r.norm_of_zero, fun ha => ?_⟩
  obtain ⟨n, hn, ⟨hpos, hneg⟩, hvalue, hshift, hr⟩ := r.norm_of_ne_zero ha
  have hk : ((n : Int) - 8 + 8).toNat = n := by omega
  refine ⟨(n : Int) - 8, by omega, by omega, ?_⟩
  rw [hk]
  exact ⟨hpos, hneg, hvalue, hshift, hr⟩

end

section
/-! The software reset (R646). -/

namespace Sys2Proof.Machine

variable {h : Hw} {v : Nat}

theorem exec_softwareReset (w : BitVec 32) (s : State) : exec (.softwareReset w) s = s.does (·.sysRst w.toNat) := rfl

theorem Hw.sysRst_of_key_core (hk : bits v 16 16 = 0x5253) (hc : bit v 0 = true) : h.sysRst v = h.coreReset 8 := if_pos ⟨hk, hc⟩

theorem Hw.sysRst_of_wrong_key (hk : bits v 16 16 ≠ 0x5253) : h.sysRst v = h := if_neg fun hkc => hk hkc.1

/-- A command that only changes the part completes, and `P` needs to hold of the part it leaves. -/
theorem completes_of_does {c : Instr} {s : State} {f : Hw → Hw} {P : Hw → Prop} (hexec : exec c s = s.does f) (hP : P (f s.hw)) :
    Completes c s P := ⟨f s.hw, hexec, hP⟩

end Sys2Proof.Machine

open Sys2Proof Sys2Proof.Machine

/-- Settles O7: the right key with CORE is a core reset of cause 8, and a wrong key leaves the part alone. -/
theorem softwareReset : Obligations.SoftwareReset := by
  refine ⟨fun s v hk hc => completes_of_does (exec_softwareReset v s) ?_, fun s v hk => completes_of_does (exec_softwareReset v s) ?_⟩
  · rw [Hw.sysRst_of_key_core hk hc]
    exact Hw.coreReset_by 8 (by decide)
  · exact Hw.sysRst_of_wrong_key hk

end
